-- ==== Sys2Proof/Word.lean ====
section
/-!
DEFINITION. Sys2Proof/Word.lean: the word types of the MQ8 and the plainest arithmetic on them.
Bytes are the smallest addressable unit, and everything wider is little-endian (R3).
-/
namespace Sys2Proof

/-- One byte. -/
abbrev Byte := BitVec 8

/-- The 64-bit contents of an x register or a state register (R7, R11). -/
abbrev Word := BitVec 64

/-- The 256-bit contents of a lane register (R8). -/
abbrev LaneReg := BitVec 256

/-- A register number, 0 to 31 (R7, R8). -/
abbrev Reg := Fin 32

/-- A microregister number, 0 to 15 (R260). -/
abbrev MReg := Fin 16

/-- Bits `lo` to `lo + n - 1` of a number: the field of a word. -/
def fld (w lo n : Nat) : Nat := w / 2 ^ lo % 2 ^ n

/-- The number `v`, of `n` bits, read as two's complement. -/
def sgn (n v : Nat) : Int := if v < 2 ^ (n - 1) then (v : Int) else (v : Int) - 2 ^ n

/-- A signed number reduced modulo `2 ^ n`. -/
def wrap (n : Nat) (v : Int) : Nat := (v % 2 ^ n).toNat

/-- A number as the little-endian bytes of an `n`-byte datum (R3). -/
def bytesOf : Nat → Nat → List Byte
  | 0, _ => []
  | n + 1, v => BitVec.ofNat 8 v :: bytesOf n (v / 256)

/-- The number that a little-endian string of bytes spells (R3). -/
def natOf : List Byte → Nat
  | [] => 0
  | b :: r => b.toNat + 256 * natOf r

end Sys2Proof
end

