-- ==== Sys2Proof/Syntax.lean ====
section
/-!
DEFINITION. Sys2Proof/Syntax.lean: the instructions and events of the MQ8, one constructor for each row of
the opcode table: the 16-bit lane forms, the 32-bit instructions, the modifier word with the
instruction it prefixes (R37), the microinstructions of an NMU handler (R263) and the events by which the
other agents take their steps (the rows without an encoding).
-/
namespace Sys2Proof

/-- Element width of `clz`, `ctz`, `ffs` and `popc` (R72). -/
inductive ElemWidth where
  | b | h | w | d
  deriving DecidableEq, Repr

/-- The order of an `ldg` or `stg`: plain, or acquire and release at a scope (R39, R186). -/
inductive Order where
  | plain | gang | dev | sys
  deriving DecidableEq, Repr

/-- Access size of a scalar load or store: 1, 2, 4 or 8 bytes (R39). -/
inductive Size where
  | b | h | w | d
  deriving DecidableEq, Repr

/-- The order of a global atomic: relaxed, or acquire and release, at a scope (R39). -/
inductive AtomOrder where
  | rlxGang | rlxDev | rlxSys | acqrelGang | acqrelDev | acqrelSys
  deriving DecidableEq, Repr

/-- The counters that `cwait` names, in the order of their numbers (R11, R177). -/
inductive Counter where
  | lc | sc | yc | mc | tc | nc | ic
  deriving DecidableEq, Repr

/-- The paths that `xfence` names, in the order of their numbers (R178). -/
inductive PathId where
  | core | copy | matrix | epi | table | nm | index | msg
  deriving DecidableEq, Repr

/-- Lane types 0 to 6 (R40, R92). -/
inductive LaneType where
  | f32 | bf16 | f16 | i32 | i16 | i8 | d8
  deriving DecidableEq, Repr

/-- The fields of a modifier word (R34); `k` is the signed scale. -/
structure Modifier where
  clamp : Fin 4
  neg : Bool
  abs : Bool
  sat : Bool
  k : BitVec 5
  deriving DecidableEq, Repr

/-- The second operand of a microinstruction: m[b], or the immediate (R263). -/
inductive MicroOperand where
  | reg (b : MReg)
  | imm (v : BitVec 15)
  deriving DecidableEq, Repr

/-- A peer window: where it starts in the system address space, its length, and the peer device with the address in its device
memory that the window maps to (R352). -/
structure PeerWindow where
  base : Nat
  len : Nat
  device : Nat
  addr : Nat
  deriving DecidableEq, Repr

/-- What the signed configuration record fixes (R368), as far as a step reads it. -/
structure ConfigRecord where
  /-- dies out of service, as a mask -/
  diesOut : BitVec 8
  /-- stacks out of service, as a mask -/
  stacksOut : BitVec 16
  /-- cores out of service, each numbered die * 160 + cluster * 8 + core -/
  coresOut : List Nat
  /-- device number in the fabric (R354) -/
  device : Nat
  /-- physical address of the root table (R312) -/
  rootTable : Nat
  /-- physical address of the ring save area (R242) -/
  ringSave : Nat
  /-- physical address of the record store (R306) -/
  recordStore : Nat
  /-- the table of peer windows as the device starts with it (R352) -/
  peers : List PeerWindow
  /-- route tables of the fabric ports: destination device and port (R354) -/
  routes : List (Nat × Nat)
  /-- budgets: number function * 7 + class, with B(v, c) (R357) -/
  budgets : List (Nat × Nat)
  /-- alarm action of each class (R359) -/
  alarms : List Nat
  /-- lease units withheld on each die (R361) -/
  withheld : Nat
  /-- whether L2 retention is allowed (R363) -/
  retention : Bool
  /-- the dispatch firmware, as an image (R148, R368) -/
  firmware : List Byte
  /-- weights of the functions in the round-robin, where the record sets one (R148) -/
  weights : List (Nat × Nat)
  deriving DecidableEq, Repr

/-- What a peer device asks of this device's memory (R353). -/
inductive PeerOp where
  | read
  | write
  | atomic (fn : Fin 9) (dword : Bool)
  | cas (dword : Bool) (expected : BitVec 64)
  deriving DecidableEq, Repr

/-- What an event's step concerns, laid down with the event in the agenda: `unit` numbers the agent (a slot, core, cluster,
die, slice, NMU, launch or function), `idx` a place in that agent's queue, a rival or a class, `num` a count, a
length, an offset or an address, and the rest is what the outside world brings. -/
structure EventArgs where
  unit : Nat
  idx : Nat
  num : Nat
  data : BitVec 512
  flag : Bool
  cfg : ConfigRecord
  peer : PeerOp
  deriving DecidableEq, Repr

/-- The instructions and events, one constructor for each row of the opcode table. Register arguments
are named as the encodings name them: `d` a destination, `a`, `b`, `c` sources; `i` an immediate, `t` a lane
type, `o` an order, `z` a size. Branch offsets count halfwords. An event has no operand of its own: what its
step concerns stands in the state, where the agenda laid it (`EventArgs`). -/
inductive Instr where
  /-- ADD (R66): Writes the 64-bit sum of x[a] and x[b], modulo 2^64, to x[d]. -/
  | add (d a b : Fin 32)
  /-- SUB (R66): Writes x[a] minus x[b], modulo 2^64, to x[d]. -/
  | sub (d a b : Fin 32)
  /-- AND (R66): Writes the bitwise AND of x[a] and x[b] to x[d]. -/
  | and (d a b : Fin 32)
  /-- OR (R66): Writes the bitwise OR of x[a] and x[b] to x[d]. -/
  | or (d a b : Fin 32)
  /-- XOR (R66): Writes the bitwise XOR of x[a] and x[b] to x[d]. -/
  | xor (d a b : Fin 32)
  /-- ANDN (R66): Writes x[a] AND NOT x[b] to x[d]. -/
  | andn (d a b : Fin 32)
  /-- SHL (R66): Shifts x[a] left by x[b] bits [5:0], with zeros entering. -/
  | shl (d a b : Fin 32)
  /-- SHR (R66): Shifts x[a] right by x[b] bits [5:0], with zeros entering. -/
  | shr (d a b : Fin 32)
  /-- SRA (R66): Shifts x[a] right arithmetically by x[b] bits [5:0]. -/
  | sra (d a b : Fin 32)
  /-- SLT (R66): Writes 1 to x[d] if x[a] < x[b] as i64, and 0 otherwise. -/
  | slt (d a b : Fin 32)
  /-- SLTZ (R66): Writes 1 to x[d] if x[a] < x[b] as z64, and 0 otherwise. -/
  | sltz (d a b : Fin 32)
  /-- MIN (R66): Writes the lesser of x[a] and x[b] as i64 to x[d]. -/
  | min (d a b : Fin 32)
  /-- MAX (R66): Writes the greater of x[a] and x[b] as i64 to x[d]. -/
  | max (d a b : Fin 32)
  /-- MINZ (R66): Writes the lesser of x[a] and x[b] as z64 to x[d]. -/
  | minz (d a b : Fin 32)
  /-- MAXZ (R66): Writes the greater of x[a] and x[b] as z64 to x[d]. -/
  | maxz (d a b : Fin 32)
  /-- SEL (R66): Writes x[b] to x[d] if x[a] is nonzero, and x[c] otherwise. -/
  | sel (d a b c : Fin 32)
  /-- ADDW (R66): Writes the sign-extended low 32 bits of x[a] + x[b] to x[d]. -/
  | addw (d a b : Fin 32)
  /-- SUBW (R66): Writes the sign-extended low 32 bits of x[a] - x[b] to x[d]. -/
  | subw (d a b : Fin 32)
  /-- ROTL (R66): Rotates x[a] left by x[b] bits [5:0]. -/
  | rotl (d a b : Fin 32)
  /-- ROTR (R66): Rotates x[a] right by x[b] bits [5:0]. -/
  | rotr (d a b : Fin 32)
  /-- ADDI (R68): Writes x[a] plus the sign-extended immediate, modulo 2^64, to x[d]. -/
  | addi (d a : Fin 32) (i : BitVec 15)
  /-- ANDI (R68): Writes x[a] AND the sign-extended immediate to x[d]. -/
  | andi (d a : Fin 32) (i : BitVec 15)
  /-- ORI (R68): Writes x[a] OR the sign-extended immediate to x[d]. -/
  | ori (d a : Fin 32) (i : BitVec 15)
  /-- XORI (R68): Writes x[a] XOR the sign-extended immediate to x[d]. -/
  | xori (d a : Fin 32) (i : BitVec 15)
  /-- SHLI (R69): Shifts x[a] left by an immediate amount, with zeros entering. -/
  | shli (d a : Fin 32) (n : Fin 64)
  /-- SHRI (R69): Shifts x[a] right by an immediate amount, with zeros entering. -/
  | shri (d a : Fin 32) (n : Fin 64)
  /-- SRAI (R69): Shifts x[a] right arithmetically by an immediate amount. -/
  | srai (d a : Fin 32) (n : Fin 64)
  /-- SLTI (R68): Writes 1 to x[d] if x[a] is less than the immediate as i64. -/
  | slti (d a : Fin 32) (i : BitVec 15)
  /-- SLTZI (R68): Writes 1 to x[d] if x[a] is less than the sign-extended immediate as z64. -/
  | sltzi (d a : Fin 32) (i : BitVec 15)
  /-- LIM (R70): Writes SignExt(imm20 << 12, 32) to x[d]. -/
  | lim (d : Fin 32) (i : BitVec 20)
  /-- LPC (R70): Writes PC + SignExt(imm20 << 12, 32) to x[d]. -/
  | lpc (d : Fin 32) (i : BitVec 20)
  /-- CLZ (R72): Counts the leading zero bits of each element of the selected width in x[a]. -/
  | clz (w : ElemWidth) (d a : Fin 32)
  /-- CTZ (R72): Counts the trailing zero bits of each element of the selected width in x[a]. -/
  | ctz (w : ElemWidth) (d a : Fin 32)
  /-- FFS (R72): Writes 1 plus the index of the lowest set bit of each element, or 0 for a zero element. -/
  | ffs (w : ElemWidth) (d a : Fin 32)
  /-- POPC (R72): Counts the set bits of each element of the selected width in x[a]. -/
  | popc (w : ElemWidth) (d a : Fin 32)
  /-- REV (R72): Reverses the bit order of x[a]. -/
  | rev (d a : Fin 32)
  /-- BSWAP (R72): Reverses the byte order of x[a]. -/
  | bswap (d a : Fin 32)
  /-- BEXT (R73): Extracts a bit field of x[a], at the position in x[b] and of the length in x[c], zero-extended. -/
  | bext (d a b c : Fin 32)
  /-- BINS (R73): Inserts the low bits of x[a] into a bit field of x[d]. -/
  | bins (d a b c : Fin 32)
  /-- MUL (R74): Writes the low 64 bits of x[a] times x[b] to x[d]. -/
  | mul (d a b : Fin 32)
  /-- MULH (R74): Writes the high 64 bits of the signed product to x[d]. -/
  | mulh (d a b : Fin 32)
  /-- MULHZ (R74): Writes the high 64 bits of the unsigned product to x[d]. -/
  | mulhz (d a b : Fin 32)
  /-- MULHSZ (R74): Writes the high 64 bits of the product of signed x[a] and unsigned x[b] to x[d]. -/
  | mulhsz (d a b : Fin 32)
  /-- DIV (R75): Divides as i64, truncating toward zero; never traps, and occupies the slot for a data-dependent time. -/
  | div (d a b : Fin 32)
  /-- DIVZ (R75): Divides as z64, truncating; never traps. -/
  | divz (d a b : Fin 32)
  /-- REM (R75): Writes the signed remainder, which takes the sign of the dividend, to x[d]. -/
  | rem (d a b : Fin 32)
  /-- REMZ (R75): Writes the unsigned remainder to x[d]. -/
  | remz (d a b : Fin 32)
  /-- MULW (R74): Writes the sign-extended low 32 bits of the product to x[d]. -/
  | mulw (d a b : Fin 32)
  /-- BEQ (R76): Branches if x[a] equals x[b]. -/
  | beq (a b : Fin 32) (o : BitVec 15)
  /-- BNE (R76): Branches if x[a] differs from x[b]. -/
  | bne (a b : Fin 32) (o : BitVec 15)
  /-- BLT (R76): Branches if x[a] < x[b] as i64. -/
  | blt (a b : Fin 32) (o : BitVec 15)
  /-- BGE (R76): Branches if x[a] >= x[b] as i64. -/
  | bge (a b : Fin 32) (o : BitVec 15)
  /-- BLO (R76): Branches if x[a] < x[b] as z64. -/
  | blo (a b : Fin 32) (o : BitVec 15)
  /-- BHS (R76): Branches if x[a] >= x[b] as z64. -/
  | bhs (a b : Fin 32) (o : BitVec 15)
  /-- JAL (R77): Writes PC + 4 to x[d] and jumps PC-relative. -/
  | jal (d : Fin 32) (i : BitVec 20)
  /-- JALR (R77): Writes PC + 4 to x[d] and jumps to x[a] + imm. -/
  | jalr (d a : Fin 32) (i : BitVec 15)
  /-- LOOP (R80): Starts a hardware loop level with its count taken from x[a], or skips the body when the count is 0. -/
  | loop (a : Fin 32) (e : Fin 1024)
  /-- LOOPI (R80): Starts a hardware loop level with an immediate count from 0 to 31. -/
  | loopi (n : Fin 32) (e : Fin 1024)
  /-- LDG (R83): Issues a global scalar load, acquire at the order's scope, that retires at issue. -/
  | ldg (o : Order) (z : Size) (s : Bool) (d a : Fin 32) (i : BitVec 10)
  /-- STG (R83): Issues a global scalar store, release at the order's scope, that retires at issue. -/
  | stg (o : Order) (z : Size) (d a : Fin 32) (i : BitVec 10)
  /-- LDG_V (R169): Issues a 32-byte global vector load into an f register. -/
  | ldgV (o : Order) (d a : Fin 32) (i : BitVec 10)
  /-- STG_V (R169): Issues a 32-byte global vector store from an f register. -/
  | stgV (o : Order) (d a : Fin 32) (i : BitVec 10)
  /-- LDL (R85): Loads from local memory, plain or gang acquire. -/
  | ldl (o : Bool) (z : Size) (s : Bool) (d a : Fin 32) (i : BitVec 10)
  /-- STL (R85): Stores to local memory, plain or gang release. -/
  | stl (o : Bool) (z : Size) (d a : Fin 32) (i : BitVec 10)
  /-- LDL_V (R169): Loads 32 bytes of local memory into an f register. -/
  | ldlV (o : Bool) (d a : Fin 32) (i : BitVec 10)
  /-- STL_V (R169): Stores an f register to 32 bytes of local memory. -/
  | stlV (o : Bool) (d a : Fin 32) (i : BitVec 10)
  /-- AMO_ADD (R171): Global atomic add, with optional release and acquire. -/
  | amoAdd (o : AtomOrder) (z : Bool) (d a b : Fin 32)
  /-- AMO_AND (R171): Global atomic AND. -/
  | amoAnd (o : AtomOrder) (z : Bool) (d a b : Fin 32)
  /-- AMO_OR (R171): Global atomic OR. -/
  | amoOr (o : AtomOrder) (z : Bool) (d a b : Fin 32)
  /-- AMO_XOR (R171): Global atomic XOR. -/
  | amoXor (o : AtomOrder) (z : Bool) (d a b : Fin 32)
  /-- AMO_MIN (R171): Global atomic signed minimum. -/
  | amoMin (o : AtomOrder) (z : Bool) (d a b : Fin 32)
  /-- AMO_MAX (R171): Global atomic signed maximum. -/
  | amoMax (o : AtomOrder) (z : Bool) (d a b : Fin 32)
  /-- AMO_MINZ (R171): Global atomic unsigned minimum. -/
  | amoMinz (o : AtomOrder) (z : Bool) (d a b : Fin 32)
  /-- AMO_MAXZ (R171): Global atomic unsigned maximum. -/
  | amoMaxz (o : AtomOrder) (z : Bool) (d a b : Fin 32)
  /-- AMO_SWAP (R171): Global atomic swap. -/
  | amoSwap (o : AtomOrder) (z : Bool) (d a b : Fin 32)
  /-- CAS (R171): Global compare-and-swap against the expected value in x[d]. -/
  | cas (o : AtomOrder) (z : Bool) (d a b : Fin 32)
  /-- AMOL_ADD (R173): Local atomic add. -/
  | amolAdd (z : Bool) (d a b : Fin 32)
  /-- AMOL_AND (R173): Local atomic AND. -/
  | amolAnd (z : Bool) (d a b : Fin 32)
  /-- AMOL_OR (R173): Local atomic OR. -/
  | amolOr (z : Bool) (d a b : Fin 32)
  /-- AMOL_XOR (R173): Local atomic XOR. -/
  | amolXor (z : Bool) (d a b : Fin 32)
  /-- AMOL_MIN (R173): Local atomic signed minimum. -/
  | amolMin (z : Bool) (d a b : Fin 32)
  /-- AMOL_MAX (R173): Local atomic signed maximum. -/
  | amolMax (z : Bool) (d a b : Fin 32)
  /-- AMOL_MINZ (R173): Local atomic unsigned minimum. -/
  | amolMinz (z : Bool) (d a b : Fin 32)
  /-- AMOL_MAXZ (R173): Local atomic unsigned maximum. -/
  | amolMaxz (z : Bool) (d a b : Fin 32)
  /-- AMOL_SWAP (R173): Local atomic swap. -/
  | amolSwap (z : Bool) (d a b : Fin 32)
  /-- CWAIT (R177): Waits until the named counter is at most n. -/
  | cwait (k : Counter) (n : Fin 32)
  /-- XFENCE (R178): Makes observed writes of one path visible to later reads by another path. -/
  | xfence (f t : PathId)
  /-- SWINIT (R181): Indivisibly sets a sync word's target, clears count and hw, and arms it. -/
  | swinit (a b : Fin 32)
  /-- SWADD (R181): Releases at gang scope, then makes an arrival of x[b] bytes at the sync word. -/
  | swadd (a b : Fin 32)
  /-- SWWAIT (R181): Waits until the sync word's generation differs from x[b], then acquires at gang scope. -/
  | swwait (a b : Fin 32)
  /-- SWGET (R181): Reads a sync word's generation into x[d]. -/
  | swget (d a : Fin 32)
  /-- SWCNT (R181): Reads a sync word's count into x[d]. -/
  | swcnt (d a : Fin 32)
  /-- MOPEN (R140): Opens a message packet to a core of the cluster, with its destination and sync word. -/
  | mopen (a b c : Fin 32)
  /-- MPUT (R141): Appends the 8 bytes of x[b] to the open packet. -/
  | mput (b : Fin 32)
  /-- MPUT_V (R141): Appends the 32 bytes of f[b] to the open packet. -/
  | mputV (b : Fin 32)
  /-- MPUT_E (R141): Appends 8 bytes and closes the packet. -/
  | mputE (b : Fin 32)
  /-- MPUT_VE (R141): Appends 32 bytes and closes the packet. -/
  | mputVe (b : Fin 32)
  /-- GBAR (R131): Arrives at the gang barrier and waits, with a count vote. -/
  | gbar (d a : Fin 32)
  /-- GBAR_AND (R131): Barrier with an AND vote. -/
  | gbarAnd (d a : Fin 32)
  /-- GBAR_OR (R131): Barrier with an OR vote. -/
  | gbarOr (d a : Fin 32)
  /-- GBAR_ADD (R131): Barrier with a sum vote. -/
  | gbarAdd (d a : Fin 32)
  /-- GBAR_MAX (R131): Barrier with a signed maximum vote. -/
  | gbarMax (d a : Fin 32)
  /-- GBAR_MIN (R131): Barrier with a signed minimum vote. -/
  | gbarMin (d a : Fin 32)
  /-- LAUNCH (R134): Reads a launch packet, releases at device scope, checks it and queues it with a new launch id. -/
  | launch (d a : Fin 32)
  /-- EXIT (R87): Waits for outstanding work, releases at device scope, frees the matrix unit and streams, and ends the thread. -/
  | exit (a : Fin 32)
  /-- YIELD (R88): Discards prefetched instructions, invalidates the instruction cache and yields issue to other slots. -/
  | yield
  /-- SYS (R89): Raises cause 0x14 with tval x[a]. -/
  | sys (a : Fin 32)
  /-- BRK (R89): Raises cause 0x13 with tval the instruction word. -/
  | brk
  /-- URET (R300): Returns from an upcall, restoring loop state and parking the listed replay records. -/
  | uret
  /-- URET_REPLAY (R300): Returns from an upcall and performs every held replay record again. -/
  | uretReplay
  /-- SRD (R90): Copies a state register to x[d]. -/
  | srd (d : Fin 32) (n : Fin 1024)
  /-- SWR (R90): Copies x[a] to a writable state register. -/
  | swr (n : Fin 1024) (a : Fin 32)
  /-- VADD (R93): Lane-wise addition. -/
  | vadd (t : LaneType) (d a b : Fin 32)
  /-- VSUB (R93): Lane-wise subtraction. -/
  | vsub (t : LaneType) (d a b : Fin 32)
  /-- VMUL (R93): Lane-wise multiplication. -/
  | vmul (t : LaneType) (d a b : Fin 32)
  /-- VMAX (R93): Lane-wise maximum. -/
  | vmax (t : LaneType) (d a b : Fin 32)
  /-- VMIN (R93): Lane-wise minimum. -/
  | vmin (t : LaneType) (d a b : Fin 32)
  /-- VAND (R93): Bitwise AND of the lanes. -/
  | vand (t : LaneType) (d a b : Fin 32)
  /-- VOR (R93): Bitwise OR of the lanes. -/
  | vor (t : LaneType) (d a b : Fin 32)
  /-- VXOR (R93): Bitwise XOR of the lanes. -/
  | vxor (t : LaneType) (d a b : Fin 32)
  /-- VDIV (R93): Correctly rounded lane-wise division. -/
  | vdiv (t : LaneType) (d a b : Fin 32)
  /-- VSQRT (R93): Lane-wise square root. -/
  | vsqrt (t : LaneType) (d a : Fin 32)
  /-- VRCP (R93): Lane-wise reciprocal. -/
  | vrcp (t : LaneType) (d a : Fin 32)
  /-- VRSQ (R93): Lane-wise reciprocal square root. -/
  | vrsq (t : LaneType) (d a : Fin 32)
  /-- VEXP2 (R93): Lane-wise 2^x. -/
  | vexp2 (t : LaneType) (d a : Fin 32)
  /-- VLOG2 (R93): Lane-wise log2 x. -/
  | vlog2 (t : LaneType) (d a : Fin 32)
  /-- VSHL (R94): Lane-wise left shift. -/
  | vshl (t : LaneType) (d a b : Fin 32)
  /-- VSHR (R94): Lane-wise logical right shift. -/
  | vshr (t : LaneType) (d a b : Fin 32)
  /-- VSRA (R94): Lane-wise arithmetic right shift. -/
  | vsra (t : LaneType) (d a b : Fin 32)
  /-- VABS (R93): Lane-wise magnitude. -/
  | vabs (t : LaneType) (d a : Fin 32)
  /-- VNEG (R93): Lane-wise negation. -/
  | vneg (t : LaneType) (d a : Fin 32)
  /-- VMOV (R93): Raw copy of all 256 bits. -/
  | vmov (t : LaneType) (d a : Fin 32)
  /-- VADD_16 (R29): 16-bit form of vadd with fd as first operand. -/
  | vadd16 (bf : Bool) (d b : Fin 32)
  /-- VSUB_16 (R29): 16-bit form of vsub. -/
  | vsub16 (bf : Bool) (d b : Fin 32)
  /-- VMUL_16 (R29): 16-bit form of vmul. -/
  | vmul16 (bf : Bool) (d b : Fin 32)
  /-- VMAX_16 (R29): 16-bit form of vmax. -/
  | vmax16 (bf : Bool) (d b : Fin 32)
  /-- VMIN_16 (R29): 16-bit form of vmin. -/
  | vmin16 (bf : Bool) (d b : Fin 32)
  /-- VMOV_16 (R29): 16-bit form of vmov. -/
  | vmov16 (d b : Fin 32)
  /-- VABS_16 (R29): 16-bit form of vabs. -/
  | vabs16 (bf : Bool) (d b : Fin 32)
  /-- VNEG_16 (R29): 16-bit form of vneg. -/
  | vneg16 (bf : Bool) (d b : Fin 32)
  /-- VAND_16 (R29): 16-bit form of vand. -/
  | vand16 (d b : Fin 32)
  /-- VOR_16 (R29): 16-bit form of vor. -/
  | vor16 (d b : Fin 32)
  /-- VXOR_16 (R29): 16-bit form of vxor. -/
  | vxor16 (d b : Fin 32)
  /-- VRCP_16 (R29): 16-bit form of vrcp. -/
  | vrcp16 (bf : Bool) (d b : Fin 32)
  /-- VRSQ_16 (R29): 16-bit form of vrsq. -/
  | vrsq16 (bf : Bool) (d b : Fin 32)
  /-- VEXP2_16 (R29): 16-bit form of vexp2. -/
  | vexp216 (bf : Bool) (d b : Fin 32)
  /-- VBCAST0 (R30): Copies lane 0 of fb, as raw bits, to every lane of fd. -/
  | vbcast0 (bf : Bool) (d b : Fin 32)
  /-- VZERO (R30): Sets fd to zero. -/
  | vzero (d : Fin 32)
  /-- MODIFIER_WORD (R36): Prefixes a modifiable instruction with scale, saturate, abs, neg and clamp steps, forming one instruction. -/
  | modifierWord (m : Modifier) (follower : BitVec 32)
  /-- VCMP_EQ (R97): Writes a lane mask of equality to x[d]. -/
  | vcmpEq (t : LaneType) (d a b : Fin 32)
  /-- VCMP_LT (R97): Writes a lane mask of less-than to x[d]. -/
  | vcmpLt (t : LaneType) (d a b : Fin 32)
  /-- VCMP_LE (R97): Writes a lane mask of less-or-equal to x[d]. -/
  | vcmpLe (t : LaneType) (d a b : Fin 32)
  /-- VCMP_NE (R97): Writes a lane mask of inequality to x[d]. -/
  | vcmpNe (t : LaneType) (d a b : Fin 32)
  /-- VSEL (R98): Replaces the lanes of fd whose mask bit is set with the lanes of fa. -/
  | vsel (t : LaneType) (d a b : Fin 32)
  /-- VREDADD (R99): Pairwise-tree sum of the lanes into lane 0. -/
  | vredadd (t : LaneType) (d a : Fin 32)
  /-- VREDMAX (R99): Tree maximum of the lanes into lane 0. -/
  | vredmax (t : LaneType) (d a : Fin 32)
  /-- VREDMIN (R99): Tree minimum of the lanes into lane 0. -/
  | vredmin (t : LaneType) (d a : Fin 32)
  /-- VPERM (R100): Permutes the lanes of fa by the indices in fb. -/
  | vperm (t : LaneType) (d a b : Fin 32)
  /-- VDOT (R101): Exact dot product of all lanes, rounded once into lane 0. -/
  | vdot (t : LaneType) (d a b : Fin 32)
  /-- VCVT (R102): Converts the lanes from the source type to the destination type in b. -/
  | vcvt (s u : LaneType) (d a : Fin 32)
  /-- VQ8 (R104): Quantises the lanes of fa to D8 in place, diverting outliers to stream 3. -/
  | vq8 (t : LaneType) (d a b : Fin 32)
  /-- VDQ8 (R105): Dequantises D8 bytes of fa under a scale code. -/
  | vdq8 (t : LaneType) (d a b : Fin 32)
  /-- VAMAX (R103): Finds the non-outlier amax of the lanes and its X8 scale code. -/
  | vamax (t : LaneType) (d a : Fin 32)
  /-- VBCAST (R106): Broadcasts the low bits of x[a] to every lane. -/
  | vbcast (t : LaneType) (d a : Fin 32)
  /-- VINS (R106): Inserts the low bits of x[a] into lane k. -/
  | vins (t : LaneType) (d a : Fin 32) (k : Fin 32)
  /-- VEXT (R106): Extracts lane k into x[d], extended. -/
  | vext (t : LaneType) (d a : Fin 32) (k : Fin 32)
  /-- VMVX (R106): Copies 64-bit lane j of fa to fd. -/
  | vmvx (d a : Fin 32) (j : Fin 32)
  /-- VFMA (R96): Fused xxy + z, rounded once. -/
  | vfma (t : LaneType) (d a b c : Fin 32)
  /-- VFMS (R96): Fused xxy - z. -/
  | vfms (t : LaneType) (d a b c : Fin 32)
  /-- VFNMA (R96): Fused -(xxy) - z. -/
  | vfnma (t : LaneType) (d a b c : Fin 32)
  /-- VFNMS (R96): Fused -(xxy) + z. -/
  | vfnms (t : LaneType) (d a b c : Fin 32)
  /-- SBIND (R110): Reads a stream record and binds stream s at position 0. -/
  | sbind (s : Fin 4) (a : Fin 32)
  /-- SEOS (R110): Sets the limit of a bound stream. -/
  | seos (s : Fin 4) (a : Fin 32)
  /-- SSTAT (R110): Reads a stream's position into x[d]. -/
  | sstat (d : Fin 32) (s : Fin 4)
  /-- SUNBIND (R110): Ends a stream binding. -/
  | sunbind (s : Fin 4)
  /-- TQL (R116): Looks up the index lanes of fa in a local table described by x[b]. -/
  | tql (d a b : Fin 32)
  /-- TQLATCH (R253): Issues a table command that latches a table row. -/
  | tqlatch (a : Fin 32)
  /-- TQD (R253): Issues a table command that gathers 64 latched entries to local memory. -/
  | tqd (a : Fin 32)
  /-- TQMAC (R253): Issues a table command that accumulates an index row against the latched table. -/
  | tqmac (a : Fin 32)
  /-- TQREAD (R253): Issues a table command that reads NMU accumulators to local memory. -/
  | tqread (a : Fin 32)
  /-- CPY (R213): Checks two layout records and queues a copy command. -/
  | cpy (a b c : Fin 32)
  /-- CPYQ (R220): Reads the copy queue state into x[d]. -/
  | cpyq (d : Fin 32)
  /-- MOWN (R225): Takes ownership of the core's matrix unit, waiting in order if it is owned. -/
  | mown
  /-- MREL (R234): Waits for matrix work and closed drains, then zeroes the ring and releases the unit. -/
  | mrel
  /-- MCFG (R227): Writes checked operand strides to sr.mstride. -/
  | mcfg (a : Fin 32)
  /-- MMA_BF16 (R229): Accumulates a bf16 A tile times B into the head tile. -/
  | mmaBf16 (a b : Fin 32)
  /-- MMA_D8 (R229): Accumulates a scaled D8 A tile times B into the head tile. -/
  | mmaD8 (a b c : Fin 32)
  /-- MMA_F16 (R229): Accumulates an f16 A tile times B into the head tile. -/
  | mmaF16 (a b : Fin 32)
  /-- MRING_ADV (R233): Closes the head tile and advances the ring head. -/
  | mringAdv
  /-- MRING_CLR (R233): Zeroes the head tile. -/
  | mringClr
  /-- EPCFG (R236): Reads and checks an epilogue record and makes it the configuration. -/
  | epcfg (a : Fin 32)
  /-- EPGO (R237): Requests the drain of the next n closed tiles. -/
  | epgo (a : Fin 32)
  /-- LEASE (R243): Asks power admission for a lease of a class and cycle count, without waiting. -/
  | lease (d a : Fin 32)
  /-- UNLEASE (R243): Ends the thread's current lease. -/
  | unlease
  /-- NMSEND (R262): Checks an NMU message record and sends it to the NMU. -/
  | nmsend (a : Fin 32)
  /-- NMRESUME (R267): Sends a resume record for a stopped handler. -/
  | nmresume (a : Fin 32)
  /-- NMLOAD (R269): Checks and sends a microcode handler load (privileged). -/
  | nmload (a : Fin 32)
  /-- NMSTAT (R268): Reads an NMU's status word into x[d]. -/
  | nmstat (d a : Fin 32)
  /-- MLI (R263): Loads a sign-extended 16-bit immediate into m[d]. -/
  | mli (d : Fin 16) (v : BitVec 16)
  /-- MLD (R263): Loads a buffer word into m[d]. -/
  | mld (d a : Fin 16) (v : MicroOperand)
  /-- MST (R263): Stores m[d] into a buffer word. -/
  | mst (d a : Fin 16) (v : MicroOperand)
  /-- MRDROW_READ (R263): Reads row m[a] into the buffer. -/
  | mrdrowRead (a : Fin 16)
  /-- MRDROW_WRITE (R265): Writes the buffer to row m[a] with fresh check bits. -/
  | mrdrowWrite (a : Fin 16)
  /-- MRDROW_ZERO (R265): Zeroes row m[a] if its frame tag is 0. -/
  | mrdrowZero (a : Fin 16)
  /-- MRDROW_COPY (R265): Copies row m[a] to row m[b] if the tags match. -/
  | mrdrowCopy (a b : Fin 16)
  /-- MADD (R263): m[d] := m[a] + v. -/
  | madd (d a : Fin 16) (v : MicroOperand)
  /-- MSUB (R263): m[d] := m[a] - v. -/
  | msub (d a : Fin 16) (v : MicroOperand)
  /-- MAND (R263): m[d] := m[a] AND v. -/
  | mand (d a : Fin 16) (v : MicroOperand)
  /-- MOR (R263): m[d] := m[a] OR v. -/
  | mor (d a : Fin 16) (v : MicroOperand)
  /-- MXOR (R263): m[d] := m[a] XOR v. -/
  | mxor (d a : Fin 16) (v : MicroOperand)
  /-- MSHL (R263): Shifts m[a] left by v mod 32. -/
  | mshl (d a : Fin 16) (v : MicroOperand)
  /-- MSHR (R263): Shifts m[a] right by v mod 32, with zeros entering. -/
  | mshr (d a : Fin 16) (v : MicroOperand)
  /-- MMUL (R263): Low 32 bits of m[a] times v. -/
  | mmul (d a : Fin 16) (v : MicroOperand)
  /-- MMAX (R263): Signed greater of m[a] and v. -/
  | mmax (d a : Fin 16) (v : MicroOperand)
  /-- MACC_ADD (R263): Adds m[d] into accumulator m[a] mod 2,048. -/
  | maccAdd (d a : Fin 16)
  /-- MACC_READ (R263): Reads accumulator m[a] mod 2,048 into m[d]. -/
  | maccRead (d a : Fin 16)
  /-- MBFW (R263): Branches forward if m[a] is nonzero. -/
  | mbfw (a : Fin 16) (o : Fin 64)
  /-- MBFW_ZERO (R263): Branches forward if m[a] is zero. -/
  | mbfwZero (a : Fin 16) (o : Fin 64)
  /-- MFIN (R263): Ends the handler with status m[d], writes back m0 to m7, arrives and leaves nc. -/
  | mfin (d : Fin 16)
  /-- IXNEAR (R283): Checks a query record and sends a search to the home engine. -/
  | ixnear (a : Fin 32)
  /-- IXSTORE (R286): Sends a store of n keys with payloads to the home engine. -/
  | ixstore (a : Fin 32)
  /-- IXSTORE_REL (R286): Releases at device scope, then sends a store of n keys. -/
  | ixstoreRel (a : Fin 32)
  /-- IXDEL (R287): Sends a deletion of n ids to the home engine. -/
  | ixdel (a : Fin 32)
  /-- IXSNAP (R288): Asks for the index version at acceptance into x[d]. -/
  | ixsnap (d a : Fin 32)
  /-- IXSTAT (R288): Asks for the index's status word into x[d]. -/
  | ixstat (d a : Fin 32)
  /-- IXCREATE (R289): Creates or destroys an index and waits for the engine's answer (privileged). -/
  | ixcreate (d a : Fin 32)
  /-- TSCORE_SET (R335): Sets the rival's score to x[a]. -/
  | tscoreSet (a : Fin 32)
  /-- TSCORE_MAX (R335): Combines x[a] into the score by maximum. -/
  | tscoreMax (a : Fin 32)
  /-- TSCORE_MIN (R335): Combines x[a] into the score by minimum. -/
  | tscoreMin (a : Fin 32)
  /-- TSCORE_ADD (R335): Adds x[a] to the score. -/
  | tscoreAdd (a : Fin 32)
  /-- TRINFO (R336): Reads a tournament item selected by x[a] into x[d]. -/
  | trinfo (d a : Fin 32)
  /-- PINV (R322): Drops translations in every slice, optionally flushing the page's frame (privileged). -/
  | pinv (a : Fin 32)
  /-- PSWAP (R324): Exchanges two frames and the pa fields of their leaves (privileged). -/
  | pswap (a b : Fin 32)
  /-- PCLR (R311): Clears the poison mark of a word, zeroing it (privileged). -/
  | pclr (a : Fin 32)
  /-- PGEN (R320): Releases and publishes a newer page-table generation to every slice (privileged). -/
  | pgen (a : Fin 32)
  /-- UDF (R43): Permanently undefined instruction; raises cause 0x01. -/
  | udf (u : BitVec 25)
  /-- LOAD_RETURN (R84): A global load or atomic in flight is performed through translation and writes its destination register, or posts a replay record on a translation fault. -/
  | loadReturn
  /-- STORE_PERFORM (R84): A retired global store is translated and performed at its scope, or posts a replay record. -/
  | storePerform
  /-- HELD_FAULT_POST (R297): A faulting access held back in its slice because all 8 record places were full is posted when a place frees. -/
  | heldFaultPost
  /-- ATOMIC_PERFORM (R172): An atomic executes indivisibly at its place (L1, slice, hub or memory controller) after recalling registrations. -/
  | atomicPerform
  /-- SYNC_WORD_WAKE (R182): A slot waiting in swwait becomes ready after the generation advances past its register value. -/
  | syncWordWake
  /-- MESSAGE_LANDING (R143): The bytes of a put land in the destination core scratchpad. -/
  | messageLanding
  /-- PACKET_COUNT (R143): After all of a packet's bytes have landed, its sync word counts the packet's total bytes. -/
  | packetCount
  /-- BARRIER_COMPLETE (R131): Once every live thread has arrived, the waiters leave 16 cycles later with the vote result and a gang acquire. -/
  | barrierComplete
  /-- LAUNCH_REPLICATE (R145): The hub copies an accepted packet, with its count N, into the replica queue of every die. -/
  | launchReplicate
  /-- COMPLETION_BLOCK_UPDATE (R138): For a finished gang, atomically updates least, failed and then finished as a release. -/
  | completionBlockUpdate
  /-- TQLATCH_EXEC (R255): At the NMU, copies the table row into its bank's latch, or ends with a status, then arrives. -/
  | tqlatchExec
  /-- TQMAC_EXEC (R256): At the NMU, adds 2,048 table entries selected by index nibbles into the accumulators, then arrives. -/
  | tqmacExec
  /-- TQD_EXEC (R257): At the NMU, writes 64 latched entries selected by local indices to ldst, then arrives. -/
  | tqdExec
  /-- TQREAD_EXEC (R258): At the NMU, writes accumulators to ldst, optionally clears them and releases the claim. -/
  | tqreadExec
  /-- COPY_COMMAND (R214): The copy engine walks a queued command, converting elements, and arrives at its sync word. -/
  | copyCommand
  /-- HELD_NOTICE_POST (R302): A failing command held because its slot's 16 notice places were full posts its notice when a place frees. -/
  | heldNoticePost
  /-- MMA_COMPLETE (R230): The last row of an mma is added into the tile and mc falls. -/
  | mmaComplete
  /-- TILE_DRAIN (R237): The epilogue drains a requested closed tile through scale, bias and activation to memory and arrives. -/
  | tileDrain
  /-- LEASE_EXPIRY (R243): A lease ends when its cycle count reaches 0. -/
  | leaseExpiry
  /-- NMU_MESSAGE_ARRIVAL (R262): A message reaches its NMU and is refused with status 6, 9 or 10 or joins the queue. -/
  | nmuMessageArrival
  /-- ROW_COPY (R265): Built-in handler 0 copies a row with its check and tag columns. -/
  | rowCopy
  /-- ROW_ZERO (R265): Built-in handler 1 zeroes a row of a tag-0 frame. -/
  | rowZero
  /-- INDEXED_REDUCE (R264): Built-in handler 2 sums listed rows word by word into a destination row. -/
  | indexedReduce
  /-- TABLE_GATHER (R264): Built-in handler 3 gathers latched table entries by an index row. -/
  | tableGather
  /-- TABLE_MAC (R264): Built-in handler 4 performs a table MAC as tqmac. -/
  | tableMac
  /-- ACCUMULATOR_READ (R264): Built-in handler 5 writes accumulators into a row. -/
  | accumulatorRead
  /-- ACCUMULATOR_CLEAR (R264): Built-in handler 6 zeroes a range of accumulators. -/
  | accumulatorClear
  /-- STATUS_HANDLER (R264): Built-in handler 7 returns the nmstat word in m0 and m1. -/
  | statusHandler
  /-- LOADED_HANDLER_START (R260): The NMU starts a queued message's loaded handler with its microregisters and buffer. -/
  | loadedHandlerStart
  /-- HANDLER_TIMEOUT (R266): A handler still stopped 2^20 cycles after its stop ends with status 12. -/
  | handlerTimeout
  /-- NMRESUME_APPLY (R267): The NMU accepts a resume record and retries, skips or aborts the stopped microinstruction. -/
  | nmresumeApply
  /-- HANDLER_LOAD (R269): Each named NMU installs a loaded handler between two handlers; the arrival follows once all have loaded. -/
  | handlerLoad
  /-- INDEX_QUERY_ACCEPT (R285): The home engine accepts a query into its sequence and fixes its snapshot. -/
  | indexQueryAccept
  /-- INDEX_SEARCH_END (R280): A search ends, writes its result list and out fields, and arrives. -/
  | indexSearchEnd
  /-- INDEX_STORE_COMMIT (R286): The home engine commits n entries as one commit, or ends with a status, and arrives. -/
  | indexStoreCommit
  /-- INDEX_DELETE_COMMIT (R287): The home engine deletes the visible listed ids as one commit and arrives. -/
  | indexDeleteCommit
  /-- INDEX_SNAPSHOT_ACCEPT (R288): The engine accepts an ixsnap and returns the version at acceptance. -/
  | indexSnapshotAccept
  /-- INDEX_STAT_ACCEPT (R288): The engine accepts an ixstat and returns the status word. -/
  | indexStatAccept
  /-- INDEX_CREATE (R289): The home engine creates an index in a free slot and returns its handle or a failure status. -/
  | indexCreate
  /-- INDEX_DESTROY (R289): The home engine ends the index's pending commands and empties its slot. -/
  | indexDestroy
  /-- ALLOWANCE_EXHAUSTED (R330): When a rival retires its round allowance, its threads are stopped and saved with flags.allow set. -/
  | allowanceExhausted
  /-- ROUND_END (R331): When every live rival has exhausted or finished and all its threads rest, the round ends. -/
  | roundEnd
  /-- GENERATION_NOTICE (R317): A generation notice reaches a slice, which empties its walk buffer, updates Gs and releases held replays. -/
  | generationNotice
  /-- UPCALL_DELIVERY (R22): Writes the fault record, sets epc, cause and tval, clears loop state, sets uact and enters the handler. -/
  | upcallDelivery
  /-- BIND_RECORD (R151): Firmware submits a bind record with resume 0; the last record of a group binds the whole gang. -/
  | bindRecord
  /-- RESUME_RECORD (R151): Firmware submits a bind record with resume 1, checked against its frame's continuation record. -/
  | resumeRecord
  /-- STOP_RECORD (R154): Firmware submits a stop record; an accepted group stops every thread of a running gang. -/
  | stopRecord
  /-- FRAME_COPY_DONE (R307): A frame has been copied into the slot; the save is checked and records, progress and ring are restored. -/
  | frameCopyDone
  /-- THREAD_STOP (R304): A stop takes effect at the thread's next boundary and starts the drain. -/
  | threadStop
  /-- SAVE_COMPLETE (R305): After the drain, the state areas, continuation record and records are written and released at system scope. -/
  | saveComplete
  /-- SAVE_DRAIN_TIMEOUT (R305): 20 µs after a stop, running copies and queries are suspended and unstarted NMU work is withdrawn. -/
  | saveDrainTimeout
  /-- SLOT_SPILL (R154): A saved private slice is copied to its frame, the slot is zeroed and freed. -/
  | slotSpill
  /-- CLUSTER_ZEROING_DONE (R153): After the last slot of the tenant is freed, the cluster's scratchpads are zeroed and held bind groups proceed. -/
  | clusterZeroingDone
  /-- GANG_RESERVATION (R149): A gang that has waited 50 µs at the head of its queue reserves a cluster and scratchpad units. -/
  | gangReservation
  /-- SCANNER_PAGE (R323): The scanner write-protects a dirty file page, flushes it and submits its write. -/
  | scannerPage
  /-- SCANNER_WRITE_DONE (R323): When the flash write completes, the scanner restores W, clears D and wb, and republishes. -/
  | scannerWriteDone
  /-- BUDGET_PERIOD_START (R356): Every instance begins a new 8 µs Invar period and resets its budget counts. -/
  | budgetPeriodStart
  /-- SECURITY_ALARM (R359): A monitor count above B(v,c)+64 raises an alarm and takes the configured action. -/
  | securityAlarm
  /-- BURST_PAUSE (R362): When a normal request has waited 1,880 cycles behind a burst, the burst pauses. -/
  | burstPause
  /-- BURST_RESUME (R362): The paused burst resumes once no normal request waits or 256 cycles have passed. -/
  | burstResume
  /-- SLICE_RETENTION (R363): An L2 slice enters retention after 65,536 cycles without an access. -/
  | sliceRetention
  /-- HOST_LAUNCH_WINDOW_WRITE (R348): A host write to a launch window is checked and queued, and the window status is updated. -/
  | hostLaunchWindowWrite
  /-- REPORT_REQUEST (R365): A write of 1 to the report request register starts building a signed usage report. -/
  | reportRequest
  /-- REPORT_READY (R365): A signed usage report is complete at BAR0 0x1000 and report busy clears. -/
  | reportReady
  /-- REGISTER_WRITE (R347): A host write to a BAR0 register without behaviour of its own, such as the report nonce, or an unlisted offset. -/
  | registerWrite
  /-- HOST_CXL_MEM_ACCESS (R351): A host access to device memory is performed at the memory controller after recall or back-invalidation. -/
  | hostCxlMemAccess
  /-- FUNCTION_LEVEL_RESET (R355): Resets one function: refuses its windows, discards its launches, stops its threads and destroys its indexes. -/
  | functionLevelReset
  /-- FABRIC_ACK_TIMEOUT (R353): A fabric write unacknowledged for 1 ms is dropped and its waiting thread is reported as 0x0A. -/
  | fabricAckTimeout
  /-- CORE_FAILURE (R309): A core fails: its threads' contexts are lost and words it registered are poisoned. -/
  | coreFailure
  /-- CORE_OUT_OF_SERVICE (R162): A core is taken out of service; its scratchpad is lost and its slots read state 7. -/
  | coreOutOfService
  /-- IDENTITY_ROTATION (R367): A signed command generates a new identity key, increments the epoch and zeroes usage counters. -/
  | identityRotation
  /-- BOOT (R368): From power-on, the ROM, Monel and configuration record bring the device up in six steps. -/
  | boot
  /-- CORE_RETURN_TO_SERVICE (R310): A core taken out of service returns to service, after Monel has zeroed its scratchpad, so its window no longer raises 0x09 and its slots leave state 7. -/
  | coreReturnToService
  /-- QUARANTINE_LIFT (R359): The physical function lifts the quarantine of a function, so that its window writes are no longer answered with status -6. -/
  | quarantineLift
  /-- BUDGET_CHANGE (R357): The physical function changes Invar budgets through Monel, and the new budgets apply from the start of the next period. -/
  | budgetChange
  /-- FABRIC_PEER_ACCESS (R353): An access or atomic from a peer device arrives over the Morquel Link fabric, is performed at the memory controller of this device's frame, and is acknowledged. -/
  | fabricPeerAccess
  /-- CONVENTIONAL_RESET (R346): A conventional reset of the device empties every index slot to generation 1, resets every window status, and brings the device up again. -/
  | conventionalReset
  deriving DecidableEq, Repr

end Sys2Proof
end

