-- ==== Sys2Proof/WellFormed.lean ====
section
/-!
DEFINITION. Sys2Proof/WellFormed.lean: which instructions have an encoding: the operand values that
R28 to R44, R72, R110 and R205 reserve are refused. A reserved value raises cause 0x02 when it is
executed, so the decoder never gives such an instruction.
-/
namespace Sys2Proof

/-- Types 0 to 5: arithmetic, logic and compares (R40). -/
def LaneType.arith : LaneType → Bool
  | .d8 => false
  | .f32 | .bf16 | .f16 | .i32 | .i16 | .i8 => true

/-- Types 0 to 2: the floating types (R40). -/
def LaneType.float : LaneType → Bool
  | .f32 | .bf16 | .f16 => true
  | .i32 | .i16 | .i8 | .d8 => false

/-- Types 3 to 5: the integer types (R40). -/
def LaneType.integer : LaneType → Bool
  | .i32 | .i16 | .i8 => true
  | .f32 | .bf16 | .f16 | .d8 => false

/-- The input types of `vdot` (R40). -/
def LaneType.dotInput : LaneType → Bool
  | .bf16 | .f16 | .i8 | .d8 => true
  | .f32 | .i32 | .i16 => false

/-- Lanes in a lane register (R8). -/
def LaneType.lanes : LaneType → Nat
  | .f32 | .i32 => 8
  | .bf16 | .f16 | .i16 => 16
  | .i8 | .d8 => 32

/-- The operand values an encoding admits. Events carry no encoding, and every one is admitted. -/
def Instr.wellFormed : Instr → Bool
  | .loop _ e => decide (e ≠ 0)
  | .loopi _ e => decide (e ≠ 0)
  | .ldg _ z s d _ _ => decide ((z ≠ .d ∨ s = false))
  | .ldl _ z s d _ _ => decide ((z ≠ .d ∨ s = false))
  | .vadd t _ _ _ => t.arith
  | .vsub t _ _ _ => t.arith
  | .vmul t _ _ _ => t.arith
  | .vmax t _ _ _ => t.arith
  | .vmin t _ _ _ => t.arith
  | .vand t _ _ _ => t.arith
  | .vor t _ _ _ => t.arith
  | .vxor t _ _ _ => t.arith
  | .vdiv t _ _ _ => t.float
  | .vsqrt t _ _ => t.float
  | .vrcp t _ _ => t.float
  | .vrsq t _ _ => t.float
  | .vexp2 t _ _ => t.float
  | .vlog2 t _ _ => t.float
  | .vshl t _ _ _ => t.integer
  | .vshr t _ _ _ => t.integer
  | .vsra t _ _ _ => t.integer
  | .vabs t _ _ => t.arith
  | .vneg t _ _ => t.arith
  | .vcmpEq t _ _ _ => t.arith
  | .vcmpLt t _ _ _ => t.arith
  | .vcmpLe t _ _ _ => t.arith
  | .vcmpNe t _ _ _ => t.arith
  | .vredadd t _ _ => t.arith
  | .vredmax t _ _ => t.arith
  | .vredmin t _ _ => t.arith
  | .vdot t _ _ _ => t.dotInput
  | .vq8 t _ _ _ => t.float
  | .vdq8 t _ _ _ => t.float
  | .vamax t _ _ => t.float
  | .vins t _ _ k => decide (k.val < t.lanes)
  | .vext t _ _ k => decide (k.val < t.lanes)
  | .vmvx _ _ j => decide (j.val < 4)
  | .vfma t _ _ _ _ => t.float
  | .vfms t _ _ _ _ => t.float
  | .vfnma t _ _ _ _ => t.float
  | .vfnms t _ _ _ _ => t.float
  | .cpy a b _ => decide ((a.val % 4 = 0 ∧ a.val ≤ 24) ∧ b.val % 4 = 0 ∧ b.val ≤ 24)
  | .modifierWord _ follower => decide (follower.toNat % 2 = 1 ∨ follower.toNat < 65536)
  | .vadd16 bf d b => decide (¬ (bf = false ∧ d = 0 ∧ b = 0))
  | .add .. | .sub .. | .and .. | .or .. | .xor .. | .andn .. | .shl .. | .shr .. | .sra .. | .slt .. |
    .sltz .. | .min .. | .max .. | .minz .. | .maxz .. | .sel .. | .addw .. | .subw .. | .rotl .. | .rotr ..
    | .addi .. | .andi .. | .ori .. | .xori .. | .shli .. | .shri .. | .srai .. | .slti .. | .sltzi .. |
    .lim .. | .lpc .. | .clz .. | .ctz .. | .ffs .. | .popc .. | .rev .. | .bswap .. | .bext .. | .bins .. |
    .mul .. | .mulh .. | .mulhz .. | .mulhsz .. | .div .. | .divz .. | .rem .. | .remz .. | .mulw .. | .beq
    .. | .bne .. | .blt .. | .bge .. | .blo .. | .bhs .. | .jal .. | .jalr .. | .stg .. | .ldgV .. | .stgV
    .. | .stl .. | .ldlV .. | .stlV .. | .amoAdd .. | .amoAnd .. | .amoOr .. | .amoXor .. | .amoMin .. |
    .amoMax .. | .amoMinz .. | .amoMaxz .. | .amoSwap .. | .cas .. | .amolAdd .. | .amolAnd .. | .amolOr ..
    | .amolXor .. | .amolMin .. | .amolMax .. | .amolMinz .. | .amolMaxz .. | .amolSwap .. | .cwait .. |
    .xfence .. | .swinit .. | .swadd .. | .swwait .. | .swget .. | .swcnt .. | .mopen .. | .mput .. | .mputV
    .. | .mputE .. | .mputVe .. | .gbar .. | .gbarAnd .. | .gbarOr .. | .gbarAdd .. | .gbarMax .. | .gbarMin
    .. | .launch .. | .exit .. | .yield | .sys .. | .brk | .uret | .uretReplay | .srd .. | .swr .. | .vmov
    .. | .vsub16 .. | .vmul16 .. | .vmax16 .. | .vmin16 .. | .vmov16 .. | .vabs16 .. | .vneg16 .. | .vand16
    .. | .vor16 .. | .vxor16 .. | .vrcp16 .. | .vrsq16 .. | .vexp216 .. | .vbcast0 .. | .vzero .. | .vsel ..
    | .vperm .. | .vcvt .. | .vbcast .. | .sbind .. | .seos .. | .sstat .. | .sunbind .. | .tql .. |
    .tqlatch .. | .tqd .. | .tqmac .. | .tqread .. | .cpyq .. | .mown | .mrel | .mcfg .. | .mmaBf16 .. |
    .mmaD8 .. | .mmaF16 .. | .mringAdv | .mringClr | .epcfg .. | .epgo .. | .lease .. | .unlease | .nmsend
    .. | .nmresume .. | .nmload .. | .nmstat .. | .mli .. | .mld .. | .mst .. | .mrdrowRead .. |
    .mrdrowWrite .. | .mrdrowZero .. | .mrdrowCopy .. | .madd .. | .msub .. | .mand .. | .mor .. | .mxor ..
    | .mshl .. | .mshr .. | .mmul .. | .mmax .. | .maccAdd .. | .maccRead .. | .mbfw .. | .mbfwZero .. |
    .mfin .. | .ixnear .. | .ixstore .. | .ixstoreRel .. | .ixdel .. | .ixsnap .. | .ixstat .. | .ixcreate
    .. | .tscoreSet .. | .tscoreMax .. | .tscoreMin .. | .tscoreAdd .. | .trinfo .. | .pinv .. | .pswap .. |
    .pclr .. | .pgen .. | .udf .. | .loadReturn | .storePerform | .heldFaultPost | .atomicPerform |
    .syncWordWake | .messageLanding | .packetCount | .barrierComplete | .launchReplicate |
    .completionBlockUpdate | .tqlatchExec | .tqmacExec | .tqdExec | .tqreadExec | .copyCommand |
    .heldNoticePost | .mmaComplete | .tileDrain | .leaseExpiry | .nmuMessageArrival | .rowCopy | .rowZero |
    .indexedReduce | .tableGather | .tableMac | .accumulatorRead | .accumulatorClear | .statusHandler |
    .loadedHandlerStart | .handlerTimeout | .nmresumeApply | .handlerLoad | .indexQueryAccept |
    .indexSearchEnd | .indexStoreCommit | .indexDeleteCommit | .indexSnapshotAccept | .indexStatAccept |
    .indexCreate | .indexDestroy | .allowanceExhausted | .roundEnd | .generationNotice | .upcallDelivery |
    .bindRecord | .resumeRecord | .stopRecord | .frameCopyDone | .threadStop | .saveComplete |
    .saveDrainTimeout | .slotSpill | .clusterZeroingDone | .gangReservation | .scannerPage |
    .scannerWriteDone | .budgetPeriodStart | .securityAlarm | .burstPause | .burstResume | .sliceRetention |
    .hostLaunchWindowWrite | .reportRequest | .reportReady | .registerWrite | .hostCxlMemAccess |
    .functionLevelReset | .fabricAckTimeout | .coreFailure | .coreOutOfService | .identityRotation | .boot |
    .coreReturnToService | .quarantineLift | .budgetChange | .fabricPeerAccess | .conventionalReset => true

end Sys2Proof
end

