-- ==== Sys2Proof/Decode.lean ====
section
/-!
DEFINITION. Sys2Proof/Decode.lean: the decoder, total on any word, and the encoder, both written from the
formats and the opcode map (R26 to R44), and the fields of a microinstruction (R263).
An unassigned word is refused by the cause that the hardware raises for it.
-/
namespace Sys2Proof

/-- Why a word is no instruction (R26): the cause that its execution raises, or a string of bytes too
short to hold the instruction. -/
inductive DecodeError where
  /-- an unassigned major, or the halfword 0x0000 (R26, R27, R43): cause 0x01 -/
  | illegal
  /-- an unassigned function code, a reserved value or a nonzero unused field (R26, R42): cause 0x02 -/
  | reserved
  /-- the bytes end inside the instruction -/
  | short
  deriving DecidableEq, Repr

/-- The code of an element width (R39, major 0x0A). -/
def ElemWidth.code : ElemWidth → Nat
  | .b => 0 | .h => 1 | .w => 2 | .d => 3

/-- The code of a load or store order (R39, major 0x15). -/
def Order.code : Order → Nat
  | .plain => 0 | .gang => 1 | .dev => 2 | .sys => 3

/-- The code of an access size (R39, major 0x15). -/
def Size.code : Size → Nat
  | .b => 0 | .h => 1 | .w => 2 | .d => 3

/-- The code of an atomic's order (R39, major 0x1B). -/
def AtomOrder.code : AtomOrder → Nat
  | .rlxGang => 0 | .rlxDev => 1 | .rlxSys => 2 | .acqrelGang => 3 | .acqrelDev => 4 | .acqrelSys => 5

/-- The number of a counter in `cwait` (R177). -/
def Counter.code : Counter → Nat
  | .lc => 0 | .sc => 1 | .yc => 2 | .mc => 3 | .tc => 4 | .nc => 5 | .ic => 6

/-- The number of a path (R178). -/
def PathId.code : PathId → Nat
  | .core => 0 | .copy => 1 | .matrix => 2 | .epi => 3 | .table => 4 | .nm => 5 | .index => 6 | .msg => 7

/-- The code of a lane type (R40, R92). -/
def LaneType.code : LaneType → Nat
  | .f32 => 0 | .bf16 => 1 | .f16 => 2 | .i32 => 3 | .i16 => 4 | .i8 => 5 | .d8 => 6

/-- The lane type of a code; 7 is reserved (R40). -/
def laneTypeOf : Nat → Option LaneType
  | 0 => some .f32 | 1 => some .bf16 | 2 => some .f16 | 3 => some .i32 | 4 => some .i16
  | 5 => some .i8 | 6 => some .d8 | _ => none

/-- The element width of a two-bit code. -/
def elemWidthOf : Nat → ElemWidth
  | 0 => .b | 1 => .h | 2 => .w | _ => .d

/-- The access size of a two-bit code. -/
def sizeOfCode : Nat → Size
  | 0 => .b | 1 => .h | 2 => .w | _ => .d

/-- The order of a two-bit code. -/
def orderOf : Nat → Order
  | 0 => .plain | 1 => .gang | 2 => .dev | _ => .sys

/-- The order of an atomic; codes 6 and 7 are reserved (R39). -/
def atomOrderOf : Nat → Option AtomOrder
  | 0 => some .rlxGang | 1 => some .rlxDev | 2 => some .rlxSys
  | 3 => some .acqrelGang | 4 => some .acqrelDev | 5 => some .acqrelSys | _ => none

/-- The counter of a number; 7 to 31 are reserved (R177). -/
def counterOf : Nat → Option Counter
  | 0 => some .lc | 1 => some .sc | 2 => some .yc | 3 => some .mc | 4 => some .tc | 5 => some .nc
  | 6 => some .ic | _ => none

/-- The path of a number; 8 to 31 are reserved (R178). -/
def pathOf : Nat → Option PathId
  | 0 => some .core | 1 => some .copy | 2 => some .matrix | 3 => some .epi | 4 => some .table
  | 5 => some .nm | 6 => some .index | 7 => some .msg | _ => none

/-! ### The fields of a 32-bit word (R31) -/

/-- Field d, bits [11:7]. -/
def fd (w : Nat) : Reg := Fin.ofNat 32 (w / 128)
/-- Field a, bits [16:12]. -/
def fa (w : Nat) : Reg := Fin.ofNat 32 (w / 4096)
/-- Field b, bits [21:17]. -/
def fb (w : Nat) : Reg := Fin.ofNat 32 (w / 131072)
/-- Field c, bits [26:22]. -/
def fc (w : Nat) : Reg := Fin.ofNat 32 (w / 4194304)
/-- Field fn (or q), bits [31:27]. -/
def ffn (w : Nat) : Nat := w / 134217728 % 32
/-- The major opcode, bits [6:1]. -/
def major (w : Nat) : Nat := w / 2 % 64
/-- imm15 of format I, bits [31:17]. -/
def fimm15 (w : Nat) : BitVec 15 := BitVec.ofNat 15 (w / 131072)
/-- imm20 of formats W and J, bits [31:12]. -/
def fimm20 (w : Nat) : BitVec 20 := BitVec.ofNat 20 (w / 4096)
/-- imm10 of format M, bits [26:17]. -/
def fimm10 (w : Nat) : BitVec 10 := BitVec.ofNat 10 (w / 131072)
/-- The offset of format S, immhi above immlo, in halfwords. -/
def foffS (w : Nat) : BitVec 15 := BitVec.ofNat 15 (w / 4194304 % 1024 * 32 + w / 128 % 32)
/-- The end offset of format L, bits [22:13]. -/
def floopEnd (w : Nat) : Fin 1024 := Fin.ofNat 1024 (w / 8192)
/-- The type field of format V, bits [24:22], where bits [26:25] are zero. -/
def ftype (w : Nat) : Option LaneType := if fc w < 8 then laneTypeOf (fc w) else none
/-- The number of a state register in `srd` and `swr`, bits [31:27] above bits [21:17] (R41). -/
def fsr (w : Nat) : Fin 1024 := Fin.ofNat 1024 (ffn w * 32 + fb w)

/-- The instruction, if the fields that must be zero are zero (R26 step 4). -/
def need (p : Bool) (i : Instr) : Except DecodeError Instr := if p then .ok i else .error .reserved

/-- The instruction of an optional field value; none where the value is reserved. -/
def needSome {α : Type} (o : Option α) (f : α → Instr) : Except DecodeError Instr :=
  match o with
  | some x => .ok (f x)
  | none => .error .reserved

/-- A format V instruction whose type field takes the types that `ok` names (R40). -/
def needType (w : Nat) (ok : LaneType → Bool) (f : LaneType → Instr) : Except DecodeError Instr :=
  match ftype w with
  | some t => if ok t then .ok (f t) else .error .reserved
  | none => .error .reserved

/-- Every lane type is accepted (R40). -/
def anyType : LaneType → Bool := fun _ => true

/-- Majors 0x00, 0x0A and 0x0B: integer register forms (R66, R72, R74, R75). -/
def decInteger (m w : Nat) : Except DecodeError Instr :=
  let d := fd w; let a := fa w; let b := fb w; let c := fc w
  match m, ffn w with
  | 0x00, 0 => need (c == 0) (.add d a b)
  | 0x00, 1 => need (c == 0) (.sub d a b)
  | 0x00, 2 => need (c == 0) (.and d a b)
  | 0x00, 3 => need (c == 0) (.or d a b)
  | 0x00, 4 => need (c == 0) (.xor d a b)
  | 0x00, 5 => need (c == 0) (.andn d a b)
  | 0x00, 6 => need (c == 0) (.shl d a b)
  | 0x00, 7 => need (c == 0) (.shr d a b)
  | 0x00, 8 => need (c == 0) (.sra d a b)
  | 0x00, 9 => need (c == 0) (.slt d a b)
  | 0x00, 10 => need (c == 0) (.sltz d a b)
  | 0x00, 11 => need (c == 0) (.min d a b)
  | 0x00, 12 => need (c == 0) (.max d a b)
  | 0x00, 13 => need (c == 0) (.minz d a b)
  | 0x00, 14 => need (c == 0) (.maxz d a b)
  | 0x00, 15 => .ok (.sel d a b c)
  | 0x00, 16 => need (c == 0) (.addw d a b)
  | 0x00, 17 => need (c == 0) (.subw d a b)
  | 0x00, 18 => need (c == 0) (.rotl d a b)
  | 0x00, 19 => need (c == 0) (.rotr d a b)
  | 0x0A, 0 => need (b == 0 && c < 4) (.clz (elemWidthOf c) d a)
  | 0x0A, 1 => need (b == 0 && c < 4) (.ctz (elemWidthOf c) d a)
  | 0x0A, 2 => need (b == 0 && c < 4) (.ffs (elemWidthOf c) d a)
  | 0x0A, 3 => need (b == 0 && c < 4) (.popc (elemWidthOf c) d a)
  | 0x0A, 4 => need (b == 0 && c == 0) (.rev d a)
  | 0x0A, 5 => need (b == 0 && c == 0) (.bswap d a)
  | 0x0A, 6 => .ok (.bext d a b c)
  | 0x0A, 7 => .ok (.bins d a b c)
  | 0x0B, 0 => need (c == 0) (.mul d a b)
  | 0x0B, 1 => need (c == 0) (.mulh d a b)
  | 0x0B, 2 => need (c == 0) (.mulhz d a b)
  | 0x0B, 3 => need (c == 0) (.mulhsz d a b)
  | 0x0B, 4 => need (c == 0) (.div d a b)
  | 0x0B, 5 => need (c == 0) (.divz d a b)
  | 0x0B, 6 => need (c == 0) (.rem d a b)
  | 0x0B, 7 => need (c == 0) (.remz d a b)
  | 0x0B, 8 => need (c == 0) (.mulw d a b)
  | _, _ => .error .reserved

/-- Major 0x05: shifts by an immediate (R69). -/
def decShift (w : Nat) : Except DecodeError Instr :=
  let n : Fin 64 := Fin.ofNat 64 (w / 131072)
  match w / 8388608 % 512 with
  | 0 => .ok (.shli (fd w) (fa w) n)
  | 1 => .ok (.shri (fd w) (fa w) n)
  | 2 => .ok (.srai (fd w) (fa w) n)
  | _ => .error .reserved

/-- Major 0x14: the hardware loops (R80); an end offset of 0 is reserved (R32). -/
def decLoop (w : Nat) : Except DecodeError Instr :=
  let e := floopEnd w
  need (w / 8388608 == 0 && e != 0) (if w / 4096 % 2 == 0 then .loop (fd w) e else .loopi (fd w) e)

/-- Majors 0x15 to 0x1A: loads and stores (R83, R85, R168). -/
def decMem (m w : Nat) : Except DecodeError Instr :=
  let d := fd w; let a := fa w; let i := fimm10 w; let q := ffn w
  let z := sizeOfCode (q % 4); let s := q / 4 % 2 == 1; let o := q / 8
  match m with
  | 0x15 => need (!(s && q % 4 == 3)) (.ldg (orderOf o) z s d a i)
  | 0x16 => need (!s) (.stg (orderOf o) z d a i)
  | 0x17 => need (o == 0) (if q % 2 == 0 then .ldgV (orderOf (q / 2 % 4)) d a i else .stgV (orderOf (q / 2 % 4)) d a i)
  | 0x18 => need (!(s && q % 4 == 3) && o < 2) (.ldl (o == 1) z s d a i)
  | 0x19 => need (!s && o < 2) (.stl (o == 1) z d a i)
  | _ => need (q < 4) (if q % 2 == 0 then .ldlV (q / 2 == 1) d a i else .stlV (q / 2 == 1) d a i)

/-- The size and order of an atomic, from field c (R39, major 0x1B). -/
def atomField (c : Nat) : Option (AtomOrder × Bool) :=
  if c % 4 < 2 then none else (atomOrderOf (c / 4)).map (fun o => (o, c % 4 == 3))

/-- Majors 0x1B to 0x1D: atomics (R171, R173). -/
def decAtomic (m w : Nat) : Except DecodeError Instr :=
  let d := fd w; let a := fa w; let b := fb w; let c := fc w
  let z := c.val % 4 == 3
  match m, ffn w with
  | 0x1B, 0 => needSome (atomField c) (fun p => .amoAdd p.1 p.2 d a b)
  | 0x1B, 1 => needSome (atomField c) (fun p => .amoAnd p.1 p.2 d a b)
  | 0x1B, 2 => needSome (atomField c) (fun p => .amoOr p.1 p.2 d a b)
  | 0x1B, 3 => needSome (atomField c) (fun p => .amoXor p.1 p.2 d a b)
  | 0x1B, 4 => needSome (atomField c) (fun p => .amoMin p.1 p.2 d a b)
  | 0x1B, 5 => needSome (atomField c) (fun p => .amoMax p.1 p.2 d a b)
  | 0x1B, 6 => needSome (atomField c) (fun p => .amoMinz p.1 p.2 d a b)
  | 0x1B, 7 => needSome (atomField c) (fun p => .amoMaxz p.1 p.2 d a b)
  | 0x1B, 8 => needSome (atomField c) (fun p => .amoSwap p.1 p.2 d a b)
  | 0x1C, 0 => needSome (atomField c) (fun p => .cas p.1 p.2 d a b)
  | 0x1D, 0 => need (c == 2 || c == 3) (.amolAdd z d a b)
  | 0x1D, 1 => need (c == 2 || c == 3) (.amolAnd z d a b)
  | 0x1D, 2 => need (c == 2 || c == 3) (.amolOr z d a b)
  | 0x1D, 3 => need (c == 2 || c == 3) (.amolXor z d a b)
  | 0x1D, 4 => need (c == 2 || c == 3) (.amolMin z d a b)
  | 0x1D, 5 => need (c == 2 || c == 3) (.amolMax z d a b)
  | 0x1D, 6 => need (c == 2 || c == 3) (.amolMinz z d a b)
  | 0x1D, 7 => need (c == 2 || c == 3) (.amolMaxz z d a b)
  | 0x1D, 8 => need (c == 2 || c == 3) (.amolSwap z d a b)
  | _, _ => .error .reserved

/-- Majors 0x1E to 0x20: fences, sync words, messages and barriers (R130, R139, R177 to R181). -/
def decSync (m w : Nat) : Except DecodeError Instr :=
  let d := fd w; let a := fa w; let b := fb w; let c := fc w
  match m, ffn w with
  | 0x1E, 0 => if c == 0 && d == 0 then needSome (counterOf a) (fun k => .cwait k b) else .error .reserved
  | 0x1E, 1 =>
    if c == 0 && d == 0 then
      match pathOf a, pathOf b with
      | some f, some t => .ok (.xfence f t)
      | _, _ => .error .reserved
    else .error .reserved
  | 0x1E, 2 => need (c == 0 && d == 0) (.swinit a b)
  | 0x1E, 3 => need (c == 0 && d == 0) (.swadd a b)
  | 0x1E, 4 => need (c == 0 && d == 0) (.swwait a b)
  | 0x1E, 5 => need (c == 0 && b == 0) (.swget d a)
  | 0x1E, 6 => need (c == 0 && b == 0) (.swcnt d a)
  | 0x1F, 0 => need (d == 0) (.mopen a b c)
  | 0x1F, 1 => need (d == 0 && a == 0 && c == 0) (.mput b)
  | 0x1F, 2 => need (d == 0 && a == 0 && c == 0) (.mputV b)
  | 0x1F, 3 => need (d == 0 && a == 0 && c == 0) (.mputE b)
  | 0x1F, 4 => need (d == 0 && a == 0 && c == 0) (.mputVe b)
  | 0x20, 0 => need (b == 0 && c == 0) (.gbar d a)
  | 0x20, 1 => need (b == 0 && c == 0) (.gbarAnd d a)
  | 0x20, 2 => need (b == 0 && c == 0) (.gbarOr d a)
  | 0x20, 3 => need (b == 0 && c == 0) (.gbarAdd d a)
  | 0x20, 4 => need (b == 0 && c == 0) (.gbarMax d a)
  | 0x20, 5 => need (b == 0 && c == 0) (.gbarMin d a)
  | _, _ => .error .reserved

/-- Major 0x21: control, upcall and state-register instructions; bits [26:22] select first (R41). -/
def decControl (w : Nat) : Except DecodeError Instr :=
  let d := fd w; let a := fa w; let b := fb w
  match (fc w).val, ffn w with
  | 6, _ => need (a == 0) (.srd d (fsr w))
  | 7, _ => need (d == 0) (.swr (fsr w) a)
  | 0, 0 => need (b == 0) (.launch d a)
  | 0, 1 => need (b == 0 && d == 0) (.exit a)
  | 0, 2 => need (b == 0 && d == 0 && a == 0) .yield
  | 0, 3 => need (b == 0 && d == 0) (.sys a)
  | 0, 4 => need (b == 0 && d == 0 && a == 0) .brk
  | 0, 5 => need (b == 0 && a == 0 && d < 2) (if d == 0 then .uret else .uretReplay)
  | _, _ => .error .reserved

/-- Major 0x22: lane A; the unary operations take their source from a (R40). -/
def decLaneA (w : Nat) : Except DecodeError Instr :=
  let d := fd w; let a := fa w; let b := fb w
  match ffn w with
  | 0 => needType w LaneType.arith (fun t => .vadd t d a b)
  | 1 => needType w LaneType.arith (fun t => .vsub t d a b)
  | 2 => needType w LaneType.arith (fun t => .vmul t d a b)
  | 3 => needType w LaneType.arith (fun t => .vmax t d a b)
  | 4 => needType w LaneType.arith (fun t => .vmin t d a b)
  | 5 => needType w LaneType.arith (fun t => .vand t d a b)
  | 6 => needType w LaneType.arith (fun t => .vor t d a b)
  | 7 => needType w LaneType.arith (fun t => .vxor t d a b)
  | 8 => needType w LaneType.float (fun t => .vdiv t d a b)
  | 9 => if b == 0 then needType w LaneType.float (fun t => .vsqrt t d a) else .error .reserved
  | 10 => if b == 0 then needType w LaneType.float (fun t => .vrcp t d a) else .error .reserved
  | 11 => if b == 0 then needType w LaneType.float (fun t => .vrsq t d a) else .error .reserved
  | 12 => if b == 0 then needType w LaneType.float (fun t => .vexp2 t d a) else .error .reserved
  | 13 => if b == 0 then needType w LaneType.float (fun t => .vlog2 t d a) else .error .reserved
  | 14 => needType w LaneType.integer (fun t => .vshl t d a b)
  | 15 => needType w LaneType.integer (fun t => .vshr t d a b)
  | 16 => needType w LaneType.integer (fun t => .vsra t d a b)
  | 17 => if b == 0 then needType w LaneType.arith (fun t => .vabs t d a) else .error .reserved
  | 18 => if b == 0 then needType w LaneType.arith (fun t => .vneg t d a) else .error .reserved
  | 19 => if b == 0 then needType w anyType (fun t => .vmov t d a) else .error .reserved
  | _ => .error .reserved

/-- Major 0x23: compares, selection, reductions, permutation and dot products (R97 to R101). -/
def decLaneB (w : Nat) : Except DecodeError Instr :=
  let d := fd w; let a := fa w; let b := fb w
  match ffn w with
  | 0 => needType w LaneType.arith (fun t => .vcmpEq t d a b)
  | 1 => needType w LaneType.arith (fun t => .vcmpLt t d a b)
  | 2 => needType w LaneType.arith (fun t => .vcmpLe t d a b)
  | 3 => needType w LaneType.arith (fun t => .vcmpNe t d a b)
  | 4 => needType w anyType (fun t => .vsel t d a b)
  | 5 => if b == 0 then needType w LaneType.arith (fun t => .vredadd t d a) else .error .reserved
  | 6 => if b == 0 then needType w LaneType.arith (fun t => .vredmax t d a) else .error .reserved
  | 7 => if b == 0 then needType w LaneType.arith (fun t => .vredmin t d a) else .error .reserved
  | 8 => needType w anyType (fun t => .vperm t d a b)
  | 9 => needType w LaneType.dotInput (fun t => .vdot t d a b)
  | _ => .error .reserved

/-- Major 0x24: conversions and lane moves (R102 to R106). -/
def decLaneC (w : Nat) : Except DecodeError Instr :=
  let d := fd w; let a := fa w; let b := fb w
  match ffn w with
  | 0 =>
    match laneTypeOf b with
    | some u => needType w anyType (fun s => .vcvt s u d a)
    | none => .error .reserved
  | 1 => needType w LaneType.float (fun t => .vq8 t d a b)
  | 2 => needType w LaneType.float (fun t => .vdq8 t d a b)
  | 3 => if b == 0 then needType w LaneType.float (fun t => .vamax t d a) else .error .reserved
  | 4 => if b == 0 then needType w anyType (fun t => .vbcast t d a) else .error .reserved
  | 5 => needType w (fun t => b.val < t.lanes) (fun t => .vins t d a b)
  | 6 => needType w (fun t => b.val < t.lanes) (fun t => .vext t d a b)
  | 7 => need (fc w == 0 && b < 4) (.vmvx d a b)
  | _ => .error .reserved

/-- Major 0x25: the fused multiply-adds; the type is in [31:29] and the variant in [28:27] (R31, R96). -/
def decFma (w : Nat) : Except DecodeError Instr :=
  let d := fd w; let a := fa w; let b := fb w; let c := fc w; let q := ffn w
  match laneTypeOf (q / 4) with
  | some t =>
    if t.float then
      match q % 4 with
      | 0 => .ok (.vfma t d a b c)
      | 1 => .ok (.vfms t d a b c)
      | 2 => .ok (.vfnma t d a b c)
      | _ => .ok (.vfnms t d a b c)
    else .error .reserved
  | none => .error .reserved

/-- Majors 0x26 to 0x2F: streams, engines, the index, tournaments, leases and paging (R39). -/
def decEngine (m w : Nat) : Except DecodeError Instr :=
  let d := fd w; let a := fa w; let b := fb w; let c := fc w
  let zc := c == 0; let zb := b == 0 && c == 0; let zd := d == 0
  match m, ffn w with
  | 0x26, 0 => need (zb && d < 4) (.sbind (Fin.ofNat 4 d) a)
  | 0x26, 1 => need (zb && d < 4) (.seos (Fin.ofNat 4 d) a)
  | 0x26, 2 => need (zb && a < 4) (.sstat d (Fin.ofNat 4 a))
  | 0x26, 3 => need (zb && a == 0 && d < 4) (.sunbind (Fin.ofNat 4 d))
  | 0x27, 0 => need zc (.tql d a b)
  | 0x27, 1 => need (zb && zd) (.tqlatch a)
  | 0x27, 2 => need (zb && zd) (.tqd a)
  | 0x27, 3 => need (zb && zd) (.tqmac a)
  | 0x27, 4 => need (zb && zd) (.tqread a)
  | 0x28, 0 => need (zd && a.val % 4 == 0 && a ≤ 24 && b.val % 4 == 0 && b ≤ 24) (.cpy a b c)
  | 0x28, 1 => need (zb && a == 0) (.cpyq d)
  | 0x29, 0 => need (zb && zd && a == 0) .mown
  | 0x29, 1 => need (zb && zd && a == 0) .mrel
  | 0x29, 2 => need (zb && zd) (.mcfg a)
  | 0x29, 3 => need (zc && zd) (.mmaBf16 a b)
  | 0x29, 4 => need zd (.mmaD8 a b c)
  | 0x29, 5 => need (zc && zd) (.mmaF16 a b)
  | 0x29, 6 => need (zb && zd && a == 0) .mringAdv
  | 0x29, 7 => need (zb && zd && a == 0) .mringClr
  | 0x2A, 0 => need (zb && zd) (.epcfg a)
  | 0x2A, 1 => need (zb && zd) (.epgo a)
  | 0x2B, 0 => need (zb && zd) (.nmsend a)
  | 0x2B, 1 => need (zb && zd) (.nmresume a)
  | 0x2B, 2 => need (zb && zd) (.nmload a)
  | 0x2B, 3 => need zb (.nmstat d a)
  | 0x2C, 0 => need (zb && zd) (.ixnear a)
  | 0x2C, 1 => need (b == 0 && zd && c < 2) (if c == 0 then .ixstore a else .ixstoreRel a)
  | 0x2C, 2 => need (zb && zd) (.ixdel a)
  | 0x2C, 3 => need zb (.ixsnap d a)
  | 0x2C, 4 => need zb (.ixstat d a)
  | 0x2C, 5 => need zb (.ixcreate d a)
  | 0x2D, 0 =>
    if b == 0 && zd then
      match c.val with
      | 0 => .ok (.tscoreSet a)
      | 1 => .ok (.tscoreMax a)
      | 2 => .ok (.tscoreMin a)
      | 3 => .ok (.tscoreAdd a)
      | _ => .error .reserved
    else .error .reserved
  | 0x2D, 1 => need zb (.trinfo d a)
  | 0x2E, 0 => need zb (.lease d a)
  | 0x2E, 1 => need (zb && zd && a == 0) .unlease
  | 0x2F, 0 => need (zb && zd) (.pinv a)
  | 0x2F, 1 => need (zc && zd) (.pswap a b)
  | 0x2F, 2 => need (zb && zd) (.pclr a)
  | 0x2F, 3 => need (zb && zd) (.pgen a)
  | _, _ => .error .reserved

/-- Major 0x30: the modifier word; the instruction that it prefixes stands in the bits above it (R34, R37). -/
def decModifier (w : Nat) : Except DecodeError Instr :=
  need (w % 4294967296 / 131072 == 0)
    (.modifierWord
      ⟨Fin.ofNat 4 (w / 32768), w / 16384 % 2 == 1, w / 8192 % 2 == 1, w / 4096 % 2 == 1,
        BitVec.ofNat 5 (w / 128)⟩ (BitVec.ofNat 32 (w / 4294967296)))

/-- The 16-bit lane forms (R28 to R30); 0x0000 is no instruction (R27). -/
def decHalf (h : Nat) : Except DecodeError Instr :=
  let t := h / 32768 % 2 == 1
  let b : Reg := Fin.ofNat 32 (h / 1024)
  let d : Reg := Fin.ofNat 32 (h / 32)
  if h % 65536 == 0 then .error .illegal
  else match h / 2 % 16 with
    | 0 => .ok (.vadd16 t d b)
    | 1 => .ok (.vsub16 t d b)
    | 2 => .ok (.vmul16 t d b)
    | 3 => .ok (.vmax16 t d b)
    | 4 => .ok (.vmin16 t d b)
    | 5 => need (!t) (.vmov16 d b)
    | 6 => .ok (.vabs16 t d b)
    | 7 => .ok (.vneg16 t d b)
    | 8 => need (!t) (.vand16 d b)
    | 9 => need (!t) (.vor16 d b)
    | 10 => need (!t) (.vxor16 d b)
    | 11 => .ok (.vrcp16 t d b)
    | 12 => .ok (.vrsq16 t d b)
    | 13 => .ok (.vexp216 t d b)
    | 14 => .ok (.vbcast0 t d b)
    | _ => need (!t && b == 0) (.vzero d)

/-- The 32-bit instruction of a word, by its major opcode (R39); the modifier word is decoded with the
instruction that it prefixes in the bits above it. -/
def decWord (w : Nat) : Except DecodeError Instr :=
  let d := fd w; let a := fa w; let b := fb w
  match major w with
  | 0x00 => decInteger 0x00 w
  | 0x01 => .ok (.addi d a (fimm15 w))
  | 0x02 => .ok (.andi d a (fimm15 w))
  | 0x03 => .ok (.ori d a (fimm15 w))
  | 0x04 => .ok (.xori d a (fimm15 w))
  | 0x05 => decShift w
  | 0x06 => .ok (.slti d a (fimm15 w))
  | 0x07 => .ok (.sltzi d a (fimm15 w))
  | 0x08 => .ok (.lim d (fimm20 w))
  | 0x09 => .ok (.lpc d (fimm20 w))
  | 0x0A => decInteger 0x0A w
  | 0x0B => decInteger 0x0B w
  | 0x0C => .ok (.beq a b (foffS w))
  | 0x0D => .ok (.bne a b (foffS w))
  | 0x0E => .ok (.blt a b (foffS w))
  | 0x0F => .ok (.bge a b (foffS w))
  | 0x10 => .ok (.blo a b (foffS w))
  | 0x11 => .ok (.bhs a b (foffS w))
  | 0x12 => .ok (.jal d (fimm20 w))
  | 0x13 => .ok (.jalr d a (fimm15 w))
  | 0x14 => decLoop w
  | 0x15 => decMem 0x15 w
  | 0x16 => decMem 0x16 w
  | 0x17 => decMem 0x17 w
  | 0x18 => decMem 0x18 w
  | 0x19 => decMem 0x19 w
  | 0x1A => decMem 0x1A w
  | 0x1B => decAtomic 0x1B w
  | 0x1C => decAtomic 0x1C w
  | 0x1D => decAtomic 0x1D w
  | 0x1E => decSync 0x1E w
  | 0x1F => decSync 0x1F w
  | 0x20 => decSync 0x20 w
  | 0x21 => decControl w
  | 0x22 => decLaneA w
  | 0x23 => decLaneB w
  | 0x24 => decLaneC w
  | 0x25 => decFma w
  | 0x26 => decEngine 0x26 w
  | 0x27 => decEngine 0x27 w
  | 0x28 => decEngine 0x28 w
  | 0x29 => decEngine 0x29 w
  | 0x2A => decEngine 0x2A w
  | 0x2B => decEngine 0x2B w
  | 0x2C => decEngine 0x2C w
  | 0x2D => decEngine 0x2D w
  | 0x2E => decEngine 0x2E w
  | 0x2F => decEngine 0x2F w
  | 0x30 => decModifier w
  | 0x3F => .ok (.udf (BitVec.ofNat 25 (w / 128)))
  | _ => .error .illegal

/-- The instruction whose bits are `w`, numbered from the first halfword up: a halfword whose bit 0 is 0
is a 16-bit lane form, any other a 32-bit instruction, and a modifier word takes the word after it (R17,
R26, R37). -/
def decode (w : Nat) : Except DecodeError Instr :=
  if w % 2 == 0 then decHalf w else decWord w

/-- The second operand of a microinstruction (R263): with i = 0, imm15 must be 0. -/
def microOperand (w : Nat) : Option MicroOperand :=
  if w / 32768 % 2 == 1 then some (.imm (BitVec.ofNat 15 w))
  else if w % 32768 == 0 then some (.reg (Fin.ofNat 16 (w / 65536))) else none

/-- A microinstruction with a second operand. -/
def needOperand (w : Nat) (f : MReg → MReg → MicroOperand → Instr) : Except DecodeError Instr :=
  match microOperand w with
  | some v => .ok (f (Fin.ofNat 16 (w / 16777216)) (Fin.ofNat 16 (w / 1048576)) v)
  | none => .error .reserved

/-- The microinstruction of a word (R263); a word that breaks the zero fields is refused, as `nmload`
refuses it (R269). -/
def decodeMicro (w : Nat) : Except DecodeError Instr :=
  let d : MReg := Fin.ofNat 16 (w / 16777216)
  let a : MReg := Fin.ofNat 16 (w / 1048576)
  let b : MReg := Fin.ofNat 16 (w / 65536)
  let v := w % 65536
  match w / 268435456 % 16 with
  | 0 => need (a == 0 && b == 0) (.mli d (BitVec.ofNat 16 w))
  | 1 => needOperand w .mld
  | 2 => needOperand w .mst
  | 3 =>
    if d == 0 then
      match v with
      | 32768 => need (b == 0) (.mrdrowRead a)
      | 32769 => need (b == 0) (.mrdrowWrite a)
      | 32770 => need (b == 0) (.mrdrowZero a)
      | 32771 => .ok (.mrdrowCopy a b)
      | _ => .error .reserved
    else .error .reserved
  | 4 => needOperand w .madd
  | 5 => needOperand w .msub
  | 6 => needOperand w .mand
  | 7 => needOperand w .mor
  | 8 => needOperand w .mxor
  | 9 => needOperand w .mshl
  | 10 => needOperand w .mshr
  | 11 => needOperand w .mmul
  | 12 => needOperand w .mmax
  | 13 =>
    if b == 0 && v == 32768 then .ok (.maccAdd d a)
    else if b == 0 && v == 32769 then .ok (.maccRead d a)
    else .error .reserved
  | 14 =>
    if d == 0 && b == 0 && v / 64 == 512 then .ok (.mbfw a (Fin.ofNat 64 v))
    else if d == 0 && b == 0 && v / 64 == 768 then .ok (.mbfwZero a (Fin.ofNat 64 v))
    else .error .reserved
  | _ => need (a == 0 && b == 0 && v == 0) (.mfin d)

/-- How many bytes the instruction that begins with this halfword takes (R17, R37): two, four, or for a
modifier word the bytes of the instruction after it as well. -/
def lengthOf (h follow : Nat) : Nat :=
  if h % 2 == 0 then 2 else if major h == 0x30 then (if follow % 2 == 0 then 6 else 8) else 4

/-- The instruction at the start of a string of bytes, and how many bytes it takes. -/
def decodeBytes (bs : List Byte) : Except DecodeError (Instr × Nat) :=
  let n := lengthOf (natOf (bs.take 2)) (natOf ((bs.drop 4).take 2))
  if bs.length < n then .error .short
  else match decode (natOf (bs.take n)) with
    | .ok i => .ok (i, n)
    | .error e => .error e

/-- Where an instruction's words stand. -/
inductive Form where
  | half | word | pair | micro | event
  deriving DecidableEq, Repr

/-- The form of each instruction. -/
def Instr.form : Instr → Form
  -- 16-bit lane forms (R28 to R30)
  | .vadd16 .. | .vsub16 .. | .vmul16 .. | .vmax16 .. | .vmin16 .. | .vmov16 .. | .vabs16 .. | .vneg16 .. |
    .vand16 .. | .vor16 .. | .vxor16 .. | .vrcp16 .. | .vrsq16 .. | .vexp216 .. | .vbcast0 .. | .vzero .. => .half
  -- microinstructions (R263)
  | .mli .. | .mld .. | .mst .. | .madd .. | .msub .. | .mand .. | .mor .. | .mxor .. | .mshl .. | .mshr ..
    | .mmul .. | .mmax .. | .mrdrowRead .. | .mrdrowWrite .. | .mrdrowZero .. | .mrdrowCopy .. | .maccAdd ..
    | .maccRead .. | .mbfw .. | .mbfwZero .. | .mfin .. => .micro
  | .modifierWord .. => .pair
  | .loadReturn | .storePerform | .heldFaultPost | .atomicPerform | .syncWordWake | .messageLanding |
    .packetCount | .barrierComplete | .launchReplicate | .completionBlockUpdate | .tqlatchExec | .tqmacExec
    | .tqdExec | .tqreadExec | .copyCommand | .heldNoticePost | .mmaComplete | .tileDrain | .leaseExpiry |
    .nmuMessageArrival | .rowCopy | .rowZero | .indexedReduce | .tableGather | .tableMac | .accumulatorRead
    | .accumulatorClear | .statusHandler | .loadedHandlerStart | .handlerTimeout | .nmresumeApply |
    .handlerLoad | .indexQueryAccept | .indexSearchEnd | .indexStoreCommit | .indexDeleteCommit |
    .indexSnapshotAccept | .indexStatAccept | .indexCreate | .indexDestroy | .allowanceExhausted | .roundEnd
    | .generationNotice | .upcallDelivery | .bindRecord | .resumeRecord | .stopRecord | .frameCopyDone |
    .threadStop | .saveComplete | .saveDrainTimeout | .slotSpill | .clusterZeroingDone | .gangReservation |
    .scannerPage | .scannerWriteDone | .budgetPeriodStart | .securityAlarm | .burstPause | .burstResume |
    .sliceRetention | .hostLaunchWindowWrite | .reportRequest | .reportReady | .registerWrite |
    .hostCxlMemAccess | .functionLevelReset | .fabricAckTimeout | .coreFailure | .coreOutOfService |
    .identityRotation | .boot | .coreReturnToService | .quarantineLift | .budgetChange | .fabricPeerAccess |
    .conventionalReset => .event
  | .add .. | .sub .. | .and .. | .or .. | .xor .. | .andn .. | .shl .. | .shr .. | .sra .. | .slt .. |
    .sltz .. | .min .. | .max .. | .minz .. | .maxz .. | .sel .. | .addw .. | .subw .. | .rotl .. | .rotr ..
    | .addi .. | .andi .. | .ori .. | .xori .. | .slti .. | .sltzi .. | .jalr .. | .shli .. | .shri .. |
    .srai .. | .lim .. | .lpc .. | .jal .. | .clz .. | .ctz .. | .ffs .. | .popc .. | .rev .. | .bswap .. |
    .bext .. | .bins .. | .mul .. | .mulh .. | .mulhz .. | .mulhsz .. | .div .. | .divz .. | .rem .. | .remz
    .. | .mulw .. | .beq .. | .bne .. | .blt .. | .bge .. | .blo .. | .bhs .. | .loop .. | .loopi .. | .ldg
    .. | .stg .. | .ldgV .. | .stgV .. | .ldl .. | .stl .. | .ldlV .. | .stlV .. | .amoAdd .. | .amoAnd .. |
    .amoOr .. | .amoXor .. | .amoMin .. | .amoMax .. | .amoMinz .. | .amoMaxz .. | .amoSwap .. | .cas .. |
    .amolAdd .. | .amolAnd .. | .amolOr .. | .amolXor .. | .amolMin .. | .amolMax .. | .amolMinz .. |
    .amolMaxz .. | .amolSwap .. | .cwait .. | .xfence .. | .swinit .. | .swadd .. | .swwait .. | .swget .. |
    .swcnt .. | .mopen .. | .mput .. | .mputV .. | .mputE .. | .mputVe .. | .gbar .. | .gbarAnd .. | .gbarOr
    .. | .gbarAdd .. | .gbarMax .. | .gbarMin .. | .launch .. | .exit .. | .yield | .sys .. | .brk | .uret |
    .uretReplay | .srd .. | .swr .. | .vadd .. | .vsub .. | .vmul .. | .vmax .. | .vmin .. | .vand .. | .vor
    .. | .vxor .. | .vdiv .. | .vsqrt .. | .vrcp .. | .vrsq .. | .vexp2 .. | .vlog2 .. | .vshl .. | .vshr ..
    | .vsra .. | .vabs .. | .vneg .. | .vmov .. | .vcmpEq .. | .vcmpLt .. | .vcmpLe .. | .vcmpNe .. | .vsel
    .. | .vredadd .. | .vredmax .. | .vredmin .. | .vperm .. | .vdot .. | .vcvt .. | .vq8 .. | .vdq8 .. |
    .vamax .. | .vbcast .. | .vins .. | .vext .. | .vmvx .. | .vfma .. | .vfms .. | .vfnma .. | .vfnms .. |
    .sbind .. | .seos .. | .sstat .. | .sunbind .. | .tql .. | .tqlatch .. | .tqd .. | .tqmac .. | .tqread
    .. | .cpy .. | .cpyq .. | .mown | .mrel | .mcfg .. | .mmaBf16 .. | .mmaD8 .. | .mmaF16 .. | .mringAdv |
    .mringClr | .epcfg .. | .epgo .. | .nmsend .. | .nmresume .. | .nmload .. | .nmstat .. | .ixnear .. |
    .ixstore .. | .ixstoreRel .. | .ixdel .. | .ixsnap .. | .ixstat .. | .ixcreate .. | .tscoreSet .. |
    .tscoreMax .. | .tscoreMin .. | .tscoreAdd .. | .trinfo .. | .lease .. | .unlease | .pinv .. | .pswap ..
    | .pclr .. | .pgen .. | .udf .. => .word

/-- Bytes of an instruction in memory (R17, R37): the pair of a modifier word and a 16-bit form ends after the
halfword that the decoder reads. -/
def Instr.size (i : Instr) : Nat :=
  match i.form with
  | .half => 2
  | .word => 4
  | .micro => 4
  | .pair => 8
  | .event => 0

/-! ### The encoder -/

/-- Format R (R31). -/
def encR (maj fn c b a d : Nat) : Nat :=
  1 + 2 * maj + 128 * d + 4096 * a + 131072 * b + 4194304 * c + 134217728 * fn
/-- Format I (R31). -/
def encI (maj imm a d : Nat) : Nat := 1 + 2 * maj + 128 * d + 4096 * a + 131072 * imm
/-- Format S: the offset's low five bits in [11:7], its high ten in [31:22] (R31). -/
def encS (maj off b a : Nat) : Nat :=
  1 + 2 * maj + 128 * (off % 32) + 4096 * a + 131072 * b + 4194304 * (off / 32)
/-- Formats W and J (R31). -/
def encW (maj imm d : Nat) : Nat := 1 + 2 * maj + 128 * d + 4096 * imm
/-- Format L: the i flag in [12], the end offset in [22:13] (R31). -/
def encL (flag e n : Nat) : Nat := 1 + 2 * 0x14 + 128 * n + 4096 * flag + 8192 * e
/-- Format M (R31). -/
def encM (maj q imm a d : Nat) : Nat :=
  1 + 2 * maj + 128 * d + 4096 * a + 131072 * imm + 134217728 * q
/-- A 16-bit lane form (R28). -/
def enc16 (op t b d : Nat) : Nat := 2 * op + 32 * d + 1024 * b + 32768 * t
/-- A modifier word (R34). -/
def encModifier (m : Modifier) : Nat :=
  1 + 2 * 0x30 + 128 * m.k.toNat + 4096 * m.sat.toNat + 8192 * m.abs.toNat + 16384 * m.neg.toNat
    + 32768 * m.clamp
/-- A microinstruction (R263). -/
def encMicro (op d a b low : Nat) : Nat := low + 65536 * b + 1048576 * a + 16777216 * d + 268435456 * op

/-- Field b of a second operand (R263). -/
def MicroOperand.regField : MicroOperand → Nat
  | .reg b => b
  | .imm _ => 0

/-- Bits [15:0] of a second operand: i above imm15 (R263). -/
def MicroOperand.low16 : MicroOperand → Nat
  | .reg _ => 0
  | .imm v => 32768 + v.toNat

/-- The bits of a well-formed instruction, from the encoding tables (R28, R31, R34, R39, R263); an event has
none. -/
def encode : Instr → Nat
  | .add d a b => encR 0x00 0 0 b a d
  | .sub d a b => encR 0x00 1 0 b a d
  | .and d a b => encR 0x00 2 0 b a d
  | .or d a b => encR 0x00 3 0 b a d
  | .xor d a b => encR 0x00 4 0 b a d
  | .andn d a b => encR 0x00 5 0 b a d
  | .shl d a b => encR 0x00 6 0 b a d
  | .shr d a b => encR 0x00 7 0 b a d
  | .sra d a b => encR 0x00 8 0 b a d
  | .slt d a b => encR 0x00 9 0 b a d
  | .sltz d a b => encR 0x00 10 0 b a d
  | .min d a b => encR 0x00 11 0 b a d
  | .max d a b => encR 0x00 12 0 b a d
  | .minz d a b => encR 0x00 13 0 b a d
  | .maxz d a b => encR 0x00 14 0 b a d
  | .sel d a b c => encR 0x00 15 c b a d
  | .addw d a b => encR 0x00 16 0 b a d
  | .subw d a b => encR 0x00 17 0 b a d
  | .rotl d a b => encR 0x00 18 0 b a d
  | .rotr d a b => encR 0x00 19 0 b a d
  | .addi d a i => encI 0x01 i.toNat a d
  | .andi d a i => encI 0x02 i.toNat a d
  | .ori d a i => encI 0x03 i.toNat a d
  | .xori d a i => encI 0x04 i.toNat a d
  | .shli d a n => encI 0x05 (n.val + 0) a d
  | .shri d a n => encI 0x05 (n.val + 64) a d
  | .srai d a n => encI 0x05 (n.val + 128) a d
  | .slti d a i => encI 0x06 i.toNat a d
  | .sltzi d a i => encI 0x07 i.toNat a d
  | .lim d i => encW 0x08 i.toNat d
  | .lpc d i => encW 0x09 i.toNat d
  | .clz w d a => encR 0x0A 0 w.code 0 a d
  | .ctz w d a => encR 0x0A 1 w.code 0 a d
  | .ffs w d a => encR 0x0A 2 w.code 0 a d
  | .popc w d a => encR 0x0A 3 w.code 0 a d
  | .rev d a => encR 0x0A 4 0 0 a d
  | .bswap d a => encR 0x0A 5 0 0 a d
  | .bext d a b c => encR 0x0A 6 c b a d
  | .bins d a b c => encR 0x0A 7 c b a d
  | .mul d a b => encR 0x0B 0 0 b a d
  | .mulh d a b => encR 0x0B 1 0 b a d
  | .mulhz d a b => encR 0x0B 2 0 b a d
  | .mulhsz d a b => encR 0x0B 3 0 b a d
  | .div d a b => encR 0x0B 4 0 b a d
  | .divz d a b => encR 0x0B 5 0 b a d
  | .rem d a b => encR 0x0B 6 0 b a d
  | .remz d a b => encR 0x0B 7 0 b a d
  | .mulw d a b => encR 0x0B 8 0 b a d
  | .beq a b o => encS 0x0C o.toNat b a
  | .bne a b o => encS 0x0D o.toNat b a
  | .blt a b o => encS 0x0E o.toNat b a
  | .bge a b o => encS 0x0F o.toNat b a
  | .blo a b o => encS 0x10 o.toNat b a
  | .bhs a b o => encS 0x11 o.toNat b a
  | .jal d i => encW 0x12 i.toNat d
  | .jalr d a i => encI 0x13 i.toNat a d
  | .loop a e => encL 0 e a
  | .loopi n e => encL 1 e n
  | .ldg o z s d a i => encM 0x15 (z.code + 4 * s.toNat + 8 * o.code) i.toNat a d
  | .stg o z d a i => encM 0x16 (z.code + 8 * o.code) i.toNat a d
  | .ldgV o d a i => encM 0x17 (2 * o.code) i.toNat a d
  | .stgV o d a i => encM 0x17 (1 + 2 * o.code) i.toNat a d
  | .ldl o z s d a i => encM 0x18 (z.code + 4 * s.toNat + 8 * o.toNat) i.toNat a d
  | .stl o z d a i => encM 0x19 (z.code + 8 * o.toNat) i.toNat a d
  | .ldlV o d a i => encM 0x1A (2 * o.toNat) i.toNat a d
  | .stlV o d a i => encM 0x1A (1 + 2 * o.toNat) i.toNat a d
  | .amoAdd o z d a b => encR 0x1B 0 (2 + z.toNat + 4 * o.code) b a d
  | .amoAnd o z d a b => encR 0x1B 1 (2 + z.toNat + 4 * o.code) b a d
  | .amoOr o z d a b => encR 0x1B 2 (2 + z.toNat + 4 * o.code) b a d
  | .amoXor o z d a b => encR 0x1B 3 (2 + z.toNat + 4 * o.code) b a d
  | .amoMin o z d a b => encR 0x1B 4 (2 + z.toNat + 4 * o.code) b a d
  | .amoMax o z d a b => encR 0x1B 5 (2 + z.toNat + 4 * o.code) b a d
  | .amoMinz o z d a b => encR 0x1B 6 (2 + z.toNat + 4 * o.code) b a d
  | .amoMaxz o z d a b => encR 0x1B 7 (2 + z.toNat + 4 * o.code) b a d
  | .amoSwap o z d a b => encR 0x1B 8 (2 + z.toNat + 4 * o.code) b a d
  | .cas o z d a b => encR 0x1C 0 (2 + z.toNat + 4 * o.code) b a d
  | .amolAdd z d a b => encR 0x1D 0 (2 + z.toNat) b a d
  | .amolAnd z d a b => encR 0x1D 1 (2 + z.toNat) b a d
  | .amolOr z d a b => encR 0x1D 2 (2 + z.toNat) b a d
  | .amolXor z d a b => encR 0x1D 3 (2 + z.toNat) b a d
  | .amolMin z d a b => encR 0x1D 4 (2 + z.toNat) b a d
  | .amolMax z d a b => encR 0x1D 5 (2 + z.toNat) b a d
  | .amolMinz z d a b => encR 0x1D 6 (2 + z.toNat) b a d
  | .amolMaxz z d a b => encR 0x1D 7 (2 + z.toNat) b a d
  | .amolSwap z d a b => encR 0x1D 8 (2 + z.toNat) b a d
  | .cwait k n => encR 0x1E 0 0 n k.code 0
  | .xfence f t => encR 0x1E 1 0 t.code f.code 0
  | .swinit a b => encR 0x1E 2 0 b a 0
  | .swadd a b => encR 0x1E 3 0 b a 0
  | .swwait a b => encR 0x1E 4 0 b a 0
  | .swget d a => encR 0x1E 5 0 0 a d
  | .swcnt d a => encR 0x1E 6 0 0 a d
  | .mopen a b c => encR 0x1F 0 c b a 0
  | .mput b => encR 0x1F 1 0 b 0 0
  | .mputV b => encR 0x1F 2 0 b 0 0
  | .mputE b => encR 0x1F 3 0 b 0 0
  | .mputVe b => encR 0x1F 4 0 b 0 0
  | .gbar d a => encR 0x20 0 0 0 a d
  | .gbarAnd d a => encR 0x20 1 0 0 a d
  | .gbarOr d a => encR 0x20 2 0 0 a d
  | .gbarAdd d a => encR 0x20 3 0 0 a d
  | .gbarMax d a => encR 0x20 4 0 0 a d
  | .gbarMin d a => encR 0x20 5 0 0 a d
  | .launch d a => encR 0x21 0 0 0 a d
  | .exit a => encR 0x21 1 0 0 a 0
  | .yield => encR 0x21 2 0 0 0 0
  | .sys a => encR 0x21 3 0 0 a 0
  | .brk => encR 0x21 4 0 0 0 0
  | .uret => encR 0x21 5 0 0 0 0
  | .uretReplay => encR 0x21 5 0 0 0 1
  | .srd d n => encR 0x21 (n.val / 32) 6 (n.val % 32) 0 d
  | .swr n a => encR 0x21 (n.val / 32) 7 (n.val % 32) a 0
  | .vadd t d a b => encR 0x22 0 t.code b a d
  | .vsub t d a b => encR 0x22 1 t.code b a d
  | .vmul t d a b => encR 0x22 2 t.code b a d
  | .vmax t d a b => encR 0x22 3 t.code b a d
  | .vmin t d a b => encR 0x22 4 t.code b a d
  | .vand t d a b => encR 0x22 5 t.code b a d
  | .vor t d a b => encR 0x22 6 t.code b a d
  | .vxor t d a b => encR 0x22 7 t.code b a d
  | .vdiv t d a b => encR 0x22 8 t.code b a d
  | .vsqrt t d a => encR 0x22 9 t.code 0 a d
  | .vrcp t d a => encR 0x22 10 t.code 0 a d
  | .vrsq t d a => encR 0x22 11 t.code 0 a d
  | .vexp2 t d a => encR 0x22 12 t.code 0 a d
  | .vlog2 t d a => encR 0x22 13 t.code 0 a d
  | .vshl t d a b => encR 0x22 14 t.code b a d
  | .vshr t d a b => encR 0x22 15 t.code b a d
  | .vsra t d a b => encR 0x22 16 t.code b a d
  | .vabs t d a => encR 0x22 17 t.code 0 a d
  | .vneg t d a => encR 0x22 18 t.code 0 a d
  | .vmov t d a => encR 0x22 19 t.code 0 a d
  | .vadd16 bf d b => enc16 0 bf.toNat b d
  | .vsub16 bf d b => enc16 1 bf.toNat b d
  | .vmul16 bf d b => enc16 2 bf.toNat b d
  | .vmax16 bf d b => enc16 3 bf.toNat b d
  | .vmin16 bf d b => enc16 4 bf.toNat b d
  | .vmov16 d b => enc16 5 0 b d
  | .vabs16 bf d b => enc16 6 bf.toNat b d
  | .vneg16 bf d b => enc16 7 bf.toNat b d
  | .vand16 d b => enc16 8 0 b d
  | .vor16 d b => enc16 9 0 b d
  | .vxor16 d b => enc16 10 0 b d
  | .vrcp16 bf d b => enc16 11 bf.toNat b d
  | .vrsq16 bf d b => enc16 12 bf.toNat b d
  | .vexp216 bf d b => enc16 13 bf.toNat b d
  | .vbcast0 bf d b => enc16 14 bf.toNat b d
  | .vzero d => enc16 15 0 0 d
  | .modifierWord m follower => encModifier m + 4294967296 * follower.toNat
  | .vcmpEq t d a b => encR 0x23 0 t.code b a d
  | .vcmpLt t d a b => encR 0x23 1 t.code b a d
  | .vcmpLe t d a b => encR 0x23 2 t.code b a d
  | .vcmpNe t d a b => encR 0x23 3 t.code b a d
  | .vsel t d a b => encR 0x23 4 t.code b a d
  | .vredadd t d a => encR 0x23 5 t.code 0 a d
  | .vredmax t d a => encR 0x23 6 t.code 0 a d
  | .vredmin t d a => encR 0x23 7 t.code 0 a d
  | .vperm t d a b => encR 0x23 8 t.code b a d
  | .vdot t d a b => encR 0x23 9 t.code b a d
  | .vcvt s u d a => encR 0x24 0 s.code u.code a d
  | .vq8 t d a b => encR 0x24 1 t.code b a d
  | .vdq8 t d a b => encR 0x24 2 t.code b a d
  | .vamax t d a => encR 0x24 3 t.code 0 a d
  | .vbcast t d a => encR 0x24 4 t.code 0 a d
  | .vins t d a k => encR 0x24 5 t.code k a d
  | .vext t d a k => encR 0x24 6 t.code k a d
  | .vmvx d a j => encR 0x24 7 0 j a d
  | .vfma t d a b c => encR 0x25 (0 + 4 * t.code) c b a d
  | .vfms t d a b c => encR 0x25 (1 + 4 * t.code) c b a d
  | .vfnma t d a b c => encR 0x25 (2 + 4 * t.code) c b a d
  | .vfnms t d a b c => encR 0x25 (3 + 4 * t.code) c b a d
  | .sbind s a => encR 0x26 0 0 0 a s
  | .seos s a => encR 0x26 1 0 0 a s
  | .sstat d s => encR 0x26 2 0 0 s d
  | .sunbind s => encR 0x26 3 0 0 0 s
  | .tql d a b => encR 0x27 0 0 b a d
  | .tqlatch a => encR 0x27 1 0 0 a 0
  | .tqd a => encR 0x27 2 0 0 a 0
  | .tqmac a => encR 0x27 3 0 0 a 0
  | .tqread a => encR 0x27 4 0 0 a 0
  | .cpy a b c => encR 0x28 0 c b a 0
  | .cpyq d => encR 0x28 1 0 0 0 d
  | .mown => encR 0x29 0 0 0 0 0
  | .mrel => encR 0x29 1 0 0 0 0
  | .mcfg a => encR 0x29 2 0 0 a 0
  | .mmaBf16 a b => encR 0x29 3 0 b a 0
  | .mmaD8 a b c => encR 0x29 4 c b a 0
  | .mmaF16 a b => encR 0x29 5 0 b a 0
  | .mringAdv => encR 0x29 6 0 0 0 0
  | .mringClr => encR 0x29 7 0 0 0 0
  | .epcfg a => encR 0x2A 0 0 0 a 0
  | .epgo a => encR 0x2A 1 0 0 a 0
  | .lease d a => encR 0x2E 0 0 0 a d
  | .unlease => encR 0x2E 1 0 0 0 0
  | .nmsend a => encR 0x2B 0 0 0 a 0
  | .nmresume a => encR 0x2B 1 0 0 a 0
  | .nmload a => encR 0x2B 2 0 0 a 0
  | .nmstat d a => encR 0x2B 3 0 0 a d
  | .mli d v => encMicro 0 d 0 0 v.toNat
  | .mld d a v => encMicro 1 d a v.regField v.low16
  | .mst d a v => encMicro 2 d a v.regField v.low16
  | .mrdrowRead a => encMicro 3 0 a 0 32768
  | .mrdrowWrite a => encMicro 3 0 a 0 32769
  | .mrdrowZero a => encMicro 3 0 a 0 32770
  | .mrdrowCopy a b => encMicro 3 0 a b 32771
  | .madd d a v => encMicro 4 d a v.regField v.low16
  | .msub d a v => encMicro 5 d a v.regField v.low16
  | .mand d a v => encMicro 6 d a v.regField v.low16
  | .mor d a v => encMicro 7 d a v.regField v.low16
  | .mxor d a v => encMicro 8 d a v.regField v.low16
  | .mshl d a v => encMicro 9 d a v.regField v.low16
  | .mshr d a v => encMicro 10 d a v.regField v.low16
  | .mmul d a v => encMicro 11 d a v.regField v.low16
  | .mmax d a v => encMicro 12 d a v.regField v.low16
  | .maccAdd d a => encMicro 13 d a 0 32768
  | .maccRead d a => encMicro 13 d a 0 32769
  | .mbfw a o => encMicro 14 0 a 0 (32768 + o.val)
  | .mbfwZero a o => encMicro 14 0 a 0 (49152 + o.val)
  | .mfin d => encMicro 15 d 0 0 0
  | .ixnear a => encR 0x2C 0 0 0 a 0
  | .ixstore a => encR 0x2C 1 0 0 a 0
  | .ixstoreRel a => encR 0x2C 1 1 0 a 0
  | .ixdel a => encR 0x2C 2 0 0 a 0
  | .ixsnap d a => encR 0x2C 3 0 0 a d
  | .ixstat d a => encR 0x2C 4 0 0 a d
  | .ixcreate d a => encR 0x2C 5 0 0 a d
  | .tscoreSet a => encR 0x2D 0 0 0 a 0
  | .tscoreMax a => encR 0x2D 0 1 0 a 0
  | .tscoreMin a => encR 0x2D 0 2 0 a 0
  | .tscoreAdd a => encR 0x2D 0 3 0 a 0
  | .trinfo d a => encR 0x2D 1 0 0 a d
  | .pinv a => encR 0x2F 0 0 0 a 0
  | .pswap a b => encR 0x2F 1 0 b a 0
  | .pclr a => encR 0x2F 2 0 0 a 0
  | .pgen a => encR 0x2F 3 0 0 a 0
  | .udf u => 127 + 128 * u.toNat
  | .loadReturn | .storePerform | .heldFaultPost | .atomicPerform | .syncWordWake | .messageLanding |
    .packetCount | .barrierComplete | .launchReplicate | .completionBlockUpdate | .tqlatchExec | .tqmacExec
    | .tqdExec | .tqreadExec | .copyCommand | .heldNoticePost | .mmaComplete | .tileDrain | .leaseExpiry |
    .nmuMessageArrival | .rowCopy | .rowZero | .indexedReduce | .tableGather | .tableMac | .accumulatorRead
    | .accumulatorClear | .statusHandler | .loadedHandlerStart | .handlerTimeout | .nmresumeApply |
    .handlerLoad | .indexQueryAccept | .indexSearchEnd | .indexStoreCommit | .indexDeleteCommit |
    .indexSnapshotAccept | .indexStatAccept | .indexCreate | .indexDestroy | .allowanceExhausted | .roundEnd
    | .generationNotice | .upcallDelivery | .bindRecord | .resumeRecord | .stopRecord | .frameCopyDone |
    .threadStop | .saveComplete | .saveDrainTimeout | .slotSpill | .clusterZeroingDone | .gangReservation |
    .scannerPage | .scannerWriteDone | .budgetPeriodStart | .securityAlarm | .burstPause | .burstResume |
    .sliceRetention | .hostLaunchWindowWrite | .reportRequest | .reportReady | .registerWrite |
    .hostCxlMemAccess | .functionLevelReset | .fabricAckTimeout | .coreFailure | .coreOutOfService |
    .identityRotation | .boot | .coreReturnToService | .quarantineLift | .budgetChange | .fabricPeerAccess |
    .conventionalReset => 0

/-- The instruction's own word, as R23 reports it in tval: a 16-bit form's halfword, or the 32-bit word. -/
def Instr.word (i : Instr) : Nat := encode i % 4294967296

/-- The row of the opcode table that a word is (bit 0 the least significant bit of its first halfword). A
32-bit word whose bit 0 is 1 is read as a core reads it, and one whose bit 0 is 0 as an NMU reads a
microinstruction, for a core finds a 16-bit form there. A core and an NMU hold their words in different memories
and read some words both ways; of these, `mrdrow` modes 1 and 3 and the `macc` read are taken as microinstructions
(the log's entry 6). -/
def decodeTableWord (nbits w : Nat) : Option Instr :=
  match nbits with
  | 16 =>
    match decHalf w with
    | .ok i => if w % 2 == 0 then some i else none
    | .error _ => none
  | 32 =>
    match decodeMicro w with
    | .ok (.mrdrowWrite a) => some (.mrdrowWrite a)
    | .ok (.mrdrowCopy a b) => some (.mrdrowCopy a b)
    | .ok (.maccRead d a) => some (.maccRead d a)
    | micro => if w % 2 == 1 then (decWord w).toOption else micro.toOption
  | _ => none

end Sys2Proof
end

