-- ==== Sys2Proof/Machine/Num.lean ====
section
/-!
DEFINITION. Sys2Proof/Machine/Num.lean: exact values and how they become bits (R46 to R55): the floating formats, rounding
with its flags, sums and products, the correctly rounded functions, D8 codes (R56 to R59) and X8 scales (R60 to
R62).
-/
namespace Sys2Proof.Machine

/-- An exact value: a NaN, which may be signalling; an infinity; or a sign with the magnitude `num / den`. With `more` the
magnitude is a little above `num / den`, by less than decides any rounding. -/
inductive Exact where
  | nan (signalling : Bool)
  | inf (neg : Bool)
  | fin (neg : Bool) (num den : Nat) (more : Bool)
  deriving DecidableEq, Repr

/-! ### Flags (R52) -/

/-- Raised flags, as the bits of sr.fflags (R52). -/
abbrev Flags := BitVec 7

/-- inexact -/
def nx : Flags := 0x01
/-- underflow -/
def uf : Flags := 0x02
/-- overflow -/
def ovf : Flags := 0x04
/-- division by zero -/
def dz : Flags := 0x08
/-- invalid -/
def nv : Flags := 0x10
/-- X8 scale clamped -/
def su : Flags := 0x20
/-- integer saturated -/
def sv : Flags := 0x40

/-- A flag raised when a condition holds. -/
def flagIf (c : Bool) (f : Flags) : Flags := if c then f else 0

/-! ### Values -/

/-- Zero. -/
def Exact.zero : Exact := .fin false 0 1 false

/-- An integer as a value. -/
def Exact.ofInt (v : Int) : Exact := .fin (decide (v < 0)) v.natAbs 1 false

/-- A signalling NaN operand raises nv (R48). -/
def Exact.snan : Exact → Flags
  | .nan true => nv
  | .nan false | .inf _ | .fin .. => 0

/-- Whether a value is a NaN. -/
def Exact.isNan : Exact → Bool
  | .nan _ => true
  | .inf _ | .fin .. => false

/-- The value with its sign inverted; a NaN stays. -/
def Exact.neg : Exact → Exact
  | .nan q => .nan q
  | .inf s => .inf (!s)
  | .fin s n d m => .fin (!s) n d m

/-- The magnitude; a NaN stays. -/
def Exact.abs : Exact → Exact
  | .nan q => .nan q
  | .inf _ => .inf false
  | .fin _ n d m => .fin false n d m

/-- The value times 2^k, exactly. -/
def Exact.scale (k : Int) : Exact → Exact
  | .nan q => .nan q
  | .inf s => .inf s
  | .fin s n d m => if 0 ≤ k then .fin s (n * 2 ^ k.toNat) d m else .fin s n (d * 2 ^ (-k).toNat) m

/-- A signed numerator. -/
def signed (s : Bool) (n : Nat) : Int := if s then -(n : Int) else n

/-- How two values compare; none when one is a NaN (R54): -0 equals +0. -/
def Exact.cmp : Exact → Exact → Option Ordering
  | .nan _, _ => none
  | _, .nan _ => none
  | .inf a, .inf b => some (if a = b then .eq else if a then .lt else .gt)
  | .inf a, .fin .. => some (if a then .lt else .gt)
  | .fin .., .inf b => some (if b then .gt else .lt)
  | .fin s n d _, .fin t m e _ => some (compare (signed s (n * e)) (signed t (m * d)))

/-! ### Formats (R47) -/

/-- A floating format: exponent bits and fraction bits. -/
structure Fmt where
  ebits : Nat
  frac : Nat
  deriving DecidableEq, Repr

/-- binary32 -/
def f32 : Fmt := ⟨8, 23⟩
/-- bf16 -/
def bf16 : Fmt := ⟨8, 7⟩
/-- binary16 -/
def f16 : Fmt := ⟨5, 10⟩
/-- binary64, in which tournament scores combine (R335) -/
def f64 : Fmt := ⟨11, 52⟩

/-- Width of a format in bits. -/
def Fmt.width (f : Fmt) : Nat := 1 + f.ebits + f.frac

/-- The exponent bias. -/
def Fmt.bias (f : Fmt) : Nat := 2 ^ (f.ebits - 1) - 1

/-- Bits of +infinity. -/
def Fmt.infBits (f : Fmt) : Nat := (2 ^ f.ebits - 1) * 2 ^ f.frac

/-- The canonical NaN (R47). -/
def Fmt.canon (f : Fmt) : Nat := f.infBits + 2 ^ (f.frac - 1)

/-- The sign bit's weight. -/
def Fmt.signBit (f : Fmt) : Nat := 2 ^ (f.ebits + f.frac)

/-- The value of a bit pattern (R47, R48). -/
def Fmt.unpack (f : Fmt) (v : Nat) : Exact :=
  let s := decide (v / f.signBit % 2 = 1)
  let e := v / 2 ^ f.frac % 2 ^ f.ebits
  let m := v % 2 ^ f.frac
  if e = 2 ^ f.ebits - 1 then
    if m = 0 then .inf s else .nan (decide (m < 2 ^ (f.frac - 1)))
  else
    let mant := if e = 0 then m else m + 2 ^ f.frac
    let expo : Int := (max e 1 : Nat) - (f.bias : Int) - f.frac
    (Exact.fin s mant 1 false).scale expo

/-! ### Rounding (R49, R50) -/

/-- Rounding modes: 0 nearest-even, 1 toward zero, 2 down, 3 up (R49). -/
abbrev Mode := BitVec 2

/-- Nearest-even (R49). -/
def nearest : Mode := 0

/-- Rounds `a / b` (and a little more) to an integer, for a value of sign `s`: the integer and whether it is inexact. -/
def roundQuot (mode : Mode) (s : Bool) (a b : Nat) (more : Bool) : Nat × Bool :=
  let n := a / b
  let r := a % b
  let inexact := r ≠ 0 || more
  let up := match mode.toNat with
    | 0 => decide (b < 2 * r) || (decide (2 * r = b) && (more || n % 2 = 1))
    | 1 => false
    | 2 => s && inexact
    | _ => !s && inexact
  (n + up.toNat, inexact)

/-- The exponent of the leading bit of `n / d`, for `n` above 0. -/
def ilog2 (n d : Nat) : Int :=
  let e : Int := (Nat.log2 n : Int) - Nat.log2 d
  if 0 ≤ e then (if n < d * 2 ^ e.toNat then e - 1 else e)
  else (if n * 2 ^ (-e).toNat < d then e - 1 else e)

/-- Round of R50, with the saturation of R36: the bits and the flags raised. -/
def Fmt.round (f : Fmt) (mode : Mode) (sat : Bool) : Exact → Nat × Flags
  | .nan _ => (if sat then 0 else f.canon, 0)
  | .inf s =>
    let sg := s.toNat * f.signBit
    if sat then (sg + f.infBits - 1, ovf ||| nx) else (sg + f.infBits, 0)
  | .fin s n d more =>
    let sg := s.toNat * f.signBit
    if n = 0 then (sg, 0)
    else
      let emin : Int := 1 - (f.bias : Int)
      let e := max (ilog2 n d) emin
      let q := e - f.frac
      let (m, inexact) :=
        if 0 ≤ q then roundQuot mode s n (d * 2 ^ q.toNat) more else roundQuot mode s (n * 2 ^ (-q).toNat) d more
      let bits := (e - emin).toNat * 2 ^ f.frac + m
      if f.infBits ≤ bits then
        let toMax := sat || mode == 1 || (mode == 2 && !s) || (mode == 3 && s)
        (sg + f.infBits - toMax.toNat, ovf ||| nx)
      else (sg + bits, flagIf inexact nx ||| flagIf (inexact && decide (bits < 2 ^ f.frac)) uf)

/-- A value rounded to an integer: the integer and whether it is inexact; 0 for a NaN or an infinity, which its callers
treat apart. -/
def Exact.toInt (mode : Mode) : Exact → Int × Bool
  | .nan _ | .inf _ => (0, false)
  | .fin s n d more =>
    let (m, inexact) := roundQuot mode s n d more
    (signed s m, inexact)

/-- An integer limited to a signed range of `w` bits. -/
def clampInt (w : Nat) (v : Int) : Int := max (-(2 ^ (w - 1) : Int)) (min v (2 ^ (w - 1) - 1))

/-- A floating value converted to a signed integer of `w` bits (R55): it saturates; a NaN gives 0; a saturation or a NaN
raises nv and nothing else. -/
def Exact.convertInt (w : Nat) (mode : Mode) (x : Exact) : Int × Flags :=
  match x with
  | .nan _ => (0, nv)
  | .inf s => (if s then clampInt w (-(2 ^ w : Int)) else clampInt w (2 ^ w), nv)
  | .fin .. =>
    let (v, inexact) := x.toInt mode
    if clampInt w v = v then (v, flagIf inexact nx) else (clampInt w v, nv)

/-! ### Exact arithmetic (R50, R54, R64) -/

/-- A product: 0 times an infinity is a NaN and raises nv. -/
def Exact.mul (a b : Exact) : Exact × Flags :=
  match a, b with
  | .nan _, _ => (.nan false, a.snan ||| b.snan)
  | _, .nan _ => (.nan false, b.snan)
  | .inf s, .inf t => (.inf (s != t), 0)
  | .inf s, .fin t n _ _ => if n = 0 then (.nan false, nv) else (.inf (s != t), 0)
  | .fin s n _ _, .inf t => if n = 0 then (.nan false, nv) else (.inf (s != t), 0)
  | .fin s n d _, .fin t m e _ => (.fin (s != t) (n * m) (d * e) false, 0)

/-- The sum of two fractions, as a signed numerator and a denominator. -/
def addFrac (a : Int × Nat) (s : Bool) (n d : Nat) : Int × Nat :=
  let l := Nat.lcm a.2 d
  (a.1 * (l / a.2 : Nat) + signed s (n * (l / d)), l)

/-- The exact finite part of a list of terms. -/
def finiteSum : List Exact → Int × Nat
  | [] => (0, 1)
  | .fin s n d _ :: r => addFrac (finiteSum r) s n d
  | .nan _ :: r | .inf _ :: r => finiteSum r

/-- Whether a term is a zero of a sign. -/
def Exact.isZero (s : Bool) : Exact → Bool
  | .fin t n _ _ => n == 0 && t == s
  | .nan _ | .inf _ => false

/-- The exact sum of a list of terms, with its sign where it is zero (R50, R64): infinities of both signs give a NaN and
raise nv, and so do signalling NaNs. -/
def sumNums (mode : Mode) (ts : List Exact) : Exact × Flags :=
  let pos := ts.any (· == .inf false)
  let neg := ts.any (· == .inf true)
  let fl := ts.foldl (fun f t => f ||| t.snan) (flagIf (pos && neg) nv)
  if ts.any Exact.isNan || (pos && neg) then (.nan false, fl)
  else if pos then (.inf false, fl)
  else if neg then (.inf true, fl)
  else
    let (v, d) := finiteSum ts
    if v = 0 then
      (.fin (if ts.all (Exact.isZero true) then true else if ts.all (Exact.isZero false) then false else mode == 2) 0 1 false, fl)
    else (.fin (decide (v < 0)) v.natAbs d false, fl)

/-- A sum of two values. -/
def Exact.add (mode : Mode) (a b : Exact) : Exact × Flags := sumNums mode [a, b]

/-- The fused forms of R96: with `negP` the product and with `negZ` the third operand are negated. -/
def Exact.fma (mode : Mode) (negP negZ : Bool) (x y z : Exact) : Exact × Flags :=
  let (p, f) := x.mul y
  let (v, g) := Exact.add mode (if negP then p.neg else p) (if negZ then z.neg else z)
  (v, f ||| g)

/-- A quotient (R54). -/
def Exact.div (a b : Exact) : Exact × Flags :=
  match a, b with
  | .nan _, _ => (.nan false, a.snan ||| b.snan)
  | _, .nan _ => (.nan false, b.snan)
  | .inf _, .inf _ => (.nan false, nv)
  | .inf s, .fin t _ _ _ => (.inf (s != t), 0)
  | .fin s _ _ _, .inf t => (.fin (s != t) 0 1 false, 0)
  | .fin s n d _, .fin t m e _ =>
    if m = 0 then (if n = 0 then (.nan false, nv) else (.inf (s != t), dz))
    else (.fin (s != t) (n * e) (d * m) false, 0)

/-- The greater or the lesser of two values (R54): a NaN gives way to the other operand; +0 is above -0. -/
def Exact.pick (greater : Bool) (a b : Exact) : Exact × Flags :=
  let fl := a.snan ||| b.snan
  match a, b with
  | .nan _, .nan _ => (.nan false, fl)
  | .nan _, _ => (b, fl)
  | _, .nan _ => (a, fl)
  | _, _ =>
    match a.cmp b with
    | some .lt => (if greater then b else a, fl)
    | some .gt => (if greater then a else b, fl)
    | _ => (if a.isZero greater then b else a, fl)

/-! ### Roots, powers and logarithms (R51, R54) -/

/-- One approach to the square root of `n` from above. -/
def isqrtStep (n : Nat) : Nat → Nat → Nat
  | 0, x => x
  | fuel + 1, x =>
    let y := (x + n / x) / 2
    if x ≤ y then x else isqrtStep n fuel y

/-- The integer square root. -/
def isqrt (n : Nat) : Nat := if n = 0 then 0 else isqrtStep n 64 (2 ^ (Nat.log2 n / 2 + 1))

/-- Fraction bits that the functions below carry. -/
def prec : Nat := 160

/-- The square root of a value. -/
def Exact.sqrt (a : Exact) : Exact × Flags :=
  match a with
  | .nan _ => (.nan false, a.snan)
  | .inf s => if s then (.nan false, nv) else (.inf false, 0)
  | .fin s n d _ =>
    if n = 0 then (.fin s 0 1 false, 0)
    else if s then (.nan false, nv)
    else
      let v := n * d * 4 ^ prec
      let r := isqrt v
      (.fin false r (d * 2 ^ prec) (decide (r * r ≠ v)), 0)

/-- The reciprocal. -/
def Exact.rcp (a : Exact) : Exact × Flags := Exact.div (.fin false 1 1 false) a

/-- The reciprocal of the square root. -/
def Exact.rsq (a : Exact) : Exact × Flags :=
  match a with
  | .nan _ => (.nan false, a.snan)
  | .inf s => if s then (.nan false, nv) else (Exact.zero, 0)
  | .fin s n d _ =>
    if n = 0 then (.inf s, dz)
    else if s then (.nan false, nv)
    else
      let v := n * d * 4 ^ prec
      let r := isqrt v
      (.fin false r (n * 2 ^ prec) (decide (r * r ≠ v)), 0)

/-- The product of the numbers 2^(2^-i) chosen by the bits of `f`, from the highest of `k` bits down; `c` is the current
one, in units of 2^-prec. -/
def exp2Bits (f : Nat) : Nat → Nat → Nat → Nat
  | 0, _, acc => acc
  | k + 1, c, acc =>
    exp2Bits f k (isqrt (c * 2 ^ prec)) (if f / 2 ^ k % 2 = 1 then acc * c / 2 ^ prec else acc)

/-- 2^(f / 2^prec) in units of 2^-prec, for 0 < f < 2^prec: between 1 and 2, both excluded. -/
def exp2Frac (f : Nat) : Nat :=
  max (2 ^ prec) (min (2 ^ (prec + 1) - 1) (exp2Bits f prec (isqrt (2 * 4 ^ prec)) (2 ^ prec)))

/-- Largest exponent of two that the functions form: every format overflows or underflows well inside it. -/
def expLimit : Int := 4096

/-- 2 to the power of a value. -/
def Exact.exp2 (a : Exact) : Exact × Flags :=
  match a with
  | .nan _ => (.nan false, a.snan)
  | .inf s => (if s then Exact.zero else .inf false, 0)
  | .fin s n d _ =>
    let v := signed s n
    let i := max (-expLimit) (min expLimit (v / d))
    let r := (v % d).toNat
    if r = 0 then ((Exact.fin false 1 1 false).scale i, 0)
    else ((Exact.fin false (exp2Frac (r * 2 ^ prec / d)) (2 ^ prec) true).scale i, 0)

/-- Fraction bits of the binary logarithm of `y` (in units of 2^-512, between 1 and 2), by repeated squaring. -/
def log2Bits : Nat → Nat → Nat → Nat
  | 0, _, acc => acc
  | k + 1, y, acc =>
    let z := y * y / 2 ^ 512
    if 2 ^ 513 ≤ z then log2Bits k (z / 2) (2 * acc + 1) else log2Bits k z (2 * acc)

/-- The binary logarithm. -/
def Exact.log2 (a : Exact) : Exact × Flags :=
  match a with
  | .nan _ => (.nan false, a.snan)
  | .inf s => if s then (.nan false, nv) else (.inf false, 0)
  | .fin s n d _ =>
    if n = 0 then (.inf true, dz)
    else if s then (.nan false, nv)
    else
      let e := ilog2 n d
      let y := if 0 ≤ e then n * 2 ^ 512 / (d * 2 ^ e.toNat) else n * 2 ^ (-e).toNat * 2 ^ 512 / d
      if y = 2 ^ 512 then (Exact.ofInt e, 0)
      else
        let l := log2Bits prec y 0
        let t := e * 2 ^ prec + l
        if 0 ≤ t then (.fin false t.toNat (2 ^ prec) true, 0) else (.fin true (-t - 1).toNat (2 ^ prec) true, 0)

/-! ### D8 (R56 to R59) -/

/-- The exact magnitude of the D8 codes 0 to 127, as a fraction (R56). -/
def d8Exact (m : Nat) : Nat × Nat :=
  if m = 0 then (0, 1)
  else
    let p := Nat.log2 m
    if p = 0 then (1, 10 ^ 12)
    else
      let t := m - 2 ^ p
      let h := 2 ^ (p - 1)
      (h + 9 * (t % h), h * 10 ^ (13 - 2 * p - t / h))

/-- The bits of the f32 decode value of a D8 code (R58). -/
def d8Bits (code : Nat) : Nat :=
  if code % 128 = 0 then (if 128 ≤ code % 256 then f32.canon else 0)
  else
    let (n, d) := d8Exact (code % 128)
    (f32.round nearest false (.fin (decide (128 ≤ code % 256)) n d false)).1

/-- The decode value of a D8 code (R58). -/
def d8Value (code : Nat) : Exact := f32.unpack (d8Bits code)

/-- The greatest of the codes `base` to `base + 2^k - 1` whose exact magnitude is at most `n / d`; the first of them
if none is. -/
def d8Floor (n d : Nat) : Nat → Nat → Nat
  | 0, base => base
  | k + 1, base =>
    let (a, b) := d8Exact (base + 2 ^ k)
    if a * d ≤ n * b then d8Floor n d k (base + 2 ^ k) else d8Floor n d k base

/-- EncodeD8 (R59): the code and the flags. -/
def encodeD8 (x : Exact) : Nat × Flags :=
  match x with
  | .nan _ => (0x80, x.snan)
  | .inf s => (s.toNat * 128 + 127, ovf ||| nx)
  | .fin s n d more =>
    let (m, fl) : Nat × Flags :=
      if 311 * d < 32 * n ∨ (more ∧ 311 * d = 32 * n) then (127, ovf ||| nx)
      else
        let lo := d8Floor n d 7 0
        let (a, b) := d8Exact lo
        let (a', b') := d8Exact (lo + 1)
        let twice := 2 * n * b * b'
        let mid := d * (a * b' + a' * b)
        let m := if lo = 127 then 127
          else if mid < twice ∨ (twice = mid ∧ (more ∨ lo % 2 = 1)) then lo + 1 else lo
        let (c, e) := d8Exact m
        (m, flagIf (more || decide (c * d ≠ n * e)) nx ||| flagIf (decide (m = 0) && decide (n ≠ 0)) uf)
    (if m = 0 then 0 else s.toNat * 128 + m, fl)

/-! ### X8 (R60 to R62) -/

/-- ScaleX8 (R61): the code of a block's greatest magnitude, and the flags. -/
def scaleX8 : Exact → Nat × Flags
  | .nan _ | .inf _ => (255, nv)
  | .fin _ n d _ =>
    if n = 0 then (0, 0)
    else
      let a := 32 * n
      let b := 311 * d
      let e := ilog2 a b
      let exact := if 0 ≤ e then a == b * 2 ^ e.toNat else a * 2 ^ (-e).toNat == b
      let c := if exact then e else e + 1
      if c < -127 then (0, su) else ((c + 127).toNat, 0)

/-- EncodeBlock (R61). -/
def encodeBlock (x : Exact) (code : Nat) : Nat × Flags :=
  if code = 255 then (0x80, 0) else encodeD8 (x.scale (127 - (code : Int)))

/-- The value of a dequantised element (R62), before its one rounding. -/
def dequant (q code : Nat) : Exact := if code = 255 then .nan false else (d8Value q).scale ((code : Int) - 127)

end Sys2Proof.Machine
end

