-- ==== Sys2Proof/Config.lean ====
section
/-!
DEFINITION. Sys2Proof/Config.lean: the free values: what the spec leaves open. Each is a constant without a body, so
nothing can be proved of its value, and a statement holds whatever it is. The log's entry 2 names them all. What one
implementation fixes by its signed record is data of the state (`ConfigRecord`).
-/
namespace Sys2Proof.Config

/-- The free choice made at a draw: whether an instruction-cache copy or a walk-buffer line is still held (R19, R317),
whether a registered word has been evicted (R195), whether power admission finds the package below its limit (R361). -/
opaque freeBit : Nat → Bool

/-- The free number of a draw: the member of a group that translates (R314), the cycles a clock step takes (R11). -/
opaque freeNat : Nat → Nat

/-- How long a write made at a stamp may stay unseen by a reader that nothing makes see it (R185, R188, R190): a party,
given as a list of numbers, on a path. -/
opaque delay (stamp : Nat) (reader : List Nat) : Nat

/-- The cipher of a memory key on the 32-byte unit of a number: what stands in memory for the data that is written (R360). -/
opaque cipher (key unit : Nat) : Equiv.Perm (BitVec 256)

/-- The results a search of the index reaches beyond its exact-key map, as the ids of visible entries, and the count
of distances it computes (R277, R280): a function of the commits, the snapshot, the query and the budget. -/
opaque searchReach (commits : List (Nat × List Byte)) (snapshot : Nat) (query : List Byte) (k budget : Nat) :
  List Nat × Nat

/-- The signature over the bytes of a usage report under the identity key of an epoch (R365). -/
opaque signature (epoch : Nat) (signed : List Byte) : List Byte

/-- The hash of the identity public key of an epoch (R365, R366). -/
opaque identityHash (epoch : Nat) : List Byte

/-- The bytes that a core access finds in an index region: the engine's own layout (R289). -/
opaque regionByte (address version : Nat) : Byte

end Sys2Proof.Config
end

