-- ==== Sys2Proof/Machine/Tab.lean ====
section
/-!
DEFINITION. Sys2Proof/Machine/Tab.lean: sparse tables: data by number, kept in rising order of the number with
no number twice; and byte memory, a table that lists no byte equal to what an unlisted address reads as.
-/
namespace Sys2Proof.Machine

/-- A sparse table: the entries stand in rising order of their numbers. -/
abbrev Tab (α : Type) := List (Nat × α)

/-- The entry of number `k`. -/
def Tab.find {α : Type} : Tab α → Nat → Option α
  | [], _ => none
  | (b, w) :: r, k => if k = b then some w else Tab.find r k

/-- The entry of number `k`, or a default. -/
def Tab.get {α : Type} (t : Tab α) (k : Nat) (dflt : α) : α :=
  match Tab.find t k with
  | some w => w
  | none => dflt

/-- Sets the entry of number `k`. -/
def Tab.put {α : Type} : Tab α → Nat → α → Tab α
  | [], k, v => [(k, v)]
  | (b, w) :: r, k, v =>
    if k < b then (k, v) :: (b, w) :: r
    else if k = b then (k, v) :: r
    else (b, w) :: Tab.put r k v

/-- Drops every entry of number `k`. -/
def Tab.drop {α : Type} : Tab α → Nat → Tab α
  | [], _ => []
  | (b, w) :: r, k => if k = b then Tab.drop r k else (b, w) :: Tab.drop r k

/-- Drops the entries numbered from `lo` to `lo + n - 1`. -/
def Tab.dropRange {α : Type} (t : Tab α) (lo n : Nat) : Tab α :=
  t.filter (fun e => e.1 < lo || lo + n ≤ e.1)

/-- The numbers rise strictly. -/
def Tab.rising {α : Type} : Tab α → Bool
  | [] => true
  | [_] => true
  | (a, _) :: (b, w) :: r => decide (a < b) && Tab.rising ((b, w) :: r)

/-- Byte memory: an unlisted address reads as zero, and no listed byte is zero. -/
abbrev Memory := List Host.Cell

/-- What an unlisted address reads as: device memory is zeroed at boot (R368), private slices and scratchpads
whenever they are freed (R153). -/
def Memory.dflt : Byte := 0

/-- The byte at an address. -/
def Memory.read (m : Memory) (a : Nat) : Byte := Tab.get m a Memory.dflt

/-- Stores one byte; storing what an unlisted address reads as removes the entry. -/
def Memory.write : Memory → Nat → Byte → Memory
  | [], a, v => if v = Memory.dflt then [] else [(a, v)]
  | (b, w) :: r, a, v =>
    if a < b then (if v = Memory.dflt then (b, w) :: r else (a, v) :: (b, w) :: r)
    else if a = b then (if v = Memory.dflt then r else (a, v) :: r)
    else (b, w) :: Memory.write r a v

/-- The `n` bytes from an address up. -/
def Memory.readN (m : Memory) (a : Nat) : Nat → List Byte
  | 0 => []
  | n + 1 => Memory.read m a :: Memory.readN m (a + 1) n

/-- Stores a string of bytes from an address up. -/
def Memory.writeN (m : Memory) (a : Nat) : List Byte → Memory
  | [] => m
  | b :: r => Memory.writeN (Memory.write m a b) (a + 1) r

/-- The canonical form: addresses rise strictly, and no listed byte is what an unlisted address reads as. -/
def Memory.wf : Memory → Bool
  | [] => true
  | [(_, v)] => v != Memory.dflt
  | (a, v) :: (b, w) :: r => decide (a < b) && v != Memory.dflt && Memory.wf ((b, w) :: r)

/-- Zeroes `n` bytes from an address up. -/
def Memory.clear (m : Memory) (lo n : Nat) : Memory := Tab.dropRange m lo n

/-- The listed bytes of a range, with addresses counted from its start. -/
def Memory.slice (m : Memory) (lo n : Nat) : Memory :=
  (m.filter (fun e => lo ≤ e.1 && e.1 < lo + n)).map (fun e => (e.1 - lo, e.2))

/-- Stores listed bytes one by one at an offset. -/
def Memory.overlay (m : Memory) (dst : Nat) : Memory → Memory
  | [] => m
  | (a, v) :: r => Memory.overlay (Memory.write m (dst + a) v) dst r

/-- Makes the range of `n` bytes at `dst` a copy of a listed range. -/
def Memory.place (m : Memory) (dst n : Nat) (src : Memory) : Memory :=
  Memory.overlay (Memory.clear m dst n) dst src

end Sys2Proof.Machine
end

