-- ==== Sys2Proof/Machine/State.lean ====
section
/-!
DEFINITION. Sys2Proof/Machine/State.lean: everything the spec gives the MQ8, as plain data: the hardware threads,
memory and what the caches and slices keep, the engines with the commands in flight, and the hub's tables;
and the state right after a device reset.
-/
namespace Sys2Proof.Machine

/-- Why the machine stops. -/
inductive Fault where
  /-- raised by `step` when the boot failed (R368), or after every key was erased (R359): the device answers only
  configuration reads until it is powered off and on, and nothing in it takes a step. Safe: nothing goes on. -/
  | deviceHalted
  deriving DecidableEq, Repr

/-- Why the model has no meaning to give. -/
inductive Refusal where
  /-- raised by an arm of `exec` whose instruction has no meaning in the model. Safe: the run ends. -/
  | notModelled (mnemonic : String)
  deriving DecidableEq, Repr

/-- A thread's identity: function, launch id, gang and rank (R251, R306); in a tournament gangs are numbered within
their rival (R328), so the rival belongs to it. -/
structure Ident where
  vf : Nat
  launch : Nat
  gang : Nat
  grank : Nat
  rival : Option Nat
  deriving DecidableEq, Repr

/-- The issuer of a command: its slot, its identity and its mode. `lost` marks a command whose thread has left
the slot: it still completes and arrives, and counts for no thread (R309). -/
structure Owner where
  slot : Nat
  ident : Ident
  sys : Bool
  lost : Bool
  /-- threads of the gang (register 0x027) -/
  gsize : Nat
  deriving DecidableEq, Repr

/-- A party on a path (none for the host and the fabric), and what it has been made to see (R183 to R191): the stamps up
to which its acquires at each scope, and its `xfence`s (by from * 8 + to), have made the writes of others visible to it; with
what an `xfence` from the core path has passed on to a path (`snapKey`). The stamps are the model's own (the log's entry 63). -/
structure View where
  ident : Ident
  slot : Nat
  path : Option PathId
  gang : Nat
  dev : Nat
  sys : Nat
  fences : Tab Nat
  deriving DecidableEq, Repr

/-- One write to an aligned 8-byte word, with what the word held before it: what a reader finds that is not yet made to
see the write (R185, R188, R190, R192). -/
structure Past where
  /-- when it was performed, as a stamp -/
  stamp : Nat
  old : Word
  /-- the bytes of the word that it wrote -/
  mask : BitVec 8
  /-- the memory key under which `old` was read (R360); 0 in local memory -/
  key : Nat
  who : Ident
  slot : Nat
  path : Option PathId
  /-- the stamp from which it counts as a core-path write: its own, or that of the `xfence`, exit or save that made an
  engine's write one (R191) -/
  core : Option Nat
  /-- the stamp at which it was performed at device scope (R166) -/
  wide : Option Nat
  /-- the stamp at which it was performed at system scope (R166) -/
  far : Option Nat
  /-- for another die, the stamp at which an acquire there dropped the slices' older copies (R166) -/
  brought : Tab Nat
  /-- the stamp of the first release that covers it (R187) -/
  rel : Option Nat
  /-- a `cwait sc,0` covers it: its thread's next store releases it (R189) -/
  armed : Bool
  /-- core-path readers, and the host, that have read it or a later write: they read none older (R192, R202) -/
  read : List Ident
  deriving DecidableEq, Repr

/-- A word whose newest data no memory controller has: it stands in the L1 of the core that has registered it, or dirty in the
slice that recalled it or executed an atomic on it (R164, R165, R172); with the memory key of the writer's function, and the VA of
the store that registered it (R174). -/
structure Registered where
  /-- the core in whose L1 the data stands; none where it stands in the slice -/
  core : Option Nat
  /-- the slice that keeps the registration, or the data: die * 160 + slice -/
  slice : Nat
  key : Nat
  va : Nat
  data : Word
  deriving DecidableEq, Repr

/-- What an access in flight does (R83, R168, R171, R268, R311). -/
inductive AccOp where
  | ld (z : Size) (s : Bool)
  | ldv
  | st (z : Size)
  | stv
  | amo (fn : Fin 9) (dword : Bool)
  | cas (dword : Bool)
  | nmstat
  | pclr
  deriving DecidableEq, Repr

/-- Why an access cannot be performed: its cause, the first faulting address, whether it needs write permission
(R295, R297), and whether the fault was found while status.uact was 1 (R298). -/
structure Why where
  cause : Nat
  va : Nat
  write : Bool
  late : Bool
  deriving DecidableEq, Repr

/-- A global access in flight (R84): issued and retired, not yet performed. -/
structure Access where
  op : AccOp
  va : Nat
  /-- the scope of the order field; for an atomic, the scope alone -/
  scope : Order
  /-- an acquire follows the access (R166) -/
  acq : Bool
  /-- destination register -/
  reg : Reg
  /-- data of a store, operand of an atomic -/
  data : LaneReg
  /-- expected value of `cas` -/
  cmp : Word
  /-- issued while status.uact was 1: an access of the handler (R298) -/
  hand : Bool
  /-- place in program order among the thread's accesses and commands (R295) -/
  seq : Nat
  /-- the page-table generation that a replayed access carries (R321) -/
  gen : Option (BitVec 32)
  /-- a fault found while all record places were full (R297) -/
  stuck : Option Why
  deriving DecidableEq, Repr

/-- The tracked attribute of the global elements of a copy's two records, once one has been touched (R218). -/
structure Attrs where
  src : Option Bool
  dst : Option Bool
  deriving DecidableEq, Repr

/-- A command of the copy engine (R213): two layout records, the sync word and the first element not yet moved. -/
structure CopyCmd where
  owner : Owner
  /-- the issuer on this path, as it stood at issue (R190) -/
  view : View
  src : BitVec 768
  dst : BitVec 768
  sw : Nat
  n : Nat
  attrs : Attrs
  seq : Nat
  gen : Option (BitVec 32)
  /-- the notice of a failure that waits for a place (R302) -/
  fail : Option Word
  deriving DecidableEq, Repr

/-- The epilogue's configuration with what advances in it (R235 to R239). -/
structure EpCfg where
  out : Nat
  rstride : Int
  tstride : Int
  ofmt : Nat
  flags : BitVec 8
  smode : Nat
  bscale : Nat
  bias : Nat
  act : Nat
  oscale : Nat
  othresh : BitVec 32
  olist : Nat
  olimit : Nat
  sync : Nat
  /-- tile sequence -/
  seq : Nat
  /-- outlier count -/
  count : Nat
  deriving DecidableEq, Repr

/-- A drain requested by an `epgo`: its place in program order, and the issuer on the epilogue's path (R190, R234). -/
structure DrainReq where
  seq : Nat
  view : View
  deriving DecidableEq, Repr

/-- A core's matrix unit and epilogue (R225, R232). -/
structure MatrixUnit where
  owner : Option Nat
  waiters : List Nat
  head : Nat
  tail : Nat
  fill : Nat
  /-- requested drains not yet finished, in order: pend of them (R232) -/
  reqs : List DrainReq
  /-- word tile * 4096 + row * 64 + column, as f32 bits; a missing word is 0 -/
  tiles : Tab (BitVec 32)
  cfg : Option EpCfg
  /-- matrix commands outstanding -/
  mc : Nat
  /-- first row that the drain at the tail has not written (R240) -/
  row : Nat
  /-- the drain at the tail is held as a replay record (R240) -/
  held : Bool
  /-- what a replayed drain carries (R321) -/
  gen : Option (BitVec 32)
  /-- the notice of a failed drain that waits for a place (R302) -/
  fail : Option Word
  deriving DecidableEq, Repr

/-- A drain that runs on though its thread has left: the core, the issuer, and the unit with the tile at its tail (R225). -/
structure LostDrain where
  core : Nat
  owner : Owner
  unit : MatrixUnit
  deriving DecidableEq, Repr

/-- The table commands (R253). -/
inductive TableOp where
  | latch | look | mac | read
  deriving DecidableEq, Repr

/-- A table command on its way (R252, R253). -/
structure TableCmd where
  op : TableOp
  owner : Owner
  /-- the issuer on this path, as it stood at issue (R190) -/
  view : View
  /-- local address of the record -/
  raddr : Nat
  tva : Nat
  iva : Nat
  lsrc : Nat
  ldst : Nat
  sync : Nat
  arg : Nat
  /-- a lease of class 1 was held at issue (R259) -/
  leased : Bool
  seq : Nat
  gen : Option (BitVec 32)
  deriving DecidableEq, Repr

/-- An NMU message (R261). -/
structure NmMsg where
  owner : Owner
  /-- the issuer on this path, as it stood at issue (R190) -/
  view : View
  raddr : Nat
  region : Nat
  n : Nat
  handler : Nat
  channel : Nat
  write : Bool
  m : List (BitVec 32)
  sync : Nat
  /-- a lease of class 3 was held at issue (R265) -/
  leased : Bool
  seq : Nat
  gen : Option (BitVec 32)
  /-- frames of the region once translated: physical addresses -/
  frames : List Nat
  /-- the cached translations of those frames, by their places in `tlb` (R318) -/
  leaves : List Nat
  deriving DecidableEq, Repr

/-- What a held replay record performs again (R297, R301). -/
inductive Redo where
  | acc (a : Access)
  | copy (c : CopyCmd)
  | drain (gen : Option (BitVec 32))
  | table (c : TableCmd)
  | nm (m : NmMsg)
  deriving DecidableEq, Repr

/-- A held replay record (R295, R297). -/
structure Held where
  what : Redo
  cause : Nat
  va : Nat
  write : Bool
  engine : Bool
  parked : Bool
  /-- posted while status.uact was 1 (R298) -/
  late : Bool
  seq : Nat
  deriving DecidableEq, Repr

/-- An open message packet (R140 to R142). -/
structure Packet where
  id : Nat
  core : Nat
  addr : Nat
  sync : Nat
  off : Nat
  puts : Nat
  /-- instructions retired since the `mopen` -/
  instrs : Nat
  deriving DecidableEq, Repr

/-- A bound stream (R108). -/
structure Stream where
  base : BitVec 32
  type : Fin 8
  limit : BitVec 32
  stride : BitVec 32
  pos : BitVec 32
  dir : Fin 4
  /-- stamp of the `sbind`, or of the resume that bound it again: a block that is read holds what its bytes held then or since
  (R113); the model's own -/
  since : Nat
  deriving DecidableEq, Repr

/-- One hardware loop level (R79). -/
structure Loop where
  beg : Word
  last : Word
  cnt : Word
  flag : Bool
  deriving DecidableEq, Repr

/-- A power lease (R243). -/
structure Lease where
  cls : Fin 4
  left : Nat
  deriving DecidableEq, Repr

/-- An `mma` that runs: its element type, the addresses of A and of the A scales, and B as it was read (R229). -/
structure MmaRun where
  type : LaneType
  a : Nat
  scales : Option Nat
  b : List Byte
  deriving DecidableEq, Repr

/-- How far a stop of a thread has gone (R154, R304, R305, R330). -/
inductive Phase where
  /-- its frame is being copied into the slot, or it waits for the rest of its group (R151) -/
  | binding
  | running
  /-- a stop was accepted and waits for the thread's boundary -/
  | requested
  /-- stopped; its work drains -/
  | draining
  /-- saved into its slice; with a frame it waits to be spilled, without one it is suspended at its allowance -/
  | saved
  deriving DecidableEq, Repr

/-- An index command's operation (R281). -/
inductive IxOp where
  | near | store | del | snap | stat
  deriving DecidableEq, Repr

/-- An index command (R282, R283). -/
structure IxCmd where
  op : IxOp
  owner : Owner
  /-- the issuer on this path, as it stood at issue (R190) -/
  view : View
  raddr : Nat
  /-- the record as read at issue; empty for `ixsnap` and `ixstat` -/
  bytes : List Byte
  handle : Nat
  reg : Reg
  leased : Bool
  /-- stamp of the release that an `ixstore.rel` made (R196); the model's own -/
  rel : Option Nat
  /-- accepted, with the version at acceptance (R276) -/
  accepted : Option Nat
  /-- stamp of the acceptance: queries are served in the order of it (R290) -/
  order : Nat
  /-- the snapshot of a query -/
  snapshot : Nat
  seq : Nat
  deriving DecidableEq, Repr

/-- A handler load on its way, with the NMUs that have not loaded (R269). -/
structure NmLoad where
  owner : Owner
  nmus : List Nat
  handler : Nat
  words : List (BitVec 32)
  sync : Nat
  seq : Nat
  deriving DecidableEq, Repr

/-- A suspended command, sent again after the resume (R305, R307). -/
inductive Progress where
  | copy (c : CopyCmd)
  | table (c : TableCmd)
  | nm (m : NmMsg)
  | load (l : NmLoad)
  | near (c : IxCmd)
  deriving DecidableEq, Repr

/-- A hardware thread on a slot. A slot number is die * 1280 + cluster * 64 + core * 8 + slot. -/
structure Thread where
  bound : Bool
  slot : Nat
  ident : Ident
  gsize : Nat
  prio : Nat
  sys : Bool
  x : Vector Word 32
  f : Vector LaneReg 32
  live : BitVec 64
  pc : Word
  uact : Bool
  epc : Word
  cause : Word
  tval : Word
  uvec : Word
  usave : Word
  notices : List Word
  heldNotices : List Word
  iret : Word
  rmode : BitVec 2
  fflags : BitVec 7
  othresh : BitVec 32
  clamplo : BitVec 32
  clamphi : BitVec 32
  loop0 : Loop
  loop1 : Loop
  score : Word
  lease : Option Lease
  mstride : Word
  mrow : Word
  streams : Vector (Option Stream) 4
  acc : List Access
  held : List Held
  /-- records that `uret.replay` has still to send again, in program order (R301) -/
  redo : List Held
  packet : Option Packet
  /-- the contribution of a held arrival at `gbar` -/
  arrived : Option Word
  /-- the arrival was made while status.uact was 1, by the `gbar` that the handler still executes (R132) -/
  arriveHand : Bool
  /-- the contributions of the arrived set, once the barrier has completed -/
  depart : Option (List Word)
  progress : List Progress
  phase : Phase
  /-- frame address of the stop or of the resume; 0 for none -/
  frame : Nat
  /-- the stop is a suspension at a tournament allowance -/
  allow : Bool
  /-- the ring save place that a resume loads back -/
  ring : Option Nat
  /-- `ixcreate`: the record sent, and the engine's answer; while it waits the slot executes it again without a fetch (R289) -/
  ixReq : Option (List Byte)
  ixAns : Option Word
  /-- the slot waits in `swwait` for this sync word's generation to differ from the value -/
  swWait : Option (Nat × BitVec 32)
  /-- the registers of the `ixcreate` that waits, its destination first (R289) -/
  ixRegs : Option (Reg × Reg)
  /-- the slot waits in `mown` -/
  mownWait : Bool
  /-- the slot waits in an `mma` for its rows (R230) -/
  mma : Option MmaRun
  /-- a waiting instruction has found nothing changed -/
  stalled : Bool
  /-- the wait is that of a release of this scope: for earlier accesses, or for an acknowledgement (R166, R353) -/
  relWait : Option Order
  /-- the record that a waiting instruction has read, once, from local memory (R134, R236, R283) -/
  latched : Option (List Byte)
  /-- 1 + the cycle at which the slot last issued, 0 if never since bound (R18) -/
  lastIssue : Nat
  /-- the last instruction still occupies the slot: a division, or the delivery of an upcall (R75, R118) -/
  occupied : Bool
  /-- program-order stamp of the next access or command -/
  seq : Nat
  /-- cycle at which the slot was bound -/
  boundAt : Nat
  /-- stamps of the newest acquires at gang, device and system scope (R186), and of each `xfence`, by from * 8 + to (R178);
  the model's own -/
  gangSeen : Nat
  devSeen : Nat
  sysSeen : Nat
  fences : Tab Nat
  /-- stamp of the newest `ixstore.rel` whose entry a query of the thread has returned (R196); the model's own -/
  ixSeen : Nat
  /-- stamp of the bind, the resume or the newest `yield`: what was released by then is what the thread fetches (R19); the model's own -/
  codeSeen : Nat
  deriving DecidableEq, Repr

/-- A launch packet (R133). -/
structure LaunchPacket where
  kind : Nat
  prio : Nat
  policy : Nat
  mask : BitVec 8
  threads : Nat
  spad : Nat
  entry : Nat
  arg : Word
  gangs : Nat
  indirect : Bool
  sys : Bool
  countva : Nat
  done : Nat
  rivals : Nat
  scoreMode : Nat
  grow : Nat
  allow0 : Nat
  deriving DecidableEq, Repr

/-- A rival of a tournament (R328, R329, R335). -/
structure Rival where
  alive : Bool
  score : Word
  /-- instructions retired in this round -/
  used : Nat
  /-- gang limit -/
  limit : Nat
  /-- share of the die scratchpad: units numbered on the die -/
  share : List Nat
  /-- gangs finished -/
  finished : Nat
  deriving DecidableEq, Repr

/-- An entry of the hub's launch table (R145, R150). -/
structure Launch where
  id : Nat
  fn : Nat
  pkt : LaunchPacket
  /-- the packet came from a host window (R350) -/
  host : Bool
  /-- the count N, once known (R137) -/
  count : Option Nat
  /-- gangs bound or discarded; in a tournament, numbered rival + 64 * index -/
  bound : List Nat
  finished : Nat
  round : Nat
  rivals : List Rival
  /-- stamp of the acceptance: what the host has made visible before its window write (R349); the model's own -/
  seen : Nat
  /-- stamps of the newest acquires, at gang and at device scope, of threads of it that have ended (R138, R334); the model's own -/
  got : Nat × Nat
  deriving DecidableEq, Repr

/-- A gang that has been bound and has not finished (R125). -/
structure Gang where
  launch : Nat
  fn : Nat
  gang : Nat
  rival : Option Nat
  die : Nat
  cluster : Nat
  gsize : Nat
  prio : Nat
  /-- units of the die scratchpad, in the order of the grant (R126, R158) -/
  grant : List Nat
  /-- grant size in bytes -/
  grantBytes : Nat
  /-- ranks that have exited or stopped -/
  ended : List Nat
  /-- least exit value so far -/
  least : Option Int
  /-- completion code of a reported cause or a lost context (R127) -/
  code : Option Int
  /-- contributions to the barrier of threads that arrived and then exited (R131) -/
  gone : List Word
  /-- ranks saved in frames, with the frame -/
  saved : List (Nat × Nat)
  /-- ranks saved after their barrier had completed and before they left it, with the arrived set -/
  leaving : List (Nat × List Word)
  /-- stamps of the newest acquires, at gang and at device scope, of threads of it that have ended (R138); the model's own -/
  got : Nat × Nat
  deriving DecidableEq, Repr

/-- A completion-block update on its way (R138, R334). -/
structure Completion where
  launch : Nat
  fn : Nat
  done : Nat
  code : Int
  /-- the update that completes a tournament -/
  tournament : Bool
  /-- a release at system scope, for a launch from a host window (R350) -/
  sys : Bool
  /-- the launch runs user threads -/
  user : Bool
  /-- the finished gang, as its number in the launch and its rival; none for a tournament -/
  gang : Option (Nat × Option Nat)
  die : Nat
  /-- words of the block already updated: least, then failed, then finished (R138) -/
  stage : Nat
  /-- stamps of the newest acquires, at gang and at device scope, of the threads whose accesses the update follows (R138); the
  model's own -/
  got : Nat × Nat
  deriving DecidableEq, Repr

/-- A die's bind port (R150, R151). -/
structure BindPort where
  /-- bytes 0 to 7 of a record, from the first store of its two -/
  half : BitVec 64
  group : List (BitVec 128)
  code : Nat
  /-- the count that the status register shows: records accepted in the open group -/
  count : Nat
  /-- a complete group waits for a cluster's zeroing (R153) -/
  waiting : Bool
  deriving DecidableEq, Repr

/-- A cluster's tenant (R153). -/
structure Tenant where
  fn : Option Nat
  zeroing : Bool
  deriving DecidableEq, Repr

/-- Bytes of a put that have not landed (R143). -/
structure Landing where
  packet : Nat
  src : Ident
  /-- destination core of the device -/
  core : Nat
  /-- key of the destination in `loc` -/
  dst : Nat
  data : List Byte
  deriving DecidableEq, Repr

/-- A closed or aborted packet that has not counted (R142, R143). -/
structure Count where
  packet : Nat
  src : Ident
  core : Nat
  /-- key of the sync word in `loc`; none counts nowhere -/
  sync : Option Nat
  bytes : Nat
  error : Bool
  deriving DecidableEq, Repr

/-- A table latch: its bank, the address of its row, and the copy of the row (R250). -/
structure Latch where
  bank : Nat
  row : Nat
  data : Memory
  deriving DecidableEq, Repr

/-- Where and why a handler stopped (R266); `told` once its notice has been posted (R302). -/
structure Stop where
  kind : Nat
  bank : Nat
  column : Nat
  told : Bool
  deriving DecidableEq, Repr

/-- A running handler (R260). -/
structure Handler where
  msg : NmMsg
  m : Vector (BitVec 32) 16
  buf : Tab (BitVec 32)
  pc : Nat
  stop : Option Stop
  /-- the message has left nc, with the notice of a stop (R266) -/
  left : Bool
  deriving DecidableEq, Repr

/-- A near-memory unit, numbered stack * 32 + channel (R250, R251, R260). -/
structure Nmu where
  claim : Option Ident
  latches : List Latch
  acc : Tab (BitVec 32)
  queue : List NmMsg
  run : Option Handler
  loaded : Tab (List (BitVec 32))
  /-- a burst is paused here (R362) -/
  paused : Bool
  deriving DecidableEq, Repr

/-- A resume record on its way (R267). -/
structure NmResume where
  owner : Owner
  nmu : Nat
  action : Nat
  reg : MReg
  set : Bool
  value : BitVec 32
  deriving DecidableEq, Repr

/-- An entry of an index (R273, R275). -/
structure IxEntry where
  id : Nat
  key : List Byte
  payload : Word
  commit : Nat
  delete : Option Nat
  /-- stamp of the release of its `ixstore.rel` (R196); the model's own -/
  rel : Option Nat
  deriving DecidableEq, Repr

/-- An index (R273). -/
structure Index where
  dims : Nat
  ktype : Nat
  metric : Nat
  capacity : Nat
  home : Nat
  fn : Nat
  region : Nat
  regionBytes : Nat
  /-- frames of the region, as physical addresses -/
  frames : List Nat
  version : Nat
  next : Nat
  entries : List IxEntry
  deriving DecidableEq, Repr

/-- An index slot: its generation, and its index when it holds one (R274). -/
structure IxSlot where
  gen : Nat
  index : Option Index
  deriving DecidableEq, Repr

/-- A place of the record store (R306). -/
structure StorePlace where
  place : Nat
  ident : Ident
  acc : List Access
  held : List Held
  progress : List Progress
  notices : List Word
  heldNotices : List Word
  deriving DecidableEq, Repr

/-- A place of a die's ring save area, with its descriptor (R242). -/
structure RingPlace where
  ident : Ident
  unit : MatrixUnit
  deriving DecidableEq, Repr

/-- A cached translation (R317): the leaf as it was walked, with A and D as they stand where they are kept. -/
structure Trans where
  leaf : Word
  /-- physical address of the entry that translates: of a group, any one of its members (R314) -/
  entry : Nat
  /-- physical address of the entry in which A and D are set: of a group, the first member (R318) -/
  first : Nat
  deriving DecidableEq, Repr

/-- What a report to Monel tells (R21, R162, R174, R137, R138, R309, R314, R359). -/
inductive ReportKind where
  | cause | lost | launchFault | completionFault | badEntry | scanEntry | poison | core | alarm | rowLost
  deriving DecidableEq, Repr

/-- A report to Monel. -/
structure MonelReport where
  kind : ReportKind
  ident : Ident
  args : List Nat
  deriving DecidableEq, Repr

/-- A function's BAR0 registers (R347, R365). -/
structure Bar where
  seq : BitVec 16
  status : Int
  id : Nat
  drops : Nat
  nonce : BitVec 256
  busy : Bool
  /-- the counters and the time of the report being built -/
  taken : List Nat
  report : List Byte
  deriving DecidableEq, Repr

/-- What the world outside may do to the device that no row of the opcode table names: Monel's writes for the physical function
(R148, R352), a store of the dispatch firmware to a bind port (R150), a store of the host to its memory (R349), a failing bit
(R249) and a failing byte of local memory. -/
inductive Outside where
  | weight (fn w : Nat)
  | peerWindow (k : Nat) (w : PeerWindow)
  | portStore (die : Nat) (second : Bool) (v : BitVec 64)
  | hostStore (pa : Nat) (bytes : List Byte)
  | bitError (pa bit : Nat)
  | localError (key : Nat)
  deriving DecidableEq, Repr

/-- A turn: an event with what it concerns, the next microinstruction of an NMU's running handler, or the next issue of
a core, numbered die * 160 + cluster * 8 + core. -/
inductive Turn where
  | event (e : Instr) (args : EventArgs)
  | nmu (n : Nat)
  | core (n : Nat)
  /-- rows of the `mma` that a slot waits in (R230) -/
  | rows (slot : Nat)
  /-- what occupies a slot is over (R75, R118) -/
  | free (slot : Nat)
  | outside (o : Outside)
  deriving DecidableEq, Repr

/-- The machine. -/
structure State where
  /-- the thread that acts or is acted upon -/
  th : Thread
  /-- the other bound threads, by slot -/
  others : Tab Thread
  /-- the turns laid down (the model's own) -/
  agenda : List Turn
  /-- what the event at hand concerns (the model's own) -/
  ev : EventArgs
  /-- the NMU whose handler acts (the model's own) -/
  nmuAt : Nat
  /-- free values drawn (the model's own) -/
  draw : Nat
  /-- packets opened and closed (the model's own) -/
  packets : Nat
  clock : Nat
  /-- cycles that a die left reset before the hub's clock began: the tick of each die runs by itself (R2, R11) -/
  skew : Tab Nat
  halted : Bool
  bootStep : Nat
  cfg : ConfigRecord
  /-- physical memory: device memory, and host memory from 2^55 -/
  mem : Memory
  /-- local memory, by the keys of `locKey` -/
  loc : Memory
  /-- the key under which a 32-byte unit was written; a missing unit is in clear (R360) -/
  keys : Tab Nat
  /-- the tag column of a row; a missing row has tag 0 (R249) -/
  tags : Tab Nat
  /-- poisoned 8-byte words (R174) -/
  poison : Tab Bool
  /-- 32-byte words with uncorrectable errors; a hardware failure (R249) -/
  bad : Tab Bool
  /-- the bad bit of a 32-byte word that has one, which every read corrects (R249); by number of the word -/
  weak : Tab Nat
  /-- bytes of local memory with uncorrectable errors, by the keys of `locKey`; a hardware failure (R21, R308) -/
  badLoc : Tab Bool
  /-- instruction-cache halfwords (R17, R19) -/
  icache : Tab (BitVec 16)
  /-- words whose newest data stands in an L1 or dirty in a slice, by number of the 8-byte word (R164, R165) -/
  regs : Tab Registered
  /-- the stamp of the next write that a reader may not yet see (the model's own) -/
  now : Nat
  /-- writes of local memory that some reader may not yet see, newest first, by number of the 8-byte word of `loc` (R185, R190) -/
  locPast : Tab (List Past)
  /-- the same for physical memory: word * 2 through untracked pages, word * 2 + 1 through tracked ones -/
  memPast : Tab (List Past)
  /-- cached translations by slice, function and page (R317) -/
  tlb : Tab Trans
  /-- walk-buffer lines by slice and address of the 8-byte entry (R317) -/
  walk : Tab Word
  /-- the generation of each slice (R317) -/
  gs : Tab (BitVec 32)
  /-- the device generation (R320) -/
  gd : BitVec 32
  /-- notices of a generation on their way to slices (R320) -/
  genSent : Tab (BitVec 32)
  /-- pages that a scanner is writing back: die, function, VA (R323) -/
  scans : List (Nat × Nat × Nat)
  gangs : List Gang
  /-- gangs that have finished while commands of theirs still run: their grants stay theirs until then (R21, R309) -/
  ghosts : List Gang
  launches : List Launch
  nextLaunch : Nat
  completions : List Completion
  ports : Tab BindPort
  tenants : Tab Tenant
  /-- reservations: die, launch, gang as in `Launch.bound`, cluster (R149) -/
  reserves : List (Nat × Nat × Nat × Nat)
  /-- weight of a function in the round-robin, 16 where none is set (R148) -/
  weights : Tab Nat
  /-- slot-cycles charged to a function in the current round of a class on a die: (die * 4 + class) * 129 + function (R148) -/
  charges : Tab Nat
  landings : List Landing
  counts : List Count
  copyQ : Tab (List CopyCmd)
  units : Tab MatrixUnit
  /-- drains that run on without their threads (R225) -/
  drains : List LostDrain
  tableQ : List TableCmd
  nmQ : List NmMsg
  nmus : Tab Nmu
  resumes : List NmResume
  loads : List NmLoad
  indexes : Tab IxSlot
  ixQ : List IxCmd
  /-- index engines at which a burst is paused (R362) -/
  ixPaused : List Nat
  store : List StorePlace
  /-- ring save places, numbered die * 16 + place -/
  rings : Tab RingPlace
  usage : Tab Nat
  bars : Tab Bar
  /-- next sequence number of a function's reports -/
  reportSeq : Tab Nat
  /-- epoch of the identity key (R366, R367) -/
  epoch : Nat
  /-- the memory keys and the identity key have been erased (R359) -/
  erased : Bool
  /-- replacements of a function's memory key (R359) -/
  keyEpoch : Tab Nat
  quarantined : List Nat
  inReset : List Nat
  /-- budgets in force and budgets of the next period: function * 7 + class (R357) -/
  budgets : Tab Nat
  nextBudgets : Tab Nat
  period : Nat
  /-- bytes that the last read of the host or of a peer was answered with (R351, R353, R360) -/
  reply : List Byte
  /-- that read was answered with a CXL completion error (R351) -/
  replyError : Bool
  /-- L2 slices in retention (R363) -/
  retained : List Nat
  monel : List MonelReport
  deriving DecidableEq, Repr

/-- An inactive loop level. -/
def Loop.none : Loop := ⟨0, 0, 0, false⟩

/-- A slot before anything is bound to it: the start values of R11 and R16. -/
def Thread.idle : Thread where
  bound := false
  slot := 0
  ident := ⟨0, 0, 0, 0, none⟩
  gsize := 0
  prio := 0
  sys := false
  x := (Vector.replicate 32 0).set 2 0x3900
  f := Vector.replicate 32 0
  live := 0x14
  pc := 0
  uact := false
  epc := 0
  cause := 0
  tval := 0
  uvec := 0
  usave := 0x3900
  notices := []
  heldNotices := []
  iret := 0
  rmode := 0
  fflags := 0
  othresh := 0x7F800000
  clamplo := 0
  clamphi := 0x3F800000
  loop0 := Loop.none
  loop1 := Loop.none
  score := 0
  lease := none
  mstride := 0
  mrow := 0
  streams := Vector.replicate 4 none
  acc := []
  held := []
  redo := []
  packet := none
  arrived := none
  arriveHand := false
  depart := none
  progress := []
  phase := .running
  frame := 0
  allow := false
  ring := none
  ixReq := none
  ixAns := none
  swWait := none
  ixRegs := none
  mownWait := false
  mma := none
  stalled := false
  relWait := none
  latched := none
  lastIssue := 0
  occupied := false
  seq := 0
  boundAt := 0
  gangSeen := 0
  devSeen := 0
  sysSeen := 0
  fences := []
  ixSeen := 0
  codeSeen := 0

/-- A matrix unit without an owner: the ring in its empty state (R225). -/
def MatrixUnit.empty : MatrixUnit where
  owner := none
  waiters := []
  head := 0
  tail := 0
  fill := 0
  reqs := []
  tiles := []
  cfg := none
  mc := 0
  row := 0
  held := false
  gen := none
  fail := none

/-- A near-memory unit unclaimed (R251). -/
def Nmu.empty : Nmu where
  claim := none
  latches := []
  acc := []
  queue := []
  run := none
  loaded := []
  paused := false

/-- A function's BAR0 after a reset (R347). -/
def Bar.empty : Bar where
  seq := 0
  status := 0
  id := 0
  drops := 0
  nonce := 0
  busy := false
  taken := []
  report := []

/-- The configuration record of the reset state (the log's entry 5). -/
def ConfigRecord.dflt : ConfigRecord where
  diesOut := 0
  stacksOut := 0
  coresOut := []
  device := 0
  rootTable := 0x100000
  ringSave := 0x1000000
  recordStore := 0x8000000
  peers := []
  routes := []
  budgets := []
  alarms := [0, 0, 0, 0, 0, 0, 0]
  withheld := 0
  retention := true
  firmware := []
  weights := []

/-- An event's arguments, all empty. -/
def EventArgs.none : EventArgs := ⟨0, 0, 0, 0, false, ConfigRecord.dflt, .read⟩

/-- The machine after a device reset and its boot (R346, R368): no slot bound, no launch queued, memory zeroed,
every cache and table empty. -/
def State.reset : State where
  th := Thread.idle
  others := []
  agenda := []
  ev := EventArgs.none
  nmuAt := 0
  draw := 0
  packets := 0
  clock := 0
  skew := []
  halted := false
  bootStep := 0
  cfg := ConfigRecord.dflt
  mem := []
  loc := []
  keys := []
  tags := []
  poison := []
  bad := []
  weak := []
  badLoc := []
  icache := []
  regs := []
  now := 0
  locPast := []
  memPast := []
  tlb := []
  walk := []
  gs := []
  gd := 0
  genSent := []
  scans := []
  gangs := []
  ghosts := []
  launches := []
  nextLaunch := 1
  completions := []
  ports := []
  tenants := []
  reserves := []
  weights := []
  charges := []
  landings := []
  counts := []
  copyQ := []
  units := []
  drains := []
  tableQ := []
  nmQ := []
  nmus := []
  resumes := []
  loads := []
  indexes := []
  ixQ := []
  ixPaused := []
  store := []
  rings := []
  usage := []
  bars := []
  reportSeq := []
  epoch := 0
  erased := false
  keyEpoch := []
  quarantined := []
  inReset := []
  budgets := []
  nextBudgets := []
  period := 0
  reply := []
  replyError := false
  retained := []
  monel := []

end Sys2Proof.Machine
end

