-- ==== Sys2Proof/Machine/Regs.lean ====
section
/-!
DEFINITION. Sys2Proof/Machine/Regs.lean: the registers of the thread at hand, the other threads, free values, the local
address map (R159, R160) and the retirement of an instruction (R12, R81).
-/
namespace Sys2Proof.Machine

/-- What a step answers. -/
abbrev Out := Host.Outcome State Fault Refusal

/-! ### Registers of the thread at hand -/

/-- x register; x0 reads as zero (R7). -/
def State.getX (s : State) (r : Reg) : Word := if r = 0 then 0 else s.th.x[r]

/-- Writes an x register and makes it live; a write to x0 is discarded (R7, R123). -/
def State.setX (s : State) (r : Reg) (v : Word) : State :=
  if r = 0 then s
  else { s with th := { s.th with x := s.th.x.set r v, live := s.th.live ||| (1#64 <<< r.val) } }

/-- f register as it stands (R8). -/
def State.getF (s : State) (r : Reg) : LaneReg := s.th.f[r]

/-- Writes an f register and makes it live (R8, R123). -/
def State.setF (s : State) (r : Reg) (v : LaneReg) : State :=
  { s with th := { s.th with f := s.th.f.set r v, live := s.th.live ||| (1#64 <<< (32 + r.val)) } }

/-- Bits [55:1] of a value: what the program counter keeps (R9). -/
def pcBits (w : Word) : Word := w &&& 0x00FFFFFFFFFFFFFE#64

/-- Replaces the thread at hand. -/
def State.setTh (s : State) (t : Thread) : State := { s with th := t }

/-- The program counter moved by `n` bytes (R9). -/
def State.pcPlus (s : State) (n : Nat) : Word := pcBits (s.th.pc + BitVec.ofNat 64 n)

/-! ### Placement -/

/-- Core of a slot within its device: die * 160 + cluster * 8 + core. -/
def coreOf (slot : Nat) : Nat := slot / 8
/-- Cluster of a slot within its device: die * 20 + cluster. -/
def clusterOf (slot : Nat) : Nat := slot / 64
/-- Die of a slot. -/
def dieOf (slot : Nat) : Nat := slot / 1280

/-- The thread on a slot, the one at hand or another. -/
def State.threadAt (s : State) (slot : Nat) : Option Thread :=
  if s.th.slot = slot ∧ s.th.bound then some s.th else Tab.find s.others slot

/-- Makes the thread on a slot the one at hand; nothing changes where no thread is bound there. -/
def State.focus (s : State) (slot : Nat) : State :=
  if s.th.slot = slot ∧ s.th.bound then s
  else match Tab.find s.others slot with
    | none => s
    | some t =>
      let rest := Tab.drop s.others slot
      { s with th := t, others := if s.th.bound then Tab.put rest s.th.slot s.th else rest }

/-- Replaces the thread on a slot, whether it is at hand or not. -/
def State.putThread (s : State) (t : Thread) : State :=
  if s.th.slot = t.slot ∧ s.th.bound then { s with th := t } else { s with others := Tab.put s.others t.slot t }

/-- Every bound thread. -/
def State.threads (s : State) : List Thread :=
  (if s.th.bound then [s.th] else []) ++ s.others.map (·.2)

/-- The issuer that the thread at hand is (R183). -/
def Thread.owner (t : Thread) : Owner := ⟨t.slot, t.ident, t.sys, false, t.gsize⟩

/-- The party that the thread is on a path, as it stands (R183, R184). -/
def Thread.view (t : Thread) (p : PathId) : View := ⟨t.ident, t.slot, some p, t.gangSeen, t.devSeen, t.sysSeen, t.fences⟩

/-! ### Free values -/

/-- A free choice, and the state with the draw spent. -/
def State.drawBit (s : State) : Bool × State := (Config.freeBit s.draw, { s with draw := s.draw + 1 })

/-- A free number, and the state with the draw spent. -/
def State.drawNat (s : State) : Nat × State := (Config.freeNat s.draw, { s with draw := s.draw + 1 })

/-! ### The local address map -/

/-- The gang of an identity, while it has not finished. -/
def State.gangOf (s : State) (i : Ident) : Option Gang :=
  s.gangs.find? (fun g => g.launch == i.launch && g.fn == i.vf && g.gang == i.gang && g.rival == i.rival)

/-- Replaces a gang. -/
def State.putGang (s : State) (g : Gang) : State :=
  { s with gangs := s.gangs.map (fun h =>
      if h.launch == g.launch && h.fn == g.fn && h.gang == g.gang && h.rival == g.rival then g else h) }

/-- Whether an identity is a rank of a gang. -/
def Gang.has (g : Gang) (i : Ident) : Bool := g.launch == i.launch && g.fn == i.vf && g.gang == i.gang && g.rival == i.rival

/-- The die scratchpad grant of an identity's gang, as units of 64 KiB (R126); one that has finished keeps it for commands of
its threads that still run (R21, R309). -/
def State.grantOf (s : State) (i : Ident) : List Nat :=
  match s.gangOf i with
  | some g => g.grant
  | none => ((s.ghosts.find? (·.has i)).map (·.grant)).getD []

/-- The level that holds a local address, as its first address and its length; none outside every range. The die
scratchpad ends where the grant ends (R126, R159). -/
def levelOf (grant : List Nat) (la : Nat) : Option (Nat × Nat) :=
  if la < 0x4000 then some (0, 0x4000)
  else if 0x10000 ≤ la ∧ la < 0x70000 then some (0x10000, 0x60000)
  else if 0x1000000 ≤ la ∧ la < 0x1200000 then some (0x1000000, 0x200000)
  else if 0x10000000 ≤ la ∧ la < 0x10000000 + 65536 * grant.length then some (0x10000000, 65536 * grant.length)
  else none

/-- The key in `loc` of a local address as a slot sees it. A cluster window names the upper 256 KiB of its core's
scratchpad (R160). -/
def locKey (slot : Nat) (grant : List Nat) (la : Nat) : Option Nat :=
  if la < 0x4000 then some (slot * 0x4000 + la)
  else if 0x10000 ≤ la ∧ la < 0x70000 then some (0x100000000 + coreOf slot * 0x60000 + (la - 0x10000))
  else if 0x1000000 ≤ la ∧ la < 0x1200000 then
    let o := la - 0x1000000
    some (0x100000000 + (clusterOf slot * 8 + o / 0x40000) * 0x60000 + 0x20000 + o % 0x40000)
  else if 0x10000000 ≤ la then
    match grant[(la - 0x10000000) / 65536]? with
    | some u => some (0x10000000000 + (dieOf slot * 768 + u) * 65536 + la % 65536)
    | none => none
  else none

/-- The first address, of the `n` bytes from `la` up, that does not lie in the level of `la` (R85, R169, R181). -/
def firstOutside (grant : List Nat) (la n : Nat) : Option Nat :=
  match levelOf grant la with
  | none => some la
  | some (lo, len) => if la + n ≤ lo + len then none else some (lo + len)

/-- The first address of the `n` bytes from `la` up that lies in the window of a core out of service (R162): the local address that the
cause carries, where an access crosses into the window (DESIGN CHOICE, the log's entry 65). -/
def outWindow (coresOut : List Nat) (slot la : Nat) : Nat → Option Nat
  | 0 => none
  | n + 1 =>
    if 0x1000000 ≤ la ∧ la < 0x1200000 ∧ coresOut.contains (clusterOf slot * 8 + (la - 0x1000000) / 0x40000) then
      some la
    else outWindow coresOut slot (la + 1) n

/-- Why a local access of `n` bytes is refused: cause and qualifier (R85, R126, R162). -/
def State.localFault (s : State) (o : Owner) (la n : Nat) : Option (Nat × Nat) :=
  match firstOutside (s.grantOf o.ident) la n with
  | some a => some (0x05, a)
  | none =>
    match outWindow s.cfg.coresOut o.slot la n with
    | some a => some (0x09, a)
    | none => none

/-- One byte of local memory, as a slot sees it. -/
def State.readLoc1 (s : State) (o : Owner) (la : Nat) : Byte :=
  match locKey o.slot (s.grantOf o.ident) la with
  | some k => Memory.read s.loc k
  | none => 0

/-- Stores one byte of local memory. -/
def State.writeLoc1 (s : State) (o : Owner) (la : Nat) (v : Byte) : State :=
  match locKey o.slot (s.grantOf o.ident) la with
  | some k => { s with loc := Memory.write s.loc k v }
  | none => s

/-- The `n` bytes of local memory from an address up. -/
def State.readLoc (s : State) (o : Owner) (la : Nat) : Nat → List Byte
  | 0 => []
  | n + 1 => s.readLoc1 o la :: s.readLoc o (la + 1) n

/-- Stores a string of bytes to local memory. -/
def State.writeLoc (s : State) (o : Owner) (la : Nat) : List Byte → State
  | [] => s
  | b :: r => State.writeLoc (s.writeLoc1 o la b) o (la + 1) r

/-- A little-endian number of `n` bytes in local memory. -/
def State.locNat (s : State) (o : Owner) (la n : Nat) : Nat := natOf (s.readLoc o la n)

/-! ### What a reader sees (R185 to R192) -/

/-- The three kinds of place that a word lies in: local memory, and global memory through untracked and tracked pages (R163). -/
inductive Place where
  | loc | untracked | tracked
  deriving DecidableEq, Repr

/-- The stamp up to which an `xfence` has made the writes of a path visible to a reader (R178). -/
def View.fence (v : View) (p : PathId) : Nat :=
  match v.path with
  | some q => Tab.get v.fences (p.code * 8 + q.code) 0
  | none => 0

/-- The stamp since which a write is released at device scope: a release covers it, and it is performed at that scope (R166, R187). -/
def Past.relDev (r : Past) : Option Nat :=
  match r.rel, r.wide with
  | some a, some b => some (max a b)
  | _, _ => none

/-- Whether a die has the slices' copies of a write's word renewed: the reader's own acquire at device scope reaches every write
released at that scope, and an acquire of another thread of the die is passed on by one at gang scope (R166, R188). -/
def Past.crossed (r : Past) (v : View) : Bool :=
  r.relDev.any (· < v.dev) || (Tab.find r.brought (dieOf v.slot)).any (· < v.gang)

/-- Whether an acquire of a reader on the core path shows it a write: one that a release has covered, on its own die, and across dies
of a tracked word only with the slices' copies renewed (R163, R166, R185, R187). -/
def Past.atCore (r : Past) (v : View) (k : Place) : Bool :=
  if k == .tracked && dieOf r.slot != dieOf v.slot then r.core.isSome && r.crossed v else r.rel.any (· < v.gang)

/-- The key under which a party's fences keep what the thread had been made to see of a path when its newest `xfence` from the core
path into path `q` was executed; with path 8 for what its acquires at device scope had reached (R178). -/
def snapKey (p : Nat) (q : PathId) : Nat := 64 + p * 8 + q.code

/-- The party as its thread's newest `xfence` from the core path into its path found the thread (R178). -/
def View.passed (v : View) : View :=
  match v.path with
  | some q => { v with gang := Tab.get v.fences (snapKey 0 q) 0, dev := Tab.get v.fences (snapKey 8 q) 0 }
  | none => v

/-- Whether a write counts among a thread's own core-path accesses: it made it, or its `xfence` from an engine's path has made it
one (R191). -/
def Past.ownOf (r : Past) (v : View) : Bool :=
  match r.path with
  | some .core => r.who == v.ident
  | some p => r.core.any (· < Tab.get v.fences (p.code * 8) 0)
  | none => false

/-- Whether an acquire or an `xfence` of the reader has made a write visible to it (R166, R178, R186, R190, R191). The host and the
peers see what has been performed at system scope, and their own writes reach the device by an acquire at that scope. On the core
path a reader sees, by an acquire, what a release has covered, and by an `xfence` from an engine's path what that made its own. An
engine sees what an `xfence` into its path covers: of a path, or of the core path what the thread had written, what it had made its
own, and what it had been made to see; an NMU sees its own rows (R250). -/
def Past.reached (r : Past) (v : View) (k : Place) : Bool :=
  match r.path, v.path with
  | none, none => true
  | none, some _ => r.stamp < v.sys || r.crossed v || r.core.any (· < v.gang)
  | some _, none => r.far.isSome
  | some _, some .core => r.ownOf v || r.atCore v k
  | some .core, some _ => (r.who == v.ident && r.stamp < v.fence .core) || r.atCore v.passed k
  | some .nm, some .nm => true
  | some p, some q =>
    r.stamp < v.fence p || r.core.any (· < Tab.get v.fences (snapKey p.code q) 0) || r.atCore v.passed k

/-- Whether a write has reached a reader by itself, after a free delay; `party` tells the readers of one identity apart. -/
def Past.arrived (r : Past) (v : View) (party now : Nat) : Bool :=
  r.stamp + Config.delay r.stamp
    [party, v.ident.vf, v.ident.launch, v.ident.gang, v.ident.grank, (v.ident.rival.map (· + 1)).getD 0] ≤ now

/-- Whether a reader sees a write: one that it has been made to see, its own and what it has read on the core path (R185, R192, R202),
or one that has reached it by itself. -/
def Past.visible (r : Past) (v : View) (k : Place) (now : Nat) : Bool :=
  r.reached v k || (v.path.all (· == .core) && r.read.contains v.ident)
    || r.arrived v ((v.path.map PathId.code).getD 8) now

/-- The bits of a word that a mask of its bytes names. -/
def maskBits (m : BitVec 8) : Word :=
  BitVec.ofNat 64 (natOf ((List.range 8).map (fun k => if m.getLsbD k then (0xFF : Byte) else 0)))

/-- The bytes of word number `word` that `n` bytes from address `a` up cover, as a mask. -/
def coverMask (word a n : Nat) : BitVec 8 := BitVec.ofNat 8 (2 ^ min 8 (a + n - word * 8) - 2 ^ min 8 (a - word * 8))

/-- What a reader finds in a word that now holds `w`: newest first, the bytes of each write that it does not see read as they stood
before it. A write that shares a byte with a later one that the reader sees is seen too (R188, R192); `must` holds those bytes. -/
def seenWord (sees : Past → Bool) : BitVec 8 → List Past → Word → Word
  | _, [], w => w
  | must, r :: rest, w =>
    if sees r || r.mask &&& must != 0 then seenWord sees (must ||| r.mask) rest w
    else seenWord sees must rest ((w &&& ~~~(maskBits r.mask)) ||| (r.old &&& maskBits r.mask))

/-- The 8-byte word of local memory at a key. -/
def State.locWord (s : State) (key : Nat) : Word := BitVec.ofNat 64 (natOf (Memory.readN s.loc (key / 8 * 8) 8))

/-- The byte at a key of local memory, as a reader sees it. -/
def State.seeKey (s : State) (v : View) (key : Nat) : Byte :=
  match Tab.find s.locPast (key / 8) with
  | none => Memory.read s.loc key
  | some ps => (seenWord (·.visible v .loc s.now) 0 ps (s.locWord key)).extractLsb' (8 * (key % 8)) 8

/-- The key of a local address, as a party names it. -/
def State.keyOf (s : State) (v : View) (la : Nat) : Option Nat := locKey v.slot (s.grantOf v.ident) la

/-- The `n` bytes of local memory from an address up, as a party sees them. -/
def State.seeLoc (s : State) (v : View) (la : Nat) : Nat → List Byte
  | 0 => []
  | n + 1 => (match s.keyOf v la with | some k => s.seeKey v k | none => 0) :: s.seeLoc v (la + 1) n

/-- A little-endian number of `n` bytes in local memory, as a party sees it. -/
def State.seeNat (s : State) (v : View) (la n : Nat) : Nat := natOf (s.seeLoc v la n)

/-- Whether a scope contains the whole package (R183). -/
def beyondGang : Order → Bool
  | .plain | .gang => false
  | .dev | .sys => true

/-- A party's write as it is performed now at a scope, of some bytes of a word that holds `old` under a key. -/
def State.pastOf (s : State) (v : View) (old : Word) (mask : BitVec 8) (key : Nat) (scope : Order) : Past :=
  ⟨s.now, old, mask, key, v.ident, v.slot, v.path, if v.path = some .core then some s.now else none,
    if beyondGang scope then some s.now else none, if scope = .sys then some s.now else none, [], none, false, []⟩

/-- A party has read a write, or a later one of the same place (R192). -/
def Past.readBy (r : Past) (i : Ident) : Past := if r.read.contains i then r else { r with read := i :: r.read }

/-- Maps every remembered write. -/
def State.mapPast (s : State) (f : Past → Past) : State :=
  { s with
    locPast := s.locPast.map (fun e => (e.1, e.2.map f))
    memPast := s.memPast.map (fun e => (e.1, e.2.map f)) }

/-- The first store of a thread after a `cwait sc,0` is a release of every store that the wait covered (R189). -/
def State.fire (s : State) (v : View) : State :=
  if v.path = some .core then
    s.mapPast (fun r => if r.armed && r.who == v.ident then { r with armed := false, rel := some (r.rel.getD s.now) } else r)
  else s

/-- Records that a party writes bytes of the word of local memory at a key, with what it holds now. -/
def State.noteKey (s : State) (v : View) (key : Nat) (mask : BitVec 8) : State :=
  let u := s.fire v
  { u with locPast := Tab.put u.locPast (key / 8) (s.pastOf v (s.locWord key) mask 0 .plain :: Tab.get u.locPast (key / 8) []) }

/-- The keys of the aligned words that `n` bytes from a local address touch, each with the bytes of it. -/
def State.wordKeys (s : State) (v : View) (la n : Nat) : List (Nat × BitVec 8) :=
  (List.range ((la + n + 7) / 8 - la / 8)).filterMap (fun k =>
    (s.keyOf v ((la / 8 + k) * 8)).map (fun key => (key, coverMask (la / 8 + k) la n)))

/-- A party reads the words of `n` bytes of local memory as they stand: it reads nothing older of them afterwards (R192). `p` tells which
of their writes it learns of. -/
def State.readLocWords (s : State) (v : View) (la n : Nat) (p : Past → Bool) : State :=
  let ks := (s.wordKeys v la n).map (·.1 / 8)
  { s with locPast := s.locPast.map (fun e =>
      if ks.contains e.1 then (e.1, e.2.map (fun r => if p r then r.readBy v.ident else r)) else e) }

/-- A party reads the newest value of `n` bytes of local memory. -/
def State.touchLoc (s : State) (v : View) (la n : Nat) : State := s.readLocWords v la n (fun _ => true)

/-- Stores bytes to local memory at a key, within one word (R143). -/
def State.putKey (s : State) (v : View) (key : Nat) (bs : List Byte) : State :=
  let u := s.noteKey v key (coverMask (key / 8) key bs.length)
  { u with loc := Memory.writeN u.loc key bs, now := u.now + 1 }

/-- Stores bytes to local memory as one part (R170, R192). -/
def State.putPart (s : State) (v : View) (la : Nat) (bs : List Byte) : State :=
  let u := (s.wordKeys v la bs.length).foldl (fun u k => u.noteKey v k.1 k.2) s
  { u.writeLoc ⟨v.slot, v.ident, false, false, 0⟩ la bs with now := u.now + 1 }

/-- Stores bytes to local memory, as two parts where they cross into the next window of cluster memory (R170). -/
def State.putLoc (s : State) (v : View) (la : Nat) (bs : List Byte) : State :=
  let m := 0x40000 - la % 0x40000
  if 0x1000000 ≤ la ∧ la < 0x1200000 ∧ m < bs.length then (s.putPart v la (bs.take m)).putPart v (la + m) (bs.drop m)
  else s.putPart v la bs

/-- Stores bytes to local memory as an engine does, in aligned units of at most a word: nothing orders its units, and each may be
seen before or after the others (R185, R240). `fuel` bounds the units. -/
def State.putUnits (s : State) (unit : Nat) (v : View) (la : Nat) : Nat → List Byte → State
  | 0, _ => s
  | fuel + 1, bs =>
    if bs.isEmpty then s
    else
      let m := unit - la % unit
      (s.putPart v la (bs.take m)).putUnits unit v (la + m) fuel (bs.drop m)

/-- An engine's write of local memory, word by word. -/
def State.putEngine (s : State) (v : View) (la : Nat) (bs : List Byte) : State := s.putUnits 8 v la bs.length bs

/-- An engine's write of elements of `unit` bytes, each by itself (R272). -/
def State.putElems (s : State) (unit : Nat) (v : View) (la : Nat) (bs : List Byte) : State := s.putUnits unit v la bs.length bs

/-- An engine's write of fields that stand one behind the other, each by itself (R294). -/
def State.putFields (s : State) (v : View) (la : Nat) : List (List Byte) → State
  | [] => s
  | f :: r => (s.putPart v la f).putFields v (la + f.length) r

/-- Forgets what the words of local memory from a key up held: every reader sees what they hold now. -/
def State.settleLoc (s : State) (key n : Nat) : State := { s with locPast := Tab.dropRange s.locPast (key / 8) ((n + 7) / 8) }

/-- The writes of some engine paths and threads count as core-path writes from now on (R178, R191). -/
def State.adopt (s : State) (p : Past → Bool) : State :=
  let u := s.mapPast (fun r => if p r && r.path.isSome && r.core.isNone then { r with core := some s.now } else r)
  { u with now := s.now + 1 }

/-- The writes that a path made for the threads of a cluster become core-path writes (R178, R191). -/
def State.adoptPath (s : State) (p : PathId) (cluster : Nat) : State :=
  s.adopt (fun r => r.path == some p && clusterOf r.slot == cluster)

/-- Every write made for a thread's commands becomes a core-path write of the thread, as `exit` and a save require (R191). -/
def State.adoptAll (s : State) (i : Ident) : State := s.adopt (fun r => r.who == i)

/-- Whether a release by a thread covers a write: one of the thread's own, or one that it has been made to see (R166, R187, R188). -/
def Past.coveredBy (r : Past) (v : View) : Bool :=
  r.ownOf v || r.crossed v ||
    match r.path with
    | some _ => dieOf r.slot == dieOf v.slot && r.rel.any (· < v.gang)
    | none => r.stamp < v.sys || r.core.any (· < v.gang)

/-- A write as a release at a scope that covers it leaves it: performed at that scope (R166, R187). -/
def Past.releasedAt (r : Past) (now : Nat) (o : Order) : Past :=
  { r with
    rel := some (r.rel.getD now)
    wide := if beyondGang o then some (r.wide.getD now) else r.wide
    far := if o = .sys then some (r.far.getD now) else r.far }

/-- A release at a scope of the writes that satisfy a condition; a plain access releases nothing (R166, R187). -/
def State.releaseWhere (s : State) (p : Past → Bool) (o : Order) : State :=
  match o with
  | .plain => s
  | o => { s.mapPast (fun r => if p r then r.releasedAt s.now o else r) with now := s.now + 1 }

/-- The release of a scope: what it makes visible beyond the thread's own stores being performed. -/
def State.released (s : State) (o : Order) : State := s.releaseWhere (·.coveredBy (s.th.view .core)) o

/-- An acquire on a die drops the slices' older copies of some writes there (R166). -/
def State.bring (s : State) (die : Nat) (p : Past → Bool) : State :=
  s.mapPast (fun r => if p r && (Tab.find r.brought die).isNone then { r with brought := Tab.put r.brought die s.now } else r)

/-- What an acquire at a scope on a die drops in the slices there: at device scope the copies of what has been released at that
scope, at system scope also the copies of host and peer memory (R166). -/
def State.renew (s : State) (die : Nat) : Order → State
  | .plain | .gang => s
  | .dev => { s.bring die (fun r => r.relDev.isSome) with now := s.now + 1 }
  | .sys => { s.bring die (fun r => r.relDev.isSome || (r.path.isNone && r.core.isNone)) with now := s.now + 1 }

/-- An acquire by the thread at hand (R166, R186): each scope includes the ones before it; plain accesses acquire
nothing. -/
def State.acquire (s : State) (o : Order) : State :=
  let u := s.renew (dieOf s.th.slot) o
  let t := s.th
  match o with
  | .plain => s
  | .gang => s.setTh { t with gangSeen := s.now }
  | .dev => u.setTh { t with gangSeen := u.now, devSeen := u.now }
  | .sys => u.setTh { t with gangSeen := u.now, devSeen := u.now, sysSeen := u.now }

/-- The fences of a thread that sees on every path what has been written so far. -/
def allFences (now : Nat) : Tab Nat := (List.range (snapKey 9 .core)).map (fun k => (k, now))

/-- The release of a thread that ends or is saved: every completed write of its engine commands counts as its own first (R191). -/
def State.releasedAll (s : State) (o : Order) : State :=
  let u := s.adoptAll s.th.ident
  u.releaseWhere (fun r => (r.who == u.th.ident && r.path.isSome) || r.coveredBy (u.th.view .core)) o

/-! ### Code (R19) -/

/-- Key of an instruction-cache halfword: core, function and address. -/
def icKey (core fn va : Nat) : Nat := (core * 129 + fn) * 2 ^ 56 + va / 2

/-- The number of a core in an instruction-cache key. -/
def icCore (k : Nat) : Nat := k / 2 ^ 56 / 129

/-- Invalidates a core's instruction cache (R19, R88). -/
def State.dropIcache (s : State) (core : Nat) : State :=
  { s with icache := Tab.dropRange s.icache (core * 129 * 2 ^ 56) (129 * 2 ^ 56) }

/-- From now on the thread at hand fetches what has been released at device scope by now (R19). -/
def State.seesCode (s : State) : State := { s with th := { s.th with codeSeen := s.now } }

/-- The newest start, resume or `yield` of a thread of a core: what was released by then is what a miss there fetches (R19). -/
def State.codeSince (s : State) (core : Nat) : Nat :=
  ((s.threads.filter (fun t => coreOf t.slot == core)).map (·.codeSeen)).foldl max 0

/-- Whether a fetch finds a write of code: one released at device scope before the newest start, resume or `yield` there, or one that
has reached the core by itself (R19). Its own stores too reach it only so. -/
def Past.fetched (r : Past) (v : View) (since now : Nat) : Bool :=
  (match r.path with
    | some _ => r.relDev.any (· < since)
    | none => r.stamp < min v.sys since || r.core.any (· < since))
    || r.arrived v 9 now

/-! ### Sync words (R179, R180) -/

/-- The arrival of `n` bytes at the sync word whose 32 bytes these are; `err` sets the error flag. -/
def arriveWord (n : Nat) (err : Bool) (w : List Byte) : List Byte :=
  let target := natOf (w.take 8)
  let count0 := natOf ((w.drop 8).take 8)
  let gen := natOf ((w.drop 16).take 4)
  let flags := natOf ((w.drop 20).take 4)
  let hw := natOf ((w.drop 24).take 8)
  let ovf := decide (2 ^ 64 ≤ count0 + n)
  let count1 := if ovf then 2 ^ 64 - 1 else count0 + n
  let k := if flags % 2 = 1 ∧ target ≠ 0 then count1 / target else 0
  let flags1 := if ovf ∧ flags / 2 % 2 = 0 then flags + 2 else flags
  let flags2 := if err ∧ flags1 / 4 % 2 = 0 then flags1 + 4 else flags1
  bytesOf 8 target ++ bytesOf 8 (count1 - k * target) ++ bytesOf 4 (gen + k) ++ bytesOf 4 flags2 ++ bytesOf 8 (hw + 1)

/-- An arrival at the sync word at a key of `loc`. -/
def State.arriveKey (s : State) (key n : Nat) (err : Bool) : State :=
  { s with loc := Memory.writeN s.loc key (arriveWord n err (Memory.readN s.loc key 32)) }

/-- An arrival at the sync word at a local address of the issuer; address 0 names none (R180). -/
def State.arrive (s : State) (o : Owner) (la n : Nat) (err : Bool) : State :=
  if la = 0 then s
  else match locKey o.slot (s.grantOf o.ident) la with
    | some k => s.arriveKey k n err
    | none => s

/-! ### Counters and usage -/

/-- Whether an access counts in lc (R83, R168, R171, R268). -/
def AccOp.isLoad : AccOp → Bool
  | .ld .. | .ldv | .amo .. | .cas .. | .nmstat => true
  | .st .. | .stv | .pclr => false

/-- Whether an access counts in sc (R83, R168, R171, R311). -/
def AccOp.isStore : AccOp → Bool
  | .st .. | .stv | .amo .. | .cas .. | .pclr => true
  | .ld .. | .ldv | .nmstat => false

/-- Whether a command's issuer is the thread `t`. -/
def Owner.isOf (o : Owner) (t : Thread) : Bool := o.ident == t.ident && !o.lost

/-- The bound thread that issued a command, if it is still there. -/
def State.issuer (s : State) (o : Owner) : Option Thread := s.threads.find? (fun t => o.isOf t)

/-- The copy queue of a core. -/
def State.copyQueue (s : State) (core : Nat) : List CopyCmd := Tab.get s.copyQ core []

/-- The matrix unit of a core. -/
def State.unitOf (s : State) (core : Nat) : MatrixUnit := Tab.get s.units core MatrixUnit.empty

/-- Replaces the matrix unit of a core. -/
def State.putUnit (s : State) (core : Nat) (u : MatrixUnit) : State := { s with units := Tab.put s.units core u }

/-- Whether a core's matrix unit belongs to a slot. -/
def State.ownsUnit (s : State) (slot : Nat) : Bool := (s.unitOf (coreOf slot)).owner == some slot

/-- The counters of R11: outstanding loads, stores, copies, matrix, table, near-memory and index commands of a
thread. -/
def State.counter (s : State) (t : Thread) : Counter → Nat
  | .lc => (t.acc.filter (fun a => a.op.isLoad)).length
  | .sc => (t.acc.filter (fun a => a.op.isStore)).length
  | .yc => ((s.copyQueue (coreOf t.slot)).filter (fun c => c.owner.isOf t)).length
  | .mc => if s.ownsUnit t.slot then (s.unitOf (coreOf t.slot)).mc else 0
  | .tc => (s.tableQ.filter (fun c => c.owner.isOf t)).length
  | .nc =>
    (s.nmQ.filter (fun c => c.owner.isOf t)).length
      + (s.nmus.foldl (fun n e => n + (e.2.queue.filter (fun m => m.owner.isOf t)).length
          + (match e.2.run with | some h => (if h.msg.owner.isOf t && !h.left then 1 else 0) | none => 0)) 0)
      + (s.resumes.filter (fun r => r.owner.isOf t)).length
      + (s.loads.filter (fun l => l.owner.isOf t)).length
  | .ic => (s.ixQ.filter (fun c => c.owner.isOf t)).length

/-- Adds to a usage counter of a function; it stops at 2^64 - 1 (R364). -/
def State.use (s : State) (fn counter n : Nat) : State :=
  { s with usage := Tab.put s.usage (fn * 8 + counter) (min (Tab.get s.usage (fn * 8 + counter) 0 + n) (2 ^ 64 - 1)) }

/-! ### Retirement -/

/-- The end check of R81 for an instruction at `p` that made no taken transfer: counts a pass of each active level
that ends at `p`, from the innermost, and returns to the start of the first that is not done. -/
def loopEnd (t : Thread) (p : Word) : Thread :=
  let outer (u : Thread) : Thread :=
    if u.loop0.flag ∧ u.loop0.last = p then
      let c := u.loop0.cnt - 1
      if c ≠ 0 then { u with loop0 := { u.loop0 with cnt := c }, pc := pcBits u.loop0.beg }
      else { u with loop0 := { u.loop0 with cnt := c, flag := false } }
    else u
  if t.loop1.flag then
    if t.loop1.last = p then
      let c := t.loop1.cnt - 1
      if c ≠ 0 then { t with loop1 := { t.loop1 with cnt := c }, pc := pcBits t.loop1.beg }
      else outer { t with loop1 := { t.loop1 with cnt := c, flag := false } }
    else t
  else outer t

/-- A taken transfer to `g` ends each level whose body does not hold `g` (R81). -/
def loopLeave (t : Thread) (g : Word) : Thread :=
  let keep (l : Loop) : Loop := if l.flag ∧ ¬ (l.beg ≤ g ∧ g ≤ l.last) then { l with flag := false } else l
  { t with loop0 := keep t.loop0, loop1 := keep t.loop1 }

/-- The launches, with one instruction more counted toward the allowance of the rival of the thread at hand (R329). -/
def State.launchesCounted (s : State) : List Launch :=
  match s.th.ident.rival with
  | none => s.launches
  | some r =>
    s.launches.map (fun l =>
      if l.id == s.th.ident.launch && l.fn == s.th.ident.vf then
        { l with rivals := l.rivals.modify r (fun v => { v with used := v.used + 1 }) }
      else l)

/-- Counts a retired instruction toward its rival's allowance (R329). -/
def State.countRival (s : State) : State := { s with launches := s.launchesCounted }

/-- What every retirement does beside the program counter: iret (R12), the open packet's count (R142), the rival's
allowance (R329) and the usage counter (R364). -/
def State.count (s : State) : State :=
  let t := s.th
  let u := { t with
    iret := t.iret + 1
    packet := t.packet.map (fun p => { p with instrs := p.instrs + 1 })
    relWait := none
    latched := none }
  (s.setTh u).countRival.use t.ident.vf 0 1

/-- Retires an instruction of `len` bytes that made no transfer. -/
def State.retire (s : State) (len : Nat) : State :=
  let p := s.th.pc
  (s.setTh (loopEnd { s.th with pc := s.pcPlus len } p)).count

/-- Retires an instruction that transfers to `g` (R78, R81). -/
def State.retireTo (s : State) (g : Word) : State :=
  (s.setTh (loopLeave { s.th with pc := g } g)).count

/-- Retires a loop instruction of count 0: the next instruction is at `next`, and the end check takes the body's
last instruction at `p` (R80). -/
def State.retireSkip (s : State) (p next : Word) : State :=
  (s.setTh (loopEnd { s.th with pc := pcBits next } p)).count

/-- The instruction at hand waits: nothing has happened, and it is issued again when something has changed (R303). -/
def State.stall (s : State) : State := { s with th := { s.th with stalled := true, relWait := none } }

/-- The instruction at hand waits with a record that it has read and reads only once. -/
def State.stallWith (s : State) (bs : List Byte) : State :=
  { s with th := { s.th with stalled := true, relWait := none, latched := some bs } }

/-- The wait of the instruction at hand is that of a release at a scope. -/
def State.inRelease (s : State) (o : Order) : State := { s with th := { s.th with relWait := some o } }

/-- The record of `n` bytes at a local address that the instruction at hand reads once, however long it then waits. -/
def State.readOnce (s : State) (la n : Nat) : List Byte :=
  match s.th.latched with
  | some bs => bs
  | none => s.seeLoc (s.th.view .core) la n

end Sys2Proof.Machine
end

