-- ==== Sys2Proof/Machine/Operands.lean ====
section
/-!
DEFINITION. Sys2Proof/Machine/Operands.lean: the operand forms: displaced addresses (R83, R85, R169), the lanes of an f
register (R8), and the stream registers (R95, R108, R109, R113).
-/
namespace Sys2Proof.Machine

/-- The address of a memory operand: x[a] + SignExt(imm10) * scale, modulo 2^64. -/
def State.address (s : State) (a : Reg) (i : BitVec 10) (scale : Nat) : Nat :=
  (s.getX a + i.signExtend 64 * BitVec.ofNat 64 scale).toNat

/-- Of several causes that an instruction meets, the first: 0x04, 0x05 and 0x07 stand before 0x09 (R20). -/
def firstFault (fs : List (Option (Nat × Nat))) : Option (Nat × Nat) :=
  let fs := fs.filterMap id
  match fs.find? (fun f => f.1 != 0x09) with
  | some f => some f
  | none => fs.head?

/-! ### Lanes -/

/-- Bits of a lane (R93). -/
def laneBits : LaneType → Nat
  | .f32 | .i32 => 32
  | .bf16 | .f16 | .i16 => 16
  | .i8 | .d8 => 8

/-- Lane `i`, of `w` bits, as raw bits. -/
def lane (w : Nat) (v : LaneReg) (i : Nat) : Nat := v.toNat / 2 ^ (w * i) % 2 ^ w

/-- The first `n` lanes of `w` bits. -/
def lanes (w n : Nat) (v : LaneReg) : List Nat := (List.range n).map (lane w v)

/-- Lanes of `w` bits put together as one number, the first lowest. -/
def joinLanes (w : Nat) : List Nat → Nat
  | [] => 0
  | x :: r => x % 2 ^ w + 2 ^ w * joinLanes w r

/-- A register whose first lanes are given, and zero above. -/
def ofLanes (w : Nat) (l : List Nat) : LaneReg := BitVec.ofNat 256 (joinLanes w l)

/-! ### Streams -/

/-- Element size in bytes of a stream type (R109). -/
def streamBytes (t : Fin 8) : Nat :=
  match t.val with
  | 0 | 3 => 4
  | 1 | 2 | 4 => 2
  | _ => 1

/-- Elements in a block (R109). -/
def Stream.per (st : Stream) : Nat := 32 / streamBytes st.type

/-- Local address of element `e` (R109), as a number; one that is negative or too large lies in no range. -/
def Stream.addr (st : Stream) (e : Nat) : Int :=
  (st.base.toNat : Int) + ((e / st.per : Nat) : Int) * st.stride.toInt + ((e % st.per * streamBytes st.type : Nat) : Int)

/-- The elements that a transfer of `k` elements moves: those below the limit, each with its place in the block (R109). -/
def Stream.moved (st : Stream) (k : Nat) : List (Nat × Int) :=
  ((List.range k).filter (fun j => st.pos.toNat + j < st.limit.toNat)).map (fun j => (j, st.addr (st.pos.toNat + j)))

/-- The position after `k` elements have been handled (R109). -/
def Stream.advance (st : Stream) (k : Nat) : Stream :=
  if st.pos.toNat < st.limit.toNat then { st with pos := BitVec.ofNat 32 (min (st.pos.toNat + k) st.limit.toNat) } else st

/-- The stream that an f register is bound to, with its number (R95). -/
def State.streamOf (s : State) (r : Reg) : Option (Fin 4 × Stream) :=
  if h : 28 ≤ r.val then
    (s.th.streams[r.val - 28]'(by omega)).map (fun st => (⟨r.val - 28, by omega⟩, st))
  else none

/-- Binds, changes or unbinds a stream. -/
def State.setStream (s : State) (k : Fin 4) (st : Option Stream) : State :=
  { s with th := { s.th with streams := s.th.streams.set k st } }

/-- The stream number of the first register named against its stream's direction (R111). -/
def State.wrongWay (s : State) (reads writes : List Reg) : Option Nat :=
  let bad (d : Nat) (r : Reg) : Option Nat :=
    match s.streamOf r with
    | some (k, st) => if st.dir.val = d then some k.val else none
    | none => none
  match reads.findSome? (bad 1) with
  | some k => some k
  | none => writes.findSome? (bad 0)

/-- The first element of a transfer that lies in no level, as its address (R109). -/
def State.movedOutside (s : State) (st : Stream) (k : Nat) : Option Nat :=
  (st.moved k).findSome? (fun e =>
    if e.2 < 0 then some (wrap 64 e.2)
    else firstOutside (s.grantOf s.th.ident) e.2.toNat (streamBytes st.type))

/-- The first element of a transfer that lies in the window of a core out of service (R162). -/
def State.movedGone (s : State) (st : Stream) (k : Nat) : Option Nat :=
  (st.moved k).findSome? (fun e => outWindow s.cfg.coresOut s.th.slot e.2.toNat (streamBytes st.type))

/-- Why transfers of some elements of streams cannot be made: an address in no level before one out of service (R20, R109,
R162). -/
def State.transferFault (s : State) (ts : List (Stream × Nat)) : Option (Nat × Nat) :=
  match ts.findSome? (fun t => s.movedOutside t.1 t.2) with
  | some a => some (0x05, a)
  | none => (ts.findSome? (fun t => s.movedGone t.1 t.2)).map (fun a => (0x09, a))

/-- Why the blocks of a list of registers cannot be reached. -/
def State.blockFault (s : State) (rs : List Reg) : Option (Nat × Nat) :=
  s.transferFault (rs.filterMap (fun r => (s.streamOf r).map (fun p => (p.2, p.2.per))))

/-- The party that reads a stream: the thread as it had been made to see by the `sbind`, and by no fence since then (R113). -/
def Thread.streamView (t : Thread) (st : Stream) : View :=
  { t.view .core with gang := st.since, fences := t.fences.map (fun e => (e.1, min e.2 st.since)) }

/-- A byte of a block that is read: the value of the thread's own newest store to it since the `sbind`, whatever others have stored
after it, or else one that the byte has had since then (R113). -/
def State.streamByte (s : State) (st : Stream) (la : Nat) : Byte :=
  let v := s.th.streamView st
  match s.keyOf v la with
  | none => 0
  | some key =>
    match Tab.find s.locPast (key / 8) with
    | none => Memory.read s.loc key
    | some ps =>
      let own := ps.find? (fun r => r.path == some .core && r.who == v.ident && st.since ≤ r.stamp && r.mask.getLsbD (key % 8))
      let sees (r : Past) : Bool := match own with
        | some w => r.stamp ≤ w.stamp
        | none => ({ r with read := [] } : Past).visible v .loc s.now
      (seenWord sees 0 ps (s.locWord key)).extractLsb' (8 * (key % 8)) 8

/-- The block that a read of a stream takes: elements at or beyond the limit read as zero (R109). -/
def State.block (s : State) (st : Stream) : LaneReg :=
  let ws := streamBytes st.type
  let at_ (la : Nat) : Nat := natOf ((List.range ws).map (fun k => s.streamByte st (la + k)))
  BitVec.ofNat 256 ((st.moved st.per).foldl (fun b e => b + at_ e.2.toNat * 2 ^ (8 * ws * e.1)) 0)

/-- What an f register reads as: its block while a stream is bound to it (R95). -/
def State.operand (s : State) (r : Reg) : LaneReg :=
  match s.streamOf r with
  | some (_, st) => s.block st
  | none => s.getF r

/-- Writes the first `k` elements of a block to a stream's elements (R109). -/
def State.putBlock (s : State) (st : Stream) (k : Nat) (v : LaneReg) : State :=
  let ws := streamBytes st.type
  (st.moved k).foldl (fun s e => s.putLoc (s.th.view .core) e.2.toNat (bytesOf ws (lane (8 * ws) v e.1))) s

/-- Moves the position of the streams bound to registers that an instruction names, once each (R95). -/
def State.advanceStreams (s : State) (rs : List Reg) : State :=
  { s with th := { s.th with streams := s.th.streams.mapIdx (fun i o =>
      if rs.any (fun r => r.val == i + 28) then o.map (fun st => st.advance st.per) else o) } }

/-- Writes an f register: one block goes to the stream bound to it (R95). The position is moved by `advanceStreams`. -/
def State.writeF (s : State) (r : Reg) (v : LaneReg) : State :=
  match s.streamOf r with
  | some (_, st) => s.putBlock st st.per v
  | none => s.setF r v

/-- Writes an f register when a load is performed (R95, R168). Where the register has since been bound for reading, or an element of
its stream lies in no level by then, that data is dropped (DESIGN CHOICE, the log's entry 64). -/
def State.loadF (s : State) (r : Reg) (v : LaneReg) : State :=
  match s.streamOf r with
  | some (_, st) => if st.dir = 0 then s else (s.putBlock st st.per v).advanceStreams [r]
  | none => s.setF r v

end Sys2Proof.Machine
end

