-- ==== Sys2Proof/Machine/Paging.lean ====
section
/-!
DEFINITION. Sys2Proof/Machine/Paging.lean: physical memory with its encryption (R360), and the translation of an
access at its home slice: the walk, the walk buffer, the cached translations and the accessed and dirty bits
(R165, R312 to R318, R321).
-/
namespace Sys2Proof.Machine

/-! ### Physical memory -/

/-- Device memory: 40-bit addresses (R247, R315). -/
def isDevice (pa : Nat) : Bool := pa < 2 ^ 40

/-- The range of physical addresses that names the system address space: host memory, but for the peer windows (R315, R352). -/
def isHost (pa : Nat) : Bool := 2 ^ 55 ≤ pa && pa < 2 ^ 55 + 2 ^ 52

/-- Where the device memory of the peer devices stands in `mem`, device by device; the number is the model's own. -/
def peerBase : Nat := 2 ^ 57

/-- Memory of a peer device. -/
def isPeer (pa : Nat) : Bool := peerBase ≤ pa

/-- Memory outside this device: that of the host or of a peer. -/
def isOutside (pa : Nat) : Bool := isHost pa || isPeer pa

/-- Whether a window maps an address of the system address space. -/
def mapsHost (w : PeerWindow) (h : Nat) : Bool := w.base ≤ h && h < w.base + w.len

/-- The memory that a physical address reaches: an address in a peer window is one of the peer's device memory (R352). -/
def State.routed (s : State) (pa : Nat) : Nat :=
  if isHost pa then
    match s.cfg.peers.find? (fun w => mapsHost w (pa - 2 ^ 55)) with
    | some w => peerBase + w.device * 2 ^ 40 + (w.addr + (pa - 2 ^ 55 - w.base)) % 2 ^ 40
    | none => pa
  else pa

/-- The address in the system address space of a word of peer memory, by a window that maps it (R353). -/
def State.systemAddress (s : State) (pa : Nat) : Nat :=
  let dev := (pa - peerBase) / 2 ^ 40
  let a := (pa - peerBase) % 2 ^ 40
  match s.cfg.peers.find? (fun w => w.device == dev && w.addr ≤ a && a < w.addr + w.len) with
  | some w => w.base + (a - w.addr)
  | none => a

/-- Stack of a device address (R247). -/
def stackOf (pa : Nat) : Nat := pa / 2 ^ 36
/-- Chunk within the frame (R247). -/
def chunkOf (pa : Nat) : Nat := pa / 1024 % 64
/-- Channel of a device address (R247). -/
def channelOf (pa : Nat) : Nat := pa / 1024 % 32
/-- Frame within the stack (R247). -/
def frameOf (pa : Nat) : Nat := pa / 65536 % 2 ^ 20
/-- Bank of a device address (R247). -/
def bankOf (pa : Nat) : Nat := chunkOf pa / 32 * 32 + frameOf pa % 32
/-- Subarray of a device address (R247). -/
def subarrayOf (pa : Nat) : Nat := frameOf pa / 2 ^ 14
/-- The NMU beside the channel of a device address: stack * 32 + channel. -/
def nmuOf (pa : Nat) : Nat := stackOf pa * 32 + channelOf pa

/-- The memory key of an access: 0 through an untracked leaf or outside device memory; a function's own key, new after
each replacement, through a tracked leaf (R359, R360). -/
def State.keyFor (s : State) (fn : Nat) (tracked : Bool) (pa : Nat) : Nat :=
  if tracked ∧ isDevice pa then 1 + fn + 129 * Tab.get s.keyEpoch fn 0 else 0

/-- The parts of physical memory that an index's region takes, as address and length: whole frames, and what it takes of the last. -/
def Index.parts (x : Index) : List (Nat × Nat) := x.frames.zipIdx.map (fun f => (f.1, min 65536 (x.regionBytes - 65536 * f.2)))

/-- Whether an address lies in the region of a live index (R289). -/
def State.inRegion (s : State) (pa : Nat) : Option Nat :=
  s.indexes.findSome? (fun e =>
    match e.2.index with
    | some x => if x.parts.any (fun q => q.1 ≤ pa && pa < q.1 + q.2) then some x.version else none
    | none => none)

/-- The bytes of a 32-byte unit of memory. -/
def State.unitBytes (s : State) (unit : Nat) : BitVec 256 := BitVec.ofNat 256 (natOf (Memory.readN s.mem (unit * 32) 32))

/-- What an access under the key `kr` reads of a unit that holds `v` written under the key `kw`: the stored bytes, decrypted;
key 0 stores and reads the bytes as they are (R360). -/
def crossed (kr kw unit : Nat) (v : BitVec 256) : BitVec 256 :=
  let stored := if kw = 0 then v else Config.cipher kw unit v
  if kr = 0 then stored else (Config.cipher kr unit).symm stored

/-- One byte as an access under a key reads it (R360); an index region reads as the engine's own layout (R289). -/
def State.physByte (s : State) (key pa : Nat) : Byte :=
  match s.inRegion pa with
  | some v => Config.regionByte pa v
  | none =>
    let kw := Tab.get s.keys (pa / 32) 0
    if kw = key then Memory.read s.mem pa
    else (crossed key kw (pa / 32) (s.unitBytes (pa / 32))).extractLsb' (8 * (pa % 32)) 8

/-- The `n` bytes from an address up, under a key. -/
def State.physRead (s : State) (key pa : Nat) : Nat → List Byte
  | 0 => []
  | n + 1 => s.physByte key pa :: s.physRead key (pa + 1) n

/-- Puts a 32-byte unit under a key: what it then holds is what that key reads of it (R360). -/
def State.rekey (s : State) (key unit : Nat) : State :=
  if Tab.get s.keys unit 0 = key then s
  else
    let bs := s.physRead key (unit * 32) 32
    { s with
      mem := Memory.writeN s.mem (unit * 32) bs
      keys := if key = 0 then Tab.drop s.keys unit else Tab.put s.keys unit key }

/-- Stores one byte under a key. -/
def State.physWrite1 (s : State) (key pa : Nat) (v : Byte) : State :=
  let s := s.rekey key (pa / 32)
  { s with mem := Memory.write s.mem pa v }

/-- Stores a string of bytes under a key. -/
def State.physWrite (s : State) (key pa : Nat) : List Byte → State
  | [] => s
  | b :: r => State.physWrite (s.physWrite1 key pa b) key (pa + 1) r

/-! ### Registered words and dirty lines (R164, R165) -/

/-- A slice's data array wakes up, and the slice leaves retention (R167, R363). -/
def State.wakeSlice (s : State) (slice : Nat) : State := { s with retained := s.retained.filter (· ≠ slice) }

/-- Writes a word back from the L1 or the slice that has it to the memory controller (R164, R172, R195, R317). -/
def State.recall (s : State) (word : Nat) : State :=
  match Tab.find s.regs word with
  | none => s
  | some r =>
    let s := if r.core.isNone then s.wakeSlice r.slice else s
    { s.physWrite r.key (word * 8) (bytesOf 8 r.data.toNat) with regs := Tab.drop s.regs word }

/-- The registered words that `n` bytes from an address touch. -/
def State.registeredIn (s : State) (pa n : Nat) : List Nat :=
  (s.regs.filter (fun e => pa / 8 ≤ e.1 && e.1 < (pa + n + 7) / 8)).map (·.1)

/-- Recalls every registered word of a range of memory. -/
def State.recallIn (s : State) (pa n : Nat) : State := (s.registeredIn pa n).foldl State.recall s

/-- Lines that a slice holds: 256 KiB in lines of 64 bytes (R165). -/
def sliceLines : Nat := 4096

/-- The lines of which a condition's words stand in some cache. -/
def State.linesOf (s : State) (p : Registered → Bool) : List Nat := ((s.regs.filter (fun e => p e.2)).map (fun e => e.1 / 8)).eraseDups

/-- Whether a word stands dirty in a slice. -/
def Registered.inSlice (r : Registered) (slice : Nat) : Bool := r.core.isNone && r.slice == slice

/-- Room in a slice for a word: where dirty lines take all of it, one of them, whichever, is written back (R165). -/
def State.sliceRoom (s : State) (slice word : Nat) : State :=
  let ls := s.linesOf (·.inSlice slice)
  if ls.contains (word / 8) || ls.length < sliceLines then s
  else
    let (k, s) := s.drawNat
    s.recallIn (ls.getD (k % ls.length) 0 * 64) 64

/-- The registration of a word ends: its data goes back to its slice (R164). -/
def State.toSlice (s : State) (word : Nat) : State :=
  match Tab.find s.regs word with
  | none => s
  | some r =>
    if r.core.isNone then s
    else
      let s := (s.wakeSlice r.slice).sliceRoom r.slice word
      { s with regs := Tab.put s.regs word { r with core := none } }

/-- Before an access that bypasses the caches reads or writes a range: each registered word of it may have been evicted by
then, and so written back, or may not (R195). -/
def State.perhapsEvicted (s : State) (pa n : Nat) : State :=
  (s.registeredIn pa n).foldl (fun s w => let (gone, s) := s.drawBit; if gone then s.recall w else s) s

/-- The aligned 8-byte word at an address, as the caches answer it: the data of the core that has registered it or of the slice that
has it dirty, else what memory holds (R164). -/
def State.cachedWord (s : State) (key pa : Nat) : Word :=
  let inMem (s : State) : Word := BitVec.ofNat 64 (natOf (s.physRead key (pa / 8 * 8) 8))
  match Tab.find s.regs (pa / 8) with
  | none => inMem s
  | some r => if r.key = key then r.data else inMem (s.recall (pa / 8))

/-! ### Page-table entries in memory -/

/-- An entry of a page table, as a walk finds it at the memory controller of its frame (R317). -/
def State.entryAt (s : State) (pa : Nat) : Word :=
  match Tab.find s.regs (pa / 8) with
  | some r => r.data
  | none => BitVec.ofNat 64 (natOf (Memory.readN s.mem pa 8))

/-- Writes an entry of a page table at its memory controller (R318, R323). -/
def State.putEntry (s : State) (pa : Nat) (w : Word) : State :=
  { s with mem := Memory.writeN s.mem pa (bytesOf 8 w.toNat), regs := Tab.drop s.regs (pa / 8) }

/-- First poisoned word that `n` bytes from `pa` touch, as its address (R175). -/
def State.poisonedIn (s : State) (pa n : Nat) : Option Nat :=
  (s.poison.find? (fun e => e.1 < pa + n && pa < e.1 + 8)).map (·.1)

/-- First 32-byte word with an uncorrectable error that `n` bytes from `pa` touch (R21). -/
def State.badIn (s : State) (pa n : Nat) : Option Nat :=
  (s.bad.find? (fun e => e.1 < pa + n && pa < e.1 + 32)).map (·.1)

/-! ### Page-table entries (R313) -/

/-- P of an entry. -/
def pteP (w : Word) : Bool := w.getLsbD 0
/-- leaf of an entry. -/
def pteLeaf (w : Word) : Bool := w.getLsbD 1
/-- R of an entry. -/
def pteR (w : Word) : Bool := w.getLsbD 3
/-- W of an entry. -/
def pteW (w : Word) : Bool := w.getLsbD 4
/-- X of an entry. -/
def pteX (w : Word) : Bool := w.getLsbD 5
/-- tracked of an entry. -/
def pteTracked (w : Word) : Bool := w.getLsbD 6
/-- A of an entry. -/
def pteA (w : Word) : Bool := w.getLsbD 7
/-- D of an entry. -/
def pteD (w : Word) : Bool := w.getLsbD 8
/-- sys of an entry. -/
def pteSys (w : Word) : Bool := w.getLsbD 9
/-- size of an entry. -/
def pteSize (w : Word) : Nat := fld w.toNat 10 2
/-- tag of an entry. -/
def pteTag (w : Word) : Nat := fld w.toNat 12 4
/-- The frame or group address of a leaf. -/
def ptePa (w : Word) : Nat := fld w.toNat 16 40 * 65536
/-- file of an entry. -/
def pteFile (w : Word) : Bool := w.getLsbD 56
/-- wb of an entry. -/
def pteWb (w : Word) : Bool := w.getLsbD 57
/-- retag of an entry. -/
def pteRetag (w : Word) : Bool := w.getLsbD 58
/-- The table address of a non-leaf entry. -/
def pteTable (w : Word) : Nat := fld w.toNat 13 43 * 8192

/-- What an access does, for its permissions (R316). -/
inductive AccKind where
  | load | store | fetch | atomic
  deriving DecidableEq, Repr

/-- Whether an access writes. -/
def AccKind.writes : AccKind → Bool
  | .store | .atomic => true
  | .load | .fetch => false

/-- A non-leaf entry that keeps R313 and R314: nothing beside P and a table in device memory. -/
def tableOk (w : Word) : Bool :=
  !pteLeaf w && w.toNat == 1 + pteTable w && isDevice (pteTable w)

/-- Bytes that a leaf maps (R314). -/
def leafBytes (w : Word) : Nat :=
  match pteSize w with
  | 1 => 0x200000
  | 2 => 0x40000000
  | _ => 0x10000

/-- A leaf that keeps R313 and R314 at its level: no reserved bit, an allowed size, an aligned group base, a PA that
exists, and file only with size 0. -/
def leafOk (level : Nat) (w : Word) : Bool :=
  fld w.toNat 59 5 == 0 && !w.getLsbD 2
    && (if level = 1 then pteSize w == 2 else level == 0 && pteSize w < 2)
    && ptePa w % leafBytes w == 0 && (isDevice (ptePa w) || isHost (ptePa w))
    && !(pteFile w && pteSize w != 0)

/-- How a walk ends. -/
inductive Walk where
  /-- the leaf, its address, and the address of the entry that takes A and D -/
  | leaf (w : Word) (entry first : Nat)
  /-- not present: cause 0x06 -/
  | absent
  /-- an entry breaks R314: cause 0x07; its address and its level -/
  | broken (entry level : Nat)
  deriving DecidableEq, Repr

/-- Key of a walk-buffer line's entry: slice and address. -/
def walkKey (slice pa : Nat) : Nat := slice * 2 ^ 40 + pa

/-- Reads an entry for a walk: from the slice's walk buffer when `fresh` is false and the line is still used, else
from memory, after a recall of the line's registrations, and then the line stays in the buffer (R317). -/
def State.walkRead (s : State) (slice pa : Nat) (fresh : Bool) : Word × State :=
  let fromMem (s : State) : Word × State :=
    let s := s.recallIn (pa / 64 * 64) 64
    let add (t : Tab Word) (k : Nat) : Tab Word :=
      Tab.put t (walkKey slice (pa / 64 * 64 + k)) (s.entryAt (pa / 64 * 64 + k))
    (s.entryAt pa, { s with walk := [0, 8, 16, 24, 32, 40, 48, 56].foldl add s.walk })
  if fresh then fromMem s
  else match Tab.find s.walk (walkKey slice pa) with
    | none => fromMem s
    | some w =>
      let (used, s) := s.drawBit
      if used then (w, s) else fromMem s

/-- A and D left out of an entry: what the members of a group are compared by. -/
def noAD (w : Word) : Word := w &&& ~~~0x180#64

/-- The members of a group, from its first entry up. -/
def State.members (s : State) (slice first : Nat) (fresh : Bool) : Nat → List Word × State
  | 0 => ([], s)
  | n + 1 =>
    let (w, s) := s.walkRead slice first fresh
    let (r, s) := s.members slice (first + 8) fresh n
    (w :: r, s)

/-- Entries in the group of a leaf (R314). -/
def groupLen (w : Word) : Nat := if pteSize w = 1 then 32 else if pteSize w = 2 then 16 else 1

/-- The leaf that translates through an entry: the entry itself, or, where the members of its group differ, any one of
them (R314); with its address and the address of the group's first member. -/
def State.pickMember (s : State) (slice entry : Nat) (w : Word) (fresh : Bool) : Word × Nat × Nat × State :=
  let n := groupLen w
  let first := entry / (8 * n) * (8 * n)
  if n = 1 then (w, entry, first, s)
  else
    let (ms, s) := s.members slice first fresh n
    if ms.all (fun m => noAD m == noAD w) then (w, entry, first, s)
    else
      let (k, s) := s.drawNat
      (ms.getD (k % n) w, first + 8 * (k % n), first, s)

/-- A walk ends at a leaf of a level, or at a member of its group (R314). -/
def State.walkLeaf (s : State) (slice entry level : Nat) (w : Word) (fresh : Bool) : Walk × State :=
  if !leafOk level w then (.broken entry level, s)
  else
    let (m, member, first, s) := s.pickMember slice entry w fresh
    if !pteP m then (.absent, s)
    else if !pteLeaf m || !leafOk level m then (.broken member level, s) else (.leaf m member first, s)

/-- A walk from the table at `table` down from a level (R312, R314). -/
def State.walkFrom (s : State) (slice va : Nat) (fresh : Bool) : Nat → Nat → Walk × State
  | table, level =>
    let entry := table + 8 * (va / 2 ^ (16 + 10 * level) % 1024)
    let (w, s) := s.walkRead slice entry fresh
    if !pteP w then (.absent, s)
    else match level with
      | 0 => if pteLeaf w then s.walkLeaf slice entry 0 w fresh else (.broken entry 0, s)
      | l + 1 =>
        if l = 0 && pteLeaf w then s.walkLeaf slice entry 1 w fresh
        else if !tableOk w then (.broken entry (l + 1), s)
        else s.walkFrom slice va fresh (pteTable w) l
  termination_by structural _ l => l

/-- The walk of a function's address: its root is entry `fn` of the root table (R312). Of the entry only the valid bit and the table's
address are looked at (DESIGN CHOICE, the log's entry 66). -/
def State.walkVa (s : State) (slice fn va : Nat) (fresh : Bool) : Walk × State :=
  let (root, s) := s.walkRead slice (s.cfg.rootTable + 8 * fn) fresh
  if !root.getLsbD 0 then (.absent, s) else s.walkFrom slice va fresh (pteTable root) 3

/-- Home slice of an address within its die (R165). -/
def homeSlice (va : Nat) : Nat :=
  (fld va 6 16 ^^^ fld va 22 16 ^^^ fld va 38 16 ^^^ fld va 54 2) % 160

/-- Key of a cached translation: slice, function, size class, and the first page of the leaf (R317). -/
def tlbKey (slice fn size va : Nat) : Nat :=
  ((slice * 129 + fn) * 4 + size) * 2 ^ 40
    + va / (if size = 1 then 0x200000 else if size = 2 then 0x40000000 else 0x10000)

/-- The cached translation of a page, or of the group that holds it. -/
def State.cached (s : State) (slice fn va : Nat) : Option (Nat × Trans) :=
  [0, 1, 2].findSome? (fun z => (Tab.find s.tlb (tlbKey slice fn z va)).map (fun t => (tlbKey slice fn z va, t)))

/-- Whether the entry in memory still is the leaf: P = 1, the same pa and W (R318). -/
def State.stillLeaf (s : State) (t : Trans) : Bool :=
  let m := s.entryAt t.entry
  pteP m && ptePa m == ptePa t.leaf && pteW m == pteW t.leaf

/-- Caches a walked leaf and sets A where it is kept; a leaf that has changed since is not cached (R318). -/
def State.fill (s : State) (slice fn va : Nat) (leaf : Word) (entry first : Nat) : Option (Nat × Trans × State) :=
  if s.stillLeaf ⟨leaf, entry, first⟩ then
    let key := tlbKey slice fn (pteSize leaf) va
    let kept := s.entryAt first ||| 0x80#64
    let t : Trans := ⟨noAD leaf ||| (kept &&& 0x180#64), entry, first⟩
    some (key, t, { s.putEntry first kept with tlb := Tab.put s.tlb key t })
  else none

/-- An access to be translated: the die at whose slices, its function, mode and kind, the generation that a replayed
item carries, and its issuer. -/
structure Req where
  die : Nat
  fn : Nat
  user : Bool
  kind : AccKind
  gen : Option (BitVec 32)
  who : Owner
  deriving DecidableEq, Repr

/-- The request of an access by or for an issuer (R316). -/
def Owner.req (o : Owner) (kind : AccKind) (gen : Option (BitVec 32)) : Req :=
  ⟨dieOf o.slot, o.ident.vf, !o.sys, kind, gen, o⟩

/-- A translated address: where, through which leaf, the key under which the leaf is cached, and whether a walk found it. -/
structure Phys where
  pa : Nat
  tracked : Bool
  leaf : Word
  key : Nat
  walked : Bool
  deriving DecidableEq, Repr

/-- How a translation ends. -/
inductive Xlat where
  | ok (p : Phys)
  | bad (cause : Nat)
  /-- the slice holds a replayed item until the generation's notice reaches it (R321) -/
  | wait
  deriving DecidableEq, Repr

/-- The identity registers 0x020 to 0x029 of an issuer, as a report carries them (R21, R314). -/
def State.regsOf (s : State) (o : Owner) : List Nat :=
  [o.slot % 8, o.slot / 8 % 8, o.slot / 64 % 20, dieOf o.slot, s.cfg.device, o.ident.gang, o.ident.grank, o.gsize,
    o.ident.launch, o.ident.vf]

/-- The leaf of an address, by a walk; a walk that met a leaf changed since is made again from memory (R318). -/
def State.leafOf (s : State) (r : Req) (slice va : Nat) (fresh : Bool) : Nat → Except Nat (Nat × Trans) × State
  | 0 => (.error 0x06, s)
  | fuel + 1 =>
    match s.walkVa slice r.fn va fresh with
    | (.absent, s) => (.error 0x06, s)
    | (.broken entry level, s) =>
      (.error 0x07, { s with monel := s.monel ++ [⟨.badEntry, r.who.ident, [entry, level, r.fn, va] ++ s.regsOf r.who⟩] })
    | (.leaf w entry first, s) =>
      match s.fill slice r.fn va w entry first with
      | some (key, t, s) => (.ok (key, t), s)
      | none => s.leafOf r slice va true fuel

/-- The permission check of R316. -/
def permitted (r : Req) (w : Word) : Bool :=
  !(r.user && pteSys w) &&
    match r.kind with
    | .load => pteR w
    | .store => pteW w
    | .fetch => pteX w
    | .atomic => pteR w && pteW w

/-- Checks a leaf for an access within one line and gives the physical address (R316); the tag check does not apply to a
write through a leaf with retag. A leaf of host memory with retag has cause 0x15 also where its tag is 0 (DESIGN CHOICE, the log's
entry 66). -/
def State.checkLeaf (s : State) (r : Req) (va key : Nat) (w : Word) : Xlat :=
  let pa := ptePa w + va % leafBytes w
  if !permitted r w then .bad 0x07
  else if isHost pa then (if pteTag w ≠ 0 ∨ pteRetag w then .bad 0x15 else .ok ⟨s.routed pa, pteTracked w, w, key, false⟩)
  else if !(r.kind.writes && pteRetag w) && Tab.get s.tags (pa / 1024) 0 != pteTag w then .bad 0x15
  else .ok ⟨pa, pteTracked w, w, key, false⟩

/-- A translation as a walk has found it: the walk's lines count (R364). -/
def Xlat.byWalk : Xlat → Xlat
  | .ok p => .ok { p with walked := true }
  | .bad c => .bad c
  | .wait => .wait

/-- Translates an address by a walk (R312, R316). -/
def State.translateWalked (s : State) (r : Req) (slice va : Nat) (fresh : Bool) : Xlat × State :=
  match s.leafOf r slice va fresh 2 with
  | (.error c, s) => (.bad c, s)
  | (.ok (key, t), s) => ((s.checkLeaf r va key t.leaf).byWalk, s)

/-- Translates an address at its home slice: by a cached translation, or by a walk where none is cached, where the cached
leaf does not allow the access (R319: an increase of R, W or X asks for no `pinv`), and where D must be set in a
leaf that has changed (R318). A cached leaf goes only for one that has been walked in its place, or for having changed (R317, R318). -/
def State.translateAt (s : State) (r : Req) (slice va : Nat) : Xlat × State :=
  match s.cached slice r.fn va with
  | none => s.translateWalked r slice va false
  | some (key, t) =>
    match s.checkLeaf r va key t.leaf with
    | .ok p =>
      if r.kind.writes && !pteD t.leaf && !s.stillLeaf t then
        { s with tlb := Tab.drop s.tlb key }.translateWalked r slice va true
      else (.ok p, s)
    | _ =>
      match s.leafOf r slice va false 2 with
      | (.error c, s) => (.bad c, s)
      | (.ok (k, t), s) =>
        let s := if k = key then s else { s with tlb := Tab.drop s.tlb key }
        ((s.checkLeaf r va k t.leaf).byWalk, s)

/-- Sets D before the first write through a cached translation (R318). -/
def State.setD (s : State) (key : Nat) : State :=
  match Tab.find s.tlb key with
  | none => s
  | some t =>
    if pteD t.leaf then s
    else { s.putEntry t.first (s.entryAt t.first ||| 0x100#64) with tlb := Tab.put s.tlb key { t with leaf := t.leaf ||| 0x100#64 } }

/-- Whether a replayed item's generation has not reached a slice yet, compared modulo 2^32 (R321). -/
def State.early (s : State) (slice : Nat) : Option (BitVec 32) → Bool
  | some g => let d := (g - Tab.get s.gs slice 0).toNat; 1 ≤ d && d ≤ 2 ^ 31 - 1
  | none => false

/-- The slices that hold a dirty word of the line of a tracked access: the one that the requester asks, or the home of another die to
which it forwards the request (R165, R167). -/
def State.dirtyAt (s : State) (x : Xlat) : List Nat :=
  match x with
  | .ok p => if p.tracked then (s.regs.filter (fun e => e.1 / 8 == p.pa / 64 && e.2.core.isNone)).map (·.2.slice) else []
  | .bad _ | .wait => []

/-- Translates an address. A replayed item waits for its generation and then uses no walk-buffer line and no cached
translation older than it (R321). A slice in retention answers from its tags, but for a hit on a dirty line, which wakes it (R167,
R363). -/
def State.translate (s : State) (r : Req) (va : Nat) : Xlat × State :=
  let slice := r.die * 160 + homeSlice va
  if s.early slice r.gen then (.wait, s)
  else
    let (x, s) := s.translateAt r slice va
    (x, (s.dirtyAt x).foldl State.wakeSlice s)

end Sys2Proof.Machine
end

