-- ==== Sys2Proof/Machine/Access.lean ====
section
/-!
DEFINITION. Sys2Proof/Machine/Access.lean: what one global access does where it is performed: what a reader sees of memory
(R185 to R192), the words that a core registers (R163, R164), poisoned words (R175), atomics (R171, R172), and acquires (R166).
-/
namespace Sys2Proof.Machine

/-! ### What a reader sees of global memory -/

/-- Number of a word in `memPast`: through tracked pages or through untracked ones, whose orders are separate (R192, R195). -/
def pastKey (tracked : Bool) (pa : Nat) : Nat := pa / 8 * 2 + tracked.toNat

/-- The aligned 8-byte word at an address as it stands: in the caches or in memory (R163, R164). -/
def State.wordNow (s : State) (key : Nat) (tracked : Bool) (pa : Nat) : Word :=
  if tracked then s.cachedWord key pa else BitVec.ofNat 64 (natOf (s.physRead 0 (pa / 8 * 8) 8))

/-- One byte of global memory, as a party sees it (R188, R190, R192). What stood before a write under another memory key is not
remembered for it: it reads the word that stands there now under its own key (R360; DESIGN CHOICE, the log's entry 63). -/
def State.seeByte (s : State) (v : View) (key : Nat) (tracked : Bool) (pa : Nat) : Byte :=
  let past := (Tab.get s.memPast (pastKey tracked pa) []).takeWhile (·.key == key)
  if past.isEmpty && (!tracked || (Tab.find s.regs (pa / 8)).isNone) then s.physByte key pa
  else (seenWord (·.visible v (if tracked then .tracked else .untracked) s.now) 0 past (s.wordNow key tracked pa)).extractLsb'
    (8 * (pa % 8)) 8

/-- The `n` bytes of global memory from an address up, as a party sees them. -/
def State.seeMem (s : State) (v : View) (key : Nat) (tracked : Bool) (pa : Nat) : Nat → List Byte
  | 0 => []
  | n + 1 => s.seeByte v key tracked pa :: s.seeMem v key tracked (pa + 1) n

/-- Words that `n` bytes from `pa` touch, from the first. -/
def wordsOf (pa n : Nat) : List Nat := (List.range ((pa + n + 7) / 8 - pa / 8)).map (fun k => pa / 8 + k)

/-- Remembers a write of a word. -/
def State.notePast (s : State) (k : Nat) (r : Past) : State := { s with memPast := Tab.put s.memPast k (r :: Tab.get s.memPast k []) }

/-- Records that a party writes bytes of a word, with what it holds now. A write through an untracked page leaves the copies that
tracked pages have cached: their readers find it by an acquire, or once a copy is evicted (R164, R195). -/
def State.noteWord (s : State) (v : View) (key : Nat) (tracked : Bool) (scope : Order) (word : Nat) (mask : BitVec 8) : State :=
  let s := (s.fire v).notePast (pastKey tracked (word * 8)) (s.pastOf v (s.wordNow key tracked (word * 8)) mask key scope)
  if tracked then s
  else
    let own := s.keyFor v.ident.vf true (word * 8)
    s.notePast (pastKey true (word * 8))
      { s.pastOf v (s.wordNow own true (word * 8)) mask own .plain with path := none, core := some s.now }

/-- Records that a party writes a range, word by word. -/
def State.noteMem (s : State) (v : View) (key : Nat) (tracked : Bool) (scope : Order) (pa n : Nat) : State :=
  (wordsOf pa n).foldl (fun s w => s.noteWord v key tracked scope w (coverMask w pa n)) s

/-- A party reads the words of a range of memory as they stand: it reads nothing older of them afterwards (R192). `p` tells which of
their writes it learns of. -/
def State.readMemWords (s : State) (v : View) (tracked : Bool) (pa n : Nat) (p : Past → Bool) : State :=
  { s with memPast := s.memPast.map (fun e =>
      if e.1 % 2 = tracked.toNat ∧ pa / 8 ≤ e.1 / 2 ∧ e.1 / 2 < (pa + n + 7) / 8 then
        (e.1, e.2.map (fun r => if p r then r.readBy v.ident else r))
      else e) }

/-- Whether two identities are ranks of one gang. -/
def Ident.mates (i j : Ident) : Bool := i.vf == j.vf && i.launch == j.launch && i.gang == j.gang && i.rival == j.rival

/-- Whether a scope contains the writer of what has been performed of a place, and its reader: an acquire load at that scope finds it
(R183, R202). -/
def Past.within (r : Past) (v : View) (scope : Order) : Bool := r.core.isSome && (beyondGang scope || r.who.mates v.ident)

/-- Forgets what the words of a range of memory held: every reader sees what they hold now. -/
def State.settleMem (s : State) (pa n : Nat) : State :=
  { s with memPast := Tab.dropRange s.memPast (pa / 8 * 2) (((pa + n + 7) / 8 - pa / 8) * 2) }

/-- What the hub writes to physical memory: it recalls what is registered, and is seen at once; the lines that it touches are invalid in
every cache (R351). -/
def State.hubWrite (s : State) (key pa : Nat) (bs : List Byte) : State :=
  let lo := pa / 64 * 64
  let s := ((s.recallIn pa bs.length).physWrite key pa bs).settleMem pa bs.length
  { s with memPast := s.memPast.filter (fun e => !(e.1 % 2 == 1 && lo / 8 ≤ e.1 / 2 && e.1 / 2 < (pa + bs.length + 63) / 64 * 8)) }

/-- What the hub reads of physical memory. -/
def State.hubRead (s : State) (key pa n : Nat) : List Byte := (s.recallIn pa n).physRead key pa n

/-! ### Registration (R164) -/

/-- Lines that a core's L1 holds: 32 KiB in lines of 64 bytes (R2, R164). -/
def l1Lines : Nat := 512

/-- Room in a core's L1 for a word: where every line is taken, one of them, whichever, is evicted to its slice (R164). -/
def State.makeRoom (s : State) (core word : Nat) : State :=
  let ls := s.linesOf (·.core == some core)
  if ls.contains (word / 8) || ls.length < l1Lines then s
  else
    let (k, s) := s.drawNat
    let line := ls.getD (k % ls.length) 0
    ((s.regs.filter (fun e => e.1 / 8 == line && e.2.core == some core)).map (·.1)).foldl State.toSlice s

/-- A word with some of its bytes, from byte `off` up, replaced. -/
def overlayWord (w : Word) (off : Nat) (bs : List Byte) : Word :=
  let old := bytesOf 8 w.toNat
  BitVec.ofNat 64 (natOf (old.take off ++ bs ++ old.drop (off + bs.length)))

/-- Where the data of a write comes to stand: registered in the L1 of a core, dirty in a slice, or at the memory controller. -/
inductive Keeper where
  | l1 (core : Nat)
  | l2 (slice : Nat)
  | memory
  deriving DecidableEq, Repr

/-- The core that a write registers a word for. -/
def Keeper.core : Keeper → Option Nat
  | .l1 c => some c
  | .l2 _ | .memory => none

/-- The slice at which a tracked write of an address is kept: the home slice on the die of the core, or the slice itself (R165). -/
def Keeper.slice (k : Keeper) (va : Nat) : Nat :=
  match k with
  | .l1 c => c / 160 * 160 + homeSlice va
  | .l2 n => n
  | .memory => 0

/-- Puts a word with some of its bytes written into an L1 or a slice: what another core has registered is handed over, and what
stands under another key is written back first (R164, R360). -/
def State.registerWord (s : State) (k : Keeper) (key va pa : Nat) (bs : List Byte) : State :=
  let word := pa / 8
  let s := match Tab.find s.regs word with
    | some r => if r.key = key then s else s.recall word
    | none => s
  let s := match k.core with
    | some c => s.makeRoom c word
    | none => (s.wakeSlice (k.slice va)).sliceRoom (k.slice va) word
  { s with regs := Tab.put s.regs word ⟨k.core, k.slice va, key, va - pa % 8, overlayWord (s.cachedWord key pa) (pa % 8) bs⟩ }

/-- Registers the words of a string of bytes, word by word; `fuel` bounds the words. -/
def State.registerBytes (s : State) (k : Keeper) (key va pa : Nat) (bs : List Byte) : Nat → State
  | 0 => s
  | fuel + 1 =>
    if bs.isEmpty then s
    else
      let m := 8 - pa % 8
      (s.registerWord k key va pa (bs.take m)).registerBytes k key (va + m) (pa + m) (bs.drop m) fuel

/-- Counts the bytes that an access moved at memory controllers of the device: those of an untracked access, and the line of a
tracked one that missed, which is a free choice; and where it was translated by a walk, up to 9 lines that the walk read, a free
number (R364). -/
def State.useHbm (s : State) (fn : Nat) (p : Phys) (n : Nat) : State :=
  let (miss, s) := s.drawBit
  let (lines, s) := s.drawNat
  let data := if !isDevice p.pa then 0 else if !p.tracked then n else if miss then 64 else 0
  s.use fn 6 (data + (if p.walked then 64 * (lines % 10) else 0))

/-- Writes the tag of a retagging leaf into the rows that a write touches, with fresh check bits of the words that it writes: they
have no error any more (R249, R316). -/
def State.retagRows (s : State) (leaf : Word) (pa n : Nat) : State :=
  if pteRetag leaf ∧ isDevice pa ∧ n ≠ 0 then
    let rows := (List.range ((pa + n + 1023) / 1024 - pa / 1024)).map (fun k => pa / 1024 + k)
    { s with
      tags := rows.foldl (fun t k => if pteTag leaf = 0 then Tab.drop t k else Tab.put t k (pteTag leaf)) s.tags
      bad := Tab.dropRange s.bad (pa / 32 * 32) ((pa + n + 31) / 32 * 32 - pa / 32 * 32)
      weak := Tab.dropRange s.weak (pa / 32) ((pa + n + 31) / 32 - pa / 32) }
  else s

/-- Clears the poison marks of the words that a write covers whole (R175). -/
def State.unpoison (s : State) (pa n : Nat) : State :=
  { s with poison := s.poison.filter (fun e => !(pa ≤ e.1 && e.1 + 8 ≤ pa + n)) }

/-- Clears the poison marks of every word that an engine's write touches (R175). -/
def State.unpoisonTouched (s : State) (pa n : Nat) : State :=
  { s with poison := s.poison.filter (fun e => !(e.1 < pa + n && pa < e.1 + 8)) }

/-- A write of a part through a translated leaf: D is set, the bytes go to the L1 or the slice that keeps their words, or else to
the memory controller under the access's key, and a retagging leaf writes its tag (R164, R172, R316, R318). -/
def State.storeAt (s : State) (v : View) (k : Keeper) (fn : Nat) (scope : Order) (va : Nat) (p : Phys) (bs : List Byte) : State :=
  let n := bs.length
  let key := s.keyFor fn p.tracked p.pa
  let s := ((s.setD p.key).retagRows p.leaf p.pa n).noteMem v key p.tracked scope p.pa n
  let s := if !p.tracked then (s.perhapsEvicted p.pa n).physWrite key p.pa bs
    else if k = .memory then (s.recallIn p.pa n).physWrite key p.pa bs
    else s.registerBytes k key va p.pa bs (n + 1)
  { s with now := s.now + 1 }

/-! ### Performing an access -/

/-- Bytes of a size. -/
def sizeBytes : Size → Nat
  | .b => 1 | .h => 2 | .w => 4 | .d => 8

/-- Bytes of an access. -/
def AccOp.bytes : AccOp → Nat
  | .ld z _ => (sizeBytes z)
  | .st z => (sizeBytes z)
  | .ldv | .stv => 32
  | .amo _ dw => if dw then 8 else 4
  | .cas dw => if dw then 8 else 4
  | .nmstat => 1
  | .pclr => 8

/-- The permission an access needs (R316); `pclr` needs write permission (R311). -/
def AccOp.kind : AccOp → AccKind
  | .ld .. | .ldv | .nmstat => .load
  | .st .. | .stv | .pclr => .store
  | .amo .. | .cas .. => .atomic

/-- The operation of an atomic on `n`-byte values (R171). -/
def amoOp (fn : Fin 9) (n old y : Nat) : Nat :=
  let m := 2 ^ (8 * n)
  match fn.val with
  | 0 => (old + y) % m
  | 1 => old &&& y
  | 2 => old ||| y
  | 3 => old ^^^ y
  | 4 => if sgn (8 * n) old ≤ sgn (8 * n) y then old else y
  | 5 => if sgn (8 * n) old ≤ sgn (8 * n) y then y else old
  | 6 => min old y
  | 7 => max old y
  | _ => y

/-- An `n`-byte value extended to 64 bits, by its sign or by zeros. -/
def extend (n : Nat) (signed : Bool) (v : Nat) : Word :=
  if signed then BitVec.ofInt 64 (sgn (8 * n) v) else BitVec.ofNat 64 v

/-- The parts of `n` bytes that lie in one 64-byte line each: address and length (R165, R170); `fuel` bounds them. -/
def linePartsOf : Nat → Nat → Nat → List (Nat × Nat)
  | 0, va, n => [(va, n)]
  | fuel + 1, va, n =>
    let m := min n (64 - va % 64)
    if m = n then [(va, n)] else (va, m) :: linePartsOf fuel (va + m) (n - m)

/-- The parts of an access that lie in one line each: each has its own home slice (R165). -/
def lineParts (va n : Nat) : List (Nat × Nat) := linePartsOf (n / 64 + 1) va n

/-- Translates the parts of an access; the first failure ends it with its first byte (R169). -/
def State.translateAll (s : State) (r : Req) : List (Nat × Nat) → Except (Option (Nat × Nat)) (List (Nat × Nat × Phys)) × State
  | [] => (.ok [], s)
  | (va, n) :: rest =>
    match s.translate r va with
    | (.wait, s) => (.error none, s)
    | (.bad c, s) => (.error (some (c, va)), s)
    | (.ok p, s) =>
      match s.translateAll r rest with
      | (.ok ps, s) => (.ok ((va, n, p) :: ps), s)
      | (.error e, s) => (.error e, s)

/-- The VA of a poisoned word that makes an access fail (R175): any word a load touches; a word that a store covers
only in part. -/
def State.poisonFault (s : State) (op : AccOp) : List (Nat × Nat × Phys) → Option Nat
  | [] => none
  | (va, n, p) :: rest =>
    let hit := match op with
      | .pclr => none
      | .st _ | .stv =>
        (s.poison.find? (fun e => e.1 < p.pa + n && p.pa < e.1 + 8 && !(p.pa ≤ e.1 && e.1 + 8 ≤ p.pa + n))).map (·.1)
      | _ => s.poisonedIn p.pa n
    match hit with
    | some w => some (va + w - p.pa)
    | none => s.poisonFault op rest

/-- How an attempt to perform an access ends. -/
inductive Done where
  | ok
  | fault (cause va : Nat)
  /-- uncorrectable data at a physical address: cause 0x0A (R21) -/
  | lost (pa : Nat)
  | wait
  deriving DecidableEq, Repr

/-- The near-memory unit of a number. -/
def State.nmu (s : State) (n : Nat) : Nmu := Tab.get s.nmus n Nmu.empty

/-- The `nmstat` word of an NMU for a thread (R268). -/
def nmuStatus (u : Nmu) (i : Ident) : Word :=
  let mine := decide (u.claim = some i)
  let loaded := u.loaded.foldl (fun w e => w ||| 2 ^ (e.1 - 8)) 0
  let stop := match u.run with
    | some h =>
      (match h.stop with
        | some k => 1 + 2 * (decide (h.msg.owner.ident = i)).toNat + 4 * k.kind + 64 * h.pc + 4096 * h.msg.handler
            + 65536 * k.bank + 4194304 * k.column
        | none => 0)
    | none => 0
  BitVec.ofNat 64
    (stop + 2 ^ 32 * min u.queue.length 64 + 2 ^ 40 * u.claim.isSome.toNat + 2 ^ 41 * mine.toNat
      + 2 ^ 42 * (if mine then u.latches.length else 0) + 2 ^ 48 * loaded)

/-- Reads the bytes of an access's parts as a party sees them. -/
def State.readParts (s : State) (v : View) (fn : Nat) : List (Nat × Nat × Phys) → List Byte × State
  | [] => ([], s)
  | (_, n, p) :: rest =>
    let s := if p.tracked then s else s.perhapsEvicted p.pa n
    let b := s.seeMem v (s.keyFor fn p.tracked p.pa) p.tracked p.pa n
    let s := s.useHbm fn p n
    let (r, s) := s.readParts v fn rest
    (b ++ r, s)

/-- The core path of a party at the place of an access: its own core registers what it writes. -/
def View.core (v : View) : Nat := coreOf v.slot

/-- Writes the bytes of an access's parts, each as one (R170, R192). -/
def State.storeParts (s : State) (v : View) (fn : Nat) (scope : Order) (bs : List Byte) :
    List (Nat × Nat × Phys) → State
  | [] => s
  | (va, n, p) :: rest =>
    ((s.storeAt v (.l1 v.core) fn scope va p (bs.take n)).unpoison p.pa n).storeParts v fn scope (bs.drop n) rest

/-- Writes the bytes of an access's parts, and counts what memory controllers move for each (R364). -/
def State.writeParts (s : State) (v : View) (fn : Nat) (scope : Order) (bs : List Byte) (ps : List (Nat × Nat × Phys)) : State :=
  ps.foldl (fun s q => s.useHbm fn q.2.2 q.2.1) (s.storeParts v fn scope bs ps)

/-- The pieces of `size` bytes, at most, of which parts consist: the elements that an engine writes. -/
def piecesOf (size : Nat) (ps : List (Nat × Nat × Phys)) : List (Nat × Nat × Phys) :=
  ps.flatMap (fun q => (List.range ((q.2.1 + size - 1) / size)).map (fun k =>
    (q.1 + k * size, min size (q.2.1 - k * size), { q.2.2 with pa := q.2.2.pa + k * size })))

/-- Whether parts lie in pages of different tracked attributes (R169). -/
def mixedParts : List (Nat × Nat × Phys) → Bool
  | [] => false
  | (_, _, p) :: rest => rest.any (fun q => q.2.2.tracked != p.tracked)

/-- The place at which an atomic of a party executes (R172): the core's L1, the home die's slice to which the VA hashes, or a memory
controller; peer memory and, beyond the gang, host memory do their atomics themselves (R353; of device scope on host memory the
table says nothing: DESIGN CHOICE, the log's entry 64). -/
def atomicKeeper (v : View) (scope : Order) (va : Nat) (p : Phys) : Keeper :=
  if !p.tracked || isPeer p.pa then .memory
  else if !beyondGang scope then .l1 v.core
  else if isDevice p.pa then .l2 (p.pa / 2 ^ 37 * 160 + homeSlice va)
  else .memory

/-- Before an atomic executes, its place recalls the registrations of its word held elsewhere (R172); at gang scope it holds the
word registered, written or not. -/
def State.atomicPlace (s : State) (k : Keeper) (p : Phys) (n : Nat) : State :=
  match k with
  | .l1 _ => s
  | .l2 _ => (s.registeredIn p.pa n).foldl State.toSlice s
  | .memory => s.recallIn p.pa n

/-- Performs the atomic `f` on `n` bytes where R172 places it, and gives the old value; the answer of a peer acknowledges it (R353). -/
def State.atomicAt (s : State) (v : View) (fn : Nat) (scope : Order) (va : Nat) (p : Phys) (n : Nat) (f : Nat → Option Nat) :
    Nat × State :=
  let key := s.keyFor fn p.tracked p.pa
  let k := atomicKeeper v scope va p
  let scope := if isPeer p.pa then .sys else scope
  let s := s.atomicPlace k p n
  let old := natOf (((bytesOf 8 (s.wordNow key p.tracked p.pa).toNat).drop (p.pa % 8)).take n)
  match f old with
  | some w => (old, (s.storeAt v k fn scope va p (bytesOf n w)).useHbm fn p n)
  | none =>
    let s := s.readMemWords v p.tracked p.pa n (fun _ => true)
    let s := if k.core.isSome then s.registerBytes k key va p.pa (bytesOf n old) (n + 1) else s
    (old, { s with now := s.now + 1 }.useHbm fn p n)

/-- An acquiring load finds what has been performed, at a scope that contains the writer, of the words that it reads (R192, R202). -/
def State.fetchParts (s : State) (scope : Order) (ps : List (Nat × Nat × Phys)) : State :=
  let v := s.th.view .core
  ps.foldl (fun s q => s.readMemWords v q.2.2.tracked q.2.2.pa q.2.1 (·.within v scope)) s

/-- The effect of an access on its translated parts (R83, R84, R168, R171, R268, R311); a load or an atomic writes its
register. `nmstat` of host or peer memory, where there is no NMU, writes 0 (DESIGN CHOICE, the log's entry 66). An acquire takes effect before what follows it, and with what it reads (R166, R202). -/
def State.effect (s : State) (a : Access) (ps : List (Nat × Nat × Phys)) : State :=
  let t := s.th
  let fn := t.ident.vf
  let n := a.op.bytes
  let s := if a.acq && a.op.kind == .load then (s.fetchParts a.scope ps).acquire a.scope else s
  let v := s.th.view .core
  let s := match a.op with
    | .ld z sg =>
      let (b, s) := s.readParts v fn ps
      s.setX a.reg (extend (sizeBytes z) sg (natOf b))
    | .ldv =>
      let (b, s) := s.readParts v fn ps
      s.loadF a.reg (BitVec.ofNat 256 (natOf b))
    | .st z => s.writeParts v fn a.scope (bytesOf (sizeBytes z) a.data.toNat) ps
    | .stv => s.writeParts v fn a.scope (bytesOf 32 a.data.toNat) ps
    | .amo k _ =>
      (match ps with
        | (va, _, p) :: _ =>
          let (old, s) := s.atomicAt v fn a.scope va p n (fun old => some (amoOp k n old (a.data.toNat % 2 ^ (8 * n))))
          s.setX a.reg (extend n true old)
        | [] => s)
    | .cas _ =>
      (match ps with
        | (va, _, p) :: _ =>
          let (old, s) := s.atomicAt v fn a.scope va p n
            (fun old => if old = a.cmp.toNat % 2 ^ (8 * n) then some (a.data.toNat % 2 ^ (8 * n)) else none)
          s.setX a.reg (extend n true old)
        | [] => s)
    | .nmstat =>
      (match ps with
        | (_, _, p) :: _ => s.setX a.reg (if isDevice p.pa then nmuStatus (s.nmu (nmuOf p.pa)) t.ident else 0)
        | [] => s)
    | .pclr =>
      (match ps with
        | (va, _, p) :: _ =>
          if (Tab.find s.poison p.pa).isSome then
            let k := atomicKeeper v .dev va p
            { (s.atomicPlace k p 8).storeAt v k fn .plain va p (bytesOf 8 0) with poison := Tab.drop s.poison p.pa }.useHbm fn p 8
          else s
        | [] => s)
  if a.acq && a.op.kind != .load then s.acquire a.scope else s

/-- Performs a global access of the thread at hand, translating it now (R84, R169, R175). Nothing takes effect unless
the answer is `ok`. -/
def State.perform (s : State) (a : Access) : Done × State :=
  match s.translateAll (s.th.owner.req a.op.kind a.gen) (lineParts a.va a.op.bytes) with
  | (.error none, s) => (.wait, s)
  | (.error (some (c, va)), s) => (.fault c va, s)
  | (.ok ps, s) =>
    if mixedParts ps then (.fault 0x08 a.va, s)
    else match (if a.op = .nmstat then none else s.poisonFault a.op ps) with
    | some va => (.fault 0x09 va, s)
    | none =>
      match (if a.op.kind = .store ∨ a.op = .nmstat then none else ps.findSome? (fun q => s.badIn q.2.2.pa q.2.1)) with
      | some pa => (.lost pa, s)
      | none => (.ok, s.effect a ps)

end Sys2Proof.Machine
end

