-- ==== Sys2Proof/Machine/Gangs.lean ====
section
/-!
DEFINITION. Sys2Proof/Machine/Gangs.lean: how a thread leaves its slot, how a gang finishes and a launch completes
(R127, R138, R153, R334), and what a stop without a save releases (R21, R225, R251, R309).
-/
namespace Sys2Proof.Machine

/-! ### Matrix units -/

/-- Ends the ownership of a core's matrix unit: the ring is zeroed, the configuration discarded, every request
cancelled, and the slot that has waited longest in `mown` becomes the owner (R225, R234). -/
def State.releaseUnit (s : State) (core : Nat) : State :=
  let u := s.unitOf core
  match u.waiters with
  | [] => s.putUnit core MatrixUnit.empty
  | w :: r => s.putUnit core { MatrixUnit.empty with owner := some w, waiters := r }

/-- Ends the ownership of a core's matrix unit because its thread is stopped without a save: a drain that already runs goes on
without it, to its arrival (R225); one that failed and waited for a notice place arrives, since a discarded notice waits for none
(R240, R302, R309). -/
def State.loseUnit (s : State) (core : Nat) (o : Owner) : State :=
  let u := s.unitOf core
  let runs := u.row != 0 && !u.reqs.isEmpty && !u.held && u.fail.isNone
  let s := if u.fail.isSome then s.arrive o (u.cfg.elim 0 (·.sync)) 0 true else s
  let s := if runs then { s with drains := s.drains ++ [⟨core, { o with lost := true }, { u with reqs := u.reqs.take 1, waiters := [] }⟩] }
    else s
  s.releaseUnit core

/-- The thread at hand gives up an `mma` that it waits in: the rows already added stand, sr.mrow names the next, and mc falls
(R230). -/
def State.leaveMma (s : State) : State :=
  if s.th.mma.isSome then
    let core := coreOf s.th.slot
    let u := s.unitOf core
    { s.putUnit core { u with mc := u.mc - 1 } with th := { s.th with mma := none } }
  else s

/-- The thread at hand gives up waiting in `mown`; if it was granted the unit meanwhile, the next waiter gets it
(R225, R303). -/
def State.leaveMown (s : State) : State :=
  if s.th.mownWait then
    let core := coreOf s.th.slot
    let u := s.unitOf core
    let s := s.putUnit core { u with waiters := u.waiters.filter (· ≠ s.th.slot) }
    let s := if s.ownsUnit s.th.slot then s.releaseUnit core else s
    { s with th := { s.th with mownWait := false } }
  else s

/-! ### Packets -/

/-- The packet's count, to be made once its bytes have landed (R142, R143). -/
def State.postCount (s : State) (p : Packet) (err : Bool) : State :=
  let key := if p.sync = 0 then none else
    locKey (clusterOf s.th.slot * 64 + p.core * 8) [] p.sync
  { s with
    th := { s.th with packet := none }
    counts := s.counts ++ [⟨p.id, s.th.ident, clusterOf s.th.slot * 8 + p.core, key, p.off, err⟩] }

/-- Aborts an open packet: the completed puts land, and the sync word counts them with its error flag set (R142). -/
def State.abortPacket (s : State) : State :=
  match s.th.packet with
  | none => s
  | some p => s.postCount p true

/-! ### Leaving a slot -/

/-- Frees the slot of the thread at hand: its slice is zeroed, and with the last slot of the tenant the cluster loses its
tenant and its scratchpads are to be zeroed (R153). The time it was bound is charged to its function (R364). -/
def State.freeSlot (s : State) : State :=
  let t := s.th
  let s := s.use t.ident.vf 7 ((s.clock - t.boundAt) * 1000 / 940)
  let s := { s with th := Thread.idle, loc := Memory.clear s.loc (t.slot * 0x4000) 0x4000 }.settleLoc (t.slot * 0x4000) 0x4000
  if s.others.any (fun e => clusterOf e.1 == clusterOf t.slot) then s
  else { s with tenants := Tab.put s.tenants (clusterOf t.slot) ⟨none, true⟩ }

/-- Marks a command of the thread `t` as one whose thread has left. -/
def Owner.leave (t : Thread) (o : Owner) : Owner := if o.ident = t.ident then { o with lost := true } else o

/-- Changes the owner of every command on its way. -/
def State.mapOwners (s : State) (f : Owner → Owner) : State :=
  let msg (m : NmMsg) : NmMsg := { m with owner := f m.owner }
  { s with
    copyQ := s.copyQ.map (fun e => (e.1, e.2.map (fun c => { c with owner := f c.owner })))
    drains := s.drains.map (fun d => { d with owner := f d.owner })
    tableQ := s.tableQ.map (fun c => { c with owner := f c.owner })
    nmQ := s.nmQ.map msg
    nmus := s.nmus.map (fun e => (e.1, { e.2 with
      queue := e.2.queue.map msg
      run := e.2.run.map (fun h => { h with msg := msg h.msg }) }))
    resumes := s.resumes.map (fun c => { c with owner := f c.owner })
    loads := s.loads.map (fun c => { c with owner := f c.owner })
    ixQ := s.ixQ.map (fun c => { c with owner := f c.owner }) }

/-- The owners of the commands on their way. -/
def State.owners (s : State) : List Owner :=
  s.copyQ.flatMap (fun e => e.2.map (·.owner)) ++ s.drains.map (·.owner) ++ s.tableQ.map (·.owner) ++ s.nmQ.map (·.owner)
    ++ s.nmus.flatMap (fun e => e.2.queue.map (·.owner) ++ e.2.run.toList.map (·.msg.owner))
    ++ s.resumes.map (·.owner) ++ s.loads.map (·.owner) ++ s.ixQ.map (·.owner)

/-- Whether a command of threads that have left still runs: none of its effects or counts is to come after their gang's completion update
(R138, R364). A stopped handler, which nothing resumes, does no more (R266). -/
def State.runsFor (s : State) (p : Ident → Bool) : Bool :=
  let going (u : Nmu) : Nmu := if u.run.any (·.left) then { u with run := none } else u
  let u : State := { s with nmus := s.nmus.map (fun e => (e.1, going e.2)) }
  u.owners.any (fun o => o.lost && p o.ident)

/-- The copies of the thread at hand that wait for a notice place end: a discarded notice waits for none (R302, R309). -/
def State.endFailed (s : State) : State :=
  let core := coreOf s.th.slot
  let failed (c : CopyCmd) : Bool := c.fail.isSome && c.owner.isOf s.th
  let q := s.copyQueue core
  (q.filter failed).foldl (fun s c => s.arrive c.owner c.sw 0 true)
    (if q.any failed then { s with copyQ := Tab.put s.copyQ core (q.filter (fun c => !failed c)) } else s)

/-- Every command of the thread at hand goes on without it (R309). -/
def State.orphan (s : State) : State :=
  let t := s.th
  s.endFailed.mapOwners (fun o => o.leave t)

/-- Ends every NMU claim of some identities: the accumulators are zeroed and the latches emptied (R251). -/
def State.endClaimsOf (s : State) (p : Ident → Bool) : State :=
  { s with nmus := s.nmus.map (fun e =>
      (e.1, if e.2.claim.any p then { e.2 with claim := none, acc := [], latches := [] } else e.2)) }

/-- Ends every NMU claim of an identity. -/
def State.endClaims (s : State) (i : Ident) : State := s.endClaimsOf (· == i)

/-- Frees the ring places and the record-store places of some identities (R242, R306). -/
def State.freePlaces (s : State) (p : Ident → Bool) : State :=
  { s with
    rings := s.rings.filter (fun e => !p e.2.ident)
    store := s.store.filter (fun e => !p e.ident) }

/-- Performs the stores of the thread at hand that have retired and are not held (R21, R309). -/
def State.flushStores (s : State) : State :=
  (s.th.acc.filter (fun a => a.op.isStore && a.stuck.isNone)).foldl
    (fun s a => let x := s.th.x; let (_, s) := s.perform a; { s with th := { s.th with x := x } }) s

/-- Two newest acquires, at gang and at device scope, together with those of a thread. -/
def Thread.gotWith (t : Thread) (g : Nat × Nat) : Nat × Nat := (max g.1 t.gangSeen, max g.2 t.devSeen)

/-- The thread at hand ends: what it has been made to see counts for its gang, and for its launch, whose completion update releases it
on (R138, R188, R334). -/
def State.noteGot (s : State) : State :=
  let t := s.th
  { s with
    gangs := s.gangs.map (fun g => if g.has t.ident then { g with got := t.gotWith g.got } else g)
    launches := s.launches.map (fun l => if l.id == t.ident.launch && l.fn == t.ident.vf then { l with got := t.gotWith l.got } else l) }

/-- Discards the thread at hand without saving it: retired stores are performed, engine commands that run complete,
and everything else it held is released (R21, R309, R333). The update of its gang's completion block synchronises as that of a gang
whose threads exit does: what it has stored, and what its commands have written, is performed at device scope (R138, R187, R201).
A slot at hand with no thread bound is left idle. -/
def State.dropThread (s : State) : State :=
  if s.th.bound then
    let s := (s.abortPacket).flushStores
    let i := s.th.ident
    let s := (s.releasedAll .dev).noteGot
    let s := s.leaveMown
    let s := if s.ownsUnit s.th.slot then s.loseUnit (coreOf s.th.slot) s.th.owner else s
    (((s.orphan).endClaims i).freePlaces (· == i)).freeSlot
  else { s with th := Thread.idle }

/-! ### Gangs and launches -/

/-- The launch of an id and a function. -/
def State.launchOf (s : State) (fn id : Nat) : Option Launch :=
  s.launches.find? (fun l => l.id == id && l.fn == fn)

/-- Replaces a launch. -/
def State.putLaunch (s : State) (l : Launch) : State :=
  { s with launches := s.launches.map (fun m => if m.id == l.id && m.fn == l.fn then l else m) }

/-- The dies of a packet's mask, in rising order (R342). -/
def LaunchPacket.dies (p : LaunchPacket) : List Nat := (List.range 8).filter (fun d => p.mask.getLsbD d)

/-- The first die of a packet's mask. -/
def LaunchPacket.firstDie (p : LaunchPacket) : Nat := p.dies.headD 0

/-- Live rivals of a tournament. -/
def Launch.live (l : Launch) : Nat := (l.rivals.filter (·.alive)).length

/-- Whether a rival is finished: every gang below its limit has finished (R331). -/
def Rival.done (v : Rival) : Bool := v.limit ≤ v.finished

/-- Whether a launch is complete (R138, R334). -/
def Launch.complete (l : Launch) : Bool :=
  if l.pkt.kind = 1 then
    l.rivals.all (fun v => !v.alive || v.done) && (l.live == 1 || l.pkt.grow == 0)
  else l.count == some l.finished

/-- Removes a launch that is complete, with the record-store places it still holds (R306); a tournament's completion
block gets one more update (R334). -/
def State.closeLaunch (s : State) (fn id : Nat) : State :=
  match s.launchOf fn id with
  | none => s
  | some l =>
    if l.complete then
      { s with
        launches := s.launches.filter (fun m => !(m.id == id && m.fn == fn))
        store := s.store.filter (fun e => !(e.ident.launch == id && e.ident.vf == fn))
        completions := if l.pkt.kind = 1 ∧ l.pkt.done ≠ 0 then
            s.completions ++ [⟨id, fn, l.pkt.done, 0, true, l.host, !l.pkt.sys, none, l.pkt.firstDie, 2, l.got⟩] else s.completions }
    else s

/-- A gang whose threads have all ended finishes: its completion code (R127), its update of the completion block
(R138), and its grant goes back (R126) once no command of its threads runs any more (R21, R309). -/
def State.finishGang (s : State) (g : Gang) : State :=
  if g.ended.length < g.gsize then s
  else
    let code := match g.code with
      | some c => c
      | none => g.least.getD 0
    let runs (h : Gang) : Bool := s.owners.any (fun o => h.has o.ident)
    let s := { s with
      gangs := s.gangs.filter (fun h =>
        !(h.launch == g.launch && h.fn == g.fn && h.gang == g.gang && h.rival == g.rival))
      ghosts := (s.ghosts ++ [g]).filter runs }
    match s.launchOf g.fn g.launch with
    | none => s
    | some l =>
      let l := { l with
        finished := l.finished + 1
        rivals := match g.rival with
          | some r => l.rivals.modify r (fun v => { v with finished := v.finished + 1 })
          | none => l.rivals }
      let s := s.putLaunch l
      let s := if l.pkt.done = 0 then s
        else { s with completions := s.completions ++
          [⟨l.id, l.fn, l.pkt.done, code, false, l.host, !l.pkt.sys, some (g.gang, g.rival), g.die, 0, g.got⟩] }
      s.closeLaunch g.fn g.launch

/-- A rank of a gang has ended, with its exit value where it exited (R127). -/
def State.endRank (s : State) (i : Ident) (value : Option Int) : State :=
  match s.gangOf i with
  | none => s
  | some g =>
    let g := { g with
      ended := if g.ended.contains i.grank then g.ended else g.ended ++ [i.grank]
      least := match value, g.least with
        | some v, some w => some (min v w)
        | some v, none => some v
        | none, o => o }
    (s.putGang g).finishGang g

/-- Discards every bound thread of a gang and its saved frames, with the claims and the places of the ranks that are saved, and
finishes it with a code (R21, R242, R251, R306, R309). -/
def State.stopGang (s : State) (g : Gang) (code : Int) : State :=
  let mine (t : Thread) : Bool :=
    t.ident.launch == g.launch && t.ident.vf == g.fn && t.ident.gang == g.gang && t.ident.rival == g.rival
  let slots := (s.threads.filter mine).map (·.slot)
  let s := ((slots.foldl (fun s n => (s.focus n).dropThread) s).endClaimsOf g.has).freePlaces g.has
  let s := s.mapOwners (fun o => if g.has o.ident then { o with lost := true } else o)
  let now := s.gangs.find? (fun h => h.launch == g.launch && h.fn == g.fn && h.gang == g.gang && h.rival == g.rival)
  let g := { now.getD g with ended := List.range g.gsize, saved := [], code := some (match g.code with
    | some (-3) => -3
    | _ => code) }
  (s.putGang g).finishGang g

/-- The gang of the thread at hand. -/
def State.ownGang (s : State) : Option Gang := s.gangOf s.th.ident

/-- The identity registers 0x020 to 0x029 of the thread at hand, as a report carries them (R21). -/
def State.identityRegs (s : State) : List Nat := s.regsOf s.th.owner

/-- Reports a cause to Monel and stops the gang with completion code -4 (R21). -/
def State.report (s : State) (cause tval : Nat) : State :=
  let r : MonelReport := ⟨.cause, s.th.ident, [s.th.pc.toNat, cause, tval] ++ s.identityRegs⟩
  let g := s.ownGang
  let s := { s with monel := s.monel ++ [r] }
  match g with
  | some g => s.stopGang g (-4)
  | none => s.dropThread

/-- The context of the thread at hand is lost: its gang stops with completion code -3, and Monel learns the stage and the
address (R309). Stages: 0 save, 1 spill, 2 resume, 3 core failure. The address is that of what was lost, which its caller names: the
private slice's own number, the frame, the place or the bad word (DESIGN CHOICE, the log's entry 66). -/
def State.loseContext (s : State) (stage pa : Nat) : State :=
  let r : MonelReport := ⟨.lost, s.th.ident, [stage, pa]⟩
  let g := s.ownGang
  let s := { s with monel := s.monel ++ [r] }
  match g with
  | some g => s.stopGang g (-3)
  | none => s.dropThread

end Sys2Proof.Machine
end

