-- ==== Sys2Proof/Machine/Ops.lean ====
section
/-!
DEFINITION. Sys2Proof/Machine/Ops.lean: taking an exception and returning from one (R20 to R23, R295 to R302), the waits
that give way to a held record (R166, R189, R193, R298, R299, R303), and the posting of replay records and notices.
-/
namespace Sys2Proof.Machine

/-! ### The fault record and the upcall -/

/-- What sr.notice shows: the oldest notice with its valid bit, and whether another is queued behind it (R302). -/
def Thread.noticeWord (t : Thread) : Word :=
  match t.notices with
  | [] => 0
  | w :: r => w ||| 0x8000#64 ||| (if r.isEmpty then 0 else 0x200#64)

/-- Code of a record's cause in the kinds field (R295). -/
def kindCode : Nat → Nat
  | 0x06 => 0
  | 0x07 => 1
  | 0x09 => 2
  | _ => 3

/-- The 128 bytes of the fault record (R295). -/
def faultRecord (t : Thread) (a : Word) (cause : Nat) (tval : Word) (records parked : Bool) : List Byte :=
  let hs := t.held.take 8
  let weigh (f : Held → Nat) : List Held → Nat → Nat := fun l b => l.foldr (fun h acc => f h + b * acc) 0
  bytesOf 8 a.toNat ++ bytesOf 8 tval.toNat ++ bytesOf 1 cause ++ bytesOf 1 hs.length
    ++ bytesOf 1 (records.toNat + 2 * parked.toNat) ++ bytesOf 1 0
    ++ bytesOf 2 (weigh (fun h => kindCode h.cause) hs 4) ++ bytesOf 1 (weigh (fun h => h.write.toNat) hs 2)
    ++ bytesOf 1 (weigh (fun h => h.engine.toNat) hs 2)
    ++ bytesOf 8 (if cause = 0x16 then tval.toNat else 0)
    ++ bytesOf 40 (weigh (fun h => h.va / 65536 % 2 ^ 40) hs (2 ^ 40))
    ++ bytesOf 8 (t.loop0.flag.toNat + 2 * t.loop1.flag.toNat)
    ++ bytesOf 8 t.loop0.beg.toNat ++ bytesOf 8 t.loop0.last.toNat ++ bytesOf 8 t.loop0.cnt.toNat
    ++ bytesOf 8 t.loop1.beg.toNat ++ bytesOf 8 t.loop1.last.toNat ++ bytesOf 8 t.loop1.cnt.toNat

/-- Whether the fault record of the thread at hand meets an uncorrectable error in the slice (R21). -/
def State.recordBad (s : State) : Bool :=
  let lo := s.th.slot * 0x4000 + s.th.usave.toNat
  s.badLoc.any (fun e => lo ≤ e.1 && e.1 < lo + 128)

/-- Whether a cause is reported and not delivered (R21). With status.uact 1 every cause is: also the 0x08 of an attribute split found at
issue, which R23 has always precise (DESIGN CHOICE, the log's entry 65). -/
def State.reported (s : State) (cause : Nat) : Bool :=
  cause == 0x0A || s.recordBad || s.th.uvec == 0 || s.th.uact || 0x3A00 < s.th.usave.toNat + 128

/-- Enters the thread's handler for a cause at an instruction address (R22): the fault record is written, epc, cause
and tval are set, the loop state is cleared and status.uact set. The records held now belong to the interrupted
code (R298). -/
def State.deliver (s : State) (a : Word) (cause : Nat) (tval : Word) (records parked : Bool) : State :=
  let t := s.th
  let s := (s.writeLoc t.owner t.usave.toNat (faultRecord t a cause tval records parked)).settleLoc (t.slot * 0x4000 + t.usave.toNat) 128
  { s with th := { s.th with
      epc := a
      cause := BitVec.ofNat 64 cause
      tval := tval
      loop0 := Loop.none
      loop1 := Loop.none
      uact := true
      pc := pcBits t.uvec
      held := t.held.map (fun h => { h with late := false })
      acc := t.acc.map (fun c => { c with stuck := c.stuck.map (fun w => { w with late := false }) })
      swWait := none
      stalled := false
      relWait := none
      latched := none } }

/-- Takes a cause at an instruction address: an open packet is aborted (R142), and the cause is reported or delivered
(R21, R22). This is the one way into an exception. -/
def State.upcall (s : State) (a : Word) (cause : Nat) (tval : Word) (records : Bool) : State :=
  let parked := s.th.held.any (·.parked)
  let s := s.abortPacket.leaveMown.leaveMma
  if s.reported cause then s.report cause tval.toNat else s.deliver a cause tval records parked

/-- A precise trap: the instruction at hand has no effect, and its cause is taken at its own address (R20, R22). -/
def State.trap (s : State) (cause tval : Nat) : State := s.upcall s.th.pc cause (BitVec.ofNat 64 tval) false

/-- A trap of an instruction whose cause has the instruction's word as its qualifier (R23). -/
def State.trapWord (s : State) (cause : Nat) (i : Instr) : State := s.trap cause i.word

/-- The upcall that the held records raise, at the boundary before the instruction at the PC: its cause and qualifier
are those of the first record (R296). -/
def State.upcallRecords (s : State) : State :=
  match s.th.held with
  | [] => s
  | h :: _ => s.upcall s.th.pc h.cause (BitVec.ofNat 64 h.va) true

/-- The upcall of the oldest engine notice, which leaves the queue (R302). -/
def State.upcallNotice (s : State) : State :=
  let w := s.th.noticeWord
  match s.th.notices with
  | [] => s
  | _ :: r => { s with th := { s.th with notices := r } }.upcall s.th.pc 0x16 w false

/-- Whether the thread waits in an instruction that is not interruptible (R322): it has latched nothing but the wait. -/
def Thread.pinned (t : Thread) : Bool := t.latched == some []

/-- What is due at a boundary of a thread where status.uact is 0: unparked records, then a notice (R20). -/
def Thread.due (t : Thread) : Bool := !t.uact && !t.pinned && (t.held.any (fun h => !h.parked) || !t.notices.isEmpty)

/-- What is due at a boundary of the thread at hand (R20). -/
def State.boundaryDue (s : State) : Bool := s.th.due

/-- Takes what is due at a boundary (R20). -/
def State.boundary (s : State) : State :=
  if s.th.uact then s
  else if s.th.held.any (fun h => !h.parked) then s.upcallRecords
  else s.upcallNotice

/-! ### Waits -/

/-- How a wait stands: it may go on, it finds nothing changed, or something was taken at the instruction. -/
inductive Wait where
  | go
  | stall
  | taken (s : State)

/-- The held records, and the faults held back, that an instruction of the thread at hand can wait for (R297, R298): the
handler waits for none that its fault record lists. -/
def State.ownWhy (s : State) : List (Option AccOp × Why) :=
  let hs := s.th.held.filter (fun h => !s.th.uact || h.late)
  let ss := s.th.acc.filterMap (fun a => a.stuck.bind (fun w => if s.th.uact && !w.late then none else some (some a.op, w)))
  hs.map (fun h => (match h.what with | .acc a => some a.op | _ => none, ⟨h.cause, h.va, h.write, h.late⟩)) ++ ss

/-- An instruction that must wait for a held record: every parked record is unparked and the upcall taken at the
instruction (R299); in a handler the cause is reported (R298). -/
def State.takeParked (s : State) (w : Why) : State :=
  if s.th.uact then s.report w.cause w.va
  else
    let u := s.upcallRecords
    { u with th := { u.th with held := u.th.held.map (fun h => { h with parked := false }) } }

/-- The wait of a release: every earlier access of the thread is performed, and none is held as a record (R166, R193).
Records that R298 excludes are not waited for. -/
def State.releaseWait (s : State) : Wait :=
  match (s.ownWhy.filter (fun p => p.1.isSome)).head? with
  | some p => .taken (s.takeParked p.2)
  | none => if s.th.acc.all (fun a => a.stuck.isSome) then .go else .stall

/-- What a wait makes of an instruction. -/
def Wait.run (w : Wait) (s : State) (f : State → State) : State :=
  match w with
  | .go => f s
  | .stall => s.stall
  | .taken s => s

/-- Words of host and peer memory with a write of some threads that has not been acknowledged there: a cache of the device still has it,
or it is on its way (R166, R353). -/
def State.outsideOf (s : State) (p : Past → Bool) : List Nat :=
  ((s.memPast.filter (fun e => isOutside (e.1 / 2 * 8) && e.2.any (fun r => p r && r.path.isSome
    && (r.far.isNone || (e.1 % 2 == 1 && (Tab.find s.regs (e.1 / 2)).isSome))))).map (·.1 / 2)).eraseDups

/-- The words there that the thread at hand has written, by itself or by commands whose writes are its own. -/
def State.outsideWords (s : State) : List Nat := s.outsideOf (·.ownOf (s.th.view .core))

/-- Writes words through to the memory of the host or a peer (R353). -/
def State.through (s : State) (ws : List Nat) : State := ws.foldl State.recall s

/-- Writes through what the thread at hand has written there. -/
def State.throughOutside (s : State) : State := s.through s.outsideWords

/-- The release of a scope where every earlier access is performed (R166, R187). At system scope it waits for the acknowledgement of the
host and the peers that the thread has written to (R353), whenever that comes; the answer tells whether it is done. -/
def State.tryRelease (s : State) (o : Order) : Bool × State :=
  if o = .sys ∧ !s.outsideWords.isEmpty then
    let (acked, s) := s.drawBit
    (acked, if acked then s.throughOutside.released o else s)
  else (true, s.released o)

/-- Goes on by `f` behind a release at a scope; `wait` is what becomes of the instruction meanwhile. -/
def State.releaseTo (s : State) (o : Order) (wait f : State → State) : State :=
  match s.releaseWait with
  | .stall => wait s
  | .taken s => s
  | .go =>
    let (done, s) := s.tryRelease o
    if done then f s else wait s

/-- Runs an instruction behind a release at a scope, which also performs earlier writes at that scope (R166, R187); a plain
access releases nothing. -/
def State.afterRelease (s : State) (o : Order) (f : State → State) : State :=
  if o = .plain then f s else s.releaseTo o (fun s => s.stall.inRelease o) f

/-- An acquire that has not been performed holds back every later access of the thread (R166). -/
def Thread.acquiring (t : Thread) : Bool := t.acc.any (fun a => a.acq && a.stuck.isNone)

/-- Runs a later core-path access once no acquire is in flight (R166, R184). -/
def State.whenFree (s : State) (f : State → State) : State := if s.th.acquiring then s.stall else f s

/-- Runs an instruction that has read a record behind a release at a scope; it keeps the record while it waits. -/
def State.afterReleaseWith (s : State) (o : Order) (bs : List Byte) (f : State → State) : State :=
  s.releaseTo o (fun s => (s.stallWith bs).inRelease o) f

/-! ### Posting -/

/-- Puts a record in its place in program order (R295). -/
def insertHeld (h : Held) : List Held → List Held
  | [] => [h]
  | g :: r => if h.seq < g.seq then h :: g :: r else g :: insertHeld h r

/-- Posts a replay record for the thread at hand, if one of its 8 places is free (R297). -/
def State.postRecord (s : State) (what : Redo) (w : Why) (engine : Bool) (seq : Nat) : Option State :=
  if 8 ≤ s.th.held.length then none
  else some { s with th := { s.th with held := insertHeld ⟨what, w.cause, w.va, w.write, engine, false, w.late, seq⟩ s.th.held } }

/-- Posts a notice to the slot of an issuer; where all 16 places are taken it waits for one (R302). The answer tells
whether it was posted. -/
def State.postNotice (s : State) (o : Owner) (w : Word) : Bool × State :=
  match s.issuer o with
    | none => (true, s)
    | some t =>
      if t.notices.length < 16 then (true, s.putThread { t with notices := t.notices ++ [w], stalled := false })
      else (false, s.putThread { t with heldNotices := t.heldNotices ++ [w] })

/-- A notice's word: cause, side, path and detail (R302). -/
def noticeOf (path side cause detail : Nat) : Word :=
  BitVec.ofNat 64 (cause + 256 * side + 4096 * path + 2 ^ 32 * detail)

/-! ### Holding -/

/-- Whether two accesses touch a common byte, by their virtual addresses: two pages that map one frame count as two places here (R18;
DESIGN CHOICE, the log's entry 64). -/
def Access.overlaps (a b : Access) : Bool := a.va < b.va + b.op.bytes && b.va < a.va + a.op.bytes

/-- Whether a replayed access makes its release when it is performed (R301): of one that is not replayed, the release came before its
issue. -/
def Access.releases (a : Access) : Bool :=
  a.gen.isSome && match a.op with
    | .st _ | .stv => a.scope != .plain
    | .amo .. | .cas _ => a.acq
    | .ld .. | .ldv | .nmstat | .pclr => false

/-- The earlier access to the same bytes that is held as a record, or held back: a later access of the same code keeps
its order behind it by being held with it (R18, R194); so does a replayed one that releases, behind any (R193). -/
def Thread.behind (t : Thread) (a : Access) : Option Why :=
  let before (b : Access) : Bool := b.hand == a.hand && (b.overlaps a || a.releases)
  let held := t.held.findSome? (fun h => match h.what with
    | .acc b => if h.seq < a.seq && before b then some ⟨h.cause, h.va, h.write, t.uact⟩ else none
    | _ => none)
  match held with
  | some w => some w
  | none => t.acc.findSome? (fun b =>
      if b.seq < a.seq && before b then b.stuck.map (fun w => { w with late := t.uact }) else none)

/-- Takes an access out of flight. -/
def State.dropAccess (s : State) (a : Access) : State :=
  { s with th := { s.th with acc := s.th.acc.filter (fun b => b.seq ≠ a.seq) } }

/-- An access that cannot be performed becomes a replay record, or is held back while every place is full (R297). -/
def State.holdAccess (s : State) (a : Access) (w : Why) : State :=
  match (s.dropAccess a).postRecord (.acc { a with gen := none, stuck := none }) w false a.seq with
  | some s => s
  | none => { s with th := { s.th with acc := s.th.acc.map (fun b => if b.seq = a.seq then { b with stuck := some w } else b) } }

/-- The accesses in flight that must stay behind a held record are held with it. -/
def State.holdBehind (s : State) : State :=
  s.th.acc.foldl (fun s a => if a.stuck.isSome then s else match s.th.behind a with
    | some w => s.holdAccess a { w with write := a.op.kind.writes }
    | none => s) s

/-! ### Returning -/

/-- An item that carries the page-table generation of its `uret.replay` (R301, R321). -/
def Redo.stamp (g : BitVec 32) : Redo → Redo
  | .acc a => .acc { a with gen := some g }
  | .copy c => .copy { c with gen := some g }
  | .drain _ => .drain (some g)
  | .table c => .table { c with gen := some g }
  | .nm m => .nm { m with gen := some g }

/-- Sends one replayed item again, behind every access in flight; none while its queue is full (R301). -/
def State.sendAgain (s : State) (h : Held) : Option State :=
  let t := s.th
  match h.what with
  | .acc a =>
    if (a.op.isLoad ∧ 16 ≤ s.counter t .lc) ∨ (a.op.isStore ∧ 32 ≤ s.counter t .sc) then none
    else some { s with th := { t with acc := t.acc ++ [{ a with stuck := none }] } }
  | .copy c =>
    let core := coreOf t.slot
    if 16 ≤ (s.copyQueue core).length ∨ 4 ≤ s.counter t .yc then none
    else some { s with copyQ := Tab.put s.copyQ core (s.copyQueue core ++ [{ c with owner := t.owner, view := t.view .copy }]) }
  | .drain gen =>
    let core := coreOf t.slot
    some (s.putUnit core { s.unitOf core with held := false, gen := gen })
  | .table c =>
    if 16 ≤ s.counter t .tc then none else some { s with tableQ := s.tableQ ++ [{ c with owner := t.owner, view := t.view .table }] }
  | .nm m =>
    if 8 ≤ s.counter t .nc then none else some { s with nmQ := s.nmQ ++ [{ m with owner := t.owner, view := t.view .nm }] }

/-- Sends the replayed items again in program order, as far as their queues accept them (R301). -/
def State.pump (s : State) : List Held → State
  | [] => { s with th := { s.th with redo := [] } }
  | h :: r =>
    match s.sendAgain h with
    | some s => s.pump r
    | none => { s with th := { s.th with redo := h :: r } }

/-- The loop state in a fault record (R295), as `uret` restores it (R300). -/
def recordLoops (f : List Byte) : Loop × Loop :=
  let w (k : Nat) : Word := BitVec.ofNat 64 (natOf ((f.drop k).take 8))
  let flags := natOf ((f.drop 72).take 8)
  let even (v : Word) : Word := v &&& ~~~1#64
  (⟨even (w 80), even (w 88), w 96, flags % 2 == 1⟩, ⟨even (w 104), even (w 112), w 120, flags / 2 % 2 == 1⟩)

/-- `uret` and `uret.replay` (R300, R301): the loop state of the fault record comes back, status.uact is cleared, the
listed records are parked or every held record is sent again, and the thread goes on at sr.epc. Where the handler has set sr.usave to
0x3FC0, what the record's place lacks past the end of the slice reads as 0 (DESIGN CHOICE, the log's entry 66). -/
def State.uret (s : State) (i : Instr) (replay : Bool) : State :=
  let t := s.th
  if !t.uact then s.trapWord 0x01 i
  else
    let f := s.readLoc t.owner t.usave.toNat 128
    let (l0, l1) := recordLoops f
    if l1.flag ∧ !l0.flag then s.trapWord 0x11 i
    else if t.epc.getLsbD 0 then s.trap 0x04 t.epc.toNat
    else if 2 ^ 56 ≤ t.epc.toNat then s.trap 0x07 t.epc.toNat
    else
      let u := { t with loop0 := l0, loop1 := l1, uact := false, pc := pcBits t.epc }
      if replay then
        let s := { s with th := u }.holdBehind
        ({ s with th := { s.th with held := [] } }.count).pump
          (s.th.held.map (fun (h : Held) => { h with what := h.what.stamp s.gd }))
      else { s with th := { u with held := t.held.map (fun (h : Held) => if h.late then { h with late := false } else { h with parked := true }) } }.count

end Sys2Proof.Machine
end

