-- ==== Sys2Proof/Machine/Fetch.lean ====
section
/-!
DEFINITION. Sys2Proof/Machine/Fetch.lean: fetching an instruction's halfwords through the core's instruction cache
(R17, R19), and what an instruction word found there does before its meaning: the decode causes (R26), the
registers still in flight (R84) and the limit of an open packet (R142).
-/
namespace Sys2Proof.Machine

/-- Room in a core's instruction cache for a halfword: where its 512 lines are taken, one of them, whichever, is dropped
(R2, R17). -/
def State.icacheRoom (s : State) (core k : Nat) : State :=
  let ls := ((s.icache.filter (fun e => icCore e.1 == core)).map (fun e => e.1 / 32)).eraseDups
  if ls.contains (k / 32) || ls.length < 512 then s
  else
    let (n, s) := s.drawNat
    let gone := ls.getD (n % ls.length) 0
    { s with icache := s.icache.filter (fun e => e.1 / 32 ≠ gone) }

/-- The aligned word at an address, as a fetch of the thread at hand finds it (R19). -/
def State.codeWord (s : State) (key : Nat) (tracked : Bool) (pa : Nat) : Word :=
  let past := (Tab.get s.memPast (pastKey tracked pa) []).takeWhile (·.key == key)
  let since := s.codeSince (coreOf s.th.slot)
  seenWord (·.fetched (s.th.view .core) since s.now) 0 past (s.wordNow key tracked pa)

/-- Fetches the halfword at an address: a copy that the instruction cache may still hold, or what a fetch finds in memory; a fault
gives its cause and qualifier, and is precise (R17, R19, R316). A line that is filled may have come from a memory controller (R364). -/
def State.fetchHalf (s : State) (va : Nat) : Except (Nat × Nat) (BitVec 16) × State :=
  let t := s.th
  let k := icKey (coreOf t.slot) t.ident.vf va
  let ask (s : State) : Except (Nat × Nat) (BitVec 16) × State :=
    match s.translate (t.owner.req .fetch none) va with
    | (.wait, s) => (.error (0x06, va), s)
    | (.bad c, s) => (.error (c, va), s)
    | (.ok p, s) =>
      match s.poisonedIn p.pa 2 with
      | some _ => (.error (0x09, va), s)
      | none =>
        match s.badIn p.pa 2 with
        | some pa => (.error (0x0A, pa), s)
        | none =>
          let s := if p.tracked then s else s.perhapsEvicted p.pa 2
          let w := s.codeWord (s.keyFor t.ident.vf p.tracked p.pa) p.tracked p.pa
          let h := w.extractLsb' (8 * (p.pa % 8)) 16
          let s := (s.useHbm t.ident.vf { p with tracked := true } 64).icacheRoom (coreOf t.slot) k
          (.ok h, { s with icache := Tab.put s.icache k h })
  match Tab.find s.icache k with
  | none => ask s
  | some h =>
    let (kept, s) := s.drawBit
    if kept then (.ok h, s) else ask s

/-- Fetches the instruction at the PC as its bits from the first halfword up: one halfword, two, or for a modifier word
those of the instruction after it as well (R17, R37). -/
def State.fetch (s : State) : Except (Nat × Nat) Nat × State :=
  let pc := s.th.pc.toNat
  match s.fetchHalf pc with
  | (.error e, s) => (.error e, s)
  | (.ok h0, s) =>
    if h0.toNat % 2 = 0 then (.ok h0.toNat, s)
    else match s.fetchHalf (s.pcPlus 2).toNat with
      | (.error e, s) => (.error e, s)
      | (.ok h1, s) =>
        let w := h0.toNat + 65536 * h1.toNat
        if major w ≠ 0x30 then (.ok w, s)
        else match s.fetchHalf (s.pcPlus 4).toNat with
          | (.error e, s) => (.error e, s)
          | (.ok h2, s) =>
            if h2.toNat % 2 = 0 then (.ok (w + 2 ^ 32 * h2.toNat), s)
            else match s.fetchHalf (s.pcPlus 6).toNat with
              | (.error e, s) => (.error e, s)
              | (.ok h3, s) => (.ok (w + 2 ^ 32 * (h2.toNat + 65536 * h3.toNat)), s)

/-- The x registers an instruction reads or writes, for the interlock of R84 and R107. -/
def xRegsOf : Instr → List Reg
  | .add d a b => [d, a, b]
  | .sub d a b => [d, a, b]
  | .and d a b => [d, a, b]
  | .or d a b => [d, a, b]
  | .xor d a b => [d, a, b]
  | .andn d a b => [d, a, b]
  | .shl d a b => [d, a, b]
  | .shr d a b => [d, a, b]
  | .sra d a b => [d, a, b]
  | .slt d a b => [d, a, b]
  | .sltz d a b => [d, a, b]
  | .min d a b => [d, a, b]
  | .max d a b => [d, a, b]
  | .minz d a b => [d, a, b]
  | .maxz d a b => [d, a, b]
  | .sel d a b c => [d, a, b, c]
  | .addw d a b => [d, a, b]
  | .subw d a b => [d, a, b]
  | .rotl d a b => [d, a, b]
  | .rotr d a b => [d, a, b]
  | .addi d a _ => [d, a]
  | .andi d a _ => [d, a]
  | .ori d a _ => [d, a]
  | .xori d a _ => [d, a]
  | .shli d a _ => [d, a]
  | .shri d a _ => [d, a]
  | .srai d a _ => [d, a]
  | .slti d a _ => [d, a]
  | .sltzi d a _ => [d, a]
  | .lim d _ => [d]
  | .lpc d _ => [d]
  | .clz _ d a => [d, a]
  | .ctz _ d a => [d, a]
  | .ffs _ d a => [d, a]
  | .popc _ d a => [d, a]
  | .rev d a => [d, a]
  | .bswap d a => [d, a]
  | .bext d a b c => [d, a, b, c]
  | .bins d a b c => [d, a, b, c]
  | .mul d a b => [d, a, b]
  | .mulh d a b => [d, a, b]
  | .mulhz d a b => [d, a, b]
  | .mulhsz d a b => [d, a, b]
  | .div d a b => [d, a, b]
  | .divz d a b => [d, a, b]
  | .rem d a b => [d, a, b]
  | .remz d a b => [d, a, b]
  | .mulw d a b => [d, a, b]
  | .beq a b _ => [a, b]
  | .bne a b _ => [a, b]
  | .blt a b _ => [a, b]
  | .bge a b _ => [a, b]
  | .blo a b _ => [a, b]
  | .bhs a b _ => [a, b]
  | .jal d _ => [d]
  | .jalr d a _ => [d, a]
  | .loop a _ => [a]
  | .ldg _ _ _ d a _ => [d, a]
  | .stg _ _ d a _ => [d, a]
  | .ldgV _ _ a _ => [a]
  | .stgV _ _ a _ => [a]
  | .ldl _ _ _ d a _ => [d, a]
  | .stl _ _ d a _ => [d, a]
  | .ldlV _ _ a _ => [a]
  | .stlV _ _ a _ => [a]
  | .amoAdd _ _ d a b => [d, a, b]
  | .amoAnd _ _ d a b => [d, a, b]
  | .amoOr _ _ d a b => [d, a, b]
  | .amoXor _ _ d a b => [d, a, b]
  | .amoMin _ _ d a b => [d, a, b]
  | .amoMax _ _ d a b => [d, a, b]
  | .amoMinz _ _ d a b => [d, a, b]
  | .amoMaxz _ _ d a b => [d, a, b]
  | .amoSwap _ _ d a b => [d, a, b]
  | .cas _ _ d a b => [d, a, b]
  | .amolAdd _ d a b => [d, a, b]
  | .amolAnd _ d a b => [d, a, b]
  | .amolOr _ d a b => [d, a, b]
  | .amolXor _ d a b => [d, a, b]
  | .amolMin _ d a b => [d, a, b]
  | .amolMax _ d a b => [d, a, b]
  | .amolMinz _ d a b => [d, a, b]
  | .amolMaxz _ d a b => [d, a, b]
  | .amolSwap _ d a b => [d, a, b]
  | .swinit a b => [a, b]
  | .swadd a b => [a, b]
  | .swwait a b => [a, b]
  | .swget d a => [d, a]
  | .swcnt d a => [d, a]
  | .mopen a b c => [a, b, c]
  | .mput b => [b]
  | .mputE b => [b]
  | .gbar d a => [d, a]
  | .gbarAnd d a => [d, a]
  | .gbarOr d a => [d, a]
  | .gbarAdd d a => [d, a]
  | .gbarMax d a => [d, a]
  | .gbarMin d a => [d, a]
  | .launch d a => [d, a]
  | .exit a => [a]
  | .sys a => [a]
  | .srd d _ => [d]
  | .swr _ a => [a]
  | .modifierWord .. => []
  | .vcmpEq _ d _ _ => [d]
  | .vcmpLt _ d _ _ => [d]
  | .vcmpLe _ d _ _ => [d]
  | .vcmpNe _ d _ _ => [d]
  | .vsel _ _ _ b => [b]
  | .vq8 _ d _ b => [d, b]
  | .vdq8 _ _ _ b => [b]
  | .vamax _ d _ => [d]
  | .vbcast _ _ a => [a]
  | .vins _ _ a _ => [a]
  | .vext _ d _ _ => [d]
  | .sbind _ a => [a]
  | .seos _ a => [a]
  | .sstat d _ => [d]
  | .tql _ _ b => [b]
  | .tqlatch a => [a]
  | .tqd a => [a]
  | .tqmac a => [a]
  | .tqread a => [a]
  | .cpy _ _ c => [c]
  | .cpyq d => [d]
  | .mcfg a => [a]
  | .mmaBf16 a b => [a, b]
  | .mmaD8 a b c => [a, b, c]
  | .mmaF16 a b => [a, b]
  | .epcfg a => [a]
  | .epgo a => [a]
  | .lease d a => [d, a]
  | .nmsend a => [a]
  | .nmresume a => [a]
  | .nmload a => [a]
  | .nmstat d a => [d, a]
  | .ixnear a => [a]
  | .ixstore a => [a]
  | .ixstoreRel a => [a]
  | .ixdel a => [a]
  | .ixsnap d a => [d, a]
  | .ixstat d a => [d, a]
  | .ixcreate d a => [d, a]
  | .tscoreSet a => [a]
  | .tscoreMax a => [a]
  | .tscoreMin a => [a]
  | .tscoreAdd a => [a]
  | .trinfo d a => [d, a]
  | .pinv a => [a]
  | .pswap a b => [a, b]
  | .pclr a => [a]
  | .pgen a => [a]
  | .loopi .. | .cwait .. | .xfence .. | .mputV .. | .mputVe .. | .yield | .brk | .uret | .uretReplay |
    .vadd .. | .vsub .. | .vmul .. | .vmax .. | .vmin .. | .vand .. | .vor .. | .vxor .. | .vdiv .. | .vsqrt
    .. | .vrcp .. | .vrsq .. | .vexp2 .. | .vlog2 .. | .vshl .. | .vshr .. | .vsra .. | .vabs .. | .vneg ..
    | .vmov .. | .vadd16 .. | .vsub16 .. | .vmul16 .. | .vmax16 .. | .vmin16 .. | .vmov16 .. | .vabs16 .. |
    .vneg16 .. | .vand16 .. | .vor16 .. | .vxor16 .. | .vrcp16 .. | .vrsq16 .. | .vexp216 .. | .vbcast0 .. |
    .vzero .. | .vredadd .. | .vredmax .. | .vredmin .. | .vperm .. | .vdot .. | .vcvt .. | .vmvx .. | .vfma
    .. | .vfms .. | .vfnma .. | .vfnms .. | .sunbind .. | .mown | .mrel | .mringAdv | .mringClr | .unlease |
    .mli .. | .mld .. | .mst .. | .mrdrowRead .. | .mrdrowWrite .. | .mrdrowZero .. | .mrdrowCopy .. | .madd
    .. | .msub .. | .mand .. | .mor .. | .mxor .. | .mshl .. | .mshr .. | .mmul .. | .mmax .. | .maccAdd ..
    | .maccRead .. | .mbfw .. | .mbfwZero .. | .mfin .. | .udf .. | .loadReturn | .storePerform |
    .heldFaultPost | .atomicPerform | .syncWordWake | .messageLanding | .packetCount | .barrierComplete |
    .launchReplicate | .completionBlockUpdate | .tqlatchExec | .tqmacExec | .tqdExec | .tqreadExec |
    .copyCommand | .heldNoticePost | .mmaComplete | .tileDrain | .leaseExpiry | .nmuMessageArrival |
    .rowCopy | .rowZero | .indexedReduce | .tableGather | .tableMac | .accumulatorRead | .accumulatorClear |
    .statusHandler | .loadedHandlerStart | .handlerTimeout | .nmresumeApply | .handlerLoad |
    .indexQueryAccept | .indexSearchEnd | .indexStoreCommit | .indexDeleteCommit | .indexSnapshotAccept |
    .indexStatAccept | .indexCreate | .indexDestroy | .allowanceExhausted | .roundEnd | .generationNotice |
    .upcallDelivery | .bindRecord | .resumeRecord | .stopRecord | .frameCopyDone | .threadStop |
    .saveComplete | .saveDrainTimeout | .slotSpill | .clusterZeroingDone | .gangReservation | .scannerPage |
    .scannerWriteDone | .budgetPeriodStart | .securityAlarm | .burstPause | .burstResume | .sliceRetention |
    .hostLaunchWindowWrite | .reportRequest | .reportReady | .registerWrite | .hostCxlMemAccess |
    .functionLevelReset | .fabricAckTimeout | .coreFailure | .coreOutOfService | .identityRotation | .boot |
    .coreReturnToService | .quarantineLift | .budgetChange | .fabricPeerAccess | .conventionalReset => []

/-- The f register that stands for a stream (R95). -/
def streamReg (k : Fin 4) : Reg := ⟨k.val + 28, by omega⟩

/-- The f registers an instruction reads or writes; the stream instructions name the register of their stream. -/
def fRegsOf : Instr → List Reg
  | .ldgV _ d _ _ => [d]
  | .stgV _ d _ _ => [d]
  | .ldlV _ d _ _ => [d]
  | .stlV _ d _ _ => [d]
  | .mputV b => [b]
  | .mputVe b => [b]
  | .vadd _ d a b => [d, a, b]
  | .vsub _ d a b => [d, a, b]
  | .vmul _ d a b => [d, a, b]
  | .vmax _ d a b => [d, a, b]
  | .vmin _ d a b => [d, a, b]
  | .vand _ d a b => [d, a, b]
  | .vor _ d a b => [d, a, b]
  | .vxor _ d a b => [d, a, b]
  | .vdiv _ d a b => [d, a, b]
  | .vsqrt _ d a => [d, a]
  | .vrcp _ d a => [d, a]
  | .vrsq _ d a => [d, a]
  | .vexp2 _ d a => [d, a]
  | .vlog2 _ d a => [d, a]
  | .vshl _ d a b => [d, a, b]
  | .vshr _ d a b => [d, a, b]
  | .vsra _ d a b => [d, a, b]
  | .vabs _ d a => [d, a]
  | .vneg _ d a => [d, a]
  | .vmov _ d a => [d, a]
  | .vadd16 _ d b => [d, b]
  | .vsub16 _ d b => [d, b]
  | .vmul16 _ d b => [d, b]
  | .vmax16 _ d b => [d, b]
  | .vmin16 _ d b => [d, b]
  | .vmov16 d b => [d, b]
  | .vabs16 _ d b => [d, b]
  | .vneg16 _ d b => [d, b]
  | .vand16 d b => [d, b]
  | .vor16 d b => [d, b]
  | .vxor16 d b => [d, b]
  | .vrcp16 _ d b => [d, b]
  | .vrsq16 _ d b => [d, b]
  | .vexp216 _ d b => [d, b]
  | .vbcast0 _ d b => [d, b]
  | .vzero d => [d]
  | .modifierWord .. => []
  | .vcmpEq _ _ a b => [a, b]
  | .vcmpLt _ _ a b => [a, b]
  | .vcmpLe _ _ a b => [a, b]
  | .vcmpNe _ _ a b => [a, b]
  | .vsel _ d a _ => [d, a]
  | .vredadd _ d a => [d, a]
  | .vredmax _ d a => [d, a]
  | .vredmin _ d a => [d, a]
  | .vperm _ d a b => [d, a, b]
  | .vdot _ d a b => [d, a, b]
  | .vcvt _ _ d a => [d, a]
  | .vq8 _ _ a _ => [a, 31]
  | .vdq8 _ d a _ => [d, a]
  | .vamax _ _ a => [a]
  | .vbcast _ d _ => [d]
  | .vins _ d _ _ => [d]
  | .vext _ _ a _ => [a]
  | .vmvx d a _ => [d, a]
  | .vfma _ d a b c => [d, a, b, c]
  | .vfms _ d a b c => [d, a, b, c]
  | .vfnma _ d a b c => [d, a, b, c]
  | .vfnms _ d a b c => [d, a, b, c]
  | .tql d a _ => [d, a]
  | .sbind k _ => [streamReg k]
  | .seos k _ => [streamReg k]
  | .sstat _ k => [streamReg k]
  | .sunbind k => [streamReg k]
  | .cpy a b _ => [a, a + 1, a + 2, b, b + 1, b + 2]
  | .add .. | .sub .. | .and .. | .or .. | .xor .. | .andn .. | .shl .. | .shr .. | .sra .. | .slt .. |
    .sltz .. | .min .. | .max .. | .minz .. | .maxz .. | .sel .. | .addw .. | .subw .. | .rotl .. | .rotr ..
    | .addi .. | .andi .. | .ori .. | .xori .. | .shli .. | .shri .. | .srai .. | .slti .. | .sltzi .. |
    .lim .. | .lpc .. | .clz .. | .ctz .. | .ffs .. | .popc .. | .rev .. | .bswap .. | .bext .. | .bins .. |
    .mul .. | .mulh .. | .mulhz .. | .mulhsz .. | .div .. | .divz .. | .rem .. | .remz .. | .mulw .. | .beq
    .. | .bne .. | .blt .. | .bge .. | .blo .. | .bhs .. | .jal .. | .jalr .. | .loop .. | .loopi .. | .ldg
    .. | .stg .. | .ldl .. | .stl .. | .amoAdd .. | .amoAnd .. | .amoOr .. | .amoXor .. | .amoMin .. |
    .amoMax .. | .amoMinz .. | .amoMaxz .. | .amoSwap .. | .cas .. | .amolAdd .. | .amolAnd .. | .amolOr ..
    | .amolXor .. | .amolMin .. | .amolMax .. | .amolMinz .. | .amolMaxz .. | .amolSwap .. | .cwait .. |
    .xfence .. | .swinit .. | .swadd .. | .swwait .. | .swget .. | .swcnt .. | .mopen .. | .mput .. | .mputE
    .. | .gbar .. | .gbarAnd .. | .gbarOr .. | .gbarAdd .. | .gbarMax .. | .gbarMin .. | .launch .. | .exit
    .. | .yield | .sys .. | .brk | .uret | .uretReplay | .srd .. | .swr .. | .tqlatch .. | .tqd .. | .tqmac .. | .tqread .. | .cpyq .. | .mown | .mrel | .mcfg ..
    | .mmaBf16 .. | .mmaD8 .. | .mmaF16 .. | .mringAdv | .mringClr | .epcfg .. | .epgo .. | .lease .. |
    .unlease | .nmsend .. | .nmresume .. | .nmload .. | .nmstat .. | .mli .. | .mld .. | .mst .. |
    .mrdrowRead .. | .mrdrowWrite .. | .mrdrowZero .. | .mrdrowCopy .. | .madd .. | .msub .. | .mand .. |
    .mor .. | .mxor .. | .mshl .. | .mshr .. | .mmul .. | .mmax .. | .maccAdd .. | .maccRead .. | .mbfw .. |
    .mbfwZero .. | .mfin .. | .ixnear .. | .ixstore .. | .ixstoreRel .. | .ixdel .. | .ixsnap .. | .ixstat
    .. | .ixcreate .. | .tscoreSet .. | .tscoreMax .. | .tscoreMin .. | .tscoreAdd .. | .trinfo .. | .pinv
    .. | .pswap .. | .pclr .. | .pgen .. | .udf .. | .loadReturn | .storePerform | .heldFaultPost |
    .atomicPerform | .syncWordWake | .messageLanding | .packetCount | .barrierComplete | .launchReplicate |
    .completionBlockUpdate | .tqlatchExec | .tqmacExec | .tqdExec | .tqreadExec | .copyCommand |
    .heldNoticePost | .mmaComplete | .tileDrain | .leaseExpiry | .nmuMessageArrival | .rowCopy | .rowZero |
    .indexedReduce | .tableGather | .tableMac | .accumulatorRead | .accumulatorClear | .statusHandler |
    .loadedHandlerStart | .handlerTimeout | .nmresumeApply | .handlerLoad | .indexQueryAccept |
    .indexSearchEnd | .indexStoreCommit | .indexDeleteCommit | .indexSnapshotAccept | .indexStatAccept |
    .indexCreate | .indexDestroy | .allowanceExhausted | .roundEnd | .generationNotice | .upcallDelivery |
    .bindRecord | .resumeRecord | .stopRecord | .frameCopyDone | .threadStop | .saveComplete |
    .saveDrainTimeout | .slotSpill | .clusterZeroingDone | .gangReservation | .scannerPage |
    .scannerWriteDone | .budgetPeriodStart | .securityAlarm | .burstPause | .burstResume | .sliceRetention |
    .hostLaunchWindowWrite | .reportRequest | .reportReady | .registerWrite | .hostCxlMemAccess |
    .functionLevelReset | .fabricAckTimeout | .coreFailure | .coreOutOfService | .identityRotation | .boot |
    .coreReturnToService | .quarantineLift | .budgetChange | .fabricPeerAccess | .conventionalReset => []

/-- Whether an access writes an x register that `r` names. -/
def AccOp.writesX : AccOp → Bool
  | .ld .. | .amo .. | .cas .. | .nmstat => true
  | .ldv | .st .. | .stv | .pclr => false

/-- The instruction whose registers count: of a modifier pair, the one that the word prefixes (R37). -/
def pairBody : Instr → Instr
  | .modifierWord m f => (match decWord f.toNat with | .ok j => j | .error _ => .modifierWord m f)
  | i => i

/-- Whether an access's destination is a register that an instruction uses. -/
def Access.hits (a : Access) (i : Instr) : Bool :=
  (a.op.writesX && a.reg ≠ 0 && (xRegsOf (pairBody i)).contains a.reg) || (a.op == .ldv && (fRegsOf (pairBody i)).contains a.reg)

/-- The fault of an access that the handler itself has made, held or held back, whose destination an instruction of the
handler names (R298). -/
def Thread.handFault (t : Thread) (i : Instr) : Option Why :=
  let held := t.held.findSome? (fun h => match h.what with
    | .acc a => if h.late && a.hand && a.hits i then some ⟨h.cause, h.va, h.write, true⟩ else none
    | _ => none)
  match held with
  | some w => some w
  | none => t.acc.findSome? (fun a => a.stuck.bind (fun w => if w.late && a.hand && a.hits i then some w else none))

/-- The wait of an instruction for the registers still in flight (R84, R107): a load, an atomic, `nmstat`, `ixsnap` or
`ixstat` not yet performed. A fault that is held does not hold its register while a handler runs, but for one of the handler's
own accesses, whose cause is then reported (R298). -/
def State.interlock (s : State) (i : Instr) : Wait :=
  match (if s.th.uact then s.th.handFault i else none) with
  | some w => .taken (s.report w.cause w.va)
  | none =>
    if s.th.acc.any (fun a => a.hits i && (a.stuck.isNone || !s.th.uact)) then .stall
    else if s.ixQ.any (fun c => c.owner.isOf s.th && (c.op == .snap || c.op == .stat) && c.reg ≠ 0 && (xRegsOf i).contains c.reg) then
      .stall
    else .go

/-- The forms that close an open packet (R141). -/
def closesPacket : Instr → Bool
  | .mputE .. | .mputVe .. => true
  | .add .. | .sub .. | .and .. | .or .. | .xor .. | .andn .. | .shl .. | .shr .. | .sra .. | .slt .. |
    .sltz .. | .min .. | .max .. | .minz .. | .maxz .. | .sel .. | .addw .. | .subw .. | .rotl .. | .rotr ..
    | .addi .. | .andi .. | .ori .. | .xori .. | .shli .. | .shri .. | .srai .. | .slti .. | .sltzi .. |
    .lim .. | .lpc .. | .clz .. | .ctz .. | .ffs .. | .popc .. | .rev .. | .bswap .. | .bext .. | .bins .. |
    .mul .. | .mulh .. | .mulhz .. | .mulhsz .. | .div .. | .divz .. | .rem .. | .remz .. | .mulw .. | .beq
    .. | .bne .. | .blt .. | .bge .. | .blo .. | .bhs .. | .jal .. | .jalr .. | .loop .. | .loopi .. | .ldg
    .. | .stg .. | .ldgV .. | .stgV .. | .ldl .. | .stl .. | .ldlV .. | .stlV .. | .amoAdd .. | .amoAnd .. |
    .amoOr .. | .amoXor .. | .amoMin .. | .amoMax .. | .amoMinz .. | .amoMaxz .. | .amoSwap .. | .cas .. |
    .amolAdd .. | .amolAnd .. | .amolOr .. | .amolXor .. | .amolMin .. | .amolMax .. | .amolMinz .. |
    .amolMaxz .. | .amolSwap .. | .cwait .. | .xfence .. | .swinit .. | .swadd .. | .swwait .. | .swget .. |
    .swcnt .. | .mopen .. | .mput .. | .mputV .. | .gbar .. | .gbarAnd .. | .gbarOr .. | .gbarAdd .. |
    .gbarMax .. | .gbarMin .. | .launch .. | .exit .. | .yield | .sys .. | .brk | .uret | .uretReplay | .srd
    .. | .swr .. | .vadd .. | .vsub .. | .vmul .. | .vmax .. | .vmin .. | .vand .. | .vor .. | .vxor .. |
    .vdiv .. | .vsqrt .. | .vrcp .. | .vrsq .. | .vexp2 .. | .vlog2 .. | .vshl .. | .vshr .. | .vsra .. |
    .vabs .. | .vneg .. | .vmov .. | .vadd16 .. | .vsub16 .. | .vmul16 .. | .vmax16 .. | .vmin16 .. |
    .vmov16 .. | .vabs16 .. | .vneg16 .. | .vand16 .. | .vor16 .. | .vxor16 .. | .vrcp16 .. | .vrsq16 .. |
    .vexp216 .. | .vbcast0 .. | .vzero .. | .modifierWord .. | .vcmpEq .. | .vcmpLt .. | .vcmpLe .. |
    .vcmpNe .. | .vsel .. | .vredadd .. | .vredmax .. | .vredmin .. | .vperm .. | .vdot .. | .vcvt .. | .vq8
    .. | .vdq8 .. | .vamax .. | .vbcast .. | .vins .. | .vext .. | .vmvx .. | .vfma .. | .vfms .. | .vfnma
    .. | .vfnms .. | .sbind .. | .seos .. | .sstat .. | .sunbind .. | .tql .. | .tqlatch .. | .tqd .. |
    .tqmac .. | .tqread .. | .cpy .. | .cpyq .. | .mown | .mrel | .mcfg .. | .mmaBf16 .. | .mmaD8 .. |
    .mmaF16 .. | .mringAdv | .mringClr | .epcfg .. | .epgo .. | .lease .. | .unlease | .nmsend .. |
    .nmresume .. | .nmload .. | .nmstat .. | .mli .. | .mld .. | .mst .. | .mrdrowRead .. | .mrdrowWrite ..
    | .mrdrowZero .. | .mrdrowCopy .. | .madd .. | .msub .. | .mand .. | .mor .. | .mxor .. | .mshl .. |
    .mshr .. | .mmul .. | .mmax .. | .maccAdd .. | .maccRead .. | .mbfw .. | .mbfwZero .. | .mfin .. |
    .ixnear .. | .ixstore .. | .ixstoreRel .. | .ixdel .. | .ixsnap .. | .ixstat .. | .ixcreate .. |
    .tscoreSet .. | .tscoreMax .. | .tscoreMin .. | .tscoreAdd .. | .trinfo .. | .pinv .. | .pswap .. |
    .pclr .. | .pgen .. | .udf .. | .loadReturn | .storePerform | .heldFaultPost | .atomicPerform |
    .syncWordWake | .messageLanding | .packetCount | .barrierComplete | .launchReplicate |
    .completionBlockUpdate | .tqlatchExec | .tqmacExec | .tqdExec | .tqreadExec | .copyCommand |
    .heldNoticePost | .mmaComplete | .tileDrain | .leaseExpiry | .nmuMessageArrival | .rowCopy | .rowZero |
    .indexedReduce | .tableGather | .tableMac | .accumulatorRead | .accumulatorClear | .statusHandler |
    .loadedHandlerStart | .handlerTimeout | .nmresumeApply | .handlerLoad | .indexQueryAccept |
    .indexSearchEnd | .indexStoreCommit | .indexDeleteCommit | .indexSnapshotAccept | .indexStatAccept |
    .indexCreate | .indexDestroy | .allowanceExhausted | .roundEnd | .generationNotice | .upcallDelivery |
    .bindRecord | .resumeRecord | .stopRecord | .frameCopyDone | .threadStop | .saveComplete |
    .saveDrainTimeout | .slotSpill | .clusterZeroingDone | .gangReservation | .scannerPage |
    .scannerWriteDone | .budgetPeriodStart | .securityAlarm | .burstPause | .burstResume | .sliceRetention |
    .hostLaunchWindowWrite | .reportRequest | .reportReady | .registerWrite | .hostCxlMemAccess |
    .functionLevelReset | .fabricAckTimeout | .coreFailure | .coreOutOfService | .identityRotation | .boot |
    .coreReturnToService | .quarantineLift | .budgetChange | .fabricPeerAccess | .conventionalReset => false

/-- Whether the instruction would be the 257th to retire after the `mopen` without closing the packet (R142). -/
def State.packetFull (s : State) (i : Instr) : Bool :=
  match s.th.packet with
  | some p => 256 ≤ p.instrs && !(closesPacket i)
  | none => false

end Sys2Proof.Machine
end

