-- ==== Sys2Proof/Machine/Flags.lean ====
section
/-!
DEFINITION. Sys2Proof/Machine/Flags.lean: the sticky flags of sr.fflags (R52, R53): raised flags are ORed in when an
instruction retires.
-/
namespace Sys2Proof.Machine

/-- Raises flags: they stay until software replaces them (R53). -/
def State.raise (s : State) (f : Flags) : State := { s with th := { s.th with fflags := s.th.fflags ||| f } }

/-- The flags of all lanes together. -/
def orFlags (fs : List Flags) : Flags := fs.foldl (· ||| ·) 0

end Sys2Proof.Machine
end

