-- ==== Sys2Proof/Machine/Scalar.lean ====
section
/-!
DEFINITION. Sys2Proof/Machine/Scalar.lean: integer arithmetic, bit instructions, multiplication and division
(R66 to R75). Each reads its sources before it writes x[d] (R67) and retires.
-/
namespace Sys2Proof.Machine

/-- Writes x[d] and retires a 32-bit instruction. -/
def State.result (s : State) (d : Reg) (v : Word) : State := (s.setX d v).retire 4

/-- The shift amount: bits [5:0] of a register (R66). -/
def shiftBy (w : Word) : Nat := w.toNat % 64

/-- 1 or 0 for a comparison. -/
def boolWord (b : Bool) : Word := if b then 1 else 0

/-- The low 32 bits of a value, sign-extended. -/
def word32 (w : Word) : Word := (w.setWidth 32).signExtend 64

/-- A 15-bit immediate, sign-extended (R32). -/
def imm15 (i : BitVec 15) : Word := i.signExtend 64

/-- An immediate of format W: SignExt(imm20 << 12, 32) (R32). -/
def immW (i : BitVec 20) : Word := ((i.setWidth 32) <<< 12).signExtend 64

/-- Bits of an element (R72). -/
def elemBits : ElemWidth → Nat
  | .b => 8 | .h => 16 | .w => 32 | .d => 64

/-- Applies `f` to each element of `w` bits of a 64-bit value (R72). -/
def perElement (ew : ElemWidth) (f : Nat → Nat → Nat) (v : Word) : Word :=
  let n := elemBits ew
  BitVec.ofNat 64 ((List.range (64 / n)).foldl (fun acc k => acc + f n (fld v.toNat (n * k) n) * 2 ^ (n * k)) 0)

/-- Significant bits of a number, by repeated halving; `fuel` bounds the width. -/
def bitLength : Nat → Nat → Nat
  | 0, _ => 0
  | fuel + 1, v => if v = 0 then 0 else 1 + bitLength fuel (v / 2)

/-- Trailing zero bits of a number below `2 ^ n`; `n` for zero. -/
def trailingZeros : Nat → Nat → Nat
  | 0, _ => 0
  | n + 1, v => if v % 2 = 1 then 0 else 1 + trailingZeros n (v / 2)

/-- Set bits of a number below `2 ^ n`. -/
def setBits : Nat → Nat → Nat
  | 0, _ => 0
  | n + 1, v => v % 2 + setBits n (v / 2)

/-- Bits of a number of `n` bits in reverse order. -/
def reverseBits : Nat → Nat → Nat
  | 0, _ => 0
  | n + 1, v => v % 2 * 2 ^ n + reverseBits n (v / 2)

/-- The field length of `bext` and `bins`: bits [6:0], at most 64 (R73). -/
def fieldLen (w : Word) : Nat := min (w.toNat % 128) 64

/-- Quotient truncated toward zero (R75): -1 for a divisor of 0, and -2^63 by -1 gives -2^63. -/
def divSigned (a b : Word) : Word := if b = 0 then -1 else BitVec.ofInt 64 (a.toInt.tdiv b.toInt)

/-- Unsigned quotient (R75): all ones for a divisor of 0. -/
def divUnsigned (a b : Word) : Word := if b = 0 then -1 else BitVec.ofNat 64 (a.toNat / b.toNat)

/-- Remainder with the sign of the dividend (R75): the dividend for a divisor of 0. -/
def remSigned (a b : Word) : Word := if b = 0 then a else BitVec.ofInt 64 (a.toInt.tmod b.toInt)

/-- Unsigned remainder (R75): the dividend for a divisor of 0. -/
def remUnsigned (a b : Word) : Word := if b = 0 then a else BitVec.ofNat 64 (a.toNat % b.toNat)

/-- The value that `add` computes (R66). -/
def addVal (a b : Word) : Word := a + b

/-- ADD (R66). -/
def execAdd (d a b : Reg) (s : State) : Out := .next (s.result d (addVal (s.getX a) (s.getX b)))

/-- The value that `sub` computes (R66). -/
def subVal (a b : Word) : Word := a - b

/-- SUB (R66). -/
def execSub (d a b : Reg) (s : State) : Out := .next (s.result d (subVal (s.getX a) (s.getX b)))

/-- The value that `and` computes (R66). -/
def andVal (a b : Word) : Word := a &&& b

/-- AND (R66). -/
def execAnd (d a b : Reg) (s : State) : Out := .next (s.result d (andVal (s.getX a) (s.getX b)))

/-- The value that `or` computes (R66). -/
def orVal (a b : Word) : Word := a ||| b

/-- OR (R66). -/
def execOr (d a b : Reg) (s : State) : Out := .next (s.result d (orVal (s.getX a) (s.getX b)))

/-- The value that `xor` computes (R66). -/
def xorVal (a b : Word) : Word := a ^^^ b

/-- XOR (R66). -/
def execXor (d a b : Reg) (s : State) : Out := .next (s.result d (xorVal (s.getX a) (s.getX b)))

/-- The value that `andn` computes (R66). -/
def andnVal (a b : Word) : Word := a &&& ~~~b

/-- ANDN (R66). -/
def execAndn (d a b : Reg) (s : State) : Out := .next (s.result d (andnVal (s.getX a) (s.getX b)))

/-- The value that `shl` computes (R66). -/
def shlVal (a b : Word) : Word := a <<< shiftBy b

/-- SHL (R66). -/
def execShl (d a b : Reg) (s : State) : Out := .next (s.result d (shlVal (s.getX a) (s.getX b)))

/-- The value that `shr` computes (R66). -/
def shrVal (a b : Word) : Word := a >>> shiftBy b

/-- SHR (R66). -/
def execShr (d a b : Reg) (s : State) : Out := .next (s.result d (shrVal (s.getX a) (s.getX b)))

/-- The value that `sra` computes (R66). -/
def sraVal (a b : Word) : Word := a.sshiftRight (shiftBy b)

/-- SRA (R66). -/
def execSra (d a b : Reg) (s : State) : Out := .next (s.result d (sraVal (s.getX a) (s.getX b)))

/-- The value that `slt` computes (R66). -/
def sltVal (a b : Word) : Word := boolWord (a.slt b)

/-- SLT (R66). -/
def execSlt (d a b : Reg) (s : State) : Out := .next (s.result d (sltVal (s.getX a) (s.getX b)))

/-- The value that `sltz` computes (R66). -/
def sltzVal (a b : Word) : Word := boolWord (a.ult b)

/-- SLTZ (R66). -/
def execSltz (d a b : Reg) (s : State) : Out := .next (s.result d (sltzVal (s.getX a) (s.getX b)))

/-- The value that `min` computes (R66). -/
def minVal (a b : Word) : Word := if a.slt b then a else b

/-- MIN (R66). -/
def execMin (d a b : Reg) (s : State) : Out := .next (s.result d (minVal (s.getX a) (s.getX b)))

/-- The value that `max` computes (R66). -/
def maxVal (a b : Word) : Word := if a.slt b then b else a

/-- MAX (R66). -/
def execMax (d a b : Reg) (s : State) : Out := .next (s.result d (maxVal (s.getX a) (s.getX b)))

/-- The value that `minz` computes (R66). -/
def minzVal (a b : Word) : Word := if a.ult b then a else b

/-- MINZ (R66). -/
def execMinz (d a b : Reg) (s : State) : Out := .next (s.result d (minzVal (s.getX a) (s.getX b)))

/-- The value that `maxz` computes (R66). -/
def maxzVal (a b : Word) : Word := if a.ult b then b else a

/-- MAXZ (R66). -/
def execMaxz (d a b : Reg) (s : State) : Out := .next (s.result d (maxzVal (s.getX a) (s.getX b)))

/-- The value that `addw` computes (R66). -/
def addwVal (a b : Word) : Word := word32 (a + b)

/-- ADDW (R66). -/
def execAddw (d a b : Reg) (s : State) : Out := .next (s.result d (addwVal (s.getX a) (s.getX b)))

/-- The value that `subw` computes (R66). -/
def subwVal (a b : Word) : Word := word32 (a - b)

/-- SUBW (R66). -/
def execSubw (d a b : Reg) (s : State) : Out := .next (s.result d (subwVal (s.getX a) (s.getX b)))

/-- The value that `rotl` computes (R66). -/
def rotlVal (a b : Word) : Word := a.rotateLeft (shiftBy b)

/-- ROTL (R66). -/
def execRotl (d a b : Reg) (s : State) : Out := .next (s.result d (rotlVal (s.getX a) (s.getX b)))

/-- The value that `rotr` computes (R66). -/
def rotrVal (a b : Word) : Word := a.rotateRight (shiftBy b)

/-- ROTR (R66). -/
def execRotr (d a b : Reg) (s : State) : Out := .next (s.result d (rotrVal (s.getX a) (s.getX b)))

/-- The value that `mul` computes (R74). -/
def mulVal (a b : Word) : Word := a * b

/-- MUL (R74). -/
def execMul (d a b : Reg) (s : State) : Out := .next (s.result d (mulVal (s.getX a) (s.getX b)))

/-- The value that `mulh` computes (R74). -/
def mulhVal (a b : Word) : Word := BitVec.ofInt 64 (a.toInt * b.toInt / 2 ^ 64)

/-- MULH (R74). -/
def execMulh (d a b : Reg) (s : State) : Out := .next (s.result d (mulhVal (s.getX a) (s.getX b)))

/-- The value that `mulhz` computes (R74). -/
def mulhzVal (a b : Word) : Word := BitVec.ofNat 64 (a.toNat * b.toNat / 2 ^ 64)

/-- MULHZ (R74). -/
def execMulhz (d a b : Reg) (s : State) : Out := .next (s.result d (mulhzVal (s.getX a) (s.getX b)))

/-- The value that `mulhsz` computes (R74). -/
def mulhszVal (a b : Word) : Word := BitVec.ofInt 64 (a.toInt * b.toNat / 2 ^ 64)

/-- MULHSZ (R74). -/
def execMulhsz (d a b : Reg) (s : State) : Out := .next (s.result d (mulhszVal (s.getX a) (s.getX b)))

/-- The value that `div` computes (R74, R75). -/
def divVal (a b : Word) : Word := divSigned a b

/-- DIV (R74, R75). -/
def execDiv (d a b : Reg) (s : State) : Out := .next (s.result d (divVal (s.getX a) (s.getX b)))

/-- The value that `divz` computes (R74, R75). -/
def divzVal (a b : Word) : Word := divUnsigned a b

/-- DIVZ (R74, R75). -/
def execDivz (d a b : Reg) (s : State) : Out := .next (s.result d (divzVal (s.getX a) (s.getX b)))

/-- The value that `rem` computes (R74, R75). -/
def remVal (a b : Word) : Word := remSigned a b

/-- REM (R74, R75). -/
def execRem (d a b : Reg) (s : State) : Out := .next (s.result d (remVal (s.getX a) (s.getX b)))

/-- The value that `remz` computes (R74, R75). -/
def remzVal (a b : Word) : Word := remUnsigned a b

/-- REMZ (R74, R75). -/
def execRemz (d a b : Reg) (s : State) : Out := .next (s.result d (remzVal (s.getX a) (s.getX b)))

/-- The value that `mulw` computes (R74). -/
def mulwVal (a b : Word) : Word := word32 (a * b)

/-- MULW (R74). -/
def execMulw (d a b : Reg) (s : State) : Out := .next (s.result d (mulwVal (s.getX a) (s.getX b)))

/-- ADDI (R68). -/
def execAddi (d a : Reg) (i : BitVec 15) (s : State) : Out := .next (s.result d (s.getX a + imm15 i))

/-- ANDI (R68). -/
def execAndi (d a : Reg) (i : BitVec 15) (s : State) : Out := .next (s.result d (s.getX a &&& imm15 i))

/-- ORI (R68). -/
def execOri (d a : Reg) (i : BitVec 15) (s : State) : Out := .next (s.result d (s.getX a ||| imm15 i))

/-- XORI (R68). -/
def execXori (d a : Reg) (i : BitVec 15) (s : State) : Out := .next (s.result d (s.getX a ^^^ imm15 i))

/-- SLTI (R68). -/
def execSlti (d a : Reg) (i : BitVec 15) (s : State) : Out := .next (s.result d (boolWord ((s.getX a).slt (imm15 i))))

/-- SLTZI (R68). -/
def execSltzi (d a : Reg) (i : BitVec 15) (s : State) : Out := .next (s.result d (boolWord ((s.getX a).ult (imm15 i))))

/-- SHLI (R69). -/
def execShli (d a : Reg) (n : Fin 64) (s : State) : Out := .next (s.result d (s.getX a <<< n.val))

/-- SHRI (R69). -/
def execShri (d a : Reg) (n : Fin 64) (s : State) : Out := .next (s.result d (s.getX a >>> n.val))

/-- SRAI (R69). -/
def execSrai (d a : Reg) (n : Fin 64) (s : State) : Out := .next (s.result d ((s.getX a).sshiftRight n.val))

/-- LIM (R70). -/
def execLim (d : Reg) (i : BitVec 20) (s : State) : Out := .next (s.result d (immW i))

/-- LPC (R70). -/
def execLpc (d : Reg) (i : BitVec 20) (s : State) : Out := .next (s.result d (s.th.pc + immW i))

/-- SEL (R66). -/
def execSel (d a b c : Reg) (s : State) : Out :=
  .next (s.result d (if s.getX a ≠ 0 then s.getX b else s.getX c))

/-- CLZ (R72). -/
def execClz (ew : ElemWidth) (d a : Reg) (s : State) : Out :=
  .next (s.result d (perElement ew (fun n v => n - bitLength 64 v) (s.getX a)))

/-- CTZ (R72). -/
def execCtz (ew : ElemWidth) (d a : Reg) (s : State) : Out := .next (s.result d (perElement ew trailingZeros (s.getX a)))

/-- FFS (R72). -/
def execFfs (ew : ElemWidth) (d a : Reg) (s : State) : Out :=
  .next (s.result d (perElement ew (fun n v => if v = 0 then 0 else trailingZeros n v + 1) (s.getX a)))

/-- POPC (R72). -/
def execPopc (ew : ElemWidth) (d a : Reg) (s : State) : Out := .next (s.result d (perElement ew setBits (s.getX a)))

/-- REV (R72). -/
def execRev (d a : Reg) (s : State) : Out := .next (s.result d (BitVec.ofNat 64 (reverseBits 64 (s.getX a).toNat)))

/-- BSWAP (R72). -/
def execBswap (d a : Reg) (s : State) : Out :=
  .next (s.result d (BitVec.ofNat 64 (natOf (bytesOf 8 (s.getX a).toNat).reverse)))

/-- The field that `bext` reads (R73). -/
def bextVal (a b c : Word) : Word := (a >>> shiftBy b) &&& BitVec.ofNat 64 (2 ^ fieldLen c - 1)

/-- BEXT (R72, R73). -/
def execBext (d a b c : Reg) (s : State) : Out := .next (s.result d (bextVal (s.getX a) (s.getX b) (s.getX c)))

/-- The value with its field replaced, as `bins` writes it (R73). -/
def binsVal (d a b c : Word) : Word :=
  let mask := BitVec.ofNat 64 (2 ^ fieldLen c - 1)
  (d &&& ~~~(mask <<< shiftBy b)) ||| ((a &&& mask) <<< shiftBy b)

/-- BINS (R72, R73). -/
def execBins (d a b c : Reg) (s : State) : Out :=
  .next (s.result d (binsVal (s.getX d) (s.getX a) (s.getX b) (s.getX c)))

end Sys2Proof.Machine
end

