-- ==== Sys2Proof/Machine/Lanes.lean ====
section
/-!
DEFINITION. Sys2Proof/Machine/Lanes.lean: lane arithmetic, fused multiply-add, compares, selects, reductions, dot products,
conversions and lane moves (R28 to R30, R91 to R106), and the modifier word (R34 to R38).
-/
namespace Sys2Proof.Machine

/-! ### One lane instruction -/

/-- What a lane instruction delivers: an f register, an x register, and flags. -/
structure LaneOut where
  f : Option (Reg × LaneReg)
  x : Option (Reg × Word)
  fl : Flags

/-- Writes what a lane instruction delivers, raises its flags, moves the streams it names and retires (R53, R95). -/
def State.deliverLane (s : State) (len : Nat) (named : List Reg) (o : LaneOut) : State :=
  let s := match o.f with
    | some (d, v) => s.writeF d v
    | none => s
  let s := match o.x with
    | some (d, v) => s.setX d v
    | none => s
  ((s.raise o.fl).advanceStreams named).retire len

/-- Runs an instruction that names f registers: one that is bound to a stream makes it a core-path access, which waits behind an
acquire in flight (R166, R184). -/
def State.whenStreams (s : State) (named : List Reg) (f : State → State) : State :=
  if named.any (fun r => (s.streamOf r).isSome) then s.whenFree f else f s

/-- Runs a lane instruction of `len` bytes that reads and writes the given f registers: a stream named against its
direction traps before an element address does (R95, R111). -/
def State.runLane (s : State) (len : Nat) (reads writes : List Reg) (f : (Reg → LaneReg) → LaneOut) : State :=
  match s.wrongWay reads writes with
  | some k => s.trap 0x0D k
  | none =>
    match s.blockFault (reads ++ writes) with
    | some (c, q) => s.trap c q
    | none => s.whenStreams (reads ++ writes) (fun s => s.deliverLane len (reads ++ writes) (f s.operand))

/-- A lane instruction whose result is raw bits: no rounding and no flag. -/
def State.rawLane (s : State) (len : Nat) (reads : List Reg) (d : Reg) (f : (Reg → LaneReg) → LaneReg) : State :=
  s.runLane len reads [d] (fun g => ⟨some (d, f g), none, 0⟩)

/-! ### Results of a lane (R36, R50) -/

/-- The modifier that changes nothing. -/
def plainMod : Modifier := ⟨0, false, false, false, 0⟩

/-- The floating format of a lane type. -/
def fmtOf : LaneType → Fmt
  | .f32 => f32
  | .bf16 => bf16
  | .f16 | .i32 | .i16 | .i8 | .d8 => f16

/-- The exact value of a lane (R58, R93). -/
def laneValue (t : LaneType) (v : Nat) : Exact :=
  match t with
  | .f32 | .bf16 | .f16 => (fmtOf t).unpack v
  | .i32 | .i16 | .i8 => Exact.ofInt (sgn (laneBits t) v)
  | .d8 => d8Value v

/-- The rounding mode and the clamp bounds that a result lane meets. -/
structure Ctx where
  mode : Mode
  lo : Exact
  hi : Exact

/-- The context of the thread at hand, for a modifier (R34). -/
def State.laneCtx (s : State) (m : Modifier) : Ctx :=
  let one := Exact.ofInt 1
  match m.clamp.val with
  | 1 => ⟨s.th.rmode, Exact.zero, one⟩
  | 2 => ⟨s.th.rmode, one.neg, one⟩
  | _ => ⟨s.th.rmode, f32.unpack s.th.clamplo.toNat, f32.unpack s.th.clamphi.toNat⟩

/-- A floating result lane under a modifier (R36). -/
def floatLane (c : Ctx) (m : Modifier) (f : Fmt) (v : Exact) : Nat × Flags :=
  let (b, fl) := f.round c.mode m.sat (v.scale m.k.toInt)
  if (f.unpack b).isNan then (b, fl)
  else
    let b := if m.abs then b % f.signBit else b
    let b := if m.neg then b ^^^ f.signBit else b
    if m.clamp = 0 then (b, fl)
    else
      let lo := (f.round nearest false c.lo).1
      let hi := (f.round nearest false c.hi).1
      let b := if (f.unpack b).cmp (f.unpack lo) = some .lt then lo else b
      (if (f.unpack b).cmp (f.unpack hi) = some .gt then hi else b, fl)

/-- An integer result lane of `w` bits under a modifier (R36). -/
def intLane (c : Ctx) (m : Modifier) (w : Nat) (v : Exact) : Nat × Flags :=
  let r := ((v.scale m.k.toInt).toInt c.mode).1
  let lim (v : Int) : Int := if m.sat then clampInt w v else sgn w (wrap w v)
  let fl := flagIf (m.sat && lim r ≠ r) sv
  let v := lim r
  let v := if m.abs then lim |v| else v
  let v := if m.neg then lim (-v) else v
  (wrap w v, fl)

/-- A result lane of a type under a modifier (R36). -/
def resultLane (c : Ctx) (m : Modifier) (t : LaneType) (v : Exact) : Nat × Flags :=
  match t with
  | .f32 | .bf16 | .f16 => floatLane c m (fmtOf t) v
  | .i32 | .i16 | .i8 | .d8 => intLane c m (laneBits t) v

/-- The lanes of one result, from the exact values with their flags. -/
def laneResults (c : Ctx) (m : Modifier) (t : LaneType) (vs : List (Exact × Flags)) : LaneReg × Flags :=
  let rs := vs.map (fun v => let (b, g) := resultLane c m t v.1; (b, v.2 ||| g))
  (ofLanes (laneBits t) (rs.map (·.1)), orFlags (rs.map (·.2)))

/-- The exact values of the lanes of a register. -/
def laneValues (t : LaneType) (v : LaneReg) : List Exact := (lanes (laneBits t) t.lanes v).map (laneValue t)

/-- An operation on each pair of lanes (R93). -/
def State.binLane (s : State) (m : Modifier) (len : Nat) (t : LaneType) (d a b : Reg)
    (op : Mode → Exact → Exact → Exact × Flags) : State :=
  s.runLane len [a, b] [d] (fun g =>
    let (v, fl) := laneResults (s.laneCtx m) m t (List.zipWith (op s.th.rmode) (laneValues t (g a)) (laneValues t (g b)))
    ⟨some (d, v), none, fl⟩)

/-- An operation on each lane (R93). -/
def State.unLane (s : State) (m : Modifier) (len : Nat) (t : LaneType) (d a : Reg) (op : Exact → Exact × Flags) : State :=
  s.runLane len [a] [d] (fun g =>
    let (v, fl) := laneResults (s.laneCtx m) m t ((laneValues t (g a)).map op)
    ⟨some (d, v), none, fl⟩)

/-! ### Lane arithmetic (R93, R94) -/

/-- `vadd`: the exact sum. -/
def State.laneAdd (s : State) (m : Modifier) (len : Nat) (t : LaneType) (d a b : Reg) : State :=
  s.binLane m len t d a b Exact.add
/-- `vsub`: the exact difference. -/
def State.laneSub (s : State) (m : Modifier) (len : Nat) (t : LaneType) (d a b : Reg) : State :=
  s.binLane m len t d a b (fun r x y => Exact.add r x y.neg)
/-- `vmul`: the exact product. -/
def State.laneMul (s : State) (m : Modifier) (len : Nat) (t : LaneType) (d a b : Reg) : State :=
  s.binLane m len t d a b (fun _ => Exact.mul)
/-- `vmax` and `vmin` (R54). -/
def State.lanePick (s : State) (m : Modifier) (len : Nat) (greater : Bool) (t : LaneType) (d a b : Reg) : State :=
  s.binLane m len t d a b (fun _ => Exact.pick greater)
/-- `vdiv` (R54). -/
def State.laneDiv (s : State) (m : Modifier) (len : Nat) (t : LaneType) (d a b : Reg) : State :=
  s.binLane m len t d a b (fun _ => Exact.div)
/-- `vsqrt`. -/
def State.laneSqrt (s : State) (m : Modifier) (len : Nat) (t : LaneType) (d a : Reg) : State := s.unLane m len t d a Exact.sqrt
/-- `vrcp`. -/
def State.laneRcp (s : State) (m : Modifier) (len : Nat) (t : LaneType) (d a : Reg) : State := s.unLane m len t d a Exact.rcp
/-- `vrsq`. -/
def State.laneRsq (s : State) (m : Modifier) (len : Nat) (t : LaneType) (d a : Reg) : State := s.unLane m len t d a Exact.rsq
/-- `vexp2`. -/
def State.laneExp2 (s : State) (m : Modifier) (len : Nat) (t : LaneType) (d a : Reg) : State := s.unLane m len t d a Exact.exp2
/-- `vlog2`. -/
def State.laneLog2 (s : State) (m : Modifier) (len : Nat) (t : LaneType) (d a : Reg) : State := s.unLane m len t d a Exact.log2

/-- Whether an instruction of a length is a modifier pair: under a modifier word, one whose fields are all zero included,
`vmov`, `vabs` and `vneg` round as arithmetic does (R37, R48, R93; DEDUCED, the log's entry 8). -/
def isPair (len : Nat) : Bool := len == 8

/-- `vmov`: a raw copy alone, and a rounded value under a modifier (R93). -/
def State.laneMov (s : State) (m : Modifier) (len : Nat) (t : LaneType) (d a : Reg) : State :=
  if !isPair len then s.rawLane len [a] d (fun g => g a) else s.unLane m len t d a (fun x => (x, x.snan))

/-- `vabs` and `vneg` of floating lanes change the sign bit alone and leave a NaN as it is; under a modifier, and for
integers, they are arithmetic (R54, R93; the log's entry 8). -/
def State.laneSign (s : State) (m : Modifier) (len : Nat) (t : LaneType) (d a : Reg) (neg : Bool) : State :=
  let w := laneBits t
  if !isPair len && t.float then
    s.rawLane len [a] d (fun g => ofLanes w ((lanes w t.lanes (g a)).map (fun v =>
      if ((fmtOf t).unpack v).isNan then v else if neg then v ^^^ 2 ^ (w - 1) else v % 2 ^ (w - 1))))
  else s.unLane m len t d a (fun x => (if neg then x.neg else x.abs, x.snan))

/-- A shift of each lane by bits [5:0] of the amount's lane (R94). -/
def State.laneShift (s : State) (t : LaneType) (d a b : Reg) (op : Nat → Nat → Nat → Nat) : State :=
  let w := laneBits t
  s.rawLane 4 [a, b] d (fun g =>
    ofLanes w (List.zipWith (fun x y => op w x (y % 64)) (lanes w t.lanes (g a)) (lanes w t.lanes (g b))))

/-- `vshr`: 0 when the amount is the width or more. -/
def shrLane (w x n : Nat) : Nat := if w ≤ n then 0 else x / 2 ^ n
/-- `vshl`: 0 when the amount is the width or more. -/
def shlLane (w x n : Nat) : Nat := if w ≤ n then 0 else x * 2 ^ n % 2 ^ w
/-- `vsra`: copies of the sign bit when the amount is the width or more. -/
def sraLane (w x n : Nat) : Nat := wrap w (sgn w x / (2 ^ min n w : Nat))

/-- VADD (R93). -/
def execVadd (t : LaneType) (d a b : Reg) (s : State) : Out := .next (s.laneAdd plainMod 4 t d a b)
/-- VSUB (R93). -/
def execVsub (t : LaneType) (d a b : Reg) (s : State) : Out := .next (s.laneSub plainMod 4 t d a b)
/-- VMUL (R93). -/
def execVmul (t : LaneType) (d a b : Reg) (s : State) : Out := .next (s.laneMul plainMod 4 t d a b)
/-- VMAX (R54, R93). -/
def execVmax (t : LaneType) (d a b : Reg) (s : State) : Out := .next (s.lanePick plainMod 4 true t d a b)
/-- VMIN (R54, R93). -/
def execVmin (t : LaneType) (d a b : Reg) (s : State) : Out := .next (s.lanePick plainMod 4 false t d a b)
/-- VAND (R93). -/
def execVand (_t : LaneType) (d a b : Reg) (s : State) : Out := .next (s.rawLane 4 [a, b] d (fun g => g a &&& g b))
/-- VOR (R93). -/
def execVor (_t : LaneType) (d a b : Reg) (s : State) : Out := .next (s.rawLane 4 [a, b] d (fun g => g a ||| g b))
/-- VXOR (R93). -/
def execVxor (_t : LaneType) (d a b : Reg) (s : State) : Out := .next (s.rawLane 4 [a, b] d (fun g => g a ^^^ g b))
/-- VDIV (R54, R93). -/
def execVdiv (t : LaneType) (d a b : Reg) (s : State) : Out := .next (s.laneDiv plainMod 4 t d a b)
/-- VSQRT (R54, R93). -/
def execVsqrt (t : LaneType) (d a : Reg) (s : State) : Out := .next (s.laneSqrt plainMod 4 t d a)
/-- VRCP (R54, R93). -/
def execVrcp (t : LaneType) (d a : Reg) (s : State) : Out := .next (s.laneRcp plainMod 4 t d a)
/-- VRSQ (R54, R93). -/
def execVrsq (t : LaneType) (d a : Reg) (s : State) : Out := .next (s.laneRsq plainMod 4 t d a)
/-- VEXP2 (R54, R93). -/
def execVexp2 (t : LaneType) (d a : Reg) (s : State) : Out := .next (s.laneExp2 plainMod 4 t d a)
/-- VLOG2 (R54, R93). -/
def execVlog2 (t : LaneType) (d a : Reg) (s : State) : Out := .next (s.laneLog2 plainMod 4 t d a)
/-- VSHL (R94). -/
def execVshl (t : LaneType) (d a b : Reg) (s : State) : Out := .next (s.laneShift t d a b shlLane)
/-- VSHR (R94). -/
def execVshr (t : LaneType) (d a b : Reg) (s : State) : Out := .next (s.laneShift t d a b shrLane)
/-- VSRA (R94). -/
def execVsra (t : LaneType) (d a b : Reg) (s : State) : Out := .next (s.laneShift t d a b sraLane)
/-- VABS (R93). -/
def execVabs (t : LaneType) (d a : Reg) (s : State) : Out := .next (s.laneSign plainMod 4 t d a false)
/-- VNEG (R93). -/
def execVneg (t : LaneType) (d a : Reg) (s : State) : Out := .next (s.laneSign plainMod 4 t d a true)
/-- VMOV (R93). -/
def execVmov (t : LaneType) (d a : Reg) (s : State) : Out := .next (s.laneMov plainMod 4 t d a)

/-! ### 16-bit lane forms (R28 to R30) -/

/-- The type of a 16-bit lane form. -/
def halfType (bf : Bool) : LaneType := if bf then .bf16 else .f32

/-- VADD16 (R29). -/
def execVadd16 (bf : Bool) (d b : Reg) (s : State) : Out := .next (s.laneAdd plainMod 2 (halfType bf) d d b)
/-- VSUB16 (R29). -/
def execVsub16 (bf : Bool) (d b : Reg) (s : State) : Out := .next (s.laneSub plainMod 2 (halfType bf) d d b)
/-- VMUL16 (R29). -/
def execVmul16 (bf : Bool) (d b : Reg) (s : State) : Out := .next (s.laneMul plainMod 2 (halfType bf) d d b)
/-- VMAX16 (R29). -/
def execVmax16 (bf : Bool) (d b : Reg) (s : State) : Out := .next (s.lanePick plainMod 2 true (halfType bf) d d b)
/-- VMIN16 (R29). -/
def execVmin16 (bf : Bool) (d b : Reg) (s : State) : Out := .next (s.lanePick plainMod 2 false (halfType bf) d d b)
/-- VMOV16 (R29). -/
def execVmov16 (d b : Reg) (s : State) : Out := .next (s.laneMov plainMod 2 .f32 d b)
/-- VABS16 (R29). -/
def execVabs16 (bf : Bool) (d b : Reg) (s : State) : Out := .next (s.laneSign plainMod 2 (halfType bf) d b false)
/-- VNEG16 (R29). -/
def execVneg16 (bf : Bool) (d b : Reg) (s : State) : Out := .next (s.laneSign plainMod 2 (halfType bf) d b true)
/-- VAND16 (R29). -/
def execVand16 (d b : Reg) (s : State) : Out := .next (s.rawLane 2 [d, b] d (fun g => g d &&& g b))
/-- VOR16 (R29). -/
def execVor16 (d b : Reg) (s : State) : Out := .next (s.rawLane 2 [d, b] d (fun g => g d ||| g b))
/-- VXOR16 (R29). -/
def execVxor16 (d b : Reg) (s : State) : Out := .next (s.rawLane 2 [d, b] d (fun g => g d ^^^ g b))
/-- VRCP16 (R29). -/
def execVrcp16 (bf : Bool) (d b : Reg) (s : State) : Out := .next (s.laneRcp plainMod 2 (halfType bf) d b)
/-- VRSQ16 (R29). -/
def execVrsq16 (bf : Bool) (d b : Reg) (s : State) : Out := .next (s.laneRsq plainMod 2 (halfType bf) d b)
/-- VEXP216 (R29). -/
def execVexp216 (bf : Bool) (d b : Reg) (s : State) : Out := .next (s.laneExp2 plainMod 2 (halfType bf) d b)
/-- VBCAST0 (R30). -/
def execVbcast0 (bf : Bool) (d b : Reg) (s : State) : Out :=
  let w := laneBits (halfType bf)
  .next (s.rawLane 2 [b] d (fun g => ofLanes w (List.replicate (256 / w) (lane w (g b) 0))))
/-- VZERO (R30). -/
def execVzero (d : Reg) (s : State) : Out := .next (s.rawLane 2 [] d (fun _ => 0))

/-! ### Fused multiply-add (R96) -/

/-- The fused forms, lane by lane. -/
def State.laneFma (s : State) (m : Modifier) (len : Nat) (negP negZ : Bool) (t : LaneType) (d a b c : Reg) : State :=
  s.runLane len [a, b, c] [d] (fun g =>
    let (v, fl) := laneResults (s.laneCtx m) m t
      (List.zipWith (fun (xy : Exact × Exact) z => Exact.fma s.th.rmode negP negZ xy.1 xy.2 z)
        (List.zip (laneValues t (g a)) (laneValues t (g b))) (laneValues t (g c)))
    ⟨some (d, v), none, fl⟩)

/-- VFMA (R96). -/
def execVfma (t : LaneType) (d a b c : Reg) (s : State) : Out := .next (s.laneFma plainMod 4 false false t d a b c)
/-- VFMS (R96). -/
def execVfms (t : LaneType) (d a b c : Reg) (s : State) : Out := .next (s.laneFma plainMod 4 false true t d a b c)
/-- VFNMA (R96). -/
def execVfnma (t : LaneType) (d a b c : Reg) (s : State) : Out := .next (s.laneFma plainMod 4 true true t d a b c)
/-- VFNMS (R96). -/
def execVfnms (t : LaneType) (d a b c : Reg) (s : State) : Out := .next (s.laneFma plainMod 4 true false t d a b c)

/-! ### Compare, select, reduce, permute, dot (R97 to R101) -/

/-- A number whose bit `i` is the `i`-th of a list. -/
def maskOf : List Bool → Nat
  | [] => 0
  | b :: r => b.toNat + 2 * maskOf r

/-- A compare writes a mask (R97); a signalling NaN of a floating lane raises nv (R54). -/
def State.laneCmp (s : State) (t : LaneType) (d a b : Reg) (p : Option Ordering → Bool) : State :=
  s.runLane 4 [a, b] [] (fun g =>
    let xs := laneValues t (g a)
    let ys := laneValues t (g b)
    ⟨none, some (d, BitVec.ofNat 64 (maskOf (List.zipWith (fun x y => p (x.cmp y)) xs ys))),
      orFlags ((xs ++ ys).map Exact.snan)⟩)

/-- VCMP.EQ (R97). -/
def execVcmpEq (t : LaneType) (d a b : Reg) (s : State) : Out := .next (s.laneCmp t d a b (· == some .eq))
/-- VCMP.LT (R97). -/
def execVcmpLt (t : LaneType) (d a b : Reg) (s : State) : Out := .next (s.laneCmp t d a b (· == some .lt))
/-- VCMP.LE (R97). -/
def execVcmpLe (t : LaneType) (d a b : Reg) (s : State) : Out :=
  .next (s.laneCmp t d a b (fun o => o == some .lt || o == some .eq))
/-- VCMP.NE (R97). -/
def execVcmpNe (t : LaneType) (d a b : Reg) (s : State) : Out := .next (s.laneCmp t d a b (· != some .eq))

/-- VSEL (R98). -/
def execVsel (t : LaneType) (d a b : Reg) (s : State) : Out :=
  let w := laneBits t
  .next (s.rawLane 4 [d, a] d (fun g =>
    ofLanes w ((List.range t.lanes).map (fun i => if (s.getX b).getLsbD i then lane w (g a) i else lane w (g d) i))))

/-- One level of the tree of R63: neighbours are combined; `combine` gives a value and its flags. -/
def treeLevel (combine : Exact → Exact → Exact × Flags) : List Exact → List Exact × Flags
  | x :: y :: r =>
    let (v, f) := combine x y
    let (vs, g) := treeLevel combine r
    (v :: vs, f ||| g)
  | vs => (vs, 0)

/-- The tree of R63, `levels` deep. -/
def treeFold (combine : Exact → Exact → Exact × Flags) : Nat → List Exact → Exact × Flags
  | 0, vs => (vs.headD Exact.zero, 0)
  | n + 1, vs =>
    let (us, f) := treeLevel combine vs
    let (v, g) := treeFold combine n us
    (v, f ||| g)

/-- Levels of the tree over the lanes of a type. -/
def treeLevels : LaneType → Nat
  | .f32 | .i32 => 3
  | .bf16 | .f16 | .i16 => 4
  | .i8 | .d8 => 5

/-- One step of `vredadd`: a sum rounded to the lane type (R63). -/
def addStep (c : Ctx) (t : LaneType) (x y : Exact) : Exact × Flags :=
  let (v, f) := Exact.add c.mode x y
  let (b, g) := resultLane c plainMod t v
  (laneValue t b, f ||| g)

/-- A reduction: its result in lane 0, every other lane 0 (R99). -/
def State.laneReduce (s : State) (m : Modifier) (len : Nat) (t : LaneType) (d a : Reg)
    (combine : Exact → Exact → Exact × Flags) : State :=
  s.runLane len [a] [d] (fun g =>
    let (v, f) := treeFold combine (treeLevels t) (laneValues t (g a))
    let (b, h) := resultLane (s.laneCtx m) m t v
    ⟨some (d, BitVec.ofNat 256 b), none, f ||| h⟩)

/-- `vredmax` and `vredmin`. -/
def State.laneReducePick (s : State) (m : Modifier) (len : Nat) (greater : Bool) (t : LaneType) (d a : Reg) : State :=
  s.laneReduce m len t d a (Exact.pick greater)

/-- VREDADD (R63, R99). -/
def execVredadd (t : LaneType) (d a : Reg) (s : State) : Out :=
  .next (s.laneReduce plainMod 4 t d a (addStep (s.laneCtx plainMod) t))
/-- VREDMAX (R63, R99). -/
def execVredmax (t : LaneType) (d a : Reg) (s : State) : Out := .next (s.laneReducePick plainMod 4 true t d a)
/-- VREDMIN (R63, R99). -/
def execVredmin (t : LaneType) (d a : Reg) (s : State) : Out := .next (s.laneReducePick plainMod 4 false t d a)

/-- VPERM (R100). -/
def execVperm (t : LaneType) (d a b : Reg) (s : State) : Out :=
  let w := laneBits t
  .next (s.rawLane 4 [a, b] d (fun g =>
    ofLanes w ((lanes w t.lanes (g b)).map (fun k => if k < t.lanes then lane w (g a) k else 0))))

/-- The result type of `vdot` (R101). -/
def dotType : LaneType → LaneType
  | .i8 => .i32
  | .f32 | .bf16 | .f16 | .i32 | .i16 | .d8 => .f32

/-- `vdot`: the exact sum of the exact products, rounded once (R64, R101). -/
def State.laneDot (s : State) (m : Modifier) (len : Nat) (t : LaneType) (d a b : Reg) : State :=
  s.runLane len [a, b] [d] (fun g =>
    let ps := List.zipWith Exact.mul (laneValues t (g a)) (laneValues t (g b))
    let (v, f) := sumNums s.th.rmode (ps.map (·.1))
    let (r, h) := resultLane (s.laneCtx m) m (dotType t) v
    ⟨some (d, BitVec.ofNat 256 r), none, f ||| h ||| orFlags (ps.map (·.2))⟩)

/-- VDOT (R101). -/
def execVdot (t : LaneType) (d a b : Reg) (s : State) : Out := .next (s.laneDot plainMod 4 t d a b)

/-! ### Conversions (R102 to R105) -/

/-- One lane converted to an integer type under a modifier (R102): it always saturates. -/
def convertToInt (c : Ctx) (m : Modifier) (src dst : LaneType) (x : Exact) : Nat × Flags :=
  let w := laneBits dst
  let v := x.scale m.k.toInt
  let (r, fl) : Int × Flags :=
    if src.integer then
      let (n, inexact) := v.toInt c.mode
      if clampInt w n = n then (n, flagIf inexact nx) else (clampInt w n, sv)
    else v.convertInt w c.mode
  let r := if m.abs then clampInt w |r| else r
  let r := if m.neg then clampInt w (-r) else r
  (wrap w r, fl)

/-- One lane converted to D8 under a modifier (R59, R102): abs and neg act on bit 7 of the code, never on 0x00 or
0x80. -/
def convertToD8 (m : Modifier) (x : Exact) : Nat × Flags :=
  let (c, fl) := encodeD8 (x.scale m.k.toInt)
  if c % 128 = 0 then (c, fl)
  else
    let c := if m.abs then c % 128 else c
    (if m.neg then c ^^^ 128 else c, fl)

/-- One lane of a conversion (R55, R102): alone, an integer or d8 lane of the destination's own type is copied; in a modifier
pair it is converted. -/
def convertLane (c : Ctx) (m : Modifier) (pair : Bool) (src dst : LaneType) (v : Nat) : Nat × Flags :=
  let x := laneValue src v
  match dst with
  | .f32 | .bf16 | .f16 =>
    let (b, f) := floatLane c m (fmtOf dst) x
    (b, f ||| x.snan)
  | .i32 | .i16 | .i8 => if !pair ∧ src = dst then (v, 0) else convertToInt c m src dst x
  | .d8 => if !pair ∧ src = dst then (v, 0) else convertToD8 m x

/-- `vcvt`: the low lanes are converted, and the other bits become 0 (R102). -/
def State.laneCvt (s : State) (m : Modifier) (len : Nat) (src dst : LaneType) (d a : Reg) : State :=
  s.runLane len [a] [d] (fun g =>
    let rs := (lanes (laneBits src) (256 / max (laneBits src) (laneBits dst)) (g a)).map
      (convertLane (s.laneCtx m) m (isPair len) src dst)
    ⟨some (d, ofLanes (laneBits dst) (rs.map (·.1))), none, orFlags (rs.map (·.2))⟩)

/-- VCVT (R102). -/
def execVcvt (t u : LaneType) (d a : Reg) (s : State) : Out := .next (s.laneCvt plainMod 4 t u d a)

/-- Whether a lane is an outlier against a threshold (R103). -/
def outlier (threshold v : Exact) : Bool := v.abs.cmp threshold == some .gt

/-- The block magnitude of R103: NaN once a lane is NaN, and otherwise the greatest that the threshold admits. -/
def blockMax (threshold : Exact) : List Exact → Exact → Exact
  | [], a => a
  | v :: r, a =>
    blockMax threshold r
      (if v.isNan then .nan false
        else if a.isNan then a
        else match v.abs.cmp threshold with
          | some .gt | none => a
          | _ => (Exact.pick true a v.abs).1)

/-- VAMAX (R103). -/
def execVamax (t : LaneType) (d a : Reg) (s : State) : Out :=
  .next (s.runLane 4 [a] [] (fun g =>
    let m := blockMax (f32.unpack s.th.othresh.toNat) (laneValues t (g a)) Exact.zero
    let (code, fl) := scaleX8 m
    ⟨none, some (d, BitVec.ofNat 64 ((f32.round nearest false m).1 * 2 ^ 32 + code)), fl⟩))

/-- One lane of `vq8`: whether it is an outlier, its code, the element it sends to the side list, and its flags (R104). -/
def quantLane (threshold : Exact) (code : Nat) (v : Exact) : Bool × Nat × Nat × Flags :=
  if outlier threshold v then
    let (b, f) := bf16.round nearest false v
    (true, 0, b, f)
  else
    let (q, f) := encodeBlock v code
    (false, q, 0, f)

/-- VQ8 (R104): the codes replace fa, the mask goes to x[d], and the outliers go to stream 3, behind fa's own block where fa is
that stream's register (R95, R109). -/
def execVq8 (t : LaneType) (d a b : Reg) (s : State) : Out :=
  .next (match s.wrongWay [a] [a] with
    | some k => s.trap 0x0D k
    | none =>
      let qs := (laneValues t (s.operand a)).map
        (quantLane (f32.unpack s.th.othresh.toNat) ((s.getX b).toNat % 256))
      let side := (qs.filter (·.1)).map (fun q => q.2.2.1)
      let suitable := match s.th.streams[3] with
        | some st => st.type.val == 1 && (st.dir.val == 1 || st.dir.val == 2)
        | none => false
      if !side.isEmpty && !suitable then s.trap 0x0D 3
      else
        let out : LaneOut := ⟨some (a, ofLanes 8 (qs.map (fun q => q.2.1))),
          some (d, BitVec.ofNat 64 (maskOf (qs.map (·.1)))), orFlags (qs.map (fun q => q.2.2.2))⟩
        let block := match s.streamOf a with
          | some (_, st) => [(st, st.per)]
          | none => []
        let sideList := match s.th.streams[3] with
          | some st => if side.isEmpty then [] else [(if a = streamReg 3 then st.advance st.per else st, side.length)]
          | none => []
        match s.transferFault (block ++ sideList) with
        | some (c, q) => s.trap c q
        | none => s.whenStreams (if side.isEmpty then [a] else [a, streamReg 3]) (fun s =>
          let s := s.deliverLane 4 [a] out
          match s.th.streams[3] with
          | some st =>
            if side.isEmpty then s
            else (s.putBlock st side.length (ofLanes 16 side)).setStream 3 (some (st.advance side.length))
          | none => s))

/-- VDQ8 (R105). -/
def execVdq8 (t : LaneType) (d a b : Reg) (s : State) : Out :=
  .next (s.runLane 4 [a] [d] (fun g =>
    let rs := (lanes 8 t.lanes (g a)).map (fun q =>
      (fmtOf t).round s.th.rmode false (dequant q ((s.getX b).toNat % 256)))
    ⟨some (d, ofLanes (laneBits t) (rs.map (·.1))), none, orFlags (rs.map (·.2))⟩))

/-! ### Lane moves (R106) -/

/-- VBCAST (R106). -/
def execVbcast (t : LaneType) (d a : Reg) (s : State) : Out :=
  .next (s.rawLane 4 [] d (fun _ => ofLanes (laneBits t) (List.replicate t.lanes (s.getX a).toNat)))

/-- VINS (R106). -/
def execVins (t : LaneType) (d a : Reg) (k : Fin 32) (s : State) : Out :=
  let w := laneBits t
  .next (s.rawLane 4 [d] d (fun g => ofLanes w ((lanes w t.lanes (g d)).set k.val ((s.getX a).toNat % 2 ^ w))))

/-- VEXT (R106). -/
def execVext (t : LaneType) (d a : Reg) (k : Fin 32) (s : State) : Out :=
  let w := laneBits t
  .next (s.runLane 4 [a] [] (fun g =>
    let v := lane w (g a) k.val
    ⟨none, some (d, if t.integer then BitVec.ofInt 64 (sgn w v) else BitVec.ofNat 64 v), 0⟩))

/-- VMVX (R106). -/
def execVmvx (d a : Reg) (j : Fin 32) (s : State) : Out :=
  .next (s.rawLane 4 [a, d] d (fun g => ofLanes 64 ((lanes 64 4 (g d)).set j.val (lane 64 (g a) j.val))))

/-! ### The modifier word (R34 to R38) -/

/-- Whether a word is in the modifiable set, by its major and function code alone (R35). -/
def modifiable (w : Nat) : Bool :=
  match major w with
  | 0x22 => ffn w ≤ 4 || (8 ≤ ffn w && ffn w ≤ 13) || (17 ≤ ffn w && ffn w ≤ 19)
  | 0x23 => ffn w == 6 || ffn w == 7 || ffn w == 9
  | 0x24 => ffn w == 0
  | 0x25 => true
  | _ => false

/-- The result type of an instruction of the modifiable set (R35, R92, R101, R102). -/
def modifiedType : Instr → LaneType
  | .vdot t _ _ _ => dotType t
  | .vcvt _ u _ _ => u
  | .vadd t .. | .vsub t .. | .vmul t .. | .vmax t .. | .vmin t .. | .vdiv t .. | .vsqrt t .. | .vrcp t .. | .vrsq t ..
  | .vexp2 t .. | .vlog2 t .. | .vabs t .. | .vneg t .. | .vmov t .. | .vredmax t .. | .vredmin t .. | .vfma t ..
  | .vfms t .. | .vfnma t .. | .vfnms t .. => t
  | _ => .d8

/-- Runs an instruction of the modifiable set under a modifier; none for any other (R35, R36). -/
def State.runModified (s : State) (m : Modifier) : Instr → Option State
  | .vadd t d a b => some (s.laneAdd m 8 t d a b)
  | .vsub t d a b => some (s.laneSub m 8 t d a b)
  | .vmul t d a b => some (s.laneMul m 8 t d a b)
  | .vmax t d a b => some (s.lanePick m 8 true t d a b)
  | .vmin t d a b => some (s.lanePick m 8 false t d a b)
  | .vdiv t d a b => some (s.laneDiv m 8 t d a b)
  | .vsqrt t d a => some (s.laneSqrt m 8 t d a)
  | .vrcp t d a => some (s.laneRcp m 8 t d a)
  | .vrsq t d a => some (s.laneRsq m 8 t d a)
  | .vexp2 t d a => some (s.laneExp2 m 8 t d a)
  | .vlog2 t d a => some (s.laneLog2 m 8 t d a)
  | .vabs t d a => some (s.laneSign m 8 t d a false)
  | .vneg t d a => some (s.laneSign m 8 t d a true)
  | .vmov t d a => some (s.laneMov m 8 t d a)
  | .vredmax t d a => some (s.laneReducePick m 8 true t d a)
  | .vredmin t d a => some (s.laneReducePick m 8 false t d a)
  | .vdot t d a b => some (s.laneDot m 8 t d a b)
  | .vcvt t u d a => some (s.laneCvt m 8 t u d a)
  | .vfma t d a b c => some (s.laneFma m 8 false false t d a b c)
  | .vfms t d a b c => some (s.laneFma m 8 false true t d a b c)
  | .vfnma t d a b c => some (s.laneFma m 8 true true t d a b c)
  | .vfnms t d a b c => some (s.laneFma m 8 true false t d a b c)
  | _ => none

/-- Whether R38 refuses the pair for what follows the modifier word: D8 codes from `vmov`, or a clamp on an integer or
D8 result. -/
def refusesPair (m : Modifier) (i : Instr) : Bool :=
  (match i with | .vmov .d8 _ _ => true | _ => false) || (m.clamp != 0 && !(modifiedType i).float)

/-- A word with the `n` bits from `lo` up made zero. -/
def clearBits (w lo n : Nat) : Nat := w - fld w lo n * 2 ^ lo

/-- The instruction that a word of the modifiable set is but for what its form must leave 0, the b field and bits [26:25], and, for a
`vcvt`, but for a source type that R40 rejects: what R38 asks of the result type stands before the reserved fields (R92). -/
def bodyOf (w : Nat) : Option Instr :=
  let plain := [w, clearBits w 17 5, clearBits w 25 2, clearBits (clearBits w 17 5) 25 2]
  let source := if fld w 0 7 = 0x49 ∧ fld w 27 5 = 0 then [clearBits w 22 3, clearBits (clearBits w 22 3) 25 2] else []
  (plain ++ source).findSome? (fun v => (decWord v).toOption)

/-- Whether a modifier word raises cause 0x02 with what follows it (R38). -/
def State.badModified (s : State) (m : Modifier) (follower : BitVec 32) : Bool :=
  let w := follower.toNat
  w % 2 == 0 || !modifiable w || (bodyOf w).any (refusesPair m) ||
    match decWord w with
    | .error _ => true
    | .ok j => (s.runModified m j).isNone

/-- MODIFIER_WORD (R34 to R38): the word and the instruction after it are one instruction of 8 bytes. -/
def execModifierWord (m : Modifier) (follower : BitVec 32) (s : State) : Out :=
  let i : Instr := .modifierWord m follower
  let w := follower.toNat
  .next (if w % 2 = 0 ∨ !modifiable w ∨ (bodyOf w).any (refusesPair m) then s.trapWord 0x02 i
    else match decWord w with
      | .error _ => s.trap 0x02 w
      | .ok j =>
        match s.runModified m j with
          | some t => t
          | none => s.trapWord 0x02 i)

end Sys2Proof.Machine
end

