-- ==== Sys2Proof/Machine/Control.lean ====
section
/-!
DEFINITION. Sys2Proof/Machine/Control.lean: branches and jumps (R76 to R78), hardware loops (R80), state registers
(R11, R12, R82, R90), `exit`, `yield`, `sys`, `brk` (R86 to R89), the returns from an upcall (R300), and `udf` (R43).
-/
namespace Sys2Proof.Machine

/-! ### Transfers -/

/-- Takes a transfer to `g`, after `f` has written the link register; a bad target traps and nothing is written
(R17, R78). -/
def State.transfer (s : State) (g : Word) (f : State → State) : State :=
  if g.getLsbD 0 then s.trap 0x04 g.toNat
  else if 2 ^ 56 ≤ g.toNat then s.trap 0x07 g.toNat
  else (f s).retireTo g

/-- Target of a branch: PC + 2 * SignExt(offset, 15) (R32, R76). -/
def State.branchTarget (s : State) (o : BitVec 15) : Word := s.th.pc + (o.signExtend 64 <<< 1)

/-- A conditional branch (R76, R78). -/
def State.branch (s : State) (c : Bool) (o : BitVec 15) : State :=
  if c then s.transfer (s.branchTarget o) id else s.retire 4

/-- BEQ (R76). -/
def execBeq (a b : Reg) (o : BitVec 15) (s : State) : Out := .next (s.branch (s.getX a == s.getX b) o)
/-- BNE (R76). -/
def execBne (a b : Reg) (o : BitVec 15) (s : State) : Out := .next (s.branch (s.getX a != s.getX b) o)
/-- BLT (R76). -/
def execBlt (a b : Reg) (o : BitVec 15) (s : State) : Out := .next (s.branch ((s.getX a).slt (s.getX b)) o)
/-- BGE (R76). -/
def execBge (a b : Reg) (o : BitVec 15) (s : State) : Out := .next (s.branch (!(s.getX a).slt (s.getX b)) o)
/-- BLO (R76). -/
def execBlo (a b : Reg) (o : BitVec 15) (s : State) : Out := .next (s.branch ((s.getX a).ult (s.getX b)) o)
/-- BHS (R76). -/
def execBhs (a b : Reg) (o : BitVec 15) (s : State) : Out := .next (s.branch (!(s.getX a).ult (s.getX b)) o)

/-- JAL: the link register takes PC + 4 (R77). -/
def execJal (d : Reg) (i : BitVec 20) (s : State) : Out :=
  .next (s.transfer (s.th.pc + (i.signExtend 64 <<< 1)) (fun s => s.setX d (s.th.pc + 4)))

/-- JALR: x[a] is read before x[d] is written (R77). -/
def execJalr (d a : Reg) (i : BitVec 15) (s : State) : Out :=
  .next (s.transfer (s.getX a + imm15 i) (fun s => s.setX d (s.th.pc + 4)))

/-! ### Hardware loops -/

/-- The length in bytes of the instruction whose first halfword this is. A modifier word makes one instruction with the word
after it, 8 bytes (R37); R80 reads bit 0 alone and names no pair (DESIGN CHOICE, the log's entry 64). -/
def firstLength (h : Nat) : Nat := if h % 2 = 0 then 2 else if major h = 0x30 then 8 else 4

/-- The loop instructions (R80): an active level may not end at the loop instruction; a count of 0 skips the body; otherwise
the outer level is taken if it is free, or the inner one if its body lies inside the outer. -/
def State.loopStart (s : State) (i : Instr) (count : Word) (e : Fin 1024) : State :=
  let t := s.th
  let bodyend := s.pcPlus (4 + 2 * (e.val - 1))
  if (t.loop0.flag ∧ t.loop0.last = t.pc) ∨ (t.loop1.flag ∧ t.loop1.last = t.pc) then s.trapWord 0x11 i
  else if count = 0 then
    match s.fetchHalf bodyend.toNat with
    | (.error (c, q), s) => s.trap c q
    | (.ok h, s) => s.retireSkip bodyend (bodyend + BitVec.ofNat 64 (firstLength h.toNat))
  else
    let l : Loop := ⟨s.pcPlus 4, bodyend, count, true⟩
    if ¬ t.loop0.flag then ((s.setTh { t with pc := s.pcPlus 4, loop0 := l })).count
    else if ¬ t.loop1.flag then
      if t.loop0.last < bodyend then s.trapWord 0x11 i
      else (s.setTh { t with pc := s.pcPlus 4, loop1 := l }).count
    else s.trapWord 0x11 i

/-- LOOP (R80). -/
def execLoop (a : Reg) (e : Fin 1024) (s : State) : Out := .next (s.loopStart (.loop a e) (s.getX a) e)
/-- LOOPI (R80). -/
def execLoopi (n : Fin 32) (e : Fin 1024) (s : State) : Out :=
  .next (s.loopStart (.loopi n e) (BitVec.ofNat 64 n.val) e)

/-! ### State registers -/

/-- The launch of the thread at hand, while the launch table holds it. -/
def State.ownLaunch (s : State) : Option Launch := s.launchOf s.th.ident.vf s.th.ident.launch

/-- Instructions that each rival may retire in a round; none when one rival is live (R329). -/
def Launch.allowance (l : Launch) : Option Nat := if l.live ≤ 1 then none else some (l.pkt.allow0 * 2 ^ l.round)

/-- The rival of the thread at hand, with its launch (R328). -/
def State.ownRival (s : State) : Option (Launch × Rival) :=
  match s.th.ident.rival, s.ownLaunch with
  | some r, some l => (l.rivals[r]?).map (fun v => (l, v))
  | _, _ => none

/-- sr.allow: what the rival may still retire in this round, all ones when unlimited, 0 outside a tournament (R337). -/
def State.allowLeft (s : State) : Nat :=
  match s.ownRival with
  | none => 0
  | some (l, v) =>
    match l.allowance with
    | none => 2 ^ 64 - 1
    | some n => n - v.used

/-- The status register (R13). -/
def Thread.status (t : Thread) : Word :=
  BitVec.ofNat 64 (t.sys.toNat + 2 * t.uact.toNat + 4 * (!t.held.isEmpty).toNat)

/-- sr.lease (R243). -/
def Thread.leaseWord (t : Thread) : Word :=
  match t.lease with
  | none => 0
  | some l => if l.left = 0 then 0 else BitVec.ofNat 64 (l.cls.val + 4 + 2 ^ 32 * l.left)

/-- sr.ring; 0 for a thread that does not own the unit (R232). -/
def State.ringWord (s : State) : Word :=
  let u := s.unitOf (coreOf s.th.slot)
  if s.ownsUnit s.th.slot then
    BitVec.ofNat 64 (u.head + 16 * u.tail + 256 * u.fill + 2048 + 65536 * u.reqs.length)
  else 0

/-- The tick of a die: its own clock since it left reset (R2, R11). -/
def State.tick (s : State) (die : Nat) : Nat := s.clock + Tab.get s.skew die 0

/-- The value of a state register; none for an unassigned number (R11, R12, R79, R337). -/
def State.srRead (s : State) (n : Nat) : Option Word :=
  let t := s.th
  let nat (v : Nat) : Option Word := some (BitVec.ofNat 64 v)
  match n with
  | 0x000 => some t.status
  | 0x001 => some t.epc
  | 0x002 => some t.cause
  | 0x003 => some t.tval
  | 0x004 => some t.uvec
  | 0x005 => some t.usave
  | 0x006 => some t.noticeWord
  | 0x010 => nat (s.tick (dieOf t.slot))
  | 0x011 => some t.iret
  | 0x020 => nat (t.slot % 8)
  | 0x021 => nat (t.slot / 8 % 8)
  | 0x022 => nat (t.slot / 64 % 20)
  | 0x023 => nat (dieOf t.slot)
  | 0x024 => nat s.cfg.device
  | 0x025 => nat t.ident.gang
  | 0x026 => nat t.ident.grank
  | 0x027 => nat t.gsize
  | 0x028 => nat t.ident.launch
  | 0x029 => nat t.ident.vf
  | 0x030 => nat (s.counter t .lc)
  | 0x031 => nat (s.counter t .sc)
  | 0x032 => nat (s.counter t .yc)
  | 0x033 => nat (s.counter t .mc)
  | 0x034 => nat (s.counter t .tc)
  | 0x035 => nat (s.counter t .nc)
  | 0x036 => nat (s.counter t .ic)
  | 0x040 => some (t.rmode.setWidth 64)
  | 0x041 => some (t.fflags.setWidth 64)
  | 0x042 => some (t.othresh.setWidth 64)
  | 0x043 => some (t.clamplo.setWidth 64)
  | 0x044 => some (t.clamphi.setWidth 64)
  | 0x048 => some t.loop0.beg
  | 0x049 => some t.loop0.last
  | 0x04A => some t.loop0.cnt
  | 0x04B => nat t.loop0.flag.toNat
  | 0x04C => some t.loop1.beg
  | 0x04D => some t.loop1.last
  | 0x04E => some t.loop1.cnt
  | 0x04F => nat t.loop1.flag.toNat
  | 0x050 => some t.score
  | 0x051 => nat (t.ident.rival.getD 0)
  | 0x052 => nat (match s.ownRival with | some (l, _) => l.round | none => 0)
  | 0x053 => nat s.allowLeft
  | 0x054 => nat (match s.ownRival with | some (_, v) => v.limit % 2 ^ 24 + 2 ^ 24 * v.share.length | none => 0)
  | 0x060 => some t.leaseWord
  | 0x070 => some t.mstride
  | 0x071 => some t.mrow
  | 0x072 => some s.ringWord
  | _ => none

/-- A write of a state register: none for an unassigned number or a read-only register (R12). Bits that a register
defines as reading 0 ignore what is written to them. -/
def Thread.srWrite (t : Thread) (n : Nat) (v : Word) : Option Thread :=
  let even := v &&& ~~~1#64
  match n with
  | 0x001 => some { t with epc := v }
  | 0x002 => some { t with cause := v }
  | 0x003 => some { t with tval := v }
  | 0x004 => some { t with uvec := even }
  | 0x005 => some { t with usave := v &&& 0x3FC0#64 }
  | 0x040 => some { t with rmode := v.setWidth 2 }
  | 0x041 => some { t with fflags := v.setWidth 7 }
  | 0x042 => some { t with othresh := v.setWidth 32 }
  | 0x043 => some { t with clamplo := v.setWidth 32 }
  | 0x044 => some { t with clamphi := v.setWidth 32 }
  | 0x048 => some { t with loop0 := { t.loop0 with beg := even } }
  | 0x049 => some { t with loop0 := { t.loop0 with last := even } }
  | 0x04A => some { t with loop0 := { t.loop0 with cnt := v } }
  | 0x04B => some { t with loop0 := { t.loop0 with flag := v.getLsbD 0 } }
  | 0x04C => some { t with loop1 := { t.loop1 with beg := even } }
  | 0x04D => some { t with loop1 := { t.loop1 with last := even } }
  | 0x04E => some { t with loop1 := { t.loop1 with cnt := v } }
  | 0x04F => some { t with loop1 := { t.loop1 with flag := v.getLsbD 0 } }
  | 0x050 => some { t with score := v }
  | 0x070 => some { t with mstride := v }
  | 0x071 => some { t with mrow := v }
  | _ => none

/-- SRD (R12, R90). -/
def execSrd (d : Reg) (n : Fin 1024) (s : State) : Out :=
  .next (match s.srRead n.val with
    | some v => s.result d v
    | none => s.trapWord 0x02 (.srd d n))

/-- SWR: takes effect for the next instruction, so the end check of the `swr` itself sees the loop state before it (R12,
R82, R90). The 0x11 check sees the flags as they stand before that end check (DESIGN CHOICE, the log's entry 64). -/
def execSwr (n : Fin 1024) (a : Reg) (s : State) : Out :=
  .next (match s.th.srWrite n.val (s.getX a) with
    | none => s.trapWord 0x02 (.swr n a)
    | some t =>
      if t.loop1.flag ∧ ¬ t.loop0.flag then s.trapWord 0x11 (.swr n a)
      else
        let r := s.retire 4
        match r.th.srWrite n.val (s.getX a) with
        | some u => r.setTh u
        | none => r)

/-! ### Thread and system instructions -/

/-- SYS: cause 0x14 with the operand as its qualifier; 0x12 inside an open packet (R89, R142). -/
def execSys (a : Reg) (s : State) : Out :=
  .next (if s.th.packet.isSome then s.trapWord 0x12 (.sys a) else s.trap 0x14 (s.getX a).toNat)

/-- BRK: cause 0x13; 0x12 inside an open packet (R89, R142). -/
def execBrk (s : State) : Out := .next (if s.th.packet.isSome then s.trapWord 0x12 .brk else s.trapWord 0x13 .brk)

/-- YIELD: the core's instruction cache is invalidated (R19, R88). -/
def execYield (s : State) : Out :=
  .next (if s.th.packet.isSome then s.trapWord 0x12 .yield else ((s.dropIcache (coreOf s.th.slot)).seesCode).retire 4)

/-- URET (R300). -/
def execUret (s : State) : Out := .next (s.uret .uret false)

/-- URET_REPLAY (R300, R301). -/
def execUretReplay (s : State) : Out := .next (s.uret .uretReplay true)

/-- UDF: cause 0x01 (R43). -/
def execUdf (u : BitVec 25) (s : State) : Out := .next (s.trapWord 0x01 (.udf u))

/-- Whether every counter of the thread at hand is 0 (R87); the faults that R297 holds back are the held records'
business. -/
def State.quiet (s : State) : Bool :=
  s.th.acc.all (fun a => a.stuck.isSome) && [Counter.yc, .mc, .tc, .nc, .ic].all (fun c => s.counter s.th c == 0)

/-- The requested drains of tiles already closed, which `mrel` and `exit` wait for (R234). -/
def MatrixUnit.owed (u : MatrixUnit) : Nat := min u.reqs.length u.fill

/-- The end of the thread at hand by its `exit` (R87): everything that it and its engine commands have written is released at device
scope (R186, R191), the matrix unit is released, claims and the lease end, the slot
is freed and the exit value counts for its gang; an arrival at `gbar` still counts (R131). A handler of it that has stopped, and so
left nc (R266), goes on without it. -/
def State.leave (s : State) (value : Word) : State :=
  let i := s.th.ident
  let s := ((s.count.releasedAll .dev).noteGot).mapOwners (fun o => o.leave s.th)
  let s := if s.ownsUnit s.th.slot then s.releaseUnit (coreOf s.th.slot) else s
  let s := match s.th.arrived, s.th.depart, s.ownGang with
    | some c, none, some g => s.putGang { g with gone := g.gone ++ [c] }
    | _, _, _ => s
  ((s.endClaims i).freeSlot).endRank i (some (sgn 32 (value.toNat % 2 ^ 32)))

/-- EXIT (R87): waits until every counter is 0 and the matrix drains it owes are done, giving way to held records. -/
def execExit (a : Reg) (s : State) : Out :=
  .next (if s.th.packet.isSome then s.trapWord 0x12 (.exit a)
    else match s.ownWhy.head? with
      | some p => s.takeParked p.2
      | none =>
        let u := s.unitOf (coreOf s.th.slot)
        if !s.quiet || (s.ownsUnit s.th.slot && u.owed != 0 && !u.held) then s.stall.inRelease .dev
        else s.leave (s.getX a))

end Sys2Proof.Machine
end

