-- ==== Sys2Proof/Machine/Mem.lean ====
section
/-!
DEFINITION. Sys2Proof/Machine/Mem.lean: loads, stores and atomics, global and local (R83 to R85, R168 to R173), counter waits
and fences (R177, R178), sync words (R181, R182), and the steps by which accesses in flight are performed (R84, R172,
R297).
-/
namespace Sys2Proof.Machine

/-! ### Issue -/

/-- The precise checks of a global access (R15, R83, R169, R171): alignment, then the address space. Only the first byte is
checked: of a vector access that starts below 2^56 and reaches it, the second part lies at VA 0 (DESIGN CHOICE, the log's entry 64). -/
def globalCheck (va align : Nat) : Option (Nat × Nat) :=
  if va % align ≠ 0 then some (0x04, va) else if 2 ^ 56 ≤ va then some (0x07, va) else none

/-- Whether an access may issue: no acquire is in flight, and its counters are below their limits (R166, R176). -/
def State.mayIssue (s : State) (op : AccOp) : Bool :=
  !s.th.acquiring && (!op.isLoad || s.counter s.th .lc < 16) && (!op.isStore || s.counter s.th .sc < 32)

/-- Issues a global access, which retires (R84); `named` lists the f registers whose streams move. -/
def State.issue (s : State) (a : Access) (named : List Reg) : State :=
  let a := { a with hand := s.th.uact, seq := s.th.seq }
  ({ s with th := { s.th with acc := s.th.acc ++ [a], seq := s.th.seq + 1 } }.advanceStreams named).retire 4

/-- Issues a global access once it may, and waits until then. -/
def State.issueWhenFree (s : State) (a : Access) (named : List Reg) : State :=
  if s.mayIssue a.op then s.issue a named else s.stall

/-- An access with nothing yet known of it. -/
def Access.of (op : AccOp) (va : Nat) (scope : Order) (acq : Bool) (reg : Reg) (data : LaneReg) (cmp : Word) : Access :=
  ⟨op, va, scope, acq, reg, data, cmp, false, 0, none, none⟩

/-! ### Global scalar accesses (R83) -/

/-- LDG (R83): an acquire at its order's scope. -/
def execLdg (o : Order) (z : Size) (sg : Bool) (d a : Reg) (i : BitVec 10) (s : State) : Out :=
  let n := sizeBytes z
  let va := s.address a i n
  .next (match globalCheck va n with
    | some (c, q) => s.trap c q
    | none => s.issueWhenFree (Access.of (.ld z sg) va o (o != .plain) d 0 0) [])

/-- STG (R83): a release at its order's scope. -/
def execStg (o : Order) (z : Size) (d a : Reg) (i : BitVec 10) (s : State) : Out :=
  let n := sizeBytes z
  let va := s.address a i n
  .next (match globalCheck va n with
    | some (c, q) => s.trap c q
    | none => s.afterRelease o (fun s =>
        s.issueWhenFree (Access.of (.st z) va o false d ((s.getX d).setWidth 256) 0) []))

/-! ### Global vector accesses (R168, R169) -/

/-- The tracked attribute of a page, as the home slice of an address finds it; none where no leaf is found (R163, R165). -/
def State.trackedAt (s : State) (fn slice va : Nat) : Option Bool :=
  match s.cached slice fn va with
  | some (_, t) => some (pteTracked t.leaf)
  | none =>
    match (s.walkVa slice fn va false).1 with
    | .leaf w _ _ => some (pteTracked w)
    | _ => none

/-- Whether a vector access spans two pages of different tracked attributes (R169). -/
def State.splits (s : State) (va : Nat) : Bool :=
  let at_ (v : Nat) : Option Bool := s.trackedAt s.th.ident.vf (dieOf s.th.slot * 160 + homeSlice v) v
  let next := va / 65536 * 65536 + 65536
  next < va + 32 &&
    match at_ va, at_ next with
    | some p, some q => p != q
    | _, _ => false

/-- LDG_V (R169): a bound destination is pushed when the load is performed (R95). -/
def execLdgV (o : Order) (d a : Reg) (i : BitVec 10) (s : State) : Out :=
  let va := s.address a i 32
  .next (match s.wrongWay [] [d] with
    | some k => s.trap 0x0D k
    | none =>
      match globalCheck va 2 with
      | some (c, q) => s.trap c q
      | none =>
        match s.blockFault [d] with
        | some (c, q) => s.trap c q
        | none =>
          if s.splits va then s.trap 0x08 va
          else s.issueWhenFree (Access.of .ldv va o (o != .plain) d 0 0) [])

/-- STG_V (R169): a bound source is popped at issue (R95). -/
def execStgV (o : Order) (d a : Reg) (i : BitVec 10) (s : State) : Out :=
  let va := s.address a i 32
  .next (match s.wrongWay [d] [] with
    | some k => s.trap 0x0D k
    | none =>
      match globalCheck va 2 with
      | some (c, q) => s.trap c q
      | none =>
        match s.blockFault [d] with
        | some (c, q) => s.trap c q
        | none =>
          if s.splits va then s.trap 0x08 va
          else s.afterRelease o (fun s => s.issueWhenFree (Access.of .stv va o false d (s.operand d) 0) [d]))

/-! ### Local accesses (R85, R168, R169) -/

/-- The precise checks of a local access of `n` bytes. -/
def State.localCheck (s : State) (la align n : Nat) : Option (Nat × Nat) :=
  if la % align ≠ 0 then some (0x04, la) else s.localFault s.th.owner la n

/-- An acquire at gang scope with the local load of `n` bytes that makes it, if the order field asks for one (R85, R192, R202). -/
def State.gangAcquire (s : State) (o : Bool) (la n : Nat) : State :=
  let v := s.th.view .core
  if o then (s.readLocWords v la n (·.within v .gang)).acquire .gang else s

/-- A little-endian number of `n` bytes in local memory, as the thread at hand reads it (R184). -/
def State.ownNat (s : State) (la n : Nat) : Nat := s.seeNat (s.th.view .core) la n

/-- The thread at hand stores bytes to local memory (R184). -/
def State.ownPut (s : State) (la : Nat) (bs : List Byte) : State := s.putLoc (s.th.view .core) la bs

/-- LDL (R85). It reads a byte that is marked uncorrectable as it stands and nothing is reported, as every local read by the core path
does (R23 names no cause for it; DESIGN CHOICE, the log's entry 66). -/
def execLdl (o : Bool) (z : Size) (sg : Bool) (d a : Reg) (i : BitVec 10) (s : State) : Out :=
  let n := sizeBytes z
  let la := s.address a i n
  .next (match s.localCheck la n n with
    | some (c, q) => s.trap c q
    | none => s.whenFree (fun s =>
        let s := s.gangAcquire o la n
        (s.setX d (extend n sg (s.ownNat la n))).retire 4))

/-- STL (R85). -/
def execStl (o : Bool) (z : Size) (d a : Reg) (i : BitVec 10) (s : State) : Out :=
  let n := sizeBytes z
  let la := s.address a i n
  .next (match s.localCheck la n n with
    | some (c, q) => s.trap c q
    | none => s.afterRelease (if o then .gang else .plain) (fun s => s.whenFree (fun s =>
        (s.ownPut la (bytesOf n (s.getX d).toNat)).retire 4)))

/-- LDL_V (R169). -/
def execLdlV (o : Bool) (d a : Reg) (i : BitVec 10) (s : State) : Out :=
  let la := s.address a i 32
  .next (match s.wrongWay [] [d] with
    | some k => s.trap 0x0D k
    | none =>
      match firstFault [s.localCheck la 2 32, s.blockFault [d]] with
      | some (c, q) => s.trap c q
      | none => s.whenFree (fun s =>
          let s := s.gangAcquire o la 32
          ((s.writeF d (BitVec.ofNat 256 (s.ownNat la 32))).advanceStreams [d]).retire 4))

/-- STL_V (R169). -/
def execStlV (o : Bool) (d a : Reg) (i : BitVec 10) (s : State) : Out :=
  let la := s.address a i 32
  .next (match s.wrongWay [d] [] with
    | some k => s.trap 0x0D k
    | none =>
      match firstFault [s.localCheck la 2 32, s.blockFault [d]] with
      | some (c, q) => s.trap c q
      | none => s.afterRelease (if o then .gang else .plain) (fun s => s.whenFree (fun s =>
          ((s.ownPut la (bytesOf 32 (s.operand d).toNat)).advanceStreams [d]).retire 4)))

/-! ### Atomics (R171, R173) -/

/-- The scope of an atomic. -/
def atomScope : AtomOrder → Order
  | .rlxGang | .acqrelGang => .gang
  | .rlxDev | .acqrelDev => .dev
  | .rlxSys | .acqrelSys => .sys

/-- Whether an atomic releases before and acquires after. -/
def atomAcqrel : AtomOrder → Bool
  | .rlxGang | .rlxDev | .rlxSys => false
  | .acqrelGang | .acqrelDev | .acqrelSys => true

/-- Issues a global atomic: its release comes first, and its acquire when it is performed (R171). -/
def State.atomic (s : State) (op : AccOp) (o : AtomOrder) (d a b : Reg) : State :=
  let va := (s.getX a).toNat
  match globalCheck va op.bytes with
  | some (c, q) => s.trap c q
  | none => s.afterRelease (if atomAcqrel o then atomScope o else .plain) (fun s =>
      s.issueWhenFree (Access.of op va (atomScope o) (atomAcqrel o) d ((s.getX b).setWidth 256) (s.getX d)) [])

/-- AMO_ADD (R171). -/
def execAmoAdd (o : AtomOrder) (z : Bool) (d a b : Reg) (s : State) : Out := .next (s.atomic (.amo 0 z) o d a b)
/-- AMO_AND (R171). -/
def execAmoAnd (o : AtomOrder) (z : Bool) (d a b : Reg) (s : State) : Out := .next (s.atomic (.amo 1 z) o d a b)
/-- AMO_OR (R171). -/
def execAmoOr (o : AtomOrder) (z : Bool) (d a b : Reg) (s : State) : Out := .next (s.atomic (.amo 2 z) o d a b)
/-- AMO_XOR (R171). -/
def execAmoXor (o : AtomOrder) (z : Bool) (d a b : Reg) (s : State) : Out := .next (s.atomic (.amo 3 z) o d a b)
/-- AMO_MIN (R171). -/
def execAmoMin (o : AtomOrder) (z : Bool) (d a b : Reg) (s : State) : Out := .next (s.atomic (.amo 4 z) o d a b)
/-- AMO_MAX (R171). -/
def execAmoMax (o : AtomOrder) (z : Bool) (d a b : Reg) (s : State) : Out := .next (s.atomic (.amo 5 z) o d a b)
/-- AMO_MINZ (R171). -/
def execAmoMinz (o : AtomOrder) (z : Bool) (d a b : Reg) (s : State) : Out := .next (s.atomic (.amo 6 z) o d a b)
/-- AMO_MAXZ (R171). -/
def execAmoMaxz (o : AtomOrder) (z : Bool) (d a b : Reg) (s : State) : Out := .next (s.atomic (.amo 7 z) o d a b)
/-- AMO_SWAP (R171). -/
def execAmoSwap (o : AtomOrder) (z : Bool) (d a b : Reg) (s : State) : Out := .next (s.atomic (.amo 8 z) o d a b)
/-- CAS (R171). -/
def execCas (o : AtomOrder) (z : Bool) (d a b : Reg) (s : State) : Out := .next (s.atomic (.cas z) o d a b)

/-- A local atomic: it orders nothing (R173). -/
def State.localAtomic (s : State) (fn : Fin 9) (z : Bool) (d a b : Reg) : State :=
  let n := if z then 8 else 4
  let la := (s.getX a).toNat
  match s.localCheck la n n with
  | some (c, q) => s.trap c q
  | none => s.whenFree (fun s =>
      let old := s.locNat s.th.owner la n
      let new := amoOp fn n old ((s.getX b).toNat % 2 ^ (8 * n))
      ((s.ownPut la (bytesOf n new)).setX d (extend n true old)).retire 4)

/-- AMOL_ADD (R173). -/
def execAmolAdd (z : Bool) (d a b : Reg) (s : State) : Out := .next (s.localAtomic 0 z d a b)
/-- AMOL_AND (R173). -/
def execAmolAnd (z : Bool) (d a b : Reg) (s : State) : Out := .next (s.localAtomic 1 z d a b)
/-- AMOL_OR (R173). -/
def execAmolOr (z : Bool) (d a b : Reg) (s : State) : Out := .next (s.localAtomic 2 z d a b)
/-- AMOL_XOR (R173). -/
def execAmolXor (z : Bool) (d a b : Reg) (s : State) : Out := .next (s.localAtomic 3 z d a b)
/-- AMOL_MIN (R173). -/
def execAmolMin (z : Bool) (d a b : Reg) (s : State) : Out := .next (s.localAtomic 4 z d a b)
/-- AMOL_MAX (R173). -/
def execAmolMax (z : Bool) (d a b : Reg) (s : State) : Out := .next (s.localAtomic 5 z d a b)
/-- AMOL_MINZ (R173). -/
def execAmolMinz (z : Bool) (d a b : Reg) (s : State) : Out := .next (s.localAtomic 6 z d a b)
/-- AMOL_MAXZ (R173). -/
def execAmolMaxz (z : Bool) (d a b : Reg) (s : State) : Out := .next (s.localAtomic 7 z d a b)
/-- AMOL_SWAP (R173). -/
def execAmolSwap (z : Bool) (d a b : Reg) (s : State) : Out := .next (s.localAtomic 8 z d a b)

/-! ### Counter waits and fences (R177, R178) -/

/-- The wait of `cwait lc` or `cwait sc`: the held records that the instruction must wait for count with the accesses in
flight; where they alone keep the threshold unmet their upcall is taken (R189, R298, R299). -/
def State.accessWait (s : State) (ofClass : AccOp → Bool) (n : Nat) : Wait :=
  let own := s.ownWhy.filter (fun p => match p.1 with | some op => ofClass op | none => false)
  let flying := (s.th.acc.filter (fun a => ofClass a.op && a.stuck.isNone)).length
  match own with
  | [] => if flying ≤ n then .go else .stall
  | p :: _ => if n < own.length then .taken (s.takeParked p.2) else if flying + own.length ≤ n then .go else .stall

/-- What `cwait sc,0` covers of the stores of the thread at hand (R189). -/
def State.arm (s : State) : State :=
  s.mapPast (fun r => if r.path == some .core && r.who == s.th.ident && r.rel.isNone then { r with armed := true } else r)

/-- CWAIT (R142, R177). -/
def execCwait (k : Counter) (n : Fin 32) (s : State) : Out :=
  .next (if s.th.packet.isSome then s.trapWord 0x12 (.cwait k n)
    else match k with
    | .lc => (s.accessWait AccOp.isLoad n.val).run s (fun s => s.retire 4)
    | .sc => (s.accessWait AccOp.isStore n.val).run s (fun s => (if n.val = 0 then s.arm else s).retire 4)
    | .yc | .mc | .tc | .nc | .ic => if s.counter s.th k ≤ n.val then s.retire 4 else s.stall)

/-- What the fences of a thread hold after an `xfence` from the core path into path `t`: what the thread had been made to see by then
(R178). -/
def Thread.snaps (th : Thread) (t : PathId) (fs : Tab Nat) : Tab Nat :=
  let paths := [PathId.copy, .matrix, .epi, .table, .nm, .index, .msg]
  let fs := Tab.put (Tab.put fs (snapKey 0 t) th.gangSeen) (snapKey 8 t) th.devSeen
  paths.foldl (fun fs p => Tab.put fs (snapKey p.code t) (Tab.get th.fences (p.code * 8) 0)) fs

/-- What an `xfence` makes visible to what the thread at hand issues later on a path; into the core path it invalidates the core's clean
L1 words, as an acquire at gang scope does (R178). -/
def State.fenceTo (s : State) (f t : PathId) : State :=
  let fs := Tab.put s.th.fences (f.code * 8 + t.code) s.now
  { s with
    th := { s.th with
      fences := if f = .core then s.th.snaps t fs else fs
      gangSeen := if t = .core then s.now else s.th.gangSeen }
    now := s.now + 1 }

/-- What an `xfence` from the index makes visible to the thread at hand: what was released before the entries that its queries have
returned became visible (R196). -/
def State.seeEntries (s : State) : State :=
  let die := dieOf s.th.slot
  let u := s.bring die (fun r => r.relDev.any (· < s.th.ixSeen))
  { u with
    th := { s.th with gangSeen := max s.th.gangSeen s.th.ixSeen, devSeen := max s.th.devSeen s.th.ixSeen }
    now := s.now + 1 }

/-- XFENCE (R178): from the core path it waits for the thread's stores to be performed, and is no release; into the core path
the path's writes become core-path writes that the thread sees (R191), from the index with what an `ixstore.rel`
released (R196); between engines the writes become visible to later commands. -/
def execXfence (f t : PathId) (s : State) : Out :=
  .next (match f, t with
    | .core, .core => s.retire 4
    | .core, t => (s.accessWait AccOp.isStore 0).run s (fun s => (s.fenceTo .core t).retire 4)
    | .index, .core => (((s.adoptPath .index (clusterOf s.th.slot)).fenceTo .index .core).seeEntries).retire 4
    | f, .core => ((s.adoptPath f (clusterOf s.th.slot)).fenceTo f .core).retire 4
    | f, t => (s.fenceTo f t).retire 4)

/-! ### Sync words (R181, R182) -/

/-- Checks the sync word that x[a] names and runs on it (R181). -/
def State.onSyncWord (s : State) (a : Reg) (f : Nat → State) : State :=
  let la := (s.getX a).toNat
  match s.localCheck la 32 32 with
  | some (c, q) => s.trap c q
  | none => f la

/-- The thread at hand has read a sync word as it stands (R182, R192). -/
def State.ownTouch (s : State) (la : Nat) : State := s.touchLoc (s.th.view .core) la 32

/-- SWINIT (R181): the generation stays. -/
def execSwinit (a b : Reg) (s : State) : Out :=
  .next (s.onSyncWord a (fun la => s.whenFree (fun s =>
    let o := s.th.owner
    let v := (s.getX b).toNat
    let gen := s.readLoc o (la + 16) 4
    (s.ownPut la (bytesOf 8 v ++ bytesOf 8 0 ++ gen ++ bytesOf 4 (if v = 0 then 0 else 1) ++ bytesOf 8 0)).retire 4)))

/-- SWADD (R181): a release at gang scope, then the arrival. -/
def execSwadd (a b : Reg) (s : State) : Out :=
  .next (s.onSyncWord a (fun la => s.afterRelease .gang (fun s => s.whenFree (fun s =>
    (s.ownPut la (arriveWord (s.getX b).toNat false (s.readLoc s.th.owner la 32))).retire 4))))

/-- The generation of a sync word. -/
def State.generation (s : State) (o : Owner) (la : Nat) : BitVec 32 := BitVec.ofNat 32 (s.locNat o (la + 16) 4)

/-- SWWAIT (R142, R181, R182): it returns once the generation differs from the register, with an acquire at gang scope;
until then the slot waits. -/
def execSwwait (a b : Reg) (s : State) : Out :=
  .next (if s.th.packet.isSome then s.trapWord 0x12 (.swwait a b)
  else s.onSyncWord a (fun la => s.whenFree (fun s =>
    let v := (s.getX b).setWidth 32
    if s.generation s.th.owner la ≠ v then let s := (s.acquire .gang).ownTouch la; (s.setTh { s.th with swWait := none }).retire 4
    else { s with th := { s.th with swWait := some (la, v) } })))

/-- SWGET (R181). -/
def execSwget (d a : Reg) (s : State) : Out :=
  .next (s.onSyncWord a (fun la => s.whenFree (fun s => (s.ownTouch la).result d ((s.generation s.th.owner la).setWidth 64))))

/-- SWCNT (R181). -/
def execSwcnt (d a : Reg) (s : State) : Out :=
  .next (s.onSyncWord a (fun la => s.whenFree (fun s => (s.ownTouch la).result d (BitVec.ofNat 64 (s.locNat s.th.owner (la + 8) 8)))))

/-! ### Accesses in flight (R84, R172, R297) -/

/-- Whether an access may be performed now: no access before it to its bytes and no acquire before it is still to be
performed (R18, R166), and of one that releases, none at all (R166, R301). -/
def Thread.mayPerform (t : Thread) (a : Access) : Bool :=
  (t.acc.takeWhile (fun b => b.seq ≠ a.seq)).all (fun b => (!b.overlaps a && !b.acq && !a.releases) || b.stuck.isSome)

/-- Performs access `k` of the thread on the event's slot, if it is of the event's kind and may be performed. -/
def State.performAccess (s0 : State) (ofKind : AccOp → Bool) : State :=
  let s := s0.focus s0.ev.unit
  if !(s.th.bound && s.th.slot == s0.ev.unit) then s0
  else match s.th.acc[s0.ev.idx]? with
    | none => s0
    | some a =>
      if !ofKind a.op || a.stuck.isSome || !s.th.mayPerform a then s0
      else match s.th.behind a with
        | some w => s.holdAccess a { w with write := a.op.kind.writes }
        | none =>
          let (done, s) := if a.releases then s.tryRelease a.scope else (true, s)
          if !done then s
          else match s.perform a with
            | (.ok, s) => s.dropAccess a
            | (.fault c va, s) => s.holdAccess a ⟨c, va, a.op.kind.writes, s.th.uact⟩
            | (.lost pa, s) => s.report 0x0A pa
            | (.wait, s) => s

/-- LOAD_RETURN (R84). -/
def execLoadReturn (s : State) : Out :=
  .next (s.performAccess (fun op => match op with | .ld .. | .ldv | .nmstat => true | _ => false))

/-- STORE_PERFORM (R84). -/
def execStorePerform (s : State) : Out :=
  .next (s.performAccess (fun op => match op with | .st .. | .stv | .pclr => true | _ => false))

/-- ATOMIC_PERFORM (R172). -/
def execAtomicPerform (s : State) : Out :=
  .next (s.performAccess (fun op => match op with | .amo .. | .cas .. => true | _ => false))

/-- HELD_FAULT_POST (R297). -/
def execHeldFaultPost (s0 : State) : Out :=
  let s := s0.focus s0.ev.unit
  .next (if !(s.th.bound && s.th.slot == s0.ev.unit) then s0
    else match s.th.acc[s0.ev.idx]? with
      | none => s0
      | some a =>
        match a.stuck with
        | none => s0
        | some w =>
          if 8 ≤ s.th.held.length then s0 else s.holdAccess a w)

/-- SYNC_WORD_WAKE (R182): a slot that waits in `swwait` is ready again once the generation differs from its value. -/
def execSyncWordWake (s0 : State) : Out :=
  let s := s0.focus s0.ev.unit
  .next (if !(s.th.bound && s.th.slot == s0.ev.unit) then s0
    else match s.th.swWait with
      | none => s0
      | some (la, v) =>
        if s.generation s.th.owner la ≠ v then { s with th := { s.th with swWait := none } } else s0)

end Sys2Proof.Machine
end

