-- ==== Sys2Proof/Machine/Parallel.lean ====
section
/-!
DEFINITION. Sys2Proof/Machine/Parallel.lean: message packets (R139 to R143), the gang barrier (R130 to R132), launches and their
completion blocks (R133 to R138, R145).
-/
namespace Sys2Proof.Machine

/-! ### Message packets -/

/-- Whether a thread of the gang of the thread at hand is bound on a core of its cluster. -/
def State.mateOn (s : State) (core : Nat) : Bool :=
  s.threads.any (fun t => t.ident.vf == s.th.ident.vf && t.ident.launch == s.th.ident.launch && t.ident.gang == s.th.ident.gang
    && t.ident.rival == s.th.ident.rival && t.slot / 8 == clusterOf s.th.slot * 8 + core)

/-- The checks of `mopen` on the addresses (R140): alignment of both, then the scratchpad's range. -/
def mopenFault (addr sync : Nat) : Option (Nat × Nat) :=
  let inside (a : Nat) : Bool := 0x10000 ≤ a && a < 0x70000
  if addr % 8 ≠ 0 then some (0x04, addr)
  else if sync ≠ 0 ∧ sync % 32 ≠ 0 then some (0x04, sync)
  else if !inside addr then some (0x05, addr)
  else if sync ≠ 0 ∧ !(inside sync && inside (sync + 31)) then some (0x05, sync)
  else none

/-- MOPEN (R140). -/
def execMopen (a b c : Reg) (s : State) : Out :=
  let core := (s.getX a).toNat
  let addr := (s.getX b).toNat
  let sync := (s.getX c).toNat
  .next (if s.th.packet.isSome ∨ 7 < core ∨ !s.mateOn core then s.trapWord 0x12 (.mopen a b c)
    else match mopenFault addr sync with
      | some (k, q) => s.trap k q
      | none =>
        let r := s.retire 4
        { r with packets := s.packets + 1, th := { r.th with packet := some ⟨s.packets, core, addr, sync, 0, 0, 0⟩ } })

/-- The aligned 8-byte words of a put, each to land by itself (R143). -/
def landingWords (packet : Nat) (src : Ident) (core : Nat) : Nat → List Byte → Nat → List Landing
  | _, _, 0 => []
  | dst, bs, n + 1 => ⟨packet, src, core, dst, bs.take 8⟩ :: landingWords packet src core (dst + 8) (bs.drop 8) n

/-- A put of `n` words: it appends to the open packet, and a closing form closes it (R141). `named` lists the f registers
that it reads. -/
def State.put (s : State) (i : Instr) (n : Nat) (named : List Reg) (bytes : State → List Byte) (closing : Bool) : State :=
  match s.th.packet with
  | none => s.trapWord 0x12 i
  | some p =>
    if 63 ≤ p.puts ∧ !closing then s.trapWord 0x12 i
    else match s.wrongWay named [] with
      | some k => s.trap 0x0D k
      | none =>
        if 0x70000 < p.addr + p.off + 8 * n then s.trap 0x05 0x70000
        else match s.blockFault named with
          | some (c, q) => s.trap c q
          | none => s.whenStreams named (fun s =>
            let dst := (locKey (clusterOf s.th.slot * 64 + p.core * 8) [] (p.addr + p.off)).getD 0
            let ls := landingWords p.id s.th.ident (clusterOf s.th.slot * 8 + p.core) dst (bytes s) n
            let q := { p with off := p.off + 8 * n, puts := p.puts + 1 }
            let s := { s with landings := s.landings ++ ls, th := { s.th with packet := some q } }.advanceStreams named
            let s := s.retire 4
            if closing then s.postCount q false else s)

/-- MPUT (R141). -/
def execMput (b : Reg) (s : State) : Out :=
  .next (s.put (.mput b) 1 [] (fun s => bytesOf 8 (s.getX b).toNat) false)
/-- MPUT_V (R141). -/
def execMputV (b : Reg) (s : State) : Out :=
  .next (s.put (.mputV b) 4 [b] (fun s => bytesOf 32 (s.operand b).toNat) false)
/-- MPUT_E (R141). -/
def execMputE (b : Reg) (s : State) : Out :=
  .next (s.put (.mputE b) 1 [] (fun s => bytesOf 8 (s.getX b).toNat) true)
/-- MPUT_VE (R141). -/
def execMputVe (b : Reg) (s : State) : Out :=
  .next (s.put (.mputVe b) 4 [b] (fun s => bytesOf 32 (s.operand b).toNat) true)

/-- The party that a packet is at its destination core (R183, R184). -/
def Landing.view (l : Landing) : View := ⟨l.src, l.core * 8, some .msg, 0, 0, 0, []⟩

/-- MESSAGE_LANDING (R143): a word of a put lands. The words of one packet land in any order, after those of every packet
that its thread closed earlier to the same core. -/
def execMessageLanding (s : State) : Out :=
  .next (match s.landings[s.ev.idx]? with
    | none => s
    | some l =>
      if s.landings.any (fun m => m.src == l.src && m.core == l.core && m.packet < l.packet) then s
      else { s with landings := s.landings.eraseIdx s.ev.idx }.putKey l.view l.dst l.data)

/-- PACKET_COUNT (R143): once all its bytes have landed, and after every packet closed earlier from one thread to one
core. -/
def execPacketCount (s : State) : Out :=
  .next (match s.counts[s.ev.idx]? with
    | none => s
    | some c =>
      if s.landings.any (fun l => l.packet == c.packet) ∨
          (s.counts.take s.ev.idx).any (fun d => d.src == c.src && d.core == c.core) then s
      else
        let s := { s with counts := s.counts.eraseIdx s.ev.idx }
        match c.sync with
        | some k => s.arriveKey k c.bytes c.error
        | none => s)

/-! ### The gang barrier -/

/-- The votes of `gbar` (R130). -/
inductive Vote where
  | none | and | or | add | max | min
  deriving DecidableEq, Repr

/-- The result of a vote over the contributions of the arrived set (R131). -/
def voteOf (v : Vote) (cs : List Word) : Word :=
  match v, cs with
  | .none, _ => BitVec.ofNat 64 cs.length
  | _, [] => 0
  | .and, c :: r => r.foldl (· &&& ·) c
  | .or, c :: r => r.foldl (· ||| ·) c
  | .add, c :: r => r.foldl (· + ·) c
  | .max, c :: r => r.foldl (fun a b => if a.slt b then b else a) c
  | .min, c :: r => r.foldl (fun a b => if b.slt a then b else a) c

/-- `gbar` (R131, R132): an arrival behind a release at gang scope, and after the barrier has completed the departure with
an acquire at gang scope. -/
def State.gbar (s : State) (i : Instr) (v : Vote) (d a : Reg) : State :=
  let t := s.th
  if t.packet.isSome then s.trapWord 0x12 i
  else match t.arrived with
    | none =>
      s.afterRelease .gang (fun s =>
        { s with th := { s.th with arrived := some (s.getX a), arriveHand := s.th.uact } })
    | some _ =>
      if t.uact && !t.arriveHand then s.trapWord 0x12 i
      else match t.depart with
        | none => s.stall
        | some cs =>
          let s := s.acquire .gang
          { s with th := { s.th with arrived := none, arriveHand := false, depart := none } }.setX d (voteOf v cs) |>.retire 4

/-- GBAR (R130). -/
def execGbar (d a : Reg) (s : State) : Out := .next (s.gbar (.gbar d a) .none d a)
/-- GBAR_AND (R130). -/
def execGbarAnd (d a : Reg) (s : State) : Out := .next (s.gbar (.gbarAnd d a) .and d a)
/-- GBAR_OR (R130). -/
def execGbarOr (d a : Reg) (s : State) : Out := .next (s.gbar (.gbarOr d a) .or d a)
/-- GBAR_ADD (R130). -/
def execGbarAdd (d a : Reg) (s : State) : Out := .next (s.gbar (.gbarAdd d a) .add d a)
/-- GBAR_MAX (R130). -/
def execGbarMax (d a : Reg) (s : State) : Out := .next (s.gbar (.gbarMax d a) .max d a)
/-- GBAR_MIN (R130). -/
def execGbarMin (d a : Reg) (s : State) : Out := .next (s.gbar (.gbarMin d a) .min d a)

/-- The bound threads of a gang. -/
def State.threadsOf (s : State) (g : Gang) : List Thread := s.threads.filter (fun t => g.has t.ident)

/-- Changes every bound thread of a gang. -/
def State.mapGang (s : State) (g : Gang) (f : Thread → Thread) : State :=
  { s with
    th := if s.th.bound ∧ g.has s.th.ident then f s.th else s.th
    others := s.others.map (fun e => (e.1, if g.has e.2.ident then f e.2 else e.2)) }

/-- Whether a thread can take part in a barrier's completion: a thread being saved forms its barrier again on resume
(R132). -/
def Thread.atBarrier (t : Thread) : Bool :=
  t.arrived.isSome && t.depart.isNone && (t.phase == .running || t.phase == .requested)

/-- BARRIER_COMPLETE (R131): every thread of the gang that has not exited has arrived. -/
def execBarrierComplete (s : State) : Out :=
  .next (match (s.threadAt s.ev.unit).bind (fun t => s.gangOf t.ident) with
    | none => s
    | some g =>
      let ts := s.threadsOf g
      if ts.length + g.ended.length = g.gsize ∧ ts.all Thread.atBarrier then
        let cs := ts.filterMap (·.arrived) ++ g.gone
        (s.putGang { g with gone := [] }).mapGang g (fun t => { t with depart := some cs })
      else s)

/-! ### Launches -/

/-- A launch packet from its 64 bytes (R133). -/
def parsePacket (bs : List Byte) : LaunchPacket :=
  let n (k len : Nat) : Nat := natOf ((bs.drop k).take len)
  { kind := n 0 1, prio := n 1 1, policy := n 2 1, mask := BitVec.ofNat 8 (n 3 1), threads := n 4 2, spad := n 6 2
    entry := n 8 8, arg := BitVec.ofNat 64 (n 16 8), gangs := n 24 4, indirect := n 28 1 == 1, sys := n 29 1 % 2 == 1
    countva := n 32 8, done := n 40 8, rivals := n 48 1, scoreMode := n 49 1, grow := n 50 2, allow0 := n 52 4 }

/-- Units of 64 KiB that a gang's grant takes (R126). -/
def LaunchPacket.units (p : LaunchPacket) : Nat := (p.spad + 63) / 64

/-- The gangs of a launch that fall to a die (R342): gang `g` of `n`, and every gang of a pinned launch to the first die. -/
def LaunchPacket.dieOf (p : LaunchPacket) (n g : Nat) : Nat :=
  let m := p.dies.length
  match p.policy with
  | 0 => p.dies.getD (g % m) 0
  | 1 => ((List.range m).filter (fun k => k * n / m ≤ g ∧ g < (k + 1) * n / m)).head?.elim 0 (fun k => p.dies.getD k 0)
  | _ => p.firstDie

/-- Whether a launch still stands in its queue: not every gang has been bound or discarded (R145, R330). A tournament whose gangs are
all bound leaves its queue, though it may grow, and enters it again when it has, full or not (DESIGN CHOICE, the log's entry 65). -/
def Launch.queued (l : Launch) : Bool :=
  match l.count with
  | none => true
  | some n =>
    if l.pkt.kind = 1 then
      (l.rivals.zipIdx).any (fun v => v.1.alive && (List.range v.1.limit).any (fun g => !l.bound.contains (v.2 + 64 * g)))
    else l.bound.length < n

/-- Launches that a queue of a function and class holds (R145). -/
def State.queueLength (s : State) (fn prio : Nat) : Nat :=
  (s.launches.filter (fun l => l.fn == fn && l.pkt.prio == prio && l.queued)).length

/-- Whether every byte of a packet that must be 0 is 0 (status -2 of R135). -/
def packetReserved (bs : List Byte) : Bool :=
  let n (k len : Nat) : Nat := natOf ((bs.drop k).take len)
  n 29 1 < 2 && n 30 2 == 0 && n 56 8 == 0 && (n 28 1 != 0 || n 32 8 == 0) && (n 0 1 != 0 || n 48 8 == 0)

/-- Whether every value of a packet is in its range (status -3 of R135); `maySys` tells whether the launcher may set the
mode bit (R136). -/
def packetRanges (bs : List Byte) (out : BitVec 8) (maySys : Bool) : Bool :=
  let n (k len : Nat) : Nat := natOf ((bs.drop k).take len)
  let mask := BitVec.ofNat 8 (n 3 1)
  n 0 1 < 2 && n 1 1 < 4 && n 2 1 < 3 && mask != 0 && mask &&& out == 0 && 1 ≤ n 4 2 && n 4 2 ≤ 64 && n 6 2 ≤ 49152
    && n 8 8 % 2 == 0 && n 8 8 < 2 ^ 56 && 1 ≤ n 24 4 && n 24 4 ≤ 2 ^ 24 && n 28 1 < 2 && (maySys || n 29 1 % 2 == 0)
    && n 32 8 % 4 == 0 && n 32 8 < 2 ^ 56 && n 40 8 % 16 == 0 && n 40 8 < 2 ^ 56

/-- Whether the tournament fields of a packet hold (R326). -/
def packetTournament (p : LaunchPacket) : Bool :=
  p.policy == 2 && !p.indirect && [2, 4, 8, 16, 32, 64].contains p.rivals && p.rivals * p.gangs ≤ 2 ^ 24
    && p.scoreMode < 4 && p.grow % 2 == 0 && 1 ≤ p.allow0 && p.rivals * p.gangs * p.units ≤ 768

/-- The first status of R135 that applies; 0 for an acceptable packet. -/
def State.packetStatus (s : State) (bs : List Byte) (fn : Nat) (maySys fromRival : Bool) : Int :=
  let p := parsePacket bs
  if !packetReserved bs then -2
  else if !packetRanges bs s.cfg.diesOut maySys then -3
  else if p.kind = 1 ∧ (fromRival ∨ !packetTournament p) then -4
  else if 32 ≤ s.queueLength fn p.prio then -1
  else 0

/-- The next launch id that no incomplete launch holds (R135); `fuel` bounds the ids skipped. -/
def State.freeId (s : State) (n : Nat) : Nat → Nat
  | 0 => n
  | fuel + 1 =>
    let m := if n = 0 ∨ 2 ^ 31 ≤ n then 1 else n
    if s.launches.any (fun l => l.id == m) then s.freeId (m + 1) fuel else m

/-- The units of a die that commands of finished gangs may still write (R21, R309). -/
def State.ghostUnits (s : State) (die : Nat) : List Nat :=
  (s.ghosts.filter (fun g => g.die == die && s.owners.any (fun o => g.has o.ident))).flatMap (·.grant)

/-- The units of a die that no grant and no share holds. -/
def State.freeUnits (s : State) (die : Nat) : List Nat :=
  let ghosts := s.ghostUnits die
  let inGrant (u : Nat) : Bool := ghosts.contains u || s.gangs.any (fun g => g.die == die && g.rival.isNone && g.grant.contains u)
  let inShare (u : Nat) : Bool :=
    s.launches.any (fun l => l.pkt.kind == 1 && l.pkt.firstDie == die && l.rivals.any (fun v => v.share.contains u))
  (List.range 768).filter (fun u => !inGrant u && !inShare u)

/-- The rivals of a tournament at acceptance: each has its share of the die scratchpad (R328). -/
def makeRivals (p : LaunchPacket) (free : List Nat) : List Rival :=
  let per := p.gangs * p.units
  (List.range p.rivals).map (fun k =>
    { alive := true, score := 0, used := 0, limit := p.gangs, share := (free.drop (k * per)).take per, finished := 0 })

/-- The launch of an id. -/
def State.launchById (s : State) (id : Nat) : Option Launch := s.launches.find? (fun l => l.id == id)

/-- The clusters, and whether units too, that waiting gangs of a class `prio` or a better one have reserved on a die, but for those that
`mine` names by their launch and their number in it (R149, R158). -/
def State.reservedOn (s : State) (die prio : Nat) (mine : Nat → Nat → Bool) : List (Nat × Bool) :=
  s.reserves.filterMap (fun (r : Nat × Nat × Nat × Nat) =>
    if r.1 = die ∧ !mine r.2.1 r.2.2.1 then
      (s.launchById r.2.1).bind (fun l =>
        if !l.bound.contains r.2.2.1 && l.pkt.prio ≤ prio then some (r.2.2.2, l.pkt.units != 0) else none)
    else none)

/-- Whether a gang that waits keeps the free units of a die from others (R158). -/
def State.unitsReserved (s : State) (die prio : Nat) (mine : Nat → Nat → Bool) : Bool := (s.reservedOn die prio mine).any (·.2)

/-- Accepts a packet: a new launch id, and a place in the queue of its function and class (R134, R135); a tournament's rivals get
their shares (R328), as far as units are free and no gang has reserved them (R158). -/
def State.accept (s : State) (p : LaunchPacket) (fn : Nat) (host : Bool) : Nat × State :=
  let id := s.freeId s.nextLaunch (s.launches.length + 1)
  let free := if s.unitsReserved p.firstDie p.prio (fun _ _ => false) then [] else s.freeUnits p.firstDie
  let l : Launch :=
    { id := id, fn := fn, pkt := p, host := host, count := none, bound := [], finished := 0, round := 0, seen := s.now, got := (0, 0)
      rivals := if p.kind = 1 then makeRivals p free else [] }
  (id, { s with launches := s.launches ++ [l], nextLaunch := id + 1 })

/-- LAUNCH (R134): the packet is read, the release at device scope is made, and the status or the id is written. -/
def execLaunch (d a : Reg) (s : State) : Out :=
  let la := (s.getX a).toNat
  .next (if s.th.packet.isSome then s.trapWord 0x12 (.launch d a)
    else match s.localCheck la 64 64 with
      | some (c, q) => s.trap c q
      | none => s.whenFree (fun s =>
          let bs := s.readOnce la 64
          s.afterReleaseWith .dev bs (fun s =>
            let fn := if s.th.sys then 0 else s.th.ident.vf
            let st := s.packetStatus bs fn s.th.sys s.th.ident.rival.isSome
            if st = 0 then
              let (id, s) := s.accept (parsePacket bs) fn false
              s.result d (BitVec.ofNat 64 id)
            else s.result d (BitVec.ofInt 64 st))))

/-- The hub on a die, as it works for a launch: it has no slot, and its identity is the launch's (R137, R138). The spec names no slice at
which what it reads is translated: one of this die (DESIGN CHOICE, the log's entry 65). -/
def hubOwner (die fn id : Nat) (user : Bool) : Owner := ⟨die * 1280, ⟨fn, id, 0, 0, none⟩, !user, true, 0⟩

/-- The hub as a party on the core path. -/
def hubView (o : Owner) : View := ⟨o.ident, o.slot, some .core, 0, 0, 0, []⟩

/-- A number of `n` bytes at a translated address, as the hub reads it with an acquire (R137, R138). -/
def State.hubNat (s : State) (fn : Nat) (p : Phys) (n : Nat) : Nat :=
  natOf (((bytesOf 8 (s.wordNow (s.keyFor fn p.tracked p.pa) p.tracked p.pa).toNat).drop (p.pa % 8)).take n)

/-- LAUNCH_REPLICATE (R137, R145): the count N is read, and the packet reaches every die. A count of 0 completes the
launch; a fault drops it and Monel learns of it, and so does a count that is poisoned or uncorrectable (DESIGN CHOICE, the log's
entry 64). A slice of the mask's first die translates (DESIGN CHOICE, the log's entry 65). -/
def execLaunchReplicate (s : State) : Out :=
  .next (match s.launchById s.ev.unit with
    | none => s
    | some l =>
      if l.count.isSome then s
      else if !l.pkt.indirect then
        s.putLaunch { l with count := some l.pkt.gangs }
      else
        let drop (s : State) : State :=
          { s with
            launches := s.launches.filter (fun m => m.id ≠ l.id)
            monel := s.monel ++ [⟨.launchFault, ⟨l.fn, l.id, 0, 0, none⟩, [l.id]⟩] }
        let die := l.pkt.firstDie
        match s.translate ((hubOwner die l.fn l.id (!l.pkt.sys)).req .load none) l.pkt.countva with
        | (.ok p, s) =>
          if (s.poisonedIn p.pa 4).isSome ∨ (s.badIn p.pa 4).isSome then drop s
          else
            let s := if p.tracked then s else s.perhapsEvicted p.pa 4
            (s.putLaunch { l with count := some (min (s.hubNat l.fn p 4) l.pkt.gangs) }).closeLaunch l.fn l.id
        | (_, s) => drop s)

/-- The next word of a completion block that an update changes: its offset, its length and its new value (R138, R334): least, then
failed, then finished; the update that completes a tournament changes finished alone. -/
def Completion.next (c : Completion) : Nat × Nat × (Nat → Nat) :=
  match c.stage with
  | 0 => (8, 4, fun old => wrap 32 (min (sgn 32 old) c.code))
  | 1 => (12, 4, fun old => (old + (decide (c.code < 0)).toNat) % 2 ^ 32)
  | _ => (0, 8, fun old => (old + (if c.tournament then 2 ^ 32 else 1)) % 2 ^ 64)

/-- Whether an identity belongs to the gang that an update tells of; to the launch, where it ends a tournament. -/
def Completion.has (c : Completion) (i : Ident) : Bool :=
  i.vf == c.fn && i.launch == c.launch && c.gang.all (fun g => i.gang == g.1 && i.rival == g.2)

/-- What the threads whose accesses an update follows had been made to see by their ends, as a party on the gang's die (R138, R188). -/
def Completion.view (c : Completion) : View :=
  { hubView (hubOwner c.die c.fn c.launch c.user) with gang := c.got.1, dev := c.got.2 }

/-- Whether the release of an update covers a write: of a thread that it tells of, or one that such a thread had been made to see. -/
def Completion.covers (c : Completion) (r : Past) : Bool := (r.path.isSome && c.has r.who) || r.coveredBy c.view

/-- An update is a release, at device scope or, for a launch from a host window, at system scope: before it everything that it covers is
performed at that scope, what was written in host and peer memory is written through and acknowledged, whenever that comes, and
nothing that the ended threads had started still runs; none while it waits (R138, R166, R334, R350, R364). -/
def State.updateRelease (s : State) (c : Completion) : Option State × State :=
  if s.runsFor c.has then (none, s)
  else
    let u := s.adopt (fun r => c.has r.who)
    let ws := if c.sys then u.outsideOf c.covers else []
    let (acked, u) := if ws.isEmpty then (true, u) else u.drawBit
    (if acked then some ((u.through ws).releaseWhere c.covers (if c.sys then .sys else .dev)) else none, u)

/-- COMPLETION_BLOCK_UPDATE (R138, R350): the next device-scope atomic of an update; the last, on finished, ends it. For a launch
from a host window each is a release at system scope. A tournament's last update follows its gangs' updates. A fault loses what is
left of the update and Monel learns of it, and so does a word that is poisoned or uncorrectable (DESIGN CHOICE, the log's
entry 64). The slice that translates is one of the finished gang's die (DESIGN CHOICE, the log's entry 65). -/
def execCompletionBlockUpdate (s : State) : Out :=
  .next (match s.completions[s.ev.idx]? with
    | none => s
    | some c =>
      if c.tournament ∧ (s.completions.take s.ev.idx).any (fun e => e.launch == c.launch && e.fn == c.fn) then s
      else
        let (off, n, f) := c.next
        let o := hubOwner c.die c.fn c.launch c.user
        let done (s : State) : State := { s with completions := s.completions.eraseIdx s.ev.idx }
        let lose (s : State) : State :=
          { s with monel := s.monel ++ [⟨.completionFault, ⟨c.fn, c.launch, 0, 0, none⟩, [c.launch, c.done]⟩] }
        match s.updateRelease c with
        | (none, s) => s
        | (some s, _) =>
          match s.translate (o.req .atomic none) (c.done + off) with
          | (.ok p, s) =>
            if (s.poisonedIn p.pa n).isSome ∨ (s.badIn p.pa n).isSome then lose (done s)
            else
              let scope : Order := if c.sys then .sys else .dev
              let (_, s) := s.atomicAt (hubView o) c.fn scope (c.done + off) p n (fun old => some (f old))
              if 2 ≤ c.stage then done s
              else { s with completions := s.completions.set s.ev.idx { c with stage := c.stage + 1 } }
          | (_, s) => lose (done s))

end Sys2Proof.Machine
end

