-- ==== Sys2Proof/Machine/Engine.lean ====
section
/-!
DEFINITION. Sys2Proof/Machine/Engine.lean: how the engines reach memory: global reads and writes through the slices of a die
(R190, R216, R229), with the errors they meet (R21, R169, R175).
-/
namespace Sys2Proof.Machine

/-- Why an engine's access fails: a cause at an address, uncorrectable data, or a replayed item whose generation has not
come (R21, R321). -/
inductive EngFault where
  | fault (cause va : Nat)
  | lost (pa : Nat)
  | wait
  deriving DecidableEq, Repr

/-- Reports uncorrectable data that an engine met for an issuer (R21); where its thread is no longer there Monel alone
learns of it. -/
def State.reportOwner (s : State) (o : Owner) (pa : Nat) : State :=
  match s.issuer o with
  | some t => (s.focus t.slot).report 0x0A pa
  | none => { s with monel := s.monel ++ [⟨.rowLost, o.ident, [pa]⟩] }

/-- Translates the bytes of an engine's access line by line: address space, each page, and one attribute for all of it (R15, R165,
R169). -/
def State.enginePages (s : State) (r : Req) (va n : Nat) : Except EngFault (List (Nat × Nat × Phys)) × State :=
  if 2 ^ 56 ≤ va ∨ 2 ^ 56 < va + n then (.error (.fault 0x07 (if 2 ^ 56 ≤ va then va else 2 ^ 56)), s)
  else match s.translateAll r (lineParts va n) with
    | (.error none, s) => (.error .wait, s)
    | (.error (some (c, a)), s) => (.error (.fault c a), s)
    | (.ok ps, s) => if mixedParts ps then (.error (.fault 0x08 va), s) else (.ok ps, s)

/-- The first uncorrectable word that an access meets. -/
def State.lostIn (s : State) (ps : List (Nat × Nat × Phys)) : Option Nat := ps.findSome? (fun q => s.badIn q.2.2.pa q.2.1)

/-- The first poisoned word that an access meets, as a VA. -/
def State.poisonVa (s : State) (ps : List (Nat × Nat × Phys)) : Option Nat :=
  ps.findSome? (fun q => (s.poisonedIn q.2.2.pa q.2.1).map (fun w => q.1 + w - q.2.2.pa))

/-- An engine's read of global memory for a party (R175, R190, R216). -/
def State.engineRead (s : State) (v : View) (r : Req) (va n : Nat) : Except EngFault (List Byte) × State :=
  match s.enginePages r va n with
  | (.error e, s) => (.error e, s)
  | (.ok ps, s) =>
    match s.poisonVa ps, s.lostIn ps with
    | some a, _ => (.error (.fault 0x09 a), s)
    | none, some pa => (.error (.lost pa), s)
    | none, none =>
      let (b, s) := s.readParts v r.fn ps
      (.ok b, s)

/-- The first uncorrectable 32-byte word that a write covers only in part, and so must read. -/
def State.lostUnder (s : State) (ps : List (Nat × Nat × Phys)) : Option Nat :=
  ps.findSome? (fun q =>
    (s.bad.find? (fun e => e.1 < q.2.2.pa + q.2.1 && q.2.2.pa < e.1 + 32 && !(q.2.2.pa ≤ e.1 && e.1 + 32 ≤ q.2.2.pa + q.2.1))).map
      (·.1))

/-- An engine's write of global memory for a party in elements of `size` bytes: an element of fewer than 8 bytes on a poisoned
word is not performed (R175, R240), tracked words are registered for its core (R216), and nothing orders the elements (R185,
R240). -/
def State.engineWrite (s : State) (v : View) (r : Req) (va size : Nat) (bs : List Byte) : Option EngFault × State :=
  match s.enginePages r va bs.length with
  | (.error e, s) => (some e, s)
  | (.ok ps, s) =>
    match (if size < 8 then s.poisonVa ps else none), s.lostUnder ps with
    | some a, _ => (some (.fault 0x09 a), s)
    | none, some pa => (some (.lost pa), s)
    | none, none => (none, ps.foldl (fun s q => s.useHbm r.fn q.2.2 q.2.1) (s.storeParts v r.fn .plain bs (piecesOf size ps)))

/-- The first byte with an uncorrectable error of the `n` from a local address up, as its key (R21). Local memory has no device
address: the 0x0A of such a byte carries this key, the model's own number of it, in the place of one (R23; DESIGN CHOICE, the log's
entry 65). -/
def State.lostLoc (s : State) (v : View) (la n : Nat) : Option Nat :=
  (List.range n).findSome? (fun k => match s.keyOf v (la + k) with
    | some key => if (Tab.find s.badLoc key).isSome then some key else none
    | none => none)

/-- The first byte, of the `n` from a local address up, outside the level of `base`, or in the window of a core out of
service: cause and address (R162, R240). Of a copy's element or scale byte in such a window R218 says nothing, and of a drain's output,
scale, list or table byte R240 says nothing: the command or the drain ends with a notice of 0x09, read or write (DESIGN CHOICE, the
log's entries 65 and 66). -/
def State.levelFault (s : State) (o : Owner) (base la : Int) (n : Nat) : Option (Nat × Nat) :=
  if la < 0 ∨ base < 0 then some (0x05, wrap 64 la)
  else match levelOf (s.grantOf o.ident) base.toNat with
    | none => some (0x05, base.toNat)
    | some (lo, len) =>
      if la < lo ∨ lo + len < la.toNat + n then some (0x05, la.toNat)
      else s.localFault o la.toNat n

end Sys2Proof.Machine
end

