-- ==== Sys2Proof/Machine/Stacks.lean ====
section
/-!
DEFINITION. Sys2Proof/Machine/Stacks.lean: computing in the memory stacks: rows, claims and latches (R247 to R251), the table
commands and their execution beside the banks (R252 to R259, R270).
-/
namespace Sys2Proof.Machine

/-! ### Rows (R249, R265) -/

/-- Address of the row that holds a byte. -/
def rowOf (pa : Nat) : Nat := pa / 1024 * 1024

/-- The 1 KiB of a row, as the unit beside the bank reads it for a party: the stored bytes (R270, R360). -/
def State.rowBytes (s : State) (v : View) (pa : Nat) : List Byte := s.seeMem v 0 false (rowOf pa) 1024

/-- Writes the stored bytes of a row for a party, word by word: nothing orders them (R185, R270). -/
def State.storeRow (s : State) (v : View) (pa : Nat) (bs : List Byte) : State :=
  let s := (wordsOf (rowOf pa) 1024).foldl (fun s w => { s.noteWord v 0 false .plain w 0xFF with now := s.now + 1 }) s
  (s.perhapsEvicted (rowOf pa) 1024).physWrite 0 (rowOf pa) bs

/-- Writes the data of a row with fresh check bits: no word of it has a bad bit or stays poisoned; its tag column stays (R175,
R249, R265). -/
def State.putRowBytes (s : State) (v : View) (pa : Nat) (bs : List Byte) : State :=
  let s := (s.storeRow v pa bs).unpoison (rowOf pa) 1024
  { s with bad := Tab.dropRange s.bad (rowOf pa) 1024, weak := Tab.dropRange s.weak (rowOf pa / 32) 32 }

/-- The tag column of a row (R249). -/
def State.rowTag (s : State) (pa : Nat) : Nat := Tab.get s.tags (pa / 1024) 0

/-- Entry `k` of a string of entries of `n` bytes. -/
def entryOf (bs : List Byte) (n k : Nat) : Nat := natOf ((bs.drop (k * n)).take n)

/-- Whether two rows lie in one channel, bank and subarray (R248). -/
def sameSubarray (p q : Nat) : Bool :=
  stackOf p == stackOf q && channelOf p == channelOf q && bankOf p == bankOf q && subarrayOf p == subarrayOf q

/-! ### Claims, latches and accumulators (R250, R251) -/

/-- Replaces a near-memory unit. -/
def State.putNmu (s : State) (n : Nat) (u : Nmu) : State := { s with nmus := Tab.put s.nmus n u }

/-- Claims a unit for a thread; none where another thread's claim holds it (R251). -/
def Nmu.claimFor (u : Nmu) (i : Ident) : Option Nmu :=
  match u.claim with
  | none => some { u with claim := some i, acc := [], latches := [] }
  | some j => if j = i then some u else none

/-- Ends the claim of a unit: its accumulators are zeroed and its latches emptied (R251). -/
def Nmu.unclaim (u : Nmu) : Nmu := { u with claim := none, acc := [], latches := [] }

/-- An accumulator. -/
def Nmu.accAt (u : Nmu) (k : Nat) : BitVec 32 := Tab.get u.acc k 0

/-- Sets an accumulator; one that is zero is not listed. -/
def Nmu.setAcc (u : Nmu) (k : Nat) (v : BitVec 32) : Nmu :=
  { u with acc := if v = 0 then Tab.drop u.acc k else Tab.put u.acc k v }

/-- Clears accumulators `first` to `first + n - 1`. -/
def Nmu.clearAcc (u : Nmu) (first n : Nat) : Nmu := { u with acc := Tab.dropRange u.acc first n }

/-- The latched copy of the row at `pa`, where the latch of its bank holds that row (R250). -/
def Nmu.latched (u : Nmu) (pa : Nat) : Option (List Byte) :=
  (u.latches.find? (fun l => l.bank == bankOf pa && l.row == rowOf pa)).map (fun l => Memory.readN l.data 0 1024)

/-- Latches a row in its bank, where the channel has a latch left for it (R250, R255). -/
def Nmu.latch (u : Nmu) (pa : Nat) (bs : List Byte) : Nmu :=
  { u with latches := u.latches.filter (fun l => l.bank ≠ bankOf pa) ++ [⟨bankOf pa, rowOf pa, Memory.writeN [] 0 bs⟩] }

/-- Whether the channel has four latches, all in other banks (R255). -/
def Nmu.latchesFull (u : Nmu) (pa : Nat) : Bool := 4 ≤ (u.latches.filter (fun l => l.bank ≠ bankOf pa)).length

/-- Adds the entries that the nibbles of an index row select to the accumulators (R256). -/
def Nmu.macRow (u : Nmu) (table index : List Byte) (a h : Nat) : Nmu :=
  (index.zipIdx).foldl (fun u e =>
    let add (u : Nmu) (k w : Nat) : Nmu :=
      let v := sgn 16 (entryOf table 2 (256 * h + 16 * w + a))
      u.setAcc k (u.accAt k + BitVec.ofInt 32 v)
    add (add u (2 * e.2) (e.1.toNat % 16)) (2 * e.2 + 1) (e.1.toNat / 16)) u

/-- The entries of a latched row that indices select; an index past the last entry takes the last (R257). -/
def gatherRow (table : List Byte) (ew : Nat) (idx : List Nat) : List Byte :=
  let n := 2 ^ ew
  idx.flatMap (fun k => bytesOf n (entryOf table n (min k (1024 / n - 1))))

/-! ### Claims of threads that have left -/

/-- A command of a thread that has left leaves no claim behind (R251). -/
def State.dropLostClaim (s : State) (o : Owner) : State := if o.lost then s.endClaims o.ident else s

/-! ### Issue (R252, R253) -/

/-- Whether a thread holds a lease of a class (R243, R259, R265). -/
def Thread.leased (t : Thread) (cls : Nat) : Bool :=
  match t.lease with
  | some l => l.cls.val == cls && l.left != 0
  | none => false

/-- Whether `n` bytes of local memory from an address up lie in one level. -/
def State.inLevel (s : State) (la n : Nat) : Bool := (firstOutside (s.grantOf s.th.ident) la n).isNone

/-- Whether a sync field is 0 or names a sync word (R252). -/
def State.syncOk (s : State) (sync : Nat) : Bool := sync = 0 || (sync % 32 == 0 && s.inLevel sync 32)

/-- First accumulator and count of a `tqread` record (R252). -/
def readRange (iva : Nat) : Nat × Nat := (fld iva 0 16, fld iva 16 16)

/-- Whether the fields of a table command record hold (R252, R253). -/
def State.tableFields (s : State) (op : TableOp) (c : TableCmd) (reserved : Nat) : Bool :=
  let ew := c.arg % 4
  let (first, count) := readRange c.iva
  reserved == 0 && s.syncOk c.sync &&
    match op with
    | .latch => c.iva == 0 && c.lsrc == 0 && c.ldst == 0 && c.arg == 0 && c.tva % 1024 == 0
    | .mac => c.lsrc == 0 && c.ldst == 0 && c.arg < 32 && c.tva % 1024 == 0 && c.iva % 1024 == 0
    | .look =>
      c.iva == 0 && c.arg < 4 && ew != 3 && c.tva % 1024 == 0 && c.lsrc % 32 == 0 && c.ldst % 2 ^ ew == 0
        && s.inLevel c.lsrc 128 && s.inLevel c.ldst (64 * 2 ^ ew)
    | .read =>
      c.lsrc == 0 && c.arg < 4 && c.iva < 2 ^ 32 && 1 ≤ count && first + count ≤ 2048 && c.ldst % 4 == 0
        && s.inLevel c.ldst (4 * count)

/-- The table command of a record's 32 bytes. -/
def tableCmdOf (op : TableOp) (t : Thread) (r : Nat) (bs : List Byte) : TableCmd :=
  let n (k len : Nat) : Nat := natOf ((bs.drop k).take len)
  ⟨op, t.owner, t.view .table, r, n 0 8, n 8 8, n 16 4, n 20 4, n 24 4, n 28 1, t.leased 1, t.seq, none⟩

/-- The VA fields that a table command uses (R252). -/
def TableCmd.vas (c : TableCmd) : List Nat :=
  match c.op with
  | .mac => [c.tva, c.iva]
  | .latch | .look | .read => [c.tva]

/-- Issues a table command: its record is read once (R253). -/
def State.table (s : State) (op : TableOp) (a : Reg) : State :=
  let r := (s.getX a).toNat
  match s.localCheck r 32 32 with
  | some (c, q) => s.trap c q
  | none => s.whenFree (fun s =>
      let bs := s.readOnce r 32
      let c := tableCmdOf op s.th r bs
      match c.vas.find? (fun v => 2 ^ 56 ≤ v) with
      | some v => s.trap 0x07 v
      | none =>
        if !s.tableFields op c (natOf ((bs.drop 29).take 2)) then s.trap 0x0E r
        else if 16 ≤ s.counter s.th .tc then s.stallWith bs
        else { s with tableQ := s.tableQ ++ [c], th := { s.th with seq := s.th.seq + 1 } }.retire 4)

/-- TQLATCH (R253). -/
def execTqlatch (a : Reg) (s : State) : Out := .next (s.table .latch a)
/-- TQD (R253). -/
def execTqd (a : Reg) (s : State) : Out := .next (s.table .look a)
/-- TQMAC (R253). -/
def execTqmac (a : Reg) (s : State) : Out := .next (s.table .mac a)
/-- TQREAD (R253). -/
def execTqread (a : Reg) (s : State) : Out := .next (s.table .read a)

/-! ### Execution (R253 to R259) -/

/-- The bytes with which a table command arrives (R253). -/
def TableCmd.arrival (c : TableCmd) : Nat :=
  match c.op with
  | .latch | .mac => 1024
  | .look => 64 * 2 ^ (c.arg % 4)
  | .read => 4 * (readRange c.iva).2

/-- Translates the VAs of a command in order; the first failure ends it with its VA (R15, R253). -/
def State.translateVas (s : State) (r : Req) : List Nat → Except (Option (Nat × Nat)) (List Phys) × State
  | [] => (.ok [], s)
  | va :: rest =>
    if 2 ^ 56 ≤ va then (.error (some (0x07, va)), s)
    else match s.translate r va with
    | (.wait, s) => (.error none, s)
    | (.bad c, s) => (.error (some (c, va)), s)
    | (.ok p, s) =>
      match s.translateVas r rest with
      | (.ok ps, s) => (.ok (p :: ps), s)
      | (.error e, s) => (.error e, s)

/-- The unit that a VA names for an issuer, where it translates. -/
def State.unitAt (s : State) (o : Owner) (va : Nat) : Option Nat :=
  match (s.translate (o.req .load none) va).1 with
  | .ok p => if isDevice p.pa then some (nmuOf p.pa) else none
  | .bad _ | .wait => none

/-- Whether a VA names a unit of some kind for an issuer, or may name one: it does not translate now. -/
def State.mayName (s : State) (o : Owner) (gen : Option (BitVec 32)) (va : Nat) (p : Nat → Bool) : Bool :=
  match (s.translate (o.req .load gen) va).1 with
  | .ok q => isDevice q.pa && p (nmuOf q.pa)
  | .bad _ | .wait => true

/-- What a command does at its NMU: its status, the address of uncorrectable data, and the state (R255 to R258). The tva
lies at `t`; `ps` holds every translated field. -/
def State.tableEffect (s : State) (c : TableCmd) (t : Phys) (ps : List Phys) : Nat × Option Nat × State :=
  let o := c.owner
  let v := c.view
  let fn := o.ident.vf
  let s := ps.foldl (fun s p => s.perhapsEvicted (rowOf p.pa) 1024) s
  if ps.any (fun p => p.tracked || !isDevice p.pa) then (6, none, s)
  else
    let n := nmuOf t.pa
    match (s.nmu n).claimFor o.ident with
    | none => (7, none, s)
    | some u =>
      let s := s.putNmu n u
      match c.op with
      | .latch =>
        if u.latchesFull t.pa then (8, none, s)
        else match s.badIn (rowOf t.pa) 1024, s.poisonedIn (rowOf t.pa) 1024 with
          | some pa, _ => (13, some pa, s)
          | none, some _ => (13, none, s)
          | none, none => (0, none, (s.putNmu n (u.latch t.pa (s.rowBytes v t.pa))).use fn 6 1024)
      | .mac =>
        let x := ps.getLast?.getD t
        if !sameSubarray x.pa t.pa then (3, none, s)
        else match u.latched t.pa with
          | none => (2, none, s)
          | some table =>
            (match s.badIn (rowOf x.pa) 1024, s.poisonedIn (rowOf x.pa) 1024 with
            | some pa, _ => (13, some pa, s)
            | none, some _ => (13, none, s)
            | none, none =>
              let w := u.macRow table (s.rowBytes v x.pa) (c.arg % 16) (c.arg / 16 % 2)
              (0, none, ((s.putNmu n w).use fn 3 2048).use fn 6 1024))
      | .look =>
        (match u.latched t.pa with
        | none => (2, none, s)
        | some table =>
          match s.lostLoc v c.lsrc 128 with
          | some k => (13, some k, s)
          | none =>
            let idx := (List.range 64).map (fun k => s.seeNat v (c.lsrc + 2 * k) 2)
            (0, none, (s.putElems (2 ^ (c.arg % 4)) v c.ldst (gatherRow table (c.arg % 4) idx)).use fn 3 64))
      | .read =>
        let (first, count) := readRange c.iva
        let bs := (List.range count).flatMap (fun j => bytesOf 4 (u.accAt (first + j)).toNat)
        let u := if c.arg % 2 = 1 then u.clearAcc first count else u
        let u := if c.arg / 2 % 2 = 1 then u.unclaim else u
        (0, none, (s.putElems 4 v c.ldst bs).putNmu n u)

/-- The end of a command: its status byte, its arrival, and, where it met uncorrectable data, the report (R253, R254). -/
def State.tableDone (s : State) (c : TableCmd) (status : Nat) (bad : Option Nat) : State :=
  let s := ((s.putEngine c.view (c.raddr + 31) (bytesOf 1 status)).arrive c.owner c.sync c.arrival (status != 0)).dropLostClaim
    c.owner
  match bad with
  | some pa => s.reportOwner c.owner pa
  | none => s

/-- Whether an earlier command of the thread may go to the same NMU: it is executed first (R270). -/
def State.tableBehind (s : State) (k : Nat) (c : TableCmd) (n : Nat) : Bool :=
  (s.tableQ.take k).any (fun e => e.owner.ident == c.owner.ident && s.mayName e.owner e.gen e.tva (· == n))

/-- Executes table command `k`, if it is of the event's kind and may be executed. A translation fault makes it a replay
record, for which it waits while the thread has no place left (R253, R297); the record of a thread that has left is
discarded (R309). A command of a paused burst waits (R362). -/
def State.tableExec (s0 : State) (op : TableOp) : State :=
  match s0.tableQ[s0.ev.idx]? with
  | none => s0
  | some c =>
    if c.op ≠ op then s0
    else
      let out (s : State) : State := { s with tableQ := s.tableQ.eraseIdx s0.ev.idx }
      match s0.translateVas (c.owner.req .load c.gen) c.vas with
      | (.error none, s) => s
      | (.error (some (k, va)), s) =>
        match s.issuer c.owner with
        | none => out s
        | some t =>
          let s := s.focus t.slot
          (match s.postRecord (.table { c with gen := none }) ⟨k, va, false, s.th.uact⟩ true c.seq with
          | some s => out s
          | none => s0)
      | (.ok [], s) => s
      | (.ok (p :: ps), s) =>
        if isDevice p.pa && (s.tableBehind s0.ev.idx c (nmuOf p.pa) || (c.leased && (s.nmu (nmuOf p.pa)).paused)) then s0
        else
          let (st, bad, s) := (out s).tableEffect c p (p :: ps)
          s.tableDone c st bad

/-- TQLATCH_EXEC (R255). -/
def execTqlatchExec (s : State) : Out := .next (s.tableExec .latch)
/-- TQMAC_EXEC (R256). -/
def execTqmacExec (s : State) : Out := .next (s.tableExec .mac)
/-- TQD_EXEC (R257). -/
def execTqdExec (s : State) : Out := .next (s.tableExec .look)
/-- TQREAD_EXEC (R258). -/
def execTqreadExec (s : State) : Out := .next (s.tableExec .read)

end Sys2Proof.Machine
end

