-- ==== Sys2Proof/Machine/Nmu.lean ====
section
/-!
DEFINITION. Sys2Proof/Machine/Nmu.lean: the near-memory units: messages (R260 to R262), the built-in handlers (R264), loaded
handlers and their microinstructions (R263), row operations (R265), stops, `nmresume`, `nmload` and `nmstat` (R266 to
R269).
-/
namespace Sys2Proof.Machine

/-! ### Messages (R261, R262) -/

/-- The NMU message of a record's 64 bytes. -/
def nmMsgOf (t : Thread) (r : Nat) (bs : List Byte) : NmMsg :=
  let n (k len : Nat) : Nat := natOf ((bs.drop k).take len)
  { owner := t.owner, view := t.view .nm, raddr := r, region := n 0 8, n := n 8 2, handler := n 10 1, channel := n 11 1, write := n 12 1 % 2 == 1
    m := (List.range 8).map (fun k => BitVec.ofNat 32 (n (16 + 4 * k) 4)), sync := n 48 4, leased := t.leased 3, seq := t.seq
    gen := none, frames := [], leaves := [] }

/-- Whether the fields of a message record hold (R261). -/
def State.nmFields (s : State) (bs : List Byte) : Bool :=
  let n (k len : Nat) : Nat := natOf ((bs.drop k).take len)
  n 0 8 % 65536 == 0 && 1 ≤ n 8 2 && n 8 2 ≤ 256 && n 10 1 < 16 && n 11 1 < 32 && n 12 1 < 2 && n 13 3 == 0 && s.syncOk (n 48 4)
    && n 52 4 == 0 && n 57 7 == 0

/-- NMSEND (R262). -/
def execNmsend (a : Reg) (s : State) : Out :=
  let r := (s.getX a).toNat
  .next (match s.localCheck r 64 64 with
    | some (c, q) => s.trap c q
    | none => s.whenFree (fun s =>
        let bs := s.readOnce r 64
        let m := nmMsgOf s.th r bs
        if 2 ^ 56 ≤ m.region then s.trap 0x07 m.region
        else if !s.nmFields bs then s.trap 0x0F r
        else if 8 ≤ s.counter s.th .nc then s.stallWith bs
        else { s with nmQ := s.nmQ ++ [m], th := { s.th with seq := s.th.seq + 1 } }.retire 4))

/-- NMSTAT (R268): issued like a global load. -/
def execNmstat (d a : Reg) (s : State) : Out :=
  let va := (s.getX a).toNat
  .next (if 2 ^ 56 ≤ va then s.trap 0x07 va
    else s.issueWhenFree (Access.of .nmstat va .plain false d 0 0) [])

/-- The end of a message: m0 to m7 and the status go back into its record, and its sync word hears of it (R262). -/
def State.endMessage (s : State) (m : NmMsg) (ms : List (BitVec 32)) (status : Nat) : State :=
  let o := m.owner
  let s := s.putElems 4 m.view (m.raddr + 16) ((ms.take 8).flatMap (fun v => bytesOf 4 v.toNat))
  let s := s.putEngine m.view (m.raddr + 56) (bytesOf 1 status)
  (s.arrive o m.sync 64 (status != 0)).dropLostClaim o

/-- Whether a message goes to an NMU, or may go there: its region does not translate now. -/
def State.mayGoTo (s : State) (m : NmMsg) (n : Nat) : Bool :=
  m.channel == n % 32 && s.mayName m.owner m.gen m.region (fun u => u / 32 == n / 32)

/-- Whether something that the thread of a message sent earlier to its NMU is still on its way there: a message, or a handler
load (R270). -/
def State.messageBehind (s : State) (k : Nat) (m : NmMsg) (n : Nat) : Bool :=
  (s.nmQ.take k).any (fun e => e.owner.ident == m.owner.ident && s.mayGoTo e n)
    || s.loads.any (fun l => l.owner.ident == m.owner.ident && l.seq < m.seq && l.nmus.contains n)

/-- Whether an earlier message of the same thread waits or runs at an NMU, so that the ending of a later one waits for it
(R270). -/
def Nmu.holdsOf (u : Nmu) (i : Ident) : Bool := u.queue.any (·.owner.ident == i) || u.run.any (·.msg.owner.ident == i)

/-- NMU_MESSAGE_ARRIVAL (R262): the frames are translated; then the message ends at once with status 6, 9 or 10, or joins
the NMU's queue once it has room. Messages of one thread to one NMU end in the order in which they were sent (R270). -/
def execNmuMessageArrival (s0 : State) : Out :=
  .next (match s0.nmQ[s0.ev.idx]? with
    | none => s0
    | some m =>
      let out (s : State) : State := { s with nmQ := s.nmQ.eraseIdx s0.ev.idx }
      let vas := (List.range m.n).map (fun k => m.region + 65536 * k)
      match s0.translateVas (m.owner.req (if m.write then .atomic else .load) m.gen) vas with
      | (.error none, s) => s
      | (.error (some (k, va)), s) =>
        match s.issuer m.owner with
        | none => out s
        | some t =>
          let s := s.focus t.slot
          (match s.postRecord (.nm { m with gen := none }) ⟨k, va, m.write, s.th.uact⟩ true m.seq with
          | some s => out s
          | none => s0)
      | (.ok ps, s) =>
        let frames := ps.map (·.pa)
        let stack := stackOf (frames.headD 0)
        let n := stack * 32 + m.channel
        let u := s.nmu n
        if s.messageBehind s0.ev.idx m n then s0
        else
          let ends := if ps.any (fun p => p.tracked || !isDevice p.pa) then some 6
            else if frames.any (fun f => stackOf f != stack) then some 9
            else if 8 ≤ m.handler ∧ (Tab.find u.loaded m.handler).isNone then some 10
            else none
          match ends with
          | some st => if u.holdsOf m.owner.ident then s0 else (out s).endMessage m m.m st
          | none =>
            if 64 ≤ u.queue.length then s0
            else (out s).putNmu n { u with queue := u.queue ++ [{ m with gen := none, frames := frames, leaves := ps.map (·.key) }] })

/-! ### Running handlers (R260, R266) -/

/-- How an operation of a handler ends. -/
inductive HandlerEnd where
  | status (n : Nat)
  /-- uncorrectable data: status 13, and a report (R265) -/
  | lost (pa : Nat)
  | stop (kind bank column : Nat)
  deriving DecidableEq, Repr

/-- A handler as its message starts it (R260). -/
def Handler.start (m : NmMsg) : Handler where
  msg := m
  m := Vector.ofFn (fun (k : Fin 16) => m.m.getD k.val 0)
  buf := []
  pc := 0
  stop := none
  left := false

/-- Replaces the handler that an NMU runs. -/
def State.setHandler (s : State) (n : Nat) (h : Handler) : State := s.putNmu n { s.nmu n with run := some h }

/-- The handler of an NMU ends with a status; the NMU takes its next message (R260, R262). -/
def State.endHandler (s : State) (n : Nat) (h : Handler) (status : Nat) : State :=
  (s.putNmu n { s.nmu n with run := none }).endMessage h.msg h.m.toList status

/-- The handler of an NMU stops, and its sender receives a notice, with which the message leaves nc (R266, R302). -/
def State.stopHandler (s : State) (n : Nat) (h : Handler) (kind bank column : Nat) : State :=
  let (told, s) := s.postNotice h.msg.owner (noticeOf 5 0 0x0F h.msg.raddr)
  s.setHandler n { h with stop := some ⟨kind, bank, column, told⟩, left := h.left || told }

/-- Ends or stops the handler of an NMU as one of its operations tells. -/
def State.settle (s : State) (n : Nat) (h : Handler) (e : HandlerEnd) : State :=
  match e with
  | .status k => s.endHandler n h k
  | .lost pa => (s.endHandler n h 13).reportOwner h.msg.owner pa
  | .stop kind bank column => s.stopHandler n h kind bank column

/-- The row that a handle names (R260). -/
def Handler.row (h : Handler) (v : Nat) : Except HandlerEnd Nat :=
  if 2 * h.msg.n ≤ v then .error (.stop 1 0 0)
  else .ok (h.msg.frames.getD (v / 2) 0 + (v % 2 * 32 + h.msg.channel) * 1024)

/-- Reads a row into a buffer: a poisoned word stops the handler, uncorrectable data ends it (R265, R266). -/
def State.readRow (s : State) (v : View) (pa : Nat) : Except HandlerEnd (List Byte) :=
  match s.poisonedIn pa 1024, s.badIn pa 1024 with
  | some w, _ => .error (.stop 3 (bankOf pa) (w - pa))
  | none, some w => .error (.lost w)
  | none, none => .ok (s.rowBytes v pa)

/-- A row that a handler may write (R266). -/
def Handler.writable (h : Handler) (v : Nat) : Except HandlerEnd Nat :=
  match h.row v with
  | .error e => .error e
  | .ok pa => if h.msg.write then .ok pa else .error (.stop 2 (bankOf pa) 0)

/-- Where a write of row `v` of a message's region goes, which was translated to `pa` at its arrival, and the cached translation in which
D is to be set first. Where D is not set yet and the leaf has changed, or its translation has been dropped, the page is walked again and
the new leaf translates the write (R318); one that no longer leads to this stack leaves the write where it was translated to (DESIGN
CHOICE, the log's entry 66). -/
def State.rowNow (s : State) (h : Handler) (v pa : Nat) : Nat × Option Nat × State :=
  let key := h.msg.leaves.getD (v / 2) 0
  let frame := h.msg.frames.getD (v / 2) 0
  if (Tab.find s.tlb key).any (fun t => pteD t.leaf || s.stillLeaf t) then (pa, some key, s)
  else
    match ({ s with tlb := Tab.drop s.tlb key } : State).translate (h.msg.owner.req .atomic none) (h.msg.region + 65536 * (v / 2)) with
    | (.ok p, s) =>
      if !p.tracked && isDevice p.pa && stackOf p.pa == stackOf frame then (p.pa + (pa - frame), some p.key, s) else (pa, none, s)
    | (_, s) => (pa, none, s)

/-- Writes the data of a row, with D set first where it is to be (R265, R318). -/
def State.putRowOf (s : State) (h : Handler) (key : Option Nat) (pa : Nat) (bs : List Byte) : State :=
  (key.elim s s.setD).putRowBytes h.msg.view pa bs

/-- Writes a buffer to a row (R265). -/
def State.writeRow (s : State) (h : Handler) (v : Nat) (bs : List Byte) : Except HandlerEnd State :=
  match h.writable v with
  | .error e => .error e
  | .ok pa =>
    let (pa, key, s) := s.rowNow h v pa
    .ok ((s.putRowOf h key pa bs).use h.msg.owner.ident.vf 6 1024)

/-- Zeroes a row of a frame with tag 0 (R265). -/
def State.zeroRow (s : State) (h : Handler) (v : Nat) : Except HandlerEnd State :=
  match h.writable v with
  | .error e => .error e
  | .ok pa =>
    let (pa, key, s) := s.rowNow h v pa
    if s.rowTag pa ≠ 0 then .error (.status 4)
    else .ok ((s.putRowOf h key pa (List.replicate 1024 0)).use h.msg.owner.ident.vf 6 1024)

/-- The marks of a table in a range of `n` numbers, moved to another range; the marks that the target had go. -/
def moveMarks {α : Type} (t : Tab α) (src dst n : Nat) : Tab α :=
  (t.filter (fun e => src ≤ e.1 && e.1 < src + n)).foldl (fun t e => Tab.put t (e.1 - src + dst) e.2) (Tab.dropRange t dst n)

/-- Copies a row, with its check and tag columns, to a row of a frame with the same tag: unchecked within a subarray, and
else through a buffer that meets uncorrectable data (R265). Poison marks stand in the tag column (R174). -/
def State.copyRow (s : State) (h : Handler) (v w : Nat) : Except HandlerEnd State :=
  match h.row v with
  | .error e => .error e
  | .ok src =>
    match h.writable w with
    | .error e => .error e
    | .ok dst =>
      let (dst, key, s) := s.rowNow h w dst
      if s.rowTag src ≠ s.rowTag dst then .error (.status 5)
      else
        let near := sameSubarray src dst
        match (if near then none else s.badIn src 1024) with
        | some pa => .error (.lost pa)
        | none =>
          let t := s.putRowOf h key dst (s.rowBytes h.msg.view src)
          let t := { t with poison := moveMarks s.poison src dst 1024 }
          let t := if near then
              { t with bad := moveMarks s.bad src dst 1024, weak := moveMarks s.weak (src / 32) (dst / 32) 32 }
            else t
          .ok (t.use h.msg.owner.ident.vf 6 2048)

/-! ### Built-in handlers (R264) -/

/-- The value of microregister `k`. -/
def Handler.reg (h : Handler) (k : Nat) : Nat := (h.m.toList.getD k 0).toNat

/-- Claims the NMU of a handler for its sender; status 7 where another thread's claim holds it (R251). -/
def State.claimNmu (s : State) (n : Nat) (h : Handler) : Except HandlerEnd State :=
  match (s.nmu n).claimFor h.msg.owner.ident with
  | some u => .ok (s.putNmu n u)
  | none => .error (.status 7)

/-- One step of the indexed reduce on a word (R264). -/
def reduceWord (int : Bool) (a b : Nat) : Nat :=
  if int then (a + b) % 2 ^ 32 else (f32.round nearest false (Exact.add nearest (f32.unpack a) (f32.unpack b)).1).1

/-- The 256 words of a row. -/
def rowWords (bs : List Byte) : List Nat := (List.range 256).map (entryOf bs 4)

/-- Sums the listed rows into `acc`, in list order (R264). -/
def State.reduceRows (s : State) (h : Handler) (int : Bool) (acc : List Nat) : List Nat → Except HandlerEnd (List Nat)
  | [] => .ok acc
  | v :: rest =>
    match h.row v with
    | .error e => .error e
    | .ok pa =>
      match s.readRow h.msg.view pa with
      | .error e => .error e
      | .ok bs => s.reduceRows h int (List.zipWith (reduceWord int) acc (rowWords bs)) rest

/-- A row of the message's region, read into a buffer. -/
def State.readHandle (s : State) (h : Handler) (v : Nat) : Except HandlerEnd (List Byte) :=
  match h.row v with
  | .error e => .error e
  | .ok pa => s.readRow h.msg.view pa

/-- A built-in handler as one operation on an NMU: the state it leaves, its registers at the end, and how it ends. A stop
leaves what precedes it done (R264, R266). -/
abbrev Builtin := State → Nat → Handler → HandlerEnd × Handler × State

/-- Ends a built-in handler by the result of its last operation, with status 0 where that succeeded. -/
def finish (s : State) (h : Handler) (r : Except HandlerEnd State) : HandlerEnd × Handler × State :=
  match r with
  | .ok s => (.status 0, h, s)
  | .error e => (e, h, s)

/-- Handler 0: row copy. -/
def rowCopy : Builtin := fun s _ h => finish s h (s.copyRow h (h.reg 0) (h.reg 1))

/-- Handler 1: row zero. -/
def rowZero : Builtin := fun s _ h => finish s h (s.zeroRow h (h.reg 0))

/-- Handler 2: indexed reduce. -/
def indexedReduce : Builtin := fun s _ h =>
  let count := h.reg 1
  if count < 1 ∨ 512 < count ∨ 1 < h.reg 3 then (.status 1, h, s)
  else match s.readHandle h (h.reg 0) with
    | .error e => (e, h, s)
    | .ok list =>
      let hs := (List.range count).map (entryOf list 2)
      match s.readHandle h (hs.headD 0) with
      | .error e => (e, h, s)
      | .ok first =>
        match s.reduceRows h (h.reg 3 == 1) (rowWords first) (hs.drop 1) with
        | .error e => (e, h, s)
        | .ok words =>
          finish s h ((s.writeRow h (h.reg 2) (words.flatMap (bytesOf 4))).map
            (fun s => s.use h.msg.owner.ident.vf 6 (1024 * (count + 1))))

/-- Handler 3: table gather. -/
def tableGather : Builtin := fun s n h =>
  if 2 < h.reg 3 then (.status 1, h, s)
  else match s.claimNmu n h with
    | .error e => (e, h, s)
    | .ok s =>
      match h.row (h.reg 0) with
      | .error e => (e, h, s)
      | .ok t =>
        match (s.nmu n).latched t with
        | none => (.status 2, h, s)
        | some table =>
          match s.readHandle h (h.reg 1) with
          | .error e => (e, h, s)
          | .ok index =>
            let ew := h.reg 3
            let k := min 512 (1024 / 2 ^ ew)
            let bs := gatherRow table ew ((List.range k).map (entryOf index 2))
            finish s h ((s.writeRow h (h.reg 2) (bs ++ List.replicate (1024 - bs.length) 0)).map
              (fun s => (s.use h.msg.owner.ident.vf 3 k).use h.msg.owner.ident.vf 6 1024))

/-- Handler 4: table MAC, as `tqmac` (R256). -/
def tableMac : Builtin := fun s n h =>
  if 32 ≤ h.reg 2 then (.status 1, h, s)
  else match s.claimNmu n h with
    | .error e => (e, h, s)
    | .ok s =>
      match h.row (h.reg 0), h.row (h.reg 1) with
      | .error e, _ => (e, h, s)
      | .ok _, .error e => (e, h, s)
      | .ok t, .ok x =>
        if !sameSubarray x t then (.status 3, h, s)
        else match (s.nmu n).latched t with
          | none => (.status 2, h, s)
          | some table =>
            match s.badIn x 1024, s.poisonedIn x 1024 with
            | some pa, _ => (.lost pa, h, s)
            | none, some _ => (.status 13, h, s)
            | none, none =>
              let u := (s.nmu n).macRow table (s.rowBytes h.msg.view x) (h.reg 2 % 16) (h.reg 2 / 16)
              (.status 0, h, ((s.putNmu n u).use h.msg.owner.ident.vf 3 2048).use h.msg.owner.ident.vf 6 1024)

/-- Handler 5: accumulator read. -/
def accumulatorRead : Builtin := fun s n h =>
  let first := h.reg 0
  let count := h.reg 1
  if count < 1 ∨ 256 < count ∨ 2048 < first + count ∨ 1 < h.reg 3 then (.status 1, h, s)
  else match s.claimNmu n h with
    | .error e => (e, h, s)
    | .ok s =>
      let u := s.nmu n
      let bs := (List.range 256).flatMap (fun j => bytesOf 4 (if j < count then (u.accAt (first + j)).toNat else 0))
      finish s h ((s.writeRow h (h.reg 2) bs).map
        (fun s => if h.reg 3 = 1 then s.putNmu n ((s.nmu n).clearAcc first count) else s))

/-- Handler 6: accumulator clear. -/
def accumulatorClear : Builtin := fun s n h =>
  let first := h.reg 0
  let count := h.reg 1
  if count < 1 ∨ 2048 < count ∨ 2048 < first + count then (.status 1, h, s)
  else match s.claimNmu n h with
    | .error e => (e, h, s)
    | .ok s => (.status 0, h, s.putNmu n ((s.nmu n).clearAcc first count))

/-- Handler 7: status. -/
def statusHandler : Builtin := fun s n h =>
  let w := (nmuStatus (s.nmu n) h.msg.owner.ident).toNat
  (.status 0, { h with m := (h.m.set 0 (BitVec.ofNat 32 w)).set 1 (BitVec.ofNat 32 (w / 2 ^ 32)) }, s)

/-- The message that an NMU takes next, and its queue without it: the first, or, while a burst is paused there, the first that the burst's
lease does not cover and that follows no other of its thread (R260, R270, R362). -/
def Nmu.next (u : Nmu) : Option (NmMsg × List NmMsg) :=
  if !u.paused then u.queue.head?.map (fun m => (m, u.queue.tail))
  else
    let free (e : NmMsg × Nat) : Bool := !e.1.leased && (u.queue.take e.2).all (fun m => m.owner.ident != e.1.owner.ident)
    (u.queue.zipIdx.find? free).map (fun e => (e.1, u.queue.eraseIdx e.2))

/-- The handler that the event's NMU may run as number `k`: one that goes on after a stop, or the next message while none runs
(R260). -/
def Nmu.ready (u : Nmu) (k : Nat) : Option (Handler × Nmu) :=
  match u.run, u.next with
  | some h, _ => if h.msg.handler = k ∧ h.stop.isNone then some (h, u) else none
  | none, some (m, rest) => if m.handler = k then some (Handler.start m, { u with queue := rest }) else none
  | none, none => none

/-- Before a handler reads rows of its region: registered words of them may have been evicted by then, or not (R195). -/
def State.evictFor (s : State) (m : NmMsg) : State :=
  m.frames.foldl (fun s f => (s.perhapsEvicted (f + m.channel * 1024) 1024).perhapsEvicted (f + (32 + m.channel) * 1024) 1024) s

/-- Runs built-in handler `k` of the event's NMU (R260, R264). -/
def State.builtin (s : State) (k : Nat) (f : Builtin) : State :=
  let n := s.ev.unit
  match (s.nmu n).ready k with
  | none => s
  | some (h, u) =>
    let (e, h, s) := f ((s.putNmu n { u with run := some h }).evictFor h.msg) n h
    s.settle n h e

/-- ROW_COPY (R264, R265). -/
def execRowCopy (s : State) : Out := .next (s.builtin 0 rowCopy)
/-- ROW_ZERO (R264, R265). -/
def execRowZero (s : State) : Out := .next (s.builtin 1 rowZero)
/-- INDEXED_REDUCE (R264). -/
def execIndexedReduce (s : State) : Out := .next (s.builtin 2 indexedReduce)
/-- TABLE_GATHER (R264). -/
def execTableGather (s : State) : Out := .next (s.builtin 3 tableGather)
/-- TABLE_MAC (R264). -/
def execTableMac (s : State) : Out := .next (s.builtin 4 tableMac)
/-- ACCUMULATOR_READ (R264). -/
def execAccumulatorRead (s : State) : Out := .next (s.builtin 5 accumulatorRead)
/-- ACCUMULATOR_CLEAR (R264). -/
def execAccumulatorClear (s : State) : Out := .next (s.builtin 6 accumulatorClear)
/-- STATUS_HANDLER (R264). -/
def execStatusHandler (s : State) : Out := .next (s.builtin 7 statusHandler)

/-! ### Loaded handlers (R260, R263) -/

/-- LOADED_HANDLER_START (R260). -/
def execLoadedHandlerStart (s : State) : Out :=
  let n := s.ev.unit
  let u := s.nmu n
  .next (match u.run, u.next with
    | none, some (m, rest) => if 8 ≤ m.handler then s.putNmu n { u with queue := rest, run := some (Handler.start m) } else s
    | _, _ => s)

/-- Runs a microinstruction on the handler of the NMU at hand; one that is not running does nothing. -/
def State.micro (s : State) (f : Handler → State) : State :=
  match (s.nmu s.nmuAt).run with
  | some h => if h.stop.isNone then f h else s
  | none => s

/-- The handler goes on at the next microinstruction. -/
def State.microNext (s : State) (h : Handler) : State := s.setHandler s.nmuAt { h with pc := h.pc + 1 }

/-- A microinstruction that writes m[d]. -/
def State.microSet (s : State) (d : MReg) (f : Handler → BitVec 32) : State :=
  s.micro (fun h => s.microNext { h with m := h.m.set d (f h) })

/-- The second operand of a microinstruction (R263). -/
def Handler.operand (h : Handler) : MicroOperand → BitVec 32
  | .reg b => h.m[b]
  | .imm v => v.signExtend 32

/-- A microinstruction that works on a row: what it does, or how it ends or stops the handler (R263, R266). -/
def State.microRow (s : State) (f : State → Handler → Except HandlerEnd State) : State :=
  s.micro (fun h =>
    match f (s.evictFor h.msg) h with
    | .ok t => t.microNext (match (t.nmu s.nmuAt).run with | some g => g | none => h)
    | .error e => s.settle s.nmuAt h e)

/-- Index of a buffer word: (m[a] + v) mod 256. -/
def Handler.bufIndex (h : Handler) (a : MReg) (v : MicroOperand) : Nat := (h.m[a] + h.operand v).toNat % 256

/-- MLI (R263). -/
def execMli (d : MReg) (v : BitVec 16) (s : State) : Out := .next (s.microSet d (fun _ => v.signExtend 32))
/-- MLD (R263). -/
def execMld (d a : MReg) (v : MicroOperand) (s : State) : Out :=
  .next (s.microSet d (fun h => Tab.get h.buf (h.bufIndex a v) 0))
/-- MST (R263). -/
def execMst (d a : MReg) (v : MicroOperand) (s : State) : Out :=
  .next (s.micro (fun h => s.microNext { h with buf := Tab.put h.buf (h.bufIndex a v) h.m[d] }))

/-- The buffer that holds the words of a row. -/
def bufOf (bs : List Byte) : Tab (BitVec 32) := (rowWords bs).zipIdx.map (fun e => (e.2, BitVec.ofNat 32 e.1))

/-- The bytes of the buffer. -/
def Handler.bufBytes (h : Handler) : List Byte := (List.range 256).flatMap (fun k => bytesOf 4 (Tab.get h.buf k 0).toNat)

/-- MRDROW_READ (R263, R266). -/
def execMrdrowRead (a : MReg) (s : State) : Out :=
  .next (s.microRow (fun s h => (s.readHandle h h.m[a].toNat).map (fun bs =>
    (s.use h.msg.owner.ident.vf 6 1024).setHandler s.nmuAt { h with buf := bufOf bs })))
/-- MRDROW_WRITE (R263, R265). -/
def execMrdrowWrite (a : MReg) (s : State) : Out := .next (s.microRow (fun s h => s.writeRow h h.m[a].toNat h.bufBytes))
/-- MRDROW_ZERO (R263, R265). -/
def execMrdrowZero (a : MReg) (s : State) : Out := .next (s.microRow (fun s h => s.zeroRow h h.m[a].toNat))
/-- MRDROW_COPY (R263, R265): row m[b] becomes row m[a]. -/
def execMrdrowCopy (a b : MReg) (s : State) : Out :=
  .next (s.microRow (fun s h => s.copyRow h h.m[a].toNat h.m[b].toNat))

/-- MADD (R263). -/
def execMadd (d a : MReg) (v : MicroOperand) (s : State) : Out := .next (s.microSet d (fun h => h.m[a] + h.operand v))
/-- MSUB (R263). -/
def execMsub (d a : MReg) (v : MicroOperand) (s : State) : Out := .next (s.microSet d (fun h => h.m[a] - h.operand v))
/-- MAND (R263). -/
def execMand (d a : MReg) (v : MicroOperand) (s : State) : Out := .next (s.microSet d (fun h => h.m[a] &&& h.operand v))
/-- MOR (R263). -/
def execMor (d a : MReg) (v : MicroOperand) (s : State) : Out := .next (s.microSet d (fun h => h.m[a] ||| h.operand v))
/-- MXOR (R263). -/
def execMxor (d a : MReg) (v : MicroOperand) (s : State) : Out := .next (s.microSet d (fun h => h.m[a] ^^^ h.operand v))
/-- MSHL (R263). -/
def execMshl (d a : MReg) (v : MicroOperand) (s : State) : Out :=
  .next (s.microSet d (fun h => h.m[a] <<< ((h.operand v).toNat % 32)))
/-- MSHR (R263). -/
def execMshr (d a : MReg) (v : MicroOperand) (s : State) : Out :=
  .next (s.microSet d (fun h => h.m[a] >>> ((h.operand v).toNat % 32)))
/-- MMUL (R263). -/
def execMmul (d a : MReg) (v : MicroOperand) (s : State) : Out := .next (s.microSet d (fun h => h.m[a] * h.operand v))
/-- MMAX (R263). -/
def execMmax (d a : MReg) (v : MicroOperand) (s : State) : Out :=
  .next (s.microSet d (fun h => if h.m[a].slt (h.operand v) then h.operand v else h.m[a]))

/-- Runs a `macc` under the claim of R251: claimed by another thread, it ends the handler with status 7. -/
def State.macc (s : State) (f : Handler → Nmu → Handler × Nmu) : State :=
  s.micro (fun h =>
    match (s.nmu s.nmuAt).claimFor h.msg.owner.ident with
    | none => s.endHandler s.nmuAt h 7
    | some u =>
      let (h, u) := f h u
      (s.putNmu s.nmuAt u).microNext h)

/-- MACC_ADD (R263). -/
def execMaccAdd (d a : MReg) (s : State) : Out :=
  .next (s.macc (fun h u =>
    let k := h.m[a].toNat % 2048
    (h, u.setAcc k (u.accAt k + h.m[d]))))
/-- MACC_READ (R263). -/
def execMaccRead (d a : MReg) (s : State) : Out :=
  .next (s.macc (fun h u => ({ h with m := h.m.set d (u.accAt (h.m[a].toNat % 2048)) }, u)))

/-- A forward branch of `o` microinstructions, if it is taken (R263). -/
def State.microBranch (s : State) (o : Fin 64) (taken : Handler → Bool) : State :=
  s.micro (fun h => if taken h then s.setHandler s.nmuAt { h with pc := h.pc + o.val } else s.microNext h)

/-- MBFW (R263). -/
def execMbfw (a : MReg) (o : Fin 64) (s : State) : Out := .next (s.microBranch o (fun h => h.m[a] != 0))
/-- MBFW_ZERO (R263). -/
def execMbfwZero (a : MReg) (o : Fin 64) (s : State) : Out := .next (s.microBranch o (fun h => h.m[a] == 0))

/-- MFIN (R262, R263). -/
def execMfin (d : MReg) (s : State) : Out := .next (s.micro (fun h => s.endHandler s.nmuAt h (h.m[d].toNat % 256)))

/-! ### Stops and resumes (R266, R267) -/

/-- Whether the thread of a message lies saved in a frame, or has not been restored from it yet: what the message writes waits until it
is there again (DESIGN CHOICE, the log's entry 64). -/
def State.awaySender (s : State) (o : Owner) : Bool :=
  !o.lost && (match s.issuer o with
    | none => true
    | some t => t.phase == .binding && t.frame != 0)

/-- HANDLER_TIMEOUT (R266): a stopped handler ends with status 12. -/
def execHandlerTimeout (s : State) : Out :=
  let n := s.ev.unit
  .next (match (s.nmu n).run with
    | some h => if h.stop.isSome && !s.awaySender h.msg.owner then s.endHandler n h 12 else s
    | none => s)

/-- The resume record of 32 bytes; none where a byte of it breaks R267. -/
def resumeOf (o : Owner) (bs : List Byte) : Option NmResume :=
  let n (k len : Nat) : Nat := natOf ((bs.drop k).take len)
  if n 8 1 < 3 ∧ n 9 1 < 16 ∧ n 10 1 < 2 ∧ n 11 5 = 0 ∧ n 20 12 = 0 then
    some ⟨o, 0, n 8 1, Fin.ofNat 16 (n 9 1), n 10 1 == 1, BitVec.ofNat 32 (n 16 4)⟩
  else none

/-- Whether an NMU has a stopped handler whose message the thread at hand sent (R267). -/
def State.ownStop (s : State) (n : Nat) : Bool :=
  match (s.nmu n).run with
  | some h => h.stop.isSome && h.msg.owner.ident == s.th.ident
  | none => false

/-- NMRESUME (R267): a translation fault of cva is taken precisely. -/
def execNmresume (a : Reg) (s : State) : Out :=
  let r := (s.getX a).toNat
  .next (match s.localCheck r 32 32 with
    | some (c, q) => s.trap c q
    | none => s.whenFree (fun s =>
        let bs := s.readOnce r 32
        let cva := natOf (bs.take 8)
        if 2 ^ 56 ≤ cva then s.trap 0x07 cva
        else match resumeOf s.th.owner bs with
          | none => s.trap 0x0F r
          | some q =>
            match s.translate (s.th.owner.req .load none) cva with
            | (.bad c, s) => s.trap c cva
            | (.wait, s) => s.stall
            | (.ok p, s) =>
              let n := nmuOf p.pa
              if !(isDevice p.pa && s.ownStop n) then s.trap 0x0F r
              else if 8 ≤ s.counter s.th .nc then s.stallWith bs
              else { s with resumes := s.resumes ++ [{ q with nmu := n }] }.retire 4))

/-- NMRESUME_APPLY (R267): the NMU accepts the first record sent to it, if the handler that is stopped there is still its sender's. A
built-in handler is one operation: to skip it is to end it with status 0. -/
def execNmresumeApply (s : State) : Out :=
  let n := s.ev.unit
  .next (match s.resumes.find? (fun r => r.nmu == n) with
    | none => s
    | some r =>
      let s := { s with resumes := s.resumes.erase r }
      match (s.nmu n).run with
      | none => s
      | some h =>
        if h.stop.isNone || h.msg.owner.ident != r.owner.ident then s
        else
          let h := if r.set then { h with m := h.m.set r.reg r.value } else h
          match r.action with
          | 0 => s.setHandler n { h with stop := none }
          | 1 => if h.msg.handler < 8 then s.endHandler n h 0 else s.setHandler n { h with stop := none, pc := h.pc + 1 }
          | _ => s.endHandler n h 11)

/-- A notice that waited for a place has been posted: the stop that it tells of is told, and the message leaves nc (R302). -/
def State.toldStop (s : State) (i : Ident) (raddr : Nat) : State :=
  let mark (u : Nmu) : Nmu :=
    match u.run with
    | some h =>
      (match h.stop with
      | some k =>
        if h.msg.owner.ident = i ∧ !h.msg.owner.lost ∧ h.msg.raddr = raddr ∧ !k.told then
          { u with run := some { h with stop := some { k with told := true }, left := true } }
        else u
      | none => u)
    | none => u
  { s with nmus := s.nmus.map (fun e => (e.1, mark e.2)) }

/-! ### Loading handlers (R269) -/

/-- Whether the words of a handler hold: each keeps the zero fields of R263, every branch stays inside, and the last is
`mfin` (R269). -/
def microcodeOk (ws : List Nat) : Bool :=
  let l := ws.length
  (ws.zipIdx).all (fun w =>
    match decodeMicro w.1 with
    | .error _ => false
    | .ok (.mbfw _ o) => o.val ≠ 0 && w.2 + o.val < l
    | .ok (.mbfwZero _ o) => o.val ≠ 0 && w.2 + o.val < l
    | .ok _ => true)
    && (match ws.getLast? with
        | some w => w / 268435456 == 15
        | none => false)

/-- Whether the fields of a load record hold (R269). -/
def State.loadFields (s : State) (bs : List Byte) : Bool :=
  let n (k len : Nat) : Nat := natOf ((bs.drop k).take len)
  8 ≤ n 8 1 && n 8 1 < 16 && n 9 1 < 2 && 1 ≤ n 10 2 && n 10 2 ≤ 64 && n 12 4 == 0 && n 16 4 % 4 == 0
    && s.inLevel (n 16 4) (4 * n 10 2) && s.syncOk (n 20 4) && n 24 8 == 0

/-- NMLOAD (R44, R269): a translation fault of cva is taken precisely. -/
def execNmload (a : Reg) (s : State) : Out :=
  let r := (s.getX a).toNat
  .next (if !s.th.sys then s.trapWord 0x03 (.nmload a)
    else match s.localCheck r 32 32 with
    | some (c, q) => s.trap c q
    | none => s.whenFree (fun s =>
        let kept := s.th.latched
        let bs := s.readOnce r 32
        let n (k len : Nat) : Nat := natOf ((bs.drop k).take len)
        if 2 ^ 56 ≤ n 0 8 then s.trap 0x07 (n 0 8)
        else if !s.loadFields bs then s.trap 0x0F r
        else
          let wb := if kept.isSome then bs.drop 32 else s.seeLoc (s.th.view .core) (n 16 4) (4 * n 10 2)
          let ws := (List.range (n 10 2)).map (entryOf wb 4)
          if !microcodeOk ws then s.trap 0x0F r
          else match s.translate (s.th.owner.req .load none) (n 0 8) with
            | (.bad c, s) => s.trap c (n 0 8)
            | (.wait, s) => s.stall
            | (.ok p, s) =>
              if !isDevice p.pa then s.trap 0x0F r
              else if 8 ≤ s.counter s.th .nc then s.stallWith (bs.take 32 ++ wb)
              else
                let at_ := nmuOf p.pa
                let nmus := if n 9 1 = 1 then (List.range 32).map (fun k => at_ / 32 * 32 + k) else [at_]
                let load : NmLoad := ⟨s.th.owner, nmus, n 8 1, ws.map (BitVec.ofNat 32), n 20 4, s.th.seq⟩
                { s with loads := s.loads ++ [load], th := { s.th with seq := s.th.seq + 1 } }.retire 4))

/-- Whether a message that the thread of a load sent earlier to an NMU has not ended (R270). -/
def State.loadBehind (s : State) (l : NmLoad) (n : Nat) : Bool :=
  (s.nmQ.any (fun m => m.owner.ident == l.owner.ident && m.seq < l.seq && s.mayGoTo m n))
    || (s.nmu n).holdsOf l.owner.ident

/-- HANDLER_LOAD (R269): an NMU that runs no handler installs the first load that names it; the arrival follows the last
NMU. A load follows the messages that its thread sent before it (R270). -/
def execHandlerLoad (s : State) : Out :=
  let n := s.ev.unit
  let u := s.nmu n
  .next (match s.loads.find? (fun l => l.nmus.contains n) with
    | none => s
    | some l =>
      if u.run.isSome || s.loadBehind l n then s
      else
        let s := s.putNmu n { u with loaded := Tab.put u.loaded l.handler l.words }
        let l' := { l with nmus := l.nmus.erase n }
        if l'.nmus.isEmpty then { s with loads := s.loads.erase l }.arrive l.owner l.sync (4 * l.words.length) false
        else { s with loads := s.loads.replace l l' })

end Sys2Proof.Machine
end

