-- ==== Sys2Proof/Machine/Alnico.lean ====
section
/-!
DEFINITION. Sys2Proof/Machine/Alnico.lean: the proximity index (R273 to R292): the commands, distances and searches, commits, and
the creation and destruction of an index.
-/
namespace Sys2Proof.Machine

/-! ### Handles and entries (R273 to R275) -/

/-- The index that a handle names (R274). -/
def State.indexAt (s : State) (handle : Nat) : Option Index :=
  match Tab.find s.indexes (handle % 4096) with
  | some x => if x.gen = handle / 4096 then x.index else none
  | none => none

/-- Replaces the index that a handle names. -/
def State.putIndex (s : State) (handle : Nat) (x : Index) : State :=
  { s with indexes := Tab.put s.indexes (handle % 4096) ⟨handle / 4096, some x⟩ }

/-- Whether an entry is visible in a snapshot (R275). -/
def IxEntry.visible (e : IxEntry) (v : Nat) : Bool :=
  e.commit ≤ v && (match e.delete with | some d => v < d | none => true)

/-- Bytes of a component of a key type (R282). -/
def keySize (ktype : Nat) : Nat := if ktype = 0 then 2 else 1

/-- Bytes from one key to the next: P of R282. -/
def keyPitch (ktype dims : Nat) : Nat := 32 * ((dims * keySize ktype + 31) / 32)

/-! ### Distance (R278, R279) -/

/-- A value rounded to f32. -/
def round32 (x : Exact) : Exact := f32.unpack (f32.round nearest false x).1

/-- The components of a key. -/
def components (ktype : Nat) (bs : List Byte) : List Exact :=
  if ktype = 0 then (List.range (bs.length / 2)).map (fun i => bf16.unpack (entryOf bs 2 i)) else bs.map (fun b => d8Value b.toNat)

/-- Whether a component may not stand in a query or key: a bf16 NaN or infinity, or the D8 code 0x80 (R284). -/
def badComponent (ktype : Nat) (bs : List Byte) : Bool :=
  if ktype = 0 then (List.range (bs.length / 2)).any (fun i => entryOf bs 2 i / 128 % 256 == 255) else bs.any (fun b => b == 0x80)

/-- Acc of R278: the terms are summed exactly in blocks of 32, and the block sums in order. -/
def accBlocks (acc : Exact) (ts : List Exact) : Nat → Exact
  | 0 => acc
  | n + 1 => accBlocks (round32 (Exact.add nearest acc (round32 (sumNums nearest (ts.take 32)).1)).1) (ts.drop 32) n

/-- Acc over the terms of a distance. -/
def accTerms (ts : List Exact) : Exact := accBlocks Exact.zero ts ((ts.length + 31) / 32)

/-- The products of two component lists. -/
def products (a b : List Exact) : List Exact := List.zipWith (fun x y => (x.mul y).1) a b

/-- The reciprocal norm of a cosine key; 0 when its norm sum is 0 (R278). -/
def normOf (a : List Exact) : Exact :=
  let n := accTerms (products a a)
  if n.isZero false then Exact.zero else round32 n.rsq.1

/-- The distance between a query and a key (R278). -/
def distance (metric : Nat) (q x : List Exact) : Exact :=
  match metric with
  | 0 => (accTerms (products q x)).neg
  | 1 => accTerms ((List.zipWith (fun a b => (Exact.add nearest a b.neg).1) q x).map (fun d => (d.mul d).1))
  | _ =>
    let rq := normOf q
    let rx := normOf x
    if rq.isZero false ∨ rx.isZero false then Exact.ofInt 1
    else
      let p := round32 ((round32 ((accTerms (products q x)).mul rq).1).mul rx).1
      round32 (Exact.add nearest (Exact.ofInt 1) p.neg).1

/-- Whether one result comes before another (R279). -/
def resultBefore (a b : Exact × IxEntry) : Bool :=
  match a.1.isNan, b.1.isNan with
  | true, true => a.2.id < b.2.id
  | true, false => false
  | false, true => true
  | false, false =>
    match a.1.cmp b.1 with
    | some .lt => true
    | some .eq => a.2.id < b.2.id
    | _ => false

/-- Puts a result in its place. -/
def insertResult (r : Exact × IxEntry) : List (Exact × IxEntry) → List (Exact × IxEntry)
  | [] => [r]
  | b :: rest => if resultBefore r b then r :: b :: rest else b :: insertResult r rest

/-- The results in order (R279). -/
def sortResults (rs : List (Exact × IxEntry)) : List (Exact × IxEntry) := rs.foldr insertResult []

/-! ### Searches (R277, R280) -/

/-- What the graph of an index depends on, up to a version: its parameters, and its commits of keys and deletions (R277). -/
def Index.history (x : Index) (v : Nat) : List (Nat × List Byte) :=
  (0, bytesOf 4 x.dims ++ bytesOf 1 x.ktype ++ bytesOf 1 x.metric ++ bytesOf 4 x.capacity)
    :: (x.entries.filter (fun e => e.commit ≤ v)).map (fun e => (e.commit, e.key))
    ++ (x.entries.filter (fun e => match e.delete with | some d => d ≤ v | none => false)).map
      (fun e => (e.delete.getD 0, bytesOf 4 e.id))

/-- A search in a snapshot: its results, and the count of distances computed. With no more visible entries than the
budget the list is exact; else it holds the entries equal to the query, with what further entries the search reaches, one at
least (R280, R294). The count is at most the budget (R293). -/
def Index.search (x : Index) (v : Nat) (query : List Byte) (k budget : Nat) : List (Exact × IxEntry) × Nat :=
  let vis := x.entries.filter (fun e => e.visible v)
  let (ids, computed) := Config.searchReach (x.history v) v query k budget
  let near := (((ids ++ vis.map (·.id)).filter (fun k => vis.any (·.id == k))).eraseDups).take (max 1 (min budget ids.length))
  let reached := if vis.length ≤ budget then vis else vis.filter (fun e => e.key == query || near.contains e.id)
  let q := components x.ktype query
  let rs := reached.map (fun e => (distance x.metric q (components x.ktype e.key), e))
  ((sortResults rs).take k, min computed budget)

/-! ### Issue (R281 to R283) -/

/-- A field of a record. -/
def IxCmd.field (c : IxCmd) (k len : Nat) : Nat := natOf ((c.bytes.drop k).take len)

/-- Whether the fields of a record hold (R282, R283). -/
def State.indexFields (s : State) (op : IxOp) (bs : List Byte) : Bool :=
  let n (k len : Nat) : Nat := natOf ((bs.drop k).take len)
  let typed : Bool := n 8 1 < 2 && 1 ≤ n 10 2 && n 10 2 ≤ 1024
  let at_ (k align len : Nat) : Bool := n k 4 % align == 0 && s.inLevel (n k 4) len
  s.syncOk (n 20 4) && n 48 16 == 0 &&
    match op with
    | .near =>
      let k := n 4 1
      1 ≤ k && k ≤ 32 && n 5 1 < 2 && 1 ≤ n 6 2 && typed && at_ 12 32 (n 10 2 * keySize (n 8 1)) && at_ 16 16 (16 * k)
    | .store =>
      let c := n 4 2
      1 ≤ c && c ≤ 64 && n 6 2 == 0 && typed && n 28 4 == 0 && n 40 8 == 0 && at_ 16 8 (8 * c)
        && at_ 12 32 ((c - 1) * keyPitch (n 8 1) (n 10 2) + n 10 2 * keySize (n 8 1))
    | .del =>
      let c := n 4 2
      1 ≤ c && c ≤ 64 && n 6 2 == 0 && n 8 1 == 0 && n 10 2 == 0 && n 16 4 == 0 && n 28 4 == 0 && n 40 8 == 0 && at_ 12 4 (4 * c)
    | .snap | .stat => true

/-- Joins the queue of the index engines; `rel` is the stamp of the release before it. -/
def State.sendIndex (s : State) (op : IxOp) (r : Nat) (bs : List Byte) (handle : Nat) (d : Reg) (rel : Option Nat) : State :=
  let c : IxCmd := ⟨op, s.th.owner, s.th.view .index, r, bs, handle, d, s.th.leased 2, rel, none, 0, 0, s.th.seq⟩
  { s with ixQ := s.ixQ ++ [c], th := { s.th with seq := s.th.seq + 1 } }.retire 4

/-- Issues an index command with a record, which is read once (R283); `rel` releases first (R286). The record is read and its fields
checked before that release (DESIGN CHOICE, the log's entry 66). -/
def State.indexCmd (s : State) (op : IxOp) (rel : Order) (a : Reg) : State :=
  let r := (s.getX a).toNat
  match s.localCheck r 64 64 with
  | some (c, q) => s.trap c q
  | none => s.whenFree (fun s =>
      let bs := s.readOnce r 64
      let send (s : State) : State :=
        if 16 ≤ s.counter s.th .ic then s.stallWith bs
        else s.sendIndex op r bs (natOf (bs.take 4)) 0 (if rel = .plain then none else some s.now)
      if !s.indexFields op bs then s.trap 0x10 r
      else if rel = .plain then send s else s.afterReleaseWith rel bs send)

/-- IXNEAR (R283, R285). -/
def execIxnear (a : Reg) (s : State) : Out := .next (s.indexCmd .near .plain a)
/-- IXSTORE (R283, R286). -/
def execIxstore (a : Reg) (s : State) : Out := .next (s.indexCmd .store .plain a)
/-- IXSTORE_REL (R286): a release at device scope comes first. -/
def execIxstoreRel (a : Reg) (s : State) : Out := .next (s.indexCmd .store .dev a)
/-- IXDEL (R283, R287). -/
def execIxdel (a : Reg) (s : State) : Out := .next (s.indexCmd .del .plain a)

/-- `ixsnap` and `ixstat`: they wait for room, and then hold x[d] in flight until the answer (R288). -/
def State.indexAsk (s : State) (op : IxOp) (d a : Reg) : State :=
  if 16 ≤ s.counter s.th .ic then s.stall else s.sendIndex op 0 [] (s.getX a).toNat d none

/-- IXSNAP (R288). -/
def execIxsnap (d a : Reg) (s : State) : Out := .next (s.indexAsk .snap d a)
/-- IXSTAT (R288). -/
def execIxstat (d a : Reg) (s : State) : Out := .next (s.indexAsk .stat d a)

/-! ### Acceptance (R276) -/

/-- Whether command `k` may be accepted: every earlier command of its thread to the same index has been (R276). -/
def State.mayAccept (s : State) (k : Nat) (c : IxCmd) : Bool :=
  (s.ixQ.take k).all (fun e => !(e.owner.ident == c.owner.ident && e.handle == c.handle && e.accepted.isNone))

/-- Command `k`, if it is of a kind and may be accepted. -/
def State.toAccept (s : State) (ofKind : IxOp → Bool) : Option IxCmd :=
  match s.ixQ[s.ev.idx]? with
  | none => none
  | some c => if ofKind c.op && c.accepted.isNone && s.mayAccept s.ev.idx c then some c else none

/-- The engine that serves a command: the home of its index. -/
def State.engineOf (s : State) (c : IxCmd) : Option Nat := (s.indexAt c.handle).map (·.home)

/-- Whether a command belongs to a burst that is paused at its engine (R362). -/
def State.ixHeld (s : State) (c : IxCmd) : Bool := c.leased && (s.engineOf c).any (fun e => s.ixPaused.contains e)

/-- Command `k`, if it is of a kind, may be accepted, and is not of a paused burst: what it does, it does at once. -/
def State.toCommit (s : State) (op : IxOp) : Option IxCmd := (s.toAccept (· == op)).filter (fun c => !s.ixHeld c)

/-- Takes a command out of the queue. -/
def State.dropIx (s : State) (k : Nat) : State := { s with ixQ := s.ixQ.eraseIdx k }

/-- Writes a field of a command's record. -/
def State.ixOut (s : State) (c : IxCmd) (k len v : Nat) : State := s.putEngine c.view (c.raddr + k) (bytesOf len v)

/-- The end of a command with a record: its status and its arrival (R283). -/
def State.endIx (s : State) (c : IxCmd) (status : Nat) : State :=
  (s.ixOut c 9 1 status).arrive c.owner (c.field 20 4) (if c.op = .near then 16 * c.field 4 1 else 64) (status != 0)

/-- The fields of a place for a result that holds none (R282). -/
def emptyResult : List (List Byte) := [bytesOf 4 0xFFFFFFFF, bytesOf 4 0x7FC00000, bytesOf 8 0]

/-- The end of a command with a status other than 0: the out fields of R284, with the version at its acceptance. -/
def State.failIx (s : State) (c : IxCmd) (status va : Nat) : State :=
  let s := match c.op with
    | .near =>
      let s := s.putFields c.view (c.field 16 4) ((List.replicate (c.field 4 1) emptyResult).flatten)
      ((s.ixOut c 24 4 0).ixOut c 28 4 0).ixOut c 32 8 va
    | .store => (s.ixOut c 24 4 0xFFFFFFFF).ixOut c 32 8 va
    | .del => (s.ixOut c 24 4 0).ixOut c 32 8 va
    | .snap | .stat => s
  s.endIx c status

/-- The index of a command, or the status that its handle gives (R274, R284). -/
def State.indexFor (s : State) (c : IxCmd) : Except Nat Index :=
  match s.indexAt c.handle with
  | none => .error 1
  | some x => if x.fn = c.owner.ident.vf then .ok x else .error 3

/-- The bytes of the query vector, or of key `j` (R282). -/
def State.keyBytes (s : State) (c : IxCmd) (j : Nat) : List Byte :=
  s.seeLoc c.view (c.field 12 4 + j * keyPitch (c.field 8 1) (c.field 10 2)) (c.field 10 2 * keySize (c.field 8 1))

/-- Uncorrectable data in an index's region (R284). -/
def State.regionLost (s : State) (x : Index) : Option Nat := x.parts.findSome? (fun q => s.badIn q.1 q.2)

/-- The status of a command on its index before its own conditions (R284): statuses 7 and 2. -/
def State.keyStatus (s : State) (c : IxCmd) (x : Index) (keys : Nat) : Nat :=
  if c.field 10 2 ≠ x.dims ∨ c.field 8 1 ≠ x.ktype then 7
  else if (List.range keys).any (fun j => badComponent x.ktype (s.keyBytes c j)) then 2
  else 0

/-- Ends command `k` of the event with a status, and with a report where the region lost data (R284). -/
def State.failAt (s : State) (c : IxCmd) (status va : Nat) (lost : Option Nat) : State :=
  let s := (s.dropIx s.ev.idx).failIx c status va
  match lost with
  | some pa => s.reportOwner c.owner pa
  | none => s

/-- The snapshot that a query names, if it names one (R282, R285). -/
def IxCmd.named (c : IxCmd) : Option Nat := if c.field 5 1 % 2 = 1 then some (c.field 40 8) else none

/-- Searches that an engine runs at once, and queries that wait in its queue (R290). -/
def searchesAtOnce : Nat := 256
/-- Queries that wait in an engine's queue (R290). -/
def searchQueue : Nat := 4096

/-- The accepted queries of an engine: the 256 accepted first run, the rest wait (R290). -/
def State.queriesAt (s : State) (e : Nat) : List IxCmd :=
  s.ixQ.filter (fun c => c.op == .near && c.accepted.isSome && s.engineOf c == some e)

/-- Whether an accepted query runs, and its burst is not paused (R290, R362). -/
def State.searching (s : State) (c : IxCmd) : Bool :=
  match s.engineOf c with
  | none => true
  | some e =>
    (((s.queriesAt e).filter (fun q => q.order < c.order)).length < searchesAtOnce) && !s.ixHeld c

/-- INDEX_QUERY_ACCEPT (R276, R285): the query's snapshot is fixed; one that has a status ends at once (R284). -/
def execIndexQueryAccept (s : State) : Out :=
  .next (match s.toAccept (· == .near) with
    | none => s
    | some c =>
      match s.indexFor c with
      | .error k => s.failAt c k 0 none
      | .ok x =>
        let v := c.named.getD x.version
        let st := s.keyStatus c x 1
        if st ≠ 0 then s.failAt c st x.version none
        else if x.version < v then s.failAt c 4 x.version none
        else if searchesAtOnce + searchQueue ≤ (s.queriesAt x.home).length then s
        else { s with now := s.now + 1, ixQ := s.ixQ.set s.ev.idx { c with accepted := some x.version, order := s.now, snapshot := v } })

/-- The fields of a result (R282). -/
def resultFields (r : Exact × IxEntry) : List (List Byte) :=
  [bytesOf 4 r.2.id, bytesOf 4 (f32.round nearest false r.1).1, bytesOf 8 r.2.payload.toNat]

/-- The issuer of a query has been returned entries: it learns of the newest release that came before one of them (R196). -/
def State.returnEntries (s : State) (o : Owner) (es : List IxEntry) : State :=
  match s.issuer o with
  | some t => s.putThread { t with ixSeen := es.foldl (fun n e => max n (e.rel.getD 0)) t.ixSeen }
  | none => s

/-- INDEX_SEARCH_END (R280, R282, R283): an accepted query writes its results and ends. -/
def execIndexSearchEnd (s : State) : Out :=
  .next (match s.ixQ[s.ev.idx]? with
    | none => s
    | some c =>
      match c.op, c.accepted, s.indexAt c.handle with
      | .near, some va, none => s.failAt c 1 va none
      | .near, some va, some x =>
        let st := s.keyStatus c x 1
        if !s.searching c then s
        else if st ≠ 0 then s.failAt c st va none
        else match s.regionLost x with
          | some pa => s.failAt c 6 va (some pa)
          | none =>
            let k := c.field 4 1
            let (rs, computed) := x.search c.snapshot (s.keyBytes c 0) k (c.field 6 2)
            let s := (s.dropIx s.ev.idx).putFields c.view (c.field 16 4)
              (rs.flatMap resultFields ++ (List.replicate (k - rs.length) emptyResult).flatten)
            let s := ((s.ixOut c 24 4 rs.length).ixOut c 28 4 computed).ixOut c 32 8 c.snapshot
            ((s.use c.owner.ident.vf 4 1).returnEntries c.owner (rs.map (·.2))).endIx c 0
      | _, _, _ => s)

/-- INDEX_STORE_COMMIT (R286): n entries are committed together, or the command ends with a status (R284). -/
def execIndexStoreCommit (s : State) : Out :=
  .next (match s.toCommit .store with
    | none => s
    | some c =>
      match s.indexFor c with
      | .error k => s.failAt c k 0 none
      | .ok x =>
        let n := c.field 4 2
        let st := s.keyStatus c x n
        if st ≠ 0 then s.failAt c st x.version none
        else if x.capacity < x.next + n then s.failAt c 5 x.version none
        else match s.regionLost x with
          | some pa => s.failAt c 6 x.version (some pa)
          | none =>
            let es : List IxEntry := (List.range n).map (fun j =>
              ⟨x.next + j, s.keyBytes c j, BitVec.ofNat 64 (s.seeNat c.view (c.field 16 4 + 8 * j) 8), x.version + 1, none,
                c.rel⟩)
            let y := { x with version := x.version + 1, next := x.next + n, entries := x.entries ++ es }
            let s := (((s.dropIx s.ev.idx).putIndex c.handle y).ixOut c 24 4 x.next).ixOut c 32 8 y.version
            (s.use c.owner.ident.vf 5 n).endIx c 0)

/-- INDEX_DELETE_COMMIT (R287): the listed entries that are visible are deleted as one commit. -/
def execIndexDeleteCommit (s : State) : Out :=
  .next (match s.toCommit .del with
    | none => s
    | some c =>
      match s.indexFor c with
      | .error k => s.failAt c k 0 none
      | .ok x =>
        match s.regionLost x with
        | some pa => s.failAt c 6 x.version (some pa)
        | none =>
          let ids := (List.range (c.field 4 2)).map (fun j => s.seeNat c.view (c.field 12 4 + 4 * j) 4)
          let gone (e : IxEntry) : Bool := e.visible x.version && ids.contains e.id
          let n := (x.entries.filter gone).length
          let v := if n = 0 then x.version else x.version + 1
          let y := { x with version := v, entries := x.entries.map (fun e => if gone e then { e with delete := some v } else e) }
          ((((s.dropIx s.ev.idx).putIndex c.handle y).ixOut c 24 4 n).ixOut c 32 8 v).endIx c 0)

/-- The register of an `ixsnap` or `ixstat` is written at its acceptance (R288). -/
def State.answerIx (s : State) (c : IxCmd) (f : Index → Word) : State :=
  let w : Word := if 2 ^ 32 ≤ c.handle then BitVec.ofInt 64 (-2)
    else match s.indexFor c with
      | .ok x => f x
      | .error 1 => BitVec.ofInt 64 (-1)
      | .error _ => BitVec.ofInt 64 (-3)
  let s := s.dropIx s.ev.idx
  match s.issuer c.owner with
  | some t => (s.focus t.slot).setX c.reg w
  | none => s

/-- INDEX_SNAPSHOT_ACCEPT (R288). -/
def execIndexSnapshotAccept (s : State) : Out :=
  .next (match s.toCommit .snap with
    | none => s
    | some c => s.answerIx c (fun x => BitVec.ofNat 64 x.version))

/-- The status word of an index (R288). -/
def Index.statusWord (x : Index) : Word :=
  BitVec.ofNat 64 (x.next % 2 ^ 31 + 2 ^ 31 * (decide (x.next = x.capacity)).toNat + 2 ^ 44 * (x.dims - 1) + 2 ^ 55 * x.ktype
    + 2 ^ 56 * x.metric + 2 ^ 58 * x.home)

/-- INDEX_STAT_ACCEPT (R288). -/
def execIndexStatAccept (s : State) : Out :=
  .next (match s.toCommit .stat with
    | none => s
    | some c => s.answerIx c Index.statusWord)

/-! ### Creating and destroying an index (R289) -/

/-- Whether the fields of a creation record hold (R289); a destroy reads its op and its handle. -/
def createFields (bs : List Byte) : Bool :=
  let n (k len : Nat) : Nat := natOf ((bs.drop k).take len)
  n 0 1 < 2 && n 7 1 == 0 && n 32 32 == 0
    && (n 0 1 == 1 || (n 1 1 < 3 && n 2 1 < 2 && n 3 1 < 8 && 1 ≤ n 4 2 && n 4 2 ≤ 1024 && n 8 8 % 65536 == 0 && 1 ≤ n 24 4
      && n 24 4 ≤ 2 ^ 31))

/-- IXCREATE (R44, R289): the record goes to the home engine, and the instruction waits for its answer. -/
def execIxcreate (d a : Reg) (s : State) : Out :=
  let r := (s.getX a).toNat
  .next (if !s.th.sys then s.trapWord 0x03 (.ixcreate d a)
    else match s.th.ixAns with
      | some w => { s with th := { s.th with ixReq := none, ixAns := none, ixRegs := none } }.result d w
      | none =>
        if s.th.ixReq.isSome then s.stall
        else match s.localCheck r 64 64 with
          | some (c, q) => s.trap c q
          | none => s.whenFree (fun s =>
              let bs := s.seeLoc (s.th.view .core) r 64
              if !createFields bs then s.trap 0x10 r
              else { s with th := { s.th with ixReq := some (bytesOf 4 r ++ bs), ixRegs := some (d, a) } }))

/-- The frames of a region (R289): untracked pages of device memory in the home die's stacks; none where it is too
small, tracked, on another die or not mapped. -/
def State.regionFrames (s : State) (o : Owner) (home va n need : Nat) : Option (List Nat) × State :=
  if n < need ∨ 2 ^ 56 < va + n then (none, s)
  else
    let vas := (List.range ((n + 65535) / 65536)).map (fun k => va + 65536 * k)
    match s.translateVas (o.req .store none) vas with
    | (.ok ps, s) =>
      if ps.all (fun p => !p.tracked && isDevice p.pa && stackOf p.pa / 2 == home) then (some (ps.map (·.pa)), s) else (none, s)
    | (.error _, s) => (none, s)

/-- A slot is free when no index stands in it and its generation can still advance (R274). -/
def State.freeIndexSlots (s : State) : List Nat :=
  (List.range 4096).filter (fun k =>
    match Tab.find s.indexes k with
    | some x => x.index.isNone && x.gen < 2 ^ 20 - 1
    | none => true)

/-- The thread on the event's slot, where it waits for the answer to a creation record of an op: its record's address, the
record, and the state with the thread at hand. -/
def State.creating (s : State) (op : Nat) : Option (Nat × List Byte × State) :=
  let f := s.focus s.ev.unit
  if !(f.th.bound && f.th.slot == s.ev.unit && f.th.ixAns.isNone) then none
  else match f.th.ixReq with
    | some bs => if natOf ((bs.drop 4).take 1) = op then some (natOf (bs.take 4), bs.drop 4, f) else none
    | none => none

/-- The home engine's answer to an `ixcreate`. -/
def State.answerCreate (s : State) (w : Int) : State :=
  { s with th := { s.th with ixAns := some (BitVec.ofInt 64 w), stalled := false } }

/-- INDEX_CREATE (R274, R289): which free slot the index takes is a free choice. -/
def execIndexCreate (s0 : State) : Out :=
  .next (match s0.creating 0 with
    | none => s0
    | some (r, bs, s) =>
      let n (k len : Nat) : Nat := natOf ((bs.drop k).take len)
      if 128 < n 6 1 then s.answerCreate (-4)
      else match s.regionFrames s.th.owner (n 3 1) (n 8 8) (n 16 8) (65536 + n 24 4 * (keyPitch (n 2 1) (n 4 2) + 128)) with
        | (none, s) => s.answerCreate (-3)
        | (some frames, s) =>
          match s.freeIndexSlots with
          | [] => s.answerCreate (-1)
          | k :: rest =>
            let (c, s) := s.drawNat
            let slot := (k :: rest).getD (c % (rest.length + 1)) k
            let gen := (match Tab.find s.indexes slot with | some x => x.gen | none => 0) + 1
            let handle := slot + 4096 * gen
            let x : Index :=
              { dims := n 4 2, ktype := n 2 1, metric := n 1 1, capacity := n 24 4, home := n 3 1, fn := n 6 1, region := n 8 8
                regionBytes := n 16 8, frames := frames, version := 0, next := 0, entries := [] }
            ((s.putIndex handle x).putEngine (s.th.view .index) (r + 28) (bytesOf 4 handle)).answerCreate handle)

/-- Leaves what the engine wrote in a region behind as plain bytes (R289). -/
def State.leaveRegion (s : State) (x : Index) : State :=
  x.parts.foldl (fun s q => s.hubWrite 0 q.1 ((List.range q.2).map (fun k => Config.regionByte (q.1 + k) x.version))) s

/-- Ends every accepted command of an index that has not ended, and empties its slot (R289). -/
def State.destroyIndex (s : State) (handle : Nat) (x : Index) : State :=
  let mine (c : IxCmd) : Bool := c.handle == handle && c.accepted.isSome
  let cs := s.ixQ.filter mine
  let s := { s with ixQ := s.ixQ.filter (fun c => !mine c) }
  let s := cs.foldl (fun s c => s.failIx c 1 (c.accepted.getD 0)) s
  { s with indexes := Tab.put s.indexes (handle % 4096) ⟨handle / 4096, none⟩ }.leaveRegion x

/-- INDEX_DESTROY (R289). -/
def execIndexDestroy (s0 : State) : Out :=
  .next (match s0.creating 1 with
    | none => s0
    | some (_, bs, s) =>
      let handle := natOf ((bs.drop 28).take 4)
      match s.indexAt handle with
      | none => s.answerCreate (-4)
      | some x => (s.destroyIndex handle x).answerCreate 0)

end Sys2Proof.Machine
end

