-- ==== Sys2Proof/Machine/Power.lean ====
section
/-!
DEFINITION. Sys2Proof/Machine/Power.lean: the clock, power leases (R243, R361), bursts (R362), the retention of slices (R363),
budget periods and alarms' budgets (R356, R357).
-/
namespace Sys2Proof.Machine

/-! ### Leases (R243, R361) -/

/-- Lease units that a class costs (R361). -/
def leaseCost (cls : Nat) : Nat :=
  match cls with
  | 0 => 4
  | 1 | 2 => 2
  | _ => 1

/-- Lease units held on a die. -/
def State.unitsHeld (s : State) (die : Nat) : Nat :=
  s.threads.foldl (fun n t => n + (match t.lease with
    | some l => if dieOf t.slot = die ∧ l.left ≠ 0 then leaseCost l.cls.val else 0
    | none => 0)) 0

/-- Ends the lease of the thread at hand. -/
def State.endLease (s : State) : State := { s with th := { s.th with lease := none } }

/-- LEASE (R243, R361): whether the package draws too much power to grant one is a free choice. -/
def execLease (d a : Reg) (s : State) : Out :=
  let x := (s.getX a).toNat
  let n := fld x 32 32
  .next (if fld x 2 30 ≠ 0 ∨ n = 0 then s.result d (BitVec.ofInt 64 (-2))
    else
      let cls := x % 4
      let s := s.endLease
      let (hot, s) := s.drawBit
      let g := if hot ∨ 640 - s.cfg.withheld < s.unitsHeld (dieOf s.th.slot) + leaseCost cls then 0 else min n (2 ^ 20)
      let s := if g = 0 then s else { s with th := { s.th with lease := some ⟨Fin.ofNat 4 cls, g⟩ } }
      s.result d (BitVec.ofNat 64 g))

/-- UNLEASE (R243). -/
def execUnlease (s : State) : Out := .next (s.endLease.retire 4)

/-- LEASE_EXPIRY (R243): a lease whose count has reached 0 ends. -/
def execLeaseExpiry (s : State) : Out :=
  .next (match s.threadAt s.ev.unit with
    | none => s
    | some t =>
      match t.lease with
      | some l => if l.left = 0 then s.putThread { t with lease := none } else s
      | none => s)

/-! ### Bursts (R362) -/

/-- Whether a leased command of a condition waits at an NMU. -/
def State.burstAt (s : State) (n : Nat) (p : Owner → Bool) : Bool :=
  s.tableQ.any (fun c => c.leased && p c.owner && s.unitAt c.owner c.tva == some n)
    || (s.nmu n).queue.any (fun m => m.leased && p m.owner)

/-- Whether a leased index command of a condition waits or runs at an engine. -/
def State.ixBurstAt (s : State) (e : Nat) (p : Owner → Bool) : Bool :=
  s.ixQ.any (fun c => c.leased && p c.owner && s.engineOf c == some e)

/-- BURST_PAUSE (R362): the burst at an instance pauses, and its commands wait: at an NMU, or, with the event's flag, at an index
engine. -/
def execBurstPause (s : State) : Out :=
  let n := s.ev.unit
  .next (if s.ev.flag then
      (if s.ixBurstAt n (fun _ => true) && !s.ixPaused.contains n then { s with ixPaused := s.ixPaused ++ [n] } else s)
    else if s.burstAt n (fun _ => true) then s.putNmu n { s.nmu n with paused := true } else s)

/-- BURST_RESUME (R362). -/
def execBurstResume (s : State) : Out :=
  let n := s.ev.unit
  .next (if s.ev.flag then { s with ixPaused := s.ixPaused.filter (· ≠ n) }
    else if (s.nmu n).paused then s.putNmu n { s.nmu n with paused := false } else s)

/-- Whether a command of a thread's burst is paused: its lease does not count down (R362). -/
def State.pausedFor (s : State) (t : Thread) : Bool :=
  s.nmus.any (fun e => e.2.paused && s.burstAt e.1 (fun o => o.isOf t)) || s.ixPaused.any (fun e => s.ixBurstAt e (fun o => o.isOf t))

/-! ### The clock (R11, R243) -/

/-- A thread after `n` cycles: its lease counts down, unless its burst is paused. -/
def State.aged (s : State) (n : Nat) (t : Thread) : Thread :=
  match t.lease with
  | none => t
  | some l => if s.pausedFor t then t else { t with lease := some { l with left := l.left - n } }

/-- Number of a function in a class on a die, for the charges of R148. -/
def chargeKey (die prio fn : Nat) : Nat := (die * 4 + prio) * 129 + fn

/-- `n` cycles of the clock pass: every bound slot charges its function for them, in the rounds of its class (R148). -/
def State.elapse (s : State) (n : Nat) : State :=
  let charge (c : Tab Nat) (t : Thread) : Tab Nat :=
    let k := chargeKey (dieOf t.slot) t.prio t.ident.vf
    Tab.put c k (Tab.get c k 0 + n)
  { s with
    clock := s.clock + n
    charges := s.threads.foldl charge s.charges
    th := s.aged n s.th, others := s.others.map (fun e => (e.1, s.aged n e.2)) }

/-- A free number of cycles passes, `least` or more. -/
def State.pass (s : State) (least : Nat) : State :=
  let (n, s) := s.drawNat
  s.elapse (least + n)

/-! ### Retention (R363) -/

/-- SLICE_RETENTION (R363, R167): no value and no order changes. The slice leaves retention at its next access (`State.translate`). -/
def execSliceRetention (s : State) : Out :=
  .next (if s.cfg.retention && !s.retained.contains s.ev.unit then { s with retained := s.retained ++ [s.ev.unit] } else s)

/-! ### Budgets (R356, R357) -/

/-- The budget of a function and a class in force. -/
def State.budget (s : State) (fn cls : Nat) : Nat := Tab.get s.budgets (fn * 7 + cls) 0

/-- Sum over the functions of the budgets of a class. -/
def budgetSum (b : Tab Nat) (cls : Nat) : Nat := b.foldl (fun n e => if e.1 % 7 = cls then n + e.2 else n) 0

/-- BUDGET_PERIOD_START (R356, R357): changed budgets apply from here. -/
def execBudgetPeriodStart (s : State) : Out := .next { s with period := s.period + 1, budgets := s.nextBudgets }

/-- BUDGET_CHANGE (R357): a change that breaks the sum of its class is refused. The event names the function, the class (`idx`) and
the budget (`num`). -/
def execBudgetChange (s : State) : Out :=
  let b := Tab.put s.nextBudgets (s.ev.unit * 7 + s.ev.idx) s.ev.num
  .next (if s.ev.unit ≤ 128 ∧ s.ev.idx < 7 ∧ s.ev.num ≤ 7520 ∧ budgetSum b s.ev.idx ≤ 7520 then { s with nextBudgets := b } else s)

end Sys2Proof.Machine
end

