-- ==== Sys2Proof/Machine/Copy.lean ====
section
/-!
DEFINITION. Sys2Proof/Machine/Copy.lean: layout records and the copy engine (R205 to R220).
-/
namespace Sys2Proof.Machine

/-! ### The layout record (R205, R206) -/

/-- A layout record: dimension 0 comes first in each list. -/
structure Layout where
  base : Nat
  format : Nat
  rank : Nat
  isLocal : Bool
  fill : Bool
  m : Nat
  pattern : Nat
  ext : List Nat
  stride : List Int
  origin : List Int
  win : List Nat
  scales : Nat
  deriving DecidableEq, Repr

/-- The fields of a record of 768 bits (R205). -/
def layoutOf (r : BitVec 768) : Layout :=
  let n := r.toNat
  let rank := fld n 69 3 + 1
  let dims (f : Nat → Nat) : List Nat := (List.range (min rank 5)).map f
  { base := fld n 0 64, format := fld n 64 5, rank := rank, isLocal := fld n 72 1 == 1, fill := fld n 73 1 == 1
    m := fld n 74 3, pattern := fld n 96 32
    ext := dims (fun j => fld n (128 + 24 * j) 24)
    stride := (dims (fun j => fld n (256 + 48 * j) 48)).map (sgn 48)
    origin := (dims (fun j => fld n (512 + 24 * j) 24)).map (sgn 24)
    win := dims (fun j => fld n (640 + 16 * j) 16)
    scales := fld n 736 32 }

/-- Bytes of an element of a format; none for a reserved code (R206). -/
def formatSize (f : Nat) : Option Nat :=
  match f with
  | 0x00 | 0x01 | 0x0C | 0x0D => some 1
  | 0x02 | 0x03 | 0x08 | 0x09 => some 2
  | 0x04 | 0x05 | 0x0A => some 4
  | 0x06 => some 8
  | _ => none

/-- Element size of a record. -/
def Layout.size (r : Layout) : Nat := (formatSize r.format).getD 1

/-- Elements of a window (R208). -/
def Layout.count (r : Layout) : Nat := r.win.foldl (· * ·) 1

/-- The lowest set bit of the given ranges of a number, each as its first bit and its length. -/
def lowestSet (n : Nat) (ranges : List (Nat × Nat)) : Option Nat :=
  (ranges.flatMap (fun r => (List.range r.2).map (fun k => r.1 + k))).find? (fun b => n / 2 ^ b % 2 == 1)

/-- The first failing check of R213 on a record, as the bit that it reports. -/
def layoutFault (r : BitVec 768) : Option Nat :=
  let n := r.toNat
  let l := layoutOf r
  let dimsFrom (lo : Nat) : List Nat := (List.range 5).filter (fun j => lo ≤ j)
  match formatSize l.format with
  | none => some 64
  | some z =>
    if 5 < l.rank then some 69
    else
      let checks : List (Option Nat) :=
        [lowestSet n [(77, 19), (248, 8), (496, 16), (632, 8), (720, 16)],
         lowestSet n ((dimsFrom l.rank).map (fun j => (128 + 24 * j, 24)) ++ (dimsFrom l.rank).map (fun j => (256 + 48 * j, 48))
           ++ (dimsFrom l.rank).map (fun j => (512 + 24 * j, 24)) ++ (dimsFrom l.rank).map (fun j => (640 + 16 * j, 16))),
         ((l.ext.zipIdx).find? (fun e => e.1 == 0)).map (fun e => 128 + 24 * e.2),
         ((l.win.zipIdx).find? (fun e => e.1 == 0)).map (fun e => 640 + 16 * e.2),
         if l.isLocal ∧ 2 ^ 32 ≤ l.base then some 32 else none,
         if 5 < l.m ∨ (l.m ≠ 0 ∧ !l.isLocal) then some 74 else none,
         if l.scales ≠ 0 ∧ l.format ≠ 0x0C then some 736 else none,
         if l.base % z ≠ 0 then some 0 else none,
         ((l.stride.zipIdx).find? (fun e => e.1 % (z : Int) != 0)).map (fun e => 256 + 48 * e.2)]
      checks.findSome? id

/-! ### Positions and addresses (R207, R208, R210) -/

/-- Window coordinates of element `n` (R208). -/
def coords : List Nat → Nat → List Nat
  | [], _ => []
  | w :: r, n => n % w :: coords r (n / w)

/-- The position of element `n`. -/
def Layout.position (r : Layout) (n : Nat) : List Int := List.zipWith (fun o (k : Nat) => o + k) r.origin (coords r.win n)

/-- Whether a position lies inside the tensor (R207). -/
def Layout.inside (r : Layout) (p : List Int) : Bool :=
  (List.zipWith (fun (x : Int) (e : Nat) => decide (0 ≤ x) && decide (x < e)) p r.ext).all id

/-- The byte address of a position inside the tensor (R207). -/
def Layout.address (r : Layout) (p : List Int) : Nat :=
  let off := (List.zipWith (· * ·) p r.stride).foldl (· + ·) 0
  let off := if r.isLocal ∧ r.m ≠ 0 then
      (BitVec.ofInt 128 off ^^^ BitVec.ofNat 128 ((p.getD 1 0 % 2 ^ r.m).toNat * 8)).toInt
    else off
  wrap 64 (r.base + off)

/-- The local address of the scale byte of element `n`'s block, and of the byte of block `b` of a window row (R210). -/
def Layout.scaleAt (r : Layout) (n : Nat) : Nat :=
  let k := coords r.win n
  let w (j : Nat) : Nat := r.win.getD j 1
  let c (j : Nat) : Nat := k.getD j 0
  r.scales + c 0 / 32 + (w 0 + 31) / 32 * (c 1 + w 1 * (c 2 + w 2 * (c 3 + w 3 * c 4)))

/-! ### Elements (R209, R212) -/

/-- An exact value of an element, without a scale (R206, R212). -/
def elementValue (format bits : Nat) : Exact :=
  match format with
  | 0x00 => Exact.ofInt (sgn 8 bits)
  | 0x01 | 0x03 | 0x05 => Exact.ofInt bits
  | 0x02 => Exact.ofInt (sgn 16 bits)
  | 0x04 => Exact.ofInt (sgn 32 bits)
  | 0x06 => Exact.ofInt (sgn 64 bits)
  | 0x08 => f16.unpack bits
  | 0x09 => bf16.unpack bits
  | 0x0A => f32.unpack bits
  | _ => d8Value bits

/-- A value limited to a range and rounded to nearest-even; a NaN gives 0 (R55, R212). -/
def saturate (lo hi : Int) (v : Exact) : Int :=
  match v with
  | .nan _ => 0
  | .inf s => if s then lo else hi
  | .fin .. => max lo (min hi (v.toInt nearest).1)

/-- An exact value converted to a format (R212). -/
def elementBits (format : Nat) (v : Exact) : Nat :=
  match format with
  | 0x00 => wrap 8 (saturate (-(2 ^ 7)) (2 ^ 7 - 1) v)
  | 0x01 => wrap 8 (saturate 0 (2 ^ 8 - 1) v)
  | 0x02 => wrap 16 (saturate (-(2 ^ 15)) (2 ^ 15 - 1) v)
  | 0x03 => wrap 16 (saturate 0 (2 ^ 16 - 1) v)
  | 0x04 => wrap 32 (saturate (-(2 ^ 31)) (2 ^ 31 - 1) v)
  | 0x05 => wrap 32 (saturate 0 (2 ^ 32 - 1) v)
  | 0x06 => wrap 64 (saturate (-(2 ^ 63)) (2 ^ 63 - 1) v)
  | 0x08 => (f16.round nearest false v).1
  | 0x09 => (bf16.round nearest false v).1
  | 0x0A => (f32.round nearest false v).1
  | _ => (encodeD8 v).1

/-- The fill value of a source record, as bits (R209). -/
def Layout.fillBits (r : Layout) : Nat :=
  if r.size = 8 then r.pattern + 2 ^ 32 * r.pattern else r.pattern % 2 ^ (8 * r.size)

/-- What an element read gives: its bits, and its scale code where its record has a scale array. -/
structure Element where
  bits : Nat
  code : Option Nat
  deriving DecidableEq, Repr

/-- The exact value of an element (R210). -/
def Element.value (e : Element) (format : Nat) : Exact :=
  match e.code with
  | some c => dequant e.bits c
  | none => elementValue format e.bits

/-! ### The walk (R214, R218) -/

/-- Why a walk stops at an element: a notice, a replay record, uncorrectable data, or a generation that has not come. -/
inductive CopyEnd where
  | notice (cause side n : Nat)
  | hold (cause va : Nat) (write : Bool)
  | lost (pa : Nat)
  | wait
  deriving DecidableEq, Repr

/-- Whether an attribute differs from the one already met. -/
def differs (seen : Option Bool) (now : Bool) : Bool :=
  match seen with
  | some b => b != now
  | none => false

/-- The scale code of element `n`, read by the engine; none where the record has no scale array. A scale byte outside the
level of the array's first byte ends the command (R210, R211). -/
def State.copyCode (s : State) (c : CopyCmd) (r : Layout) (side n : Nat) : Except CopyEnd (Option Nat) :=
  if r.scales = 0 then .ok none
  else match s.levelFault c.owner r.scales (r.scaleAt n : Nat) 1 with
    | some (k, _) => .error (.notice k side n)
    | none => match s.lostLoc c.view (r.scaleAt n) 1 with
      | some k => .error (.lost k)
      | none => .ok (some (s.seeNat c.view (r.scaleAt n) 1))

/-- Reads the bits of element `n` of the source at its address (R209, R214). -/
def State.copyBits (s : State) (c : CopyCmd) (r : Layout) (n : Nat) : Except CopyEnd Nat × CopyCmd × State :=
  let a := r.address (r.position n)
  if r.isLocal then
    match s.levelFault c.owner r.base a r.size, s.lostLoc c.view a r.size with
    | some (k, _), _ => (.error (.notice k 0 n), c, s)
    | none, some k => (.error (.lost k), c, s)
    | none, none => (.ok (s.seeNat c.view a r.size), c, s)
  else if 2 ^ 56 ≤ a then (.error (.notice 0x07 0 n), c, s)
  else
    let q := c.owner.req .load c.gen
    match s.enginePages q a r.size with
    | (.error (.fault k va), s) => (.error (.hold k va false), c, s)
    | (.error (.lost pa), s) => (.error (.lost pa), c, s)
    | (.error .wait, s) => (.error .wait, c, s)
    | (.ok ps, s) =>
      let t := ps.any (fun q => q.2.2.tracked)
      if differs c.attrs.src t then (.error (.notice 0x08 0 n), c, s)
      else match s.poisonVa ps, s.lostIn ps with
        | some _, _ => (.error (.notice 0x09 0 n), c, s)
        | none, some pa => (.error (.lost pa), c, s)
        | none, none =>
          let (b, s) := s.readParts c.view q.fn ps
          (.ok (natOf b), { c with attrs := { c.attrs with src := some t } }, s)

/-- Reads element `n` of the source: at its address, or as the fill value; a scale byte is used only where the element is
(R209, R210, R214). -/
def State.copyRead (s : State) (c : CopyCmd) (r : Layout) (n : Nat) : Except CopyEnd Element × CopyCmd × State :=
  let inside := r.inside (r.position n)
  if !inside && !r.fill then (.error (.notice 0x0B 0 n), c, s)
  else match s.copyCode c r 0 n with
    | .error e => (.error e, c, s)
    | .ok code =>
      if inside then
        match s.copyBits c r n with
        | (.error e, c, s) => (.error e, c, s)
        | (.ok bits, c, s) => (.ok ⟨bits, code⟩, c, s)
      else (.ok ⟨r.fillBits, code⟩, c, s)

/-- Writes element `n` of the destination, or skips a position outside it (R209, R214). -/
def State.copyWrite (s : State) (c : CopyCmd) (r : Layout) (n bits : Nat) : Option CopyEnd × CopyCmd × State :=
  let p := r.position n
  if !r.inside p then (if r.fill then none else some (.notice 0x0B 1 n), c, s)
  else
    let a := r.address p
    if r.isLocal then
      match s.levelFault c.owner r.base a r.size with
      | some (k, _) => (some (.notice k 1 n), c, s)
      | none => (none, c, s.putLoc c.view a (bytesOf r.size bits))
    else if 2 ^ 56 ≤ a then (some (.notice 0x07 1 n), c, s)
    else
      let q := c.owner.req .store c.gen
      match s.enginePages q a r.size with
      | (.error (.fault k va), s) => (some (.hold k va true), c, s)
      | (.error (.lost pa), s) => (some (.lost pa), c, s)
      | (.error .wait, s) => (some .wait, c, s)
      | (.ok ps, s) =>
        let t := ps.any (fun q => q.2.2.tracked)
        if differs c.attrs.dst t then (some (.notice 0x08 1 n), c, s)
        else match (if r.size < 8 then s.poisonVa ps else none), s.lostUnder ps with
          | some va, _ => (some (.hold 0x09 va true), c, s)
          | none, some pa => (some (.lost pa), c, s)
          | none, none =>
            (none, { c with attrs := { c.attrs with dst := some t } },
              s.writeParts c.view q.fn .plain (bytesOf r.size bits) ps)

/-- Reads the source elements `n` to `n + k - 1`. -/
def State.copyReads (s : State) (c : CopyCmd) (r : Layout) (n : Nat) : Nat → Except CopyEnd (List Element) × CopyCmd × State
  | 0 => (.ok [], c, s)
  | k + 1 =>
    match s.copyRead c r n with
    | (.error e, c, s) => (.error e, c, s)
    | (.ok x, c, s) =>
      match s.copyReads c r (n + 1) k with
      | (.error e, c, s) => (.error e, c, s)
      | (.ok xs, c, s) => (.ok (x :: xs), c, s)

/-- Writes a run of elements from the command's element on. -/
def State.copyWrites (s : State) (c : CopyCmd) (r : Layout) : List Nat → Option CopyEnd × CopyCmd × State
  | [] => (none, c, s)
  | b :: rest =>
    match s.copyWrite c r c.n b with
    | (some e, c, s) => (some e, c, s)
    | (none, c, s) => s.copyWrites { c with n := c.n + 1 } r rest

/-- The block of the destination that holds element `n`, as its first element and its length (R210). -/
def Layout.block (r : Layout) (n : Nat) : Nat × Nat :=
  let w := r.win.getD 0 1
  let k := n % w / 32 * 32
  (n - n % w + k, min 32 (w - k))

/-- Whether an element is copied raw (R206, R212). -/
def rawCopy (src dst : Layout) : Bool := src.format == dst.format && src.scales == 0 && dst.scales == 0

/-- Moves the next run of elements: one element, or the rest of a block with a scale code, whose source elements are all
read and whose code is formed before anything of it is written (R210, R214). The command that is answered stands at the first
element that has not been moved. -/
def State.copyRun (s : State) (c : CopyCmd) (src dst : Layout) : Option CopyEnd × CopyCmd × State :=
  if dst.scales = 0 then
    match s.copyRead c src c.n with
    | (.error e, c, s) => (some e, c, s)
    | (.ok x, c, s) =>
      s.copyWrites c dst [if rawCopy src dst then x.bits else elementBits dst.format (x.value src.format)]
  else
    let (first, len) := dst.block c.n
    match s.copyReads c src first len with
    | (.error e, c, s) => (some e, c, s)
    | (.ok xs, c, s) =>
      let vs := xs.map (fun x => x.value src.format)
      let mine := (vs.zipIdx).filter (fun v => dst.inside (dst.position (first + v.2)))
      let amax := mine.foldl (fun m v => if m.isNan ∨ v.1.isNan then .nan false else (Exact.pick true m v.1.abs).1) Exact.zero
      let code := (scaleX8 amax).1
      match s.levelFault c.owner dst.scales (dst.scaleAt c.n : Nat) 1 with
      | some (k, _) => (some (.notice k 1 c.n), c, s)
      | none =>
        let s := s.putLoc c.view (dst.scaleAt c.n) (bytesOf 1 code)
        s.copyWrites c dst ((vs.drop (c.n - first)).map (fun v => (encodeBlock v code).1))

/-- Moves runs of elements up to the count, at most `fuel` runs, in the order of the walk, which R214 leaves open: what precedes the
element of a notice has been moved (R224; DESIGN CHOICE, the log's entry 65). -/
def State.copyRuns (s : State) (c : CopyCmd) (src dst : Layout) : Nat → Option CopyEnd × CopyCmd × State
  | 0 => (none, c, s)
  | fuel + 1 =>
    if src.count ≤ c.n then (none, c, s)
    else match s.copyRun c src dst with
      | (some e, c, s) => (some e, c, s)
      | (none, c, s) => s.copyRuns c src dst fuel

/-- Replaces the command at the head of a core's queue, or takes it out. -/
def State.setHead (s : State) (core : Nat) (c : Option CopyCmd) : State :=
  let rest := (s.copyQueue core).drop 1
  { s with copyQ := Tab.put s.copyQ core (match c with | some c => c :: rest | none => rest) }

/-- Ends the command at the head of a core's queue with a notice; where no place is free it is held (R218, R302). -/
def State.failCopy (s : State) (core : Nat) (c : CopyCmd) (cause side n : Nat) : State :=
  let w := noticeOf 1 side cause n
  match s.postNotice c.owner w with
  | (true, s) => (s.setHead core none).arrive c.owner c.sw 0 true
  | (false, s) => s.setHead core (some { c with fail := some w })

/-- Sets the command at the head of a core's queue aside as a replay record, if one of its thread's places is free
(R218); the record of a thread that has left is discarded (R309). -/
def State.holdCopy (s : State) (core : Nat) (c : CopyCmd) (cause va : Nat) (write : Bool) : State :=
  match s.issuer c.owner with
  | none => s.setHead core none
  | some t =>
    let s := s.focus t.slot
    match s.postRecord (.copy { c with gen := none }) ⟨cause, va, write, s.th.uact⟩ true c.seq with
    | some s => s.setHead core none
    | none => s.setHead core (some c)

/-- COPY_COMMAND (R214, R215): the engine of a core moves the command at the head of its queue, all of it or as many runs
of elements as the turn gives it, and arrives at its end. One that has failed waits for its notice (R302). -/
def execCopyCommand (s : State) : Out :=
  let core := s.ev.unit
  .next (match s.copyQueue core with
    | [] => s
    | c :: _ =>
      if c.fail.isSome then s
      else
        let src := layoutOf c.src
        let dst := layoutOf c.dst
        let fuel := if s.ev.num = 0 then src.count else s.ev.num
        match s.copyRuns c src dst fuel with
        | (none, c, s) =>
          if src.count ≤ c.n then (s.setHead core none).arrive c.owner c.sw (src.count * dst.size) false
          else s.setHead core (some c)
        | (some (.notice cause side n), c, s) => s.failCopy core c cause side n
        | (some (.hold cause va write), c, s) => s.holdCopy core c cause va write
        | (some (.lost pa), c, s) => ((s.setHead core none).arrive c.owner c.sw 0 true).reportOwner c.owner pa
        | (some .wait, c, s) => s.setHead core (some c))

/-! ### cpy and cpyq (R213, R220) -/

/-- The layout record of three f registers (R205). -/
def State.layoutRegs (s : State) (a : Reg) : BitVec 768 :=
  BitVec.ofNat 768 ((s.getF a).toNat + 2 ^ 256 * (s.getF (a + 1)).toNat + 2 ^ 512 * (s.getF (a + 2)).toNat)

/-- The sync word checks of `cpy`: alignment and level (R213). -/
def State.syncFault (s : State) (sw : Nat) : Option (Nat × Nat) :=
  if sw = 0 then none
  else if sw % 32 ≠ 0 then some (0x04, sw)
  else (firstOutside (s.grantOf s.th.ident) sw 32).map (fun a => (0x05, a))

/-- The check of `cpy` that comes last: a sync word in the window of a core out of service has a precise 0x09 at issue, which R213's steps
do not list (R20, R162; DESIGN CHOICE, the log's entry 66). -/
def State.syncLost (s : State) (sw : Nat) : Option (Nat × Nat) := if sw = 0 then none else s.localFault s.th.owner sw 32

/-- The checks of `cpy` on its two records, after those on the sync word (R213). -/
def copyFault (src dst : BitVec 768) : Option (Nat × Nat) :=
  let a := layoutOf src
  let b := layoutOf dst
  if !a.isLocal ∧ 2 ^ 56 ≤ a.base then some (0x07, a.base)
  else if !b.isLocal ∧ 2 ^ 56 ≤ b.base then some (0x07, b.base)
  else match layoutFault src, layoutFault dst with
    | some k, _ => some (0x0B, k)
    | none, some k => some (0x0B, 768 + k)
    | none, none =>
      if a.count ≠ b.count then some (0x0B, 768 + 640)
      else if (a.format = 0x0D) ≠ (b.format = 0x0D) then some (0x0B, 768 + 64)
      else none

/-- CPY (R213): the command waits for room, and then joins the core's queue. -/
def execCpy (a b c : Reg) (s : State) : Out :=
  let sw := (s.getX c).toNat
  let src := s.layoutRegs a
  let dst := s.layoutRegs b
  .next (match firstFault [s.syncFault sw, copyFault src dst, s.syncLost sw] with
    | some (k, q) => s.trap k q
    | none =>
      let core := coreOf s.th.slot
      if 4 ≤ s.counter s.th .yc ∨ 16 ≤ (s.copyQueue core).length then s.stall
      else
        let cmd : CopyCmd := ⟨s.th.owner, s.th.view .copy, src, dst, sw, 0, ⟨none, none⟩, s.th.seq, none, none⟩
        { s with
          copyQ := Tab.put s.copyQ core (s.copyQueue core ++ [cmd])
          th := { s.th with seq := s.th.seq + 1 } }.retire 4)

/-- CPYQ (R220). -/
def execCpyq (d : Reg) (s : State) : Out :=
  let held := s.th.held.any (fun h => match h.what with | .copy _ => true | _ => false)
  let free := 16 - (s.copyQueue (coreOf s.th.slot)).length
  .next (s.result d (BitVec.ofNat 64 (s.counter s.th .yc + 256 * free + 65536 * held.toNat)))

end Sys2Proof.Machine
end

