-- ==== Sys2Proof/Machine/Matrix.lean ====
section
/-!
DEFINITION. Sys2Proof/Machine/Matrix.lean: the matrix unit, the result ring and the epilogue (R225 to R241).
-/
namespace Sys2Proof.Machine

/-! ### Ownership (R225, R234) -/

/-- The core of the thread at hand. -/
def State.ownCore (s : State) : Nat := coreOf s.th.slot

/-- The matrix unit of the core of the thread at hand. -/
def State.ownUnit (s : State) : MatrixUnit := s.unitOf s.ownCore

/-- Replaces that unit. -/
def State.setUnit (s : State) (u : MatrixUnit) : State := s.putUnit s.ownCore u

/-- Runs an instruction that only the owner may execute (R225). -/
def State.asOwner (s : State) (i : Instr) (f : MatrixUnit → State) : State :=
  if s.ownsUnit s.th.slot then f s.ownUnit else s.trapWord 0x0C i

/-- MOWN (R225): waiting slots are served in the order in which they executed it. -/
def execMown (s : State) : Out :=
  let u := s.ownUnit
  let mine := s.ownsUnit s.th.slot
  .next (if mine && s.th.mownWait then (s.setTh { s.th with mownWait := false }).retire 4
    else if mine then s.trapWord 0x0C .mown
    else if u.owner.isNone then (s.setUnit { MatrixUnit.empty with owner := some s.th.slot }).retire 4
    else if s.th.mownWait then s.stall
    else (s.setUnit { u with waiters := u.waiters ++ [s.th.slot] }).setTh { s.th with mownWait := true })

/-- MREL (R234): it waits for the matrix commands and for the requested drains of closed tiles. -/
def execMrel (s : State) : Out :=
  .next (s.asOwner .mrel (fun u =>
    if u.mc ≠ 0 ∨ u.owed ≠ 0 then s.stall else (s.releaseUnit s.ownCore).retire 4))

/-! ### mcfg and mma (R227 to R231) -/

/-- The strides and spaces of sr.mstride (R227). -/
structure MStride where
  bLocal : Bool
  aLocal : Bool
  sLocal : Bool
  sstride : Nat
  bstride : Nat
  astride : Nat

/-- The fields of sr.mstride; none when a reserved bit is set or a stride is no multiple of 8 (R227, R229). -/
def mstrideOf (w : Word) : Option MStride :=
  let n := w.toNat
  if fld n 52 9 ≠ 0 ∨ fld n 20 20 % 8 ≠ 0 ∨ fld n 0 20 % 8 ≠ 0 then none
  else some ⟨w.getLsbD 63, w.getLsbD 62, w.getLsbD 61, fld n 40 12, fld n 20 20, fld n 0 20⟩

/-- MCFG (R227). -/
def execMcfg (a : Reg) (s : State) : Out :=
  let i : Instr := .mcfg a
  .next (s.asOwner i (fun _ =>
    match mstrideOf (s.getX a) with
    | none => s.trapWord 0x0C i
    | some _ => (s.setTh { s.th with mstride := s.getX a }).retire 4))

/-- An operand of an `mma`: where it starts, its space, its rows, the distance between them and their length (R228). -/
structure MOperand where
  base : Nat
  isLocal : Bool
  rows : Nat
  stride : Nat
  rowBytes : Nat

/-- The address of a row of an operand. -/
def MOperand.row (x : MOperand) (r : Nat) : Nat := x.base + r * x.stride

/-- The first byte of an operand's rows outside the level of its base, or in the window of a core out of service (R162,
R229). -/
def State.rowsFault (s : State) (x : MOperand) : Option (Nat × Nat) :=
  match levelOf (s.grantOf s.th.ident) x.base with
  | none => some (0x05, x.base)
  | some (lo, len) =>
    match (List.range x.rows).find? (fun r => lo + len < x.row r + x.rowBytes) with
    | some r => some (0x05, max (x.row r) (lo + len))
    | none => (List.range x.rows).findSome? (fun r => s.localFault s.th.owner (x.row r) x.rowBytes)

/-- The checks of R229 on an operand's address; the A scales need no alignment. -/
def State.operandFault (s : State) (x : MOperand) (aligned : Bool) : Option (Nat × Nat) :=
  if aligned ∧ x.base % 8 ≠ 0 then some (0x04, x.base)
  else if x.isLocal then s.rowsFault x
  else if 2 ^ 56 ≤ x.base then some (0x07, x.base)
  else none

/-- Reads a row of an operand on the matrix path (R229, R241). -/
def State.operandRow (s : State) (x : MOperand) (r : Nat) : Except EngFault (List Byte) × State :=
  let v := s.th.view .matrix
  if x.isLocal then
    match s.lostLoc v (x.row r) x.rowBytes with
    | some k => (.error (.lost k), s)
    | none => (.ok (s.seeLoc v (x.row r) x.rowBytes), s)
  else s.engineRead v (s.th.owner.req .load none) (x.row r) x.rowBytes

/-- Reads the rows of an operand from `r` up. -/
def State.operandRows (s : State) (x : MOperand) (r : Nat) : Nat → Except EngFault (List (List Byte)) × State
  | 0 => (.ok [], s)
  | n + 1 =>
    match s.operandRow x r with
    | (.error e, s) => (.error e, s)
    | (.ok b, s) =>
      match s.operandRows x (r + 1) n with
      | (.error e, s) => (.error e, s)
      | (.ok bs, s) => (.ok (b :: bs), s)

/-- The elements of a row of bytes, as exact values (R58, R228). -/
def rowValues (t : LaneType) (bs : List Byte) : List Exact :=
  let n := laneBits t / 8
  (List.range (bs.length / n)).map (fun k => laneValue t (natOf ((bs.drop (k * n)).take n)))

/-- One block of one element (R65): the exact sum of 32 products, scaled by the A scale and rounded, then added to the
accumulator with its own rounding. -/
def blockStep (acc : Nat) (as bs : List Exact) (scale : Nat) : Nat :=
  let (v, _) := sumNums nearest (List.zipWith (fun x y => (x.mul y).1) as bs)
  let v := if scale = 255 then .nan false else v.scale ((scale : Int) - 127)
  let (b, _) := f32.round nearest false v
  (f32.round nearest false (Exact.add nearest (f32.unpack acc) (f32.unpack b)).1).1

/-- Every block of one element, in increasing K (R65). -/
def blockSteps (as bs : List Exact) : List Nat → Nat → Nat
  | [], acc => acc
  | sc :: r, acc => blockSteps (as.drop 32) (bs.drop 32) r (blockStep acc (as.take 32) (bs.take 32) sc)

/-- Key of an element of a tile. -/
def tileKey (tile row col : Nat) : Nat := tile * 4096 + row * 64 + col

/-- Adds one row of A against B, given by columns, into a tile (R65, R229). -/
def addRow (tiles : Tab (BitVec 32)) (tile row : Nat) (as : List Exact) (cols : List (List Exact)) (scales : List Nat) :
    Tab (BitVec 32) :=
  (cols.zipIdx).foldl (fun t c =>
    let k := tileKey tile row c.2
    Tab.put t k (BitVec.ofNat 32 (blockSteps as c.1 scales (Tab.get t k 0).toNat))) tiles

/-- The columns of B from its rows. -/
def columns (rows : List (List Exact)) : List (List Exact) :=
  (List.range 64).map (fun j => rows.map (fun r => r.getD j Exact.zero))

/-- Adds the rows of A from `r` up, each counted for its function (R364). A fault stops before its row, which then stands in
sr.mrow (R229). -/
def State.addRows (s : State) (t : LaneType) (a : MOperand) (sc : Option MOperand) (cols : List (List Exact)) (blocks r : Nat) :
    Nat → Except (EngFault × Nat) Unit × State
  | 0 => (.ok (), s)
  | n + 1 =>
    match s.operandRow a r with
    | (.error e, s) => (.error (e, r), s)
    | (.ok bs, s) =>
      let scales : Except EngFault (List Nat) × State := match sc with
        | none => (.ok (List.replicate blocks 127), s)
        | some x => (match s.operandRow x r with
          | (.ok q, s) => (.ok (q.map BitVec.toNat), s)
          | (.error e, s) => (.error e, s))
      match scales with
      | (.error e, s) => (.error (e, r), s)
      | (.ok q, s) =>
        let u := s.ownUnit
        let s := s.setUnit { u with tiles := addRow u.tiles u.head r (rowValues t bs) cols q }
        let s := s.use s.th.ident.vf (if t = .d8 then 2 else 1) (if t = .d8 then 8192 else 4096)
        s.addRows t a sc cols blocks (r + 1) n

/-- A fault of an `mma`: mc falls again, and the cause is taken precisely; uncorrectable data is reported (R229). -/
def State.mmaFault (s : State) (e : EngFault) : State :=
  let s := s.leaveMma
  match e with
  | .fault c va => s.trap c va
  | .lost pa => s.report 0x0A pa
  | .wait => s

/-- K of an `mma`: 64, and 128 for d8 (R228). -/
def mmaK (t : LaneType) : Nat := if t = .d8 then 128 else 64

/-- The operand A of an `mma`. -/
def MStride.opA (m : MStride) (x : Nat) : MOperand := ⟨x, m.aLocal, 64, m.astride, 128⟩
/-- The operand B of an `mma`. -/
def MStride.opB (m : MStride) (t : LaneType) (x : Nat) : MOperand := ⟨x, m.bLocal, mmaK t, m.bstride, 64 * (laneBits t / 8)⟩
/-- The A scales of an `mma`. -/
def MStride.opS (m : MStride) (x : Nat) : MOperand := ⟨x, m.sLocal, 64, m.sstride, 4⟩

/-- The rows of bytes of a B as it was read. -/
def bRows (t : LaneType) (bs : List Byte) : List (List Byte) :=
  let n := 64 * (laneBits t / 8)
  (List.range (mmaK t)).map (fun k => (bs.drop (k * n)).take n)

/-- Adds rows from sr.mrow up for the `mma` that the thread at hand waits in: as many as the turn gives it, or all (0). After
row 63 the instruction retires; before it sr.mrow stands at the next row (R229, R230). -/
def State.mmaRows (s : State) : State :=
  match s.th.mma, mstrideOf s.th.mstride with
  | some u, some m =>
    let r := s.th.mrow.toNat
    let n := if s.ev.num = 0 then 64 - r else min s.ev.num (64 - r)
    let cols := columns ((bRows u.type u.b).map (rowValues u.type))
    (match s.addRows u.type (m.opA u.a) (u.scales.map m.opS) cols (mmaK u.type / 32) r n with
      | (.error (e, row), s) => (s.setTh { s.th with mrow := BitVec.ofNat 64 row }).mmaFault e
      | (.ok (), s) =>
        if r + n = 64 then (s.setTh { s.th with mrow := 0, mma := none }).retire 4
        else s.setTh { s.th with mrow := BitVec.ofNat 64 (r + n) })
  | _, _ => s

/-- `mma` (R229): B is read whole, and then rows of A from sr.mrow up are added into the head tile. -/
def State.mma (s : State) (i : Instr) (t : LaneType) (a b : Reg) (c : Option Reg) : State :=
  s.asOwner i (fun u =>
    match mstrideOf s.th.mstride with
    | none => s.trapWord 0x0C i
    | some m =>
      if 64 ≤ s.th.mrow.toNat then s.trapWord 0x0C i
      else
        let xa := m.opA (s.getX a).toNat
        let xb := m.opB t (s.getX b).toNat
        let xs := match c with
          | some r => if s.getX r = 0 then none else some (m.opS (s.getX r).toNat)
          | none => none
        match firstFault [s.operandFault xa true, s.operandFault xb true, xs.elim none (fun x => s.operandFault x false)] with
        | some (cause, q) => s.trap cause q
        | none =>
          if 2 ≤ u.mc then s.stall
          else
            let s := s.setUnit { u with mc := u.mc + 1 }
            match s.operandRows xb 0 (mmaK t) with
            | (.error e, s) => (s.setTh { s.th with mma := some ⟨t, xa.base, none, []⟩ }).mmaFault e
            | (.ok bs, s) => (s.setTh { s.th with mma := some ⟨t, xa.base, xs.map (·.base), bs.flatten⟩ }).mmaRows)

/-- MMA_BF16 (R229). -/
def execMmaBf16 (a b : Reg) (s : State) : Out := .next (s.mma (.mmaBf16 a b) .bf16 a b none)
/-- MMA_D8 (R229): a scale operand of 0 means unit scales. -/
def execMmaD8 (a b c : Reg) (s : State) : Out := .next (s.mma (.mmaD8 a b c) .d8 a b (some c))
/-- MMA_F16 (R229). -/
def execMmaF16 (a b : Reg) (s : State) : Out := .next (s.mma (.mmaF16 a b) .f16 a b none)

/-- MMA_COMPLETE (R229, R230): mc falls for an `mma` whose rows have all been issued. -/
def execMmaComplete (s : State) : Out :=
  let u := s.unitOf s.ev.unit
  let runs := (u.owner.bind s.threadAt).any (fun t => t.mma.isSome)
  .next (if u.mc ≤ runs.toNat then s else s.putUnit s.ev.unit { u with mc := u.mc - 1 })

/-! ### The ring (R232, R233) -/

/-- Zeroes a tile. -/
def MatrixUnit.zeroTile (u : MatrixUnit) (tile : Nat) : MatrixUnit := { u with tiles := Tab.dropRange u.tiles (tile * 4096) 4096 }

/-- MRING_ADV (R233). -/
def execMringAdv (s : State) : Out :=
  .next (s.asOwner .mringAdv (fun u =>
    if u.mc ≠ 0 ∨ 7 ≤ u.fill then s.stall
    else (s.setUnit { u with fill := u.fill + 1, head := (u.head + 1) % 8 }).retire 4))

/-- MRING_CLR (R233). -/
def execMringClr (s : State) : Out :=
  .next (s.asOwner .mringClr (fun u => if u.mc ≠ 0 then s.stall else (s.setUnit (u.zeroTile u.head)).retire 4))

/-! ### The epilogue's configuration (R235, R236) -/

/-- Bytes of an element of an output format, for the formats of R235. -/
def outSize (fmt : Nat) : Option Nat :=
  match fmt with
  | 0x0A | 0x04 => some 4
  | 0x09 | 0x08 | 0x02 => some 2
  | 0x00 | 0x0C => some 1
  | _ => none

/-- The configuration that a record of 64 bytes gives; none when R236 refuses its content. -/
def parseEp (bs : List Byte) : Option EpCfg :=
  let n (k len : Nat) : Nat := natOf ((bs.drop k).take len)
  let flags := BitVec.ofNat 8 (n 17 1)
  let c : EpCfg :=
    { out := n 0 8, rstride := sgn 32 (n 8 4), tstride := sgn 32 (n 12 4), ofmt := n 16 1, flags := flags, smode := n 18 1
      bscale := n 20 4, bias := n 24 4, act := n 28 4, oscale := n 32 4, othresh := BitVec.ofNat 32 (n 36 4)
      olist := n 40 4, olimit := n 44 4, sync := n 48 4, seq := 0, count := 0 }
  match outSize c.ofmt with
  | none => none
  | some z =>
    if n 19 1 = 0 ∧ n 52 12 = 0 ∧ n 17 1 < 32 ∧ c.smode ≤ 1
        ∧ ((c.smode = 0 ∧ !flags.getLsbD 4) ∨ c.ofmt = 0x0C) ∧ (!flags.getLsbD 0 ∨ c.out < 2 ^ 32)
        ∧ c.out % z = 0 ∧ c.rstride % z = 0 ∧ c.tstride % z = 0
        ∧ (!flags.getLsbD 1 ∨ c.bias % 4 = 0) ∧ (!flags.getLsbD 3 ∨ c.act % 4 = 0)
        ∧ (!flags.getLsbD 4 ∨ c.olist % 8 = 0) ∧ c.sync % 32 = 0 then some c
    else none

/-- EPCFG (R236): the record is read once, however long pend then takes to become 0. -/
def execEpcfg (a : Reg) (s : State) : Out :=
  let i : Instr := .epcfg a
  let la := (s.getX a).toNat
  .next (s.asOwner i (fun u =>
    if u.fill < u.reqs.length then s.trapWord 0x0C i
    else match s.localCheck la 64 64 with
      | some (c, q) => s.trap c q
      | none => s.whenFree (fun s =>
        let bs := s.readOnce la 64
        match parseEp bs with
        | none => s.trapWord 0x0C i
        | some c =>
          if !c.flags.getLsbD 0 ∧ 2 ^ 56 ≤ c.out then s.trap 0x07 c.out
          else if !u.reqs.isEmpty then s.stallWith bs
          else (s.setUnit { u with cfg := some c, row := 0 }).retire 4)))

/-- EPGO (R237). -/
def execEpgo (a : Reg) (s : State) : Out :=
  let i : Instr := .epgo a
  let n := (s.getX a).toNat
  .next (s.asOwner i (fun u =>
    if u.cfg.isNone ∨ 255 < n then s.trapWord 0x0C i
    else if 255 < u.reqs.length + n then s.stall
    else
      let s := s.setUnit { u with reqs := u.reqs ++ List.replicate n ⟨s.th.seq, s.th.view .epi⟩ }
      (s.setTh { s.th with seq := s.th.seq + 1 }).retire 4))

/-! ### Draining a tile (R237 to R240) -/

/-- The activation table: bounds and knots (R238). -/
structure ActTable where
  lo : Exact
  hi : Exact
  knots : List Exact

/-- Whether a value is finite. -/
def Exact.finite : Exact → Bool
  | .fin .. => true
  | .nan _ | .inf _ => false

/-- How a row's drain ends. -/
inductive RowEnd where
  | ok
  /-- the drain ends with a notice -/
  | fail (cause : Nat)
  /-- the drain becomes a replay record -/
  | hold (cause va : Nat)
  | lost (pa : Nat)
  | wait

/-- A drain at work: its issuer, the issuer on the epilogue's path as it stood at the `epgo`, its core and its unit, which the
drain advances (R237, R241). -/
structure Drain where
  owner : Owner
  view : View
  core : Nat
  unit : MatrixUnit

/-- Why a table of `n` bytes at a local address, of the level of `base`, cannot be read (R240). -/
def State.tableFault (s : State) (d : Drain) (base la n : Nat) : Option RowEnd :=
  match s.levelFault d.owner base la n, s.lostLoc d.view la n with
  | some (c, _), _ => some (.fail c)
  | none, some k => some (.lost k)
  | none, none => none

/-- The activation table at a local address, or why the drain ends there (R238, R240). -/
def State.actTable (s : State) (d : Drain) (act : Nat) : Except RowEnd ActTable :=
  match s.tableFault d act act 16 with
  | some e => .error e
  | none =>
    let num (k : Nat) : Nat := s.seeNat d.view (act + k) 4
    let lo := f32.unpack (num 0)
    let hi := f32.unpack (num 4)
    let n := num 8
    if !(lo.finite && hi.finite) ∨ lo.cmp hi ≠ some .lt ∨ n = 0 ∨ 256 < n ∨ num 12 ≠ 0 then .error (.fail 0x0C)
    else match s.tableFault d act (act + 16) (4 * (n + 1)) with
      | some e => .error e
      | none => .ok ⟨lo, hi, (List.range (n + 1)).map (fun k => f32.unpack (num (16 + 4 * k)))⟩

/-- Act(v) (R238). -/
def actOf (t : ActTable) (v : Exact) : Exact :=
  if v.isNan then .nan false
  else
    let c := if v.cmp t.lo = some .lt then t.lo else if v.cmp t.hi = some .gt then t.hi else v
    let n := t.knots.length - 1
    let num := ((Exact.add nearest c t.lo.neg).1.mul (Exact.ofInt n)).1
    let u := f32.unpack (f32.round nearest false (num.div (Exact.add nearest t.hi t.lo.neg).1).1).1
    let i := min (u.toInt 1).1.toNat (n - 1)
    let f := (Exact.add nearest u (Exact.ofInt (-(i : Int)))).1
    let y0 := t.knots.getD i Exact.zero
    let y1 := t.knots.getD (i + 1) Exact.zero
    let d := (Exact.add nearest y1 y0.neg).1
    f32.unpack (f32.round nearest false (Exact.add nearest y0 (f.mul d).1).1).1

/-- A drained element: column scale, bias and activation (R237). -/
def State.drainValue (s : State) (v : View) (c : EpCfg) (act : Option ActTable) (bits col : Nat) : Exact :=
  let x := f32.unpack bits
  let r (x : Exact) : Exact := f32.unpack (f32.round nearest false x).1
  let x := if c.flags.getLsbD 2 then
      (let q := s.seeNat v (c.bscale + col) 1
       if q = 255 then .nan false else r (x.scale ((q : Int) - 127)))
    else x
  let x := if c.flags.getLsbD 1 then r (Exact.add nearest x (f32.unpack (s.seeNat v (c.bias + 4 * col) 4))).1 else x
  match act with
  | some t => actOf t x
  | none => x

/-- One output element in its format (R239). -/
def outBits (fmt : Nat) (v : Exact) : Nat :=
  match fmt with
  | 0x0A => (f32.round nearest false v).1
  | 0x09 => (bf16.round nearest false v).1
  | 0x08 => (f16.round nearest false v).1
  | 0x04 => wrap 32 (v.convertInt 32 nearest).1
  | 0x02 => wrap 16 (v.convertInt 16 nearest).1
  | 0x00 => wrap 8 (v.convertInt 8 nearest).1
  | _ => (encodeD8 v).1

/-- The greatest magnitude of a block without its outliers; NaN once an element is NaN (R239). -/
def drainMax (isOut : Exact → Bool) (ys : List Exact) : Exact :=
  ys.foldl (fun a y =>
    if a.isNan ∨ y.isNan then .nan false else if isOut y then a else (Exact.pick true a y.abs).1) Exact.zero

/-- A drained row: the elements' bits, the scale codes of its blocks, and its outliers with their columns (R239). -/
def drainRow (c : EpCfg) (ys : List Exact) : List Nat × List Nat × List (Nat × Nat) :=
  let th := f32.unpack c.othresh.toNat
  let isOut (y : Exact) : Bool := c.flags.getLsbD 4 && outlier th y
  let codes := if c.smode = 1 then [ys.take 32, ys.drop 32].map (fun b => (scaleX8 (drainMax isOut b)).1) else []
  let elem (p : Exact × Nat) : Nat :=
    if isOut p.1 then 0
    else if c.smode = 1 then (encodeBlock p.1 (codes.getD (p.2 / 32) 0)).1
    else outBits c.ofmt p.1
  let outs := ((ys.zipIdx).filter (fun p => isOut p.1)).map (fun p => ((f32.round nearest false p.1).1, p.2))
  (ys.zipIdx.map elem, codes, outs)

/-- Writes the outputs of a row (R237, R240). -/
def State.putRow (s : State) (d : Drain) (c : EpCfg) (bs : List Byte) (size : Nat) : RowEnd × State :=
  let at_ : Int := (c.out : Int) + (d.unit.row : Int) * c.rstride
  if c.flags.getLsbD 0 then
    match s.levelFault d.owner c.out at_ bs.length with
    | some (k, _) => (.fail k, s)
    | none => (.ok, s.putUnits size d.view at_.toNat bs.length bs)
  else
    let va := wrap 64 at_
    if 2 ^ 56 ≤ va then (.fail 0x07, s)
    else match s.engineWrite d.view (d.owner.req .store d.unit.gen) va size bs with
      | (none, s) => (.ok, s)
      | (some (.fault 0x08 _), s) => (.fail 0x08, s)
      | (some (.fault k a), s) => (if 2 ^ 56 ≤ a then .fail k else .hold k a, s)
      | (some (.lost pa), s) => (.lost pa, s)
      | (some .wait, s) => (.wait, s)

/-- Appends the outlier entries of a row; those past the limit are dropped (R239). -/
def State.putOutliers (s : State) (v : View) (c : EpCfg) (row : Nat) : List (Nat × Nat) → Nat → Nat × State
  | [], count => (count, s)
  | (bits, col) :: r, count =>
    let entry := bits + (row * 64 + col) * 2 ^ 32 + c.seq % 2 ^ 16 * 2 ^ 48
    let s := if count < c.olimit then s.putEngine v (c.olist + 8 + 8 * count) (bytesOf 8 entry) else s
    s.putOutliers v c row r (min (count + 1) (2 ^ 32 - 1))

/-- Drains one row of the tile at the tail: its outputs, its scales, and then its outlier entries (R237, R239). Where a byte of any of them
cannot be written, the drain fails before any byte of the row is (DESIGN CHOICE, the log's entry 66). -/
def State.drainOne (s : State) (d : Drain) (c : EpCfg) (act : Option ActTable) : RowEnd × Drain × State :=
  let u := d.unit
  let ys := (List.range 64).map (fun col =>
    s.drainValue d.view c act (Tab.get u.tiles (tileKey u.tail u.row col) 0).toNat col)
  let (bits, codes, outs) := drainRow c ys
  let size := (outSize c.ofmt).getD 1
  let entries := min (c.count + outs.length) c.olimit - c.count
  let scaleFault := if codes.isEmpty then none else s.levelFault d.owner c.oscale (c.oscale + 2 * u.row : Nat) 2
  let listFault := if entries = 0 then none else s.levelFault d.owner c.olist (c.olist + 8 + 8 * c.count : Nat) (8 * entries)
  match scaleFault, listFault with
  | some (k, _), _ => (.fail k, d, s)
  | none, some (k, _) => (.fail k, d, s)
  | none, none =>
    match s.putRow d c (bits.flatMap (bytesOf size)) size with
    | (.ok, s) =>
      let s := if codes.isEmpty then s else s.putUnits 1 d.view (c.oscale + 2 * u.row) 2 (codes.flatMap (bytesOf 1))
      let (count, s) := s.putOutliers d.view c u.row outs c.count
      (.ok, { d with unit := { u with row := u.row + 1, cfg := some { c with count := count } } }, s)
    | (e, s) => (e, d, s)

/-- Drains rows from the first not written (R240). -/
def State.drainRows (s : State) (d : Drain) (act : Option ActTable) : Nat → RowEnd × Drain × State
  | 0 => (.ok, d, s)
  | n + 1 =>
    match d.unit.cfg with
    | none => (.ok, d, s)
    | some c =>
      match s.drainOne d c act with
      | (.ok, d, s) => s.drainRows d act n
      | r => r

/-- The end of a drain that has written its 64 rows: its tile is zero and no longer closed, and the arrival is made
(R237, R239). -/
def State.drainDone (s : State) (d : Drain) (c : EpCfg) : Drain × State :=
  let u := d.unit
  let s := if c.flags.getLsbD 4 then s.putLoc d.view c.olist (bytesOf 4 c.count) else s
  let c' : EpCfg := { c with
    out := wrap 64 ((c.out : Int) + c.tstride), oscale := (c.oscale + 128) % 2 ^ 32, seq := c.seq + 1 }
  let v := { u.zeroTile u.tail with
    tail := (u.tail + 1) % 8, fill := u.fill - 1, reqs := u.reqs.drop 1, row := 0, cfg := some c', gen := none }
  ({ d with unit := v }, s.arrive d.owner c.sync (4096 * (outSize c.ofmt).getD 1) false)

/-- Works on a drain: at most `n` rows of the tile at the tail, from the first not written; after row 63 the drain is done. The
tables are read as the drain goes (R237 to R241). -/
def State.drainOn (s : State) (d : Drain) (c : EpCfg) (n : Nat) : RowEnd × Drain × State :=
  let tables := [(c.flags.getLsbD 2, c.bscale, 64), (c.flags.getLsbD 1, c.bias, 256), (c.flags.getLsbD 4, c.olist, 4)]
  let bad := tables.findSome? (fun q => if q.1 then s.tableFault d q.2.1 q.2.1 q.2.2 else none)
  let act : Except RowEnd (Option ActTable) :=
    if c.flags.getLsbD 3 then (s.actTable d c.act).map some else .ok none
  match bad, act with
  | some e, _ => (e, d, s)
  | none, .error e => (e, d, s)
  | none, .ok act =>
    match s.drainRows d act (min n (64 - d.unit.row)) with
    | (.ok, d, s) =>
      (match d.unit.cfg with
        | some c =>
          if d.unit.row = 64 then
            let (d, s) := s.drainDone d c
            (.ok, d, s)
          else (.ok, d, s)
        | none => (.ok, d, s))
    | r => r

/-- The sync word of a unit's configuration. -/
def MatrixUnit.sync (u : MatrixUnit) : Nat :=
  match u.cfg with
  | some c => c.sync
  | none => 0

/-- What completes a failed drain once its notice is posted: every request is cancelled, and the sync word hears of the
error (R240). -/
def State.drainFailed (s : State) (o : Owner) (core : Nat) : State :=
  let u := s.unitOf core
  (s.putUnit core { u with reqs := [], row := 0, gen := none, fail := none }).arrive o u.sync 0 true

/-- Ends a drain with a notice; where no place is free the drain is held (R240, R302). -/
def State.failDrain (s : State) (o : Owner) (core : Nat) (cause : Nat) : State :=
  let u := s.unitOf core
  let w := noticeOf 3 0 cause ((u.cfg.elim 0 (·.seq)) % 2 ^ 16 + u.row * 2 ^ 16)
  match s.postNotice o w with
  | (true, s) => s.drainFailed o core
  | (false, s) => s.putUnit core { s.unitOf core with fail := some w }

/-- Goes on with the drain of the tile at the tail of a core's unit for its owner, the thread at hand. -/
def State.drainUnit (s : State) (core : Nat) (q : DrainReq) (c : EpCfg) (n : Nat) : State :=
  let o := s.th.owner
  let (e, d, s) := s.drainOn ⟨o, q.view, core, s.unitOf core⟩ c n
  let s := s.putUnit core d.unit
  match e with
  | .ok | .wait => s
  | .fail k => s.failDrain o core k
  | .lost pa => (s.drainFailed o core).report 0x0A pa
  | .hold k a =>
    match s.postRecord (.drain none) ⟨k, a, true, s.th.uact⟩ true q.seq with
    | some s => s.putUnit core { s.unitOf core with held := true }
    | none => s

/-- Goes on with a drain whose thread has left (R225): it completes and arrives. Of one that meets what would have been a record, a
notice or a report R225 says nothing: it ends there with an error arrival of 0 bytes (DESIGN CHOICE, the log's entry 19). -/
def State.drainLost (s : State) (k n : Nat) : State :=
  match s.drains[k]? with
  | none => s
  | some l =>
    match l.unit.cfg, l.unit.reqs with
    | some c, q :: _ =>
      let (e, d, s) := s.drainOn ⟨l.owner, q.view, l.core, l.unit⟩ c n
      (match e with
        | .wait => s
        | .ok => if d.unit.reqs.isEmpty then { s with drains := s.drains.eraseIdx k }
          else { s with drains := s.drains.set k { l with unit := d.unit } }
        | .fail _ | .hold .. => { s with drains := s.drains.eraseIdx k }.arrive l.owner c.sync 0 true
        | .lost pa => ({ s with drains := s.drains.eraseIdx k }.arrive l.owner c.sync 0 true).reportOwner l.owner pa)
    | _, _ => { s with drains := s.drains.eraseIdx k }

/-- TILE_DRAIN (R237 to R240): the epilogue of a core drains the tile at the tail, once it is requested and closed: as many rows as
the turn gives it, or all (0). Place 0 is the unit's own drain, place k + 1 one whose thread has left. -/
def execTileDrain (s0 : State) : Out :=
  let core := s0.ev.unit
  let u := s0.unitOf core
  let n := if s0.ev.num = 0 then 64 else s0.ev.num
  .next (if s0.ev.idx ≠ 0 then s0.drainLost (s0.ev.idx - 1) n
    else match u.owner, u.cfg, u.reqs with
      | some slot, some c, q :: _ =>
        if u.fill = 0 ∨ u.held ∨ u.fail.isSome then s0 else (s0.focus slot).drainUnit core q c n
      | _, _, _ => s0)

end Sys2Proof.Machine
end

