-- ==== Sys2Proof/Machine/Notices.lean ====
section
/-!
DEFINITION. Sys2Proof/Machine/Notices.lean: a notice that waited for one of its slot's 16 places is posted, and what waited with
it completes (R302).
-/
namespace Sys2Proof.Machine

/-- What completes with a notice, by its path (R218, R240, R266, R302). -/
def State.noticed (s : State) (slot : Nat) (w : Word) : State :=
  let core := coreOf slot
  match fld w.toNat 12 3 with
  | 1 =>
    (match (s.copyQueue core).find? (fun c => c.fail == some w && (s.threadAt slot).any (fun t => c.owner.isOf t)) with
    | some c => { s with copyQ := Tab.put s.copyQ core ((s.copyQueue core).erase c) }.arrive c.owner c.sw 0 true
    | none => s)
  | 3 =>
    (match (s.unitOf core).fail, s.threadAt slot with
    | some v, some t => if v = w ∧ s.ownsUnit slot then s.drainFailed t.owner core else s
    | _, _ => s)
  | 5 =>
    (match s.threadAt slot with
    | some t => s.toldStop t.ident (fld w.toNat 32 32)
    | none => s)
  | _ => s

/-- HELD_NOTICE_POST (R302). -/
def execHeldNoticePost (s : State) : Out :=
  .next (match s.threadAt s.ev.unit with
    | none => s
    | some t =>
      match t.heldNotices with
      | [] => s
      | w :: rest =>
        if 16 ≤ t.notices.length then s
        else (s.putThread { t with notices := t.notices ++ [w], heldNotices := rest, stalled := false }).noticed t.slot w)

end Sys2Proof.Machine
end

