-- ==== Sys2Proof/Machine/Save.lean ====
section
/-!
DEFINITION. Sys2Proof/Machine/Save.lean: the continuation record and the register save area (R119 to R124), the stop of a
thread, its drain and its save (R304 to R306, R242, R219, R270, R292), the spill into a frame, and the resume from one
(R307).
-/
namespace Sys2Proof.Machine

/-! ### CRC-32C (R124) -/

/-- One bit of the CRC with the Castagnoli polynomial. -/
def crcBit (c : BitVec 32) : BitVec 32 := if c.getLsbD 0 then (c >>> 1) ^^^ 0x82F63B78#32 else c >>> 1

/-- One byte of the CRC. -/
def crcByte (c : BitVec 32) (b : Byte) : BitVec 32 :=
  crcBit (crcBit (crcBit (crcBit (crcBit (crcBit (crcBit (crcBit (c ^^^ b.setWidth 32))))))))

/-- CRC-32C of a string of bytes. -/
def crc32c (bs : List Byte) : BitVec 32 := bs.foldl crcByte 0xFFFFFFFF#32 ^^^ 0xFFFFFFFF#32

/-! ### The image of a save (R120 to R122) -/

/-- The streams that are bound, with their numbers. -/
def Thread.bound4 (t : Thread) : List (Nat × Stream) :=
  (t.streams.toList.zipIdx).filterMap (fun e => e.1.map (fun v => (e.2, v)))

/-- The live mask of a save: a bound stream's f register is saved as a stream state (R123). -/
def Thread.liveMask (t : Thread) : BitVec 64 :=
  (t.bound4).foldl (fun m e => m &&& ~~~(1#64 <<< (60 + e.1))) (t.live &&& ~~~1#64)

/-- A stream state's 16 bytes (R122). -/
def streamState (v : Stream) : List Byte :=
  bytesOf 4 (v.base.toNat % 2 ^ 29 + v.type.val * 2 ^ 29) ++ bytesOf 4 v.limit.toNat ++ bytesOf 4 v.stride.toNat
    ++ bytesOf 4 v.pos.toNat

/-- Numbers of the set bits of a mask between two bounds, in ascending order. -/
def bitsIn (m : BitVec 64) (lo n : Nat) : List Nat := ((List.range n).map (lo + ·)).filter (fun k => m.getLsbD k)

/-- The live x registers, then the live f registers (R122). -/
def Thread.regBytes (t : Thread) : List Byte :=
  (bitsIn t.liveMask 0 32).flatMap (fun k => bytesOf 8 (t.x.toList.getD k 0).toNat)
    ++ (bitsIn t.liveMask 32 32).flatMap (fun k => bytesOf 32 (t.f.toList.getD (k - 32) 0).toNat)

/-- The register part (R122). -/
def Thread.registerPart (t : Thread) : List Byte := t.regBytes ++ t.bound4.flatMap (fun e => streamState e.2)

/-- The stream state pointer (R121). -/
def Thread.streamPointer (t : Thread) : Nat :=
  if t.bound4.isEmpty then 0
  else 0x3A00 + t.regBytes.length + t.bound4.foldl (fun n e => n + 2 ^ (16 + e.1) + e.2.dir.val * 2 ^ (20 + 2 * e.1)) 0

/-- The state block (R122). -/
def Thread.stateBlock (t : Thread) : List Byte :=
  bytesOf 8 t.uvec.toNat ++ bytesOf 8 t.epc.toNat ++ bytesOf 8 t.tval.toNat
    ++ bytesOf 4 t.othresh.toNat ++ bytesOf 4 t.clamplo.toNat
    ++ bytesOf 4 t.clamphi.toNat ++ bytesOf 1 t.cause.toNat ++ bytesOf 1 (t.usave.toNat / 64)
    ++ bytesOf 2 (t.fflags.toNat + 128 * t.rmode.toNat)
    ++ bytesOf 8 t.mstride.toNat ++ bytesOf 8 t.mrow.toNat ++ bytesOf 8 t.score.toNat

/-- The loop block (R122). -/
def Thread.loopBlock (t : Thread) : List Byte :=
  let level (l : Loop) : List Byte := bytesOf 8 l.beg.toNat ++ bytesOf 8 l.last.toNat ++ bytesOf 8 l.cnt.toNat ++ bytesOf 8 l.flag.toNat
  level t.loop0 ++ level t.loop1

/-- Whether a save writes the loop block: while a level is active (R122). What an ended loop has left in lbeg, lend and lcnt then reads
0 after a resume, though R81 has a save keep the loop state (DESIGN CHOICE, the log's entry 65). -/
def Thread.looping (t : Thread) : Bool := t.loop0.flag || t.loop1.flag

/-- The continuation record but for its CRC (R120); `prog` and `mown` are flags of the save (R121). -/
def Thread.record (t : Thread) (prog mown : Bool) : List Byte :=
  let flags := t.arrived.isSome.toNat + 2 * mown.toNat + 4 * prog.toNat + 8 * t.allow.toNat
  bytesOf 8 t.pc.toNat ++ bytesOf 8 (t.sys.toNat + 2 * t.uact.toNat + 4 * (!t.held.isEmpty).toNat) ++ bytesOf 8 t.liveMask.toNat
    ++ bytesOf 4 t.ident.gang ++ bytesOf 2 t.ident.grank ++ bytesOf 1 (t.slot % 8) ++ bytesOf 1 flags ++ bytesOf 4 t.ident.launch
    ++ bytesOf 1 t.ident.vf ++ bytesOf 1 t.prio ++ bytesOf 2 0 ++ bytesOf 8 (t.loop0.flag.toNat + 2 * t.loop1.flag.toNat)
    ++ bytesOf 8 t.streamPointer ++ bytesOf 4 t.registerPart.length

/-- What a new thread's record holds (R119). -/
def Thread.newRecord (t : Thread) : List Byte :=
  bytesOf 8 t.pc.toNat ++ bytesOf 8 t.sys.toNat ++ bytesOf 8 0 ++ bytesOf 4 t.ident.gang ++ bytesOf 2 t.ident.grank
    ++ bytesOf 1 (t.slot % 8) ++ bytesOf 1 0 ++ bytesOf 4 t.ident.launch ++ bytesOf 1 t.ident.vf ++ bytesOf 1 t.prio
    ++ bytesOf 26 0

/-- What the CRC covers (R124). -/
def saveCovered (record regs contrib block ext loops : List Byte) : List Byte := record ++ regs ++ contrib ++ block ++ ext ++ loops

/-- Writes the save of a thread into its slice: the state extension, the register save area and the continuation record with
its CRC (R120 to R124, R305). -/
def State.writeSave (s : State) (t : Thread) (prog mown : Bool) : State :=
  let o := t.owner
  let ext := bytesOf 8 t.iret.toNat ++ bytesOf 56 0
  let record := t.record prog mown
  let contrib := match t.arrived with
    | some c => bytesOf 8 c.toNat
    | none => []
  let loops := if t.looping then t.loopBlock else []
  let crc := crc32c (saveCovered record t.registerPart contrib t.stateBlock ext loops)
  let s := s.writeLoc o 0x39C0 ext
  let s := s.writeLoc o 0x3A00 t.registerPart
  let s := s.writeLoc o 0x3F38 contrib
  let s := s.writeLoc o 0x3F40 t.stateBlock
  let s := s.writeLoc o 0x3F80 loops
  (s.writeLoc o 0x3FC0 (record ++ bytesOf 4 crc.toNat)).settleLoc (t.slot * 0x4000 + 0x39C0) 0x640

/-! ### Frames -/

/-- Units of a range that stand under a key, turned into the bytes that a raw access reads of them (R360); registered words are
recalled first. -/
def State.rawRange (s : State) (lo n : Nat) : State :=
  let s := s.recallIn lo n
  (s.keys.filter (fun e => lo ≤ e.1 * 32 && e.1 * 32 < lo + n)).foldl (fun s e => s.rekey 0 e.1) s

/-- The listed bytes of a range of memory, as they are stored. -/
def State.rawSlice (s : State) (lo n : Nat) : Memory := Memory.slice (s.rawRange lo n).mem lo n

/-- Makes a range of memory a copy of listed bytes, as they are; nothing of what it held is kept anywhere. -/
def State.rawPlace (s : State) (lo n : Nat) (m : Memory) : State :=
  { s with
    mem := Memory.place s.mem lo n m
    keys := Tab.dropRange s.keys (lo / 32) (n / 32)
    regs := Tab.dropRange s.regs (lo / 8) (n / 8)
    memPast := Tab.dropRange s.memPast (lo / 8 * 2) (n / 8 * 2) }

/-- The private slice of a slot. -/
def State.sliceOf (s : State) (slot : Nat) : Memory := Memory.slice s.loc (slot * 0x4000) 0x4000

/-- Whether a private slice holds an uncorrectable error (R308). -/
def State.sliceBad (s : State) (slot : Nat) : Bool := s.badLoc.any (fun e => slot * 0x4000 ≤ e.1 && e.1 < slot * 0x4000 + 0x4000)

/-! ### Ring save places (R242) -/

/-- Physical address of a ring save place. -/
def State.ringAt (s : State) (k : Nat) : Nat := s.cfg.ringSave + k * 0x20000

/-- A free place of a die's ring save area, as die * 16 + place. -/
def State.freeRing (s : State) (die : Nat) : Option Nat :=
  ((List.range 16).map (die * 16 + ·)).find? (fun k => (Tab.find s.rings k).isNone)

/-- Copies a ring into its save place; the rest of the unit stands in the place's descriptor. -/
def State.saveRing (s : State) (k : Nat) (i : Ident) (u : MatrixUnit) : State :=
  let bytes : Memory := u.tiles.foldl (fun m e => Memory.writeN m (4 * e.1) (bytesOf 4 e.2.toNat)) []
  let s := s.rawPlace (s.ringAt k) 0x20000 bytes
  { s with rings := Tab.put s.rings k ⟨i, { u with owner := none, waiters := [], tiles := [] }⟩ }

/-- The tiles that a ring save place holds. -/
def State.ringTiles (s : State) (k : Nat) : Tab (BitVec 32) :=
  let m := s.rawSlice (s.ringAt k) 0x20000
  ((m.map (fun e => e.1 / 4)).eraseDups).map (fun w => (w, BitVec.ofNat 32 (natOf (Memory.readN m (4 * w) 4))))

/-- Loads a ring back into a core's unit, which belongs to the thread at hand, and frees its place; the requested drains are then the
thread's on its new slot. A drain that had failed, and whose notice has been posted since, is over (R302). -/
def State.loadRing (s : State) (k : Nat) : State :=
  match Tab.find s.rings k with
  | none => s
  | some p =>
    let core := coreOf s.th.slot
    let old := s.unitOf core
    let reqs := p.unit.reqs.map (fun (q : DrainReq) => { q with view := s.th.view .epi })
    let s := s.putUnit core { p.unit with owner := some s.th.slot, waiters := old.waiters, tiles := s.ringTiles k, reqs := reqs }
    let s := { s with rings := Tab.drop s.rings k, th := { s.th with ring := none } }
    if p.unit.fail.any (fun w => !s.th.heldNotices.contains w) then s.drainFailed s.th.owner core else s

/-! ### The stop and the drain (R304, R305) -/

/-- Whether a requested stop takes effect now: at an instruction boundary with no open packet, no record still to be sent
again, no `ixcreate` waiting, and no `pinv` (R142, R289, R304, R322). -/
def Thread.mayStop (t : Thread) : Bool := t.phase == .requested && !t.pinned && t.packet.isNone && t.redo.isEmpty && t.ixReq.isNone

/-- The stop of the thread at hand takes effect: it gives up what it waits for, and its drain starts (R303, R304). -/
def State.threadStop (s : State) : State :=
  let s := s.leaveMown.leaveMma
  { s with th := { s.th with phase := .draining, swWait := none, stalled := false, relWait := none, latched := none } }

/-- THREAD_STOP (R304). -/
def execThreadStop (s0 : State) : Out :=
  let s := s0.focus s0.ev.unit
  .next (if s.th.bound && s.th.slot == s0.ev.unit && s.th.mayStop then s.threadStop else s0)

/-- Where the unit's work does not hold back a save: no `mma` outstanding, and no drain of a closed tile that runs or waits to
run (R242). -/
def MatrixUnit.rests (u : MatrixUnit) : Bool := u.mc == 0 && (min u.reqs.length u.fill == 0 || u.held || u.fail.isSome)

/-- Whether the thread at hand has drained (R305). -/
def State.drained (s : State) : Bool :=
  let t := s.th
  t.acc.all (fun a => a.stuck.isSome) && (s.ixQ.all (fun c => !c.owner.isOf t))
    && (!s.ownsUnit t.slot || (s.unitOf (coreOf t.slot)).rests)
    && s.counter t .yc == 0 && s.counter t .tc == 0 && s.counter t .nc == 0
    && s.nmus.all (fun e => !(e.2.run.any (fun h => h.msg.owner.isOf t && h.stop.isNone)))

/-- Program order of a suspended command. -/
def Progress.seq : Progress → Nat
  | .copy c => c.seq
  | .table c => c.seq
  | .nm m => m.seq
  | .load l => l.seq
  | .near c => c.seq

/-- Puts a suspended command in its place in program order (R307). -/
def insertProgress (p : Progress) : List Progress → List Progress
  | [] => [p]
  | q :: r => if p.seq < q.seq then p :: q :: r else q :: insertProgress p r

/-- Whether what a save waits for to the end has ended: accesses, index commands other than queries, and the running matrix work; what is
still suspended or withdrawn comes after it (R276, R305). -/
def State.onlyLong (s : State) : Bool :=
  let t := s.th
  t.acc.all (fun a => a.stuck.isSome) && s.ixQ.all (fun c => !c.owner.isOf t || c.op == .near)
    && (!s.ownsUnit t.slot || (s.unitOf (coreOf t.slot)).rests)

/-- SAVE_DRAIN_TIMEOUT (R305): copies and queries still running are suspended, and table commands, messages and handler loads that
their NMU has not started are withdrawn (R219, R270, R292). A query keeps its acceptance and its snapshot. -/
def execSaveDrainTimeout (s0 : State) : Out :=
  let s := s0.focus s0.ev.unit
  .next (if !(s.th.bound && s.th.slot == s0.ev.unit && s.th.phase == .draining && s.onlyLong) then s0
    else
      let t := s.th
      let core := coreOf t.slot
      let mine (o : Owner) : Bool := o.isOf t
      let ps : List Progress :=
        ((s.copyQueue core).filter (fun c => mine c.owner)).map Progress.copy
          ++ (s.tableQ.filter (fun c => mine c.owner)).map Progress.table
          ++ (s.nmQ.filter (fun m => mine m.owner)).map Progress.nm
          ++ s.nmus.flatMap (fun e => (e.2.queue.filter (fun m => mine m.owner)).map Progress.nm)
          ++ (s.loads.filter (fun l => mine l.owner)).map Progress.load
          ++ (s.ixQ.filter (fun c => mine c.owner && c.op == .near)).map Progress.near
      { s with
        th := { t with progress := ps.foldl (fun l p => insertProgress p l) t.progress }
        copyQ := Tab.put s.copyQ core ((s.copyQueue core).filter (fun c => !mine c.owner))
        tableQ := s.tableQ.filter (fun c => !mine c.owner)
        nmQ := s.nmQ.filter (fun m => !mine m.owner)
        nmus := s.nmus.map (fun e => (e.1, { e.2 with queue := e.2.queue.filter (fun m => !mine m.owner) }))
        loads := s.loads.filter (fun l => !mine l.owner)
        ixQ := s.ixQ.filter (fun c => !(mine c.owner && c.op == .near)) })

/-- Whether a save takes a place of the record store (R306). -/
def Thread.needsPlace (t : Thread) : Bool :=
  !(t.held.isEmpty && t.progress.isEmpty && t.notices.isEmpty && t.heldNotices.isEmpty && t.acc.isEmpty)

/-- Physical address of a place of the record store (R306). -/
def State.placeAt (s : State) (k : Nat) : Nat := s.cfg.recordStore + k * 0x800

/-- Places of the record store (R306). -/
def storePlaces : Nat := 65536

/-- A free place of the record store. -/
def State.freePlace (s : State) : Option Nat :=
  (List.range (s.store.length + 1)).find? (fun k => k < storePlaces && s.store.all (fun p => p.place != k))

/-- SAVE_COMPLETE (R242, R305, R306): once the thread has drained, its ring, its registers and its records are saved; the
lease ends (R243), and everything that the thread and its engine commands have written is released at system scope (R191, R194). It
waits while no ring place or no record store place is free; an uncorrectable error in its slice or its place loses the context
(R308). -/
def execSaveComplete (s0 : State) : Out :=
  let s := s0.focus s0.ev.unit
  .next (if !(s.th.bound && s.th.slot == s0.ev.unit && s.th.phase == .draining && s.drained) then s0
    else
      let t := s.th
      let owns := s.ownsUnit t.slot
      let ring := if owns then s.freeRing (dieOf t.slot) else none
      let place := if t.needsPlace then s.freePlace else some 0
      match place with
      | none => s0
      | some k =>
      if owns && ring.isNone then s0
      else if s.sliceBad t.slot then s.loseContext 0 (t.slot * 0x4000)
      else if t.needsPlace && (s.badIn (s.placeAt k) 0x800).isSome then s.loseContext 0 (s.placeAt k)
      else
        let s := match ring with
          | some k => (s.saveRing k t.ident (s.unitOf (coreOf t.slot))).releaseUnit (coreOf t.slot)
          | none => s
        let s := s.writeSave t (!t.progress.isEmpty) owns
        let s := if t.needsPlace then
            { s with store := s.store ++ [⟨k, t.ident, t.acc, t.held, t.progress, t.notices, t.heldNotices⟩] } else s
        let s := match t.depart, s.gangOf t.ident with
          | some cs, some g => s.putGang { g with leaving := g.leaving ++ [(t.ident.grank, cs)] }
          | _, _ => s
        let s := { s with th := { t with phase := .saved, lease := none, ring := ring } }
        (s.through (s.outsideOf (fun r => r.who == t.ident || r.ownOf (t.view .core)))).releasedAll .sys)

/-! ### The spill (R154) -/

/-- SLOT_SPILL (R154): a saved slice goes to its frame, and the slot is freed. -/
def execSlotSpill (s0 : State) : Out :=
  let s := s0.focus s0.ev.unit
  let t := s.th
  .next (if !(t.bound && t.slot == s0.ev.unit && t.phase == .saved && t.frame != 0) then s0
    else if s.sliceBad t.slot || (s.badIn t.frame 0x4000).isSome then s.loseContext 1 t.frame
    else
      let s := s.rawPlace t.frame 0x4000 (s.sliceOf t.slot)
      let s := match s.gangOf t.ident with
        | some g => s.putGang { g with saved := g.saved ++ [(t.ident.grank, t.frame)] }
        | none => s
      s.freeSlot)

/-! ### The resume (R124, R307) -/

/-- The bytes of a save in the slice of a slot. -/
def State.saved (s : State) (slot la n : Nat) : Nat := natOf (Memory.readN s.loc (slot * 0x4000 + la) n)

/-- The checks of R124 on the save in the slice of a slot: its CRC, its size and its stream state pointer. -/
def State.saveOk (s : State) (slot : Nat) : Bool :=
  let bytes (la n : Nat) : List Byte := Memory.readN s.loc (slot * 0x4000 + la) n
  let n (la k : Nat) : Nat := natOf (bytes la k)
  let live := BitVec.ofNat 64 (n 0x3FD0 8)
  let ptr := n 0x3FF0 8
  let regs := 8 * (bitsIn live 0 32).length + 32 * (bitsIn live 32 32).length
  let bound := ((List.range 4).filter (fun k => ptr / 2 ^ (16 + k) % 2 == 1)).length
  let size := n 0x3FF8 4
  size == regs + 16 * bound
    && ptr % 65536 == (if bound = 0 then 0 else 0x3A00 + regs)
    && n 0x3FFC 4 ==
      (crc32c (saveCovered (bytes 0x3FC0 60) (bytes 0x3A00 size) (if n 0x3FDF 1 % 2 = 1 then bytes 0x3F38 8 else [])
        (bytes 0x3F40 64) (bytes 0x39C0 64) (if n 0x3FE8 8 % 4 ≠ 0 then bytes 0x3F80 64 else []))).toNat

/-- The stream states of a save, from the address `la` up (R122). -/
def State.savedStreams (s : State) (slot ptr : Nat) : List Nat → Nat → Vector (Option Stream) 4 → Vector (Option Stream) 4
  | [], _, v => v
  | k :: rest, la, v =>
    let n (o len : Nat) : Nat := s.saved slot (la + o) len
    let x : Stream :=
      { base := BitVec.ofNat 32 (n 0 4 % 2 ^ 29), type := Fin.ofNat 8 (n 0 4 / 2 ^ 29), limit := BitVec.ofNat 32 (n 4 4)
        stride := BitVec.ofNat 32 (n 8 4), pos := BitVec.ofNat 32 (n 12 4), dir := Fin.ofNat 4 (ptr / 2 ^ (20 + 2 * k)), since := s.now }
    s.savedStreams slot ptr rest (la + 16) (v.set! k (some x))

/-- The thread that the save in the slice of a slot holds, on top of what its bind has set (R122, R123, R136). A resume is an acquire
at system scope (R186, R194). Of a loop block that was not written R122 restores zeros (`Thread.looping`). -/
def State.restored (s : State) (t : Thread) : Thread :=
  let n (la len : Nat) : Nat := s.saved t.slot la len
  let w (la : Nat) : Word := BitVec.ofNat 64 (n la 8)
  let live := BitVec.ofNat 64 (n 0x3FD0 8)
  let ptr := n 0x3FF0 8
  let xs := bitsIn live 0 32
  let fs := bitsIn live 32 32
  let level (la : Nat) : Loop := ⟨w la, w (la + 8), w (la + 16), n (la + 24) 8 % 2 == 1⟩
  let flags := n 0x3FDF 1
  let looping := n 0x3FE8 8 % 4 ≠ 0
  { t with
    x := (xs.zipIdx).foldl (fun v e => v.set! e.1 (w (0x3A00 + 8 * e.2))) (Vector.replicate 32 0)
    f := (fs.zipIdx).foldl (fun v e => v.set! (e.1 - 32) (BitVec.ofNat 256 (n (0x3A00 + 8 * xs.length + 32 * e.2) 32)))
      (Vector.replicate 32 0)
    live := live
    pc := pcBits (w 0x3FC0)
    sys := n 0x3FC8 8 % 2 == 1
    uact := n 0x3FC8 8 / 2 % 2 == 1
    uvec := w 0x3F40
    epc := w 0x3F48
    tval := w 0x3F50
    othresh := BitVec.ofNat 32 (n 0x3F58 4)
    clamplo := BitVec.ofNat 32 (n 0x3F5C 4)
    clamphi := BitVec.ofNat 32 (n 0x3F60 4)
    cause := BitVec.ofNat 64 (n 0x3F64 1)
    usave := BitVec.ofNat 64 (64 * n 0x3F65 1)
    fflags := BitVec.ofNat 7 (n 0x3F66 2)
    rmode := BitVec.ofNat 2 (n 0x3F66 2 / 128)
    mstride := w 0x3F68
    mrow := w 0x3F70
    score := w 0x3F78
    iret := w 0x39C0
    loop0 := if looping then level 0x3F80 else Loop.none
    loop1 := if looping then level 0x3FA0 else Loop.none
    streams := s.savedStreams t.slot ptr ((List.range 4).filter (fun k => ptr / 2 ^ (16 + k) % 2 == 1)) (ptr % 65536)
      (Vector.replicate 4 none)
    arrived := if flags % 2 = 1 then some (w 0x3F38) else none
    gangSeen := s.now
    devSeen := s.now
    sysSeen := s.now
    fences := allFences s.now
    codeSeen := s.now }

/-- Sends one suspended command again for the thread at hand, on its slot (R307); none while its core's copy queue is full
(R215). A copy that had failed, and whose notice has been posted since, is over (R302). -/
def State.sendProgress (s : State) (p : Progress) : Option State :=
  let t := s.th
  let o := t.owner
  match p with
  | .copy c =>
    let core := coreOf t.slot
    if c.fail.any (fun w => !t.heldNotices.contains w) then some (s.arrive o c.sw 0 true)
    else if 16 ≤ (s.copyQueue core).length then none
    else some { s with copyQ := Tab.put s.copyQ core (s.copyQueue core ++ [{ c with owner := o, view := t.view .copy }]) }
  | .table c => some { s with tableQ := s.tableQ ++ [{ c with owner := o, view := t.view .table }] }
  | .nm m => some { s with nmQ := s.nmQ ++ [{ m with owner := o, view := t.view .nm, frames := [], leaves := [] }] }
  | .load l => some { s with loads := s.loads ++ [{ l with owner := o }] }
  | .near c => some { s with ixQ := s.ixQ ++ [{ c with owner := o, view := t.view .index }] }

/-- Sends the suspended commands again in program order, as far as the copy queue accepts them (R215, R307). -/
def State.sendAll (s : State) : List Progress → State
  | [] => { s with th := { s.th with progress := [] } }
  | p :: r =>
    match s.sendProgress p with
    | some s => s.sendAll r
    | none => { s with th := { s.th with progress := p :: r } }

/-- The messages of the thread at hand that its NMUs have kept, behind stopped handlers, are its own on its slot (R266, R267). -/
def State.rebind (s : State) : State :=
  let t := s.th
  let own (m : NmMsg) : NmMsg := if m.owner.isOf t then { m with owner := t.owner, view := t.view .nm } else m
  { s with nmus := s.nmus.map (fun e => (e.1, { e.2 with run := e.2.run.map (fun h => { h with msg := own h.msg }) })) }

/-- The first program-order stamp past everything that a thread still holds, a ring saved for it among it. -/
def State.nextSeq (s : State) (t : Thread) : Nat :=
  let top (n k : Nat) : Nat := max n (k + 1)
  let drains := (s.rings.filter (fun e => e.2.ident == t.ident)).flatMap (fun e => e.2.unit.reqs)
  drains.foldl (fun n q => top n q.seq)
    (t.progress.foldl (fun n p => top n p.seq) (t.acc.foldl (fun n a => top n a.seq) (t.held.foldl (fun n h => top n h.seq) 0)))

/-- The record store place of the thread at hand. -/
def State.ownPlace (s : State) : Option StorePlace := s.store.find? (fun p => p.ident == s.th.ident)

/-- Reads back the record store place of the thread at hand: its records, its notices and its suspended commands; the place is free
again (R306, R307). -/
def State.readPlace (s : State) : State :=
  let t := s.th
  let t := match s.ownPlace with
    | some p => { t with acc := p.acc, held := p.held, notices := p.notices, heldNotices := p.heldNotices, progress := p.progress }
    | none => t
  { s with th := { t with seq := s.nextSeq t }, store := s.store.filter (fun q => q.ident ≠ t.ident) }

/-- Whether nothing of a resume is left to do for a thread: its frame, its commands and its ring are back (R307). -/
def Thread.loaded (t : Thread) : Bool := t.frame == 0 && t.ring.isNone && t.progress.isEmpty

/-- Makes the threads of a resumed group ready, once each of them has been loaded (R151). -/
def State.readyGroup (s : State) : State :=
  match s.ownGang with
  | none => s
  | some g =>
    if (s.threadsOf g).all (fun t => t.phase != .binding || t.loaded) then
      s.mapGang g (fun t => if t.phase = .binding then { t with phase := .running } else t)
    else s

/-- The ring of the thread at hand comes back, once its core's unit is its own; uncorrectable data in its place loses the
context (R242, R309). -/
def State.reloadRing (s : State) : State :=
  match s.th.ring with
  | none => s.readyGroup
  | some k =>
    if !s.ownsUnit s.th.slot then s
    else match s.badIn (s.ringAt k) 0x20000 with
      | some pa => s.loseContext 2 pa
      | none => (s.loadRing k).readyGroup

/-- Goes on with the resume of the thread at hand: its suspended commands are sent again, and then its ring comes back (R307). -/
def State.resumeOn (s : State) : State :=
  let s := s.sendAll s.th.progress
  if s.th.progress.isEmpty then s.reloadRing else s

/-- Goes on from the record store place of the thread at hand; one that cannot be read loses the context (R307, R308). -/
def State.resumeRecords (s : State) : State :=
  match s.ownPlace.bind (fun p => s.badIn (s.placeAt p.place) 0x800) with
  | some pa => s.loseContext 2 pa
  | none => s.readPlace.rebind.resumeOn

/-- A rank of the gang at hand that was saved after its barrier had completed gets the arrived set back (R132). -/
def State.takeLeaving (s : State) : Option (List Word) × State :=
  match s.ownGang with
  | none => (none, s)
  | some g =>
    ((g.leaving.find? (fun e => e.1 == s.th.ident.grank)).map (·.2),
      s.putGang { g with leaving := g.leaving.filter (fun e => e.1 ≠ s.th.ident.grank) })

/-- Restores the thread at hand from the save in its slice, with an acquire at system scope (R186, R307); its core's instruction cache
holds nothing for it yet (R19). -/
def State.restore (s : State) : State :=
  let s := (s.renew (dieOf s.th.slot) .sys).dropIcache (coreOf s.th.slot)
  let t := s.restored s.th
  let (left, s) := s.takeLeaving
  let ring := (s.rings.find? (fun e => e.2.ident == t.ident)).map (·.1)
  { s with th := { t with
    depart := left, frame := 0, allow := false
    ring := if s.saved t.slot 0x3FDF 1 / 2 % 2 = 1 then ring else none } }.resumeRecords

/-- FRAME_COPY_DONE (R124, R151, R307): a frame has been copied into the slot's slice; the save is checked and restored. A
thread that waits for room in its core's copy queue, or for its ring, goes on. -/
def execFrameCopyDone (s0 : State) : Out :=
  let s := s0.focus s0.ev.unit
  let t := s.th
  .next (if !(t.bound && t.slot == s0.ev.unit && t.phase == .binding) then s0
    else if t.frame = 0 then s.resumeOn
    else if (s.badIn t.frame 0x4000).isSome then s.loseContext 2 t.frame
    else
      let m := s.rawSlice t.frame 0x4000
      let s := { s with loc := Memory.place s.loc (t.slot * 0x4000) 0x4000 m }.settleLoc (t.slot * 0x4000) 0x4000
      if s.sliceBad t.slot || !s.saveOk t.slot then s.loseContext 2 t.frame else s.restore)

end Sys2Proof.Machine
end

