-- ==== Sys2Proof/Machine/Bind.lean ====
section
/-!
DEFINITION. Sys2Proof/Machine/Bind.lean: the bind port of a die and what its records do (R119, R149 to R154, R158), the slot table
(R152) and the zeroing of clusters (R153).
-/
namespace Sys2Proof.Machine

/-! ### Records (R150) -/

/-- A bind or stop record. -/
structure BindRec where
  frame : Nat
  last : Bool
  stop : Bool
  resume : Bool
  sys : Bool
  gang : Nat
  grank : Nat
  prio : Nat
  fn : Nat
  slot : Nat
  reserved : Bool
  deriving DecidableEq, Repr

/-- The fields of a record's 16 bytes. -/
def bindRec (r : BitVec 128) : BindRec :=
  let n := r.toNat
  { frame := fld n 64 40, last := fld n 59 1 == 1, stop := fld n 58 1 == 1, resume := fld n 57 1 == 1, sys := fld n 56 1 == 1
    gang := fld n 32 24, grank := fld n 26 6, prio := fld n 24 2, fn := fld n 16 8, slot := fld n 0 11
    reserved := fld n 104 24 != 0 || fld n 60 4 != 0 || fld n 11 5 != 0 }

/-- The slot of a record within its device. -/
def BindRec.slotOn (r : BindRec) (die : Nat) : Nat := die * 1280 + r.slot

/-! ### Queues (R145, R146, R328) -/

/-- Whether a rival has no allowance left in its round (R329). -/
def Launch.exhausted (l : Launch) (v : Rival) : Bool :=
  match l.allowance with
  | some n => n ≤ v.used
  | none => false

/-- Whether a launch still has gangs to bind on a die, or its count is not yet known (R145, R330). -/
def Launch.waitsOn (l : Launch) (die : Nat) : Bool :=
  match l.count with
  | none => true
  | some n =>
    if l.pkt.kind = 1 then
      l.pkt.firstDie == die &&
        (l.rivals.zipIdx).any (fun v => v.1.alive && (List.range v.1.limit).any (fun g => !l.bound.contains (v.2 + 64 * g)))
    else (List.range n).any (fun g => l.pkt.dieOf n g == die && !l.bound.contains g)

/-- The next gang of a launch for a die: in ascending number; in a tournament by index, and within one index by rival,
past the rivals that have exhausted their allowance (R146, R328). -/
def Launch.nextOn (l : Launch) (die : Nat) : Option (Nat × Option Nat) :=
  match l.count with
  | none => none
  | some n =>
    if l.pkt.kind = 1 then
      if l.pkt.firstDie ≠ die then none
      else
        let top := l.rivals.foldl (fun m v => max m v.limit) 0
        (List.range top).findSome? (fun g =>
          ((l.rivals.zipIdx).find? (fun v =>
            v.1.alive && !l.exhausted v.1 && g < v.1.limit && !l.bound.contains (v.2 + 64 * g))).map (fun v => (g, some v.2)))
    else ((List.range n).find? (fun g => l.pkt.dieOf n g == die && !l.bound.contains g)).map (fun g => (g, none))

/-- The launch at the head of a queue on a die (R146). -/
def State.headOf (s : State) (fn prio die : Nat) : Option Launch :=
  s.launches.find? (fun l => l.fn == fn && l.pkt.prio == prio && l.waitsOn die)

/-! ### Checks (R151) -/

/-- A field of the continuation record in a frame (R120). -/
def State.frameField (s : State) (frame k n : Nat) : Nat := natOf (s.hubRead 0 (frame + 0x3FC0 + k) n)

/-- The gang that a frame's continuation record and a resume record name, with its rank still saved in that frame. -/
def State.savedGang (s : State) (die : Nat) (r : BindRec) : Option Gang :=
  let launch := s.frameField r.frame 32 4
  if r.frame = 0 ∨ s.frameField r.frame 36 1 ≠ r.fn ∨ s.frameField r.frame 24 4 ≠ r.gang ∨ s.frameField r.frame 28 2 ≠ r.grank then none
  else if (s.launchOf r.fn launch).isNone then none
  else s.gangs.find? (fun g =>
    g.launch == launch && g.fn == r.fn && g.gang == r.gang && g.die == die && g.saved.contains (r.grank, r.frame))

/-- Whether commands of a thread that has left still run for a slot, and may write its private slice (R153, R309). -/
def State.haunted (s : State) (slot : Nat) : Bool := s.owners.any (fun o => o.lost && o.slot == slot)

/-- Whether slot `i` of a die is free: nothing bound, nothing of an earlier thread running, its core in service (R152, R153). -/
def State.idleSlot (s : State) (die i : Nat) : Bool :=
  let slot := die * 1280 + i
  i < 1280 && (s.threadAt slot).isNone && !s.haunted slot && !s.cfg.coresOut.contains (coreOf slot) && !s.cfg.diesOut.getLsbD die

/-- Whether the slot of a record is free and not named by the open group (R151). -/
def State.slotFree (s : State) (die : Nat) (group : List BindRec) (r : BindRec) : Bool :=
  s.idleSlot die r.slot && group.all (fun q => q.slot ≠ r.slot)

/-- Whether a function may be bound in a cluster of a die: its tenant is the function, or none (R153). -/
def State.tenantOk (s : State) (die cluster fn : Nat) : Bool :=
  (Tab.get s.tenants (die * 20 + cluster) ⟨none, false⟩).fn.all (· == fn)

/-- Whether the frame of a record holds a thread that owned its matrix unit (R242). -/
def State.frameOwned (s : State) (frame : Nat) : Bool := frame != 0 && s.frameField frame 31 1 / 2 % 2 == 1

/-- Whether the ring of a resumed thread can be granted its core's unit (R242). -/
def State.unitFree (s : State) (die : Nat) (group : List BindRec) (r : BindRec) : Bool :=
  let owned (q : BindRec) : Bool := s.frameOwned q.frame
  !owned r || ((s.unitOf (coreOf (r.slotOn die))).owner.isNone && group.all (fun q => !(owned q && q.slot / 8 == r.slot / 8)))

/-- The code of a record of a bind group, as it arrives; 0 where it passes (R151). Of a record with several defects the first of codes 4,
1, 2 and 3 that the record and its group show by themselves comes before what its queue entry or its frame shows (DESIGN CHOICE, the
log's entry 66). -/
def State.bindCode (s : State) (die : Nat) (group : List BindRec) (r : BindRec) : Nat :=
  let agrees (q : BindRec) : Bool := q.gang == r.gang && q.prio == r.prio && q.fn == r.fn && q.resume == r.resume && q.stop == r.stop
  if r.reserved ∨ r.frame % 16384 ≠ 0 ∨ (r.sys ∧ r.fn ≠ 0) then 4
  else if !s.slotFree die group r then 1
  else if group.any (fun q => q.slot / 64 != r.slot / 64) then 2
  else if group.any (fun q => !agrees q || q.grank == r.grank) then 3
  else if r.resume then
    match s.savedGang die r with
    | none => 5
    | some g =>
      match s.launchOf g.fn g.launch with
      | none => 5
      | some l =>
        if r.sys ≠ l.pkt.sys then 4
        else if r.prio ≠ l.pkt.prio ∨ group.any (fun q => (s.savedGang die q).any (fun h => h.launch ≠ g.launch || h.rival ≠ g.rival)) then 3
        else if !s.unitFree die group r then 1
        else if !s.tenantOk die (r.slot / 64) r.fn then 7
        else 0
  else
    match (s.headOf r.fn r.prio die).bind (fun l => (l.nextOn die).map (fun n => (l, n.1))) with
    | none => 5
    | some (l, g) =>
      if g ≠ r.gang then 5
      else if r.sys ≠ l.pkt.sys then 4
      else if l.pkt.threads ≤ r.grank then 3
      else if !s.tenantOk die (r.slot / 64) r.fn then 7
      else 0

/-- The code of a record of a stop group, as it arrives (R151, R154); one that names a slot of a core out of service has code 1
(R152). Of several defects, code 4 of the record by itself comes first, then 1, 3 and 6, and the thread's own mode and class last
(DESIGN CHOICE, the log's entry 66). -/
def State.stopCode (s : State) (die : Nat) (group : List BindRec) (r : BindRec) : Nat :=
  if r.reserved ∨ r.frame % 16384 ≠ 0 ∨ r.frame = 0 ∨ (r.sys ∧ r.fn ≠ 0) then 4
  else if r.slot < 1280 ∧ s.cfg.coresOut.contains (coreOf (r.slotOn die)) then 1
  else if group.any (fun q => q.gang ≠ r.gang || q.prio ≠ r.prio || q.fn ≠ r.fn || !q.stop || q.grank == r.grank) then 3
  else match (if r.slot < 1280 then s.threadAt (r.slotOn die) else none) with
    | none => 6
    | some t =>
      if t.ident.vf ≠ r.fn ∨ t.ident.gang ≠ r.gang ∨ t.ident.grank ≠ r.grank ∨ t.frame ≠ 0 ∨ t.phase = .binding then 6
      else if t.sys ≠ r.sys then 4
      else if t.prio ≠ r.prio then 3
      else if group.any (fun q => match s.threadAt (q.slotOn die) with
          | some u => u.ident.launch ≠ t.ident.launch || u.ident.rival ≠ t.ident.rival
          | none => true) then 3
      else 0

/-! ### Grants (R126, R158) -/

/-- A launch with the share of a rival filled up from the free units of its die: the share is the rival's gangs' grants, twice as
much in each round (R328, R334), and what was not free at acceptance is taken as it becomes free. -/
def State.fillShare (s : State) (die : Nat) (l : Launch) (k : Nat) : Launch :=
  match l.rivals[k]? with
  | none => l
  | some v =>
    let want := l.pkt.gangs * l.pkt.units * 2 ^ l.round
    if want ≤ v.share.length ∨ s.unitsReserved die l.pkt.prio (fun id g => id == l.id && g % 64 == k) then l
    else
      let more := (s.freeUnits die).take (want - v.share.length)
      { l with rivals := l.rivals.modify k (fun v => { v with share := v.share ++ more }) }

/-- The units that a gang may take its grant from: those of its rival's share, or the free units of the die (R126, R158, R328). -/
def State.grantUnits (s : State) (die : Nat) (l : Launch) (rival : Option Nat) : List Nat :=
  match rival with
  | none => if s.unitsReserved die l.pkt.prio (fun id _ => id == l.id) then [] else s.freeUnits die
  | some r =>
    let mine (g : Gang) : Bool := g.launch == l.id && g.fn == l.fn && g.rival == some r
    let ghosts := s.ghostUnits die
    match l.rivals[r]? with
    | some v => v.share.filter (fun u => !ghosts.contains u && !(s.gangs.any (fun g => mine g && g.grant.contains u)))
    | none => []

/-- Zeroes units of a die's scratchpad. -/
def State.zeroUnits (s : State) (die : Nat) (us : List Nat) : State :=
  us.foldl (fun (s : State) u =>
    let k := 0x10000000000 + (die * 768 + u) * 65536
    { s with loc := Memory.clear s.loc k 65536 }.settleLoc k 65536) s

/-- The gang that a new bind of a function and a class would bind on a die: its launch, its number, its rival, and the launch as it
then stands (R146, R328). -/
def State.nextBind (s : State) (fn prio die : Nat) : Option (Launch × Nat × Option Nat) :=
  (s.headOf fn prio die).bind (fun l => (l.nextOn die).map (fun n =>
    (match n.2 with | some k => s.fillShare die l k | none => l, n)))

/-! ### Acceptance (R119, R125, R151) -/

/-- A new thread (R16, R119): its first instruction is an acquire at device scope (R186, R187),
and the window write of a host launch has made visible what the host wrote before it (R349). -/
def State.newThread (s : State) (die : Nat) (l : Launch) (r : BindRec) (rival : Option Nat) : Thread :=
  let grown := l.pkt.kind = 1 ∧ l.pkt.gangs ≤ r.gang
  { Thread.idle with
    bound := true
    slot := r.slotOn die
    ident := ⟨r.fn, l.id, r.gang, r.grank, rival⟩
    gsize := l.pkt.threads
    prio := r.prio
    sys := r.sys
    x := Thread.idle.x.set 4 l.pkt.arg
    pc := pcBits (BitVec.ofNat 64 (l.pkt.entry + (if grown then l.pkt.grow else 0)))
    boundAt := s.clock
    gangSeen := s.now
    devSeen := s.now
    sysSeen := if l.host then l.seen else 0
    codeSeen := s.now }

/-- A thread as a resume binds it: what the bind sets, until its frame has been copied (R124). -/
def State.boundAgain (s : State) (die : Nat) (l : Launch) (r : BindRec) (g : Gang) : Thread :=
  { Thread.idle with
    bound := true
    slot := r.slotOn die
    ident := ⟨r.fn, l.id, r.gang, r.grank, g.rival⟩
    gsize := l.pkt.threads
    prio := r.prio
    sys := r.sys
    phase := .binding
    frame := r.frame
    boundAt := s.clock }

/-- Puts a thread on its slot, whose private slice is zero; the instruction cache of its core holds nothing for it yet (R19, R153). -/
def State.bindThread (s : State) (t : Thread) : State :=
  let k := t.slot * 0x4000
  let s := { s with loc := Memory.clear s.loc k 0x4000 }.settleLoc k 0x4000
  (s.putThread t).dropIcache (coreOf t.slot)

/-- The number of a gang among those that its launch has bound. -/
def gangMark (gang : Nat) : Option Nat → Nat
  | some k => k + 64 * gang
  | none => gang

/-- Binds a gang of the head launch on the slots of its group, if its grant is free; none where it is not (R119, R125,
R126). -/
def State.bindGang (s : State) (die : Nat) (group : List BindRec) : Option State :=
  match group with
  | [] => some s
  | r :: _ =>
    match s.nextBind r.fn r.prio die with
    | none => some s
    | some (l, _, rival) =>
      let us := s.grantUnits die l rival
      if us.length < l.pkt.units then none
      else
        let cluster := clusterOf (r.slotOn die)
        let grant := us.take l.pkt.units
        let g : Gang :=
          { launch := l.id, fn := l.fn, gang := r.gang, rival := rival, die := die, cluster := cluster, gsize := l.pkt.threads
            prio := r.prio, grant := grant, grantBytes := 65536 * l.pkt.units, ended := [], least := none, code := none, gone := []
            saved := [], leaving := [], got := (0, 0) }
        let s := ((s.renew die .dev).zeroUnits die grant).putLaunch { l with bound := l.bound ++ [gangMark r.gang rival] }
        let s := { s with gangs := s.gangs ++ [g], tenants := Tab.put s.tenants cluster ⟨some r.fn, false⟩ }
        some (group.foldl (fun s q =>
          let t := s.newThread die l q rival
          (s.bindThread t).writeLoc t.owner 0x3FC0 t.newRecord) s)

/-- Binds a saved gang again on the slots of its group (R124, R151): a matrix unit that a record asks for is granted. -/
def State.resumeGang (s : State) (die : Nat) (group : List BindRec) : State :=
  match group with
  | [] => s
  | r :: _ =>
    match s.savedGang die r with
    | none => s
    | some g =>
      match s.launchOf g.fn g.launch with
      | none => s
      | some l =>
        let cluster := clusterOf (r.slotOn die)
        let g' := { g with cluster := cluster, saved := g.saved.filter (fun e => !(group.any (fun q => q.grank == e.1))) }
        let s := { s.putGang g' with tenants := Tab.put s.tenants cluster ⟨some r.fn, false⟩ }
        group.foldl (fun s q =>
          let slot := q.slotOn die
          let s := if s.frameOwned q.frame then s.putUnit (coreOf slot) { s.unitOf (coreOf slot) with owner := some slot } else s
          s.bindThread (s.boundAgain die l q g)) s

/-- Asks every thread of a stop group to stop, and gives each its frame; one suspended at its allowance needs no further
drain (R154, R330). -/
def State.stopGroup (s : State) (die : Nat) (group : List BindRec) : State :=
  group.foldl (fun s r =>
    match s.threadAt (r.slotOn die) with
    | none => s
    | some t => s.putThread { t with frame := r.frame, phase := if t.phase = .running then .requested else t.phase }) s

/-! ### The port (R150, R151) -/

/-- A die's bind port. -/
def State.port (s : State) (die : Nat) : BindPort := Tab.get s.ports die ⟨0, [], 0, 0, false⟩

/-- Replaces a die's bind port. -/
def State.putPort (s : State) (die : Nat) (p : BindPort) : State := { s with ports := Tab.put s.ports die p }

/-- Threads that a group must name: all of the launch for a bind, all of the gang that have not ended for a resume, all that are
bound for a stop (R151, R154). -/
def State.groupSize (s : State) (die : Nat) (r : BindRec) : Nat :=
  if r.stop then
    match s.threadAt (r.slotOn die) with
    | some t => (s.gangOf t.ident).elim 0 (fun g => (s.threadsOf g).length)
    | none => 0
  else if r.resume then (s.savedGang die r).elim 0 (fun g => g.saved.length + (s.threadsOf g).length)
  else (s.headOf r.fn r.prio die).elim 0 (fun l => l.pkt.threads)

/-- The code of a record, given the records of its group before it (R151). -/
def State.recordCode (s : State) (die : Nat) (group : List BindRec) (r : BindRec) : Nat :=
  let code := if r.stop then s.stopCode die group r else s.bindCode die group r
  if code = 0 ∧ r.last ∧ s.groupSize die r ≠ group.length + 1 then 3 else code

/-- The code of a whole group: that of its first failing record (R151). -/
def State.groupCode (s : State) (die : Nat) (done : List BindRec) : List BindRec → Nat
  | [] => 0
  | r :: rest =>
    let c := s.recordCode die done r
    if c = 0 then s.groupCode die (done ++ [r]) rest else c

/-- Ends the open group of a die's port with a code. Its count then reads 0, whatever record failed: no group is open (R151; DESIGN
CHOICE, the log's entry 65). -/
def State.closePort (s : State) (die code : Nat) : State := s.putPort die { s.port die with group := [], code := code, count := 0, waiting := false }

/-- Carries out a whole group, every record of which is checked as things now stand (R151). A bind group waits while its cluster is
being zeroed (R153). -/
def State.runGroup (s : State) (die : Nat) (group : List BindRec) : State :=
  match group with
  | [] => s
  | r :: _ =>
    let code := s.groupCode die [] group
    if code ≠ 0 then s.closePort die code
    else if r.stop then (s.stopGroup die group).closePort die 0
    else if (Tab.get s.tenants (clusterOf (r.slotOn die)) ⟨none, false⟩).zeroing then s.putPort die { s.port die with waiting := true }
    else if r.resume then (s.resumeGang die group).closePort die 0
    else match s.bindGang die group with
      | some s => s.closePort die 0
      | none => s.closePort die 8

/-- A record arrives at a die's port (R150, R151): the first failing record of a group fixes its code, and the last one ends the
group. One that arrives while a whole group waits for a cluster's zeroing is dropped (DESIGN CHOICE, the log's entry 65). -/
def State.submit (s : State) (die : Nat) (bits : BitVec 128) : State :=
  let p := s.port die
  if p.waiting then s
  else
    let group := p.group.map bindRec
    let r := bindRec bits
    let failed := !group.isEmpty && p.code != 0
    let code := if failed then p.code else s.recordCode die group r
    let p' : BindPort :=
      { p with group := p.group ++ [bits], code := code, count := if code = 0 then group.length + 1 else p.count }
    if !r.last then s.putPort die p'
    else if code ≠ 0 then s.closePort die code
    else (s.putPort die p').runGroup die (group ++ [r])

/-! ### The firmware's policy (R148, R149, R158) -/

/-- The free slots of a cluster of a die, in ascending order of core and slot. -/
def State.idleIn (s : State) (die cluster : Nat) : List Nat :=
  ((List.range 64).map (cluster * 64 + ·)).filter (s.idleSlot die)

/-- The cluster that a gang of `t` threads gets: the lowest-numbered one that has `t` free slots and whose tenant is its function or
none, and that no other waiting gang has reserved (R149). -/
def State.clusterFor (s : State) (die fn prio launch mark t : Nat) : Option Nat :=
  let taken := (s.reservedOn die prio (fun id g => id == launch && g == mark)).map (·.1)
  (List.range 20).find? (fun c => t ≤ (s.idleIn die c).length && s.tenantOk die c fn && !taken.contains c)

/-- The cluster in which the next gang of a function and a class can be bound on a die, with its grant (R149, R158). -/
def State.bindableIn (s : State) (die prio fn : Nat) : Option Nat :=
  (s.nextBind fn prio die).bind (fun n =>
    if (s.grantUnits die n.1 n.2.2).length < n.1.pkt.units then none else s.clusterFor die fn prio n.1.id (gangMark n.2.1 n.2.2) n.1.pkt.threads)

/-- The functions whose next gang of a class can be bound on a die. -/
def State.bindable (s : State) (die prio : Nat) : List Nat :=
  (((s.launches.filter (fun l => l.pkt.prio == prio)).map (·.fn)).eraseDups).filter (fun fn => (s.bindableIn die prio fn).isSome)

/-- Whether a saved gang can be bound again on its die: a cluster has the slots, and free matrix units on distinct cores for the
threads that owned one (R154, R242). -/
def State.resumable (s : State) (g : Gang) : Bool :=
  let owners := (g.saved.filter (fun e => s.frameOwned e.2)).length
  let taken := (s.reservedOn g.die g.prio (fun _ _ => false)).map (·.1)
  let cores (c : Nat) : List Nat := (List.range 8).filter (fun k =>
    (s.unitOf (g.die * 160 + c * 8 + k)).owner.isNone && (s.idleIn g.die c).any (fun i => i / 8 == c * 8 + k))
  !g.saved.isEmpty && (s.threadsOf g).isEmpty && (List.range 20).any (fun c =>
    g.saved.length ≤ (s.idleIn g.die c).length && s.tenantOk g.die c g.fn && !taken.contains c && owners ≤ (cores c).length)

/-- Strict priority: no gang of a class below `prio` could be bound on a die (R148). -/
def State.noneBelow (s : State) (die prio : Nat) : Bool :=
  (List.range prio).all (fun c =>
    (s.bindable die c).isEmpty && !(s.gangs.any (fun g => g.die == die && g.prio == c && s.resumable g)))

/-- Slot-cycles that a function is given in a round (R148). -/
def State.quantum (s : State) (fn : Nat) : Nat := Tab.get s.weights fn 16 * 7520

/-- Rounds of a class on a die that must begin before a function is below its quantum again (R148). -/
def State.roundsFor (s : State) (die prio fn : Nat) : Nat := Tab.get s.charges (chargeKey die prio fn) 0 / s.quantum fn

/-- Deficit round-robin: a function of a class is served when no other whose gang can be bound is below its quantum sooner (R148). -/
def State.servedNext (s : State) (die prio fn : Nat) : Bool :=
  (s.bindable die prio).all (fun v => s.roundsFor die prio fn ≤ s.roundsFor die prio v)

/-- `k` rounds of a class begin on a die: each function is given its quantum again (R148). -/
def State.newRounds (s : State) (die prio k : Nat) : State :=
  { s with charges := s.charges.map (fun e =>
      if e.1 / 129 = die * 4 + prio then (e.1, e.2 - k * s.quantum (e.1 % 129)) else e) }

/-- Whether the shipped firmware would write this record now (R148, R149, R158); it may write a record that fails. -/
def State.firmwareWould (s : State) (die : Nat) (r : BindRec) : Bool :=
  let group := ((s.port die).group.map bindRec)
  if r.stop || s.recordCode die group r != 0 then true
  else if r.resume then
    s.noneBelow die r.prio
      && !((s.reservedOn die r.prio (fun _ _ => false)).map (·.1)).contains (r.slot / 64)
  else
    s.noneBelow die r.prio && s.servedNext die r.prio r.fn
      && (match s.bindableIn die r.prio r.fn with
        | some c => r.grank == group.length && (s.idleIn die c)[group.length]? == some r.slot
        | none => false)

/-- The firmware writes a record to a die's port, as its two stores (R147, R150). -/
def State.firmware (s : State) (die : Nat) (bits : BitVec 128) : State :=
  let r := bindRec bits
  if 8 ≤ die ∨ !s.firmwareWould die r then s
  else
    let fails := s.recordCode die ((s.port die).group.map bindRec) r != 0
    let s := if r.stop || r.resume || fails then s else s.newRounds die r.prio (s.roundsFor die r.prio r.fn)
    (s.putPort die { s.port die with half := bits.setWidth 64 }).submit die bits

/-- One 8-byte store to a die's port: the first half is kept, and the second submits the record (R150). -/
def State.portStore (s : State) (die : Nat) (second : Bool) (v : BitVec 64) : State :=
  if second then s.firmware die (v ++ (s.port die).half)
  else if 8 ≤ die then s
  else s.putPort die { s.port die with half := v }

/-- The record of the event at hand. -/
def State.evRecord (s : State) : BitVec 128 := s.ev.data.setWidth 128

/-- BIND_RECORD (R148 to R151): the firmware submits a record that starts a thread. -/
def execBindRecord (s : State) : Out :=
  let r := bindRec s.evRecord
  .next (if r.stop || r.resume then s else s.firmware s.ev.unit s.evRecord)

/-- RESUME_RECORD (R150, R151). -/
def execResumeRecord (s : State) : Out :=
  let r := bindRec s.evRecord
  .next (if r.stop || !r.resume then s else s.firmware s.ev.unit s.evRecord)

/-- STOP_RECORD (R150, R154). -/
def execStopRecord (s : State) : Out :=
  let r := bindRec s.evRecord
  .next (if !r.stop then s else s.firmware s.ev.unit s.evRecord)

/-- Whether the zeroing of a cluster can be over: nothing that earlier threads have sent can still write its scratchpads
(R143, R153, R309). -/
def State.mayZero (s : State) (cluster : Nat) : Bool :=
  s.landings.all (fun l => l.core / 8 ≠ cluster) && s.counts.all (fun c => c.core / 8 ≠ cluster)
    && s.owners.all (fun o => !(o.lost && clusterOf o.slot == cluster))

/-- CLUSTER_ZEROING_DONE (R153): the scratchpads of a cluster's eight cores are zero, and a group that waited goes on. -/
def execClusterZeroingDone (s : State) : Out :=
  let c := s.ev.unit
  .next (if !((Tab.get s.tenants c ⟨none, false⟩).zeroing && s.mayZero c) then s
    else
      let k := 0x100000000 + c * 8 * 0x60000
      let s := { s with
        loc := Memory.clear s.loc k (8 * 0x60000)
        tenants := Tab.put s.tenants c ⟨none, false⟩ }.settleLoc k (8 * 0x60000)
      let die := c / 20
      let p := s.port die
      if p.waiting ∧ (p.group.map bindRec).any (fun r => clusterOf (r.slotOn die) == c) then
        (s.putPort die { p with waiting := false }).runGroup die (p.group.map bindRec)
      else s)

/-- Whether the group at a die's port, open or waiting for a zeroing, would bind into a cluster of the die. -/
def State.portNames (s : State) (die c : Nat) : Bool := ((s.port die).group.map bindRec).any (fun r => !r.stop && r.slot / 64 == c)

/-- GANG_RESERVATION (R149): the gang at the head of its queue reserves a cluster that is closest to having its free slots, and the
units it needs; it reserves one cluster, once, and none that a group at the port is about to be bound into. The event names the die, the launch (`idx`), the gang (`num`) and the cluster on the die (`data`). -/
def execGangReservation (s : State) : Out :=
  let die := s.ev.unit
  let c := s.ev.data.toNat
  .next (match s.launchById s.ev.idx with
    | none => s
    | some l =>
      match l.nextOn die with
      | none => s
      | some (g, rival) =>
        let free (c : Nat) : Nat := min l.pkt.threads (s.idleIn die c).length
        let held := s.reserves.any (fun r => r.1 == die && r.2.1 == l.id && r.2.2.1 == gangMark g rival)
        if (s.headOf l.fn l.pkt.prio die).map (·.id) = some l.id ∧ g = s.ev.num ∧ c < 20 ∧ !held ∧ !s.portNames die c
            ∧ (List.range 20).all (fun d => free d ≤ free c) then
          { s with reserves := s.reserves ++ [(die, l.id, gangMark g rival, c)] }
        else s)

/-! ### What the firmware reads (R151, R152) -/

/-- The bind status register of a die (R151). -/
def State.bindStatus (s : State) (die : Nat) : Word :=
  let p := s.port die
  let busy := !p.group.isEmpty || s.threads.any (fun t => dieOf t.slot == die && t.phase == .binding && t.frame != 0)
  BitVec.ofNat 64 (busy.toNat + 256 * p.code + 65536 * p.count)

/-- State code of a thread in the slot table (R152). It gives none for a thread that is saved at its allowance and still bound: the
model shows 3, with preq 0 (DESIGN CHOICE, the log's entry 65). -/
def Thread.slotState (t : Thread) : Nat :=
  match t.phase with
  | .binding => 1
  | .running => 2
  | .requested | .draining => 3
  | .saved => if t.frame = 0 then 3 else 4

/-- Entry `i` of a die's slot table (R152); a slot for which commands of its last thread still run is stopping. -/
def State.slotEntry (s : State) (die i : Nat) : Word :=
  match s.threadAt (die * 1280 + i) with
  | some t =>
    BitVec.ofNat 64 ((decide (t.frame ≠ 0 ∧ t.phase ≠ .binding)).toNat + 2 * t.sys.toNat + 4 * t.slotState + 2 ^ 16 * t.ident.vf
      + 2 ^ 24 * t.prio + 2 ^ 26 * t.ident.grank + 2 ^ 32 * t.ident.gang)
  | none =>
    if s.cfg.coresOut.contains (coreOf (die * 1280 + i)) then BitVec.ofNat 64 28
    else if s.haunted (die * 1280 + i) then BitVec.ofNat 64 12 else 0

end Sys2Proof.Machine
end

