-- ==== Sys2Proof/Machine/Tourney.lean ====
section
/-!
DEFINITION. Sys2Proof/Machine/Tourney.lean: tournaments (R329 to R337): the score, `trinfo`, the end of an allowance, and the end
of a round with its ranking, its kills and its growth.
-/
namespace Sys2Proof.Machine

/-! ### Scores (R335) -/

/-- The operations of `tscore`. -/
inductive ScoreOp where
  | set | max | min | add
  deriving DecidableEq, Repr

/-- A binary64 result; a NaN operand gives the canonical NaN (R335). -/
def score64 (f : Exact → Exact → Exact) (s v : Word) : Word :=
  let x := f64.unpack s.toNat
  let y := f64.unpack v.toNat
  BitVec.ofNat 64 (if x.isNan || y.isNan then f64.canon else (f64.round nearest false (f x y)).1)

/-- The new score (R335): `f` tells f64 mode. -/
def scoreOp (op : ScoreOp) (f : Bool) (s v : Word) : Word :=
  match op, f with
  | .set, _ => v
  | .max, false => if s.slt v then v else s
  | .min, false => if v.slt s then v else s
  | .add, false => s + v
  | .max, true => score64 (fun x y => (Exact.pick true x y).1) s v
  | .min, true => score64 (fun x y => (Exact.pick false x y).1) s v
  | .add, true => score64 (fun x y => (Exact.add nearest x y).1) s v

/-- `tscore` (R335): a rival's threads share its score; any other thread has its own. -/
def State.tscore (s : State) (op : ScoreOp) (a : Reg) : State :=
  let v := s.getX a
  match s.ownRival, s.th.ident.rival with
  | some (l, r), some k =>
    let w := scoreOp op (l.pkt.scoreMode % 2 == 1) r.score v
    let s := s.putLaunch { l with rivals := l.rivals.modify k (fun r => { r with score := w }) }
    { s with th := { s.th with score := w } }.retire 4
  | _, _ => { s with th := { s.th with score := scoreOp op false s.th.score v } }.retire 4

/-- TSCORE_SET (R335). -/
def execTscoreSet (a : Reg) (s : State) : Out := .next (s.tscore .set a)
/-- TSCORE_MAX (R335). -/
def execTscoreMax (a : Reg) (s : State) : Out := .next (s.tscore .max a)
/-- TSCORE_MIN (R335). -/
def execTscoreMin (a : Reg) (s : State) : Out := .next (s.tscore .min a)
/-- TSCORE_ADD (R335). -/
def execTscoreAdd (a : Reg) (s : State) : Out := .next (s.tscore .add a)

/-- The info word of a rival (R336). -/
def infoWord (l : Launch) (k : Nat) (r : Rival) : Word :=
  BitVec.ofNat 64 (l.round % 256 + 256 * k + 65536 * l.pkt.rivals + 2 ^ 24 * l.live + 2 ^ 32 * (r.limit % 2 ^ 24))

/-- TRINFO (R336). -/
def execTrinfo (d a : Reg) (s : State) : Out :=
  .next (s.result d (match s.ownRival, s.th.ident.rival with
    | some (l, r), some k =>
      (match (s.getX a).toNat with
      | 0 => infoWord l k r
      | 1 => r.score
      | 2 => BitVec.ofNat 64 s.allowLeft
      | _ => BitVec.ofNat 64 (2 ^ 64 - 1))
    | _, _ => 0))

/-! ### Allowances (R330) -/

/-- Whether a thread belongs to a rival of a launch. -/
def Launch.hasThread (l : Launch) (k : Nat) (t : Thread) : Bool :=
  t.ident.launch == l.id && t.ident.vf == l.fn && t.ident.rival == some k

/-- Changes every bound thread that satisfies a condition. -/
def State.mapThreads (s : State) (p : Thread → Bool) (f : Thread → Thread) : State :=
  { s with
    th := if s.th.bound ∧ p s.th then f s.th else s.th
    others := s.others.map (fun e => (e.1, if p e.2 then f e.2 else e.2)) }

/-- ALLOWANCE_EXHAUSTED (R330): the rival's bound threads are to stop, with flags.allow set. -/
def execAllowanceExhausted (s : State) : Out :=
  let k := s.ev.idx
  .next (match s.launchById s.ev.unit with
    | none => s
    | some l =>
      match l.rivals[k]? with
      | none => s
      | some v =>
        if !(l.pkt.kind == 1 && v.alive && l.exhausted v) then s
        else s.mapThreads (fun t => l.hasThread k t && (t.phase == .running || t.phase == .requested))
          (fun t => { t with phase := .requested, allow := true }))

/-! ### The end of a round (R331 to R334) -/

/-- Whether one score ranks above another; equal scores rank the lower rival number higher (R332). -/
def ranksAbove (mode : Nat) (a b : Word × Nat) : Bool :=
  let lower := mode / 2 % 2 == 1
  if mode % 2 = 1 then
    let x := f64.unpack a.1.toNat
    let y := f64.unpack b.1.toNat
    match x.isNan, y.isNan with
    | true, true => a.2 < b.2
    | true, false => false
    | false, true => true
    | false, false =>
      match x.cmp y with
      | some .lt => lower
      | some .gt => !lower
      | _ => a.2 < b.2
  else if a.1 = b.1 then a.2 < b.2
  else if a.1.slt b.1 then lower else !lower

/-- Puts a rival in its rank. -/
def insertRank (mode : Nat) (a : Word × Nat) : List (Word × Nat) → List (Word × Nat)
  | [] => [a]
  | b :: r => if ranksAbove mode a b then a :: b :: r else b :: insertRank mode a r

/-- The live rivals in rank order, best first (R332). -/
def Launch.ranking (l : Launch) : List Nat :=
  ((((l.rivals.zipIdx).filter (fun v => v.1.alive)).map (fun v => (v.1.score, v.2))).foldr (insertRank l.pkt.scoreMode) []).map (·.2)

/-- Whether a thread is suspended at its allowance where it stands, in an open packet, an `ixcreate` or a `pinv`, which a save waits for:
no instruction of its rival issues or retires that would end it (R142, R289, R322, R329; DESIGN CHOICE, the log's entry 64). -/
def Thread.inPlace (t : Thread) : Bool := t.phase == .requested && t.allow && (t.packet.isSome || t.ixReq.isSome || t.pinned)

/-- Whether a round has ended: every live rival has exhausted its allowance or is finished, and its bound threads are saved or
suspended (R331). -/
def State.roundOver (s : State) (l : Launch) : Bool :=
  l.pkt.kind == 1 && 2 ≤ l.live &&
    (l.rivals.zipIdx).all (fun v => !v.1.alive ||
      ((l.exhausted v.1 || v.1.done) && s.threads.all (fun t => !l.hasThread v.2 t || t.phase == .saved || t.inPlace)))

/-- Whether an identity belongs to a rival of a launch. -/
def Launch.hasIdent (l : Launch) (k : Nat) (i : Ident) : Bool := i.launch == l.id && i.vf == l.fn && i.rival == some k

/-- Kills a rival: its threads are discarded, its gangs and saved frames are gone, and what it held is freed; its commands that
run go on, with its grants (R309, R333). -/
def State.killRival (s : State) (l : Launch) (k : Nat) : State :=
  let slots := (s.threads.filter (l.hasThread k)).map (·.slot)
  let s := slots.foldl (fun s n => (s.focus n).dropThread) s
  let s := ((s.endClaimsOf (l.hasIdent k)).freePlaces (l.hasIdent k)).mapOwners
    (fun o => if l.hasIdent k o.ident then { o with lost := true } else o)
  let mine (g : Gang) : Bool := g.launch == l.id && g.fn == l.fn && g.rival == some k
  { s with
    gangs := s.gangs.filter (fun g => !mine g)
    ghosts := s.ghosts ++ s.gangs.filter mine }

/-- The rivals of the next round: the worse half is dead, and the survivor ranked j-th from the top has the share of the rival
ranked j-th from the bottom; gang limits double where the launch grows (R332 to R334). -/
def Launch.nextRound (l : Launch) : Launch :=
  let order := l.ranking
  let half := order.length / 2
  let place (k : Nat) : Nat := (order.idxOf? k).getD order.length
  let heir (j : Nat) : List Nat := ((order[order.length - 1 - j]?).bind (fun k => l.rivals[k]?)).elim [] (·.share)
  let next (v : Rival × Nat) : Rival :=
    let r := v.1
    if !r.alive then r
    else if place v.2 < half then
      { r with
        used := 0
        share := r.share ++ heir (place v.2)
        limit := if l.pkt.grow = 0 then r.limit else 2 * r.limit }
    else { r with alive := false, share := [] }
  { l with round := l.round + 1, rivals := (l.rivals.zipIdx).map next }

/-- Wakes a thread that was suspended at its allowance and has not been asked for a frame, by the steps of a resume that it still
needs (R307, R330): its records and notices come back and its suspended commands are sent again; one that owned the matrix unit
waits for its core's unit. It has stayed on its slot, so it drops no copies of code, and it makes the acquire of a resume
(DESIGN CHOICE, the log's entry 64). -/
def State.wake (s : State) (slot : Nat) : State :=
  let s := s.focus slot
  if !(s.th.bound && s.th.slot == slot) then s
  else if s.th.inPlace then
    { s with th := { s.th with phase := if s.th.frame = 0 then .running else .requested, allow := false } }
  else if !(s.th.phase == .saved && s.th.frame == 0) then s
  else
    let (left, s) := s.takeLeaving
    let s := { s with th := { s.th with
      phase := .binding
      allow := false, arriveHand := false, acc := [], held := [], notices := [], heldNotices := [], progress := []
      depart := left } }.acquire .sys
    let core := coreOf slot
    let u := s.unitOf core
    let s := if s.th.ring.isNone then s
      else s.putUnit core (if u.owner.isNone then { u with owner := some slot } else { u with waiters := u.waiters ++ [slot] })
    s.resumeRecords

/-- ROUND_END (R331 to R334): the ranking and the kills; and once nothing of a killed rival runs any more, the zeroing of their
shares, the growth and the start of the next round. -/
def execRoundEnd (s : State) : Out :=
  .next (match s.launchById s.ev.unit with
    | none => s
    | some l =>
      if !s.roundOver l then s
      else
        let order := l.ranking
        let dead := order.drop (order.length / 2)
        let s := dead.foldl (fun s k => s.killRival l k) s
        if s.owners.any (fun o => dead.any (fun k => l.hasIdent k o.ident)) then s
        else
          let shares := dead.flatMap (fun k => (l.rivals[k]?).elim [] (·.share))
          let got := ((s.launchOf l.fn l.id).getD l).got
          let s := (s.zeroUnits l.pkt.firstDie shares).putLaunch { l.nextRound with got := got }
          let slots := (s.threads.filter (fun t => t.ident.launch == l.id && t.ident.vf == l.fn && t.ident.rival.isSome)).map (·.slot)
          (slots.foldl State.wake s).closeLaunch l.fn l.id)

end Sys2Proof.Machine
end

