-- ==== Sys2Proof/Machine/External.lean ====
section
/-!
DEFINITION. Sys2Proof/Machine/External.lean: what reaches the device from outside: host windows and BAR0 (R346 to R350, R365,
R366), host and peer accesses (R351 to R353), resets and boot (R355, R368), alarms (R359), rotation (R367), and cores that
fail or leave service (R162, R174, R309, R310); and the delivery of an upcall as an event (R22).
-/
namespace Sys2Proof.Machine

/-! ### BAR0 (R347) -/

/-- A function's BAR0 registers. -/
def State.bar (s : State) (fn : Nat) : Bar := Tab.get s.bars fn Bar.empty

/-- Replaces a function's BAR0 registers. -/
def State.putBar (s : State) (fn : Nat) (b : Bar) : State := { s with bars := Tab.put s.bars fn b }

/-- The window status register (R347). -/
def Bar.statusWord (b : Bar) : Word :=
  BitVec.ofNat 64 (b.id % 2 ^ 31 + 2 ^ 32 * wrap 8 b.status + 2 ^ 48 * b.seq.toNat)

/-- The first status of R348 that applies to a window write; 0 accepts it. -/
def State.windowStatus (s : State) (fn : Nat) (whole : Bool) (bs : List Byte) : Int :=
  if !whole then -5
  else if s.inReset.contains fn || s.quarantined.contains fn then -6
  else s.packetStatus bs fn (fn == 0) false

/-- HOST_LAUNCH_WINDOW_WRITE (R348). -/
def execHostLaunchWindowWrite (s : State) : Out :=
  let fn := s.ev.unit
  let bs := bytesOf 64 s.ev.data.toNat
  .next (if 128 < fn then s
    else
      let b := s.bar fn
      let st := s.windowStatus fn s.ev.flag bs
      if st = 0 then
        let (id, s) := s.accept (parsePacket bs) fn true
        s.putBar fn { b with seq := b.seq + 1, status := 0, id := id }
      else s.putBar fn { b with seq := b.seq + 1, status := st, id := 0, drops := b.drops + 1 })

/-- REGISTER_WRITE (R347): of the registers without behaviour of their own only the report nonce, written whole, keeps what is
written. The event names the function, the offset (`idx`) and the length (`num`). -/
def execRegisterWrite (s : State) : Out :=
  .next (if s.ev.unit ≤ 128 ∧ s.ev.idx = 0x100 ∧ s.ev.num = 32 then
      s.putBar s.ev.unit { s.bar s.ev.unit with nonce := s.ev.data.setWidth 256 }
    else s)

/-- Nanoseconds of the hub since boot, at 940 MHz (R365). -/
def State.nanoseconds (s : State) : Nat := s.clock * 1000 / 940

/-- REPORT_REQUEST (R365): the eight counters are taken at once. -/
def execReportRequest (s : State) : Out :=
  let fn := s.ev.unit
  let b := s.bar fn
  .next (if 128 < fn ∨ s.ev.data ≠ 1 ∨ b.busy then s
    else
      let counters := (List.range 8).map (fun k => Tab.get s.usage (fn * 8 + k) 0)
      s.putBar fn { b with busy := true, taken := counters ++ [s.nanoseconds, b.nonce.toNat, s.epoch] })

/-- The signed part of a usage report (R365). -/
def reportBytes (fn seq : Nat) (taken : List Nat) : List Byte :=
  bytesOf 4 1 ++ bytesOf 4 (taken.getD 10 0) ++ bytesOf 1 fn ++ bytesOf 7 0
    ++ (List.range 32).map (fun k => (Config.identityHash (taken.getD 10 0)).getD k 0)
    ++ bytesOf 32 (taken.getD 9 0) ++ bytesOf 8 seq ++ (List.range 8).flatMap (fun k => bytesOf 8 (taken.getD k 0))
    ++ bytesOf 8 (taken.getD 8 0)

/-- REPORT_READY (R365): the report appears, signed; none does once the identity key has been erased (R359). -/
def execReportReady (s : State) : Out :=
  let fn := s.ev.unit
  let b := s.bar fn
  .next (if !b.busy ∨ s.erased then s
    else
      let seq := Tab.get s.reportSeq fn 0
      let body := reportBytes fn seq b.taken
      let sig := (List.range 1280).map (fun k => (Config.signature (b.taken.getD 10 0) body).getD k 0)
      { s.putBar fn { b with busy := false, taken := [], report := body ++ sig } with
        reportSeq := Tab.put s.reportSeq fn (seq + 1) })

/-- The identity record of BAR0 (R366). -/
def State.identityRecord (s : State) : List Byte :=
  let ones (n w : Nat) : Nat := ((List.range n).filter (fun k => w / 2 ^ k % 2 == 1)).foldl (fun a k => a + 2 ^ k) 0
  [0x4B, 0x53, 0x4D, 0x51, 0x38, 0x42, 0, 0] ++ bytesOf 1 0xB0 ++ bytesOf 1 (ones 8 (~~~s.cfg.diesOut).toNat)
    ++ bytesOf 2 s.cfg.coresOut.length ++ bytesOf 4 s.cfg.device ++ bytesOf 4 s.epoch ++ bytesOf 2 940
    ++ bytesOf 2 (ones 16 (~~~s.cfg.stacksOut).toNat)
    ++ (List.range 32).map (fun k => (Config.identityHash s.epoch).getD k 0) ++ List.replicate 72 0

/-- A byte of a function's BAR0 as the host reads it (R347). A device whose boot stopped, or whose keys were erased, shows the boot step
alone (R359, R368). -/
def State.barByte (s : State) (fn off : Nat) : Byte :=
  let b := s.bar fn
  let at_ (bs : List Byte) (lo : Nat) : Byte := bs.getD (off - lo) 0
  if s.halted then (if off = 0x280 ∧ fn = 0 then BitVec.ofNat 8 s.bootStep else 0)
  else if 0x40 ≤ off ∧ off < 0x48 then at_ (bytesOf 8 b.statusWord.toNat) 0x40
  else if 0x48 ≤ off ∧ off < 0x50 then at_ (bytesOf 8 b.drops) 0x48
  else if 0x128 ≤ off ∧ off < 0x130 then at_ (bytesOf 8 b.busy.toNat) 0x128
  else if 0x200 ≤ off ∧ off < 0x280 then at_ s.identityRecord 0x200
  else if off = 0x280 ∧ fn = 0 then BitVec.ofNat 8 s.bootStep
  else if 0x1000 ≤ off ∧ off < 0x15A0 then at_ b.report 0x1000
  else 0

/-! ### Host and peer accesses (R351, R353) -/

/-- A party outside the device. -/
def outsideView : View := ⟨⟨0, 0, 0, 0, none⟩, 0, none, 0, 0, 0, []⟩

/-- Whether an address lies in a frame that an index owns (R289, R351): of its last frame the region may fill a part alone. -/
def State.indexFrame (s : State) (pa : Nat) : Bool :=
  s.indexes.any (fun e => e.2.index.any (fun x => x.frames.any (fun f => f ≤ pa && pa < f + 65536)))

/-- HOST_CXL_MEM_ACCESS (R351, R360): under the key of the physical function; one that meets a frame of an index is refused with a
completion error. A read recalls what is registered, and finds what a release at system scope has made visible to the host, or what has
reached it by itself (R187, R204); one that is an acquire finds whatever has been performed (R202). Every reader finds what a write
leaves. The event names the address (`num`) and the length (`idx`); `flag` tells a write, and `unit` an acquire. -/
def execHostCxlMemAccess (s : State) : Out :=
  let pa := s.ev.num
  let n := min s.ev.idx 64
  let key := s.keyFor 0 true pa
  .next (if 2 ^ 40 < pa + n then s
    else if (List.range n).any (fun k => s.indexFrame (pa + k)) then { s with reply := [], replyError := true }
    else if s.ev.flag then { s.hubWrite key pa ((bytesOf 64 s.ev.data.toNat).take n) with replyError := false }
    else
      let s := s.recallIn pa n
      let s := if s.ev.unit = 0 then s else s.readMemWords outsideView true pa n (fun r => r.core.isSome)
      { s with reply := s.seeMem outsideView key true pa n, replyError := false })

/-- FABRIC_PEER_ACCESS (R353): an access or an atomic of a peer, performed at the memory controller on the stored bytes. The
event names the address (`num`) and the length (`idx`). -/
def execFabricPeerAccess (s : State) : Out :=
  let pa := s.ev.num
  let n := min s.ev.idx 64
  let bs := bytesOf 64 s.ev.data.toNat
  let atomic (dword : Bool) (f : Nat → Nat) : State :=
    let k := if dword then 8 else 4
    let old := s.hubRead 0 pa k
    { s.hubWrite 0 pa (bytesOf k (f (natOf old))) with reply := old, replyError := false }
  .next (if 2 ^ 40 < pa + n then s
    else match s.ev.peer with
      | .read => { s.recallIn pa n with reply := s.hubRead 0 pa n, replyError := false }
      | .write => s.hubWrite 0 pa (bs.take n)
      | .atomic fn dword =>
        let k := if dword then 8 else 4
        atomic dword (fun old => amoOp fn k old (s.ev.data.toNat % 2 ^ (8 * k)))
      | .cas dword expected =>
        let m := 2 ^ (8 * (if dword then 8 else 4))
        atomic dword (fun old => if old = expected.toNat % m then s.ev.data.toNat % m else old))

/-- A store of the host, or of a peer, to memory outside the device becomes visible there (R349); what the device has written there is
written back before it, and the older copies that the device's caches keep are stale until an acquire at system scope. It lies in host
memory, or in the memory of one peer (R352). -/
def State.hostStore (s : State) (pa : Nat) (bs : List Byte) : State :=
  let a := s.routed pa
  let n := bs.length
  if isHost pa ∧ isHost (pa + n) ∧ s.routed (pa + n - 1) = a + n - 1 then
    let s := ((s.recallIn a n).noteMem outsideView 0 true .plain a n).physWrite 0 a bs
    { s with now := s.now + 1 }
  else s

/-- The physical address of a write in flight that goes to a peer over the fabric: an untracked store, or an atomic or a `pclr`, which
the peer executes (R353). A tracked store stays in the device. -/
def State.peerStore (s : State) (a : Access) : Option Nat :=
  if !a.op.isStore || a.stuck.isSome then none
  else match (s.translate (s.th.owner.req a.op.kind a.gen) a.va).1 with
    | .ok p => if isPeer p.pa && (!p.tracked || a.op.isLoad || a.op == .pclr) then some p.pa else none
    | .bad _ | .wait => none

/-- The newest write of a word of peer memory, where no release at system scope has had it acknowledged. -/
def State.unacked (s : State) (tracked : Bool) (pa : Nat) : Option Past :=
  if isPeer pa then ((Tab.get s.memPast (pastKey tracked pa) []).head?).filter (fun r => r.far.isNone && r.path.isSome) else none

/-- Such a write is dropped: the word holds what it held before, and no cache of the device keeps it. -/
def State.unwrite (s : State) (tracked : Bool) (pa : Nat) (r : Past) : State :=
  let w := s.wordNow 0 tracked pa
  let s := { s with regs := if tracked then Tab.drop s.regs (pa / 8) else s.regs }
  { s.physWrite 0 (pa / 8 * 8) (bytesOf 8 ((w &&& ~~~(maskBits r.mask)) ||| (r.old &&& maskBits r.mask)).toNat) with
    memPast := Tab.put s.memPast (pastKey tracked pa) ((Tab.get s.memPast (pastKey tracked pa) []).drop 1) }

/-- The thread at hand waits in a release for the acknowledgement of a write that was dropped: it is stopped, and 0x0A is reported with
the system address of the write (R353). -/
def State.tellDropped (s : State) (waits : Bool) (pa : Nat) : State := if waits then s.report 0x0A (s.systemAddress pa) else s

/-- FABRIC_ACK_TIMEOUT (R353): a write to a peer that is not acknowledged is dropped: of the thread on the event's slot a store in
flight; or, with an address (`num`) in peer memory, the newest write of that word, which a release at system scope writes through, or
which an eviction, an engine or an untracked store has sent (`flag` tells tracked). A thread on the event's slot whose release waits for it
is stopped. -/
def execFabricAckTimeout (s0 : State) : Out :=
  let s := s0.focus s0.ev.unit
  let here := s.th.bound && s.th.slot == s0.ev.unit
  let waits (r : Past) : Bool := here && s.th.relWait == some .sys && r.ownOf (s.th.view .core)
  .next (if s0.ev.num ≠ 0 then
      (match s0.unacked s0.ev.flag s0.ev.num with
      | some r =>
        if waits r then (s.unwrite s0.ev.flag s0.ev.num r).tellDropped true s0.ev.num
        else if (Tab.find s0.regs (s0.ev.num / 8)).isSome && s0.ev.flag then s0
        else s0.unwrite s0.ev.flag s0.ev.num r
      | none => s0)
    else if !here then s0
    else match s.th.acc.findSome? (fun a => (s.peerStore a).map (fun pa => (a, pa))) with
      | some (a, pa) => (s.dropAccess a).tellDropped s.th.relWait.isSome pa
      | none => s0)

/-! ### Function-level reset (R355) -/

/-- Every queued launch of a function is discarded and every thread of it, saved ones among them, stopped without a save, as a lost
context is, with all that this frees (R309); nothing is reported and no completion block is updated (R355). -/
def State.stopFunction (s : State) (fn : Nat) : State :=
  let s := { s with launches := s.launches.filter (fun l => l.fn ≠ fn) }
  let slots := (s.threads.filter (fun t => t.ident.vf == fn)).map (·.slot)
  let s := slots.foldl (fun s n => (s.focus n).dropThread) s
  let mine (i : Ident) : Bool := i.vf == fn
  let s := ((s.endClaimsOf mine).freePlaces mine).mapOwners (fun o => if mine o.ident then { o with lost := true } else o)
  { s with
    gangs := s.gangs.filter (fun g => g.fn ≠ fn)
    ghosts := s.ghosts ++ s.gangs.filter (fun g => g.fn == fn) }

/-- Destroys every index of a function (R289, R355). -/
def State.destroyIndexes (s : State) (fn : Nat) : State :=
  s.indexes.foldl (fun s e =>
    match e.2.index with
    | some x => if x.fn = fn then s.destroyIndex (e.1 + 4096 * e.2.gen) x else s
    | none => s) s

/-- FUNCTION_LEVEL_RESET (R355): it takes two steps. The first puts the function in reset, where its window answers -6; the second
stops and frees what the function holds, and ends the reset. -/
def execFunctionLevelReset (s : State) : Out :=
  let fn := s.ev.unit
  .next (if 128 < fn then s
    else if !s.inReset.contains fn then { s with inReset := s.inReset ++ [fn] }
    else
      let s := (s.stopFunction fn).destroyIndexes fn
      let b := s.bar fn
      { s.putBar fn { b with seq := 0, status := 0, id := 0, drops := 0 } with inReset := s.inReset.filter (· ≠ fn) })

/-! ### Alarms (R359) -/

/-- SECURITY_ALARM (R359): Monel learns of it, and the action of its class is taken with the actions above it. The event names
the function, the class (`idx`), the count (`num`) and the instance (`data`). -/
def execSecurityAlarm (s : State) : Out :=
  let fn := s.ev.unit
  let cls := s.ev.idx
  .next (if !(fn ≤ 128 ∧ cls < 7 ∧ s.budget fn cls + 64 < s.ev.num) then s
    else
      let action := s.cfg.alarms.getD cls 0
      let s := { s with monel := s.monel ++ [⟨.alarm, ⟨fn, 0, 0, 0, none⟩, [cls, s.ev.data.toNat, fn, s.ev.num, s.period]⟩] }
      let s := if 1 ≤ action then { s with quarantined := fn :: s.quarantined.filter (· ≠ fn) }.stopFunction fn else s
      let s := if 2 ≤ action then { s with keyEpoch := Tab.put s.keyEpoch fn (Tab.get s.keyEpoch fn 0 + 1) } else s
      if 3 ≤ action then
        { s with halted := true, erased := true, keyEpoch := (List.range 129).map (fun v => (v, Tab.get s.keyEpoch v 0 + 1)) }
      else s)

/-- QUARANTINE_LIFT (R359). -/
def execQuarantineLift (s : State) : Out := .next { s with quarantined := s.quarantined.filter (· ≠ s.ev.unit) }

/-! ### Identity and boot (R367, R368) -/

/-- IDENTITY_ROTATION (R367): on a command signed with the owner key, a new key pair, a new epoch, and usage counters of 0. -/
def execIdentityRotation (s : State) : Out :=
  .next (if s.ev.flag then { s with epoch := s.epoch + 1, usage := [], erased := false } else s)

/-- Highest number of a device in a system (R354). -/
def lastDevice : Nat := 262143

/-- Whether a configuration record keeps the rules of R148, R352, R354 and R357. -/
def recordOk (r : ConfigRecord) : Bool :=
  r.device ≤ lastDevice && r.routes.all (fun e => e.1 ≤ lastDevice && e.2 < 12) && r.peers.length ≤ 64
    && r.budgets.all (fun e => e.1 < 903 && e.2 ≤ 7520) && (List.range 7).all (fun c => budgetSum r.budgets c ≤ 7520)
    && r.weights.all (fun e => e.1 ≤ 128 && 1 ≤ e.2 && e.2 ≤ 255)

/-- The device as a boot finds it: everything is as after a reset, but for what memory holds, the configuration of the last boot, the
identity, the usage counters and what a boot does not erase (R364, R366, R368). -/
def State.offline (s : State) : State :=
  { State.reset with
    cfg := s.cfg, mem := s.mem, keys := s.keys, tags := s.tags, poison := s.poison, bad := s.bad, weak := s.weak
    agenda := s.agenda, ev := s.ev, draw := s.draw, usage := s.usage, epoch := s.epoch, erased := s.erased, keyEpoch := s.keyEpoch
    reportSeq := s.reportSeq, monel := s.monel }

/-- Step 4 of the boot: device memory is zeroed, and the record's tables and addresses are in force (R368). -/
def State.zeroed (s : State) (r : ConfigRecord) : State :=
  { s.offline with
    cfg := r, mem := s.mem.filter (fun e => isOutside e.1), keys := [], tags := [], poison := [], bad := [], weak := [] }

/-- The device brought up with a configuration record: its weights and budgets are loaded (R148, R357, R368). -/
def State.bringUp (s : State) (r : ConfigRecord) : State :=
  let table (l : List (Nat × Nat)) : Tab Nat := l.foldl (fun t e => Tab.put t e.1 e.2) []
  { s.zeroed r with weights := table r.weights, budgets := table r.budgets, nextBudgets := table r.budgets }

/-- What a boot that fails at a step has done before it: the record is read in step 3, memory is zeroed in step 4, and the firmware and
the tables are loaded in step 5 (R368). -/
def State.stopped (s : State) (step : Nat) (r : ConfigRecord) : State :=
  if step ≤ 3 then s.offline else if step = 4 then { s.offline with cfg := r } else if step = 5 then s.zeroed r else s.bringUp r

/-- A boot that may fail at a step, at the third where the record breaks a rule: the device then answers only configuration reads
(R368). -/
def State.bootWith (s : State) (fail : Nat) (r : ConfigRecord) : State :=
  let step := if 1 ≤ fail ∧ fail ≤ 3 then fail else if !recordOk r then 3 else if fail ≤ 6 then fail else 0
  if step = 0 then s.bringUp r else { s.stopped step r with halted := true, bootStep := step }

/-- BOOT (R368): from power-on. -/
def execBoot (s : State) : Out := .next (s.bootWith s.ev.num s.ev.cfg)

/-- CONVENTIONAL_RESET (R346, R274, R347): every index slot is empty at its first generation, every window status is reset, and the
device is brought up again. -/
def execConventionalReset (s : State) : Out := .next (s.bootWith s.ev.num s.ev.cfg)

/-! ### Cores (R162, R174, R309, R310) -/

/-- Stops the gang of an identity with completion code -3 (R309). -/
def State.stopLost (s : State) (i : Ident) : State :=
  match s.gangOf i with
  | some g => s.stopGang g (-3)
  | none => s

/-- CORE_FAILURE (R174, R309): the context of every thread on the core is lost, and Monel learns of each, with 0 for an address (DESIGN
CHOICE, the log's entry 66); the words that the core still
holds registered are poisoned, and Monel learns of each with its VA. Which words it had evicted before is a free choice. -/
def execCoreFailure (s : State) : Out :=
  let core := s.ev.unit
  let lost := s.threads.filter (fun t => coreOf t.slot == core)
  let s := { s with monel := s.monel ++ lost.map (fun t => (⟨.lost, t.ident, [3, 0]⟩ : MonelReport)) }
  let s := lost.foldl (fun s t => s.stopLost t.ident) s
  let words (s : State) : Tab Registered := s.regs.filter (fun e => e.2.core == some core)
  let s := (words s).foldl (fun s e => let (gone, s) := s.drawBit; if gone then s.toSlice e.1 else s) s
  let held := words s
  let s := held.foldl (fun s e => s.settleMem (8 * e.1) 8) s
  .next { s with
    poison := held.foldl (fun t e => Tab.put t (8 * e.1) true) s.poison
    regs := s.regs.filter (fun e => e.2.core ≠ some core)
    monel := s.monel ++ held.map (fun e => (⟨.poison, ⟨0, 0, 0, 0, none⟩, [e.2.va, core]⟩ : MonelReport)) }

/-- Key in `loc` of a core's scratchpad. -/
def padKey (core : Nat) : Nat := 0x100000000 + core * 0x60000

/-- A core's scratchpad, made zero. -/
def State.zeroPad (s : State) (core : Nat) : State :=
  { s with loc := Memory.clear s.loc (padKey core) 0x60000 }.settleLoc (padKey core) 0x60000

/-- CORE_OUT_OF_SERVICE (R152, R162): a core with no thread bound leaves service; its scratchpad is lost. -/
def execCoreOutOfService (s : State) : Out :=
  let core := s.ev.unit
  .next (if 1280 ≤ core ∨ s.cfg.coresOut.contains core ∨ s.threads.any (fun t => coreOf t.slot == core) then s
    else { s.zeroPad core with
      cfg := { s.cfg with coresOut := s.cfg.coresOut ++ [core] }
      monel := s.monel ++ [⟨.core, ⟨0, 0, 0, 0, none⟩, [core]⟩] })

/-- CORE_RETURN_TO_SERVICE (R310): Monel has zeroed the core's scratchpad. -/
def execCoreReturnToService (s : State) : Out :=
  let core := s.ev.unit
  .next (if s.cfg.coresOut.contains core then
      { s.zeroPad core with cfg := { s.cfg with coresOut := s.cfg.coresOut.filter (· ≠ core) } }
    else s)

/-! ### Upcalls -/

/-- UPCALL_DELIVERY (R20, R22): what is due at the boundary of a running thread is taken. -/
def execUpcallDelivery (s0 : State) : Out :=
  let s := s0.focus s0.ev.unit
  .next (if s.th.bound && s.th.slot == s0.ev.unit && s.th.phase == .running && s.th.ixReq.isNone && s.th.redo.isEmpty && s.boundaryDue then
      s.boundary
    else s0)

/-! ### What no row of the opcode table names -/

/-- A table of peer windows with one of its 64 entries written; entries between that none has written map nothing (R352). -/
def putWindow (ws : List PeerWindow) (k : Nat) (w : PeerWindow) : List PeerWindow :=
  (ws ++ List.replicate (k + 1 - ws.length) (⟨0, 0, 0, 0⟩ : PeerWindow)).set k w

/-- A bit of a 32-byte word fails (R249): the check column corrects one, and two cannot be corrected. -/
def State.bitError (s : State) (pa bit : Nat) : State :=
  let u := pa / 32
  match Tab.find s.weak u with
  | none => if (Tab.find s.bad (32 * u)).isSome then s else { s with weak := Tab.put s.weak u bit }
  | some b => if b = bit then s else { s with weak := Tab.drop s.weak u, bad := Tab.put s.bad (32 * u) true }

/-- What the world outside does (R148, R150, R249, R349, R352). -/
def State.outside (s : State) (o : Outside) : State :=
  match o with
  | .weight fn w => if fn ≤ 128 ∧ 1 ≤ w ∧ w ≤ 255 then { s with weights := Tab.put s.weights fn w } else s
  | .peerWindow k w =>
    if k < 64 ∧ w.device ≤ lastDevice then { s with cfg := { s.cfg with peers := putWindow s.cfg.peers k w } } else s
  | .portStore die second v => s.portStore die second v
  | .hostStore pa bs => s.hostStore pa bs
  | .bitError pa bit => s.bitError pa bit
  | .localError key => { s with badLoc := Tab.put s.badLoc key true }

end Sys2Proof.Machine
end

