-- ==== Sys2Proof/Machine/Privileged.lean ====
section
/-!
DEFINITION. Sys2Proof/Machine/Privileged.lean: the instructions of system software over poisoned words and page tables
(R311, R319 to R324), the notices of generations (R317) and the write-back scanner (R323).
-/
namespace Sys2Proof.Machine

/-! ### pclr -/

/-- PCLR (R44, R311): it orders and counts as a plain store. -/
def execPclr (a : Reg) (s : State) : Out :=
  let va := (s.getX a).toNat
  .next (if !s.th.sys then s.trapWord 0x03 (.pclr a)
    else match globalCheck va 8 with
      | some (c, q) => s.trap c q
      | none => s.issueWhenFree (Access.of .pclr va .plain false 0 0 0) [])

/-! ### What slices and caches drop (R317, R322) -/

/-- The entries that a walk of an address meets in memory, from the table at `table` down (R312). -/
def State.pathFrom (s : State) (va table : Nat) : Nat → List Nat
  | 0 => []
  | n + 1 =>
    let e := table + 8 * (va / 2 ^ (16 + 10 * n) % 1024)
    let w := s.entryAt e
    e :: (if pteP w && tableOk w then s.pathFrom va (pteTable w) n else [])

/-- The entries of a page: the root's, and those of each level. -/
def State.pathOf (s : State) (fn va : Nat) : List Nat :=
  let root := s.cfg.rootTable + 8 * fn
  let w := s.entryAt root
  root :: (if w.getLsbD 0 then s.pathFrom va (pteTable w) 4 else [])

/-- The entries of the group that an entry belongs to, where it holds `w`. -/
def groupAround (e : Nat) (w : Word) : List Nat :=
  let n := if pteLeaf w then groupLen w else 1
  (List.range n).map (fun k => e / (8 * n) * (8 * n) + 8 * k)

/-- What an entry holds, in memory and in every walk buffer (R317). -/
def State.heldAs (s : State) (e : Nat) : List Word :=
  s.entryAt e :: (s.walk.filter (fun l => l.1 % 2 ^ 40 == e)).map (·.2)

/-- The entries of the groups that an entry belongs to, as memory or a walk buffer has it. -/
def State.groupEntries (s : State) (e : Nat) : List Nat := (s.heldAs e).flatMap (groupAround e)

/-- Function of a cached translation's key. -/
def tlbFn (k : Nat) : Nat := k / 2 ^ 40 / 4 % 129

/-- Whether a cached translation's key covers a page. -/
def tlbCovers (fn va k : Nat) : Bool :=
  let size := k / 2 ^ 40 % 4
  tlbFn k == fn && k % 2 ^ 40 == va / (if size = 1 then 0x200000 else if size = 2 then 0x40000000 else 0x10000)

/-- Drops, in every slice, the walk-buffer lines that hold any of these entries. -/
def State.dropLines (s : State) (es : List Nat) : State :=
  { s with walk := s.walk.filter (fun e => !(es.any (fun p => p / 64 == e.1 % 2 ^ 40 / 64))) }

/-- Writes back and drops every line and every registered word of a range of memory, in every slice and L1 (R322): tracked readers see
what memory holds. -/
def State.flushRange (s : State) (lo n : Nat) : State :=
  let lo := s.routed lo
  let u := s.recallIn lo n
  { u with memPast := u.memPast.filter (fun e => !(e.1 % 2 == 1 && lo / 8 ≤ e.1 / 2 && e.1 / 2 < (lo + n) / 8)) }

/-- The leaves through which a page is, or may still be, translated: their frames are what a flush writes back. Of a page that has none,
neither present in the tables nor cached, a flush writes nothing back (DESIGN CHOICE, the log's entry 66). -/
def State.leavesOf (s : State) (fn va : Nat) : List Word :=
  (s.tlb.filter (fun e => tlbCovers fn va e.1)).map (fun e => e.2.leaf)
    ++ ((s.pathOf fn va).map s.entryAt).filter (fun w => pteP w && pteLeaf w)

/-- Drops the translation of one page, or of the group that holds it, everywhere, with the walk-buffer lines of its entries
(R322). -/
def State.dropPage (s : State) (fn va : Nat) : State :=
  let gone := s.tlb.filter (fun e => tlbCovers fn va e.1)
  let lines := (s.pathOf fn va).flatMap s.groupEntries ++ gone.flatMap (fun e => groupAround e.2.first e.2.leaf)
  { s with tlb := s.tlb.filter (fun e => !tlbCovers fn va e.1) }.dropLines lines

/-- Every slice and L1 drops the frames or groups of some leaves (R322). -/
def State.flushLeaves (s : State) (ws : List Word) : State := ws.foldl (fun s w => s.flushRange (ptePa w) (leafBytes w)) s

/-! ### pinv -/

/-- Whether an NMU still has frames that it has translated by the translations of a condition: for a message that waits, or for a handler
that runs or has stopped and may go on (R261, R267, R322). -/
def State.nmHolds (s : State) (p : NmMsg → Bool) : Bool :=
  s.nmus.any (fun e =>
    e.2.queue.any (fun m => !m.frames.isEmpty && p m) || e.2.run.any (fun h => !h.msg.frames.isEmpty && p h.msg))

/-- The bytes that one translation of a page covers: its own, or its group's, as the tables or a slice have it. -/
def State.spanOf (s : State) (fn va : Nat) : Nat :=
  (s.leavesOf fn va).foldl (fun n w => max n (leafBytes w)) 65536

/-- The messages whose frames were translated through what a `pinv` of a kind drops. -/
def State.translatedBy (s : State) (kind fn va : Nat) (m : NmMsg) : Bool :=
  match kind with
  | 0 =>
    let n := s.spanOf fn va
    m.owner.ident.vf == fn && va / n * n < m.region + 65536 * m.n && m.region < va / n * n + n
  | 1 => m.owner.ident.vf == fn
  | _ => true

/-- What `pinv` drops: of a function, every line of the walk buffers, which keep a line as long as they like (R317, R322). -/
def State.dropKind (s : State) (kind fn va : Nat) : State :=
  match kind with
  | 0 => s.dropPage fn va
  | 1 => { s with tlb := s.tlb.filter (fun e => tlbFn e.1 ≠ fn), walk := [] }
  | _ => { s with tlb := [], walk := [] }

/-- Whether the descriptor of a `pinv` is refused (R322). -/
def pinvBad (n : Nat) : Bool :=
  fld n 3 13 != 0 || 128 < fld n 56 8 || fld n 0 2 == 3 || (fld n 0 2 != 0 && (fld n 2 1 == 1 || fld n 16 40 != 0))

/-- PINV (R44, R322): behind its release it drops translations, and waits, without being interrupted, for what was translated by them;
the frames of running handlers are all that stays between a translation and its use. -/
def execPinv (a : Reg) (s : State) : Out :=
  let n := (s.getX a).toNat
  let kind := fld n 0 2
  let fn := fld n 56 8
  let va := fld n 16 40 * 65536
  .next (if !s.th.sys then s.trapWord 0x03 (.pinv a)
    else if pinvBad n then s.trapWord 0x02 (.pinv a)
    else s.afterRelease .dev (fun s =>
      let leaves := s.leavesOf fn va
      if s.nmHolds (s.translatedBy kind fn va) then s.stallWith []
      else
        let s := s.dropKind kind fn va
        (if fld n 2 1 = 1 then s.flushLeaves leaves else s).retire 4))

/-! ### pgen (R320) -/

/-- Sends a notice of the device generation to every slice of every die. -/
def State.sendNotices (s : State) : State := { s with genSent := (List.range 1280).map (fun k => (k, s.gd)) }

/-- Whether a generation is newer than another (R320, R321). -/
def newer (g old : BitVec 32) : Bool := 1 ≤ (g - old).toNat && (g - old).toNat ≤ 2 ^ 31 - 1

/-- What a `pgen` does at the hub: a newer generation becomes the device's, and a notice of it goes to every slice (R320). -/
def State.publish (s : State) (g : BitVec 32) : State := { s with gd := if newer g s.gd then g else s.gd }.sendNotices

/-- PGEN (R44, R320). -/
def execPgen (a : Reg) (s : State) : Out :=
  .next (if !s.th.sys then s.trapWord 0x03 (.pgen a)
    else if 2 ^ 32 ≤ (s.getX a).toNat then s.trapWord 0x02 (.pgen a)
    else s.afterRelease .dev (fun s => (s.publish ((s.getX a).setWidth 32)).retire 4))

/-- GENERATION_NOTICE (R317): a newer generation empties the slice's walk buffer. -/
def execGenerationNotice (s : State) : Out :=
  let k := s.ev.unit
  .next (match Tab.find s.genSent k with
    | none => s
    | some g =>
      let s := { s with genSent := Tab.drop s.genSent k }
      if newer g (Tab.get s.gs k 0) then
        { s with gs := Tab.put s.gs k g, walk := Tab.dropRange s.walk (k * 2 ^ 40) (2 ^ 40) }
      else s)

/-! ### The scanner (R323) -/

/-- The level-0 entry of a page as a die's scanner finds it by a walk; one that breaks R314 Monel learns of, with the die in place of a
thread. -/
def State.scanLeaf (s : State) (die fn va : Nat) : Option Nat × State :=
  match s.walkVa (die * 160 + homeSlice va) fn va true with
  | (.leaf _ e _, s) => (some e, s)
  | (.absent, s) => (none, s)
  | (.broken e level, s) => (none, { s with monel := s.monel ++ [⟨.scanEntry, ⟨0, 0, 0, 0, none⟩, [e, level, fn, va, die]⟩] })

/-- SCANNER_PAGE (R323): steps 1 to 3 for a page of the scanner's range; as a `pinv` does, it waits for what NMUs still do through the
page's translation. The event names the die, the function (`idx`) and
the page (`num`). -/
def execScannerPage (s : State) : Out :=
  let die := s.ev.unit
  let fn := s.ev.idx
  let va := s.ev.num / 65536 * 65536
  .next (match s.scanLeaf die fn va with
    | (none, s) => s
    | (some e, s) =>
      let w := s.entryAt e
      if pteP w && pteLeaf w && pteFile w && pteD w && !pteWb w && s.scans.all (fun x => x.1 ≠ die)
          && !s.nmHolds (s.translatedBy 0 fn va) then
        let leaves := s.leavesOf fn va
        let s := ((s.putEntry e ((w &&& ~~~0x10#64) ||| (1#64 <<< 57))).dropPage fn va).flushLeaves leaves
        { s with scans := s.scans ++ [(die, fn, va)] }
      else s)

/-- SCANNER_WRITE_DONE (R323): step 4. The page's translation and its lines are dropped, for a store afterwards sets D again; an entry
that is no longer present is left as it is. -/
def execScannerWriteDone (s : State) : Out :=
  .next (match s.scans.find? (fun x => x.1 == s.ev.unit) with
    | none => s
    | some (die, fn, va) =>
      match { s with scans := s.scans.filter (fun x => x.1 ≠ die) }.scanLeaf die fn va with
      | (none, s) => s.publish 0
      | (some e, s) =>
        let w := s.entryAt e
        let s := if pteP w && pteWb w then s.putEntry e ((w ||| 0x10#64) &&& ~~~(0x100#64 ||| (1#64 <<< 57))) else s
        (s.dropPage fn va).publish 0)

/-! ### pswap (R324) -/

/-- The address that an exchange of two frames gives a byte of either. -/
def swapAddr (p q a : Nat) : Nat :=
  if p ≤ a ∧ a < p + 65536 then a - p + q else if q ≤ a ∧ a < q + 65536 then a - q + p else a

/-- A table whose entries stand at multiples of `unit` bytes, with the entries of two frames exchanged. -/
def swapTab {α : Type} (t : Tab α) (p q unit : Nat) : Tab α :=
  let moved (e : Nat × α) : Bool := decide (swapAddr p q (e.1 * unit) ≠ e.1 * unit)
  (t.filter moved).foldl (fun r e => Tab.put r (swapAddr p q (e.1 * unit) / unit) e.2) (t.filter (fun e => !moved e))

/-- Exchanges the data of two frames: data, check and tag columns and poison marks (R324). Host memory has no tags and is in clear. -/
def State.swapFrames (s : State) (p q : Nat) : State :=
  let a := Memory.slice s.mem p 65536
  let b := Memory.slice s.mem q 65536
  let mem := Memory.place (Memory.place s.mem p 65536 b) q 65536 a
  let move (m : NmMsg) : NmMsg := { m with frames := m.frames.map (swapAddr p q) }
  { s with
    mem := mem
    keys := (swapTab s.keys p q 32).filter (fun e => isDevice (e.1 * 32))
    tags := (swapTab s.tags p q 1024).filter (fun e => isDevice (e.1 * 1024))
    poison := swapTab s.poison p q 1
    bad := swapTab s.bad p q 1
    weak := swapTab s.weak p q 32
    indexes := s.indexes.map (fun e => (e.1, { e.2 with index := e.2.index.map (fun x =>
      { x with frames := x.frames.map (swapAddr p q) }) }))
    nmus := s.nmus.map (fun e =>
      (e.1, { e.2 with queue := e.2.queue.map move, run := e.2.run.map (fun h => { h with msg := move h.msg }) })) }

/-- The 8-byte entries of a table that are not all zero. -/
def State.entriesIn (s : State) (table : Nat) : List Nat :=
  let inside (e : Nat) : Bool := table ≤ e && e < table + 8192
  ((s.mem.map (fun (c : Host.Cell) => c.1 / 8 * 8) ++ s.regs.map (fun (e : Nat × Registered) => e.1 * 8)).filter inside).eraseDups

/-- The tables `n` levels below some tables (R312). -/
def State.tablesUnder (s : State) : Nat → List Nat → List Nat
  | 0, ts => ts
  | n + 1, ts => s.tablesUnder n (ts.flatMap (fun t => (s.entriesIn t).filterMap (fun e =>
      let w := s.entryAt e
      if pteP w && tableOk w then some (pteTable w) else none)))

/-- The function in whose tables a level-0 entry stands (R312). -/
def State.holderOf (s : State) (entry : Nat) : Option Nat :=
  (List.range 129).find? (fun fn =>
    let root := s.entryAt (s.cfg.rootTable + 8 * fn)
    root.getLsbD 0 && (s.tablesUnder 3 [pteTable root]).contains (entry / 8192 * 8192))

/-- The key under which the swap engine moves the frame of a leaf: that of its function where it is tracked in device memory (R324,
R360). -/
def State.frameKey (s : State) (leaf : Word) (fn : Option Nat) (pa : Nat) : Nat :=
  match fn with
  | some f => s.keyFor f (pteTracked leaf) pa
  | none => 0

/-- Puts every unit of a frame under a key: for key 0 the units of other keys alone differ. -/
def State.rekeyFrame (s : State) (key pa : Nat) : State :=
  if key = 0 then s.rawRange pa 65536
  else (List.range 2048).foldl (fun s k => s.rekey key (pa / 32 + k)) s

/-- Marks every unit of a frame as standing under a key. -/
def State.markFrame (s : State) (key pa : Nat) : State :=
  if key = 0 then { s with keys := Tab.dropRange s.keys (pa / 32) 2048 }
  else { s with keys := (List.range 2048).foldl (fun t k => Tab.put t (pa / 32 + k) key) s.keys }

/-- Exchanges the frames of two leaves of functions `fp` and `fq`: each tracked frame is decrypted and encrypted again for its new place,
and every other is moved as it is stored (R324, R360). -/
def State.exchange (s : State) (u v : Word) (fp fq : Option Nat) : State :=
  let p := s.routed (ptePa u)
  let q := s.routed (ptePa v)
  let s := (s.rekeyFrame (s.frameKey u fp p) p).rekeyFrame (s.frameKey v fq q) q
  let s := ((s.swapFrames p q).settleMem p 65536).settleMem q 65536
  (s.markFrame (s.frameKey u fp q) q).markFrame (s.frameKey v fq p) p

/-- A leaf with another frame. -/
def setPa (w : Word) (pa : Nat) : Word :=
  (w &&& ~~~(0xFFFFFFFFFF#64 <<< 16)) ||| BitVec.ofNat 64 (pa / 65536 * 65536)

/-- Whether a frame of device memory bears a tag other than 0. -/
def State.tagged (s : State) (pa : Nat) : Bool := isDevice pa && s.tags.any (fun e => pa / 1024 ≤ e.1 && e.1 < pa / 1024 + 64 && e.2 ≠ 0)

/-- The first failing check of `pswap` on a leaf's address (R324). -/
def State.swapFault (s : State) (p : Nat) : Option (Nat × Nat) :=
  if p % 8 ≠ 0 ∨ !isDevice p then some (0x04, p)
  else
    let w := s.entryAt p
    if !pteP w ∨ !pteLeaf w ∨ pteSize w ≠ 0 then some (0x07, p) else none

/-- The exchange of two leaves' frames and of their pa fields (R324). -/
def State.swapLeaves (s : State) (p q : Nat) : State :=
  let u := s.entryAt p
  let v := s.entryAt q
  let s := { s with tlb := s.tlb.filter (fun e => e.2.entry ≠ p && e.2.entry ≠ q) }.dropLines [p, q]
  let s := (s.flushRange (ptePa u) 65536).flushRange (ptePa v) 65536
  let s := s.exchange u v (s.holderOf p) (s.holderOf q)
  (s.putEntry p (setPa u (ptePa v))).putEntry q (setPa v (ptePa u))

/-- PSWAP (R44, R324): the exchange is one step. For the refusal 0x15 the spec states no qualifier: it is a free value. -/
def execPswap (a b : Reg) (s : State) : Out :=
  let p := (s.getX a).toNat
  let q := (s.getX b).toNat
  .next (if !s.th.sys then s.trapWord 0x03 (.pswap a b)
    else match s.swapFault p, s.swapFault q with
      | some (c, v), _ => s.trap c v
      | none, some (c, v) => s.trap c v
      | none, none =>
        let u := ptePa (s.entryAt p)
        let v := ptePa (s.entryAt q)
        if u = v then s.trap 0x07 q
        else s.afterRelease .dev (fun s =>
          if (isHost u && s.tagged v) || (isHost v && s.tagged u) then
            let (n, s) := s.drawNat
            s.trap 0x15 n
          else (s.swapLeaves p q).retire 4))

end Sys2Proof.Machine
end

