-- ==== Sys2Proof/Machine/Streams.lean ====
section
/-!
DEFINITION. Sys2Proof/Machine/Streams.lean: the stream instructions (R108 to R112) and the table query on a local table
(R114 to R116).
-/
namespace Sys2Proof.Machine

/-- A stream as its 16-byte record lays it out, bound at a stamp; none for a record that R111 refuses (R108). -/
def streamRecord (bs : List Byte) (since : Nat) : Option Stream :=
  let base := natOf (bs.take 4)
  let limit := natOf ((bs.drop 4).take 4)
  let stride := natOf ((bs.drop 8).take 4)
  let ty := natOf ((bs.drop 12).take 1)
  let dir := natOf ((bs.drop 13).take 1)
  let reserved := natOf ((bs.drop 14).take 2)
  if h : ty < 7 ∧ dir < 3 then
    let ws := streamBytes ⟨ty, by omega⟩
    if reserved = 0 ∧ base % ws = 0 ∧ stride % ws = 0 then
      some ⟨BitVec.ofNat 32 base, ⟨ty, by omega⟩, BitVec.ofNat 32 limit, BitVec.ofNat 32 stride, 0, ⟨dir, by omega⟩, since⟩
    else none
  else none

/-- SBIND (R110): an already bound stream and a refused record raise 0x0D; a misaligned or missing record is not read. A block
that the stream reads holds what its bytes hold from here on (R113). -/
def execSbind (k : Fin 4) (a : Reg) (s : State) : Out :=
  let la := (s.getX a).toNat
  .next (if s.th.streams[k].isSome then s.trap 0x0D k.val
    else if la % 16 ≠ 0 then s.trap 0x04 la
    else match s.localFault s.th.owner la 16 with
      | some (c, q) => s.trap c q
      | none => s.whenFree (fun s =>
        match streamRecord (s.seeLoc (s.th.view .core) la 16) s.now with
        | none => s.trap 0x0D k.val
        | some st => (s.setStream k (some st)).retire 4))

/-- SEOS (R110): the position stays. -/
def execSeos (k : Fin 4) (a : Reg) (s : State) : Out :=
  .next (match s.th.streams[k] with
    | none => s.trap 0x0D k.val
    | some st => (s.setStream k (some { st with limit := (s.getX a).setWidth 32 })).retire 4)

/-- SSTAT (R110). -/
def execSstat (d : Reg) (k : Fin 4) (s : State) : Out :=
  .next (match s.th.streams[k] with
    | none => s.trap 0x0D k.val
    | some st => s.result d (st.pos.setWidth 64))

/-- SUNBIND (R110): the register reads 0 afterwards. Whether that makes it live (R123) the spec does not say: it does not (DESIGN
CHOICE, the log's entry 64). -/
def execSunbind (k : Fin 4) (s : State) : Out :=
  .next (match s.th.streams[k] with
    | none => s.trap 0x0D k.val
    | some _ =>
      let s := s.setStream k none
      { s with th := { s.th with f := s.th.f.set (streamReg k) 0 } }.retire 4)

/-- The entry that index `k` selects in a table of `last + 1` entries of `n` bytes, as the thread's core path sees it (R114, R116). -/
def State.tableEntry (s : State) (base last n k : Nat) : Nat := s.seeNat (s.th.view .core) (base + min k last * n) n

/-- TQL (R114 to R116): a malformed descriptor is refused first, then a misaligned base, then a table outside its level. -/
def execTql (d a b : Reg) (s : State) : Out :=
  let x := (s.getX b).toNat
  let base := fld x 0 32
  let last := fld x 32 12
  let iw := fld x 44 2
  let ew := fld x 46 2
  .next (match s.wrongWay [a] [d] with
    | some k => s.trap 0x0D k
    | none =>
      if fld x 48 16 ≠ 0 ∨ ew = 3 ∨ iw = 3 then s.trap 0x0E base
      else
        let n := 2 ^ ew
        if base % n ≠ 0 then s.trap 0x04 base
        else match firstFault [s.localFault s.th.owner base ((last + 1) * n), s.blockFault [a, d]] with
          | some (c, q) => s.trap c q
          | none => s.whenFree (fun s =>
            let v := s.operand a
            let entries := (lanes (8 * 2 ^ iw) (256 / max (8 * 2 ^ iw) (8 * n)) v).map (s.tableEntry base last n)
            ((s.writeF d (ofLanes (8 * n) entries)).advanceStreams [a, d]).retire 4))

end Sys2Proof.Machine
end

