-- ==== Sys2Proof/Machine/Issue.lean ====
section
/-!
DEFINITION. Sys2Proof/Machine/Issue.lean: which turns may come next (R18 and the agents that act on their own), what comes
before an instruction's own effect (R17, R20, R26, R301), the fetch of a microinstruction (R260), and where a test lays an
instruction down.
-/
namespace Sys2Proof.Machine

/-! ### Which slot issues (R18) -/

/-- Whether a thread's rival has retired all it may in this round (R329, R330). -/
def State.spent (s : State) (t : Thread) : Bool :=
  match t.ident.rival, s.launchOf t.ident.vf t.ident.launch with
  | some k, some l => (l.rivals[k]?).any l.exhausted
  | _, _ => false

/-- Whether a thread is at a boundary that it may pass: it runs, and it is not blocked in a wait unless something is due
there that ends the wait (R18, R118, R182, R230, R303); one whose rival has spent its allowance issues nothing any more, but it still
stops, and sends its records again (R329, R330). While a division or the delivery of an upcall occupies a slot it issues nothing
(R75). -/
def State.canIssue (s : State) (t : Thread) : Bool :=
  t.bound && (t.phase == .running || t.phase == .requested) && !t.stalled && !t.occupied && (!s.spent t || t.mayStop || !t.redo.isEmpty)
    && ((t.swWait.isNone && t.mma.isNone) || t.due || t.mayStop)

/-- Whether the rows of the `mma` that a thread waits in may go on (R230): all of them would retire it. -/
def State.rowsRun (s : State) (t : Thread) : Bool :=
  t.bound && t.mma.isSome && (t.phase == .running || t.phase == .requested) && !s.spent t

/-- The threads of a core that can issue. -/
def State.readyOn (s : State) (core : Nat) : List Thread := s.threads.filter (fun t => coreOf t.slot == core && s.canIssue t)

/-- Whether one thread issues before another: the one that issued less recently, then the lower slot (R18). -/
def Thread.before (t u : Thread) : Bool := t.lastIssue < u.lastIssue || (t.lastIssue == u.lastIssue && t.slot ≤ u.slot)

/-- The slot that a core issues from (R18). -/
def State.pickSlot (s : State) (core : Nat) : Option Nat :=
  match s.readyOn core with
  | [] => none
  | t :: r => some (r.foldl (fun b u => if b.before u then b else u) t).slot

/-! ### What a core does before an instruction's effect -/

/-- What comes of a core's turn before an instruction has its effect. -/
inductive Issue where
  /-- something else happened at the boundary -/
  | done (s : State)
  /-- an instruction has its effect now -/
  | run (i : Instr) (s : State)

/-- The cause of a word that is no instruction (R26). -/
def decodeCauseOf : DecodeError → Nat
  | .illegal => 0x01
  | .reserved => 0x02
  | .short => 0x01

/-- Whether an instruction raises 0x01 to 0x03, which come before the 0x12 of a full packet (R20). -/
def State.decodeCause (s : State) (i : Instr) : Bool :=
  match i with
  | .udf _ => true
  | .pswap _ _ | .pclr _ | .nmload _ | .ixcreate _ _ => !s.th.sys
  | .pinv a => !s.th.sys || pinvBad (s.getX a).toNat
  | .pgen a => !s.th.sys || decide (2 ^ 32 ≤ (s.getX a).toNat)
  | .srd _ n => (s.srRead n.val).isNone
  | .swr n a => (s.th.srWrite n.val (s.getX a)).isNone
  | .uret | .uretReplay => !s.th.uact
  | .modifierWord m w => s.badModified m w
  | _ => false

/-- The thread at hand at its next boundary: a stop (R304), what a replay has still to send (R301) or to perform, before which the
instruction at the PC does not issue (R300), an `ixcreate` that waits (R289), what is due (R20), and else the fetch, the decode causes, the registers still in flight
(R84) and the limit of an open packet (R142). Where the spec does not say, a turn that ends before an instruction has its
effect does not count as the slot's issue (R18), and the 0x12 of a full packet comes before a 0x11 (R20) (DESIGN CHOICE, the log's
entry 64). -/
def State.prepare (s : State) : Issue :=
  if s.th.mayStop then .done s.threadStop
  else if !s.th.redo.isEmpty then
    let s := s.pump s.th.redo
    .done (if s.th.redo.isEmpty then s else s.stall)
  else if s.spent s.th then .done s.stall
  else if s.th.acc.any (fun a => a.gen.isSome && a.stuck.isNone) then .done s.stall
  else if s.th.ixReq.isSome then (match s.th.ixRegs with | some (d, a) => .run (.ixcreate d a) s | none => .done s.stall)
  else if s.boundaryDue then .done s.boundary
  else match s.fetch with
    | (.error (c, q), s) => .done (s.trap c q)
    | (.ok w, s) =>
      match decode w with
      | .error e => .done (s.trap (decodeCauseOf e) (w % 2 ^ 32))
      | .ok i =>
        match s.interlock i with
        | .stall => .done s.stall
        | .taken s => .done s
        | .go => if s.packetFull i && !s.decodeCause i then .done (s.trapWord 0x12 i) else .run i s

/-- Cycles that have passed at least since the core last issued: a core issues once in a cycle (R18). -/
def State.coreWait (s : State) (core : Nat) : Nat :=
  (s.threads.any (fun t => coreOf t.slot == core && t.lastIssue == s.clock + 1)).toNat

/-- After an instruction of the thread on a slot: the slot has issued in this cycle, unless the instruction only waits (R18, R118). -/
def State.issued (s : State) (slot : Nat) : State :=
  if s.th.bound && s.th.slot == slot && !s.th.stalled && s.th.swWait.isNone then
    { s with th := { s.th with lastIssue := s.clock + 1 } }
  else s

/-- Whether an instruction occupies its slot for more than its own cycle: a division (R75). -/
def isDivision : Instr → Bool
  | .div .. | .divz .. => true
  | _ => false

/-- After a turn of the thread that was `t`: a division, or the delivery of an upcall, occupies its slot, for as long as it takes
(R22, R75, R118). -/
def State.occupy (s : State) (t : Thread) (division : Bool) : State :=
  if s.th.bound && s.th.slot == t.slot && (division || (s.th.uact && !t.uact)) then { s with th := { s.th with occupied := true } }
  else s

/-- What occupied a slot is over (R75, R118). -/
def State.freed (s : State) (slot : Nat) : State :=
  match s.threadAt slot with
  | some t => s.putThread { t with occupied := false }
  | none => s

/-- Every waiting slot may look again: something has happened. -/
def State.rouse (s : State) : State :=
  { s with
    now := s.now + 1
    th := { s.th with stalled := false }
    others := s.others.map (fun e => (e.1, { e.2 with stalled := false })) }

/-- The state after a turn: unless the turn was a wait that found nothing changed, every waiting slot may look again. -/
def State.settled (s : State) : State := if s.th.stalled then s else s.rouse

/-- Whether an instruction is an `mma`, whose rows may take more than one turn (R230). -/
def isMma : Instr → Bool
  | .mmaBf16 .. | .mmaD8 .. | .mmaF16 .. => true
  | _ => false

/-- Before an instruction: an `mma` gets a free number of rows to begin with, 0 for all of them (R230). -/
def State.withRows (s : State) (i : Instr) : State :=
  if isMma i then
    let (n, s) := s.drawNat
    { s with ev := { EventArgs.none with num := n % 64 } }
  else s

/-- Rows of the `mma` that a slot waits in go on, a free number of them (R230). -/
def State.moreRows (s0 : State) (slot : Nat) : State :=
  let s := s0.focus slot
  if s.th.slot == slot && s.rowsRun s.th then
    let (n, s) := s.drawNat
    { s with ev := { EventArgs.none with num := n % 64 } }.mmaRows
  else s0

/-! ### Microinstructions (R260) -/

/-- The next microinstruction of the loaded handler that an NMU runs. -/
def State.microFetch (s : State) (n : Nat) : Option Instr :=
  match (s.nmu n).run with
  | none => none
  | some h =>
    if h.stop.isSome then none
    else ((Tab.get (s.nmu n).loaded h.msg.handler [])[h.pc]?).bind (fun w => (decodeMicro w.toNat).toOption)

/-! ### What may happen next -/

/-- An event with its numbers. -/
def turnOf (e : Instr) (unit idx : Nat) : Turn := .event e { EventArgs.none with unit := unit, idx := idx }

/-- What is pending for a thread. -/
def threadTurns (t : Thread) : List Turn :=
  t.acc.zipIdx.map (fun e =>
      turnOf (if e.1.stuck.isSome then .heldFaultPost
        else if e.1.op.isLoad && e.1.op.isStore then .atomicPerform
        else if e.1.op.isLoad then .loadReturn else .storePerform) t.slot e.2)
    ++ (if t.heldNotices.isEmpty then [] else [turnOf .heldNoticePost t.slot 0])
    ++ (if t.swWait.isSome then [turnOf .syncWordWake t.slot 0] else [])
    ++ (if t.mma.isSome then [.rows t.slot] else []) ++ (if t.occupied then [.free t.slot] else [])
    ++ (if t.arrived.isSome && t.depart.isNone then [turnOf .barrierComplete t.slot 0] else [])
    ++ (if t.phase = .requested then [turnOf .threadStop t.slot 0] else [])
    ++ (if t.phase = .draining then [turnOf .saveDrainTimeout t.slot 0, turnOf .saveComplete t.slot 0] else [])
    ++ (if t.phase = .saved && t.frame != 0 then [turnOf .slotSpill t.slot 0] else [])
    ++ (if t.phase = .binding then [turnOf .frameCopyDone t.slot 0] else [])
    ++ (if t.lease.any (fun l => l.left == 0) then [turnOf .leaseExpiry t.slot 0] else [])
    ++ (match t.ixReq with
      | none => []
      | some bs => if t.ixAns.isSome then [] else [turnOf (if bs.getD 4 0 = 0 then .indexCreate else .indexDestroy) t.slot 0])

/-- The event that executes a table command (R253). -/
def TableOp.event : TableOp → Instr
  | .latch => .tqlatchExec
  | .look => .tqdExec
  | .mac => .tqmacExec
  | .read => .tqreadExec

/-- The event of an index command at its next point (R276, R277). -/
def IxCmd.event (c : IxCmd) : Instr :=
  match c.op with
  | .near => if c.accepted.isSome then .indexSearchEnd else .indexQueryAccept
  | .store => .indexStoreCommit
  | .del => .indexDeleteCommit
  | .snap => .indexSnapshotAccept
  | .stat => .indexStatAccept

/-- The event that runs a handler (R260, R264). -/
def handlerEvent : Nat → Instr
  | 0 => .rowCopy
  | 1 => .rowZero
  | 2 => .indexedReduce
  | 3 => .tableGather
  | 4 => .tableMac
  | 5 => .accumulatorRead
  | 6 => .accumulatorClear
  | 7 => .statusHandler
  | _ => .loadedHandlerStart

/-- What is pending at an NMU. -/
def nmuTurns (n : Nat) (u : Nmu) : List Turn :=
  match u.run with
  | some h =>
    if h.stop.isSome then [turnOf .handlerTimeout n 0]
    else if h.msg.handler < 8 then [turnOf (handlerEvent h.msg.handler) n 0] else [.nmu n]
  | none => u.next.toList.map (fun m => turnOf (handlerEvent m.1.handler) n 0)

/-- What is pending for a launch. -/
def State.launchTurns (s : State) (l : Launch) : List Turn :=
  (if l.count.isNone then [turnOf .launchReplicate l.id 0] else [])
    ++ (if l.pkt.kind = 1 then
        (l.rivals.zipIdx.filter (fun v => v.1.alive && l.exhausted v.1)).map (fun v => turnOf .allowanceExhausted l.id v.2)
          ++ (if s.roundOver l then [turnOf .roundEnd l.id 0] else [])
      else [])

/-- An event for each place of a list. -/
def turnsAt {α : Type} (f : α → Instr) (l : List α) : List Turn := l.zipIdx.map (fun e => turnOf (f e.1) 0 e.2)

/-- A drain goes on to its end, or by one row (R240): of a core's unit (index 0), or of those that run on without their thread. -/
def drainTurns (core idx : Nat) : List Turn :=
  [turnOf .tileDrain core idx, .event .tileDrain { EventArgs.none with unit := core, idx := idx, num := 1 }]

/-- What the agents of the device may do next on their own. What the host, the firmware, Monel or a failure does comes
through the agenda alone. -/
def State.eventTurns (s : State) : List Turn :=
  s.threads.flatMap threadTurns
    ++ turnsAt (fun _ => .messageLanding) s.landings ++ turnsAt (fun _ => .packetCount) s.counts
    ++ (s.copyQ.filter (fun e => !e.2.isEmpty)).map (fun e => turnOf .copyCommand e.1 0)
    ++ (s.units.filter (fun e => e.2.mc != 0)).map (fun e => turnOf .mmaComplete e.1 0)
    ++ (s.units.filter (fun e => !e.2.reqs.isEmpty)).flatMap (fun e => drainTurns e.1 0)
    ++ s.drains.zipIdx.flatMap (fun e => drainTurns 0 (e.2 + 1))
    ++ turnsAt (fun c => c.op.event) s.tableQ ++ turnsAt (fun _ => .nmuMessageArrival) s.nmQ
    ++ s.nmus.flatMap (fun e => nmuTurns e.1 e.2) ++ s.resumes.map (fun r => turnOf .nmresumeApply r.nmu 0)
    ++ s.loads.flatMap (fun l => l.nmus.map (fun n => turnOf .handlerLoad n 0))
    ++ turnsAt IxCmd.event s.ixQ ++ s.launches.flatMap s.launchTurns ++ turnsAt (fun _ => .completionBlockUpdate) s.completions
    ++ (s.tenants.filter (fun e => e.2.zeroing)).map (fun e => turnOf .clusterZeroingDone e.1 0)
    ++ s.genSent.map (fun e => turnOf .generationNotice e.1 0) ++ s.scans.map (fun e => turnOf .scannerWriteDone e.1 0)
    ++ (s.bars.filter (fun e => e.2.busy)).map (fun e => turnOf .reportReady e.1 0)

/-- The cores with a slot that can issue. -/
def State.readyCores (s : State) : List Nat := ((s.threads.filter s.canIssue).map (fun t => coreOf t.slot)).eraseDups

/-- Every turn that may come next. -/
def State.turns (s : State) : List Turn := (s.readyCores).map Turn.core ++ s.eventTurns

/-- The next turn: the one that the agenda lays down, or else a free choice among those that may come; none where nothing
may happen. -/
def State.nextTurn (s : State) : Option (Turn × State) :=
  match s.agenda with
  | t :: r => some (t, { s with agenda := r })
  | [] =>
    match s.turns with
    | [] => none
    | t :: [] => some (t, s)
    | ts =>
      let (n, s) := s.drawNat
      (ts[n % ts.length]?).map (fun t => (t, s))

/-- Applies a change to the next state that a meaning answers. -/
def onNext (o : Out) (f : State → State) : Out :=
  match o with
  | .next s => .next (f s)
  | .fault r => .fault r
  | .refused r => .refused r

/-- Whether a turn may be taken while the device is halted: only a power-on (R368). -/
def Turn.wakes : Turn → Bool
  | .event .boot _ => true
  | _ => false

/-! ### Laying an instruction down -/

/-- Device address of the first of the two frames in which `withFetchWord` lays code. -/
def codeFrame : Nat := 0x200000

/-- The leaf of an untracked page that may be read, written and executed, with A and D set (R313). -/
def codeLeaf (pa : Nat) : Word := BitVec.ofNat 64 (0x1BB + pa)

/-- Maps a page of a function to a frame, as a cached translation at the home slice of an address on a die. -/
def State.mapCode (s : State) (die fn va pa : Nat) : State :=
  { s with tlb := Tab.put s.tlb (tlbKey (die * 160 + homeSlice va) fn 0 va) ⟨codeLeaf pa, 0, 0⟩ }

/-- Frees a frame of code from everything that would keep a fetch from its bytes. -/
def State.plainFrame (s : State) (pa : Nat) : State :=
  { s with
    keys := Tab.dropRange s.keys (pa / 32) 2048
    tags := Tab.dropRange s.tags (pa / 1024) 64
    poison := Tab.dropRange s.poison pa 65536
    bad := Tab.dropRange s.bad pa 65536
    regs := Tab.dropRange s.regs (pa / 8) 8192
    memPast := Tab.dropRange s.memPast (pa / 8 * 2) (8192 * 2)
    indexes := s.indexes.filter (fun e => !(e.2.index.any (fun x => x.frames.contains pa))) }

/-- The thread that fetches: the one at hand, or a new system thread on slot 0, running with nothing due, nothing in flight and
nothing to wait for. -/
def State.fetcher (s : State) : Thread :=
  let t := if s.th.bound then s.th else { Thread.idle with bound := true, ident := ⟨0, 1, 0, 0, none⟩, gsize := 1, sys := true }
  { t with
    ident := { t.ident with rival := none }
    phase := .running, stalled := false, relWait := none, latched := none, mma := none, swWait := none, redo := []
    ixReq := none, ixAns := none, ixRegs := none, held := [], notices := [], acc := []
    packet := none, lastIssue := 0, occupied := false }

/-- Lays the bytes of a core instruction at the fetching thread's PC, and its core's turn in the agenda. -/
def State.layCode (s : State) (w : Nat) : State :=
  let t := s.fetcher
  let va := t.pc.toNat
  let die := dieOf t.slot
  let core := coreOf t.slot
  let s := ((s.plainFrame codeFrame).plainFrame (codeFrame + 65536)).dropIcache core
  let page (k : Nat) : Nat := codeFrame + (va + k) / 65536 * 65536 - va / 65536 * 65536
  let s := [0, 2, 4, 6].foldl (fun s k => s.mapCode die t.ident.vf ((va + k) % 2 ^ 56) (page k)) s
  { s with
    mem := Memory.writeN s.mem (codeFrame + va % 65536) (bytesOf 8 w)
    th := t, others := s.others.filter (fun e => coreOf e.1 ≠ core), halted := false, agenda := [.core core]
    ixQ := s.ixQ.filter (fun c => !(c.owner.isOf t)) }

/-- Lays a microinstruction as the first of handler 8, running on NMU 0, and its turn in the agenda. -/
def State.layMicro (s : State) (w : Nat) : State :=
  let m : NmMsg :=
    { owner := hubOwner 0 0 1 false, view := hubView (hubOwner 0 0 1 false), raddr := 0, region := 0, n := 1, handler := 8, channel := 0, write := true, m := []
      sync := 0, leased := false, seq := 0, gen := none, frames := [codeFrame], leaves := [0] }
  let u := s.nmu 0
  { s with
    nmus := Tab.put s.nmus 0 { u with loaded := Tab.put u.loaded 8 [BitVec.ofNat 32 w], run := some (Handler.start m) }
    halted := false, agenda := [.nmu 0] }

end Sys2Proof.Machine
end

