-- ==== Sys2Proof/Machine/Dispatch.lean ====
section
/-!
DEFINITION. Sys2Proof/Machine/Dispatch.lean: what each instruction and each event does: one arm for each constructor.
-/
namespace Sys2Proof.Machine

def exec (i : Instr) (s : State) : Host.Outcome State Fault Refusal :=
  match i with
  | .add d a b => Sys2Proof.Machine.execAdd d a b s
  | .sub d a b => Sys2Proof.Machine.execSub d a b s
  | .and d a b => Sys2Proof.Machine.execAnd d a b s
  | .or d a b => Sys2Proof.Machine.execOr d a b s
  | .xor d a b => Sys2Proof.Machine.execXor d a b s
  | .andn d a b => Sys2Proof.Machine.execAndn d a b s
  | .shl d a b => Sys2Proof.Machine.execShl d a b s
  | .shr d a b => Sys2Proof.Machine.execShr d a b s
  | .sra d a b => Sys2Proof.Machine.execSra d a b s
  | .slt d a b => Sys2Proof.Machine.execSlt d a b s
  | .sltz d a b => Sys2Proof.Machine.execSltz d a b s
  | .min d a b => Sys2Proof.Machine.execMin d a b s
  | .max d a b => Sys2Proof.Machine.execMax d a b s
  | .minz d a b => Sys2Proof.Machine.execMinz d a b s
  | .maxz d a b => Sys2Proof.Machine.execMaxz d a b s
  | .sel d a b c => Sys2Proof.Machine.execSel d a b c s
  | .addw d a b => Sys2Proof.Machine.execAddw d a b s
  | .subw d a b => Sys2Proof.Machine.execSubw d a b s
  | .rotl d a b => Sys2Proof.Machine.execRotl d a b s
  | .rotr d a b => Sys2Proof.Machine.execRotr d a b s
  | .addi d a im => Sys2Proof.Machine.execAddi d a im s
  | .andi d a im => Sys2Proof.Machine.execAndi d a im s
  | .ori d a im => Sys2Proof.Machine.execOri d a im s
  | .xori d a im => Sys2Proof.Machine.execXori d a im s
  | .shli d a n => Sys2Proof.Machine.execShli d a n s
  | .shri d a n => Sys2Proof.Machine.execShri d a n s
  | .srai d a n => Sys2Proof.Machine.execSrai d a n s
  | .slti d a im => Sys2Proof.Machine.execSlti d a im s
  | .sltzi d a im => Sys2Proof.Machine.execSltzi d a im s
  | .lim d im => Sys2Proof.Machine.execLim d im s
  | .lpc d im => Sys2Proof.Machine.execLpc d im s
  | .clz ew d a => Sys2Proof.Machine.execClz ew d a s
  | .ctz ew d a => Sys2Proof.Machine.execCtz ew d a s
  | .ffs ew d a => Sys2Proof.Machine.execFfs ew d a s
  | .popc ew d a => Sys2Proof.Machine.execPopc ew d a s
  | .rev d a => Sys2Proof.Machine.execRev d a s
  | .bswap d a => Sys2Proof.Machine.execBswap d a s
  | .bext d a b c => Sys2Proof.Machine.execBext d a b c s
  | .bins d a b c => Sys2Proof.Machine.execBins d a b c s
  | .mul d a b => Sys2Proof.Machine.execMul d a b s
  | .mulh d a b => Sys2Proof.Machine.execMulh d a b s
  | .mulhz d a b => Sys2Proof.Machine.execMulhz d a b s
  | .mulhsz d a b => Sys2Proof.Machine.execMulhsz d a b s
  | .div d a b => Sys2Proof.Machine.execDiv d a b s
  | .divz d a b => Sys2Proof.Machine.execDivz d a b s
  | .rem d a b => Sys2Proof.Machine.execRem d a b s
  | .remz d a b => Sys2Proof.Machine.execRemz d a b s
  | .mulw d a b => Sys2Proof.Machine.execMulw d a b s
  | .beq a b o => Sys2Proof.Machine.execBeq a b o s
  | .bne a b o => Sys2Proof.Machine.execBne a b o s
  | .blt a b o => Sys2Proof.Machine.execBlt a b o s
  | .bge a b o => Sys2Proof.Machine.execBge a b o s
  | .blo a b o => Sys2Proof.Machine.execBlo a b o s
  | .bhs a b o => Sys2Proof.Machine.execBhs a b o s
  | .jal d im => Sys2Proof.Machine.execJal d im s
  | .jalr d a im => Sys2Proof.Machine.execJalr d a im s
  | .loop a e => Sys2Proof.Machine.execLoop a e s
  | .loopi n e => Sys2Proof.Machine.execLoopi n e s
  | .ldg o z g d a im => Sys2Proof.Machine.execLdg o z g d a im s
  | .stg o z d a im => Sys2Proof.Machine.execStg o z d a im s
  | .ldgV o d a im => Sys2Proof.Machine.execLdgV o d a im s
  | .stgV o d a im => Sys2Proof.Machine.execStgV o d a im s
  | .ldl o z g d a im => Sys2Proof.Machine.execLdl o z g d a im s
  | .stl o z d a im => Sys2Proof.Machine.execStl o z d a im s
  | .ldlV o d a im => Sys2Proof.Machine.execLdlV o d a im s
  | .stlV o d a im => Sys2Proof.Machine.execStlV o d a im s
  | .amoAdd o z d a b => Sys2Proof.Machine.execAmoAdd o z d a b s
  | .amoAnd o z d a b => Sys2Proof.Machine.execAmoAnd o z d a b s
  | .amoOr o z d a b => Sys2Proof.Machine.execAmoOr o z d a b s
  | .amoXor o z d a b => Sys2Proof.Machine.execAmoXor o z d a b s
  | .amoMin o z d a b => Sys2Proof.Machine.execAmoMin o z d a b s
  | .amoMax o z d a b => Sys2Proof.Machine.execAmoMax o z d a b s
  | .amoMinz o z d a b => Sys2Proof.Machine.execAmoMinz o z d a b s
  | .amoMaxz o z d a b => Sys2Proof.Machine.execAmoMaxz o z d a b s
  | .amoSwap o z d a b => Sys2Proof.Machine.execAmoSwap o z d a b s
  | .cas o z d a b => Sys2Proof.Machine.execCas o z d a b s
  | .amolAdd z d a b => Sys2Proof.Machine.execAmolAdd z d a b s
  | .amolAnd z d a b => Sys2Proof.Machine.execAmolAnd z d a b s
  | .amolOr z d a b => Sys2Proof.Machine.execAmolOr z d a b s
  | .amolXor z d a b => Sys2Proof.Machine.execAmolXor z d a b s
  | .amolMin z d a b => Sys2Proof.Machine.execAmolMin z d a b s
  | .amolMax z d a b => Sys2Proof.Machine.execAmolMax z d a b s
  | .amolMinz z d a b => Sys2Proof.Machine.execAmolMinz z d a b s
  | .amolMaxz z d a b => Sys2Proof.Machine.execAmolMaxz z d a b s
  | .amolSwap z d a b => Sys2Proof.Machine.execAmolSwap z d a b s
  | .cwait k n => Sys2Proof.Machine.execCwait k n s
  | .xfence f t => Sys2Proof.Machine.execXfence f t s
  | .swinit a b => Sys2Proof.Machine.execSwinit a b s
  | .swadd a b => Sys2Proof.Machine.execSwadd a b s
  | .swwait a b => Sys2Proof.Machine.execSwwait a b s
  | .swget d a => Sys2Proof.Machine.execSwget d a s
  | .swcnt d a => Sys2Proof.Machine.execSwcnt d a s
  | .mopen a b c => Sys2Proof.Machine.execMopen a b c s
  | .mput b => Sys2Proof.Machine.execMput b s
  | .mputV b => Sys2Proof.Machine.execMputV b s
  | .mputE b => Sys2Proof.Machine.execMputE b s
  | .mputVe b => Sys2Proof.Machine.execMputVe b s
  | .gbar d a => Sys2Proof.Machine.execGbar d a s
  | .gbarAnd d a => Sys2Proof.Machine.execGbarAnd d a s
  | .gbarOr d a => Sys2Proof.Machine.execGbarOr d a s
  | .gbarAdd d a => Sys2Proof.Machine.execGbarAdd d a s
  | .gbarMax d a => Sys2Proof.Machine.execGbarMax d a s
  | .gbarMin d a => Sys2Proof.Machine.execGbarMin d a s
  | .launch d a => Sys2Proof.Machine.execLaunch d a s
  | .exit a => Sys2Proof.Machine.execExit a s
  | .yield => Sys2Proof.Machine.execYield s
  | .sys a => Sys2Proof.Machine.execSys a s
  | .brk => Sys2Proof.Machine.execBrk s
  | .uret => Sys2Proof.Machine.execUret s
  | .uretReplay => Sys2Proof.Machine.execUretReplay s
  | .srd d n => Sys2Proof.Machine.execSrd d n s
  | .swr n a => Sys2Proof.Machine.execSwr n a s
  | .vadd t d a b => Sys2Proof.Machine.execVadd t d a b s
  | .vsub t d a b => Sys2Proof.Machine.execVsub t d a b s
  | .vmul t d a b => Sys2Proof.Machine.execVmul t d a b s
  | .vmax t d a b => Sys2Proof.Machine.execVmax t d a b s
  | .vmin t d a b => Sys2Proof.Machine.execVmin t d a b s
  | .vand t d a b => Sys2Proof.Machine.execVand t d a b s
  | .vor t d a b => Sys2Proof.Machine.execVor t d a b s
  | .vxor t d a b => Sys2Proof.Machine.execVxor t d a b s
  | .vdiv t d a b => Sys2Proof.Machine.execVdiv t d a b s
  | .vsqrt t d a => Sys2Proof.Machine.execVsqrt t d a s
  | .vrcp t d a => Sys2Proof.Machine.execVrcp t d a s
  | .vrsq t d a => Sys2Proof.Machine.execVrsq t d a s
  | .vexp2 t d a => Sys2Proof.Machine.execVexp2 t d a s
  | .vlog2 t d a => Sys2Proof.Machine.execVlog2 t d a s
  | .vshl t d a b => Sys2Proof.Machine.execVshl t d a b s
  | .vshr t d a b => Sys2Proof.Machine.execVshr t d a b s
  | .vsra t d a b => Sys2Proof.Machine.execVsra t d a b s
  | .vabs t d a => Sys2Proof.Machine.execVabs t d a s
  | .vneg t d a => Sys2Proof.Machine.execVneg t d a s
  | .vmov t d a => Sys2Proof.Machine.execVmov t d a s
  | .vadd16 bf d b => Sys2Proof.Machine.execVadd16 bf d b s
  | .vsub16 bf d b => Sys2Proof.Machine.execVsub16 bf d b s
  | .vmul16 bf d b => Sys2Proof.Machine.execVmul16 bf d b s
  | .vmax16 bf d b => Sys2Proof.Machine.execVmax16 bf d b s
  | .vmin16 bf d b => Sys2Proof.Machine.execVmin16 bf d b s
  | .vmov16 d b => Sys2Proof.Machine.execVmov16 d b s
  | .vabs16 bf d b => Sys2Proof.Machine.execVabs16 bf d b s
  | .vneg16 bf d b => Sys2Proof.Machine.execVneg16 bf d b s
  | .vand16 d b => Sys2Proof.Machine.execVand16 d b s
  | .vor16 d b => Sys2Proof.Machine.execVor16 d b s
  | .vxor16 d b => Sys2Proof.Machine.execVxor16 d b s
  | .vrcp16 bf d b => Sys2Proof.Machine.execVrcp16 bf d b s
  | .vrsq16 bf d b => Sys2Proof.Machine.execVrsq16 bf d b s
  | .vexp216 bf d b => Sys2Proof.Machine.execVexp216 bf d b s
  | .vbcast0 bf d b => Sys2Proof.Machine.execVbcast0 bf d b s
  | .vzero d => Sys2Proof.Machine.execVzero d s
  | .modifierWord m follower => Sys2Proof.Machine.execModifierWord m follower s
  | .vcmpEq t d a b => Sys2Proof.Machine.execVcmpEq t d a b s
  | .vcmpLt t d a b => Sys2Proof.Machine.execVcmpLt t d a b s
  | .vcmpLe t d a b => Sys2Proof.Machine.execVcmpLe t d a b s
  | .vcmpNe t d a b => Sys2Proof.Machine.execVcmpNe t d a b s
  | .vsel t d a b => Sys2Proof.Machine.execVsel t d a b s
  | .vredadd t d a => Sys2Proof.Machine.execVredadd t d a s
  | .vredmax t d a => Sys2Proof.Machine.execVredmax t d a s
  | .vredmin t d a => Sys2Proof.Machine.execVredmin t d a s
  | .vperm t d a b => Sys2Proof.Machine.execVperm t d a b s
  | .vdot t d a b => Sys2Proof.Machine.execVdot t d a b s
  | .vcvt g u d a => Sys2Proof.Machine.execVcvt g u d a s
  | .vq8 t d a b => Sys2Proof.Machine.execVq8 t d a b s
  | .vdq8 t d a b => Sys2Proof.Machine.execVdq8 t d a b s
  | .vamax t d a => Sys2Proof.Machine.execVamax t d a s
  | .vbcast t d a => Sys2Proof.Machine.execVbcast t d a s
  | .vins t d a k => Sys2Proof.Machine.execVins t d a k s
  | .vext t d a k => Sys2Proof.Machine.execVext t d a k s
  | .vmvx d a j => Sys2Proof.Machine.execVmvx d a j s
  | .vfma t d a b c => Sys2Proof.Machine.execVfma t d a b c s
  | .vfms t d a b c => Sys2Proof.Machine.execVfms t d a b c s
  | .vfnma t d a b c => Sys2Proof.Machine.execVfnma t d a b c s
  | .vfnms t d a b c => Sys2Proof.Machine.execVfnms t d a b c s
  | .sbind g a => Sys2Proof.Machine.execSbind g a s
  | .seos g a => Sys2Proof.Machine.execSeos g a s
  | .sstat d g => Sys2Proof.Machine.execSstat d g s
  | .sunbind g => Sys2Proof.Machine.execSunbind g s
  | .tql d a b => Sys2Proof.Machine.execTql d a b s
  | .tqlatch a => Sys2Proof.Machine.execTqlatch a s
  | .tqd a => Sys2Proof.Machine.execTqd a s
  | .tqmac a => Sys2Proof.Machine.execTqmac a s
  | .tqread a => Sys2Proof.Machine.execTqread a s
  | .cpy a b c => Sys2Proof.Machine.execCpy a b c s
  | .cpyq d => Sys2Proof.Machine.execCpyq d s
  | .mown => Sys2Proof.Machine.execMown s
  | .mrel => Sys2Proof.Machine.execMrel s
  | .mcfg a => Sys2Proof.Machine.execMcfg a s
  | .mmaBf16 a b => Sys2Proof.Machine.execMmaBf16 a b s
  | .mmaD8 a b c => Sys2Proof.Machine.execMmaD8 a b c s
  | .mmaF16 a b => Sys2Proof.Machine.execMmaF16 a b s
  | .mringAdv => Sys2Proof.Machine.execMringAdv s
  | .mringClr => Sys2Proof.Machine.execMringClr s
  | .epcfg a => Sys2Proof.Machine.execEpcfg a s
  | .epgo a => Sys2Proof.Machine.execEpgo a s
  | .lease d a => Sys2Proof.Machine.execLease d a s
  | .unlease => Sys2Proof.Machine.execUnlease s
  | .nmsend a => Sys2Proof.Machine.execNmsend a s
  | .nmresume a => Sys2Proof.Machine.execNmresume a s
  | .nmload a => Sys2Proof.Machine.execNmload a s
  | .nmstat d a => Sys2Proof.Machine.execNmstat d a s
  | .mli d v => Sys2Proof.Machine.execMli d v s
  | .mld d a v => Sys2Proof.Machine.execMld d a v s
  | .mst d a v => Sys2Proof.Machine.execMst d a v s
  | .mrdrowRead a => Sys2Proof.Machine.execMrdrowRead a s
  | .mrdrowWrite a => Sys2Proof.Machine.execMrdrowWrite a s
  | .mrdrowZero a => Sys2Proof.Machine.execMrdrowZero a s
  | .mrdrowCopy a b => Sys2Proof.Machine.execMrdrowCopy a b s
  | .madd d a v => Sys2Proof.Machine.execMadd d a v s
  | .msub d a v => Sys2Proof.Machine.execMsub d a v s
  | .mand d a v => Sys2Proof.Machine.execMand d a v s
  | .mor d a v => Sys2Proof.Machine.execMor d a v s
  | .mxor d a v => Sys2Proof.Machine.execMxor d a v s
  | .mshl d a v => Sys2Proof.Machine.execMshl d a v s
  | .mshr d a v => Sys2Proof.Machine.execMshr d a v s
  | .mmul d a v => Sys2Proof.Machine.execMmul d a v s
  | .mmax d a v => Sys2Proof.Machine.execMmax d a v s
  | .maccAdd d a => Sys2Proof.Machine.execMaccAdd d a s
  | .maccRead d a => Sys2Proof.Machine.execMaccRead d a s
  | .mbfw a o => Sys2Proof.Machine.execMbfw a o s
  | .mbfwZero a o => Sys2Proof.Machine.execMbfwZero a o s
  | .mfin d => Sys2Proof.Machine.execMfin d s
  | .ixnear a => Sys2Proof.Machine.execIxnear a s
  | .ixstore a => Sys2Proof.Machine.execIxstore a s
  | .ixstoreRel a => Sys2Proof.Machine.execIxstoreRel a s
  | .ixdel a => Sys2Proof.Machine.execIxdel a s
  | .ixsnap d a => Sys2Proof.Machine.execIxsnap d a s
  | .ixstat d a => Sys2Proof.Machine.execIxstat d a s
  | .ixcreate d a => Sys2Proof.Machine.execIxcreate d a s
  | .tscoreSet a => Sys2Proof.Machine.execTscoreSet a s
  | .tscoreMax a => Sys2Proof.Machine.execTscoreMax a s
  | .tscoreMin a => Sys2Proof.Machine.execTscoreMin a s
  | .tscoreAdd a => Sys2Proof.Machine.execTscoreAdd a s
  | .trinfo d a => Sys2Proof.Machine.execTrinfo d a s
  | .pinv a => Sys2Proof.Machine.execPinv a s
  | .pswap a b => Sys2Proof.Machine.execPswap a b s
  | .pclr a => Sys2Proof.Machine.execPclr a s
  | .pgen a => Sys2Proof.Machine.execPgen a s
  | .udf u => Sys2Proof.Machine.execUdf u s
  | .loadReturn => Sys2Proof.Machine.execLoadReturn s
  | .storePerform => Sys2Proof.Machine.execStorePerform s
  | .heldFaultPost => Sys2Proof.Machine.execHeldFaultPost s
  | .atomicPerform => Sys2Proof.Machine.execAtomicPerform s
  | .syncWordWake => Sys2Proof.Machine.execSyncWordWake s
  | .messageLanding => Sys2Proof.Machine.execMessageLanding s
  | .packetCount => Sys2Proof.Machine.execPacketCount s
  | .barrierComplete => Sys2Proof.Machine.execBarrierComplete s
  | .launchReplicate => Sys2Proof.Machine.execLaunchReplicate s
  | .completionBlockUpdate => Sys2Proof.Machine.execCompletionBlockUpdate s
  | .tqlatchExec => Sys2Proof.Machine.execTqlatchExec s
  | .tqmacExec => Sys2Proof.Machine.execTqmacExec s
  | .tqdExec => Sys2Proof.Machine.execTqdExec s
  | .tqreadExec => Sys2Proof.Machine.execTqreadExec s
  | .copyCommand => Sys2Proof.Machine.execCopyCommand s
  | .heldNoticePost => Sys2Proof.Machine.execHeldNoticePost s
  | .mmaComplete => Sys2Proof.Machine.execMmaComplete s
  | .tileDrain => Sys2Proof.Machine.execTileDrain s
  | .leaseExpiry => Sys2Proof.Machine.execLeaseExpiry s
  | .nmuMessageArrival => Sys2Proof.Machine.execNmuMessageArrival s
  | .rowCopy => Sys2Proof.Machine.execRowCopy s
  | .rowZero => Sys2Proof.Machine.execRowZero s
  | .indexedReduce => Sys2Proof.Machine.execIndexedReduce s
  | .tableGather => Sys2Proof.Machine.execTableGather s
  | .tableMac => Sys2Proof.Machine.execTableMac s
  | .accumulatorRead => Sys2Proof.Machine.execAccumulatorRead s
  | .accumulatorClear => Sys2Proof.Machine.execAccumulatorClear s
  | .statusHandler => Sys2Proof.Machine.execStatusHandler s
  | .loadedHandlerStart => Sys2Proof.Machine.execLoadedHandlerStart s
  | .handlerTimeout => Sys2Proof.Machine.execHandlerTimeout s
  | .nmresumeApply => Sys2Proof.Machine.execNmresumeApply s
  | .handlerLoad => Sys2Proof.Machine.execHandlerLoad s
  | .indexQueryAccept => Sys2Proof.Machine.execIndexQueryAccept s
  | .indexSearchEnd => Sys2Proof.Machine.execIndexSearchEnd s
  | .indexStoreCommit => Sys2Proof.Machine.execIndexStoreCommit s
  | .indexDeleteCommit => Sys2Proof.Machine.execIndexDeleteCommit s
  | .indexSnapshotAccept => Sys2Proof.Machine.execIndexSnapshotAccept s
  | .indexStatAccept => Sys2Proof.Machine.execIndexStatAccept s
  | .indexCreate => Sys2Proof.Machine.execIndexCreate s
  | .indexDestroy => Sys2Proof.Machine.execIndexDestroy s
  | .allowanceExhausted => Sys2Proof.Machine.execAllowanceExhausted s
  | .roundEnd => Sys2Proof.Machine.execRoundEnd s
  | .generationNotice => Sys2Proof.Machine.execGenerationNotice s
  | .upcallDelivery => Sys2Proof.Machine.execUpcallDelivery s
  | .bindRecord => Sys2Proof.Machine.execBindRecord s
  | .resumeRecord => Sys2Proof.Machine.execResumeRecord s
  | .stopRecord => Sys2Proof.Machine.execStopRecord s
  | .frameCopyDone => Sys2Proof.Machine.execFrameCopyDone s
  | .threadStop => Sys2Proof.Machine.execThreadStop s
  | .saveComplete => Sys2Proof.Machine.execSaveComplete s
  | .saveDrainTimeout => Sys2Proof.Machine.execSaveDrainTimeout s
  | .slotSpill => Sys2Proof.Machine.execSlotSpill s
  | .clusterZeroingDone => Sys2Proof.Machine.execClusterZeroingDone s
  | .gangReservation => Sys2Proof.Machine.execGangReservation s
  | .scannerPage => Sys2Proof.Machine.execScannerPage s
  | .scannerWriteDone => Sys2Proof.Machine.execScannerWriteDone s
  | .budgetPeriodStart => Sys2Proof.Machine.execBudgetPeriodStart s
  | .securityAlarm => Sys2Proof.Machine.execSecurityAlarm s
  | .burstPause => Sys2Proof.Machine.execBurstPause s
  | .burstResume => Sys2Proof.Machine.execBurstResume s
  | .sliceRetention => Sys2Proof.Machine.execSliceRetention s
  | .hostLaunchWindowWrite => Sys2Proof.Machine.execHostLaunchWindowWrite s
  | .reportRequest => Sys2Proof.Machine.execReportRequest s
  | .reportReady => Sys2Proof.Machine.execReportReady s
  | .registerWrite => Sys2Proof.Machine.execRegisterWrite s
  | .hostCxlMemAccess => Sys2Proof.Machine.execHostCxlMemAccess s
  | .functionLevelReset => Sys2Proof.Machine.execFunctionLevelReset s
  | .fabricAckTimeout => Sys2Proof.Machine.execFabricAckTimeout s
  | .coreFailure => Sys2Proof.Machine.execCoreFailure s
  | .coreOutOfService => Sys2Proof.Machine.execCoreOutOfService s
  | .identityRotation => Sys2Proof.Machine.execIdentityRotation s
  | .boot => Sys2Proof.Machine.execBoot s
  | .coreReturnToService => Sys2Proof.Machine.execCoreReturnToService s
  | .quarantineLift => Sys2Proof.Machine.execQuarantineLift s
  | .budgetChange => Sys2Proof.Machine.execBudgetChange s
  | .fabricPeerAccess => Sys2Proof.Machine.execFabricPeerAccess s
  | .conventionalReset => Sys2Proof.Machine.execConventionalReset s

end Sys2Proof.Machine
end

