-- ==== Sys2Proof/Machine/Step.lean ====
section
/-!
DEFINITION. Sys2Proof/Machine/Step.lean: one step of the machine: the next turn, and what it does. And where a test lays an
instruction down to have it run next.
-/
namespace Sys2Proof.Machine

/-- A turn of the agenda or a free one: an event, a microinstruction, the issue of one instruction by a core, rows of an `mma`, or
what the world outside does. -/
def State.take (t : Turn) (s : State) : Host.Outcome State Fault Refusal :=
  match t with
  | .event e a => if e.form = .event then onNext (exec e { s with ev := a }) State.rouse else .next s
  | .nmu n =>
    match s.microFetch n with
    | some i => onNext (exec i { s with nmuAt := n }) State.rouse
    | none => .next s
  | .core c =>
    let s := s.pass (s.coreWait c)
    match s.pickSlot c with
    | none => .next s
    | some n =>
      let s := s.focus n
      let t := s.th
      match s.prepare with
      | .done s => .next (s.occupy t false).settled
      | .run i s => onNext (exec i (s.withRows i)) (fun s => ((s.issued n).occupy t (isDivision i)).settled)
  | .rows n => .next (s.moreRows n).rouse
  | .free n => .next (s.freed n).rouse
  | .outside o => .next (s.outside o).rouse

/-- One step: the next turn, or where nothing may happen the passing of time, after which every waiting slot may look again. A halted device answers nothing but a
power-on (R368). -/
def step (s : State) : Host.Outcome State Fault Refusal :=
  match s.nextTurn with
  | none => if s.halted then .fault .deviceHalted else .next (s.pass 1).rouse
  | some (t, s) => if s.halted && !t.wakes then .fault .deviceHalted else s.take t

/-- The state with an instruction of the opcode table laid where the next step fetches: a microinstruction in a handler that
runs on an NMU, any other at a thread's PC (the log's entry 7). -/
def State.withFetchWord (s : State) (nbits w : Nat) : State :=
  match decodeTableWord nbits w with
  | some i => if i.form = .micro then s.layMicro w else s.layCode w
  | none => s.layCode w

end Sys2Proof.Machine
end

