-- ==== Sys2Proof/Safety.lean ====
section
/-!
DEFINITION. Sys2Proof/Safety.lean: what the claims mean by a good state, by a safe run, and by an instruction that changes
one thing and keeps the rest.
-/
namespace Sys2Proof.Machine

/-! ### Good states and safe runs -/

/-- Both byte memories are in their canonical form: addresses rise strictly, and no listed byte is what an unlisted address
reads as. -/
def State.MemOk (s : State) : Prop := Memory.wf s.mem = true ∧ Memory.wf s.loc = true

/-- A PC as R9 keeps it: bits [63:56] and bit 0 are 0. -/
def PcOk (p : Word) : Prop := pcBits p = p

/-- The PC of every thread is as R9 keeps it. -/
def State.PcsOk (s : State) : Prop := PcOk s.th.pc ∧ ∀ e ∈ s.others, PcOk e.2.pc

/-- A run that no fault and no refusal ends within `k` steps. -/
def SafeFor (k : Nat) (s : State) : Prop := ∃ t, Sys2Proof.core.run k s = .next t

/-! ### What an instruction keeps -/

/-- Outside the thread at hand everything stands, but for what every retirement counts: one more in usage counter 0 of the thread's
function (R364), and in what its rival has used of its allowance (R329). -/
def KeepsOutside (s t : State) : Prop :=
  t = { s with th := t.th, usage := (s.use s.th.ident.vf 0 1).usage, launches := s.launchesCounted }

/-- Every byte of physical memory and of local memory reads as it did. -/
def KeepsBytes (s t : State) : Prop := ∀ a, Memory.read t.mem a = Memory.read s.mem a ∧ Memory.read t.loc a = Memory.read s.loc a

/-- No active loop level ends at an address (R81). -/
def Thread.plainAt (t : Thread) (p : Word) : Prop :=
  ¬(t.loop0.flag = true ∧ t.loop0.last = p) ∧ ¬(t.loop1.flag = true ∧ t.loop1.last = p)

/-- The instruction counts as retired; where no loop level ends at it, the PC moves past its `len` bytes and the loop state
stands (R12, R81). -/
def Retires (s t : State) (len : Nat) : Prop :=
  t.th.iret = s.th.iret + 1 ∧
    (s.th.plainAt s.th.pc → t.th.pc = s.pcPlus len ∧ t.th.loop0 = s.th.loop0 ∧ t.th.loop1 = s.th.loop1)

/-- The thread at hand, but for x registers, the PC and loop state, and what retirement counts. -/
def KeepsBesideX (u v : Thread) : Prop :=
  v = { u with
    x := v.x, live := v.live, pc := v.pc, loop0 := v.loop0, loop1 := v.loop1, iret := v.iret, packet := v.packet
    relWait := none
    latched := none }

/-- The thread at hand, but for the PC and loop state, and what retirement counts. -/
def KeepsBesidePc (u v : Thread) : Prop :=
  v = { u with
    pc := v.pc, loop0 := v.loop0, loop1 := v.loop1, iret := v.iret, packet := v.packet
    relWait := none
    latched := none }

/-- The answer is a next state in which x[d] is `v`, the instruction of 4 bytes has retired, and all else stands; x0 discards
what is written to it (R7). -/
def WritesX (s : State) (o : Out) (d : Reg) (v : Word) : Prop :=
  ∃ t, o = .next t ∧ (∀ r, t.getX r = if r = d ∧ d ≠ 0 then v else s.getX r)
    ∧ t.th.live = (if d = 0 then s.th.live else s.th.live ||| (1#64 <<< d.val))
    ∧ KeepsBesideX s.th t.th ∧ Retires s t 4 ∧ KeepsOutside s t ∧ KeepsBytes s t

/-- The answer is a next state in which the instruction of 4 bytes has retired, and all else stands. -/
def WritesNothing (s : State) (o : Out) : Prop :=
  ∃ t, o = .next t ∧ KeepsBesidePc s.th t.th ∧ Retires s t 4 ∧ KeepsOutside s t ∧ KeepsBytes s t

/-! ### Loop levels and transfers -/

/-- What the end check leaves of the PC and the outer level of a thread, for an instruction at `p` that made no transfer and that
`next` follows, where no inner level ends the check (R81). -/
def OuterEnds (t u : Thread) (p next : Word) : Prop :=
  (¬(t.loop0.flag = true ∧ t.loop0.last = p) → u.pc = next ∧ u.loop0 = t.loop0)
    ∧ (t.loop0.flag = true → t.loop0.last = p → t.loop0.cnt - 1 ≠ 0 →
      u.pc = pcBits t.loop0.beg ∧ u.loop0 = { t.loop0 with cnt := t.loop0.cnt - 1 })
    ∧ (t.loop0.flag = true → t.loop0.last = p → t.loop0.cnt - 1 = 0 → u.pc = next ∧ u.loop0 = { t.loop0 with cnt := 0, flag := false })

/-- What the end check leaves of the PC and the loop levels of a thread, for an instruction at `p` that made no transfer and that
`next` follows (R81): an inner level that is active and does not end at `p` leaves both levels alone, whatever the outer one does; at
the end of the inner level a pass is counted and control returns to its start, or the level ends and the outer one is checked. -/
def LevelsEnd (t u : Thread) (p next : Word) : Prop :=
  (t.loop1.flag = true → t.loop1.last ≠ p → u.pc = next ∧ u.loop0 = t.loop0 ∧ u.loop1 = t.loop1)
    ∧ (t.loop1.flag = true → t.loop1.last = p → t.loop1.cnt - 1 ≠ 0 →
      u.pc = pcBits t.loop1.beg ∧ u.loop1 = { t.loop1 with cnt := t.loop1.cnt - 1 } ∧ u.loop0 = t.loop0)
    ∧ (t.loop1.flag = true → t.loop1.last = p → t.loop1.cnt - 1 = 0 →
      u.loop1 = { t.loop1 with cnt := 0, flag := false } ∧ OuterEnds t u p next)
    ∧ (t.loop1.flag = false → u.loop1 = t.loop1 ∧ OuterEnds t u p next)

/-! ### Transfers and traps -/

/-- A target that a transfer may go to (R15, R17). -/
def GoodTarget (g : Word) : Prop := g.getLsbD 0 = false ∧ g.toNat < 2 ^ 56

/-- A loop level after a transfer to `g`: it ends unless its body holds `g` (R81). -/
def levelAfter (l : Loop) (g : Word) : Loop := if l.flag ∧ ¬(l.beg ≤ g ∧ g ≤ l.last) then { l with flag := false } else l

/-- The answer is a next state in which the instruction has retired and the PC is `g`; x[d] is `v`, each loop level whose body
does not hold `g` has ended, and all else stands. -/
def Transfers (s : State) (o : Out) (d : Reg) (v g : Word) : Prop :=
  ∃ t, o = .next t ∧ (∀ r, t.getX r = if r = d ∧ d ≠ 0 then v else s.getX r) ∧ t.th.pc = g
    ∧ t.th.iret = s.th.iret + 1 ∧ t.th.loop0 = levelAfter s.th.loop0 g ∧ t.th.loop1 = levelAfter s.th.loop1 g
    ∧ KeepsBesideX s.th t.th ∧ KeepsOutside s t ∧ KeepsBytes s t

/-- A transfer to `g` that may trap: a good target is gone to with x[d] written, an odd one raises 0x04 and one past the address
space 0x07, with nothing written (R15, R17, R78). -/
def GoesTo (s : State) (o : Out) (d : Reg) (v g : Word) : Prop :=
  (GoodTarget g → Transfers s o d v g)
    ∧ (g.getLsbD 0 = true → o = .next (s.trap 0x04 g.toNat))
    ∧ (g.getLsbD 0 = false → 2 ^ 56 ≤ g.toNat → o = .next (s.trap 0x07 g.toNat))

/-- A conditional branch (R76). -/
def BranchesTo (s : State) (o : Out) (c : Prop) (g : Word) : Prop := (¬c → WritesNothing s o) ∧ (c → GoesTo s o 0 0 g)

/-! ### At an instruction -/

/-- The thread at hand stands at an instruction that issues: no stop is to be made, nothing is to be sent again or performed before it,
its rival may retire more, no `ixcreate` waits, and nothing is due (R20, R289, R300, R304, R330). -/
def State.AtInstruction (s : State) : Prop :=
  s.th.mayStop = false ∧ s.th.redo = [] ∧ s.spent s.th = false ∧ (∀ a ∈ s.th.acc, a.gen = none ∨ a.stuck ≠ none)
    ∧ s.th.ixReq = none ∧ s.boundaryDue = false

/-! ### Lane instructions -/

/-- No stream is bound to any of the f registers (R95). -/
def State.Unbound (s : State) (rs : List Reg) : Prop := ∀ r ∈ rs, s.streamOf r = none

/-- The thread at hand, but for f registers, flags, the PC and loop state, and what retirement counts. -/
def KeepsBesideF (u v : Thread) : Prop :=
  v = { u with
    f := v.f, live := v.live, fflags := v.fflags, pc := v.pc, loop0 := v.loop0, loop1 := v.loop1, iret := v.iret, packet := v.packet
    relWait := none
    latched := none }

/-- The thread at hand, but for x registers, flags, the PC and loop state, and what retirement counts. -/
def KeepsBesideXFlags (u v : Thread) : Prop :=
  v = { u with
    x := v.x, live := v.live, fflags := v.fflags, pc := v.pc, loop0 := v.loop0, loop1 := v.loop1, iret := v.iret, packet := v.packet
    relWait := none
    latched := none }

/-- The answer is a next state in which f[d] is `v`, the flags `fl` have been raised, the instruction of `len` bytes has retired,
and all else stands (R53). -/
def WritesF (s : State) (o : Out) (len : Nat) (d : Reg) (v : LaneReg) (fl : Flags) : Prop :=
  ∃ t, o = .next t ∧ (∀ r, t.getF r = if r = d then v else s.getF r) ∧ t.th.live = s.th.live ||| (1#64 <<< (32 + d.val))
    ∧ t.th.fflags = s.th.fflags ||| fl ∧ KeepsBesideF s.th t.th ∧ Retires s t len ∧ KeepsOutside s t ∧ KeepsBytes s t

/-- The answer is a next state in which x[d] is `v`, the flags `fl` have been raised, the instruction of 4 bytes has retired, and all
else stands. -/
def WritesXFlags (s : State) (o : Out) (d : Reg) (v : Word) (fl : Flags) : Prop :=
  ∃ t, o = .next t ∧ (∀ r, t.getX r = if r = d ∧ d ≠ 0 then v else s.getX r)
    ∧ t.th.live = (if d = 0 then s.th.live else s.th.live ||| (1#64 <<< d.val))
    ∧ t.th.fflags = s.th.fflags ||| fl ∧ KeepsBesideXFlags s.th t.th ∧ Retires s t 4 ∧ KeepsOutside s t ∧ KeepsBytes s t

/-- The answer writes f[d] lane by lane: lane `i` of `w` bits, for `i` below `n`, gets the bits that `f i` gives and raises its flags;
every lane above is 0 (R53, R93). -/
def LanesTo (s : State) (o : Out) (len w n : Nat) (d : Reg) (f : Nat → Nat × Flags) : Prop :=
  ∃ v, WritesF s o len d v (orFlags ((List.range n).map (fun i => (f i).2)))
    ∧ ∀ i < 256 / w, lane w v i = if i < n then (f i).1 % 2 ^ w else 0

/-- A value converted to an element format (R55, R59): floating formats round to nearest, ties to even; integer formats round so and
saturate, and a NaN gives 0. -/
def convertedTo (f : Nat) (v : Exact) : Nat :=
  let whole (n : Nat) (lo hi : Int) : Nat :=
    wrap n (match v with | .nan _ => 0 | .inf neg => if neg then lo else hi | .fin .. => max lo (min hi (v.toInt nearest).1))
  let signed (n : Nat) : Nat := whole n (-(2 ^ (n - 1))) (2 ^ (n - 1) - 1)
  let unsigned (n : Nat) : Nat := whole n 0 (2 ^ n - 1)
  if f = 0x00 then signed 8 else if f = 0x01 then unsigned 8 else if f = 0x02 then signed 16 else if f = 0x03 then unsigned 16
  else if f = 0x04 then signed 32 else if f = 0x05 then unsigned 32 else if f = 0x06 then signed 64
  else if f = 0x08 then (f16.round nearest false v).1 else if f = 0x09 then (bf16.round nearest false v).1
  else if f = 0x0A then (f32.round nearest false v).1 else (encodeD8 v).1

/-! ### Memory instructions -/

/-- No access of the thread at hand is in flight, and none is held. -/
def State.Clear (s : State) : Prop := s.th.acc = [] ∧ s.th.held = []

/-- A release of the thread at hand at a scope has nothing to wait for: nothing of it is in flight or held, and at system scope no cache
has a word of host or peer memory that it has written (R166, R353). -/
def State.MayRelease (s : State) (o : Order) : Prop := o = .plain ∨ (s.Clear ∧ (o ≠ .sys ∨ s.outsideWords = []))

/-- An access of these operands, as it is issued (R84). -/
def accessOf (op : AccOp) (va : Nat) (scope : Order) (acq : Bool) (reg : Reg) (data : LaneReg) (cmp : Word) (s : State) : Access :=
  ⟨op, va, scope, acq, reg, data, cmp, s.th.uact, s.th.seq, none, none⟩

/-- The answer is a next state in which the access has joined the thread's accesses in flight, as the last in program order, the
instruction has retired, and all else stands, but for what a release at the scope `o` makes visible (R84, R187). -/
def Issues (s : State) (e : Out) (o : Order) (a : Access) : Prop :=
  ∃ t, e = .next t ∧ t.th.acc = s.th.acc ++ [a] ∧ t.th.seq = s.th.seq + 1
    ∧ KeepsBesidePc { s.th with acc := t.th.acc, seq := t.th.seq } t.th
    ∧ Retires s t 4 ∧ KeepsOutside (s.released o) t ∧ KeepsBytes s t

/-- The bytes `bs` stand in local memory from the address `la` of the thread at hand up, and that thread reads them there (R185);
every other byte, of local and of physical memory, is as it was. -/
def StoresLocal (s t : State) (la : Nat) (bs : List Byte) : Prop :=
  (∀ k < bs.length, ∀ j, locKey s.th.slot (s.grantOf s.th.ident) (la + k) = some j → Memory.read t.loc j = bs.getD k 0)
    ∧ t.seeLoc (t.th.view .core) la bs.length = bs
    ∧ (∀ j, (∀ k < bs.length, locKey s.th.slot (s.grantOf s.th.ident) (la + k) ≠ some j) → Memory.read t.loc j = Memory.read s.loc j)
    ∧ ∀ j, Memory.read t.mem j = Memory.read s.mem j

/-- Outside the thread at hand and local memory everything stands, but for what every retirement counts; of what words of local memory
held before, only the words of the `n` bytes from `la` up are added to. A store is first of all the release that a `cwait sc,0` before it
has prepared (R189). -/
def KeepsOutsideLoc (s t : State) (la n : Nat) : Prop :=
  let u := s.fire (s.th.view .core)
  t = { s with
    th := t.th, loc := t.loc, locPast := t.locPast, memPast := u.memPast, now := t.now
    usage := (s.use s.th.ident.vf 0 1).usage, launches := s.launchesCounted }
    ∧ ∀ w, (∀ k ∈ s.wordKeys (s.th.view .core) la n, k.1 / 8 ≠ w) → Tab.find t.locPast w = Tab.find u.locPast w

/-- No write of local or of physical memory is remembered and no word is registered: every reader finds what memory holds
(R185 to R192). -/
def State.Quiet (s : State) : Prop := s.locPast = [] ∧ s.memPast = [] ∧ s.regs = []

/-- No byte of physical memory is poisoned or lost, none belongs to an index or to a key, no word is registered, and no earlier value of
one is remembered. -/
def State.Bare (s : State) : Prop :=
  s.poison = [] ∧ s.bad = [] ∧ s.indexes = [] ∧ s.keys = [] ∧ s.regs = [] ∧ s.memPast = [] ∧ Memory.wf s.mem = true

/-- The thread at hand acts, and access `k` of it is next: the event's slot is its own, and no earlier access to the bytes and no earlier
acquire is to be performed, or held, before it (R18, R166); the release of a replayed access has nothing to wait for (R301, R353). -/
def State.NextAccess (s : State) (a : Access) : Prop :=
  s.th.bound = true ∧ s.ev.unit = s.th.slot ∧ s.th.acc[s.ev.idx]? = some a ∧ a.stuck = none ∧ s.th.mayPerform a = true ∧ s.th.behind a = none
    ∧ (a.releases = false ∨ a.scope ≠ .sys ∨ s.outsideWords = [])

/-- The state in which an access is translated: a replayed one that releases has made its release (R301). -/
def State.beforeAccess (s : State) (a : Access) : State := if a.releases then s.released a.scope else s

/-- The request by which an access of the thread at hand is translated (R316). -/
def State.reqOf (s : State) (a : Access) : Req := s.th.owner.req a.op.kind a.gen

/-- The access lies in one line and translates to the untracked bytes at `p.pa`, which no mark of poison and no error touches, no index
or key claims and no core has registered; `u` is the state after the translation. -/
def State.Plainly (s : State) (a : Access) (p : Phys) (u : State) : Prop :=
  lineParts a.va a.op.bytes = [(a.va, a.op.bytes)] ∧ (s.beforeAccess a).translate (s.reqOf a) a.va = (.ok p, u) ∧ p.tracked = false
    ∧ pteRetag p.leaf = false ∧ u.Bare

/-- As `Plainly`, of an access that translates to tracked bytes in one word (R163). -/
def State.TrackedPlainly (s : State) (a : Access) (p : Phys) (u : State) : Prop :=
  lineParts a.va a.op.bytes = [(a.va, a.op.bytes)] ∧ (s.beforeAccess a).translate (s.reqOf a) a.va = (.ok p, u) ∧ p.tracked = true
    ∧ pteRetag p.leaf = false ∧ u.Bare ∧ p.pa % 8 + a.op.bytes ≤ 8

/-- The thread at hand, but for x registers, its accesses in flight and what its acquires have made it see; these stand unless the access
is an acquire. -/
def KeepsBesideLoad (a : Access) (u v : Thread) : Prop :=
  v = { u with x := v.x, live := v.live, acc := v.acc, gangSeen := v.gangSeen, devSeen := v.devSeen, sysSeen := v.sysSeen }
    ∧ (a.acq = false → v.gangSeen = u.gangSeen ∧ v.devSeen = u.devSeen ∧ v.sysSeen = u.sysSeen)

/-! ### The memory stacks -/

/-- The handler that an NMU runs goes on: its registers, its buffer and its place are as given, and all else stands. -/
def HandlerGoes (s : State) (o : Out) (n : Nat) (h : Handler) (m : Vector (BitVec 32) 16) (buf : Tab (BitVec 32)) (pc : Nat) : Prop :=
  o = .next { s with nmus := Tab.put s.nmus n { s.nmu n with run := some { h with m := m, buf := buf, pc := pc } } }

/-- A message ends with a status: its record in local memory holds its registers and the status, its sync word has heard of it, and
the unit runs nothing (R262). `w` is the state in which the handler's own work is done. -/
def MessageEnds (w t : State) (n : Nat) (m : NmMsg) (ms : List (BitVec 32)) (status : Nat) : Prop :=
  let done := ((w.putElems 4 m.view (m.raddr + 16) ((ms.take 8).flatMap (fun v => bytesOf 4 v.toNat))).putEngine m.view
    (m.raddr + 56) (bytesOf 1 status)).arrive m.owner m.sync 64 (status != 0)
  (t.nmu n).run = none ∧ t.loc = done.loc ∧ t.locPast = done.locPast

/-! ### The proximity index -/

/-- Of two results, the first stands before the second or beside it (R279): distances compare as values, a NaN stands after all
others, and of equal distances the lower id comes first. -/
def InOrder (a b : Exact × IxEntry) : Prop :=
  (a.1.isNan = true → b.1.isNan = true ∧ a.2.id ≤ b.2.id)
    ∧ (a.1.isNan = false → b.1.isNan = false → a.1.cmp b.1 = some .lt ∨ (a.1.cmp b.1 = some .eq ∧ a.2.id ≤ b.2.id))

/-! ### Rows -/

/-- A row of physical memory after another state's, and every other byte as it was. -/
def RowBecomes (s t : State) (row : Nat) (bs : List Byte) : Prop :=
  ∀ j, Memory.read t.mem j = if row ≤ j ∧ j < row + 1024 then bs.getD (j - row) 0 else Memory.read s.mem j

end Sys2Proof.Machine
end

