-- ==== Sys2Proof/Certificates/Slice0/Obligations.lean ====
section
/-!
DEFINITION. Sys2Proof/Certificates/Slice0/Obligations.lean: what is claimed of the machine, rule by rule of the spec.
-/
open Sys2Proof Sys2Proof.Machine

/-! ### Integer instructions -/

/-- R66: what each instruction of major 0x00 writes to x[d], for every operand; everything else stands (x0 discards what is written to it).
R68 to R70: what the immediate forms write to x[d]; the immediate is sign-extended, and `sltzi` compares it as an unsigned 64-bit number;
`lim` and `lpc` shift theirs left by 12. R72: each element of x[a] is counted on its own, and its count is written into the same element of
x[d]: leading zeros, trailing zeros, the lowest set bit, and set bits. R74 and R75: products are exact before the part shown is taken,
quotients are truncated toward zero, and the corner cases of R75 hold: division never traps. -/
def Obligations.IntegerResults : Prop :=
  (∀ (s : State) (d a b c : Reg),
      let x := s.getX a
      let y := s.getX b
      let n := y.toNat % 64
      WritesX s (exec (.add d a b) s) d (x + y)
      ∧ WritesX s (exec (.sub d a b) s) d (x - y)
      ∧ WritesX s (exec (.and d a b) s) d (x &&& y)
      ∧ WritesX s (exec (.or d a b) s) d (x ||| y)
      ∧ WritesX s (exec (.xor d a b) s) d (x ^^^ y)
      ∧ WritesX s (exec (.andn d a b) s) d (x &&& ~~~y)
      ∧ WritesX s (exec (.shl d a b) s) d (x <<< n)
      ∧ WritesX s (exec (.shr d a b) s) d (x >>> n)
      ∧ WritesX s (exec (.sra d a b) s) d (x.sshiftRight n)
      ∧ WritesX s (exec (.slt d a b) s) d (if x.toInt < y.toInt then 1 else 0)
      ∧ WritesX s (exec (.sltz d a b) s) d (if x.toNat < y.toNat then 1 else 0)
      ∧ WritesX s (exec (.min d a b) s) d (if x.toInt < y.toInt then x else y)
      ∧ WritesX s (exec (.max d a b) s) d (if x.toInt < y.toInt then y else x)
      ∧ WritesX s (exec (.minz d a b) s) d (if x.toNat < y.toNat then x else y)
      ∧ WritesX s (exec (.maxz d a b) s) d (if x.toNat < y.toNat then y else x)
      ∧ WritesX s (exec (.sel d a b c) s) d (if x ≠ 0 then y else s.getX c)
      ∧ WritesX s (exec (.addw d a b) s) d (((x + y).setWidth 32).signExtend 64)
      ∧ WritesX s (exec (.subw d a b) s) d (((x - y).setWidth 32).signExtend 64)
      ∧ WritesX s (exec (.rotl d a b) s) d (x.rotateLeft n)
      ∧ WritesX s (exec (.rotr d a b) s) d (x.rotateRight n))
  ∧ (∀ (s : State) (d a : Reg) (i : BitVec 15) (n : Fin 64) (v : BitVec 20),
      let x := s.getX a
      let imm := i.signExtend 64
      WritesX s (exec (.addi d a i) s) d (x + imm)
      ∧ WritesX s (exec (.andi d a i) s) d (x &&& imm)
      ∧ WritesX s (exec (.ori d a i) s) d (x ||| imm)
      ∧ WritesX s (exec (.xori d a i) s) d (x ^^^ imm)
      ∧ WritesX s (exec (.slti d a i) s) d (if x.toInt < i.toInt then 1 else 0)
      ∧ WritesX s (exec (.sltzi d a i) s) d (if x.toNat < imm.toNat then 1 else 0)
      ∧ WritesX s (exec (.shli d a n) s) d (x <<< n.val)
      ∧ WritesX s (exec (.shri d a n) s) d (x >>> n.val)
      ∧ WritesX s (exec (.srai d a n) s) d (x.sshiftRight n.val)
      ∧ WritesX s (exec (.lim d v) s) d (BitVec.ofInt 64 (v.toInt * 4096))
      ∧ WritesX s (exec (.lpc d v) s) d (s.th.pc + BitVec.ofInt 64 (v.toInt * 4096)))
  ∧ (∀ (s : State) (ew : ElemWidth) (d a : Reg),
      let n := elemBits ew
      let elem (w : Word) (k : Nat) : Nat := fld w.toNat (n * k) n
      (∃ v, WritesX s (exec (.clz ew d a) s) d v ∧ ∀ k < 64 / n,
        (elem (s.getX a) k = 0 → elem v k = n)
        ∧ (elem (s.getX a) k ≠ 0 → elem v k < n ∧ 2 ^ (n - 1 - elem v k) ≤ elem (s.getX a) k ∧ elem (s.getX a) k < 2 ^ (n - elem v k)))
      ∧ (∃ v, WritesX s (exec (.ctz ew d a) s) d v ∧ ∀ k < 64 / n,
        (elem (s.getX a) k = 0 → elem v k = n)
        ∧ (elem (s.getX a) k ≠ 0 → (elem (s.getX a) k).testBit (elem v k) = true ∧ 2 ^ elem v k ∣ elem (s.getX a) k))
      ∧ (∃ v, WritesX s (exec (.ffs ew d a) s) d v ∧ ∀ k < 64 / n,
        (elem (s.getX a) k = 0 → elem v k = 0)
        ∧ (elem (s.getX a) k ≠ 0 → 1 ≤ elem v k ∧ (elem (s.getX a) k).testBit (elem v k - 1) = true ∧ 2 ^ (elem v k - 1) ∣ elem (s.getX a) k))
      ∧ (∃ v, WritesX s (exec (.popc ew d a) s) d v ∧ ∀ k < 64 / n,
        elem v k = ((List.range n).filter (fun j => (elem (s.getX a) k).testBit j)).length))
  ∧ (∀ (s : State) (d a b : Reg),
      let x := s.getX a
      let y := s.getX b
      WritesX s (exec (.mul d a b) s) d (BitVec.ofNat 64 (x.toNat * y.toNat))
      ∧ WritesX s (exec (.mulh d a b) s) d (BitVec.ofInt 64 (x.toInt * y.toInt / 2 ^ 64))
      ∧ WritesX s (exec (.mulhz d a b) s) d (BitVec.ofNat 64 (x.toNat * y.toNat / 2 ^ 64))
      ∧ WritesX s (exec (.mulhsz d a b) s) d (BitVec.ofInt 64 (x.toInt * y.toNat / 2 ^ 64))
      ∧ WritesX s (exec (.mulw d a b) s) d (((x * y).setWidth 32).signExtend 64)
      ∧ WritesX s (exec (.div d a b) s) d (if y = 0 then BitVec.ofInt 64 (-1) else BitVec.ofInt 64 (x.toInt.tdiv y.toInt))
      ∧ WritesX s (exec (.divz d a b) s) d (if y = 0 then BitVec.ofNat 64 (2 ^ 64 - 1) else BitVec.ofNat 64 (x.toNat / y.toNat))
      ∧ WritesX s (exec (.rem d a b) s) d (if y = 0 then x else x - y * BitVec.ofInt 64 (x.toInt.tdiv y.toInt))
      ∧ WritesX s (exec (.remz d a b) s) d (if y = 0 then x else BitVec.ofNat 64 (x.toNat % y.toNat)))

/-- R72 and R73: bit i of `rev` is bit 63 - i of x[a], byte i of `bswap` is byte 7 - i; `bext` reads the field at x[b] bits [5:0] of length
x[c] bits [6:0], at most 64, and `bins` replaces it in x[d]. -/
def Obligations.BitFields : Prop :=
  ∀ (s : State) (d a b c : Reg),
    let pos := (s.getX b).toNat % 64
    let len := min ((s.getX c).toNat % 128) 64
    (∃ v, WritesX s (exec (.rev d a) s) d v ∧ ∀ i < 64, v.getLsbD i = (s.getX a).getLsbD (63 - i))
    ∧ (∃ v, WritesX s (exec (.bswap d a) s) d v ∧ ∀ i < 64, v.getLsbD i = (s.getX a).getLsbD (8 * (7 - i / 8) + i % 8))
    ∧ (∃ v, WritesX s (exec (.bext d a b c) s) d v ∧ ∀ i < 64, v.getLsbD i = (decide (i < len) && (s.getX a).getLsbD (pos + i)))
    ∧ (∃ v, WritesX s (exec (.bins d a b c) s) d v ∧ ∀ i < 64,
        v.getLsbD i = if pos ≤ i ∧ i < pos + len then (s.getX a).getLsbD (i - pos) else (s.getX d).getLsbD i)

/-! ### Control -/

/-- R76 and R78: each branch compares x[a] and x[b]; where its condition holds it transfers to PC + 2 * offset, and else it does nothing but
retire. R77 and R78: `jal` and `jalr` write PC + 4 to x[d] and transfer; `jalr` reads x[a] before it writes x[d]. -/
def Obligations.BranchesAndJumps : Prop :=
  (∀ (s : State) (a b : Reg) (o : BitVec 15),
      let x := s.getX a
      let y := s.getX b
      let g := s.th.pc + BitVec.ofInt 64 (2 * o.toInt)
      BranchesTo s (exec (.beq a b o) s) (x = y) g
      ∧ BranchesTo s (exec (.bne a b o) s) (x ≠ y) g
      ∧ BranchesTo s (exec (.blt a b o) s) (x.toInt < y.toInt) g
      ∧ BranchesTo s (exec (.bge a b o) s) (y.toInt ≤ x.toInt) g
      ∧ BranchesTo s (exec (.blo a b o) s) (x.toNat < y.toNat) g
      ∧ BranchesTo s (exec (.bhs a b o) s) (y.toNat ≤ x.toNat) g)
  ∧ (∀ (s : State) (d a : Reg) (i : BitVec 15) (j : BitVec 20),
      GoesTo s (exec (.jal d j) s) d (s.th.pc + 4) (s.th.pc + BitVec.ofInt 64 (2 * j.toInt))
      ∧ GoesTo s (exec (.jalr d a i) s) d (s.th.pc + 4) (s.getX a + i.signExtend 64))

/-- R81: the end check of an instruction that makes no transfer: at the end of the inner level a pass is counted and control returns to its
start, or the level ends and the outer level is checked; an inner level that is active and does not end here leaves the outer one alone.
R80: a loop instruction at which an active level ends, or that finds no free level, or whose body would not lie inside the outer one, raises
0x11; else a count that is not 0 takes the outer level if it is free and the inner one if not, and control goes on with the body; a count of
0 goes on past the body, after the end check at the body's last instruction, which is 2 or 4 bytes long, or, a modifier word and what it
prefixes, 8. What the model chose in it: the log's entry 64. -/
def Obligations.HardwareLoops : Prop :=
  (∀ (s : State) (n : Nat), LevelsEnd s.th (s.retire n).th s.th.pc (s.pcPlus n))
  ∧ (∀ (s : State) (i : Instr) (c : Word) (e : Fin 1024),
      ((∃ a, i = .loop a e ∧ c = s.getX a) ∨ (∃ n : Fin 32, i = .loopi n e ∧ c = BitVec.ofNat 64 n.val)) →
      let t := s.th
      let last := s.pcPlus (4 + 2 * (e.val - 1))
      let l : Loop := ⟨s.pcPlus 4, last, c, true⟩
      (¬t.plainAt t.pc → exec i s = .next (s.trapWord 0x11 i))
      ∧ (t.plainAt t.pc → c ≠ 0 → t.loop0.flag = false →
        ∃ u, exec i s = .next u ∧ u.th.loop0 = l ∧ u.th.loop1 = t.loop1 ∧ u.th.pc = s.pcPlus 4 ∧ u.th.iret = t.iret + 1
          ∧ KeepsBesidePc t u.th ∧ KeepsOutside s u ∧ KeepsBytes s u)
      ∧ (t.plainAt t.pc → c ≠ 0 → t.loop0.flag = true → t.loop1.flag = false → last ≤ t.loop0.last →
        ∃ u, exec i s = .next u ∧ u.th.loop0 = t.loop0 ∧ u.th.loop1 = l ∧ u.th.pc = s.pcPlus 4 ∧ u.th.iret = t.iret + 1
          ∧ KeepsBesidePc t u.th ∧ KeepsOutside s u ∧ KeepsBytes s u)
      ∧ (t.plainAt t.pc → c ≠ 0 → t.loop0.flag = true → (t.loop1.flag = true ∨ t.loop0.last < last) →
        exec i s = .next (s.trapWord 0x11 i))
      ∧ (∀ h r, t.plainAt t.pc → c = 0 → s.fetchHalf last.toNat = (.ok h, r) →
        let after := pcBits (last + (if h.toNat % 2 = 0 then 2 else if major h.toNat = 0x30 then 8 else 4))
        ∃ u, exec i s = .next u ∧ LevelsEnd t u.th last after ∧ u.th.iret = t.iret + 1
          ∧ KeepsBesidePc t u.th ∧ KeepsOutside r u ∧ KeepsBytes r u)
      ∧ (∀ k q r, t.plainAt t.pc → c = 0 → s.fetchHalf last.toNat = (.error (k, q), r) → exec i s = .next (r.trap k q)))

/-- R11, R12 and R90: `srd` of each assigned state register writes its value to x[d]; of an unassigned number it raises 0x02. -/
def Obligations.StateRegisterReads : Prop :=
  ∀ (s : State) (d : Reg),
    let t := s.th
    let reads (n : Fin 1024) (v : Word) : Prop := WritesX s (exec (.srd d n) s) d v
    reads 0x000 t.status ∧ reads 0x001 t.epc ∧ reads 0x002 t.cause ∧ reads 0x003 t.tval ∧ reads 0x004 t.uvec
    ∧ reads 0x005 t.usave ∧ reads 0x006 t.noticeWord ∧ reads 0x010 (BitVec.ofNat 64 (s.clock + Tab.get s.skew (t.slot / 1280) 0)) ∧ reads 0x011 t.iret
    ∧ reads 0x020 (BitVec.ofNat 64 (t.slot % 8)) ∧ reads 0x021 (BitVec.ofNat 64 (t.slot / 8 % 8))
    ∧ reads 0x022 (BitVec.ofNat 64 (t.slot / 64 % 20)) ∧ reads 0x023 (BitVec.ofNat 64 (t.slot / 1280))
    ∧ reads 0x024 (BitVec.ofNat 64 s.cfg.device) ∧ reads 0x025 (BitVec.ofNat 64 t.ident.gang)
    ∧ reads 0x026 (BitVec.ofNat 64 t.ident.grank) ∧ reads 0x027 (BitVec.ofNat 64 t.gsize)
    ∧ reads 0x028 (BitVec.ofNat 64 t.ident.launch) ∧ reads 0x029 (BitVec.ofNat 64 t.ident.vf)
    ∧ reads 0x030 (BitVec.ofNat 64 (s.counter t .lc)) ∧ reads 0x031 (BitVec.ofNat 64 (s.counter t .sc))
    ∧ reads 0x032 (BitVec.ofNat 64 (s.counter t .yc)) ∧ reads 0x033 (BitVec.ofNat 64 (s.counter t .mc))
    ∧ reads 0x034 (BitVec.ofNat 64 (s.counter t .tc)) ∧ reads 0x035 (BitVec.ofNat 64 (s.counter t .nc))
    ∧ reads 0x036 (BitVec.ofNat 64 (s.counter t .ic)) ∧ reads 0x040 (t.rmode.setWidth 64)
    ∧ reads 0x041 (t.fflags.setWidth 64) ∧ reads 0x042 (t.othresh.setWidth 64) ∧ reads 0x043 (t.clamplo.setWidth 64)
    ∧ reads 0x044 (t.clamphi.setWidth 64) ∧ reads 0x048 t.loop0.beg ∧ reads 0x049 t.loop0.last ∧ reads 0x04A t.loop0.cnt
    ∧ reads 0x04B (if t.loop0.flag then 1 else 0) ∧ reads 0x04C t.loop1.beg ∧ reads 0x04D t.loop1.last
    ∧ reads 0x04E t.loop1.cnt ∧ reads 0x04F (if t.loop1.flag then 1 else 0) ∧ reads 0x050 t.score
    ∧ reads 0x051 (BitVec.ofNat 64 (t.ident.rival.getD 0)) ∧ reads 0x052 (BitVec.ofNat 64 ((s.ownRival.map (fun r => r.1.round)).getD 0))
    ∧ reads 0x054 (BitVec.ofNat 64 ((s.ownRival.map (fun r => r.2.limit % 2 ^ 24 + 2 ^ 24 * r.2.share.length)).getD 0))
    ∧ reads 0x053 (BitVec.ofNat 64 s.allowLeft) ∧ reads 0x060 t.leaseWord ∧ reads 0x070 t.mstride ∧ reads 0x071 t.mrow
    ∧ reads 0x072 s.ringWord
    ∧ (∀ n : Fin 1024, s.srRead n.val = none → exec (.srd d n) s = .next (s.trapWord 0x02 (.srd d n)))
    ∧ (∀ n : Fin 1024, (0x006 < n.val ∧ n.val < 0x010) ∨ (0x011 < n.val ∧ n.val < 0x020) ∨ (0x029 < n.val ∧ n.val < 0x030)
        ∨ (0x036 < n.val ∧ n.val < 0x040) ∨ (0x044 < n.val ∧ n.val < 0x048) ∨ (0x054 < n.val ∧ n.val < 0x060)
        ∨ (0x060 < n.val ∧ n.val < 0x070) ∨ 0x072 < n.val → s.srRead n.val = none)

/-- R12 and R82: `swr` of a writable state register leaves in it what the register keeps of x[a], and every other state register but iret
and the allowance as it was, where no loop level ends at it and the loop state that it writes is allowed; of a read-only or an unassigned
number it raises 0x02; with an inner level active and no outer one it raises 0x11. What the model chose in it: the log's entry 64. -/
def Obligations.StateRegisterWrites : Prop :=
  ∀ (s : State) (n : Fin 1024) (a : Reg),
    let v := s.getX a
    let kept : Option Word :=
      if n.val ∈ [0x001, 0x002, 0x003, 0x04A, 0x04E, 0x050, 0x070, 0x071] then some v
      else if n.val ∈ [0x004, 0x048, 0x049, 0x04C, 0x04D] then some (v &&& ~~~1#64)
      else if n.val = 0x005 then some (v &&& 0x3FC0#64)
      else if n.val = 0x040 then some (v &&& 3#64)
      else if n.val = 0x041 then some (v &&& 0x7F#64)
      else if n.val ∈ [0x042, 0x043, 0x044] then some (v &&& 0xFFFFFFFF#64)
      else if n.val ∈ [0x04B, 0x04F] then some (v &&& 1#64)
      else none
    (kept = none → exec (.swr n a) s = .next (s.trapWord 0x02 (.swr n a)))
    ∧ (∀ w u, kept = some w → s.th.srWrite n.val v = some u → (u.loop1.flag = true ∧ u.loop0.flag = false) →
      exec (.swr n a) s = .next (s.trapWord 0x11 (.swr n a)))
    ∧ (∀ w u, kept = some w → s.th.srWrite n.val v = some u → ¬(u.loop1.flag = true ∧ u.loop0.flag = false) →
      ∃ t, exec (.swr n a) s = .next t ∧ t.srRead n.val = some w ∧ (∀ r, t.getX r = s.getX r) ∧ (∀ r, t.getF r = s.getF r)
        ∧ t.th.iret = s.th.iret + 1
        ∧ (s.th.plainAt s.th.pc → t.th.pc = s.pcPlus 4 ∧
          ∀ m, m ≠ n.val → m ≠ 0x011 → m ≠ 0x053 → t.srRead m = s.srRead m)
        ∧ KeepsOutside s t ∧ KeepsBytes s t)

/-- R43, R89 and R142: `sys` raises 0x14 with x[a], `brk` 0x13 with its word, in either mode, with epc at the instruction; `udf` raises 0x01
for every value of its bits [31:7], and so does each word of the majors 0x31 to 0x3E, with the word as tval. Inside an open packet `sys` and
`brk` raise 0x12 (R142). -/
def Obligations.SoftwareTraps : Prop :=
  ∀ (s : State) (a : Reg) (u : BitVec 25),
    (s.th.packet = none → exec (.sys a) s = .next (s.trap 0x14 (s.getX a).toNat))
    ∧ (s.th.packet = none → exec .brk s = .next (s.trap 0x13 0x20000043))
    ∧ (s.th.packet ≠ none → exec (.sys a) s = .next (s.trapWord 0x12 (.sys a)) ∧ exec .brk s = .next (s.trapWord 0x12 .brk))
    ∧ (s.reported 0x14 = false → s.th.packet = none → s.th.mownWait = false → s.th.mma = none → (s.trap 0x14 (s.getX a).toNat).th.epc = s.th.pc)
    ∧ (s.reported 0x13 = false → s.th.packet = none → s.th.mownWait = false → s.th.mma = none → (s.trap 0x13 0x20000043).th.epc = s.th.pc)
    ∧ exec (.udf u) s = .next (s.trap 0x01 (127 + 128 * u.toNat))
    ∧ (∀ w, w % 2 = 1 → major w = 0x3F → decode w = .ok (.udf (BitVec.ofNat 25 (w / 128))))
    ∧ (∀ w v, s.AtInstruction → s.fetch = (.ok w, v) → w % 2 = 1 →
      0x31 ≤ major w → major w ≤ 0x3E → s.prepare = .done (v.trap 0x01 (w % 2 ^ 32)))

/-- R22: a cause that is not reported enters the handler: sr.epc is the address (of the instruction at hand, where the cause is a trap),
sr.cause and sr.tval the cause and its qualifier, the loop state is 0, status.uact is 1 and the PC is sr.uvec; an open packet is aborted, so
that its sync word is to count what it carries with the error flag (R142), and the thread no longer waits for the matrix unit, nor in an
`mma`, whose command ends (R230); all else is as it was, the registers and every other byte among it. R295: the fault record that stands at
sr.usave, where every reader finds it, field by field. -/
def Obligations.TrapEntersHandler : Prop :=
  (∀ (s : State) (a v : Word) (c : Nat) (records : Bool), s.reported c = false → Memory.wf s.loc = true →
      let t := s.upcall a c v records
      t.th.epc = a ∧ t.th.cause = BitVec.ofNat 64 c ∧ t.th.tval = v ∧ t.th.loop0 = Loop.none ∧ t.th.loop1 = Loop.none
      ∧ t.th.uact = true ∧ t.th.pc = pcBits s.th.uvec ∧ t.th.iret = s.th.iret ∧ t.th.x = s.th.x ∧ t.th.f = s.th.f
      ∧ t.th = { s.th with
          epc := t.th.epc, cause := t.th.cause, tval := t.th.tval, loop0 := t.th.loop0, loop1 := t.th.loop1, uact := t.th.uact
          pc := t.th.pc, packet := none, mownWait := false, mma := none, swWait := none, stalled := false, relWait := none, latched := none
          held := s.th.held.map (fun h => { h with late := false })
          acc := s.th.acc.map (fun b => { b with stuck := b.stuck.map (fun w => { w with late := false }) }) }
      ∧ t = { s with th := t.th, loc := t.loc, locPast := t.locPast, counts := t.counts, units := t.units }
      ∧ (s.th.mownWait = false → s.th.mma = none → t.units = s.units)
      ∧ (s.th.mownWait = false → s.th.mma ≠ none → t.unitOf (coreOf s.th.slot) =
          { s.unitOf (coreOf s.th.slot) with mc := (s.unitOf (coreOf s.th.slot)).mc - 1 })
      ∧ (s.th.packet = none → t.counts = s.counts)
      ∧ (∀ p, s.th.packet = some p → ∃ e, t.counts = s.counts ++ [e] ∧ e.packet = p.id ∧ e.src = s.th.ident ∧ e.bytes = p.off
          ∧ e.error = true ∧ (p.sync = 0 → e.sync = none))
      ∧ (∀ k < 128, Memory.read t.loc (s.th.slot * 0x4000 + s.th.usave.toNat + k) =
          (faultRecord s.th a c v records (s.th.held.any (·.parked))).getD k 0)
      ∧ (∀ w, s.th.slot * 0x4000 + s.th.usave.toNat < 8 * w + 8 → 8 * w < s.th.slot * 0x4000 + s.th.usave.toNat + 128 → s.th.usave.toNat % 64 = 0 →
          Tab.find t.locPast w = none)
      ∧ (∀ j, (j < s.th.slot * 0x4000 + s.th.usave.toNat ∨ s.th.slot * 0x4000 + s.th.usave.toNat + 128 ≤ j) →
          Memory.read t.loc j = Memory.read s.loc j))
  ∧ (∀ (s : State) (c q : Nat), s.trap c q = s.upcall s.th.pc c (BitVec.ofNat 64 q) false)
  ∧ (∀ (t : Thread) (a : Word) (c : Nat) (v : Word) (records parked : Bool), c < 256 → t.held.length ≤ 8 →
      let f := faultRecord t a c v records parked
      let n (k len : Nat) : Nat := natOf ((f.drop k).take len)
      f.length = 128 ∧ n 0 8 = a.toNat ∧ n 8 8 = v.toNat ∧ n 16 1 = c ∧ n 17 1 = t.held.length
      ∧ n 18 1 = records.toNat + 2 * parked.toNat ∧ n 19 1 = 0 ∧ (∀ j < 8, t.held.length ≤ j → n (32 + 5 * j) 5 = 0) ∧ n 24 8 = (if c = 0x16 then v.toNat else 0)
      ∧ (∀ j h, t.held[j]? = some h → n 20 2 / 4 ^ j % 4 = kindCode h.cause ∧ n 22 1 / 2 ^ j % 2 = h.write.toNat
          ∧ n 23 1 / 2 ^ j % 2 = h.engine.toNat ∧ n (32 + 5 * j) 5 = h.va / 65536 % 2 ^ 40)
      ∧ n 72 8 = t.loop0.flag.toNat + 2 * t.loop1.flag.toNat ∧ n 80 8 = t.loop0.beg.toNat ∧ n 88 8 = t.loop0.last.toNat
      ∧ n 96 8 = t.loop0.cnt.toNat ∧ n 104 8 = t.loop1.beg.toNat ∧ n 112 8 = t.loop1.last.toNat ∧ n 120 8 = t.loop1.cnt.toNat)

/-- R300 and R301: with status.uact 1, a fault record whose loop flags are allowed and a good sr.epc, `uret` clears status.uact, takes the
loop state from the fault record, goes to sr.epc and parks the records that it lists; `uret.replay` leaves no record held: what they
recorded is sent again in their order, an access as it was, a command behind what its queue holds, each with the page-table generation that
the device has now (R321), and one whose queue has no room, later. With status.uact 0 both raise 0x01; a record with the inner level alone
active raises 0x11, a bad sr.epc 0x04 or 0x07. What the model chose in it: the log's entries 12, 13, 64 and 66. -/
def Obligations.ReturnFromHandler : Prop :=
  ∀ s : State,
    let f := s.readLoc s.th.owner s.th.usave.toNat 128
    let n (k len : Nat) : Nat := natOf ((f.drop k).take len)
    let bad := n 72 8 % 2 = 0 ∧ n 72 8 / 2 % 2 = 1
    let back (t : State) : Prop :=
      t.th.uact = false ∧ t.th.pc = s.th.epc ∧ t.th.iret = s.th.iret + 1
      ∧ t.th.loop0.flag = (n 72 8 % 2 == 1) ∧ t.th.loop1.flag = (n 72 8 / 2 % 2 == 1)
      ∧ t.th.loop0.beg = BitVec.ofNat 64 (n 80 8) &&& ~~~1#64 ∧ t.th.loop0.last = BitVec.ofNat 64 (n 88 8) &&& ~~~1#64
      ∧ t.th.loop0.cnt = BitVec.ofNat 64 (n 96 8) ∧ t.th.loop1.beg = BitVec.ofNat 64 (n 104 8) &&& ~~~1#64
      ∧ t.th.loop1.last = BitVec.ofNat 64 (n 112 8) &&& ~~~1#64 ∧ t.th.loop1.cnt = BitVec.ofNat 64 (n 120 8)
      ∧ t.th.x = s.th.x ∧ t.th.f = s.th.f ∧ t.th.uvec = s.th.uvec ∧ t.th.epc = s.th.epc ∧ KeepsBytes s t
    (s.th.uact = false → exec .uret s = .next (s.trapWord 0x01 .uret) ∧ exec .uretReplay s = .next (s.trapWord 0x01 .uretReplay))
    ∧ (s.th.uact = true → bad → exec .uret s = .next (s.trapWord 0x11 .uret))
    ∧ (s.th.uact = true → ¬bad → s.th.epc.getLsbD 0 = true → exec .uret s = .next (s.trap 0x04 s.th.epc.toNat))
    ∧ (s.th.uact = true → ¬bad → s.th.epc.getLsbD 0 = false → 2 ^ 56 ≤ s.th.epc.toNat →
      exec .uret s = .next (s.trap 0x07 s.th.epc.toNat))
    ∧ (s.th.uact = true → ¬bad → GoodTarget s.th.epc →
      (∃ t, exec .uret s = .next t ∧ back t
        ∧ t.th.held = s.th.held.map (fun h => if h.late then { h with late := false } else { h with parked := true }))
      ∧ (∃ t, exec .uretReplay s = .next t ∧ back t ∧ t.th.held = [])
      ∧ (s.th.acc = [] →
        let queue := s.copyQueue (coreOf s.th.slot)
        (∀ l : List Access, s.th.held.map (·.what) = l.map Redo.acc → l.length ≤ 16 → ∃ t, exec .uretReplay s = .next t ∧ t.th.redo = []
          ∧ t.th.acc = l.map (fun a => { a with gen := some s.gd, stuck := none }))
        ∧ (∀ l : List CopyCmd, s.th.held.map (·.what) = l.map Redo.copy → queue.length + l.length ≤ 16 → s.counter s.th .yc + l.length ≤ 4 →
          ∃ t, exec .uretReplay s = .next t ∧ t.th.redo = [] ∧ t.copyQueue (coreOf s.th.slot) =
            queue ++ l.map (fun c => { c with gen := some s.gd, owner := s.th.owner, view := s.th.view .copy }))
        ∧ (∀ l : List TableCmd, s.th.held.map (·.what) = l.map Redo.table → s.counter s.th .tc + l.length ≤ 16 →
          ∃ t, exec .uretReplay s = .next t ∧ t.th.redo = [] ∧ t.tableQ =
            s.tableQ ++ l.map (fun c => { c with gen := some s.gd, owner := s.th.owner, view := s.th.view .table }))
        ∧ (∀ l : List NmMsg, s.th.held.map (·.what) = l.map Redo.nm → s.counter s.th .nc + l.length ≤ 8 →
          ∃ t, exec .uretReplay s = .next t ∧ t.th.redo = [] ∧ t.nmQ =
            s.nmQ ++ l.map (fun m => { m with gen := some s.gd, owner := s.th.owner, view := s.th.view .nm }))
        ∧ (∀ g, s.th.held.map (·.what) = [Redo.drain g] → ∃ t, exec .uretReplay s = .next t ∧ t.th.redo = []
          ∧ (t.unitOf (coreOf s.th.slot)).held = false ∧ (t.unitOf (coreOf s.th.slot)).gen = some s.gd
          ∧ (t.unitOf (coreOf s.th.slot)).row = (s.unitOf (coreOf s.th.slot)).row)
        ∧ (∀ h r c, s.th.held = h :: r → h.what = Redo.copy c → (16 ≤ queue.length ∨ 4 ≤ s.counter s.th .yc) →
          ∃ t, exec .uretReplay s = .next t ∧ t.copyQ = s.copyQ
            ∧ t.th.redo.map (·.what) = (h :: r).map (fun k => k.what.stamp s.gd))))

/-- R19 and R88: `yield` drops its core's copies of code, fetches from then on what has been released by then, and does nothing else but
retire; inside an open packet it raises 0x12 (R142). R87 and R153: `exit` with every counter 0, no drain owed and nothing held ends its
thread: the slot is free and its private slice zero, every byte outside the slice stands, and the gang notes the rank with the least exit
value. With work outstanding the instruction waits. Inside an open packet it raises 0x12. What the model chose in it: the log's entries 55
and 63. -/
def Obligations.YieldAndExit : Prop :=
  (∀ s : State,
      (s.th.packet ≠ none → exec .yield s = .next (s.trapWord 0x12 .yield))
      ∧ (s.th.packet = none → ∃ t, exec .yield s = .next t
        ∧ (∀ fn va, fn < 129 → va < 2 ^ 56 → Tab.find t.icache (icKey (coreOf s.th.slot) fn va) = none)
        ∧ KeepsBesidePc { s.th with codeSeen := s.now } t.th ∧ Retires s t 4 ∧ KeepsBytes s t
        ∧ t = { s with th := t.th, usage := (s.use s.th.ident.vf 0 1).usage, launches := s.launchesCounted, icache := t.icache }))
  ∧ (∀ (s : State) (a : Reg),
      let unit := s.unitOf (coreOf s.th.slot)
      (s.th.packet ≠ none → exec (.exit a) s = .next (s.trapWord 0x12 (.exit a)))
      ∧ (s.th.packet = none → s.ownWhy = [] → s.quiet = false → exec (.exit a) s = .next (s.stall.inRelease .dev))
      ∧ (s.th.packet = none → s.ownWhy = [] → s.quiet = true → (s.ownsUnit s.th.slot = false ∨ unit.owed = 0) →
        ∃ t, exec (.exit a) s = .next t ∧ t.th = Thread.idle ∧ t.others = s.others
          ∧ (∀ j, Memory.read t.loc j =
              if s.th.slot * 0x4000 ≤ j ∧ j < s.th.slot * 0x4000 + 0x4000 then 0 else Memory.read s.loc j)
          ∧ (∀ j, Memory.read t.mem j = Memory.read s.mem j)
          ∧ (s.ownsUnit s.th.slot = true → unit.waiters = [] → (t.unitOf (coreOf s.th.slot)).owner = none)
          ∧ (∀ g, s.gangOf s.th.ident = some g → s.th.arrived = none → s.th.ident.grank ∉ g.ended → g.ended.length + 1 < g.gsize →
            ∃ g', t.gangOf s.th.ident = some g' ∧ g'.ended = g.ended ++ [s.th.ident.grank]
              ∧ g'.least = some (min (sgn 32 ((s.getX a).toNat % 2 ^ 32)) (g.least.getD (sgn 32 ((s.getX a).toNat % 2 ^ 32)))))))

/-! ### Lanes -/

/-- R93 and R94: on integer lanes, where no stream is bound to a register named, each operation is exact on every lane of fa and fb and
wraps to the lane's width; the shifts take bits [5:0] of the amount and give 0, or copies of the sign bit, from the width up. No flag is
raised, and everything but f[d] stands. -/
def Obligations.IntegerLaneArithmetic : Prop :=
  ∀ (s : State) (t : LaneType) (d a b : Reg), t.integer = true → s.Unbound [d, a, b] →
    let w := laneBits t
    let raw (r : Reg) (i : Nat) : Nat := lane w (s.getF r) i
    let x (i : Nat) : Int := sgn w (raw a i)
    let y (i : Nat) : Int := sgn w (raw b i)
    let m (i : Nat) : Nat := raw b i % 64
    let lanesAre (j : Instr) (f : Nat → Nat) : Prop := LanesTo s (exec j s) 4 w t.lanes d (fun i => (f i, 0))
    lanesAre (.vadd t d a b) (fun i => wrap w (x i + y i))
    ∧ lanesAre (.vsub t d a b) (fun i => wrap w (x i - y i))
    ∧ lanesAre (.vmul t d a b) (fun i => wrap w (x i * y i))
    ∧ lanesAre (.vmax t d a b) (fun i => wrap w (max (x i) (y i)))
    ∧ lanesAre (.vmin t d a b) (fun i => wrap w (min (x i) (y i)))
    ∧ lanesAre (.vabs t d a) (fun i => wrap w |x i|)
    ∧ lanesAre (.vneg t d a) (fun i => wrap w (-(x i)))
    ∧ lanesAre (.vshl t d a b) (fun i => if w ≤ m i then 0 else raw a i * 2 ^ m i)
    ∧ lanesAre (.vshr t d a b) (fun i => if w ≤ m i then 0 else raw a i / 2 ^ m i)
    ∧ lanesAre (.vsra t d a b) (fun i => wrap w (if w ≤ m i then (if x i < 0 then -1 else 0) else x i / 2 ^ m i))

/-- R50, R54, R93 and R96: on floating lanes each operation forms an exact value with its flags, and one rounding in the mode of sr.rmode
makes the lane and raises its own; everything but f[d] and the flags stands. What the model chose in it: the log's entry 9. -/
def Obligations.FloatLaneArithmetic : Prop :=
  ∀ (s : State) (t : LaneType) (d a b c : Reg), t.float = true → s.Unbound [d, a, b, c] →
    let w := laneBits t
    let mode := s.th.rmode
    let x (r : Reg) (i : Nat) : Exact := (fmtOf t).unpack (lane w (s.getF r) i)
    let rounded (v : Exact × Flags) : Nat × Flags :=
      (((fmtOf t).round mode false v.1).1, v.2 ||| ((fmtOf t).round mode false v.1).2)
    let lanesAre (j : Instr) (f : Nat → Exact × Flags) : Prop := LanesTo s (exec j s) 4 w t.lanes d (fun i => rounded (f i))
    lanesAre (.vadd t d a b) (fun i => Exact.add mode (x a i) (x b i))
    ∧ lanesAre (.vsub t d a b) (fun i => Exact.add mode (x a i) (x b i).neg)
    ∧ lanesAre (.vmul t d a b) (fun i => Exact.mul (x a i) (x b i))
    ∧ lanesAre (.vdiv t d a b) (fun i => Exact.div (x a i) (x b i))
    ∧ lanesAre (.vmax t d a b) (fun i => Exact.pick true (x a i) (x b i))
    ∧ lanesAre (.vmin t d a b) (fun i => Exact.pick false (x a i) (x b i))
    ∧ lanesAre (.vsqrt t d a) (fun i => Exact.sqrt (x a i))
    ∧ lanesAre (.vrcp t d a) (fun i => Exact.div (Exact.ofInt 1) (x a i))
    ∧ lanesAre (.vrsq t d a) (fun i => Exact.rsq (x a i))
    ∧ lanesAre (.vexp2 t d a) (fun i => Exact.exp2 (x a i))
    ∧ lanesAre (.vlog2 t d a) (fun i => Exact.log2 (x a i))
    ∧ lanesAre (.vfma t d a b c) (fun i => let p := Exact.mul (x a i) (x b i)
        let v := Exact.add mode p.1 (x c i); (v.1, p.2 ||| v.2))
    ∧ lanesAre (.vfms t d a b c) (fun i => let p := Exact.mul (x a i) (x b i)
        let v := Exact.add mode p.1 (x c i).neg; (v.1, p.2 ||| v.2))
    ∧ lanesAre (.vfnma t d a b c) (fun i => let p := Exact.mul (x a i) (x b i)
        let v := Exact.add mode p.1.neg (x c i).neg; (v.1, p.2 ||| v.2))
    ∧ lanesAre (.vfnms t d a b c) (fun i => let p := Exact.mul (x a i) (x b i)
        let v := Exact.add mode p.1.neg (x c i); (v.1, p.2 ||| v.2))

/-- R93, R98, R100 and R106: the lane instructions that move bits: no rounding, no flag, and everything but f[d] stands. `vabs` and `vneg`
of floating lanes change the sign bit alone and leave a NaN as it is (R54), `vperm` gives 0 for an index past the last lane, and `vmvx`
moves 64 bits. R28 to R30: a 16-bit lane form does on f[d] and f[b] what the 32-bit instruction does with fa = fd, in f32 or bf16, and is 2
bytes long; `vbcast0` copies lane 0 to every lane and `vzero` clears f[d]. -/
def Obligations.RawAndShortLaneForms : Prop :=
  (∀ (s : State) (t : LaneType) (d a b : Reg) (k : Fin 32), s.Unbound [d, a, b] →
      let w := laneBits t
      let raw (r : Reg) (i : Nat) : Nat := lane w (s.getF r) i
      let signed (v : Nat) : Nat → Nat := fun u => if ((fmtOf t).unpack v).isNan then v else u
      let lanesAre (j : Instr) (f : Nat → Nat) : Prop := LanesTo s (exec j s) 4 w t.lanes d (fun i => (f i, 0))
      WritesF s (exec (.vand t d a b) s) 4 d (s.getF a &&& s.getF b) 0
      ∧ WritesF s (exec (.vor t d a b) s) 4 d (s.getF a ||| s.getF b) 0
      ∧ WritesF s (exec (.vxor t d a b) s) 4 d (s.getF a ^^^ s.getF b) 0
      ∧ WritesF s (exec (.vmov t d a) s) 4 d (s.getF a) 0
      ∧ (t.float = true → lanesAre (.vabs t d a) (fun i => signed (raw a i) (raw a i % 2 ^ (w - 1)))
        ∧ lanesAre (.vneg t d a) (fun i => signed (raw a i) (raw a i ^^^ 2 ^ (w - 1))))
      ∧ lanesAre (.vsel t d a b) (fun i => if (s.getX b).getLsbD i then raw a i else raw d i)
      ∧ lanesAre (.vperm t d a b) (fun i => if raw b i < t.lanes then raw a (raw b i) else 0)
      ∧ lanesAre (.vbcast t d a) (fun _ => (s.getX a).toNat)
      ∧ (k.val < t.lanes → lanesAre (.vins t d a k) (fun i => if i = k.val then (s.getX a).toNat else raw d i))
      ∧ (k.val < t.lanes → WritesXFlags s (exec (.vext t d a k) s) d
          (if t.integer then BitVec.ofInt 64 (sgn w (raw a k.val)) else BitVec.ofNat 64 (raw a k.val)) 0)
      ∧ (k.val < 4 → LanesTo s (exec (.vmvx d a k) s) 4 64 4 d
          (fun i => (if i = k.val then lane 64 (s.getF a) i else lane 64 (s.getF d) i, 0))))
  ∧ (∀ (s : State) (bf : Bool) (d b : Reg), s.Unbound [d, b] →
      let t : LaneType := if bf then .bf16 else .f32
      let w := laneBits t
      let mode := s.th.rmode
      let raw (r : Reg) (i : Nat) : Nat := lane w (s.getF r) i
      let x (r : Reg) (i : Nat) : Exact := (fmtOf t).unpack (raw r i)
      let rounded (v : Exact × Flags) : Nat × Flags :=
        (((fmtOf t).round mode false v.1).1, v.2 ||| ((fmtOf t).round mode false v.1).2)
      let lanesAre (j : Instr) (f : Nat → Nat × Flags) : Prop := LanesTo s (exec j s) 2 w t.lanes d f
      lanesAre (.vadd16 bf d b) (fun i => rounded (Exact.add mode (x d i) (x b i)))
      ∧ lanesAre (.vsub16 bf d b) (fun i => rounded (Exact.add mode (x d i) (x b i).neg))
      ∧ lanesAre (.vmul16 bf d b) (fun i => rounded (Exact.mul (x d i) (x b i)))
      ∧ lanesAre (.vmax16 bf d b) (fun i => rounded (Exact.pick true (x d i) (x b i)))
      ∧ lanesAre (.vmin16 bf d b) (fun i => rounded (Exact.pick false (x d i) (x b i)))
      ∧ lanesAre (.vrcp16 bf d b) (fun i => rounded (Exact.div (Exact.ofInt 1) (x b i)))
      ∧ lanesAre (.vrsq16 bf d b) (fun i => rounded (Exact.rsq (x b i)))
      ∧ lanesAre (.vexp216 bf d b) (fun i => rounded (Exact.exp2 (x b i)))
      ∧ lanesAre (.vabs16 bf d b) (fun i => (if (x b i).isNan then raw b i else raw b i % 2 ^ (w - 1), 0))
      ∧ lanesAre (.vneg16 bf d b) (fun i => (if (x b i).isNan then raw b i else raw b i ^^^ 2 ^ (w - 1), 0))
      ∧ lanesAre (.vbcast0 bf d b) (fun _ => (raw b 0, 0))
      ∧ WritesF s (exec (.vmov16 d b) s) 2 d (s.getF b) 0
      ∧ WritesF s (exec (.vand16 d b) s) 2 d (s.getF d &&& s.getF b) 0
      ∧ WritesF s (exec (.vor16 d b) s) 2 d (s.getF d ||| s.getF b) 0
      ∧ WritesF s (exec (.vxor16 d b) s) 2 d (s.getF d ^^^ s.getF b) 0
      ∧ WritesF s (exec (.vzero d) s) 2 d 0 0)

/-- R97: bit i of the mask in x[d] is 1 where lane i of fa and lane i of fb compare so, -0 equal to +0 and a NaN unequal to all; every bit
above the lanes is 0. A signalling NaN raises nv, and nothing else is raised. R63, R64, R99 and R101: a reduction combines neighbours, then
neighbours of those, until one value is left, which goes into lane 0 with every other lane 0: `vredadd` rounds every sum, and on integer
lanes wraps it; `vdot` sums the exact products and rounds once, or wraps to 32 bits for i8. -/
def Obligations.ComparesAndReductions : Prop :=
  (∀ (s : State) (t : LaneType) (d a b : Reg), t.arith = true → s.Unbound [a, b] →
      let x (r : Reg) (i : Nat) : Exact := laneValue t (lane (laneBits t) (s.getF r) i)
      let masks (j : Instr) (p : Nat → Prop) : Prop :=
        ∃ v fl, WritesXFlags s (exec j s) d v fl ∧ (∀ i < 64, v.getLsbD i = true ↔ i < t.lanes ∧ p i)
          ∧ (fl = if ∃ i < t.lanes, x a i = .nan true ∨ x b i = .nan true then nv else 0)
      masks (.vcmpEq t d a b) (fun i => (x a i).cmp (x b i) = some .eq)
      ∧ masks (.vcmpLt t d a b) (fun i => (x a i).cmp (x b i) = some .lt)
      ∧ masks (.vcmpLe t d a b) (fun i => (x a i).cmp (x b i) = some .lt ∨ (x a i).cmp (x b i) = some .eq)
      ∧ masks (.vcmpNe t d a b) (fun i => (x a i).cmp (x b i) ≠ some .eq))
  ∧ (∀ (s : State) (t : LaneType) (d a b : Reg), s.Unbound [d, a, b] →
      let w := laneBits t
      let mode := s.th.rmode
      let raw (r : Reg) (i : Nat) : Nat := lane w (s.getF r) i
      let x (r : Reg) (i : Nat) : Exact := laneValue t (raw r i)
      let levels := match t with | .f32 | .i32 => 3 | .bf16 | .f16 | .i16 => 4 | .i8 | .d8 => 5
      let tree (f : Exact → Exact → Exact) (g : Nat → Exact) : Nat → Nat → Exact :=
        Nat.rec g (fun _ h i => f (h (2 * i)) (h (2 * i + 1)))
      let gives (j : Instr) (v : Nat) : Prop := ∃ fl, WritesF s (exec j s) 4 d (BitVec.ofNat 256 v) fl
      (t.float = true →
        gives (.vredadd t d a) ((fmtOf t).round mode false (tree (fun u v => (fmtOf t).unpack
          ((fmtOf t).round mode false (Exact.add mode u v).1).1) (x a) levels 0)).1
        ∧ gives (.vredmax t d a) ((fmtOf t).round mode false (tree (fun u v => (Exact.pick true u v).1) (x a) levels 0)).1
        ∧ gives (.vredmin t d a) ((fmtOf t).round mode false (tree (fun u v => (Exact.pick false u v).1) (x a) levels 0)).1)
      ∧ (t.integer = true →
        gives (.vredadd t d a) (wrap w (((List.range t.lanes).map (fun i => sgn w (raw a i))).sum))
        ∧ (∃ v : Int, gives (.vredmax t d a) (wrap w v) ∧ (∃ i < t.lanes, v = sgn w (raw a i)) ∧ ∀ i < t.lanes, sgn w (raw a i) ≤ v)
        ∧ (∃ v : Int, gives (.vredmin t d a) (wrap w v) ∧ (∃ i < t.lanes, v = sgn w (raw a i)) ∧ ∀ i < t.lanes, v ≤ sgn w (raw a i)))
      ∧ (t = .bf16 ∨ t = .f16 ∨ t = .d8 →
        gives (.vdot t d a b) (f32.round mode false (sumNums mode ((List.range t.lanes).map (fun i => (Exact.mul (x a i) (x b i)).1))).1).1)
      ∧ (t = .i8 → gives (.vdot t d a b) (wrap 32 (((List.range 32).map (fun i => sgn 8 (raw a i) * sgn 8 (raw b i))).sum))))

/-- R55, R59, R62, R102, R103 and R105: conversions: a floating result is rounded once, an integer result saturates, a D8 result is the code
of R59, and equal types that are no floating types copy; `vdq8` multiplies each code by the scale in bits [7:0] of x[b] and rounds; `vamax`
writes the f32 bits of the block's magnitude and its scale code. R104: `vq8` replaces f[a] by the codes of its lanes, bytes past the lanes
0, and writes the mask of outliers to x[d]; an outlier's code is 0, and its value goes, rounded to bf16, to stream 3, which takes the
outliers in lane order as a partial block and moves past them (R109); with no outlier stream 3 is not touched. An outlier without a bf16
stream 3 that can be written raises 0x0D with qualifier 3. -/
def Obligations.ConversionsAndQuantising : Prop :=
  (∀ (s : State) (t u : LaneType) (d a b : Reg), s.Unbound [d, a] →
      let mode := s.th.rmode
      let raw (i : Nat) : Nat := lane (laneBits t) (s.getF a) i
      let x (i : Nat) : Exact := laneValue t (raw i)
      let n := min t.lanes u.lanes
      let lanesAre (j : Instr) (w n : Nat) (f : Nat → Nat × Flags) : Prop := LanesTo s (exec j s) 4 w n d f
      (u.float = true → lanesAre (.vcvt t u d a) (laneBits u) n
        (fun i => (((fmtOf u).round mode false (x i)).1, ((fmtOf u).round mode false (x i)).2 ||| (x i).snan)))
      ∧ (u.integer = true → (t.float = true ∨ t = .d8) → lanesAre (.vcvt t u d a) (laneBits u) n
        (fun i => (wrap (laneBits u) (Exact.convertInt (laneBits u) mode (x i)).1, (Exact.convertInt (laneBits u) mode (x i)).2)))
      ∧ (u.integer = true → t.integer = true → lanesAre (.vcvt t u d a) (laneBits u) n
        (fun i => (wrap (laneBits u) (clampInt (laneBits u) (sgn (laneBits t) (raw i))),
          if clampInt (laneBits u) (sgn (laneBits t) (raw i)) = sgn (laneBits t) (raw i) then 0 else sv)))
      ∧ (t ≠ .d8 → lanesAre (.vcvt t .d8 d a) 8 t.lanes (fun i => encodeD8 (x i)))
      ∧ lanesAre (.vcvt .d8 .d8 d a) 8 32 (fun i => (lane 8 (s.getF a) i, 0))
      ∧ (t.float = true → lanesAre (.vdq8 t d a b) (laneBits t) t.lanes
        (fun i => (fmtOf t).round mode false (dequant (lane 8 (s.getF a) i) ((s.getX b).toNat % 256))))
      ∧ (t.float = true →
        let m := blockMax (f32.unpack s.th.othresh.toNat) ((List.range t.lanes).map x) Exact.zero
        WritesXFlags s (exec (.vamax t d a) s) d (BitVec.ofNat 64 ((f32.round nearest false m).1 * 2 ^ 32 + (scaleX8 m).1)) (scaleX8 m).2))
  ∧ (∀ (s : State) (t : LaneType) (d a b : Reg), t.float = true → s.Unbound [a] →
      let x (i : Nat) : Exact := (fmtOf t).unpack (lane (laneBits t) (s.getF a) i)
      let far (i : Nat) : Bool := outlier (f32.unpack s.th.othresh.toNat) (x i)
      let code (i : Nat) : Nat × Flags := encodeBlock (x i) ((s.getX b).toNat % 256)
      let side : List Nat := ((List.range t.lanes).filter far).map (fun i => (bf16.round nearest false (x i)).1)
      let suits (st : Stream) : Prop := st.type.val = 1 ∧ (st.dir.val = 1 ∨ st.dir.val = 2)
      let quantised (u : State) : Prop :=
        (∀ i < 32, lane 8 (u.getF a) i = if i < t.lanes ∧ far i = false then (code i).1 else 0) ∧ (∀ r, r ≠ a → u.getF r = s.getF r)
        ∧ (∀ r, r ≠ d → u.getX r = s.getX r) ∧ u.getX 0 = 0
        ∧ (d ≠ 0 → ∀ i < 64, (u.getX d).getLsbD i = true ↔ i < t.lanes ∧ far i = true)
        ∧ u.th.fflags = s.th.fflags ||| orFlags ((List.range t.lanes).map (fun i =>
            if far i then (bf16.round nearest false (x i)).2 else (code i).2))
        ∧ Retires s u 4
      ((∃ i < t.lanes, far i = true) → (∀ st, s.th.streams[3] = some st → ¬suits st) → exec (.vq8 t d a b) s = .next (s.trap 0x0D 3))
      ∧ ((∀ i < t.lanes, far i = false) → ∃ u, exec (.vq8 t d a b) s = .next u ∧ quantised u
        ∧ u.th.streams = s.th.streams ∧ KeepsOutside s u ∧ KeepsBytes s u)
      ∧ (∀ st, (∃ i < t.lanes, far i = true) → s.th.streams[3] = some st → suits st → s.transferFault [(st, side.length)] = none →
        s.th.acquiring = false → ∃ u, exec (.vq8 t d a b) s = .next u ∧ quantised u
          ∧ u.th.streams[3] = some (st.advance side.length) ∧ (∀ k : Fin 4, k ≠ 3 → u.th.streams[k] = s.th.streams[k])
          ∧ u.loc = (s.putBlock st side.length (ofLanes 16 side)).loc ∧ u.locPast = (s.putBlock st side.length (ofLanes 16 side)).locPast
          ∧ u = { s with
              th := u.th, loc := u.loc, locPast := u.locPast, now := u.now
              usage := (s.use s.th.ident.vf 0 1).usage, launches := s.launchesCounted }))

/-- R35 to R38: with what it prefixes a modifier word is one instruction of 8 bytes, for every instruction of the modifiable set. Where the
result is a floating type, its exact value is scaled by 2^k and rounded once, saturating with sat, and then, unless it is a NaN, the sign is
cleared, inverted and the value clamped; where it is an integer type, it is scaled, rounded, and limited or wrapped, at each of the steps;
`vcvt` to an integer type saturates and to D8 encodes (R102). In the pair `vmov`, `vabs` and `vneg` round as arithmetic does, a modifier of
zeros included (R48). What cannot be modified, a `vmov` of D8 codes, and a clamp of an integer or D8 result, raise 0x02 with the modifier
word, and what follows with a reserved field raises 0x02 with that word; nothing is done. What the model chose in it: the log's entry 8. -/
def Obligations.ModifierWords : Prop :=
  ∀ (s : State) (m : Modifier) (f : BitVec 32),
    let w := f.toNat
    let run : Out := exec (.modifierWord m f) s
    let refused : Prop := run = .next (s.trapWord 0x02 (.modifierWord m f))
    let inSet : Prop :=
      (major w = 0x22 ∧ (ffn w ≤ 4 ∨ (8 ≤ ffn w ∧ ffn w ≤ 13) ∨ (17 ≤ ffn w ∧ ffn w ≤ 19)))
      ∨ (major w = 0x23 ∧ (ffn w = 6 ∨ ffn w = 7 ∨ ffn w = 9)) ∨ (major w = 0x24 ∧ ffn w = 0) ∨ major w = 0x25
    let pair (j : Instr) : Prop := w % 2 = 1 ∧ inSet ∧ decWord w = .ok j
    (w % 2 = 0 → refused) ∧ (¬inSet → refused)
    ∧ (∀ j, pair j → (∃ d a, j = .vmov .d8 d a) ∨ (m.clamp ≠ 0 ∧ (modifiedType j).float = false) → refused)
    ∧ (∀ e, w % 2 = 1 → inSet → decWord w = .error e → (∀ j, bodyOf w = some j → refusesPair m j = false) → run = .next (s.trap 0x02 w))
    ∧ (∀ (t u : LaneType) (d a b c : Reg), s.Unbound [d, a, b, c] →
      let mode := s.th.rmode
      let x (r : Reg) (i : Nat) : Exact := laneValue t (lane (laneBits t) (s.getF r) i)
      let scaled (v : Exact) : Exact := v.scale m.k.toInt
      let bounds : Exact × Exact :=
        if m.clamp.val = 1 then (Exact.zero, Exact.ofInt 1) else if m.clamp.val = 2 then ((Exact.ofInt 1).neg, Exact.ofInt 1)
        else (f32.unpack s.th.clamplo.toNat, f32.unpack s.th.clamphi.toNat)
      let shaped (F : Fmt) (v : Exact) : Nat × Flags :=
        let r := F.round mode m.sat (scaled v)
        let r1 := if m.abs then r.1 % F.signBit else r.1
        let r2 := if m.neg then r1 ^^^ F.signBit else r1
        let lo := (F.round nearest false bounds.1).1
        let hi := (F.round nearest false bounds.2).1
        let r3 := if (F.unpack r2).cmp (F.unpack lo) = some .lt then lo else r2
        let r4 := if (F.unpack r3).cmp (F.unpack hi) = some .gt then hi else r3
        (if (F.unpack r.1).isNan then r.1 else if m.clamp = 0 then r2 else r4, r.2)
      let whole (n : Nat) (v : Exact) : Nat × Flags :=
        let lim (k : Int) : Int := if m.sat then clampInt n k else sgn n (wrap n k)
        let r := ((scaled v).toInt mode).1
        let r1 := if m.abs then lim |lim r| else lim r
        (wrap n (if m.neg then lim (-r1) else r1), if m.sat = true ∧ lim r ≠ r then sv else 0)
      let result (T : LaneType) (v : Exact × Flags) : Nat × Flags :=
        let r := if T.float then shaped (fmtOf T) v.1 else whole (laneBits T) v.1
        (r.1, v.2 ||| r.2)
      let lanesAre (j : Instr) (T : LaneType) (n : Nat) (g : Nat → Nat × Flags) : Prop :=
        pair j → m.clamp = 0 ∨ T.float = true → LanesTo s run 8 (laneBits T) n d g
      let each (j : Instr) (g : Nat → Exact × Flags) : Prop := lanesAre j t t.lanes (fun i => result t (g i))
      let one (j : Instr) (T : LaneType) (v : Exact × Flags) : Prop :=
        pair j → m.clamp = 0 ∨ T.float = true → WritesF s run 8 d (BitVec.ofNat 256 (result T v).1) (result T v).2
      let fused (p q : Bool) (i : Nat) : Exact × Flags :=
        let xy := Exact.mul (x a i) (x b i)
        let v := Exact.add mode (if p then xy.1.neg else xy.1) (if q then (x c i).neg else x c i)
        (v.1, xy.2 ||| v.2)
      let products := (List.range t.lanes).map (fun i => Exact.mul (x a i) (x b i))
      let total := sumNums mode (products.map (·.1))
      let values := (List.range t.lanes).map (x a)
      let toInt (n : Nat) (i : Nat) : Nat × Flags :=
        let r : Int × Flags :=
          if t.integer then
            let k := (scaled (x a i)).toInt mode
            (clampInt n k.1, if clampInt n k.1 = k.1 then (if k.2 then nx else 0) else sv)
          else Exact.convertInt n mode (scaled (x a i))
        let r1 := if m.abs then clampInt n |r.1| else r.1
        (wrap n (if m.neg then clampInt n (-r1) else r1), r.2)
      let toD8 (i : Nat) : Nat × Flags :=
        let r := encodeD8 (scaled (x a i))
        let r1 := if m.abs then r.1 % 128 else r.1
        (if r.1 % 128 = 0 then r.1 else if m.neg then r1 ^^^ 128 else r1, r.2)
      each (.vadd t d a b) (fun i => Exact.add mode (x a i) (x b i))
      ∧ each (.vsub t d a b) (fun i => Exact.add mode (x a i) (x b i).neg)
      ∧ each (.vmul t d a b) (fun i => Exact.mul (x a i) (x b i))
      ∧ each (.vmax t d a b) (fun i => Exact.pick true (x a i) (x b i))
      ∧ each (.vmin t d a b) (fun i => Exact.pick false (x a i) (x b i))
      ∧ each (.vdiv t d a b) (fun i => Exact.div (x a i) (x b i))
      ∧ each (.vsqrt t d a) (fun i => Exact.sqrt (x a i))
      ∧ each (.vrcp t d a) (fun i => Exact.div (Exact.ofInt 1) (x a i))
      ∧ each (.vrsq t d a) (fun i => Exact.rsq (x a i))
      ∧ each (.vexp2 t d a) (fun i => Exact.exp2 (x a i))
      ∧ each (.vlog2 t d a) (fun i => Exact.log2 (x a i))
      ∧ each (.vabs t d a) (fun i => ((x a i).abs, (x a i).snan))
      ∧ each (.vneg t d a) (fun i => ((x a i).neg, (x a i).snan))
      ∧ (t ≠ .d8 → each (.vmov t d a) (fun i => (x a i, (x a i).snan)))
      ∧ each (.vfma t d a b c) (fused false false)
      ∧ each (.vfms t d a b c) (fused false true)
      ∧ each (.vfnma t d a b c) (fused true true)
      ∧ each (.vfnms t d a b c) (fused true false)
      ∧ one (.vdot t d a b) (if t = .i8 then .i32 else .f32) (total.1, total.2 ||| orFlags (products.map (·.2)))
      ∧ one (.vredmax t d a) t (treeFold (Exact.pick true) (treeLevels t) values)
      ∧ one (.vredmin t d a) t (treeFold (Exact.pick false) (treeLevels t) values)
      ∧ (u.float = true → lanesAre (.vcvt t u d a) u (min t.lanes u.lanes) (fun i => result u (x a i, (x a i).snan)))
      ∧ (u.integer = true → lanesAre (.vcvt t u d a) u (min t.lanes u.lanes) (toInt (laneBits u)))
      ∧ (u = .d8 → lanesAre (.vcvt t u d a) u (min t.lanes u.lanes) toD8))

/-! ### Streams and tables -/

/-- R108 to R112: `sbind` of a free stream with an aligned record of fields that R111 allows binds it at position 0; `seos` sets the limit
alone, `sstat` writes the position to x[d], and `sunbind` frees the stream and leaves 0 in its register. On a stream that is bound already
`sbind` raises 0x0D, and so do the others on one that is not. R95 and R109: an instruction that reads a bound register gets its block:
element j is the element at the position plus j, as the thread sees it or saw it since the `sbind`, or zero from the limit up, and the
position then moves past what was read, no further than the limit. One that writes a bound register stores the elements below the limit and
leaves f[d] alone. Naming a stream against its direction raises 0x0D. An `sbind` waits while an acquire is in flight. What the model chose
in it: the log's entries 10, 11, 63 and 64. -/
def Obligations.Streams : Prop :=
  (∀ (s : State) (k : Fin 4) (a d : Reg),
      let la := (s.getX a).toNat
      let rec16 := s.seeLoc (s.th.view .core) la 16
      let n (o len : Nat) : Nat := natOf ((rec16.drop o).take len)
      let ready := s.th.streams[k] = none ∧ la % 16 = 0 ∧ s.localFault s.th.owner la 16 = none
      let ws := if n 12 1 = 0 ∨ n 12 1 = 3 then 4 else if n 12 1 = 1 ∨ n 12 1 = 2 ∨ n 12 1 = 4 then 2 else 1
      let good := n 12 1 < 7 ∧ n 13 1 < 3 ∧ n 14 2 = 0 ∧ n 0 4 % ws = 0 ∧ n 8 4 % ws = 0
      let keeps (t : State) : Prop := KeepsOutside s t ∧ KeepsBytes s t ∧ Retires s t 4 ∧ t.th.x = s.th.x ∧ t.th.fflags = s.th.fflags
        ∧ ∀ j : Fin 4, j ≠ k → t.th.streams[j] = s.th.streams[j]
      (ready → s.th.acquiring = false → good →
        ∃ t st, exec (.sbind k a) s = .next t ∧ t.th.streams[k] = some st ∧ keeps t ∧ t.th.f = s.th.f
          ∧ st.base.toNat = n 0 4 ∧ st.limit.toNat = n 4 4 ∧ st.stride.toNat = n 8 4 ∧ st.type.val = n 12 1 ∧ st.dir.val = n 13 1
          ∧ st.pos = 0 ∧ st.since = s.now)
      ∧ (ready → s.th.acquiring = false → ¬good → exec (.sbind k a) s = .next (s.trap 0x0D k.val))
      ∧ (ready → s.th.acquiring = true → exec (.sbind k a) s = .next s.stall)
      ∧ (s.th.streams[k] = none → la % 16 ≠ 0 → exec (.sbind k a) s = .next (s.trap 0x04 la))
      ∧ (s.th.streams[k].isSome → exec (.sbind k a) s = .next (s.trap 0x0D k.val))
      ∧ (s.th.streams[k] = none → exec (.seos k a) s = .next (s.trap 0x0D k.val) ∧ exec (.sstat d k) s = .next (s.trap 0x0D k.val)
        ∧ exec (.sunbind k) s = .next (s.trap 0x0D k.val))
      ∧ (∀ st, s.th.streams[k] = some st →
        (∃ t, exec (.seos k a) s = .next t ∧ t.th.streams[k] = some { st with limit := (s.getX a).setWidth 32 } ∧ keeps t ∧ t.th.f = s.th.f)
        ∧ WritesX s (exec (.sstat d k) s) d (st.pos.setWidth 64)
        ∧ (∃ t, exec (.sunbind k) s = .next t ∧ t.th.streams[k] = none ∧ keeps t
          ∧ ∀ r : Reg, t.getF r = if r.val = 28 + k.val then 0 else s.getF r)))
  ∧ (∀ (s : State) (d a : Reg) (k : Fin 4) (st : Stream), s.streamOf a = some (k, st) → s.streamOf d = none →
      s.transferFault [(st, st.per)] = none → s.th.acquiring = false →
      let ws := streamBytes st.type
      let el (j : Nat) : Nat := natOf ((List.range ws).map (fun q => s.streamByte st ((st.addr (st.pos.toNat + j)).toNat + q)))
      let after := { st with pos := BitVec.ofNat 32 (min (st.pos.toNat + st.per) st.limit.toNat) }
      (st.dir.val = 1 → exec (.vmov .f32 d a) s = .next (s.trap 0x0D k.val))
      ∧ (st.dir.val ≠ 1 → st.pos.toNat < st.limit.toNat → ∃ t, exec (.vmov .f32 d a) s = .next t
        ∧ (∀ j < st.per, lane (8 * ws) (t.getF d) j = if st.pos.toNat + j < st.limit.toNat
            then el j else 0)
        ∧ (∀ la, s.locPast = [] → s.streamByte st la = s.readLoc1 s.th.owner la)
        ∧ (∀ r, r ≠ d → t.getF r = s.getF r) ∧ t.th.streams[k] = some after ∧ Retires s t 4 ∧ KeepsOutside s t ∧ KeepsBytes s t)
      ∧ (st.dir.val = 0 → exec (.vmov .f32 a d) s = .next (s.trap 0x0D k.val))
      ∧ (st.dir.val ≠ 0 → st.pos.toNat < st.limit.toNat → ∃ t, exec (.vmov .f32 a d) s = .next t
        ∧ t.loc = (s.putBlock st st.per (s.getF d)).loc ∧ t.locPast = (s.putBlock st st.per (s.getF d)).locPast
        ∧ (∀ r, t.getF r = s.getF r) ∧ t.th.streams[k] = some after ∧ Retires s t 4
        ∧ t = { s with
            th := t.th, loc := t.loc, locPast := t.locPast, now := t.now, memPast := (s.putBlock st st.per (s.getF d)).memPast
            usage := (s.use s.th.ident.vf 0 1).usage, launches := s.launchesCounted })
      ∧ (st.limit.toNat ≤ st.pos.toNat →
        (st.dir.val ≠ 1 → ∃ t, exec (.vmov .f32 d a) s = .next t ∧ t.getF d = 0 ∧ (∀ r, r ≠ d → t.getF r = s.getF r)
          ∧ t.th.streams = s.th.streams ∧ Retires s t 4 ∧ KeepsOutside s t ∧ KeepsBytes s t)
        ∧ (st.dir.val ≠ 0 → ∃ t, exec (.vmov .f32 a d) s = .next t ∧ (∀ r, t.getF r = s.getF r)
          ∧ t.th.streams = s.th.streams ∧ Retires s t 4 ∧ KeepsOutside s t ∧ KeepsBytes s t)))
  ∧ (∀ (s : State) (y : LaneType) (d a b x : Reg) (k : Fin 4) (st : Stream), y.integer = true → s.streamOf a = some (k, st) →
      s.Unbound [d, b] → s.transferFault [(st, st.per)] = none → s.th.acquiring = false →
      let ws := streamBytes st.type
      let w := laneBits y
      let el (j : Nat) : Nat := natOf ((List.range ws).map (fun q => s.streamByte st ((st.addr (st.pos.toNat + j)).toNat + q)))
      let block : LaneReg := ofLanes (8 * ws) ((List.range st.per).map (fun j => if st.pos.toNat + j < st.limit.toNat then el j else 0))
      let moves (t : State) : Prop := t.th.streams[k] = some (if st.pos.toNat < st.limit.toNat
            then { st with pos := BitVec.ofNat 32 (min (st.pos.toNat + st.per) st.limit.toNat) } else st)
          ∧ (∀ j : Fin 4, j ≠ k → t.th.streams[j] = s.th.streams[j]) ∧ Retires s t 4
      let takes (j : Instr) (v : LaneReg) : Prop := ∃ t, exec j s = .next t ∧ (∀ r, t.getF r = if r = d then v else s.getF r)
        ∧ moves t ∧ KeepsOutside s t ∧ KeepsBytes s t
      let gives (j : Instr) (v : LaneReg) : Prop := ∃ t, exec j s = .next t ∧ t.th.f = s.th.f ∧ moves t
        ∧ t.loc = (s.putBlock st st.per v).loc ∧ t.locPast = (s.putBlock st st.per v).locPast
        ∧ t.memPast = (s.putBlock st st.per v).memPast ∧ t.mem = s.mem
      (st.dir.val ≠ 1 → takes (.vand y d a b) (block &&& s.getF b) ∧ takes (.vxor y d b a) (s.getF b ^^^ block)
        ∧ takes (.vor y d a a) block
        ∧ takes (.vadd y d a b) (ofLanes w ((List.range y.lanes).map (fun i => wrap w (sgn w (lane w block i) + sgn w (lane w (s.getF b) i))))))
      ∧ (st.dir.val ≠ 0 → gives (.vand y a d b) (s.getF d &&& s.getF b)
        ∧ gives (.vbcast y a x) (ofLanes w ((List.range y.lanes).map (fun _ => (s.getX x).toNat))))
      ∧ (st.dir.val = 2 → gives (.vand y a a b) (block &&& s.getF b))
      ∧ (st.dir.val = 1 → exec (.vand y d a b) s = .next (s.trap 0x0D k.val))
      ∧ (st.dir.val = 0 → exec (.vbcast y a x) s = .next (s.trap 0x0D k.val)))

/-- R114 to R116: `tql` looks up each index of fa in the local table that x[b] describes and writes the entries, an index past the last
taking the last, behind any acquire in flight; a descriptor with a reserved field raises 0x0E, a misaligned base 0x04, and a table outside
its level what a local access there raises. What the model chose in it: the log's entries 10, 63 and 64. -/
def Obligations.LocalTableQuery : Prop :=
  ∀ (s : State) (d a b : Reg), s.Unbound [d, a] →
    let x := (s.getX b).toNat
    let base := fld x 0 32
    let last := fld x 32 12
    let iw := 8 * 2 ^ fld x 44 2
    let n := 2 ^ fld x 46 2
    let good := fld x 48 16 = 0 ∧ fld x 44 2 ≠ 3 ∧ fld x 46 2 ≠ 3
    (¬good → exec (.tql d a b) s = .next (s.trap 0x0E base))
    ∧ (good → base % n ≠ 0 → exec (.tql d a b) s = .next (s.trap 0x04 base))
    ∧ (good → base % n = 0 → s.localFault s.th.owner base ((last + 1) * n) = none → s.th.acquiring = true →
      exec (.tql d a b) s = .next s.stall)
    ∧ (∀ c q, good → base % n = 0 → s.localFault s.th.owner base ((last + 1) * n) = some (c, q) →
      exec (.tql d a b) s = .next (s.trap c q))
    ∧ (good → base % n = 0 → s.localFault s.th.owner base ((last + 1) * n) = none → s.th.acquiring = false →
      LanesTo s (exec (.tql d a b) s) 4 (8 * n) (256 / max iw (8 * n)) d
        (fun i => (s.ownNat (base + min (lane iw (s.getF a) i) last * n) n, 0)))

/-! ### Memory -/

/-- R15, R83, R84, R166, R169 and R171: a global access that is aligned and inside the address space issues: it joins the accesses in flight
with its operands, the instruction retires, and nothing else changes until it is performed. A plain access needs only that no acquire is in
flight and its counters are below their limits; a release waits until every earlier access has been performed, and at system scope until the
peers that it writes to acknowledge (R353). What the model chose in it: the log's entries 58, 59 and 64. -/
def Obligations.GlobalAccessIssue : Prop :=
  ∀ (s : State) (o : Order) (z : Size) (sg : Bool) (d a b : Reg) (i : BitVec 10) (q : AtomOrder) (w : Bool),
    let n := sizeBytes z
    let va (m : Nat) : Nat := (s.getX a + i.signExtend 64 * BitVec.ofNat 64 m).toNat
    let ready := s.th.acquiring = false ∧ s.counter s.th .lc < 16 ∧ s.counter s.th .sc < 32
    let fits (m : Nat) : Prop := va m % (if m = 32 then 2 else m) = 0 ∧ va m < 2 ^ 56
    let scope : Order := match q with | .rlxGang | .acqrelGang => .gang | .rlxDev | .acqrelDev => .dev | .rlxSys | .acqrelSys => .sys
    let both : Bool := match q with | .acqrelGang | .acqrelDev | .acqrelSys => true | .rlxGang | .rlxDev | .rlxSys => false
    let at' := (s.getX a).toNat
    let atomic (j : Instr) (op : AccOp) : Prop :=
      Issues s (exec j s) (if both then scope else .plain) (accessOf op at' scope both d ((s.getX b).setWidth 256) (s.getX d) s)
    (ready → fits n → Issues s (exec (.ldg o z sg d a i) s) .plain (accessOf (.ld z sg) (va n) o (o != .plain) d 0 0 s))
    ∧ (ready → fits n → s.MayRelease o →
      Issues s (exec (.stg o z d a i) s) o (accessOf (.st z) (va n) o false d ((s.getX d).setWidth 256) 0 s))
    ∧ (ready → fits 32 → s.streamOf d = none → s.splits (va 32) = false →
      Issues s (exec (.ldgV o d a i) s) .plain (accessOf .ldv (va 32) o (o != .plain) d 0 0 s))
    ∧ (ready → fits 32 → s.streamOf d = none → s.splits (va 32) = false → s.MayRelease o →
      Issues s (exec (.stgV o d a i) s) o (accessOf .stv (va 32) o false d (s.getF d) 0 s))
    ∧ (ready → at' % (if w then 8 else 4) = 0 → at' < 2 ^ 56 → s.MayRelease (if both then scope else .plain) →
      atomic (.amoAdd q w d a b) (.amo 0 w) ∧ atomic (.amoAnd q w d a b) (.amo 1 w) ∧ atomic (.amoOr q w d a b) (.amo 2 w)
      ∧ atomic (.amoXor q w d a b) (.amo 3 w) ∧ atomic (.amoMin q w d a b) (.amo 4 w) ∧ atomic (.amoMax q w d a b) (.amo 5 w)
      ∧ atomic (.amoMinz q w d a b) (.amo 6 w) ∧ atomic (.amoMaxz q w d a b) (.amo 7 w) ∧ atomic (.amoSwap q w d a b) (.amo 8 w)
      ∧ atomic (.cas q w d a b) (.cas w))
    ∧ (va n % n ≠ 0 → exec (.ldg o z sg d a i) s = .next (s.trap 0x04 (va n)) ∧ exec (.stg o z d a i) s = .next (s.trap 0x04 (va n)))
    ∧ (va n % n = 0 → 2 ^ 56 ≤ va n →
      exec (.ldg o z sg d a i) s = .next (s.trap 0x07 (va n)) ∧ exec (.stg o z d a i) s = .next (s.trap 0x07 (va n)))
    ∧ (fits n → o ≠ .plain → s.th.held = [] → s.th.acc ≠ [] → (∀ c ∈ s.th.acc, c.stuck = none) →
      exec (.stg o z d a i) s = .next (s.stall.inRelease o))

/-- R83, R84, R168, R171, R268 and R311: performing an access whose bytes lie in one line of an untracked page: a load puts its value,
extended as it says, into its register, a store changes its own bytes alone, an atomic does both as one step, `nmstat` reads the status of
the unit beside the channel, and `pclr` leaves a word without a poison mark alone and writes zeros over one that has a mark, which goes; the
access then leaves the accesses in flight. In a tracked page a load takes the word's bytes, and a store registers its word for its core,
which then reads what it stored (R163, R164). A write first sets D where it is kept (R318). What the model chose in it: the log's entries
12, 15, 53, 59, 63, 64 and 66. -/
def Obligations.AccessPerformed : Prop :=
  (∀ (s : State) (a : Access) (p : Phys) (u : State), s.NextAccess a → s.Plainly a p u →
    let n := a.op.bytes
    let w := u.setD p.key
    let at' (m : Memory) : Nat := natOf (Memory.readN m p.pa n)
    let done (t : State) : Prop := t.th.acc = s.th.acc.filter (fun b => b.seq ≠ a.seq) ∧ t.loc = u.loc
    let stores (t : State) (v : Nat) : Prop :=
      ∀ j, Memory.read t.mem j = if p.pa ≤ j ∧ j < p.pa + n then BitVec.ofNat 8 (v / 256 ^ (j - p.pa)) else Memory.read w.mem j
    let sets (t : State) (v : Word) : Prop := ∀ r, t.getX r = if r = a.reg ∧ a.reg ≠ 0 then v else s.getX r
    let op (f : Fin 9) (x y : Nat) : Nat :=
      if f = 0 then (x + y) % 256 ^ n else if f = 1 then x &&& y else if f = 2 then x ||| y else if f = 3 then x ^^^ y
      else if f = 4 then (if sgn (8 * n) x ≤ sgn (8 * n) y then x else y) else if f = 5 then (if sgn (8 * n) x ≤ sgn (8 * n) y then y else x)
      else if f = 6 then min x y else if f = 7 then max x y else y
    (∀ z sg, a.op = .ld z sg → ∃ t, exec .loadReturn s = .next t ∧ done t ∧ sets t (extend n sg (at' u.mem)) ∧ t.mem = u.mem
      ∧ KeepsBesideLoad a s.th t.th)
    ∧ (a.op = .ldv → s.streamOf a.reg = none → ∃ t, exec .loadReturn s = .next t ∧ done t
      ∧ (∀ r, t.getF r = if r = a.reg then BitVec.ofNat 256 (at' u.mem) else s.getF r) ∧ t.mem = u.mem ∧ t.th.x = s.th.x)
    ∧ (∀ z, a.op = .st z → ∃ t, exec .storePerform s = .next t ∧ done t ∧ stores t a.data.toNat ∧ KeepsBesideLoad a s.th t.th ∧ t.th.x = s.th.x)
    ∧ (a.op = .stv → ∃ t, exec .storePerform s = .next t ∧ done t ∧ stores t a.data.toNat ∧ KeepsBesideLoad a s.th t.th ∧ t.th.x = s.th.x)
    ∧ (∀ f dw, a.op = .amo f dw → a.va % n = 0 → ∃ t, exec .atomicPerform s = .next t ∧ done t
      ∧ stores t (op f (at' u.mem) (a.data.toNat % 256 ^ n)) ∧ sets t (extend n true (at' u.mem)) ∧ KeepsBesideLoad a s.th t.th)
    ∧ (∀ dw, a.op = .cas dw → a.va % n = 0 → ∃ t, exec .atomicPerform s = .next t ∧ done t
      ∧ (at' u.mem = a.cmp.toNat % 256 ^ n → stores t (a.data.toNat % 256 ^ n)) ∧ (at' u.mem ≠ a.cmp.toNat % 256 ^ n → t.mem = u.mem)
      ∧ sets t (extend n true (at' u.mem)) ∧ KeepsBesideLoad a s.th t.th)
    ∧ (a.op = .nmstat → ∃ t, exec .loadReturn s = .next t ∧ done t ∧ t.mem = u.mem
      ∧ sets t (if isDevice p.pa then nmuStatus (u.nmu (nmuOf p.pa)) s.th.ident else 0) ∧ KeepsBesideLoad a s.th t.th)
    ∧ (a.op = .pclr → ∃ t, exec .storePerform s = .next t ∧ done t ∧ t.mem = u.mem ∧ t.th.x = s.th.x))
  ∧ (∀ (s : State) (a : Access) (p : Phys) (u : State), s.NextAccess a → s.TrackedPlainly a p u →
    let n := a.op.bytes
    let key := u.keyFor s.th.ident.vf true p.pa
    let done (t : State) : Prop := t.th.acc = s.th.acc.filter (fun b => b.seq ≠ a.seq) ∧ t.loc = u.loc
    (∀ z sg, a.op = .ld z sg → ∃ t, exec .loadReturn s = .next t ∧ done t ∧ t.mem = u.mem ∧ t.regs = [] ∧ KeepsBesideLoad a s.th t.th
      ∧ ∀ r, t.getX r = if r = a.reg ∧ a.reg ≠ 0 then extend n sg (natOf (u.physRead key p.pa n)) else s.getX r)
    ∧ (∀ z, a.op = .st z → ∃ t r, exec .storePerform s = .next t ∧ done t ∧ t.mem = (u.setD p.key).mem
      ∧ Tab.find t.regs (p.pa / 8) = some r ∧ r.core = some (coreOf s.th.slot) ∧ r.key = key
      ∧ (∀ k < n, r.data.toNat / 256 ^ (p.pa % 8 + k) % 256 = a.data.toNat / 256 ^ k % 256)
      ∧ t.seeMem (t.th.view .core) key true p.pa n = bytesOf n a.data.toNat ∧ KeepsBesideLoad a s.th t.th ∧ t.th.x = s.th.x))
  ∧ (∀ (s : State) (a : Access) (p : Phys) (u : State), s.NextAccess a → a.op = .pclr → p.pa % 8 = 0 →
      lineParts a.va 8 = [(a.va, 8)] → (s.beforeAccess a).translate (s.reqOf a) a.va = (.ok p, u) → p.tracked = false → pteRetag p.leaf = false →
      State.Bare { u with poison := [] } → Tab.find u.poison p.pa ≠ none →
      ∃ t, exec .storePerform s = .next t ∧ t.th.acc = s.th.acc.filter (fun b => b.seq ≠ a.seq) ∧ t.loc = u.loc ∧ t.th.x = s.th.x
        ∧ Tab.find t.poison p.pa = none ∧ (∀ q, q ≠ p.pa → Tab.find t.poison q = Tab.find u.poison q)
        ∧ ∀ j, Memory.read t.mem j = if p.pa ≤ j ∧ j < p.pa + 8 then 0 else Memory.read (u.setD p.key).mem j)

/-- R20 and R297: an access that does not translate becomes a replay record with its cause and address, in its place in program order:
behind every record before it and before the first record of a later access; and changes no register and no byte. With all 8 places full it
is held back, and HELD_FAULT_POST posts it in its place once a place is free, and leaves all as it is until then. What the model chose in
it: the log's entry 12. -/
def Obligations.AccessFaults : Prop :=
  ∀ (s : State) (a : Access),
    let load := match a.op with | .ld .. | .ldv | .nmstat => true | .st .. | .stv | .amo .. | .cas .. | .pclr => false
    let e := if load then exec .loadReturn s else match a.op with
      | .amo .. | .cas .. => exec .atomicPerform s
      | .ld .. | .ldv | .nmstat | .st .. | .stv | .pclr => exec .storePerform s
    let held (t : State) (w : Why) : Prop :=
      ∃ l r, s.th.held = l ++ r ∧ (∀ h ∈ l, h.seq ≤ a.seq) ∧ (∀ h ∈ r.head?, a.seq < h.seq)
        ∧ (s.th.held.Pairwise (fun g h => g.seq ≤ h.seq) → ∀ h ∈ r, a.seq < h.seq)
        ∧ t.th.held = l ++ [⟨.acc { a with gen := none, stuck := none }, w.cause, w.va, w.write, false, false, w.late, a.seq⟩] ++ r
    let why (c : Nat) : Why := ⟨c, a.va, a.op.kind.writes, s.th.uact⟩
    (∀ c u, s.NextAccess a → s.th.held.length < 8 → (s.beforeAccess a).translate (s.reqOf a) a.va = (.bad c, u) →
      ∃ t, e = .next t ∧ held t (why c) ∧ t = { u with th := { s.th with held := t.th.held, acc := s.th.acc.filter (fun b => b.seq ≠ a.seq) } }
        ∧ u.th = s.th)
    ∧ (∀ c u, s.NextAccess a → 8 ≤ s.th.held.length → (s.beforeAccess a).translate (s.reqOf a) a.va = (.bad c, u) → e = .next { u with th :=
        { s.th with acc := s.th.acc.map (fun b => if b.seq = a.seq then { b with stuck := some (why c) } else b) } })
    ∧ (s.th.bound = true → s.ev.unit = s.th.slot → s.th.acc[s.ev.idx]? = some a →
      (∀ w, a.stuck = some w → s.th.held.length < 8 → ∃ t, exec .heldFaultPost s = .next t ∧ held t w
        ∧ t = { s with th := { s.th with held := t.th.held, acc := s.th.acc.filter (fun b => b.seq ≠ a.seq) } })
      ∧ (a.stuck ≠ none → 8 ≤ s.th.held.length → exec .heldFaultPost s = .next s)
      ∧ (a.stuck = none → exec .heldFaultPost s = .next s))

/-- R15, R85, R126, R166 and R169: a local access that is aligned, lies in one level and waits for no acquire is done at once: a load writes
its register with what the thread sees and changes no byte, and a store changes its own bytes alone, which the thread then reads (R185). An
ordered load acquires first, and an ordered store waits for the accesses in flight. A misaligned address raises 0x04, and a byte outside the
level what R85 names. R173: a local atomic reads the word, stores what its operation makes of it and of x[b], and writes the old word,
sign-extended, to x[d]; it changes no other byte. What the model chose in it: the log's entries 63 and 66. -/
def Obligations.LocalMemory : Prop :=
  (∀ (s : State) (o : Bool) (z : Size) (sg : Bool) (d a : Reg) (i : BitVec 10), Memory.wf s.loc = true →
      let n := sizeBytes z
      let la (m : Nat) : Nat := (s.getX a + i.signExtend 64 * BitVec.ofNat 64 m).toNat
      let inside (m : Nat) : Prop := la m % (if m = 32 then 2 else m) = 0 ∧ s.localFault s.th.owner (la m) m = none ∧ s.th.acquiring = false
      let u (m : Nat) : State := s.gangAcquire o (la m) m
      let w := s.released (if o then .gang else .plain)
      (inside n → ∃ t, exec (.ldl o z sg d a i) s = .next t
        ∧ (∀ r, t.getX r = if r = d ∧ d ≠ 0 then extend n sg ((u n).ownNat (la n) n) else s.getX r)
        ∧ KeepsBesideX { s.th with gangSeen := if o then s.now else s.th.gangSeen } t.th ∧ Retires s t 4 ∧ KeepsBytes s t
        ∧ KeepsOutside (u n) t ∧ (o = false → KeepsOutside s t))
      ∧ (inside 32 → s.streamOf d = none → ∃ t, exec (.ldlV o d a i) s = .next t
        ∧ (∀ r, t.getF r = if r = d then BitVec.ofNat 256 ((u 32).ownNat (la 32) 32) else s.getF r)
        ∧ KeepsBesideF { s.th with gangSeen := if o then s.now else s.th.gangSeen } t.th ∧ t.th.fflags = s.th.fflags ∧ Retires s t 4
        ∧ KeepsBytes s t ∧ KeepsOutside (u 32) t ∧ (o = false → KeepsOutside s t))
      ∧ (s.locPast = [] → inside n → (u n).ownNat (la n) n = natOf (s.readLoc s.th.owner (la n) n))
      ∧ (inside n → o = false ∨ s.Clear → ∃ t, exec (.stl o z d a i) s = .next t ∧ StoresLocal s t (la n) (bytesOf n (s.getX d).toNat)
        ∧ KeepsBesidePc s.th t.th ∧ Retires s t 4 ∧ KeepsOutsideLoc w t (la n) n)
      ∧ (inside 32 → s.streamOf d = none → o = false ∨ s.Clear → ∃ t, exec (.stlV o d a i) s = .next t
        ∧ StoresLocal s t (la 32) (bytesOf 32 (s.getF d).toNat) ∧ KeepsBesidePc s.th t.th ∧ Retires s t 4 ∧ KeepsOutsideLoc w t (la 32) 32)
      ∧ (inside n → s.th.held = [] → s.th.acc ≠ [] → (∀ c ∈ s.th.acc, c.stuck = none) → exec (.stl true z d a i) s = .next (s.stall.inRelease .gang))
      ∧ (la n % n ≠ 0 → exec (.ldl o z sg d a i) s = .next (s.trap 0x04 (la n)) ∧ exec (.stl o z d a i) s = .next (s.trap 0x04 (la n)))
      ∧ (∀ c q, la n % n = 0 → s.localFault s.th.owner (la n) n = some (c, q) →
        exec (.ldl o z sg d a i) s = .next (s.trap c q) ∧ exec (.stl o z d a i) s = .next (s.trap c q)))
  ∧ (∀ (s : State) (w : Bool) (d a b : Reg), Memory.wf s.loc = true →
      let n := if w then 8 else 4
      let la := (s.getX a).toNat
      let x := natOf (s.readLoc s.th.owner la n)
      let y := (s.getX b).toNat % 2 ^ (8 * n)
      let does (j : Instr) (v : Nat) : Prop :=
        ∃ t, exec j s = .next t ∧ StoresLocal s t la (bytesOf n v) ∧ (∀ r, t.getX r = if r = d ∧ d ≠ 0 then extend n true x else s.getX r)
          ∧ KeepsBesideX s.th t.th ∧ Retires s t 4 ∧ KeepsOutsideLoc s t la n
      (la % n = 0 → s.localFault s.th.owner la n = none → s.th.acquiring = false →
        does (.amolAdd w d a b) (x + y) ∧ does (.amolAnd w d a b) (x &&& y) ∧ does (.amolOr w d a b) (x ||| y)
        ∧ does (.amolXor w d a b) (x ^^^ y)
        ∧ does (.amolMin w d a b) (if sgn (8 * n) x ≤ sgn (8 * n) y then x else y)
        ∧ does (.amolMax w d a b) (if sgn (8 * n) x ≤ sgn (8 * n) y then y else x)
        ∧ does (.amolMinz w d a b) (min x y) ∧ does (.amolMaxz w d a b) (max x y) ∧ does (.amolSwap w d a b) y)
      ∧ (la % n ≠ 0 → exec (.amolAdd w d a b) s = .next (s.trap 0x04 la))
      ∧ (∀ c q, la % n = 0 → s.localFault s.th.owner la n = some (c, q) → exec (.amolSwap w d a b) s = .next (s.trap c q)))

/-- R177, R178 and R189: `cwait` goes on once its counter is at most n and waits until then; `cwait sc,0` makes the thread's next store a
release of the stores before it. A fence from the core path waits for the thread's stores; one between engines waits for nothing. A fence
lets the commands that the thread issues later on the path see what was written before it on the other, and one into the core path is an
acquire at gang scope, which makes the path's writes core-path writes (R191); none of them changes a byte. `cwait` in an open packet raises
0x12 (R142). All of it where no record is held. What the model chose in it: the log's entries 52, 60 and 63. -/
def Obligations.CounterWaitsAndFences : Prop :=
  ∀ (s : State) (k : Counter) (n : Fin 32) (f t : PathId), s.th.held = [] → (∀ c ∈ s.th.acc, c.stuck = none) →
    let sees (u : State) (p q : PathId) (n : Nat) : Prop :=
      (u.th.view q).fence p = n ∧ ∀ x y, (x ≠ p ∨ y ≠ q) → (u.th.view y).fence x = (s.th.view y).fence x
    let goes (u : State) : Prop := Retires s u 4 ∧ KeepsBytes s u ∧ u.th.x = s.th.x ∧ u.th.f = s.th.f ∧ u.th.fflags = s.th.fflags
      ∧ u = { s with
          th := u.th, locPast := u.locPast, memPast := u.memPast, now := u.now
          usage := (s.use s.th.ident.vf 0 1).usage, launches := s.launchesCounted }
    let ours (r : Past) : Prop := clusterOf r.slot = clusterOf s.th.slot
    let counted (u : State) (p : PathId) : Prop := ∀ e ∈ u.locPast ++ u.memPast, ∀ r ∈ e.2, r.path = some p → ours r → r.core ≠ none
    (s.th.packet = none → s.counter s.th k ≤ n.val → WritesNothing (if k = .sc ∧ n.val = 0 then s.arm else s) (exec (.cwait k n) s))
    ∧ (∀ e ∈ s.arm.locPast ++ s.arm.memPast, ∀ r ∈ e.2, r.path = some .core → r.who = s.th.ident → r.rel ≠ none ∨ r.armed = true)
    ∧ (∀ e ∈ (s.arm.fire (s.th.view .core)).locPast ++ (s.arm.fire (s.th.view .core)).memPast, ∀ r ∈ e.2,
      r.path = some .core → r.who = s.th.ident → r.rel ≠ none)
    ∧ (s.th.packet = none → n.val < s.counter s.th k → exec (.cwait k n) s = .next s.stall)
    ∧ (s.th.packet ≠ none → exec (.cwait k n) s = .next (s.trapWord 0x12 (.cwait k n)))
    ∧ (f ≠ .core → t ≠ .core → ∃ u, exec (.xfence f t) s = .next u ∧ goes u ∧ sees u f t s.now ∧ u.locPast = s.locPast ∧ u.memPast = s.memPast)
    ∧ (t ≠ .core → s.counter s.th .sc = 0 → ∃ u, exec (.xfence .core t) s = .next u ∧ goes u ∧ sees u .core t s.now
      ∧ u.locPast = s.locPast ∧ u.memPast = s.memPast ∧ u.th.gangSeen = s.th.gangSeen)
    ∧ WritesNothing s (exec (.xfence .core .core) s)
    ∧ (t ≠ .core → 0 < s.counter s.th .sc → exec (.xfence .core t) s = .next s.stall)
    ∧ (f ≠ .core → f ≠ .index → ∃ u, exec (.xfence f .core) s = .next u ∧ goes u ∧ sees u f .core (s.now + 1) ∧ counted u f
      ∧ u.th.gangSeen = s.now + 1 ∧ u.th.devSeen = s.th.devSeen)
    ∧ (∃ u, exec (.xfence .index .core) s = .next u ∧ goes u ∧ sees u .index .core (s.now + 1) ∧ counted u .index
      ∧ u.th.gangSeen = max (s.now + 1) s.th.ixSeen ∧ u.th.devSeen = max s.th.devSeen s.th.ixSeen)

/-- R179 and R180: an arrival of n bytes adds n to the count, which stops at 2^64 - 1 and then sets the overflow flag, and one to the number
of arrivals; in auto mode with a target every whole target is taken off the count and counted as a generation; an error sets the error flag.
-/
def Obligations.ArrivalRule : Prop :=
  ∀ (w : List Byte) (n : Nat) (err : Bool), w.length = 32 →
    let v := arriveWord n err w
    let f (l : List Byte) (o len : Nat) : Nat := natOf ((l.drop o).take len)
    let target := f w 0 8
    let sum := min (f w 8 8 + n) (2 ^ 64 - 1)
    v.length = 32 ∧ f v 0 8 = target ∧ f v 24 8 = (f w 24 8 + 1) % 2 ^ 64
    ∧ (f w 20 4 % 2 = 0 ∨ target = 0 → f v 8 8 = sum ∧ f v 16 4 = f w 16 4)
    ∧ (f w 20 4 % 2 = 1 → target ≠ 0 → f v 8 8 < target
      ∧ ∃ k, f v 8 8 + k * target = sum ∧ f v 16 4 = (f w 16 4 + k) % 2 ^ 32)
    ∧ f v 20 4 % 2 = f w 20 4 % 2
    ∧ (f v 20 4 / 2 % 2 = 1 ↔ f w 20 4 / 2 % 2 = 1 ∨ 2 ^ 64 ≤ f w 8 8 + n)
    ∧ (f v 20 4 / 4 % 2 = 1 ↔ f w 20 4 / 4 % 2 = 1 ∨ err = true)

/-- R181 and R182: `swinit` sets the target, auto mode where it is not 0, and leaves the generation; `swadd` is a release and an arrival of
x[b]; `swwait` goes on where the generation differs from x[b], with an acquire, and otherwise waits for it, until SYNC_WORD_WAKE finds it
changed; `swget` and `swcnt` read the generation and the count. A misaligned word raises 0x04, and `swwait` in an open packet 0x12 (R142).
What the model chose in it: the log's entry 63. -/
def Obligations.SyncWordInstructions : Prop :=
  ∀ (s : State) (d a b : Reg), Memory.wf s.loc = true →
    let la := (s.getX a).toNat
    let old := s.readLoc s.th.owner la 32
    let gen := natOf ((old.drop 16).take 4)
    let good := la % 32 = 0 ∧ s.localFault s.th.owner la 32 = none ∧ s.th.acquiring = false
    (good → ∃ t, exec (.swinit a b) s = .next t
      ∧ StoresLocal s t la (bytesOf 8 (s.getX b).toNat ++ bytesOf 8 0 ++ (old.drop 16).take 4 ++ bytesOf 4 (if s.getX b = 0 then 0 else 1) ++ bytesOf 8 0)
      ∧ KeepsBesidePc s.th t.th ∧ Retires s t 4 ∧ KeepsOutsideLoc s t la 32)
    ∧ (good → s.Clear → ∃ t, exec (.swadd a b) s = .next t ∧ StoresLocal s t la (arriveWord (s.getX b).toNat false old)
      ∧ KeepsBesidePc s.th t.th ∧ Retires s t 4 ∧ KeepsOutsideLoc (s.released .gang) t la 32)
    ∧ (good → s.th.packet = none → gen ≠ (s.getX b).toNat % 2 ^ 32 → ∃ t, exec (.swwait a b) s = .next t
      ∧ KeepsBesidePc { s.th with swWait := none, gangSeen := s.now } t.th ∧ Retires s t 4 ∧ KeepsBytes s t ∧ KeepsOutside (s.ownTouch la) t)
    ∧ (good → s.th.packet = none → gen = (s.getX b).toNat % 2 ^ 32 → exec (.swwait a b) s =
      .next { s with th := { s.th with swWait := some (la, (s.getX b).setWidth 32) } })
    ∧ (let reads (j : Instr) (v : Word) : Prop := ∃ t, exec j s = .next t ∧ (∀ r, t.getX r = if r = d ∧ d ≠ 0 then v else s.getX r)
        ∧ KeepsBesideX s.th t.th ∧ Retires s t 4 ∧ KeepsBytes s t ∧ KeepsOutside (s.ownTouch la) t
      good → reads (.swget d a) (BitVec.ofNat 64 gen) ∧ reads (.swcnt d a) (BitVec.ofNat 64 (natOf ((old.drop 8).take 8))))
    ∧ (la % 32 ≠ 0 → ∀ j ∈ [Instr.swinit a b, .swadd a b, .swget d a, .swcnt d a], exec j s = .next (s.trap 0x04 la))
    ∧ (la % 32 ≠ 0 → s.th.packet = none → exec (.swwait a b) s = .next (s.trap 0x04 la))
    ∧ (s.th.packet ≠ none → exec (.swwait a b) s = .next (s.trapWord 0x12 (.swwait a b)))
    ∧ (∀ l v, s.th.bound = true → s.ev.unit = s.th.slot → s.th.swWait = some (l, v) →
      exec .syncWordWake s = .next (if natOf (s.readLoc s.th.owner (l + 16) 4) ≠ v.toNat then { s with th := { s.th with swWait := none } } else s))

/-! ### Packets, barriers, launches -/

/-- R139 to R142: `mopen` of a core of the cluster that holds a thread of the gang, with an aligned destination and sync word in its
scratchpad, opens a packet; a put appends its bytes to it, each 8-byte word to land by itself, and a closing form closes it, to be counted
at the sync word. A second `mopen`, a core without a mate and a put without a packet raise 0x12, and so does the 64th put that does not
close. R143: a word of a put lands in the destination's scratchpad by itself, in any order with the others of its packet, and after those of
each packet that its thread sent earlier to that core; a closed packet counts at its sync word only once no word of it is left to land, and
after each packet that its thread closed earlier to that core. What the model chose in it: the log's entry 64. -/
def Obligations.MessagePackets : Prop :=
  (∀ (s : State) (a b c : Reg),
      let core := (s.getX a).toNat
      let addr := (s.getX b).toNat
      let sync := (s.getX c).toNat
      let fits := addr % 8 = 0 ∧ 0x10000 ≤ addr ∧ addr < 0x70000 ∧ (sync = 0 ∨ (sync % 32 = 0 ∧ 0x10000 ≤ sync ∧ sync + 32 ≤ 0x70000))
      (s.th.packet = none → core < 8 → s.mateOn core = true → fits → ∃ t, exec (.mopen a b c) s = .next t
        ∧ t.th.packet = some ⟨s.packets, core, addr, sync, 0, 0, 0⟩ ∧ KeepsBesidePc s.th t.th ∧ Retires s t 4 ∧ KeepsBytes s t
        ∧ t.packets = s.packets + 1 ∧ t.landings = s.landings ∧ t.counts = s.counts)
      ∧ (s.th.packet ≠ none ∨ 8 ≤ core ∨ s.mateOn core = false → exec (.mopen a b c) s = .next (s.trapWord 0x12 (.mopen a b c)))
      ∧ (s.th.packet = none → exec (.mput b) s = .next (s.trapWord 0x12 (.mput b)) ∧ exec (.mputE b) s = .next (s.trapWord 0x12 (.mputE b)))
      ∧ (∀ p, s.th.packet = some p → p.core < 8 → 0x10000 ≤ p.addr →
        let key := 0x100000000 + (clusterOf s.th.slot * 8 + p.core) * 0x60000 + (p.addr + p.off - 0x10000)
        let word (v k : Nat) : Landing := ⟨p.id, s.th.ident, clusterOf s.th.slot * 8 + p.core, key + 8 * k, bytesOf 8 (v / 2 ^ (64 * k))⟩
        let open' (t : State) (n : Nat) : Prop :=
          t.th.packet = some { p with off := p.off + 8 * n, puts := p.puts + 1, instrs := p.instrs + 1 } ∧ t.counts = s.counts
        let closed (t : State) (n : Nat) : Prop := t.th.packet = none ∧ ∃ e, t.counts = s.counts ++ [e] ∧ e.packet = p.id
          ∧ e.src = s.th.ident ∧ e.bytes = p.off + 8 * n ∧ e.error = false ∧ (p.sync = 0 → e.sync = none)
        let rest (t : State) : Prop := t.th.x = s.th.x ∧ t.th.f = s.th.f ∧ Retires s t 4 ∧ KeepsBytes s t
        let v := (s.getX b).toNat
        let w := (s.getF b).toNat
        (p.puts < 63 → p.addr + p.off + 8 ≤ 0x70000 → ∃ t, exec (.mput b) s = .next t ∧ t.landings = s.landings ++ [word v 0] ∧ open' t 1 ∧ rest t)
        ∧ (p.puts < 63 → p.addr + p.off + 32 ≤ 0x70000 → s.streamOf b = none → ∃ t, exec (.mputV b) s = .next t
          ∧ t.landings = s.landings ++ [word w 0, word w 1, word w 2, word w 3] ∧ open' t 4 ∧ rest t)
        ∧ (p.addr + p.off + 8 ≤ 0x70000 → ∃ t, exec (.mputE b) s = .next t ∧ t.landings = s.landings ++ [word v 0] ∧ closed t 1 ∧ rest t)
        ∧ (p.addr + p.off + 32 ≤ 0x70000 → s.streamOf b = none → ∃ t, exec (.mputVe b) s = .next t
          ∧ t.landings = s.landings ++ [word w 0, word w 1, word w 2, word w 3] ∧ closed t 4 ∧ rest t)
        ∧ (63 ≤ p.puts → exec (.mput b) s = .next (s.trapWord 0x12 (.mput b)) ∧ exec (.mputV b) s = .next (s.trapWord 0x12 (.mputV b)))
        ∧ (p.puts < 63 → 0x70000 < p.addr + p.off + 8 → exec (.mput b) s = .next (s.trap 0x05 0x70000))))
  ∧ (∀ s : State, Memory.wf s.loc = true →
      (∀ l, s.landings[s.ev.idx]? = some l →
        let first := ∀ m ∈ s.landings, ¬(m.src = l.src ∧ m.core = l.core ∧ m.packet < l.packet)
        (¬first → exec .messageLanding s = .next s)
        ∧ (first → ∃ t, exec .messageLanding s = .next t
          ∧ t = { s with loc := t.loc, locPast := t.locPast, now := t.now, landings := s.landings.eraseIdx s.ev.idx }
          ∧ ∀ j, Memory.read t.loc j = if l.dst ≤ j ∧ j < l.dst + l.data.length then l.data.getD (j - l.dst) 0 else Memory.read s.loc j))
      ∧ (s.landings[s.ev.idx]? = none → exec .messageLanding s = .next s)
      ∧ (∀ c, s.counts[s.ev.idx]? = some c →
        let ready := (∀ l ∈ s.landings, l.packet ≠ c.packet) ∧ ∀ d ∈ s.counts.take s.ev.idx, ¬(d.src = c.src ∧ d.core = c.core)
        (¬ready → exec .packetCount s = .next s)
        ∧ (ready → ∃ t, exec .packetCount s = .next t ∧ t = { s with loc := t.loc, counts := s.counts.eraseIdx s.ev.idx }
          ∧ (c.sync = none → t.loc = s.loc)
          ∧ ∀ k, c.sync = some k → ∀ j, Memory.read t.loc j = if k ≤ j ∧ j < k + 32
              then (arriveWord c.bytes c.error (Memory.readN s.loc k 32)).getD (j - k) 0 else Memory.read s.loc j)))

/-- R130 to R132: `gbar` arrives with its contribution, behind a release at gang scope, and waits. Once every thread of the gang that has
not exited has arrived, BARRIER_COMPLETE gives each thread of the gang the contributions of all; threads of other gangs stand. `gbar` then
writes the vote over them and retires, with an acquire at gang scope: their number, the and, the or, the sum, and the greatest and the least
as signed numbers. An open packet raises 0x12, and so does a handler whose thread arrived before it. What the model chose in it: the log's
entry 63. -/
def Obligations.GangBarrier : Prop :=
  ∀ (s : State) (d a : Reg),
    let all := [Instr.gbar d a, .gbarAnd d a, .gbarOr d a, .gbarAdd d a, .gbarMax d a, .gbarMin d a]
    (∀ j ∈ all, s.th.packet ≠ none → exec j s = .next (s.trapWord 0x12 j))
    ∧ (∀ j ∈ all, s.th.packet = none → s.th.arrived = none → s.Clear →
      exec j s = .next { s.released .gang with th := { s.th with arrived := some (s.getX a), arriveHand := s.th.uact } })
    ∧ (∀ j ∈ all, s.th.packet = none → s.th.arrived = none → s.th.held = [] → s.th.acc ≠ [] → (∀ c ∈ s.th.acc, c.stuck = none) →
      exec j s = .next (s.stall.inRelease .gang))
    ∧ (∀ j ∈ all, s.th.packet = none → s.th.arrived ≠ none → s.th.uact = true → s.th.arriveHand = false →
      exec j s = .next (s.trapWord 0x12 j))
    ∧ (∀ j ∈ all, s.th.packet = none → s.th.arrived ≠ none → (s.th.uact = false ∨ s.th.arriveHand = true) → s.th.depart = none →
      exec j s = .next s.stall)
    ∧ (∀ x r, s.th.packet = none → s.th.arrived ≠ none → (s.th.uact = false ∨ s.th.arriveHand = true) → s.th.depart = some (x :: r) →
      let leaves (j : Instr) (v : Word) : Prop := ∃ t, exec j s = .next t ∧ (∀ r, t.getX r = if r = d ∧ d ≠ 0 then v else s.getX r)
        ∧ KeepsBesideX { s.th with arrived := none, arriveHand := false, depart := none, gangSeen := s.now } t.th
        ∧ Retires s t 4 ∧ KeepsOutside s t ∧ KeepsBytes s t
      leaves (.gbar d a) (BitVec.ofNat 64 (r.length + 1))
      ∧ (∃ v, leaves (.gbarAnd d a) v ∧ ∀ i < 64, v.getLsbD i = true ↔ ∀ y ∈ x :: r, y.getLsbD i = true)
      ∧ (∃ v, leaves (.gbarOr d a) v ∧ ∀ i < 64, v.getLsbD i = true ↔ ∃ y ∈ x :: r, y.getLsbD i = true)
      ∧ leaves (.gbarAdd d a) (BitVec.ofNat 64 (((x :: r).map BitVec.toNat).sum))
      ∧ (∃ v ∈ x :: r, leaves (.gbarMax d a) v ∧ ∀ y ∈ x :: r, y.toInt ≤ v.toInt)
      ∧ (∃ v ∈ x :: r, leaves (.gbarMin d a) v ∧ ∀ y ∈ x :: r, v.toInt ≤ y.toInt))
    ∧ (∀ g, s.th.bound = true → s.ev.unit = s.th.slot → s.gangOf s.th.ident = some g →
      let ts := s.threadsOf g
      let cs := ts.filterMap (·.arrived) ++ g.gone
      let gets (u : Thread) : Thread := if g.has u.ident then { u with depart := some cs } else u
      (ts.length + g.ended.length = g.gsize → (∀ u ∈ ts, u.atBarrier = true) → ∃ t, exec .barrierComplete s = .next t
        ∧ t.th = { s.th with depart := some cs } ∧ t.others = s.others.map (fun e => (e.1, gets e.2))
        ∧ t.threads = s.threads.map gets ∧ (∀ u ∈ t.threadsOf g, u.depart = some cs) ∧ (t.threadsOf g).length = ts.length
        ∧ t = { s.putGang { g with gone := [] } with th := t.th, others := t.others })
      ∧ ((∃ u ∈ ts, u.atBarrier = false) → exec .barrierComplete s = .next s)
      ∧ (ts.length + g.ended.length ≠ g.gsize → exec .barrierComplete s = .next s))

/-- R133 to R138 and R145: `launch` reads the packet once, and behind a release at device scope an acceptable one joins the queue of its
function and class under a new id, from 1 to 2^31 - 1 and no other launch's, which goes to x[d]; for any other x[d] gets the status, -1 to
-4, and nothing is queued. It raises 0x12 in an open packet, 0x04 and 0x05 for a bad address, and waits for what it releases. The hub then
reads the count: the packet's, or, where it is indirect, the lesser of it and the number in memory, and a fault there drops the launch; a
count of 0 completes it. A gang that has finished adds itself to the completion block word by word: to least, then to failed, then to
finished; the update that completes a tournament adds 2^32 to finished after the gangs' updates; a fault loses what is left of the update.
Before it everything that the gang has written is performed at device scope, and for a launch of the host at system scope, where it waits
until what stands in host and peer memory is written through (R350); it waits too while a command of the gang still runs. What the model
chose in it: the log's entries 57, 63, 64 and 65. -/
def Obligations.Launches : Prop :=
  (∀ (s : State) (d a : Reg),
      let la := (s.getX a).toNat
      let bs := s.th.latched.getD (s.seeLoc (s.th.view .core) la 64)
      let fn := if s.th.sys then 0 else s.th.ident.vf
      let st := s.packetStatus bs fn s.th.sys s.th.ident.rival.isSome
      let readable := la % 64 = 0 ∧ s.localFault s.th.owner la 64 = none ∧ s.th.packet = none ∧ s.th.acquiring = false
      (s.th.packet ≠ none → exec (.launch d a) s = .next (s.trapWord 0x12 (.launch d a)))
      ∧ (s.th.packet = none → la % 64 ≠ 0 → exec (.launch d a) s = .next (s.trap 0x04 la))
      ∧ (∀ c q, s.th.packet = none → la % 64 = 0 → s.localFault s.th.owner la 64 = some (c, q) →
        exec (.launch d a) s = .next (s.trap c q))
      ∧ (readable → s.ownWhy = [] → (∃ e ∈ s.th.acc, e.stuck = none) → exec (.launch d a) s = .next ((s.stallWith bs).inRelease .dev))
      ∧ (readable → s.Clear → st ≠ 0 → WritesX (s.released .dev) (exec (.launch d a) s) d (BitVec.ofInt 64 st))
      ∧ (readable → s.Clear → st = 0 → s.launches.length + 1 < 2 ^ 31 → ∃ t l, exec (.launch d a) s = .next t
        ∧ t.launches.length = s.launches.length + 1 ∧ t.launches.getLast? = some l
        ∧ l.fn = fn ∧ l.pkt = parsePacket bs ∧ l.count = none ∧ l.bound = [] ∧ l.finished = 0
        ∧ 1 ≤ l.id ∧ l.id < 2 ^ 31 ∧ (∀ m ∈ s.launches, m.id ≠ l.id)
        ∧ (∀ r, t.getX r = if r = d ∧ d ≠ 0 then BitVec.ofNat 64 l.id else s.getX r)
        ∧ KeepsBesideX s.th t.th ∧ Retires s t 4 ∧ KeepsBytes s t
        ∧ t = { s.released .dev with th := t.th, launches := t.launches, nextLaunch := t.nextLaunch, usage := t.usage }))
  ∧ (∀ (s u : State) (l : Launch), s.launchById s.ev.unit = some l → l.count = none →
      let read := s.translate ((hubOwner l.pkt.firstDie l.fn l.id (!l.pkt.sys)).req .load none) l.pkt.countva
      (l.pkt.indirect = false → exec .launchReplicate s = .next (s.putLaunch { l with count := some l.pkt.gangs }))
      ∧ (∀ p, l.pkt.indirect = true → read = (.ok p, u) → p.tracked = false → u.Bare → p.pa % 8 + 4 ≤ 8 →
        let n := natOf (Memory.readN u.mem p.pa 4)
        exec .launchReplicate s = .next ((u.putLaunch { l with count := some (min n l.pkt.gangs) }).closeLaunch l.fn l.id)
        ∧ (n = 0 → l.finished = 0 → l.pkt.kind ≠ 1 → ∃ t, exec .launchReplicate s = .next t
          ∧ (∀ m ∈ t.launches, ¬(m.id = l.id ∧ m.fn = l.fn)) ∧ t.completions = u.completions))
      ∧ (∀ c, l.pkt.indirect = true → read = (.bad c, u) → ∃ t, exec .launchReplicate s = .next t
        ∧ (∀ m ∈ t.launches, m.id ≠ l.id) ∧ t.monel = u.monel ++ [⟨.launchFault, ⟨l.fn, l.id, 0, 0, none⟩, [l.id]⟩]))
  ∧ (∀ (s u : State) (c : Completion), s.completions[s.ev.idx]? = some c →
      let earlier := ∃ e ∈ s.completions.take s.ev.idx, e.launch = c.launch ∧ e.fn = c.fn
      let off := if c.stage = 0 then 8 else if c.stage = 1 then 12 else 0
      let n := if c.stage < 2 then 4 else 8
      let new (old : Nat) : Nat :=
        if c.stage = 0 then wrap 32 (min (sgn 32 old) c.code)
        else if c.stage = 1 then (old + if c.code < 0 then 1 else 0) % 2 ^ 32
        else (old + if c.tournament then 2 ^ 32 else 1) % 2 ^ 64
      let hub := (hubOwner c.die c.fn c.launch c.user).req .atomic none
      let ours (i : Ident) : Prop := i.vf = c.fn ∧ i.launch = c.launch ∧ ∀ g, c.gang = some g → i.gang = g.1 ∧ i.rival = g.2
      let own := s.adopt (fun r => c.has r.who)
      let ws := if c.sys then own.outsideOf c.covers else []
      let v := own.releaseWhere c.covers (if c.sys then .sys else .dev)
      let turn := ¬(c.tournament = true ∧ earlier) ∧ s.runsFor c.has = false
      (c.tournament = true → earlier → exec .completionBlockUpdate s = .next s)
      ∧ (s.runsFor c.has = true → exec .completionBlockUpdate s = .next s)
      ∧ (∀ i, c.has i = true ↔ ours i)
      ∧ (∀ e ∈ v.locPast ++ v.memPast, ∀ r ∈ e.2, r.path ≠ none → ours r.who → r.rel ≠ none ∧ r.wide ≠ none ∧ (c.sys = true → r.far ≠ none))
      ∧ (turn → ws ≠ [] → ∃ t, exec .completionBlockUpdate s = .next t
        ∧ (t = { own with draw := s.draw + 1 } ∨ ∀ w ∈ ws, Tab.find t.regs w = none))
      ∧ (∀ p, turn → ws = [] → v.translate hub (c.done + off) = (.ok p, u) →
        p.tracked = false → pteRetag p.leaf = false → u.Bare → p.pa % 8 + n ≤ 8 →
        ∃ t, exec .completionBlockUpdate s = .next t
          ∧ t.completions = (if c.stage < 2 then s.completions.set s.ev.idx { c with stage := c.stage + 1 } else s.completions.eraseIdx s.ev.idx)
          ∧ ∀ j, Memory.read t.mem j = if p.pa ≤ j ∧ j < p.pa + n
            then (bytesOf n (new (natOf (Memory.readN u.mem p.pa n)))).getD (j - p.pa) 0 else Memory.read (u.setD p.key).mem j)
      ∧ (∀ e, turn → ws = [] → v.translate hub (c.done + off) = (.bad e, u) →
        exec .completionBlockUpdate s = .next { u with
          completions := s.completions.eraseIdx s.ev.idx
          monel := u.monel ++ [⟨.completionFault, ⟨c.fn, c.launch, 0, 0, none⟩, [c.launch, c.done]⟩] }))

/-! ### Binding, stopping, saving -/

/-- R119, R148 to R151, R153 and R154: a bind record that passes its checks joins its group; a one-thread launch's record, being the last of
its group, binds its thread, which starts at the packet's entry with the argument in x4, every other register as R16 says and a device-scope
acquire (R186). The firmware writes no bind record while a gang of a lower class could be bound or another function is to be served sooner,
and none that does not name the next free slot of the lowest cluster for the next rank. A resume record binds its thread again, to wait for
its frame, in a slice of zeros. A stop record that passes stops its thread, which keeps its frame's address. A record that fails leaves its
code in the port and changes nothing else. A cluster that nothing can write any more is zeroed: it has no tenant and a scratchpad of zeros.
A reservation of the next gang in a closest cluster, that no group at the port names, is noted. What the model chose in it: the log's
entries 35, 37, 65 and 66. -/
def Obligations.BindPortRecords : Prop :=
  ∀ s : State,
    let die := s.ev.unit
    let bits := s.ev.data.setWidth 128
    let r := bindRec bits
    let p := s.port die
    let group := p.group.map bindRec
    let fresh : Prop := die < 8 ∧ p.group = [] ∧ p.waiting = false
    let code := s.recordCode die [] r
    let kind (e : Instr) : Prop := (e = .bindRecord ∧ r.stop = false ∧ r.resume = false) ∨ (e = .resumeRecord ∧ r.stop = false ∧ r.resume = true)
      ∨ (e = .stopRecord ∧ r.stop = true)
    (∀ e, kind e → fresh → code ≠ 0 → r.last = true → ∃ t, exec e s = .next t
        ∧ t.port die = ⟨bits.setWidth 64, [], code, 0, false⟩ ∧ t = { s with ports := t.ports })
    ∧ (∀ e, kind e → fresh → s.firmwareWould die r = true → r.last = false → ∃ t, exec e s = .next t
        ∧ t.port die = ⟨bits.setWidth 64, [bits], code, if code = 0 then 1 else p.count, false⟩
        ∧ t = { s with ports := t.ports, charges := t.charges })
    ∧ (r.stop = false → s.recordCode die group r = 0 → (∃ q < r.prio, ∃ v, s.bindableIn die q v ≠ none) →
      exec .bindRecord s = .next s ∧ exec .resumeRecord s = .next s)
    ∧ (r.stop = false → s.recordCode die group r = 0 →
      (∃ v ∈ s.bindable die r.prio, s.roundsFor die r.prio v < s.roundsFor die r.prio r.fn)
        ∨ ¬(r.grank = group.length ∧ ∃ c, s.bindableIn die r.prio r.fn = some c ∧ (s.idleIn die c)[group.length]? = some r.slot) →
      exec .bindRecord s = .next s)
    ∧ (∀ l, fresh → s.firmwareWould die r = true → r.stop = false → r.resume = false → r.last = true → code = 0 →
      s.headOf r.fn r.prio die = some l → l.pkt.threads = 1 → l.pkt.kind = 0 → l.pkt.units = 0 →
      (Tab.get s.tenants (clusterOf (r.slotOn die)) ⟨none, false⟩).zeroing = false → ∃ t u, exec .bindRecord s = .next t
        ∧ t.threadAt (r.slotOn die) = some u ∧ u.pc = pcBits (BitVec.ofNat 64 l.pkt.entry) ∧ u.ident = ⟨r.fn, l.id, r.gang, r.grank, none⟩
        ∧ u.sys = r.sys ∧ u.prio = r.prio ∧ u.gsize = 1 ∧ u.uact = false ∧ u.phase = .running ∧ u.devSeen = s.now + 1
        ∧ (∀ k : Reg, u.x[k] = if k = 2 then 0x3900 else if k = 4 then l.pkt.arg else 0) ∧ (∀ k : Reg, u.f[k] = 0)
        ∧ t.mem = s.mem ∧ t.port die = ⟨bits.setWidth 64, [], 0, 0, false⟩)
    ∧ (∀ g l, fresh → s.firmwareWould die r = true → r.stop = false → r.resume = true → r.last = true → code = 0 →
      s.savedGang die r = some g → s.launchOf g.fn g.launch = some l →
      (Tab.get s.tenants (clusterOf (r.slotOn die)) ⟨none, false⟩).zeroing = false → s.frameOwned r.frame = false →
      ∃ t u, exec .resumeRecord s = .next t ∧ t.threadAt (r.slotOn die) = some u ∧ u.phase = .binding ∧ u.frame = r.frame
        ∧ u.ident = ⟨r.fn, l.id, r.gang, r.grank, g.rival⟩ ∧ u.sys = r.sys ∧ u.prio = r.prio ∧ t.mem = s.mem
        ∧ (∀ j, Memory.read t.loc j =
            if r.slotOn die * 0x4000 ≤ j ∧ j < (r.slotOn die + 1) * 0x4000 then 0 else Memory.read s.loc j)
        ∧ t.port die = ⟨bits.setWidth 64, [], 0, 0, false⟩)
    ∧ (∀ u, fresh → r.stop = true → r.last = true → code = 0 →
      s.threadAt (r.slotOn die) = some u → u.slot = r.slotOn die → u.phase = .running → ∃ t, exec .stopRecord s = .next t
        ∧ t.threadAt (r.slotOn die) = some { u with frame := r.frame, phase := .requested } ∧ KeepsBytes s t)
    ∧ (∀ c, s.ev.unit = c → (Tab.get s.tenants c ⟨none, false⟩).zeroing = true →
      (s.mayZero c = false → exec .clusterZeroingDone s = .next s)
      ∧ (s.mayZero c = true → (s.port (c / 20)).waiting = false →
        ∃ t, exec .clusterZeroingDone s = .next t ∧ Tab.get t.tenants c ⟨none, false⟩ = ⟨none, false⟩
        ∧ (∀ j, Memory.read t.loc j = if 0x100000000 + c * 0x300000 ≤ j ∧ j < 0x100000000 + (c + 1) * 0x300000 then 0 else Memory.read s.loc j)
        ∧ t = { s with loc := t.loc, locPast := t.locPast, tenants := t.tenants }))
    ∧ (∀ l rival, s.launchById s.ev.idx = some l → s.headOf l.fn l.pkt.prio die = some l → l.nextOn die = some (s.ev.num, rival) →
      s.ev.data.toNat < 20 → (∀ d < 20, min l.pkt.threads (s.idleIn die d).length ≤ min l.pkt.threads (s.idleIn die s.ev.data.toNat).length) →
      ((∃ q ∈ group, q.stop = false ∧ q.slot / 64 = s.ev.data.toNat) → exec .gangReservation s = .next s)
      ∧ ((∀ q ∈ group, ¬(q.stop = false ∧ q.slot / 64 = s.ev.data.toNat)) →
      ((∃ q ∈ s.reserves, q.1 = die ∧ q.2.1 = l.id ∧ q.2.2.1 = gangMark s.ev.num rival) → exec .gangReservation s = .next s)
      ∧ ((∀ q ∈ s.reserves, ¬(q.1 = die ∧ q.2.1 = l.id ∧ q.2.2.1 = gangMark s.ev.num rival)) → exec .gangReservation s =
        .next { s with reserves := s.reserves ++ [(die, l.id, gangMark s.ev.num rival, s.ev.data.toNat)] })))

/-- R304 to R306 and R154: a requested stop takes effect at a boundary; the thread then drains, and at the drain timeout what its engines
have not finished or not started is withdrawn and kept with it, once its accesses, its other index commands and its running matrix work have
ended; once nothing of it is in flight its registers are written to its own slice and its lease ends; what it holds of records, notices and
commands goes into a place of the record store, for which it waits; a thread with a frame is copied to it, byte for byte, and its slot is
free and zero. What the model chose in it: the log's entries 19, 31, 63 and 66. -/
def Obligations.StopDrainSaveSpill : Prop :=
  ∀ s : State, s.th.bound = true → s.ev.unit = s.th.slot →
    let t := s.th
    let done : Prop := t.phase = .draining ∧ s.drained = true ∧ s.ownsUnit t.slot = false ∧ s.sliceBad t.slot = false ∧ t.depart = none
      ∧ s.outsideOf (fun r => r.who == t.ident || r.ownOf (t.view .core)) = [] ∧ Memory.wf s.loc = true
    let saves (store : List StorePlace) : Prop := ∃ u, exec .saveComplete s = .next u ∧ u.th = { t with phase := .saved, lease := none, ring := none }
      ∧ (∀ j, (j < t.slot * 0x4000 + 0x39C0 ∨ t.slot * 0x4000 + 0x4000 ≤ j) → Memory.read u.loc j = Memory.read s.loc j)
      ∧ u.mem = s.mem ∧ u.saveOk t.slot = true ∧ u.store = store
    (t.mayStop = true → t.mownWait = false → t.mma = none → exec .threadStop s =
      .next { s with th := { t with phase := .draining, swWait := none, stalled := false, relWait := none, latched := none } })
    ∧ (t.mayStop = false → exec .threadStop s = .next s)
    ∧ (t.phase = .draining → s.onlyLong = false → exec .saveDrainTimeout s = .next s)
    ∧ (t.phase = .draining → s.onlyLong = true → ∃ u, exec .saveDrainTimeout s = .next u
      ∧ u.counter u.th .yc = 0 ∧ u.counter u.th .tc = 0 ∧ (∀ m ∈ u.nmQ, m.owner.isOf t = false) ∧ (∀ l ∈ u.loads, l.owner.isOf t = false)
      ∧ (∀ c ∈ u.ixQ, c.owner.isOf t = false)
      ∧ (∀ c ∈ s.copyQueue (coreOf t.slot), c.owner.isOf t = true → Progress.copy c ∈ u.th.progress)
      ∧ (∀ c ∈ s.tableQ, c.owner.isOf t = true → Progress.table c ∈ u.th.progress)
      ∧ (∀ m ∈ s.nmQ, m.owner.isOf t = true → Progress.nm m ∈ u.th.progress)
      ∧ (∀ l ∈ s.loads, l.owner.isOf t = true → Progress.load l ∈ u.th.progress)
      ∧ (∀ c ∈ s.ixQ, c.owner.isOf t = true → c.op = .near → Progress.near c ∈ u.th.progress)
      ∧ u.th = { t with progress := u.th.progress } ∧ KeepsBytes s u)
    ∧ (done → t.needsPlace = false → saves s.store)
    ∧ (∀ k, done → t.needsPlace = true → s.freePlace = some k → s.badIn (s.placeAt k) 0x800 = none →
      saves (s.store ++ [⟨k, t.ident, t.acc, t.held, t.progress, t.notices, t.heldNotices⟩]))
    ∧ (t.phase = .draining → t.needsPlace = true → s.freePlace = none → exec .saveComplete s = .next s)
    ∧ (t.phase = .saved → t.frame ≠ 0 → t.frame % 16384 = 0 → s.sliceBad t.slot = false → s.badIn t.frame 0x4000 = none →
      Memory.wf s.mem = true → Memory.wf s.loc = true →
      ∃ u, exec .slotSpill s = .next u ∧ u.th = Thread.idle
        ∧ (∀ j, Memory.read u.mem j = if t.frame ≤ j ∧ j < t.frame + 0x4000 then Memory.read s.loc (t.slot * 0x4000 + (j - t.frame)) else Memory.read s.mem j)
        ∧ (∀ j, Memory.read u.loc j = if t.slot * 0x4000 ≤ j ∧ j < t.slot * 0x4000 + 0x4000 then 0 else Memory.read s.loc j))

/-- R120 to R124: what a save writes into a slice passes the checks of a resume, and the resume restores from it the PC, the live registers,
the state registers, the streams and the loop state; a register that was not live comes back as 0. The resume is an acquire at system scope
(R186), and of code too (R19). What the model chose in it: the log's entries 34, 63, 65 and 66. -/
def Obligations.SaveThenRestore : Prop :=
  ∀ (s : State) (t b : Thread) (prog mown : Bool), Memory.wf s.loc = true → b.slot = t.slot → PcOk t.pc → t.usave &&& 0x3FC0#64 = t.usave →
    t.cause.toNat < 256 → (∀ k : Fin 4, ∀ st, t.streams[k] = some st → st.base.toNat < 2 ^ 29) →
    let u := s.writeSave t prog mown
    let v := u.restored b
    u.saveOk t.slot = true ∧ v.pc = t.pc ∧ v.sys = t.sys ∧ v.uact = t.uact ∧ v.uvec = t.uvec ∧ v.epc = t.epc ∧ v.tval = t.tval
    ∧ v.cause = t.cause ∧ v.usave = t.usave ∧ v.iret = t.iret ∧ v.rmode = t.rmode ∧ v.fflags = t.fflags ∧ v.othresh = t.othresh
    ∧ v.clamplo = t.clamplo ∧ v.clamphi = t.clamphi ∧ v.mstride = t.mstride ∧ v.mrow = t.mrow ∧ v.score = t.score
    ∧ (∀ k : Fin 4, v.streams[k] = (t.streams[k]).map (fun st => { st with since := s.now })) ∧ v.arrived = t.arrived ∧ v.live = t.liveMask
    ∧ v.gangSeen = s.now ∧ v.devSeen = s.now ∧ v.sysSeen = s.now ∧ v.codeSeen = s.now
    ∧ (t.looping = true → v.loop0 = t.loop0 ∧ v.loop1 = t.loop1)
    ∧ (∀ r : Reg, v.x[r] = if t.liveMask.getLsbD r.val then t.x[r] else 0)
    ∧ (∀ r : Reg, v.f[r] = if t.liveMask.getLsbD (32 + r.val) then t.f[r] else 0)

/-- R124, R151 and R307: a frame that has been copied into the slice and passes its checks restores its thread, which is ready with the rest
of its group, and its core holds no copy of code (R19); suspended commands that its core's queue cannot take yet, or a ring that it waits
for, hold it back. One that does not pass, or cannot be read, loses its context: the gang stops and Monel learns of it. What the model chose
in it: the log's entries 35 and 66. -/
def Obligations.FrameCopyRestores : Prop :=
  ∀ s : State, s.th.bound = true → s.ev.unit = s.th.slot → s.th.phase = .binding →
    let t := s.th
    let u : State := { s with loc := Memory.place s.loc (t.slot * 0x4000) 0x4000 (s.rawSlice t.frame 0x4000) }
    let passes := t.frame ≠ 0 ∧ s.badIn t.frame 0x4000 = none ∧ s.sliceBad t.slot = false ∧ u.saveOk t.slot = true
    let owned := u.saved t.slot 0x3FDF 1 / 2 % 2 = 1
    let full := 16 ≤ (s.copyQueue (coreOf t.slot)).length
    let waits (v : State) : Prop := v.th.phase = .binding ∧ v.th.frame = 0 ∧ v.th.pc = (u.restored t).pc ∧ v.th.x = (u.restored t).x
      ∧ v.th.f = (u.restored t).f ∧ v.th.ident = t.ident ∧ v.loc = u.loc ∧ v.mem = s.mem
      ∧ ∀ fn va, fn < 129 → va < 2 ^ 56 → Tab.find v.icache (icKey (coreOf t.slot) fn va) = none
    (t.frame = 0 → exec .frameCopyDone s = .next s.resumeOn)
    ∧ (∀ c r, t.frame = 0 → t.progress = .copy c :: r → c.fail = none → full → exec .frameCopyDone s = .next s)
    ∧ (∀ k, t.frame = 0 → t.progress = [] → t.ring = some k → s.ownsUnit t.slot = false → exec .frameCopyDone s = .next s)
    ∧ (∀ p c r, passes → s.store = [p] → p.ident = t.ident → s.badIn (s.placeAt p.place) 0x800 = none → p.progress = .copy c :: r →
      c.fail = none → full → ∃ v, exec .frameCopyDone s = .next v ∧ waits v ∧ v.th.progress = .copy c :: r ∧ v.store = [])
    ∧ (∀ k e, passes → owned → s.rings = [(k, e)] → e.ident = t.ident → s.store = [] → t.progress = [] → s.ownsUnit t.slot = false →
      ∃ v, exec .frameCopyDone s = .next v ∧ waits v ∧ v.th.ring = some k)
    ∧ (∀ g, passes → ¬owned → s.store = [] → t.progress = [] → s.gangOf t.ident = some g → g.leaving = [] →
      (∃ e ∈ s.others, g.has e.2.ident = true ∧ e.2.phase = .binding ∧ (e.2.frame ≠ 0 ∨ e.2.ring ≠ none ∨ e.2.progress ≠ [])) →
      ∃ v, exec .frameCopyDone s = .next v ∧ waits v ∧ v.others = s.others)
    ∧ (∀ g, passes → ¬owned → s.store = [] → t.progress = [] → s.gangOf t.ident = some g → g.leaving = [] →
      (∀ e ∈ s.others, g.has e.2.ident = true → e.2.phase = .binding → e.2.frame = 0 ∧ e.2.ring = none ∧ e.2.progress = []) →
      ∃ v, exec .frameCopyDone s = .next v ∧ v.th.phase = .running ∧ v.th.frame = 0 ∧ v.th.pc = (u.restored t).pc
        ∧ ∀ e ∈ s.others, g.has e.2.ident = true → e.2.phase = .binding → (e.1, { e.2 with phase := .running }) ∈ v.others)
    ∧ (∀ g, t.frame ≠ 0 → s.badIn t.frame 0x4000 = none → s.sliceBad t.slot = false → u.saveOk t.slot = true →
      u.saved t.slot 0x3FDF 1 / 2 % 2 = 0 → s.store = [] → t.progress = [] →
      s.gangOf t.ident = some g → s.threadsOf g = [t] → g.leaving = [] →
      ∃ v, exec .frameCopyDone s = .next v ∧ v.th.phase = .running ∧ v.th.frame = 0 ∧ v.th.pc = (u.restored t).pc ∧ v.th.x = (u.restored t).x
        ∧ v.th.f = (u.restored t).f ∧ v.th.ident = t.ident ∧ v.loc = u.loc ∧ v.mem = s.mem)
    ∧ (t.frame ≠ 0 → (s.badIn t.frame 0x4000 ≠ none ∨ s.sliceBad t.slot = true ∨ u.saveOk t.slot = false) →
      ∃ v rest, exec .frameCopyDone s = .next v ∧ v.monel = s.monel ++ ⟨.lost, t.ident, [2, t.frame]⟩ :: rest
        ∧ (∀ g, s.gangOf t.ident = some g → s.others = [] → v.th = Thread.idle ∧ v.others = [])
        ∧ (∀ g n m, s.gangOf t.ident = some g → s.others = [(n, m)] → m.slot = n → n ≠ t.slot → g.has m.ident = true →
          v.th.bound = false ∧ v.others = []))

/-! ### The copy engine and the matrix unit -/

/-- R213 to R215, R218 and R220: `cpy` of two records that keep R213, with an aligned sync word or none, joins its core's queue behind what
stands there, and waits while the queue or the thread's share of it is full; `cpyq` counts the thread's copies, the free places and whether
a copy is held. The engine moves the element at its head, from and to local memory, as its path sees it (R190), or an untracked page: its
bytes between two formats that are one and without scales, else its exact value, times the scale of its block, converted to the other format
(R209 to R212). A position outside its tensor reads as the fill pattern, or is skipped. A block of a scaled destination is moved as one,
with its code. At the last element the command leaves the queue and arrives at its sync word with the bytes that it moved. What the model
chose in it: the log's entries 16, 63, 65 and 66. -/
def Obligations.CopyCommands : Prop :=
  ∀ (s : State) (a b c d : Reg),
    let sw := (s.getX c).toNat
    let core := coreOf s.th.slot
    let src := s.layoutRegs a
    let dst := s.layoutRegs b
    let good := s.syncFault sw = none ∧ copyFault src dst = none ∧ s.syncLost sw = none
    (good → s.counter s.th .yc < 4 → (s.copyQueue core).length < 16 → ∃ t, exec (.cpy a b c) s = .next t
      ∧ t.copyQueue core = s.copyQueue core ++ [⟨s.th.owner, s.th.view .copy, src, dst, sw, 0, ⟨none, none⟩, s.th.seq, none, none⟩] ∧ t.th.seq = s.th.seq + 1
      ∧ t.th.x = s.th.x ∧ t.th.f = s.th.f ∧ Retires s t 4 ∧ KeepsBytes s t)
    ∧ (good → (4 ≤ s.counter s.th .yc ∨ 16 ≤ (s.copyQueue core).length) → exec (.cpy a b c) s = .next s.stall)
    ∧ (sw ≠ 0 → sw % 32 ≠ 0 → exec (.cpy a b c) s = .next (s.trap 0x04 sw))
    ∧ (∀ k q, s.syncFault sw = none → copyFault src dst = some (k, q) → exec (.cpy a b c) s = .next (s.trap k q))
    ∧ (∀ q, s.syncFault sw = none → copyFault src dst = none → s.syncLost sw = some (0x09, q) → exec (.cpy a b c) s = .next (s.trap 0x09 q))
    ∧ WritesX s (exec (.cpyq d) s) d (BitVec.ofNat 64 (s.counter s.th .yc + 256 * (16 - (s.copyQueue core).length)
        + 65536 * (s.th.held.any (fun h => match h.what with | .copy _ => true | _ => false)).toNat))
    ∧ (∀ e r, s.copyQueue s.ev.unit = e :: r → s.ev.num = 1 → e.fail = none →
      let x := layoutOf e.src
      let y := layoutOf e.dst
      let p := x.position e.n
      let q := y.position e.n
      let near (l : Layout) (v : List Int) : Prop :=
        l.inside v = true ∧ l.isLocal = true ∧ s.levelFault e.owner l.base (l.address v) l.size = none
      let far (l : Layout) (v : List Int) (k : AccKind) (seen : Option Bool) (z : Phys) (u : State) : Prop :=
        l.inside v = true ∧ l.isLocal = false ∧ l.address v + l.size ≤ 2 ^ 56 ∧ lineParts (l.address v) l.size = [(l.address v, l.size)]
        ∧ s.translate (e.owner.req k e.gen) (l.address v) = (.ok z, u) ∧ z.tracked = false ∧ pteRetag z.leaf = false ∧ u.Bare ∧ seen ≠ some true
      let value (n bits : Nat) : Exact :=
        if x.scales = 0 then elementValue x.format bits else dequant bits (s.seeNat e.view (x.scaleAt n) 1)
      let scaled (n : Nat) : Prop := x.scales = 0 ∨ s.levelFault e.owner x.scales (x.scaleAt n : Nat) 1 = none
      let out (bits : Nat) : Nat := if x.format = y.format ∧ x.scales = 0 then bits else convertedTo y.format (value e.n bits)
      let moved (t : State) (n : Nat) (w : State) : Prop := (n < x.count → (∃ c, t.copyQueue s.ev.unit = c :: r
          ∧ c = { e with n := n, attrs := c.attrs }) ∧ t.loc = w.loc)
        ∧ (n = x.count → t.copyQueue s.ev.unit = r ∧ t.loc = (w.arrive e.owner e.sw (x.count * y.size) false).loc)
      let goes (t w : State) : Prop := moved t (e.n + 1) w ∧ t.locPast = w.locPast
      let local' (n : Nat) : Nat := if x.inside (x.position n) then s.seeNat e.view (x.address (x.position n)) x.size else x.fillBits
      let read (n : Nat) : Prop := scaled n ∧ (near x (x.position n) ∨ (x.inside (x.position n) = false ∧ x.fill = true))
      s.badLoc = [] → e.n < x.count →
      (y.scales = 0 → read e.n → near y q → ∃ t, exec .copyCommand s = .next t ∧ t.mem = s.mem ∧ t.th = s.th
        ∧ goes t (s.putLoc e.view (y.address q) (bytesOf y.size (out (local' e.n)))))
      ∧ (y.scales = 0 → read e.n → y.inside q = false → y.fill = true → ∃ t, exec .copyCommand s = .next t ∧ t.mem = s.mem ∧ t.th = s.th ∧ goes t s)
      ∧ (∀ z u, y.scales = 0 → scaled e.n → far x p .load e.attrs.src z u → near y q → ∃ t, exec .copyCommand s = .next t ∧ t.mem = u.mem
        ∧ t.th = u.th ∧ goes t (u.putLoc e.view (y.address q) (bytesOf y.size (out (natOf (Memory.readN u.mem z.pa x.size))))))
      ∧ (∀ z u, y.scales = 0 → read e.n → far y q .store e.attrs.dst z u → ∃ t, exec .copyCommand s = .next t ∧ goes t u
        ∧ ∀ j, Memory.read t.mem j = if z.pa ≤ j ∧ j < z.pa + y.size then BitVec.ofNat 8 (out (local' e.n) / 256 ^ (j - z.pa))
          else Memory.read (u.setD z.key).mem j)
      ∧ (y.scales ≠ 0 → (y.block e.n).1 = e.n →
        let len := (y.block e.n).2
        let vs := (List.range len).map (fun i => value (e.n + i) (local' (e.n + i)))
        let most := vs.foldl (fun m v => if m.isNan = true ∨ v.isNan = true then .nan false else (Exact.pick true m v.abs).1) Exact.zero
        let code := (scaleX8 most).1
        (∀ i < len, e.n + i < x.count ∧ read (e.n + i) ∧ near y (y.position (e.n + i))) → y.format = 0x0C →
        s.levelFault e.owner y.scales (y.scaleAt e.n : Nat) 1 = none → ∃ t, exec .copyCommand s = .next t ∧ t.mem = s.mem ∧ t.th = s.th
          ∧ moved t (e.n + len) ((List.range len).foldl (fun w i =>
              w.putLoc e.view (y.address (y.position (e.n + i))) (bytesOf 1 (encodeBlock (vs.getD i Exact.zero) code).1))
            (s.putLoc e.view (y.scaleAt e.n) (bytesOf 1 code)))))

/-- R225 and R227 to R237: only the slot that owns the unit may execute the matrix instructions but `mown`; any other raises 0x0C. `mown`
takes a free unit, waits for one that another owns, and raises 0x0C in its owner; `mrel` gives an idle unit up, `mcfg` sets sr.mstride,
`mring.adv` closes the head tile, `mring.clr` zeroes it, `epcfg` reads its record once, waits for the requested drains and takes a good one,
`epgo` requests drains, and a finished command, which is none that its thread still waits in, lowers mc. What the model chose in it: the
log's entries 17 and 19. -/
def Obligations.MatrixUnitInstructions : Prop :=
  ∀ (s : State) (a b c : Reg),
    let core := coreOf s.th.slot
    let u := s.unitOf core
    let mine := u.owner = some s.th.slot
    let own (i : Instr) (v : MatrixUnit) : Prop := ∃ t, exec i s = .next t ∧ t.unitOf core = v ∧ t.th.x = s.th.x ∧ t.th.f = s.th.f
      ∧ Retires s t 4 ∧ KeepsBytes s t
    (¬mine → ∀ i ∈ [Instr.mrel, .mcfg a, .mmaBf16 a b, .mmaD8 a b c, .mmaF16 a b, .mringAdv, .mringClr, .epcfg a, .epgo a],
      exec i s = .next (s.trapWord 0x0C i))
    ∧ (u.owner = none → own .mown { MatrixUnit.empty with owner := some s.th.slot })
    ∧ (mine → s.th.mownWait = false → exec .mown s = .next (s.trapWord 0x0C .mown))
    ∧ (¬mine → u.owner ≠ none → s.th.mownWait = false → ∃ t, exec .mown s = .next t ∧ t.th = { s.th with mownWait := true }
      ∧ t.unitOf core = { u with waiters := u.waiters ++ [s.th.slot] })
    ∧ (mine → u.mc = 0 → u.owed = 0 → own .mrel (match u.waiters with
        | [] => MatrixUnit.empty | w :: r => { MatrixUnit.empty with owner := some w, waiters := r }))
    ∧ (mine → (u.mc ≠ 0 ∨ u.owed ≠ 0) → exec .mrel s = .next s.stall)
    ∧ (mine → fld (s.getX a).toNat 52 9 = 0 → fld (s.getX a).toNat 20 20 % 8 = 0 → fld (s.getX a).toNat 0 20 % 8 = 0 →
      own (.mcfg a) u ∧ ∃ t, exec (.mcfg a) s = .next t ∧ t.th.mstride = s.getX a)
    ∧ (mine → u.mc = 0 → u.fill < 7 → own .mringAdv { u with fill := u.fill + 1, head := (u.head + 1) % 8 })
    ∧ (mine → u.mc = 0 → ∃ t, exec .mringClr s = .next t ∧ Retires s t 4 ∧ KeepsBytes s t ∧ ∀ tile row col, row < 64 → col < 64 →
      Tab.get (t.unitOf core).tiles (tileKey tile row col) 0 = if tile = u.head then 0 else Tab.get u.tiles (tileKey tile row col) 0)
    ∧ (mine → u.reqs.length ≤ u.fill → s.localCheck (s.getX a).toNat 64 64 = none → s.th.acquiring = false →
      let bs := s.th.latched.getD (s.seeLoc (s.th.view .core) (s.getX a).toNat 64)
      (parseEp bs = none → exec (.epcfg a) s = .next (s.trapWord 0x0C (.epcfg a)))
      ∧ (∀ e, parseEp bs = some e → (e.flags.getLsbD 0 = true ∨ e.out < 2 ^ 56) →
        (u.reqs = [] → own (.epcfg a) { u with cfg := some e, row := 0 })
        ∧ (u.reqs ≠ [] → exec (.epcfg a) s = .next (s.stallWith bs))))
    ∧ (mine → u.cfg ≠ none → u.reqs.length + (s.getX a).toNat ≤ 255 →
      own (.epgo a) { u with reqs := u.reqs ++ List.replicate (s.getX a).toNat ⟨s.th.seq, s.th.view .epi⟩ })
    ∧ (∀ v n, s.unitOf s.ev.unit = v → n = (if (∃ t, v.owner.bind s.threadAt = some t ∧ t.mma ≠ none) then 1 else 0) →
      (v.mc ≤ n → exec .mmaComplete s = .next s)
      ∧ (n < v.mc → ∃ t, exec .mmaComplete s = .next t ∧ t.unitOf s.ev.unit = { v with mc := v.mc - 1 }
        ∧ t = { s with units := t.units }))

/-- R58, R65 and R227 to R229: in a turn that takes all rows, with both operands in local memory, the rows of A from sr.mrow up are
multiplied with B and added into the head tile: each block of 32 products is summed exactly, rounded to f32 with its scale, and added with
one more rounding, in rising order along K. sr.mrow returns to 0, mc rises, and no other element of a tile changes. What the model chose in
it: the log's entries 17, 18 and 63. -/
def Obligations.MatrixMultiply : Prop :=
  ∀ (s : State) (a b c : Reg),
    let core := coreOf s.th.slot
    let u := s.unitOf core
    let x := (s.getX a).toNat
    let y := (s.getX b).toNat
    let m := s.th.mstride.toNat
    let row0 := s.th.mrow.toNat
    let byte (la : Nat) : Nat := s.seeNat (s.th.view .matrix) la 1
    let half (la : Nat) : Nat := s.seeNat (s.th.view .matrix) la 2
    let ready := s.ev.num = 0 ∧ s.badLoc = [] ∧ u.owner = some s.th.slot ∧ u.mc < 2 ∧ row0 < 64 ∧ mstrideOf s.th.mstride ≠ none ∧ s.th.mstride.getLsbD 63 = true
      ∧ s.th.mstride.getLsbD 62 = true ∧ x % 8 = 0 ∧ y % 8 = 0 ∧ s.rowsFault ⟨x, true, 64, fld m 0 20, 128⟩ = none
    let result (i : Instr) (k : Nat) (ea eb : Nat → Nat → Exact) (sc : Nat → Nat → Nat) : Prop := ∃ t, exec i s = .next t
      ∧ t.th.mrow = 0 ∧ Retires s t 4 ∧ KeepsBytes s t ∧ (t.unitOf core).mc = u.mc + 1 ∧ (t.unitOf core).head = u.head
      ∧ ∀ tile row col, row < 64 → col < 64 → Tab.get (t.unitOf core).tiles (tileKey tile row col) 0 =
        if tile = u.head ∧ row0 ≤ row then BitVec.ofNat 32 ((List.range (k / 32)).foldl (fun acc q =>
            let v := (sumNums nearest ((List.range 32).map (fun j => (Exact.mul (ea row (32 * q + j)) (eb (32 * q + j) col)).1))).1
            let p := (f32.round nearest false (if sc row q = 255 then .nan false else v.scale ((sc row q : Int) - 127))).1
            (f32.round nearest false (Exact.add nearest (f32.unpack acc) (f32.unpack p)).1).1) (Tab.get u.tiles (tileKey tile row col) 0).toNat)
        else Tab.get u.tiles (tileKey tile row col) 0
    let a16 (f : Fmt) (r k : Nat) : Exact := f.unpack (half (x + r * fld m 0 20 + 2 * k))
    let b16 (f : Fmt) (k j : Nat) : Exact := f.unpack (half (y + k * fld m 20 20 + 2 * j))
    (ready → s.rowsFault ⟨y, true, 64, fld m 20 20, 128⟩ = none →
      result (.mmaBf16 a b) 64 (a16 bf16) (b16 bf16) (fun _ _ => 127) ∧ result (.mmaF16 a b) 64 (a16 f16) (b16 f16) (fun _ _ => 127))
    ∧ (ready → s.rowsFault ⟨y, true, 128, fld m 20 20, 64⟩ = none → s.getX c = 0 →
      result (.mmaD8 a b c) 128 (fun r k => d8Value (byte (x + r * fld m 0 20 + k))) (fun k j => d8Value (byte (y + k * fld m 20 20 + j)))
        (fun _ _ => 127))
    ∧ (ready → s.rowsFault ⟨y, true, 128, fld m 20 20, 64⟩ = none → s.getX c ≠ 0 → s.th.mstride.getLsbD 61 = true →
      s.rowsFault ⟨(s.getX c).toNat, true, 64, fld m 40 12, 4⟩ = none →
      result (.mmaD8 a b c) 128 (fun r k => d8Value (byte (x + r * fld m 0 20 + k))) (fun k j => d8Value (byte (y + k * fld m 20 20 + j)))
        (fun r q => byte ((s.getX c).toNat + r * fld m 40 12 + q)))

/-- R237 to R240: a requested drain of a closed tile goes on from the first row not written, and a turn of one row leaves the next: each
element is the tile's, times its column's scale, plus its bias, and through the activation table, in that order and each where the
configuration asks for it. An outlier, greater than the threshold in magnitude, is written as 0; every other element is converted to the
output format, or, under block scales, encoded with the code of its block of 32, whose codes stand in the scale array. A row's entries go to
the outlier list after its elements, those past the limit are dropped, and the count rises for each. After row 63 the count stands in the
list, the tail tile is zero, the tail moves, the request is done, the output and the scale array move on, and the sync word hears of the
tile. A turn of several rows into local memory in f32 writes each of them, and no other byte. With no closed tile, or a drain that is held
or has failed, nothing happens; a bad activation header ends the drain with a notice of 0x0C. What the model chose in it: the log's entries
16, 19, 63 and 66. -/
def Obligations.TileDrains : Prop :=
  ∀ (s : State) (c : EpCfg) (q : DrainReq) (r : List DrainReq), s.th.bound = true → Memory.wf s.loc = true → s.ev.idx = 0 →
    let core := s.ev.unit
    let u := s.unitOf core
    let last := if s.ev.num = 0 then 64 else min 64 (u.row + s.ev.num)
    let at_ (row : Nat) : Nat := (c.out + row * c.rstride).toNat
    u.owner = some s.th.slot → u.cfg = some c → u.reqs = q :: r → q.view.slot = s.th.slot → q.view.ident = s.th.ident →
    ((u.fill = 0 ∨ u.held = true ∨ u.fail ≠ none) → exec .tileDrain s = .next s)
    ∧ (0 < u.fill → u.held = false → u.fail = none → u.row < 64 → u.tail < 8 →
      c.flags = 1 → c.ofmt = 0x0A → c.smode = 0 → c.sync = 0 → 256 ≤ c.rstride → c.out + 64 * c.rstride ≤ 0x1200000 →
      (∀ row : Nat, row < 64 → s.levelFault s.th.owner c.out (c.out + row * c.rstride) 256 = none) →
      ∃ t v, exec .tileDrain s = .next t ∧ t.unitOf core = v
        ∧ (∀ row col : Nat, u.row ≤ row → row < last → col < 64 → natOf (t.readLoc s.th.owner (at_ row + 4 * col) 4) =
            (f32.round nearest false (f32.unpack (Tab.get u.tiles (tileKey u.tail row col) 0).toNat)).1)
        ∧ (∀ j, (∀ row k, u.row ≤ row → row < last → k < 256 → locKey s.th.slot (s.grantOf s.th.ident) (at_ row + k) ≠ some j) →
            Memory.read t.loc j = Memory.read s.loc j)
        ∧ (last < 64 → v = { u with row := last })
        ∧ (last = 64 → v.tail = (u.tail + 1) % 8 ∧ v.fill = u.fill - 1 ∧ v.reqs = r ∧ v.row = 0
          ∧ (∀ row col, row < 64 → col < 64 → Tab.get v.tiles (tileKey u.tail row col) 0 = 0)
          ∧ ∃ e, v.cfg = some e ∧ e.out = wrap 64 (c.out + c.tstride) ∧ e.seq = c.seq + 1)
        ∧ t.mem = s.mem ∧ t.th = s.th)
    ∧ (∀ size, 0 < u.fill → u.held = false → u.fail = none → u.row < 64 → s.ev.num = 1 → s.badLoc = [] → outSize c.ofmt = some size → c.count < 2 ^ 32 →
      let num (la n : Nat) : Nat := s.seeNat q.view la n
      let rounded (x : Exact) : Exact := f32.unpack (f32.round nearest false x).1
      let plus (x y : Exact) : Exact := (Exact.add nearest x y).1
      let has (k : Nat) : Prop := c.flags.getLsbD k = true
      let inLevel (base : Nat) (at' : Int) (n : Nat) : Prop := s.levelFault s.th.owner base at' n = none
      let lo := f32.unpack (num c.act 4)
      let hi := f32.unpack (num (c.act + 4) 4)
      let n := num (c.act + 8) 4
      let goodHeader := lo.finite = true ∧ hi.finite = true ∧ lo.cmp hi = some .lt ∧ 1 ≤ n ∧ n ≤ 256 ∧ num (c.act + 12) 4 = 0
      let knot (k : Nat) : Exact := f32.unpack (num (c.act + 16 + 4 * k) 4)
      let act (v : Exact) : Exact :=
        let x := if v.cmp lo = some .lt then lo else if v.cmp hi = some .gt then hi else v
        let place := rounded (((plus x lo.neg).mul (Exact.ofInt n)).1.div (plus hi lo.neg)).1
        let i := min (place.toInt 1).1.toNat (n - 1)
        if v.isNan then .nan false
        else rounded (plus (knot i) ((plus place (Exact.ofInt (-(i : Int)))).mul (plus (knot (i + 1)) (knot i).neg)).1)
      let scaled (col : Nat) : Exact :=
        let v := f32.unpack (Tab.get u.tiles (tileKey u.tail u.row col) 0).toNat
        let code := num (c.bscale + col) 1
        if has 2 then (if code = 255 then .nan false else rounded (v.scale ((code : Int) - 127))) else v
      let biased (col : Nat) : Exact := if has 1 then rounded (plus (scaled col) (f32.unpack (num (c.bias + 4 * col) 4))) else scaled col
      let y (col : Nat) : Exact := if has 3 then act (biased col) else biased col
      let out (col : Nat) : Prop := has 4 ∧ (y col).abs.cmp (f32.unpack c.othresh.toNat) = some .gt
      let block (b : Nat) : List Nat := (List.range 32).map (· + 32 * b)
      let most (b : Nat) : Exact :=
        if ∃ col ∈ block b, (y col).isNan = true then .nan false
        else (block b).foldl (fun m col => if out col then m else (Exact.pick true m (y col).abs).1) Exact.zero
      let code (b : Nat) : Nat := (scaleX8 (most b)).1
      let element (col : Nat) : Nat :=
        if out col then 0 else if c.smode = 1 then (encodeBlock (y col) (code (col / 32))).1 else convertedTo c.ofmt (y col)
      let outs := (List.range 64).filter (fun col => out col)
      let count (k : Nat) : Nat := min (c.count + k) (2 ^ 32 - 1)
      let base := c.out + u.row * c.rstride
      let elements := s.putUnits size q.view base.toNat (64 * size) ((List.range 64).flatMap (fun col => bytesOf size (element col)))
      let codes := if c.smode = 1 then elements.putUnits 1 q.view (c.oscale + 2 * u.row) 2 (bytesOf 1 (code 0) ++ bytesOf 1 (code 1)) else elements
      let w := outs.zipIdx.foldl (fun w e => if count e.2 < c.olimit then w.putEngine q.view (c.olist + 8 + 8 * count e.2) (bytesOf 8
          ((f32.round nearest false (y e.1)).1 + (u.row * 64 + e.1) * 2 ^ 32 + c.seq % 2 ^ 16 * 2 ^ 48)) else w) codes
      has 0 → inLevel c.out base (64 * size) → (has 2 → inLevel c.bscale c.bscale 64) → (has 1 → inLevel c.bias c.bias 256) →
      (has 4 → inLevel c.olist c.olist 4) → (has 3 → inLevel c.act c.act 16) →
      ((has 3 → goodHeader ∧ inLevel c.act (c.act + 16 : Nat) (4 * (n + 1))) → (c.smode = 1 → c.ofmt = 0x0C ∧ inLevel c.oscale (c.oscale + 2 * u.row : Nat) 2) →
        (c.count < c.olimit → outs ≠ [] →
          inLevel c.olist (c.olist + 8 + 8 * c.count : Nat) (8 * (min (c.count + outs.length) c.olimit - c.count))) →
        ∃ t v, exec .tileDrain s = .next t ∧ t.unitOf core = v ∧ t.mem = s.mem
          ∧ (u.row < 63 → v = { u with row := u.row + 1, cfg := some { c with count := count outs.length } } ∧ t.loc = w.loc ∧ t.locPast = w.locPast ∧ t.th = s.th)
          ∧ (u.row = 63 → v.tail = (u.tail + 1) % 8 ∧ v.fill = u.fill - 1 ∧ v.reqs = r ∧ v.row = 0
            ∧ (∀ row col, row < 64 → col < 64 → Tab.get v.tiles (tileKey u.tail row col) 0 = 0)
            ∧ v.cfg = some { c with
                count := count outs.length, out := wrap 64 (c.out + c.tstride), oscale := (c.oscale + 128) % 2 ^ 32, seq := c.seq + 1 }
            ∧ t.loc = ((if has 4 then w.putLoc q.view c.olist (bytesOf 4 (count outs.length)) else w).arrive s.th.owner c.sync (4096 * size) false).loc))
      ∧ (has 3 → ¬goodHeader → s.th.notices.length < 16 → ∃ t v, exec .tileDrain s = .next t ∧ t.unitOf core = v ∧ t.mem = s.mem
        ∧ v = { u with reqs := [], row := 0, gen := none } ∧ t.loc = (s.arrive s.th.owner c.sync 0 true).loc
        ∧ t.th.notices = s.th.notices ++ [BitVec.ofNat 64 (0x0C + 4096 * 3 + 2 ^ 32 * (c.seq % 2 ^ 16 + 2 ^ 16 * u.row))]))

/-- R243 and R361: a lease whose reserved bits are 0 and whose length is not 0 writes the length granted to x[d]: 0, or the length asked
for, at most 2^20, and only then does the thread hold it; whether the package grants is left open. A malformed one writes -2 and ends no
lease. `unlease` gives it up, and one that has run out ends. R356, R357, R363 and R167: a new period makes the changed budgets those in
force; a change of a budget that keeps the limits of R357 stands for the next period, and any other changes nothing. A slice goes into
retention with no value changed; a hit on a dirty line wakes its data array, and where no line is dirty no access does. What the model chose
in it: the log's entries 2 and 48. -/
def Obligations.LeasesAndBudgets : Prop :=
  (∀ (s : State) (d a : Reg),
      let x := (s.getX a).toNat
      let n := fld x 32 32
      let g := min n (2 ^ 20)
      (fld x 2 30 ≠ 0 ∨ n = 0 → WritesX s (exec (.lease d a) s) d (BitVec.ofInt 64 (-2)))
      ∧ (fld x 2 30 = 0 → n ≠ 0 → ∃ t, exec (.lease d a) s = .next t ∧ Retires s t 4 ∧ KeepsBytes s t ∧ t.th.f = s.th.f
        ∧ ((t.th.lease = none ∧ ∀ r, t.getX r = if r = d ∧ d ≠ 0 then 0 else s.getX r)
          ∨ (∃ l, t.th.lease = some l ∧ l.cls.val = x % 4 ∧ l.left = g ∧ ∀ r, t.getX r = if r = d ∧ d ≠ 0 then BitVec.ofNat 64 g else s.getX r)))
      ∧ (∃ t, exec .unlease s = .next t ∧ t.th.lease = none ∧ t.th.x = s.th.x ∧ t.th.f = s.th.f ∧ Retires s t 4 ∧ KeepsOutside s t ∧ KeepsBytes s t)
      ∧ (∀ l, s.th.bound = true → s.ev.unit = s.th.slot → s.th.lease = some l →
        exec .leaseExpiry s = .next (if l.left = 0 then { s with th := { s.th with lease := none } } else s)))
  ∧ (∀ s : State,
      let b := Tab.put s.nextBudgets (s.ev.unit * 7 + s.ev.idx) s.ev.num
      let sum := ((b.filter (fun e => e.1 % 7 = s.ev.idx)).map (·.2)).sum
      exec .budgetPeriodStart s = .next { s with period := s.period + 1, budgets := s.nextBudgets }
      ∧ (s.ev.unit ≤ 128 → s.ev.idx < 7 → s.ev.num ≤ 7520 → sum ≤ 7520 → exec .budgetChange s = .next { s with nextBudgets := b })
      ∧ (7520 < s.ev.num ∨ 7520 < sum → exec .budgetChange s = .next s)
      ∧ (s.cfg.retention = true → s.ev.unit ∉ s.retained → exec .sliceRetention s = .next { s with retained := s.retained ++ [s.ev.unit] }))
  ∧ (∀ (s : State) (r : Req) (va : Nat),
      let slice := r.die * 160 + homeSlice va
      (∀ p u e, s.translate r va = (.ok p, u) → p.tracked = true → e ∈ u.regs → e.1 / 8 = p.pa / 64 → e.2.core = none → e.2.slice = slice →
        slice ∉ u.retained)
      ∧ (s.regs = [] → ∀ k ∈ s.retained, k ∈ (s.translate r va).2.retained))

/-! ### Computing in the memory stacks -/

/-- R251 to R258 and R270: a table command whose record holds good fields joins the queue, for which it waits while 16 of its thread are
outstanding; a malformed record raises 0x0E and a misaligned one 0x04. A command waits behind its thread's earlier ones at its NMU and in a
paused burst. Where its addresses lie in untracked device memory, its NMU claims itself for the thread and does it: `tqlatch` copies the row
into the latch of its bank, `tqmac` adds to each of 2048 accumulators the entry that its nibble selects, `tqd` writes the entries that 64
indices select, an index past the last taking the last, and `tqread` writes the accumulators asked for, and clears them and gives up the
claim if asked. Each ends with a status in its record and arrives at its sync word: 0; or 2 where its table row is not latched, 3 for rows
of two subarrays, 6 for an address in tracked or host memory, 7 under a claim of another thread, and 8 where the channel has four latches in
other banks. What the model chose in it: the log's entries 16, 20, 63 and 64. -/
def Obligations.TableCommands : Prop :=
  ∀ (s : State) (a : Reg),
    let la := (s.getX a).toNat
    let bs := s.th.latched.getD (s.seeLoc (s.th.view .core) la 32)
    let issues (op : TableOp) (i : Instr) : Prop :=
      let c := tableCmdOf op s.th la bs
      (s.localCheck la 32 32 = none → s.th.acquiring = false → (∀ v ∈ c.vas, v < 2 ^ 56) →
        (s.tableFields op c (natOf ((bs.drop 29).take 2)) = true → s.counter s.th .tc < 16 → ∃ t, exec i s = .next t
          ∧ t.tableQ = s.tableQ ++ [c] ∧ t.th.seq = s.th.seq + 1 ∧ t.th.x = s.th.x ∧ t.th.f = s.th.f ∧ Retires s t 4 ∧ KeepsBytes s t)
        ∧ (s.tableFields op c (natOf ((bs.drop 29).take 2)) = true → 16 ≤ s.counter s.th .tc → exec i s = .next (s.stallWith bs))
        ∧ (s.tableFields op c (natOf ((bs.drop 29).take 2)) = false → exec i s = .next (s.trap 0x0E la)))
      ∧ (la % 32 ≠ 0 → exec i s = .next (s.trap 0x04 la))
    issues .latch (.tqlatch a) ∧ issues .look (.tqd a) ∧ issues .mac (.tqmac a) ∧ issues .read (.tqread a)
    ∧ (∀ c p ps u, s.tableQ[s.ev.idx]? = some c → s.translateVas (c.owner.req .load c.gen) c.vas = (.ok (p :: ps), u) →
      let e : Instr := match c.op with | .latch => .tqlatchExec | .look => .tqdExec | .mac => .tqmacExec | .read => .tqreadExec
      let n := nmuOf p.pa
      let v := u.nmu n
      let waits := isDevice p.pa = true ∧ (u.tableBehind s.ev.idx c n = true ∨ (c.leased = true ∧ v.paused = true))
      let reached := ∀ q ∈ p :: ps, q.tracked = false ∧ isDevice q.pa = true
      let mine := v.claim = none ∨ v.claim = some c.owner.ident
      let held := v.claim = some c.owner.ident
      let kept (k : Nat) : BitVec 32 := if v.claim = none then 0 else v.accAt k
      let done (w t : State) (status : Nat) : Prop :=
        let x := w.putEngine c.view (c.raddr + 31) (bytesOf 1 status)
        t.tableQ = u.tableQ.eraseIdx s.ev.idx ∧ t.mem = u.mem ∧ t.loc = (x.arrive c.owner c.sync c.arrival (status != 0)).loc ∧ t.locPast = x.locPast
      let ends (w : State) (status : Nat) (p : Nmu → Prop) : Prop := ∃ t, exec e s = .next t ∧ done w t status ∧ p (t.nmu n)
      (waits → exec e s = .next s)
      ∧ (¬waits → c.owner.lost = false → u.Bare → u.badLoc = [] →
        (¬reached → ends u 6 (· = v))
        ∧ (reached → ¬mine → ends u 7 (· = v))
        ∧ (c.op = .latch → reached → held → v.latchesFull p.pa = true → ends u 8 (· = v))
        ∧ (c.op = .latch → reached → mine → (v.claim = none ∨ v.latchesFull p.pa = false) → ends u 0 (fun w => w.claim = some c.owner.ident
          ∧ w.latched p.pa = some (Memory.readN u.mem (rowOf p.pa) 1024)))
        ∧ (∀ x, c.op = .mac → ps = [x] → reached → held → sameSubarray x.pa p.pa = false → ends u 3 (· = v))
        ∧ (∀ x, c.op = .mac → ps = [x] → reached → held → sameSubarray x.pa p.pa = true → v.latched p.pa = none → ends u 2 (· = v))
        ∧ (∀ x table, c.op = .mac → ps = [x] → reached → held → sameSubarray x.pa p.pa = true → v.latched p.pa = some table →
          ends u 0 (fun w => ∀ k < 2048, w.accAt k = v.accAt k + BitVec.ofInt 32 (sgn 16 (entryOf table 2
            (256 * (c.arg / 16 % 2) + 16 * ((Memory.read u.mem (rowOf x.pa + k / 2)).toNat / 16 ^ (k % 2) % 16) + c.arg % 16)))))
        ∧ (c.op = .look → ps = [] → reached → held → v.latched p.pa = none → ends u 2 (· = v))
        ∧ (∀ table, c.op = .look → ps = [] → reached → held → v.latched p.pa = some table →
          ends (u.putElems (2 ^ (c.arg % 4)) c.view c.ldst ((List.range 64).flatMap (fun k => bytesOf (2 ^ (c.arg % 4))
            (entryOf table (2 ^ (c.arg % 4)) (min (u.seeNat c.view (c.lsrc + 2 * k) 2) (1024 / 2 ^ (c.arg % 4) - 1)))))) 0 (· = v))
        ∧ (c.op = .read → reached → mine →
          ends (u.putElems 4 c.view c.ldst ((List.range (c.iva / 65536 % 65536)).flatMap (fun j => bytesOf 4 (kept (c.iva % 65536 + j)).toNat))) 0
            (fun w => w.claim = (if c.arg / 2 % 2 = 1 then none else some c.owner.ident) ∧ ∀ k, w.accAt k =
              if c.arg / 2 % 2 = 1 ∨ (c.arg % 2 = 1 ∧ c.iva % 65536 ≤ k ∧ k < c.iva % 65536 + c.iva / 65536 % 65536) then 0 else kept k))))

/-- R261, R262, R267 to R269: `nmsend` of a good record joins the thread's messages, for which it waits while 8 are outstanding, `nmstat`
issues like a load, `nmresume` of a record that names a stopped handler of the thread sends it, and `nmload`, of a system thread alone,
sends the words of a handler that keep R263: in user mode it raises 0x03. A record with bad fields raises 0x0F. What the model chose in it:
the log's entry 27. -/
def Obligations.NmuInstructions : Prop :=
  ∀ (s : State) (d a : Reg), s.th.acquiring = false →
    let la := (s.getX a).toNat
    let bs (n : Nat) := s.th.latched.getD (s.seeLoc (s.th.view .core) la n)
    let f (o len : Nat) : Nat := natOf (((bs 32).drop o).take len)
    let m := nmMsgOf s.th la (bs 64)
    let code := match s.th.latched with | some r => r.drop 32 | none => s.seeLoc (s.th.view .core) (f 16 4) (4 * f 10 2)
    let words := (List.range (f 10 2)).map (entryOf code 4)
    let quiet (t : State) : Prop := t.th.x = s.th.x ∧ t.th.f = s.th.f ∧ Retires s t 4 ∧ t.loc = s.loc ∧ t.locPast = s.locPast
    (s.localCheck la 64 64 = none → m.region < 2 ^ 56 → s.nmFields (bs 64) = true →
      (s.counter s.th .nc < 8 → ∃ t, exec (.nmsend a) s = .next t ∧ t.nmQ = s.nmQ ++ [m] ∧ t.th.seq = s.th.seq + 1 ∧ quiet t)
      ∧ (8 ≤ s.counter s.th .nc → exec (.nmsend a) s = .next (s.stallWith (bs 64))))
    ∧ (s.localCheck la 64 64 = none → m.region < 2 ^ 56 → s.nmFields (bs 64) = false → exec (.nmsend a) s = .next (s.trap 0x0F la))
    ∧ (la < 2 ^ 56 → s.counter s.th .lc < 16 → Issues s (exec (.nmstat d a) s) .plain (accessOf .nmstat la .plain false d 0 0 s))
    ∧ (∀ p u, s.localCheck la 32 32 = none → f 0 8 < 2 ^ 56 → f 8 1 < 3 → f 9 1 < 16 → f 10 1 < 2 → f 11 5 = 0 → f 20 12 = 0 →
      s.translate (s.th.owner.req .load none) (f 0 8) = (.ok p, u) → isDevice p.pa = true → u.ownStop (nmuOf p.pa) = true →
      u.counter u.th .nc < 8 → ∃ t r, exec (.nmresume a) s = .next t ∧ t.resumes = u.resumes ++ [r] ∧ r.nmu = nmuOf p.pa ∧ r.action = f 8 1
        ∧ r.reg.val = f 9 1 ∧ r.set = (f 10 1 == 1) ∧ r.value.toNat = f 16 4 ∧ quiet t)
    ∧ (s.localCheck la 32 32 = none → f 0 8 < 2 ^ 56 → (3 ≤ f 8 1 ∨ 16 ≤ f 9 1 ∨ 2 ≤ f 10 1 ∨ f 11 5 ≠ 0 ∨ f 20 12 ≠ 0) →
      exec (.nmresume a) s = .next (s.trap 0x0F la))
    ∧ (s.th.sys = false → exec (.nmload a) s = .next (s.trapWord 0x03 (.nmload a)))
    ∧ (s.th.sys = true → s.localCheck la 32 32 = none → f 0 8 < 2 ^ 56 → (s.loadFields (bs 32) = false ∨ microcodeOk words = false) →
      exec (.nmload a) s = .next (s.trap 0x0F la))
    ∧ (∀ p u, s.th.sys = true → s.localCheck la 32 32 = none → f 0 8 < 2 ^ 56 → s.loadFields (bs 32) = true → microcodeOk words = true →
      s.translate (s.th.owner.req .load none) (f 0 8) = (.ok p, u) → isDevice p.pa = true → u.counter u.th .nc < 8 →
      ∃ t l, exec (.nmload a) s = .next t ∧ t.loads = u.loads ++ [l] ∧ l.handler = f 8 1 ∧ l.words = words.map (BitVec.ofNat 32)
        ∧ (f 9 1 = 0 → l.nmus = [nmuOf p.pa]) ∧ (f 9 1 = 1 → ∀ k, k ∈ l.nmus ↔ k / 32 = nmuOf p.pa / 32) ∧ quiet t)

/-- R260, R262, R266, R267, R269, R270 and R362: a message whose frames lie in untracked device memory of one stack joins its unit's queue
once it has room; one in tracked or host memory ends with status 6, frames of two stacks give 9, and a handler that is not loaded 10: at a
unit the messages and loads of one thread take effect in the order in which it sent them. A unit that runs nothing starts the loaded handler
of its first message, and while a burst is paused there of the first that the burst's lease does not cover; a stopped handler ends with 12
when its time is over, and a resume record of its sender lets it try again, skip (a built-in handler ends with 0), or end with 11; the
record of another thread is dropped. A load installs its words where no handler runs, and arrives after the last unit. A burst pauses and
goes on. What the model chose in it: the log's entries 22, 25, 26, 63 and 64. -/
def Obligations.MessagesAndStops : Prop :=
  ∀ s : State,
    let n := s.ev.unit
    let v := s.nmu n
    (∀ m ps u, s.nmQ[s.ev.idx]? = some m →
      s.translateVas (m.owner.req (if m.write then .atomic else .load) m.gen) ((List.range m.n).map (fun k => m.region + 65536 * k)) = (.ok ps, u) →
      let out := u.nmQ.eraseIdx s.ev.idx
      let frames := ps.map (·.pa)
      let k := stackOf (frames.headD 0) * 32 + m.channel
      let reached := ∀ p ∈ ps, p.tracked = false ∧ isDevice p.pa = true
      let together := ∀ f ∈ frames, stackOf f = stackOf (frames.headD 0)
      let missing := 8 ≤ m.handler ∧ Tab.find (u.nmu k).loaded m.handler = none
      let ends (status : Nat) : Prop :=
        ((u.nmu k).holdsOf m.owner.ident = true → exec .nmuMessageArrival s = .next s)
        ∧ ((u.nmu k).holdsOf m.owner.ident = false → exec .nmuMessageArrival s = .next ({ u with nmQ := out }.endMessage m m.m status))
      (u.messageBehind s.ev.idx m k = true → exec .nmuMessageArrival s = .next s)
      ∧ (u.messageBehind s.ev.idx m k = false →
        (¬reached → ends 6) ∧ (reached → ¬together → ends 9) ∧ (reached → together → missing → ends 10)
        ∧ (reached → together → ¬missing →
          (64 ≤ (u.nmu k).queue.length → exec .nmuMessageArrival s = .next s)
          ∧ ((u.nmu k).queue.length < 64 → exec .nmuMessageArrival s = .next ({ u with nmQ := out }.putNmu k
              { u.nmu k with queue := (u.nmu k).queue ++ [{ m with gen := none, frames := frames, leaves := ps.map Phys.key }] })))))
    ∧ (∀ m r, v.run = none → v.queue = m :: r → 8 ≤ m.handler → (m.leased = false ∨ v.paused = false) → ∃ t h, exec .loadedHandlerStart s = .next t
      ∧ t.nmu n = { v with queue := r, run := some h } ∧ h.msg = m ∧ h.pc = 0 ∧ h.stop = none
      ∧ (∀ k : Fin 16, h.m[k] = m.m.getD k.val 0) ∧ (∀ k, Tab.get h.buf k 0 = 0) ∧ t = { s with nmus := t.nmus })
    ∧ (∀ m k, v.run = none → v.paused = true → v.queue[k]? = some m → 8 ≤ m.handler → m.leased = false →
      (∀ e ∈ v.queue.take k, e.leased = true ∧ e.owner.ident ≠ m.owner.ident) → ∃ t h, exec .loadedHandlerStart s = .next t
      ∧ t.nmu n = { v with queue := v.queue.eraseIdx k, run := some h } ∧ h.msg = m ∧ h.pc = 0 ∧ h.stop = none ∧ t = { s with nmus := t.nmus })
    ∧ (v.run = none → v.paused = true → (∀ e ∈ v.queue, e.leased = true) → exec .loadedHandlerStart s = .next s)
    ∧ (∀ h k, v.run = some h → h.stop = some k →
      (s.awaySender h.msg.owner = true → exec .handlerTimeout s = .next s)
      ∧ (s.awaySender h.msg.owner = false → ∃ t, exec .handlerTimeout s = .next t ∧ MessageEnds s t n h.msg h.m.toList 12 ∧ t.mem = s.mem))
    ∧ (∀ h, v.run = some h → h.stop = none → exec .handlerTimeout s = .next s)
    ∧ (∀ h k r, v.run = some h → h.stop = some k → s.resumes.find? (fun r => r.nmu == n) = some r →
      let m := if r.set then h.m.set r.reg r.value else h.m
      (r.owner.ident ≠ h.msg.owner.ident → exec .nmresumeApply s = .next { s with resumes := s.resumes.erase r })
      ∧ (r.owner.ident = h.msg.owner.ident → ∃ t, exec .nmresumeApply s = .next t ∧ t.resumes = s.resumes.erase r ∧ t.mem = s.mem
        ∧ (r.action = 0 → t.nmu n = { v with run := some { h with m := m, stop := none } })
        ∧ (r.action = 1 → 8 ≤ h.msg.handler → t.nmu n = { v with run := some { h with m := m, stop := none, pc := h.pc + 1 } })
        ∧ (r.action = 1 → h.msg.handler < 8 → MessageEnds s t n h.msg m.toList 0)
        ∧ (r.action = 2 → MessageEnds s t n h.msg m.toList 11)))
    ∧ (∀ l, s.loads.find? (fun l => l.nmus.contains n) = some l →
      ((v.run ≠ none ∨ s.loadBehind l n = true) → exec .handlerLoad s = .next s)
      ∧ (v.run = none → s.loadBehind l n = false → ∃ t, exec .handlerLoad s = .next t
        ∧ t.nmu n = { v with loaded := Tab.put v.loaded l.handler l.words } ∧ t.mem = s.mem ∧ t.th = s.th
        ∧ (l.nmus.erase n ≠ [] → t.loads = s.loads.replace l { l with nmus := l.nmus.erase n } ∧ t.loc = s.loc)
        ∧ (l.nmus.erase n = [] → t.loads = s.loads.erase l ∧ t.loc = (s.arrive l.owner l.sync (4 * l.words.length) false).loc)))
    ∧ (s.ev.flag = false → s.burstAt n (fun _ => true) = true → exec .burstPause s = .next (s.putNmu n { v with paused := true }))
    ∧ (s.ev.flag = false → v.paused = true → exec .burstResume s = .next (s.putNmu n { v with paused := false }))
    ∧ (s.ev.flag = true → s.ixBurstAt n (fun _ => true) = true → n ∉ s.ixPaused →
      exec .burstPause s = .next { s with ixPaused := s.ixPaused ++ [n] })
    ∧ (s.ev.flag = true → exec .burstResume s = .next { s with ixPaused := s.ixPaused.filter (· ≠ n) })

/-- R251, R264, R265 and R318: the built-in handlers, each on a message at the head of an idle unit's queue, whose handles name rows of its
region, where the leaf of a page to be written has D set or is as it was translated; row zero also where it has changed: the page is walked
again. They are row copy, row zero, the sum of the rows that a list names, of wrapping integers or of f32 numbers rounded at each step, the
gather of a latched table, the table MAC, the read of accumulators, which may clear them, their clear, and the status; each ends with status
0. A row that is written has D set in its leaf. A row with a tag ends row zero with 4, and rows of unlike tags row copy with 5; an argument
out of its range ends its handler with 1, a table row that is not latched with 2, rows of two subarrays with 3, and the claim of another
thread with 7, with no row written and no accumulator changed. What the model chose in it: the log's entries 21, 23, 24 and 66. -/
def Obligations.BuiltInHandlers : Prop :=
  ∀ (s : State) (m : NmMsg) (r : List NmMsg), s.Bare →
    let n := s.ev.unit
    let v := s.nmu n
    v.run = none → v.queue = m :: r → (m.leased = false ∨ v.paused = false) → m.owner.lost = false → (∀ f ∈ m.frames, f % 1024 = 0) → m.frames.length = m.n →
    let x (k : Nat) : Nat := (m.m.getD k 0).toNat
    let row (h : Nat) : Nat := m.frames.getD (h / 2) 0 + (h % 2 * 32 + m.channel) * 1024
    let bytes (h : Nat) : List Byte := Memory.readN s.mem (row h) 1024
    let ok (h : Nat) : Prop := h < 2 * m.n
    let ms := (List.range 16).map (fun k => m.m.getD k 0)
    let mine := v.claim = some m.owner.ident
    let endsIn (w : State) (e : Instr) (status : Nat) (p : State → Prop) : Prop :=
      ∃ t, exec e s = .next t ∧ MessageEnds w t n m ms status ∧ (t.nmu n).queue = r ∧ p t
    let ends := endsIn s
    let leaf (h : Nat) : State := s.setD (m.leaves.getD (h / 2) 0)
    let settled (h : Nat) : Prop := (Tab.find s.tlb (m.leaves.getD (h / 2) 0)).any (fun t => pteD t.leaf || s.stillLeaf t) = true
    let writesIn (e : Instr) (h : Nat) (bs : List Byte) (p : State → Prop) : Prop :=
      endsIn { leaf h with now := (leaf h).now + 128 } e 0 (fun t => RowBecomes (leaf h) t (row h) bs ∧ p t)
    let writes (e : Instr) (h : Nat) (bs : List Byte) : Prop := writesIn e h bs (fun _ => True)
    let refuses (e : Instr) (status : Nat) : Prop := ends e status (fun t => t.mem = s.mem ∧ (mine → ∀ k, (t.nmu n).accAt k = v.accAt k))
    let others := v.claim ≠ none ∧ ¬mine
    (m.handler = 0 → m.write = true → ok (x 0) → ok (x 1) → settled (x 1) → s.rowTag (row (x 0)) = s.rowTag (row (x 1)) →
      writes .rowCopy (x 1) (bytes (x 0)))
    ∧ (m.handler = 0 → m.write = true → ok (x 0) → ok (x 1) → settled (x 1) → s.rowTag (row (x 0)) ≠ s.rowTag (row (x 1)) → ends .rowCopy 5 (fun t => t.mem = s.mem))
    ∧ (m.handler = 1 → m.write = true → ok (x 0) → settled (x 0) → s.rowTag (row (x 0)) = 0 →
      writes .rowZero (x 0) (List.replicate 1024 0))
    ∧ (m.handler = 1 → m.write = true → ok (x 0) → settled (x 0) → s.rowTag (row (x 0)) ≠ 0 → ends .rowZero 4 (fun t => t.mem = s.mem))
    ∧ (∀ p u, m.handler = 1 → m.write = true → ok (x 0) → ¬settled (x 0) →
      State.translate { s with tlb := Tab.drop s.tlb (m.leaves.getD (x 0 / 2) 0) } (m.owner.req .atomic none) (m.region + 65536 * (x 0 / 2)) = (.ok p, u) →
      p.tracked = false → isDevice p.pa = true → stackOf p.pa = stackOf (m.frames.getD (x 0 / 2) 0) → p.pa % 65536 = 0 → u.Bare →
      let at' := p.pa + (x 0 % 2 * 32 + m.channel) * 1024
      u.rowTag at' = 0 → endsIn { u.setD p.key with now := (u.setD p.key).now + 128 } .rowZero 0
        (fun t => RowBecomes (u.setD p.key) t at' (List.replicate 1024 0)))
    ∧ (m.handler = 2 → m.write = true → ok (x 0) → ok (x 2) → settled (x 2) → 1 ≤ x 1 → x 1 ≤ 512 → x 3 = 1 → (∀ i < x 1, ok (entryOf (bytes (x 0)) 2 i)) →
      writes .indexedReduce (x 2) ((List.range 256).flatMap (fun k =>
        bytesOf 4 (((List.range (x 1)).map (fun i => entryOf (bytes (entryOf (bytes (x 0)) 2 i)) 4 k)).sum))))
    ∧ (m.handler = 2 → m.write = true → ok (x 0) → ok (x 2) → settled (x 2) → 1 ≤ x 1 → x 1 ≤ 512 → x 3 = 0 → (∀ i < x 1, ok (entryOf (bytes (x 0)) 2 i)) →
      let word (i k : Nat) : Nat := entryOf (bytes (entryOf (bytes (x 0)) 2 i)) 4 k
      writes .indexedReduce (x 2) ((List.range 256).flatMap (fun k => bytesOf 4 ((List.range (x 1 - 1)).foldl (fun sum i =>
        (f32.round nearest false (Exact.add nearest (f32.unpack sum) (f32.unpack (word (i + 1) k))).1).1) (word 0 k)))))
    ∧ (m.handler = 2 → (x 1 < 1 ∨ 512 < x 1 ∨ 1 < x 3) → refuses .indexedReduce 1)
    ∧ (m.handler = 3 → 2 < x 3 → refuses .tableGather 1)
    ∧ (m.handler = 3 → x 3 < 3 → others → refuses .tableGather 7)
    ∧ (m.handler = 3 → x 3 < 3 → mine → ok (x 0) → v.latched (row (x 0)) = none → refuses .tableGather 2)
    ∧ (m.handler = 4 → 32 ≤ x 2 → refuses .tableMac 1)
    ∧ (m.handler = 4 → x 2 < 32 → others → refuses .tableMac 7)
    ∧ (m.handler = 4 → mine → ok (x 0) → ok (x 1) → x 2 < 32 → sameSubarray (row (x 1)) (row (x 0)) = false → refuses .tableMac 3)
    ∧ (m.handler = 4 → mine → ok (x 0) → ok (x 1) → x 2 < 32 → sameSubarray (row (x 1)) (row (x 0)) = true → v.latched (row (x 0)) = none →
      refuses .tableMac 2)
    ∧ (m.handler = 5 → (x 1 < 1 ∨ 256 < x 1 ∨ 2048 < x 0 + x 1 ∨ 1 < x 3) → refuses .accumulatorRead 1)
    ∧ (m.handler = 5 → 1 ≤ x 1 → x 1 ≤ 256 → x 0 + x 1 ≤ 2048 → x 3 < 2 → others → refuses .accumulatorRead 7)
    ∧ (m.handler = 6 → (x 1 < 1 ∨ 2048 < x 1 ∨ 2048 < x 0 + x 1) → refuses .accumulatorClear 1)
    ∧ (m.handler = 6 → 1 ≤ x 1 → x 1 ≤ 2048 → x 0 + x 1 ≤ 2048 → others → refuses .accumulatorClear 7)
    ∧ (∀ table, m.handler = 3 → m.write = true → mine → ok (x 0) → ok (x 1) → ok (x 2) → settled (x 2) → x 3 < 3 → v.latched (row (x 0)) = some table →
      writes .tableGather (x 2) ((List.range (min 512 (1024 / 2 ^ x 3))).flatMap (fun k =>
        bytesOf (2 ^ x 3) (entryOf table (2 ^ x 3) (min (entryOf (bytes (x 1)) 2 k) (1024 / 2 ^ x 3 - 1))))))
    ∧ (∀ table, m.handler = 4 → mine → ok (x 0) → ok (x 1) → x 2 < 32 → sameSubarray (row (x 1)) (row (x 0)) = true → v.latched (row (x 0)) = some table →
      ends .tableMac 0 (fun t => t.mem = s.mem ∧ ∀ k < 2048, (t.nmu n).accAt k = v.accAt k + BitVec.ofInt 32 (sgn 16 (entryOf table 2
        (256 * (x 2 / 16) + 16 * ((Memory.read s.mem (row (x 1) + k / 2)).toNat / 16 ^ (k % 2) % 16) + x 2 % 16)))))
    ∧ (m.handler = 5 → m.write = true → mine → ok (x 2) → settled (x 2) → 1 ≤ x 1 → x 1 ≤ 256 → x 0 + x 1 ≤ 2048 → x 3 < 2 →
      writesIn .accumulatorRead (x 2) ((List.range 256).flatMap (fun j => bytesOf 4 (if j < x 1 then (v.accAt (x 0 + j)).toNat else 0)))
        (fun t => ∀ k, (t.nmu n).accAt k = if x 3 = 1 ∧ x 0 ≤ k ∧ k < x 0 + x 1 then 0 else v.accAt k))
    ∧ (m.handler = 6 → mine → 1 ≤ x 1 → x 0 + x 1 ≤ 2048 →
      ends .accumulatorClear 0 (fun t => t.mem = s.mem ∧ ∀ k, (t.nmu n).accAt k = if x 0 ≤ k ∧ k < x 0 + x 1 then 0 else v.accAt k))
    ∧ (m.handler = 7 → let w := (nmuStatus { v with queue := r, run := some (Handler.start m) } m.owner.ident).toNat
      ∃ t, exec .statusHandler s = .next t ∧ (t.nmu n).run = none ∧ (t.nmu n).queue = r ∧ t.mem = s.mem
      ∧ MessageEnds s t n m (BitVec.ofNat 32 w :: BitVec.ofNat 32 (w / 2 ^ 32) :: ms.drop 2) 0)

/-- R263 and R318: what each microinstruction does in a handler that runs: register and buffer words are 32 bits wide and wrap, shifts take
5 bits, the buffer has 256 words and the accumulators 2048; a forward branch skips its count of microinstructions; a row that is written has
D set in its leaf. What the model chose in it: the log's entry 66. -/
def Obligations.Microinstructions : Prop :=
  ∀ (s : State) (h : Handler) (d a b : MReg) (v : MicroOperand) (k : BitVec 16) (o : Fin 64),
    let n := s.nmuAt
    (s.nmu n).run = some h → h.stop = none → h.msg.owner.lost = false →
    let x := h.m[a]
    let y : BitVec 32 := match v with | .reg b => h.m[b] | .imm i => i.signExtend 32
    let sets (i : Instr) (w : BitVec 32) : Prop := HandlerGoes s (exec i s) n h (h.m.set d w) h.buf (h.pc + 1)
    let mine := (s.nmu n).claim = some h.msg.owner.ident
    sets (.mli d k) (k.signExtend 32) ∧ sets (.madd d a v) (x + y) ∧ sets (.msub d a v) (x - y) ∧ sets (.mand d a v) (x &&& y)
    ∧ sets (.mor d a v) (x ||| y) ∧ sets (.mxor d a v) (x ^^^ y) ∧ sets (.mshl d a v) (x <<< (y.toNat % 32))
    ∧ sets (.mshr d a v) (x >>> (y.toNat % 32)) ∧ sets (.mmul d a v) (x * y) ∧ sets (.mmax d a v) (if x.toInt < y.toInt then y else x)
    ∧ sets (.mld d a v) (Tab.get h.buf ((x + y).toNat % 256) 0)
    ∧ HandlerGoes s (exec (.mst d a v) s) n h h.m (Tab.put h.buf ((x + y).toNat % 256) h.m[d]) (h.pc + 1)
    ∧ HandlerGoes s (exec (.mbfw a o) s) n h h.m h.buf (if x ≠ 0 then h.pc + o.val else h.pc + 1)
    ∧ HandlerGoes s (exec (.mbfwZero a o) s) n h h.m h.buf (if x = 0 then h.pc + o.val else h.pc + 1)
    ∧ (mine → sets (.maccRead d a) ((s.nmu n).accAt (x.toNat % 2048)))
    ∧ (mine → ∃ t, exec (.maccAdd d a) s = .next t ∧ t = { s with nmus := t.nmus }
      ∧ (t.nmu n).run = some { h with pc := h.pc + 1 }
      ∧ ∀ j, (t.nmu n).accAt j = if j = x.toNat % 2048 then (s.nmu n).accAt j + h.m[d] else (s.nmu n).accAt j)
    ∧ (∀ i, (s.nmu n).claim = some i → i ≠ h.msg.owner.ident → ∃ t, exec (.maccAdd d a) s = .next t ∧ MessageEnds s t n h.msg h.m.toList 7)
    ∧ (∃ t, exec (.mfin d) s = .next t ∧ MessageEnds s t n h.msg h.m.toList (h.m[d].toNat % 256) ∧ t.mem = s.mem)
    ∧ (s.Bare → (∀ f ∈ h.msg.frames, f % 1024 = 0) → h.msg.frames.length = h.msg.n →
      let row (w : BitVec 32) : Nat := h.msg.frames.getD (w.toNat / 2) 0 + (w.toNat % 2 * 32 + h.msg.channel) * 1024
      let ok (w : BitVec 32) : Prop := w.toNat < 2 * h.msg.n
      let settled (w : BitVec 32) : Prop :=
        (Tab.find s.tlb (h.msg.leaves.getD (w.toNat / 2) 0)).any (fun t => pteD t.leaf || s.stillLeaf t) = true
      let goes (i : Instr) (w : BitVec 32) (bs : List Byte) : Prop := settled w → ∃ t, exec i s = .next t
        ∧ RowBecomes (s.setD (h.msg.leaves.getD (w.toNat / 2) 0)) t (row w) bs
        ∧ (t.nmu n).run = some { h with pc := h.pc + 1 } ∧ t.loc = s.loc ∧ t.th = s.th
      (ok x → ∃ t g, exec (.mrdrowRead a) s = .next t ∧ (t.nmu n).run = some { h with buf := g, pc := h.pc + 1 } ∧ t.mem = s.mem ∧ t.loc = s.loc
        ∧ ∀ j < 256, (Tab.get g j 0).toNat = natOf (Memory.readN s.mem (row x + 4 * j) 4))
      ∧ (ok x → h.msg.write = true → goes (.mrdrowWrite a) x ((List.range 256).flatMap (fun j => bytesOf 4 (Tab.get h.buf j 0).toNat)))
      ∧ (ok x → h.msg.write = true → s.rowTag (row x) = 0 → goes (.mrdrowZero a) x (List.replicate 1024 0))
      ∧ (ok x → ok h.m[b] → h.msg.write = true → s.rowTag (row x) = s.rowTag (row h.m[b]) →
        goes (.mrdrowCopy a b) h.m[b] (Memory.readN s.mem (row x) 1024)))

/-! ### The proximity index -/

/-- R281 to R283, R286, R288 and R289: a command whose record, read once, holds good fields joins the queue of the index engines,
`ixstore.rel` behind a release; a record with bad fields raises 0x10 and a misaligned one 0x04. While 16 commands of the thread are
outstanding it waits, with what it has read. `ixsnap` and `ixstat` join the queue too and wait in the same way. `ixcreate`, of a system
thread alone, sends its record and waits, and then writes the answer to x[d]: in user mode it raises 0x03. What the model chose in it: the
log's entry 66. -/
def Obligations.IndexInstructions : Prop :=
  ∀ (s : State) (d a : Reg),
    let la := (s.getX a).toNat
    let bs := s.th.latched.getD (s.seeLoc (s.th.view .core) la 64)
    let joins (i : Instr) (o : Order) (op : IxOp) (r : Nat) (rec : List Byte) (handle : Nat) (reg : Reg) : Prop := ∃ t, exec i s = .next t
      ∧ t.ixQ = s.ixQ ++ [⟨op, s.th.owner, s.th.view .index, r, rec, handle, reg, s.th.leased 2,
          (if o = .plain then none else some (s.released o).now), none, 0, 0, s.th.seq⟩]
      ∧ t.th.seq = s.th.seq + 1 ∧ KeepsBesidePc { s.th with seq := s.th.seq + 1 } t.th ∧ Retires s t 4
      ∧ KeepsOutside (s.released o) { t with ixQ := s.ixQ } ∧ KeepsBytes s t
    let ready := s.localCheck la 64 64 = none ∧ s.th.acquiring = false
    let free := s.counter s.th .ic < 16
    let full := 16 ≤ s.counter s.th .ic
    let handle := natOf (bs.take 4)
    (ready → free → s.indexFields .near bs = true → joins (.ixnear a) .plain .near la bs handle 0)
    ∧ (ready → free → s.indexFields .store bs = true → joins (.ixstore a) .plain .store la bs handle 0)
    ∧ (ready → free → s.indexFields .store bs = true → s.Clear → joins (.ixstoreRel a) .dev .store la bs handle 0)
    ∧ (ready → free → s.indexFields .del bs = true → joins (.ixdel a) .plain .del la bs handle 0)
    ∧ (ready → full → s.indexFields .near bs = true → exec (.ixnear a) s = .next (s.stallWith bs))
    ∧ (ready → full → s.indexFields .store bs = true → exec (.ixstore a) s = .next (s.stallWith bs)
      ∧ (s.Clear → exec (.ixstoreRel a) s = .next ((s.released .dev).stallWith bs)))
    ∧ (ready → full → s.indexFields .del bs = true → exec (.ixdel a) s = .next (s.stallWith bs))
    ∧ (ready → s.releaseWait = .stall → s.indexFields .store bs = true → exec (.ixstoreRel a) s = .next ((s.stallWith bs).inRelease .dev))
    ∧ (ready → s.indexFields .near bs = false → exec (.ixnear a) s = .next (s.trap 0x10 la))
    ∧ (ready → s.indexFields .store bs = false →
      exec (.ixstore a) s = .next (s.trap 0x10 la) ∧ exec (.ixstoreRel a) s = .next (s.trap 0x10 la))
    ∧ (ready → s.indexFields .del bs = false → exec (.ixdel a) s = .next (s.trap 0x10 la))
    ∧ (la % 64 ≠ 0 → ∀ i ∈ [Instr.ixnear a, .ixstore a, .ixstoreRel a, .ixdel a], exec i s = .next (s.trap 0x04 la))
    ∧ (free → joins (.ixsnap d a) .plain .snap 0 [] la d ∧ joins (.ixstat d a) .plain .stat 0 [] la d)
    ∧ (full → exec (.ixsnap d a) s = .next s.stall ∧ exec (.ixstat d a) s = .next s.stall)
    ∧ (s.th.sys = false → exec (.ixcreate d a) s = .next (s.trapWord 0x03 (.ixcreate d a)))
    ∧ (s.th.sys = true → s.th.ixAns = none → s.th.ixReq = none → ready →
      let bs := s.seeLoc (s.th.view .core) la 64
      (createFields bs = true → exec (.ixcreate d a) s = .next { s with th := { s.th with ixReq := some (bytesOf 4 la ++ bs), ixRegs := some (d, a) } })
      ∧ (createFields bs = false → exec (.ixcreate d a) s = .next (s.trap 0x10 la)))
    ∧ (∀ bs, s.th.sys = true → s.th.ixAns = none → s.th.ixReq = some bs → exec (.ixcreate d a) s = .next s.stall)
    ∧ (∀ w, s.th.sys = true → s.th.ixAns = some w → ∃ t, exec (.ixcreate d a) s = .next t ∧ t.th.ixAns = none ∧ t.th.ixReq = none ∧ t.th.ixRegs = none
      ∧ (∀ r, t.getX r = if r = d ∧ d ≠ 0 then w else s.getX r) ∧ t.th.f = s.th.f ∧ Retires s t 4 ∧ KeepsBytes s t)

/-- R196, R275 to R280, R282 to R285 and R290: a query on a live index of its function, whose vector has the index's shape and no bad
component, takes the index's version or the snapshot that it names, where its engine has room; one of a snapshot to come ends at once. An
engine serves the 256 queries that it accepted first. At its end a query writes at most k results in the order of R279, each a visible entry
with its distance and none twice; a visible entry whose key equals the query is among them, unless k results precede it; and where the
budget covers every visible entry, they are the first k of all of them; then what it found, how many distances it computed, its snapshot and
status 0, and it arrives; its thread has then acquired what came before a returned entry's `ixstore.rel`. What the model chose in it: the
log's entries 28, 30 and 63. -/
def Obligations.IndexQueries : Prop :=
  ∀ (s : State) (c : IxCmd) (x : Index), s.ixQ[s.ev.idx]? = some c → c.op = .near → s.bad = [] →
    Tab.find s.indexes (c.handle % 4096) = some ⟨c.handle / 4096, some x⟩ →
    let f (k len : Nat) : Nat := natOf ((c.bytes.drop k).take len)
    let query := s.seeLoc c.view (f 12 4) (f 10 2 * keySize x.ktype)
    f 10 2 = x.dims → f 8 1 = x.ktype → badComponent x.ktype query = false →
    let rest := s.ixQ.eraseIdx s.ev.idx
    let served := s.ixQ.filter (fun q => q.op == .near && q.accepted.isSome && (s.indexAt q.handle).map (·.home) == some x.home)
    let earlier := served.filter (fun q => q.order < c.order)
    (c.accepted = none → s.ev.idx = 0 → x.fn = c.owner.ident.vf →
      let v := if f 5 1 % 2 = 1 then f 40 8 else x.version
      (v ≤ x.version → served.length < 256 + 4096 →
        exec .indexQueryAccept s = .next { s with
          now := s.now + 1
          ixQ := s.ixQ.set s.ev.idx { c with accepted := some x.version, order := s.now, snapshot := v } })
      ∧ (v ≤ x.version → 256 + 4096 ≤ served.length → exec .indexQueryAccept s = .next s)
      ∧ (x.version < v → ∃ t, exec .indexQueryAccept s = .next t ∧ t.ixQ = rest ∧ t.indexes = s.indexes ∧ t.mem = s.mem))
    ∧ (∀ va, c.accepted = some va → (256 ≤ earlier.length ∨ (c.leased = true ∧ x.home ∈ s.ixPaused)) → exec .indexSearchEnd s = .next s)
    ∧ (∀ va, c.accepted = some va → earlier.length < 256 → (c.leased = false ∨ x.home ∉ s.ixPaused) →
      ∃ (t : State) (n : Nat) (rs : List (Exact × IxEntry)), exec .indexSearchEnd s = .next t
      ∧ t.ixQ = rest ∧ t.indexes = s.indexes ∧ t.mem = s.mem
      ∧ t.th = { s.th with ixSeen := t.th.ixSeen } ∧ (s.issuer c.owner = some s.th → ∀ r ∈ rs, ∀ k, r.2.rel = some k → k ≤ t.th.ixSeen)
      ∧ (let done := (((((s.putFields c.view (f 16 4) (rs.flatMap (fun r => [bytesOf 4 r.2.id, bytesOf 4 (f32.round nearest false r.1).1,
          bytesOf 8 r.2.payload.toNat]) ++ (List.replicate (f 4 1 - rs.length) [bytesOf 4 0xFFFFFFFF, bytesOf 4 0x7FC00000, bytesOf 8 0]).flatten)).putEngine c.view (c.raddr + 24) (bytesOf 4 rs.length)).putEngine c.view
          (c.raddr + 28) (bytesOf 4 n)).putEngine c.view (c.raddr + 32) (bytesOf 8 c.snapshot)).putEngine c.view (c.raddr + 9)
          (bytesOf 1 0)).arrive c.owner (f 20 4) (16 * f 4 1) false
        t.loc = done.loc ∧ t.locPast = done.locPast)
      ∧ n ≤ f 6 2
      ∧ rs.length ≤ f 4 1
      ∧ (∀ r ∈ rs, r.2 ∈ x.entries ∧ r.2.visible c.snapshot = true
          ∧ r.1 = distance x.metric (components x.ktype query) (components x.ktype r.2.key))
      ∧ rs.Pairwise InOrder
      ∧ ((x.entries.map (·.id)).Nodup → (rs.map (·.2.id)).Nodup)
      ∧ (∀ e ∈ x.entries, e.visible c.snapshot = true → e.key = query → (∃ r ∈ rs, r.2 = e)
          ∨ (rs.length = f 4 1 ∧ ∀ r ∈ rs, InOrder r (distance x.metric (components x.ktype query) (components x.ktype e.key), e)))
      ∧ ((x.entries.filter (fun e => e.visible c.snapshot)).length ≤ f 6 2 →
          rs = (sortResults ((x.entries.filter (fun e => e.visible c.snapshot)).map (fun e =>
            (distance x.metric (components x.ktype query) (components x.ktype e.key), e)))).take (f 4 1)))

/-- R279: the results of a search are ordered by distance, smallest first, and equal distances by lower id: distances compare as values, a
NaN sorts after all others, and NaN distances are equal among themselves. The distances are those of R278, rounded to f32 or a NaN. Sorting
loses none and adds none. -/
def Obligations.ResultsAreSorted : Prop :=
  ∀ rs : List (Exact × IxEntry), (∀ r ∈ rs, ∃ b < 2 ^ 32, r.1 = f32.unpack b) →
    (sortResults rs).Perm rs
    ∧ (sortResults rs).Pairwise InOrder

/-- R274, R275, R284, R286 to R289: a store of n good keys with room for them commits n entries as one version, with the ids that follow;
without room it changes nothing and ends with status 5. A delete marks the listed visible entries with the new version, and where there is
none it makes no version. `ixsnap` and `ixstat` write the version and the status word, -2 for a handle of more than 32 bits, -1 for one that
names no index and -3 for another function's index. A creation record that a region holds makes an index in a free slot and writes its
handle into the record; an index that is destroyed is gone. What the model chose in it: the log's entries 29, 30 and 63. -/
def Obligations.IndexCommits : Prop :=
  ∀ (s : State) (c : IxCmd) (x : Index), s.bad = [] →
    let f (k len : Nat) : Nat := natOf ((c.bytes.drop k).take len)
    let holds := Tab.find s.indexes (c.handle % 4096) = some ⟨c.handle / 4096, some x⟩
    let first (op : IxOp) : Prop := s.ixQ[s.ev.idx]? = some c ∧ s.ev.idx = 0 ∧ c.op = op ∧ c.accepted = none
    let key (j : Nat) : List Byte := s.seeLoc c.view (f 12 4 + j * (32 * ((x.dims * keySize x.ktype + 31) / 32))) (x.dims * keySize x.ktype)
    let rest := s.ixQ.eraseIdx 0
    let outs (t : State) (n v status : Nat) : Prop := t.ixQ = rest ∧ t.mem = s.mem ∧ t.th = s.th
      ∧ (let done := (((s.putEngine c.view (c.raddr + 24) (bytesOf 4 n)).putEngine c.view (c.raddr + 32) (bytesOf 8 v)).putEngine c.view (c.raddr + 9)
          (bytesOf 1 status)).arrive c.owner (f 20 4) 64 (status != 0)
        t.loc = done.loc ∧ t.locPast = done.locPast)
    (first .store → holds → x.fn = c.owner.ident.vf → f 10 2 = x.dims → f 8 1 = x.ktype → (∀ j < f 4 2, badComponent x.ktype (key j) = false) →
      (x.next + f 4 2 ≤ x.capacity → ∃ t es, exec .indexStoreCommit s = .next t ∧ outs t x.next (x.version + 1) 0
        ∧ t.indexAt c.handle = some { x with version := x.version + 1, next := x.next + f 4 2, entries := x.entries ++ es }
        ∧ es.length = f 4 2 ∧ ∀ (j : Nat) (e : IxEntry), es[j]? = some e → e.id = x.next + j ∧ e.key = key j ∧ e.commit = x.version + 1
          ∧ e.delete = none ∧ e.rel = c.rel ∧ e.payload.toNat = natOf (s.seeLoc c.view (f 16 4 + 8 * j) 8))
      ∧ (x.capacity < x.next + f 4 2 → ∃ t, exec .indexStoreCommit s = .next t ∧ outs t 0xFFFFFFFF x.version 5 ∧ t.indexes = s.indexes))
    ∧ (first .del → holds → x.fn = c.owner.ident.vf →
      let gone (e : IxEntry) : Bool := e.visible x.version && ((List.range (f 4 2)).map (fun j => natOf (s.seeLoc c.view (f 12 4 + 4 * j) 4))).contains e.id
      let n := (x.entries.filter gone).length
      let v := if n = 0 then x.version else x.version + 1
      let es := x.entries.map (fun e => if gone e then { e with delete := some v } else e)
      ∃ t, exec .indexDeleteCommit s = .next t ∧ outs t n v 0 ∧ t.indexAt c.handle = some { x with version := v, entries := es })
    ∧ (s.th.bound = true → c.owner.slot = s.th.slot → c.owner.lost = false →
      let answers (i : Instr) (w : Word) : Prop := ∃ t, exec i s = .next t ∧ t.ixQ = rest ∧ KeepsBytes s t
        ∧ ∀ r, t.getX r = if r = c.reg ∧ c.reg ≠ 0 then w else s.getX r
      let both (ws : Word) (wt : Word) : Prop :=
        (first .snap → answers .indexSnapshotAccept ws) ∧ (first .stat → answers .indexStatAccept wt)
      let short := c.handle < 2 ^ 32
      (2 ^ 32 ≤ c.handle → both (BitVec.ofInt 64 (-2)) (BitVec.ofInt 64 (-2)))
      ∧ (short → holds → x.fn = c.owner.ident.vf → both (BitVec.ofNat 64 x.version) (BitVec.ofNat 64 (x.next % 2 ^ 31
          + (if x.next = x.capacity then 2 ^ 31 else 0) + 2 ^ 44 * (x.dims - 1) + 2 ^ 55 * x.ktype + 2 ^ 56 * x.metric + 2 ^ 58 * x.home)))
      ∧ (short → s.indexAt c.handle = none → both (BitVec.ofInt 64 (-1)) (BitVec.ofInt 64 (-1)))
      ∧ (short → holds → x.fn ≠ c.owner.ident.vf → both (BitVec.ofInt 64 (-3)) (BitVec.ofInt 64 (-3))))
    ∧ (∀ bs, s.th.bound = true → s.ev.unit = s.th.slot → s.th.ixAns = none → s.th.ixReq = some bs →
      let g (k len : Nat) : Nat := natOf (((bs.drop 4).drop k).take len)
      let record := natOf (bs.take 4)
      (∀ frames u, g 0 1 = 0 → g 6 1 ≤ 128 → s.regionFrames s.th.owner (g 3 1) (g 8 8) (g 16 8)
          (65536 + g 24 4 * (32 * ((g 4 2 * keySize (g 2 1) + 31) / 32) + 128)) = (some frames, u) → u.indexes = [] →
        ∃ t slot, exec .indexCreate s = .next t ∧ slot < 4096 ∧ t.th.ixAns = some (BitVec.ofNat 64 (slot + 4096))
          ∧ t.indexAt (slot + 4096) = some ⟨g 4 2, g 2 1, g 1 1, g 24 4, g 3 1, g 6 1, g 8 8, g 16 8, frames, 0, 0, []⟩
          ∧ t.loc = (u.putEngine (s.th.view .index) (record + 28) (bytesOf 4 (slot + 4096))).loc ∧ t.mem = u.mem)
      ∧ (g 0 1 = 0 → 128 < g 6 1 → ∃ t, exec .indexCreate s = .next t ∧ t.th.ixAns = some (BitVec.ofInt 64 (-4)) ∧ t.indexes = s.indexes)
      ∧ (∀ y, g 0 1 = 1 → s.indexAt (g 28 4) = some y → ∃ t, exec .indexDestroy s = .next t ∧ t.th.ixAns = some 0 ∧ t.indexAt (g 28 4) = none)
      ∧ (g 0 1 = 1 → s.indexAt (g 28 4) = none → ∃ t, exec .indexDestroy s = .next t ∧ t.th.ixAns = some (BitVec.ofInt 64 (-4)) ∧ t.indexes = s.indexes))

/-! ### Tournaments -/

/-- R329, R330, R335 and R336: `tscore` sets the score that a rival's threads share, or replaces it by the greater, the lesser or the sum,
of 64-bit integers or of binary64 numbers with a canonical NaN for a NaN operand; a thread of no rival keeps an integer score of its own.
`trinfo` reads the info word, the score or what the allowance leaves, all ones for another item, and 0 outside a tournament. A rival that
has spent its allowance has its running threads stop, with flags.allow set. What the model chose in it: the log's entry 36. -/
def Obligations.TournamentInstructions : Prop :=
  ∀ (s : State) (d a : Reg),
    let v := s.getX a
    (∀ l r k, s.ownRival = some (l, r) → s.th.ident.rival = some k →
      let scores (i : Instr) (w : Word) : Prop := ∃ t l' r', exec i s = .next t ∧ t.ownRival = some (l', r') ∧ r'.score = w ∧ t.th.score = w
        ∧ t.th.x = s.th.x ∧ t.th.f = s.th.f ∧ Retires s t 4 ∧ KeepsBytes s t
      let x := f64.unpack r.score.toNat
      let y := f64.unpack v.toNat
      let real (e : Exact) : Word := BitVec.ofNat 64 (if x.isNan = true ∨ y.isNan = true then f64.canon else (f64.round nearest false e).1)
      let word := l.round % 256 + 256 * k + 65536 * l.pkt.rivals + 2 ^ 24 * (l.rivals.filter (·.alive)).length + 2 ^ 32 * (r.limit % 2 ^ 24)
      scores (.tscoreSet a) v
      ∧ (l.pkt.scoreMode % 2 = 0 → scores (.tscoreMax a) (if r.score.toInt < v.toInt then v else r.score)
        ∧ scores (.tscoreMin a) (if v.toInt < r.score.toInt then v else r.score) ∧ scores (.tscoreAdd a) (r.score + v))
      ∧ (l.pkt.scoreMode % 2 = 1 → scores (.tscoreMax a) (real (Exact.pick true x y).1) ∧ scores (.tscoreMin a) (real (Exact.pick false x y).1)
        ∧ scores (.tscoreAdd a) (real (Exact.add nearest x y).1))
      ∧ WritesX s (exec (.trinfo d a) s) d (if v = 0 then BitVec.ofNat 64 word else if v = 1 then r.score
        else if v = 2 then BitVec.ofNat 64 s.allowLeft else BitVec.ofNat 64 (2 ^ 64 - 1)))
    ∧ (s.th.ident.rival = none →
      let scores (i : Instr) (w : Word) : Prop := ∃ t, exec i s = .next t ∧ t.th.score = w ∧ t.th.x = s.th.x ∧ t.th.f = s.th.f ∧ Retires s t 4
        ∧ KeepsBytes s t
      scores (.tscoreSet a) v ∧ scores (.tscoreMax a) (if s.th.score.toInt < v.toInt then v else s.th.score)
      ∧ scores (.tscoreMin a) (if v.toInt < s.th.score.toInt then v else s.th.score) ∧ scores (.tscoreAdd a) (s.th.score + v)
      ∧ WritesX s (exec (.trinfo d a) s) d 0)
    ∧ (∀ l v n, s.launchById s.ev.unit = some l → l.rivals[s.ev.idx]? = some v → l.pkt.kind = 1 → v.alive = true → l.allowance = some n → n ≤ v.used →
      let of (t : Thread) : Prop := t.ident.launch = l.id ∧ t.ident.vf = l.fn ∧ t.ident.rival = some s.ev.idx ∧ t.phase = .running
      ∃ t, exec .allowanceExhausted s = .next t ∧ KeepsBytes s t ∧ (s.th.bound = true → of s.th → t.th = { s.th with phase := .requested, allow := true })
        ∧ ∀ e ∈ s.others, of e.2 → (e.1, { e.2 with phase := .requested, allow := true }) ∈ t.others)

/-- R331 to R334: a round that has not ended goes on; at its end the live rivals are ranked by their scores, a NaN last and the lower rival
number first among equals. The threads of the worse half are gone at once; while a command of theirs runs the next round has not begun. Then
the better half lives on with its count of instructions at 0 and, where the launch grows, twice its gang limit, and the worse half is dead;
the round counts up. A saved thread of a survivor that waits for no frame and no ring runs, and so does one suspended in an open packet or
an `ixcreate`. What the model chose in it: the log's entries 36 and 64. -/
def Obligations.RoundEnds : Prop :=
  ∀ (s : State) (l : Launch), s.launchById s.ev.unit = some l →
    (s.roundOver l = false → exec .roundEnd s = .next s)
    ∧ (s.roundOver l = true → s.bad = [] →
      let n := l.nextRound
      let above (k : Nat) (r : Rival) : Nat := ((List.range l.rivals.length).filter (fun j =>
        match l.rivals[j]? with | some q => q.alive && ranksAbove l.pkt.scoreMode (q.score, j) (r.score, k) | none => false)).length
      let half := (l.rivals.filter (·.alive)).length / 2
      let worse (i : Ident) : Prop := ∃ k r, l.rivals[k]? = some r ∧ r.alive = true ∧ half ≤ above k r ∧ l.hasIdent k i = true
      (∃ t got, exec .roundEnd s = .next t
        ∧ ((∃ c ∈ s.tableQ, worse c.owner.ident) → t.launchOf l.fn l.id = some { l with got := got })
        ∧ (s.others = [] → s.th.bound = true → worse s.th.ident → t.th = Thread.idle)
        ∧ ((∀ o ∈ s.owners, ¬worse o.ident) → (∀ e ∈ s.units, e.2.row = 0) →
          (n.complete = false → t.launchOf l.fn l.id = some { n with got := got })
          ∧ (∀ k r g, s.others = [] → s.th.bound = true → l.hasThread k s.th = true → l.rivals[k]? = some r → r.alive = true → above k r < half →
            s.ownGang = some g → s.th.frame = 0 →
            ((s.th.phase = .saved ∧ s.th.packet = none ∧ s.th.ixReq = none ∧ s.th.ring = none ∧ s.store = []) ∨ s.th.inPlace = true) →
            t.th.phase = .running ∧ t.th.allow = false ∧ t.th.x = s.th.x ∧ t.th.f = s.th.f ∧ t.th.pc = s.th.pc)))
      ∧ n.round = l.round + 1
      ∧ ∀ k r, l.rivals[k]? = some r → ∃ q, n.rivals[k]? = some q ∧ q.score = r.score ∧ q.finished = r.finished
        ∧ (r.alive = false → q = r) ∧ (r.alive = true → half ≤ above k r → q.alive = false)
        ∧ (r.alive = true → above k r < half → q.alive = true ∧ q.used = 0 ∧ q.limit = if l.pkt.grow = 0 then r.limit else 2 * r.limit))

/-! ### Page tables and poison -/

/-- R44, R311, R317, R320, R322 and R324: `pclr`, `pinv`, `pgen` and `pswap` raise 0x03 in user mode. In system mode `pclr` issues as a
store does, `pinv` drops the translations of a page, of a function or of all, with the words that L1s have registered of the page's frames
where it is to, and waits while an NMU holds a frame translated by them; `pgen` takes a newer generation and sends a notice of it to each
slice; a malformed `pinv` or `pgen` raises 0x02. A notice of a newer generation empties a slice's walk buffer. What the model chose in it:
the log's entries 39, 42 and 66. -/
def Obligations.PagingInstructions : Prop :=
  ∀ (s : State) (a b : Reg),
    let v := (s.getX a).toNat
    let g := (s.getX a).setWidth 32
    let kind := fld v 0 2
    let fn := fld v 56 8
    let page := fld v 16 40 * 65536
    let good := fld v 3 13 = 0 ∧ fn ≤ 128 ∧ kind < 3 ∧ (kind ≠ 0 → fld v 2 1 = 0 ∧ fld v 16 40 = 0)
    let goes (i : Instr) (p : State → Prop) : Prop := ∃ t, exec i s = .next t ∧ KeepsBesidePc s.th t.th ∧ Retires s t 4 ∧ p t
    let gone (t : State) (f va : Nat) : Prop := ∀ slice < 1280, ∀ z < 3, Tab.find t.tlb (tlbKey slice f z va) = none
    let newerThan (w : BitVec 32) (x : BitVec 32) : Prop := 1 ≤ (w - x).toNat ∧ (w - x).toNat < 2 ^ 31
    (s.th.sys = false → ∀ i ∈ [Instr.pclr a, .pinv a, .pgen a, .pswap a b], exec i s = .next (s.trapWord 0x03 i))
    ∧ (s.th.sys = true → v % 8 = 0 → v < 2 ^ 56 → s.th.acquiring = false → s.counter s.th .sc < 32 →
      Issues s (exec (.pclr a) s) .plain (accessOf .pclr v .plain false 0 0 0 s))
    ∧ (s.th.sys = true → v % 8 ≠ 0 → exec (.pclr a) s = .next (s.trap 0x04 v))
    ∧ (s.th.sys = true → good → s.Clear → (∀ e ∈ s.nmus, e.2.queue = [] ∧ e.2.run = none) → goes (.pinv a) (fun t =>
      (fld v 2 1 = 0 ∨ s.regs = [] → KeepsBytes s t)
      ∧ (fld v 2 1 = 1 → ∀ slice < 1280, ∀ z < 3, ∀ r, Tab.find s.tlb (tlbKey slice fn z page) = some r →
        ∀ w, ptePa r.leaf ≤ 8 * w → 8 * w < ptePa r.leaf + leafBytes r.leaf → Tab.find t.regs w = none)
      ∧ (kind = 0 → gone t fn page
        ∧ ∀ e ∈ s.pathOf fn page, ∀ k < 1280, ∀ pa < 2 ^ 40, pa / 64 = e / 64 → Tab.find t.walk (walkKey k pa) = none)
      ∧ (kind = 1 → t.walk = [] ∧ ∀ va < 2 ^ 56, gone t fn va) ∧ (kind = 2 → t.walk = [] ∧ t.tlb = [])
      ∧ ∀ f < 129, f ≠ fn → kind ≠ 2 → ∀ slice < 1280, ∀ z < 3, ∀ va < 2 ^ 56,
        Tab.find t.tlb (tlbKey slice f z va) = Tab.find s.tlb (tlbKey slice f z va)))
    ∧ (s.th.sys = true → good → s.Clear →
      (∃ e ∈ s.nmus, ∃ m ∈ e.2.queue, m.frames ≠ [] ∧ (kind = 2 ∨ (m.owner.ident.vf = fn
        ∧ (kind = 1 ∨ (m.region ≤ page ∧ page < m.region + 65536 * m.n))))) → exec (.pinv a) s = .next ((s.released .dev).stallWith []))
    ∧ (s.th.sys = true → ¬good → exec (.pinv a) s = .next (s.trapWord 0x02 (.pinv a)))
    ∧ (s.th.sys = true → v < 2 ^ 32 → s.Clear → goes (.pgen a) (fun t => KeepsBytes s t ∧ (newerThan g s.gd → t.gd = g) ∧ (¬newerThan g s.gd → t.gd = s.gd)
      ∧ ∀ k < 1280, Tab.find t.genSent k = some t.gd))
    ∧ (s.th.sys = true → 2 ^ 32 ≤ v → exec (.pgen a) s = .next (s.trapWord 0x02 (.pgen a)))
    ∧ (∀ w, Tab.find s.genSent s.ev.unit = some w → s.ev.unit < 1280 →
      let old := Tab.get s.gs s.ev.unit 0
      (newerThan w old → ∃ t, exec .generationNotice s = .next t ∧ Tab.get t.gs s.ev.unit 0 = w
        ∧ (∀ k < 1280, ∀ pa < 2 ^ 40, Tab.find t.walk (walkKey k pa) = if k = s.ev.unit then none else Tab.find s.walk (walkKey k pa))
        ∧ t.tlb = s.tlb ∧ t.mem = s.mem ∧ t.th = s.th)
      ∧ (¬newerThan w old → exec .generationNotice s = .next { s with genSent := Tab.drop s.genSent s.ev.unit }))

/-- R323, R324 and R360: `pswap` of the leaves of two frames exchanges the frames' bytes, each read under the key of its leaf's function
before and after, and the leaves' addresses; it leaves the leaves' other bits and every other byte alone, and no translation through either
stays. An address that is no leaf's raises 0x04 or 0x07, leaves of one frame 0x07, and a frame with tags does not go to host memory. The
scanner makes a dirty file page read-only with wb set, and when the page is written it gives W back and clears D and wb, where the entry is
still present, and acts as `pgen` of 0 (R320). What the model chose in it: the log's entries 39, 40, 41 and 43. -/
def Obligations.FramesExchangedAndWritten : Prop :=
  ∀ (s : State) (a b : Reg), Memory.wf s.mem = true →
    let p := (s.getX a).toNat
    let q := (s.getX b).toNat
    let u := s.entryAt p
    let v := s.entryAt q
    let inside (k : Nat) : Prop := (ptePa u ≤ k ∧ k < ptePa u + 65536) ∨ (ptePa v ≤ k ∧ k < ptePa v + 65536)
    let bits : Word := 0x00FFFFFFFFFF0000
    let leaf (k : Nat) : Prop := k % 8 = 0 ∧ isDevice k = true ∧ pteP (s.entryAt k) = true ∧ pteLeaf (s.entryAt k) = true ∧ pteSize (s.entryAt k) = 0
    let keyOf (e : Nat) (pa : Nat) : Nat := match s.holderOf e with
      | some f => s.keyFor f (pteTracked (s.entryAt e)) pa
      | none => 0
    (s.th.sys = true → leaf p → leaf q → ptePa u ≠ ptePa v → ¬inside p → ¬inside q → s.Clear → s.indexes = [] → (∀ e ∈ s.regs, ¬inside (8 * e.1)) →
      (s.tags = [] ∨ (isDevice (ptePa u) = true ∧ isDevice (ptePa v) = true)) →
      ∃ t, exec (.pswap a b) s = .next t ∧ KeepsBesidePc s.th t.th ∧ Retires s t 4 ∧ t.loc = s.loc
        ∧ (∀ k < 65536, t.physByte (keyOf p (ptePa v)) (ptePa v + k) = s.physByte (keyOf p (ptePa u)) (ptePa u + k)
          ∧ t.physByte (keyOf q (ptePa u)) (ptePa u + k) = s.physByte (keyOf q (ptePa v)) (ptePa v + k))
        ∧ ptePa (t.entryAt p) = ptePa v ∧ ptePa (t.entryAt q) = ptePa u
        ∧ t.entryAt p &&& ~~~bits = u &&& ~~~bits ∧ t.entryAt q &&& ~~~bits = v &&& ~~~bits
        ∧ (∀ e ∈ t.tlb, e ∈ s.tlb ∧ e.2.entry ≠ p ∧ e.2.entry ≠ q)
        ∧ ∀ k, ¬inside k → (k < p ∨ p + 8 ≤ k) → (k < q ∨ q + 8 ≤ k) → Memory.read t.mem k = Memory.read s.mem k)
    ∧ (s.th.sys = true → (p % 8 ≠ 0 ∨ isDevice p = false) → exec (.pswap a b) s = .next (s.trap 0x04 p))
    ∧ (s.th.sys = true → p % 8 = 0 → isDevice p = true → (pteP u = false ∨ pteLeaf u = false ∨ pteSize u ≠ 0) →
      exec (.pswap a b) s = .next (s.trap 0x07 p))
    ∧ (s.th.sys = true → leaf p → (q % 8 ≠ 0 ∨ isDevice q = false) → exec (.pswap a b) s = .next (s.trap 0x04 q))
    ∧ (s.th.sys = true → leaf p → q % 8 = 0 → isDevice q = true → (pteP v = false ∨ pteLeaf v = false ∨ pteSize v ≠ 0) →
      exec (.pswap a b) s = .next (s.trap 0x07 q))
    ∧ (s.th.sys = true → leaf p → leaf q → ptePa u = ptePa v → exec (.pswap a b) s = .next (s.trap 0x07 q))
    ∧ (s.th.sys = true → leaf p → leaf q → s.Clear → isHost (ptePa u) = true → isDevice (ptePa v) = true →
      (∃ e ∈ s.tags, ptePa v / 1024 ≤ e.1 ∧ e.1 < ptePa v / 1024 + 64 ∧ e.2 ≠ 0) →
      ∃ t n, exec (.pswap a b) s = .next (State.trap t 0x15 n) ∧ t.mem = s.mem ∧ t.loc = s.loc ∧ t.th = s.th)
    ∧ (s.regs = [] →
      let die := s.ev.unit
      let fn := s.ev.idx
      let va := s.ev.num / 65536 * 65536
      let due (w : Word) : Prop := pteP w = true ∧ pteLeaf w = true ∧ pteFile w = true ∧ pteD w = true ∧ pteWb w = false
      (∀ e z, s.scanLeaf die fn va = (some e, z) → (∀ x ∈ s.scans, x.1 ≠ die) → due (s.entryAt e) → ∃ t, exec .scannerPage s = .next t
        ∧ t.scans = s.scans ++ [(die, fn, va)] ∧ t.entryAt e = (s.entryAt e &&& ~~~0x10#64) ||| (1#64 <<< 57)
        ∧ (∀ slice < 1280, ∀ k < 3, fn < 129 → va < 2 ^ 56 → Tab.find t.tlb (tlbKey slice fn k va) = none)
        ∧ (∀ k, (k < e ∨ e + 8 ≤ k) → Memory.read t.mem k = Memory.read s.mem k) ∧ t.loc = s.loc ∧ t.th = s.th)
      ∧ (∀ e z, s.scanLeaf die fn va = (some e, z) → ¬due (s.entryAt e) → exec .scannerPage s = .next z)
      ∧ (∀ z, s.scanLeaf die fn va = (none, z) → exec .scannerPage s = .next z)
      ∧ (∀ f x e z, s.scans = [(die, f, x)] → State.scanLeaf { s with scans := [] } die f x = (some e, z) →
        ∃ t, exec .scannerWriteDone s = .next t ∧ t.scans = []
        ∧ (let w := s.entryAt e
          t.entryAt e = if pteP w = true ∧ pteWb w = true then (w ||| 0x10#64) &&& ~~~(0x100#64 ||| (1#64 <<< 57)) else w)
        ∧ (∀ slice < 1280, ∀ k < 3, f < 129 → x < 2 ^ 56 → x % 65536 = 0 → Tab.find t.tlb (tlbKey slice f k x) = none)
        ∧ t.gd = (if 1 ≤ (0 - s.gd).toNat ∧ (0 - s.gd).toNat < 2 ^ 31 then 0 else s.gd) ∧ (∀ k < 1280, Tab.find t.genSent k = some t.gd)
        ∧ (∀ k, (k < e ∨ e + 8 ≤ k) → Memory.read t.mem k = Memory.read s.mem k) ∧ t.loc = s.loc ∧ t.th = s.th))

/-! ### The host, the fabric and the device as a whole -/

/-- R347, R348, R351, R353, R365 and R366: a write to a launch window counts up its sequence number and either queues the packet under a new
id or leaves the status that R348 gives: -5 for a write that is not whole, -6 in reset or quarantine. The report nonce keeps what is
written; a request makes the device busy and the report that appears carries the next number, unless the identity key is erased. The
accesses of the host, and a peer's reads, writes and atomics, recall the registered words they touch, whose data goes back to memory, and
then reach memory; a read of the host finds what has been made visible to it, and an acquire whatever has been performed (R202); one that
meets a frame of an index is refused with a completion error. A write to a peer that is not acknowledged is dropped: a store in flight, a
write that has left the device, or a registered word that a release writes through; and a thread that waits for it in a release ends with
0x0A and the system address. What the model chose in it: the log's entries 44, 45, 47 and 63. -/
def Obligations.HostAndFabric : Prop :=
  ∀ s : State,
    let fn := s.ev.unit
    let b := s.bar fn
    let bs := bytesOf 64 s.ev.data.toNat
    let st : Int := if s.ev.flag = false then -5 else if fn ∈ s.inReset ∨ fn ∈ s.quarantined then -6 else s.packetStatus bs fn (fn == 0) false
    (fn ≤ 128 → st ≠ 0 → exec .hostLaunchWindowWrite s =
      .next (s.putBar fn { b with seq := b.seq + 1, status := st, id := 0, drops := b.drops + 1 }))
    ∧ (fn ≤ 128 → st = 0 → s.launches.length + 1 < 2 ^ 31 → ∃ t l, exec .hostLaunchWindowWrite s = .next t ∧ t.launches = s.launches ++ [l] ∧ l.fn = fn
      ∧ l.pkt = parsePacket bs ∧ l.host = true ∧ l.count = none ∧ (∀ m ∈ s.launches, m.id ≠ l.id)
      ∧ t.bar fn = { b with seq := b.seq + 1, status := 0, id := l.id } ∧ t.th = s.th ∧ KeepsBytes s t)
    ∧ (fn ≤ 128 → s.ev.idx = 0x100 → s.ev.num = 32 → exec .registerWrite s = .next (s.putBar fn { b with nonce := s.ev.data.setWidth 256 }))
    ∧ (fn ≤ 128 → s.ev.data = 1 → b.busy = false → ∃ t, exec .reportRequest s = .next t ∧ (t.bar fn).busy = true
      ∧ (∀ k < 8, (t.bar fn).taken.getD k 0 = Tab.get s.usage (fn * 8 + k) 0) ∧ t = { s with bars := t.bars })
    ∧ (b.busy = true → s.erased = false → ∃ t, exec .reportReady s = .next t ∧ (t.bar fn).busy = false ∧ (t.bar fn).report.length = 1440
      ∧ Tab.get t.reportSeq fn 0 = Tab.get s.reportSeq fn 0 + 1 ∧ natOf (((t.bar fn).report.drop 80).take 8) = Tab.get s.reportSeq fn 0 % 2 ^ 64
      ∧ (∀ k < 8, natOf (((t.bar fn).report.drop (88 + 8 * k)).take 8) = b.taken.getD k 0 % 2 ^ 64) ∧ t = { s with bars := t.bars, reportSeq := t.reportSeq })
    ∧ (s.erased = true → exec .reportReady s = .next s)
    ∧ (s.indexes = [] → s.keys = [] → Memory.wf s.mem = true → (∀ e ∈ s.regs, e.2.key = 0) →
      let pa := s.ev.num
      let n := min s.ev.idx 64
      let w (k : Nat) : State := s.recallIn pa k
      let key := s.keyFor 0 true pa
      let at' (k : Nat) : Nat := natOf (Memory.readN (w k).mem pa k)
      let puts (i : Instr) (k v : Nat) : Prop := ∃ t, exec i s = .next t ∧ t.th = s.th ∧ t.loc = s.loc ∧ t.regs = (w k).regs
        ∧ ∀ j, Memory.read t.mem j = if pa ≤ j ∧ j < pa + k then BitVec.ofNat 8 (v / 256 ^ (j - pa)) else Memory.read (w k).mem j
      (∀ k, (w k).th = s.th ∧ (w k).loc = s.loc
        ∧ (∀ d, pa / 8 ≤ d → d < (pa + k + 7) / 8 → Tab.find (w k).regs d = none
          ∧ ∀ r, Tab.find s.regs d = some r → ∀ i < 8, Memory.read (w k).mem (8 * d + i) = BitVec.ofNat 8 (r.data.toNat / 256 ^ i))
        ∧ ∀ j, (Tab.find s.regs (j / 8) = none ∨ j / 8 < pa / 8 ∨ (pa + k + 7) / 8 ≤ j / 8) → Memory.read (w k).mem j = Memory.read s.mem j)
      ∧ (pa + n ≤ 2 ^ 40 →
        (s.ev.flag = true → ∃ t, exec .hostCxlMemAccess s = .next t ∧ t.th = s.th ∧ t.loc = s.loc ∧ t.regs = (w n).regs ∧ t.replyError = false
          ∧ ∀ j, t.physByte key j = if pa ≤ j ∧ j < pa + n then bs.getD (j - pa) 0 else (w n).physByte key j)
        ∧ (s.ev.flag = false →
          let found := if s.ev.unit = 0 then w n else (w n).readMemWords outsideView true pa n (fun r => r.core.isSome)
          exec .hostCxlMemAccess s = .next { found with reply := found.seeMem outsideView key true pa n, replyError := false }
          ∧ (s.ev.unit ≠ 0 → (∀ d, pa / 8 ≤ d → d < (pa + n + 7) / 8 → Tab.find (w n).regs d = none
              ∧ ∀ r ∈ Tab.get (w n).memPast (pastKey true (8 * d)) [], r.core ≠ none ∨ r.path = none) →
            found.seeMem outsideView key true pa n = (w n).physRead key pa n))
        ∧ ((w n).memPast = [] → (∀ d, pa / 8 ≤ d → d < (pa + n + 7) / 8 → Tab.find (w n).regs d = none) → (w n).seeMem outsideView key true pa n = (w n).physRead key pa n)
        ∧ (s.ev.peer = .read → exec .fabricPeerAccess s = .next { w n with reply := Memory.readN (w n).mem pa n, replyError := false })
        ∧ (s.ev.peer = .write → puts .fabricPeerAccess n s.ev.data.toNat)
        ∧ (∀ f z, s.ev.peer = .atomic f z → let k := if z then 8 else 4
          puts .fabricPeerAccess k (amoOp f k (at' k) (s.ev.data.toNat % 2 ^ (8 * k))))
        ∧ (∀ z e, s.ev.peer = .cas z e → let k := if z then 8 else 4
          puts .fabricPeerAccess k (if at' k = e.toNat % 2 ^ (8 * k) then s.ev.data.toNat else at' k))
        ∧ (∀ z, ((∃ f, s.ev.peer = .atomic f z) ∨ ∃ e, s.ev.peer = .cas z e) → let k := if z then 8 else 4
          ∃ t, exec .fabricPeerAccess s = .next t ∧ t.reply = Memory.readN (w k).mem pa k)))
    ∧ ((∃ k < min s.ev.idx 64, ∃ e ∈ s.indexes, ∃ x, e.2.index = some x
        ∧ ∃ f ∈ x.frames, f ≤ s.ev.num + k ∧ s.ev.num + k < f + 65536) → s.ev.num + min s.ev.idx 64 ≤ 2 ^ 40 →
      exec .hostCxlMemAccess s = .next { s with reply := [], replyError := true })
    ∧ (s.th.bound = true → s.ev.unit = s.th.slot → s.ev.num ≠ 0 →
      let pa := s.ev.num
      let waits (r : Past) : Prop := s.th.relWait = some .sys ∧ r.ownOf (s.th.view .core) = true
      (s.unacked s.ev.flag pa = none → exec .fabricAckTimeout s = .next s)
      ∧ (∀ r, s.unacked s.ev.flag pa = some r →
        let v := s.unwrite s.ev.flag pa r
        (waits r → exec .fabricAckTimeout s = .next (v.report 0x0A (s.systemAddress pa)))
        ∧ (¬waits r → s.ev.flag = true → Tab.find s.regs (pa / 8) ≠ none → exec .fabricAckTimeout s = .next s)
        ∧ (¬waits r → (s.ev.flag = false ∨ Tab.find s.regs (pa / 8) = none) → exec .fabricAckTimeout s = .next v)
        ∧ (Memory.wf s.mem = true → s.keys = [] → r.mask = 0xFF →
          ∀ k < 8, Memory.read v.mem (pa / 8 * 8 + k) = BitVec.ofNat 8 (r.old.toNat / 256 ^ k))))
    ∧ (s.th.bound = true → s.ev.unit = s.th.slot → s.ev.num = 0 →
      let lost := s.th.acc.findSome? (fun a => (s.peerStore a).map (fun pa => (a, pa)))
      let dropped (a : Access) : State := { s with th := { s.th with acc := s.th.acc.filter (fun c => c.seq ≠ a.seq) } }
      (∀ a pa, lost = some (a, pa) → exec .fabricAckTimeout s =
        .next (if s.th.relWait ≠ none then (dropped a).report 0x0A (s.systemAddress pa) else dropped a))
      ∧ (lost = none → exec .fabricAckTimeout s = .next s))

/-- R162, R174, R309, R310, R346, R355, R359, R367 and R368: a function-level reset takes its function out of use and then leaves no launch,
no gang, no index and no record-store place of it; a conventional reset and a boot leave no thread and no launch, zero device memory and put
the record's weights in force; a boot that fails halts the device at its step, at the third where the record breaks a rule, and zeroes
memory only past the fourth. An alarm above its budget tells Monel and takes the actions of its class. A rotation of the identity zeroes the
usage. Monel learns of every thread bound on a core that fails; each word that the core held registered is poisoned, and Monel learns of it
with its VA, or it had been evicted to its slice; a core that leaves service or comes back has a scratchpad of zeros. What the model chose
in it: the log's entries 21, 38, 46, 49, 54 and 66. -/
def Obligations.DeviceEvents : Prop :=
  ∀ s : State,
    let u := s.ev.unit
    let pad (t : State) : Prop := ∀ j, Memory.read t.loc j =
      if 0x100000000 + u * 0x60000 ≤ j ∧ j < 0x100000000 + (u + 1) * 0x60000 then 0 else Memory.read s.loc j
    (u ≤ 128 → u ∉ s.inReset → exec .functionLevelReset s = .next { s with inReset := s.inReset ++ [u] })
    ∧ (u ≤ 128 → u ∈ s.inReset → ∃ t, exec .functionLevelReset s = .next t ∧ u ∉ t.inReset ∧ (∀ l ∈ t.launches, l.fn ≠ u) ∧ (∀ g ∈ t.gangs, g.fn ≠ u)
      ∧ (∀ h x, t.indexAt h = some x → x.fn ≠ u) ∧ (∀ e ∈ t.store, e.ident.vf ≠ u)
      ∧ (s.others = [] → s.th.bound = true → s.th.ident.vf = u → t.th = Thread.idle) ∧ (t.bar u).seq = 0 ∧ (t.bar u).status = 0)
    ∧ (∀ i ∈ [Instr.conventionalReset, .boot], ∃ t, exec i s = .next t ∧ t.th = Thread.idle ∧ t.others = [] ∧ t.launches = [] ∧ t.gangs = [] ∧ t.loc = []
      ∧ t.indexes = [] ∧ t.usage = s.usage ∧ t.epoch = s.epoch
      ∧ (let num := s.ev.num
        let good := recordOk s.ev.cfg = true
        let zeroed := ∀ j < 2 ^ 40, Memory.read t.mem j = 0
        let stops (k : Nat) : Prop := t.halted = true ∧ t.bootStep = k
        (good → (num = 0 ∨ 6 < num) → t.halted = false ∧ t.bootStep = 0 ∧ zeroed ∧ t.cfg = s.ev.cfg
          ∧ ((s.ev.cfg.weights.map (·.1)).Nodup → ∀ e ∈ s.ev.cfg.weights, t.quantum e.1 = e.2 * 7520))
        ∧ (1 ≤ num → num ≤ 3 → stops num ∧ t.mem = s.mem ∧ t.cfg = s.cfg)
        ∧ (¬good → (num = 0 ∨ 3 < num) → stops 3 ∧ t.mem = s.mem ∧ t.cfg = s.cfg)
        ∧ (good → num = 4 → stops 4 ∧ t.mem = s.mem)
        ∧ (good → 5 ≤ num → num ≤ 6 → stops num ∧ zeroed ∧ t.cfg = s.ev.cfg)))
    ∧ (u ≤ 128 → s.ev.idx < 7 → s.budget u s.ev.idx + 64 < s.ev.num → ∃ t, exec .securityAlarm s = .next t
      ∧ (∃ rest, t.monel = s.monel ++ ⟨.alarm, ⟨u, 0, 0, 0, none⟩, [s.ev.idx, s.ev.data.toNat, u, s.ev.num, s.period]⟩ :: rest)
      ∧ (s.cfg.alarms.getD s.ev.idx 0 = 0 → t = { s with monel := t.monel })
      ∧ (1 ≤ s.cfg.alarms.getD s.ev.idx 0 → u ∈ t.quarantined ∧ (∀ l ∈ t.launches, l.fn ≠ u) ∧ (∀ g ∈ t.gangs, g.fn ≠ u))
      ∧ (2 ≤ s.cfg.alarms.getD s.ev.idx 0 → Tab.get s.keyEpoch u 0 < Tab.get t.keyEpoch u 0)
      ∧ (3 ≤ s.cfg.alarms.getD s.ev.idx 0 → t.halted = true ∧ t.erased = true ∧ ∀ f ≤ 128, Tab.get s.keyEpoch f 0 < Tab.get t.keyEpoch f 0))
    ∧ (s.ev.num ≤ s.budget u s.ev.idx + 64 → exec .securityAlarm s = .next s)
    ∧ exec .quarantineLift s = .next { s with quarantined := s.quarantined.filter (· ≠ u) }
    ∧ (s.ev.flag = true → exec .identityRotation s = .next { s with epoch := s.epoch + 1, usage := [], erased := false })
    ∧ (s.ev.flag = false → exec .identityRotation s = .next s)
    ∧ (∃ t rest, exec .coreFailure s = .next t ∧ (∀ e ∈ t.regs, e.2.core ≠ some u)
      ∧ t.monel = s.monel ++ (s.threads.filter (fun v => coreOf v.slot = u)).map (fun v => (⟨.lost, v.ident, [3, 0]⟩ : MonelReport)) ++ rest
      ∧ ((∀ v ∈ s.threads, coreOf v.slot ≠ u) → s.regs.length < 4096 → (s.regs.map (·.1)).Nodup → t.th = s.th ∧ KeepsBytes s t
        ∧ ∀ w r, Tab.find s.regs w = some r → r.core = some u →
          (Tab.get t.poison (8 * w) false = true ∧ (⟨.poison, ⟨0, 0, 0, 0, none⟩, [r.va, u]⟩ : MonelReport) ∈ rest)
          ∨ Tab.find t.regs w = some { r with core := none })
      ∧ (s.others = [] → s.th.bound = true → coreOf s.th.slot = u → s.ownGang ≠ none → t.th = Thread.idle))
    ∧ (u < 1280 → u ∉ s.cfg.coresOut → (∀ v ∈ s.threads, coreOf v.slot ≠ u) → ∃ t, exec .coreOutOfService s = .next t ∧ u ∈ t.cfg.coresOut ∧ pad t
      ∧ t.th = s.th ∧ t.mem = s.mem ∧ t.monel = s.monel ++ [⟨.core, ⟨0, 0, 0, 0, none⟩, [u]⟩])
    ∧ (u ∈ s.cfg.coresOut → ∃ t, exec .coreReturnToService s = .next t ∧ u ∉ t.cfg.coresOut ∧ pad t ∧ t.th = s.th ∧ t.mem = s.mem)

/-! ### Upcalls -/

/-- R20, R22, R296, R299 and R302: at a boundary of a running thread whose handler is not active, a held record that is not parked raises an
upcall with the cause and the address of the first record held, and else the oldest notice leaves the queue and raises 0x16 with its word;
nothing due, nothing happens. A notice that waited is posted once one of the 16 places is free. -/
def Obligations.UpcallsAndNotices : Prop :=
  ∀ s : State, s.th.bound = true → s.ev.unit = s.th.slot →
    let t := s.th
    let able := t.phase = .running ∧ t.ixReq = none ∧ t.redo = [] ∧ t.uact = false ∧ t.packet = none ∧ t.mownWait = false ∧ t.mma = none ∧ t.latched ≠ some []
    let enters (cause : Nat) (tval : Word) (ns : List Word) : Prop := ∃ u, exec .upcallDelivery s = .next u ∧ u.th.uact = true
      ∧ u.th.epc = t.pc ∧ u.th.cause = BitVec.ofNat 64 cause ∧ u.th.tval = tval ∧ u.th.pc = pcBits t.uvec ∧ u.th.notices = ns ∧ u.th.x = t.x ∧ u.th.f = t.f
      ∧ u.th.iret = t.iret ∧ u.th.swWait = none ∧ u.mem = s.mem
    (∀ h r, able → t.held = h :: r → (∃ g ∈ t.held, g.parked = false) → s.reported h.cause = false → enters h.cause (BitVec.ofNat 64 h.va) t.notices)
    ∧ (∀ w r, able → (∀ g ∈ t.held, g.parked = true) → t.notices = w :: r → s.reported 0x16 = false →
      enters 0x16 (w ||| 0x8000#64 ||| (if r = [] then 0 else 0x200#64)) r)
    ∧ ((∀ g ∈ t.held, g.parked = true) → t.notices = [] → exec .upcallDelivery s = .next s)
    ∧ (t.uact = true → exec .upcallDelivery s = .next s)
    ∧ (∀ w r, t.heldNotices = w :: r → t.notices.length < 16 → ∃ u, exec .heldNoticePost s = .next u
      ∧ u.th = { t with notices := t.notices ++ [w], heldNotices := r, stalled := false } ∧ u.mem = s.mem
      ∧ (∀ c q, fld w.toNat 12 3 = 1 → s.copyQueue (coreOf t.slot) = c :: q → c.fail = some w → c.owner.ident = t.ident → c.owner.lost = false → u.copyQueue (coreOf t.slot) = q))
    ∧ (16 ≤ t.notices.length → exec .heldNoticePost s = .next s)

/-! ### The machine as a whole -/

/-- R7 to R9, R16, R153, R225, R251, R274 and R368: right after reset no slot is bound, no launch is queued and no gang is bound, every byte
of memory and of every scratchpad reads 0, no index is live, every matrix unit has no owner and an empty ring, every near-memory unit is
unclaimed with accumulators of 0, no slice holds a translation, no L1 a registered word, every function has the weight 16, and an idle slot
has the start values of R16; both memories are canonical. What the model chose in it: the log's entries 3, 4 and 5. -/
def Obligations.ResetLeaves : Prop :=
  let s := State.reset
  s.MemOk ∧ s.th.bound = false ∧ s.others = [] ∧ s.launches = [] ∧ s.gangs = [] ∧ (∀ a, Memory.read s.mem a = 0 ∧ Memory.read s.loc a = 0)
    ∧ (∀ h, s.indexAt h = none) ∧ (∀ core, s.unitOf core = MatrixUnit.empty) ∧ (∀ n k, (s.nmu n).claim = none ∧ (s.nmu n).accAt k = 0)
    ∧ (∀ k, Tab.find s.tlb k = none) ∧ s.Quiet ∧ (∀ f, s.quantum f = 16 * 7520) ∧ s.halted = false
    ∧ (∀ r : Reg, s.getX r = if r = 2 then 0x3900 else 0) ∧ (∀ r : Reg, s.getF r = 0)
    ∧ s.th.usave = 0x3900 ∧ s.th.uvec = 0 ∧ s.th.othresh = 0x7F800000 ∧ s.th.clamplo = 0 ∧ s.th.clamphi = 0x3F800000 ∧ s.th.rmode = 0
    ∧ s.th.fflags = 0 ∧ s.th.loop0.flag = false ∧ s.th.loop1.flag = false

/-- R9: bits [63:56] and bit 0 of every thread's PC are 0 right after reset, and every step keeps them so. -/
def Obligations.PcBitsStayZero : Prop :=
  let ok (p : Word) : Prop := p.getLsbD 0 = false ∧ ∀ k, 56 ≤ k → p.getLsbD k = false
  let all (s : State) : Prop := ok s.th.pc ∧ ∀ e ∈ s.others, ok e.2.pc
  all State.reset ∧ ∀ s t, all s → step s = .next t → all t

/-- Whatever a step does, it keeps physical and local memory in their canonical form: addresses rise strictly, and no byte is listed that
reads as what an unlisted address reads as (the form is the model's own, not the spec's). -/
def Obligations.StepsKeepMemoryCanonical : Prop :=
  ∀ s t, s.MemOk → step s = .next t → t.MemOk

/-- R10: no instruction and no trap changes the mode of the thread that issues it, nor its slot or identity: the thread goes on with them,
or it is gone. -/
def Obligations.ModeIsFixed : Prop :=
  ∀ (i : Instr) (s t : State), i.form ≠ .event → i.form ≠ .micro → exec i s = .next t →
    t.th = Thread.idle ∨ (t.th.sys = s.th.sys ∧ t.th.slot = s.th.slot ∧ t.th.ident = s.th.ident ∧ t.th.gsize = s.th.gsize ∧ t.th.prio = s.th.prio)

/-- R17 to R20, R26, R84 and R260: a core's turn, where the slot that it picks stands at an instruction that issues: the bits fetched at its
PC are decoded, and the instruction they are has its effect, and nothing else comes before or after but the cycles that pass, the number of
rows that an `mma` begins with, the mark that the slot has issued, that a division or an upcall occupies it until that is over (R75), and
the waiting slots' leave to look again. An `ixcreate` that waits goes on with what it has sent, with no fetch (R289). A fetch that faults
and bits that are no instruction trap. A turn of a near-memory unit does so with the microinstruction at its handler's place, and an event
has its own effect; so have the rows of an `mma` and the world outside. Where no turn is laid down, it is one of those that may come. What
the model chose in it: the log's entries 1, 55 and 64. -/
def Obligations.StepRunsDecoded : Prop :=
  ∀ (s : State) (r : List Turn), s.halted = false →
    let go (t : State) : State := { t with agenda := r }
    (∀ (c n : Nat) (v : State), s.agenda = .core c :: r →
      let p := (go s).pass ((go s).coreWait c)
      let f := p.focus n
      p.pickSlot c = some n → f.AtInstruction →
      (∀ w i, f.fetch = (.ok w, v) → decode w = .ok i → v.interlock i = .go → (v.packetFull i = false ∨ v.decodeCause i = true) →
        step s = onNext (exec i (v.withRows i)) (fun t => ((t.issued n).occupy f.th (isDivision i)).settled))
      ∧ (∀ w i, f.fetch = (.ok w, v) → decode w = .ok i → v.interlock i = .go → v.packetFull i = true → v.decodeCause i = false →
        step s = .next ((v.trapWord 0x12 i).occupy f.th false).settled)
      ∧ (∀ w e, f.fetch = (.ok w, v) → decode w = .error e → step s = .next ((v.trap (decodeCauseOf e) (w % 2 ^ 32)).occupy f.th false).settled)
      ∧ (∀ k q, f.fetch = (.error (k, q), v) → step s = .next ((v.trap k q).occupy f.th false).settled))
    ∧ (∀ (c n : Nat) (d a : Reg), s.agenda = .core c :: r →
      let p := (go s).pass ((go s).coreWait c)
      let f := p.focus n
      p.pickSlot c = some n → f.th.mayStop = false → f.th.redo = [] → f.spent f.th = false → (∀ a ∈ f.th.acc, a.gen = none ∨ a.stuck ≠ none) →
      f.th.ixReq ≠ none → f.th.ixRegs = some (d, a) →
      step s = onNext (exec (.ixcreate d a) f) (fun t => ((t.issued n).occupy f.th false).settled))
    ∧ (∀ n, s.agenda = .free n :: r → step s = .next ((go s).freed n).rouse)
    ∧ (∀ n i, s.agenda = .nmu n :: r → (go s).microFetch n = some i → step s = onNext (exec i { go s with nmuAt := n }) State.rouse)
    ∧ (∀ e a, s.agenda = .event e a :: r → e.form = .event → step s = onNext (exec e { go s with ev := a }) State.rouse)
    ∧ (∀ n, s.agenda = .rows n :: r → step s = .next ((go s).moreRows n).rouse)
    ∧ (∀ o, s.agenda = .outside o :: r → step s = .next ((go s).outside o).rouse)
    ∧ (s.agenda = [] → s.turns ≠ [] → ∃ t ∈ s.turns, ∃ d, step s = State.take t { s with draw := d })
    ∧ (s.agenda = [] → s.turns = [] → step s = .next (s.pass 1).rouse)

/-- Words that the spec works out bit by bit, or whose bits its opcode tables give, decode to the instructions that they stand for: of R45,
and of each family in R67, R70, R75, R82, R85, R92, R171, R177, R213, R226, R253, R263, R281, R324 and R335; the all-zero halfword (R27) and
a word of an unassigned major (R43) are no instruction. -/
def Obligations.DecodedWords : Prop :=
  decode 0x000E6281 = .ok (.add 5 6 7) ∧ decode 0x12345291 = .ok (.lim 5 0x12345) ∧ decode 0x280E6297 = .ok (.divz 5 6 7)
    ∧ decode 0xFFC05D1B = .ok (.bne 5 0 0x7FFA) ∧ decode 0x0000B1A9 = .ok (.loopi 3 5) ∧ decode 0x098C0343 = .ok (.srd 6 0x026)
    ∧ decode 0x1004432B = .ok (.ldg .plain .w false 6 4 2) ∧ decode 0x17FE23B3 = .ok (.stl false .w 7 2 0x3FF)
    ∧ decode 0x04CE62B7 = .ok (.amoAdd .acqrelDev true 5 6 7) ∧ decode 0x0000203D = .ok (.cwait .yc 0)
    ∧ decode 0x9C66 = .ok (.vmax16 true 3 7) ∧ decode 0x104620C5 = .ok (.vmul .bf16 1 2 3) ∧ decode 0x21CC524B = .ok (.vfma .bf16 4 5 6 7)
    ∧ decode 0x104620C500001EE1 = .ok (.modifierWord ⟨0, false, false, true, 0x1D⟩ 0x104620C5)
    ∧ decode 0x01480051 = .ok (.cpy 0 4 5) ∧ decode 0x21CC5053 = .ok (.mmaD8 5 6 7) ∧ decode 0x1800904F = .ok (.tqmac 9)
    ∧ decode 0x08405059 = .ok (.ixstoreRel 5) ∧ decode 0x00C0705B = .ok (.tscoreAdd 7) ∧ decode 0x080C505F = .ok (.pswap 5 6)
    ∧ decodeMicro 0x0100FFFF = .ok (.mli 1 0xFFFF) ∧ decode 0 = .error .illegal ∧ decode 0x63 = .error .illegal

/-- R24 to R44 and R263: every well-formed instruction, with every operand at every value that its encoding admits, is decoded from the bits
that the encoding tables give it. -/
def Obligations.EncodedInstructionsDecode : Prop :=
  ∀ i : Instr, i.wellFormed = true → i.form ≠ .event → if i.form = .micro then decodeMicro (encode i) = .ok i else decode (encode i) = .ok i
end

