-- ==== Sys2Proof/Laws/State.lean ====
section
/-!
SUPPORT. Sys2Proof/Laws/State.lean: one lemma for each field and each named update: the field stands, or it is what the update
makes it.
-/
namespace Sys2Proof.Machine

/-! ### setTh -/

@[simp] theorem State.setTh_others (s : State) (t : Thread) : (s.setTh t).others = s.others := rfl
@[simp] theorem State.setTh_agenda (s : State) (t : Thread) : (s.setTh t).agenda = s.agenda := rfl
@[simp] theorem State.setTh_ev (s : State) (t : Thread) : (s.setTh t).ev = s.ev := rfl
@[simp] theorem State.setTh_nmuAt (s : State) (t : Thread) : (s.setTh t).nmuAt = s.nmuAt := rfl
@[simp] theorem State.setTh_draw (s : State) (t : Thread) : (s.setTh t).draw = s.draw := rfl
@[simp] theorem State.setTh_packets (s : State) (t : Thread) : (s.setTh t).packets = s.packets := rfl
@[simp] theorem State.setTh_clock (s : State) (t : Thread) : (s.setTh t).clock = s.clock := rfl
@[simp] theorem State.setTh_skew (s : State) (t : Thread) : (s.setTh t).skew = s.skew := rfl
@[simp] theorem State.setTh_halted (s : State) (t : Thread) : (s.setTh t).halted = s.halted := rfl
@[simp] theorem State.setTh_bootStep (s : State) (t : Thread) : (s.setTh t).bootStep = s.bootStep := rfl
@[simp] theorem State.setTh_cfg (s : State) (t : Thread) : (s.setTh t).cfg = s.cfg := rfl
@[simp] theorem State.setTh_mem (s : State) (t : Thread) : (s.setTh t).mem = s.mem := rfl
@[simp] theorem State.setTh_loc (s : State) (t : Thread) : (s.setTh t).loc = s.loc := rfl
@[simp] theorem State.setTh_keys (s : State) (t : Thread) : (s.setTh t).keys = s.keys := rfl
@[simp] theorem State.setTh_tags (s : State) (t : Thread) : (s.setTh t).tags = s.tags := rfl
@[simp] theorem State.setTh_poison (s : State) (t : Thread) : (s.setTh t).poison = s.poison := rfl
@[simp] theorem State.setTh_bad (s : State) (t : Thread) : (s.setTh t).bad = s.bad := rfl
@[simp] theorem State.setTh_weak (s : State) (t : Thread) : (s.setTh t).weak = s.weak := rfl
@[simp] theorem State.setTh_badLoc (s : State) (t : Thread) : (s.setTh t).badLoc = s.badLoc := rfl
@[simp] theorem State.setTh_icache (s : State) (t : Thread) : (s.setTh t).icache = s.icache := rfl
@[simp] theorem State.setTh_regs (s : State) (t : Thread) : (s.setTh t).regs = s.regs := rfl
@[simp] theorem State.setTh_now (s : State) (t : Thread) : (s.setTh t).now = s.now := rfl
@[simp] theorem State.setTh_locPast (s : State) (t : Thread) : (s.setTh t).locPast = s.locPast := rfl
@[simp] theorem State.setTh_memPast (s : State) (t : Thread) : (s.setTh t).memPast = s.memPast := rfl
@[simp] theorem State.setTh_tlb (s : State) (t : Thread) : (s.setTh t).tlb = s.tlb := rfl
@[simp] theorem State.setTh_walk (s : State) (t : Thread) : (s.setTh t).walk = s.walk := rfl
@[simp] theorem State.setTh_gs (s : State) (t : Thread) : (s.setTh t).gs = s.gs := rfl
@[simp] theorem State.setTh_gd (s : State) (t : Thread) : (s.setTh t).gd = s.gd := rfl
@[simp] theorem State.setTh_genSent (s : State) (t : Thread) : (s.setTh t).genSent = s.genSent := rfl
@[simp] theorem State.setTh_scans (s : State) (t : Thread) : (s.setTh t).scans = s.scans := rfl
@[simp] theorem State.setTh_gangs (s : State) (t : Thread) : (s.setTh t).gangs = s.gangs := rfl
@[simp] theorem State.setTh_ghosts (s : State) (t : Thread) : (s.setTh t).ghosts = s.ghosts := rfl
@[simp] theorem State.setTh_launches (s : State) (t : Thread) : (s.setTh t).launches = s.launches := rfl
@[simp] theorem State.setTh_nextLaunch (s : State) (t : Thread) : (s.setTh t).nextLaunch = s.nextLaunch := rfl
@[simp] theorem State.setTh_completions (s : State) (t : Thread) : (s.setTh t).completions = s.completions := rfl
@[simp] theorem State.setTh_ports (s : State) (t : Thread) : (s.setTh t).ports = s.ports := rfl
@[simp] theorem State.setTh_tenants (s : State) (t : Thread) : (s.setTh t).tenants = s.tenants := rfl
@[simp] theorem State.setTh_reserves (s : State) (t : Thread) : (s.setTh t).reserves = s.reserves := rfl
@[simp] theorem State.setTh_weights (s : State) (t : Thread) : (s.setTh t).weights = s.weights := rfl
@[simp] theorem State.setTh_charges (s : State) (t : Thread) : (s.setTh t).charges = s.charges := rfl
@[simp] theorem State.setTh_landings (s : State) (t : Thread) : (s.setTh t).landings = s.landings := rfl
@[simp] theorem State.setTh_counts (s : State) (t : Thread) : (s.setTh t).counts = s.counts := rfl
@[simp] theorem State.setTh_copyQ (s : State) (t : Thread) : (s.setTh t).copyQ = s.copyQ := rfl
@[simp] theorem State.setTh_units (s : State) (t : Thread) : (s.setTh t).units = s.units := rfl
@[simp] theorem State.setTh_drains (s : State) (t : Thread) : (s.setTh t).drains = s.drains := rfl
@[simp] theorem State.setTh_tableQ (s : State) (t : Thread) : (s.setTh t).tableQ = s.tableQ := rfl
@[simp] theorem State.setTh_nmQ (s : State) (t : Thread) : (s.setTh t).nmQ = s.nmQ := rfl
@[simp] theorem State.setTh_nmus (s : State) (t : Thread) : (s.setTh t).nmus = s.nmus := rfl
@[simp] theorem State.setTh_resumes (s : State) (t : Thread) : (s.setTh t).resumes = s.resumes := rfl
@[simp] theorem State.setTh_loads (s : State) (t : Thread) : (s.setTh t).loads = s.loads := rfl
@[simp] theorem State.setTh_indexes (s : State) (t : Thread) : (s.setTh t).indexes = s.indexes := rfl
@[simp] theorem State.setTh_ixQ (s : State) (t : Thread) : (s.setTh t).ixQ = s.ixQ := rfl
@[simp] theorem State.setTh_ixPaused (s : State) (t : Thread) : (s.setTh t).ixPaused = s.ixPaused := rfl
@[simp] theorem State.setTh_store (s : State) (t : Thread) : (s.setTh t).store = s.store := rfl
@[simp] theorem State.setTh_rings (s : State) (t : Thread) : (s.setTh t).rings = s.rings := rfl
@[simp] theorem State.setTh_usage (s : State) (t : Thread) : (s.setTh t).usage = s.usage := rfl
@[simp] theorem State.setTh_bars (s : State) (t : Thread) : (s.setTh t).bars = s.bars := rfl
@[simp] theorem State.setTh_reportSeq (s : State) (t : Thread) : (s.setTh t).reportSeq = s.reportSeq := rfl
@[simp] theorem State.setTh_epoch (s : State) (t : Thread) : (s.setTh t).epoch = s.epoch := rfl
@[simp] theorem State.setTh_erased (s : State) (t : Thread) : (s.setTh t).erased = s.erased := rfl
@[simp] theorem State.setTh_keyEpoch (s : State) (t : Thread) : (s.setTh t).keyEpoch = s.keyEpoch := rfl
@[simp] theorem State.setTh_quarantined (s : State) (t : Thread) : (s.setTh t).quarantined = s.quarantined := rfl
@[simp] theorem State.setTh_inReset (s : State) (t : Thread) : (s.setTh t).inReset = s.inReset := rfl
@[simp] theorem State.setTh_budgets (s : State) (t : Thread) : (s.setTh t).budgets = s.budgets := rfl
@[simp] theorem State.setTh_nextBudgets (s : State) (t : Thread) : (s.setTh t).nextBudgets = s.nextBudgets := rfl
@[simp] theorem State.setTh_period (s : State) (t : Thread) : (s.setTh t).period = s.period := rfl
@[simp] theorem State.setTh_reply (s : State) (t : Thread) : (s.setTh t).reply = s.reply := rfl
@[simp] theorem State.setTh_replyError (s : State) (t : Thread) : (s.setTh t).replyError = s.replyError := rfl
@[simp] theorem State.setTh_retained (s : State) (t : Thread) : (s.setTh t).retained = s.retained := rfl
@[simp] theorem State.setTh_monel (s : State) (t : Thread) : (s.setTh t).monel = s.monel := rfl

/-! ### setX -/

@[simp] theorem State.setX_others (s : State) (r : Reg) (v : Word) : (s.setX r v).others = s.others := by unfold State.setX; split <;> rfl
@[simp] theorem State.setX_agenda (s : State) (r : Reg) (v : Word) : (s.setX r v).agenda = s.agenda := by unfold State.setX; split <;> rfl
@[simp] theorem State.setX_ev (s : State) (r : Reg) (v : Word) : (s.setX r v).ev = s.ev := by unfold State.setX; split <;> rfl
@[simp] theorem State.setX_nmuAt (s : State) (r : Reg) (v : Word) : (s.setX r v).nmuAt = s.nmuAt := by unfold State.setX; split <;> rfl
@[simp] theorem State.setX_draw (s : State) (r : Reg) (v : Word) : (s.setX r v).draw = s.draw := by unfold State.setX; split <;> rfl
@[simp] theorem State.setX_packets (s : State) (r : Reg) (v : Word) : (s.setX r v).packets = s.packets := by unfold State.setX; split <;> rfl
@[simp] theorem State.setX_clock (s : State) (r : Reg) (v : Word) : (s.setX r v).clock = s.clock := by unfold State.setX; split <;> rfl
@[simp] theorem State.setX_skew (s : State) (r : Reg) (v : Word) : (s.setX r v).skew = s.skew := by unfold State.setX; split <;> rfl
@[simp] theorem State.setX_halted (s : State) (r : Reg) (v : Word) : (s.setX r v).halted = s.halted := by unfold State.setX; split <;> rfl
@[simp] theorem State.setX_bootStep (s : State) (r : Reg) (v : Word) : (s.setX r v).bootStep = s.bootStep := by unfold State.setX; split <;> rfl
@[simp] theorem State.setX_cfg (s : State) (r : Reg) (v : Word) : (s.setX r v).cfg = s.cfg := by unfold State.setX; split <;> rfl
@[simp] theorem State.setX_mem (s : State) (r : Reg) (v : Word) : (s.setX r v).mem = s.mem := by unfold State.setX; split <;> rfl
@[simp] theorem State.setX_loc (s : State) (r : Reg) (v : Word) : (s.setX r v).loc = s.loc := by unfold State.setX; split <;> rfl
@[simp] theorem State.setX_keys (s : State) (r : Reg) (v : Word) : (s.setX r v).keys = s.keys := by unfold State.setX; split <;> rfl
@[simp] theorem State.setX_tags (s : State) (r : Reg) (v : Word) : (s.setX r v).tags = s.tags := by unfold State.setX; split <;> rfl
@[simp] theorem State.setX_poison (s : State) (r : Reg) (v : Word) : (s.setX r v).poison = s.poison := by unfold State.setX; split <;> rfl
@[simp] theorem State.setX_bad (s : State) (r : Reg) (v : Word) : (s.setX r v).bad = s.bad := by unfold State.setX; split <;> rfl
@[simp] theorem State.setX_weak (s : State) (r : Reg) (v : Word) : (s.setX r v).weak = s.weak := by unfold State.setX; split <;> rfl
@[simp] theorem State.setX_badLoc (s : State) (r : Reg) (v : Word) : (s.setX r v).badLoc = s.badLoc := by unfold State.setX; split <;> rfl
@[simp] theorem State.setX_icache (s : State) (r : Reg) (v : Word) : (s.setX r v).icache = s.icache := by unfold State.setX; split <;> rfl
@[simp] theorem State.setX_regs (s : State) (r : Reg) (v : Word) : (s.setX r v).regs = s.regs := by unfold State.setX; split <;> rfl
@[simp] theorem State.setX_now (s : State) (r : Reg) (v : Word) : (s.setX r v).now = s.now := by unfold State.setX; split <;> rfl
@[simp] theorem State.setX_locPast (s : State) (r : Reg) (v : Word) : (s.setX r v).locPast = s.locPast := by unfold State.setX; split <;> rfl
@[simp] theorem State.setX_memPast (s : State) (r : Reg) (v : Word) : (s.setX r v).memPast = s.memPast := by unfold State.setX; split <;> rfl
@[simp] theorem State.setX_tlb (s : State) (r : Reg) (v : Word) : (s.setX r v).tlb = s.tlb := by unfold State.setX; split <;> rfl
@[simp] theorem State.setX_walk (s : State) (r : Reg) (v : Word) : (s.setX r v).walk = s.walk := by unfold State.setX; split <;> rfl
@[simp] theorem State.setX_gs (s : State) (r : Reg) (v : Word) : (s.setX r v).gs = s.gs := by unfold State.setX; split <;> rfl
@[simp] theorem State.setX_gd (s : State) (r : Reg) (v : Word) : (s.setX r v).gd = s.gd := by unfold State.setX; split <;> rfl
@[simp] theorem State.setX_genSent (s : State) (r : Reg) (v : Word) : (s.setX r v).genSent = s.genSent := by unfold State.setX; split <;> rfl
@[simp] theorem State.setX_scans (s : State) (r : Reg) (v : Word) : (s.setX r v).scans = s.scans := by unfold State.setX; split <;> rfl
@[simp] theorem State.setX_gangs (s : State) (r : Reg) (v : Word) : (s.setX r v).gangs = s.gangs := by unfold State.setX; split <;> rfl
@[simp] theorem State.setX_ghosts (s : State) (r : Reg) (v : Word) : (s.setX r v).ghosts = s.ghosts := by unfold State.setX; split <;> rfl
@[simp] theorem State.setX_launches (s : State) (r : Reg) (v : Word) : (s.setX r v).launches = s.launches := by unfold State.setX; split <;> rfl
@[simp] theorem State.setX_nextLaunch (s : State) (r : Reg) (v : Word) : (s.setX r v).nextLaunch = s.nextLaunch := by unfold State.setX; split <;> rfl
@[simp] theorem State.setX_completions (s : State) (r : Reg) (v : Word) : (s.setX r v).completions = s.completions := by unfold State.setX; split <;> rfl
@[simp] theorem State.setX_ports (s : State) (r : Reg) (v : Word) : (s.setX r v).ports = s.ports := by unfold State.setX; split <;> rfl
@[simp] theorem State.setX_tenants (s : State) (r : Reg) (v : Word) : (s.setX r v).tenants = s.tenants := by unfold State.setX; split <;> rfl
@[simp] theorem State.setX_reserves (s : State) (r : Reg) (v : Word) : (s.setX r v).reserves = s.reserves := by unfold State.setX; split <;> rfl
@[simp] theorem State.setX_weights (s : State) (r : Reg) (v : Word) : (s.setX r v).weights = s.weights := by unfold State.setX; split <;> rfl
@[simp] theorem State.setX_charges (s : State) (r : Reg) (v : Word) : (s.setX r v).charges = s.charges := by unfold State.setX; split <;> rfl
@[simp] theorem State.setX_landings (s : State) (r : Reg) (v : Word) : (s.setX r v).landings = s.landings := by unfold State.setX; split <;> rfl
@[simp] theorem State.setX_counts (s : State) (r : Reg) (v : Word) : (s.setX r v).counts = s.counts := by unfold State.setX; split <;> rfl
@[simp] theorem State.setX_copyQ (s : State) (r : Reg) (v : Word) : (s.setX r v).copyQ = s.copyQ := by unfold State.setX; split <;> rfl
@[simp] theorem State.setX_units (s : State) (r : Reg) (v : Word) : (s.setX r v).units = s.units := by unfold State.setX; split <;> rfl
@[simp] theorem State.setX_drains (s : State) (r : Reg) (v : Word) : (s.setX r v).drains = s.drains := by unfold State.setX; split <;> rfl
@[simp] theorem State.setX_tableQ (s : State) (r : Reg) (v : Word) : (s.setX r v).tableQ = s.tableQ := by unfold State.setX; split <;> rfl
@[simp] theorem State.setX_nmQ (s : State) (r : Reg) (v : Word) : (s.setX r v).nmQ = s.nmQ := by unfold State.setX; split <;> rfl
@[simp] theorem State.setX_nmus (s : State) (r : Reg) (v : Word) : (s.setX r v).nmus = s.nmus := by unfold State.setX; split <;> rfl
@[simp] theorem State.setX_resumes (s : State) (r : Reg) (v : Word) : (s.setX r v).resumes = s.resumes := by unfold State.setX; split <;> rfl
@[simp] theorem State.setX_loads (s : State) (r : Reg) (v : Word) : (s.setX r v).loads = s.loads := by unfold State.setX; split <;> rfl
@[simp] theorem State.setX_indexes (s : State) (r : Reg) (v : Word) : (s.setX r v).indexes = s.indexes := by unfold State.setX; split <;> rfl
@[simp] theorem State.setX_ixQ (s : State) (r : Reg) (v : Word) : (s.setX r v).ixQ = s.ixQ := by unfold State.setX; split <;> rfl
@[simp] theorem State.setX_ixPaused (s : State) (r : Reg) (v : Word) : (s.setX r v).ixPaused = s.ixPaused := by unfold State.setX; split <;> rfl
@[simp] theorem State.setX_store (s : State) (r : Reg) (v : Word) : (s.setX r v).store = s.store := by unfold State.setX; split <;> rfl
@[simp] theorem State.setX_rings (s : State) (r : Reg) (v : Word) : (s.setX r v).rings = s.rings := by unfold State.setX; split <;> rfl
@[simp] theorem State.setX_usage (s : State) (r : Reg) (v : Word) : (s.setX r v).usage = s.usage := by unfold State.setX; split <;> rfl
@[simp] theorem State.setX_bars (s : State) (r : Reg) (v : Word) : (s.setX r v).bars = s.bars := by unfold State.setX; split <;> rfl
@[simp] theorem State.setX_reportSeq (s : State) (r : Reg) (v : Word) : (s.setX r v).reportSeq = s.reportSeq := by unfold State.setX; split <;> rfl
@[simp] theorem State.setX_epoch (s : State) (r : Reg) (v : Word) : (s.setX r v).epoch = s.epoch := by unfold State.setX; split <;> rfl
@[simp] theorem State.setX_erased (s : State) (r : Reg) (v : Word) : (s.setX r v).erased = s.erased := by unfold State.setX; split <;> rfl
@[simp] theorem State.setX_keyEpoch (s : State) (r : Reg) (v : Word) : (s.setX r v).keyEpoch = s.keyEpoch := by unfold State.setX; split <;> rfl
@[simp] theorem State.setX_quarantined (s : State) (r : Reg) (v : Word) : (s.setX r v).quarantined = s.quarantined := by unfold State.setX; split <;> rfl
@[simp] theorem State.setX_inReset (s : State) (r : Reg) (v : Word) : (s.setX r v).inReset = s.inReset := by unfold State.setX; split <;> rfl
@[simp] theorem State.setX_budgets (s : State) (r : Reg) (v : Word) : (s.setX r v).budgets = s.budgets := by unfold State.setX; split <;> rfl
@[simp] theorem State.setX_nextBudgets (s : State) (r : Reg) (v : Word) : (s.setX r v).nextBudgets = s.nextBudgets := by unfold State.setX; split <;> rfl
@[simp] theorem State.setX_period (s : State) (r : Reg) (v : Word) : (s.setX r v).period = s.period := by unfold State.setX; split <;> rfl
@[simp] theorem State.setX_reply (s : State) (r : Reg) (v : Word) : (s.setX r v).reply = s.reply := by unfold State.setX; split <;> rfl
@[simp] theorem State.setX_replyError (s : State) (r : Reg) (v : Word) : (s.setX r v).replyError = s.replyError := by unfold State.setX; split <;> rfl
@[simp] theorem State.setX_retained (s : State) (r : Reg) (v : Word) : (s.setX r v).retained = s.retained := by unfold State.setX; split <;> rfl
@[simp] theorem State.setX_monel (s : State) (r : Reg) (v : Word) : (s.setX r v).monel = s.monel := by unfold State.setX; split <;> rfl

/-! ### setF -/

@[simp] theorem State.setF_others (s : State) (r : Reg) (v : LaneReg) : (s.setF r v).others = s.others := rfl
@[simp] theorem State.setF_agenda (s : State) (r : Reg) (v : LaneReg) : (s.setF r v).agenda = s.agenda := rfl
@[simp] theorem State.setF_ev (s : State) (r : Reg) (v : LaneReg) : (s.setF r v).ev = s.ev := rfl
@[simp] theorem State.setF_nmuAt (s : State) (r : Reg) (v : LaneReg) : (s.setF r v).nmuAt = s.nmuAt := rfl
@[simp] theorem State.setF_draw (s : State) (r : Reg) (v : LaneReg) : (s.setF r v).draw = s.draw := rfl
@[simp] theorem State.setF_packets (s : State) (r : Reg) (v : LaneReg) : (s.setF r v).packets = s.packets := rfl
@[simp] theorem State.setF_clock (s : State) (r : Reg) (v : LaneReg) : (s.setF r v).clock = s.clock := rfl
@[simp] theorem State.setF_skew (s : State) (r : Reg) (v : LaneReg) : (s.setF r v).skew = s.skew := rfl
@[simp] theorem State.setF_halted (s : State) (r : Reg) (v : LaneReg) : (s.setF r v).halted = s.halted := rfl
@[simp] theorem State.setF_bootStep (s : State) (r : Reg) (v : LaneReg) : (s.setF r v).bootStep = s.bootStep := rfl
@[simp] theorem State.setF_cfg (s : State) (r : Reg) (v : LaneReg) : (s.setF r v).cfg = s.cfg := rfl
@[simp] theorem State.setF_mem (s : State) (r : Reg) (v : LaneReg) : (s.setF r v).mem = s.mem := rfl
@[simp] theorem State.setF_loc (s : State) (r : Reg) (v : LaneReg) : (s.setF r v).loc = s.loc := rfl
@[simp] theorem State.setF_keys (s : State) (r : Reg) (v : LaneReg) : (s.setF r v).keys = s.keys := rfl
@[simp] theorem State.setF_tags (s : State) (r : Reg) (v : LaneReg) : (s.setF r v).tags = s.tags := rfl
@[simp] theorem State.setF_poison (s : State) (r : Reg) (v : LaneReg) : (s.setF r v).poison = s.poison := rfl
@[simp] theorem State.setF_bad (s : State) (r : Reg) (v : LaneReg) : (s.setF r v).bad = s.bad := rfl
@[simp] theorem State.setF_weak (s : State) (r : Reg) (v : LaneReg) : (s.setF r v).weak = s.weak := rfl
@[simp] theorem State.setF_badLoc (s : State) (r : Reg) (v : LaneReg) : (s.setF r v).badLoc = s.badLoc := rfl
@[simp] theorem State.setF_icache (s : State) (r : Reg) (v : LaneReg) : (s.setF r v).icache = s.icache := rfl
@[simp] theorem State.setF_regs (s : State) (r : Reg) (v : LaneReg) : (s.setF r v).regs = s.regs := rfl
@[simp] theorem State.setF_now (s : State) (r : Reg) (v : LaneReg) : (s.setF r v).now = s.now := rfl
@[simp] theorem State.setF_locPast (s : State) (r : Reg) (v : LaneReg) : (s.setF r v).locPast = s.locPast := rfl
@[simp] theorem State.setF_memPast (s : State) (r : Reg) (v : LaneReg) : (s.setF r v).memPast = s.memPast := rfl
@[simp] theorem State.setF_tlb (s : State) (r : Reg) (v : LaneReg) : (s.setF r v).tlb = s.tlb := rfl
@[simp] theorem State.setF_walk (s : State) (r : Reg) (v : LaneReg) : (s.setF r v).walk = s.walk := rfl
@[simp] theorem State.setF_gs (s : State) (r : Reg) (v : LaneReg) : (s.setF r v).gs = s.gs := rfl
@[simp] theorem State.setF_gd (s : State) (r : Reg) (v : LaneReg) : (s.setF r v).gd = s.gd := rfl
@[simp] theorem State.setF_genSent (s : State) (r : Reg) (v : LaneReg) : (s.setF r v).genSent = s.genSent := rfl
@[simp] theorem State.setF_scans (s : State) (r : Reg) (v : LaneReg) : (s.setF r v).scans = s.scans := rfl
@[simp] theorem State.setF_gangs (s : State) (r : Reg) (v : LaneReg) : (s.setF r v).gangs = s.gangs := rfl
@[simp] theorem State.setF_ghosts (s : State) (r : Reg) (v : LaneReg) : (s.setF r v).ghosts = s.ghosts := rfl
@[simp] theorem State.setF_launches (s : State) (r : Reg) (v : LaneReg) : (s.setF r v).launches = s.launches := rfl
@[simp] theorem State.setF_nextLaunch (s : State) (r : Reg) (v : LaneReg) : (s.setF r v).nextLaunch = s.nextLaunch := rfl
@[simp] theorem State.setF_completions (s : State) (r : Reg) (v : LaneReg) : (s.setF r v).completions = s.completions := rfl
@[simp] theorem State.setF_ports (s : State) (r : Reg) (v : LaneReg) : (s.setF r v).ports = s.ports := rfl
@[simp] theorem State.setF_tenants (s : State) (r : Reg) (v : LaneReg) : (s.setF r v).tenants = s.tenants := rfl
@[simp] theorem State.setF_reserves (s : State) (r : Reg) (v : LaneReg) : (s.setF r v).reserves = s.reserves := rfl
@[simp] theorem State.setF_weights (s : State) (r : Reg) (v : LaneReg) : (s.setF r v).weights = s.weights := rfl
@[simp] theorem State.setF_charges (s : State) (r : Reg) (v : LaneReg) : (s.setF r v).charges = s.charges := rfl
@[simp] theorem State.setF_landings (s : State) (r : Reg) (v : LaneReg) : (s.setF r v).landings = s.landings := rfl
@[simp] theorem State.setF_counts (s : State) (r : Reg) (v : LaneReg) : (s.setF r v).counts = s.counts := rfl
@[simp] theorem State.setF_copyQ (s : State) (r : Reg) (v : LaneReg) : (s.setF r v).copyQ = s.copyQ := rfl
@[simp] theorem State.setF_units (s : State) (r : Reg) (v : LaneReg) : (s.setF r v).units = s.units := rfl
@[simp] theorem State.setF_drains (s : State) (r : Reg) (v : LaneReg) : (s.setF r v).drains = s.drains := rfl
@[simp] theorem State.setF_tableQ (s : State) (r : Reg) (v : LaneReg) : (s.setF r v).tableQ = s.tableQ := rfl
@[simp] theorem State.setF_nmQ (s : State) (r : Reg) (v : LaneReg) : (s.setF r v).nmQ = s.nmQ := rfl
@[simp] theorem State.setF_nmus (s : State) (r : Reg) (v : LaneReg) : (s.setF r v).nmus = s.nmus := rfl
@[simp] theorem State.setF_resumes (s : State) (r : Reg) (v : LaneReg) : (s.setF r v).resumes = s.resumes := rfl
@[simp] theorem State.setF_loads (s : State) (r : Reg) (v : LaneReg) : (s.setF r v).loads = s.loads := rfl
@[simp] theorem State.setF_indexes (s : State) (r : Reg) (v : LaneReg) : (s.setF r v).indexes = s.indexes := rfl
@[simp] theorem State.setF_ixQ (s : State) (r : Reg) (v : LaneReg) : (s.setF r v).ixQ = s.ixQ := rfl
@[simp] theorem State.setF_ixPaused (s : State) (r : Reg) (v : LaneReg) : (s.setF r v).ixPaused = s.ixPaused := rfl
@[simp] theorem State.setF_store (s : State) (r : Reg) (v : LaneReg) : (s.setF r v).store = s.store := rfl
@[simp] theorem State.setF_rings (s : State) (r : Reg) (v : LaneReg) : (s.setF r v).rings = s.rings := rfl
@[simp] theorem State.setF_usage (s : State) (r : Reg) (v : LaneReg) : (s.setF r v).usage = s.usage := rfl
@[simp] theorem State.setF_bars (s : State) (r : Reg) (v : LaneReg) : (s.setF r v).bars = s.bars := rfl
@[simp] theorem State.setF_reportSeq (s : State) (r : Reg) (v : LaneReg) : (s.setF r v).reportSeq = s.reportSeq := rfl
@[simp] theorem State.setF_epoch (s : State) (r : Reg) (v : LaneReg) : (s.setF r v).epoch = s.epoch := rfl
@[simp] theorem State.setF_erased (s : State) (r : Reg) (v : LaneReg) : (s.setF r v).erased = s.erased := rfl
@[simp] theorem State.setF_keyEpoch (s : State) (r : Reg) (v : LaneReg) : (s.setF r v).keyEpoch = s.keyEpoch := rfl
@[simp] theorem State.setF_quarantined (s : State) (r : Reg) (v : LaneReg) : (s.setF r v).quarantined = s.quarantined := rfl
@[simp] theorem State.setF_inReset (s : State) (r : Reg) (v : LaneReg) : (s.setF r v).inReset = s.inReset := rfl
@[simp] theorem State.setF_budgets (s : State) (r : Reg) (v : LaneReg) : (s.setF r v).budgets = s.budgets := rfl
@[simp] theorem State.setF_nextBudgets (s : State) (r : Reg) (v : LaneReg) : (s.setF r v).nextBudgets = s.nextBudgets := rfl
@[simp] theorem State.setF_period (s : State) (r : Reg) (v : LaneReg) : (s.setF r v).period = s.period := rfl
@[simp] theorem State.setF_reply (s : State) (r : Reg) (v : LaneReg) : (s.setF r v).reply = s.reply := rfl
@[simp] theorem State.setF_replyError (s : State) (r : Reg) (v : LaneReg) : (s.setF r v).replyError = s.replyError := rfl
@[simp] theorem State.setF_retained (s : State) (r : Reg) (v : LaneReg) : (s.setF r v).retained = s.retained := rfl
@[simp] theorem State.setF_monel (s : State) (r : Reg) (v : LaneReg) : (s.setF r v).monel = s.monel := rfl

/-! ### raise -/

@[simp] theorem State.raise_others (s : State) (f : Flags) : (s.raise f).others = s.others := rfl
@[simp] theorem State.raise_agenda (s : State) (f : Flags) : (s.raise f).agenda = s.agenda := rfl
@[simp] theorem State.raise_ev (s : State) (f : Flags) : (s.raise f).ev = s.ev := rfl
@[simp] theorem State.raise_nmuAt (s : State) (f : Flags) : (s.raise f).nmuAt = s.nmuAt := rfl
@[simp] theorem State.raise_draw (s : State) (f : Flags) : (s.raise f).draw = s.draw := rfl
@[simp] theorem State.raise_packets (s : State) (f : Flags) : (s.raise f).packets = s.packets := rfl
@[simp] theorem State.raise_clock (s : State) (f : Flags) : (s.raise f).clock = s.clock := rfl
@[simp] theorem State.raise_skew (s : State) (f : Flags) : (s.raise f).skew = s.skew := rfl
@[simp] theorem State.raise_halted (s : State) (f : Flags) : (s.raise f).halted = s.halted := rfl
@[simp] theorem State.raise_bootStep (s : State) (f : Flags) : (s.raise f).bootStep = s.bootStep := rfl
@[simp] theorem State.raise_cfg (s : State) (f : Flags) : (s.raise f).cfg = s.cfg := rfl
@[simp] theorem State.raise_mem (s : State) (f : Flags) : (s.raise f).mem = s.mem := rfl
@[simp] theorem State.raise_loc (s : State) (f : Flags) : (s.raise f).loc = s.loc := rfl
@[simp] theorem State.raise_keys (s : State) (f : Flags) : (s.raise f).keys = s.keys := rfl
@[simp] theorem State.raise_tags (s : State) (f : Flags) : (s.raise f).tags = s.tags := rfl
@[simp] theorem State.raise_poison (s : State) (f : Flags) : (s.raise f).poison = s.poison := rfl
@[simp] theorem State.raise_bad (s : State) (f : Flags) : (s.raise f).bad = s.bad := rfl
@[simp] theorem State.raise_weak (s : State) (f : Flags) : (s.raise f).weak = s.weak := rfl
@[simp] theorem State.raise_badLoc (s : State) (f : Flags) : (s.raise f).badLoc = s.badLoc := rfl
@[simp] theorem State.raise_icache (s : State) (f : Flags) : (s.raise f).icache = s.icache := rfl
@[simp] theorem State.raise_regs (s : State) (f : Flags) : (s.raise f).regs = s.regs := rfl
@[simp] theorem State.raise_now (s : State) (f : Flags) : (s.raise f).now = s.now := rfl
@[simp] theorem State.raise_locPast (s : State) (f : Flags) : (s.raise f).locPast = s.locPast := rfl
@[simp] theorem State.raise_memPast (s : State) (f : Flags) : (s.raise f).memPast = s.memPast := rfl
@[simp] theorem State.raise_tlb (s : State) (f : Flags) : (s.raise f).tlb = s.tlb := rfl
@[simp] theorem State.raise_walk (s : State) (f : Flags) : (s.raise f).walk = s.walk := rfl
@[simp] theorem State.raise_gs (s : State) (f : Flags) : (s.raise f).gs = s.gs := rfl
@[simp] theorem State.raise_gd (s : State) (f : Flags) : (s.raise f).gd = s.gd := rfl
@[simp] theorem State.raise_genSent (s : State) (f : Flags) : (s.raise f).genSent = s.genSent := rfl
@[simp] theorem State.raise_scans (s : State) (f : Flags) : (s.raise f).scans = s.scans := rfl
@[simp] theorem State.raise_gangs (s : State) (f : Flags) : (s.raise f).gangs = s.gangs := rfl
@[simp] theorem State.raise_ghosts (s : State) (f : Flags) : (s.raise f).ghosts = s.ghosts := rfl
@[simp] theorem State.raise_launches (s : State) (f : Flags) : (s.raise f).launches = s.launches := rfl
@[simp] theorem State.raise_nextLaunch (s : State) (f : Flags) : (s.raise f).nextLaunch = s.nextLaunch := rfl
@[simp] theorem State.raise_completions (s : State) (f : Flags) : (s.raise f).completions = s.completions := rfl
@[simp] theorem State.raise_ports (s : State) (f : Flags) : (s.raise f).ports = s.ports := rfl
@[simp] theorem State.raise_tenants (s : State) (f : Flags) : (s.raise f).tenants = s.tenants := rfl
@[simp] theorem State.raise_reserves (s : State) (f : Flags) : (s.raise f).reserves = s.reserves := rfl
@[simp] theorem State.raise_weights (s : State) (f : Flags) : (s.raise f).weights = s.weights := rfl
@[simp] theorem State.raise_charges (s : State) (f : Flags) : (s.raise f).charges = s.charges := rfl
@[simp] theorem State.raise_landings (s : State) (f : Flags) : (s.raise f).landings = s.landings := rfl
@[simp] theorem State.raise_counts (s : State) (f : Flags) : (s.raise f).counts = s.counts := rfl
@[simp] theorem State.raise_copyQ (s : State) (f : Flags) : (s.raise f).copyQ = s.copyQ := rfl
@[simp] theorem State.raise_units (s : State) (f : Flags) : (s.raise f).units = s.units := rfl
@[simp] theorem State.raise_drains (s : State) (f : Flags) : (s.raise f).drains = s.drains := rfl
@[simp] theorem State.raise_tableQ (s : State) (f : Flags) : (s.raise f).tableQ = s.tableQ := rfl
@[simp] theorem State.raise_nmQ (s : State) (f : Flags) : (s.raise f).nmQ = s.nmQ := rfl
@[simp] theorem State.raise_nmus (s : State) (f : Flags) : (s.raise f).nmus = s.nmus := rfl
@[simp] theorem State.raise_resumes (s : State) (f : Flags) : (s.raise f).resumes = s.resumes := rfl
@[simp] theorem State.raise_loads (s : State) (f : Flags) : (s.raise f).loads = s.loads := rfl
@[simp] theorem State.raise_indexes (s : State) (f : Flags) : (s.raise f).indexes = s.indexes := rfl
@[simp] theorem State.raise_ixQ (s : State) (f : Flags) : (s.raise f).ixQ = s.ixQ := rfl
@[simp] theorem State.raise_ixPaused (s : State) (f : Flags) : (s.raise f).ixPaused = s.ixPaused := rfl
@[simp] theorem State.raise_store (s : State) (f : Flags) : (s.raise f).store = s.store := rfl
@[simp] theorem State.raise_rings (s : State) (f : Flags) : (s.raise f).rings = s.rings := rfl
@[simp] theorem State.raise_usage (s : State) (f : Flags) : (s.raise f).usage = s.usage := rfl
@[simp] theorem State.raise_bars (s : State) (f : Flags) : (s.raise f).bars = s.bars := rfl
@[simp] theorem State.raise_reportSeq (s : State) (f : Flags) : (s.raise f).reportSeq = s.reportSeq := rfl
@[simp] theorem State.raise_epoch (s : State) (f : Flags) : (s.raise f).epoch = s.epoch := rfl
@[simp] theorem State.raise_erased (s : State) (f : Flags) : (s.raise f).erased = s.erased := rfl
@[simp] theorem State.raise_keyEpoch (s : State) (f : Flags) : (s.raise f).keyEpoch = s.keyEpoch := rfl
@[simp] theorem State.raise_quarantined (s : State) (f : Flags) : (s.raise f).quarantined = s.quarantined := rfl
@[simp] theorem State.raise_inReset (s : State) (f : Flags) : (s.raise f).inReset = s.inReset := rfl
@[simp] theorem State.raise_budgets (s : State) (f : Flags) : (s.raise f).budgets = s.budgets := rfl
@[simp] theorem State.raise_nextBudgets (s : State) (f : Flags) : (s.raise f).nextBudgets = s.nextBudgets := rfl
@[simp] theorem State.raise_period (s : State) (f : Flags) : (s.raise f).period = s.period := rfl
@[simp] theorem State.raise_reply (s : State) (f : Flags) : (s.raise f).reply = s.reply := rfl
@[simp] theorem State.raise_replyError (s : State) (f : Flags) : (s.raise f).replyError = s.replyError := rfl
@[simp] theorem State.raise_retained (s : State) (f : Flags) : (s.raise f).retained = s.retained := rfl
@[simp] theorem State.raise_monel (s : State) (f : Flags) : (s.raise f).monel = s.monel := rfl

/-! ### stall -/

@[simp] theorem State.stall_others (s : State) : (s.stall).others = s.others := rfl
@[simp] theorem State.stall_agenda (s : State) : (s.stall).agenda = s.agenda := rfl
@[simp] theorem State.stall_ev (s : State) : (s.stall).ev = s.ev := rfl
@[simp] theorem State.stall_nmuAt (s : State) : (s.stall).nmuAt = s.nmuAt := rfl
@[simp] theorem State.stall_draw (s : State) : (s.stall).draw = s.draw := rfl
@[simp] theorem State.stall_packets (s : State) : (s.stall).packets = s.packets := rfl
@[simp] theorem State.stall_clock (s : State) : (s.stall).clock = s.clock := rfl
@[simp] theorem State.stall_skew (s : State) : (s.stall).skew = s.skew := rfl
@[simp] theorem State.stall_halted (s : State) : (s.stall).halted = s.halted := rfl
@[simp] theorem State.stall_bootStep (s : State) : (s.stall).bootStep = s.bootStep := rfl
@[simp] theorem State.stall_cfg (s : State) : (s.stall).cfg = s.cfg := rfl
@[simp] theorem State.stall_mem (s : State) : (s.stall).mem = s.mem := rfl
@[simp] theorem State.stall_loc (s : State) : (s.stall).loc = s.loc := rfl
@[simp] theorem State.stall_keys (s : State) : (s.stall).keys = s.keys := rfl
@[simp] theorem State.stall_tags (s : State) : (s.stall).tags = s.tags := rfl
@[simp] theorem State.stall_poison (s : State) : (s.stall).poison = s.poison := rfl
@[simp] theorem State.stall_bad (s : State) : (s.stall).bad = s.bad := rfl
@[simp] theorem State.stall_weak (s : State) : (s.stall).weak = s.weak := rfl
@[simp] theorem State.stall_badLoc (s : State) : (s.stall).badLoc = s.badLoc := rfl
@[simp] theorem State.stall_icache (s : State) : (s.stall).icache = s.icache := rfl
@[simp] theorem State.stall_regs (s : State) : (s.stall).regs = s.regs := rfl
@[simp] theorem State.stall_now (s : State) : (s.stall).now = s.now := rfl
@[simp] theorem State.stall_locPast (s : State) : (s.stall).locPast = s.locPast := rfl
@[simp] theorem State.stall_memPast (s : State) : (s.stall).memPast = s.memPast := rfl
@[simp] theorem State.stall_tlb (s : State) : (s.stall).tlb = s.tlb := rfl
@[simp] theorem State.stall_walk (s : State) : (s.stall).walk = s.walk := rfl
@[simp] theorem State.stall_gs (s : State) : (s.stall).gs = s.gs := rfl
@[simp] theorem State.stall_gd (s : State) : (s.stall).gd = s.gd := rfl
@[simp] theorem State.stall_genSent (s : State) : (s.stall).genSent = s.genSent := rfl
@[simp] theorem State.stall_scans (s : State) : (s.stall).scans = s.scans := rfl
@[simp] theorem State.stall_gangs (s : State) : (s.stall).gangs = s.gangs := rfl
@[simp] theorem State.stall_ghosts (s : State) : (s.stall).ghosts = s.ghosts := rfl
@[simp] theorem State.stall_launches (s : State) : (s.stall).launches = s.launches := rfl
@[simp] theorem State.stall_nextLaunch (s : State) : (s.stall).nextLaunch = s.nextLaunch := rfl
@[simp] theorem State.stall_completions (s : State) : (s.stall).completions = s.completions := rfl
@[simp] theorem State.stall_ports (s : State) : (s.stall).ports = s.ports := rfl
@[simp] theorem State.stall_tenants (s : State) : (s.stall).tenants = s.tenants := rfl
@[simp] theorem State.stall_reserves (s : State) : (s.stall).reserves = s.reserves := rfl
@[simp] theorem State.stall_weights (s : State) : (s.stall).weights = s.weights := rfl
@[simp] theorem State.stall_charges (s : State) : (s.stall).charges = s.charges := rfl
@[simp] theorem State.stall_landings (s : State) : (s.stall).landings = s.landings := rfl
@[simp] theorem State.stall_counts (s : State) : (s.stall).counts = s.counts := rfl
@[simp] theorem State.stall_copyQ (s : State) : (s.stall).copyQ = s.copyQ := rfl
@[simp] theorem State.stall_units (s : State) : (s.stall).units = s.units := rfl
@[simp] theorem State.stall_drains (s : State) : (s.stall).drains = s.drains := rfl
@[simp] theorem State.stall_tableQ (s : State) : (s.stall).tableQ = s.tableQ := rfl
@[simp] theorem State.stall_nmQ (s : State) : (s.stall).nmQ = s.nmQ := rfl
@[simp] theorem State.stall_nmus (s : State) : (s.stall).nmus = s.nmus := rfl
@[simp] theorem State.stall_resumes (s : State) : (s.stall).resumes = s.resumes := rfl
@[simp] theorem State.stall_loads (s : State) : (s.stall).loads = s.loads := rfl
@[simp] theorem State.stall_indexes (s : State) : (s.stall).indexes = s.indexes := rfl
@[simp] theorem State.stall_ixQ (s : State) : (s.stall).ixQ = s.ixQ := rfl
@[simp] theorem State.stall_ixPaused (s : State) : (s.stall).ixPaused = s.ixPaused := rfl
@[simp] theorem State.stall_store (s : State) : (s.stall).store = s.store := rfl
@[simp] theorem State.stall_rings (s : State) : (s.stall).rings = s.rings := rfl
@[simp] theorem State.stall_usage (s : State) : (s.stall).usage = s.usage := rfl
@[simp] theorem State.stall_bars (s : State) : (s.stall).bars = s.bars := rfl
@[simp] theorem State.stall_reportSeq (s : State) : (s.stall).reportSeq = s.reportSeq := rfl
@[simp] theorem State.stall_epoch (s : State) : (s.stall).epoch = s.epoch := rfl
@[simp] theorem State.stall_erased (s : State) : (s.stall).erased = s.erased := rfl
@[simp] theorem State.stall_keyEpoch (s : State) : (s.stall).keyEpoch = s.keyEpoch := rfl
@[simp] theorem State.stall_quarantined (s : State) : (s.stall).quarantined = s.quarantined := rfl
@[simp] theorem State.stall_inReset (s : State) : (s.stall).inReset = s.inReset := rfl
@[simp] theorem State.stall_budgets (s : State) : (s.stall).budgets = s.budgets := rfl
@[simp] theorem State.stall_nextBudgets (s : State) : (s.stall).nextBudgets = s.nextBudgets := rfl
@[simp] theorem State.stall_period (s : State) : (s.stall).period = s.period := rfl
@[simp] theorem State.stall_reply (s : State) : (s.stall).reply = s.reply := rfl
@[simp] theorem State.stall_replyError (s : State) : (s.stall).replyError = s.replyError := rfl
@[simp] theorem State.stall_retained (s : State) : (s.stall).retained = s.retained := rfl
@[simp] theorem State.stall_monel (s : State) : (s.stall).monel = s.monel := rfl

/-! ### inRelease -/

@[simp] theorem State.inRelease_others (s : State) (o : Order) : (s.inRelease o).others = s.others := rfl
@[simp] theorem State.inRelease_agenda (s : State) (o : Order) : (s.inRelease o).agenda = s.agenda := rfl
@[simp] theorem State.inRelease_ev (s : State) (o : Order) : (s.inRelease o).ev = s.ev := rfl
@[simp] theorem State.inRelease_nmuAt (s : State) (o : Order) : (s.inRelease o).nmuAt = s.nmuAt := rfl
@[simp] theorem State.inRelease_draw (s : State) (o : Order) : (s.inRelease o).draw = s.draw := rfl
@[simp] theorem State.inRelease_packets (s : State) (o : Order) : (s.inRelease o).packets = s.packets := rfl
@[simp] theorem State.inRelease_clock (s : State) (o : Order) : (s.inRelease o).clock = s.clock := rfl
@[simp] theorem State.inRelease_skew (s : State) (o : Order) : (s.inRelease o).skew = s.skew := rfl
@[simp] theorem State.inRelease_halted (s : State) (o : Order) : (s.inRelease o).halted = s.halted := rfl
@[simp] theorem State.inRelease_bootStep (s : State) (o : Order) : (s.inRelease o).bootStep = s.bootStep := rfl
@[simp] theorem State.inRelease_cfg (s : State) (o : Order) : (s.inRelease o).cfg = s.cfg := rfl
@[simp] theorem State.inRelease_mem (s : State) (o : Order) : (s.inRelease o).mem = s.mem := rfl
@[simp] theorem State.inRelease_loc (s : State) (o : Order) : (s.inRelease o).loc = s.loc := rfl
@[simp] theorem State.inRelease_keys (s : State) (o : Order) : (s.inRelease o).keys = s.keys := rfl
@[simp] theorem State.inRelease_tags (s : State) (o : Order) : (s.inRelease o).tags = s.tags := rfl
@[simp] theorem State.inRelease_poison (s : State) (o : Order) : (s.inRelease o).poison = s.poison := rfl
@[simp] theorem State.inRelease_bad (s : State) (o : Order) : (s.inRelease o).bad = s.bad := rfl
@[simp] theorem State.inRelease_weak (s : State) (o : Order) : (s.inRelease o).weak = s.weak := rfl
@[simp] theorem State.inRelease_badLoc (s : State) (o : Order) : (s.inRelease o).badLoc = s.badLoc := rfl
@[simp] theorem State.inRelease_icache (s : State) (o : Order) : (s.inRelease o).icache = s.icache := rfl
@[simp] theorem State.inRelease_regs (s : State) (o : Order) : (s.inRelease o).regs = s.regs := rfl
@[simp] theorem State.inRelease_now (s : State) (o : Order) : (s.inRelease o).now = s.now := rfl
@[simp] theorem State.inRelease_locPast (s : State) (o : Order) : (s.inRelease o).locPast = s.locPast := rfl
@[simp] theorem State.inRelease_memPast (s : State) (o : Order) : (s.inRelease o).memPast = s.memPast := rfl
@[simp] theorem State.inRelease_tlb (s : State) (o : Order) : (s.inRelease o).tlb = s.tlb := rfl
@[simp] theorem State.inRelease_walk (s : State) (o : Order) : (s.inRelease o).walk = s.walk := rfl
@[simp] theorem State.inRelease_gs (s : State) (o : Order) : (s.inRelease o).gs = s.gs := rfl
@[simp] theorem State.inRelease_gd (s : State) (o : Order) : (s.inRelease o).gd = s.gd := rfl
@[simp] theorem State.inRelease_genSent (s : State) (o : Order) : (s.inRelease o).genSent = s.genSent := rfl
@[simp] theorem State.inRelease_scans (s : State) (o : Order) : (s.inRelease o).scans = s.scans := rfl
@[simp] theorem State.inRelease_gangs (s : State) (o : Order) : (s.inRelease o).gangs = s.gangs := rfl
@[simp] theorem State.inRelease_ghosts (s : State) (o : Order) : (s.inRelease o).ghosts = s.ghosts := rfl
@[simp] theorem State.inRelease_launches (s : State) (o : Order) : (s.inRelease o).launches = s.launches := rfl
@[simp] theorem State.inRelease_nextLaunch (s : State) (o : Order) : (s.inRelease o).nextLaunch = s.nextLaunch := rfl
@[simp] theorem State.inRelease_completions (s : State) (o : Order) : (s.inRelease o).completions = s.completions := rfl
@[simp] theorem State.inRelease_ports (s : State) (o : Order) : (s.inRelease o).ports = s.ports := rfl
@[simp] theorem State.inRelease_tenants (s : State) (o : Order) : (s.inRelease o).tenants = s.tenants := rfl
@[simp] theorem State.inRelease_reserves (s : State) (o : Order) : (s.inRelease o).reserves = s.reserves := rfl
@[simp] theorem State.inRelease_weights (s : State) (o : Order) : (s.inRelease o).weights = s.weights := rfl
@[simp] theorem State.inRelease_charges (s : State) (o : Order) : (s.inRelease o).charges = s.charges := rfl
@[simp] theorem State.inRelease_landings (s : State) (o : Order) : (s.inRelease o).landings = s.landings := rfl
@[simp] theorem State.inRelease_counts (s : State) (o : Order) : (s.inRelease o).counts = s.counts := rfl
@[simp] theorem State.inRelease_copyQ (s : State) (o : Order) : (s.inRelease o).copyQ = s.copyQ := rfl
@[simp] theorem State.inRelease_units (s : State) (o : Order) : (s.inRelease o).units = s.units := rfl
@[simp] theorem State.inRelease_drains (s : State) (o : Order) : (s.inRelease o).drains = s.drains := rfl
@[simp] theorem State.inRelease_tableQ (s : State) (o : Order) : (s.inRelease o).tableQ = s.tableQ := rfl
@[simp] theorem State.inRelease_nmQ (s : State) (o : Order) : (s.inRelease o).nmQ = s.nmQ := rfl
@[simp] theorem State.inRelease_nmus (s : State) (o : Order) : (s.inRelease o).nmus = s.nmus := rfl
@[simp] theorem State.inRelease_resumes (s : State) (o : Order) : (s.inRelease o).resumes = s.resumes := rfl
@[simp] theorem State.inRelease_loads (s : State) (o : Order) : (s.inRelease o).loads = s.loads := rfl
@[simp] theorem State.inRelease_indexes (s : State) (o : Order) : (s.inRelease o).indexes = s.indexes := rfl
@[simp] theorem State.inRelease_ixQ (s : State) (o : Order) : (s.inRelease o).ixQ = s.ixQ := rfl
@[simp] theorem State.inRelease_ixPaused (s : State) (o : Order) : (s.inRelease o).ixPaused = s.ixPaused := rfl
@[simp] theorem State.inRelease_store (s : State) (o : Order) : (s.inRelease o).store = s.store := rfl
@[simp] theorem State.inRelease_rings (s : State) (o : Order) : (s.inRelease o).rings = s.rings := rfl
@[simp] theorem State.inRelease_usage (s : State) (o : Order) : (s.inRelease o).usage = s.usage := rfl
@[simp] theorem State.inRelease_bars (s : State) (o : Order) : (s.inRelease o).bars = s.bars := rfl
@[simp] theorem State.inRelease_reportSeq (s : State) (o : Order) : (s.inRelease o).reportSeq = s.reportSeq := rfl
@[simp] theorem State.inRelease_epoch (s : State) (o : Order) : (s.inRelease o).epoch = s.epoch := rfl
@[simp] theorem State.inRelease_erased (s : State) (o : Order) : (s.inRelease o).erased = s.erased := rfl
@[simp] theorem State.inRelease_keyEpoch (s : State) (o : Order) : (s.inRelease o).keyEpoch = s.keyEpoch := rfl
@[simp] theorem State.inRelease_quarantined (s : State) (o : Order) : (s.inRelease o).quarantined = s.quarantined := rfl
@[simp] theorem State.inRelease_inReset (s : State) (o : Order) : (s.inRelease o).inReset = s.inReset := rfl
@[simp] theorem State.inRelease_budgets (s : State) (o : Order) : (s.inRelease o).budgets = s.budgets := rfl
@[simp] theorem State.inRelease_nextBudgets (s : State) (o : Order) : (s.inRelease o).nextBudgets = s.nextBudgets := rfl
@[simp] theorem State.inRelease_period (s : State) (o : Order) : (s.inRelease o).period = s.period := rfl
@[simp] theorem State.inRelease_reply (s : State) (o : Order) : (s.inRelease o).reply = s.reply := rfl
@[simp] theorem State.inRelease_replyError (s : State) (o : Order) : (s.inRelease o).replyError = s.replyError := rfl
@[simp] theorem State.inRelease_retained (s : State) (o : Order) : (s.inRelease o).retained = s.retained := rfl
@[simp] theorem State.inRelease_monel (s : State) (o : Order) : (s.inRelease o).monel = s.monel := rfl

/-! ### stallWith -/

@[simp] theorem State.stallWith_others (s : State) (bs : List Byte) : (s.stallWith bs).others = s.others := rfl
@[simp] theorem State.stallWith_agenda (s : State) (bs : List Byte) : (s.stallWith bs).agenda = s.agenda := rfl
@[simp] theorem State.stallWith_ev (s : State) (bs : List Byte) : (s.stallWith bs).ev = s.ev := rfl
@[simp] theorem State.stallWith_nmuAt (s : State) (bs : List Byte) : (s.stallWith bs).nmuAt = s.nmuAt := rfl
@[simp] theorem State.stallWith_draw (s : State) (bs : List Byte) : (s.stallWith bs).draw = s.draw := rfl
@[simp] theorem State.stallWith_packets (s : State) (bs : List Byte) : (s.stallWith bs).packets = s.packets := rfl
@[simp] theorem State.stallWith_clock (s : State) (bs : List Byte) : (s.stallWith bs).clock = s.clock := rfl
@[simp] theorem State.stallWith_skew (s : State) (bs : List Byte) : (s.stallWith bs).skew = s.skew := rfl
@[simp] theorem State.stallWith_halted (s : State) (bs : List Byte) : (s.stallWith bs).halted = s.halted := rfl
@[simp] theorem State.stallWith_bootStep (s : State) (bs : List Byte) : (s.stallWith bs).bootStep = s.bootStep := rfl
@[simp] theorem State.stallWith_cfg (s : State) (bs : List Byte) : (s.stallWith bs).cfg = s.cfg := rfl
@[simp] theorem State.stallWith_mem (s : State) (bs : List Byte) : (s.stallWith bs).mem = s.mem := rfl
@[simp] theorem State.stallWith_loc (s : State) (bs : List Byte) : (s.stallWith bs).loc = s.loc := rfl
@[simp] theorem State.stallWith_keys (s : State) (bs : List Byte) : (s.stallWith bs).keys = s.keys := rfl
@[simp] theorem State.stallWith_tags (s : State) (bs : List Byte) : (s.stallWith bs).tags = s.tags := rfl
@[simp] theorem State.stallWith_poison (s : State) (bs : List Byte) : (s.stallWith bs).poison = s.poison := rfl
@[simp] theorem State.stallWith_bad (s : State) (bs : List Byte) : (s.stallWith bs).bad = s.bad := rfl
@[simp] theorem State.stallWith_weak (s : State) (bs : List Byte) : (s.stallWith bs).weak = s.weak := rfl
@[simp] theorem State.stallWith_badLoc (s : State) (bs : List Byte) : (s.stallWith bs).badLoc = s.badLoc := rfl
@[simp] theorem State.stallWith_icache (s : State) (bs : List Byte) : (s.stallWith bs).icache = s.icache := rfl
@[simp] theorem State.stallWith_regs (s : State) (bs : List Byte) : (s.stallWith bs).regs = s.regs := rfl
@[simp] theorem State.stallWith_now (s : State) (bs : List Byte) : (s.stallWith bs).now = s.now := rfl
@[simp] theorem State.stallWith_locPast (s : State) (bs : List Byte) : (s.stallWith bs).locPast = s.locPast := rfl
@[simp] theorem State.stallWith_memPast (s : State) (bs : List Byte) : (s.stallWith bs).memPast = s.memPast := rfl
@[simp] theorem State.stallWith_tlb (s : State) (bs : List Byte) : (s.stallWith bs).tlb = s.tlb := rfl
@[simp] theorem State.stallWith_walk (s : State) (bs : List Byte) : (s.stallWith bs).walk = s.walk := rfl
@[simp] theorem State.stallWith_gs (s : State) (bs : List Byte) : (s.stallWith bs).gs = s.gs := rfl
@[simp] theorem State.stallWith_gd (s : State) (bs : List Byte) : (s.stallWith bs).gd = s.gd := rfl
@[simp] theorem State.stallWith_genSent (s : State) (bs : List Byte) : (s.stallWith bs).genSent = s.genSent := rfl
@[simp] theorem State.stallWith_scans (s : State) (bs : List Byte) : (s.stallWith bs).scans = s.scans := rfl
@[simp] theorem State.stallWith_gangs (s : State) (bs : List Byte) : (s.stallWith bs).gangs = s.gangs := rfl
@[simp] theorem State.stallWith_ghosts (s : State) (bs : List Byte) : (s.stallWith bs).ghosts = s.ghosts := rfl
@[simp] theorem State.stallWith_launches (s : State) (bs : List Byte) : (s.stallWith bs).launches = s.launches := rfl
@[simp] theorem State.stallWith_nextLaunch (s : State) (bs : List Byte) : (s.stallWith bs).nextLaunch = s.nextLaunch := rfl
@[simp] theorem State.stallWith_completions (s : State) (bs : List Byte) : (s.stallWith bs).completions = s.completions := rfl
@[simp] theorem State.stallWith_ports (s : State) (bs : List Byte) : (s.stallWith bs).ports = s.ports := rfl
@[simp] theorem State.stallWith_tenants (s : State) (bs : List Byte) : (s.stallWith bs).tenants = s.tenants := rfl
@[simp] theorem State.stallWith_reserves (s : State) (bs : List Byte) : (s.stallWith bs).reserves = s.reserves := rfl
@[simp] theorem State.stallWith_weights (s : State) (bs : List Byte) : (s.stallWith bs).weights = s.weights := rfl
@[simp] theorem State.stallWith_charges (s : State) (bs : List Byte) : (s.stallWith bs).charges = s.charges := rfl
@[simp] theorem State.stallWith_landings (s : State) (bs : List Byte) : (s.stallWith bs).landings = s.landings := rfl
@[simp] theorem State.stallWith_counts (s : State) (bs : List Byte) : (s.stallWith bs).counts = s.counts := rfl
@[simp] theorem State.stallWith_copyQ (s : State) (bs : List Byte) : (s.stallWith bs).copyQ = s.copyQ := rfl
@[simp] theorem State.stallWith_units (s : State) (bs : List Byte) : (s.stallWith bs).units = s.units := rfl
@[simp] theorem State.stallWith_drains (s : State) (bs : List Byte) : (s.stallWith bs).drains = s.drains := rfl
@[simp] theorem State.stallWith_tableQ (s : State) (bs : List Byte) : (s.stallWith bs).tableQ = s.tableQ := rfl
@[simp] theorem State.stallWith_nmQ (s : State) (bs : List Byte) : (s.stallWith bs).nmQ = s.nmQ := rfl
@[simp] theorem State.stallWith_nmus (s : State) (bs : List Byte) : (s.stallWith bs).nmus = s.nmus := rfl
@[simp] theorem State.stallWith_resumes (s : State) (bs : List Byte) : (s.stallWith bs).resumes = s.resumes := rfl
@[simp] theorem State.stallWith_loads (s : State) (bs : List Byte) : (s.stallWith bs).loads = s.loads := rfl
@[simp] theorem State.stallWith_indexes (s : State) (bs : List Byte) : (s.stallWith bs).indexes = s.indexes := rfl
@[simp] theorem State.stallWith_ixQ (s : State) (bs : List Byte) : (s.stallWith bs).ixQ = s.ixQ := rfl
@[simp] theorem State.stallWith_ixPaused (s : State) (bs : List Byte) : (s.stallWith bs).ixPaused = s.ixPaused := rfl
@[simp] theorem State.stallWith_store (s : State) (bs : List Byte) : (s.stallWith bs).store = s.store := rfl
@[simp] theorem State.stallWith_rings (s : State) (bs : List Byte) : (s.stallWith bs).rings = s.rings := rfl
@[simp] theorem State.stallWith_usage (s : State) (bs : List Byte) : (s.stallWith bs).usage = s.usage := rfl
@[simp] theorem State.stallWith_bars (s : State) (bs : List Byte) : (s.stallWith bs).bars = s.bars := rfl
@[simp] theorem State.stallWith_reportSeq (s : State) (bs : List Byte) : (s.stallWith bs).reportSeq = s.reportSeq := rfl
@[simp] theorem State.stallWith_epoch (s : State) (bs : List Byte) : (s.stallWith bs).epoch = s.epoch := rfl
@[simp] theorem State.stallWith_erased (s : State) (bs : List Byte) : (s.stallWith bs).erased = s.erased := rfl
@[simp] theorem State.stallWith_keyEpoch (s : State) (bs : List Byte) : (s.stallWith bs).keyEpoch = s.keyEpoch := rfl
@[simp] theorem State.stallWith_quarantined (s : State) (bs : List Byte) : (s.stallWith bs).quarantined = s.quarantined := rfl
@[simp] theorem State.stallWith_inReset (s : State) (bs : List Byte) : (s.stallWith bs).inReset = s.inReset := rfl
@[simp] theorem State.stallWith_budgets (s : State) (bs : List Byte) : (s.stallWith bs).budgets = s.budgets := rfl
@[simp] theorem State.stallWith_nextBudgets (s : State) (bs : List Byte) : (s.stallWith bs).nextBudgets = s.nextBudgets := rfl
@[simp] theorem State.stallWith_period (s : State) (bs : List Byte) : (s.stallWith bs).period = s.period := rfl
@[simp] theorem State.stallWith_reply (s : State) (bs : List Byte) : (s.stallWith bs).reply = s.reply := rfl
@[simp] theorem State.stallWith_replyError (s : State) (bs : List Byte) : (s.stallWith bs).replyError = s.replyError := rfl
@[simp] theorem State.stallWith_retained (s : State) (bs : List Byte) : (s.stallWith bs).retained = s.retained := rfl
@[simp] theorem State.stallWith_monel (s : State) (bs : List Byte) : (s.stallWith bs).monel = s.monel := rfl

/-! ### setStream -/

@[simp] theorem State.setStream_others (s : State) (k : Fin 4) (o : Option Stream) : (s.setStream k o).others = s.others := rfl
@[simp] theorem State.setStream_agenda (s : State) (k : Fin 4) (o : Option Stream) : (s.setStream k o).agenda = s.agenda := rfl
@[simp] theorem State.setStream_ev (s : State) (k : Fin 4) (o : Option Stream) : (s.setStream k o).ev = s.ev := rfl
@[simp] theorem State.setStream_nmuAt (s : State) (k : Fin 4) (o : Option Stream) : (s.setStream k o).nmuAt = s.nmuAt := rfl
@[simp] theorem State.setStream_draw (s : State) (k : Fin 4) (o : Option Stream) : (s.setStream k o).draw = s.draw := rfl
@[simp] theorem State.setStream_packets (s : State) (k : Fin 4) (o : Option Stream) : (s.setStream k o).packets = s.packets := rfl
@[simp] theorem State.setStream_clock (s : State) (k : Fin 4) (o : Option Stream) : (s.setStream k o).clock = s.clock := rfl
@[simp] theorem State.setStream_skew (s : State) (k : Fin 4) (o : Option Stream) : (s.setStream k o).skew = s.skew := rfl
@[simp] theorem State.setStream_halted (s : State) (k : Fin 4) (o : Option Stream) : (s.setStream k o).halted = s.halted := rfl
@[simp] theorem State.setStream_bootStep (s : State) (k : Fin 4) (o : Option Stream) : (s.setStream k o).bootStep = s.bootStep := rfl
@[simp] theorem State.setStream_cfg (s : State) (k : Fin 4) (o : Option Stream) : (s.setStream k o).cfg = s.cfg := rfl
@[simp] theorem State.setStream_mem (s : State) (k : Fin 4) (o : Option Stream) : (s.setStream k o).mem = s.mem := rfl
@[simp] theorem State.setStream_loc (s : State) (k : Fin 4) (o : Option Stream) : (s.setStream k o).loc = s.loc := rfl
@[simp] theorem State.setStream_keys (s : State) (k : Fin 4) (o : Option Stream) : (s.setStream k o).keys = s.keys := rfl
@[simp] theorem State.setStream_tags (s : State) (k : Fin 4) (o : Option Stream) : (s.setStream k o).tags = s.tags := rfl
@[simp] theorem State.setStream_poison (s : State) (k : Fin 4) (o : Option Stream) : (s.setStream k o).poison = s.poison := rfl
@[simp] theorem State.setStream_bad (s : State) (k : Fin 4) (o : Option Stream) : (s.setStream k o).bad = s.bad := rfl
@[simp] theorem State.setStream_weak (s : State) (k : Fin 4) (o : Option Stream) : (s.setStream k o).weak = s.weak := rfl
@[simp] theorem State.setStream_badLoc (s : State) (k : Fin 4) (o : Option Stream) : (s.setStream k o).badLoc = s.badLoc := rfl
@[simp] theorem State.setStream_icache (s : State) (k : Fin 4) (o : Option Stream) : (s.setStream k o).icache = s.icache := rfl
@[simp] theorem State.setStream_regs (s : State) (k : Fin 4) (o : Option Stream) : (s.setStream k o).regs = s.regs := rfl
@[simp] theorem State.setStream_now (s : State) (k : Fin 4) (o : Option Stream) : (s.setStream k o).now = s.now := rfl
@[simp] theorem State.setStream_locPast (s : State) (k : Fin 4) (o : Option Stream) : (s.setStream k o).locPast = s.locPast := rfl
@[simp] theorem State.setStream_memPast (s : State) (k : Fin 4) (o : Option Stream) : (s.setStream k o).memPast = s.memPast := rfl
@[simp] theorem State.setStream_tlb (s : State) (k : Fin 4) (o : Option Stream) : (s.setStream k o).tlb = s.tlb := rfl
@[simp] theorem State.setStream_walk (s : State) (k : Fin 4) (o : Option Stream) : (s.setStream k o).walk = s.walk := rfl
@[simp] theorem State.setStream_gs (s : State) (k : Fin 4) (o : Option Stream) : (s.setStream k o).gs = s.gs := rfl
@[simp] theorem State.setStream_gd (s : State) (k : Fin 4) (o : Option Stream) : (s.setStream k o).gd = s.gd := rfl
@[simp] theorem State.setStream_genSent (s : State) (k : Fin 4) (o : Option Stream) : (s.setStream k o).genSent = s.genSent := rfl
@[simp] theorem State.setStream_scans (s : State) (k : Fin 4) (o : Option Stream) : (s.setStream k o).scans = s.scans := rfl
@[simp] theorem State.setStream_gangs (s : State) (k : Fin 4) (o : Option Stream) : (s.setStream k o).gangs = s.gangs := rfl
@[simp] theorem State.setStream_ghosts (s : State) (k : Fin 4) (o : Option Stream) : (s.setStream k o).ghosts = s.ghosts := rfl
@[simp] theorem State.setStream_launches (s : State) (k : Fin 4) (o : Option Stream) : (s.setStream k o).launches = s.launches := rfl
@[simp] theorem State.setStream_nextLaunch (s : State) (k : Fin 4) (o : Option Stream) : (s.setStream k o).nextLaunch = s.nextLaunch := rfl
@[simp] theorem State.setStream_completions (s : State) (k : Fin 4) (o : Option Stream) : (s.setStream k o).completions = s.completions := rfl
@[simp] theorem State.setStream_ports (s : State) (k : Fin 4) (o : Option Stream) : (s.setStream k o).ports = s.ports := rfl
@[simp] theorem State.setStream_tenants (s : State) (k : Fin 4) (o : Option Stream) : (s.setStream k o).tenants = s.tenants := rfl
@[simp] theorem State.setStream_reserves (s : State) (k : Fin 4) (o : Option Stream) : (s.setStream k o).reserves = s.reserves := rfl
@[simp] theorem State.setStream_weights (s : State) (k : Fin 4) (o : Option Stream) : (s.setStream k o).weights = s.weights := rfl
@[simp] theorem State.setStream_charges (s : State) (k : Fin 4) (o : Option Stream) : (s.setStream k o).charges = s.charges := rfl
@[simp] theorem State.setStream_landings (s : State) (k : Fin 4) (o : Option Stream) : (s.setStream k o).landings = s.landings := rfl
@[simp] theorem State.setStream_counts (s : State) (k : Fin 4) (o : Option Stream) : (s.setStream k o).counts = s.counts := rfl
@[simp] theorem State.setStream_copyQ (s : State) (k : Fin 4) (o : Option Stream) : (s.setStream k o).copyQ = s.copyQ := rfl
@[simp] theorem State.setStream_units (s : State) (k : Fin 4) (o : Option Stream) : (s.setStream k o).units = s.units := rfl
@[simp] theorem State.setStream_drains (s : State) (k : Fin 4) (o : Option Stream) : (s.setStream k o).drains = s.drains := rfl
@[simp] theorem State.setStream_tableQ (s : State) (k : Fin 4) (o : Option Stream) : (s.setStream k o).tableQ = s.tableQ := rfl
@[simp] theorem State.setStream_nmQ (s : State) (k : Fin 4) (o : Option Stream) : (s.setStream k o).nmQ = s.nmQ := rfl
@[simp] theorem State.setStream_nmus (s : State) (k : Fin 4) (o : Option Stream) : (s.setStream k o).nmus = s.nmus := rfl
@[simp] theorem State.setStream_resumes (s : State) (k : Fin 4) (o : Option Stream) : (s.setStream k o).resumes = s.resumes := rfl
@[simp] theorem State.setStream_loads (s : State) (k : Fin 4) (o : Option Stream) : (s.setStream k o).loads = s.loads := rfl
@[simp] theorem State.setStream_indexes (s : State) (k : Fin 4) (o : Option Stream) : (s.setStream k o).indexes = s.indexes := rfl
@[simp] theorem State.setStream_ixQ (s : State) (k : Fin 4) (o : Option Stream) : (s.setStream k o).ixQ = s.ixQ := rfl
@[simp] theorem State.setStream_ixPaused (s : State) (k : Fin 4) (o : Option Stream) : (s.setStream k o).ixPaused = s.ixPaused := rfl
@[simp] theorem State.setStream_store (s : State) (k : Fin 4) (o : Option Stream) : (s.setStream k o).store = s.store := rfl
@[simp] theorem State.setStream_rings (s : State) (k : Fin 4) (o : Option Stream) : (s.setStream k o).rings = s.rings := rfl
@[simp] theorem State.setStream_usage (s : State) (k : Fin 4) (o : Option Stream) : (s.setStream k o).usage = s.usage := rfl
@[simp] theorem State.setStream_bars (s : State) (k : Fin 4) (o : Option Stream) : (s.setStream k o).bars = s.bars := rfl
@[simp] theorem State.setStream_reportSeq (s : State) (k : Fin 4) (o : Option Stream) : (s.setStream k o).reportSeq = s.reportSeq := rfl
@[simp] theorem State.setStream_epoch (s : State) (k : Fin 4) (o : Option Stream) : (s.setStream k o).epoch = s.epoch := rfl
@[simp] theorem State.setStream_erased (s : State) (k : Fin 4) (o : Option Stream) : (s.setStream k o).erased = s.erased := rfl
@[simp] theorem State.setStream_keyEpoch (s : State) (k : Fin 4) (o : Option Stream) : (s.setStream k o).keyEpoch = s.keyEpoch := rfl
@[simp] theorem State.setStream_quarantined (s : State) (k : Fin 4) (o : Option Stream) : (s.setStream k o).quarantined = s.quarantined := rfl
@[simp] theorem State.setStream_inReset (s : State) (k : Fin 4) (o : Option Stream) : (s.setStream k o).inReset = s.inReset := rfl
@[simp] theorem State.setStream_budgets (s : State) (k : Fin 4) (o : Option Stream) : (s.setStream k o).budgets = s.budgets := rfl
@[simp] theorem State.setStream_nextBudgets (s : State) (k : Fin 4) (o : Option Stream) : (s.setStream k o).nextBudgets = s.nextBudgets := rfl
@[simp] theorem State.setStream_period (s : State) (k : Fin 4) (o : Option Stream) : (s.setStream k o).period = s.period := rfl
@[simp] theorem State.setStream_reply (s : State) (k : Fin 4) (o : Option Stream) : (s.setStream k o).reply = s.reply := rfl
@[simp] theorem State.setStream_replyError (s : State) (k : Fin 4) (o : Option Stream) : (s.setStream k o).replyError = s.replyError := rfl
@[simp] theorem State.setStream_retained (s : State) (k : Fin 4) (o : Option Stream) : (s.setStream k o).retained = s.retained := rfl
@[simp] theorem State.setStream_monel (s : State) (k : Fin 4) (o : Option Stream) : (s.setStream k o).monel = s.monel := rfl

/-! ### advanceStreams -/

@[simp] theorem State.advanceStreams_others (s : State) (l : List Reg) : (s.advanceStreams l).others = s.others := rfl
@[simp] theorem State.advanceStreams_agenda (s : State) (l : List Reg) : (s.advanceStreams l).agenda = s.agenda := rfl
@[simp] theorem State.advanceStreams_ev (s : State) (l : List Reg) : (s.advanceStreams l).ev = s.ev := rfl
@[simp] theorem State.advanceStreams_nmuAt (s : State) (l : List Reg) : (s.advanceStreams l).nmuAt = s.nmuAt := rfl
@[simp] theorem State.advanceStreams_draw (s : State) (l : List Reg) : (s.advanceStreams l).draw = s.draw := rfl
@[simp] theorem State.advanceStreams_packets (s : State) (l : List Reg) : (s.advanceStreams l).packets = s.packets := rfl
@[simp] theorem State.advanceStreams_clock (s : State) (l : List Reg) : (s.advanceStreams l).clock = s.clock := rfl
@[simp] theorem State.advanceStreams_skew (s : State) (l : List Reg) : (s.advanceStreams l).skew = s.skew := rfl
@[simp] theorem State.advanceStreams_halted (s : State) (l : List Reg) : (s.advanceStreams l).halted = s.halted := rfl
@[simp] theorem State.advanceStreams_bootStep (s : State) (l : List Reg) : (s.advanceStreams l).bootStep = s.bootStep := rfl
@[simp] theorem State.advanceStreams_cfg (s : State) (l : List Reg) : (s.advanceStreams l).cfg = s.cfg := rfl
@[simp] theorem State.advanceStreams_mem (s : State) (l : List Reg) : (s.advanceStreams l).mem = s.mem := rfl
@[simp] theorem State.advanceStreams_loc (s : State) (l : List Reg) : (s.advanceStreams l).loc = s.loc := rfl
@[simp] theorem State.advanceStreams_keys (s : State) (l : List Reg) : (s.advanceStreams l).keys = s.keys := rfl
@[simp] theorem State.advanceStreams_tags (s : State) (l : List Reg) : (s.advanceStreams l).tags = s.tags := rfl
@[simp] theorem State.advanceStreams_poison (s : State) (l : List Reg) : (s.advanceStreams l).poison = s.poison := rfl
@[simp] theorem State.advanceStreams_bad (s : State) (l : List Reg) : (s.advanceStreams l).bad = s.bad := rfl
@[simp] theorem State.advanceStreams_weak (s : State) (l : List Reg) : (s.advanceStreams l).weak = s.weak := rfl
@[simp] theorem State.advanceStreams_badLoc (s : State) (l : List Reg) : (s.advanceStreams l).badLoc = s.badLoc := rfl
@[simp] theorem State.advanceStreams_icache (s : State) (l : List Reg) : (s.advanceStreams l).icache = s.icache := rfl
@[simp] theorem State.advanceStreams_regs (s : State) (l : List Reg) : (s.advanceStreams l).regs = s.regs := rfl
@[simp] theorem State.advanceStreams_now (s : State) (l : List Reg) : (s.advanceStreams l).now = s.now := rfl
@[simp] theorem State.advanceStreams_locPast (s : State) (l : List Reg) : (s.advanceStreams l).locPast = s.locPast := rfl
@[simp] theorem State.advanceStreams_memPast (s : State) (l : List Reg) : (s.advanceStreams l).memPast = s.memPast := rfl
@[simp] theorem State.advanceStreams_tlb (s : State) (l : List Reg) : (s.advanceStreams l).tlb = s.tlb := rfl
@[simp] theorem State.advanceStreams_walk (s : State) (l : List Reg) : (s.advanceStreams l).walk = s.walk := rfl
@[simp] theorem State.advanceStreams_gs (s : State) (l : List Reg) : (s.advanceStreams l).gs = s.gs := rfl
@[simp] theorem State.advanceStreams_gd (s : State) (l : List Reg) : (s.advanceStreams l).gd = s.gd := rfl
@[simp] theorem State.advanceStreams_genSent (s : State) (l : List Reg) : (s.advanceStreams l).genSent = s.genSent := rfl
@[simp] theorem State.advanceStreams_scans (s : State) (l : List Reg) : (s.advanceStreams l).scans = s.scans := rfl
@[simp] theorem State.advanceStreams_gangs (s : State) (l : List Reg) : (s.advanceStreams l).gangs = s.gangs := rfl
@[simp] theorem State.advanceStreams_ghosts (s : State) (l : List Reg) : (s.advanceStreams l).ghosts = s.ghosts := rfl
@[simp] theorem State.advanceStreams_launches (s : State) (l : List Reg) : (s.advanceStreams l).launches = s.launches := rfl
@[simp] theorem State.advanceStreams_nextLaunch (s : State) (l : List Reg) : (s.advanceStreams l).nextLaunch = s.nextLaunch := rfl
@[simp] theorem State.advanceStreams_completions (s : State) (l : List Reg) : (s.advanceStreams l).completions = s.completions := rfl
@[simp] theorem State.advanceStreams_ports (s : State) (l : List Reg) : (s.advanceStreams l).ports = s.ports := rfl
@[simp] theorem State.advanceStreams_tenants (s : State) (l : List Reg) : (s.advanceStreams l).tenants = s.tenants := rfl
@[simp] theorem State.advanceStreams_reserves (s : State) (l : List Reg) : (s.advanceStreams l).reserves = s.reserves := rfl
@[simp] theorem State.advanceStreams_weights (s : State) (l : List Reg) : (s.advanceStreams l).weights = s.weights := rfl
@[simp] theorem State.advanceStreams_charges (s : State) (l : List Reg) : (s.advanceStreams l).charges = s.charges := rfl
@[simp] theorem State.advanceStreams_landings (s : State) (l : List Reg) : (s.advanceStreams l).landings = s.landings := rfl
@[simp] theorem State.advanceStreams_counts (s : State) (l : List Reg) : (s.advanceStreams l).counts = s.counts := rfl
@[simp] theorem State.advanceStreams_copyQ (s : State) (l : List Reg) : (s.advanceStreams l).copyQ = s.copyQ := rfl
@[simp] theorem State.advanceStreams_units (s : State) (l : List Reg) : (s.advanceStreams l).units = s.units := rfl
@[simp] theorem State.advanceStreams_drains (s : State) (l : List Reg) : (s.advanceStreams l).drains = s.drains := rfl
@[simp] theorem State.advanceStreams_tableQ (s : State) (l : List Reg) : (s.advanceStreams l).tableQ = s.tableQ := rfl
@[simp] theorem State.advanceStreams_nmQ (s : State) (l : List Reg) : (s.advanceStreams l).nmQ = s.nmQ := rfl
@[simp] theorem State.advanceStreams_nmus (s : State) (l : List Reg) : (s.advanceStreams l).nmus = s.nmus := rfl
@[simp] theorem State.advanceStreams_resumes (s : State) (l : List Reg) : (s.advanceStreams l).resumes = s.resumes := rfl
@[simp] theorem State.advanceStreams_loads (s : State) (l : List Reg) : (s.advanceStreams l).loads = s.loads := rfl
@[simp] theorem State.advanceStreams_indexes (s : State) (l : List Reg) : (s.advanceStreams l).indexes = s.indexes := rfl
@[simp] theorem State.advanceStreams_ixQ (s : State) (l : List Reg) : (s.advanceStreams l).ixQ = s.ixQ := rfl
@[simp] theorem State.advanceStreams_ixPaused (s : State) (l : List Reg) : (s.advanceStreams l).ixPaused = s.ixPaused := rfl
@[simp] theorem State.advanceStreams_store (s : State) (l : List Reg) : (s.advanceStreams l).store = s.store := rfl
@[simp] theorem State.advanceStreams_rings (s : State) (l : List Reg) : (s.advanceStreams l).rings = s.rings := rfl
@[simp] theorem State.advanceStreams_usage (s : State) (l : List Reg) : (s.advanceStreams l).usage = s.usage := rfl
@[simp] theorem State.advanceStreams_bars (s : State) (l : List Reg) : (s.advanceStreams l).bars = s.bars := rfl
@[simp] theorem State.advanceStreams_reportSeq (s : State) (l : List Reg) : (s.advanceStreams l).reportSeq = s.reportSeq := rfl
@[simp] theorem State.advanceStreams_epoch (s : State) (l : List Reg) : (s.advanceStreams l).epoch = s.epoch := rfl
@[simp] theorem State.advanceStreams_erased (s : State) (l : List Reg) : (s.advanceStreams l).erased = s.erased := rfl
@[simp] theorem State.advanceStreams_keyEpoch (s : State) (l : List Reg) : (s.advanceStreams l).keyEpoch = s.keyEpoch := rfl
@[simp] theorem State.advanceStreams_quarantined (s : State) (l : List Reg) : (s.advanceStreams l).quarantined = s.quarantined := rfl
@[simp] theorem State.advanceStreams_inReset (s : State) (l : List Reg) : (s.advanceStreams l).inReset = s.inReset := rfl
@[simp] theorem State.advanceStreams_budgets (s : State) (l : List Reg) : (s.advanceStreams l).budgets = s.budgets := rfl
@[simp] theorem State.advanceStreams_nextBudgets (s : State) (l : List Reg) : (s.advanceStreams l).nextBudgets = s.nextBudgets := rfl
@[simp] theorem State.advanceStreams_period (s : State) (l : List Reg) : (s.advanceStreams l).period = s.period := rfl
@[simp] theorem State.advanceStreams_reply (s : State) (l : List Reg) : (s.advanceStreams l).reply = s.reply := rfl
@[simp] theorem State.advanceStreams_replyError (s : State) (l : List Reg) : (s.advanceStreams l).replyError = s.replyError := rfl
@[simp] theorem State.advanceStreams_retained (s : State) (l : List Reg) : (s.advanceStreams l).retained = s.retained := rfl
@[simp] theorem State.advanceStreams_monel (s : State) (l : List Reg) : (s.advanceStreams l).monel = s.monel := rfl

/-! ### issued -/

@[simp] theorem State.issued_others (s : State) (n : Nat) : (s.issued n).others = s.others := by unfold State.issued; split <;> rfl
@[simp] theorem State.issued_agenda (s : State) (n : Nat) : (s.issued n).agenda = s.agenda := by unfold State.issued; split <;> rfl
@[simp] theorem State.issued_ev (s : State) (n : Nat) : (s.issued n).ev = s.ev := by unfold State.issued; split <;> rfl
@[simp] theorem State.issued_nmuAt (s : State) (n : Nat) : (s.issued n).nmuAt = s.nmuAt := by unfold State.issued; split <;> rfl
@[simp] theorem State.issued_draw (s : State) (n : Nat) : (s.issued n).draw = s.draw := by unfold State.issued; split <;> rfl
@[simp] theorem State.issued_packets (s : State) (n : Nat) : (s.issued n).packets = s.packets := by unfold State.issued; split <;> rfl
@[simp] theorem State.issued_clock (s : State) (n : Nat) : (s.issued n).clock = s.clock := by unfold State.issued; split <;> rfl
@[simp] theorem State.issued_skew (s : State) (n : Nat) : (s.issued n).skew = s.skew := by unfold State.issued; split <;> rfl
@[simp] theorem State.issued_halted (s : State) (n : Nat) : (s.issued n).halted = s.halted := by unfold State.issued; split <;> rfl
@[simp] theorem State.issued_bootStep (s : State) (n : Nat) : (s.issued n).bootStep = s.bootStep := by unfold State.issued; split <;> rfl
@[simp] theorem State.issued_cfg (s : State) (n : Nat) : (s.issued n).cfg = s.cfg := by unfold State.issued; split <;> rfl
@[simp] theorem State.issued_mem (s : State) (n : Nat) : (s.issued n).mem = s.mem := by unfold State.issued; split <;> rfl
@[simp] theorem State.issued_loc (s : State) (n : Nat) : (s.issued n).loc = s.loc := by unfold State.issued; split <;> rfl
@[simp] theorem State.issued_keys (s : State) (n : Nat) : (s.issued n).keys = s.keys := by unfold State.issued; split <;> rfl
@[simp] theorem State.issued_tags (s : State) (n : Nat) : (s.issued n).tags = s.tags := by unfold State.issued; split <;> rfl
@[simp] theorem State.issued_poison (s : State) (n : Nat) : (s.issued n).poison = s.poison := by unfold State.issued; split <;> rfl
@[simp] theorem State.issued_bad (s : State) (n : Nat) : (s.issued n).bad = s.bad := by unfold State.issued; split <;> rfl
@[simp] theorem State.issued_weak (s : State) (n : Nat) : (s.issued n).weak = s.weak := by unfold State.issued; split <;> rfl
@[simp] theorem State.issued_badLoc (s : State) (n : Nat) : (s.issued n).badLoc = s.badLoc := by unfold State.issued; split <;> rfl
@[simp] theorem State.issued_icache (s : State) (n : Nat) : (s.issued n).icache = s.icache := by unfold State.issued; split <;> rfl
@[simp] theorem State.issued_regs (s : State) (n : Nat) : (s.issued n).regs = s.regs := by unfold State.issued; split <;> rfl
@[simp] theorem State.issued_now (s : State) (n : Nat) : (s.issued n).now = s.now := by unfold State.issued; split <;> rfl
@[simp] theorem State.issued_locPast (s : State) (n : Nat) : (s.issued n).locPast = s.locPast := by unfold State.issued; split <;> rfl
@[simp] theorem State.issued_memPast (s : State) (n : Nat) : (s.issued n).memPast = s.memPast := by unfold State.issued; split <;> rfl
@[simp] theorem State.issued_tlb (s : State) (n : Nat) : (s.issued n).tlb = s.tlb := by unfold State.issued; split <;> rfl
@[simp] theorem State.issued_walk (s : State) (n : Nat) : (s.issued n).walk = s.walk := by unfold State.issued; split <;> rfl
@[simp] theorem State.issued_gs (s : State) (n : Nat) : (s.issued n).gs = s.gs := by unfold State.issued; split <;> rfl
@[simp] theorem State.issued_gd (s : State) (n : Nat) : (s.issued n).gd = s.gd := by unfold State.issued; split <;> rfl
@[simp] theorem State.issued_genSent (s : State) (n : Nat) : (s.issued n).genSent = s.genSent := by unfold State.issued; split <;> rfl
@[simp] theorem State.issued_scans (s : State) (n : Nat) : (s.issued n).scans = s.scans := by unfold State.issued; split <;> rfl
@[simp] theorem State.issued_gangs (s : State) (n : Nat) : (s.issued n).gangs = s.gangs := by unfold State.issued; split <;> rfl
@[simp] theorem State.issued_ghosts (s : State) (n : Nat) : (s.issued n).ghosts = s.ghosts := by unfold State.issued; split <;> rfl
@[simp] theorem State.issued_launches (s : State) (n : Nat) : (s.issued n).launches = s.launches := by unfold State.issued; split <;> rfl
@[simp] theorem State.issued_nextLaunch (s : State) (n : Nat) : (s.issued n).nextLaunch = s.nextLaunch := by unfold State.issued; split <;> rfl
@[simp] theorem State.issued_completions (s : State) (n : Nat) : (s.issued n).completions = s.completions := by unfold State.issued; split <;> rfl
@[simp] theorem State.issued_ports (s : State) (n : Nat) : (s.issued n).ports = s.ports := by unfold State.issued; split <;> rfl
@[simp] theorem State.issued_tenants (s : State) (n : Nat) : (s.issued n).tenants = s.tenants := by unfold State.issued; split <;> rfl
@[simp] theorem State.issued_reserves (s : State) (n : Nat) : (s.issued n).reserves = s.reserves := by unfold State.issued; split <;> rfl
@[simp] theorem State.issued_weights (s : State) (n : Nat) : (s.issued n).weights = s.weights := by unfold State.issued; split <;> rfl
@[simp] theorem State.issued_charges (s : State) (n : Nat) : (s.issued n).charges = s.charges := by unfold State.issued; split <;> rfl
@[simp] theorem State.issued_landings (s : State) (n : Nat) : (s.issued n).landings = s.landings := by unfold State.issued; split <;> rfl
@[simp] theorem State.issued_counts (s : State) (n : Nat) : (s.issued n).counts = s.counts := by unfold State.issued; split <;> rfl
@[simp] theorem State.issued_copyQ (s : State) (n : Nat) : (s.issued n).copyQ = s.copyQ := by unfold State.issued; split <;> rfl
@[simp] theorem State.issued_units (s : State) (n : Nat) : (s.issued n).units = s.units := by unfold State.issued; split <;> rfl
@[simp] theorem State.issued_drains (s : State) (n : Nat) : (s.issued n).drains = s.drains := by unfold State.issued; split <;> rfl
@[simp] theorem State.issued_tableQ (s : State) (n : Nat) : (s.issued n).tableQ = s.tableQ := by unfold State.issued; split <;> rfl
@[simp] theorem State.issued_nmQ (s : State) (n : Nat) : (s.issued n).nmQ = s.nmQ := by unfold State.issued; split <;> rfl
@[simp] theorem State.issued_nmus (s : State) (n : Nat) : (s.issued n).nmus = s.nmus := by unfold State.issued; split <;> rfl
@[simp] theorem State.issued_resumes (s : State) (n : Nat) : (s.issued n).resumes = s.resumes := by unfold State.issued; split <;> rfl
@[simp] theorem State.issued_loads (s : State) (n : Nat) : (s.issued n).loads = s.loads := by unfold State.issued; split <;> rfl
@[simp] theorem State.issued_indexes (s : State) (n : Nat) : (s.issued n).indexes = s.indexes := by unfold State.issued; split <;> rfl
@[simp] theorem State.issued_ixQ (s : State) (n : Nat) : (s.issued n).ixQ = s.ixQ := by unfold State.issued; split <;> rfl
@[simp] theorem State.issued_ixPaused (s : State) (n : Nat) : (s.issued n).ixPaused = s.ixPaused := by unfold State.issued; split <;> rfl
@[simp] theorem State.issued_store (s : State) (n : Nat) : (s.issued n).store = s.store := by unfold State.issued; split <;> rfl
@[simp] theorem State.issued_rings (s : State) (n : Nat) : (s.issued n).rings = s.rings := by unfold State.issued; split <;> rfl
@[simp] theorem State.issued_usage (s : State) (n : Nat) : (s.issued n).usage = s.usage := by unfold State.issued; split <;> rfl
@[simp] theorem State.issued_bars (s : State) (n : Nat) : (s.issued n).bars = s.bars := by unfold State.issued; split <;> rfl
@[simp] theorem State.issued_reportSeq (s : State) (n : Nat) : (s.issued n).reportSeq = s.reportSeq := by unfold State.issued; split <;> rfl
@[simp] theorem State.issued_epoch (s : State) (n : Nat) : (s.issued n).epoch = s.epoch := by unfold State.issued; split <;> rfl
@[simp] theorem State.issued_erased (s : State) (n : Nat) : (s.issued n).erased = s.erased := by unfold State.issued; split <;> rfl
@[simp] theorem State.issued_keyEpoch (s : State) (n : Nat) : (s.issued n).keyEpoch = s.keyEpoch := by unfold State.issued; split <;> rfl
@[simp] theorem State.issued_quarantined (s : State) (n : Nat) : (s.issued n).quarantined = s.quarantined := by unfold State.issued; split <;> rfl
@[simp] theorem State.issued_inReset (s : State) (n : Nat) : (s.issued n).inReset = s.inReset := by unfold State.issued; split <;> rfl
@[simp] theorem State.issued_budgets (s : State) (n : Nat) : (s.issued n).budgets = s.budgets := by unfold State.issued; split <;> rfl
@[simp] theorem State.issued_nextBudgets (s : State) (n : Nat) : (s.issued n).nextBudgets = s.nextBudgets := by unfold State.issued; split <;> rfl
@[simp] theorem State.issued_period (s : State) (n : Nat) : (s.issued n).period = s.period := by unfold State.issued; split <;> rfl
@[simp] theorem State.issued_reply (s : State) (n : Nat) : (s.issued n).reply = s.reply := by unfold State.issued; split <;> rfl
@[simp] theorem State.issued_replyError (s : State) (n : Nat) : (s.issued n).replyError = s.replyError := by unfold State.issued; split <;> rfl
@[simp] theorem State.issued_retained (s : State) (n : Nat) : (s.issued n).retained = s.retained := by unfold State.issued; split <;> rfl
@[simp] theorem State.issued_monel (s : State) (n : Nat) : (s.issued n).monel = s.monel := by unfold State.issued; split <;> rfl

/-! ### use -/

@[simp] theorem State.use_th (s : State) (fn c n : Nat) : (s.use fn c n).th = s.th := rfl
@[simp] theorem State.use_others (s : State) (fn c n : Nat) : (s.use fn c n).others = s.others := rfl
@[simp] theorem State.use_agenda (s : State) (fn c n : Nat) : (s.use fn c n).agenda = s.agenda := rfl
@[simp] theorem State.use_ev (s : State) (fn c n : Nat) : (s.use fn c n).ev = s.ev := rfl
@[simp] theorem State.use_nmuAt (s : State) (fn c n : Nat) : (s.use fn c n).nmuAt = s.nmuAt := rfl
@[simp] theorem State.use_draw (s : State) (fn c n : Nat) : (s.use fn c n).draw = s.draw := rfl
@[simp] theorem State.use_packets (s : State) (fn c n : Nat) : (s.use fn c n).packets = s.packets := rfl
@[simp] theorem State.use_clock (s : State) (fn c n : Nat) : (s.use fn c n).clock = s.clock := rfl
@[simp] theorem State.use_skew (s : State) (fn c n : Nat) : (s.use fn c n).skew = s.skew := rfl
@[simp] theorem State.use_halted (s : State) (fn c n : Nat) : (s.use fn c n).halted = s.halted := rfl
@[simp] theorem State.use_bootStep (s : State) (fn c n : Nat) : (s.use fn c n).bootStep = s.bootStep := rfl
@[simp] theorem State.use_cfg (s : State) (fn c n : Nat) : (s.use fn c n).cfg = s.cfg := rfl
@[simp] theorem State.use_mem (s : State) (fn c n : Nat) : (s.use fn c n).mem = s.mem := rfl
@[simp] theorem State.use_loc (s : State) (fn c n : Nat) : (s.use fn c n).loc = s.loc := rfl
@[simp] theorem State.use_keys (s : State) (fn c n : Nat) : (s.use fn c n).keys = s.keys := rfl
@[simp] theorem State.use_tags (s : State) (fn c n : Nat) : (s.use fn c n).tags = s.tags := rfl
@[simp] theorem State.use_poison (s : State) (fn c n : Nat) : (s.use fn c n).poison = s.poison := rfl
@[simp] theorem State.use_bad (s : State) (fn c n : Nat) : (s.use fn c n).bad = s.bad := rfl
@[simp] theorem State.use_weak (s : State) (fn c n : Nat) : (s.use fn c n).weak = s.weak := rfl
@[simp] theorem State.use_badLoc (s : State) (fn c n : Nat) : (s.use fn c n).badLoc = s.badLoc := rfl
@[simp] theorem State.use_icache (s : State) (fn c n : Nat) : (s.use fn c n).icache = s.icache := rfl
@[simp] theorem State.use_regs (s : State) (fn c n : Nat) : (s.use fn c n).regs = s.regs := rfl
@[simp] theorem State.use_now (s : State) (fn c n : Nat) : (s.use fn c n).now = s.now := rfl
@[simp] theorem State.use_locPast (s : State) (fn c n : Nat) : (s.use fn c n).locPast = s.locPast := rfl
@[simp] theorem State.use_memPast (s : State) (fn c n : Nat) : (s.use fn c n).memPast = s.memPast := rfl
@[simp] theorem State.use_tlb (s : State) (fn c n : Nat) : (s.use fn c n).tlb = s.tlb := rfl
@[simp] theorem State.use_walk (s : State) (fn c n : Nat) : (s.use fn c n).walk = s.walk := rfl
@[simp] theorem State.use_gs (s : State) (fn c n : Nat) : (s.use fn c n).gs = s.gs := rfl
@[simp] theorem State.use_gd (s : State) (fn c n : Nat) : (s.use fn c n).gd = s.gd := rfl
@[simp] theorem State.use_genSent (s : State) (fn c n : Nat) : (s.use fn c n).genSent = s.genSent := rfl
@[simp] theorem State.use_scans (s : State) (fn c n : Nat) : (s.use fn c n).scans = s.scans := rfl
@[simp] theorem State.use_gangs (s : State) (fn c n : Nat) : (s.use fn c n).gangs = s.gangs := rfl
@[simp] theorem State.use_ghosts (s : State) (fn c n : Nat) : (s.use fn c n).ghosts = s.ghosts := rfl
@[simp] theorem State.use_launches (s : State) (fn c n : Nat) : (s.use fn c n).launches = s.launches := rfl
@[simp] theorem State.use_nextLaunch (s : State) (fn c n : Nat) : (s.use fn c n).nextLaunch = s.nextLaunch := rfl
@[simp] theorem State.use_completions (s : State) (fn c n : Nat) : (s.use fn c n).completions = s.completions := rfl
@[simp] theorem State.use_ports (s : State) (fn c n : Nat) : (s.use fn c n).ports = s.ports := rfl
@[simp] theorem State.use_tenants (s : State) (fn c n : Nat) : (s.use fn c n).tenants = s.tenants := rfl
@[simp] theorem State.use_reserves (s : State) (fn c n : Nat) : (s.use fn c n).reserves = s.reserves := rfl
@[simp] theorem State.use_weights (s : State) (fn c n : Nat) : (s.use fn c n).weights = s.weights := rfl
@[simp] theorem State.use_charges (s : State) (fn c n : Nat) : (s.use fn c n).charges = s.charges := rfl
@[simp] theorem State.use_landings (s : State) (fn c n : Nat) : (s.use fn c n).landings = s.landings := rfl
@[simp] theorem State.use_counts (s : State) (fn c n : Nat) : (s.use fn c n).counts = s.counts := rfl
@[simp] theorem State.use_copyQ (s : State) (fn c n : Nat) : (s.use fn c n).copyQ = s.copyQ := rfl
@[simp] theorem State.use_units (s : State) (fn c n : Nat) : (s.use fn c n).units = s.units := rfl
@[simp] theorem State.use_drains (s : State) (fn c n : Nat) : (s.use fn c n).drains = s.drains := rfl
@[simp] theorem State.use_tableQ (s : State) (fn c n : Nat) : (s.use fn c n).tableQ = s.tableQ := rfl
@[simp] theorem State.use_nmQ (s : State) (fn c n : Nat) : (s.use fn c n).nmQ = s.nmQ := rfl
@[simp] theorem State.use_nmus (s : State) (fn c n : Nat) : (s.use fn c n).nmus = s.nmus := rfl
@[simp] theorem State.use_resumes (s : State) (fn c n : Nat) : (s.use fn c n).resumes = s.resumes := rfl
@[simp] theorem State.use_loads (s : State) (fn c n : Nat) : (s.use fn c n).loads = s.loads := rfl
@[simp] theorem State.use_indexes (s : State) (fn c n : Nat) : (s.use fn c n).indexes = s.indexes := rfl
@[simp] theorem State.use_ixQ (s : State) (fn c n : Nat) : (s.use fn c n).ixQ = s.ixQ := rfl
@[simp] theorem State.use_ixPaused (s : State) (fn c n : Nat) : (s.use fn c n).ixPaused = s.ixPaused := rfl
@[simp] theorem State.use_store (s : State) (fn c n : Nat) : (s.use fn c n).store = s.store := rfl
@[simp] theorem State.use_rings (s : State) (fn c n : Nat) : (s.use fn c n).rings = s.rings := rfl
@[simp] theorem State.use_bars (s : State) (fn c n : Nat) : (s.use fn c n).bars = s.bars := rfl
@[simp] theorem State.use_reportSeq (s : State) (fn c n : Nat) : (s.use fn c n).reportSeq = s.reportSeq := rfl
@[simp] theorem State.use_epoch (s : State) (fn c n : Nat) : (s.use fn c n).epoch = s.epoch := rfl
@[simp] theorem State.use_erased (s : State) (fn c n : Nat) : (s.use fn c n).erased = s.erased := rfl
@[simp] theorem State.use_keyEpoch (s : State) (fn c n : Nat) : (s.use fn c n).keyEpoch = s.keyEpoch := rfl
@[simp] theorem State.use_quarantined (s : State) (fn c n : Nat) : (s.use fn c n).quarantined = s.quarantined := rfl
@[simp] theorem State.use_inReset (s : State) (fn c n : Nat) : (s.use fn c n).inReset = s.inReset := rfl
@[simp] theorem State.use_budgets (s : State) (fn c n : Nat) : (s.use fn c n).budgets = s.budgets := rfl
@[simp] theorem State.use_nextBudgets (s : State) (fn c n : Nat) : (s.use fn c n).nextBudgets = s.nextBudgets := rfl
@[simp] theorem State.use_period (s : State) (fn c n : Nat) : (s.use fn c n).period = s.period := rfl
@[simp] theorem State.use_reply (s : State) (fn c n : Nat) : (s.use fn c n).reply = s.reply := rfl
@[simp] theorem State.use_replyError (s : State) (fn c n : Nat) : (s.use fn c n).replyError = s.replyError := rfl
@[simp] theorem State.use_retained (s : State) (fn c n : Nat) : (s.use fn c n).retained = s.retained := rfl
@[simp] theorem State.use_monel (s : State) (fn c n : Nat) : (s.use fn c n).monel = s.monel := rfl

/-! ### settleLoc -/

@[simp] theorem State.settleLoc_th (s : State) (k n : Nat) : (s.settleLoc k n).th = s.th := rfl
@[simp] theorem State.settleLoc_others (s : State) (k n : Nat) : (s.settleLoc k n).others = s.others := rfl
@[simp] theorem State.settleLoc_agenda (s : State) (k n : Nat) : (s.settleLoc k n).agenda = s.agenda := rfl
@[simp] theorem State.settleLoc_ev (s : State) (k n : Nat) : (s.settleLoc k n).ev = s.ev := rfl
@[simp] theorem State.settleLoc_nmuAt (s : State) (k n : Nat) : (s.settleLoc k n).nmuAt = s.nmuAt := rfl
@[simp] theorem State.settleLoc_draw (s : State) (k n : Nat) : (s.settleLoc k n).draw = s.draw := rfl
@[simp] theorem State.settleLoc_packets (s : State) (k n : Nat) : (s.settleLoc k n).packets = s.packets := rfl
@[simp] theorem State.settleLoc_clock (s : State) (k n : Nat) : (s.settleLoc k n).clock = s.clock := rfl
@[simp] theorem State.settleLoc_skew (s : State) (k n : Nat) : (s.settleLoc k n).skew = s.skew := rfl
@[simp] theorem State.settleLoc_halted (s : State) (k n : Nat) : (s.settleLoc k n).halted = s.halted := rfl
@[simp] theorem State.settleLoc_bootStep (s : State) (k n : Nat) : (s.settleLoc k n).bootStep = s.bootStep := rfl
@[simp] theorem State.settleLoc_cfg (s : State) (k n : Nat) : (s.settleLoc k n).cfg = s.cfg := rfl
@[simp] theorem State.settleLoc_mem (s : State) (k n : Nat) : (s.settleLoc k n).mem = s.mem := rfl
@[simp] theorem State.settleLoc_loc (s : State) (k n : Nat) : (s.settleLoc k n).loc = s.loc := rfl
@[simp] theorem State.settleLoc_keys (s : State) (k n : Nat) : (s.settleLoc k n).keys = s.keys := rfl
@[simp] theorem State.settleLoc_tags (s : State) (k n : Nat) : (s.settleLoc k n).tags = s.tags := rfl
@[simp] theorem State.settleLoc_poison (s : State) (k n : Nat) : (s.settleLoc k n).poison = s.poison := rfl
@[simp] theorem State.settleLoc_bad (s : State) (k n : Nat) : (s.settleLoc k n).bad = s.bad := rfl
@[simp] theorem State.settleLoc_weak (s : State) (k n : Nat) : (s.settleLoc k n).weak = s.weak := rfl
@[simp] theorem State.settleLoc_badLoc (s : State) (k n : Nat) : (s.settleLoc k n).badLoc = s.badLoc := rfl
@[simp] theorem State.settleLoc_icache (s : State) (k n : Nat) : (s.settleLoc k n).icache = s.icache := rfl
@[simp] theorem State.settleLoc_regs (s : State) (k n : Nat) : (s.settleLoc k n).regs = s.regs := rfl
@[simp] theorem State.settleLoc_now (s : State) (k n : Nat) : (s.settleLoc k n).now = s.now := rfl
@[simp] theorem State.settleLoc_memPast (s : State) (k n : Nat) : (s.settleLoc k n).memPast = s.memPast := rfl
@[simp] theorem State.settleLoc_tlb (s : State) (k n : Nat) : (s.settleLoc k n).tlb = s.tlb := rfl
@[simp] theorem State.settleLoc_walk (s : State) (k n : Nat) : (s.settleLoc k n).walk = s.walk := rfl
@[simp] theorem State.settleLoc_gs (s : State) (k n : Nat) : (s.settleLoc k n).gs = s.gs := rfl
@[simp] theorem State.settleLoc_gd (s : State) (k n : Nat) : (s.settleLoc k n).gd = s.gd := rfl
@[simp] theorem State.settleLoc_genSent (s : State) (k n : Nat) : (s.settleLoc k n).genSent = s.genSent := rfl
@[simp] theorem State.settleLoc_scans (s : State) (k n : Nat) : (s.settleLoc k n).scans = s.scans := rfl
@[simp] theorem State.settleLoc_gangs (s : State) (k n : Nat) : (s.settleLoc k n).gangs = s.gangs := rfl
@[simp] theorem State.settleLoc_ghosts (s : State) (k n : Nat) : (s.settleLoc k n).ghosts = s.ghosts := rfl
@[simp] theorem State.settleLoc_launches (s : State) (k n : Nat) : (s.settleLoc k n).launches = s.launches := rfl
@[simp] theorem State.settleLoc_nextLaunch (s : State) (k n : Nat) : (s.settleLoc k n).nextLaunch = s.nextLaunch := rfl
@[simp] theorem State.settleLoc_completions (s : State) (k n : Nat) : (s.settleLoc k n).completions = s.completions := rfl
@[simp] theorem State.settleLoc_ports (s : State) (k n : Nat) : (s.settleLoc k n).ports = s.ports := rfl
@[simp] theorem State.settleLoc_tenants (s : State) (k n : Nat) : (s.settleLoc k n).tenants = s.tenants := rfl
@[simp] theorem State.settleLoc_reserves (s : State) (k n : Nat) : (s.settleLoc k n).reserves = s.reserves := rfl
@[simp] theorem State.settleLoc_weights (s : State) (k n : Nat) : (s.settleLoc k n).weights = s.weights := rfl
@[simp] theorem State.settleLoc_charges (s : State) (k n : Nat) : (s.settleLoc k n).charges = s.charges := rfl
@[simp] theorem State.settleLoc_landings (s : State) (k n : Nat) : (s.settleLoc k n).landings = s.landings := rfl
@[simp] theorem State.settleLoc_counts (s : State) (k n : Nat) : (s.settleLoc k n).counts = s.counts := rfl
@[simp] theorem State.settleLoc_copyQ (s : State) (k n : Nat) : (s.settleLoc k n).copyQ = s.copyQ := rfl
@[simp] theorem State.settleLoc_units (s : State) (k n : Nat) : (s.settleLoc k n).units = s.units := rfl
@[simp] theorem State.settleLoc_drains (s : State) (k n : Nat) : (s.settleLoc k n).drains = s.drains := rfl
@[simp] theorem State.settleLoc_tableQ (s : State) (k n : Nat) : (s.settleLoc k n).tableQ = s.tableQ := rfl
@[simp] theorem State.settleLoc_nmQ (s : State) (k n : Nat) : (s.settleLoc k n).nmQ = s.nmQ := rfl
@[simp] theorem State.settleLoc_nmus (s : State) (k n : Nat) : (s.settleLoc k n).nmus = s.nmus := rfl
@[simp] theorem State.settleLoc_resumes (s : State) (k n : Nat) : (s.settleLoc k n).resumes = s.resumes := rfl
@[simp] theorem State.settleLoc_loads (s : State) (k n : Nat) : (s.settleLoc k n).loads = s.loads := rfl
@[simp] theorem State.settleLoc_indexes (s : State) (k n : Nat) : (s.settleLoc k n).indexes = s.indexes := rfl
@[simp] theorem State.settleLoc_ixQ (s : State) (k n : Nat) : (s.settleLoc k n).ixQ = s.ixQ := rfl
@[simp] theorem State.settleLoc_ixPaused (s : State) (k n : Nat) : (s.settleLoc k n).ixPaused = s.ixPaused := rfl
@[simp] theorem State.settleLoc_store (s : State) (k n : Nat) : (s.settleLoc k n).store = s.store := rfl
@[simp] theorem State.settleLoc_rings (s : State) (k n : Nat) : (s.settleLoc k n).rings = s.rings := rfl
@[simp] theorem State.settleLoc_usage (s : State) (k n : Nat) : (s.settleLoc k n).usage = s.usage := rfl
@[simp] theorem State.settleLoc_bars (s : State) (k n : Nat) : (s.settleLoc k n).bars = s.bars := rfl
@[simp] theorem State.settleLoc_reportSeq (s : State) (k n : Nat) : (s.settleLoc k n).reportSeq = s.reportSeq := rfl
@[simp] theorem State.settleLoc_epoch (s : State) (k n : Nat) : (s.settleLoc k n).epoch = s.epoch := rfl
@[simp] theorem State.settleLoc_erased (s : State) (k n : Nat) : (s.settleLoc k n).erased = s.erased := rfl
@[simp] theorem State.settleLoc_keyEpoch (s : State) (k n : Nat) : (s.settleLoc k n).keyEpoch = s.keyEpoch := rfl
@[simp] theorem State.settleLoc_quarantined (s : State) (k n : Nat) : (s.settleLoc k n).quarantined = s.quarantined := rfl
@[simp] theorem State.settleLoc_inReset (s : State) (k n : Nat) : (s.settleLoc k n).inReset = s.inReset := rfl
@[simp] theorem State.settleLoc_budgets (s : State) (k n : Nat) : (s.settleLoc k n).budgets = s.budgets := rfl
@[simp] theorem State.settleLoc_nextBudgets (s : State) (k n : Nat) : (s.settleLoc k n).nextBudgets = s.nextBudgets := rfl
@[simp] theorem State.settleLoc_period (s : State) (k n : Nat) : (s.settleLoc k n).period = s.period := rfl
@[simp] theorem State.settleLoc_reply (s : State) (k n : Nat) : (s.settleLoc k n).reply = s.reply := rfl
@[simp] theorem State.settleLoc_replyError (s : State) (k n : Nat) : (s.settleLoc k n).replyError = s.replyError := rfl
@[simp] theorem State.settleLoc_retained (s : State) (k n : Nat) : (s.settleLoc k n).retained = s.retained := rfl
@[simp] theorem State.settleLoc_monel (s : State) (k n : Nat) : (s.settleLoc k n).monel = s.monel := rfl

/-! ### settleMem -/

@[simp] theorem State.settleMem_th (s : State) (a n : Nat) : (s.settleMem a n).th = s.th := rfl
@[simp] theorem State.settleMem_others (s : State) (a n : Nat) : (s.settleMem a n).others = s.others := rfl
@[simp] theorem State.settleMem_agenda (s : State) (a n : Nat) : (s.settleMem a n).agenda = s.agenda := rfl
@[simp] theorem State.settleMem_ev (s : State) (a n : Nat) : (s.settleMem a n).ev = s.ev := rfl
@[simp] theorem State.settleMem_nmuAt (s : State) (a n : Nat) : (s.settleMem a n).nmuAt = s.nmuAt := rfl
@[simp] theorem State.settleMem_draw (s : State) (a n : Nat) : (s.settleMem a n).draw = s.draw := rfl
@[simp] theorem State.settleMem_packets (s : State) (a n : Nat) : (s.settleMem a n).packets = s.packets := rfl
@[simp] theorem State.settleMem_clock (s : State) (a n : Nat) : (s.settleMem a n).clock = s.clock := rfl
@[simp] theorem State.settleMem_skew (s : State) (a n : Nat) : (s.settleMem a n).skew = s.skew := rfl
@[simp] theorem State.settleMem_halted (s : State) (a n : Nat) : (s.settleMem a n).halted = s.halted := rfl
@[simp] theorem State.settleMem_bootStep (s : State) (a n : Nat) : (s.settleMem a n).bootStep = s.bootStep := rfl
@[simp] theorem State.settleMem_cfg (s : State) (a n : Nat) : (s.settleMem a n).cfg = s.cfg := rfl
@[simp] theorem State.settleMem_mem (s : State) (a n : Nat) : (s.settleMem a n).mem = s.mem := rfl
@[simp] theorem State.settleMem_loc (s : State) (a n : Nat) : (s.settleMem a n).loc = s.loc := rfl
@[simp] theorem State.settleMem_keys (s : State) (a n : Nat) : (s.settleMem a n).keys = s.keys := rfl
@[simp] theorem State.settleMem_tags (s : State) (a n : Nat) : (s.settleMem a n).tags = s.tags := rfl
@[simp] theorem State.settleMem_poison (s : State) (a n : Nat) : (s.settleMem a n).poison = s.poison := rfl
@[simp] theorem State.settleMem_bad (s : State) (a n : Nat) : (s.settleMem a n).bad = s.bad := rfl
@[simp] theorem State.settleMem_weak (s : State) (a n : Nat) : (s.settleMem a n).weak = s.weak := rfl
@[simp] theorem State.settleMem_badLoc (s : State) (a n : Nat) : (s.settleMem a n).badLoc = s.badLoc := rfl
@[simp] theorem State.settleMem_icache (s : State) (a n : Nat) : (s.settleMem a n).icache = s.icache := rfl
@[simp] theorem State.settleMem_regs (s : State) (a n : Nat) : (s.settleMem a n).regs = s.regs := rfl
@[simp] theorem State.settleMem_now (s : State) (a n : Nat) : (s.settleMem a n).now = s.now := rfl
@[simp] theorem State.settleMem_locPast (s : State) (a n : Nat) : (s.settleMem a n).locPast = s.locPast := rfl
@[simp] theorem State.settleMem_tlb (s : State) (a n : Nat) : (s.settleMem a n).tlb = s.tlb := rfl
@[simp] theorem State.settleMem_walk (s : State) (a n : Nat) : (s.settleMem a n).walk = s.walk := rfl
@[simp] theorem State.settleMem_gs (s : State) (a n : Nat) : (s.settleMem a n).gs = s.gs := rfl
@[simp] theorem State.settleMem_gd (s : State) (a n : Nat) : (s.settleMem a n).gd = s.gd := rfl
@[simp] theorem State.settleMem_genSent (s : State) (a n : Nat) : (s.settleMem a n).genSent = s.genSent := rfl
@[simp] theorem State.settleMem_scans (s : State) (a n : Nat) : (s.settleMem a n).scans = s.scans := rfl
@[simp] theorem State.settleMem_gangs (s : State) (a n : Nat) : (s.settleMem a n).gangs = s.gangs := rfl
@[simp] theorem State.settleMem_ghosts (s : State) (a n : Nat) : (s.settleMem a n).ghosts = s.ghosts := rfl
@[simp] theorem State.settleMem_launches (s : State) (a n : Nat) : (s.settleMem a n).launches = s.launches := rfl
@[simp] theorem State.settleMem_nextLaunch (s : State) (a n : Nat) : (s.settleMem a n).nextLaunch = s.nextLaunch := rfl
@[simp] theorem State.settleMem_completions (s : State) (a n : Nat) : (s.settleMem a n).completions = s.completions := rfl
@[simp] theorem State.settleMem_ports (s : State) (a n : Nat) : (s.settleMem a n).ports = s.ports := rfl
@[simp] theorem State.settleMem_tenants (s : State) (a n : Nat) : (s.settleMem a n).tenants = s.tenants := rfl
@[simp] theorem State.settleMem_reserves (s : State) (a n : Nat) : (s.settleMem a n).reserves = s.reserves := rfl
@[simp] theorem State.settleMem_weights (s : State) (a n : Nat) : (s.settleMem a n).weights = s.weights := rfl
@[simp] theorem State.settleMem_charges (s : State) (a n : Nat) : (s.settleMem a n).charges = s.charges := rfl
@[simp] theorem State.settleMem_landings (s : State) (a n : Nat) : (s.settleMem a n).landings = s.landings := rfl
@[simp] theorem State.settleMem_counts (s : State) (a n : Nat) : (s.settleMem a n).counts = s.counts := rfl
@[simp] theorem State.settleMem_copyQ (s : State) (a n : Nat) : (s.settleMem a n).copyQ = s.copyQ := rfl
@[simp] theorem State.settleMem_units (s : State) (a n : Nat) : (s.settleMem a n).units = s.units := rfl
@[simp] theorem State.settleMem_drains (s : State) (a n : Nat) : (s.settleMem a n).drains = s.drains := rfl
@[simp] theorem State.settleMem_tableQ (s : State) (a n : Nat) : (s.settleMem a n).tableQ = s.tableQ := rfl
@[simp] theorem State.settleMem_nmQ (s : State) (a n : Nat) : (s.settleMem a n).nmQ = s.nmQ := rfl
@[simp] theorem State.settleMem_nmus (s : State) (a n : Nat) : (s.settleMem a n).nmus = s.nmus := rfl
@[simp] theorem State.settleMem_resumes (s : State) (a n : Nat) : (s.settleMem a n).resumes = s.resumes := rfl
@[simp] theorem State.settleMem_loads (s : State) (a n : Nat) : (s.settleMem a n).loads = s.loads := rfl
@[simp] theorem State.settleMem_indexes (s : State) (a n : Nat) : (s.settleMem a n).indexes = s.indexes := rfl
@[simp] theorem State.settleMem_ixQ (s : State) (a n : Nat) : (s.settleMem a n).ixQ = s.ixQ := rfl
@[simp] theorem State.settleMem_ixPaused (s : State) (a n : Nat) : (s.settleMem a n).ixPaused = s.ixPaused := rfl
@[simp] theorem State.settleMem_store (s : State) (a n : Nat) : (s.settleMem a n).store = s.store := rfl
@[simp] theorem State.settleMem_rings (s : State) (a n : Nat) : (s.settleMem a n).rings = s.rings := rfl
@[simp] theorem State.settleMem_usage (s : State) (a n : Nat) : (s.settleMem a n).usage = s.usage := rfl
@[simp] theorem State.settleMem_bars (s : State) (a n : Nat) : (s.settleMem a n).bars = s.bars := rfl
@[simp] theorem State.settleMem_reportSeq (s : State) (a n : Nat) : (s.settleMem a n).reportSeq = s.reportSeq := rfl
@[simp] theorem State.settleMem_epoch (s : State) (a n : Nat) : (s.settleMem a n).epoch = s.epoch := rfl
@[simp] theorem State.settleMem_erased (s : State) (a n : Nat) : (s.settleMem a n).erased = s.erased := rfl
@[simp] theorem State.settleMem_keyEpoch (s : State) (a n : Nat) : (s.settleMem a n).keyEpoch = s.keyEpoch := rfl
@[simp] theorem State.settleMem_quarantined (s : State) (a n : Nat) : (s.settleMem a n).quarantined = s.quarantined := rfl
@[simp] theorem State.settleMem_inReset (s : State) (a n : Nat) : (s.settleMem a n).inReset = s.inReset := rfl
@[simp] theorem State.settleMem_budgets (s : State) (a n : Nat) : (s.settleMem a n).budgets = s.budgets := rfl
@[simp] theorem State.settleMem_nextBudgets (s : State) (a n : Nat) : (s.settleMem a n).nextBudgets = s.nextBudgets := rfl
@[simp] theorem State.settleMem_period (s : State) (a n : Nat) : (s.settleMem a n).period = s.period := rfl
@[simp] theorem State.settleMem_reply (s : State) (a n : Nat) : (s.settleMem a n).reply = s.reply := rfl
@[simp] theorem State.settleMem_replyError (s : State) (a n : Nat) : (s.settleMem a n).replyError = s.replyError := rfl
@[simp] theorem State.settleMem_retained (s : State) (a n : Nat) : (s.settleMem a n).retained = s.retained := rfl
@[simp] theorem State.settleMem_monel (s : State) (a n : Nat) : (s.settleMem a n).monel = s.monel := rfl

/-! ### mapPast -/

@[simp] theorem State.mapPast_th (s : State) (f : Past → Past) : (s.mapPast f).th = s.th := rfl
@[simp] theorem State.mapPast_others (s : State) (f : Past → Past) : (s.mapPast f).others = s.others := rfl
@[simp] theorem State.mapPast_agenda (s : State) (f : Past → Past) : (s.mapPast f).agenda = s.agenda := rfl
@[simp] theorem State.mapPast_ev (s : State) (f : Past → Past) : (s.mapPast f).ev = s.ev := rfl
@[simp] theorem State.mapPast_nmuAt (s : State) (f : Past → Past) : (s.mapPast f).nmuAt = s.nmuAt := rfl
@[simp] theorem State.mapPast_draw (s : State) (f : Past → Past) : (s.mapPast f).draw = s.draw := rfl
@[simp] theorem State.mapPast_packets (s : State) (f : Past → Past) : (s.mapPast f).packets = s.packets := rfl
@[simp] theorem State.mapPast_clock (s : State) (f : Past → Past) : (s.mapPast f).clock = s.clock := rfl
@[simp] theorem State.mapPast_skew (s : State) (f : Past → Past) : (s.mapPast f).skew = s.skew := rfl
@[simp] theorem State.mapPast_halted (s : State) (f : Past → Past) : (s.mapPast f).halted = s.halted := rfl
@[simp] theorem State.mapPast_bootStep (s : State) (f : Past → Past) : (s.mapPast f).bootStep = s.bootStep := rfl
@[simp] theorem State.mapPast_cfg (s : State) (f : Past → Past) : (s.mapPast f).cfg = s.cfg := rfl
@[simp] theorem State.mapPast_mem (s : State) (f : Past → Past) : (s.mapPast f).mem = s.mem := rfl
@[simp] theorem State.mapPast_loc (s : State) (f : Past → Past) : (s.mapPast f).loc = s.loc := rfl
@[simp] theorem State.mapPast_keys (s : State) (f : Past → Past) : (s.mapPast f).keys = s.keys := rfl
@[simp] theorem State.mapPast_tags (s : State) (f : Past → Past) : (s.mapPast f).tags = s.tags := rfl
@[simp] theorem State.mapPast_poison (s : State) (f : Past → Past) : (s.mapPast f).poison = s.poison := rfl
@[simp] theorem State.mapPast_bad (s : State) (f : Past → Past) : (s.mapPast f).bad = s.bad := rfl
@[simp] theorem State.mapPast_weak (s : State) (f : Past → Past) : (s.mapPast f).weak = s.weak := rfl
@[simp] theorem State.mapPast_badLoc (s : State) (f : Past → Past) : (s.mapPast f).badLoc = s.badLoc := rfl
@[simp] theorem State.mapPast_icache (s : State) (f : Past → Past) : (s.mapPast f).icache = s.icache := rfl
@[simp] theorem State.mapPast_regs (s : State) (f : Past → Past) : (s.mapPast f).regs = s.regs := rfl
@[simp] theorem State.mapPast_now (s : State) (f : Past → Past) : (s.mapPast f).now = s.now := rfl
@[simp] theorem State.mapPast_tlb (s : State) (f : Past → Past) : (s.mapPast f).tlb = s.tlb := rfl
@[simp] theorem State.mapPast_walk (s : State) (f : Past → Past) : (s.mapPast f).walk = s.walk := rfl
@[simp] theorem State.mapPast_gs (s : State) (f : Past → Past) : (s.mapPast f).gs = s.gs := rfl
@[simp] theorem State.mapPast_gd (s : State) (f : Past → Past) : (s.mapPast f).gd = s.gd := rfl
@[simp] theorem State.mapPast_genSent (s : State) (f : Past → Past) : (s.mapPast f).genSent = s.genSent := rfl
@[simp] theorem State.mapPast_scans (s : State) (f : Past → Past) : (s.mapPast f).scans = s.scans := rfl
@[simp] theorem State.mapPast_gangs (s : State) (f : Past → Past) : (s.mapPast f).gangs = s.gangs := rfl
@[simp] theorem State.mapPast_ghosts (s : State) (f : Past → Past) : (s.mapPast f).ghosts = s.ghosts := rfl
@[simp] theorem State.mapPast_launches (s : State) (f : Past → Past) : (s.mapPast f).launches = s.launches := rfl
@[simp] theorem State.mapPast_nextLaunch (s : State) (f : Past → Past) : (s.mapPast f).nextLaunch = s.nextLaunch := rfl
@[simp] theorem State.mapPast_completions (s : State) (f : Past → Past) : (s.mapPast f).completions = s.completions := rfl
@[simp] theorem State.mapPast_ports (s : State) (f : Past → Past) : (s.mapPast f).ports = s.ports := rfl
@[simp] theorem State.mapPast_tenants (s : State) (f : Past → Past) : (s.mapPast f).tenants = s.tenants := rfl
@[simp] theorem State.mapPast_reserves (s : State) (f : Past → Past) : (s.mapPast f).reserves = s.reserves := rfl
@[simp] theorem State.mapPast_weights (s : State) (f : Past → Past) : (s.mapPast f).weights = s.weights := rfl
@[simp] theorem State.mapPast_charges (s : State) (f : Past → Past) : (s.mapPast f).charges = s.charges := rfl
@[simp] theorem State.mapPast_landings (s : State) (f : Past → Past) : (s.mapPast f).landings = s.landings := rfl
@[simp] theorem State.mapPast_counts (s : State) (f : Past → Past) : (s.mapPast f).counts = s.counts := rfl
@[simp] theorem State.mapPast_copyQ (s : State) (f : Past → Past) : (s.mapPast f).copyQ = s.copyQ := rfl
@[simp] theorem State.mapPast_units (s : State) (f : Past → Past) : (s.mapPast f).units = s.units := rfl
@[simp] theorem State.mapPast_drains (s : State) (f : Past → Past) : (s.mapPast f).drains = s.drains := rfl
@[simp] theorem State.mapPast_tableQ (s : State) (f : Past → Past) : (s.mapPast f).tableQ = s.tableQ := rfl
@[simp] theorem State.mapPast_nmQ (s : State) (f : Past → Past) : (s.mapPast f).nmQ = s.nmQ := rfl
@[simp] theorem State.mapPast_nmus (s : State) (f : Past → Past) : (s.mapPast f).nmus = s.nmus := rfl
@[simp] theorem State.mapPast_resumes (s : State) (f : Past → Past) : (s.mapPast f).resumes = s.resumes := rfl
@[simp] theorem State.mapPast_loads (s : State) (f : Past → Past) : (s.mapPast f).loads = s.loads := rfl
@[simp] theorem State.mapPast_indexes (s : State) (f : Past → Past) : (s.mapPast f).indexes = s.indexes := rfl
@[simp] theorem State.mapPast_ixQ (s : State) (f : Past → Past) : (s.mapPast f).ixQ = s.ixQ := rfl
@[simp] theorem State.mapPast_ixPaused (s : State) (f : Past → Past) : (s.mapPast f).ixPaused = s.ixPaused := rfl
@[simp] theorem State.mapPast_store (s : State) (f : Past → Past) : (s.mapPast f).store = s.store := rfl
@[simp] theorem State.mapPast_rings (s : State) (f : Past → Past) : (s.mapPast f).rings = s.rings := rfl
@[simp] theorem State.mapPast_usage (s : State) (f : Past → Past) : (s.mapPast f).usage = s.usage := rfl
@[simp] theorem State.mapPast_bars (s : State) (f : Past → Past) : (s.mapPast f).bars = s.bars := rfl
@[simp] theorem State.mapPast_reportSeq (s : State) (f : Past → Past) : (s.mapPast f).reportSeq = s.reportSeq := rfl
@[simp] theorem State.mapPast_epoch (s : State) (f : Past → Past) : (s.mapPast f).epoch = s.epoch := rfl
@[simp] theorem State.mapPast_erased (s : State) (f : Past → Past) : (s.mapPast f).erased = s.erased := rfl
@[simp] theorem State.mapPast_keyEpoch (s : State) (f : Past → Past) : (s.mapPast f).keyEpoch = s.keyEpoch := rfl
@[simp] theorem State.mapPast_quarantined (s : State) (f : Past → Past) : (s.mapPast f).quarantined = s.quarantined := rfl
@[simp] theorem State.mapPast_inReset (s : State) (f : Past → Past) : (s.mapPast f).inReset = s.inReset := rfl
@[simp] theorem State.mapPast_budgets (s : State) (f : Past → Past) : (s.mapPast f).budgets = s.budgets := rfl
@[simp] theorem State.mapPast_nextBudgets (s : State) (f : Past → Past) : (s.mapPast f).nextBudgets = s.nextBudgets := rfl
@[simp] theorem State.mapPast_period (s : State) (f : Past → Past) : (s.mapPast f).period = s.period := rfl
@[simp] theorem State.mapPast_reply (s : State) (f : Past → Past) : (s.mapPast f).reply = s.reply := rfl
@[simp] theorem State.mapPast_replyError (s : State) (f : Past → Past) : (s.mapPast f).replyError = s.replyError := rfl
@[simp] theorem State.mapPast_retained (s : State) (f : Past → Past) : (s.mapPast f).retained = s.retained := rfl
@[simp] theorem State.mapPast_monel (s : State) (f : Past → Past) : (s.mapPast f).monel = s.monel := rfl

/-! ### fire -/

@[simp] theorem State.fire_th (s : State) (v : View) : (s.fire v).th = s.th := by unfold State.fire; split <;> rfl
@[simp] theorem State.fire_others (s : State) (v : View) : (s.fire v).others = s.others := by unfold State.fire; split <;> rfl
@[simp] theorem State.fire_agenda (s : State) (v : View) : (s.fire v).agenda = s.agenda := by unfold State.fire; split <;> rfl
@[simp] theorem State.fire_ev (s : State) (v : View) : (s.fire v).ev = s.ev := by unfold State.fire; split <;> rfl
@[simp] theorem State.fire_nmuAt (s : State) (v : View) : (s.fire v).nmuAt = s.nmuAt := by unfold State.fire; split <;> rfl
@[simp] theorem State.fire_draw (s : State) (v : View) : (s.fire v).draw = s.draw := by unfold State.fire; split <;> rfl
@[simp] theorem State.fire_packets (s : State) (v : View) : (s.fire v).packets = s.packets := by unfold State.fire; split <;> rfl
@[simp] theorem State.fire_clock (s : State) (v : View) : (s.fire v).clock = s.clock := by unfold State.fire; split <;> rfl
@[simp] theorem State.fire_skew (s : State) (v : View) : (s.fire v).skew = s.skew := by unfold State.fire; split <;> rfl
@[simp] theorem State.fire_halted (s : State) (v : View) : (s.fire v).halted = s.halted := by unfold State.fire; split <;> rfl
@[simp] theorem State.fire_bootStep (s : State) (v : View) : (s.fire v).bootStep = s.bootStep := by unfold State.fire; split <;> rfl
@[simp] theorem State.fire_cfg (s : State) (v : View) : (s.fire v).cfg = s.cfg := by unfold State.fire; split <;> rfl
@[simp] theorem State.fire_mem (s : State) (v : View) : (s.fire v).mem = s.mem := by unfold State.fire; split <;> rfl
@[simp] theorem State.fire_loc (s : State) (v : View) : (s.fire v).loc = s.loc := by unfold State.fire; split <;> rfl
@[simp] theorem State.fire_keys (s : State) (v : View) : (s.fire v).keys = s.keys := by unfold State.fire; split <;> rfl
@[simp] theorem State.fire_tags (s : State) (v : View) : (s.fire v).tags = s.tags := by unfold State.fire; split <;> rfl
@[simp] theorem State.fire_poison (s : State) (v : View) : (s.fire v).poison = s.poison := by unfold State.fire; split <;> rfl
@[simp] theorem State.fire_bad (s : State) (v : View) : (s.fire v).bad = s.bad := by unfold State.fire; split <;> rfl
@[simp] theorem State.fire_weak (s : State) (v : View) : (s.fire v).weak = s.weak := by unfold State.fire; split <;> rfl
@[simp] theorem State.fire_badLoc (s : State) (v : View) : (s.fire v).badLoc = s.badLoc := by unfold State.fire; split <;> rfl
@[simp] theorem State.fire_icache (s : State) (v : View) : (s.fire v).icache = s.icache := by unfold State.fire; split <;> rfl
@[simp] theorem State.fire_regs (s : State) (v : View) : (s.fire v).regs = s.regs := by unfold State.fire; split <;> rfl
@[simp] theorem State.fire_now (s : State) (v : View) : (s.fire v).now = s.now := by unfold State.fire; split <;> rfl
@[simp] theorem State.fire_tlb (s : State) (v : View) : (s.fire v).tlb = s.tlb := by unfold State.fire; split <;> rfl
@[simp] theorem State.fire_walk (s : State) (v : View) : (s.fire v).walk = s.walk := by unfold State.fire; split <;> rfl
@[simp] theorem State.fire_gs (s : State) (v : View) : (s.fire v).gs = s.gs := by unfold State.fire; split <;> rfl
@[simp] theorem State.fire_gd (s : State) (v : View) : (s.fire v).gd = s.gd := by unfold State.fire; split <;> rfl
@[simp] theorem State.fire_genSent (s : State) (v : View) : (s.fire v).genSent = s.genSent := by unfold State.fire; split <;> rfl
@[simp] theorem State.fire_scans (s : State) (v : View) : (s.fire v).scans = s.scans := by unfold State.fire; split <;> rfl
@[simp] theorem State.fire_gangs (s : State) (v : View) : (s.fire v).gangs = s.gangs := by unfold State.fire; split <;> rfl
@[simp] theorem State.fire_ghosts (s : State) (v : View) : (s.fire v).ghosts = s.ghosts := by unfold State.fire; split <;> rfl
@[simp] theorem State.fire_launches (s : State) (v : View) : (s.fire v).launches = s.launches := by unfold State.fire; split <;> rfl
@[simp] theorem State.fire_nextLaunch (s : State) (v : View) : (s.fire v).nextLaunch = s.nextLaunch := by unfold State.fire; split <;> rfl
@[simp] theorem State.fire_completions (s : State) (v : View) : (s.fire v).completions = s.completions := by unfold State.fire; split <;> rfl
@[simp] theorem State.fire_ports (s : State) (v : View) : (s.fire v).ports = s.ports := by unfold State.fire; split <;> rfl
@[simp] theorem State.fire_tenants (s : State) (v : View) : (s.fire v).tenants = s.tenants := by unfold State.fire; split <;> rfl
@[simp] theorem State.fire_reserves (s : State) (v : View) : (s.fire v).reserves = s.reserves := by unfold State.fire; split <;> rfl
@[simp] theorem State.fire_weights (s : State) (v : View) : (s.fire v).weights = s.weights := by unfold State.fire; split <;> rfl
@[simp] theorem State.fire_charges (s : State) (v : View) : (s.fire v).charges = s.charges := by unfold State.fire; split <;> rfl
@[simp] theorem State.fire_landings (s : State) (v : View) : (s.fire v).landings = s.landings := by unfold State.fire; split <;> rfl
@[simp] theorem State.fire_counts (s : State) (v : View) : (s.fire v).counts = s.counts := by unfold State.fire; split <;> rfl
@[simp] theorem State.fire_copyQ (s : State) (v : View) : (s.fire v).copyQ = s.copyQ := by unfold State.fire; split <;> rfl
@[simp] theorem State.fire_units (s : State) (v : View) : (s.fire v).units = s.units := by unfold State.fire; split <;> rfl
@[simp] theorem State.fire_drains (s : State) (v : View) : (s.fire v).drains = s.drains := by unfold State.fire; split <;> rfl
@[simp] theorem State.fire_tableQ (s : State) (v : View) : (s.fire v).tableQ = s.tableQ := by unfold State.fire; split <;> rfl
@[simp] theorem State.fire_nmQ (s : State) (v : View) : (s.fire v).nmQ = s.nmQ := by unfold State.fire; split <;> rfl
@[simp] theorem State.fire_nmus (s : State) (v : View) : (s.fire v).nmus = s.nmus := by unfold State.fire; split <;> rfl
@[simp] theorem State.fire_resumes (s : State) (v : View) : (s.fire v).resumes = s.resumes := by unfold State.fire; split <;> rfl
@[simp] theorem State.fire_loads (s : State) (v : View) : (s.fire v).loads = s.loads := by unfold State.fire; split <;> rfl
@[simp] theorem State.fire_indexes (s : State) (v : View) : (s.fire v).indexes = s.indexes := by unfold State.fire; split <;> rfl
@[simp] theorem State.fire_ixQ (s : State) (v : View) : (s.fire v).ixQ = s.ixQ := by unfold State.fire; split <;> rfl
@[simp] theorem State.fire_ixPaused (s : State) (v : View) : (s.fire v).ixPaused = s.ixPaused := by unfold State.fire; split <;> rfl
@[simp] theorem State.fire_store (s : State) (v : View) : (s.fire v).store = s.store := by unfold State.fire; split <;> rfl
@[simp] theorem State.fire_rings (s : State) (v : View) : (s.fire v).rings = s.rings := by unfold State.fire; split <;> rfl
@[simp] theorem State.fire_usage (s : State) (v : View) : (s.fire v).usage = s.usage := by unfold State.fire; split <;> rfl
@[simp] theorem State.fire_bars (s : State) (v : View) : (s.fire v).bars = s.bars := by unfold State.fire; split <;> rfl
@[simp] theorem State.fire_reportSeq (s : State) (v : View) : (s.fire v).reportSeq = s.reportSeq := by unfold State.fire; split <;> rfl
@[simp] theorem State.fire_epoch (s : State) (v : View) : (s.fire v).epoch = s.epoch := by unfold State.fire; split <;> rfl
@[simp] theorem State.fire_erased (s : State) (v : View) : (s.fire v).erased = s.erased := by unfold State.fire; split <;> rfl
@[simp] theorem State.fire_keyEpoch (s : State) (v : View) : (s.fire v).keyEpoch = s.keyEpoch := by unfold State.fire; split <;> rfl
@[simp] theorem State.fire_quarantined (s : State) (v : View) : (s.fire v).quarantined = s.quarantined := by unfold State.fire; split <;> rfl
@[simp] theorem State.fire_inReset (s : State) (v : View) : (s.fire v).inReset = s.inReset := by unfold State.fire; split <;> rfl
@[simp] theorem State.fire_budgets (s : State) (v : View) : (s.fire v).budgets = s.budgets := by unfold State.fire; split <;> rfl
@[simp] theorem State.fire_nextBudgets (s : State) (v : View) : (s.fire v).nextBudgets = s.nextBudgets := by unfold State.fire; split <;> rfl
@[simp] theorem State.fire_period (s : State) (v : View) : (s.fire v).period = s.period := by unfold State.fire; split <;> rfl
@[simp] theorem State.fire_reply (s : State) (v : View) : (s.fire v).reply = s.reply := by unfold State.fire; split <;> rfl
@[simp] theorem State.fire_replyError (s : State) (v : View) : (s.fire v).replyError = s.replyError := by unfold State.fire; split <;> rfl
@[simp] theorem State.fire_retained (s : State) (v : View) : (s.fire v).retained = s.retained := by unfold State.fire; split <;> rfl
@[simp] theorem State.fire_monel (s : State) (v : View) : (s.fire v).monel = s.monel := by unfold State.fire; split <;> rfl

/-! ### noteKey -/

@[simp] theorem State.noteKey_th (s : State) (v : View) (k : Nat) (m : BitVec 8) : (s.noteKey v k m).th = s.th := s.fire_th v
@[simp] theorem State.noteKey_others (s : State) (v : View) (k : Nat) (m : BitVec 8) : (s.noteKey v k m).others = s.others := s.fire_others v
@[simp] theorem State.noteKey_agenda (s : State) (v : View) (k : Nat) (m : BitVec 8) : (s.noteKey v k m).agenda = s.agenda := s.fire_agenda v
@[simp] theorem State.noteKey_ev (s : State) (v : View) (k : Nat) (m : BitVec 8) : (s.noteKey v k m).ev = s.ev := s.fire_ev v
@[simp] theorem State.noteKey_nmuAt (s : State) (v : View) (k : Nat) (m : BitVec 8) : (s.noteKey v k m).nmuAt = s.nmuAt := s.fire_nmuAt v
@[simp] theorem State.noteKey_draw (s : State) (v : View) (k : Nat) (m : BitVec 8) : (s.noteKey v k m).draw = s.draw := s.fire_draw v
@[simp] theorem State.noteKey_packets (s : State) (v : View) (k : Nat) (m : BitVec 8) : (s.noteKey v k m).packets = s.packets := s.fire_packets v
@[simp] theorem State.noteKey_clock (s : State) (v : View) (k : Nat) (m : BitVec 8) : (s.noteKey v k m).clock = s.clock := s.fire_clock v
@[simp] theorem State.noteKey_skew (s : State) (v : View) (k : Nat) (m : BitVec 8) : (s.noteKey v k m).skew = s.skew := s.fire_skew v
@[simp] theorem State.noteKey_halted (s : State) (v : View) (k : Nat) (m : BitVec 8) : (s.noteKey v k m).halted = s.halted := s.fire_halted v
@[simp] theorem State.noteKey_bootStep (s : State) (v : View) (k : Nat) (m : BitVec 8) : (s.noteKey v k m).bootStep = s.bootStep := s.fire_bootStep v
@[simp] theorem State.noteKey_cfg (s : State) (v : View) (k : Nat) (m : BitVec 8) : (s.noteKey v k m).cfg = s.cfg := s.fire_cfg v
@[simp] theorem State.noteKey_mem (s : State) (v : View) (k : Nat) (m : BitVec 8) : (s.noteKey v k m).mem = s.mem := s.fire_mem v
@[simp] theorem State.noteKey_loc (s : State) (v : View) (k : Nat) (m : BitVec 8) : (s.noteKey v k m).loc = s.loc := s.fire_loc v
@[simp] theorem State.noteKey_keys (s : State) (v : View) (k : Nat) (m : BitVec 8) : (s.noteKey v k m).keys = s.keys := s.fire_keys v
@[simp] theorem State.noteKey_tags (s : State) (v : View) (k : Nat) (m : BitVec 8) : (s.noteKey v k m).tags = s.tags := s.fire_tags v
@[simp] theorem State.noteKey_poison (s : State) (v : View) (k : Nat) (m : BitVec 8) : (s.noteKey v k m).poison = s.poison := s.fire_poison v
@[simp] theorem State.noteKey_bad (s : State) (v : View) (k : Nat) (m : BitVec 8) : (s.noteKey v k m).bad = s.bad := s.fire_bad v
@[simp] theorem State.noteKey_weak (s : State) (v : View) (k : Nat) (m : BitVec 8) : (s.noteKey v k m).weak = s.weak := s.fire_weak v
@[simp] theorem State.noteKey_badLoc (s : State) (v : View) (k : Nat) (m : BitVec 8) : (s.noteKey v k m).badLoc = s.badLoc := s.fire_badLoc v
@[simp] theorem State.noteKey_icache (s : State) (v : View) (k : Nat) (m : BitVec 8) : (s.noteKey v k m).icache = s.icache := s.fire_icache v
@[simp] theorem State.noteKey_regs (s : State) (v : View) (k : Nat) (m : BitVec 8) : (s.noteKey v k m).regs = s.regs := s.fire_regs v
@[simp] theorem State.noteKey_now (s : State) (v : View) (k : Nat) (m : BitVec 8) : (s.noteKey v k m).now = s.now := s.fire_now v
@[simp] theorem State.noteKey_tlb (s : State) (v : View) (k : Nat) (m : BitVec 8) : (s.noteKey v k m).tlb = s.tlb := s.fire_tlb v
@[simp] theorem State.noteKey_walk (s : State) (v : View) (k : Nat) (m : BitVec 8) : (s.noteKey v k m).walk = s.walk := s.fire_walk v
@[simp] theorem State.noteKey_gs (s : State) (v : View) (k : Nat) (m : BitVec 8) : (s.noteKey v k m).gs = s.gs := s.fire_gs v
@[simp] theorem State.noteKey_gd (s : State) (v : View) (k : Nat) (m : BitVec 8) : (s.noteKey v k m).gd = s.gd := s.fire_gd v
@[simp] theorem State.noteKey_genSent (s : State) (v : View) (k : Nat) (m : BitVec 8) : (s.noteKey v k m).genSent = s.genSent := s.fire_genSent v
@[simp] theorem State.noteKey_scans (s : State) (v : View) (k : Nat) (m : BitVec 8) : (s.noteKey v k m).scans = s.scans := s.fire_scans v
@[simp] theorem State.noteKey_gangs (s : State) (v : View) (k : Nat) (m : BitVec 8) : (s.noteKey v k m).gangs = s.gangs := s.fire_gangs v
@[simp] theorem State.noteKey_ghosts (s : State) (v : View) (k : Nat) (m : BitVec 8) : (s.noteKey v k m).ghosts = s.ghosts := s.fire_ghosts v
@[simp] theorem State.noteKey_launches (s : State) (v : View) (k : Nat) (m : BitVec 8) : (s.noteKey v k m).launches = s.launches := s.fire_launches v
@[simp] theorem State.noteKey_nextLaunch (s : State) (v : View) (k : Nat) (m : BitVec 8) : (s.noteKey v k m).nextLaunch = s.nextLaunch := s.fire_nextLaunch v
@[simp] theorem State.noteKey_completions (s : State) (v : View) (k : Nat) (m : BitVec 8) : (s.noteKey v k m).completions = s.completions := s.fire_completions v
@[simp] theorem State.noteKey_ports (s : State) (v : View) (k : Nat) (m : BitVec 8) : (s.noteKey v k m).ports = s.ports := s.fire_ports v
@[simp] theorem State.noteKey_tenants (s : State) (v : View) (k : Nat) (m : BitVec 8) : (s.noteKey v k m).tenants = s.tenants := s.fire_tenants v
@[simp] theorem State.noteKey_reserves (s : State) (v : View) (k : Nat) (m : BitVec 8) : (s.noteKey v k m).reserves = s.reserves := s.fire_reserves v
@[simp] theorem State.noteKey_weights (s : State) (v : View) (k : Nat) (m : BitVec 8) : (s.noteKey v k m).weights = s.weights := s.fire_weights v
@[simp] theorem State.noteKey_charges (s : State) (v : View) (k : Nat) (m : BitVec 8) : (s.noteKey v k m).charges = s.charges := s.fire_charges v
@[simp] theorem State.noteKey_landings (s : State) (v : View) (k : Nat) (m : BitVec 8) : (s.noteKey v k m).landings = s.landings := s.fire_landings v
@[simp] theorem State.noteKey_counts (s : State) (v : View) (k : Nat) (m : BitVec 8) : (s.noteKey v k m).counts = s.counts := s.fire_counts v
@[simp] theorem State.noteKey_copyQ (s : State) (v : View) (k : Nat) (m : BitVec 8) : (s.noteKey v k m).copyQ = s.copyQ := s.fire_copyQ v
@[simp] theorem State.noteKey_units (s : State) (v : View) (k : Nat) (m : BitVec 8) : (s.noteKey v k m).units = s.units := s.fire_units v
@[simp] theorem State.noteKey_drains (s : State) (v : View) (k : Nat) (m : BitVec 8) : (s.noteKey v k m).drains = s.drains := s.fire_drains v
@[simp] theorem State.noteKey_tableQ (s : State) (v : View) (k : Nat) (m : BitVec 8) : (s.noteKey v k m).tableQ = s.tableQ := s.fire_tableQ v
@[simp] theorem State.noteKey_nmQ (s : State) (v : View) (k : Nat) (m : BitVec 8) : (s.noteKey v k m).nmQ = s.nmQ := s.fire_nmQ v
@[simp] theorem State.noteKey_nmus (s : State) (v : View) (k : Nat) (m : BitVec 8) : (s.noteKey v k m).nmus = s.nmus := s.fire_nmus v
@[simp] theorem State.noteKey_resumes (s : State) (v : View) (k : Nat) (m : BitVec 8) : (s.noteKey v k m).resumes = s.resumes := s.fire_resumes v
@[simp] theorem State.noteKey_loads (s : State) (v : View) (k : Nat) (m : BitVec 8) : (s.noteKey v k m).loads = s.loads := s.fire_loads v
@[simp] theorem State.noteKey_indexes (s : State) (v : View) (k : Nat) (m : BitVec 8) : (s.noteKey v k m).indexes = s.indexes := s.fire_indexes v
@[simp] theorem State.noteKey_ixQ (s : State) (v : View) (k : Nat) (m : BitVec 8) : (s.noteKey v k m).ixQ = s.ixQ := s.fire_ixQ v
@[simp] theorem State.noteKey_ixPaused (s : State) (v : View) (k : Nat) (m : BitVec 8) : (s.noteKey v k m).ixPaused = s.ixPaused := s.fire_ixPaused v
@[simp] theorem State.noteKey_store (s : State) (v : View) (k : Nat) (m : BitVec 8) : (s.noteKey v k m).store = s.store := s.fire_store v
@[simp] theorem State.noteKey_rings (s : State) (v : View) (k : Nat) (m : BitVec 8) : (s.noteKey v k m).rings = s.rings := s.fire_rings v
@[simp] theorem State.noteKey_usage (s : State) (v : View) (k : Nat) (m : BitVec 8) : (s.noteKey v k m).usage = s.usage := s.fire_usage v
@[simp] theorem State.noteKey_bars (s : State) (v : View) (k : Nat) (m : BitVec 8) : (s.noteKey v k m).bars = s.bars := s.fire_bars v
@[simp] theorem State.noteKey_reportSeq (s : State) (v : View) (k : Nat) (m : BitVec 8) : (s.noteKey v k m).reportSeq = s.reportSeq := s.fire_reportSeq v
@[simp] theorem State.noteKey_epoch (s : State) (v : View) (k : Nat) (m : BitVec 8) : (s.noteKey v k m).epoch = s.epoch := s.fire_epoch v
@[simp] theorem State.noteKey_erased (s : State) (v : View) (k : Nat) (m : BitVec 8) : (s.noteKey v k m).erased = s.erased := s.fire_erased v
@[simp] theorem State.noteKey_keyEpoch (s : State) (v : View) (k : Nat) (m : BitVec 8) : (s.noteKey v k m).keyEpoch = s.keyEpoch := s.fire_keyEpoch v
@[simp] theorem State.noteKey_quarantined (s : State) (v : View) (k : Nat) (m : BitVec 8) : (s.noteKey v k m).quarantined = s.quarantined := s.fire_quarantined v
@[simp] theorem State.noteKey_inReset (s : State) (v : View) (k : Nat) (m : BitVec 8) : (s.noteKey v k m).inReset = s.inReset := s.fire_inReset v
@[simp] theorem State.noteKey_budgets (s : State) (v : View) (k : Nat) (m : BitVec 8) : (s.noteKey v k m).budgets = s.budgets := s.fire_budgets v
@[simp] theorem State.noteKey_nextBudgets (s : State) (v : View) (k : Nat) (m : BitVec 8) : (s.noteKey v k m).nextBudgets = s.nextBudgets := s.fire_nextBudgets v
@[simp] theorem State.noteKey_period (s : State) (v : View) (k : Nat) (m : BitVec 8) : (s.noteKey v k m).period = s.period := s.fire_period v
@[simp] theorem State.noteKey_reply (s : State) (v : View) (k : Nat) (m : BitVec 8) : (s.noteKey v k m).reply = s.reply := s.fire_reply v
@[simp] theorem State.noteKey_replyError (s : State) (v : View) (k : Nat) (m : BitVec 8) : (s.noteKey v k m).replyError = s.replyError := s.fire_replyError v
@[simp] theorem State.noteKey_retained (s : State) (v : View) (k : Nat) (m : BitVec 8) : (s.noteKey v k m).retained = s.retained := s.fire_retained v
@[simp] theorem State.noteKey_monel (s : State) (v : View) (k : Nat) (m : BitVec 8) : (s.noteKey v k m).monel = s.monel := s.fire_monel v

/-! ### readLocWords -/

@[simp] theorem State.readLocWords_th (s : State) (v : View) (a n : Nat) (p : Past → Bool) : (s.readLocWords v a n p).th = s.th := rfl
@[simp] theorem State.readLocWords_others (s : State) (v : View) (a n : Nat) (p : Past → Bool) : (s.readLocWords v a n p).others = s.others := rfl
@[simp] theorem State.readLocWords_agenda (s : State) (v : View) (a n : Nat) (p : Past → Bool) : (s.readLocWords v a n p).agenda = s.agenda := rfl
@[simp] theorem State.readLocWords_ev (s : State) (v : View) (a n : Nat) (p : Past → Bool) : (s.readLocWords v a n p).ev = s.ev := rfl
@[simp] theorem State.readLocWords_nmuAt (s : State) (v : View) (a n : Nat) (p : Past → Bool) : (s.readLocWords v a n p).nmuAt = s.nmuAt := rfl
@[simp] theorem State.readLocWords_draw (s : State) (v : View) (a n : Nat) (p : Past → Bool) : (s.readLocWords v a n p).draw = s.draw := rfl
@[simp] theorem State.readLocWords_packets (s : State) (v : View) (a n : Nat) (p : Past → Bool) : (s.readLocWords v a n p).packets = s.packets := rfl
@[simp] theorem State.readLocWords_clock (s : State) (v : View) (a n : Nat) (p : Past → Bool) : (s.readLocWords v a n p).clock = s.clock := rfl
@[simp] theorem State.readLocWords_skew (s : State) (v : View) (a n : Nat) (p : Past → Bool) : (s.readLocWords v a n p).skew = s.skew := rfl
@[simp] theorem State.readLocWords_halted (s : State) (v : View) (a n : Nat) (p : Past → Bool) : (s.readLocWords v a n p).halted = s.halted := rfl
@[simp] theorem State.readLocWords_bootStep (s : State) (v : View) (a n : Nat) (p : Past → Bool) : (s.readLocWords v a n p).bootStep = s.bootStep := rfl
@[simp] theorem State.readLocWords_cfg (s : State) (v : View) (a n : Nat) (p : Past → Bool) : (s.readLocWords v a n p).cfg = s.cfg := rfl
@[simp] theorem State.readLocWords_mem (s : State) (v : View) (a n : Nat) (p : Past → Bool) : (s.readLocWords v a n p).mem = s.mem := rfl
@[simp] theorem State.readLocWords_loc (s : State) (v : View) (a n : Nat) (p : Past → Bool) : (s.readLocWords v a n p).loc = s.loc := rfl
@[simp] theorem State.readLocWords_keys (s : State) (v : View) (a n : Nat) (p : Past → Bool) : (s.readLocWords v a n p).keys = s.keys := rfl
@[simp] theorem State.readLocWords_tags (s : State) (v : View) (a n : Nat) (p : Past → Bool) : (s.readLocWords v a n p).tags = s.tags := rfl
@[simp] theorem State.readLocWords_poison (s : State) (v : View) (a n : Nat) (p : Past → Bool) : (s.readLocWords v a n p).poison = s.poison := rfl
@[simp] theorem State.readLocWords_bad (s : State) (v : View) (a n : Nat) (p : Past → Bool) : (s.readLocWords v a n p).bad = s.bad := rfl
@[simp] theorem State.readLocWords_weak (s : State) (v : View) (a n : Nat) (p : Past → Bool) : (s.readLocWords v a n p).weak = s.weak := rfl
@[simp] theorem State.readLocWords_badLoc (s : State) (v : View) (a n : Nat) (p : Past → Bool) : (s.readLocWords v a n p).badLoc = s.badLoc := rfl
@[simp] theorem State.readLocWords_icache (s : State) (v : View) (a n : Nat) (p : Past → Bool) : (s.readLocWords v a n p).icache = s.icache := rfl
@[simp] theorem State.readLocWords_regs (s : State) (v : View) (a n : Nat) (p : Past → Bool) : (s.readLocWords v a n p).regs = s.regs := rfl
@[simp] theorem State.readLocWords_now (s : State) (v : View) (a n : Nat) (p : Past → Bool) : (s.readLocWords v a n p).now = s.now := rfl
@[simp] theorem State.readLocWords_memPast (s : State) (v : View) (a n : Nat) (p : Past → Bool) : (s.readLocWords v a n p).memPast = s.memPast := rfl
@[simp] theorem State.readLocWords_tlb (s : State) (v : View) (a n : Nat) (p : Past → Bool) : (s.readLocWords v a n p).tlb = s.tlb := rfl
@[simp] theorem State.readLocWords_walk (s : State) (v : View) (a n : Nat) (p : Past → Bool) : (s.readLocWords v a n p).walk = s.walk := rfl
@[simp] theorem State.readLocWords_gs (s : State) (v : View) (a n : Nat) (p : Past → Bool) : (s.readLocWords v a n p).gs = s.gs := rfl
@[simp] theorem State.readLocWords_gd (s : State) (v : View) (a n : Nat) (p : Past → Bool) : (s.readLocWords v a n p).gd = s.gd := rfl
@[simp] theorem State.readLocWords_genSent (s : State) (v : View) (a n : Nat) (p : Past → Bool) : (s.readLocWords v a n p).genSent = s.genSent := rfl
@[simp] theorem State.readLocWords_scans (s : State) (v : View) (a n : Nat) (p : Past → Bool) : (s.readLocWords v a n p).scans = s.scans := rfl
@[simp] theorem State.readLocWords_gangs (s : State) (v : View) (a n : Nat) (p : Past → Bool) : (s.readLocWords v a n p).gangs = s.gangs := rfl
@[simp] theorem State.readLocWords_ghosts (s : State) (v : View) (a n : Nat) (p : Past → Bool) : (s.readLocWords v a n p).ghosts = s.ghosts := rfl
@[simp] theorem State.readLocWords_launches (s : State) (v : View) (a n : Nat) (p : Past → Bool) : (s.readLocWords v a n p).launches = s.launches := rfl
@[simp] theorem State.readLocWords_nextLaunch (s : State) (v : View) (a n : Nat) (p : Past → Bool) : (s.readLocWords v a n p).nextLaunch = s.nextLaunch := rfl
@[simp] theorem State.readLocWords_completions (s : State) (v : View) (a n : Nat) (p : Past → Bool) : (s.readLocWords v a n p).completions = s.completions := rfl
@[simp] theorem State.readLocWords_ports (s : State) (v : View) (a n : Nat) (p : Past → Bool) : (s.readLocWords v a n p).ports = s.ports := rfl
@[simp] theorem State.readLocWords_tenants (s : State) (v : View) (a n : Nat) (p : Past → Bool) : (s.readLocWords v a n p).tenants = s.tenants := rfl
@[simp] theorem State.readLocWords_reserves (s : State) (v : View) (a n : Nat) (p : Past → Bool) : (s.readLocWords v a n p).reserves = s.reserves := rfl
@[simp] theorem State.readLocWords_weights (s : State) (v : View) (a n : Nat) (p : Past → Bool) : (s.readLocWords v a n p).weights = s.weights := rfl
@[simp] theorem State.readLocWords_charges (s : State) (v : View) (a n : Nat) (p : Past → Bool) : (s.readLocWords v a n p).charges = s.charges := rfl
@[simp] theorem State.readLocWords_landings (s : State) (v : View) (a n : Nat) (p : Past → Bool) : (s.readLocWords v a n p).landings = s.landings := rfl
@[simp] theorem State.readLocWords_counts (s : State) (v : View) (a n : Nat) (p : Past → Bool) : (s.readLocWords v a n p).counts = s.counts := rfl
@[simp] theorem State.readLocWords_copyQ (s : State) (v : View) (a n : Nat) (p : Past → Bool) : (s.readLocWords v a n p).copyQ = s.copyQ := rfl
@[simp] theorem State.readLocWords_units (s : State) (v : View) (a n : Nat) (p : Past → Bool) : (s.readLocWords v a n p).units = s.units := rfl
@[simp] theorem State.readLocWords_drains (s : State) (v : View) (a n : Nat) (p : Past → Bool) : (s.readLocWords v a n p).drains = s.drains := rfl
@[simp] theorem State.readLocWords_tableQ (s : State) (v : View) (a n : Nat) (p : Past → Bool) : (s.readLocWords v a n p).tableQ = s.tableQ := rfl
@[simp] theorem State.readLocWords_nmQ (s : State) (v : View) (a n : Nat) (p : Past → Bool) : (s.readLocWords v a n p).nmQ = s.nmQ := rfl
@[simp] theorem State.readLocWords_nmus (s : State) (v : View) (a n : Nat) (p : Past → Bool) : (s.readLocWords v a n p).nmus = s.nmus := rfl
@[simp] theorem State.readLocWords_resumes (s : State) (v : View) (a n : Nat) (p : Past → Bool) : (s.readLocWords v a n p).resumes = s.resumes := rfl
@[simp] theorem State.readLocWords_loads (s : State) (v : View) (a n : Nat) (p : Past → Bool) : (s.readLocWords v a n p).loads = s.loads := rfl
@[simp] theorem State.readLocWords_indexes (s : State) (v : View) (a n : Nat) (p : Past → Bool) : (s.readLocWords v a n p).indexes = s.indexes := rfl
@[simp] theorem State.readLocWords_ixQ (s : State) (v : View) (a n : Nat) (p : Past → Bool) : (s.readLocWords v a n p).ixQ = s.ixQ := rfl
@[simp] theorem State.readLocWords_ixPaused (s : State) (v : View) (a n : Nat) (p : Past → Bool) : (s.readLocWords v a n p).ixPaused = s.ixPaused := rfl
@[simp] theorem State.readLocWords_store (s : State) (v : View) (a n : Nat) (p : Past → Bool) : (s.readLocWords v a n p).store = s.store := rfl
@[simp] theorem State.readLocWords_rings (s : State) (v : View) (a n : Nat) (p : Past → Bool) : (s.readLocWords v a n p).rings = s.rings := rfl
@[simp] theorem State.readLocWords_usage (s : State) (v : View) (a n : Nat) (p : Past → Bool) : (s.readLocWords v a n p).usage = s.usage := rfl
@[simp] theorem State.readLocWords_bars (s : State) (v : View) (a n : Nat) (p : Past → Bool) : (s.readLocWords v a n p).bars = s.bars := rfl
@[simp] theorem State.readLocWords_reportSeq (s : State) (v : View) (a n : Nat) (p : Past → Bool) : (s.readLocWords v a n p).reportSeq = s.reportSeq := rfl
@[simp] theorem State.readLocWords_epoch (s : State) (v : View) (a n : Nat) (p : Past → Bool) : (s.readLocWords v a n p).epoch = s.epoch := rfl
@[simp] theorem State.readLocWords_erased (s : State) (v : View) (a n : Nat) (p : Past → Bool) : (s.readLocWords v a n p).erased = s.erased := rfl
@[simp] theorem State.readLocWords_keyEpoch (s : State) (v : View) (a n : Nat) (p : Past → Bool) : (s.readLocWords v a n p).keyEpoch = s.keyEpoch := rfl
@[simp] theorem State.readLocWords_quarantined (s : State) (v : View) (a n : Nat) (p : Past → Bool) : (s.readLocWords v a n p).quarantined = s.quarantined := rfl
@[simp] theorem State.readLocWords_inReset (s : State) (v : View) (a n : Nat) (p : Past → Bool) : (s.readLocWords v a n p).inReset = s.inReset := rfl
@[simp] theorem State.readLocWords_budgets (s : State) (v : View) (a n : Nat) (p : Past → Bool) : (s.readLocWords v a n p).budgets = s.budgets := rfl
@[simp] theorem State.readLocWords_nextBudgets (s : State) (v : View) (a n : Nat) (p : Past → Bool) : (s.readLocWords v a n p).nextBudgets = s.nextBudgets := rfl
@[simp] theorem State.readLocWords_period (s : State) (v : View) (a n : Nat) (p : Past → Bool) : (s.readLocWords v a n p).period = s.period := rfl
@[simp] theorem State.readLocWords_reply (s : State) (v : View) (a n : Nat) (p : Past → Bool) : (s.readLocWords v a n p).reply = s.reply := rfl
@[simp] theorem State.readLocWords_replyError (s : State) (v : View) (a n : Nat) (p : Past → Bool) : (s.readLocWords v a n p).replyError = s.replyError := rfl
@[simp] theorem State.readLocWords_retained (s : State) (v : View) (a n : Nat) (p : Past → Bool) : (s.readLocWords v a n p).retained = s.retained := rfl
@[simp] theorem State.readLocWords_monel (s : State) (v : View) (a n : Nat) (p : Past → Bool) : (s.readLocWords v a n p).monel = s.monel := rfl

/-! ### touchLoc -/

@[simp] theorem State.touchLoc_th (s : State) (v : View) (a n : Nat) : (s.touchLoc v a n).th = s.th := rfl
@[simp] theorem State.touchLoc_others (s : State) (v : View) (a n : Nat) : (s.touchLoc v a n).others = s.others := rfl
@[simp] theorem State.touchLoc_agenda (s : State) (v : View) (a n : Nat) : (s.touchLoc v a n).agenda = s.agenda := rfl
@[simp] theorem State.touchLoc_ev (s : State) (v : View) (a n : Nat) : (s.touchLoc v a n).ev = s.ev := rfl
@[simp] theorem State.touchLoc_nmuAt (s : State) (v : View) (a n : Nat) : (s.touchLoc v a n).nmuAt = s.nmuAt := rfl
@[simp] theorem State.touchLoc_draw (s : State) (v : View) (a n : Nat) : (s.touchLoc v a n).draw = s.draw := rfl
@[simp] theorem State.touchLoc_packets (s : State) (v : View) (a n : Nat) : (s.touchLoc v a n).packets = s.packets := rfl
@[simp] theorem State.touchLoc_clock (s : State) (v : View) (a n : Nat) : (s.touchLoc v a n).clock = s.clock := rfl
@[simp] theorem State.touchLoc_skew (s : State) (v : View) (a n : Nat) : (s.touchLoc v a n).skew = s.skew := rfl
@[simp] theorem State.touchLoc_halted (s : State) (v : View) (a n : Nat) : (s.touchLoc v a n).halted = s.halted := rfl
@[simp] theorem State.touchLoc_bootStep (s : State) (v : View) (a n : Nat) : (s.touchLoc v a n).bootStep = s.bootStep := rfl
@[simp] theorem State.touchLoc_cfg (s : State) (v : View) (a n : Nat) : (s.touchLoc v a n).cfg = s.cfg := rfl
@[simp] theorem State.touchLoc_mem (s : State) (v : View) (a n : Nat) : (s.touchLoc v a n).mem = s.mem := rfl
@[simp] theorem State.touchLoc_loc (s : State) (v : View) (a n : Nat) : (s.touchLoc v a n).loc = s.loc := rfl
@[simp] theorem State.touchLoc_keys (s : State) (v : View) (a n : Nat) : (s.touchLoc v a n).keys = s.keys := rfl
@[simp] theorem State.touchLoc_tags (s : State) (v : View) (a n : Nat) : (s.touchLoc v a n).tags = s.tags := rfl
@[simp] theorem State.touchLoc_poison (s : State) (v : View) (a n : Nat) : (s.touchLoc v a n).poison = s.poison := rfl
@[simp] theorem State.touchLoc_bad (s : State) (v : View) (a n : Nat) : (s.touchLoc v a n).bad = s.bad := rfl
@[simp] theorem State.touchLoc_weak (s : State) (v : View) (a n : Nat) : (s.touchLoc v a n).weak = s.weak := rfl
@[simp] theorem State.touchLoc_badLoc (s : State) (v : View) (a n : Nat) : (s.touchLoc v a n).badLoc = s.badLoc := rfl
@[simp] theorem State.touchLoc_icache (s : State) (v : View) (a n : Nat) : (s.touchLoc v a n).icache = s.icache := rfl
@[simp] theorem State.touchLoc_regs (s : State) (v : View) (a n : Nat) : (s.touchLoc v a n).regs = s.regs := rfl
@[simp] theorem State.touchLoc_now (s : State) (v : View) (a n : Nat) : (s.touchLoc v a n).now = s.now := rfl
@[simp] theorem State.touchLoc_memPast (s : State) (v : View) (a n : Nat) : (s.touchLoc v a n).memPast = s.memPast := rfl
@[simp] theorem State.touchLoc_tlb (s : State) (v : View) (a n : Nat) : (s.touchLoc v a n).tlb = s.tlb := rfl
@[simp] theorem State.touchLoc_walk (s : State) (v : View) (a n : Nat) : (s.touchLoc v a n).walk = s.walk := rfl
@[simp] theorem State.touchLoc_gs (s : State) (v : View) (a n : Nat) : (s.touchLoc v a n).gs = s.gs := rfl
@[simp] theorem State.touchLoc_gd (s : State) (v : View) (a n : Nat) : (s.touchLoc v a n).gd = s.gd := rfl
@[simp] theorem State.touchLoc_genSent (s : State) (v : View) (a n : Nat) : (s.touchLoc v a n).genSent = s.genSent := rfl
@[simp] theorem State.touchLoc_scans (s : State) (v : View) (a n : Nat) : (s.touchLoc v a n).scans = s.scans := rfl
@[simp] theorem State.touchLoc_gangs (s : State) (v : View) (a n : Nat) : (s.touchLoc v a n).gangs = s.gangs := rfl
@[simp] theorem State.touchLoc_ghosts (s : State) (v : View) (a n : Nat) : (s.touchLoc v a n).ghosts = s.ghosts := rfl
@[simp] theorem State.touchLoc_launches (s : State) (v : View) (a n : Nat) : (s.touchLoc v a n).launches = s.launches := rfl
@[simp] theorem State.touchLoc_nextLaunch (s : State) (v : View) (a n : Nat) : (s.touchLoc v a n).nextLaunch = s.nextLaunch := rfl
@[simp] theorem State.touchLoc_completions (s : State) (v : View) (a n : Nat) : (s.touchLoc v a n).completions = s.completions := rfl
@[simp] theorem State.touchLoc_ports (s : State) (v : View) (a n : Nat) : (s.touchLoc v a n).ports = s.ports := rfl
@[simp] theorem State.touchLoc_tenants (s : State) (v : View) (a n : Nat) : (s.touchLoc v a n).tenants = s.tenants := rfl
@[simp] theorem State.touchLoc_reserves (s : State) (v : View) (a n : Nat) : (s.touchLoc v a n).reserves = s.reserves := rfl
@[simp] theorem State.touchLoc_weights (s : State) (v : View) (a n : Nat) : (s.touchLoc v a n).weights = s.weights := rfl
@[simp] theorem State.touchLoc_charges (s : State) (v : View) (a n : Nat) : (s.touchLoc v a n).charges = s.charges := rfl
@[simp] theorem State.touchLoc_landings (s : State) (v : View) (a n : Nat) : (s.touchLoc v a n).landings = s.landings := rfl
@[simp] theorem State.touchLoc_counts (s : State) (v : View) (a n : Nat) : (s.touchLoc v a n).counts = s.counts := rfl
@[simp] theorem State.touchLoc_copyQ (s : State) (v : View) (a n : Nat) : (s.touchLoc v a n).copyQ = s.copyQ := rfl
@[simp] theorem State.touchLoc_units (s : State) (v : View) (a n : Nat) : (s.touchLoc v a n).units = s.units := rfl
@[simp] theorem State.touchLoc_drains (s : State) (v : View) (a n : Nat) : (s.touchLoc v a n).drains = s.drains := rfl
@[simp] theorem State.touchLoc_tableQ (s : State) (v : View) (a n : Nat) : (s.touchLoc v a n).tableQ = s.tableQ := rfl
@[simp] theorem State.touchLoc_nmQ (s : State) (v : View) (a n : Nat) : (s.touchLoc v a n).nmQ = s.nmQ := rfl
@[simp] theorem State.touchLoc_nmus (s : State) (v : View) (a n : Nat) : (s.touchLoc v a n).nmus = s.nmus := rfl
@[simp] theorem State.touchLoc_resumes (s : State) (v : View) (a n : Nat) : (s.touchLoc v a n).resumes = s.resumes := rfl
@[simp] theorem State.touchLoc_loads (s : State) (v : View) (a n : Nat) : (s.touchLoc v a n).loads = s.loads := rfl
@[simp] theorem State.touchLoc_indexes (s : State) (v : View) (a n : Nat) : (s.touchLoc v a n).indexes = s.indexes := rfl
@[simp] theorem State.touchLoc_ixQ (s : State) (v : View) (a n : Nat) : (s.touchLoc v a n).ixQ = s.ixQ := rfl
@[simp] theorem State.touchLoc_ixPaused (s : State) (v : View) (a n : Nat) : (s.touchLoc v a n).ixPaused = s.ixPaused := rfl
@[simp] theorem State.touchLoc_store (s : State) (v : View) (a n : Nat) : (s.touchLoc v a n).store = s.store := rfl
@[simp] theorem State.touchLoc_rings (s : State) (v : View) (a n : Nat) : (s.touchLoc v a n).rings = s.rings := rfl
@[simp] theorem State.touchLoc_usage (s : State) (v : View) (a n : Nat) : (s.touchLoc v a n).usage = s.usage := rfl
@[simp] theorem State.touchLoc_bars (s : State) (v : View) (a n : Nat) : (s.touchLoc v a n).bars = s.bars := rfl
@[simp] theorem State.touchLoc_reportSeq (s : State) (v : View) (a n : Nat) : (s.touchLoc v a n).reportSeq = s.reportSeq := rfl
@[simp] theorem State.touchLoc_epoch (s : State) (v : View) (a n : Nat) : (s.touchLoc v a n).epoch = s.epoch := rfl
@[simp] theorem State.touchLoc_erased (s : State) (v : View) (a n : Nat) : (s.touchLoc v a n).erased = s.erased := rfl
@[simp] theorem State.touchLoc_keyEpoch (s : State) (v : View) (a n : Nat) : (s.touchLoc v a n).keyEpoch = s.keyEpoch := rfl
@[simp] theorem State.touchLoc_quarantined (s : State) (v : View) (a n : Nat) : (s.touchLoc v a n).quarantined = s.quarantined := rfl
@[simp] theorem State.touchLoc_inReset (s : State) (v : View) (a n : Nat) : (s.touchLoc v a n).inReset = s.inReset := rfl
@[simp] theorem State.touchLoc_budgets (s : State) (v : View) (a n : Nat) : (s.touchLoc v a n).budgets = s.budgets := rfl
@[simp] theorem State.touchLoc_nextBudgets (s : State) (v : View) (a n : Nat) : (s.touchLoc v a n).nextBudgets = s.nextBudgets := rfl
@[simp] theorem State.touchLoc_period (s : State) (v : View) (a n : Nat) : (s.touchLoc v a n).period = s.period := rfl
@[simp] theorem State.touchLoc_reply (s : State) (v : View) (a n : Nat) : (s.touchLoc v a n).reply = s.reply := rfl
@[simp] theorem State.touchLoc_replyError (s : State) (v : View) (a n : Nat) : (s.touchLoc v a n).replyError = s.replyError := rfl
@[simp] theorem State.touchLoc_retained (s : State) (v : View) (a n : Nat) : (s.touchLoc v a n).retained = s.retained := rfl
@[simp] theorem State.touchLoc_monel (s : State) (v : View) (a n : Nat) : (s.touchLoc v a n).monel = s.monel := rfl

/-! ### readMemWords -/

@[simp] theorem State.readMemWords_th (s : State) (v : View) (b : Bool) (a n : Nat) (p : Past → Bool) : (s.readMemWords v b a n p).th = s.th := rfl
@[simp] theorem State.readMemWords_others (s : State) (v : View) (b : Bool) (a n : Nat) (p : Past → Bool) : (s.readMemWords v b a n p).others = s.others := rfl
@[simp] theorem State.readMemWords_agenda (s : State) (v : View) (b : Bool) (a n : Nat) (p : Past → Bool) : (s.readMemWords v b a n p).agenda = s.agenda := rfl
@[simp] theorem State.readMemWords_ev (s : State) (v : View) (b : Bool) (a n : Nat) (p : Past → Bool) : (s.readMemWords v b a n p).ev = s.ev := rfl
@[simp] theorem State.readMemWords_nmuAt (s : State) (v : View) (b : Bool) (a n : Nat) (p : Past → Bool) : (s.readMemWords v b a n p).nmuAt = s.nmuAt := rfl
@[simp] theorem State.readMemWords_draw (s : State) (v : View) (b : Bool) (a n : Nat) (p : Past → Bool) : (s.readMemWords v b a n p).draw = s.draw := rfl
@[simp] theorem State.readMemWords_packets (s : State) (v : View) (b : Bool) (a n : Nat) (p : Past → Bool) : (s.readMemWords v b a n p).packets = s.packets := rfl
@[simp] theorem State.readMemWords_clock (s : State) (v : View) (b : Bool) (a n : Nat) (p : Past → Bool) : (s.readMemWords v b a n p).clock = s.clock := rfl
@[simp] theorem State.readMemWords_skew (s : State) (v : View) (b : Bool) (a n : Nat) (p : Past → Bool) : (s.readMemWords v b a n p).skew = s.skew := rfl
@[simp] theorem State.readMemWords_halted (s : State) (v : View) (b : Bool) (a n : Nat) (p : Past → Bool) : (s.readMemWords v b a n p).halted = s.halted := rfl
@[simp] theorem State.readMemWords_bootStep (s : State) (v : View) (b : Bool) (a n : Nat) (p : Past → Bool) : (s.readMemWords v b a n p).bootStep = s.bootStep := rfl
@[simp] theorem State.readMemWords_cfg (s : State) (v : View) (b : Bool) (a n : Nat) (p : Past → Bool) : (s.readMemWords v b a n p).cfg = s.cfg := rfl
@[simp] theorem State.readMemWords_mem (s : State) (v : View) (b : Bool) (a n : Nat) (p : Past → Bool) : (s.readMemWords v b a n p).mem = s.mem := rfl
@[simp] theorem State.readMemWords_loc (s : State) (v : View) (b : Bool) (a n : Nat) (p : Past → Bool) : (s.readMemWords v b a n p).loc = s.loc := rfl
@[simp] theorem State.readMemWords_keys (s : State) (v : View) (b : Bool) (a n : Nat) (p : Past → Bool) : (s.readMemWords v b a n p).keys = s.keys := rfl
@[simp] theorem State.readMemWords_tags (s : State) (v : View) (b : Bool) (a n : Nat) (p : Past → Bool) : (s.readMemWords v b a n p).tags = s.tags := rfl
@[simp] theorem State.readMemWords_poison (s : State) (v : View) (b : Bool) (a n : Nat) (p : Past → Bool) : (s.readMemWords v b a n p).poison = s.poison := rfl
@[simp] theorem State.readMemWords_bad (s : State) (v : View) (b : Bool) (a n : Nat) (p : Past → Bool) : (s.readMemWords v b a n p).bad = s.bad := rfl
@[simp] theorem State.readMemWords_weak (s : State) (v : View) (b : Bool) (a n : Nat) (p : Past → Bool) : (s.readMemWords v b a n p).weak = s.weak := rfl
@[simp] theorem State.readMemWords_badLoc (s : State) (v : View) (b : Bool) (a n : Nat) (p : Past → Bool) : (s.readMemWords v b a n p).badLoc = s.badLoc := rfl
@[simp] theorem State.readMemWords_icache (s : State) (v : View) (b : Bool) (a n : Nat) (p : Past → Bool) : (s.readMemWords v b a n p).icache = s.icache := rfl
@[simp] theorem State.readMemWords_regs (s : State) (v : View) (b : Bool) (a n : Nat) (p : Past → Bool) : (s.readMemWords v b a n p).regs = s.regs := rfl
@[simp] theorem State.readMemWords_now (s : State) (v : View) (b : Bool) (a n : Nat) (p : Past → Bool) : (s.readMemWords v b a n p).now = s.now := rfl
@[simp] theorem State.readMemWords_locPast (s : State) (v : View) (b : Bool) (a n : Nat) (p : Past → Bool) : (s.readMemWords v b a n p).locPast = s.locPast := rfl
@[simp] theorem State.readMemWords_tlb (s : State) (v : View) (b : Bool) (a n : Nat) (p : Past → Bool) : (s.readMemWords v b a n p).tlb = s.tlb := rfl
@[simp] theorem State.readMemWords_walk (s : State) (v : View) (b : Bool) (a n : Nat) (p : Past → Bool) : (s.readMemWords v b a n p).walk = s.walk := rfl
@[simp] theorem State.readMemWords_gs (s : State) (v : View) (b : Bool) (a n : Nat) (p : Past → Bool) : (s.readMemWords v b a n p).gs = s.gs := rfl
@[simp] theorem State.readMemWords_gd (s : State) (v : View) (b : Bool) (a n : Nat) (p : Past → Bool) : (s.readMemWords v b a n p).gd = s.gd := rfl
@[simp] theorem State.readMemWords_genSent (s : State) (v : View) (b : Bool) (a n : Nat) (p : Past → Bool) : (s.readMemWords v b a n p).genSent = s.genSent := rfl
@[simp] theorem State.readMemWords_scans (s : State) (v : View) (b : Bool) (a n : Nat) (p : Past → Bool) : (s.readMemWords v b a n p).scans = s.scans := rfl
@[simp] theorem State.readMemWords_gangs (s : State) (v : View) (b : Bool) (a n : Nat) (p : Past → Bool) : (s.readMemWords v b a n p).gangs = s.gangs := rfl
@[simp] theorem State.readMemWords_ghosts (s : State) (v : View) (b : Bool) (a n : Nat) (p : Past → Bool) : (s.readMemWords v b a n p).ghosts = s.ghosts := rfl
@[simp] theorem State.readMemWords_launches (s : State) (v : View) (b : Bool) (a n : Nat) (p : Past → Bool) : (s.readMemWords v b a n p).launches = s.launches := rfl
@[simp] theorem State.readMemWords_nextLaunch (s : State) (v : View) (b : Bool) (a n : Nat) (p : Past → Bool) : (s.readMemWords v b a n p).nextLaunch = s.nextLaunch := rfl
@[simp] theorem State.readMemWords_completions (s : State) (v : View) (b : Bool) (a n : Nat) (p : Past → Bool) : (s.readMemWords v b a n p).completions = s.completions := rfl
@[simp] theorem State.readMemWords_ports (s : State) (v : View) (b : Bool) (a n : Nat) (p : Past → Bool) : (s.readMemWords v b a n p).ports = s.ports := rfl
@[simp] theorem State.readMemWords_tenants (s : State) (v : View) (b : Bool) (a n : Nat) (p : Past → Bool) : (s.readMemWords v b a n p).tenants = s.tenants := rfl
@[simp] theorem State.readMemWords_reserves (s : State) (v : View) (b : Bool) (a n : Nat) (p : Past → Bool) : (s.readMemWords v b a n p).reserves = s.reserves := rfl
@[simp] theorem State.readMemWords_weights (s : State) (v : View) (b : Bool) (a n : Nat) (p : Past → Bool) : (s.readMemWords v b a n p).weights = s.weights := rfl
@[simp] theorem State.readMemWords_charges (s : State) (v : View) (b : Bool) (a n : Nat) (p : Past → Bool) : (s.readMemWords v b a n p).charges = s.charges := rfl
@[simp] theorem State.readMemWords_landings (s : State) (v : View) (b : Bool) (a n : Nat) (p : Past → Bool) : (s.readMemWords v b a n p).landings = s.landings := rfl
@[simp] theorem State.readMemWords_counts (s : State) (v : View) (b : Bool) (a n : Nat) (p : Past → Bool) : (s.readMemWords v b a n p).counts = s.counts := rfl
@[simp] theorem State.readMemWords_copyQ (s : State) (v : View) (b : Bool) (a n : Nat) (p : Past → Bool) : (s.readMemWords v b a n p).copyQ = s.copyQ := rfl
@[simp] theorem State.readMemWords_units (s : State) (v : View) (b : Bool) (a n : Nat) (p : Past → Bool) : (s.readMemWords v b a n p).units = s.units := rfl
@[simp] theorem State.readMemWords_drains (s : State) (v : View) (b : Bool) (a n : Nat) (p : Past → Bool) : (s.readMemWords v b a n p).drains = s.drains := rfl
@[simp] theorem State.readMemWords_tableQ (s : State) (v : View) (b : Bool) (a n : Nat) (p : Past → Bool) : (s.readMemWords v b a n p).tableQ = s.tableQ := rfl
@[simp] theorem State.readMemWords_nmQ (s : State) (v : View) (b : Bool) (a n : Nat) (p : Past → Bool) : (s.readMemWords v b a n p).nmQ = s.nmQ := rfl
@[simp] theorem State.readMemWords_nmus (s : State) (v : View) (b : Bool) (a n : Nat) (p : Past → Bool) : (s.readMemWords v b a n p).nmus = s.nmus := rfl
@[simp] theorem State.readMemWords_resumes (s : State) (v : View) (b : Bool) (a n : Nat) (p : Past → Bool) : (s.readMemWords v b a n p).resumes = s.resumes := rfl
@[simp] theorem State.readMemWords_loads (s : State) (v : View) (b : Bool) (a n : Nat) (p : Past → Bool) : (s.readMemWords v b a n p).loads = s.loads := rfl
@[simp] theorem State.readMemWords_indexes (s : State) (v : View) (b : Bool) (a n : Nat) (p : Past → Bool) : (s.readMemWords v b a n p).indexes = s.indexes := rfl
@[simp] theorem State.readMemWords_ixQ (s : State) (v : View) (b : Bool) (a n : Nat) (p : Past → Bool) : (s.readMemWords v b a n p).ixQ = s.ixQ := rfl
@[simp] theorem State.readMemWords_ixPaused (s : State) (v : View) (b : Bool) (a n : Nat) (p : Past → Bool) : (s.readMemWords v b a n p).ixPaused = s.ixPaused := rfl
@[simp] theorem State.readMemWords_store (s : State) (v : View) (b : Bool) (a n : Nat) (p : Past → Bool) : (s.readMemWords v b a n p).store = s.store := rfl
@[simp] theorem State.readMemWords_rings (s : State) (v : View) (b : Bool) (a n : Nat) (p : Past → Bool) : (s.readMemWords v b a n p).rings = s.rings := rfl
@[simp] theorem State.readMemWords_usage (s : State) (v : View) (b : Bool) (a n : Nat) (p : Past → Bool) : (s.readMemWords v b a n p).usage = s.usage := rfl
@[simp] theorem State.readMemWords_bars (s : State) (v : View) (b : Bool) (a n : Nat) (p : Past → Bool) : (s.readMemWords v b a n p).bars = s.bars := rfl
@[simp] theorem State.readMemWords_reportSeq (s : State) (v : View) (b : Bool) (a n : Nat) (p : Past → Bool) : (s.readMemWords v b a n p).reportSeq = s.reportSeq := rfl
@[simp] theorem State.readMemWords_epoch (s : State) (v : View) (b : Bool) (a n : Nat) (p : Past → Bool) : (s.readMemWords v b a n p).epoch = s.epoch := rfl
@[simp] theorem State.readMemWords_erased (s : State) (v : View) (b : Bool) (a n : Nat) (p : Past → Bool) : (s.readMemWords v b a n p).erased = s.erased := rfl
@[simp] theorem State.readMemWords_keyEpoch (s : State) (v : View) (b : Bool) (a n : Nat) (p : Past → Bool) : (s.readMemWords v b a n p).keyEpoch = s.keyEpoch := rfl
@[simp] theorem State.readMemWords_quarantined (s : State) (v : View) (b : Bool) (a n : Nat) (p : Past → Bool) : (s.readMemWords v b a n p).quarantined = s.quarantined := rfl
@[simp] theorem State.readMemWords_inReset (s : State) (v : View) (b : Bool) (a n : Nat) (p : Past → Bool) : (s.readMemWords v b a n p).inReset = s.inReset := rfl
@[simp] theorem State.readMemWords_budgets (s : State) (v : View) (b : Bool) (a n : Nat) (p : Past → Bool) : (s.readMemWords v b a n p).budgets = s.budgets := rfl
@[simp] theorem State.readMemWords_nextBudgets (s : State) (v : View) (b : Bool) (a n : Nat) (p : Past → Bool) : (s.readMemWords v b a n p).nextBudgets = s.nextBudgets := rfl
@[simp] theorem State.readMemWords_period (s : State) (v : View) (b : Bool) (a n : Nat) (p : Past → Bool) : (s.readMemWords v b a n p).period = s.period := rfl
@[simp] theorem State.readMemWords_reply (s : State) (v : View) (b : Bool) (a n : Nat) (p : Past → Bool) : (s.readMemWords v b a n p).reply = s.reply := rfl
@[simp] theorem State.readMemWords_replyError (s : State) (v : View) (b : Bool) (a n : Nat) (p : Past → Bool) : (s.readMemWords v b a n p).replyError = s.replyError := rfl
@[simp] theorem State.readMemWords_retained (s : State) (v : View) (b : Bool) (a n : Nat) (p : Past → Bool) : (s.readMemWords v b a n p).retained = s.retained := rfl
@[simp] theorem State.readMemWords_monel (s : State) (v : View) (b : Bool) (a n : Nat) (p : Past → Bool) : (s.readMemWords v b a n p).monel = s.monel := rfl

/-! ### notePast -/

@[simp] theorem State.notePast_th (s : State) (k : Nat) (r : Past) : (s.notePast k r).th = s.th := rfl
@[simp] theorem State.notePast_others (s : State) (k : Nat) (r : Past) : (s.notePast k r).others = s.others := rfl
@[simp] theorem State.notePast_agenda (s : State) (k : Nat) (r : Past) : (s.notePast k r).agenda = s.agenda := rfl
@[simp] theorem State.notePast_ev (s : State) (k : Nat) (r : Past) : (s.notePast k r).ev = s.ev := rfl
@[simp] theorem State.notePast_nmuAt (s : State) (k : Nat) (r : Past) : (s.notePast k r).nmuAt = s.nmuAt := rfl
@[simp] theorem State.notePast_draw (s : State) (k : Nat) (r : Past) : (s.notePast k r).draw = s.draw := rfl
@[simp] theorem State.notePast_packets (s : State) (k : Nat) (r : Past) : (s.notePast k r).packets = s.packets := rfl
@[simp] theorem State.notePast_clock (s : State) (k : Nat) (r : Past) : (s.notePast k r).clock = s.clock := rfl
@[simp] theorem State.notePast_skew (s : State) (k : Nat) (r : Past) : (s.notePast k r).skew = s.skew := rfl
@[simp] theorem State.notePast_halted (s : State) (k : Nat) (r : Past) : (s.notePast k r).halted = s.halted := rfl
@[simp] theorem State.notePast_bootStep (s : State) (k : Nat) (r : Past) : (s.notePast k r).bootStep = s.bootStep := rfl
@[simp] theorem State.notePast_cfg (s : State) (k : Nat) (r : Past) : (s.notePast k r).cfg = s.cfg := rfl
@[simp] theorem State.notePast_mem (s : State) (k : Nat) (r : Past) : (s.notePast k r).mem = s.mem := rfl
@[simp] theorem State.notePast_loc (s : State) (k : Nat) (r : Past) : (s.notePast k r).loc = s.loc := rfl
@[simp] theorem State.notePast_keys (s : State) (k : Nat) (r : Past) : (s.notePast k r).keys = s.keys := rfl
@[simp] theorem State.notePast_tags (s : State) (k : Nat) (r : Past) : (s.notePast k r).tags = s.tags := rfl
@[simp] theorem State.notePast_poison (s : State) (k : Nat) (r : Past) : (s.notePast k r).poison = s.poison := rfl
@[simp] theorem State.notePast_bad (s : State) (k : Nat) (r : Past) : (s.notePast k r).bad = s.bad := rfl
@[simp] theorem State.notePast_weak (s : State) (k : Nat) (r : Past) : (s.notePast k r).weak = s.weak := rfl
@[simp] theorem State.notePast_badLoc (s : State) (k : Nat) (r : Past) : (s.notePast k r).badLoc = s.badLoc := rfl
@[simp] theorem State.notePast_icache (s : State) (k : Nat) (r : Past) : (s.notePast k r).icache = s.icache := rfl
@[simp] theorem State.notePast_regs (s : State) (k : Nat) (r : Past) : (s.notePast k r).regs = s.regs := rfl
@[simp] theorem State.notePast_now (s : State) (k : Nat) (r : Past) : (s.notePast k r).now = s.now := rfl
@[simp] theorem State.notePast_locPast (s : State) (k : Nat) (r : Past) : (s.notePast k r).locPast = s.locPast := rfl
@[simp] theorem State.notePast_tlb (s : State) (k : Nat) (r : Past) : (s.notePast k r).tlb = s.tlb := rfl
@[simp] theorem State.notePast_walk (s : State) (k : Nat) (r : Past) : (s.notePast k r).walk = s.walk := rfl
@[simp] theorem State.notePast_gs (s : State) (k : Nat) (r : Past) : (s.notePast k r).gs = s.gs := rfl
@[simp] theorem State.notePast_gd (s : State) (k : Nat) (r : Past) : (s.notePast k r).gd = s.gd := rfl
@[simp] theorem State.notePast_genSent (s : State) (k : Nat) (r : Past) : (s.notePast k r).genSent = s.genSent := rfl
@[simp] theorem State.notePast_scans (s : State) (k : Nat) (r : Past) : (s.notePast k r).scans = s.scans := rfl
@[simp] theorem State.notePast_gangs (s : State) (k : Nat) (r : Past) : (s.notePast k r).gangs = s.gangs := rfl
@[simp] theorem State.notePast_ghosts (s : State) (k : Nat) (r : Past) : (s.notePast k r).ghosts = s.ghosts := rfl
@[simp] theorem State.notePast_launches (s : State) (k : Nat) (r : Past) : (s.notePast k r).launches = s.launches := rfl
@[simp] theorem State.notePast_nextLaunch (s : State) (k : Nat) (r : Past) : (s.notePast k r).nextLaunch = s.nextLaunch := rfl
@[simp] theorem State.notePast_completions (s : State) (k : Nat) (r : Past) : (s.notePast k r).completions = s.completions := rfl
@[simp] theorem State.notePast_ports (s : State) (k : Nat) (r : Past) : (s.notePast k r).ports = s.ports := rfl
@[simp] theorem State.notePast_tenants (s : State) (k : Nat) (r : Past) : (s.notePast k r).tenants = s.tenants := rfl
@[simp] theorem State.notePast_reserves (s : State) (k : Nat) (r : Past) : (s.notePast k r).reserves = s.reserves := rfl
@[simp] theorem State.notePast_weights (s : State) (k : Nat) (r : Past) : (s.notePast k r).weights = s.weights := rfl
@[simp] theorem State.notePast_charges (s : State) (k : Nat) (r : Past) : (s.notePast k r).charges = s.charges := rfl
@[simp] theorem State.notePast_landings (s : State) (k : Nat) (r : Past) : (s.notePast k r).landings = s.landings := rfl
@[simp] theorem State.notePast_counts (s : State) (k : Nat) (r : Past) : (s.notePast k r).counts = s.counts := rfl
@[simp] theorem State.notePast_copyQ (s : State) (k : Nat) (r : Past) : (s.notePast k r).copyQ = s.copyQ := rfl
@[simp] theorem State.notePast_units (s : State) (k : Nat) (r : Past) : (s.notePast k r).units = s.units := rfl
@[simp] theorem State.notePast_drains (s : State) (k : Nat) (r : Past) : (s.notePast k r).drains = s.drains := rfl
@[simp] theorem State.notePast_tableQ (s : State) (k : Nat) (r : Past) : (s.notePast k r).tableQ = s.tableQ := rfl
@[simp] theorem State.notePast_nmQ (s : State) (k : Nat) (r : Past) : (s.notePast k r).nmQ = s.nmQ := rfl
@[simp] theorem State.notePast_nmus (s : State) (k : Nat) (r : Past) : (s.notePast k r).nmus = s.nmus := rfl
@[simp] theorem State.notePast_resumes (s : State) (k : Nat) (r : Past) : (s.notePast k r).resumes = s.resumes := rfl
@[simp] theorem State.notePast_loads (s : State) (k : Nat) (r : Past) : (s.notePast k r).loads = s.loads := rfl
@[simp] theorem State.notePast_indexes (s : State) (k : Nat) (r : Past) : (s.notePast k r).indexes = s.indexes := rfl
@[simp] theorem State.notePast_ixQ (s : State) (k : Nat) (r : Past) : (s.notePast k r).ixQ = s.ixQ := rfl
@[simp] theorem State.notePast_ixPaused (s : State) (k : Nat) (r : Past) : (s.notePast k r).ixPaused = s.ixPaused := rfl
@[simp] theorem State.notePast_store (s : State) (k : Nat) (r : Past) : (s.notePast k r).store = s.store := rfl
@[simp] theorem State.notePast_rings (s : State) (k : Nat) (r : Past) : (s.notePast k r).rings = s.rings := rfl
@[simp] theorem State.notePast_usage (s : State) (k : Nat) (r : Past) : (s.notePast k r).usage = s.usage := rfl
@[simp] theorem State.notePast_bars (s : State) (k : Nat) (r : Past) : (s.notePast k r).bars = s.bars := rfl
@[simp] theorem State.notePast_reportSeq (s : State) (k : Nat) (r : Past) : (s.notePast k r).reportSeq = s.reportSeq := rfl
@[simp] theorem State.notePast_epoch (s : State) (k : Nat) (r : Past) : (s.notePast k r).epoch = s.epoch := rfl
@[simp] theorem State.notePast_erased (s : State) (k : Nat) (r : Past) : (s.notePast k r).erased = s.erased := rfl
@[simp] theorem State.notePast_keyEpoch (s : State) (k : Nat) (r : Past) : (s.notePast k r).keyEpoch = s.keyEpoch := rfl
@[simp] theorem State.notePast_quarantined (s : State) (k : Nat) (r : Past) : (s.notePast k r).quarantined = s.quarantined := rfl
@[simp] theorem State.notePast_inReset (s : State) (k : Nat) (r : Past) : (s.notePast k r).inReset = s.inReset := rfl
@[simp] theorem State.notePast_budgets (s : State) (k : Nat) (r : Past) : (s.notePast k r).budgets = s.budgets := rfl
@[simp] theorem State.notePast_nextBudgets (s : State) (k : Nat) (r : Past) : (s.notePast k r).nextBudgets = s.nextBudgets := rfl
@[simp] theorem State.notePast_period (s : State) (k : Nat) (r : Past) : (s.notePast k r).period = s.period := rfl
@[simp] theorem State.notePast_reply (s : State) (k : Nat) (r : Past) : (s.notePast k r).reply = s.reply := rfl
@[simp] theorem State.notePast_replyError (s : State) (k : Nat) (r : Past) : (s.notePast k r).replyError = s.replyError := rfl
@[simp] theorem State.notePast_retained (s : State) (k : Nat) (r : Past) : (s.notePast k r).retained = s.retained := rfl
@[simp] theorem State.notePast_monel (s : State) (k : Nat) (r : Past) : (s.notePast k r).monel = s.monel := rfl

/-! ### adopt -/

@[simp] theorem State.adopt_th (s : State) (p : Past → Bool) : (s.adopt p).th = s.th := rfl
@[simp] theorem State.adopt_others (s : State) (p : Past → Bool) : (s.adopt p).others = s.others := rfl
@[simp] theorem State.adopt_agenda (s : State) (p : Past → Bool) : (s.adopt p).agenda = s.agenda := rfl
@[simp] theorem State.adopt_ev (s : State) (p : Past → Bool) : (s.adopt p).ev = s.ev := rfl
@[simp] theorem State.adopt_nmuAt (s : State) (p : Past → Bool) : (s.adopt p).nmuAt = s.nmuAt := rfl
@[simp] theorem State.adopt_draw (s : State) (p : Past → Bool) : (s.adopt p).draw = s.draw := rfl
@[simp] theorem State.adopt_packets (s : State) (p : Past → Bool) : (s.adopt p).packets = s.packets := rfl
@[simp] theorem State.adopt_clock (s : State) (p : Past → Bool) : (s.adopt p).clock = s.clock := rfl
@[simp] theorem State.adopt_skew (s : State) (p : Past → Bool) : (s.adopt p).skew = s.skew := rfl
@[simp] theorem State.adopt_halted (s : State) (p : Past → Bool) : (s.adopt p).halted = s.halted := rfl
@[simp] theorem State.adopt_bootStep (s : State) (p : Past → Bool) : (s.adopt p).bootStep = s.bootStep := rfl
@[simp] theorem State.adopt_cfg (s : State) (p : Past → Bool) : (s.adopt p).cfg = s.cfg := rfl
@[simp] theorem State.adopt_mem (s : State) (p : Past → Bool) : (s.adopt p).mem = s.mem := rfl
@[simp] theorem State.adopt_loc (s : State) (p : Past → Bool) : (s.adopt p).loc = s.loc := rfl
@[simp] theorem State.adopt_keys (s : State) (p : Past → Bool) : (s.adopt p).keys = s.keys := rfl
@[simp] theorem State.adopt_tags (s : State) (p : Past → Bool) : (s.adopt p).tags = s.tags := rfl
@[simp] theorem State.adopt_poison (s : State) (p : Past → Bool) : (s.adopt p).poison = s.poison := rfl
@[simp] theorem State.adopt_bad (s : State) (p : Past → Bool) : (s.adopt p).bad = s.bad := rfl
@[simp] theorem State.adopt_weak (s : State) (p : Past → Bool) : (s.adopt p).weak = s.weak := rfl
@[simp] theorem State.adopt_badLoc (s : State) (p : Past → Bool) : (s.adopt p).badLoc = s.badLoc := rfl
@[simp] theorem State.adopt_icache (s : State) (p : Past → Bool) : (s.adopt p).icache = s.icache := rfl
@[simp] theorem State.adopt_regs (s : State) (p : Past → Bool) : (s.adopt p).regs = s.regs := rfl
@[simp] theorem State.adopt_tlb (s : State) (p : Past → Bool) : (s.adopt p).tlb = s.tlb := rfl
@[simp] theorem State.adopt_walk (s : State) (p : Past → Bool) : (s.adopt p).walk = s.walk := rfl
@[simp] theorem State.adopt_gs (s : State) (p : Past → Bool) : (s.adopt p).gs = s.gs := rfl
@[simp] theorem State.adopt_gd (s : State) (p : Past → Bool) : (s.adopt p).gd = s.gd := rfl
@[simp] theorem State.adopt_genSent (s : State) (p : Past → Bool) : (s.adopt p).genSent = s.genSent := rfl
@[simp] theorem State.adopt_scans (s : State) (p : Past → Bool) : (s.adopt p).scans = s.scans := rfl
@[simp] theorem State.adopt_gangs (s : State) (p : Past → Bool) : (s.adopt p).gangs = s.gangs := rfl
@[simp] theorem State.adopt_ghosts (s : State) (p : Past → Bool) : (s.adopt p).ghosts = s.ghosts := rfl
@[simp] theorem State.adopt_launches (s : State) (p : Past → Bool) : (s.adopt p).launches = s.launches := rfl
@[simp] theorem State.adopt_nextLaunch (s : State) (p : Past → Bool) : (s.adopt p).nextLaunch = s.nextLaunch := rfl
@[simp] theorem State.adopt_completions (s : State) (p : Past → Bool) : (s.adopt p).completions = s.completions := rfl
@[simp] theorem State.adopt_ports (s : State) (p : Past → Bool) : (s.adopt p).ports = s.ports := rfl
@[simp] theorem State.adopt_tenants (s : State) (p : Past → Bool) : (s.adopt p).tenants = s.tenants := rfl
@[simp] theorem State.adopt_reserves (s : State) (p : Past → Bool) : (s.adopt p).reserves = s.reserves := rfl
@[simp] theorem State.adopt_weights (s : State) (p : Past → Bool) : (s.adopt p).weights = s.weights := rfl
@[simp] theorem State.adopt_charges (s : State) (p : Past → Bool) : (s.adopt p).charges = s.charges := rfl
@[simp] theorem State.adopt_landings (s : State) (p : Past → Bool) : (s.adopt p).landings = s.landings := rfl
@[simp] theorem State.adopt_counts (s : State) (p : Past → Bool) : (s.adopt p).counts = s.counts := rfl
@[simp] theorem State.adopt_copyQ (s : State) (p : Past → Bool) : (s.adopt p).copyQ = s.copyQ := rfl
@[simp] theorem State.adopt_units (s : State) (p : Past → Bool) : (s.adopt p).units = s.units := rfl
@[simp] theorem State.adopt_drains (s : State) (p : Past → Bool) : (s.adopt p).drains = s.drains := rfl
@[simp] theorem State.adopt_tableQ (s : State) (p : Past → Bool) : (s.adopt p).tableQ = s.tableQ := rfl
@[simp] theorem State.adopt_nmQ (s : State) (p : Past → Bool) : (s.adopt p).nmQ = s.nmQ := rfl
@[simp] theorem State.adopt_nmus (s : State) (p : Past → Bool) : (s.adopt p).nmus = s.nmus := rfl
@[simp] theorem State.adopt_resumes (s : State) (p : Past → Bool) : (s.adopt p).resumes = s.resumes := rfl
@[simp] theorem State.adopt_loads (s : State) (p : Past → Bool) : (s.adopt p).loads = s.loads := rfl
@[simp] theorem State.adopt_indexes (s : State) (p : Past → Bool) : (s.adopt p).indexes = s.indexes := rfl
@[simp] theorem State.adopt_ixQ (s : State) (p : Past → Bool) : (s.adopt p).ixQ = s.ixQ := rfl
@[simp] theorem State.adopt_ixPaused (s : State) (p : Past → Bool) : (s.adopt p).ixPaused = s.ixPaused := rfl
@[simp] theorem State.adopt_store (s : State) (p : Past → Bool) : (s.adopt p).store = s.store := rfl
@[simp] theorem State.adopt_rings (s : State) (p : Past → Bool) : (s.adopt p).rings = s.rings := rfl
@[simp] theorem State.adopt_usage (s : State) (p : Past → Bool) : (s.adopt p).usage = s.usage := rfl
@[simp] theorem State.adopt_bars (s : State) (p : Past → Bool) : (s.adopt p).bars = s.bars := rfl
@[simp] theorem State.adopt_reportSeq (s : State) (p : Past → Bool) : (s.adopt p).reportSeq = s.reportSeq := rfl
@[simp] theorem State.adopt_epoch (s : State) (p : Past → Bool) : (s.adopt p).epoch = s.epoch := rfl
@[simp] theorem State.adopt_erased (s : State) (p : Past → Bool) : (s.adopt p).erased = s.erased := rfl
@[simp] theorem State.adopt_keyEpoch (s : State) (p : Past → Bool) : (s.adopt p).keyEpoch = s.keyEpoch := rfl
@[simp] theorem State.adopt_quarantined (s : State) (p : Past → Bool) : (s.adopt p).quarantined = s.quarantined := rfl
@[simp] theorem State.adopt_inReset (s : State) (p : Past → Bool) : (s.adopt p).inReset = s.inReset := rfl
@[simp] theorem State.adopt_budgets (s : State) (p : Past → Bool) : (s.adopt p).budgets = s.budgets := rfl
@[simp] theorem State.adopt_nextBudgets (s : State) (p : Past → Bool) : (s.adopt p).nextBudgets = s.nextBudgets := rfl
@[simp] theorem State.adopt_period (s : State) (p : Past → Bool) : (s.adopt p).period = s.period := rfl
@[simp] theorem State.adopt_reply (s : State) (p : Past → Bool) : (s.adopt p).reply = s.reply := rfl
@[simp] theorem State.adopt_replyError (s : State) (p : Past → Bool) : (s.adopt p).replyError = s.replyError := rfl
@[simp] theorem State.adopt_retained (s : State) (p : Past → Bool) : (s.adopt p).retained = s.retained := rfl
@[simp] theorem State.adopt_monel (s : State) (p : Past → Bool) : (s.adopt p).monel = s.monel := rfl

/-! ### adoptPath -/

@[simp] theorem State.adoptPath_th (s : State) (p : PathId) (c : Nat) : (s.adoptPath p c).th = s.th := rfl
@[simp] theorem State.adoptPath_others (s : State) (p : PathId) (c : Nat) : (s.adoptPath p c).others = s.others := rfl
@[simp] theorem State.adoptPath_agenda (s : State) (p : PathId) (c : Nat) : (s.adoptPath p c).agenda = s.agenda := rfl
@[simp] theorem State.adoptPath_ev (s : State) (p : PathId) (c : Nat) : (s.adoptPath p c).ev = s.ev := rfl
@[simp] theorem State.adoptPath_nmuAt (s : State) (p : PathId) (c : Nat) : (s.adoptPath p c).nmuAt = s.nmuAt := rfl
@[simp] theorem State.adoptPath_draw (s : State) (p : PathId) (c : Nat) : (s.adoptPath p c).draw = s.draw := rfl
@[simp] theorem State.adoptPath_packets (s : State) (p : PathId) (c : Nat) : (s.adoptPath p c).packets = s.packets := rfl
@[simp] theorem State.adoptPath_clock (s : State) (p : PathId) (c : Nat) : (s.adoptPath p c).clock = s.clock := rfl
@[simp] theorem State.adoptPath_skew (s : State) (p : PathId) (c : Nat) : (s.adoptPath p c).skew = s.skew := rfl
@[simp] theorem State.adoptPath_halted (s : State) (p : PathId) (c : Nat) : (s.adoptPath p c).halted = s.halted := rfl
@[simp] theorem State.adoptPath_bootStep (s : State) (p : PathId) (c : Nat) : (s.adoptPath p c).bootStep = s.bootStep := rfl
@[simp] theorem State.adoptPath_cfg (s : State) (p : PathId) (c : Nat) : (s.adoptPath p c).cfg = s.cfg := rfl
@[simp] theorem State.adoptPath_mem (s : State) (p : PathId) (c : Nat) : (s.adoptPath p c).mem = s.mem := rfl
@[simp] theorem State.adoptPath_loc (s : State) (p : PathId) (c : Nat) : (s.adoptPath p c).loc = s.loc := rfl
@[simp] theorem State.adoptPath_keys (s : State) (p : PathId) (c : Nat) : (s.adoptPath p c).keys = s.keys := rfl
@[simp] theorem State.adoptPath_tags (s : State) (p : PathId) (c : Nat) : (s.adoptPath p c).tags = s.tags := rfl
@[simp] theorem State.adoptPath_poison (s : State) (p : PathId) (c : Nat) : (s.adoptPath p c).poison = s.poison := rfl
@[simp] theorem State.adoptPath_bad (s : State) (p : PathId) (c : Nat) : (s.adoptPath p c).bad = s.bad := rfl
@[simp] theorem State.adoptPath_weak (s : State) (p : PathId) (c : Nat) : (s.adoptPath p c).weak = s.weak := rfl
@[simp] theorem State.adoptPath_badLoc (s : State) (p : PathId) (c : Nat) : (s.adoptPath p c).badLoc = s.badLoc := rfl
@[simp] theorem State.adoptPath_icache (s : State) (p : PathId) (c : Nat) : (s.adoptPath p c).icache = s.icache := rfl
@[simp] theorem State.adoptPath_regs (s : State) (p : PathId) (c : Nat) : (s.adoptPath p c).regs = s.regs := rfl
@[simp] theorem State.adoptPath_tlb (s : State) (p : PathId) (c : Nat) : (s.adoptPath p c).tlb = s.tlb := rfl
@[simp] theorem State.adoptPath_walk (s : State) (p : PathId) (c : Nat) : (s.adoptPath p c).walk = s.walk := rfl
@[simp] theorem State.adoptPath_gs (s : State) (p : PathId) (c : Nat) : (s.adoptPath p c).gs = s.gs := rfl
@[simp] theorem State.adoptPath_gd (s : State) (p : PathId) (c : Nat) : (s.adoptPath p c).gd = s.gd := rfl
@[simp] theorem State.adoptPath_genSent (s : State) (p : PathId) (c : Nat) : (s.adoptPath p c).genSent = s.genSent := rfl
@[simp] theorem State.adoptPath_scans (s : State) (p : PathId) (c : Nat) : (s.adoptPath p c).scans = s.scans := rfl
@[simp] theorem State.adoptPath_gangs (s : State) (p : PathId) (c : Nat) : (s.adoptPath p c).gangs = s.gangs := rfl
@[simp] theorem State.adoptPath_ghosts (s : State) (p : PathId) (c : Nat) : (s.adoptPath p c).ghosts = s.ghosts := rfl
@[simp] theorem State.adoptPath_launches (s : State) (p : PathId) (c : Nat) : (s.adoptPath p c).launches = s.launches := rfl
@[simp] theorem State.adoptPath_nextLaunch (s : State) (p : PathId) (c : Nat) : (s.adoptPath p c).nextLaunch = s.nextLaunch := rfl
@[simp] theorem State.adoptPath_completions (s : State) (p : PathId) (c : Nat) : (s.adoptPath p c).completions = s.completions := rfl
@[simp] theorem State.adoptPath_ports (s : State) (p : PathId) (c : Nat) : (s.adoptPath p c).ports = s.ports := rfl
@[simp] theorem State.adoptPath_tenants (s : State) (p : PathId) (c : Nat) : (s.adoptPath p c).tenants = s.tenants := rfl
@[simp] theorem State.adoptPath_reserves (s : State) (p : PathId) (c : Nat) : (s.adoptPath p c).reserves = s.reserves := rfl
@[simp] theorem State.adoptPath_weights (s : State) (p : PathId) (c : Nat) : (s.adoptPath p c).weights = s.weights := rfl
@[simp] theorem State.adoptPath_charges (s : State) (p : PathId) (c : Nat) : (s.adoptPath p c).charges = s.charges := rfl
@[simp] theorem State.adoptPath_landings (s : State) (p : PathId) (c : Nat) : (s.adoptPath p c).landings = s.landings := rfl
@[simp] theorem State.adoptPath_counts (s : State) (p : PathId) (c : Nat) : (s.adoptPath p c).counts = s.counts := rfl
@[simp] theorem State.adoptPath_copyQ (s : State) (p : PathId) (c : Nat) : (s.adoptPath p c).copyQ = s.copyQ := rfl
@[simp] theorem State.adoptPath_units (s : State) (p : PathId) (c : Nat) : (s.adoptPath p c).units = s.units := rfl
@[simp] theorem State.adoptPath_drains (s : State) (p : PathId) (c : Nat) : (s.adoptPath p c).drains = s.drains := rfl
@[simp] theorem State.adoptPath_tableQ (s : State) (p : PathId) (c : Nat) : (s.adoptPath p c).tableQ = s.tableQ := rfl
@[simp] theorem State.adoptPath_nmQ (s : State) (p : PathId) (c : Nat) : (s.adoptPath p c).nmQ = s.nmQ := rfl
@[simp] theorem State.adoptPath_nmus (s : State) (p : PathId) (c : Nat) : (s.adoptPath p c).nmus = s.nmus := rfl
@[simp] theorem State.adoptPath_resumes (s : State) (p : PathId) (c : Nat) : (s.adoptPath p c).resumes = s.resumes := rfl
@[simp] theorem State.adoptPath_loads (s : State) (p : PathId) (c : Nat) : (s.adoptPath p c).loads = s.loads := rfl
@[simp] theorem State.adoptPath_indexes (s : State) (p : PathId) (c : Nat) : (s.adoptPath p c).indexes = s.indexes := rfl
@[simp] theorem State.adoptPath_ixQ (s : State) (p : PathId) (c : Nat) : (s.adoptPath p c).ixQ = s.ixQ := rfl
@[simp] theorem State.adoptPath_ixPaused (s : State) (p : PathId) (c : Nat) : (s.adoptPath p c).ixPaused = s.ixPaused := rfl
@[simp] theorem State.adoptPath_store (s : State) (p : PathId) (c : Nat) : (s.adoptPath p c).store = s.store := rfl
@[simp] theorem State.adoptPath_rings (s : State) (p : PathId) (c : Nat) : (s.adoptPath p c).rings = s.rings := rfl
@[simp] theorem State.adoptPath_usage (s : State) (p : PathId) (c : Nat) : (s.adoptPath p c).usage = s.usage := rfl
@[simp] theorem State.adoptPath_bars (s : State) (p : PathId) (c : Nat) : (s.adoptPath p c).bars = s.bars := rfl
@[simp] theorem State.adoptPath_reportSeq (s : State) (p : PathId) (c : Nat) : (s.adoptPath p c).reportSeq = s.reportSeq := rfl
@[simp] theorem State.adoptPath_epoch (s : State) (p : PathId) (c : Nat) : (s.adoptPath p c).epoch = s.epoch := rfl
@[simp] theorem State.adoptPath_erased (s : State) (p : PathId) (c : Nat) : (s.adoptPath p c).erased = s.erased := rfl
@[simp] theorem State.adoptPath_keyEpoch (s : State) (p : PathId) (c : Nat) : (s.adoptPath p c).keyEpoch = s.keyEpoch := rfl
@[simp] theorem State.adoptPath_quarantined (s : State) (p : PathId) (c : Nat) : (s.adoptPath p c).quarantined = s.quarantined := rfl
@[simp] theorem State.adoptPath_inReset (s : State) (p : PathId) (c : Nat) : (s.adoptPath p c).inReset = s.inReset := rfl
@[simp] theorem State.adoptPath_budgets (s : State) (p : PathId) (c : Nat) : (s.adoptPath p c).budgets = s.budgets := rfl
@[simp] theorem State.adoptPath_nextBudgets (s : State) (p : PathId) (c : Nat) : (s.adoptPath p c).nextBudgets = s.nextBudgets := rfl
@[simp] theorem State.adoptPath_period (s : State) (p : PathId) (c : Nat) : (s.adoptPath p c).period = s.period := rfl
@[simp] theorem State.adoptPath_reply (s : State) (p : PathId) (c : Nat) : (s.adoptPath p c).reply = s.reply := rfl
@[simp] theorem State.adoptPath_replyError (s : State) (p : PathId) (c : Nat) : (s.adoptPath p c).replyError = s.replyError := rfl
@[simp] theorem State.adoptPath_retained (s : State) (p : PathId) (c : Nat) : (s.adoptPath p c).retained = s.retained := rfl
@[simp] theorem State.adoptPath_monel (s : State) (p : PathId) (c : Nat) : (s.adoptPath p c).monel = s.monel := rfl

/-! ### adoptAll -/

@[simp] theorem State.adoptAll_th (s : State) (i : Ident) : (s.adoptAll i).th = s.th := rfl
@[simp] theorem State.adoptAll_others (s : State) (i : Ident) : (s.adoptAll i).others = s.others := rfl
@[simp] theorem State.adoptAll_agenda (s : State) (i : Ident) : (s.adoptAll i).agenda = s.agenda := rfl
@[simp] theorem State.adoptAll_ev (s : State) (i : Ident) : (s.adoptAll i).ev = s.ev := rfl
@[simp] theorem State.adoptAll_nmuAt (s : State) (i : Ident) : (s.adoptAll i).nmuAt = s.nmuAt := rfl
@[simp] theorem State.adoptAll_draw (s : State) (i : Ident) : (s.adoptAll i).draw = s.draw := rfl
@[simp] theorem State.adoptAll_packets (s : State) (i : Ident) : (s.adoptAll i).packets = s.packets := rfl
@[simp] theorem State.adoptAll_clock (s : State) (i : Ident) : (s.adoptAll i).clock = s.clock := rfl
@[simp] theorem State.adoptAll_skew (s : State) (i : Ident) : (s.adoptAll i).skew = s.skew := rfl
@[simp] theorem State.adoptAll_halted (s : State) (i : Ident) : (s.adoptAll i).halted = s.halted := rfl
@[simp] theorem State.adoptAll_bootStep (s : State) (i : Ident) : (s.adoptAll i).bootStep = s.bootStep := rfl
@[simp] theorem State.adoptAll_cfg (s : State) (i : Ident) : (s.adoptAll i).cfg = s.cfg := rfl
@[simp] theorem State.adoptAll_mem (s : State) (i : Ident) : (s.adoptAll i).mem = s.mem := rfl
@[simp] theorem State.adoptAll_loc (s : State) (i : Ident) : (s.adoptAll i).loc = s.loc := rfl
@[simp] theorem State.adoptAll_keys (s : State) (i : Ident) : (s.adoptAll i).keys = s.keys := rfl
@[simp] theorem State.adoptAll_tags (s : State) (i : Ident) : (s.adoptAll i).tags = s.tags := rfl
@[simp] theorem State.adoptAll_poison (s : State) (i : Ident) : (s.adoptAll i).poison = s.poison := rfl
@[simp] theorem State.adoptAll_bad (s : State) (i : Ident) : (s.adoptAll i).bad = s.bad := rfl
@[simp] theorem State.adoptAll_weak (s : State) (i : Ident) : (s.adoptAll i).weak = s.weak := rfl
@[simp] theorem State.adoptAll_badLoc (s : State) (i : Ident) : (s.adoptAll i).badLoc = s.badLoc := rfl
@[simp] theorem State.adoptAll_icache (s : State) (i : Ident) : (s.adoptAll i).icache = s.icache := rfl
@[simp] theorem State.adoptAll_regs (s : State) (i : Ident) : (s.adoptAll i).regs = s.regs := rfl
@[simp] theorem State.adoptAll_tlb (s : State) (i : Ident) : (s.adoptAll i).tlb = s.tlb := rfl
@[simp] theorem State.adoptAll_walk (s : State) (i : Ident) : (s.adoptAll i).walk = s.walk := rfl
@[simp] theorem State.adoptAll_gs (s : State) (i : Ident) : (s.adoptAll i).gs = s.gs := rfl
@[simp] theorem State.adoptAll_gd (s : State) (i : Ident) : (s.adoptAll i).gd = s.gd := rfl
@[simp] theorem State.adoptAll_genSent (s : State) (i : Ident) : (s.adoptAll i).genSent = s.genSent := rfl
@[simp] theorem State.adoptAll_scans (s : State) (i : Ident) : (s.adoptAll i).scans = s.scans := rfl
@[simp] theorem State.adoptAll_gangs (s : State) (i : Ident) : (s.adoptAll i).gangs = s.gangs := rfl
@[simp] theorem State.adoptAll_ghosts (s : State) (i : Ident) : (s.adoptAll i).ghosts = s.ghosts := rfl
@[simp] theorem State.adoptAll_launches (s : State) (i : Ident) : (s.adoptAll i).launches = s.launches := rfl
@[simp] theorem State.adoptAll_nextLaunch (s : State) (i : Ident) : (s.adoptAll i).nextLaunch = s.nextLaunch := rfl
@[simp] theorem State.adoptAll_completions (s : State) (i : Ident) : (s.adoptAll i).completions = s.completions := rfl
@[simp] theorem State.adoptAll_ports (s : State) (i : Ident) : (s.adoptAll i).ports = s.ports := rfl
@[simp] theorem State.adoptAll_tenants (s : State) (i : Ident) : (s.adoptAll i).tenants = s.tenants := rfl
@[simp] theorem State.adoptAll_reserves (s : State) (i : Ident) : (s.adoptAll i).reserves = s.reserves := rfl
@[simp] theorem State.adoptAll_weights (s : State) (i : Ident) : (s.adoptAll i).weights = s.weights := rfl
@[simp] theorem State.adoptAll_charges (s : State) (i : Ident) : (s.adoptAll i).charges = s.charges := rfl
@[simp] theorem State.adoptAll_landings (s : State) (i : Ident) : (s.adoptAll i).landings = s.landings := rfl
@[simp] theorem State.adoptAll_counts (s : State) (i : Ident) : (s.adoptAll i).counts = s.counts := rfl
@[simp] theorem State.adoptAll_copyQ (s : State) (i : Ident) : (s.adoptAll i).copyQ = s.copyQ := rfl
@[simp] theorem State.adoptAll_units (s : State) (i : Ident) : (s.adoptAll i).units = s.units := rfl
@[simp] theorem State.adoptAll_drains (s : State) (i : Ident) : (s.adoptAll i).drains = s.drains := rfl
@[simp] theorem State.adoptAll_tableQ (s : State) (i : Ident) : (s.adoptAll i).tableQ = s.tableQ := rfl
@[simp] theorem State.adoptAll_nmQ (s : State) (i : Ident) : (s.adoptAll i).nmQ = s.nmQ := rfl
@[simp] theorem State.adoptAll_nmus (s : State) (i : Ident) : (s.adoptAll i).nmus = s.nmus := rfl
@[simp] theorem State.adoptAll_resumes (s : State) (i : Ident) : (s.adoptAll i).resumes = s.resumes := rfl
@[simp] theorem State.adoptAll_loads (s : State) (i : Ident) : (s.adoptAll i).loads = s.loads := rfl
@[simp] theorem State.adoptAll_indexes (s : State) (i : Ident) : (s.adoptAll i).indexes = s.indexes := rfl
@[simp] theorem State.adoptAll_ixQ (s : State) (i : Ident) : (s.adoptAll i).ixQ = s.ixQ := rfl
@[simp] theorem State.adoptAll_ixPaused (s : State) (i : Ident) : (s.adoptAll i).ixPaused = s.ixPaused := rfl
@[simp] theorem State.adoptAll_store (s : State) (i : Ident) : (s.adoptAll i).store = s.store := rfl
@[simp] theorem State.adoptAll_rings (s : State) (i : Ident) : (s.adoptAll i).rings = s.rings := rfl
@[simp] theorem State.adoptAll_usage (s : State) (i : Ident) : (s.adoptAll i).usage = s.usage := rfl
@[simp] theorem State.adoptAll_bars (s : State) (i : Ident) : (s.adoptAll i).bars = s.bars := rfl
@[simp] theorem State.adoptAll_reportSeq (s : State) (i : Ident) : (s.adoptAll i).reportSeq = s.reportSeq := rfl
@[simp] theorem State.adoptAll_epoch (s : State) (i : Ident) : (s.adoptAll i).epoch = s.epoch := rfl
@[simp] theorem State.adoptAll_erased (s : State) (i : Ident) : (s.adoptAll i).erased = s.erased := rfl
@[simp] theorem State.adoptAll_keyEpoch (s : State) (i : Ident) : (s.adoptAll i).keyEpoch = s.keyEpoch := rfl
@[simp] theorem State.adoptAll_quarantined (s : State) (i : Ident) : (s.adoptAll i).quarantined = s.quarantined := rfl
@[simp] theorem State.adoptAll_inReset (s : State) (i : Ident) : (s.adoptAll i).inReset = s.inReset := rfl
@[simp] theorem State.adoptAll_budgets (s : State) (i : Ident) : (s.adoptAll i).budgets = s.budgets := rfl
@[simp] theorem State.adoptAll_nextBudgets (s : State) (i : Ident) : (s.adoptAll i).nextBudgets = s.nextBudgets := rfl
@[simp] theorem State.adoptAll_period (s : State) (i : Ident) : (s.adoptAll i).period = s.period := rfl
@[simp] theorem State.adoptAll_reply (s : State) (i : Ident) : (s.adoptAll i).reply = s.reply := rfl
@[simp] theorem State.adoptAll_replyError (s : State) (i : Ident) : (s.adoptAll i).replyError = s.replyError := rfl
@[simp] theorem State.adoptAll_retained (s : State) (i : Ident) : (s.adoptAll i).retained = s.retained := rfl
@[simp] theorem State.adoptAll_monel (s : State) (i : Ident) : (s.adoptAll i).monel = s.monel := rfl

/-! ### arm -/

@[simp] theorem State.arm_th (s : State) : (s.arm).th = s.th := rfl
@[simp] theorem State.arm_others (s : State) : (s.arm).others = s.others := rfl
@[simp] theorem State.arm_agenda (s : State) : (s.arm).agenda = s.agenda := rfl
@[simp] theorem State.arm_ev (s : State) : (s.arm).ev = s.ev := rfl
@[simp] theorem State.arm_nmuAt (s : State) : (s.arm).nmuAt = s.nmuAt := rfl
@[simp] theorem State.arm_draw (s : State) : (s.arm).draw = s.draw := rfl
@[simp] theorem State.arm_packets (s : State) : (s.arm).packets = s.packets := rfl
@[simp] theorem State.arm_clock (s : State) : (s.arm).clock = s.clock := rfl
@[simp] theorem State.arm_skew (s : State) : (s.arm).skew = s.skew := rfl
@[simp] theorem State.arm_halted (s : State) : (s.arm).halted = s.halted := rfl
@[simp] theorem State.arm_bootStep (s : State) : (s.arm).bootStep = s.bootStep := rfl
@[simp] theorem State.arm_cfg (s : State) : (s.arm).cfg = s.cfg := rfl
@[simp] theorem State.arm_mem (s : State) : (s.arm).mem = s.mem := rfl
@[simp] theorem State.arm_loc (s : State) : (s.arm).loc = s.loc := rfl
@[simp] theorem State.arm_keys (s : State) : (s.arm).keys = s.keys := rfl
@[simp] theorem State.arm_tags (s : State) : (s.arm).tags = s.tags := rfl
@[simp] theorem State.arm_poison (s : State) : (s.arm).poison = s.poison := rfl
@[simp] theorem State.arm_bad (s : State) : (s.arm).bad = s.bad := rfl
@[simp] theorem State.arm_weak (s : State) : (s.arm).weak = s.weak := rfl
@[simp] theorem State.arm_badLoc (s : State) : (s.arm).badLoc = s.badLoc := rfl
@[simp] theorem State.arm_icache (s : State) : (s.arm).icache = s.icache := rfl
@[simp] theorem State.arm_regs (s : State) : (s.arm).regs = s.regs := rfl
@[simp] theorem State.arm_now (s : State) : (s.arm).now = s.now := rfl
@[simp] theorem State.arm_tlb (s : State) : (s.arm).tlb = s.tlb := rfl
@[simp] theorem State.arm_walk (s : State) : (s.arm).walk = s.walk := rfl
@[simp] theorem State.arm_gs (s : State) : (s.arm).gs = s.gs := rfl
@[simp] theorem State.arm_gd (s : State) : (s.arm).gd = s.gd := rfl
@[simp] theorem State.arm_genSent (s : State) : (s.arm).genSent = s.genSent := rfl
@[simp] theorem State.arm_scans (s : State) : (s.arm).scans = s.scans := rfl
@[simp] theorem State.arm_gangs (s : State) : (s.arm).gangs = s.gangs := rfl
@[simp] theorem State.arm_ghosts (s : State) : (s.arm).ghosts = s.ghosts := rfl
@[simp] theorem State.arm_launches (s : State) : (s.arm).launches = s.launches := rfl
@[simp] theorem State.arm_nextLaunch (s : State) : (s.arm).nextLaunch = s.nextLaunch := rfl
@[simp] theorem State.arm_completions (s : State) : (s.arm).completions = s.completions := rfl
@[simp] theorem State.arm_ports (s : State) : (s.arm).ports = s.ports := rfl
@[simp] theorem State.arm_tenants (s : State) : (s.arm).tenants = s.tenants := rfl
@[simp] theorem State.arm_reserves (s : State) : (s.arm).reserves = s.reserves := rfl
@[simp] theorem State.arm_weights (s : State) : (s.arm).weights = s.weights := rfl
@[simp] theorem State.arm_charges (s : State) : (s.arm).charges = s.charges := rfl
@[simp] theorem State.arm_landings (s : State) : (s.arm).landings = s.landings := rfl
@[simp] theorem State.arm_counts (s : State) : (s.arm).counts = s.counts := rfl
@[simp] theorem State.arm_copyQ (s : State) : (s.arm).copyQ = s.copyQ := rfl
@[simp] theorem State.arm_units (s : State) : (s.arm).units = s.units := rfl
@[simp] theorem State.arm_drains (s : State) : (s.arm).drains = s.drains := rfl
@[simp] theorem State.arm_tableQ (s : State) : (s.arm).tableQ = s.tableQ := rfl
@[simp] theorem State.arm_nmQ (s : State) : (s.arm).nmQ = s.nmQ := rfl
@[simp] theorem State.arm_nmus (s : State) : (s.arm).nmus = s.nmus := rfl
@[simp] theorem State.arm_resumes (s : State) : (s.arm).resumes = s.resumes := rfl
@[simp] theorem State.arm_loads (s : State) : (s.arm).loads = s.loads := rfl
@[simp] theorem State.arm_indexes (s : State) : (s.arm).indexes = s.indexes := rfl
@[simp] theorem State.arm_ixQ (s : State) : (s.arm).ixQ = s.ixQ := rfl
@[simp] theorem State.arm_ixPaused (s : State) : (s.arm).ixPaused = s.ixPaused := rfl
@[simp] theorem State.arm_store (s : State) : (s.arm).store = s.store := rfl
@[simp] theorem State.arm_rings (s : State) : (s.arm).rings = s.rings := rfl
@[simp] theorem State.arm_usage (s : State) : (s.arm).usage = s.usage := rfl
@[simp] theorem State.arm_bars (s : State) : (s.arm).bars = s.bars := rfl
@[simp] theorem State.arm_reportSeq (s : State) : (s.arm).reportSeq = s.reportSeq := rfl
@[simp] theorem State.arm_epoch (s : State) : (s.arm).epoch = s.epoch := rfl
@[simp] theorem State.arm_erased (s : State) : (s.arm).erased = s.erased := rfl
@[simp] theorem State.arm_keyEpoch (s : State) : (s.arm).keyEpoch = s.keyEpoch := rfl
@[simp] theorem State.arm_quarantined (s : State) : (s.arm).quarantined = s.quarantined := rfl
@[simp] theorem State.arm_inReset (s : State) : (s.arm).inReset = s.inReset := rfl
@[simp] theorem State.arm_budgets (s : State) : (s.arm).budgets = s.budgets := rfl
@[simp] theorem State.arm_nextBudgets (s : State) : (s.arm).nextBudgets = s.nextBudgets := rfl
@[simp] theorem State.arm_period (s : State) : (s.arm).period = s.period := rfl
@[simp] theorem State.arm_reply (s : State) : (s.arm).reply = s.reply := rfl
@[simp] theorem State.arm_replyError (s : State) : (s.arm).replyError = s.replyError := rfl
@[simp] theorem State.arm_retained (s : State) : (s.arm).retained = s.retained := rfl
@[simp] theorem State.arm_monel (s : State) : (s.arm).monel = s.monel := rfl

/-! ### releaseWhere -/

@[simp] theorem State.releaseWhere_th (s : State) (p : Past → Bool) (o : Order) : (s.releaseWhere p o).th = s.th := by cases o <;> rfl
@[simp] theorem State.releaseWhere_others (s : State) (p : Past → Bool) (o : Order) : (s.releaseWhere p o).others = s.others := by cases o <;> rfl
@[simp] theorem State.releaseWhere_agenda (s : State) (p : Past → Bool) (o : Order) : (s.releaseWhere p o).agenda = s.agenda := by cases o <;> rfl
@[simp] theorem State.releaseWhere_ev (s : State) (p : Past → Bool) (o : Order) : (s.releaseWhere p o).ev = s.ev := by cases o <;> rfl
@[simp] theorem State.releaseWhere_nmuAt (s : State) (p : Past → Bool) (o : Order) : (s.releaseWhere p o).nmuAt = s.nmuAt := by cases o <;> rfl
@[simp] theorem State.releaseWhere_draw (s : State) (p : Past → Bool) (o : Order) : (s.releaseWhere p o).draw = s.draw := by cases o <;> rfl
@[simp] theorem State.releaseWhere_packets (s : State) (p : Past → Bool) (o : Order) : (s.releaseWhere p o).packets = s.packets := by cases o <;> rfl
@[simp] theorem State.releaseWhere_clock (s : State) (p : Past → Bool) (o : Order) : (s.releaseWhere p o).clock = s.clock := by cases o <;> rfl
@[simp] theorem State.releaseWhere_skew (s : State) (p : Past → Bool) (o : Order) : (s.releaseWhere p o).skew = s.skew := by cases o <;> rfl
@[simp] theorem State.releaseWhere_halted (s : State) (p : Past → Bool) (o : Order) : (s.releaseWhere p o).halted = s.halted := by cases o <;> rfl
@[simp] theorem State.releaseWhere_bootStep (s : State) (p : Past → Bool) (o : Order) : (s.releaseWhere p o).bootStep = s.bootStep := by cases o <;> rfl
@[simp] theorem State.releaseWhere_cfg (s : State) (p : Past → Bool) (o : Order) : (s.releaseWhere p o).cfg = s.cfg := by cases o <;> rfl
@[simp] theorem State.releaseWhere_mem (s : State) (p : Past → Bool) (o : Order) : (s.releaseWhere p o).mem = s.mem := by cases o <;> rfl
@[simp] theorem State.releaseWhere_loc (s : State) (p : Past → Bool) (o : Order) : (s.releaseWhere p o).loc = s.loc := by cases o <;> rfl
@[simp] theorem State.releaseWhere_keys (s : State) (p : Past → Bool) (o : Order) : (s.releaseWhere p o).keys = s.keys := by cases o <;> rfl
@[simp] theorem State.releaseWhere_tags (s : State) (p : Past → Bool) (o : Order) : (s.releaseWhere p o).tags = s.tags := by cases o <;> rfl
@[simp] theorem State.releaseWhere_poison (s : State) (p : Past → Bool) (o : Order) : (s.releaseWhere p o).poison = s.poison := by cases o <;> rfl
@[simp] theorem State.releaseWhere_bad (s : State) (p : Past → Bool) (o : Order) : (s.releaseWhere p o).bad = s.bad := by cases o <;> rfl
@[simp] theorem State.releaseWhere_weak (s : State) (p : Past → Bool) (o : Order) : (s.releaseWhere p o).weak = s.weak := by cases o <;> rfl
@[simp] theorem State.releaseWhere_badLoc (s : State) (p : Past → Bool) (o : Order) : (s.releaseWhere p o).badLoc = s.badLoc := by cases o <;> rfl
@[simp] theorem State.releaseWhere_icache (s : State) (p : Past → Bool) (o : Order) : (s.releaseWhere p o).icache = s.icache := by cases o <;> rfl
@[simp] theorem State.releaseWhere_regs (s : State) (p : Past → Bool) (o : Order) : (s.releaseWhere p o).regs = s.regs := by cases o <;> rfl
@[simp] theorem State.releaseWhere_tlb (s : State) (p : Past → Bool) (o : Order) : (s.releaseWhere p o).tlb = s.tlb := by cases o <;> rfl
@[simp] theorem State.releaseWhere_walk (s : State) (p : Past → Bool) (o : Order) : (s.releaseWhere p o).walk = s.walk := by cases o <;> rfl
@[simp] theorem State.releaseWhere_gs (s : State) (p : Past → Bool) (o : Order) : (s.releaseWhere p o).gs = s.gs := by cases o <;> rfl
@[simp] theorem State.releaseWhere_gd (s : State) (p : Past → Bool) (o : Order) : (s.releaseWhere p o).gd = s.gd := by cases o <;> rfl
@[simp] theorem State.releaseWhere_genSent (s : State) (p : Past → Bool) (o : Order) : (s.releaseWhere p o).genSent = s.genSent := by cases o <;> rfl
@[simp] theorem State.releaseWhere_scans (s : State) (p : Past → Bool) (o : Order) : (s.releaseWhere p o).scans = s.scans := by cases o <;> rfl
@[simp] theorem State.releaseWhere_gangs (s : State) (p : Past → Bool) (o : Order) : (s.releaseWhere p o).gangs = s.gangs := by cases o <;> rfl
@[simp] theorem State.releaseWhere_ghosts (s : State) (p : Past → Bool) (o : Order) : (s.releaseWhere p o).ghosts = s.ghosts := by cases o <;> rfl
@[simp] theorem State.releaseWhere_launches (s : State) (p : Past → Bool) (o : Order) : (s.releaseWhere p o).launches = s.launches := by cases o <;> rfl
@[simp] theorem State.releaseWhere_nextLaunch (s : State) (p : Past → Bool) (o : Order) : (s.releaseWhere p o).nextLaunch = s.nextLaunch := by cases o <;> rfl
@[simp] theorem State.releaseWhere_completions (s : State) (p : Past → Bool) (o : Order) : (s.releaseWhere p o).completions = s.completions := by cases o <;> rfl
@[simp] theorem State.releaseWhere_ports (s : State) (p : Past → Bool) (o : Order) : (s.releaseWhere p o).ports = s.ports := by cases o <;> rfl
@[simp] theorem State.releaseWhere_tenants (s : State) (p : Past → Bool) (o : Order) : (s.releaseWhere p o).tenants = s.tenants := by cases o <;> rfl
@[simp] theorem State.releaseWhere_reserves (s : State) (p : Past → Bool) (o : Order) : (s.releaseWhere p o).reserves = s.reserves := by cases o <;> rfl
@[simp] theorem State.releaseWhere_weights (s : State) (p : Past → Bool) (o : Order) : (s.releaseWhere p o).weights = s.weights := by cases o <;> rfl
@[simp] theorem State.releaseWhere_charges (s : State) (p : Past → Bool) (o : Order) : (s.releaseWhere p o).charges = s.charges := by cases o <;> rfl
@[simp] theorem State.releaseWhere_landings (s : State) (p : Past → Bool) (o : Order) : (s.releaseWhere p o).landings = s.landings := by cases o <;> rfl
@[simp] theorem State.releaseWhere_counts (s : State) (p : Past → Bool) (o : Order) : (s.releaseWhere p o).counts = s.counts := by cases o <;> rfl
@[simp] theorem State.releaseWhere_copyQ (s : State) (p : Past → Bool) (o : Order) : (s.releaseWhere p o).copyQ = s.copyQ := by cases o <;> rfl
@[simp] theorem State.releaseWhere_units (s : State) (p : Past → Bool) (o : Order) : (s.releaseWhere p o).units = s.units := by cases o <;> rfl
@[simp] theorem State.releaseWhere_drains (s : State) (p : Past → Bool) (o : Order) : (s.releaseWhere p o).drains = s.drains := by cases o <;> rfl
@[simp] theorem State.releaseWhere_tableQ (s : State) (p : Past → Bool) (o : Order) : (s.releaseWhere p o).tableQ = s.tableQ := by cases o <;> rfl
@[simp] theorem State.releaseWhere_nmQ (s : State) (p : Past → Bool) (o : Order) : (s.releaseWhere p o).nmQ = s.nmQ := by cases o <;> rfl
@[simp] theorem State.releaseWhere_nmus (s : State) (p : Past → Bool) (o : Order) : (s.releaseWhere p o).nmus = s.nmus := by cases o <;> rfl
@[simp] theorem State.releaseWhere_resumes (s : State) (p : Past → Bool) (o : Order) : (s.releaseWhere p o).resumes = s.resumes := by cases o <;> rfl
@[simp] theorem State.releaseWhere_loads (s : State) (p : Past → Bool) (o : Order) : (s.releaseWhere p o).loads = s.loads := by cases o <;> rfl
@[simp] theorem State.releaseWhere_indexes (s : State) (p : Past → Bool) (o : Order) : (s.releaseWhere p o).indexes = s.indexes := by cases o <;> rfl
@[simp] theorem State.releaseWhere_ixQ (s : State) (p : Past → Bool) (o : Order) : (s.releaseWhere p o).ixQ = s.ixQ := by cases o <;> rfl
@[simp] theorem State.releaseWhere_ixPaused (s : State) (p : Past → Bool) (o : Order) : (s.releaseWhere p o).ixPaused = s.ixPaused := by cases o <;> rfl
@[simp] theorem State.releaseWhere_store (s : State) (p : Past → Bool) (o : Order) : (s.releaseWhere p o).store = s.store := by cases o <;> rfl
@[simp] theorem State.releaseWhere_rings (s : State) (p : Past → Bool) (o : Order) : (s.releaseWhere p o).rings = s.rings := by cases o <;> rfl
@[simp] theorem State.releaseWhere_usage (s : State) (p : Past → Bool) (o : Order) : (s.releaseWhere p o).usage = s.usage := by cases o <;> rfl
@[simp] theorem State.releaseWhere_bars (s : State) (p : Past → Bool) (o : Order) : (s.releaseWhere p o).bars = s.bars := by cases o <;> rfl
@[simp] theorem State.releaseWhere_reportSeq (s : State) (p : Past → Bool) (o : Order) : (s.releaseWhere p o).reportSeq = s.reportSeq := by cases o <;> rfl
@[simp] theorem State.releaseWhere_epoch (s : State) (p : Past → Bool) (o : Order) : (s.releaseWhere p o).epoch = s.epoch := by cases o <;> rfl
@[simp] theorem State.releaseWhere_erased (s : State) (p : Past → Bool) (o : Order) : (s.releaseWhere p o).erased = s.erased := by cases o <;> rfl
@[simp] theorem State.releaseWhere_keyEpoch (s : State) (p : Past → Bool) (o : Order) : (s.releaseWhere p o).keyEpoch = s.keyEpoch := by cases o <;> rfl
@[simp] theorem State.releaseWhere_quarantined (s : State) (p : Past → Bool) (o : Order) : (s.releaseWhere p o).quarantined = s.quarantined := by cases o <;> rfl
@[simp] theorem State.releaseWhere_inReset (s : State) (p : Past → Bool) (o : Order) : (s.releaseWhere p o).inReset = s.inReset := by cases o <;> rfl
@[simp] theorem State.releaseWhere_budgets (s : State) (p : Past → Bool) (o : Order) : (s.releaseWhere p o).budgets = s.budgets := by cases o <;> rfl
@[simp] theorem State.releaseWhere_nextBudgets (s : State) (p : Past → Bool) (o : Order) : (s.releaseWhere p o).nextBudgets = s.nextBudgets := by cases o <;> rfl
@[simp] theorem State.releaseWhere_period (s : State) (p : Past → Bool) (o : Order) : (s.releaseWhere p o).period = s.period := by cases o <;> rfl
@[simp] theorem State.releaseWhere_reply (s : State) (p : Past → Bool) (o : Order) : (s.releaseWhere p o).reply = s.reply := by cases o <;> rfl
@[simp] theorem State.releaseWhere_replyError (s : State) (p : Past → Bool) (o : Order) : (s.releaseWhere p o).replyError = s.replyError := by cases o <;> rfl
@[simp] theorem State.releaseWhere_retained (s : State) (p : Past → Bool) (o : Order) : (s.releaseWhere p o).retained = s.retained := by cases o <;> rfl
@[simp] theorem State.releaseWhere_monel (s : State) (p : Past → Bool) (o : Order) : (s.releaseWhere p o).monel = s.monel := by cases o <;> rfl

/-! ### released -/

@[simp] theorem State.released_th (s : State) (o : Order) : (s.released o).th = s.th := by cases o <;> rfl
@[simp] theorem State.released_others (s : State) (o : Order) : (s.released o).others = s.others := by cases o <;> rfl
@[simp] theorem State.released_agenda (s : State) (o : Order) : (s.released o).agenda = s.agenda := by cases o <;> rfl
@[simp] theorem State.released_ev (s : State) (o : Order) : (s.released o).ev = s.ev := by cases o <;> rfl
@[simp] theorem State.released_nmuAt (s : State) (o : Order) : (s.released o).nmuAt = s.nmuAt := by cases o <;> rfl
@[simp] theorem State.released_draw (s : State) (o : Order) : (s.released o).draw = s.draw := by cases o <;> rfl
@[simp] theorem State.released_packets (s : State) (o : Order) : (s.released o).packets = s.packets := by cases o <;> rfl
@[simp] theorem State.released_clock (s : State) (o : Order) : (s.released o).clock = s.clock := by cases o <;> rfl
@[simp] theorem State.released_skew (s : State) (o : Order) : (s.released o).skew = s.skew := by cases o <;> rfl
@[simp] theorem State.released_halted (s : State) (o : Order) : (s.released o).halted = s.halted := by cases o <;> rfl
@[simp] theorem State.released_bootStep (s : State) (o : Order) : (s.released o).bootStep = s.bootStep := by cases o <;> rfl
@[simp] theorem State.released_cfg (s : State) (o : Order) : (s.released o).cfg = s.cfg := by cases o <;> rfl
@[simp] theorem State.released_mem (s : State) (o : Order) : (s.released o).mem = s.mem := by cases o <;> rfl
@[simp] theorem State.released_loc (s : State) (o : Order) : (s.released o).loc = s.loc := by cases o <;> rfl
@[simp] theorem State.released_keys (s : State) (o : Order) : (s.released o).keys = s.keys := by cases o <;> rfl
@[simp] theorem State.released_tags (s : State) (o : Order) : (s.released o).tags = s.tags := by cases o <;> rfl
@[simp] theorem State.released_poison (s : State) (o : Order) : (s.released o).poison = s.poison := by cases o <;> rfl
@[simp] theorem State.released_bad (s : State) (o : Order) : (s.released o).bad = s.bad := by cases o <;> rfl
@[simp] theorem State.released_weak (s : State) (o : Order) : (s.released o).weak = s.weak := by cases o <;> rfl
@[simp] theorem State.released_badLoc (s : State) (o : Order) : (s.released o).badLoc = s.badLoc := by cases o <;> rfl
@[simp] theorem State.released_icache (s : State) (o : Order) : (s.released o).icache = s.icache := by cases o <;> rfl
@[simp] theorem State.released_regs (s : State) (o : Order) : (s.released o).regs = s.regs := by cases o <;> rfl
@[simp] theorem State.released_tlb (s : State) (o : Order) : (s.released o).tlb = s.tlb := by cases o <;> rfl
@[simp] theorem State.released_walk (s : State) (o : Order) : (s.released o).walk = s.walk := by cases o <;> rfl
@[simp] theorem State.released_gs (s : State) (o : Order) : (s.released o).gs = s.gs := by cases o <;> rfl
@[simp] theorem State.released_gd (s : State) (o : Order) : (s.released o).gd = s.gd := by cases o <;> rfl
@[simp] theorem State.released_genSent (s : State) (o : Order) : (s.released o).genSent = s.genSent := by cases o <;> rfl
@[simp] theorem State.released_scans (s : State) (o : Order) : (s.released o).scans = s.scans := by cases o <;> rfl
@[simp] theorem State.released_gangs (s : State) (o : Order) : (s.released o).gangs = s.gangs := by cases o <;> rfl
@[simp] theorem State.released_ghosts (s : State) (o : Order) : (s.released o).ghosts = s.ghosts := by cases o <;> rfl
@[simp] theorem State.released_launches (s : State) (o : Order) : (s.released o).launches = s.launches := by cases o <;> rfl
@[simp] theorem State.released_nextLaunch (s : State) (o : Order) : (s.released o).nextLaunch = s.nextLaunch := by cases o <;> rfl
@[simp] theorem State.released_completions (s : State) (o : Order) : (s.released o).completions = s.completions := by cases o <;> rfl
@[simp] theorem State.released_ports (s : State) (o : Order) : (s.released o).ports = s.ports := by cases o <;> rfl
@[simp] theorem State.released_tenants (s : State) (o : Order) : (s.released o).tenants = s.tenants := by cases o <;> rfl
@[simp] theorem State.released_reserves (s : State) (o : Order) : (s.released o).reserves = s.reserves := by cases o <;> rfl
@[simp] theorem State.released_weights (s : State) (o : Order) : (s.released o).weights = s.weights := by cases o <;> rfl
@[simp] theorem State.released_charges (s : State) (o : Order) : (s.released o).charges = s.charges := by cases o <;> rfl
@[simp] theorem State.released_landings (s : State) (o : Order) : (s.released o).landings = s.landings := by cases o <;> rfl
@[simp] theorem State.released_counts (s : State) (o : Order) : (s.released o).counts = s.counts := by cases o <;> rfl
@[simp] theorem State.released_copyQ (s : State) (o : Order) : (s.released o).copyQ = s.copyQ := by cases o <;> rfl
@[simp] theorem State.released_units (s : State) (o : Order) : (s.released o).units = s.units := by cases o <;> rfl
@[simp] theorem State.released_drains (s : State) (o : Order) : (s.released o).drains = s.drains := by cases o <;> rfl
@[simp] theorem State.released_tableQ (s : State) (o : Order) : (s.released o).tableQ = s.tableQ := by cases o <;> rfl
@[simp] theorem State.released_nmQ (s : State) (o : Order) : (s.released o).nmQ = s.nmQ := by cases o <;> rfl
@[simp] theorem State.released_nmus (s : State) (o : Order) : (s.released o).nmus = s.nmus := by cases o <;> rfl
@[simp] theorem State.released_resumes (s : State) (o : Order) : (s.released o).resumes = s.resumes := by cases o <;> rfl
@[simp] theorem State.released_loads (s : State) (o : Order) : (s.released o).loads = s.loads := by cases o <;> rfl
@[simp] theorem State.released_indexes (s : State) (o : Order) : (s.released o).indexes = s.indexes := by cases o <;> rfl
@[simp] theorem State.released_ixQ (s : State) (o : Order) : (s.released o).ixQ = s.ixQ := by cases o <;> rfl
@[simp] theorem State.released_ixPaused (s : State) (o : Order) : (s.released o).ixPaused = s.ixPaused := by cases o <;> rfl
@[simp] theorem State.released_store (s : State) (o : Order) : (s.released o).store = s.store := by cases o <;> rfl
@[simp] theorem State.released_rings (s : State) (o : Order) : (s.released o).rings = s.rings := by cases o <;> rfl
@[simp] theorem State.released_usage (s : State) (o : Order) : (s.released o).usage = s.usage := by cases o <;> rfl
@[simp] theorem State.released_bars (s : State) (o : Order) : (s.released o).bars = s.bars := by cases o <;> rfl
@[simp] theorem State.released_reportSeq (s : State) (o : Order) : (s.released o).reportSeq = s.reportSeq := by cases o <;> rfl
@[simp] theorem State.released_epoch (s : State) (o : Order) : (s.released o).epoch = s.epoch := by cases o <;> rfl
@[simp] theorem State.released_erased (s : State) (o : Order) : (s.released o).erased = s.erased := by cases o <;> rfl
@[simp] theorem State.released_keyEpoch (s : State) (o : Order) : (s.released o).keyEpoch = s.keyEpoch := by cases o <;> rfl
@[simp] theorem State.released_quarantined (s : State) (o : Order) : (s.released o).quarantined = s.quarantined := by cases o <;> rfl
@[simp] theorem State.released_inReset (s : State) (o : Order) : (s.released o).inReset = s.inReset := by cases o <;> rfl
@[simp] theorem State.released_budgets (s : State) (o : Order) : (s.released o).budgets = s.budgets := by cases o <;> rfl
@[simp] theorem State.released_nextBudgets (s : State) (o : Order) : (s.released o).nextBudgets = s.nextBudgets := by cases o <;> rfl
@[simp] theorem State.released_period (s : State) (o : Order) : (s.released o).period = s.period := by cases o <;> rfl
@[simp] theorem State.released_reply (s : State) (o : Order) : (s.released o).reply = s.reply := by cases o <;> rfl
@[simp] theorem State.released_replyError (s : State) (o : Order) : (s.released o).replyError = s.replyError := by cases o <;> rfl
@[simp] theorem State.released_retained (s : State) (o : Order) : (s.released o).retained = s.retained := by cases o <;> rfl
@[simp] theorem State.released_monel (s : State) (o : Order) : (s.released o).monel = s.monel := by cases o <;> rfl

/-! ### releasedAll -/

@[simp] theorem State.releasedAll_th (s : State) (o : Order) : (s.releasedAll o).th = s.th := by cases o <;> rfl
@[simp] theorem State.releasedAll_others (s : State) (o : Order) : (s.releasedAll o).others = s.others := by cases o <;> rfl
@[simp] theorem State.releasedAll_agenda (s : State) (o : Order) : (s.releasedAll o).agenda = s.agenda := by cases o <;> rfl
@[simp] theorem State.releasedAll_ev (s : State) (o : Order) : (s.releasedAll o).ev = s.ev := by cases o <;> rfl
@[simp] theorem State.releasedAll_nmuAt (s : State) (o : Order) : (s.releasedAll o).nmuAt = s.nmuAt := by cases o <;> rfl
@[simp] theorem State.releasedAll_draw (s : State) (o : Order) : (s.releasedAll o).draw = s.draw := by cases o <;> rfl
@[simp] theorem State.releasedAll_packets (s : State) (o : Order) : (s.releasedAll o).packets = s.packets := by cases o <;> rfl
@[simp] theorem State.releasedAll_clock (s : State) (o : Order) : (s.releasedAll o).clock = s.clock := by cases o <;> rfl
@[simp] theorem State.releasedAll_skew (s : State) (o : Order) : (s.releasedAll o).skew = s.skew := by cases o <;> rfl
@[simp] theorem State.releasedAll_halted (s : State) (o : Order) : (s.releasedAll o).halted = s.halted := by cases o <;> rfl
@[simp] theorem State.releasedAll_bootStep (s : State) (o : Order) : (s.releasedAll o).bootStep = s.bootStep := by cases o <;> rfl
@[simp] theorem State.releasedAll_cfg (s : State) (o : Order) : (s.releasedAll o).cfg = s.cfg := by cases o <;> rfl
@[simp] theorem State.releasedAll_mem (s : State) (o : Order) : (s.releasedAll o).mem = s.mem := by cases o <;> rfl
@[simp] theorem State.releasedAll_loc (s : State) (o : Order) : (s.releasedAll o).loc = s.loc := by cases o <;> rfl
@[simp] theorem State.releasedAll_keys (s : State) (o : Order) : (s.releasedAll o).keys = s.keys := by cases o <;> rfl
@[simp] theorem State.releasedAll_tags (s : State) (o : Order) : (s.releasedAll o).tags = s.tags := by cases o <;> rfl
@[simp] theorem State.releasedAll_poison (s : State) (o : Order) : (s.releasedAll o).poison = s.poison := by cases o <;> rfl
@[simp] theorem State.releasedAll_bad (s : State) (o : Order) : (s.releasedAll o).bad = s.bad := by cases o <;> rfl
@[simp] theorem State.releasedAll_weak (s : State) (o : Order) : (s.releasedAll o).weak = s.weak := by cases o <;> rfl
@[simp] theorem State.releasedAll_badLoc (s : State) (o : Order) : (s.releasedAll o).badLoc = s.badLoc := by cases o <;> rfl
@[simp] theorem State.releasedAll_icache (s : State) (o : Order) : (s.releasedAll o).icache = s.icache := by cases o <;> rfl
@[simp] theorem State.releasedAll_regs (s : State) (o : Order) : (s.releasedAll o).regs = s.regs := by cases o <;> rfl
@[simp] theorem State.releasedAll_tlb (s : State) (o : Order) : (s.releasedAll o).tlb = s.tlb := by cases o <;> rfl
@[simp] theorem State.releasedAll_walk (s : State) (o : Order) : (s.releasedAll o).walk = s.walk := by cases o <;> rfl
@[simp] theorem State.releasedAll_gs (s : State) (o : Order) : (s.releasedAll o).gs = s.gs := by cases o <;> rfl
@[simp] theorem State.releasedAll_gd (s : State) (o : Order) : (s.releasedAll o).gd = s.gd := by cases o <;> rfl
@[simp] theorem State.releasedAll_genSent (s : State) (o : Order) : (s.releasedAll o).genSent = s.genSent := by cases o <;> rfl
@[simp] theorem State.releasedAll_scans (s : State) (o : Order) : (s.releasedAll o).scans = s.scans := by cases o <;> rfl
@[simp] theorem State.releasedAll_gangs (s : State) (o : Order) : (s.releasedAll o).gangs = s.gangs := by cases o <;> rfl
@[simp] theorem State.releasedAll_ghosts (s : State) (o : Order) : (s.releasedAll o).ghosts = s.ghosts := by cases o <;> rfl
@[simp] theorem State.releasedAll_launches (s : State) (o : Order) : (s.releasedAll o).launches = s.launches := by cases o <;> rfl
@[simp] theorem State.releasedAll_nextLaunch (s : State) (o : Order) : (s.releasedAll o).nextLaunch = s.nextLaunch := by cases o <;> rfl
@[simp] theorem State.releasedAll_completions (s : State) (o : Order) : (s.releasedAll o).completions = s.completions := by cases o <;> rfl
@[simp] theorem State.releasedAll_ports (s : State) (o : Order) : (s.releasedAll o).ports = s.ports := by cases o <;> rfl
@[simp] theorem State.releasedAll_tenants (s : State) (o : Order) : (s.releasedAll o).tenants = s.tenants := by cases o <;> rfl
@[simp] theorem State.releasedAll_reserves (s : State) (o : Order) : (s.releasedAll o).reserves = s.reserves := by cases o <;> rfl
@[simp] theorem State.releasedAll_weights (s : State) (o : Order) : (s.releasedAll o).weights = s.weights := by cases o <;> rfl
@[simp] theorem State.releasedAll_charges (s : State) (o : Order) : (s.releasedAll o).charges = s.charges := by cases o <;> rfl
@[simp] theorem State.releasedAll_landings (s : State) (o : Order) : (s.releasedAll o).landings = s.landings := by cases o <;> rfl
@[simp] theorem State.releasedAll_counts (s : State) (o : Order) : (s.releasedAll o).counts = s.counts := by cases o <;> rfl
@[simp] theorem State.releasedAll_copyQ (s : State) (o : Order) : (s.releasedAll o).copyQ = s.copyQ := by cases o <;> rfl
@[simp] theorem State.releasedAll_units (s : State) (o : Order) : (s.releasedAll o).units = s.units := by cases o <;> rfl
@[simp] theorem State.releasedAll_drains (s : State) (o : Order) : (s.releasedAll o).drains = s.drains := by cases o <;> rfl
@[simp] theorem State.releasedAll_tableQ (s : State) (o : Order) : (s.releasedAll o).tableQ = s.tableQ := by cases o <;> rfl
@[simp] theorem State.releasedAll_nmQ (s : State) (o : Order) : (s.releasedAll o).nmQ = s.nmQ := by cases o <;> rfl
@[simp] theorem State.releasedAll_nmus (s : State) (o : Order) : (s.releasedAll o).nmus = s.nmus := by cases o <;> rfl
@[simp] theorem State.releasedAll_resumes (s : State) (o : Order) : (s.releasedAll o).resumes = s.resumes := by cases o <;> rfl
@[simp] theorem State.releasedAll_loads (s : State) (o : Order) : (s.releasedAll o).loads = s.loads := by cases o <;> rfl
@[simp] theorem State.releasedAll_indexes (s : State) (o : Order) : (s.releasedAll o).indexes = s.indexes := by cases o <;> rfl
@[simp] theorem State.releasedAll_ixQ (s : State) (o : Order) : (s.releasedAll o).ixQ = s.ixQ := by cases o <;> rfl
@[simp] theorem State.releasedAll_ixPaused (s : State) (o : Order) : (s.releasedAll o).ixPaused = s.ixPaused := by cases o <;> rfl
@[simp] theorem State.releasedAll_store (s : State) (o : Order) : (s.releasedAll o).store = s.store := by cases o <;> rfl
@[simp] theorem State.releasedAll_rings (s : State) (o : Order) : (s.releasedAll o).rings = s.rings := by cases o <;> rfl
@[simp] theorem State.releasedAll_usage (s : State) (o : Order) : (s.releasedAll o).usage = s.usage := by cases o <;> rfl
@[simp] theorem State.releasedAll_bars (s : State) (o : Order) : (s.releasedAll o).bars = s.bars := by cases o <;> rfl
@[simp] theorem State.releasedAll_reportSeq (s : State) (o : Order) : (s.releasedAll o).reportSeq = s.reportSeq := by cases o <;> rfl
@[simp] theorem State.releasedAll_epoch (s : State) (o : Order) : (s.releasedAll o).epoch = s.epoch := by cases o <;> rfl
@[simp] theorem State.releasedAll_erased (s : State) (o : Order) : (s.releasedAll o).erased = s.erased := by cases o <;> rfl
@[simp] theorem State.releasedAll_keyEpoch (s : State) (o : Order) : (s.releasedAll o).keyEpoch = s.keyEpoch := by cases o <;> rfl
@[simp] theorem State.releasedAll_quarantined (s : State) (o : Order) : (s.releasedAll o).quarantined = s.quarantined := by cases o <;> rfl
@[simp] theorem State.releasedAll_inReset (s : State) (o : Order) : (s.releasedAll o).inReset = s.inReset := by cases o <;> rfl
@[simp] theorem State.releasedAll_budgets (s : State) (o : Order) : (s.releasedAll o).budgets = s.budgets := by cases o <;> rfl
@[simp] theorem State.releasedAll_nextBudgets (s : State) (o : Order) : (s.releasedAll o).nextBudgets = s.nextBudgets := by cases o <;> rfl
@[simp] theorem State.releasedAll_period (s : State) (o : Order) : (s.releasedAll o).period = s.period := by cases o <;> rfl
@[simp] theorem State.releasedAll_reply (s : State) (o : Order) : (s.releasedAll o).reply = s.reply := by cases o <;> rfl
@[simp] theorem State.releasedAll_replyError (s : State) (o : Order) : (s.releasedAll o).replyError = s.replyError := by cases o <;> rfl
@[simp] theorem State.releasedAll_retained (s : State) (o : Order) : (s.releasedAll o).retained = s.retained := by cases o <;> rfl
@[simp] theorem State.releasedAll_monel (s : State) (o : Order) : (s.releasedAll o).monel = s.monel := by cases o <;> rfl

/-! ### noteGot -/

@[simp] theorem State.noteGot_th (s : State) : (s.noteGot).th = s.th := rfl
@[simp] theorem State.noteGot_others (s : State) : (s.noteGot).others = s.others := rfl
@[simp] theorem State.noteGot_agenda (s : State) : (s.noteGot).agenda = s.agenda := rfl
@[simp] theorem State.noteGot_ev (s : State) : (s.noteGot).ev = s.ev := rfl
@[simp] theorem State.noteGot_nmuAt (s : State) : (s.noteGot).nmuAt = s.nmuAt := rfl
@[simp] theorem State.noteGot_draw (s : State) : (s.noteGot).draw = s.draw := rfl
@[simp] theorem State.noteGot_packets (s : State) : (s.noteGot).packets = s.packets := rfl
@[simp] theorem State.noteGot_clock (s : State) : (s.noteGot).clock = s.clock := rfl
@[simp] theorem State.noteGot_skew (s : State) : (s.noteGot).skew = s.skew := rfl
@[simp] theorem State.noteGot_halted (s : State) : (s.noteGot).halted = s.halted := rfl
@[simp] theorem State.noteGot_bootStep (s : State) : (s.noteGot).bootStep = s.bootStep := rfl
@[simp] theorem State.noteGot_cfg (s : State) : (s.noteGot).cfg = s.cfg := rfl
@[simp] theorem State.noteGot_mem (s : State) : (s.noteGot).mem = s.mem := rfl
@[simp] theorem State.noteGot_loc (s : State) : (s.noteGot).loc = s.loc := rfl
@[simp] theorem State.noteGot_keys (s : State) : (s.noteGot).keys = s.keys := rfl
@[simp] theorem State.noteGot_tags (s : State) : (s.noteGot).tags = s.tags := rfl
@[simp] theorem State.noteGot_poison (s : State) : (s.noteGot).poison = s.poison := rfl
@[simp] theorem State.noteGot_bad (s : State) : (s.noteGot).bad = s.bad := rfl
@[simp] theorem State.noteGot_weak (s : State) : (s.noteGot).weak = s.weak := rfl
@[simp] theorem State.noteGot_badLoc (s : State) : (s.noteGot).badLoc = s.badLoc := rfl
@[simp] theorem State.noteGot_icache (s : State) : (s.noteGot).icache = s.icache := rfl
@[simp] theorem State.noteGot_regs (s : State) : (s.noteGot).regs = s.regs := rfl
@[simp] theorem State.noteGot_now (s : State) : (s.noteGot).now = s.now := rfl
@[simp] theorem State.noteGot_locPast (s : State) : (s.noteGot).locPast = s.locPast := rfl
@[simp] theorem State.noteGot_memPast (s : State) : (s.noteGot).memPast = s.memPast := rfl
@[simp] theorem State.noteGot_tlb (s : State) : (s.noteGot).tlb = s.tlb := rfl
@[simp] theorem State.noteGot_walk (s : State) : (s.noteGot).walk = s.walk := rfl
@[simp] theorem State.noteGot_gs (s : State) : (s.noteGot).gs = s.gs := rfl
@[simp] theorem State.noteGot_gd (s : State) : (s.noteGot).gd = s.gd := rfl
@[simp] theorem State.noteGot_genSent (s : State) : (s.noteGot).genSent = s.genSent := rfl
@[simp] theorem State.noteGot_scans (s : State) : (s.noteGot).scans = s.scans := rfl
@[simp] theorem State.noteGot_ghosts (s : State) : (s.noteGot).ghosts = s.ghosts := rfl
@[simp] theorem State.noteGot_nextLaunch (s : State) : (s.noteGot).nextLaunch = s.nextLaunch := rfl
@[simp] theorem State.noteGot_completions (s : State) : (s.noteGot).completions = s.completions := rfl
@[simp] theorem State.noteGot_ports (s : State) : (s.noteGot).ports = s.ports := rfl
@[simp] theorem State.noteGot_tenants (s : State) : (s.noteGot).tenants = s.tenants := rfl
@[simp] theorem State.noteGot_reserves (s : State) : (s.noteGot).reserves = s.reserves := rfl
@[simp] theorem State.noteGot_weights (s : State) : (s.noteGot).weights = s.weights := rfl
@[simp] theorem State.noteGot_charges (s : State) : (s.noteGot).charges = s.charges := rfl
@[simp] theorem State.noteGot_landings (s : State) : (s.noteGot).landings = s.landings := rfl
@[simp] theorem State.noteGot_counts (s : State) : (s.noteGot).counts = s.counts := rfl
@[simp] theorem State.noteGot_copyQ (s : State) : (s.noteGot).copyQ = s.copyQ := rfl
@[simp] theorem State.noteGot_units (s : State) : (s.noteGot).units = s.units := rfl
@[simp] theorem State.noteGot_drains (s : State) : (s.noteGot).drains = s.drains := rfl
@[simp] theorem State.noteGot_tableQ (s : State) : (s.noteGot).tableQ = s.tableQ := rfl
@[simp] theorem State.noteGot_nmQ (s : State) : (s.noteGot).nmQ = s.nmQ := rfl
@[simp] theorem State.noteGot_nmus (s : State) : (s.noteGot).nmus = s.nmus := rfl
@[simp] theorem State.noteGot_resumes (s : State) : (s.noteGot).resumes = s.resumes := rfl
@[simp] theorem State.noteGot_loads (s : State) : (s.noteGot).loads = s.loads := rfl
@[simp] theorem State.noteGot_indexes (s : State) : (s.noteGot).indexes = s.indexes := rfl
@[simp] theorem State.noteGot_ixQ (s : State) : (s.noteGot).ixQ = s.ixQ := rfl
@[simp] theorem State.noteGot_ixPaused (s : State) : (s.noteGot).ixPaused = s.ixPaused := rfl
@[simp] theorem State.noteGot_store (s : State) : (s.noteGot).store = s.store := rfl
@[simp] theorem State.noteGot_rings (s : State) : (s.noteGot).rings = s.rings := rfl
@[simp] theorem State.noteGot_usage (s : State) : (s.noteGot).usage = s.usage := rfl
@[simp] theorem State.noteGot_bars (s : State) : (s.noteGot).bars = s.bars := rfl
@[simp] theorem State.noteGot_reportSeq (s : State) : (s.noteGot).reportSeq = s.reportSeq := rfl
@[simp] theorem State.noteGot_epoch (s : State) : (s.noteGot).epoch = s.epoch := rfl
@[simp] theorem State.noteGot_erased (s : State) : (s.noteGot).erased = s.erased := rfl
@[simp] theorem State.noteGot_keyEpoch (s : State) : (s.noteGot).keyEpoch = s.keyEpoch := rfl
@[simp] theorem State.noteGot_quarantined (s : State) : (s.noteGot).quarantined = s.quarantined := rfl
@[simp] theorem State.noteGot_inReset (s : State) : (s.noteGot).inReset = s.inReset := rfl
@[simp] theorem State.noteGot_budgets (s : State) : (s.noteGot).budgets = s.budgets := rfl
@[simp] theorem State.noteGot_nextBudgets (s : State) : (s.noteGot).nextBudgets = s.nextBudgets := rfl
@[simp] theorem State.noteGot_period (s : State) : (s.noteGot).period = s.period := rfl
@[simp] theorem State.noteGot_reply (s : State) : (s.noteGot).reply = s.reply := rfl
@[simp] theorem State.noteGot_replyError (s : State) : (s.noteGot).replyError = s.replyError := rfl
@[simp] theorem State.noteGot_retained (s : State) : (s.noteGot).retained = s.retained := rfl
@[simp] theorem State.noteGot_monel (s : State) : (s.noteGot).monel = s.monel := rfl

/-! ### dropIcache -/

@[simp] theorem State.dropIcache_th (s : State) (c : Nat) : (s.dropIcache c).th = s.th := rfl
@[simp] theorem State.dropIcache_others (s : State) (c : Nat) : (s.dropIcache c).others = s.others := rfl
@[simp] theorem State.dropIcache_agenda (s : State) (c : Nat) : (s.dropIcache c).agenda = s.agenda := rfl
@[simp] theorem State.dropIcache_ev (s : State) (c : Nat) : (s.dropIcache c).ev = s.ev := rfl
@[simp] theorem State.dropIcache_nmuAt (s : State) (c : Nat) : (s.dropIcache c).nmuAt = s.nmuAt := rfl
@[simp] theorem State.dropIcache_draw (s : State) (c : Nat) : (s.dropIcache c).draw = s.draw := rfl
@[simp] theorem State.dropIcache_packets (s : State) (c : Nat) : (s.dropIcache c).packets = s.packets := rfl
@[simp] theorem State.dropIcache_clock (s : State) (c : Nat) : (s.dropIcache c).clock = s.clock := rfl
@[simp] theorem State.dropIcache_skew (s : State) (c : Nat) : (s.dropIcache c).skew = s.skew := rfl
@[simp] theorem State.dropIcache_halted (s : State) (c : Nat) : (s.dropIcache c).halted = s.halted := rfl
@[simp] theorem State.dropIcache_bootStep (s : State) (c : Nat) : (s.dropIcache c).bootStep = s.bootStep := rfl
@[simp] theorem State.dropIcache_cfg (s : State) (c : Nat) : (s.dropIcache c).cfg = s.cfg := rfl
@[simp] theorem State.dropIcache_mem (s : State) (c : Nat) : (s.dropIcache c).mem = s.mem := rfl
@[simp] theorem State.dropIcache_loc (s : State) (c : Nat) : (s.dropIcache c).loc = s.loc := rfl
@[simp] theorem State.dropIcache_keys (s : State) (c : Nat) : (s.dropIcache c).keys = s.keys := rfl
@[simp] theorem State.dropIcache_tags (s : State) (c : Nat) : (s.dropIcache c).tags = s.tags := rfl
@[simp] theorem State.dropIcache_poison (s : State) (c : Nat) : (s.dropIcache c).poison = s.poison := rfl
@[simp] theorem State.dropIcache_bad (s : State) (c : Nat) : (s.dropIcache c).bad = s.bad := rfl
@[simp] theorem State.dropIcache_weak (s : State) (c : Nat) : (s.dropIcache c).weak = s.weak := rfl
@[simp] theorem State.dropIcache_badLoc (s : State) (c : Nat) : (s.dropIcache c).badLoc = s.badLoc := rfl
@[simp] theorem State.dropIcache_regs (s : State) (c : Nat) : (s.dropIcache c).regs = s.regs := rfl
@[simp] theorem State.dropIcache_now (s : State) (c : Nat) : (s.dropIcache c).now = s.now := rfl
@[simp] theorem State.dropIcache_locPast (s : State) (c : Nat) : (s.dropIcache c).locPast = s.locPast := rfl
@[simp] theorem State.dropIcache_memPast (s : State) (c : Nat) : (s.dropIcache c).memPast = s.memPast := rfl
@[simp] theorem State.dropIcache_tlb (s : State) (c : Nat) : (s.dropIcache c).tlb = s.tlb := rfl
@[simp] theorem State.dropIcache_walk (s : State) (c : Nat) : (s.dropIcache c).walk = s.walk := rfl
@[simp] theorem State.dropIcache_gs (s : State) (c : Nat) : (s.dropIcache c).gs = s.gs := rfl
@[simp] theorem State.dropIcache_gd (s : State) (c : Nat) : (s.dropIcache c).gd = s.gd := rfl
@[simp] theorem State.dropIcache_genSent (s : State) (c : Nat) : (s.dropIcache c).genSent = s.genSent := rfl
@[simp] theorem State.dropIcache_scans (s : State) (c : Nat) : (s.dropIcache c).scans = s.scans := rfl
@[simp] theorem State.dropIcache_gangs (s : State) (c : Nat) : (s.dropIcache c).gangs = s.gangs := rfl
@[simp] theorem State.dropIcache_ghosts (s : State) (c : Nat) : (s.dropIcache c).ghosts = s.ghosts := rfl
@[simp] theorem State.dropIcache_launches (s : State) (c : Nat) : (s.dropIcache c).launches = s.launches := rfl
@[simp] theorem State.dropIcache_nextLaunch (s : State) (c : Nat) : (s.dropIcache c).nextLaunch = s.nextLaunch := rfl
@[simp] theorem State.dropIcache_completions (s : State) (c : Nat) : (s.dropIcache c).completions = s.completions := rfl
@[simp] theorem State.dropIcache_ports (s : State) (c : Nat) : (s.dropIcache c).ports = s.ports := rfl
@[simp] theorem State.dropIcache_tenants (s : State) (c : Nat) : (s.dropIcache c).tenants = s.tenants := rfl
@[simp] theorem State.dropIcache_reserves (s : State) (c : Nat) : (s.dropIcache c).reserves = s.reserves := rfl
@[simp] theorem State.dropIcache_weights (s : State) (c : Nat) : (s.dropIcache c).weights = s.weights := rfl
@[simp] theorem State.dropIcache_charges (s : State) (c : Nat) : (s.dropIcache c).charges = s.charges := rfl
@[simp] theorem State.dropIcache_landings (s : State) (c : Nat) : (s.dropIcache c).landings = s.landings := rfl
@[simp] theorem State.dropIcache_counts (s : State) (c : Nat) : (s.dropIcache c).counts = s.counts := rfl
@[simp] theorem State.dropIcache_copyQ (s : State) (c : Nat) : (s.dropIcache c).copyQ = s.copyQ := rfl
@[simp] theorem State.dropIcache_units (s : State) (c : Nat) : (s.dropIcache c).units = s.units := rfl
@[simp] theorem State.dropIcache_drains (s : State) (c : Nat) : (s.dropIcache c).drains = s.drains := rfl
@[simp] theorem State.dropIcache_tableQ (s : State) (c : Nat) : (s.dropIcache c).tableQ = s.tableQ := rfl
@[simp] theorem State.dropIcache_nmQ (s : State) (c : Nat) : (s.dropIcache c).nmQ = s.nmQ := rfl
@[simp] theorem State.dropIcache_nmus (s : State) (c : Nat) : (s.dropIcache c).nmus = s.nmus := rfl
@[simp] theorem State.dropIcache_resumes (s : State) (c : Nat) : (s.dropIcache c).resumes = s.resumes := rfl
@[simp] theorem State.dropIcache_loads (s : State) (c : Nat) : (s.dropIcache c).loads = s.loads := rfl
@[simp] theorem State.dropIcache_indexes (s : State) (c : Nat) : (s.dropIcache c).indexes = s.indexes := rfl
@[simp] theorem State.dropIcache_ixQ (s : State) (c : Nat) : (s.dropIcache c).ixQ = s.ixQ := rfl
@[simp] theorem State.dropIcache_ixPaused (s : State) (c : Nat) : (s.dropIcache c).ixPaused = s.ixPaused := rfl
@[simp] theorem State.dropIcache_store (s : State) (c : Nat) : (s.dropIcache c).store = s.store := rfl
@[simp] theorem State.dropIcache_rings (s : State) (c : Nat) : (s.dropIcache c).rings = s.rings := rfl
@[simp] theorem State.dropIcache_usage (s : State) (c : Nat) : (s.dropIcache c).usage = s.usage := rfl
@[simp] theorem State.dropIcache_bars (s : State) (c : Nat) : (s.dropIcache c).bars = s.bars := rfl
@[simp] theorem State.dropIcache_reportSeq (s : State) (c : Nat) : (s.dropIcache c).reportSeq = s.reportSeq := rfl
@[simp] theorem State.dropIcache_epoch (s : State) (c : Nat) : (s.dropIcache c).epoch = s.epoch := rfl
@[simp] theorem State.dropIcache_erased (s : State) (c : Nat) : (s.dropIcache c).erased = s.erased := rfl
@[simp] theorem State.dropIcache_keyEpoch (s : State) (c : Nat) : (s.dropIcache c).keyEpoch = s.keyEpoch := rfl
@[simp] theorem State.dropIcache_quarantined (s : State) (c : Nat) : (s.dropIcache c).quarantined = s.quarantined := rfl
@[simp] theorem State.dropIcache_inReset (s : State) (c : Nat) : (s.dropIcache c).inReset = s.inReset := rfl
@[simp] theorem State.dropIcache_budgets (s : State) (c : Nat) : (s.dropIcache c).budgets = s.budgets := rfl
@[simp] theorem State.dropIcache_nextBudgets (s : State) (c : Nat) : (s.dropIcache c).nextBudgets = s.nextBudgets := rfl
@[simp] theorem State.dropIcache_period (s : State) (c : Nat) : (s.dropIcache c).period = s.period := rfl
@[simp] theorem State.dropIcache_reply (s : State) (c : Nat) : (s.dropIcache c).reply = s.reply := rfl
@[simp] theorem State.dropIcache_replyError (s : State) (c : Nat) : (s.dropIcache c).replyError = s.replyError := rfl
@[simp] theorem State.dropIcache_retained (s : State) (c : Nat) : (s.dropIcache c).retained = s.retained := rfl
@[simp] theorem State.dropIcache_monel (s : State) (c : Nat) : (s.dropIcache c).monel = s.monel := rfl

/-! ### seesCode -/

@[simp] theorem State.seesCode_others (s : State) : (s.seesCode).others = s.others := rfl
@[simp] theorem State.seesCode_agenda (s : State) : (s.seesCode).agenda = s.agenda := rfl
@[simp] theorem State.seesCode_ev (s : State) : (s.seesCode).ev = s.ev := rfl
@[simp] theorem State.seesCode_nmuAt (s : State) : (s.seesCode).nmuAt = s.nmuAt := rfl
@[simp] theorem State.seesCode_draw (s : State) : (s.seesCode).draw = s.draw := rfl
@[simp] theorem State.seesCode_packets (s : State) : (s.seesCode).packets = s.packets := rfl
@[simp] theorem State.seesCode_clock (s : State) : (s.seesCode).clock = s.clock := rfl
@[simp] theorem State.seesCode_skew (s : State) : (s.seesCode).skew = s.skew := rfl
@[simp] theorem State.seesCode_halted (s : State) : (s.seesCode).halted = s.halted := rfl
@[simp] theorem State.seesCode_bootStep (s : State) : (s.seesCode).bootStep = s.bootStep := rfl
@[simp] theorem State.seesCode_cfg (s : State) : (s.seesCode).cfg = s.cfg := rfl
@[simp] theorem State.seesCode_mem (s : State) : (s.seesCode).mem = s.mem := rfl
@[simp] theorem State.seesCode_loc (s : State) : (s.seesCode).loc = s.loc := rfl
@[simp] theorem State.seesCode_keys (s : State) : (s.seesCode).keys = s.keys := rfl
@[simp] theorem State.seesCode_tags (s : State) : (s.seesCode).tags = s.tags := rfl
@[simp] theorem State.seesCode_poison (s : State) : (s.seesCode).poison = s.poison := rfl
@[simp] theorem State.seesCode_bad (s : State) : (s.seesCode).bad = s.bad := rfl
@[simp] theorem State.seesCode_weak (s : State) : (s.seesCode).weak = s.weak := rfl
@[simp] theorem State.seesCode_badLoc (s : State) : (s.seesCode).badLoc = s.badLoc := rfl
@[simp] theorem State.seesCode_icache (s : State) : (s.seesCode).icache = s.icache := rfl
@[simp] theorem State.seesCode_regs (s : State) : (s.seesCode).regs = s.regs := rfl
@[simp] theorem State.seesCode_now (s : State) : (s.seesCode).now = s.now := rfl
@[simp] theorem State.seesCode_locPast (s : State) : (s.seesCode).locPast = s.locPast := rfl
@[simp] theorem State.seesCode_memPast (s : State) : (s.seesCode).memPast = s.memPast := rfl
@[simp] theorem State.seesCode_tlb (s : State) : (s.seesCode).tlb = s.tlb := rfl
@[simp] theorem State.seesCode_walk (s : State) : (s.seesCode).walk = s.walk := rfl
@[simp] theorem State.seesCode_gs (s : State) : (s.seesCode).gs = s.gs := rfl
@[simp] theorem State.seesCode_gd (s : State) : (s.seesCode).gd = s.gd := rfl
@[simp] theorem State.seesCode_genSent (s : State) : (s.seesCode).genSent = s.genSent := rfl
@[simp] theorem State.seesCode_scans (s : State) : (s.seesCode).scans = s.scans := rfl
@[simp] theorem State.seesCode_gangs (s : State) : (s.seesCode).gangs = s.gangs := rfl
@[simp] theorem State.seesCode_ghosts (s : State) : (s.seesCode).ghosts = s.ghosts := rfl
@[simp] theorem State.seesCode_launches (s : State) : (s.seesCode).launches = s.launches := rfl
@[simp] theorem State.seesCode_nextLaunch (s : State) : (s.seesCode).nextLaunch = s.nextLaunch := rfl
@[simp] theorem State.seesCode_completions (s : State) : (s.seesCode).completions = s.completions := rfl
@[simp] theorem State.seesCode_ports (s : State) : (s.seesCode).ports = s.ports := rfl
@[simp] theorem State.seesCode_tenants (s : State) : (s.seesCode).tenants = s.tenants := rfl
@[simp] theorem State.seesCode_reserves (s : State) : (s.seesCode).reserves = s.reserves := rfl
@[simp] theorem State.seesCode_weights (s : State) : (s.seesCode).weights = s.weights := rfl
@[simp] theorem State.seesCode_charges (s : State) : (s.seesCode).charges = s.charges := rfl
@[simp] theorem State.seesCode_landings (s : State) : (s.seesCode).landings = s.landings := rfl
@[simp] theorem State.seesCode_counts (s : State) : (s.seesCode).counts = s.counts := rfl
@[simp] theorem State.seesCode_copyQ (s : State) : (s.seesCode).copyQ = s.copyQ := rfl
@[simp] theorem State.seesCode_units (s : State) : (s.seesCode).units = s.units := rfl
@[simp] theorem State.seesCode_drains (s : State) : (s.seesCode).drains = s.drains := rfl
@[simp] theorem State.seesCode_tableQ (s : State) : (s.seesCode).tableQ = s.tableQ := rfl
@[simp] theorem State.seesCode_nmQ (s : State) : (s.seesCode).nmQ = s.nmQ := rfl
@[simp] theorem State.seesCode_nmus (s : State) : (s.seesCode).nmus = s.nmus := rfl
@[simp] theorem State.seesCode_resumes (s : State) : (s.seesCode).resumes = s.resumes := rfl
@[simp] theorem State.seesCode_loads (s : State) : (s.seesCode).loads = s.loads := rfl
@[simp] theorem State.seesCode_indexes (s : State) : (s.seesCode).indexes = s.indexes := rfl
@[simp] theorem State.seesCode_ixQ (s : State) : (s.seesCode).ixQ = s.ixQ := rfl
@[simp] theorem State.seesCode_ixPaused (s : State) : (s.seesCode).ixPaused = s.ixPaused := rfl
@[simp] theorem State.seesCode_store (s : State) : (s.seesCode).store = s.store := rfl
@[simp] theorem State.seesCode_rings (s : State) : (s.seesCode).rings = s.rings := rfl
@[simp] theorem State.seesCode_usage (s : State) : (s.seesCode).usage = s.usage := rfl
@[simp] theorem State.seesCode_bars (s : State) : (s.seesCode).bars = s.bars := rfl
@[simp] theorem State.seesCode_reportSeq (s : State) : (s.seesCode).reportSeq = s.reportSeq := rfl
@[simp] theorem State.seesCode_epoch (s : State) : (s.seesCode).epoch = s.epoch := rfl
@[simp] theorem State.seesCode_erased (s : State) : (s.seesCode).erased = s.erased := rfl
@[simp] theorem State.seesCode_keyEpoch (s : State) : (s.seesCode).keyEpoch = s.keyEpoch := rfl
@[simp] theorem State.seesCode_quarantined (s : State) : (s.seesCode).quarantined = s.quarantined := rfl
@[simp] theorem State.seesCode_inReset (s : State) : (s.seesCode).inReset = s.inReset := rfl
@[simp] theorem State.seesCode_budgets (s : State) : (s.seesCode).budgets = s.budgets := rfl
@[simp] theorem State.seesCode_nextBudgets (s : State) : (s.seesCode).nextBudgets = s.nextBudgets := rfl
@[simp] theorem State.seesCode_period (s : State) : (s.seesCode).period = s.period := rfl
@[simp] theorem State.seesCode_reply (s : State) : (s.seesCode).reply = s.reply := rfl
@[simp] theorem State.seesCode_replyError (s : State) : (s.seesCode).replyError = s.replyError := rfl
@[simp] theorem State.seesCode_retained (s : State) : (s.seesCode).retained = s.retained := rfl
@[simp] theorem State.seesCode_monel (s : State) : (s.seesCode).monel = s.monel := rfl

/-! ### fenceTo -/

@[simp] theorem State.fenceTo_others (s : State) (f t : PathId) : (s.fenceTo f t).others = s.others := rfl
@[simp] theorem State.fenceTo_agenda (s : State) (f t : PathId) : (s.fenceTo f t).agenda = s.agenda := rfl
@[simp] theorem State.fenceTo_ev (s : State) (f t : PathId) : (s.fenceTo f t).ev = s.ev := rfl
@[simp] theorem State.fenceTo_nmuAt (s : State) (f t : PathId) : (s.fenceTo f t).nmuAt = s.nmuAt := rfl
@[simp] theorem State.fenceTo_draw (s : State) (f t : PathId) : (s.fenceTo f t).draw = s.draw := rfl
@[simp] theorem State.fenceTo_packets (s : State) (f t : PathId) : (s.fenceTo f t).packets = s.packets := rfl
@[simp] theorem State.fenceTo_clock (s : State) (f t : PathId) : (s.fenceTo f t).clock = s.clock := rfl
@[simp] theorem State.fenceTo_skew (s : State) (f t : PathId) : (s.fenceTo f t).skew = s.skew := rfl
@[simp] theorem State.fenceTo_halted (s : State) (f t : PathId) : (s.fenceTo f t).halted = s.halted := rfl
@[simp] theorem State.fenceTo_bootStep (s : State) (f t : PathId) : (s.fenceTo f t).bootStep = s.bootStep := rfl
@[simp] theorem State.fenceTo_cfg (s : State) (f t : PathId) : (s.fenceTo f t).cfg = s.cfg := rfl
@[simp] theorem State.fenceTo_mem (s : State) (f t : PathId) : (s.fenceTo f t).mem = s.mem := rfl
@[simp] theorem State.fenceTo_loc (s : State) (f t : PathId) : (s.fenceTo f t).loc = s.loc := rfl
@[simp] theorem State.fenceTo_keys (s : State) (f t : PathId) : (s.fenceTo f t).keys = s.keys := rfl
@[simp] theorem State.fenceTo_tags (s : State) (f t : PathId) : (s.fenceTo f t).tags = s.tags := rfl
@[simp] theorem State.fenceTo_poison (s : State) (f t : PathId) : (s.fenceTo f t).poison = s.poison := rfl
@[simp] theorem State.fenceTo_bad (s : State) (f t : PathId) : (s.fenceTo f t).bad = s.bad := rfl
@[simp] theorem State.fenceTo_weak (s : State) (f t : PathId) : (s.fenceTo f t).weak = s.weak := rfl
@[simp] theorem State.fenceTo_badLoc (s : State) (f t : PathId) : (s.fenceTo f t).badLoc = s.badLoc := rfl
@[simp] theorem State.fenceTo_icache (s : State) (f t : PathId) : (s.fenceTo f t).icache = s.icache := rfl
@[simp] theorem State.fenceTo_regs (s : State) (f t : PathId) : (s.fenceTo f t).regs = s.regs := rfl
@[simp] theorem State.fenceTo_locPast (s : State) (f t : PathId) : (s.fenceTo f t).locPast = s.locPast := rfl
@[simp] theorem State.fenceTo_memPast (s : State) (f t : PathId) : (s.fenceTo f t).memPast = s.memPast := rfl
@[simp] theorem State.fenceTo_tlb (s : State) (f t : PathId) : (s.fenceTo f t).tlb = s.tlb := rfl
@[simp] theorem State.fenceTo_walk (s : State) (f t : PathId) : (s.fenceTo f t).walk = s.walk := rfl
@[simp] theorem State.fenceTo_gs (s : State) (f t : PathId) : (s.fenceTo f t).gs = s.gs := rfl
@[simp] theorem State.fenceTo_gd (s : State) (f t : PathId) : (s.fenceTo f t).gd = s.gd := rfl
@[simp] theorem State.fenceTo_genSent (s : State) (f t : PathId) : (s.fenceTo f t).genSent = s.genSent := rfl
@[simp] theorem State.fenceTo_scans (s : State) (f t : PathId) : (s.fenceTo f t).scans = s.scans := rfl
@[simp] theorem State.fenceTo_gangs (s : State) (f t : PathId) : (s.fenceTo f t).gangs = s.gangs := rfl
@[simp] theorem State.fenceTo_ghosts (s : State) (f t : PathId) : (s.fenceTo f t).ghosts = s.ghosts := rfl
@[simp] theorem State.fenceTo_launches (s : State) (f t : PathId) : (s.fenceTo f t).launches = s.launches := rfl
@[simp] theorem State.fenceTo_nextLaunch (s : State) (f t : PathId) : (s.fenceTo f t).nextLaunch = s.nextLaunch := rfl
@[simp] theorem State.fenceTo_completions (s : State) (f t : PathId) : (s.fenceTo f t).completions = s.completions := rfl
@[simp] theorem State.fenceTo_ports (s : State) (f t : PathId) : (s.fenceTo f t).ports = s.ports := rfl
@[simp] theorem State.fenceTo_tenants (s : State) (f t : PathId) : (s.fenceTo f t).tenants = s.tenants := rfl
@[simp] theorem State.fenceTo_reserves (s : State) (f t : PathId) : (s.fenceTo f t).reserves = s.reserves := rfl
@[simp] theorem State.fenceTo_weights (s : State) (f t : PathId) : (s.fenceTo f t).weights = s.weights := rfl
@[simp] theorem State.fenceTo_charges (s : State) (f t : PathId) : (s.fenceTo f t).charges = s.charges := rfl
@[simp] theorem State.fenceTo_landings (s : State) (f t : PathId) : (s.fenceTo f t).landings = s.landings := rfl
@[simp] theorem State.fenceTo_counts (s : State) (f t : PathId) : (s.fenceTo f t).counts = s.counts := rfl
@[simp] theorem State.fenceTo_copyQ (s : State) (f t : PathId) : (s.fenceTo f t).copyQ = s.copyQ := rfl
@[simp] theorem State.fenceTo_units (s : State) (f t : PathId) : (s.fenceTo f t).units = s.units := rfl
@[simp] theorem State.fenceTo_drains (s : State) (f t : PathId) : (s.fenceTo f t).drains = s.drains := rfl
@[simp] theorem State.fenceTo_tableQ (s : State) (f t : PathId) : (s.fenceTo f t).tableQ = s.tableQ := rfl
@[simp] theorem State.fenceTo_nmQ (s : State) (f t : PathId) : (s.fenceTo f t).nmQ = s.nmQ := rfl
@[simp] theorem State.fenceTo_nmus (s : State) (f t : PathId) : (s.fenceTo f t).nmus = s.nmus := rfl
@[simp] theorem State.fenceTo_resumes (s : State) (f t : PathId) : (s.fenceTo f t).resumes = s.resumes := rfl
@[simp] theorem State.fenceTo_loads (s : State) (f t : PathId) : (s.fenceTo f t).loads = s.loads := rfl
@[simp] theorem State.fenceTo_indexes (s : State) (f t : PathId) : (s.fenceTo f t).indexes = s.indexes := rfl
@[simp] theorem State.fenceTo_ixQ (s : State) (f t : PathId) : (s.fenceTo f t).ixQ = s.ixQ := rfl
@[simp] theorem State.fenceTo_ixPaused (s : State) (f t : PathId) : (s.fenceTo f t).ixPaused = s.ixPaused := rfl
@[simp] theorem State.fenceTo_store (s : State) (f t : PathId) : (s.fenceTo f t).store = s.store := rfl
@[simp] theorem State.fenceTo_rings (s : State) (f t : PathId) : (s.fenceTo f t).rings = s.rings := rfl
@[simp] theorem State.fenceTo_usage (s : State) (f t : PathId) : (s.fenceTo f t).usage = s.usage := rfl
@[simp] theorem State.fenceTo_bars (s : State) (f t : PathId) : (s.fenceTo f t).bars = s.bars := rfl
@[simp] theorem State.fenceTo_reportSeq (s : State) (f t : PathId) : (s.fenceTo f t).reportSeq = s.reportSeq := rfl
@[simp] theorem State.fenceTo_epoch (s : State) (f t : PathId) : (s.fenceTo f t).epoch = s.epoch := rfl
@[simp] theorem State.fenceTo_erased (s : State) (f t : PathId) : (s.fenceTo f t).erased = s.erased := rfl
@[simp] theorem State.fenceTo_keyEpoch (s : State) (f t : PathId) : (s.fenceTo f t).keyEpoch = s.keyEpoch := rfl
@[simp] theorem State.fenceTo_quarantined (s : State) (f t : PathId) : (s.fenceTo f t).quarantined = s.quarantined := rfl
@[simp] theorem State.fenceTo_inReset (s : State) (f t : PathId) : (s.fenceTo f t).inReset = s.inReset := rfl
@[simp] theorem State.fenceTo_budgets (s : State) (f t : PathId) : (s.fenceTo f t).budgets = s.budgets := rfl
@[simp] theorem State.fenceTo_nextBudgets (s : State) (f t : PathId) : (s.fenceTo f t).nextBudgets = s.nextBudgets := rfl
@[simp] theorem State.fenceTo_period (s : State) (f t : PathId) : (s.fenceTo f t).period = s.period := rfl
@[simp] theorem State.fenceTo_reply (s : State) (f t : PathId) : (s.fenceTo f t).reply = s.reply := rfl
@[simp] theorem State.fenceTo_replyError (s : State) (f t : PathId) : (s.fenceTo f t).replyError = s.replyError := rfl
@[simp] theorem State.fenceTo_retained (s : State) (f t : PathId) : (s.fenceTo f t).retained = s.retained := rfl
@[simp] theorem State.fenceTo_monel (s : State) (f t : PathId) : (s.fenceTo f t).monel = s.monel := rfl

/-! ### bring -/

@[simp] theorem State.bring_th (s : State) (d : Nat) (p : Past → Bool) : (s.bring d p).th = s.th := rfl
@[simp] theorem State.bring_others (s : State) (d : Nat) (p : Past → Bool) : (s.bring d p).others = s.others := rfl
@[simp] theorem State.bring_agenda (s : State) (d : Nat) (p : Past → Bool) : (s.bring d p).agenda = s.agenda := rfl
@[simp] theorem State.bring_ev (s : State) (d : Nat) (p : Past → Bool) : (s.bring d p).ev = s.ev := rfl
@[simp] theorem State.bring_nmuAt (s : State) (d : Nat) (p : Past → Bool) : (s.bring d p).nmuAt = s.nmuAt := rfl
@[simp] theorem State.bring_draw (s : State) (d : Nat) (p : Past → Bool) : (s.bring d p).draw = s.draw := rfl
@[simp] theorem State.bring_packets (s : State) (d : Nat) (p : Past → Bool) : (s.bring d p).packets = s.packets := rfl
@[simp] theorem State.bring_clock (s : State) (d : Nat) (p : Past → Bool) : (s.bring d p).clock = s.clock := rfl
@[simp] theorem State.bring_skew (s : State) (d : Nat) (p : Past → Bool) : (s.bring d p).skew = s.skew := rfl
@[simp] theorem State.bring_halted (s : State) (d : Nat) (p : Past → Bool) : (s.bring d p).halted = s.halted := rfl
@[simp] theorem State.bring_bootStep (s : State) (d : Nat) (p : Past → Bool) : (s.bring d p).bootStep = s.bootStep := rfl
@[simp] theorem State.bring_cfg (s : State) (d : Nat) (p : Past → Bool) : (s.bring d p).cfg = s.cfg := rfl
@[simp] theorem State.bring_mem (s : State) (d : Nat) (p : Past → Bool) : (s.bring d p).mem = s.mem := rfl
@[simp] theorem State.bring_loc (s : State) (d : Nat) (p : Past → Bool) : (s.bring d p).loc = s.loc := rfl
@[simp] theorem State.bring_keys (s : State) (d : Nat) (p : Past → Bool) : (s.bring d p).keys = s.keys := rfl
@[simp] theorem State.bring_tags (s : State) (d : Nat) (p : Past → Bool) : (s.bring d p).tags = s.tags := rfl
@[simp] theorem State.bring_poison (s : State) (d : Nat) (p : Past → Bool) : (s.bring d p).poison = s.poison := rfl
@[simp] theorem State.bring_bad (s : State) (d : Nat) (p : Past → Bool) : (s.bring d p).bad = s.bad := rfl
@[simp] theorem State.bring_weak (s : State) (d : Nat) (p : Past → Bool) : (s.bring d p).weak = s.weak := rfl
@[simp] theorem State.bring_badLoc (s : State) (d : Nat) (p : Past → Bool) : (s.bring d p).badLoc = s.badLoc := rfl
@[simp] theorem State.bring_icache (s : State) (d : Nat) (p : Past → Bool) : (s.bring d p).icache = s.icache := rfl
@[simp] theorem State.bring_regs (s : State) (d : Nat) (p : Past → Bool) : (s.bring d p).regs = s.regs := rfl
@[simp] theorem State.bring_now (s : State) (d : Nat) (p : Past → Bool) : (s.bring d p).now = s.now := rfl
@[simp] theorem State.bring_tlb (s : State) (d : Nat) (p : Past → Bool) : (s.bring d p).tlb = s.tlb := rfl
@[simp] theorem State.bring_walk (s : State) (d : Nat) (p : Past → Bool) : (s.bring d p).walk = s.walk := rfl
@[simp] theorem State.bring_gs (s : State) (d : Nat) (p : Past → Bool) : (s.bring d p).gs = s.gs := rfl
@[simp] theorem State.bring_gd (s : State) (d : Nat) (p : Past → Bool) : (s.bring d p).gd = s.gd := rfl
@[simp] theorem State.bring_genSent (s : State) (d : Nat) (p : Past → Bool) : (s.bring d p).genSent = s.genSent := rfl
@[simp] theorem State.bring_scans (s : State) (d : Nat) (p : Past → Bool) : (s.bring d p).scans = s.scans := rfl
@[simp] theorem State.bring_gangs (s : State) (d : Nat) (p : Past → Bool) : (s.bring d p).gangs = s.gangs := rfl
@[simp] theorem State.bring_ghosts (s : State) (d : Nat) (p : Past → Bool) : (s.bring d p).ghosts = s.ghosts := rfl
@[simp] theorem State.bring_launches (s : State) (d : Nat) (p : Past → Bool) : (s.bring d p).launches = s.launches := rfl
@[simp] theorem State.bring_nextLaunch (s : State) (d : Nat) (p : Past → Bool) : (s.bring d p).nextLaunch = s.nextLaunch := rfl
@[simp] theorem State.bring_completions (s : State) (d : Nat) (p : Past → Bool) : (s.bring d p).completions = s.completions := rfl
@[simp] theorem State.bring_ports (s : State) (d : Nat) (p : Past → Bool) : (s.bring d p).ports = s.ports := rfl
@[simp] theorem State.bring_tenants (s : State) (d : Nat) (p : Past → Bool) : (s.bring d p).tenants = s.tenants := rfl
@[simp] theorem State.bring_reserves (s : State) (d : Nat) (p : Past → Bool) : (s.bring d p).reserves = s.reserves := rfl
@[simp] theorem State.bring_weights (s : State) (d : Nat) (p : Past → Bool) : (s.bring d p).weights = s.weights := rfl
@[simp] theorem State.bring_charges (s : State) (d : Nat) (p : Past → Bool) : (s.bring d p).charges = s.charges := rfl
@[simp] theorem State.bring_landings (s : State) (d : Nat) (p : Past → Bool) : (s.bring d p).landings = s.landings := rfl
@[simp] theorem State.bring_counts (s : State) (d : Nat) (p : Past → Bool) : (s.bring d p).counts = s.counts := rfl
@[simp] theorem State.bring_copyQ (s : State) (d : Nat) (p : Past → Bool) : (s.bring d p).copyQ = s.copyQ := rfl
@[simp] theorem State.bring_units (s : State) (d : Nat) (p : Past → Bool) : (s.bring d p).units = s.units := rfl
@[simp] theorem State.bring_drains (s : State) (d : Nat) (p : Past → Bool) : (s.bring d p).drains = s.drains := rfl
@[simp] theorem State.bring_tableQ (s : State) (d : Nat) (p : Past → Bool) : (s.bring d p).tableQ = s.tableQ := rfl
@[simp] theorem State.bring_nmQ (s : State) (d : Nat) (p : Past → Bool) : (s.bring d p).nmQ = s.nmQ := rfl
@[simp] theorem State.bring_nmus (s : State) (d : Nat) (p : Past → Bool) : (s.bring d p).nmus = s.nmus := rfl
@[simp] theorem State.bring_resumes (s : State) (d : Nat) (p : Past → Bool) : (s.bring d p).resumes = s.resumes := rfl
@[simp] theorem State.bring_loads (s : State) (d : Nat) (p : Past → Bool) : (s.bring d p).loads = s.loads := rfl
@[simp] theorem State.bring_indexes (s : State) (d : Nat) (p : Past → Bool) : (s.bring d p).indexes = s.indexes := rfl
@[simp] theorem State.bring_ixQ (s : State) (d : Nat) (p : Past → Bool) : (s.bring d p).ixQ = s.ixQ := rfl
@[simp] theorem State.bring_ixPaused (s : State) (d : Nat) (p : Past → Bool) : (s.bring d p).ixPaused = s.ixPaused := rfl
@[simp] theorem State.bring_store (s : State) (d : Nat) (p : Past → Bool) : (s.bring d p).store = s.store := rfl
@[simp] theorem State.bring_rings (s : State) (d : Nat) (p : Past → Bool) : (s.bring d p).rings = s.rings := rfl
@[simp] theorem State.bring_usage (s : State) (d : Nat) (p : Past → Bool) : (s.bring d p).usage = s.usage := rfl
@[simp] theorem State.bring_bars (s : State) (d : Nat) (p : Past → Bool) : (s.bring d p).bars = s.bars := rfl
@[simp] theorem State.bring_reportSeq (s : State) (d : Nat) (p : Past → Bool) : (s.bring d p).reportSeq = s.reportSeq := rfl
@[simp] theorem State.bring_epoch (s : State) (d : Nat) (p : Past → Bool) : (s.bring d p).epoch = s.epoch := rfl
@[simp] theorem State.bring_erased (s : State) (d : Nat) (p : Past → Bool) : (s.bring d p).erased = s.erased := rfl
@[simp] theorem State.bring_keyEpoch (s : State) (d : Nat) (p : Past → Bool) : (s.bring d p).keyEpoch = s.keyEpoch := rfl
@[simp] theorem State.bring_quarantined (s : State) (d : Nat) (p : Past → Bool) : (s.bring d p).quarantined = s.quarantined := rfl
@[simp] theorem State.bring_inReset (s : State) (d : Nat) (p : Past → Bool) : (s.bring d p).inReset = s.inReset := rfl
@[simp] theorem State.bring_budgets (s : State) (d : Nat) (p : Past → Bool) : (s.bring d p).budgets = s.budgets := rfl
@[simp] theorem State.bring_nextBudgets (s : State) (d : Nat) (p : Past → Bool) : (s.bring d p).nextBudgets = s.nextBudgets := rfl
@[simp] theorem State.bring_period (s : State) (d : Nat) (p : Past → Bool) : (s.bring d p).period = s.period := rfl
@[simp] theorem State.bring_reply (s : State) (d : Nat) (p : Past → Bool) : (s.bring d p).reply = s.reply := rfl
@[simp] theorem State.bring_replyError (s : State) (d : Nat) (p : Past → Bool) : (s.bring d p).replyError = s.replyError := rfl
@[simp] theorem State.bring_retained (s : State) (d : Nat) (p : Past → Bool) : (s.bring d p).retained = s.retained := rfl
@[simp] theorem State.bring_monel (s : State) (d : Nat) (p : Past → Bool) : (s.bring d p).monel = s.monel := rfl

/-! ### renew -/

@[simp] theorem State.renew_th (s : State) (d : Nat) (o : Order) : (s.renew d o).th = s.th := by cases o <;> rfl
@[simp] theorem State.renew_others (s : State) (d : Nat) (o : Order) : (s.renew d o).others = s.others := by cases o <;> rfl
@[simp] theorem State.renew_agenda (s : State) (d : Nat) (o : Order) : (s.renew d o).agenda = s.agenda := by cases o <;> rfl
@[simp] theorem State.renew_ev (s : State) (d : Nat) (o : Order) : (s.renew d o).ev = s.ev := by cases o <;> rfl
@[simp] theorem State.renew_nmuAt (s : State) (d : Nat) (o : Order) : (s.renew d o).nmuAt = s.nmuAt := by cases o <;> rfl
@[simp] theorem State.renew_draw (s : State) (d : Nat) (o : Order) : (s.renew d o).draw = s.draw := by cases o <;> rfl
@[simp] theorem State.renew_packets (s : State) (d : Nat) (o : Order) : (s.renew d o).packets = s.packets := by cases o <;> rfl
@[simp] theorem State.renew_clock (s : State) (d : Nat) (o : Order) : (s.renew d o).clock = s.clock := by cases o <;> rfl
@[simp] theorem State.renew_skew (s : State) (d : Nat) (o : Order) : (s.renew d o).skew = s.skew := by cases o <;> rfl
@[simp] theorem State.renew_halted (s : State) (d : Nat) (o : Order) : (s.renew d o).halted = s.halted := by cases o <;> rfl
@[simp] theorem State.renew_bootStep (s : State) (d : Nat) (o : Order) : (s.renew d o).bootStep = s.bootStep := by cases o <;> rfl
@[simp] theorem State.renew_cfg (s : State) (d : Nat) (o : Order) : (s.renew d o).cfg = s.cfg := by cases o <;> rfl
@[simp] theorem State.renew_mem (s : State) (d : Nat) (o : Order) : (s.renew d o).mem = s.mem := by cases o <;> rfl
@[simp] theorem State.renew_loc (s : State) (d : Nat) (o : Order) : (s.renew d o).loc = s.loc := by cases o <;> rfl
@[simp] theorem State.renew_keys (s : State) (d : Nat) (o : Order) : (s.renew d o).keys = s.keys := by cases o <;> rfl
@[simp] theorem State.renew_tags (s : State) (d : Nat) (o : Order) : (s.renew d o).tags = s.tags := by cases o <;> rfl
@[simp] theorem State.renew_poison (s : State) (d : Nat) (o : Order) : (s.renew d o).poison = s.poison := by cases o <;> rfl
@[simp] theorem State.renew_bad (s : State) (d : Nat) (o : Order) : (s.renew d o).bad = s.bad := by cases o <;> rfl
@[simp] theorem State.renew_weak (s : State) (d : Nat) (o : Order) : (s.renew d o).weak = s.weak := by cases o <;> rfl
@[simp] theorem State.renew_badLoc (s : State) (d : Nat) (o : Order) : (s.renew d o).badLoc = s.badLoc := by cases o <;> rfl
@[simp] theorem State.renew_icache (s : State) (d : Nat) (o : Order) : (s.renew d o).icache = s.icache := by cases o <;> rfl
@[simp] theorem State.renew_regs (s : State) (d : Nat) (o : Order) : (s.renew d o).regs = s.regs := by cases o <;> rfl
@[simp] theorem State.renew_tlb (s : State) (d : Nat) (o : Order) : (s.renew d o).tlb = s.tlb := by cases o <;> rfl
@[simp] theorem State.renew_walk (s : State) (d : Nat) (o : Order) : (s.renew d o).walk = s.walk := by cases o <;> rfl
@[simp] theorem State.renew_gs (s : State) (d : Nat) (o : Order) : (s.renew d o).gs = s.gs := by cases o <;> rfl
@[simp] theorem State.renew_gd (s : State) (d : Nat) (o : Order) : (s.renew d o).gd = s.gd := by cases o <;> rfl
@[simp] theorem State.renew_genSent (s : State) (d : Nat) (o : Order) : (s.renew d o).genSent = s.genSent := by cases o <;> rfl
@[simp] theorem State.renew_scans (s : State) (d : Nat) (o : Order) : (s.renew d o).scans = s.scans := by cases o <;> rfl
@[simp] theorem State.renew_gangs (s : State) (d : Nat) (o : Order) : (s.renew d o).gangs = s.gangs := by cases o <;> rfl
@[simp] theorem State.renew_ghosts (s : State) (d : Nat) (o : Order) : (s.renew d o).ghosts = s.ghosts := by cases o <;> rfl
@[simp] theorem State.renew_launches (s : State) (d : Nat) (o : Order) : (s.renew d o).launches = s.launches := by cases o <;> rfl
@[simp] theorem State.renew_nextLaunch (s : State) (d : Nat) (o : Order) : (s.renew d o).nextLaunch = s.nextLaunch := by cases o <;> rfl
@[simp] theorem State.renew_completions (s : State) (d : Nat) (o : Order) : (s.renew d o).completions = s.completions := by cases o <;> rfl
@[simp] theorem State.renew_ports (s : State) (d : Nat) (o : Order) : (s.renew d o).ports = s.ports := by cases o <;> rfl
@[simp] theorem State.renew_tenants (s : State) (d : Nat) (o : Order) : (s.renew d o).tenants = s.tenants := by cases o <;> rfl
@[simp] theorem State.renew_reserves (s : State) (d : Nat) (o : Order) : (s.renew d o).reserves = s.reserves := by cases o <;> rfl
@[simp] theorem State.renew_weights (s : State) (d : Nat) (o : Order) : (s.renew d o).weights = s.weights := by cases o <;> rfl
@[simp] theorem State.renew_charges (s : State) (d : Nat) (o : Order) : (s.renew d o).charges = s.charges := by cases o <;> rfl
@[simp] theorem State.renew_landings (s : State) (d : Nat) (o : Order) : (s.renew d o).landings = s.landings := by cases o <;> rfl
@[simp] theorem State.renew_counts (s : State) (d : Nat) (o : Order) : (s.renew d o).counts = s.counts := by cases o <;> rfl
@[simp] theorem State.renew_copyQ (s : State) (d : Nat) (o : Order) : (s.renew d o).copyQ = s.copyQ := by cases o <;> rfl
@[simp] theorem State.renew_units (s : State) (d : Nat) (o : Order) : (s.renew d o).units = s.units := by cases o <;> rfl
@[simp] theorem State.renew_drains (s : State) (d : Nat) (o : Order) : (s.renew d o).drains = s.drains := by cases o <;> rfl
@[simp] theorem State.renew_tableQ (s : State) (d : Nat) (o : Order) : (s.renew d o).tableQ = s.tableQ := by cases o <;> rfl
@[simp] theorem State.renew_nmQ (s : State) (d : Nat) (o : Order) : (s.renew d o).nmQ = s.nmQ := by cases o <;> rfl
@[simp] theorem State.renew_nmus (s : State) (d : Nat) (o : Order) : (s.renew d o).nmus = s.nmus := by cases o <;> rfl
@[simp] theorem State.renew_resumes (s : State) (d : Nat) (o : Order) : (s.renew d o).resumes = s.resumes := by cases o <;> rfl
@[simp] theorem State.renew_loads (s : State) (d : Nat) (o : Order) : (s.renew d o).loads = s.loads := by cases o <;> rfl
@[simp] theorem State.renew_indexes (s : State) (d : Nat) (o : Order) : (s.renew d o).indexes = s.indexes := by cases o <;> rfl
@[simp] theorem State.renew_ixQ (s : State) (d : Nat) (o : Order) : (s.renew d o).ixQ = s.ixQ := by cases o <;> rfl
@[simp] theorem State.renew_ixPaused (s : State) (d : Nat) (o : Order) : (s.renew d o).ixPaused = s.ixPaused := by cases o <;> rfl
@[simp] theorem State.renew_store (s : State) (d : Nat) (o : Order) : (s.renew d o).store = s.store := by cases o <;> rfl
@[simp] theorem State.renew_rings (s : State) (d : Nat) (o : Order) : (s.renew d o).rings = s.rings := by cases o <;> rfl
@[simp] theorem State.renew_usage (s : State) (d : Nat) (o : Order) : (s.renew d o).usage = s.usage := by cases o <;> rfl
@[simp] theorem State.renew_bars (s : State) (d : Nat) (o : Order) : (s.renew d o).bars = s.bars := by cases o <;> rfl
@[simp] theorem State.renew_reportSeq (s : State) (d : Nat) (o : Order) : (s.renew d o).reportSeq = s.reportSeq := by cases o <;> rfl
@[simp] theorem State.renew_epoch (s : State) (d : Nat) (o : Order) : (s.renew d o).epoch = s.epoch := by cases o <;> rfl
@[simp] theorem State.renew_erased (s : State) (d : Nat) (o : Order) : (s.renew d o).erased = s.erased := by cases o <;> rfl
@[simp] theorem State.renew_keyEpoch (s : State) (d : Nat) (o : Order) : (s.renew d o).keyEpoch = s.keyEpoch := by cases o <;> rfl
@[simp] theorem State.renew_quarantined (s : State) (d : Nat) (o : Order) : (s.renew d o).quarantined = s.quarantined := by cases o <;> rfl
@[simp] theorem State.renew_inReset (s : State) (d : Nat) (o : Order) : (s.renew d o).inReset = s.inReset := by cases o <;> rfl
@[simp] theorem State.renew_budgets (s : State) (d : Nat) (o : Order) : (s.renew d o).budgets = s.budgets := by cases o <;> rfl
@[simp] theorem State.renew_nextBudgets (s : State) (d : Nat) (o : Order) : (s.renew d o).nextBudgets = s.nextBudgets := by cases o <;> rfl
@[simp] theorem State.renew_period (s : State) (d : Nat) (o : Order) : (s.renew d o).period = s.period := by cases o <;> rfl
@[simp] theorem State.renew_reply (s : State) (d : Nat) (o : Order) : (s.renew d o).reply = s.reply := by cases o <;> rfl
@[simp] theorem State.renew_replyError (s : State) (d : Nat) (o : Order) : (s.renew d o).replyError = s.replyError := by cases o <;> rfl
@[simp] theorem State.renew_retained (s : State) (d : Nat) (o : Order) : (s.renew d o).retained = s.retained := by cases o <;> rfl
@[simp] theorem State.renew_monel (s : State) (d : Nat) (o : Order) : (s.renew d o).monel = s.monel := by cases o <;> rfl

/-! ### acquire -/

@[simp] theorem State.acquire_others (s : State) (o : Order) : (s.acquire o).others = s.others := by cases o <;> rfl
@[simp] theorem State.acquire_agenda (s : State) (o : Order) : (s.acquire o).agenda = s.agenda := by cases o <;> rfl
@[simp] theorem State.acquire_ev (s : State) (o : Order) : (s.acquire o).ev = s.ev := by cases o <;> rfl
@[simp] theorem State.acquire_nmuAt (s : State) (o : Order) : (s.acquire o).nmuAt = s.nmuAt := by cases o <;> rfl
@[simp] theorem State.acquire_draw (s : State) (o : Order) : (s.acquire o).draw = s.draw := by cases o <;> rfl
@[simp] theorem State.acquire_packets (s : State) (o : Order) : (s.acquire o).packets = s.packets := by cases o <;> rfl
@[simp] theorem State.acquire_clock (s : State) (o : Order) : (s.acquire o).clock = s.clock := by cases o <;> rfl
@[simp] theorem State.acquire_skew (s : State) (o : Order) : (s.acquire o).skew = s.skew := by cases o <;> rfl
@[simp] theorem State.acquire_halted (s : State) (o : Order) : (s.acquire o).halted = s.halted := by cases o <;> rfl
@[simp] theorem State.acquire_bootStep (s : State) (o : Order) : (s.acquire o).bootStep = s.bootStep := by cases o <;> rfl
@[simp] theorem State.acquire_cfg (s : State) (o : Order) : (s.acquire o).cfg = s.cfg := by cases o <;> rfl
@[simp] theorem State.acquire_mem (s : State) (o : Order) : (s.acquire o).mem = s.mem := by cases o <;> rfl
@[simp] theorem State.acquire_loc (s : State) (o : Order) : (s.acquire o).loc = s.loc := by cases o <;> rfl
@[simp] theorem State.acquire_keys (s : State) (o : Order) : (s.acquire o).keys = s.keys := by cases o <;> rfl
@[simp] theorem State.acquire_tags (s : State) (o : Order) : (s.acquire o).tags = s.tags := by cases o <;> rfl
@[simp] theorem State.acquire_poison (s : State) (o : Order) : (s.acquire o).poison = s.poison := by cases o <;> rfl
@[simp] theorem State.acquire_bad (s : State) (o : Order) : (s.acquire o).bad = s.bad := by cases o <;> rfl
@[simp] theorem State.acquire_weak (s : State) (o : Order) : (s.acquire o).weak = s.weak := by cases o <;> rfl
@[simp] theorem State.acquire_badLoc (s : State) (o : Order) : (s.acquire o).badLoc = s.badLoc := by cases o <;> rfl
@[simp] theorem State.acquire_icache (s : State) (o : Order) : (s.acquire o).icache = s.icache := by cases o <;> rfl
@[simp] theorem State.acquire_regs (s : State) (o : Order) : (s.acquire o).regs = s.regs := by cases o <;> rfl
@[simp] theorem State.acquire_tlb (s : State) (o : Order) : (s.acquire o).tlb = s.tlb := by cases o <;> rfl
@[simp] theorem State.acquire_walk (s : State) (o : Order) : (s.acquire o).walk = s.walk := by cases o <;> rfl
@[simp] theorem State.acquire_gs (s : State) (o : Order) : (s.acquire o).gs = s.gs := by cases o <;> rfl
@[simp] theorem State.acquire_gd (s : State) (o : Order) : (s.acquire o).gd = s.gd := by cases o <;> rfl
@[simp] theorem State.acquire_genSent (s : State) (o : Order) : (s.acquire o).genSent = s.genSent := by cases o <;> rfl
@[simp] theorem State.acquire_scans (s : State) (o : Order) : (s.acquire o).scans = s.scans := by cases o <;> rfl
@[simp] theorem State.acquire_gangs (s : State) (o : Order) : (s.acquire o).gangs = s.gangs := by cases o <;> rfl
@[simp] theorem State.acquire_ghosts (s : State) (o : Order) : (s.acquire o).ghosts = s.ghosts := by cases o <;> rfl
@[simp] theorem State.acquire_launches (s : State) (o : Order) : (s.acquire o).launches = s.launches := by cases o <;> rfl
@[simp] theorem State.acquire_nextLaunch (s : State) (o : Order) : (s.acquire o).nextLaunch = s.nextLaunch := by cases o <;> rfl
@[simp] theorem State.acquire_completions (s : State) (o : Order) : (s.acquire o).completions = s.completions := by cases o <;> rfl
@[simp] theorem State.acquire_ports (s : State) (o : Order) : (s.acquire o).ports = s.ports := by cases o <;> rfl
@[simp] theorem State.acquire_tenants (s : State) (o : Order) : (s.acquire o).tenants = s.tenants := by cases o <;> rfl
@[simp] theorem State.acquire_reserves (s : State) (o : Order) : (s.acquire o).reserves = s.reserves := by cases o <;> rfl
@[simp] theorem State.acquire_weights (s : State) (o : Order) : (s.acquire o).weights = s.weights := by cases o <;> rfl
@[simp] theorem State.acquire_charges (s : State) (o : Order) : (s.acquire o).charges = s.charges := by cases o <;> rfl
@[simp] theorem State.acquire_landings (s : State) (o : Order) : (s.acquire o).landings = s.landings := by cases o <;> rfl
@[simp] theorem State.acquire_counts (s : State) (o : Order) : (s.acquire o).counts = s.counts := by cases o <;> rfl
@[simp] theorem State.acquire_copyQ (s : State) (o : Order) : (s.acquire o).copyQ = s.copyQ := by cases o <;> rfl
@[simp] theorem State.acquire_units (s : State) (o : Order) : (s.acquire o).units = s.units := by cases o <;> rfl
@[simp] theorem State.acquire_drains (s : State) (o : Order) : (s.acquire o).drains = s.drains := by cases o <;> rfl
@[simp] theorem State.acquire_tableQ (s : State) (o : Order) : (s.acquire o).tableQ = s.tableQ := by cases o <;> rfl
@[simp] theorem State.acquire_nmQ (s : State) (o : Order) : (s.acquire o).nmQ = s.nmQ := by cases o <;> rfl
@[simp] theorem State.acquire_nmus (s : State) (o : Order) : (s.acquire o).nmus = s.nmus := by cases o <;> rfl
@[simp] theorem State.acquire_resumes (s : State) (o : Order) : (s.acquire o).resumes = s.resumes := by cases o <;> rfl
@[simp] theorem State.acquire_loads (s : State) (o : Order) : (s.acquire o).loads = s.loads := by cases o <;> rfl
@[simp] theorem State.acquire_indexes (s : State) (o : Order) : (s.acquire o).indexes = s.indexes := by cases o <;> rfl
@[simp] theorem State.acquire_ixQ (s : State) (o : Order) : (s.acquire o).ixQ = s.ixQ := by cases o <;> rfl
@[simp] theorem State.acquire_ixPaused (s : State) (o : Order) : (s.acquire o).ixPaused = s.ixPaused := by cases o <;> rfl
@[simp] theorem State.acquire_store (s : State) (o : Order) : (s.acquire o).store = s.store := by cases o <;> rfl
@[simp] theorem State.acquire_rings (s : State) (o : Order) : (s.acquire o).rings = s.rings := by cases o <;> rfl
@[simp] theorem State.acquire_usage (s : State) (o : Order) : (s.acquire o).usage = s.usage := by cases o <;> rfl
@[simp] theorem State.acquire_bars (s : State) (o : Order) : (s.acquire o).bars = s.bars := by cases o <;> rfl
@[simp] theorem State.acquire_reportSeq (s : State) (o : Order) : (s.acquire o).reportSeq = s.reportSeq := by cases o <;> rfl
@[simp] theorem State.acquire_epoch (s : State) (o : Order) : (s.acquire o).epoch = s.epoch := by cases o <;> rfl
@[simp] theorem State.acquire_erased (s : State) (o : Order) : (s.acquire o).erased = s.erased := by cases o <;> rfl
@[simp] theorem State.acquire_keyEpoch (s : State) (o : Order) : (s.acquire o).keyEpoch = s.keyEpoch := by cases o <;> rfl
@[simp] theorem State.acquire_quarantined (s : State) (o : Order) : (s.acquire o).quarantined = s.quarantined := by cases o <;> rfl
@[simp] theorem State.acquire_inReset (s : State) (o : Order) : (s.acquire o).inReset = s.inReset := by cases o <;> rfl
@[simp] theorem State.acquire_budgets (s : State) (o : Order) : (s.acquire o).budgets = s.budgets := by cases o <;> rfl
@[simp] theorem State.acquire_nextBudgets (s : State) (o : Order) : (s.acquire o).nextBudgets = s.nextBudgets := by cases o <;> rfl
@[simp] theorem State.acquire_period (s : State) (o : Order) : (s.acquire o).period = s.period := by cases o <;> rfl
@[simp] theorem State.acquire_reply (s : State) (o : Order) : (s.acquire o).reply = s.reply := by cases o <;> rfl
@[simp] theorem State.acquire_replyError (s : State) (o : Order) : (s.acquire o).replyError = s.replyError := by cases o <;> rfl
@[simp] theorem State.acquire_retained (s : State) (o : Order) : (s.acquire o).retained = s.retained := by cases o <;> rfl
@[simp] theorem State.acquire_monel (s : State) (o : Order) : (s.acquire o).monel = s.monel := by cases o <;> rfl

/-! ### drawBit -/

@[simp] theorem State.drawBit_th (s : State) : (s.drawBit.2).th = s.th := rfl
@[simp] theorem State.drawBit_others (s : State) : (s.drawBit.2).others = s.others := rfl
@[simp] theorem State.drawBit_agenda (s : State) : (s.drawBit.2).agenda = s.agenda := rfl
@[simp] theorem State.drawBit_ev (s : State) : (s.drawBit.2).ev = s.ev := rfl
@[simp] theorem State.drawBit_nmuAt (s : State) : (s.drawBit.2).nmuAt = s.nmuAt := rfl
@[simp] theorem State.drawBit_packets (s : State) : (s.drawBit.2).packets = s.packets := rfl
@[simp] theorem State.drawBit_clock (s : State) : (s.drawBit.2).clock = s.clock := rfl
@[simp] theorem State.drawBit_skew (s : State) : (s.drawBit.2).skew = s.skew := rfl
@[simp] theorem State.drawBit_halted (s : State) : (s.drawBit.2).halted = s.halted := rfl
@[simp] theorem State.drawBit_bootStep (s : State) : (s.drawBit.2).bootStep = s.bootStep := rfl
@[simp] theorem State.drawBit_cfg (s : State) : (s.drawBit.2).cfg = s.cfg := rfl
@[simp] theorem State.drawBit_mem (s : State) : (s.drawBit.2).mem = s.mem := rfl
@[simp] theorem State.drawBit_loc (s : State) : (s.drawBit.2).loc = s.loc := rfl
@[simp] theorem State.drawBit_keys (s : State) : (s.drawBit.2).keys = s.keys := rfl
@[simp] theorem State.drawBit_tags (s : State) : (s.drawBit.2).tags = s.tags := rfl
@[simp] theorem State.drawBit_poison (s : State) : (s.drawBit.2).poison = s.poison := rfl
@[simp] theorem State.drawBit_bad (s : State) : (s.drawBit.2).bad = s.bad := rfl
@[simp] theorem State.drawBit_weak (s : State) : (s.drawBit.2).weak = s.weak := rfl
@[simp] theorem State.drawBit_badLoc (s : State) : (s.drawBit.2).badLoc = s.badLoc := rfl
@[simp] theorem State.drawBit_icache (s : State) : (s.drawBit.2).icache = s.icache := rfl
@[simp] theorem State.drawBit_regs (s : State) : (s.drawBit.2).regs = s.regs := rfl
@[simp] theorem State.drawBit_now (s : State) : (s.drawBit.2).now = s.now := rfl
@[simp] theorem State.drawBit_locPast (s : State) : (s.drawBit.2).locPast = s.locPast := rfl
@[simp] theorem State.drawBit_memPast (s : State) : (s.drawBit.2).memPast = s.memPast := rfl
@[simp] theorem State.drawBit_tlb (s : State) : (s.drawBit.2).tlb = s.tlb := rfl
@[simp] theorem State.drawBit_walk (s : State) : (s.drawBit.2).walk = s.walk := rfl
@[simp] theorem State.drawBit_gs (s : State) : (s.drawBit.2).gs = s.gs := rfl
@[simp] theorem State.drawBit_gd (s : State) : (s.drawBit.2).gd = s.gd := rfl
@[simp] theorem State.drawBit_genSent (s : State) : (s.drawBit.2).genSent = s.genSent := rfl
@[simp] theorem State.drawBit_scans (s : State) : (s.drawBit.2).scans = s.scans := rfl
@[simp] theorem State.drawBit_gangs (s : State) : (s.drawBit.2).gangs = s.gangs := rfl
@[simp] theorem State.drawBit_ghosts (s : State) : (s.drawBit.2).ghosts = s.ghosts := rfl
@[simp] theorem State.drawBit_launches (s : State) : (s.drawBit.2).launches = s.launches := rfl
@[simp] theorem State.drawBit_nextLaunch (s : State) : (s.drawBit.2).nextLaunch = s.nextLaunch := rfl
@[simp] theorem State.drawBit_completions (s : State) : (s.drawBit.2).completions = s.completions := rfl
@[simp] theorem State.drawBit_ports (s : State) : (s.drawBit.2).ports = s.ports := rfl
@[simp] theorem State.drawBit_tenants (s : State) : (s.drawBit.2).tenants = s.tenants := rfl
@[simp] theorem State.drawBit_reserves (s : State) : (s.drawBit.2).reserves = s.reserves := rfl
@[simp] theorem State.drawBit_weights (s : State) : (s.drawBit.2).weights = s.weights := rfl
@[simp] theorem State.drawBit_charges (s : State) : (s.drawBit.2).charges = s.charges := rfl
@[simp] theorem State.drawBit_landings (s : State) : (s.drawBit.2).landings = s.landings := rfl
@[simp] theorem State.drawBit_counts (s : State) : (s.drawBit.2).counts = s.counts := rfl
@[simp] theorem State.drawBit_copyQ (s : State) : (s.drawBit.2).copyQ = s.copyQ := rfl
@[simp] theorem State.drawBit_units (s : State) : (s.drawBit.2).units = s.units := rfl
@[simp] theorem State.drawBit_drains (s : State) : (s.drawBit.2).drains = s.drains := rfl
@[simp] theorem State.drawBit_tableQ (s : State) : (s.drawBit.2).tableQ = s.tableQ := rfl
@[simp] theorem State.drawBit_nmQ (s : State) : (s.drawBit.2).nmQ = s.nmQ := rfl
@[simp] theorem State.drawBit_nmus (s : State) : (s.drawBit.2).nmus = s.nmus := rfl
@[simp] theorem State.drawBit_resumes (s : State) : (s.drawBit.2).resumes = s.resumes := rfl
@[simp] theorem State.drawBit_loads (s : State) : (s.drawBit.2).loads = s.loads := rfl
@[simp] theorem State.drawBit_indexes (s : State) : (s.drawBit.2).indexes = s.indexes := rfl
@[simp] theorem State.drawBit_ixQ (s : State) : (s.drawBit.2).ixQ = s.ixQ := rfl
@[simp] theorem State.drawBit_ixPaused (s : State) : (s.drawBit.2).ixPaused = s.ixPaused := rfl
@[simp] theorem State.drawBit_store (s : State) : (s.drawBit.2).store = s.store := rfl
@[simp] theorem State.drawBit_rings (s : State) : (s.drawBit.2).rings = s.rings := rfl
@[simp] theorem State.drawBit_usage (s : State) : (s.drawBit.2).usage = s.usage := rfl
@[simp] theorem State.drawBit_bars (s : State) : (s.drawBit.2).bars = s.bars := rfl
@[simp] theorem State.drawBit_reportSeq (s : State) : (s.drawBit.2).reportSeq = s.reportSeq := rfl
@[simp] theorem State.drawBit_epoch (s : State) : (s.drawBit.2).epoch = s.epoch := rfl
@[simp] theorem State.drawBit_erased (s : State) : (s.drawBit.2).erased = s.erased := rfl
@[simp] theorem State.drawBit_keyEpoch (s : State) : (s.drawBit.2).keyEpoch = s.keyEpoch := rfl
@[simp] theorem State.drawBit_quarantined (s : State) : (s.drawBit.2).quarantined = s.quarantined := rfl
@[simp] theorem State.drawBit_inReset (s : State) : (s.drawBit.2).inReset = s.inReset := rfl
@[simp] theorem State.drawBit_budgets (s : State) : (s.drawBit.2).budgets = s.budgets := rfl
@[simp] theorem State.drawBit_nextBudgets (s : State) : (s.drawBit.2).nextBudgets = s.nextBudgets := rfl
@[simp] theorem State.drawBit_period (s : State) : (s.drawBit.2).period = s.period := rfl
@[simp] theorem State.drawBit_reply (s : State) : (s.drawBit.2).reply = s.reply := rfl
@[simp] theorem State.drawBit_replyError (s : State) : (s.drawBit.2).replyError = s.replyError := rfl
@[simp] theorem State.drawBit_retained (s : State) : (s.drawBit.2).retained = s.retained := rfl
@[simp] theorem State.drawBit_monel (s : State) : (s.drawBit.2).monel = s.monel := rfl

/-! ### drawNat -/

@[simp] theorem State.drawNat_th (s : State) : (s.drawNat.2).th = s.th := rfl
@[simp] theorem State.drawNat_others (s : State) : (s.drawNat.2).others = s.others := rfl
@[simp] theorem State.drawNat_agenda (s : State) : (s.drawNat.2).agenda = s.agenda := rfl
@[simp] theorem State.drawNat_ev (s : State) : (s.drawNat.2).ev = s.ev := rfl
@[simp] theorem State.drawNat_nmuAt (s : State) : (s.drawNat.2).nmuAt = s.nmuAt := rfl
@[simp] theorem State.drawNat_packets (s : State) : (s.drawNat.2).packets = s.packets := rfl
@[simp] theorem State.drawNat_clock (s : State) : (s.drawNat.2).clock = s.clock := rfl
@[simp] theorem State.drawNat_skew (s : State) : (s.drawNat.2).skew = s.skew := rfl
@[simp] theorem State.drawNat_halted (s : State) : (s.drawNat.2).halted = s.halted := rfl
@[simp] theorem State.drawNat_bootStep (s : State) : (s.drawNat.2).bootStep = s.bootStep := rfl
@[simp] theorem State.drawNat_cfg (s : State) : (s.drawNat.2).cfg = s.cfg := rfl
@[simp] theorem State.drawNat_mem (s : State) : (s.drawNat.2).mem = s.mem := rfl
@[simp] theorem State.drawNat_loc (s : State) : (s.drawNat.2).loc = s.loc := rfl
@[simp] theorem State.drawNat_keys (s : State) : (s.drawNat.2).keys = s.keys := rfl
@[simp] theorem State.drawNat_tags (s : State) : (s.drawNat.2).tags = s.tags := rfl
@[simp] theorem State.drawNat_poison (s : State) : (s.drawNat.2).poison = s.poison := rfl
@[simp] theorem State.drawNat_bad (s : State) : (s.drawNat.2).bad = s.bad := rfl
@[simp] theorem State.drawNat_weak (s : State) : (s.drawNat.2).weak = s.weak := rfl
@[simp] theorem State.drawNat_badLoc (s : State) : (s.drawNat.2).badLoc = s.badLoc := rfl
@[simp] theorem State.drawNat_icache (s : State) : (s.drawNat.2).icache = s.icache := rfl
@[simp] theorem State.drawNat_regs (s : State) : (s.drawNat.2).regs = s.regs := rfl
@[simp] theorem State.drawNat_now (s : State) : (s.drawNat.2).now = s.now := rfl
@[simp] theorem State.drawNat_locPast (s : State) : (s.drawNat.2).locPast = s.locPast := rfl
@[simp] theorem State.drawNat_memPast (s : State) : (s.drawNat.2).memPast = s.memPast := rfl
@[simp] theorem State.drawNat_tlb (s : State) : (s.drawNat.2).tlb = s.tlb := rfl
@[simp] theorem State.drawNat_walk (s : State) : (s.drawNat.2).walk = s.walk := rfl
@[simp] theorem State.drawNat_gs (s : State) : (s.drawNat.2).gs = s.gs := rfl
@[simp] theorem State.drawNat_gd (s : State) : (s.drawNat.2).gd = s.gd := rfl
@[simp] theorem State.drawNat_genSent (s : State) : (s.drawNat.2).genSent = s.genSent := rfl
@[simp] theorem State.drawNat_scans (s : State) : (s.drawNat.2).scans = s.scans := rfl
@[simp] theorem State.drawNat_gangs (s : State) : (s.drawNat.2).gangs = s.gangs := rfl
@[simp] theorem State.drawNat_ghosts (s : State) : (s.drawNat.2).ghosts = s.ghosts := rfl
@[simp] theorem State.drawNat_launches (s : State) : (s.drawNat.2).launches = s.launches := rfl
@[simp] theorem State.drawNat_nextLaunch (s : State) : (s.drawNat.2).nextLaunch = s.nextLaunch := rfl
@[simp] theorem State.drawNat_completions (s : State) : (s.drawNat.2).completions = s.completions := rfl
@[simp] theorem State.drawNat_ports (s : State) : (s.drawNat.2).ports = s.ports := rfl
@[simp] theorem State.drawNat_tenants (s : State) : (s.drawNat.2).tenants = s.tenants := rfl
@[simp] theorem State.drawNat_reserves (s : State) : (s.drawNat.2).reserves = s.reserves := rfl
@[simp] theorem State.drawNat_weights (s : State) : (s.drawNat.2).weights = s.weights := rfl
@[simp] theorem State.drawNat_charges (s : State) : (s.drawNat.2).charges = s.charges := rfl
@[simp] theorem State.drawNat_landings (s : State) : (s.drawNat.2).landings = s.landings := rfl
@[simp] theorem State.drawNat_counts (s : State) : (s.drawNat.2).counts = s.counts := rfl
@[simp] theorem State.drawNat_copyQ (s : State) : (s.drawNat.2).copyQ = s.copyQ := rfl
@[simp] theorem State.drawNat_units (s : State) : (s.drawNat.2).units = s.units := rfl
@[simp] theorem State.drawNat_drains (s : State) : (s.drawNat.2).drains = s.drains := rfl
@[simp] theorem State.drawNat_tableQ (s : State) : (s.drawNat.2).tableQ = s.tableQ := rfl
@[simp] theorem State.drawNat_nmQ (s : State) : (s.drawNat.2).nmQ = s.nmQ := rfl
@[simp] theorem State.drawNat_nmus (s : State) : (s.drawNat.2).nmus = s.nmus := rfl
@[simp] theorem State.drawNat_resumes (s : State) : (s.drawNat.2).resumes = s.resumes := rfl
@[simp] theorem State.drawNat_loads (s : State) : (s.drawNat.2).loads = s.loads := rfl
@[simp] theorem State.drawNat_indexes (s : State) : (s.drawNat.2).indexes = s.indexes := rfl
@[simp] theorem State.drawNat_ixQ (s : State) : (s.drawNat.2).ixQ = s.ixQ := rfl
@[simp] theorem State.drawNat_ixPaused (s : State) : (s.drawNat.2).ixPaused = s.ixPaused := rfl
@[simp] theorem State.drawNat_store (s : State) : (s.drawNat.2).store = s.store := rfl
@[simp] theorem State.drawNat_rings (s : State) : (s.drawNat.2).rings = s.rings := rfl
@[simp] theorem State.drawNat_usage (s : State) : (s.drawNat.2).usage = s.usage := rfl
@[simp] theorem State.drawNat_bars (s : State) : (s.drawNat.2).bars = s.bars := rfl
@[simp] theorem State.drawNat_reportSeq (s : State) : (s.drawNat.2).reportSeq = s.reportSeq := rfl
@[simp] theorem State.drawNat_epoch (s : State) : (s.drawNat.2).epoch = s.epoch := rfl
@[simp] theorem State.drawNat_erased (s : State) : (s.drawNat.2).erased = s.erased := rfl
@[simp] theorem State.drawNat_keyEpoch (s : State) : (s.drawNat.2).keyEpoch = s.keyEpoch := rfl
@[simp] theorem State.drawNat_quarantined (s : State) : (s.drawNat.2).quarantined = s.quarantined := rfl
@[simp] theorem State.drawNat_inReset (s : State) : (s.drawNat.2).inReset = s.inReset := rfl
@[simp] theorem State.drawNat_budgets (s : State) : (s.drawNat.2).budgets = s.budgets := rfl
@[simp] theorem State.drawNat_nextBudgets (s : State) : (s.drawNat.2).nextBudgets = s.nextBudgets := rfl
@[simp] theorem State.drawNat_period (s : State) : (s.drawNat.2).period = s.period := rfl
@[simp] theorem State.drawNat_reply (s : State) : (s.drawNat.2).reply = s.reply := rfl
@[simp] theorem State.drawNat_replyError (s : State) : (s.drawNat.2).replyError = s.replyError := rfl
@[simp] theorem State.drawNat_retained (s : State) : (s.drawNat.2).retained = s.retained := rfl
@[simp] theorem State.drawNat_monel (s : State) : (s.drawNat.2).monel = s.monel := rfl

/-! ### putUnit -/

@[simp] theorem State.putUnit_th (s : State) (c : Nat) (u : MatrixUnit) : (s.putUnit c u).th = s.th := rfl
@[simp] theorem State.putUnit_others (s : State) (c : Nat) (u : MatrixUnit) : (s.putUnit c u).others = s.others := rfl
@[simp] theorem State.putUnit_agenda (s : State) (c : Nat) (u : MatrixUnit) : (s.putUnit c u).agenda = s.agenda := rfl
@[simp] theorem State.putUnit_ev (s : State) (c : Nat) (u : MatrixUnit) : (s.putUnit c u).ev = s.ev := rfl
@[simp] theorem State.putUnit_nmuAt (s : State) (c : Nat) (u : MatrixUnit) : (s.putUnit c u).nmuAt = s.nmuAt := rfl
@[simp] theorem State.putUnit_draw (s : State) (c : Nat) (u : MatrixUnit) : (s.putUnit c u).draw = s.draw := rfl
@[simp] theorem State.putUnit_packets (s : State) (c : Nat) (u : MatrixUnit) : (s.putUnit c u).packets = s.packets := rfl
@[simp] theorem State.putUnit_clock (s : State) (c : Nat) (u : MatrixUnit) : (s.putUnit c u).clock = s.clock := rfl
@[simp] theorem State.putUnit_skew (s : State) (c : Nat) (u : MatrixUnit) : (s.putUnit c u).skew = s.skew := rfl
@[simp] theorem State.putUnit_halted (s : State) (c : Nat) (u : MatrixUnit) : (s.putUnit c u).halted = s.halted := rfl
@[simp] theorem State.putUnit_bootStep (s : State) (c : Nat) (u : MatrixUnit) : (s.putUnit c u).bootStep = s.bootStep := rfl
@[simp] theorem State.putUnit_cfg (s : State) (c : Nat) (u : MatrixUnit) : (s.putUnit c u).cfg = s.cfg := rfl
@[simp] theorem State.putUnit_mem (s : State) (c : Nat) (u : MatrixUnit) : (s.putUnit c u).mem = s.mem := rfl
@[simp] theorem State.putUnit_loc (s : State) (c : Nat) (u : MatrixUnit) : (s.putUnit c u).loc = s.loc := rfl
@[simp] theorem State.putUnit_keys (s : State) (c : Nat) (u : MatrixUnit) : (s.putUnit c u).keys = s.keys := rfl
@[simp] theorem State.putUnit_tags (s : State) (c : Nat) (u : MatrixUnit) : (s.putUnit c u).tags = s.tags := rfl
@[simp] theorem State.putUnit_poison (s : State) (c : Nat) (u : MatrixUnit) : (s.putUnit c u).poison = s.poison := rfl
@[simp] theorem State.putUnit_bad (s : State) (c : Nat) (u : MatrixUnit) : (s.putUnit c u).bad = s.bad := rfl
@[simp] theorem State.putUnit_weak (s : State) (c : Nat) (u : MatrixUnit) : (s.putUnit c u).weak = s.weak := rfl
@[simp] theorem State.putUnit_badLoc (s : State) (c : Nat) (u : MatrixUnit) : (s.putUnit c u).badLoc = s.badLoc := rfl
@[simp] theorem State.putUnit_icache (s : State) (c : Nat) (u : MatrixUnit) : (s.putUnit c u).icache = s.icache := rfl
@[simp] theorem State.putUnit_regs (s : State) (c : Nat) (u : MatrixUnit) : (s.putUnit c u).regs = s.regs := rfl
@[simp] theorem State.putUnit_now (s : State) (c : Nat) (u : MatrixUnit) : (s.putUnit c u).now = s.now := rfl
@[simp] theorem State.putUnit_locPast (s : State) (c : Nat) (u : MatrixUnit) : (s.putUnit c u).locPast = s.locPast := rfl
@[simp] theorem State.putUnit_memPast (s : State) (c : Nat) (u : MatrixUnit) : (s.putUnit c u).memPast = s.memPast := rfl
@[simp] theorem State.putUnit_tlb (s : State) (c : Nat) (u : MatrixUnit) : (s.putUnit c u).tlb = s.tlb := rfl
@[simp] theorem State.putUnit_walk (s : State) (c : Nat) (u : MatrixUnit) : (s.putUnit c u).walk = s.walk := rfl
@[simp] theorem State.putUnit_gs (s : State) (c : Nat) (u : MatrixUnit) : (s.putUnit c u).gs = s.gs := rfl
@[simp] theorem State.putUnit_gd (s : State) (c : Nat) (u : MatrixUnit) : (s.putUnit c u).gd = s.gd := rfl
@[simp] theorem State.putUnit_genSent (s : State) (c : Nat) (u : MatrixUnit) : (s.putUnit c u).genSent = s.genSent := rfl
@[simp] theorem State.putUnit_scans (s : State) (c : Nat) (u : MatrixUnit) : (s.putUnit c u).scans = s.scans := rfl
@[simp] theorem State.putUnit_gangs (s : State) (c : Nat) (u : MatrixUnit) : (s.putUnit c u).gangs = s.gangs := rfl
@[simp] theorem State.putUnit_ghosts (s : State) (c : Nat) (u : MatrixUnit) : (s.putUnit c u).ghosts = s.ghosts := rfl
@[simp] theorem State.putUnit_launches (s : State) (c : Nat) (u : MatrixUnit) : (s.putUnit c u).launches = s.launches := rfl
@[simp] theorem State.putUnit_nextLaunch (s : State) (c : Nat) (u : MatrixUnit) : (s.putUnit c u).nextLaunch = s.nextLaunch := rfl
@[simp] theorem State.putUnit_completions (s : State) (c : Nat) (u : MatrixUnit) : (s.putUnit c u).completions = s.completions := rfl
@[simp] theorem State.putUnit_ports (s : State) (c : Nat) (u : MatrixUnit) : (s.putUnit c u).ports = s.ports := rfl
@[simp] theorem State.putUnit_tenants (s : State) (c : Nat) (u : MatrixUnit) : (s.putUnit c u).tenants = s.tenants := rfl
@[simp] theorem State.putUnit_reserves (s : State) (c : Nat) (u : MatrixUnit) : (s.putUnit c u).reserves = s.reserves := rfl
@[simp] theorem State.putUnit_weights (s : State) (c : Nat) (u : MatrixUnit) : (s.putUnit c u).weights = s.weights := rfl
@[simp] theorem State.putUnit_charges (s : State) (c : Nat) (u : MatrixUnit) : (s.putUnit c u).charges = s.charges := rfl
@[simp] theorem State.putUnit_landings (s : State) (c : Nat) (u : MatrixUnit) : (s.putUnit c u).landings = s.landings := rfl
@[simp] theorem State.putUnit_counts (s : State) (c : Nat) (u : MatrixUnit) : (s.putUnit c u).counts = s.counts := rfl
@[simp] theorem State.putUnit_copyQ (s : State) (c : Nat) (u : MatrixUnit) : (s.putUnit c u).copyQ = s.copyQ := rfl
@[simp] theorem State.putUnit_drains (s : State) (c : Nat) (u : MatrixUnit) : (s.putUnit c u).drains = s.drains := rfl
@[simp] theorem State.putUnit_tableQ (s : State) (c : Nat) (u : MatrixUnit) : (s.putUnit c u).tableQ = s.tableQ := rfl
@[simp] theorem State.putUnit_nmQ (s : State) (c : Nat) (u : MatrixUnit) : (s.putUnit c u).nmQ = s.nmQ := rfl
@[simp] theorem State.putUnit_nmus (s : State) (c : Nat) (u : MatrixUnit) : (s.putUnit c u).nmus = s.nmus := rfl
@[simp] theorem State.putUnit_resumes (s : State) (c : Nat) (u : MatrixUnit) : (s.putUnit c u).resumes = s.resumes := rfl
@[simp] theorem State.putUnit_loads (s : State) (c : Nat) (u : MatrixUnit) : (s.putUnit c u).loads = s.loads := rfl
@[simp] theorem State.putUnit_indexes (s : State) (c : Nat) (u : MatrixUnit) : (s.putUnit c u).indexes = s.indexes := rfl
@[simp] theorem State.putUnit_ixQ (s : State) (c : Nat) (u : MatrixUnit) : (s.putUnit c u).ixQ = s.ixQ := rfl
@[simp] theorem State.putUnit_ixPaused (s : State) (c : Nat) (u : MatrixUnit) : (s.putUnit c u).ixPaused = s.ixPaused := rfl
@[simp] theorem State.putUnit_store (s : State) (c : Nat) (u : MatrixUnit) : (s.putUnit c u).store = s.store := rfl
@[simp] theorem State.putUnit_rings (s : State) (c : Nat) (u : MatrixUnit) : (s.putUnit c u).rings = s.rings := rfl
@[simp] theorem State.putUnit_usage (s : State) (c : Nat) (u : MatrixUnit) : (s.putUnit c u).usage = s.usage := rfl
@[simp] theorem State.putUnit_bars (s : State) (c : Nat) (u : MatrixUnit) : (s.putUnit c u).bars = s.bars := rfl
@[simp] theorem State.putUnit_reportSeq (s : State) (c : Nat) (u : MatrixUnit) : (s.putUnit c u).reportSeq = s.reportSeq := rfl
@[simp] theorem State.putUnit_epoch (s : State) (c : Nat) (u : MatrixUnit) : (s.putUnit c u).epoch = s.epoch := rfl
@[simp] theorem State.putUnit_erased (s : State) (c : Nat) (u : MatrixUnit) : (s.putUnit c u).erased = s.erased := rfl
@[simp] theorem State.putUnit_keyEpoch (s : State) (c : Nat) (u : MatrixUnit) : (s.putUnit c u).keyEpoch = s.keyEpoch := rfl
@[simp] theorem State.putUnit_quarantined (s : State) (c : Nat) (u : MatrixUnit) : (s.putUnit c u).quarantined = s.quarantined := rfl
@[simp] theorem State.putUnit_inReset (s : State) (c : Nat) (u : MatrixUnit) : (s.putUnit c u).inReset = s.inReset := rfl
@[simp] theorem State.putUnit_budgets (s : State) (c : Nat) (u : MatrixUnit) : (s.putUnit c u).budgets = s.budgets := rfl
@[simp] theorem State.putUnit_nextBudgets (s : State) (c : Nat) (u : MatrixUnit) : (s.putUnit c u).nextBudgets = s.nextBudgets := rfl
@[simp] theorem State.putUnit_period (s : State) (c : Nat) (u : MatrixUnit) : (s.putUnit c u).period = s.period := rfl
@[simp] theorem State.putUnit_reply (s : State) (c : Nat) (u : MatrixUnit) : (s.putUnit c u).reply = s.reply := rfl
@[simp] theorem State.putUnit_replyError (s : State) (c : Nat) (u : MatrixUnit) : (s.putUnit c u).replyError = s.replyError := rfl
@[simp] theorem State.putUnit_retained (s : State) (c : Nat) (u : MatrixUnit) : (s.putUnit c u).retained = s.retained := rfl
@[simp] theorem State.putUnit_monel (s : State) (c : Nat) (u : MatrixUnit) : (s.putUnit c u).monel = s.monel := rfl

/-! ### putNmu -/

@[simp] theorem State.putNmu_th (s : State) (n : Nat) (u : Nmu) : (s.putNmu n u).th = s.th := rfl
@[simp] theorem State.putNmu_others (s : State) (n : Nat) (u : Nmu) : (s.putNmu n u).others = s.others := rfl
@[simp] theorem State.putNmu_agenda (s : State) (n : Nat) (u : Nmu) : (s.putNmu n u).agenda = s.agenda := rfl
@[simp] theorem State.putNmu_ev (s : State) (n : Nat) (u : Nmu) : (s.putNmu n u).ev = s.ev := rfl
@[simp] theorem State.putNmu_nmuAt (s : State) (n : Nat) (u : Nmu) : (s.putNmu n u).nmuAt = s.nmuAt := rfl
@[simp] theorem State.putNmu_draw (s : State) (n : Nat) (u : Nmu) : (s.putNmu n u).draw = s.draw := rfl
@[simp] theorem State.putNmu_packets (s : State) (n : Nat) (u : Nmu) : (s.putNmu n u).packets = s.packets := rfl
@[simp] theorem State.putNmu_clock (s : State) (n : Nat) (u : Nmu) : (s.putNmu n u).clock = s.clock := rfl
@[simp] theorem State.putNmu_skew (s : State) (n : Nat) (u : Nmu) : (s.putNmu n u).skew = s.skew := rfl
@[simp] theorem State.putNmu_halted (s : State) (n : Nat) (u : Nmu) : (s.putNmu n u).halted = s.halted := rfl
@[simp] theorem State.putNmu_bootStep (s : State) (n : Nat) (u : Nmu) : (s.putNmu n u).bootStep = s.bootStep := rfl
@[simp] theorem State.putNmu_cfg (s : State) (n : Nat) (u : Nmu) : (s.putNmu n u).cfg = s.cfg := rfl
@[simp] theorem State.putNmu_mem (s : State) (n : Nat) (u : Nmu) : (s.putNmu n u).mem = s.mem := rfl
@[simp] theorem State.putNmu_loc (s : State) (n : Nat) (u : Nmu) : (s.putNmu n u).loc = s.loc := rfl
@[simp] theorem State.putNmu_keys (s : State) (n : Nat) (u : Nmu) : (s.putNmu n u).keys = s.keys := rfl
@[simp] theorem State.putNmu_tags (s : State) (n : Nat) (u : Nmu) : (s.putNmu n u).tags = s.tags := rfl
@[simp] theorem State.putNmu_poison (s : State) (n : Nat) (u : Nmu) : (s.putNmu n u).poison = s.poison := rfl
@[simp] theorem State.putNmu_bad (s : State) (n : Nat) (u : Nmu) : (s.putNmu n u).bad = s.bad := rfl
@[simp] theorem State.putNmu_weak (s : State) (n : Nat) (u : Nmu) : (s.putNmu n u).weak = s.weak := rfl
@[simp] theorem State.putNmu_badLoc (s : State) (n : Nat) (u : Nmu) : (s.putNmu n u).badLoc = s.badLoc := rfl
@[simp] theorem State.putNmu_icache (s : State) (n : Nat) (u : Nmu) : (s.putNmu n u).icache = s.icache := rfl
@[simp] theorem State.putNmu_regs (s : State) (n : Nat) (u : Nmu) : (s.putNmu n u).regs = s.regs := rfl
@[simp] theorem State.putNmu_now (s : State) (n : Nat) (u : Nmu) : (s.putNmu n u).now = s.now := rfl
@[simp] theorem State.putNmu_locPast (s : State) (n : Nat) (u : Nmu) : (s.putNmu n u).locPast = s.locPast := rfl
@[simp] theorem State.putNmu_memPast (s : State) (n : Nat) (u : Nmu) : (s.putNmu n u).memPast = s.memPast := rfl
@[simp] theorem State.putNmu_tlb (s : State) (n : Nat) (u : Nmu) : (s.putNmu n u).tlb = s.tlb := rfl
@[simp] theorem State.putNmu_walk (s : State) (n : Nat) (u : Nmu) : (s.putNmu n u).walk = s.walk := rfl
@[simp] theorem State.putNmu_gs (s : State) (n : Nat) (u : Nmu) : (s.putNmu n u).gs = s.gs := rfl
@[simp] theorem State.putNmu_gd (s : State) (n : Nat) (u : Nmu) : (s.putNmu n u).gd = s.gd := rfl
@[simp] theorem State.putNmu_genSent (s : State) (n : Nat) (u : Nmu) : (s.putNmu n u).genSent = s.genSent := rfl
@[simp] theorem State.putNmu_scans (s : State) (n : Nat) (u : Nmu) : (s.putNmu n u).scans = s.scans := rfl
@[simp] theorem State.putNmu_gangs (s : State) (n : Nat) (u : Nmu) : (s.putNmu n u).gangs = s.gangs := rfl
@[simp] theorem State.putNmu_ghosts (s : State) (n : Nat) (u : Nmu) : (s.putNmu n u).ghosts = s.ghosts := rfl
@[simp] theorem State.putNmu_launches (s : State) (n : Nat) (u : Nmu) : (s.putNmu n u).launches = s.launches := rfl
@[simp] theorem State.putNmu_nextLaunch (s : State) (n : Nat) (u : Nmu) : (s.putNmu n u).nextLaunch = s.nextLaunch := rfl
@[simp] theorem State.putNmu_completions (s : State) (n : Nat) (u : Nmu) : (s.putNmu n u).completions = s.completions := rfl
@[simp] theorem State.putNmu_ports (s : State) (n : Nat) (u : Nmu) : (s.putNmu n u).ports = s.ports := rfl
@[simp] theorem State.putNmu_tenants (s : State) (n : Nat) (u : Nmu) : (s.putNmu n u).tenants = s.tenants := rfl
@[simp] theorem State.putNmu_reserves (s : State) (n : Nat) (u : Nmu) : (s.putNmu n u).reserves = s.reserves := rfl
@[simp] theorem State.putNmu_weights (s : State) (n : Nat) (u : Nmu) : (s.putNmu n u).weights = s.weights := rfl
@[simp] theorem State.putNmu_charges (s : State) (n : Nat) (u : Nmu) : (s.putNmu n u).charges = s.charges := rfl
@[simp] theorem State.putNmu_landings (s : State) (n : Nat) (u : Nmu) : (s.putNmu n u).landings = s.landings := rfl
@[simp] theorem State.putNmu_counts (s : State) (n : Nat) (u : Nmu) : (s.putNmu n u).counts = s.counts := rfl
@[simp] theorem State.putNmu_copyQ (s : State) (n : Nat) (u : Nmu) : (s.putNmu n u).copyQ = s.copyQ := rfl
@[simp] theorem State.putNmu_units (s : State) (n : Nat) (u : Nmu) : (s.putNmu n u).units = s.units := rfl
@[simp] theorem State.putNmu_drains (s : State) (n : Nat) (u : Nmu) : (s.putNmu n u).drains = s.drains := rfl
@[simp] theorem State.putNmu_tableQ (s : State) (n : Nat) (u : Nmu) : (s.putNmu n u).tableQ = s.tableQ := rfl
@[simp] theorem State.putNmu_nmQ (s : State) (n : Nat) (u : Nmu) : (s.putNmu n u).nmQ = s.nmQ := rfl
@[simp] theorem State.putNmu_resumes (s : State) (n : Nat) (u : Nmu) : (s.putNmu n u).resumes = s.resumes := rfl
@[simp] theorem State.putNmu_loads (s : State) (n : Nat) (u : Nmu) : (s.putNmu n u).loads = s.loads := rfl
@[simp] theorem State.putNmu_indexes (s : State) (n : Nat) (u : Nmu) : (s.putNmu n u).indexes = s.indexes := rfl
@[simp] theorem State.putNmu_ixQ (s : State) (n : Nat) (u : Nmu) : (s.putNmu n u).ixQ = s.ixQ := rfl
@[simp] theorem State.putNmu_ixPaused (s : State) (n : Nat) (u : Nmu) : (s.putNmu n u).ixPaused = s.ixPaused := rfl
@[simp] theorem State.putNmu_store (s : State) (n : Nat) (u : Nmu) : (s.putNmu n u).store = s.store := rfl
@[simp] theorem State.putNmu_rings (s : State) (n : Nat) (u : Nmu) : (s.putNmu n u).rings = s.rings := rfl
@[simp] theorem State.putNmu_usage (s : State) (n : Nat) (u : Nmu) : (s.putNmu n u).usage = s.usage := rfl
@[simp] theorem State.putNmu_bars (s : State) (n : Nat) (u : Nmu) : (s.putNmu n u).bars = s.bars := rfl
@[simp] theorem State.putNmu_reportSeq (s : State) (n : Nat) (u : Nmu) : (s.putNmu n u).reportSeq = s.reportSeq := rfl
@[simp] theorem State.putNmu_epoch (s : State) (n : Nat) (u : Nmu) : (s.putNmu n u).epoch = s.epoch := rfl
@[simp] theorem State.putNmu_erased (s : State) (n : Nat) (u : Nmu) : (s.putNmu n u).erased = s.erased := rfl
@[simp] theorem State.putNmu_keyEpoch (s : State) (n : Nat) (u : Nmu) : (s.putNmu n u).keyEpoch = s.keyEpoch := rfl
@[simp] theorem State.putNmu_quarantined (s : State) (n : Nat) (u : Nmu) : (s.putNmu n u).quarantined = s.quarantined := rfl
@[simp] theorem State.putNmu_inReset (s : State) (n : Nat) (u : Nmu) : (s.putNmu n u).inReset = s.inReset := rfl
@[simp] theorem State.putNmu_budgets (s : State) (n : Nat) (u : Nmu) : (s.putNmu n u).budgets = s.budgets := rfl
@[simp] theorem State.putNmu_nextBudgets (s : State) (n : Nat) (u : Nmu) : (s.putNmu n u).nextBudgets = s.nextBudgets := rfl
@[simp] theorem State.putNmu_period (s : State) (n : Nat) (u : Nmu) : (s.putNmu n u).period = s.period := rfl
@[simp] theorem State.putNmu_reply (s : State) (n : Nat) (u : Nmu) : (s.putNmu n u).reply = s.reply := rfl
@[simp] theorem State.putNmu_replyError (s : State) (n : Nat) (u : Nmu) : (s.putNmu n u).replyError = s.replyError := rfl
@[simp] theorem State.putNmu_retained (s : State) (n : Nat) (u : Nmu) : (s.putNmu n u).retained = s.retained := rfl
@[simp] theorem State.putNmu_monel (s : State) (n : Nat) (u : Nmu) : (s.putNmu n u).monel = s.monel := rfl

/-! ### putGang -/

@[simp] theorem State.putGang_th (s : State) (g : Gang) : (s.putGang g).th = s.th := rfl
@[simp] theorem State.putGang_others (s : State) (g : Gang) : (s.putGang g).others = s.others := rfl
@[simp] theorem State.putGang_agenda (s : State) (g : Gang) : (s.putGang g).agenda = s.agenda := rfl
@[simp] theorem State.putGang_ev (s : State) (g : Gang) : (s.putGang g).ev = s.ev := rfl
@[simp] theorem State.putGang_nmuAt (s : State) (g : Gang) : (s.putGang g).nmuAt = s.nmuAt := rfl
@[simp] theorem State.putGang_draw (s : State) (g : Gang) : (s.putGang g).draw = s.draw := rfl
@[simp] theorem State.putGang_packets (s : State) (g : Gang) : (s.putGang g).packets = s.packets := rfl
@[simp] theorem State.putGang_clock (s : State) (g : Gang) : (s.putGang g).clock = s.clock := rfl
@[simp] theorem State.putGang_skew (s : State) (g : Gang) : (s.putGang g).skew = s.skew := rfl
@[simp] theorem State.putGang_halted (s : State) (g : Gang) : (s.putGang g).halted = s.halted := rfl
@[simp] theorem State.putGang_bootStep (s : State) (g : Gang) : (s.putGang g).bootStep = s.bootStep := rfl
@[simp] theorem State.putGang_cfg (s : State) (g : Gang) : (s.putGang g).cfg = s.cfg := rfl
@[simp] theorem State.putGang_mem (s : State) (g : Gang) : (s.putGang g).mem = s.mem := rfl
@[simp] theorem State.putGang_loc (s : State) (g : Gang) : (s.putGang g).loc = s.loc := rfl
@[simp] theorem State.putGang_keys (s : State) (g : Gang) : (s.putGang g).keys = s.keys := rfl
@[simp] theorem State.putGang_tags (s : State) (g : Gang) : (s.putGang g).tags = s.tags := rfl
@[simp] theorem State.putGang_poison (s : State) (g : Gang) : (s.putGang g).poison = s.poison := rfl
@[simp] theorem State.putGang_bad (s : State) (g : Gang) : (s.putGang g).bad = s.bad := rfl
@[simp] theorem State.putGang_weak (s : State) (g : Gang) : (s.putGang g).weak = s.weak := rfl
@[simp] theorem State.putGang_badLoc (s : State) (g : Gang) : (s.putGang g).badLoc = s.badLoc := rfl
@[simp] theorem State.putGang_icache (s : State) (g : Gang) : (s.putGang g).icache = s.icache := rfl
@[simp] theorem State.putGang_regs (s : State) (g : Gang) : (s.putGang g).regs = s.regs := rfl
@[simp] theorem State.putGang_now (s : State) (g : Gang) : (s.putGang g).now = s.now := rfl
@[simp] theorem State.putGang_locPast (s : State) (g : Gang) : (s.putGang g).locPast = s.locPast := rfl
@[simp] theorem State.putGang_memPast (s : State) (g : Gang) : (s.putGang g).memPast = s.memPast := rfl
@[simp] theorem State.putGang_tlb (s : State) (g : Gang) : (s.putGang g).tlb = s.tlb := rfl
@[simp] theorem State.putGang_walk (s : State) (g : Gang) : (s.putGang g).walk = s.walk := rfl
@[simp] theorem State.putGang_gs (s : State) (g : Gang) : (s.putGang g).gs = s.gs := rfl
@[simp] theorem State.putGang_gd (s : State) (g : Gang) : (s.putGang g).gd = s.gd := rfl
@[simp] theorem State.putGang_genSent (s : State) (g : Gang) : (s.putGang g).genSent = s.genSent := rfl
@[simp] theorem State.putGang_scans (s : State) (g : Gang) : (s.putGang g).scans = s.scans := rfl
@[simp] theorem State.putGang_ghosts (s : State) (g : Gang) : (s.putGang g).ghosts = s.ghosts := rfl
@[simp] theorem State.putGang_launches (s : State) (g : Gang) : (s.putGang g).launches = s.launches := rfl
@[simp] theorem State.putGang_nextLaunch (s : State) (g : Gang) : (s.putGang g).nextLaunch = s.nextLaunch := rfl
@[simp] theorem State.putGang_completions (s : State) (g : Gang) : (s.putGang g).completions = s.completions := rfl
@[simp] theorem State.putGang_ports (s : State) (g : Gang) : (s.putGang g).ports = s.ports := rfl
@[simp] theorem State.putGang_tenants (s : State) (g : Gang) : (s.putGang g).tenants = s.tenants := rfl
@[simp] theorem State.putGang_reserves (s : State) (g : Gang) : (s.putGang g).reserves = s.reserves := rfl
@[simp] theorem State.putGang_weights (s : State) (g : Gang) : (s.putGang g).weights = s.weights := rfl
@[simp] theorem State.putGang_charges (s : State) (g : Gang) : (s.putGang g).charges = s.charges := rfl
@[simp] theorem State.putGang_landings (s : State) (g : Gang) : (s.putGang g).landings = s.landings := rfl
@[simp] theorem State.putGang_counts (s : State) (g : Gang) : (s.putGang g).counts = s.counts := rfl
@[simp] theorem State.putGang_copyQ (s : State) (g : Gang) : (s.putGang g).copyQ = s.copyQ := rfl
@[simp] theorem State.putGang_units (s : State) (g : Gang) : (s.putGang g).units = s.units := rfl
@[simp] theorem State.putGang_drains (s : State) (g : Gang) : (s.putGang g).drains = s.drains := rfl
@[simp] theorem State.putGang_tableQ (s : State) (g : Gang) : (s.putGang g).tableQ = s.tableQ := rfl
@[simp] theorem State.putGang_nmQ (s : State) (g : Gang) : (s.putGang g).nmQ = s.nmQ := rfl
@[simp] theorem State.putGang_nmus (s : State) (g : Gang) : (s.putGang g).nmus = s.nmus := rfl
@[simp] theorem State.putGang_resumes (s : State) (g : Gang) : (s.putGang g).resumes = s.resumes := rfl
@[simp] theorem State.putGang_loads (s : State) (g : Gang) : (s.putGang g).loads = s.loads := rfl
@[simp] theorem State.putGang_indexes (s : State) (g : Gang) : (s.putGang g).indexes = s.indexes := rfl
@[simp] theorem State.putGang_ixQ (s : State) (g : Gang) : (s.putGang g).ixQ = s.ixQ := rfl
@[simp] theorem State.putGang_ixPaused (s : State) (g : Gang) : (s.putGang g).ixPaused = s.ixPaused := rfl
@[simp] theorem State.putGang_store (s : State) (g : Gang) : (s.putGang g).store = s.store := rfl
@[simp] theorem State.putGang_rings (s : State) (g : Gang) : (s.putGang g).rings = s.rings := rfl
@[simp] theorem State.putGang_usage (s : State) (g : Gang) : (s.putGang g).usage = s.usage := rfl
@[simp] theorem State.putGang_bars (s : State) (g : Gang) : (s.putGang g).bars = s.bars := rfl
@[simp] theorem State.putGang_reportSeq (s : State) (g : Gang) : (s.putGang g).reportSeq = s.reportSeq := rfl
@[simp] theorem State.putGang_epoch (s : State) (g : Gang) : (s.putGang g).epoch = s.epoch := rfl
@[simp] theorem State.putGang_erased (s : State) (g : Gang) : (s.putGang g).erased = s.erased := rfl
@[simp] theorem State.putGang_keyEpoch (s : State) (g : Gang) : (s.putGang g).keyEpoch = s.keyEpoch := rfl
@[simp] theorem State.putGang_quarantined (s : State) (g : Gang) : (s.putGang g).quarantined = s.quarantined := rfl
@[simp] theorem State.putGang_inReset (s : State) (g : Gang) : (s.putGang g).inReset = s.inReset := rfl
@[simp] theorem State.putGang_budgets (s : State) (g : Gang) : (s.putGang g).budgets = s.budgets := rfl
@[simp] theorem State.putGang_nextBudgets (s : State) (g : Gang) : (s.putGang g).nextBudgets = s.nextBudgets := rfl
@[simp] theorem State.putGang_period (s : State) (g : Gang) : (s.putGang g).period = s.period := rfl
@[simp] theorem State.putGang_reply (s : State) (g : Gang) : (s.putGang g).reply = s.reply := rfl
@[simp] theorem State.putGang_replyError (s : State) (g : Gang) : (s.putGang g).replyError = s.replyError := rfl
@[simp] theorem State.putGang_retained (s : State) (g : Gang) : (s.putGang g).retained = s.retained := rfl
@[simp] theorem State.putGang_monel (s : State) (g : Gang) : (s.putGang g).monel = s.monel := rfl

/-! ### putLaunch -/

@[simp] theorem State.putLaunch_th (s : State) (l : Launch) : (s.putLaunch l).th = s.th := rfl
@[simp] theorem State.putLaunch_others (s : State) (l : Launch) : (s.putLaunch l).others = s.others := rfl
@[simp] theorem State.putLaunch_agenda (s : State) (l : Launch) : (s.putLaunch l).agenda = s.agenda := rfl
@[simp] theorem State.putLaunch_ev (s : State) (l : Launch) : (s.putLaunch l).ev = s.ev := rfl
@[simp] theorem State.putLaunch_nmuAt (s : State) (l : Launch) : (s.putLaunch l).nmuAt = s.nmuAt := rfl
@[simp] theorem State.putLaunch_draw (s : State) (l : Launch) : (s.putLaunch l).draw = s.draw := rfl
@[simp] theorem State.putLaunch_packets (s : State) (l : Launch) : (s.putLaunch l).packets = s.packets := rfl
@[simp] theorem State.putLaunch_clock (s : State) (l : Launch) : (s.putLaunch l).clock = s.clock := rfl
@[simp] theorem State.putLaunch_skew (s : State) (l : Launch) : (s.putLaunch l).skew = s.skew := rfl
@[simp] theorem State.putLaunch_halted (s : State) (l : Launch) : (s.putLaunch l).halted = s.halted := rfl
@[simp] theorem State.putLaunch_bootStep (s : State) (l : Launch) : (s.putLaunch l).bootStep = s.bootStep := rfl
@[simp] theorem State.putLaunch_cfg (s : State) (l : Launch) : (s.putLaunch l).cfg = s.cfg := rfl
@[simp] theorem State.putLaunch_mem (s : State) (l : Launch) : (s.putLaunch l).mem = s.mem := rfl
@[simp] theorem State.putLaunch_loc (s : State) (l : Launch) : (s.putLaunch l).loc = s.loc := rfl
@[simp] theorem State.putLaunch_keys (s : State) (l : Launch) : (s.putLaunch l).keys = s.keys := rfl
@[simp] theorem State.putLaunch_tags (s : State) (l : Launch) : (s.putLaunch l).tags = s.tags := rfl
@[simp] theorem State.putLaunch_poison (s : State) (l : Launch) : (s.putLaunch l).poison = s.poison := rfl
@[simp] theorem State.putLaunch_bad (s : State) (l : Launch) : (s.putLaunch l).bad = s.bad := rfl
@[simp] theorem State.putLaunch_weak (s : State) (l : Launch) : (s.putLaunch l).weak = s.weak := rfl
@[simp] theorem State.putLaunch_badLoc (s : State) (l : Launch) : (s.putLaunch l).badLoc = s.badLoc := rfl
@[simp] theorem State.putLaunch_icache (s : State) (l : Launch) : (s.putLaunch l).icache = s.icache := rfl
@[simp] theorem State.putLaunch_regs (s : State) (l : Launch) : (s.putLaunch l).regs = s.regs := rfl
@[simp] theorem State.putLaunch_now (s : State) (l : Launch) : (s.putLaunch l).now = s.now := rfl
@[simp] theorem State.putLaunch_locPast (s : State) (l : Launch) : (s.putLaunch l).locPast = s.locPast := rfl
@[simp] theorem State.putLaunch_memPast (s : State) (l : Launch) : (s.putLaunch l).memPast = s.memPast := rfl
@[simp] theorem State.putLaunch_tlb (s : State) (l : Launch) : (s.putLaunch l).tlb = s.tlb := rfl
@[simp] theorem State.putLaunch_walk (s : State) (l : Launch) : (s.putLaunch l).walk = s.walk := rfl
@[simp] theorem State.putLaunch_gs (s : State) (l : Launch) : (s.putLaunch l).gs = s.gs := rfl
@[simp] theorem State.putLaunch_gd (s : State) (l : Launch) : (s.putLaunch l).gd = s.gd := rfl
@[simp] theorem State.putLaunch_genSent (s : State) (l : Launch) : (s.putLaunch l).genSent = s.genSent := rfl
@[simp] theorem State.putLaunch_scans (s : State) (l : Launch) : (s.putLaunch l).scans = s.scans := rfl
@[simp] theorem State.putLaunch_gangs (s : State) (l : Launch) : (s.putLaunch l).gangs = s.gangs := rfl
@[simp] theorem State.putLaunch_ghosts (s : State) (l : Launch) : (s.putLaunch l).ghosts = s.ghosts := rfl
@[simp] theorem State.putLaunch_nextLaunch (s : State) (l : Launch) : (s.putLaunch l).nextLaunch = s.nextLaunch := rfl
@[simp] theorem State.putLaunch_completions (s : State) (l : Launch) : (s.putLaunch l).completions = s.completions := rfl
@[simp] theorem State.putLaunch_ports (s : State) (l : Launch) : (s.putLaunch l).ports = s.ports := rfl
@[simp] theorem State.putLaunch_tenants (s : State) (l : Launch) : (s.putLaunch l).tenants = s.tenants := rfl
@[simp] theorem State.putLaunch_reserves (s : State) (l : Launch) : (s.putLaunch l).reserves = s.reserves := rfl
@[simp] theorem State.putLaunch_weights (s : State) (l : Launch) : (s.putLaunch l).weights = s.weights := rfl
@[simp] theorem State.putLaunch_charges (s : State) (l : Launch) : (s.putLaunch l).charges = s.charges := rfl
@[simp] theorem State.putLaunch_landings (s : State) (l : Launch) : (s.putLaunch l).landings = s.landings := rfl
@[simp] theorem State.putLaunch_counts (s : State) (l : Launch) : (s.putLaunch l).counts = s.counts := rfl
@[simp] theorem State.putLaunch_copyQ (s : State) (l : Launch) : (s.putLaunch l).copyQ = s.copyQ := rfl
@[simp] theorem State.putLaunch_units (s : State) (l : Launch) : (s.putLaunch l).units = s.units := rfl
@[simp] theorem State.putLaunch_drains (s : State) (l : Launch) : (s.putLaunch l).drains = s.drains := rfl
@[simp] theorem State.putLaunch_tableQ (s : State) (l : Launch) : (s.putLaunch l).tableQ = s.tableQ := rfl
@[simp] theorem State.putLaunch_nmQ (s : State) (l : Launch) : (s.putLaunch l).nmQ = s.nmQ := rfl
@[simp] theorem State.putLaunch_nmus (s : State) (l : Launch) : (s.putLaunch l).nmus = s.nmus := rfl
@[simp] theorem State.putLaunch_resumes (s : State) (l : Launch) : (s.putLaunch l).resumes = s.resumes := rfl
@[simp] theorem State.putLaunch_loads (s : State) (l : Launch) : (s.putLaunch l).loads = s.loads := rfl
@[simp] theorem State.putLaunch_indexes (s : State) (l : Launch) : (s.putLaunch l).indexes = s.indexes := rfl
@[simp] theorem State.putLaunch_ixQ (s : State) (l : Launch) : (s.putLaunch l).ixQ = s.ixQ := rfl
@[simp] theorem State.putLaunch_ixPaused (s : State) (l : Launch) : (s.putLaunch l).ixPaused = s.ixPaused := rfl
@[simp] theorem State.putLaunch_store (s : State) (l : Launch) : (s.putLaunch l).store = s.store := rfl
@[simp] theorem State.putLaunch_rings (s : State) (l : Launch) : (s.putLaunch l).rings = s.rings := rfl
@[simp] theorem State.putLaunch_usage (s : State) (l : Launch) : (s.putLaunch l).usage = s.usage := rfl
@[simp] theorem State.putLaunch_bars (s : State) (l : Launch) : (s.putLaunch l).bars = s.bars := rfl
@[simp] theorem State.putLaunch_reportSeq (s : State) (l : Launch) : (s.putLaunch l).reportSeq = s.reportSeq := rfl
@[simp] theorem State.putLaunch_epoch (s : State) (l : Launch) : (s.putLaunch l).epoch = s.epoch := rfl
@[simp] theorem State.putLaunch_erased (s : State) (l : Launch) : (s.putLaunch l).erased = s.erased := rfl
@[simp] theorem State.putLaunch_keyEpoch (s : State) (l : Launch) : (s.putLaunch l).keyEpoch = s.keyEpoch := rfl
@[simp] theorem State.putLaunch_quarantined (s : State) (l : Launch) : (s.putLaunch l).quarantined = s.quarantined := rfl
@[simp] theorem State.putLaunch_inReset (s : State) (l : Launch) : (s.putLaunch l).inReset = s.inReset := rfl
@[simp] theorem State.putLaunch_budgets (s : State) (l : Launch) : (s.putLaunch l).budgets = s.budgets := rfl
@[simp] theorem State.putLaunch_nextBudgets (s : State) (l : Launch) : (s.putLaunch l).nextBudgets = s.nextBudgets := rfl
@[simp] theorem State.putLaunch_period (s : State) (l : Launch) : (s.putLaunch l).period = s.period := rfl
@[simp] theorem State.putLaunch_reply (s : State) (l : Launch) : (s.putLaunch l).reply = s.reply := rfl
@[simp] theorem State.putLaunch_replyError (s : State) (l : Launch) : (s.putLaunch l).replyError = s.replyError := rfl
@[simp] theorem State.putLaunch_retained (s : State) (l : Launch) : (s.putLaunch l).retained = s.retained := rfl
@[simp] theorem State.putLaunch_monel (s : State) (l : Launch) : (s.putLaunch l).monel = s.monel := rfl

/-! ### countRival -/

@[simp] theorem State.countRival_th (s : State) : (s.countRival).th = s.th := rfl
@[simp] theorem State.countRival_others (s : State) : (s.countRival).others = s.others := rfl
@[simp] theorem State.countRival_agenda (s : State) : (s.countRival).agenda = s.agenda := rfl
@[simp] theorem State.countRival_ev (s : State) : (s.countRival).ev = s.ev := rfl
@[simp] theorem State.countRival_nmuAt (s : State) : (s.countRival).nmuAt = s.nmuAt := rfl
@[simp] theorem State.countRival_draw (s : State) : (s.countRival).draw = s.draw := rfl
@[simp] theorem State.countRival_packets (s : State) : (s.countRival).packets = s.packets := rfl
@[simp] theorem State.countRival_clock (s : State) : (s.countRival).clock = s.clock := rfl
@[simp] theorem State.countRival_skew (s : State) : (s.countRival).skew = s.skew := rfl
@[simp] theorem State.countRival_halted (s : State) : (s.countRival).halted = s.halted := rfl
@[simp] theorem State.countRival_bootStep (s : State) : (s.countRival).bootStep = s.bootStep := rfl
@[simp] theorem State.countRival_cfg (s : State) : (s.countRival).cfg = s.cfg := rfl
@[simp] theorem State.countRival_mem (s : State) : (s.countRival).mem = s.mem := rfl
@[simp] theorem State.countRival_loc (s : State) : (s.countRival).loc = s.loc := rfl
@[simp] theorem State.countRival_keys (s : State) : (s.countRival).keys = s.keys := rfl
@[simp] theorem State.countRival_tags (s : State) : (s.countRival).tags = s.tags := rfl
@[simp] theorem State.countRival_poison (s : State) : (s.countRival).poison = s.poison := rfl
@[simp] theorem State.countRival_bad (s : State) : (s.countRival).bad = s.bad := rfl
@[simp] theorem State.countRival_weak (s : State) : (s.countRival).weak = s.weak := rfl
@[simp] theorem State.countRival_badLoc (s : State) : (s.countRival).badLoc = s.badLoc := rfl
@[simp] theorem State.countRival_icache (s : State) : (s.countRival).icache = s.icache := rfl
@[simp] theorem State.countRival_regs (s : State) : (s.countRival).regs = s.regs := rfl
@[simp] theorem State.countRival_now (s : State) : (s.countRival).now = s.now := rfl
@[simp] theorem State.countRival_locPast (s : State) : (s.countRival).locPast = s.locPast := rfl
@[simp] theorem State.countRival_memPast (s : State) : (s.countRival).memPast = s.memPast := rfl
@[simp] theorem State.countRival_tlb (s : State) : (s.countRival).tlb = s.tlb := rfl
@[simp] theorem State.countRival_walk (s : State) : (s.countRival).walk = s.walk := rfl
@[simp] theorem State.countRival_gs (s : State) : (s.countRival).gs = s.gs := rfl
@[simp] theorem State.countRival_gd (s : State) : (s.countRival).gd = s.gd := rfl
@[simp] theorem State.countRival_genSent (s : State) : (s.countRival).genSent = s.genSent := rfl
@[simp] theorem State.countRival_scans (s : State) : (s.countRival).scans = s.scans := rfl
@[simp] theorem State.countRival_gangs (s : State) : (s.countRival).gangs = s.gangs := rfl
@[simp] theorem State.countRival_ghosts (s : State) : (s.countRival).ghosts = s.ghosts := rfl
@[simp] theorem State.countRival_nextLaunch (s : State) : (s.countRival).nextLaunch = s.nextLaunch := rfl
@[simp] theorem State.countRival_completions (s : State) : (s.countRival).completions = s.completions := rfl
@[simp] theorem State.countRival_ports (s : State) : (s.countRival).ports = s.ports := rfl
@[simp] theorem State.countRival_tenants (s : State) : (s.countRival).tenants = s.tenants := rfl
@[simp] theorem State.countRival_reserves (s : State) : (s.countRival).reserves = s.reserves := rfl
@[simp] theorem State.countRival_weights (s : State) : (s.countRival).weights = s.weights := rfl
@[simp] theorem State.countRival_charges (s : State) : (s.countRival).charges = s.charges := rfl
@[simp] theorem State.countRival_landings (s : State) : (s.countRival).landings = s.landings := rfl
@[simp] theorem State.countRival_counts (s : State) : (s.countRival).counts = s.counts := rfl
@[simp] theorem State.countRival_copyQ (s : State) : (s.countRival).copyQ = s.copyQ := rfl
@[simp] theorem State.countRival_units (s : State) : (s.countRival).units = s.units := rfl
@[simp] theorem State.countRival_drains (s : State) : (s.countRival).drains = s.drains := rfl
@[simp] theorem State.countRival_tableQ (s : State) : (s.countRival).tableQ = s.tableQ := rfl
@[simp] theorem State.countRival_nmQ (s : State) : (s.countRival).nmQ = s.nmQ := rfl
@[simp] theorem State.countRival_nmus (s : State) : (s.countRival).nmus = s.nmus := rfl
@[simp] theorem State.countRival_resumes (s : State) : (s.countRival).resumes = s.resumes := rfl
@[simp] theorem State.countRival_loads (s : State) : (s.countRival).loads = s.loads := rfl
@[simp] theorem State.countRival_indexes (s : State) : (s.countRival).indexes = s.indexes := rfl
@[simp] theorem State.countRival_ixQ (s : State) : (s.countRival).ixQ = s.ixQ := rfl
@[simp] theorem State.countRival_ixPaused (s : State) : (s.countRival).ixPaused = s.ixPaused := rfl
@[simp] theorem State.countRival_store (s : State) : (s.countRival).store = s.store := rfl
@[simp] theorem State.countRival_rings (s : State) : (s.countRival).rings = s.rings := rfl
@[simp] theorem State.countRival_usage (s : State) : (s.countRival).usage = s.usage := rfl
@[simp] theorem State.countRival_bars (s : State) : (s.countRival).bars = s.bars := rfl
@[simp] theorem State.countRival_reportSeq (s : State) : (s.countRival).reportSeq = s.reportSeq := rfl
@[simp] theorem State.countRival_epoch (s : State) : (s.countRival).epoch = s.epoch := rfl
@[simp] theorem State.countRival_erased (s : State) : (s.countRival).erased = s.erased := rfl
@[simp] theorem State.countRival_keyEpoch (s : State) : (s.countRival).keyEpoch = s.keyEpoch := rfl
@[simp] theorem State.countRival_quarantined (s : State) : (s.countRival).quarantined = s.quarantined := rfl
@[simp] theorem State.countRival_inReset (s : State) : (s.countRival).inReset = s.inReset := rfl
@[simp] theorem State.countRival_budgets (s : State) : (s.countRival).budgets = s.budgets := rfl
@[simp] theorem State.countRival_nextBudgets (s : State) : (s.countRival).nextBudgets = s.nextBudgets := rfl
@[simp] theorem State.countRival_period (s : State) : (s.countRival).period = s.period := rfl
@[simp] theorem State.countRival_reply (s : State) : (s.countRival).reply = s.reply := rfl
@[simp] theorem State.countRival_replyError (s : State) : (s.countRival).replyError = s.replyError := rfl
@[simp] theorem State.countRival_retained (s : State) : (s.countRival).retained = s.retained := rfl
@[simp] theorem State.countRival_monel (s : State) : (s.countRival).monel = s.monel := rfl

/-! ### count -/

@[simp] theorem State.count_others (s : State) : (s.count).others = s.others := by unfold State.count; simp
@[simp] theorem State.count_agenda (s : State) : (s.count).agenda = s.agenda := by unfold State.count; simp
@[simp] theorem State.count_ev (s : State) : (s.count).ev = s.ev := by unfold State.count; simp
@[simp] theorem State.count_nmuAt (s : State) : (s.count).nmuAt = s.nmuAt := by unfold State.count; simp
@[simp] theorem State.count_draw (s : State) : (s.count).draw = s.draw := by unfold State.count; simp
@[simp] theorem State.count_packets (s : State) : (s.count).packets = s.packets := by unfold State.count; simp
@[simp] theorem State.count_clock (s : State) : (s.count).clock = s.clock := by unfold State.count; simp
@[simp] theorem State.count_skew (s : State) : (s.count).skew = s.skew := by unfold State.count; simp
@[simp] theorem State.count_halted (s : State) : (s.count).halted = s.halted := by unfold State.count; simp
@[simp] theorem State.count_bootStep (s : State) : (s.count).bootStep = s.bootStep := by unfold State.count; simp
@[simp] theorem State.count_cfg (s : State) : (s.count).cfg = s.cfg := by unfold State.count; simp
@[simp] theorem State.count_mem (s : State) : (s.count).mem = s.mem := by unfold State.count; simp
@[simp] theorem State.count_loc (s : State) : (s.count).loc = s.loc := by unfold State.count; simp
@[simp] theorem State.count_keys (s : State) : (s.count).keys = s.keys := by unfold State.count; simp
@[simp] theorem State.count_tags (s : State) : (s.count).tags = s.tags := by unfold State.count; simp
@[simp] theorem State.count_poison (s : State) : (s.count).poison = s.poison := by unfold State.count; simp
@[simp] theorem State.count_bad (s : State) : (s.count).bad = s.bad := by unfold State.count; simp
@[simp] theorem State.count_weak (s : State) : (s.count).weak = s.weak := by unfold State.count; simp
@[simp] theorem State.count_badLoc (s : State) : (s.count).badLoc = s.badLoc := by unfold State.count; simp
@[simp] theorem State.count_icache (s : State) : (s.count).icache = s.icache := by unfold State.count; simp
@[simp] theorem State.count_regs (s : State) : (s.count).regs = s.regs := by unfold State.count; simp
@[simp] theorem State.count_now (s : State) : (s.count).now = s.now := by unfold State.count; simp
@[simp] theorem State.count_locPast (s : State) : (s.count).locPast = s.locPast := by unfold State.count; simp
@[simp] theorem State.count_memPast (s : State) : (s.count).memPast = s.memPast := by unfold State.count; simp
@[simp] theorem State.count_tlb (s : State) : (s.count).tlb = s.tlb := by unfold State.count; simp
@[simp] theorem State.count_walk (s : State) : (s.count).walk = s.walk := by unfold State.count; simp
@[simp] theorem State.count_gs (s : State) : (s.count).gs = s.gs := by unfold State.count; simp
@[simp] theorem State.count_gd (s : State) : (s.count).gd = s.gd := by unfold State.count; simp
@[simp] theorem State.count_genSent (s : State) : (s.count).genSent = s.genSent := by unfold State.count; simp
@[simp] theorem State.count_scans (s : State) : (s.count).scans = s.scans := by unfold State.count; simp
@[simp] theorem State.count_gangs (s : State) : (s.count).gangs = s.gangs := by unfold State.count; simp
@[simp] theorem State.count_ghosts (s : State) : (s.count).ghosts = s.ghosts := by unfold State.count; simp
@[simp] theorem State.count_nextLaunch (s : State) : (s.count).nextLaunch = s.nextLaunch := by unfold State.count; simp
@[simp] theorem State.count_completions (s : State) : (s.count).completions = s.completions := by unfold State.count; simp
@[simp] theorem State.count_ports (s : State) : (s.count).ports = s.ports := by unfold State.count; simp
@[simp] theorem State.count_tenants (s : State) : (s.count).tenants = s.tenants := by unfold State.count; simp
@[simp] theorem State.count_reserves (s : State) : (s.count).reserves = s.reserves := by unfold State.count; simp
@[simp] theorem State.count_weights (s : State) : (s.count).weights = s.weights := by unfold State.count; simp
@[simp] theorem State.count_charges (s : State) : (s.count).charges = s.charges := by unfold State.count; simp
@[simp] theorem State.count_landings (s : State) : (s.count).landings = s.landings := by unfold State.count; simp
@[simp] theorem State.count_counts (s : State) : (s.count).counts = s.counts := by unfold State.count; simp
@[simp] theorem State.count_copyQ (s : State) : (s.count).copyQ = s.copyQ := by unfold State.count; simp
@[simp] theorem State.count_units (s : State) : (s.count).units = s.units := by unfold State.count; simp
@[simp] theorem State.count_drains (s : State) : (s.count).drains = s.drains := by unfold State.count; simp
@[simp] theorem State.count_tableQ (s : State) : (s.count).tableQ = s.tableQ := by unfold State.count; simp
@[simp] theorem State.count_nmQ (s : State) : (s.count).nmQ = s.nmQ := by unfold State.count; simp
@[simp] theorem State.count_nmus (s : State) : (s.count).nmus = s.nmus := by unfold State.count; simp
@[simp] theorem State.count_resumes (s : State) : (s.count).resumes = s.resumes := by unfold State.count; simp
@[simp] theorem State.count_loads (s : State) : (s.count).loads = s.loads := by unfold State.count; simp
@[simp] theorem State.count_indexes (s : State) : (s.count).indexes = s.indexes := by unfold State.count; simp
@[simp] theorem State.count_ixQ (s : State) : (s.count).ixQ = s.ixQ := by unfold State.count; simp
@[simp] theorem State.count_ixPaused (s : State) : (s.count).ixPaused = s.ixPaused := by unfold State.count; simp
@[simp] theorem State.count_store (s : State) : (s.count).store = s.store := by unfold State.count; simp
@[simp] theorem State.count_rings (s : State) : (s.count).rings = s.rings := by unfold State.count; simp
@[simp] theorem State.count_bars (s : State) : (s.count).bars = s.bars := by unfold State.count; simp
@[simp] theorem State.count_reportSeq (s : State) : (s.count).reportSeq = s.reportSeq := by unfold State.count; simp
@[simp] theorem State.count_epoch (s : State) : (s.count).epoch = s.epoch := by unfold State.count; simp
@[simp] theorem State.count_erased (s : State) : (s.count).erased = s.erased := by unfold State.count; simp
@[simp] theorem State.count_keyEpoch (s : State) : (s.count).keyEpoch = s.keyEpoch := by unfold State.count; simp
@[simp] theorem State.count_quarantined (s : State) : (s.count).quarantined = s.quarantined := by unfold State.count; simp
@[simp] theorem State.count_inReset (s : State) : (s.count).inReset = s.inReset := by unfold State.count; simp
@[simp] theorem State.count_budgets (s : State) : (s.count).budgets = s.budgets := by unfold State.count; simp
@[simp] theorem State.count_nextBudgets (s : State) : (s.count).nextBudgets = s.nextBudgets := by unfold State.count; simp
@[simp] theorem State.count_period (s : State) : (s.count).period = s.period := by unfold State.count; simp
@[simp] theorem State.count_reply (s : State) : (s.count).reply = s.reply := by unfold State.count; simp
@[simp] theorem State.count_replyError (s : State) : (s.count).replyError = s.replyError := by unfold State.count; simp
@[simp] theorem State.count_retained (s : State) : (s.count).retained = s.retained := by unfold State.count; simp
@[simp] theorem State.count_monel (s : State) : (s.count).monel = s.monel := by unfold State.count; simp

/-! ### retire -/

@[simp] theorem State.retire_others (s : State) (n : Nat) : (s.retire n).others = s.others := by unfold State.retire; simp
@[simp] theorem State.retire_agenda (s : State) (n : Nat) : (s.retire n).agenda = s.agenda := by unfold State.retire; simp
@[simp] theorem State.retire_ev (s : State) (n : Nat) : (s.retire n).ev = s.ev := by unfold State.retire; simp
@[simp] theorem State.retire_nmuAt (s : State) (n : Nat) : (s.retire n).nmuAt = s.nmuAt := by unfold State.retire; simp
@[simp] theorem State.retire_draw (s : State) (n : Nat) : (s.retire n).draw = s.draw := by unfold State.retire; simp
@[simp] theorem State.retire_packets (s : State) (n : Nat) : (s.retire n).packets = s.packets := by unfold State.retire; simp
@[simp] theorem State.retire_clock (s : State) (n : Nat) : (s.retire n).clock = s.clock := by unfold State.retire; simp
@[simp] theorem State.retire_skew (s : State) (n : Nat) : (s.retire n).skew = s.skew := by unfold State.retire; simp
@[simp] theorem State.retire_halted (s : State) (n : Nat) : (s.retire n).halted = s.halted := by unfold State.retire; simp
@[simp] theorem State.retire_bootStep (s : State) (n : Nat) : (s.retire n).bootStep = s.bootStep := by unfold State.retire; simp
@[simp] theorem State.retire_cfg (s : State) (n : Nat) : (s.retire n).cfg = s.cfg := by unfold State.retire; simp
@[simp] theorem State.retire_mem (s : State) (n : Nat) : (s.retire n).mem = s.mem := by unfold State.retire; simp
@[simp] theorem State.retire_loc (s : State) (n : Nat) : (s.retire n).loc = s.loc := by unfold State.retire; simp
@[simp] theorem State.retire_keys (s : State) (n : Nat) : (s.retire n).keys = s.keys := by unfold State.retire; simp
@[simp] theorem State.retire_tags (s : State) (n : Nat) : (s.retire n).tags = s.tags := by unfold State.retire; simp
@[simp] theorem State.retire_poison (s : State) (n : Nat) : (s.retire n).poison = s.poison := by unfold State.retire; simp
@[simp] theorem State.retire_bad (s : State) (n : Nat) : (s.retire n).bad = s.bad := by unfold State.retire; simp
@[simp] theorem State.retire_weak (s : State) (n : Nat) : (s.retire n).weak = s.weak := by unfold State.retire; simp
@[simp] theorem State.retire_badLoc (s : State) (n : Nat) : (s.retire n).badLoc = s.badLoc := by unfold State.retire; simp
@[simp] theorem State.retire_icache (s : State) (n : Nat) : (s.retire n).icache = s.icache := by unfold State.retire; simp
@[simp] theorem State.retire_regs (s : State) (n : Nat) : (s.retire n).regs = s.regs := by unfold State.retire; simp
@[simp] theorem State.retire_now (s : State) (n : Nat) : (s.retire n).now = s.now := by unfold State.retire; simp
@[simp] theorem State.retire_locPast (s : State) (n : Nat) : (s.retire n).locPast = s.locPast := by unfold State.retire; simp
@[simp] theorem State.retire_memPast (s : State) (n : Nat) : (s.retire n).memPast = s.memPast := by unfold State.retire; simp
@[simp] theorem State.retire_tlb (s : State) (n : Nat) : (s.retire n).tlb = s.tlb := by unfold State.retire; simp
@[simp] theorem State.retire_walk (s : State) (n : Nat) : (s.retire n).walk = s.walk := by unfold State.retire; simp
@[simp] theorem State.retire_gs (s : State) (n : Nat) : (s.retire n).gs = s.gs := by unfold State.retire; simp
@[simp] theorem State.retire_gd (s : State) (n : Nat) : (s.retire n).gd = s.gd := by unfold State.retire; simp
@[simp] theorem State.retire_genSent (s : State) (n : Nat) : (s.retire n).genSent = s.genSent := by unfold State.retire; simp
@[simp] theorem State.retire_scans (s : State) (n : Nat) : (s.retire n).scans = s.scans := by unfold State.retire; simp
@[simp] theorem State.retire_gangs (s : State) (n : Nat) : (s.retire n).gangs = s.gangs := by unfold State.retire; simp
@[simp] theorem State.retire_ghosts (s : State) (n : Nat) : (s.retire n).ghosts = s.ghosts := by unfold State.retire; simp
@[simp] theorem State.retire_nextLaunch (s : State) (n : Nat) : (s.retire n).nextLaunch = s.nextLaunch := by unfold State.retire; simp
@[simp] theorem State.retire_completions (s : State) (n : Nat) : (s.retire n).completions = s.completions := by unfold State.retire; simp
@[simp] theorem State.retire_ports (s : State) (n : Nat) : (s.retire n).ports = s.ports := by unfold State.retire; simp
@[simp] theorem State.retire_tenants (s : State) (n : Nat) : (s.retire n).tenants = s.tenants := by unfold State.retire; simp
@[simp] theorem State.retire_reserves (s : State) (n : Nat) : (s.retire n).reserves = s.reserves := by unfold State.retire; simp
@[simp] theorem State.retire_weights (s : State) (n : Nat) : (s.retire n).weights = s.weights := by unfold State.retire; simp
@[simp] theorem State.retire_charges (s : State) (n : Nat) : (s.retire n).charges = s.charges := by unfold State.retire; simp
@[simp] theorem State.retire_landings (s : State) (n : Nat) : (s.retire n).landings = s.landings := by unfold State.retire; simp
@[simp] theorem State.retire_counts (s : State) (n : Nat) : (s.retire n).counts = s.counts := by unfold State.retire; simp
@[simp] theorem State.retire_copyQ (s : State) (n : Nat) : (s.retire n).copyQ = s.copyQ := by unfold State.retire; simp
@[simp] theorem State.retire_units (s : State) (n : Nat) : (s.retire n).units = s.units := by unfold State.retire; simp
@[simp] theorem State.retire_drains (s : State) (n : Nat) : (s.retire n).drains = s.drains := by unfold State.retire; simp
@[simp] theorem State.retire_tableQ (s : State) (n : Nat) : (s.retire n).tableQ = s.tableQ := by unfold State.retire; simp
@[simp] theorem State.retire_nmQ (s : State) (n : Nat) : (s.retire n).nmQ = s.nmQ := by unfold State.retire; simp
@[simp] theorem State.retire_nmus (s : State) (n : Nat) : (s.retire n).nmus = s.nmus := by unfold State.retire; simp
@[simp] theorem State.retire_resumes (s : State) (n : Nat) : (s.retire n).resumes = s.resumes := by unfold State.retire; simp
@[simp] theorem State.retire_loads (s : State) (n : Nat) : (s.retire n).loads = s.loads := by unfold State.retire; simp
@[simp] theorem State.retire_indexes (s : State) (n : Nat) : (s.retire n).indexes = s.indexes := by unfold State.retire; simp
@[simp] theorem State.retire_ixQ (s : State) (n : Nat) : (s.retire n).ixQ = s.ixQ := by unfold State.retire; simp
@[simp] theorem State.retire_ixPaused (s : State) (n : Nat) : (s.retire n).ixPaused = s.ixPaused := by unfold State.retire; simp
@[simp] theorem State.retire_store (s : State) (n : Nat) : (s.retire n).store = s.store := by unfold State.retire; simp
@[simp] theorem State.retire_rings (s : State) (n : Nat) : (s.retire n).rings = s.rings := by unfold State.retire; simp
@[simp] theorem State.retire_bars (s : State) (n : Nat) : (s.retire n).bars = s.bars := by unfold State.retire; simp
@[simp] theorem State.retire_reportSeq (s : State) (n : Nat) : (s.retire n).reportSeq = s.reportSeq := by unfold State.retire; simp
@[simp] theorem State.retire_epoch (s : State) (n : Nat) : (s.retire n).epoch = s.epoch := by unfold State.retire; simp
@[simp] theorem State.retire_erased (s : State) (n : Nat) : (s.retire n).erased = s.erased := by unfold State.retire; simp
@[simp] theorem State.retire_keyEpoch (s : State) (n : Nat) : (s.retire n).keyEpoch = s.keyEpoch := by unfold State.retire; simp
@[simp] theorem State.retire_quarantined (s : State) (n : Nat) : (s.retire n).quarantined = s.quarantined := by unfold State.retire; simp
@[simp] theorem State.retire_inReset (s : State) (n : Nat) : (s.retire n).inReset = s.inReset := by unfold State.retire; simp
@[simp] theorem State.retire_budgets (s : State) (n : Nat) : (s.retire n).budgets = s.budgets := by unfold State.retire; simp
@[simp] theorem State.retire_nextBudgets (s : State) (n : Nat) : (s.retire n).nextBudgets = s.nextBudgets := by unfold State.retire; simp
@[simp] theorem State.retire_period (s : State) (n : Nat) : (s.retire n).period = s.period := by unfold State.retire; simp
@[simp] theorem State.retire_reply (s : State) (n : Nat) : (s.retire n).reply = s.reply := by unfold State.retire; simp
@[simp] theorem State.retire_replyError (s : State) (n : Nat) : (s.retire n).replyError = s.replyError := by unfold State.retire; simp
@[simp] theorem State.retire_retained (s : State) (n : Nat) : (s.retire n).retained = s.retained := by unfold State.retire; simp
@[simp] theorem State.retire_monel (s : State) (n : Nat) : (s.retire n).monel = s.monel := by unfold State.retire; simp

/-! ### retireTo -/

@[simp] theorem State.retireTo_others (s : State) (g : Word) : (s.retireTo g).others = s.others := by unfold State.retireTo; simp
@[simp] theorem State.retireTo_agenda (s : State) (g : Word) : (s.retireTo g).agenda = s.agenda := by unfold State.retireTo; simp
@[simp] theorem State.retireTo_ev (s : State) (g : Word) : (s.retireTo g).ev = s.ev := by unfold State.retireTo; simp
@[simp] theorem State.retireTo_nmuAt (s : State) (g : Word) : (s.retireTo g).nmuAt = s.nmuAt := by unfold State.retireTo; simp
@[simp] theorem State.retireTo_draw (s : State) (g : Word) : (s.retireTo g).draw = s.draw := by unfold State.retireTo; simp
@[simp] theorem State.retireTo_packets (s : State) (g : Word) : (s.retireTo g).packets = s.packets := by unfold State.retireTo; simp
@[simp] theorem State.retireTo_clock (s : State) (g : Word) : (s.retireTo g).clock = s.clock := by unfold State.retireTo; simp
@[simp] theorem State.retireTo_skew (s : State) (g : Word) : (s.retireTo g).skew = s.skew := by unfold State.retireTo; simp
@[simp] theorem State.retireTo_halted (s : State) (g : Word) : (s.retireTo g).halted = s.halted := by unfold State.retireTo; simp
@[simp] theorem State.retireTo_bootStep (s : State) (g : Word) : (s.retireTo g).bootStep = s.bootStep := by unfold State.retireTo; simp
@[simp] theorem State.retireTo_cfg (s : State) (g : Word) : (s.retireTo g).cfg = s.cfg := by unfold State.retireTo; simp
@[simp] theorem State.retireTo_mem (s : State) (g : Word) : (s.retireTo g).mem = s.mem := by unfold State.retireTo; simp
@[simp] theorem State.retireTo_loc (s : State) (g : Word) : (s.retireTo g).loc = s.loc := by unfold State.retireTo; simp
@[simp] theorem State.retireTo_keys (s : State) (g : Word) : (s.retireTo g).keys = s.keys := by unfold State.retireTo; simp
@[simp] theorem State.retireTo_tags (s : State) (g : Word) : (s.retireTo g).tags = s.tags := by unfold State.retireTo; simp
@[simp] theorem State.retireTo_poison (s : State) (g : Word) : (s.retireTo g).poison = s.poison := by unfold State.retireTo; simp
@[simp] theorem State.retireTo_bad (s : State) (g : Word) : (s.retireTo g).bad = s.bad := by unfold State.retireTo; simp
@[simp] theorem State.retireTo_weak (s : State) (g : Word) : (s.retireTo g).weak = s.weak := by unfold State.retireTo; simp
@[simp] theorem State.retireTo_badLoc (s : State) (g : Word) : (s.retireTo g).badLoc = s.badLoc := by unfold State.retireTo; simp
@[simp] theorem State.retireTo_icache (s : State) (g : Word) : (s.retireTo g).icache = s.icache := by unfold State.retireTo; simp
@[simp] theorem State.retireTo_regs (s : State) (g : Word) : (s.retireTo g).regs = s.regs := by unfold State.retireTo; simp
@[simp] theorem State.retireTo_now (s : State) (g : Word) : (s.retireTo g).now = s.now := by unfold State.retireTo; simp
@[simp] theorem State.retireTo_locPast (s : State) (g : Word) : (s.retireTo g).locPast = s.locPast := by unfold State.retireTo; simp
@[simp] theorem State.retireTo_memPast (s : State) (g : Word) : (s.retireTo g).memPast = s.memPast := by unfold State.retireTo; simp
@[simp] theorem State.retireTo_tlb (s : State) (g : Word) : (s.retireTo g).tlb = s.tlb := by unfold State.retireTo; simp
@[simp] theorem State.retireTo_walk (s : State) (g : Word) : (s.retireTo g).walk = s.walk := by unfold State.retireTo; simp
@[simp] theorem State.retireTo_gs (s : State) (g : Word) : (s.retireTo g).gs = s.gs := by unfold State.retireTo; simp
@[simp] theorem State.retireTo_gd (s : State) (g : Word) : (s.retireTo g).gd = s.gd := by unfold State.retireTo; simp
@[simp] theorem State.retireTo_genSent (s : State) (g : Word) : (s.retireTo g).genSent = s.genSent := by unfold State.retireTo; simp
@[simp] theorem State.retireTo_scans (s : State) (g : Word) : (s.retireTo g).scans = s.scans := by unfold State.retireTo; simp
@[simp] theorem State.retireTo_gangs (s : State) (g : Word) : (s.retireTo g).gangs = s.gangs := by unfold State.retireTo; simp
@[simp] theorem State.retireTo_ghosts (s : State) (g : Word) : (s.retireTo g).ghosts = s.ghosts := by unfold State.retireTo; simp
@[simp] theorem State.retireTo_nextLaunch (s : State) (g : Word) : (s.retireTo g).nextLaunch = s.nextLaunch := by unfold State.retireTo; simp
@[simp] theorem State.retireTo_completions (s : State) (g : Word) : (s.retireTo g).completions = s.completions := by unfold State.retireTo; simp
@[simp] theorem State.retireTo_ports (s : State) (g : Word) : (s.retireTo g).ports = s.ports := by unfold State.retireTo; simp
@[simp] theorem State.retireTo_tenants (s : State) (g : Word) : (s.retireTo g).tenants = s.tenants := by unfold State.retireTo; simp
@[simp] theorem State.retireTo_reserves (s : State) (g : Word) : (s.retireTo g).reserves = s.reserves := by unfold State.retireTo; simp
@[simp] theorem State.retireTo_weights (s : State) (g : Word) : (s.retireTo g).weights = s.weights := by unfold State.retireTo; simp
@[simp] theorem State.retireTo_charges (s : State) (g : Word) : (s.retireTo g).charges = s.charges := by unfold State.retireTo; simp
@[simp] theorem State.retireTo_landings (s : State) (g : Word) : (s.retireTo g).landings = s.landings := by unfold State.retireTo; simp
@[simp] theorem State.retireTo_counts (s : State) (g : Word) : (s.retireTo g).counts = s.counts := by unfold State.retireTo; simp
@[simp] theorem State.retireTo_copyQ (s : State) (g : Word) : (s.retireTo g).copyQ = s.copyQ := by unfold State.retireTo; simp
@[simp] theorem State.retireTo_units (s : State) (g : Word) : (s.retireTo g).units = s.units := by unfold State.retireTo; simp
@[simp] theorem State.retireTo_drains (s : State) (g : Word) : (s.retireTo g).drains = s.drains := by unfold State.retireTo; simp
@[simp] theorem State.retireTo_tableQ (s : State) (g : Word) : (s.retireTo g).tableQ = s.tableQ := by unfold State.retireTo; simp
@[simp] theorem State.retireTo_nmQ (s : State) (g : Word) : (s.retireTo g).nmQ = s.nmQ := by unfold State.retireTo; simp
@[simp] theorem State.retireTo_nmus (s : State) (g : Word) : (s.retireTo g).nmus = s.nmus := by unfold State.retireTo; simp
@[simp] theorem State.retireTo_resumes (s : State) (g : Word) : (s.retireTo g).resumes = s.resumes := by unfold State.retireTo; simp
@[simp] theorem State.retireTo_loads (s : State) (g : Word) : (s.retireTo g).loads = s.loads := by unfold State.retireTo; simp
@[simp] theorem State.retireTo_indexes (s : State) (g : Word) : (s.retireTo g).indexes = s.indexes := by unfold State.retireTo; simp
@[simp] theorem State.retireTo_ixQ (s : State) (g : Word) : (s.retireTo g).ixQ = s.ixQ := by unfold State.retireTo; simp
@[simp] theorem State.retireTo_ixPaused (s : State) (g : Word) : (s.retireTo g).ixPaused = s.ixPaused := by unfold State.retireTo; simp
@[simp] theorem State.retireTo_store (s : State) (g : Word) : (s.retireTo g).store = s.store := by unfold State.retireTo; simp
@[simp] theorem State.retireTo_rings (s : State) (g : Word) : (s.retireTo g).rings = s.rings := by unfold State.retireTo; simp
@[simp] theorem State.retireTo_bars (s : State) (g : Word) : (s.retireTo g).bars = s.bars := by unfold State.retireTo; simp
@[simp] theorem State.retireTo_reportSeq (s : State) (g : Word) : (s.retireTo g).reportSeq = s.reportSeq := by unfold State.retireTo; simp
@[simp] theorem State.retireTo_epoch (s : State) (g : Word) : (s.retireTo g).epoch = s.epoch := by unfold State.retireTo; simp
@[simp] theorem State.retireTo_erased (s : State) (g : Word) : (s.retireTo g).erased = s.erased := by unfold State.retireTo; simp
@[simp] theorem State.retireTo_keyEpoch (s : State) (g : Word) : (s.retireTo g).keyEpoch = s.keyEpoch := by unfold State.retireTo; simp
@[simp] theorem State.retireTo_quarantined (s : State) (g : Word) : (s.retireTo g).quarantined = s.quarantined := by unfold State.retireTo; simp
@[simp] theorem State.retireTo_inReset (s : State) (g : Word) : (s.retireTo g).inReset = s.inReset := by unfold State.retireTo; simp
@[simp] theorem State.retireTo_budgets (s : State) (g : Word) : (s.retireTo g).budgets = s.budgets := by unfold State.retireTo; simp
@[simp] theorem State.retireTo_nextBudgets (s : State) (g : Word) : (s.retireTo g).nextBudgets = s.nextBudgets := by unfold State.retireTo; simp
@[simp] theorem State.retireTo_period (s : State) (g : Word) : (s.retireTo g).period = s.period := by unfold State.retireTo; simp
@[simp] theorem State.retireTo_reply (s : State) (g : Word) : (s.retireTo g).reply = s.reply := by unfold State.retireTo; simp
@[simp] theorem State.retireTo_replyError (s : State) (g : Word) : (s.retireTo g).replyError = s.replyError := by unfold State.retireTo; simp
@[simp] theorem State.retireTo_retained (s : State) (g : Word) : (s.retireTo g).retained = s.retained := by unfold State.retireTo; simp
@[simp] theorem State.retireTo_monel (s : State) (g : Word) : (s.retireTo g).monel = s.monel := by unfold State.retireTo; simp

/-! ### retireSkip -/

@[simp] theorem State.retireSkip_others (s : State) (p g : Word) : (s.retireSkip p g).others = s.others := by unfold State.retireSkip; simp
@[simp] theorem State.retireSkip_agenda (s : State) (p g : Word) : (s.retireSkip p g).agenda = s.agenda := by unfold State.retireSkip; simp
@[simp] theorem State.retireSkip_ev (s : State) (p g : Word) : (s.retireSkip p g).ev = s.ev := by unfold State.retireSkip; simp
@[simp] theorem State.retireSkip_nmuAt (s : State) (p g : Word) : (s.retireSkip p g).nmuAt = s.nmuAt := by unfold State.retireSkip; simp
@[simp] theorem State.retireSkip_draw (s : State) (p g : Word) : (s.retireSkip p g).draw = s.draw := by unfold State.retireSkip; simp
@[simp] theorem State.retireSkip_packets (s : State) (p g : Word) : (s.retireSkip p g).packets = s.packets := by unfold State.retireSkip; simp
@[simp] theorem State.retireSkip_clock (s : State) (p g : Word) : (s.retireSkip p g).clock = s.clock := by unfold State.retireSkip; simp
@[simp] theorem State.retireSkip_skew (s : State) (p g : Word) : (s.retireSkip p g).skew = s.skew := by unfold State.retireSkip; simp
@[simp] theorem State.retireSkip_halted (s : State) (p g : Word) : (s.retireSkip p g).halted = s.halted := by unfold State.retireSkip; simp
@[simp] theorem State.retireSkip_bootStep (s : State) (p g : Word) : (s.retireSkip p g).bootStep = s.bootStep := by unfold State.retireSkip; simp
@[simp] theorem State.retireSkip_cfg (s : State) (p g : Word) : (s.retireSkip p g).cfg = s.cfg := by unfold State.retireSkip; simp
@[simp] theorem State.retireSkip_mem (s : State) (p g : Word) : (s.retireSkip p g).mem = s.mem := by unfold State.retireSkip; simp
@[simp] theorem State.retireSkip_loc (s : State) (p g : Word) : (s.retireSkip p g).loc = s.loc := by unfold State.retireSkip; simp
@[simp] theorem State.retireSkip_keys (s : State) (p g : Word) : (s.retireSkip p g).keys = s.keys := by unfold State.retireSkip; simp
@[simp] theorem State.retireSkip_tags (s : State) (p g : Word) : (s.retireSkip p g).tags = s.tags := by unfold State.retireSkip; simp
@[simp] theorem State.retireSkip_poison (s : State) (p g : Word) : (s.retireSkip p g).poison = s.poison := by unfold State.retireSkip; simp
@[simp] theorem State.retireSkip_bad (s : State) (p g : Word) : (s.retireSkip p g).bad = s.bad := by unfold State.retireSkip; simp
@[simp] theorem State.retireSkip_weak (s : State) (p g : Word) : (s.retireSkip p g).weak = s.weak := by unfold State.retireSkip; simp
@[simp] theorem State.retireSkip_badLoc (s : State) (p g : Word) : (s.retireSkip p g).badLoc = s.badLoc := by unfold State.retireSkip; simp
@[simp] theorem State.retireSkip_icache (s : State) (p g : Word) : (s.retireSkip p g).icache = s.icache := by unfold State.retireSkip; simp
@[simp] theorem State.retireSkip_regs (s : State) (p g : Word) : (s.retireSkip p g).regs = s.regs := by unfold State.retireSkip; simp
@[simp] theorem State.retireSkip_now (s : State) (p g : Word) : (s.retireSkip p g).now = s.now := by unfold State.retireSkip; simp
@[simp] theorem State.retireSkip_locPast (s : State) (p g : Word) : (s.retireSkip p g).locPast = s.locPast := by unfold State.retireSkip; simp
@[simp] theorem State.retireSkip_memPast (s : State) (p g : Word) : (s.retireSkip p g).memPast = s.memPast := by unfold State.retireSkip; simp
@[simp] theorem State.retireSkip_tlb (s : State) (p g : Word) : (s.retireSkip p g).tlb = s.tlb := by unfold State.retireSkip; simp
@[simp] theorem State.retireSkip_walk (s : State) (p g : Word) : (s.retireSkip p g).walk = s.walk := by unfold State.retireSkip; simp
@[simp] theorem State.retireSkip_gs (s : State) (p g : Word) : (s.retireSkip p g).gs = s.gs := by unfold State.retireSkip; simp
@[simp] theorem State.retireSkip_gd (s : State) (p g : Word) : (s.retireSkip p g).gd = s.gd := by unfold State.retireSkip; simp
@[simp] theorem State.retireSkip_genSent (s : State) (p g : Word) : (s.retireSkip p g).genSent = s.genSent := by unfold State.retireSkip; simp
@[simp] theorem State.retireSkip_scans (s : State) (p g : Word) : (s.retireSkip p g).scans = s.scans := by unfold State.retireSkip; simp
@[simp] theorem State.retireSkip_gangs (s : State) (p g : Word) : (s.retireSkip p g).gangs = s.gangs := by unfold State.retireSkip; simp
@[simp] theorem State.retireSkip_ghosts (s : State) (p g : Word) : (s.retireSkip p g).ghosts = s.ghosts := by unfold State.retireSkip; simp
@[simp] theorem State.retireSkip_nextLaunch (s : State) (p g : Word) : (s.retireSkip p g).nextLaunch = s.nextLaunch := by unfold State.retireSkip; simp
@[simp] theorem State.retireSkip_completions (s : State) (p g : Word) : (s.retireSkip p g).completions = s.completions := by unfold State.retireSkip; simp
@[simp] theorem State.retireSkip_ports (s : State) (p g : Word) : (s.retireSkip p g).ports = s.ports := by unfold State.retireSkip; simp
@[simp] theorem State.retireSkip_tenants (s : State) (p g : Word) : (s.retireSkip p g).tenants = s.tenants := by unfold State.retireSkip; simp
@[simp] theorem State.retireSkip_reserves (s : State) (p g : Word) : (s.retireSkip p g).reserves = s.reserves := by unfold State.retireSkip; simp
@[simp] theorem State.retireSkip_weights (s : State) (p g : Word) : (s.retireSkip p g).weights = s.weights := by unfold State.retireSkip; simp
@[simp] theorem State.retireSkip_charges (s : State) (p g : Word) : (s.retireSkip p g).charges = s.charges := by unfold State.retireSkip; simp
@[simp] theorem State.retireSkip_landings (s : State) (p g : Word) : (s.retireSkip p g).landings = s.landings := by unfold State.retireSkip; simp
@[simp] theorem State.retireSkip_counts (s : State) (p g : Word) : (s.retireSkip p g).counts = s.counts := by unfold State.retireSkip; simp
@[simp] theorem State.retireSkip_copyQ (s : State) (p g : Word) : (s.retireSkip p g).copyQ = s.copyQ := by unfold State.retireSkip; simp
@[simp] theorem State.retireSkip_units (s : State) (p g : Word) : (s.retireSkip p g).units = s.units := by unfold State.retireSkip; simp
@[simp] theorem State.retireSkip_drains (s : State) (p g : Word) : (s.retireSkip p g).drains = s.drains := by unfold State.retireSkip; simp
@[simp] theorem State.retireSkip_tableQ (s : State) (p g : Word) : (s.retireSkip p g).tableQ = s.tableQ := by unfold State.retireSkip; simp
@[simp] theorem State.retireSkip_nmQ (s : State) (p g : Word) : (s.retireSkip p g).nmQ = s.nmQ := by unfold State.retireSkip; simp
@[simp] theorem State.retireSkip_nmus (s : State) (p g : Word) : (s.retireSkip p g).nmus = s.nmus := by unfold State.retireSkip; simp
@[simp] theorem State.retireSkip_resumes (s : State) (p g : Word) : (s.retireSkip p g).resumes = s.resumes := by unfold State.retireSkip; simp
@[simp] theorem State.retireSkip_loads (s : State) (p g : Word) : (s.retireSkip p g).loads = s.loads := by unfold State.retireSkip; simp
@[simp] theorem State.retireSkip_indexes (s : State) (p g : Word) : (s.retireSkip p g).indexes = s.indexes := by unfold State.retireSkip; simp
@[simp] theorem State.retireSkip_ixQ (s : State) (p g : Word) : (s.retireSkip p g).ixQ = s.ixQ := by unfold State.retireSkip; simp
@[simp] theorem State.retireSkip_ixPaused (s : State) (p g : Word) : (s.retireSkip p g).ixPaused = s.ixPaused := by unfold State.retireSkip; simp
@[simp] theorem State.retireSkip_store (s : State) (p g : Word) : (s.retireSkip p g).store = s.store := by unfold State.retireSkip; simp
@[simp] theorem State.retireSkip_rings (s : State) (p g : Word) : (s.retireSkip p g).rings = s.rings := by unfold State.retireSkip; simp
@[simp] theorem State.retireSkip_bars (s : State) (p g : Word) : (s.retireSkip p g).bars = s.bars := by unfold State.retireSkip; simp
@[simp] theorem State.retireSkip_reportSeq (s : State) (p g : Word) : (s.retireSkip p g).reportSeq = s.reportSeq := by unfold State.retireSkip; simp
@[simp] theorem State.retireSkip_epoch (s : State) (p g : Word) : (s.retireSkip p g).epoch = s.epoch := by unfold State.retireSkip; simp
@[simp] theorem State.retireSkip_erased (s : State) (p g : Word) : (s.retireSkip p g).erased = s.erased := by unfold State.retireSkip; simp
@[simp] theorem State.retireSkip_keyEpoch (s : State) (p g : Word) : (s.retireSkip p g).keyEpoch = s.keyEpoch := by unfold State.retireSkip; simp
@[simp] theorem State.retireSkip_quarantined (s : State) (p g : Word) : (s.retireSkip p g).quarantined = s.quarantined := by unfold State.retireSkip; simp
@[simp] theorem State.retireSkip_inReset (s : State) (p g : Word) : (s.retireSkip p g).inReset = s.inReset := by unfold State.retireSkip; simp
@[simp] theorem State.retireSkip_budgets (s : State) (p g : Word) : (s.retireSkip p g).budgets = s.budgets := by unfold State.retireSkip; simp
@[simp] theorem State.retireSkip_nextBudgets (s : State) (p g : Word) : (s.retireSkip p g).nextBudgets = s.nextBudgets := by unfold State.retireSkip; simp
@[simp] theorem State.retireSkip_period (s : State) (p g : Word) : (s.retireSkip p g).period = s.period := by unfold State.retireSkip; simp
@[simp] theorem State.retireSkip_reply (s : State) (p g : Word) : (s.retireSkip p g).reply = s.reply := by unfold State.retireSkip; simp
@[simp] theorem State.retireSkip_replyError (s : State) (p g : Word) : (s.retireSkip p g).replyError = s.replyError := by unfold State.retireSkip; simp
@[simp] theorem State.retireSkip_retained (s : State) (p g : Word) : (s.retireSkip p g).retained = s.retained := by unfold State.retireSkip; simp
@[simp] theorem State.retireSkip_monel (s : State) (p g : Word) : (s.retireSkip p g).monel = s.monel := by unfold State.retireSkip; simp

/-! ### What the updates set -/

@[simp] theorem State.setTh_th (s : State) (t : Thread) : (s.setTh t).th = t := rfl
@[simp] theorem State.setF_th (s : State) (r : Reg) (v : LaneReg) :
    (s.setF r v).th = { s.th with f := s.th.f.set r v, live := s.th.live ||| (1#64 <<< (32 + r.val)) } := rfl
@[simp] theorem State.raise_th (s : State) (f : Flags) : (s.raise f).th = { s.th with fflags := s.th.fflags ||| f } := rfl
@[simp] theorem State.stall_th (s : State) : s.stall.th = { s.th with stalled := true, relWait := none } := rfl
@[simp] theorem State.stallWith_th (s : State) (bs : List Byte) :
    (s.stallWith bs).th = { s.th with stalled := true, relWait := none, latched := some bs } := rfl
@[simp] theorem State.inRelease_th (s : State) (o : Order) : (s.inRelease o).th = { s.th with relWait := some o } := rfl
@[simp] theorem State.setStream_th (s : State) (k : Fin 4) (o : Option Stream) :
    (s.setStream k o).th = { s.th with streams := s.th.streams.set k o } := rfl
@[simp] theorem State.drawBit_draw (s : State) : s.drawBit.2.draw = s.draw + 1 := rfl
@[simp] theorem State.drawNat_draw (s : State) : s.drawNat.2.draw = s.draw + 1 := rfl
@[simp] theorem State.putUnit_units (s : State) (c : Nat) (u : MatrixUnit) : (s.putUnit c u).units = Tab.put s.units c u := rfl
@[simp] theorem State.putNmu_nmus (s : State) (n : Nat) (u : Nmu) : (s.putNmu n u).nmus = Tab.put s.nmus n u := rfl

@[simp] theorem State.acquire_plain (s : State) : s.acquire .plain = s := rfl
/-- An acquire at gang scope moves what the thread has been made to see, and nothing else (R166, R186). -/
@[simp] theorem State.acquire_gang (s : State) : s.acquire .gang = { s with th := { s.th with gangSeen := s.now } } := rfl
@[simp] theorem State.renew_plain (s : State) (d : Nat) : s.renew d .plain = s := rfl
@[simp] theorem State.renew_gang (s : State) (d : Nat) : s.renew d .gang = s := rfl
@[simp] theorem State.released_plain (s : State) : s.released .plain = s := rfl
/-- A release that remembers no write to cover only advances the stamps. -/
theorem State.released_empty (s : State) (o : Order) (hl : s.locPast = []) (hm : s.memPast = []) (ho : o ≠ .plain) :
    s.released o = { s with now := s.now + 1 } := by
  cases s
  dsimp only at hl hm
  subst hl hm
  cases o <;> first | exact absurd rfl ho | rfl

/-- What retirement counts, in the thread at hand. -/
@[simp] theorem State.count_th (s : State) : s.count.th =
    { s.th with
      iret := s.th.iret + 1
      packet := s.th.packet.map (fun p => { p with instrs := p.instrs + 1 })
      relWait := none
      latched := none } := by
  unfold State.count; simp

/-- An instruction that makes no transfer, as its thread retires it. -/
theorem State.retire_th (s : State) (n : Nat) : (s.retire n).th =
    let u := loopEnd { s.th with pc := s.pcPlus n } s.th.pc
    { u with
      iret := u.iret + 1
      packet := u.packet.map (fun p => { p with instrs := p.instrs + 1 })
      relWait := none
      latched := none } := by
  unfold State.retire; simp

/-- A transfer, as its thread retires it. -/
theorem State.retireTo_th (s : State) (g : Word) : (s.retireTo g).th =
    let u := loopLeave { s.th with pc := g } g
    { u with
      iret := u.iret + 1
      packet := u.packet.map (fun p => { p with instrs := p.instrs + 1 })
      relWait := none
      latched := none } := by
  unfold State.retireTo; simp

end Sys2Proof.Machine
end

