-- ==== Sys2Proof/Laws/Tab.lean ====
section
/-!
SUPPORT. Sys2Proof/Laws/Tab.lean: what the operations on sparse tables and on byte memory do: a read after a write, and the
canonical form, which every memory operation keeps.
-/
namespace Sys2Proof.Machine

/-! ### Tables -/

/-- An entry just set is found, in any table whatever its order. -/
@[simp] theorem Tab.find_put_self {α : Type} (t : Tab α) (k : Nat) (v : α) : Tab.find (Tab.put t k v) k = some v := by
  induction t with
  | nil => simp [Tab.put, Tab.find]
  | cons e r ih =>
    obtain ⟨b, w⟩ := e
    simp only [Tab.put]
    split
    · simp [Tab.find]
    · split
      · simp [Tab.find]
      · rename_i h1 h2; simp [Tab.find, h2, ih]

/-- Setting one entry leaves the others, in any table whatever its order. -/
theorem Tab.find_put_ne {α : Type} (t : Tab α) (k j : Nat) (v : α) (h : j ≠ k) : Tab.find (Tab.put t k v) j = Tab.find t j := by
  induction t with
  | nil => simp [Tab.put, Tab.find, h]
  | cons e r ih =>
    obtain ⟨b, w⟩ := e
    simp only [Tab.put]
    split
    · simp [Tab.find, h]
    · split
      · subst_vars; simp [Tab.find, h]
      · simp only [Tab.find, ih]

@[simp] theorem Tab.get_put_self {α : Type} (t : Tab α) (k : Nat) (v d : α) : Tab.get (Tab.put t k v) k d = v := by
  simp [Tab.get]

theorem Tab.get_put_ne {α : Type} (t : Tab α) (k j : Nat) (v d : α) (h : j ≠ k) : Tab.get (Tab.put t k v) j d = Tab.get t j d := by
  simp [Tab.get, Tab.find_put_ne t k j v h]

@[simp] theorem Tab.find_nil {α : Type} (k : Nat) : Tab.find ([] : Tab α) k = none := rfl
@[simp] theorem Tab.get_nil {α : Type} (k : Nat) (d : α) : Tab.get ([] : Tab α) k d = d := rfl

/-- Dropping an entry leaves the others. -/
theorem Tab.find_drop_ne {α : Type} (t : Tab α) (k j : Nat) (h : j ≠ k) : Tab.find (Tab.drop t k) j = Tab.find t j := by
  induction t with
  | nil => rfl
  | cons e r ih =>
    obtain ⟨b, w⟩ := e
    simp only [Tab.drop]
    split
    · subst_vars; simp [Tab.find, h, ih]
    · simp only [Tab.find, ih]

/-- A dropped entry is gone. -/
@[simp] theorem Tab.find_drop_self {α : Type} (t : Tab α) (k : Nat) : Tab.find (Tab.drop t k) k = none := by
  induction t with
  | nil => rfl
  | cons e r ih =>
    obtain ⟨b, w⟩ := e
    simp only [Tab.drop]
    split
    · exact ih
    · simp only [Tab.find, ih, if_neg ‹¬k = b›]

/-- Dropping a range leaves the entries outside it. -/
theorem Tab.find_dropRange {α : Type} (t : Tab α) (lo n j : Nat) :
    Tab.find (Tab.dropRange t lo n) j = if lo ≤ j ∧ j < lo + n then none else Tab.find t j := by
  induction t with
  | nil => simp [Tab.dropRange, Tab.find]
  | cons e r ih =>
    obtain ⟨b, w⟩ := e
    simp only [Tab.dropRange, List.filter_cons] at *
    split
    · simp only [Tab.find]
      by_cases h : j = b
      · subst h; simp_all; omega
      · simp only [h, if_false, ih]
    · rw [ih]
      simp only [Tab.find]
      by_cases h : j = b
      · subst h; simp_all
      · simp [h]

/-! ### The canonical form of memory -/

/-- The canonical form as a list fact: addresses rise strictly and no byte is the default. -/
theorem Memory.wf_iff (m : Memory) : Memory.wf m = true ↔ m.Pairwise (fun a b => a.1 < b.1) ∧ ∀ e ∈ m, e.2 ≠ Memory.dflt := by
  induction m with
  | nil => simp [Memory.wf]
  | cons e r ih =>
    obtain ⟨a, v⟩ := e
    cases r with
    | nil => simp [Memory.wf]
    | cons f r =>
      obtain ⟨b, w⟩ := f
      simp only [Memory.wf, Bool.and_eq_true, decide_eq_true_eq, bne_iff_ne, ih, List.pairwise_cons]
      constructor
      · rintro ⟨⟨h1, h2⟩, ⟨h3, h4⟩, h5⟩
        refine ⟨⟨?_, h3, h4⟩, ?_⟩
        · intro x hx
          rcases List.mem_cons.mp hx with rfl | hx
          · exact h1
          · exact Nat.lt_trans h1 (h3 x hx)
        · intro x hx
          rcases List.mem_cons.mp hx with rfl | hx
          · exact h2
          · exact h5 x hx
      · rintro ⟨⟨h1, h3, h4⟩, h5⟩
        exact ⟨⟨h1 _ (List.mem_cons_self ..), h5 _ (List.mem_cons_self ..)⟩, ⟨h3, h4⟩,
          fun x hx => h5 x (List.mem_cons_of_mem _ hx)⟩

/-- Every address of a memory that a byte has been written to is that byte's or one listed before. -/
theorem Memory.mem_write (m : Memory) (a : Nat) (v : Byte) : ∀ e ∈ Memory.write m a v, e ∈ m ∨ (e = (a, v) ∧ v ≠ Memory.dflt) := by
  induction m with
  | nil => intro e; simp only [Memory.write]; split <;> simp_all
  | cons f r ih =>
    obtain ⟨b, w⟩ := f
    intro e
    simp only [Memory.write]
    split
    · split <;> simp_all
      rintro (h | h | h) <;> simp_all
    · split
      · split
        · intro h; simp_all
        · rename_i h1 h2 h3
          intro h
          rcases List.mem_cons.mp h with h | h
          · exact .inr ⟨h, h3⟩
          · exact .inl (List.mem_cons_of_mem _ h)
      · intro h
        rcases List.mem_cons.mp h with rfl | h
        · exact .inl (List.mem_cons_self ..)
        · rcases ih e h with h | h
          · exact .inl (List.mem_cons_of_mem _ h)
          · exact .inr h

/-- A write keeps the canonical form. -/
theorem Memory.wf_write (m : Memory) (a : Nat) (v : Byte) (h : Memory.wf m = true) : Memory.wf (Memory.write m a v) = true := by
  rw [Memory.wf_iff] at *
  refine ⟨?_, ?_⟩
  · obtain ⟨h, -⟩ := h
    induction m with
    | nil => simp only [Memory.write]; split <;> simp
    | cons f r ih =>
      obtain ⟨b, w⟩ := f
      obtain ⟨hb, hr⟩ := List.pairwise_cons.mp h
      simp only [Memory.write]
      split
      · split
        · exact h
        · rename_i h1 _
          refine List.pairwise_cons.mpr ⟨?_, h⟩
          intro x hx
          rcases List.mem_cons.mp hx with rfl | hx
          · exact h1
          · exact Nat.lt_trans h1 (hb x hx)
      · split
        · split
          · exact hr
          · rename_i h1 h2 _
            subst h2
            exact List.pairwise_cons.mpr ⟨hb, hr⟩
        · rename_i h1 h2
          refine List.pairwise_cons.mpr ⟨?_, ih hr⟩
          intro x hx
          rcases Memory.mem_write r a v x hx with hx | ⟨rfl, -⟩
          · exact hb x hx
          · show b < a
            omega
  · intro e he
    rcases Memory.mem_write m a v e he with he | ⟨rfl, hv⟩
    · exact h.2 e he
    · exact hv

/-- Writing a string of bytes keeps the canonical form. -/
theorem Memory.wf_writeN (bs : List Byte) : ∀ (m : Memory) (a : Nat), Memory.wf m = true → Memory.wf (Memory.writeN m a bs) = true := by
  induction bs with
  | nil => intro m a h; exact h
  | cons b r ih => intro m a h; exact ih _ _ (Memory.wf_write m a b h)

/-- Keeping some of the entries keeps the canonical form. -/
theorem Memory.wf_filter (m : Memory) (p : Host.Cell → Bool) (h : Memory.wf m = true) : Memory.wf (m.filter p) = true := by
  rw [Memory.wf_iff] at *
  exact ⟨h.1.filter p, fun e he => h.2 e (List.mem_of_mem_filter he)⟩

/-- Zeroing a range keeps the canonical form. -/
theorem Memory.wf_clear (m : Memory) (lo n : Nat) (h : Memory.wf m = true) : Memory.wf (Memory.clear m lo n) = true :=
  Memory.wf_filter m _ h

/-- Storing listed bytes keeps the canonical form. -/
theorem Memory.wf_overlay (src : Memory) : ∀ (m : Memory) (dst : Nat), Memory.wf m = true → Memory.wf (Memory.overlay m dst src) = true := by
  induction src with
  | nil => intro m dst h; exact h
  | cons e r ih => intro m dst h; exact ih _ _ (Memory.wf_write m _ _ h)

/-- Replacing a range keeps the canonical form. -/
theorem Memory.wf_place (m : Memory) (dst n : Nat) (src : Memory) (h : Memory.wf m = true) :
    Memory.wf (Memory.place m dst n src) = true :=
  Memory.wf_overlay src _ dst (Memory.wf_clear m dst n h)

/-- The empty memory has the canonical form. -/
theorem Memory.wf_nil : Memory.wf [] = true := rfl

/-- A read after a write gives the byte written at its address, and what was there elsewhere. -/
theorem Memory.read_write (m : Memory) (a j : Nat) (v : Byte) (h : Memory.wf m = true) :
    Memory.read (Memory.write m a v) j = if j = a then v else Memory.read m j := by
  obtain ⟨h, -⟩ := (Memory.wf_iff m).mp h
  have key : ∀ (m : Memory), m.Pairwise (fun a b => a.1 < b.1) →
      Tab.find (Memory.write m a v) j = if j = a then (if v = Memory.dflt then none else some v) else Tab.find m j := by
    intro m h
    induction m with
    | nil => by_cases hv : v = Memory.dflt <;> simp [Memory.write, hv, Tab.find]
    | cons f r ih =>
      obtain ⟨b, w⟩ := f
      obtain ⟨hb, hr⟩ := List.pairwise_cons.mp h
      have none_of_lt : ∀ (r : Memory) (k : Nat), (∀ x ∈ r, k < x.1) → Tab.find r k = none := by
        intro r k
        induction r with
        | nil => intro _; rfl
        | cons g r ih2 =>
          obtain ⟨c, u⟩ := g
          intro hk
          have := hk (c, u) (List.mem_cons_self ..)
          simp only [Tab.find]
          rw [if_neg (by simp only at this; omega)]
          exact ih2 (fun x hx => hk x (List.mem_cons_of_mem _ hx))
      simp only [Memory.write]
      split
      · rename_i h1
        have hn : Tab.find ((b, w) :: r) a = none := none_of_lt _ _ (by
          intro x hx
          rcases List.mem_cons.mp hx with rfl | hx
          · exact h1
          · exact Nat.lt_trans h1 (hb x hx))
        split
        · by_cases hj : j = a
          · subst hj; simp_all
          · simp [hj]
        · by_cases hj : j = a <;> simp [Tab.find, hj]
      · split
        · rename_i h1 h2
          subst h2
          have hn : Tab.find r a = none := none_of_lt _ _ hb
          split
          · by_cases hj : j = a
            · subst hj; simp_all
            · simp [Tab.find, hj]
          · by_cases hj : j = a <;> simp [Tab.find, hj]
        · rename_i h1 h2
          simp only [Tab.find, ih hr]
          by_cases hj : j = b
          · subst hj
            have : j ≠ a := by omega
            simp [this]
          · simp [hj]
  simp only [Memory.read, Tab.get, key m h]
  by_cases hj : j = a
  · by_cases hv : v = Memory.dflt <;> simp [hj, hv]
  · simp [hj]

/-- A read after a string of bytes has been written. -/
theorem Memory.read_writeN (bs : List Byte) : ∀ (m : Memory) (a j : Nat), Memory.wf m = true →
    Memory.read (Memory.writeN m a bs) j = if a ≤ j ∧ j < a + bs.length then bs.getD (j - a) 0 else Memory.read m j := by
  induction bs with
  | nil => intro m a j h; rw [if_neg (by simp)]; rfl
  | cons b r ih =>
    intro m a j h
    simp only [Memory.writeN]
    rw [ih _ _ _ (Memory.wf_write m a b h), Memory.read_write m a j b h]
    by_cases h1 : a + 1 ≤ j ∧ j < a + 1 + r.length
    · rw [if_pos h1, if_pos (by simp only [List.length_cons]; omega)]
      have : j - a = (j - (a + 1)) + 1 := by omega
      simp [this]
    · rw [if_neg h1]
      by_cases h2 : j = a
      · subst h2; simp
      · rw [if_neg h2, if_neg (by simp only [List.length_cons]; omega)]

/-- A read after a range has been zeroed. -/
theorem Memory.read_clear (m : Memory) (lo n j : Nat) :
    Memory.read (Memory.clear m lo n) j = if lo ≤ j ∧ j < lo + n then Memory.dflt else Memory.read m j := by
  simp only [Memory.read, Tab.get, Memory.clear, Tab.find_dropRange]
  by_cases h : lo ≤ j ∧ j < lo + n <;> simp [h]

end Sys2Proof.Machine
end

