-- ==== Sys2Proof/Laws/Regs.lean ====
section
/-!
SUPPORT. Sys2Proof/Laws/Regs.lean: what the operations on registers and the retirement of an instruction do.
-/
namespace Sys2Proof.Machine

/-! ### Registers -/

/-- A read of an x register after a write. -/
theorem State.getX_setX (s : State) (d r : Reg) (v : Word) : (s.setX d v).getX r = if r = d ∧ d ≠ 0 then v else s.getX r := by
  unfold State.getX State.setX
  by_cases hr : r = 0
  · subst hr
    by_cases hd : d = 0
    · simp [hd]
    · simp only [↓reduceIte]
      rw [if_neg]
      rintro ⟨h, -⟩
      exact hd h.symm
  · by_cases hd : d = 0
    · subst hd; simp
    · simp only [hr, hd, ↓reduceIte, ne_eq, not_false_eq_true, and_true]
      by_cases h : r = d
      · subst h; simp
      · have h' : d.val ≠ r.val := fun e => h (Fin.ext e.symm)
        simp only [h, ↓reduceIte]
        exact Vector.getElem_set_ne _ _ h'

/-- A read of an f register after a write. -/
theorem State.getF_setF (s : State) (d r : Reg) (v : LaneReg) : (s.setF d v).getF r = if r = d then v else s.getF r := by
  unfold State.getF State.setF
  by_cases h : r = d
  · subst h; simp
  · have h' : d.val ≠ r.val := fun e => h (Fin.ext e.symm)
    simp only [h, ↓reduceIte]
    exact Vector.getElem_set_ne _ _ h'

/-- A write of an x register changes the x registers and the live mask alone. -/
theorem State.setX_th (s : State) (d : Reg) (v : Word) :
    (s.setX d v).th = { s.th with x := (s.setX d v).th.x, live := (s.setX d v).th.live } := by
  unfold State.setX; split <;> rfl

/-- What a write of an x register makes live (R123). -/
theorem State.setX_live (s : State) (d : Reg) (v : Word) :
    (s.setX d v).th.live = if d = 0 then s.th.live else s.th.live ||| (1#64 <<< d.val) := by
  unfold State.setX; split <;> rfl

/-! ### Retirement -/

/-- The end check of a loop changes the PC and loop state alone. -/
theorem loopEnd_eq (t : Thread) (p : Word) :
    loopEnd t p = { t with pc := (loopEnd t p).pc, loop0 := (loopEnd t p).loop0, loop1 := (loopEnd t p).loop1 } := by
  unfold loopEnd
  dsimp only
  split
  · split
    · split
      · rfl
      · split
        · split <;> rfl
        · rfl
    · rfl
  · split
    · split <;> rfl
    · rfl

/-- Where no level ends, the end check changes nothing. -/
theorem loopEnd_plain (t : Thread) (p : Word) (h : t.plainAt p) : loopEnd t p = t := by
  obtain ⟨h0, h1⟩ := h
  unfold loopEnd
  dsimp only
  by_cases hf : t.loop1.flag = true
  · rw [if_pos hf, if_neg (fun h => h1 ⟨hf, h⟩)]
  · rw [if_neg hf, if_neg h0]

/-- Everything that the retirement of an instruction which makes no transfer does. -/
theorem State.retire_spec (s : State) (n : Nat) :
    KeepsBesidePc s.th (s.retire n).th ∧ Retires s (s.retire n) n ∧ KeepsOutside s (s.retire n) ∧ KeepsBytes s (s.retire n) := by
  refine ⟨?_, ⟨?_, ?_⟩, ?_, fun a => ⟨by simp, by simp⟩⟩
  · unfold KeepsBesidePc
    rw [State.retire_th]
    dsimp only
    rw [loopEnd_eq]
  · rw [State.retire_th]
    dsimp only
    rw [loopEnd_eq]
  · intro h
    rw [State.retire_th]
    dsimp only
    rw [loopEnd_plain { s.th with pc := s.pcPlus n } _ h]
    exact ⟨rfl, rfl, rfl⟩
  · have h : (loopEnd { s.th with pc := s.pcPlus n } s.th.pc).ident = s.th.ident := by rw [loopEnd_eq]
    unfold KeepsOutside State.retire State.count State.countRival State.launchesCounted State.use State.setTh
    dsimp only
    rw [h]

/-- Retirement leaves the x registers. -/
@[simp] theorem State.getX_retire (s : State) (n : Nat) (r : Reg) : (s.retire n).getX r = s.getX r := by
  have h := (s.retire_spec n).1
  unfold KeepsBesidePc at h
  unfold State.getX
  rw [h]

/-- Retirement leaves the f registers. -/
@[simp] theorem State.getF_retire (s : State) (n : Nat) (r : Reg) : (s.retire n).getF r = s.getF r := by
  have h := (s.retire_spec n).1
  unfold KeepsBesidePc at h
  unfold State.getF
  rw [h]

/-- Writing a result in x[d] and retiring changes x[d] alone. -/
theorem State.result_spec (s : State) (d : Reg) (v : Word) : WritesX s (.next (s.result d v)) d v := by
  have hr := (s.setX d v).retire_spec 4
  have hx := s.setX_th d v
  refine ⟨_, rfl, fun r => ?_, ?_, ?_, ⟨?_, ?_⟩, ?_, fun a => ⟨by simp [State.result], by simp [State.result]⟩⟩
  · rw [State.result, State.getX_retire, State.getX_setX]
  · have := hr.1
    unfold KeepsBesidePc at this
    rw [State.result, this]
    exact s.setX_live d v
  · have := hr.1
    unfold KeepsBesidePc at this
    unfold KeepsBesideX
    rw [State.result, this]
    dsimp only
    rw [hx]
  · have := hr.2.1.1
    rw [State.result, this, hx]
  · intro h
    have hp : (s.setX d v).th.plainAt (s.setX d v).th.pc := by rw [hx]; exact h
    obtain ⟨h1, h2, h3⟩ := hr.2.1.2 hp
    refine ⟨?_, ?_, ?_⟩
    · rw [State.result, h1]; unfold State.pcPlus; rw [hx]
    · rw [State.result, h2, hx]
    · rw [State.result, h3, hx]
  · have h := hr.2.2.1
    unfold KeepsOutside at *
    rw [State.result, h]
    unfold State.setX
    split <;> rfl

/-- An instruction that only retires. -/
theorem State.retire_nothing (s : State) : WritesNothing s (.next (s.retire 4)) :=
  ⟨_, rfl, (s.retire_spec 4).1, (s.retire_spec 4).2.1, (s.retire_spec 4).2.2.1, (s.retire_spec 4).2.2.2⟩

end Sys2Proof.Machine
end

