-- ==== Sys2Proof/Laws/Words.lean ====
section
/-!
SUPPORT. Sys2Proof/Laws/Words.lean: fields and digits of words: what the counts of R72 and the lanes of a register are made of.
-/
namespace Sys2Proof.Machine

/-! ### Digits -/

/-- A sum of digits below `B`, each at its power: it stays below the next power, and every digit can be read back. -/
theorem digits_fold (B : Nat) (hB : 0 < B) (a : Nat → Nat) (ha : ∀ k, a k < B) (m : Nat) :
    (List.range m).foldl (fun acc k => acc + a k * B ^ k) 0 < B ^ m ∧
      ∀ k < m, (List.range m).foldl (fun acc k => acc + a k * B ^ k) 0 / B ^ k % B = a k := by
  induction m with
  | zero => simp
  | succ m ih =>
    obtain ⟨h1, h2⟩ := ih
    rw [List.range_succ, List.foldl_append]
    simp only [List.foldl_cons, List.foldl_nil]
    generalize (List.range m).foldl (fun acc k => acc + a k * B ^ k) 0 = S at h1 h2 ⊢
    refine ⟨?_, ?_⟩
    · rw [Nat.pow_succ]
      have := ha m
      calc S + a m * B ^ m < B ^ m + a m * B ^ m := by omega
        _ = (a m + 1) * B ^ m := by ring
        _ ≤ B * B ^ m := Nat.mul_le_mul_right _ this
        _ = B ^ m * B := by ring
    · intro k hk
      by_cases h : k = m
      · subst h
        rw [Nat.add_mul_div_right _ _ (Nat.pow_pos hB), Nat.div_eq_of_lt h1, Nat.zero_add, Nat.mod_eq_of_lt (ha k)]
      · have hk : k < m := by omega
        rw [← h2 k hk]
        obtain ⟨j, rfl⟩ : ∃ j, m = k + (j + 1) := ⟨m - k - 1, by omega⟩
        rw [Nat.pow_add, show a (k + (j + 1)) * (B ^ k * B ^ (j + 1)) = a (k + (j + 1)) * B ^ (j + 1) * B ^ k by ring,
          Nat.add_mul_div_right _ _ (Nat.pow_pos hB), Nat.pow_succ, ← Nat.mul_assoc, Nat.add_mul_mod_self_right]

/-- Bits of an element. -/
theorem elemBits_cases (ew : ElemWidth) : elemBits ew = 8 ∨ elemBits ew = 16 ∨ elemBits ew = 32 ∨ elemBits ew = 64 := by
  cases ew <;> simp [elemBits]

/-- An element of a per-element result is `f` of the element (R72). -/
theorem fld_perElement (ew : ElemWidth) (f : Nat → Nat → Nat) (v : Word) (hf : ∀ e < 2 ^ elemBits ew, f (elemBits ew) e < 2 ^ elemBits ew)
    (k : Nat) (hk : k < 64 / elemBits ew) :
    fld (perElement ew f v).toNat (elemBits ew * k) (elemBits ew) = f (elemBits ew) (fld v.toNat (elemBits ew * k) (elemBits ew)) := by
  have ha : ∀ j, f (elemBits ew) (fld v.toNat (elemBits ew * j) (elemBits ew)) < 2 ^ elemBits ew :=
    fun j => hf _ (Nat.mod_lt _ (Nat.two_pow_pos _))
  obtain ⟨h1, h2⟩ := digits_fold (2 ^ elemBits ew) (Nat.two_pow_pos _) _ ha (64 / elemBits ew)
  have hp : (2 ^ elemBits ew) ^ (64 / elemBits ew) = 2 ^ 64 := by
    rcases elemBits_cases ew with h | h | h | h <;> rw [h] <;> norm_num
  rw [hp] at h1
  simp only [perElement, Nat.pow_mul, BitVec.toNat_ofNat]
  rw [Nat.mod_eq_of_lt h1]
  unfold fld at *
  rw [Nat.pow_mul, h2 k hk, Nat.pow_mul]

/-! ### Counts -/

/-- The number of significant bits, where the fuel is enough. -/
theorem bitLength_spec (fuel : Nat) : ∀ v, v < 2 ^ fuel →
    (v = 0 → bitLength fuel v = 0) ∧ (v ≠ 0 → 1 ≤ bitLength fuel v ∧ bitLength fuel v ≤ fuel ∧
      2 ^ (bitLength fuel v - 1) ≤ v ∧ v < 2 ^ bitLength fuel v) := by
  induction fuel with
  | zero => intro v h; simp at h; simp [h, bitLength]
  | succ n ih =>
    intro v h
    refine ⟨fun hv => by simp [bitLength, hv], fun hv => ?_⟩
    have hd : v / 2 < 2 ^ n := by rw [Nat.pow_succ] at h; omega
    obtain ⟨h0, h1⟩ := ih (v / 2) hd
    simp only [bitLength, hv, if_false]
    by_cases hz : v / 2 = 0
    · rw [h0 hz]
      have : v = 1 := by omega
      subst this
      simp
    · obtain ⟨a, b, c, d⟩ := h1 hz
      generalize bitLength n (v / 2) = L at *
      obtain ⟨L, rfl⟩ : ∃ j, L = j + 1 := ⟨L - 1, by omega⟩
      refine ⟨by omega, by omega, ?_, ?_⟩
      · have : 1 + (L + 1) - 1 = L + 1 := by omega
        rw [this, Nat.pow_succ]
        have : L + 1 - 1 = L := by omega
        rw [this] at c
        omega
      · have : 1 + (L + 1) = (L + 1) + 1 := by omega
        rw [this, Nat.pow_succ]
        omega

/-- The number of trailing zeros: the lowest set bit of a number that is not zero. -/
theorem trailingZeros_spec (n : Nat) : ∀ v, v < 2 ^ n →
    (v = 0 → trailingZeros n v = n) ∧ (v ≠ 0 → trailingZeros n v < n ∧ v.testBit (trailingZeros n v) = true ∧ 2 ^ trailingZeros n v ∣ v) := by
  induction n with
  | zero => intro v h; simp at h; simp [h, trailingZeros]
  | succ n ih =>
    intro v h
    have hd : v / 2 < 2 ^ n := by rw [Nat.pow_succ] at h; omega
    obtain ⟨h0, h1⟩ := ih (v / 2) hd
    simp only [trailingZeros]
    refine ⟨fun hv => ?_, fun hv => ?_⟩
    · subst hv
      simp [h0 (by simp)]
      omega
    · by_cases ho : v % 2 = 1
      · simp [ho, Nat.testBit_zero]
      · have hz : v / 2 ≠ 0 := by omega
        obtain ⟨a, b, c⟩ := h1 hz
        simp only [ho, if_false]
        generalize trailingZeros n (v / 2) = L at *
        refine ⟨by omega, ?_, ?_⟩
        · rw [Nat.add_comm, Nat.testBit_succ]; exact b
        · obtain ⟨q, hq⟩ := c
          refine ⟨q, ?_⟩
          rw [Nat.add_comm, Nat.pow_succ]
          have : v = 2 * (v / 2) := by omega
          rw [this, hq]; ring

/-- The number of set bits. -/
theorem setBits_spec (n : Nat) : ∀ v, setBits n v = ((List.range n).filter (fun j => v.testBit j)).length := by
  induction n with
  | zero => intro v; rfl
  | succ n ih =>
    intro v
    rw [setBits, ih, List.range_succ_eq_map, List.filter_cons, List.filter_map]
    have hfun : ((fun j => v.testBit j) ∘ Nat.succ) = (fun j => (v / 2).testBit j) := by
      funext j; simp [Nat.testBit_succ]
    by_cases h : v % 2 = 1
    · simp [Nat.testBit_zero, h, hfun, Nat.add_comm 1]
    · have : v % 2 = 0 := by omega
      simp [Nat.testBit_zero, this, hfun]

/-- The number of set bits is at most the width. -/
theorem setBits_le (n v : Nat) : setBits n v ≤ n := by
  rw [setBits_spec]
  exact le_trans (List.length_filter_le _ _) (by simp)

/-- Bits in reverse order. -/
theorem reverseBits_spec (n : Nat) : ∀ v i, i < n → (reverseBits n v).testBit i = v.testBit (n - 1 - i) := by
  have lt : ∀ n v, reverseBits n v < 2 ^ n := by
    intro n
    induction n with
    | zero => intro v; simp [reverseBits]
    | succ n ih =>
      intro v
      simp only [reverseBits]
      have := ih (v / 2)
      have : v % 2 = 0 ∨ v % 2 = 1 := by omega
      rw [Nat.pow_succ]
      rcases this with h | h <;> rw [h] <;> omega
  induction n with
  | zero => intro v i h; omega
  | succ n ih =>
    intro v i h
    simp only [reverseBits]
    have hl := lt n (v / 2)
    by_cases hi : i < n
    · have : (v % 2 * 2 ^ n + reverseBits n (v / 2)).testBit i = (reverseBits n (v / 2)).testBit i := by
        rw [Nat.mul_comm, Nat.testBit_two_pow_mul_add _ hl, if_pos hi]
      rw [this, ih _ _ hi]
      rw [show n + 1 - 1 - i = (n - 1 - i) + 1 by omega, Nat.testBit_succ]
    · have : i = n := by omega
      subst this
      rw [Nat.mul_comm, Nat.testBit_two_pow_mul_add _ hl, if_neg (by omega)]
      simp [Nat.testBit_zero]

/-! ### Bytes -/

/-- A string of bytes has as many bytes as were asked for. -/
@[simp] theorem bytesOf_length (n : Nat) : ∀ v, (bytesOf n v).length = n := by
  induction n with
  | zero => intro v; rfl
  | succ n ih => intro v; simp [bytesOf, ih]

/-- The number that a string of bytes spells is the number itself, as far as the bytes go. -/
theorem natOf_bytesOf (n : Nat) : ∀ v, natOf (bytesOf n v) = v % 256 ^ n := by
  induction n with
  | zero => intro v; simp [bytesOf, natOf, Nat.mod_one]
  | succ n ih =>
    intro v
    simp only [bytesOf, natOf, ih, BitVec.toNat_ofNat]
    rw [Nat.pow_succ 256, Nat.mul_comm (256 ^ n) 256, Nat.mod_mul]

/-- A string of bytes spells a number below the next power. -/
theorem natOf_lt (bs : List Byte) : natOf bs < 256 ^ bs.length := by
  induction bs with
  | nil => simp [natOf]
  | cons b r ih =>
    simp only [natOf, List.length_cons, Nat.pow_succ]
    have := b.isLt
    omega

/-- Bit `i` of a number spelt by bytes is bit `i % 8` of byte `i / 8`. -/
theorem natOf_testBit (bs : List Byte) : ∀ i, (natOf bs).testBit i = (bs.getD (i / 8) 0).getLsbD (i % 8) := by
  induction bs with
  | nil => intro i; simp [natOf]
  | cons b r ih =>
    intro i
    simp only [natOf]
    have hb : b.toNat < 2 ^ 8 := b.isLt
    rw [Nat.add_comm, show (256 : Nat) = 2 ^ 8 by norm_num, Nat.testBit_two_pow_mul_add _ hb]
    by_cases hi : i < 8
    · rw [if_pos hi, Nat.div_eq_of_lt hi, Nat.mod_eq_of_lt hi]
      simp [BitVec.getLsbD]
    · rw [if_neg hi, ih]
      obtain ⟨j, rfl⟩ : ∃ j, i = j + 8 := ⟨i - 8, by omega⟩
      simp

/-- Byte `k` of a string of bytes. -/
theorem bytesOf_getD (n : Nat) : ∀ v k, k < n → (bytesOf n v).getD k 0 = BitVec.ofNat 8 (v / 256 ^ k) := by
  induction n with
  | zero => intro v k h; omega
  | succ n ih =>
    intro v k h
    cases k with
    | zero => simp [bytesOf]
    | succ k =>
      simp only [bytesOf, List.getD_cons_succ]
      rw [ih _ _ (by omega), Nat.pow_succ, Nat.mul_comm, Nat.div_div_eq_div_mul]

end Sys2Proof.Machine
end

