-- ==== Sys2Proof/Laws/Lanes.lean ====
section
/-!
SUPPORT. Sys2Proof/Laws/Lanes.lean: the lanes of a register, and everything that a lane instruction does whose registers are bound
to no stream.
-/
namespace Sys2Proof.Machine

/-! ### Lanes -/

/-- Digits of a number put together from lanes. -/
theorem joinLanes_digit (w : Nat) (l : List Nat) : ∀ i, joinLanes w l / 2 ^ (w * i) % 2 ^ w = l.getD i 0 % 2 ^ w := by
  induction l with
  | nil => intro i; simp [joinLanes]
  | cons x r ih =>
    intro i
    have hp := Nat.two_pow_pos w
    cases i with
    | zero =>
      simp only [joinLanes, Nat.mul_zero, Nat.pow_zero, Nat.div_one, List.getD_cons_zero]
      rw [Nat.add_mul_mod_self_left, Nat.mod_mod]
    | succ i =>
      rw [joinLanes, Nat.mul_succ, Nat.pow_add, Nat.mul_comm (2 ^ (w * i)), ← Nat.div_div_eq_div_mul,
        Nat.add_mul_div_left _ _ hp, Nat.div_eq_of_lt (Nat.mod_lt _ hp), Nat.zero_add, ih i]
      rfl

/-- The lanes of a register that is put together from lanes. -/
theorem lane_ofLanes (w : Nat) (l : List Nat) (i : Nat) (h : w * (i + 1) ≤ 256) : lane w (ofLanes w l) i = l.getD i 0 % 2 ^ w := by
  unfold lane ofLanes
  rw [BitVec.toNat_ofNat, ← joinLanes_digit]
  obtain ⟨k, hk⟩ : ∃ k, 256 = w * i + (w + k) := ⟨256 - w * (i + 1), by rw [Nat.mul_succ] at h ⊢; omega⟩
  rw [hk, Nat.pow_add, Nat.mod_mul_right_div_self, Nat.pow_add, Nat.mod_mul_right_mod]

/-- Every lane width divides a register. -/
theorem laneBits_cases (t : LaneType) : laneBits t = 8 ∨ laneBits t = 16 ∨ laneBits t = 32 := by cases t <;> simp [laneBits]

/-- A lane below the number of lanes lies inside the register. -/
theorem lane_inside (w i : Nat) (h : i < 256 / w) : w * (i + 1) ≤ 256 := by
  have := Nat.mul_le_mul_left w (Nat.succ_le_of_lt h)
  exact this.trans (Nat.mul_div_le 256 w)

/-- The lanes of a type fill the register. -/
theorem lanes_fill (t : LaneType) : 256 / laneBits t = t.lanes := by cases t <;> rfl

/-- A lane of a list of lanes. -/
theorem lanes_getD (w n : Nat) (v : LaneReg) (i : Nat) (h : i < n) : (lanes w n v).getD i 0 = lane w v i := by
  simp [lanes, List.getD, h]

/-! ### A lane instruction without streams -/

/-- A register bound to no stream is named against no direction. -/
theorem State.wrongWay_unbound (s : State) (rs ws : List Reg) (hr : s.Unbound rs) (hw : s.Unbound ws) : s.wrongWay rs ws = none := by
  have h1 : rs.findSome? (fun r => match s.streamOf r with
      | some (k, st) => if st.dir.val = 1 then some k.val else none
      | none => none) = none := by
    rw [List.findSome?_eq_none_iff]
    intro r hm
    rw [hr r hm]
  have h2 : ws.findSome? (fun r => match s.streamOf r with
      | some (k, st) => if st.dir.val = 0 then some k.val else none
      | none => none) = none := by
    rw [List.findSome?_eq_none_iff]
    intro r hm
    rw [hw r hm]
  unfold State.wrongWay
  simp only
  split
  · rename_i h
    exact absurd (h.symm.trans h1) (by simp)
  · exact h2

/-- A register bound to no stream has no block. -/
theorem State.blockFault_unbound (s : State) (rs : List Reg) (hr : s.Unbound rs) : s.blockFault rs = none := by
  have : rs.filterMap (fun r => (s.streamOf r).map (fun p => (p.2, p.2.per))) = [] := by
    rw [List.filterMap_eq_nil_iff]
    intro r hm
    rw [hr r hm]
    rfl
  unfold State.blockFault
  rw [this]
  rfl

/-- An instruction that names no register bound to a stream waits for no acquire. -/
theorem State.whenStreams_unbound (s : State) (rs : List Reg) (f : State → State) (hr : s.Unbound rs) : s.whenStreams rs f = f s := by
  have : rs.any (fun r => (s.streamOf r).isSome) = false := by
    rw [List.any_eq_false]
    intro r hm
    rw [hr r hm]
    exact Bool.false_ne_true
  unfold State.whenStreams
  rw [this]
  rfl

/-- A register bound to no stream reads as it stands. -/
theorem State.operand_unbound (s : State) (r : Reg) (h : s.streamOf r = none) : s.operand r = s.getF r := by
  unfold State.operand; rw [h]

/-- Streams not named stand. -/
theorem State.advanceStreams_unbound (s : State) (rs : List Reg) (h : s.Unbound rs) : s.advanceStreams rs = s := by
  unfold State.advanceStreams
  have : s.th.streams.mapIdx (fun i o => if rs.any (fun r => r.val == i + 28) then o.map (fun st => st.advance st.per) else o)
      = s.th.streams := by
    ext1 i hi
    rw [Vector.getElem_mapIdx]
    split
    · rename_i ha
      rw [List.any_eq_true] at ha
      obtain ⟨r, hm, hv⟩ := ha
      have hv : r.val = i + 28 := by simpa using hv
      have := h r hm
      unfold State.streamOf at this
      rw [dif_pos (by omega)] at this
      have e : s.th.streams[r.val - 28]'(by omega) = s.th.streams[i] := by congr 1; omega
      rw [e] at this
      cases hs : s.th.streams[i] with
      | none => rfl
      | some st => rw [hs] at this; simp at this
    · rfl
  rw [this]

/-- What a list of registers without streams says of its parts. -/
theorem State.unbound_append (s : State) (a b : List Reg) : s.Unbound (a ++ b) ↔ s.Unbound a ∧ s.Unbound b := by
  unfold State.Unbound
  simp only [List.mem_append]
  exact ⟨fun h => ⟨fun r hr => h r (.inl hr), fun r hr => h r (.inr hr)⟩, fun h r hr => hr.elim (h.1 r) (h.2 r)⟩

/-- Streams not named stand, whatever else has been written to the thread. -/
theorem State.unbound_of_streams (s t : State) (rs : List Reg) (h : t.th.streams = s.th.streams) (hr : s.Unbound rs) : t.Unbound rs := by
  intro r hm
  have := hr r hm
  unfold State.streamOf at *
  rw [h]
  exact this

/-- A lane instruction whose registers are bound to no stream, as one operation. -/
theorem State.runLane_unbound (s : State) (len : Nat) (rs ws : List Reg) (f : (Reg → LaneReg) → LaneOut)
    (hr : s.Unbound rs) (hw : s.Unbound ws) :
    s.runLane len rs ws f = s.deliverLane len (rs ++ ws) (f s.operand) := by
  unfold State.runLane
  rw [s.wrongWay_unbound rs ws hr hw]
  dsimp only
  rw [s.blockFault_unbound _ ((s.unbound_append rs ws).2 ⟨hr, hw⟩)]
  exact s.whenStreams_unbound _ _ ((s.unbound_append rs ws).2 ⟨hr, hw⟩)

/-- Everything that a lane instruction with a result in an f register does where no stream is bound to what it names. -/
theorem State.deliverLane_f (s : State) (len : Nat) (rs : List Reg) (d : Reg) (v : LaneReg) (fl : Flags)
    (hr : s.Unbound rs) (hd : s.streamOf d = none) : WritesF s (.next (s.deliverLane len rs ⟨some (d, v), none, fl⟩)) len d v fl := by
  have e : s.deliverLane len rs ⟨some (d, v), none, fl⟩ = ((s.setF d v).raise fl).retire len := by
    unfold State.deliverLane State.writeF
    dsimp only
    rw [hd]
    dsimp only
    rw [State.advanceStreams_unbound _ _ (State.unbound_of_streams s ((s.setF d v).raise fl) rs rfl hr)]
  rw [e]
  obtain ⟨h1, h2, h3, h4⟩ := ((s.setF d v).raise fl).retire_spec len
  unfold KeepsBesidePc at h1
  refine ⟨_, rfl, fun r => ?_, ?_, ?_, ?_, ⟨?_, fun h => ?_⟩, ?_, ?_⟩
  · rw [State.getF_retire]; exact s.getF_setF d r v
  · rw [h1]; simp
  · rw [h1]; simp
  · unfold KeepsBesideF; rw [h1]; simp
  · rw [h2.1]; simp
  · have := h2.2 h
    simpa [State.pcPlus] using this
  · unfold KeepsOutside at *; rw [h3]; rfl
  · exact fun a => ⟨(h4 a).1, (h4 a).2⟩

/-- Everything that a lane instruction with a result in an x register does where no stream is bound to what it names. -/
theorem State.deliverLane_x (s : State) (rs : List Reg) (d : Reg) (v : Word) (fl : Flags)
    (hr : s.Unbound rs) : WritesXFlags s (.next (s.deliverLane 4 rs ⟨none, some (d, v), fl⟩)) d v fl := by
  have hs : (s.setX d v).th.streams = s.th.streams := by rw [s.setX_th]
  have e : s.deliverLane 4 rs ⟨none, some (d, v), fl⟩ = ((s.setX d v).raise fl).retire 4 := by
    unfold State.deliverLane
    dsimp only
    rw [State.advanceStreams_unbound _ _ (State.unbound_of_streams s _ rs (by simpa using hs) hr)]
  rw [e]
  obtain ⟨h1, h2, h3, h4⟩ := ((s.setX d v).raise fl).retire_spec 4
  unfold KeepsBesidePc at h1
  have hl := s.setX_live d v
  obtain ⟨X, L, hx⟩ : ∃ X L, (s.setX d v).th = { s.th with x := X, live := L } := ⟨_, _, s.setX_th d v⟩
  refine ⟨_, rfl, fun r => ?_, ?_, ?_, ?_, ⟨?_, fun h => ?_⟩, ?_, ?_⟩
  · rw [State.getX_retire]; exact s.getX_setX d r v
  · rw [h1]; exact hl
  · rw [h1, State.raise_th, hx]
  · unfold KeepsBesideXFlags; rw [h1, State.raise_th, hx]
  · rw [h2.1, State.raise_th, hx]
  · have := h2.2 (by rw [State.raise_th, hx]; exact h)
    rw [State.raise_th, hx] at this
    exact ⟨by rw [this.1]; unfold State.pcPlus; rw [State.raise_th, hx], this.2⟩
  · unfold KeepsOutside at *; rw [h3]
    unfold State.raise State.setX
    split <;> rfl
  · exact fun a => ⟨by rw [(h4 a).1]; simp, by rw [(h4 a).2]; simp⟩

/-- A lane instruction with a result in an f register. -/
theorem State.runLane_f (s : State) (len : Nat) (rs : List Reg) (d : Reg) (v : LaneReg) (fl : Flags) (f : (Reg → LaneReg) → LaneOut)
    (hr : s.Unbound (d :: rs)) (hf : f s.operand = ⟨some (d, v), none, fl⟩) : WritesF s (.next (s.runLane len rs [d] f)) len d v fl := by
  have hd : s.streamOf d = none := hr d List.mem_cons_self
  have hs : s.Unbound rs := fun r hm => hr r (List.mem_cons_of_mem _ hm)
  have hw : s.Unbound [d] := fun r hm => by rw [List.mem_singleton.1 hm]; exact hd
  rw [s.runLane_unbound len rs [d] f hs hw, hf]
  exact s.deliverLane_f len _ d v fl ((s.unbound_append _ _).2 ⟨hs, hw⟩) hd

/-- A lane instruction with a result in an x register. -/
theorem State.runLane_x (s : State) (rs : List Reg) (d : Reg) (v : Word) (fl : Flags) (f : (Reg → LaneReg) → LaneOut)
    (hr : s.Unbound rs) (hf : f s.operand = ⟨none, some (d, v), fl⟩) : WritesXFlags s (.next (s.runLane 4 rs [] f)) d v fl := by
  have hw : s.Unbound [] := fun r hm => by simp at hm
  rw [s.runLane_unbound 4 rs [] f hr hw, hf]
  exact s.deliverLane_x _ d v fl ((s.unbound_append _ _).2 ⟨hr, hw⟩)

/-- A register put together from lanes, lane by lane. -/
theorem lanesTo_of (s : State) (o : Out) (len w n : Nat) (d : Reg) (f : Nat → Nat × Flags) (fl : Flags)
    (h : WritesF s o len d (ofLanes w ((List.range n).map (fun i => (f i).1))) fl)
    (hf : fl = orFlags ((List.range n).map (fun i => (f i).2))) : LanesTo s o len w n d f := by
  subst hf
  refine ⟨_, h, fun i hi => ?_⟩
  rw [lane_ofLanes w _ i (lane_inside w i hi)]
  split
  · rename_i hn; simp [List.getD, hn]
  · rename_i hn; simp [List.getD, hn]

/-- No flag at all, from any number of lanes. -/
theorem orFlags_zero {α : Type} (l : List α) : orFlags (l.map (fun _ => (0 : Flags))) = 0 := by
  unfold orFlags
  induction l with
  | nil => rfl
  | cons a r ih => simpa using ih

/-- A lane instruction whose result is raw bits, lane by lane. -/
theorem State.rawLane_lanes (s : State) (len w n : Nat) (d : Reg) (rs : List Reg) (f : Nat → Nat) (g : (Reg → LaneReg) → LaneReg)
    (hu : s.Unbound (d :: rs)) (h : g s.operand = ofLanes w ((List.range n).map f)) :
    LanesTo s (.next (s.rawLane len rs d g)) len w n d (fun i => (f i, 0)) := by
  apply lanesTo_of s _ len w n d _ 0
  · apply s.runLane_f len rs d _ 0 _ hu
    dsimp only
    rw [h]
  · exact (orFlags_zero _).symm

/-- Only the bits of a lane's own width count. -/
theorem LanesTo.congr {s : State} {o : Out} {len w n : Nat} {d : Reg} {f g : Nat → Nat × Flags} (h : LanesTo s o len w n d f)
    (hb : ∀ i < n, (f i).1 % 2 ^ w = (g i).1 % 2 ^ w) (hf : ∀ i < n, (f i).2 = (g i).2) : LanesTo s o len w n d g := by
  obtain ⟨v, hv, hl⟩ := h
  refine ⟨v, ?_, fun i hi => ?_⟩
  · have : (List.range n).map (fun i => (g i).2) = (List.range n).map (fun i => (f i).2) := by
      apply List.map_congr_left
      intro i hi
      exact (hf i (List.mem_range.1 hi)).symm
    rw [this]; exact hv
  · rw [hl i hi]
    split
    · rename_i hn; exact hb i hn
    · rfl

/-! ### Results under the plain modifier -/

/-- A value scaled by 1. -/
@[simp] theorem Exact.scale_zero (x : Exact) : x.scale 0 = x := by cases x <;> simp [Exact.scale]

/-- A floating result lane is rounded once. -/
theorem resultLane_float (c : Ctx) (t : LaneType) (h : t.float = true) (v : Exact) :
    resultLane c plainMod t v = (fmtOf t).round c.mode false v := by
  have e : resultLane c plainMod t v = floatLane c plainMod (fmtOf t) v := by
    cases t <;> first | rfl | simp [LaneType.float] at h
  have k : plainMod.k.toInt = 0 := by decide
  rw [e]
  unfold floatLane
  rw [k, Exact.scale_zero]
  simp [plainMod]

/-- An integer result lane wraps. -/
theorem resultLane_int (c : Ctx) (t : LaneType) (h : t.integer = true) (p : Bool) (n : Nat) :
    resultLane c plainMod t (.fin p n 1 false) = (wrap (laneBits t) (signed p n), 0) := by
  have e : resultLane c plainMod t (.fin p n 1 false) = intLane c plainMod (laneBits t) (.fin p n 1 false) := by
    cases t <;> first | rfl | simp [LaneType.integer] at h
  have k : plainMod.k.toInt = 0 := by decide
  have r : roundQuot c.mode p n 1 false = (n, false) := by
    unfold roundQuot
    simp [Nat.mod_one]
    split <;> rfl
  have hw : ∀ w (v : Int), 1 ≤ w → wrap w (sgn w (wrap w v)) = wrap w v := by
    intro w v hw
    unfold sgn wrap
    have hp : (0 : Int) < 2 ^ w := by positivity
    have h0 := Int.emod_nonneg v hp.ne'
    have h1 := Int.emod_lt_of_pos v hp
    have e : ((v % 2 ^ w).toNat : Int) = v % 2 ^ w := Int.toNat_of_nonneg h0
    split
    · rw [e, Int.emod_emod_of_dvd _ (dvd_refl _)]
    · rw [e, Int.sub_emod, Int.emod_self, Int.sub_zero, Int.emod_emod_of_dvd _ (dvd_refl _), Int.emod_emod_of_dvd _ (dvd_refl _)]
  rw [e]
  unfold intLane
  rw [k, Exact.scale_zero]
  simp only [plainMod, Exact.toInt, r, Bool.false_and, flagIf, Bool.false_eq_true, if_false]
  rw [hw]
  rcases laneBits_cases t with h | h | h <;> rw [h] <;> omega

/-! ### Lane by lane, under the plain modifier -/

/-- An operation on pairs of lanes, lane by lane. -/
theorem State.binLane_lanes (s : State) (len : Nat) (t : LaneType) (d a b : Reg) (op : Mode → Exact → Exact → Exact × Flags) (h : s.Unbound [d, a, b]) :
    LanesTo s (.next (s.binLane plainMod len t d a b op)) len (laneBits t) t.lanes d (fun i =>
    let v := op s.th.rmode (laneValue t (lane (laneBits t) (s.getF a) i)) (laneValue t (lane (laneBits t) (s.getF b) i))
    ((resultLane (s.laneCtx plainMod) plainMod t v.1).1, v.2 ||| (resultLane (s.laneCtx plainMod) plainMod t v.1).2)) := by
  have oa := s.operand_unbound a (h a (by simp))
  have ob := s.operand_unbound b (h b (by simp))
  apply lanesTo_of
  · apply s.runLane_f len [a, b] d _ _ _ h
    dsimp only
    rw [oa, ob]
    simp only [laneResults]
    congr 2
    · congr 1
      congr 1
      apply List.ext_getElem
      · simp [laneValues, lanes]
      · intro i h1 h2
        simp [laneValues, lanes]
  · congr 1
    apply List.ext_getElem
    · simp [laneValues, lanes]
    · intro i h1 h2
      simp [laneValues, lanes]

/-- An operation on single lanes, lane by lane. -/
theorem State.unLane_lanes (s : State) (len : Nat) (t : LaneType) (d a : Reg) (op : Exact → Exact × Flags) (h : s.Unbound [d, a]) :
    LanesTo s (.next (s.unLane plainMod len t d a op)) len (laneBits t) t.lanes d (fun i =>
    let v := op (laneValue t (lane (laneBits t) (s.getF a) i))
    ((resultLane (s.laneCtx plainMod) plainMod t v.1).1, v.2 ||| (resultLane (s.laneCtx plainMod) plainMod t v.1).2)) := by
  have oa := s.operand_unbound a (h a (by simp))
  apply lanesTo_of
  · apply s.runLane_f len [a] d _ _ _ h
    dsimp only
    rw [oa]
    simp only [laneResults]
    congr 2
    · congr 1
      congr 1
      apply List.ext_getElem
      · simp [laneValues, lanes]
      · intro i h1 h2
        simp [laneValues, lanes]
  · congr 1
    apply List.ext_getElem
    · simp [laneValues, lanes]
    · intro i h1 h2
      simp [laneValues, lanes]

/-- The fused forms, lane by lane. -/
theorem State.laneFma_lanes (s : State) (len : Nat) (t : LaneType) (p q : Bool) (d a b c : Reg) (h : s.Unbound [d, a, b, c]) :
    LanesTo s (.next (s.laneFma plainMod len p q t d a b c)) len (laneBits t) t.lanes d (fun i =>
    let v := Exact.fma s.th.rmode p q (laneValue t (lane (laneBits t) (s.getF a) i)) (laneValue t (lane (laneBits t) (s.getF b) i))
      (laneValue t (lane (laneBits t) (s.getF c) i))
    ((resultLane (s.laneCtx plainMod) plainMod t v.1).1, v.2 ||| (resultLane (s.laneCtx plainMod) plainMod t v.1).2)) := by
  have oa := s.operand_unbound a (h a (by simp))
  have ob := s.operand_unbound b (h b (by simp))
  have oc := s.operand_unbound c (h c (by simp))
  apply lanesTo_of
  · apply s.runLane_f len [a, b, c] d _ _ _ h
    dsimp only
    rw [oa, ob, oc]
    simp only [laneResults]
    congr 2
    · congr 1
      congr 1
      apply List.ext_getElem
      · simp [laneValues, lanes]
      · intro i h1 h2
        simp [laneValues, lanes]
  · congr 1
    apply List.ext_getElem
    · simp [laneValues, lanes]
    · intro i h1 h2
      simp [laneValues, lanes]

/-- The value of a floating lane. -/
theorem laneValue_float (t : LaneType) (h : t.float = true) (v : Nat) : laneValue t v = (fmtOf t).unpack v := by
  cases t <;> first | rfl | simp [LaneType.float] at h

end Sys2Proof.Machine
end

