-- ==== Sys2Proof/Laws/Ops.lean ====
section
/-!
SUPPORT. Sys2Proof/Laws/Ops.lean: what each shared operation can do, said once: stores to local memory (R159), an aborted packet
(R142), a thread that gives up waiting for the matrix unit (R303), taking an exception (R20 to R22), the waits (R166, R177), and the
issue of an access (R84).
-/
namespace Sys2Proof.Machine

/-! ### Local memory -/

/-- A store to local memory changes local memory alone. -/
theorem State.writeLoc_frame (o : Owner) (bs : List Byte) :
    ∀ (s : State) (la : Nat), ∃ m, s.writeLoc o la bs = { s with loc := m } := by
  induction bs with
  | nil => intro s la; exact ⟨s.loc, rfl⟩
  | cons b r ih =>
    intro s la
    have h1 : ∃ m, s.writeLoc1 o la b = { s with loc := m } := by
      unfold State.writeLoc1
      split
      · exact ⟨_, rfl⟩
      · exact ⟨s.loc, rfl⟩
    obtain ⟨m, hm⟩ := h1
    obtain ⟨k, hk⟩ := ih (s.writeLoc1 o la b) (la + 1)
    refine ⟨k, ?_⟩
    show (s.writeLoc1 o la b).writeLoc o (la + 1) r = _
    rw [hk, hm]

/-- A store to local memory keeps its canonical form. -/
theorem State.wf_writeLoc (o : Owner) (bs : List Byte) :
    ∀ (s : State) (la : Nat), Memory.wf s.loc = true → Memory.wf (s.writeLoc o la bs).loc = true := by
  induction bs with
  | nil => intro s la h; exact h
  | cons b r ih =>
    intro s la h
    refine ih (s.writeLoc1 o la b) (la + 1) ?_
    unfold State.writeLoc1
    split
    · exact Memory.wf_write _ _ _ h
    · exact h

@[simp] theorem State.writeLoc_th (s : State) (o : Owner) (la : Nat) (bs : List Byte) : (s.writeLoc o la bs).th = s.th := by
  obtain ⟨m, h⟩ := State.writeLoc_frame o bs s la
  rw [h]

@[simp] theorem State.writeLoc_mem (s : State) (o : Owner) (la : Nat) (bs : List Byte) : (s.writeLoc o la bs).mem = s.mem := by
  obtain ⟨m, h⟩ := State.writeLoc_frame o bs s la
  rw [h]

@[simp] theorem State.writeLoc_gangs (s : State) (o : Owner) (la : Nat) (bs : List Byte) : (s.writeLoc o la bs).gangs = s.gangs := by
  obtain ⟨m, h⟩ := State.writeLoc_frame o bs s la
  rw [h]

/-- As many bytes are read as were asked for. -/
@[simp] theorem State.readLoc_length (s : State) (o : Owner) (n : Nat) : ∀ la, (s.readLoc o la n).length = n := by
  induction n with
  | zero => intro la; rfl
  | succ n ih => intro la; exact congrArg (· + 1) (ih (la + 1))

/-- Within the private slice an address is at its slot's place. -/
theorem locKey_private (slot : Nat) (grant : List Nat) (la : Nat) (h : la < 0x4000) :
    locKey slot grant la = some (slot * 0x4000 + la) := if_pos h

/-- An arrival changes local memory alone, and keeps its form (R180). -/
theorem State.arriveKey_frame (s : State) (key n : Nat) (err : Bool) :
    (∃ m, s.arriveKey key n err = { s with loc := m })
      ∧ (Memory.wf s.loc = true → Memory.wf (s.arriveKey key n err).loc = true) := by
  unfold State.arriveKey
  generalize arriveWord n err (Memory.readN s.loc key 32) = bs
  exact ⟨⟨_, rfl⟩, Memory.wf_writeN bs s.loc key⟩

/-! ### Before an exception -/

/-- An aborted packet is closed, and its count is posted with the error flag (R142). -/
theorem State.abortPacket_spec (s : State) :
    s.abortPacket = { s with th := { s.th with packet := none }, counts := s.abortPacket.counts }
      ∧ (s.th.packet = none → s.abortPacket = s) := by
  cases h : s.th.packet with
  | none =>
    have e : s.abortPacket = s := by unfold State.abortPacket; rw [h]
    refine ⟨?_, fun _ => e⟩
    rw [e, ← h]
  | some p =>
    refine ⟨?_, fun k => (Option.some_ne_none _ k).elim⟩
    unfold State.abortPacket
    rw [h]
    rfl

/-- A thread that gives up waiting for the matrix unit changes the units and its own wait alone (R303). -/
theorem State.leaveMown_spec (s : State) :
    s.leaveMown = { s with th := { s.th with mownWait := false }, units := s.leaveMown.units }
      ∧ (s.th.mownWait = false → s.leaveMown = s) := by
  cases h : s.th.mownWait with
  | false =>
    have e : s.leaveMown = s := by unfold State.leaveMown; rw [h]; rfl
    refine ⟨?_, fun _ => e⟩
    rw [e, ← h]
  | true =>
    refine ⟨?_, fun k => Bool.noConfusion k⟩
    unfold State.leaveMown State.releaseUnit State.putUnit
    simp only [h, if_true]
    split
    · split <;> rfl
    · rfl

/-- A thread that gives up an `mma` changes the units and its own wait alone (R230). -/
theorem State.leaveMma_spec (s : State) :
    s.leaveMma = { s with th := { s.th with mma := none }, units := s.leaveMma.units }
      ∧ (s.th.mma = none → s.leaveMma = s) := by
  cases h : s.th.mma with
  | none =>
    have e : s.leaveMma = s := by unfold State.leaveMma; rw [h]; rfl
    refine ⟨?_, fun _ => e⟩
    rw [e, ← h]
  | some r =>
    refine ⟨?_, fun k => (Option.some_ne_none _ k).elim⟩
    unfold State.leaveMma
    rw [h]
    rfl

/-! ### Taking an exception -/

/-- All that the delivery of a cause does (R22): the saved registers, the status, the handler's address, the end of the loop state, and
the fault record in the private slice. -/
theorem State.deliver_spec (s : State) (a : Word) (cause : Nat) (tval : Word) (records parked : Bool) :
    let t := s.deliver a cause tval records parked
    t.th.epc = a ∧ t.th.cause = BitVec.ofNat 64 cause ∧ t.th.tval = tval ∧ t.th.uact = true ∧ t.th.pc = pcBits s.th.uvec
      ∧ t.th.loop0 = Loop.none ∧ t.th.loop1 = Loop.none ∧ t.th.x = s.th.x ∧ t.th.f = s.th.f ∧ t.th.sys = s.th.sys
      ∧ t.th.iret = s.th.iret ∧ t.mem = s.mem
      ∧ t.loc = (s.writeLoc s.th.owner s.th.usave.toNat (faultRecord s.th a cause tval records parked)).loc
      ∧ t.locPast = (s.settleLoc (s.th.slot * 0x4000 + s.th.usave.toNat) 128).locPast
      ∧ t = { s with th := t.th, loc := t.loc, locPast := t.locPast } := by
  unfold State.deliver
  dsimp only
  obtain ⟨m, h⟩ := State.writeLoc_frame s.th.owner (faultRecord s.th a cause tval records parked) s s.th.usave.toNat
  rw [h]
  exact ⟨rfl, rfl, rfl, rfl, rfl, rfl, rfl, rfl, rfl, rfl, rfl, rfl, rfl, rfl, rfl⟩

/-- The one way into an exception: the cause is reported, or the handler is entered (R21, R22). -/
theorem State.upcall_cases (s : State) (a : Word) (cause : Nat) (tval : Word) (records : Bool) :
    (s.abortPacket.leaveMown.leaveMma.reported cause = true
        ∧ s.upcall a cause tval records = s.abortPacket.leaveMown.leaveMma.report cause tval.toNat)
      ∨ (s.abortPacket.leaveMown.leaveMma.reported cause = false
        ∧ s.upcall a cause tval records = s.abortPacket.leaveMown.leaveMma.deliver a cause tval records (s.th.held.any (·.parked))) := by
  unfold State.upcall
  dsimp only
  generalize s.abortPacket.leaveMown.leaveMma = q
  by_cases h : q.reported cause = true
  · rw [if_pos h]; exact .inl ⟨h, rfl⟩
  · rw [if_neg h]; exact .inr ⟨Bool.eq_false_iff.2 h, rfl⟩

/-- With no packet open and no wait for the matrix unit, a trap that is delivered is the delivery at the instruction's address. -/
theorem State.trap_delivers (s : State) (cause q : Nat) (hp : s.th.packet = none) (hm : s.th.mownWait = false)
    (hq : s.th.mma = none) (hr : s.reported cause = false) :
    s.trap cause q = s.deliver s.th.pc cause (BitVec.ofNat 64 q) false (s.th.held.any (·.parked)) := by
  have h := s.upcall_cases s.th.pc cause (BitVec.ofNat 64 q) false
  rw [(s.abortPacket_spec).2 hp, (s.leaveMown_spec).2 hm, (s.leaveMma_spec).2 hq] at h
  rcases h with ⟨hb, -⟩ | ⟨-, h⟩
  · exact (Bool.false_ne_true (hr ▸ hb)).elim
  · exact h

/-! ### Waits -/

@[simp] theorem Wait.run_go (s : State) (f : State → State) : Wait.go.run s f = f s := rfl
@[simp] theorem Wait.run_stall (s : State) (f : State → State) : Wait.stall.run s f = s.stall := rfl
@[simp] theorem Wait.run_taken (s t : State) (f : State → State) : (Wait.taken t).run s f = t := rfl

/-- A plain access waits for nothing. -/
@[simp] theorem State.afterRelease_plain (s : State) (f : State → State) : s.afterRelease .plain f = f s := rfl

/-- Where no peer must acknowledge, the release of a scope is done at once (R166, R353). -/
theorem State.tryRelease_go (s : State) (o : Order) (hp : o ≠ .sys ∨ s.outsideWords = []) : s.tryRelease o = (true, s.released o) := by
  unfold State.tryRelease
  rcases hp with hp | hp
  · exact if_neg (fun k => hp k.1)
  · rw [hp]; exact if_neg (fun k => Bool.noConfusion k.2)

/-- Where every earlier access is performed and no peer must acknowledge, a release is what its scope makes visible (R166, R187). -/
theorem State.releaseTo_go (s : State) (o : Order) (wait f : State → State) (h : s.releaseWait = .go) (hp : o ≠ .sys ∨ s.outsideWords = []) :
    s.releaseTo o wait f = f (s.released o) := by
  unfold State.releaseTo
  rw [h, s.tryRelease_go o hp]
  rfl

/-- A release that waits is the wait it is given. -/
theorem State.releaseTo_stall (s : State) (o : Order) (wait f : State → State) (h : s.releaseWait = .stall) : s.releaseTo o wait f = wait s := by
  unfold State.releaseTo; rw [h]

/-- No word of host or peer memory awaits its writing through where no write of memory is remembered. -/
theorem State.outsideWords_nil (s : State) (h : s.memPast = []) : s.outsideWords = [] := by
  unfold State.outsideWords State.outsideOf; rw [h]; rfl

/-- With no acquire in flight a later access goes on. -/
theorem State.whenFree_go (s : State) (f : State → State) (h : s.th.acquiring = false) : s.whenFree f = f s := by
  unfold State.whenFree; rw [h]; rfl

/-- With no record held and no access in flight, a release goes on at once (R166). -/
theorem State.releaseWait_go (s : State) (hh : s.th.held = []) (ha : s.th.acc = []) : s.releaseWait = .go := by
  unfold State.releaseWait State.ownWhy
  rw [hh, ha]
  rfl

/-- With no record held and no fault held back, what the thread's own accesses hold up is empty (R297). -/
theorem State.ownWhy_nil (s : State) (hh : s.th.held = []) (ha : ∀ c ∈ s.th.acc, c.stuck = none) : s.ownWhy = [] := by
  have : (s.th.acc.filterMap (fun a => a.stuck.bind (fun w => if s.th.uact && !w.late then none else some (some a.op, w)))) = [] := by
    rw [List.filterMap_eq_nil_iff]
    intro a h
    rw [ha a h]
    rfl
  unfold State.ownWhy
  rw [hh, this]
  rfl

/-! ### Issue -/

/-- An access that waits to issue changes nothing but the mark of the wait (R176). -/
theorem State.issueWhenFree_cases (s : State) (a : Access) (named : List Reg) :
    (s.mayIssue a.op = true ∧ s.issueWhenFree a named = s.issue a named)
      ∨ (s.mayIssue a.op = false ∧ s.issueWhenFree a named = s.stall) := by
  unfold State.issueWhenFree
  cases s.mayIssue a.op
  · exact .inr ⟨rfl, rfl⟩
  · exact .inl ⟨rfl, rfl⟩

/-- A posted record takes a place; with all 8 taken there is none (R297). -/
theorem State.postRecord_cases (s : State) (what : Redo) (w : Why) (engine : Bool) (seq : Nat) :
    (8 ≤ s.th.held.length ∧ s.postRecord what w engine seq = none)
      ∨ (s.th.held.length < 8 ∧ s.postRecord what w engine seq = some { s with th := { s.th with
          held := insertHeld ⟨what, w.cause, w.va, w.write, engine, false, w.late, seq⟩ s.th.held } }) := by
  unfold State.postRecord
  by_cases h : 8 ≤ s.th.held.length
  · exact .inl ⟨h, if_pos h⟩
  · exact .inr ⟨Nat.lt_of_not_le h, if_neg h⟩

end Sys2Proof.Machine
end

