-- ==== Sys2Proof/Laws/PerInstr.lean ====
section
/-!
SUPPORT. Sys2Proof/Laws/PerInstr.lean: the family Enc: the bits that the encoding tables give a well-formed instruction decode to it.
-/
namespace Sys2Proof.Laws
open Sys2Proof

/-- The bits of the instruction, where it is well-formed and has any, decode to it. -/
def Enc.Statement (i : Instr) : Prop :=
  i.wellFormed = true → i.form ≠ .event → if i.form = .micro then decodeMicro (encode i) = .ok i else decode (encode i) = .ok i

/-- The statement of an instruction that a core decodes. -/
theorem Enc.start (i : Instr) (hm : i.form ≠ .micro) (h : i.wellFormed = true → decode (encode i) = .ok i) : Enc.Statement i :=
  fun hw _ => (if_neg hm).mpr (h hw)

/-! ### The fields of each format -/

theorem Enc.encR_odd (m f c b a d : Nat) : encR m f c b a d % 2 = 1 := by unfold encR; omega

theorem Enc.encR_major (m f c b a d : Nat) (hm : m < 64) : major (encR m f c b a d) = m := by unfold encR major; omega

theorem Enc.encR_d (m f c b a : Nat) (d : Reg) (hm : m < 64) : fd (encR m f c b a d) = d := by
  unfold encR fd; apply Fin.ext; simp only [Fin.ofNat]; omega

theorem Enc.encR_a (m f c b : Nat) (a d : Reg) (hm : m < 64) : fa (encR m f c b a d) = a := by
  unfold encR fa; apply Fin.ext; simp only [Fin.ofNat]; omega

theorem Enc.encR_b (m f c : Nat) (b a d : Reg) (hm : m < 64) : fb (encR m f c b a d) = b := by
  unfold encR fb; apply Fin.ext; simp only [Fin.ofNat]; omega

theorem Enc.encR_c (m f : Nat) (c b a d : Reg) (hm : m < 64) : fc (encR m f c b a d) = c := by
  unfold encR fc; apply Fin.ext; simp only [Fin.ofNat]; omega

theorem Enc.encR_fn (m f : Nat) (c b a d : Reg) (hm : m < 64) (hf : f < 32) : ffn (encR m f c b a d) = f := by
  unfold encR ffn; omega

/-- A field whose value is below 32 is a register number. -/
theorem Enc.encR_self (m f c b a d : Nat) : encR m f c (b % 32) a d = encR m f c (Fin.ofNat 32 (b % 32)).val a d := by
  simp only [Fin.ofNat]; rw [Nat.mod_mod]

/-- A stream number as a field. -/
theorem Enc.four (s : Fin 4) : (Fin.ofNat 32 s.val).val = s.val := by simp only [Fin.ofNat]; omega

/-- What decoding a word of format I comes to. -/
theorem Enc.rI (i : Instr) (m : Nat) (k : BitVec 15) (a d : Reg) (he : encode i = encI m k.toNat a d) (hm : m < 64) (hf : i.form ≠ .micro)
    (h : ∀ w, w % 2 = 1 → major w = m → fimm15 w = k → fa w = a → fd w = d → decode w = .ok i) : Enc.Statement i := by
  have hk := k.isLt
  refine Enc.start i hf (fun _ => he ▸ h _ ?_ ?_ ?_ ?_ ?_) <;> unfold encI
  · omega
  · unfold major; omega
  · unfold fimm15; apply BitVec.eq_of_toNat_eq; rw [BitVec.toNat_ofNat]; omega
  · unfold fa; apply Fin.ext; simp only [Fin.ofNat]; omega
  · unfold fd; apply Fin.ext; simp only [Fin.ofNat]; omega

/-- What decoding a shift by an immediate comes to. -/
theorem Enc.rShift (i : Instr) (k : Nat) (n : Fin 64) (a d : Reg) (he : encode i = encI 0x05 (n.val + 64 * k) a d) (hk : k < 3)
    (hf : i.form ≠ .micro)
    (h : ∀ w, w / 8388608 % 512 = k → Fin.ofNat 64 (w / 131072) = n → fa w = a → fd w = d → decShift w = .ok i) : Enc.Statement i := by
  have hn := n.isLt
  refine Enc.start i hf (fun _ => ?_)
  have h1 : encI 0x05 (n.val + 64 * k) a d % 2 = 1 := by unfold encI; omega
  have h2 : major (encI 0x05 (n.val + 64 * k) a d) = 0x05 := by unfold encI major; omega
  have h3 : decode (encI 0x05 (n.val + 64 * k) a d) = decShift (encI 0x05 (n.val + 64 * k) a d) := by
    delta decode decWord; rw [h1, h2]; rfl
  rw [he, h3]
  refine h _ ?_ ?_ ?_ ?_ <;> unfold encI
  · omega
  · apply Fin.ext; simp only [Fin.ofNat]; omega
  · unfold fa; apply Fin.ext; simp only [Fin.ofNat]; omega
  · unfold fd; apply Fin.ext; simp only [Fin.ofNat]; omega

/-- What decoding a word of format W or J comes to. -/
theorem Enc.rW (i : Instr) (m : Nat) (k : BitVec 20) (d : Reg) (he : encode i = encW m k.toNat d) (hm : m < 64) (hf : i.form ≠ .micro)
    (h : ∀ w, w % 2 = 1 → major w = m → fimm20 w = k → fd w = d → decode w = .ok i) : Enc.Statement i := by
  have hk := k.isLt
  refine Enc.start i hf (fun _ => he ▸ h _ ?_ ?_ ?_ ?_) <;> unfold encW
  · omega
  · unfold major; omega
  · unfold fimm20; apply BitVec.eq_of_toNat_eq; rw [BitVec.toNat_ofNat]; omega
  · unfold fd; apply Fin.ext; simp only [Fin.ofNat]; omega

/-- What decoding a word of format S comes to. -/
theorem Enc.rS (i : Instr) (m : Nat) (o : BitVec 15) (b a : Reg) (he : encode i = encS m o.toNat b a) (hm : m < 64) (hf : i.form ≠ .micro)
    (h : ∀ w, w % 2 = 1 → major w = m → foffS w = o → fb w = b → fa w = a → decode w = .ok i) : Enc.Statement i := by
  have ho := o.isLt
  refine Enc.start i hf (fun _ => he ▸ h _ ?_ ?_ ?_ ?_ ?_) <;> unfold encS
  · omega
  · unfold major; omega
  · have h1 : (1 + 2 * m + 128 * (o.toNat % 32) + 4096 * a.val + 131072 * b.val + 4194304 * (o.toNat / 32)) / 4194304 % 1024 = o.toNat / 32 := by
      rw [Nat.add_mul_div_left _ _ (by decide), Nat.div_eq_of_lt (by omega)]; omega
    have h2 : (1 + 2 * m + 128 * (o.toNat % 32) + 4096 * a.val + 131072 * b.val + 4194304 * (o.toNat / 32)) / 128 % 32 = o.toNat % 32 := by omega
    unfold foffS; rw [h1, h2]; apply BitVec.eq_of_toNat_eq; rw [BitVec.toNat_ofNat]; omega
  · unfold fb; apply Fin.ext; simp only [Fin.ofNat]; omega
  · unfold fa; apply Fin.ext; simp only [Fin.ofNat]; omega

/-- What decoding a loop instruction comes to. -/
theorem Enc.rL (i : Instr) (g : Nat) (e : Fin 1024) (n : Reg) (he : encode i = encL g e n) (hg : g < 2) (hf : i.form ≠ .micro)
    (h : i.wellFormed = true → ∀ w, w / 8388608 = 0 → floopEnd w = e → w / 4096 % 2 = g → fd w = n → decLoop w = .ok i) : Enc.Statement i := by
  refine Enc.start i hf (fun hw => ?_)
  have h1 : encL g e n % 2 = 1 := by unfold encL; omega
  have h2 : major (encL g e n) = 0x14 := by unfold encL major; omega
  have h3 : decode (encL g e n) = decLoop (encL g e n) := by delta decode decWord; rw [h1, h2]; rfl
  rw [he, h3]
  refine h hw _ ?_ ?_ ?_ ?_ <;> unfold encL
  · omega
  · unfold floopEnd; apply Fin.ext; simp only [Fin.ofNat]; omega
  · omega
  · unfold fd; apply Fin.ext; simp only [Fin.ofNat]; omega

/-- What decoding a word of format M comes to. -/
theorem Enc.rM (i : Instr) (m q : Nat) (k : BitVec 10) (a d : Reg) (he : encode i = encM m q k.toNat a d) (hm : m < 64) (hq : q < 32)
    (hf : i.form ≠ .micro)
    (h : i.wellFormed = true → ∀ w, w % 2 = 1 → major w = m → ffn w = q → fimm10 w = k → fa w = a → fd w = d → decode w = .ok i) :
    Enc.Statement i := by
  have hk := k.isLt
  refine Enc.start i hf (fun hw => he ▸ h hw _ ?_ ?_ ?_ ?_ ?_ ?_) <;> unfold encM
  · omega
  · unfold major; omega
  · unfold ffn; omega
  · unfold fimm10; apply BitVec.eq_of_toNat_eq; rw [BitVec.toNat_ofNat]; omega
  · unfold fa; apply Fin.ext; simp only [Fin.ofNat]; omega
  · unfold fd; apply Fin.ext; simp only [Fin.ofNat]; omega

/-- What decoding a 16-bit lane form comes to. -/
theorem Enc.rH (i : Instr) (op : Nat) (t : Bool) (b d : Reg) (he : encode i = enc16 op t.toNat b d) (ho : op < 16) (hf : i.form ≠ .micro)
    (hz : i.wellFormed = true → enc16 op t.toNat b d ≠ 0)
    (h : ∀ w, w / 2 % 16 = op → (w / 32768 % 2 == 1) = t → Fin.ofNat 32 (w / 1024) = b → Fin.ofNat 32 (w / 32) = d →
      (w % 65536 == 0) = false → decHalf w = .ok i) : Enc.Statement i := by
  refine Enc.start i hf (fun hw => ?_)
  have hz := hz hw
  have ht := t.toNat_le
  have h1 : decode (enc16 op t.toNat b d) = decHalf (enc16 op t.toNat b d) := by
    have h2 : enc16 op t.toNat b d % 2 = 0 := by unfold enc16; omega
    delta decode; rw [h2]; rfl
  rw [he, h1]
  unfold enc16 at hz ⊢
  refine h _ (by omega) ?_ ?_ ?_ ?_
  · rw [show (2 * op + 32 * d.val + 1024 * b.val + 32768 * t.toNat) / 32768 % 2 = t.toNat by omega]; cases t <;> rfl
  · apply Fin.ext; simp only [Fin.ofNat]; omega
  · apply Fin.ext; simp only [Fin.ofNat]; omega
  · rw [beq_eq_false_iff_ne]; omega

/-- What decoding a microinstruction comes to. -/
theorem Enc.rMicro (i : Instr) (op : Nat) (d a b : MReg) (low : Nat) (he : encode i = encMicro op d a b low) (ho : op < 16) (hl : low < 65536)
    (hf : i.form = .micro)
    (h : ∀ w, w / 268435456 % 16 = op → Fin.ofNat 16 (w / 16777216) = d → Fin.ofNat 16 (w / 1048576) = a → Fin.ofNat 16 (w / 65536) = b →
      w % 65536 = low → decodeMicro w = .ok i) : Enc.Statement i := by
  intro _ _
  rw [if_pos hf, he]
  refine h _ ?_ ?_ ?_ ?_ ?_ <;> unfold encMicro
  · omega
  · apply Fin.ext; simp only [Fin.ofNat]; omega
  · apply Fin.ext; simp only [Fin.ofNat]; omega
  · apply Fin.ext; simp only [Fin.ofNat]; omega
  · omega

/-- What decoding a microinstruction with a second operand comes to. -/
theorem Enc.rOperand (i : Instr) (op : Nat) (d a : MReg) (v : MicroOperand) (f : MReg → MReg → MicroOperand → Instr)
    (he : encode i = encMicro op d a v.regField v.low16) (ho : op < 16) (hf : i.form = .micro) (hi : f d a v = i)
    (h : ∀ w, w / 268435456 % 16 = op → decodeMicro w = needOperand w f) : Enc.Statement i := by
  have hr : v.regField < 16 := by cases v <;> simp [MicroOperand.regField]
  have hl : v.low16 < 65536 := by
    cases v with
    | reg b => simp [MicroOperand.low16]
    | imm k => have := k.isLt; simp [MicroOperand.low16]; omega
  intro _ _
  rw [if_pos hf, he, h _ (by unfold encMicro; omega)]
  have h1 : Fin.ofNat 16 (encMicro op d a v.regField v.low16 / 16777216) = d := by
    unfold encMicro; apply Fin.ext; simp only [Fin.ofNat]; omega
  have h2 : Fin.ofNat 16 (encMicro op d a v.regField v.low16 / 1048576) = a := by
    unfold encMicro; apply Fin.ext; simp only [Fin.ofNat]; omega
  have h3 : microOperand (encMicro op d a v.regField v.low16) = some v := by
    unfold microOperand
    cases v with
    | reg b =>
      have e1 : encMicro op d a (MicroOperand.reg b).regField (MicroOperand.reg b).low16 / 32768 % 2 = 0 := by
        simp only [MicroOperand.regField, MicroOperand.low16, encMicro]; omega
      have e2 : encMicro op d a (MicroOperand.reg b).regField (MicroOperand.reg b).low16 % 32768 = 0 := by
        simp only [MicroOperand.regField, MicroOperand.low16, encMicro]; omega
      have e3 : Fin.ofNat 16 (encMicro op d a (MicroOperand.reg b).regField (MicroOperand.reg b).low16 / 65536) = b := by
        apply Fin.ext; simp only [MicroOperand.regField, MicroOperand.low16, encMicro, Fin.ofNat]; omega
      rw [e1, e2, e3]; rfl
    | imm k =>
      have hk := k.isLt
      have e1 : encMicro op d a (MicroOperand.imm k).regField (MicroOperand.imm k).low16 / 32768 % 2 = 1 := by
        simp only [MicroOperand.regField, MicroOperand.low16, encMicro]; omega
      have e2 : BitVec.ofNat 15 (encMicro op d a (MicroOperand.imm k).regField (MicroOperand.imm k).low16) = k := by
        apply BitVec.eq_of_toNat_eq
        rw [BitVec.toNat_ofNat]
        simp only [MicroOperand.regField, MicroOperand.low16, encMicro]; omega
      rw [e1, e2]; rfl
  unfold needOperand
  rw [h3, h1, h2, ← hi]

/-- A modifier word is decoded with the bits above it. -/
theorem Enc.major30 (w : Nat) (h : w % 2 = 1) (hm : major w = 0x30) : decode w = decModifier w := by
  delta decode decWord; rw [h, hm]; rfl

/-! ### The majors of format R and its kin -/

/-- What decoding a word of major 0x00 comes to. -/
theorem Enc.r00 (i : Instr) (f : Nat) (c b a d : Reg) (he : encode i = encR 0x00 f c b a d) (hf : f < 32) (hm : i.form ≠ .micro)
    (h : i.wellFormed = true → ∀ w, ffn w = f → fc w = c → fb w = b → fa w = a → fd w = d → decInteger 0x00 w = .ok i) : Enc.Statement i :=
  Enc.start i hm (fun hw => he ▸ (by
    have hd : decode (encR 0x00 f c b a d) = decInteger 0x00 (encR 0x00 f c b a d) := by
      delta decode decWord; rw [Enc.encR_odd, Enc.encR_major _ _ _ _ _ _ (by decide)]; rfl
    rw [hd]
    exact h hw _ (Enc.encR_fn _ _ _ _ _ _ (by decide) hf) (Enc.encR_c _ _ _ _ _ _ (by decide)) (Enc.encR_b _ _ _ _ _ _ (by decide))
      (Enc.encR_a _ _ _ _ _ _ (by decide)) (Enc.encR_d _ _ _ _ _ _ (by decide))))

/-- What decoding a word of major 0x0A comes to. -/
theorem Enc.r0A (i : Instr) (f : Nat) (c b a d : Reg) (he : encode i = encR 0x0A f c b a d) (hf : f < 32) (hm : i.form ≠ .micro)
    (h : i.wellFormed = true → ∀ w, ffn w = f → fc w = c → fb w = b → fa w = a → fd w = d → decInteger 0x0A w = .ok i) : Enc.Statement i :=
  Enc.start i hm (fun hw => he ▸ (by
    have hd : decode (encR 0x0A f c b a d) = decInteger 0x0A (encR 0x0A f c b a d) := by
      delta decode decWord; rw [Enc.encR_odd, Enc.encR_major _ _ _ _ _ _ (by decide)]; rfl
    rw [hd]
    exact h hw _ (Enc.encR_fn _ _ _ _ _ _ (by decide) hf) (Enc.encR_c _ _ _ _ _ _ (by decide)) (Enc.encR_b _ _ _ _ _ _ (by decide))
      (Enc.encR_a _ _ _ _ _ _ (by decide)) (Enc.encR_d _ _ _ _ _ _ (by decide))))

/-- What decoding a word of major 0x0B comes to. -/
theorem Enc.r0B (i : Instr) (f : Nat) (c b a d : Reg) (he : encode i = encR 0x0B f c b a d) (hf : f < 32) (hm : i.form ≠ .micro)
    (h : i.wellFormed = true → ∀ w, ffn w = f → fc w = c → fb w = b → fa w = a → fd w = d → decInteger 0x0B w = .ok i) : Enc.Statement i :=
  Enc.start i hm (fun hw => he ▸ (by
    have hd : decode (encR 0x0B f c b a d) = decInteger 0x0B (encR 0x0B f c b a d) := by
      delta decode decWord; rw [Enc.encR_odd, Enc.encR_major _ _ _ _ _ _ (by decide)]; rfl
    rw [hd]
    exact h hw _ (Enc.encR_fn _ _ _ _ _ _ (by decide) hf) (Enc.encR_c _ _ _ _ _ _ (by decide)) (Enc.encR_b _ _ _ _ _ _ (by decide))
      (Enc.encR_a _ _ _ _ _ _ (by decide)) (Enc.encR_d _ _ _ _ _ _ (by decide))))

/-- What decoding a word of major 0x1B comes to. -/
theorem Enc.r1B (i : Instr) (f : Nat) (c b a d : Reg) (he : encode i = encR 0x1B f c b a d) (hf : f < 32) (hm : i.form ≠ .micro)
    (h : i.wellFormed = true → ∀ w, ffn w = f → fc w = c → fb w = b → fa w = a → fd w = d → decAtomic 0x1B w = .ok i) : Enc.Statement i :=
  Enc.start i hm (fun hw => he ▸ (by
    have hd : decode (encR 0x1B f c b a d) = decAtomic 0x1B (encR 0x1B f c b a d) := by
      delta decode decWord; rw [Enc.encR_odd, Enc.encR_major _ _ _ _ _ _ (by decide)]; rfl
    rw [hd]
    exact h hw _ (Enc.encR_fn _ _ _ _ _ _ (by decide) hf) (Enc.encR_c _ _ _ _ _ _ (by decide)) (Enc.encR_b _ _ _ _ _ _ (by decide))
      (Enc.encR_a _ _ _ _ _ _ (by decide)) (Enc.encR_d _ _ _ _ _ _ (by decide))))

/-- What decoding a word of major 0x1C comes to. -/
theorem Enc.r1C (i : Instr) (f : Nat) (c b a d : Reg) (he : encode i = encR 0x1C f c b a d) (hf : f < 32) (hm : i.form ≠ .micro)
    (h : i.wellFormed = true → ∀ w, ffn w = f → fc w = c → fb w = b → fa w = a → fd w = d → decAtomic 0x1C w = .ok i) : Enc.Statement i :=
  Enc.start i hm (fun hw => he ▸ (by
    have hd : decode (encR 0x1C f c b a d) = decAtomic 0x1C (encR 0x1C f c b a d) := by
      delta decode decWord; rw [Enc.encR_odd, Enc.encR_major _ _ _ _ _ _ (by decide)]; rfl
    rw [hd]
    exact h hw _ (Enc.encR_fn _ _ _ _ _ _ (by decide) hf) (Enc.encR_c _ _ _ _ _ _ (by decide)) (Enc.encR_b _ _ _ _ _ _ (by decide))
      (Enc.encR_a _ _ _ _ _ _ (by decide)) (Enc.encR_d _ _ _ _ _ _ (by decide))))

/-- What decoding a word of major 0x1D comes to. -/
theorem Enc.r1D (i : Instr) (f : Nat) (c b a d : Reg) (he : encode i = encR 0x1D f c b a d) (hf : f < 32) (hm : i.form ≠ .micro)
    (h : i.wellFormed = true → ∀ w, ffn w = f → fc w = c → fb w = b → fa w = a → fd w = d → decAtomic 0x1D w = .ok i) : Enc.Statement i :=
  Enc.start i hm (fun hw => he ▸ (by
    have hd : decode (encR 0x1D f c b a d) = decAtomic 0x1D (encR 0x1D f c b a d) := by
      delta decode decWord; rw [Enc.encR_odd, Enc.encR_major _ _ _ _ _ _ (by decide)]; rfl
    rw [hd]
    exact h hw _ (Enc.encR_fn _ _ _ _ _ _ (by decide) hf) (Enc.encR_c _ _ _ _ _ _ (by decide)) (Enc.encR_b _ _ _ _ _ _ (by decide))
      (Enc.encR_a _ _ _ _ _ _ (by decide)) (Enc.encR_d _ _ _ _ _ _ (by decide))))

/-- What decoding a word of major 0x1E comes to. -/
theorem Enc.r1E (i : Instr) (f : Nat) (c b a d : Reg) (he : encode i = encR 0x1E f c b a d) (hf : f < 32) (hm : i.form ≠ .micro)
    (h : i.wellFormed = true → ∀ w, ffn w = f → fc w = c → fb w = b → fa w = a → fd w = d → decSync 0x1E w = .ok i) : Enc.Statement i :=
  Enc.start i hm (fun hw => he ▸ (by
    have hd : decode (encR 0x1E f c b a d) = decSync 0x1E (encR 0x1E f c b a d) := by
      delta decode decWord; rw [Enc.encR_odd, Enc.encR_major _ _ _ _ _ _ (by decide)]; rfl
    rw [hd]
    exact h hw _ (Enc.encR_fn _ _ _ _ _ _ (by decide) hf) (Enc.encR_c _ _ _ _ _ _ (by decide)) (Enc.encR_b _ _ _ _ _ _ (by decide))
      (Enc.encR_a _ _ _ _ _ _ (by decide)) (Enc.encR_d _ _ _ _ _ _ (by decide))))

/-- What decoding a word of major 0x1F comes to. -/
theorem Enc.r1F (i : Instr) (f : Nat) (c b a d : Reg) (he : encode i = encR 0x1F f c b a d) (hf : f < 32) (hm : i.form ≠ .micro)
    (h : i.wellFormed = true → ∀ w, ffn w = f → fc w = c → fb w = b → fa w = a → fd w = d → decSync 0x1F w = .ok i) : Enc.Statement i :=
  Enc.start i hm (fun hw => he ▸ (by
    have hd : decode (encR 0x1F f c b a d) = decSync 0x1F (encR 0x1F f c b a d) := by
      delta decode decWord; rw [Enc.encR_odd, Enc.encR_major _ _ _ _ _ _ (by decide)]; rfl
    rw [hd]
    exact h hw _ (Enc.encR_fn _ _ _ _ _ _ (by decide) hf) (Enc.encR_c _ _ _ _ _ _ (by decide)) (Enc.encR_b _ _ _ _ _ _ (by decide))
      (Enc.encR_a _ _ _ _ _ _ (by decide)) (Enc.encR_d _ _ _ _ _ _ (by decide))))

/-- What decoding a word of major 0x20 comes to. -/
theorem Enc.r20 (i : Instr) (f : Nat) (c b a d : Reg) (he : encode i = encR 0x20 f c b a d) (hf : f < 32) (hm : i.form ≠ .micro)
    (h : i.wellFormed = true → ∀ w, ffn w = f → fc w = c → fb w = b → fa w = a → fd w = d → decSync 0x20 w = .ok i) : Enc.Statement i :=
  Enc.start i hm (fun hw => he ▸ (by
    have hd : decode (encR 0x20 f c b a d) = decSync 0x20 (encR 0x20 f c b a d) := by
      delta decode decWord; rw [Enc.encR_odd, Enc.encR_major _ _ _ _ _ _ (by decide)]; rfl
    rw [hd]
    exact h hw _ (Enc.encR_fn _ _ _ _ _ _ (by decide) hf) (Enc.encR_c _ _ _ _ _ _ (by decide)) (Enc.encR_b _ _ _ _ _ _ (by decide))
      (Enc.encR_a _ _ _ _ _ _ (by decide)) (Enc.encR_d _ _ _ _ _ _ (by decide))))

/-- What decoding a word of major 0x21 comes to. -/
theorem Enc.r21 (i : Instr) (f : Nat) (c b a d : Reg) (he : encode i = encR 0x21 f c b a d) (hf : f < 32) (hm : i.form ≠ .micro)
    (h : i.wellFormed = true → ∀ w, ffn w = f → fc w = c → fb w = b → fa w = a → fd w = d → decControl w = .ok i) : Enc.Statement i :=
  Enc.start i hm (fun hw => he ▸ (by
    have hd : decode (encR 0x21 f c b a d) = decControl (encR 0x21 f c b a d) := by
      delta decode decWord; rw [Enc.encR_odd, Enc.encR_major _ _ _ _ _ _ (by decide)]; rfl
    rw [hd]
    exact h hw _ (Enc.encR_fn _ _ _ _ _ _ (by decide) hf) (Enc.encR_c _ _ _ _ _ _ (by decide)) (Enc.encR_b _ _ _ _ _ _ (by decide))
      (Enc.encR_a _ _ _ _ _ _ (by decide)) (Enc.encR_d _ _ _ _ _ _ (by decide))))

/-- What decoding a word of major 0x22 comes to. -/
theorem Enc.r22 (i : Instr) (f : Nat) (c b a d : Reg) (he : encode i = encR 0x22 f c b a d) (hf : f < 32) (hm : i.form ≠ .micro)
    (h : i.wellFormed = true → ∀ w, ffn w = f → fc w = c → fb w = b → fa w = a → fd w = d → decLaneA w = .ok i) : Enc.Statement i :=
  Enc.start i hm (fun hw => he ▸ (by
    have hd : decode (encR 0x22 f c b a d) = decLaneA (encR 0x22 f c b a d) := by
      delta decode decWord; rw [Enc.encR_odd, Enc.encR_major _ _ _ _ _ _ (by decide)]; rfl
    rw [hd]
    exact h hw _ (Enc.encR_fn _ _ _ _ _ _ (by decide) hf) (Enc.encR_c _ _ _ _ _ _ (by decide)) (Enc.encR_b _ _ _ _ _ _ (by decide))
      (Enc.encR_a _ _ _ _ _ _ (by decide)) (Enc.encR_d _ _ _ _ _ _ (by decide))))

/-- What decoding a word of major 0x23 comes to. -/
theorem Enc.r23 (i : Instr) (f : Nat) (c b a d : Reg) (he : encode i = encR 0x23 f c b a d) (hf : f < 32) (hm : i.form ≠ .micro)
    (h : i.wellFormed = true → ∀ w, ffn w = f → fc w = c → fb w = b → fa w = a → fd w = d → decLaneB w = .ok i) : Enc.Statement i :=
  Enc.start i hm (fun hw => he ▸ (by
    have hd : decode (encR 0x23 f c b a d) = decLaneB (encR 0x23 f c b a d) := by
      delta decode decWord; rw [Enc.encR_odd, Enc.encR_major _ _ _ _ _ _ (by decide)]; rfl
    rw [hd]
    exact h hw _ (Enc.encR_fn _ _ _ _ _ _ (by decide) hf) (Enc.encR_c _ _ _ _ _ _ (by decide)) (Enc.encR_b _ _ _ _ _ _ (by decide))
      (Enc.encR_a _ _ _ _ _ _ (by decide)) (Enc.encR_d _ _ _ _ _ _ (by decide))))

/-- What decoding a word of major 0x24 comes to. -/
theorem Enc.r24 (i : Instr) (f : Nat) (c b a d : Reg) (he : encode i = encR 0x24 f c b a d) (hf : f < 32) (hm : i.form ≠ .micro)
    (h : i.wellFormed = true → ∀ w, ffn w = f → fc w = c → fb w = b → fa w = a → fd w = d → decLaneC w = .ok i) : Enc.Statement i :=
  Enc.start i hm (fun hw => he ▸ (by
    have hd : decode (encR 0x24 f c b a d) = decLaneC (encR 0x24 f c b a d) := by
      delta decode decWord; rw [Enc.encR_odd, Enc.encR_major _ _ _ _ _ _ (by decide)]; rfl
    rw [hd]
    exact h hw _ (Enc.encR_fn _ _ _ _ _ _ (by decide) hf) (Enc.encR_c _ _ _ _ _ _ (by decide)) (Enc.encR_b _ _ _ _ _ _ (by decide))
      (Enc.encR_a _ _ _ _ _ _ (by decide)) (Enc.encR_d _ _ _ _ _ _ (by decide))))

/-- What decoding a word of major 0x25 comes to. -/
theorem Enc.r25 (i : Instr) (f : Nat) (c b a d : Reg) (he : encode i = encR 0x25 f c b a d) (hf : f < 32) (hm : i.form ≠ .micro)
    (h : i.wellFormed = true → ∀ w, ffn w = f → fc w = c → fb w = b → fa w = a → fd w = d → decFma w = .ok i) : Enc.Statement i :=
  Enc.start i hm (fun hw => he ▸ (by
    have hd : decode (encR 0x25 f c b a d) = decFma (encR 0x25 f c b a d) := by
      delta decode decWord; rw [Enc.encR_odd, Enc.encR_major _ _ _ _ _ _ (by decide)]; rfl
    rw [hd]
    exact h hw _ (Enc.encR_fn _ _ _ _ _ _ (by decide) hf) (Enc.encR_c _ _ _ _ _ _ (by decide)) (Enc.encR_b _ _ _ _ _ _ (by decide))
      (Enc.encR_a _ _ _ _ _ _ (by decide)) (Enc.encR_d _ _ _ _ _ _ (by decide))))

/-- What decoding a word of major 0x26 comes to. -/
theorem Enc.r26 (i : Instr) (f : Nat) (c b a d : Reg) (he : encode i = encR 0x26 f c b a d) (hf : f < 32) (hm : i.form ≠ .micro)
    (h : i.wellFormed = true → ∀ w, ffn w = f → fc w = c → fb w = b → fa w = a → fd w = d → decEngine 0x26 w = .ok i) : Enc.Statement i :=
  Enc.start i hm (fun hw => he ▸ (by
    have hd : decode (encR 0x26 f c b a d) = decEngine 0x26 (encR 0x26 f c b a d) := by
      delta decode decWord; rw [Enc.encR_odd, Enc.encR_major _ _ _ _ _ _ (by decide)]; rfl
    rw [hd]
    exact h hw _ (Enc.encR_fn _ _ _ _ _ _ (by decide) hf) (Enc.encR_c _ _ _ _ _ _ (by decide)) (Enc.encR_b _ _ _ _ _ _ (by decide))
      (Enc.encR_a _ _ _ _ _ _ (by decide)) (Enc.encR_d _ _ _ _ _ _ (by decide))))

/-- What decoding a word of major 0x27 comes to. -/
theorem Enc.r27 (i : Instr) (f : Nat) (c b a d : Reg) (he : encode i = encR 0x27 f c b a d) (hf : f < 32) (hm : i.form ≠ .micro)
    (h : i.wellFormed = true → ∀ w, ffn w = f → fc w = c → fb w = b → fa w = a → fd w = d → decEngine 0x27 w = .ok i) : Enc.Statement i :=
  Enc.start i hm (fun hw => he ▸ (by
    have hd : decode (encR 0x27 f c b a d) = decEngine 0x27 (encR 0x27 f c b a d) := by
      delta decode decWord; rw [Enc.encR_odd, Enc.encR_major _ _ _ _ _ _ (by decide)]; rfl
    rw [hd]
    exact h hw _ (Enc.encR_fn _ _ _ _ _ _ (by decide) hf) (Enc.encR_c _ _ _ _ _ _ (by decide)) (Enc.encR_b _ _ _ _ _ _ (by decide))
      (Enc.encR_a _ _ _ _ _ _ (by decide)) (Enc.encR_d _ _ _ _ _ _ (by decide))))

/-- What decoding a word of major 0x28 comes to. -/
theorem Enc.r28 (i : Instr) (f : Nat) (c b a d : Reg) (he : encode i = encR 0x28 f c b a d) (hf : f < 32) (hm : i.form ≠ .micro)
    (h : i.wellFormed = true → ∀ w, ffn w = f → fc w = c → fb w = b → fa w = a → fd w = d → decEngine 0x28 w = .ok i) : Enc.Statement i :=
  Enc.start i hm (fun hw => he ▸ (by
    have hd : decode (encR 0x28 f c b a d) = decEngine 0x28 (encR 0x28 f c b a d) := by
      delta decode decWord; rw [Enc.encR_odd, Enc.encR_major _ _ _ _ _ _ (by decide)]; rfl
    rw [hd]
    exact h hw _ (Enc.encR_fn _ _ _ _ _ _ (by decide) hf) (Enc.encR_c _ _ _ _ _ _ (by decide)) (Enc.encR_b _ _ _ _ _ _ (by decide))
      (Enc.encR_a _ _ _ _ _ _ (by decide)) (Enc.encR_d _ _ _ _ _ _ (by decide))))

/-- What decoding a word of major 0x29 comes to. -/
theorem Enc.r29 (i : Instr) (f : Nat) (c b a d : Reg) (he : encode i = encR 0x29 f c b a d) (hf : f < 32) (hm : i.form ≠ .micro)
    (h : i.wellFormed = true → ∀ w, ffn w = f → fc w = c → fb w = b → fa w = a → fd w = d → decEngine 0x29 w = .ok i) : Enc.Statement i :=
  Enc.start i hm (fun hw => he ▸ (by
    have hd : decode (encR 0x29 f c b a d) = decEngine 0x29 (encR 0x29 f c b a d) := by
      delta decode decWord; rw [Enc.encR_odd, Enc.encR_major _ _ _ _ _ _ (by decide)]; rfl
    rw [hd]
    exact h hw _ (Enc.encR_fn _ _ _ _ _ _ (by decide) hf) (Enc.encR_c _ _ _ _ _ _ (by decide)) (Enc.encR_b _ _ _ _ _ _ (by decide))
      (Enc.encR_a _ _ _ _ _ _ (by decide)) (Enc.encR_d _ _ _ _ _ _ (by decide))))

/-- What decoding a word of major 0x2A comes to. -/
theorem Enc.r2A (i : Instr) (f : Nat) (c b a d : Reg) (he : encode i = encR 0x2A f c b a d) (hf : f < 32) (hm : i.form ≠ .micro)
    (h : i.wellFormed = true → ∀ w, ffn w = f → fc w = c → fb w = b → fa w = a → fd w = d → decEngine 0x2A w = .ok i) : Enc.Statement i :=
  Enc.start i hm (fun hw => he ▸ (by
    have hd : decode (encR 0x2A f c b a d) = decEngine 0x2A (encR 0x2A f c b a d) := by
      delta decode decWord; rw [Enc.encR_odd, Enc.encR_major _ _ _ _ _ _ (by decide)]; rfl
    rw [hd]
    exact h hw _ (Enc.encR_fn _ _ _ _ _ _ (by decide) hf) (Enc.encR_c _ _ _ _ _ _ (by decide)) (Enc.encR_b _ _ _ _ _ _ (by decide))
      (Enc.encR_a _ _ _ _ _ _ (by decide)) (Enc.encR_d _ _ _ _ _ _ (by decide))))

/-- What decoding a word of major 0x2B comes to. -/
theorem Enc.r2B (i : Instr) (f : Nat) (c b a d : Reg) (he : encode i = encR 0x2B f c b a d) (hf : f < 32) (hm : i.form ≠ .micro)
    (h : i.wellFormed = true → ∀ w, ffn w = f → fc w = c → fb w = b → fa w = a → fd w = d → decEngine 0x2B w = .ok i) : Enc.Statement i :=
  Enc.start i hm (fun hw => he ▸ (by
    have hd : decode (encR 0x2B f c b a d) = decEngine 0x2B (encR 0x2B f c b a d) := by
      delta decode decWord; rw [Enc.encR_odd, Enc.encR_major _ _ _ _ _ _ (by decide)]; rfl
    rw [hd]
    exact h hw _ (Enc.encR_fn _ _ _ _ _ _ (by decide) hf) (Enc.encR_c _ _ _ _ _ _ (by decide)) (Enc.encR_b _ _ _ _ _ _ (by decide))
      (Enc.encR_a _ _ _ _ _ _ (by decide)) (Enc.encR_d _ _ _ _ _ _ (by decide))))

/-- What decoding a word of major 0x2C comes to. -/
theorem Enc.r2C (i : Instr) (f : Nat) (c b a d : Reg) (he : encode i = encR 0x2C f c b a d) (hf : f < 32) (hm : i.form ≠ .micro)
    (h : i.wellFormed = true → ∀ w, ffn w = f → fc w = c → fb w = b → fa w = a → fd w = d → decEngine 0x2C w = .ok i) : Enc.Statement i :=
  Enc.start i hm (fun hw => he ▸ (by
    have hd : decode (encR 0x2C f c b a d) = decEngine 0x2C (encR 0x2C f c b a d) := by
      delta decode decWord; rw [Enc.encR_odd, Enc.encR_major _ _ _ _ _ _ (by decide)]; rfl
    rw [hd]
    exact h hw _ (Enc.encR_fn _ _ _ _ _ _ (by decide) hf) (Enc.encR_c _ _ _ _ _ _ (by decide)) (Enc.encR_b _ _ _ _ _ _ (by decide))
      (Enc.encR_a _ _ _ _ _ _ (by decide)) (Enc.encR_d _ _ _ _ _ _ (by decide))))

/-- What decoding a word of major 0x2D comes to. -/
theorem Enc.r2D (i : Instr) (f : Nat) (c b a d : Reg) (he : encode i = encR 0x2D f c b a d) (hf : f < 32) (hm : i.form ≠ .micro)
    (h : i.wellFormed = true → ∀ w, ffn w = f → fc w = c → fb w = b → fa w = a → fd w = d → decEngine 0x2D w = .ok i) : Enc.Statement i :=
  Enc.start i hm (fun hw => he ▸ (by
    have hd : decode (encR 0x2D f c b a d) = decEngine 0x2D (encR 0x2D f c b a d) := by
      delta decode decWord; rw [Enc.encR_odd, Enc.encR_major _ _ _ _ _ _ (by decide)]; rfl
    rw [hd]
    exact h hw _ (Enc.encR_fn _ _ _ _ _ _ (by decide) hf) (Enc.encR_c _ _ _ _ _ _ (by decide)) (Enc.encR_b _ _ _ _ _ _ (by decide))
      (Enc.encR_a _ _ _ _ _ _ (by decide)) (Enc.encR_d _ _ _ _ _ _ (by decide))))

/-- What decoding a word of major 0x2E comes to. -/
theorem Enc.r2E (i : Instr) (f : Nat) (c b a d : Reg) (he : encode i = encR 0x2E f c b a d) (hf : f < 32) (hm : i.form ≠ .micro)
    (h : i.wellFormed = true → ∀ w, ffn w = f → fc w = c → fb w = b → fa w = a → fd w = d → decEngine 0x2E w = .ok i) : Enc.Statement i :=
  Enc.start i hm (fun hw => he ▸ (by
    have hd : decode (encR 0x2E f c b a d) = decEngine 0x2E (encR 0x2E f c b a d) := by
      delta decode decWord; rw [Enc.encR_odd, Enc.encR_major _ _ _ _ _ _ (by decide)]; rfl
    rw [hd]
    exact h hw _ (Enc.encR_fn _ _ _ _ _ _ (by decide) hf) (Enc.encR_c _ _ _ _ _ _ (by decide)) (Enc.encR_b _ _ _ _ _ _ (by decide))
      (Enc.encR_a _ _ _ _ _ _ (by decide)) (Enc.encR_d _ _ _ _ _ _ (by decide))))

/-- What decoding a word of major 0x2F comes to. -/
theorem Enc.r2F (i : Instr) (f : Nat) (c b a d : Reg) (he : encode i = encR 0x2F f c b a d) (hf : f < 32) (hm : i.form ≠ .micro)
    (h : i.wellFormed = true → ∀ w, ffn w = f → fc w = c → fb w = b → fa w = a → fd w = d → decEngine 0x2F w = .ok i) : Enc.Statement i :=
  Enc.start i hm (fun hw => he ▸ (by
    have hd : decode (encR 0x2F f c b a d) = decEngine 0x2F (encR 0x2F f c b a d) := by
      delta decode decWord; rw [Enc.encR_odd, Enc.encR_major _ _ _ _ _ _ (by decide)]; rfl
    rw [hd]
    exact h hw _ (Enc.encR_fn _ _ _ _ _ _ (by decide) hf) (Enc.encR_c _ _ _ _ _ _ (by decide)) (Enc.encR_b _ _ _ _ _ _ (by decide))
      (Enc.encR_a _ _ _ _ _ _ (by decide)) (Enc.encR_d _ _ _ _ _ _ (by decide))))

/-! ### One lemma for each constructor -/

theorem Enc.add (d a b : Fin 32) : Enc.Statement (.add d a b) :=
  Enc.r00 _ 0 0 b a d rfl (by decide) nofun
    (fun _ wd hf hc hb ha hd => by delta decInteger; rw [hf, hc, hb, ha, hd]; rfl)
theorem Enc.sub (d a b : Fin 32) : Enc.Statement (.sub d a b) :=
  Enc.r00 _ 1 0 b a d rfl (by decide) nofun
    (fun _ wd hf hc hb ha hd => by delta decInteger; rw [hf, hc, hb, ha, hd]; rfl)
theorem Enc.and (d a b : Fin 32) : Enc.Statement (.and d a b) :=
  Enc.r00 _ 2 0 b a d rfl (by decide) nofun
    (fun _ wd hf hc hb ha hd => by delta decInteger; rw [hf, hc, hb, ha, hd]; rfl)
theorem Enc.or (d a b : Fin 32) : Enc.Statement (.or d a b) :=
  Enc.r00 _ 3 0 b a d rfl (by decide) nofun
    (fun _ wd hf hc hb ha hd => by delta decInteger; rw [hf, hc, hb, ha, hd]; rfl)
theorem Enc.xor (d a b : Fin 32) : Enc.Statement (.xor d a b) :=
  Enc.r00 _ 4 0 b a d rfl (by decide) nofun
    (fun _ wd hf hc hb ha hd => by delta decInteger; rw [hf, hc, hb, ha, hd]; rfl)
theorem Enc.andn (d a b : Fin 32) : Enc.Statement (.andn d a b) :=
  Enc.r00 _ 5 0 b a d rfl (by decide) nofun
    (fun _ wd hf hc hb ha hd => by delta decInteger; rw [hf, hc, hb, ha, hd]; rfl)
theorem Enc.shl (d a b : Fin 32) : Enc.Statement (.shl d a b) :=
  Enc.r00 _ 6 0 b a d rfl (by decide) nofun
    (fun _ wd hf hc hb ha hd => by delta decInteger; rw [hf, hc, hb, ha, hd]; rfl)
theorem Enc.shr (d a b : Fin 32) : Enc.Statement (.shr d a b) :=
  Enc.r00 _ 7 0 b a d rfl (by decide) nofun
    (fun _ wd hf hc hb ha hd => by delta decInteger; rw [hf, hc, hb, ha, hd]; rfl)
theorem Enc.sra (d a b : Fin 32) : Enc.Statement (.sra d a b) :=
  Enc.r00 _ 8 0 b a d rfl (by decide) nofun
    (fun _ wd hf hc hb ha hd => by delta decInteger; rw [hf, hc, hb, ha, hd]; rfl)
theorem Enc.slt (d a b : Fin 32) : Enc.Statement (.slt d a b) :=
  Enc.r00 _ 9 0 b a d rfl (by decide) nofun
    (fun _ wd hf hc hb ha hd => by delta decInteger; rw [hf, hc, hb, ha, hd]; rfl)
theorem Enc.sltz (d a b : Fin 32) : Enc.Statement (.sltz d a b) :=
  Enc.r00 _ 10 0 b a d rfl (by decide) nofun
    (fun _ wd hf hc hb ha hd => by delta decInteger; rw [hf, hc, hb, ha, hd]; rfl)
theorem Enc.min (d a b : Fin 32) : Enc.Statement (.min d a b) :=
  Enc.r00 _ 11 0 b a d rfl (by decide) nofun
    (fun _ wd hf hc hb ha hd => by delta decInteger; rw [hf, hc, hb, ha, hd]; rfl)
theorem Enc.max (d a b : Fin 32) : Enc.Statement (.max d a b) :=
  Enc.r00 _ 12 0 b a d rfl (by decide) nofun
    (fun _ wd hf hc hb ha hd => by delta decInteger; rw [hf, hc, hb, ha, hd]; rfl)
theorem Enc.minz (d a b : Fin 32) : Enc.Statement (.minz d a b) :=
  Enc.r00 _ 13 0 b a d rfl (by decide) nofun
    (fun _ wd hf hc hb ha hd => by delta decInteger; rw [hf, hc, hb, ha, hd]; rfl)
theorem Enc.maxz (d a b : Fin 32) : Enc.Statement (.maxz d a b) :=
  Enc.r00 _ 14 0 b a d rfl (by decide) nofun
    (fun _ wd hf hc hb ha hd => by delta decInteger; rw [hf, hc, hb, ha, hd]; rfl)
theorem Enc.sel (d a b c : Fin 32) : Enc.Statement (.sel d a b c) :=
  Enc.r00 _ 15 c b a d rfl (by decide) nofun
    (fun _ wd hf hc hb ha hd => by delta decInteger; rw [hf, hc, hb, ha, hd]; rfl)
theorem Enc.addw (d a b : Fin 32) : Enc.Statement (.addw d a b) :=
  Enc.r00 _ 16 0 b a d rfl (by decide) nofun
    (fun _ wd hf hc hb ha hd => by delta decInteger; rw [hf, hc, hb, ha, hd]; rfl)
theorem Enc.subw (d a b : Fin 32) : Enc.Statement (.subw d a b) :=
  Enc.r00 _ 17 0 b a d rfl (by decide) nofun
    (fun _ wd hf hc hb ha hd => by delta decInteger; rw [hf, hc, hb, ha, hd]; rfl)
theorem Enc.rotl (d a b : Fin 32) : Enc.Statement (.rotl d a b) :=
  Enc.r00 _ 18 0 b a d rfl (by decide) nofun
    (fun _ wd hf hc hb ha hd => by delta decInteger; rw [hf, hc, hb, ha, hd]; rfl)
theorem Enc.rotr (d a b : Fin 32) : Enc.Statement (.rotr d a b) :=
  Enc.r00 _ 19 0 b a d rfl (by decide) nofun
    (fun _ wd hf hc hb ha hd => by delta decInteger; rw [hf, hc, hb, ha, hd]; rfl)
theorem Enc.addi (d a : Fin 32) (i : BitVec 15) : Enc.Statement (.addi d a i) :=
  Enc.rI _ 0x01 i a d rfl (by decide) nofun (fun wd ho hm hi ha hd => by delta decode decWord; rw [ho, hm, hi, ha, hd]; rfl)
theorem Enc.andi (d a : Fin 32) (i : BitVec 15) : Enc.Statement (.andi d a i) :=
  Enc.rI _ 0x02 i a d rfl (by decide) nofun (fun wd ho hm hi ha hd => by delta decode decWord; rw [ho, hm, hi, ha, hd]; rfl)
theorem Enc.ori (d a : Fin 32) (i : BitVec 15) : Enc.Statement (.ori d a i) :=
  Enc.rI _ 0x03 i a d rfl (by decide) nofun (fun wd ho hm hi ha hd => by delta decode decWord; rw [ho, hm, hi, ha, hd]; rfl)
theorem Enc.xori (d a : Fin 32) (i : BitVec 15) : Enc.Statement (.xori d a i) :=
  Enc.rI _ 0x04 i a d rfl (by decide) nofun (fun wd ho hm hi ha hd => by delta decode decWord; rw [ho, hm, hi, ha, hd]; rfl)
theorem Enc.shli (d a : Fin 32) (n : Fin 64) : Enc.Statement (.shli d a n) :=
  Enc.rShift _ 0 n a d rfl (by decide) nofun (fun wd hk hn ha hd => by delta decShift; rw [hk, hn, ha, hd]; rfl)
theorem Enc.shri (d a : Fin 32) (n : Fin 64) : Enc.Statement (.shri d a n) :=
  Enc.rShift _ 1 n a d rfl (by decide) nofun (fun wd hk hn ha hd => by delta decShift; rw [hk, hn, ha, hd]; rfl)
theorem Enc.srai (d a : Fin 32) (n : Fin 64) : Enc.Statement (.srai d a n) :=
  Enc.rShift _ 2 n a d rfl (by decide) nofun (fun wd hk hn ha hd => by delta decShift; rw [hk, hn, ha, hd]; rfl)
theorem Enc.slti (d a : Fin 32) (i : BitVec 15) : Enc.Statement (.slti d a i) :=
  Enc.rI _ 0x06 i a d rfl (by decide) nofun (fun wd ho hm hi ha hd => by delta decode decWord; rw [ho, hm, hi, ha, hd]; rfl)
theorem Enc.sltzi (d a : Fin 32) (i : BitVec 15) : Enc.Statement (.sltzi d a i) :=
  Enc.rI _ 0x07 i a d rfl (by decide) nofun (fun wd ho hm hi ha hd => by delta decode decWord; rw [ho, hm, hi, ha, hd]; rfl)
theorem Enc.lim (d : Fin 32) (i : BitVec 20) : Enc.Statement (.lim d i) :=
  Enc.rW _ 0x08 i d rfl (by decide) nofun (fun wd ho hm hi hd => by delta decode decWord; rw [ho, hm, hi, hd]; rfl)
theorem Enc.lpc (d : Fin 32) (i : BitVec 20) : Enc.Statement (.lpc d i) :=
  Enc.rW _ 0x09 i d rfl (by decide) nofun (fun wd ho hm hi hd => by delta decode decWord; rw [ho, hm, hi, hd]; rfl)
theorem Enc.clz (w : ElemWidth) (d a : Fin 32) : Enc.Statement (.clz w d a) :=
  Enc.r0A _ 0 (Fin.ofNat 32 w.code) 0 a d (by cases w <;> rfl) (by decide) nofun
    (fun _ wd hf hc hb ha hd => by delta decInteger; rw [hf, hc, hb, ha, hd]; cases w <;> rfl)
theorem Enc.ctz (w : ElemWidth) (d a : Fin 32) : Enc.Statement (.ctz w d a) :=
  Enc.r0A _ 1 (Fin.ofNat 32 w.code) 0 a d (by cases w <;> rfl) (by decide) nofun
    (fun _ wd hf hc hb ha hd => by delta decInteger; rw [hf, hc, hb, ha, hd]; cases w <;> rfl)
theorem Enc.ffs (w : ElemWidth) (d a : Fin 32) : Enc.Statement (.ffs w d a) :=
  Enc.r0A _ 2 (Fin.ofNat 32 w.code) 0 a d (by cases w <;> rfl) (by decide) nofun
    (fun _ wd hf hc hb ha hd => by delta decInteger; rw [hf, hc, hb, ha, hd]; cases w <;> rfl)
theorem Enc.popc (w : ElemWidth) (d a : Fin 32) : Enc.Statement (.popc w d a) :=
  Enc.r0A _ 3 (Fin.ofNat 32 w.code) 0 a d (by cases w <;> rfl) (by decide) nofun
    (fun _ wd hf hc hb ha hd => by delta decInteger; rw [hf, hc, hb, ha, hd]; cases w <;> rfl)
theorem Enc.rev (d a : Fin 32) : Enc.Statement (.rev d a) :=
  Enc.r0A _ 4 0 0 a d rfl (by decide) nofun
    (fun _ wd hf hc hb ha hd => by delta decInteger; rw [hf, hc, hb, ha, hd]; rfl)
theorem Enc.bswap (d a : Fin 32) : Enc.Statement (.bswap d a) :=
  Enc.r0A _ 5 0 0 a d rfl (by decide) nofun
    (fun _ wd hf hc hb ha hd => by delta decInteger; rw [hf, hc, hb, ha, hd]; rfl)
theorem Enc.bext (d a b c : Fin 32) : Enc.Statement (.bext d a b c) :=
  Enc.r0A _ 6 c b a d rfl (by decide) nofun
    (fun _ wd hf hc hb ha hd => by delta decInteger; rw [hf, hc, hb, ha, hd]; rfl)
theorem Enc.bins (d a b c : Fin 32) : Enc.Statement (.bins d a b c) :=
  Enc.r0A _ 7 c b a d rfl (by decide) nofun
    (fun _ wd hf hc hb ha hd => by delta decInteger; rw [hf, hc, hb, ha, hd]; rfl)
theorem Enc.mul (d a b : Fin 32) : Enc.Statement (.mul d a b) :=
  Enc.r0B _ 0 0 b a d rfl (by decide) nofun
    (fun _ wd hf hc hb ha hd => by delta decInteger; rw [hf, hc, hb, ha, hd]; rfl)
theorem Enc.mulh (d a b : Fin 32) : Enc.Statement (.mulh d a b) :=
  Enc.r0B _ 1 0 b a d rfl (by decide) nofun
    (fun _ wd hf hc hb ha hd => by delta decInteger; rw [hf, hc, hb, ha, hd]; rfl)
theorem Enc.mulhz (d a b : Fin 32) : Enc.Statement (.mulhz d a b) :=
  Enc.r0B _ 2 0 b a d rfl (by decide) nofun
    (fun _ wd hf hc hb ha hd => by delta decInteger; rw [hf, hc, hb, ha, hd]; rfl)
theorem Enc.mulhsz (d a b : Fin 32) : Enc.Statement (.mulhsz d a b) :=
  Enc.r0B _ 3 0 b a d rfl (by decide) nofun
    (fun _ wd hf hc hb ha hd => by delta decInteger; rw [hf, hc, hb, ha, hd]; rfl)
theorem Enc.div (d a b : Fin 32) : Enc.Statement (.div d a b) :=
  Enc.r0B _ 4 0 b a d rfl (by decide) nofun
    (fun _ wd hf hc hb ha hd => by delta decInteger; rw [hf, hc, hb, ha, hd]; rfl)
theorem Enc.divz (d a b : Fin 32) : Enc.Statement (.divz d a b) :=
  Enc.r0B _ 5 0 b a d rfl (by decide) nofun
    (fun _ wd hf hc hb ha hd => by delta decInteger; rw [hf, hc, hb, ha, hd]; rfl)
theorem Enc.rem (d a b : Fin 32) : Enc.Statement (.rem d a b) :=
  Enc.r0B _ 6 0 b a d rfl (by decide) nofun
    (fun _ wd hf hc hb ha hd => by delta decInteger; rw [hf, hc, hb, ha, hd]; rfl)
theorem Enc.remz (d a b : Fin 32) : Enc.Statement (.remz d a b) :=
  Enc.r0B _ 7 0 b a d rfl (by decide) nofun
    (fun _ wd hf hc hb ha hd => by delta decInteger; rw [hf, hc, hb, ha, hd]; rfl)
theorem Enc.mulw (d a b : Fin 32) : Enc.Statement (.mulw d a b) :=
  Enc.r0B _ 8 0 b a d rfl (by decide) nofun
    (fun _ wd hf hc hb ha hd => by delta decInteger; rw [hf, hc, hb, ha, hd]; rfl)
theorem Enc.beq (a b : Fin 32) (o : BitVec 15) : Enc.Statement (.beq a b o) :=
  Enc.rS _ 0x0C o b a rfl (by decide) nofun (fun wd ho hm hi hb ha => by delta decode decWord; rw [ho, hm, hi, hb, ha]; rfl)
theorem Enc.bne (a b : Fin 32) (o : BitVec 15) : Enc.Statement (.bne a b o) :=
  Enc.rS _ 0x0D o b a rfl (by decide) nofun (fun wd ho hm hi hb ha => by delta decode decWord; rw [ho, hm, hi, hb, ha]; rfl)
theorem Enc.blt (a b : Fin 32) (o : BitVec 15) : Enc.Statement (.blt a b o) :=
  Enc.rS _ 0x0E o b a rfl (by decide) nofun (fun wd ho hm hi hb ha => by delta decode decWord; rw [ho, hm, hi, hb, ha]; rfl)
theorem Enc.bge (a b : Fin 32) (o : BitVec 15) : Enc.Statement (.bge a b o) :=
  Enc.rS _ 0x0F o b a rfl (by decide) nofun (fun wd ho hm hi hb ha => by delta decode decWord; rw [ho, hm, hi, hb, ha]; rfl)
theorem Enc.blo (a b : Fin 32) (o : BitVec 15) : Enc.Statement (.blo a b o) :=
  Enc.rS _ 0x10 o b a rfl (by decide) nofun (fun wd ho hm hi hb ha => by delta decode decWord; rw [ho, hm, hi, hb, ha]; rfl)
theorem Enc.bhs (a b : Fin 32) (o : BitVec 15) : Enc.Statement (.bhs a b o) :=
  Enc.rS _ 0x11 o b a rfl (by decide) nofun (fun wd ho hm hi hb ha => by delta decode decWord; rw [ho, hm, hi, hb, ha]; rfl)
theorem Enc.jal (d : Fin 32) (i : BitVec 20) : Enc.Statement (.jal d i) :=
  Enc.rW _ 0x12 i d rfl (by decide) nofun (fun wd ho hm hi hd => by delta decode decWord; rw [ho, hm, hi, hd]; rfl)
theorem Enc.jalr (d a : Fin 32) (i : BitVec 15) : Enc.Statement (.jalr d a i) :=
  Enc.rI _ 0x13 i a d rfl (by decide) nofun (fun wd ho hm hi ha hd => by delta decode decWord; rw [ho, hm, hi, ha, hd]; rfl)
theorem Enc.loop (a : Fin 32) (e : Fin 1024) : Enc.Statement (.loop a e) :=
  Enc.rL _ 0 e a rfl (by decide) nofun (fun h wd hz he hf hd => by
    delta decLoop; rw [hz, he, hf, hd]; simp [need, of_decide_eq_true h])
theorem Enc.loopi (n : Fin 32) (e : Fin 1024) : Enc.Statement (.loopi n e) :=
  Enc.rL _ 1 e n rfl (by decide) nofun (fun h wd hz he hf hd => by
    delta decLoop; rw [hz, he, hf, hd]; simp [need, of_decide_eq_true h])
theorem Enc.ldg (o : Order) (z : Size) (s : Bool) (d a : Fin 32) (i : BitVec 10) : Enc.Statement (.ldg o z s d a i) :=
  Enc.rM _ 0x15 (z.code + 4 * s.toNat + 8 * o.code) i a d rfl (by decide) (by cases o <;> cases z <;> cases s <;> decide) nofun
    (fun h wd ho hm hq hi ha hd => by delta decode decWord; rw [ho, hm]; delta decMem; rw [hq, hi, ha, hd]; cases o <;> cases z <;> cases s <;> first | rfl | exact (Bool.false_ne_true h).elim)
theorem Enc.stg (o : Order) (z : Size) (d a : Fin 32) (i : BitVec 10) : Enc.Statement (.stg o z d a i) :=
  Enc.rM _ 0x16 (z.code + 8 * o.code) i a d rfl (by decide) (by cases o <;> cases z <;> decide) nofun
    (fun _ wd ho hm hq hi ha hd => by delta decode decWord; rw [ho, hm]; delta decMem; rw [hq, hi, ha, hd]; cases o <;> cases z <;> rfl)
theorem Enc.ldgV (o : Order) (d a : Fin 32) (i : BitVec 10) : Enc.Statement (.ldgV o d a i) :=
  Enc.rM _ 0x17 (2 * o.code) i a d rfl (by decide) (by cases o <;> decide) nofun
    (fun _ wd ho hm hq hi ha hd => by delta decode decWord; rw [ho, hm]; delta decMem; rw [hq, hi, ha, hd]; cases o <;> rfl)
theorem Enc.stgV (o : Order) (d a : Fin 32) (i : BitVec 10) : Enc.Statement (.stgV o d a i) :=
  Enc.rM _ 0x17 (1 + 2 * o.code) i a d rfl (by decide) (by cases o <;> decide) nofun
    (fun _ wd ho hm hq hi ha hd => by delta decode decWord; rw [ho, hm]; delta decMem; rw [hq, hi, ha, hd]; cases o <;> rfl)
theorem Enc.ldl (o : Bool) (z : Size) (s : Bool) (d a : Fin 32) (i : BitVec 10) : Enc.Statement (.ldl o z s d a i) :=
  Enc.rM _ 0x18 (z.code + 4 * s.toNat + 8 * o.toNat) i a d rfl (by decide) (by cases o <;> cases z <;> cases s <;> decide) nofun
    (fun h wd ho hm hq hi ha hd => by delta decode decWord; rw [ho, hm]; delta decMem; rw [hq, hi, ha, hd]; cases o <;> cases z <;> cases s <;> first | rfl | exact (Bool.false_ne_true h).elim)
theorem Enc.stl (o : Bool) (z : Size) (d a : Fin 32) (i : BitVec 10) : Enc.Statement (.stl o z d a i) :=
  Enc.rM _ 0x19 (z.code + 8 * o.toNat) i a d rfl (by decide) (by cases o <;> cases z <;> decide) nofun
    (fun _ wd ho hm hq hi ha hd => by delta decode decWord; rw [ho, hm]; delta decMem; rw [hq, hi, ha, hd]; cases o <;> cases z <;> rfl)
theorem Enc.ldlV (o : Bool) (d a : Fin 32) (i : BitVec 10) : Enc.Statement (.ldlV o d a i) :=
  Enc.rM _ 0x1A (2 * o.toNat) i a d rfl (by decide) (by cases o <;> decide) nofun
    (fun _ wd ho hm hq hi ha hd => by delta decode decWord; rw [ho, hm]; delta decMem; rw [hq, hi, ha, hd]; cases o <;> rfl)
theorem Enc.stlV (o : Bool) (d a : Fin 32) (i : BitVec 10) : Enc.Statement (.stlV o d a i) :=
  Enc.rM _ 0x1A (1 + 2 * o.toNat) i a d rfl (by decide) (by cases o <;> decide) nofun
    (fun _ wd ho hm hq hi ha hd => by delta decode decWord; rw [ho, hm]; delta decMem; rw [hq, hi, ha, hd]; cases o <;> rfl)
theorem Enc.amoAdd (o : AtomOrder) (z : Bool) (d a b : Fin 32) : Enc.Statement (.amoAdd o z d a b) :=
  Enc.r1B _ 0 (Fin.ofNat 32 (2 + z.toNat + 4 * o.code)) b a d (by cases o <;> cases z <;> rfl) (by decide) nofun
    (fun _ wd hf hc hb ha hd => by delta decAtomic; rw [hf, hc, hb, ha, hd]; cases o <;> cases z <;> rfl)
theorem Enc.amoAnd (o : AtomOrder) (z : Bool) (d a b : Fin 32) : Enc.Statement (.amoAnd o z d a b) :=
  Enc.r1B _ 1 (Fin.ofNat 32 (2 + z.toNat + 4 * o.code)) b a d (by cases o <;> cases z <;> rfl) (by decide) nofun
    (fun _ wd hf hc hb ha hd => by delta decAtomic; rw [hf, hc, hb, ha, hd]; cases o <;> cases z <;> rfl)
theorem Enc.amoOr (o : AtomOrder) (z : Bool) (d a b : Fin 32) : Enc.Statement (.amoOr o z d a b) :=
  Enc.r1B _ 2 (Fin.ofNat 32 (2 + z.toNat + 4 * o.code)) b a d (by cases o <;> cases z <;> rfl) (by decide) nofun
    (fun _ wd hf hc hb ha hd => by delta decAtomic; rw [hf, hc, hb, ha, hd]; cases o <;> cases z <;> rfl)
theorem Enc.amoXor (o : AtomOrder) (z : Bool) (d a b : Fin 32) : Enc.Statement (.amoXor o z d a b) :=
  Enc.r1B _ 3 (Fin.ofNat 32 (2 + z.toNat + 4 * o.code)) b a d (by cases o <;> cases z <;> rfl) (by decide) nofun
    (fun _ wd hf hc hb ha hd => by delta decAtomic; rw [hf, hc, hb, ha, hd]; cases o <;> cases z <;> rfl)
theorem Enc.amoMin (o : AtomOrder) (z : Bool) (d a b : Fin 32) : Enc.Statement (.amoMin o z d a b) :=
  Enc.r1B _ 4 (Fin.ofNat 32 (2 + z.toNat + 4 * o.code)) b a d (by cases o <;> cases z <;> rfl) (by decide) nofun
    (fun _ wd hf hc hb ha hd => by delta decAtomic; rw [hf, hc, hb, ha, hd]; cases o <;> cases z <;> rfl)
theorem Enc.amoMax (o : AtomOrder) (z : Bool) (d a b : Fin 32) : Enc.Statement (.amoMax o z d a b) :=
  Enc.r1B _ 5 (Fin.ofNat 32 (2 + z.toNat + 4 * o.code)) b a d (by cases o <;> cases z <;> rfl) (by decide) nofun
    (fun _ wd hf hc hb ha hd => by delta decAtomic; rw [hf, hc, hb, ha, hd]; cases o <;> cases z <;> rfl)
theorem Enc.amoMinz (o : AtomOrder) (z : Bool) (d a b : Fin 32) : Enc.Statement (.amoMinz o z d a b) :=
  Enc.r1B _ 6 (Fin.ofNat 32 (2 + z.toNat + 4 * o.code)) b a d (by cases o <;> cases z <;> rfl) (by decide) nofun
    (fun _ wd hf hc hb ha hd => by delta decAtomic; rw [hf, hc, hb, ha, hd]; cases o <;> cases z <;> rfl)
theorem Enc.amoMaxz (o : AtomOrder) (z : Bool) (d a b : Fin 32) : Enc.Statement (.amoMaxz o z d a b) :=
  Enc.r1B _ 7 (Fin.ofNat 32 (2 + z.toNat + 4 * o.code)) b a d (by cases o <;> cases z <;> rfl) (by decide) nofun
    (fun _ wd hf hc hb ha hd => by delta decAtomic; rw [hf, hc, hb, ha, hd]; cases o <;> cases z <;> rfl)
theorem Enc.amoSwap (o : AtomOrder) (z : Bool) (d a b : Fin 32) : Enc.Statement (.amoSwap o z d a b) :=
  Enc.r1B _ 8 (Fin.ofNat 32 (2 + z.toNat + 4 * o.code)) b a d (by cases o <;> cases z <;> rfl) (by decide) nofun
    (fun _ wd hf hc hb ha hd => by delta decAtomic; rw [hf, hc, hb, ha, hd]; cases o <;> cases z <;> rfl)
theorem Enc.cas (o : AtomOrder) (z : Bool) (d a b : Fin 32) : Enc.Statement (.cas o z d a b) :=
  Enc.r1C _ 0 (Fin.ofNat 32 (2 + z.toNat + 4 * o.code)) b a d (by cases o <;> cases z <;> rfl) (by decide) nofun
    (fun _ wd hf hc hb ha hd => by delta decAtomic; rw [hf, hc, hb, ha, hd]; cases o <;> cases z <;> rfl)
theorem Enc.amolAdd (z : Bool) (d a b : Fin 32) : Enc.Statement (.amolAdd z d a b) :=
  Enc.r1D _ 0 (Fin.ofNat 32 (2 + z.toNat)) b a d (by cases z <;> rfl) (by decide) nofun
    (fun _ wd hf hc hb ha hd => by delta decAtomic; rw [hf, hc, hb, ha, hd]; cases z <;> rfl)
theorem Enc.amolAnd (z : Bool) (d a b : Fin 32) : Enc.Statement (.amolAnd z d a b) :=
  Enc.r1D _ 1 (Fin.ofNat 32 (2 + z.toNat)) b a d (by cases z <;> rfl) (by decide) nofun
    (fun _ wd hf hc hb ha hd => by delta decAtomic; rw [hf, hc, hb, ha, hd]; cases z <;> rfl)
theorem Enc.amolOr (z : Bool) (d a b : Fin 32) : Enc.Statement (.amolOr z d a b) :=
  Enc.r1D _ 2 (Fin.ofNat 32 (2 + z.toNat)) b a d (by cases z <;> rfl) (by decide) nofun
    (fun _ wd hf hc hb ha hd => by delta decAtomic; rw [hf, hc, hb, ha, hd]; cases z <;> rfl)
theorem Enc.amolXor (z : Bool) (d a b : Fin 32) : Enc.Statement (.amolXor z d a b) :=
  Enc.r1D _ 3 (Fin.ofNat 32 (2 + z.toNat)) b a d (by cases z <;> rfl) (by decide) nofun
    (fun _ wd hf hc hb ha hd => by delta decAtomic; rw [hf, hc, hb, ha, hd]; cases z <;> rfl)
theorem Enc.amolMin (z : Bool) (d a b : Fin 32) : Enc.Statement (.amolMin z d a b) :=
  Enc.r1D _ 4 (Fin.ofNat 32 (2 + z.toNat)) b a d (by cases z <;> rfl) (by decide) nofun
    (fun _ wd hf hc hb ha hd => by delta decAtomic; rw [hf, hc, hb, ha, hd]; cases z <;> rfl)
theorem Enc.amolMax (z : Bool) (d a b : Fin 32) : Enc.Statement (.amolMax z d a b) :=
  Enc.r1D _ 5 (Fin.ofNat 32 (2 + z.toNat)) b a d (by cases z <;> rfl) (by decide) nofun
    (fun _ wd hf hc hb ha hd => by delta decAtomic; rw [hf, hc, hb, ha, hd]; cases z <;> rfl)
theorem Enc.amolMinz (z : Bool) (d a b : Fin 32) : Enc.Statement (.amolMinz z d a b) :=
  Enc.r1D _ 6 (Fin.ofNat 32 (2 + z.toNat)) b a d (by cases z <;> rfl) (by decide) nofun
    (fun _ wd hf hc hb ha hd => by delta decAtomic; rw [hf, hc, hb, ha, hd]; cases z <;> rfl)
theorem Enc.amolMaxz (z : Bool) (d a b : Fin 32) : Enc.Statement (.amolMaxz z d a b) :=
  Enc.r1D _ 7 (Fin.ofNat 32 (2 + z.toNat)) b a d (by cases z <;> rfl) (by decide) nofun
    (fun _ wd hf hc hb ha hd => by delta decAtomic; rw [hf, hc, hb, ha, hd]; cases z <;> rfl)
theorem Enc.amolSwap (z : Bool) (d a b : Fin 32) : Enc.Statement (.amolSwap z d a b) :=
  Enc.r1D _ 8 (Fin.ofNat 32 (2 + z.toNat)) b a d (by cases z <;> rfl) (by decide) nofun
    (fun _ wd hf hc hb ha hd => by delta decAtomic; rw [hf, hc, hb, ha, hd]; cases z <;> rfl)
theorem Enc.cwait (k : Counter) (n : Fin 32) : Enc.Statement (.cwait k n) :=
  Enc.r1E _ 0 0 n (Fin.ofNat 32 k.code) 0 (by cases k <;> rfl) (by decide) nofun
    (fun _ wd hf hc hb ha hd => by delta decSync; rw [hf, hc, hb, ha, hd]; cases k <;> rfl)
theorem Enc.xfence (f t : PathId) : Enc.Statement (.xfence f t) :=
  Enc.r1E _ 1 0 (Fin.ofNat 32 t.code) (Fin.ofNat 32 f.code) 0 (by cases f <;> cases t <;> rfl) (by decide) nofun
    (fun _ wd hf hc hb ha hd => by delta decSync; rw [hf, hc, hb, ha, hd]; cases f <;> cases t <;> rfl)
theorem Enc.swinit (a b : Fin 32) : Enc.Statement (.swinit a b) :=
  Enc.r1E _ 2 0 b a 0 rfl (by decide) nofun
    (fun _ wd hf hc hb ha hd => by delta decSync; rw [hf, hc, hb, ha, hd]; rfl)
theorem Enc.swadd (a b : Fin 32) : Enc.Statement (.swadd a b) :=
  Enc.r1E _ 3 0 b a 0 rfl (by decide) nofun
    (fun _ wd hf hc hb ha hd => by delta decSync; rw [hf, hc, hb, ha, hd]; rfl)
theorem Enc.swwait (a b : Fin 32) : Enc.Statement (.swwait a b) :=
  Enc.r1E _ 4 0 b a 0 rfl (by decide) nofun
    (fun _ wd hf hc hb ha hd => by delta decSync; rw [hf, hc, hb, ha, hd]; rfl)
theorem Enc.swget (d a : Fin 32) : Enc.Statement (.swget d a) :=
  Enc.r1E _ 5 0 0 a d rfl (by decide) nofun
    (fun _ wd hf hc hb ha hd => by delta decSync; rw [hf, hc, hb, ha, hd]; rfl)
theorem Enc.swcnt (d a : Fin 32) : Enc.Statement (.swcnt d a) :=
  Enc.r1E _ 6 0 0 a d rfl (by decide) nofun
    (fun _ wd hf hc hb ha hd => by delta decSync; rw [hf, hc, hb, ha, hd]; rfl)
theorem Enc.mopen (a b c : Fin 32) : Enc.Statement (.mopen a b c) :=
  Enc.r1F _ 0 c b a 0 rfl (by decide) nofun
    (fun _ wd hf hc hb ha hd => by delta decSync; rw [hf, hc, hb, ha, hd]; rfl)
theorem Enc.mput (b : Fin 32) : Enc.Statement (.mput b) :=
  Enc.r1F _ 1 0 b 0 0 rfl (by decide) nofun
    (fun _ wd hf hc hb ha hd => by delta decSync; rw [hf, hc, hb, ha, hd]; rfl)
theorem Enc.mputV (b : Fin 32) : Enc.Statement (.mputV b) :=
  Enc.r1F _ 2 0 b 0 0 rfl (by decide) nofun
    (fun _ wd hf hc hb ha hd => by delta decSync; rw [hf, hc, hb, ha, hd]; rfl)
theorem Enc.mputE (b : Fin 32) : Enc.Statement (.mputE b) :=
  Enc.r1F _ 3 0 b 0 0 rfl (by decide) nofun
    (fun _ wd hf hc hb ha hd => by delta decSync; rw [hf, hc, hb, ha, hd]; rfl)
theorem Enc.mputVe (b : Fin 32) : Enc.Statement (.mputVe b) :=
  Enc.r1F _ 4 0 b 0 0 rfl (by decide) nofun
    (fun _ wd hf hc hb ha hd => by delta decSync; rw [hf, hc, hb, ha, hd]; rfl)
theorem Enc.gbar (d a : Fin 32) : Enc.Statement (.gbar d a) :=
  Enc.r20 _ 0 0 0 a d rfl (by decide) nofun
    (fun _ wd hf hc hb ha hd => by delta decSync; rw [hf, hc, hb, ha, hd]; rfl)
theorem Enc.gbarAnd (d a : Fin 32) : Enc.Statement (.gbarAnd d a) :=
  Enc.r20 _ 1 0 0 a d rfl (by decide) nofun
    (fun _ wd hf hc hb ha hd => by delta decSync; rw [hf, hc, hb, ha, hd]; rfl)
theorem Enc.gbarOr (d a : Fin 32) : Enc.Statement (.gbarOr d a) :=
  Enc.r20 _ 2 0 0 a d rfl (by decide) nofun
    (fun _ wd hf hc hb ha hd => by delta decSync; rw [hf, hc, hb, ha, hd]; rfl)
theorem Enc.gbarAdd (d a : Fin 32) : Enc.Statement (.gbarAdd d a) :=
  Enc.r20 _ 3 0 0 a d rfl (by decide) nofun
    (fun _ wd hf hc hb ha hd => by delta decSync; rw [hf, hc, hb, ha, hd]; rfl)
theorem Enc.gbarMax (d a : Fin 32) : Enc.Statement (.gbarMax d a) :=
  Enc.r20 _ 4 0 0 a d rfl (by decide) nofun
    (fun _ wd hf hc hb ha hd => by delta decSync; rw [hf, hc, hb, ha, hd]; rfl)
theorem Enc.gbarMin (d a : Fin 32) : Enc.Statement (.gbarMin d a) :=
  Enc.r20 _ 5 0 0 a d rfl (by decide) nofun
    (fun _ wd hf hc hb ha hd => by delta decSync; rw [hf, hc, hb, ha, hd]; rfl)
theorem Enc.launch (d a : Fin 32) : Enc.Statement (.launch d a) :=
  Enc.r21 _ 0 0 0 a d rfl (by decide) nofun
    (fun _ wd hf hc hb ha hd => by delta decControl; rw [hf, hc, hb, ha, hd]; rfl)
theorem Enc.exit (a : Fin 32) : Enc.Statement (.exit a) :=
  Enc.r21 _ 1 0 0 a 0 rfl (by decide) nofun
    (fun _ wd hf hc hb ha hd => by delta decControl; rw [hf, hc, hb, ha, hd]; rfl)
theorem Enc.yield : Enc.Statement (.yield) :=
  Enc.r21 _ 2 0 0 0 0 rfl (by decide) nofun
    (fun _ wd hf hc hb ha hd => by delta decControl; rw [hf, hc, hb, ha, hd]; rfl)
theorem Enc.sys (a : Fin 32) : Enc.Statement (.sys a) :=
  Enc.r21 _ 3 0 0 a 0 rfl (by decide) nofun
    (fun _ wd hf hc hb ha hd => by delta decControl; rw [hf, hc, hb, ha, hd]; rfl)
theorem Enc.brk : Enc.Statement (.brk) :=
  Enc.r21 _ 4 0 0 0 0 rfl (by decide) nofun
    (fun _ wd hf hc hb ha hd => by delta decControl; rw [hf, hc, hb, ha, hd]; rfl)
theorem Enc.uret : Enc.Statement (.uret) :=
  Enc.r21 _ 5 0 0 0 0 rfl (by decide) nofun
    (fun _ wd hf hc hb ha hd => by delta decControl; rw [hf, hc, hb, ha, hd]; rfl)
theorem Enc.uretReplay : Enc.Statement (.uretReplay) :=
  Enc.r21 _ 5 0 0 0 1 rfl (by decide) nofun
    (fun _ wd hf hc hb ha hd => by delta decControl; rw [hf, hc, hb, ha, hd]; rfl)
theorem Enc.srd (d : Fin 32) (n : Fin 1024) : Enc.Statement (.srd d n) :=
  Enc.r21 _ (n.val / 32) 6 (Fin.ofNat 32 (n.val % 32)) 0 d (Enc.encR_self ..) (by omega) nofun
    (fun _ wd hf hc hb ha hd => by
      have hn : fsr wd = n := by unfold fsr; rw [hf, hb]; apply Fin.ext; simp only [Fin.ofNat]; omega
      delta decControl; rw [hn, hc, hb, ha, hd]; rfl)
theorem Enc.swr (n : Fin 1024) (a : Fin 32) : Enc.Statement (.swr n a) :=
  Enc.r21 _ (n.val / 32) 7 (Fin.ofNat 32 (n.val % 32)) a 0 (Enc.encR_self ..) (by omega) nofun
    (fun _ wd hf hc hb ha hd => by
      have hn : fsr wd = n := by unfold fsr; rw [hf, hb]; apply Fin.ext; simp only [Fin.ofNat]; omega
      delta decControl; rw [hn, hc, hb, ha, hd]; rfl)
theorem Enc.vadd (t : LaneType) (d a b : Fin 32) : Enc.Statement (.vadd t d a b) :=
  Enc.r22 _ 0 (Fin.ofNat 32 t.code) b a d (by cases t <;> rfl) (by decide) nofun
    (fun h wd hf hc hb ha hd => by delta decLaneA needType ftype; rw [hf, hc, hb, ha, hd]; cases t <;> first | rfl | exact (Bool.false_ne_true h).elim)
theorem Enc.vsub (t : LaneType) (d a b : Fin 32) : Enc.Statement (.vsub t d a b) :=
  Enc.r22 _ 1 (Fin.ofNat 32 t.code) b a d (by cases t <;> rfl) (by decide) nofun
    (fun h wd hf hc hb ha hd => by delta decLaneA needType ftype; rw [hf, hc, hb, ha, hd]; cases t <;> first | rfl | exact (Bool.false_ne_true h).elim)
theorem Enc.vmul (t : LaneType) (d a b : Fin 32) : Enc.Statement (.vmul t d a b) :=
  Enc.r22 _ 2 (Fin.ofNat 32 t.code) b a d (by cases t <;> rfl) (by decide) nofun
    (fun h wd hf hc hb ha hd => by delta decLaneA needType ftype; rw [hf, hc, hb, ha, hd]; cases t <;> first | rfl | exact (Bool.false_ne_true h).elim)
theorem Enc.vmax (t : LaneType) (d a b : Fin 32) : Enc.Statement (.vmax t d a b) :=
  Enc.r22 _ 3 (Fin.ofNat 32 t.code) b a d (by cases t <;> rfl) (by decide) nofun
    (fun h wd hf hc hb ha hd => by delta decLaneA needType ftype; rw [hf, hc, hb, ha, hd]; cases t <;> first | rfl | exact (Bool.false_ne_true h).elim)
theorem Enc.vmin (t : LaneType) (d a b : Fin 32) : Enc.Statement (.vmin t d a b) :=
  Enc.r22 _ 4 (Fin.ofNat 32 t.code) b a d (by cases t <;> rfl) (by decide) nofun
    (fun h wd hf hc hb ha hd => by delta decLaneA needType ftype; rw [hf, hc, hb, ha, hd]; cases t <;> first | rfl | exact (Bool.false_ne_true h).elim)
theorem Enc.vand (t : LaneType) (d a b : Fin 32) : Enc.Statement (.vand t d a b) :=
  Enc.r22 _ 5 (Fin.ofNat 32 t.code) b a d (by cases t <;> rfl) (by decide) nofun
    (fun h wd hf hc hb ha hd => by delta decLaneA needType ftype; rw [hf, hc, hb, ha, hd]; cases t <;> first | rfl | exact (Bool.false_ne_true h).elim)
theorem Enc.vor (t : LaneType) (d a b : Fin 32) : Enc.Statement (.vor t d a b) :=
  Enc.r22 _ 6 (Fin.ofNat 32 t.code) b a d (by cases t <;> rfl) (by decide) nofun
    (fun h wd hf hc hb ha hd => by delta decLaneA needType ftype; rw [hf, hc, hb, ha, hd]; cases t <;> first | rfl | exact (Bool.false_ne_true h).elim)
theorem Enc.vxor (t : LaneType) (d a b : Fin 32) : Enc.Statement (.vxor t d a b) :=
  Enc.r22 _ 7 (Fin.ofNat 32 t.code) b a d (by cases t <;> rfl) (by decide) nofun
    (fun h wd hf hc hb ha hd => by delta decLaneA needType ftype; rw [hf, hc, hb, ha, hd]; cases t <;> first | rfl | exact (Bool.false_ne_true h).elim)
theorem Enc.vdiv (t : LaneType) (d a b : Fin 32) : Enc.Statement (.vdiv t d a b) :=
  Enc.r22 _ 8 (Fin.ofNat 32 t.code) b a d (by cases t <;> rfl) (by decide) nofun
    (fun h wd hf hc hb ha hd => by delta decLaneA needType ftype; rw [hf, hc, hb, ha, hd]; cases t <;> first | rfl | exact (Bool.false_ne_true h).elim)
theorem Enc.vsqrt (t : LaneType) (d a : Fin 32) : Enc.Statement (.vsqrt t d a) :=
  Enc.r22 _ 9 (Fin.ofNat 32 t.code) 0 a d (by cases t <;> rfl) (by decide) nofun
    (fun h wd hf hc hb ha hd => by delta decLaneA needType ftype; rw [hf, hc, hb, ha, hd]; cases t <;> first | rfl | exact (Bool.false_ne_true h).elim)
theorem Enc.vrcp (t : LaneType) (d a : Fin 32) : Enc.Statement (.vrcp t d a) :=
  Enc.r22 _ 10 (Fin.ofNat 32 t.code) 0 a d (by cases t <;> rfl) (by decide) nofun
    (fun h wd hf hc hb ha hd => by delta decLaneA needType ftype; rw [hf, hc, hb, ha, hd]; cases t <;> first | rfl | exact (Bool.false_ne_true h).elim)
theorem Enc.vrsq (t : LaneType) (d a : Fin 32) : Enc.Statement (.vrsq t d a) :=
  Enc.r22 _ 11 (Fin.ofNat 32 t.code) 0 a d (by cases t <;> rfl) (by decide) nofun
    (fun h wd hf hc hb ha hd => by delta decLaneA needType ftype; rw [hf, hc, hb, ha, hd]; cases t <;> first | rfl | exact (Bool.false_ne_true h).elim)
theorem Enc.vexp2 (t : LaneType) (d a : Fin 32) : Enc.Statement (.vexp2 t d a) :=
  Enc.r22 _ 12 (Fin.ofNat 32 t.code) 0 a d (by cases t <;> rfl) (by decide) nofun
    (fun h wd hf hc hb ha hd => by delta decLaneA needType ftype; rw [hf, hc, hb, ha, hd]; cases t <;> first | rfl | exact (Bool.false_ne_true h).elim)
theorem Enc.vlog2 (t : LaneType) (d a : Fin 32) : Enc.Statement (.vlog2 t d a) :=
  Enc.r22 _ 13 (Fin.ofNat 32 t.code) 0 a d (by cases t <;> rfl) (by decide) nofun
    (fun h wd hf hc hb ha hd => by delta decLaneA needType ftype; rw [hf, hc, hb, ha, hd]; cases t <;> first | rfl | exact (Bool.false_ne_true h).elim)
theorem Enc.vshl (t : LaneType) (d a b : Fin 32) : Enc.Statement (.vshl t d a b) :=
  Enc.r22 _ 14 (Fin.ofNat 32 t.code) b a d (by cases t <;> rfl) (by decide) nofun
    (fun h wd hf hc hb ha hd => by delta decLaneA needType ftype; rw [hf, hc, hb, ha, hd]; cases t <;> first | rfl | exact (Bool.false_ne_true h).elim)
theorem Enc.vshr (t : LaneType) (d a b : Fin 32) : Enc.Statement (.vshr t d a b) :=
  Enc.r22 _ 15 (Fin.ofNat 32 t.code) b a d (by cases t <;> rfl) (by decide) nofun
    (fun h wd hf hc hb ha hd => by delta decLaneA needType ftype; rw [hf, hc, hb, ha, hd]; cases t <;> first | rfl | exact (Bool.false_ne_true h).elim)
theorem Enc.vsra (t : LaneType) (d a b : Fin 32) : Enc.Statement (.vsra t d a b) :=
  Enc.r22 _ 16 (Fin.ofNat 32 t.code) b a d (by cases t <;> rfl) (by decide) nofun
    (fun h wd hf hc hb ha hd => by delta decLaneA needType ftype; rw [hf, hc, hb, ha, hd]; cases t <;> first | rfl | exact (Bool.false_ne_true h).elim)
theorem Enc.vabs (t : LaneType) (d a : Fin 32) : Enc.Statement (.vabs t d a) :=
  Enc.r22 _ 17 (Fin.ofNat 32 t.code) 0 a d (by cases t <;> rfl) (by decide) nofun
    (fun h wd hf hc hb ha hd => by delta decLaneA needType ftype; rw [hf, hc, hb, ha, hd]; cases t <;> first | rfl | exact (Bool.false_ne_true h).elim)
theorem Enc.vneg (t : LaneType) (d a : Fin 32) : Enc.Statement (.vneg t d a) :=
  Enc.r22 _ 18 (Fin.ofNat 32 t.code) 0 a d (by cases t <;> rfl) (by decide) nofun
    (fun h wd hf hc hb ha hd => by delta decLaneA needType ftype; rw [hf, hc, hb, ha, hd]; cases t <;> first | rfl | exact (Bool.false_ne_true h).elim)
theorem Enc.vmov (t : LaneType) (d a : Fin 32) : Enc.Statement (.vmov t d a) :=
  Enc.r22 _ 19 (Fin.ofNat 32 t.code) 0 a d (by cases t <;> rfl) (by decide) nofun
    (fun h wd hf hc hb ha hd => by delta decLaneA needType ftype; rw [hf, hc, hb, ha, hd]; cases t <;> first | rfl | exact (Bool.false_ne_true h).elim)
theorem Enc.vadd16 (bf : Bool) (d b : Fin 32) : Enc.Statement (.vadd16 bf d b) :=
  Enc.rH _ 0 bf b d rfl (by decide) nofun (fun h => by
      have h : ¬(bf = false ∧ d = 0 ∧ b = 0) := of_decide_eq_true h
      intro hz
      unfold enc16 at hz
      refine h ⟨?_, Fin.ext ?_, Fin.ext ?_⟩
      · cases bf
        · rfl
        · simp at hz
      · simp; omega
      · simp; omega)
    (fun wd ho ht hb hd hz => by delta decHalf; rw [ho, ht, hb, hd, hz]; rfl)
theorem Enc.vsub16 (bf : Bool) (d b : Fin 32) : Enc.Statement (.vsub16 bf d b) :=
  Enc.rH _ 1 bf b d rfl (by decide) nofun (fun _ => by unfold enc16; omega)
    (fun wd ho ht hb hd hz => by delta decHalf; rw [ho, ht, hb, hd, hz]; rfl)
theorem Enc.vmul16 (bf : Bool) (d b : Fin 32) : Enc.Statement (.vmul16 bf d b) :=
  Enc.rH _ 2 bf b d rfl (by decide) nofun (fun _ => by unfold enc16; omega)
    (fun wd ho ht hb hd hz => by delta decHalf; rw [ho, ht, hb, hd, hz]; rfl)
theorem Enc.vmax16 (bf : Bool) (d b : Fin 32) : Enc.Statement (.vmax16 bf d b) :=
  Enc.rH _ 3 bf b d rfl (by decide) nofun (fun _ => by unfold enc16; omega)
    (fun wd ho ht hb hd hz => by delta decHalf; rw [ho, ht, hb, hd, hz]; rfl)
theorem Enc.vmin16 (bf : Bool) (d b : Fin 32) : Enc.Statement (.vmin16 bf d b) :=
  Enc.rH _ 4 bf b d rfl (by decide) nofun (fun _ => by unfold enc16; omega)
    (fun wd ho ht hb hd hz => by delta decHalf; rw [ho, ht, hb, hd, hz]; rfl)
theorem Enc.vmov16 (d b : Fin 32) : Enc.Statement (.vmov16 d b) :=
  Enc.rH _ 5 false b d rfl (by decide) nofun (fun _ => by unfold enc16; omega)
    (fun wd ho ht hb hd hz => by delta decHalf; rw [ho, ht, hb, hd, hz]; rfl)
theorem Enc.vabs16 (bf : Bool) (d b : Fin 32) : Enc.Statement (.vabs16 bf d b) :=
  Enc.rH _ 6 bf b d rfl (by decide) nofun (fun _ => by unfold enc16; omega)
    (fun wd ho ht hb hd hz => by delta decHalf; rw [ho, ht, hb, hd, hz]; rfl)
theorem Enc.vneg16 (bf : Bool) (d b : Fin 32) : Enc.Statement (.vneg16 bf d b) :=
  Enc.rH _ 7 bf b d rfl (by decide) nofun (fun _ => by unfold enc16; omega)
    (fun wd ho ht hb hd hz => by delta decHalf; rw [ho, ht, hb, hd, hz]; rfl)
theorem Enc.vand16 (d b : Fin 32) : Enc.Statement (.vand16 d b) :=
  Enc.rH _ 8 false b d rfl (by decide) nofun (fun _ => by unfold enc16; omega)
    (fun wd ho ht hb hd hz => by delta decHalf; rw [ho, ht, hb, hd, hz]; rfl)
theorem Enc.vor16 (d b : Fin 32) : Enc.Statement (.vor16 d b) :=
  Enc.rH _ 9 false b d rfl (by decide) nofun (fun _ => by unfold enc16; omega)
    (fun wd ho ht hb hd hz => by delta decHalf; rw [ho, ht, hb, hd, hz]; rfl)
theorem Enc.vxor16 (d b : Fin 32) : Enc.Statement (.vxor16 d b) :=
  Enc.rH _ 10 false b d rfl (by decide) nofun (fun _ => by unfold enc16; omega)
    (fun wd ho ht hb hd hz => by delta decHalf; rw [ho, ht, hb, hd, hz]; rfl)
theorem Enc.vrcp16 (bf : Bool) (d b : Fin 32) : Enc.Statement (.vrcp16 bf d b) :=
  Enc.rH _ 11 bf b d rfl (by decide) nofun (fun _ => by unfold enc16; omega)
    (fun wd ho ht hb hd hz => by delta decHalf; rw [ho, ht, hb, hd, hz]; rfl)
theorem Enc.vrsq16 (bf : Bool) (d b : Fin 32) : Enc.Statement (.vrsq16 bf d b) :=
  Enc.rH _ 12 bf b d rfl (by decide) nofun (fun _ => by unfold enc16; omega)
    (fun wd ho ht hb hd hz => by delta decHalf; rw [ho, ht, hb, hd, hz]; rfl)
theorem Enc.vexp216 (bf : Bool) (d b : Fin 32) : Enc.Statement (.vexp216 bf d b) :=
  Enc.rH _ 13 bf b d rfl (by decide) nofun (fun _ => by unfold enc16; omega)
    (fun wd ho ht hb hd hz => by delta decHalf; rw [ho, ht, hb, hd, hz]; rfl)
theorem Enc.vbcast0 (bf : Bool) (d b : Fin 32) : Enc.Statement (.vbcast0 bf d b) :=
  Enc.rH _ 14 bf b d rfl (by decide) nofun (fun _ => by unfold enc16; omega)
    (fun wd ho ht hb hd hz => by delta decHalf; rw [ho, ht, hb, hd, hz]; rfl)
theorem Enc.vzero (d : Fin 32) : Enc.Statement (.vzero d) :=
  Enc.rH _ 15 false 0 d rfl (by decide) nofun (fun _ => by unfold enc16; omega)
    (fun wd ho ht hb hd hz => by delta decHalf; rw [ho, ht, hb, hd, hz]; rfl)
theorem Enc.modifierWord (m : Modifier) (follower : BitVec 32) : Enc.Statement (.modifierWord m follower) := by
  refine Enc.start _ nofun (fun _ => ?_)
  change decode (encModifier m + 4294967296 * follower.toNat) = _
  obtain ⟨clamp, neg, abs, sat, k⟩ := m
  have hk := k.isLt
  have hcl := clamp.isLt
  have hfo := follower.isLt
  unfold encModifier
  simp only
  have hn := neg.toNat_le
  have ha := abs.toNat_le
  have hs := sat.toNat_le
  generalize hw : 1 + 2 * 0x30 + 128 * k.toNat + 4096 * sat.toNat + 8192 * abs.toNat + 16384 * neg.toNat + 32768 * clamp.val
    + 4294967296 * follower.toNat = w
  have h1 : w % 2 = 1 := by omega
  have h2 : major w = 0x30 := by unfold major; omega
  rw [Enc.major30 w h1 h2]
  unfold decModifier
  rw [show w % 4294967296 / 131072 = 0 by omega]
  refine congrArg Except.ok (congrArg₂ Instr.modifierWord ?_ ?_)
  · congr
    · apply Fin.ext; simp only [Fin.ofNat]; omega
    · have : w / 16384 % 2 = neg.toNat := by omega
      rw [this]; cases neg <;> rfl
    · have : w / 8192 % 2 = abs.toNat := by omega
      rw [this]; cases abs <;> rfl
    · have : w / 4096 % 2 = sat.toNat := by omega
      rw [this]; cases sat <;> rfl
    · apply BitVec.eq_of_toNat_eq; rw [BitVec.toNat_ofNat]; omega
  · apply BitVec.eq_of_toNat_eq; rw [BitVec.toNat_ofNat]; omega
theorem Enc.vcmpEq (t : LaneType) (d a b : Fin 32) : Enc.Statement (.vcmpEq t d a b) :=
  Enc.r23 _ 0 (Fin.ofNat 32 t.code) b a d (by cases t <;> rfl) (by decide) nofun
    (fun h wd hf hc hb ha hd => by delta decLaneB needType ftype; rw [hf, hc, hb, ha, hd]; cases t <;> first | rfl | exact (Bool.false_ne_true h).elim)
theorem Enc.vcmpLt (t : LaneType) (d a b : Fin 32) : Enc.Statement (.vcmpLt t d a b) :=
  Enc.r23 _ 1 (Fin.ofNat 32 t.code) b a d (by cases t <;> rfl) (by decide) nofun
    (fun h wd hf hc hb ha hd => by delta decLaneB needType ftype; rw [hf, hc, hb, ha, hd]; cases t <;> first | rfl | exact (Bool.false_ne_true h).elim)
theorem Enc.vcmpLe (t : LaneType) (d a b : Fin 32) : Enc.Statement (.vcmpLe t d a b) :=
  Enc.r23 _ 2 (Fin.ofNat 32 t.code) b a d (by cases t <;> rfl) (by decide) nofun
    (fun h wd hf hc hb ha hd => by delta decLaneB needType ftype; rw [hf, hc, hb, ha, hd]; cases t <;> first | rfl | exact (Bool.false_ne_true h).elim)
theorem Enc.vcmpNe (t : LaneType) (d a b : Fin 32) : Enc.Statement (.vcmpNe t d a b) :=
  Enc.r23 _ 3 (Fin.ofNat 32 t.code) b a d (by cases t <;> rfl) (by decide) nofun
    (fun h wd hf hc hb ha hd => by delta decLaneB needType ftype; rw [hf, hc, hb, ha, hd]; cases t <;> first | rfl | exact (Bool.false_ne_true h).elim)
theorem Enc.vsel (t : LaneType) (d a b : Fin 32) : Enc.Statement (.vsel t d a b) :=
  Enc.r23 _ 4 (Fin.ofNat 32 t.code) b a d (by cases t <;> rfl) (by decide) nofun
    (fun h wd hf hc hb ha hd => by delta decLaneB needType ftype; rw [hf, hc, hb, ha, hd]; cases t <;> first | rfl | exact (Bool.false_ne_true h).elim)
theorem Enc.vredadd (t : LaneType) (d a : Fin 32) : Enc.Statement (.vredadd t d a) :=
  Enc.r23 _ 5 (Fin.ofNat 32 t.code) 0 a d (by cases t <;> rfl) (by decide) nofun
    (fun h wd hf hc hb ha hd => by delta decLaneB needType ftype; rw [hf, hc, hb, ha, hd]; cases t <;> first | rfl | exact (Bool.false_ne_true h).elim)
theorem Enc.vredmax (t : LaneType) (d a : Fin 32) : Enc.Statement (.vredmax t d a) :=
  Enc.r23 _ 6 (Fin.ofNat 32 t.code) 0 a d (by cases t <;> rfl) (by decide) nofun
    (fun h wd hf hc hb ha hd => by delta decLaneB needType ftype; rw [hf, hc, hb, ha, hd]; cases t <;> first | rfl | exact (Bool.false_ne_true h).elim)
theorem Enc.vredmin (t : LaneType) (d a : Fin 32) : Enc.Statement (.vredmin t d a) :=
  Enc.r23 _ 7 (Fin.ofNat 32 t.code) 0 a d (by cases t <;> rfl) (by decide) nofun
    (fun h wd hf hc hb ha hd => by delta decLaneB needType ftype; rw [hf, hc, hb, ha, hd]; cases t <;> first | rfl | exact (Bool.false_ne_true h).elim)
theorem Enc.vperm (t : LaneType) (d a b : Fin 32) : Enc.Statement (.vperm t d a b) :=
  Enc.r23 _ 8 (Fin.ofNat 32 t.code) b a d (by cases t <;> rfl) (by decide) nofun
    (fun h wd hf hc hb ha hd => by delta decLaneB needType ftype; rw [hf, hc, hb, ha, hd]; cases t <;> first | rfl | exact (Bool.false_ne_true h).elim)
theorem Enc.vdot (t : LaneType) (d a b : Fin 32) : Enc.Statement (.vdot t d a b) :=
  Enc.r23 _ 9 (Fin.ofNat 32 t.code) b a d (by cases t <;> rfl) (by decide) nofun
    (fun h wd hf hc hb ha hd => by delta decLaneB needType ftype; rw [hf, hc, hb, ha, hd]; cases t <;> first | rfl | exact (Bool.false_ne_true h).elim)
theorem Enc.vcvt (s u : LaneType) (d a : Fin 32) : Enc.Statement (.vcvt s u d a) :=
  Enc.r24 _ 0 (Fin.ofNat 32 s.code) (Fin.ofNat 32 u.code) a d (by cases s <;> cases u <;> rfl) (by decide) nofun
    (fun h wd hf hc hb ha hd => by delta decLaneC needType ftype; rw [hf, hc, hb, ha, hd]; cases s <;> cases u <;> first | rfl | exact (Bool.false_ne_true h).elim)
theorem Enc.vq8 (t : LaneType) (d a b : Fin 32) : Enc.Statement (.vq8 t d a b) :=
  Enc.r24 _ 1 (Fin.ofNat 32 t.code) b a d (by cases t <;> rfl) (by decide) nofun
    (fun h wd hf hc hb ha hd => by delta decLaneC needType ftype; rw [hf, hc, hb, ha, hd]; cases t <;> first | rfl | exact (Bool.false_ne_true h).elim)
theorem Enc.vdq8 (t : LaneType) (d a b : Fin 32) : Enc.Statement (.vdq8 t d a b) :=
  Enc.r24 _ 2 (Fin.ofNat 32 t.code) b a d (by cases t <;> rfl) (by decide) nofun
    (fun h wd hf hc hb ha hd => by delta decLaneC needType ftype; rw [hf, hc, hb, ha, hd]; cases t <;> first | rfl | exact (Bool.false_ne_true h).elim)
theorem Enc.vamax (t : LaneType) (d a : Fin 32) : Enc.Statement (.vamax t d a) :=
  Enc.r24 _ 3 (Fin.ofNat 32 t.code) 0 a d (by cases t <;> rfl) (by decide) nofun
    (fun h wd hf hc hb ha hd => by delta decLaneC needType ftype; rw [hf, hc, hb, ha, hd]; cases t <;> first | rfl | exact (Bool.false_ne_true h).elim)
theorem Enc.vbcast (t : LaneType) (d a : Fin 32) : Enc.Statement (.vbcast t d a) :=
  Enc.r24 _ 4 (Fin.ofNat 32 t.code) 0 a d (by cases t <;> rfl) (by decide) nofun
    (fun h wd hf hc hb ha hd => by delta decLaneC needType ftype; rw [hf, hc, hb, ha, hd]; cases t <;> first | rfl | exact (Bool.false_ne_true h).elim)
theorem Enc.vins (t : LaneType) (d a : Fin 32) (k : Fin 32) : Enc.Statement (.vins t d a k) :=
  Enc.r24 _ 5 (Fin.ofNat 32 t.code) k a d (by cases t <;> rfl) (by decide) nofun
    (fun h wd hf hc hb ha hd => by
      have h : decide (k.val < t.lanes) = true := h
      delta decLaneC needType ftype; rw [hf, hc, hb, ha, hd]; cases t <;> first | exact if_pos h | exact (if_pos h).trans rfl)
theorem Enc.vext (t : LaneType) (d a : Fin 32) (k : Fin 32) : Enc.Statement (.vext t d a k) :=
  Enc.r24 _ 6 (Fin.ofNat 32 t.code) k a d (by cases t <;> rfl) (by decide) nofun
    (fun h wd hf hc hb ha hd => by
      have h : decide (k.val < t.lanes) = true := h
      delta decLaneC needType ftype; rw [hf, hc, hb, ha, hd]; cases t <;> first | exact if_pos h | exact (if_pos h).trans rfl)
theorem Enc.vmvx (d a : Fin 32) (j : Fin 32) : Enc.Statement (.vmvx d a j) :=
  Enc.r24 _ 7 0 j a d rfl (by decide) nofun
    (fun h wd hf hc hb ha hd => by
      have h : j < 4 := of_decide_eq_true h
      delta decLaneC needType ftype; rw [hf, hc, hb, ha, hd]; exact if_pos (by simp [h]))
theorem Enc.vfma (t : LaneType) (d a b c : Fin 32) : Enc.Statement (.vfma t d a b c) :=
  Enc.r25 _ (0 + 4 * t.code) c b a d rfl (by cases t <;> decide) nofun
    (fun h wd hf hc hb ha hd => by
      delta decFma; rw [hf, hc, hb, ha, hd]; cases t <;> first | rfl | exact (Bool.false_ne_true h).elim)
theorem Enc.vfms (t : LaneType) (d a b c : Fin 32) : Enc.Statement (.vfms t d a b c) :=
  Enc.r25 _ (1 + 4 * t.code) c b a d rfl (by cases t <;> decide) nofun
    (fun h wd hf hc hb ha hd => by
      delta decFma; rw [hf, hc, hb, ha, hd]; cases t <;> first | rfl | exact (Bool.false_ne_true h).elim)
theorem Enc.vfnma (t : LaneType) (d a b c : Fin 32) : Enc.Statement (.vfnma t d a b c) :=
  Enc.r25 _ (2 + 4 * t.code) c b a d rfl (by cases t <;> decide) nofun
    (fun h wd hf hc hb ha hd => by
      delta decFma; rw [hf, hc, hb, ha, hd]; cases t <;> first | rfl | exact (Bool.false_ne_true h).elim)
theorem Enc.vfnms (t : LaneType) (d a b c : Fin 32) : Enc.Statement (.vfnms t d a b c) :=
  Enc.r25 _ (3 + 4 * t.code) c b a d rfl (by cases t <;> decide) nofun
    (fun h wd hf hc hb ha hd => by
      delta decFma; rw [hf, hc, hb, ha, hd]; cases t <;> first | rfl | exact (Bool.false_ne_true h).elim)
theorem Enc.sbind (s : Fin 4) (a : Fin 32) : Enc.Statement (.sbind s a) :=
  Enc.r26 _ 0 0 0 a (Fin.ofNat 32 s.val) (by rw [Enc.four]; rfl) (by decide) nofun
    (fun _ wd hf hc hb ha hd => by
      delta decEngine; rw [hf, hc, hb, ha, hd]; obtain ⟨s, hs⟩ := s; interval_cases s <;> rfl)
theorem Enc.seos (s : Fin 4) (a : Fin 32) : Enc.Statement (.seos s a) :=
  Enc.r26 _ 1 0 0 a (Fin.ofNat 32 s.val) (by rw [Enc.four]; rfl) (by decide) nofun
    (fun _ wd hf hc hb ha hd => by
      delta decEngine; rw [hf, hc, hb, ha, hd]; obtain ⟨s, hs⟩ := s; interval_cases s <;> rfl)
theorem Enc.sstat (d : Fin 32) (s : Fin 4) : Enc.Statement (.sstat d s) :=
  Enc.r26 _ 2 0 0 (Fin.ofNat 32 s.val) d (by rw [Enc.four]; rfl) (by decide) nofun
    (fun _ wd hf hc hb ha hd => by
      delta decEngine; rw [hf, hc, hb, ha, hd]; obtain ⟨s, hs⟩ := s; interval_cases s <;> rfl)
theorem Enc.sunbind (s : Fin 4) : Enc.Statement (.sunbind s) :=
  Enc.r26 _ 3 0 0 0 (Fin.ofNat 32 s.val) (by rw [Enc.four]; rfl) (by decide) nofun
    (fun _ wd hf hc hb ha hd => by
      delta decEngine; rw [hf, hc, hb, ha, hd]; obtain ⟨s, hs⟩ := s; interval_cases s <;> rfl)
theorem Enc.tql (d a b : Fin 32) : Enc.Statement (.tql d a b) :=
  Enc.r27 _ 0 0 b a d rfl (by decide) nofun
    (fun _ wd hf hc hb ha hd => by delta decEngine; rw [hf, hc, hb, ha, hd]; rfl)
theorem Enc.tqlatch (a : Fin 32) : Enc.Statement (.tqlatch a) :=
  Enc.r27 _ 1 0 0 a 0 rfl (by decide) nofun
    (fun _ wd hf hc hb ha hd => by delta decEngine; rw [hf, hc, hb, ha, hd]; rfl)
theorem Enc.tqd (a : Fin 32) : Enc.Statement (.tqd a) :=
  Enc.r27 _ 2 0 0 a 0 rfl (by decide) nofun
    (fun _ wd hf hc hb ha hd => by delta decEngine; rw [hf, hc, hb, ha, hd]; rfl)
theorem Enc.tqmac (a : Fin 32) : Enc.Statement (.tqmac a) :=
  Enc.r27 _ 3 0 0 a 0 rfl (by decide) nofun
    (fun _ wd hf hc hb ha hd => by delta decEngine; rw [hf, hc, hb, ha, hd]; rfl)
theorem Enc.tqread (a : Fin 32) : Enc.Statement (.tqread a) :=
  Enc.r27 _ 4 0 0 a 0 rfl (by decide) nofun
    (fun _ wd hf hc hb ha hd => by delta decEngine; rw [hf, hc, hb, ha, hd]; rfl)
theorem Enc.cpy (a b c : Fin 32) : Enc.Statement (.cpy a b c) :=
  Enc.r28 _ 0 c b a 0 rfl (by decide) nofun
    (fun h wd hf hc hb ha hd => by
      have h : (a.val % 4 = 0 ∧ a.val ≤ 24) ∧ b.val % 4 = 0 ∧ b.val ≤ 24 := of_decide_eq_true h
      have e1 : a ≤ 24 := h.1.2
      have e2 : b ≤ 24 := h.2.2
      delta decEngine; rw [hf, hc, hb, ha, hd]; exact if_pos (by simp [h.1.1, h.2.1, e1, e2]))
theorem Enc.cpyq (d : Fin 32) : Enc.Statement (.cpyq d) :=
  Enc.r28 _ 1 0 0 0 d rfl (by decide) nofun
    (fun _ wd hf hc hb ha hd => by delta decEngine; rw [hf, hc, hb, ha, hd]; rfl)
theorem Enc.mown : Enc.Statement (.mown) :=
  Enc.r29 _ 0 0 0 0 0 rfl (by decide) nofun
    (fun _ wd hf hc hb ha hd => by delta decEngine; rw [hf, hc, hb, ha, hd]; rfl)
theorem Enc.mrel : Enc.Statement (.mrel) :=
  Enc.r29 _ 1 0 0 0 0 rfl (by decide) nofun
    (fun _ wd hf hc hb ha hd => by delta decEngine; rw [hf, hc, hb, ha, hd]; rfl)
theorem Enc.mcfg (a : Fin 32) : Enc.Statement (.mcfg a) :=
  Enc.r29 _ 2 0 0 a 0 rfl (by decide) nofun
    (fun _ wd hf hc hb ha hd => by delta decEngine; rw [hf, hc, hb, ha, hd]; rfl)
theorem Enc.mmaBf16 (a b : Fin 32) : Enc.Statement (.mmaBf16 a b) :=
  Enc.r29 _ 3 0 b a 0 rfl (by decide) nofun
    (fun _ wd hf hc hb ha hd => by delta decEngine; rw [hf, hc, hb, ha, hd]; rfl)
theorem Enc.mmaD8 (a b c : Fin 32) : Enc.Statement (.mmaD8 a b c) :=
  Enc.r29 _ 4 c b a 0 rfl (by decide) nofun
    (fun _ wd hf hc hb ha hd => by delta decEngine; rw [hf, hc, hb, ha, hd]; rfl)
theorem Enc.mmaF16 (a b : Fin 32) : Enc.Statement (.mmaF16 a b) :=
  Enc.r29 _ 5 0 b a 0 rfl (by decide) nofun
    (fun _ wd hf hc hb ha hd => by delta decEngine; rw [hf, hc, hb, ha, hd]; rfl)
theorem Enc.mringAdv : Enc.Statement (.mringAdv) :=
  Enc.r29 _ 6 0 0 0 0 rfl (by decide) nofun
    (fun _ wd hf hc hb ha hd => by delta decEngine; rw [hf, hc, hb, ha, hd]; rfl)
theorem Enc.mringClr : Enc.Statement (.mringClr) :=
  Enc.r29 _ 7 0 0 0 0 rfl (by decide) nofun
    (fun _ wd hf hc hb ha hd => by delta decEngine; rw [hf, hc, hb, ha, hd]; rfl)
theorem Enc.epcfg (a : Fin 32) : Enc.Statement (.epcfg a) :=
  Enc.r2A _ 0 0 0 a 0 rfl (by decide) nofun
    (fun _ wd hf hc hb ha hd => by delta decEngine; rw [hf, hc, hb, ha, hd]; rfl)
theorem Enc.epgo (a : Fin 32) : Enc.Statement (.epgo a) :=
  Enc.r2A _ 1 0 0 a 0 rfl (by decide) nofun
    (fun _ wd hf hc hb ha hd => by delta decEngine; rw [hf, hc, hb, ha, hd]; rfl)
theorem Enc.lease (d a : Fin 32) : Enc.Statement (.lease d a) :=
  Enc.r2E _ 0 0 0 a d rfl (by decide) nofun
    (fun _ wd hf hc hb ha hd => by delta decEngine; rw [hf, hc, hb, ha, hd]; rfl)
theorem Enc.unlease : Enc.Statement (.unlease) :=
  Enc.r2E _ 1 0 0 0 0 rfl (by decide) nofun
    (fun _ wd hf hc hb ha hd => by delta decEngine; rw [hf, hc, hb, ha, hd]; rfl)
theorem Enc.nmsend (a : Fin 32) : Enc.Statement (.nmsend a) :=
  Enc.r2B _ 0 0 0 a 0 rfl (by decide) nofun
    (fun _ wd hf hc hb ha hd => by delta decEngine; rw [hf, hc, hb, ha, hd]; rfl)
theorem Enc.nmresume (a : Fin 32) : Enc.Statement (.nmresume a) :=
  Enc.r2B _ 1 0 0 a 0 rfl (by decide) nofun
    (fun _ wd hf hc hb ha hd => by delta decEngine; rw [hf, hc, hb, ha, hd]; rfl)
theorem Enc.nmload (a : Fin 32) : Enc.Statement (.nmload a) :=
  Enc.r2B _ 2 0 0 a 0 rfl (by decide) nofun
    (fun _ wd hf hc hb ha hd => by delta decEngine; rw [hf, hc, hb, ha, hd]; rfl)
theorem Enc.nmstat (d a : Fin 32) : Enc.Statement (.nmstat d a) :=
  Enc.r2B _ 3 0 0 a d rfl (by decide) nofun
    (fun _ wd hf hc hb ha hd => by delta decEngine; rw [hf, hc, hb, ha, hd]; rfl)
theorem Enc.mli (d : Fin 16) (v : BitVec 16) : Enc.Statement (.mli d v) :=
  Enc.rMicro _ 0 d 0 0 v.toNat rfl (by decide) v.isLt rfl (fun wd ho hd ha hb hl => by
    have hv : BitVec.ofNat 16 wd = v := by apply BitVec.eq_of_toNat_eq; rw [BitVec.toNat_ofNat]; exact hl
    delta decodeMicro; rw [ho, hd, ha, hb, hv]; rfl)
theorem Enc.mld (d a : Fin 16) (v : MicroOperand) : Enc.Statement (.mld d a v) :=
  Enc.rOperand _ 1 d a v .mld rfl (by decide) rfl rfl (fun wd ho => by delta decodeMicro; rw [ho]; rfl)
theorem Enc.mst (d a : Fin 16) (v : MicroOperand) : Enc.Statement (.mst d a v) :=
  Enc.rOperand _ 2 d a v .mst rfl (by decide) rfl rfl (fun wd ho => by delta decodeMicro; rw [ho]; rfl)
theorem Enc.mrdrowRead (a : Fin 16) : Enc.Statement (.mrdrowRead a) :=
  Enc.rMicro _ 3 0 a 0 32768 rfl (by decide) (by decide) rfl (fun wd ho hd ha hb hl => by
    delta decodeMicro; rw [ho, hd, ha, hb, hl]; rfl)
theorem Enc.mrdrowWrite (a : Fin 16) : Enc.Statement (.mrdrowWrite a) :=
  Enc.rMicro _ 3 0 a 0 32769 rfl (by decide) (by decide) rfl (fun wd ho hd ha hb hl => by
    delta decodeMicro; rw [ho, hd, ha, hb, hl]; rfl)
theorem Enc.mrdrowZero (a : Fin 16) : Enc.Statement (.mrdrowZero a) :=
  Enc.rMicro _ 3 0 a 0 32770 rfl (by decide) (by decide) rfl (fun wd ho hd ha hb hl => by
    delta decodeMicro; rw [ho, hd, ha, hb, hl]; rfl)
theorem Enc.mrdrowCopy (a b : Fin 16) : Enc.Statement (.mrdrowCopy a b) :=
  Enc.rMicro _ 3 0 a b 32771 rfl (by decide) (by decide) rfl (fun wd ho hd ha hb hl => by
    delta decodeMicro; rw [ho, hd, ha, hb, hl]; rfl)
theorem Enc.madd (d a : Fin 16) (v : MicroOperand) : Enc.Statement (.madd d a v) :=
  Enc.rOperand _ 4 d a v .madd rfl (by decide) rfl rfl (fun wd ho => by delta decodeMicro; rw [ho]; rfl)
theorem Enc.msub (d a : Fin 16) (v : MicroOperand) : Enc.Statement (.msub d a v) :=
  Enc.rOperand _ 5 d a v .msub rfl (by decide) rfl rfl (fun wd ho => by delta decodeMicro; rw [ho]; rfl)
theorem Enc.mand (d a : Fin 16) (v : MicroOperand) : Enc.Statement (.mand d a v) :=
  Enc.rOperand _ 6 d a v .mand rfl (by decide) rfl rfl (fun wd ho => by delta decodeMicro; rw [ho]; rfl)
theorem Enc.mor (d a : Fin 16) (v : MicroOperand) : Enc.Statement (.mor d a v) :=
  Enc.rOperand _ 7 d a v .mor rfl (by decide) rfl rfl (fun wd ho => by delta decodeMicro; rw [ho]; rfl)
theorem Enc.mxor (d a : Fin 16) (v : MicroOperand) : Enc.Statement (.mxor d a v) :=
  Enc.rOperand _ 8 d a v .mxor rfl (by decide) rfl rfl (fun wd ho => by delta decodeMicro; rw [ho]; rfl)
theorem Enc.mshl (d a : Fin 16) (v : MicroOperand) : Enc.Statement (.mshl d a v) :=
  Enc.rOperand _ 9 d a v .mshl rfl (by decide) rfl rfl (fun wd ho => by delta decodeMicro; rw [ho]; rfl)
theorem Enc.mshr (d a : Fin 16) (v : MicroOperand) : Enc.Statement (.mshr d a v) :=
  Enc.rOperand _ 10 d a v .mshr rfl (by decide) rfl rfl (fun wd ho => by delta decodeMicro; rw [ho]; rfl)
theorem Enc.mmul (d a : Fin 16) (v : MicroOperand) : Enc.Statement (.mmul d a v) :=
  Enc.rOperand _ 11 d a v .mmul rfl (by decide) rfl rfl (fun wd ho => by delta decodeMicro; rw [ho]; rfl)
theorem Enc.mmax (d a : Fin 16) (v : MicroOperand) : Enc.Statement (.mmax d a v) :=
  Enc.rOperand _ 12 d a v .mmax rfl (by decide) rfl rfl (fun wd ho => by delta decodeMicro; rw [ho]; rfl)
theorem Enc.maccAdd (d a : Fin 16) : Enc.Statement (.maccAdd d a) :=
  Enc.rMicro _ 13 d a 0 32768 rfl (by decide) (by decide) rfl (fun wd ho hd ha hb hl => by
    delta decodeMicro; rw [ho, hd, ha, hb, hl]; rfl)
theorem Enc.maccRead (d a : Fin 16) : Enc.Statement (.maccRead d a) :=
  Enc.rMicro _ 13 d a 0 32769 rfl (by decide) (by decide) rfl (fun wd ho hd ha hb hl => by
    delta decodeMicro; rw [ho, hd, ha, hb, hl]; rfl)
theorem Enc.mbfw (a : Fin 16) (o : Fin 64) : Enc.Statement (.mbfw a o) :=
  Enc.rMicro _ 14 0 a 0 (32768 + o.val) rfl (by decide) (by omega) rfl (fun wd ho hd ha hb hl => by
    have h1 : (32768 + o.val) / 64 = 512 := by omega
    have h2 : Fin.ofNat 64 (32768 + o.val) = o := by apply Fin.ext; simp only [Fin.ofNat]; omega
    have h3 : decodeMicro wd = if (0 : MReg) == 0 && (0 : MReg) == 0 && (32768 + o.val) / 64 == 512 then .ok (.mbfw a (Fin.ofNat 64 (32768 + o.val)))
        else if (0 : MReg) == 0 && (0 : MReg) == 0 && (32768 + o.val) / 64 == 768 then .ok (.mbfwZero a (Fin.ofNat 64 (32768 + o.val))) else .error .reserved := by
      delta decodeMicro; rw [ho, hd, ha, hb, hl]; rfl
    rw [h3, h1, h2]; rfl)
theorem Enc.mbfwZero (a : Fin 16) (o : Fin 64) : Enc.Statement (.mbfwZero a o) :=
  Enc.rMicro _ 14 0 a 0 (49152 + o.val) rfl (by decide) (by omega) rfl (fun wd ho hd ha hb hl => by
    have h1 : (49152 + o.val) / 64 = 768 := by omega
    have h2 : Fin.ofNat 64 (49152 + o.val) = o := by apply Fin.ext; simp only [Fin.ofNat]; omega
    have h3 : decodeMicro wd = if (0 : MReg) == 0 && (0 : MReg) == 0 && (49152 + o.val) / 64 == 512 then .ok (.mbfw a (Fin.ofNat 64 (49152 + o.val)))
        else if (0 : MReg) == 0 && (0 : MReg) == 0 && (49152 + o.val) / 64 == 768 then .ok (.mbfwZero a (Fin.ofNat 64 (49152 + o.val))) else .error .reserved := by
      delta decodeMicro; rw [ho, hd, ha, hb, hl]; rfl
    rw [h3, h1, h2]; rfl)
theorem Enc.mfin (d : Fin 16) : Enc.Statement (.mfin d) :=
  Enc.rMicro _ 15 d 0 0 0 rfl (by decide) (by decide) rfl (fun wd ho hd ha hb hl => by
    delta decodeMicro; rw [ho, hd, ha, hb, hl]; rfl)
theorem Enc.ixnear (a : Fin 32) : Enc.Statement (.ixnear a) :=
  Enc.r2C _ 0 0 0 a 0 rfl (by decide) nofun
    (fun _ wd hf hc hb ha hd => by delta decEngine; rw [hf, hc, hb, ha, hd]; rfl)
theorem Enc.ixstore (a : Fin 32) : Enc.Statement (.ixstore a) :=
  Enc.r2C _ 1 0 0 a 0 rfl (by decide) nofun
    (fun _ wd hf hc hb ha hd => by delta decEngine; rw [hf, hc, hb, ha, hd]; rfl)
theorem Enc.ixstoreRel (a : Fin 32) : Enc.Statement (.ixstoreRel a) :=
  Enc.r2C _ 1 1 0 a 0 rfl (by decide) nofun
    (fun _ wd hf hc hb ha hd => by delta decEngine; rw [hf, hc, hb, ha, hd]; rfl)
theorem Enc.ixdel (a : Fin 32) : Enc.Statement (.ixdel a) :=
  Enc.r2C _ 2 0 0 a 0 rfl (by decide) nofun
    (fun _ wd hf hc hb ha hd => by delta decEngine; rw [hf, hc, hb, ha, hd]; rfl)
theorem Enc.ixsnap (d a : Fin 32) : Enc.Statement (.ixsnap d a) :=
  Enc.r2C _ 3 0 0 a d rfl (by decide) nofun
    (fun _ wd hf hc hb ha hd => by delta decEngine; rw [hf, hc, hb, ha, hd]; rfl)
theorem Enc.ixstat (d a : Fin 32) : Enc.Statement (.ixstat d a) :=
  Enc.r2C _ 4 0 0 a d rfl (by decide) nofun
    (fun _ wd hf hc hb ha hd => by delta decEngine; rw [hf, hc, hb, ha, hd]; rfl)
theorem Enc.ixcreate (d a : Fin 32) : Enc.Statement (.ixcreate d a) :=
  Enc.r2C _ 5 0 0 a d rfl (by decide) nofun
    (fun _ wd hf hc hb ha hd => by delta decEngine; rw [hf, hc, hb, ha, hd]; rfl)
theorem Enc.tscoreSet (a : Fin 32) : Enc.Statement (.tscoreSet a) :=
  Enc.r2D _ 0 0 0 a 0 rfl (by decide) nofun
    (fun _ wd hf hc hb ha hd => by delta decEngine; rw [hf, hc, hb, ha, hd]; rfl)
theorem Enc.tscoreMax (a : Fin 32) : Enc.Statement (.tscoreMax a) :=
  Enc.r2D _ 0 1 0 a 0 rfl (by decide) nofun
    (fun _ wd hf hc hb ha hd => by delta decEngine; rw [hf, hc, hb, ha, hd]; rfl)
theorem Enc.tscoreMin (a : Fin 32) : Enc.Statement (.tscoreMin a) :=
  Enc.r2D _ 0 2 0 a 0 rfl (by decide) nofun
    (fun _ wd hf hc hb ha hd => by delta decEngine; rw [hf, hc, hb, ha, hd]; rfl)
theorem Enc.tscoreAdd (a : Fin 32) : Enc.Statement (.tscoreAdd a) :=
  Enc.r2D _ 0 3 0 a 0 rfl (by decide) nofun
    (fun _ wd hf hc hb ha hd => by delta decEngine; rw [hf, hc, hb, ha, hd]; rfl)
theorem Enc.trinfo (d a : Fin 32) : Enc.Statement (.trinfo d a) :=
  Enc.r2D _ 1 0 0 a d rfl (by decide) nofun
    (fun _ wd hf hc hb ha hd => by delta decEngine; rw [hf, hc, hb, ha, hd]; rfl)
theorem Enc.pinv (a : Fin 32) : Enc.Statement (.pinv a) :=
  Enc.r2F _ 0 0 0 a 0 rfl (by decide) nofun
    (fun _ wd hf hc hb ha hd => by delta decEngine; rw [hf, hc, hb, ha, hd]; rfl)
theorem Enc.pswap (a b : Fin 32) : Enc.Statement (.pswap a b) :=
  Enc.r2F _ 1 0 b a 0 rfl (by decide) nofun
    (fun _ wd hf hc hb ha hd => by delta decEngine; rw [hf, hc, hb, ha, hd]; rfl)
theorem Enc.pclr (a : Fin 32) : Enc.Statement (.pclr a) :=
  Enc.r2F _ 2 0 0 a 0 rfl (by decide) nofun
    (fun _ wd hf hc hb ha hd => by delta decEngine; rw [hf, hc, hb, ha, hd]; rfl)
theorem Enc.pgen (a : Fin 32) : Enc.Statement (.pgen a) :=
  Enc.r2F _ 3 0 0 a 0 rfl (by decide) nofun
    (fun _ wd hf hc hb ha hd => by delta decEngine; rw [hf, hc, hb, ha, hd]; rfl)
theorem Enc.udf (u : BitVec 25) : Enc.Statement (.udf u) := by
  refine Enc.start _ nofun (fun _ => ?_)
  change decode (127 + 128 * u.toNat) = _
  have hu := u.isLt
  have h1 : (127 + 128 * u.toNat) % 2 = 1 := by omega
  have h2 : major (127 + 128 * u.toNat) = 0x3F := by unfold major; omega
  have h3 : BitVec.ofNat 25 ((127 + 128 * u.toNat) / 128) = u := by
    apply BitVec.eq_of_toNat_eq; rw [BitVec.toNat_ofNat]; omega
  delta decode decWord
  rw [h1, h2, h3]
  rfl
theorem Enc.loadReturn : Enc.Statement .loadReturn := fun _ h => (h rfl).elim
theorem Enc.storePerform : Enc.Statement .storePerform := fun _ h => (h rfl).elim
theorem Enc.heldFaultPost : Enc.Statement .heldFaultPost := fun _ h => (h rfl).elim
theorem Enc.atomicPerform : Enc.Statement .atomicPerform := fun _ h => (h rfl).elim
theorem Enc.syncWordWake : Enc.Statement .syncWordWake := fun _ h => (h rfl).elim
theorem Enc.messageLanding : Enc.Statement .messageLanding := fun _ h => (h rfl).elim
theorem Enc.packetCount : Enc.Statement .packetCount := fun _ h => (h rfl).elim
theorem Enc.barrierComplete : Enc.Statement .barrierComplete := fun _ h => (h rfl).elim
theorem Enc.launchReplicate : Enc.Statement .launchReplicate := fun _ h => (h rfl).elim
theorem Enc.completionBlockUpdate : Enc.Statement .completionBlockUpdate := fun _ h => (h rfl).elim
theorem Enc.tqlatchExec : Enc.Statement .tqlatchExec := fun _ h => (h rfl).elim
theorem Enc.tqmacExec : Enc.Statement .tqmacExec := fun _ h => (h rfl).elim
theorem Enc.tqdExec : Enc.Statement .tqdExec := fun _ h => (h rfl).elim
theorem Enc.tqreadExec : Enc.Statement .tqreadExec := fun _ h => (h rfl).elim
theorem Enc.copyCommand : Enc.Statement .copyCommand := fun _ h => (h rfl).elim
theorem Enc.heldNoticePost : Enc.Statement .heldNoticePost := fun _ h => (h rfl).elim
theorem Enc.mmaComplete : Enc.Statement .mmaComplete := fun _ h => (h rfl).elim
theorem Enc.tileDrain : Enc.Statement .tileDrain := fun _ h => (h rfl).elim
theorem Enc.leaseExpiry : Enc.Statement .leaseExpiry := fun _ h => (h rfl).elim
theorem Enc.nmuMessageArrival : Enc.Statement .nmuMessageArrival := fun _ h => (h rfl).elim
theorem Enc.rowCopy : Enc.Statement .rowCopy := fun _ h => (h rfl).elim
theorem Enc.rowZero : Enc.Statement .rowZero := fun _ h => (h rfl).elim
theorem Enc.indexedReduce : Enc.Statement .indexedReduce := fun _ h => (h rfl).elim
theorem Enc.tableGather : Enc.Statement .tableGather := fun _ h => (h rfl).elim
theorem Enc.tableMac : Enc.Statement .tableMac := fun _ h => (h rfl).elim
theorem Enc.accumulatorRead : Enc.Statement .accumulatorRead := fun _ h => (h rfl).elim
theorem Enc.accumulatorClear : Enc.Statement .accumulatorClear := fun _ h => (h rfl).elim
theorem Enc.statusHandler : Enc.Statement .statusHandler := fun _ h => (h rfl).elim
theorem Enc.loadedHandlerStart : Enc.Statement .loadedHandlerStart := fun _ h => (h rfl).elim
theorem Enc.handlerTimeout : Enc.Statement .handlerTimeout := fun _ h => (h rfl).elim
theorem Enc.nmresumeApply : Enc.Statement .nmresumeApply := fun _ h => (h rfl).elim
theorem Enc.handlerLoad : Enc.Statement .handlerLoad := fun _ h => (h rfl).elim
theorem Enc.indexQueryAccept : Enc.Statement .indexQueryAccept := fun _ h => (h rfl).elim
theorem Enc.indexSearchEnd : Enc.Statement .indexSearchEnd := fun _ h => (h rfl).elim
theorem Enc.indexStoreCommit : Enc.Statement .indexStoreCommit := fun _ h => (h rfl).elim
theorem Enc.indexDeleteCommit : Enc.Statement .indexDeleteCommit := fun _ h => (h rfl).elim
theorem Enc.indexSnapshotAccept : Enc.Statement .indexSnapshotAccept := fun _ h => (h rfl).elim
theorem Enc.indexStatAccept : Enc.Statement .indexStatAccept := fun _ h => (h rfl).elim
theorem Enc.indexCreate : Enc.Statement .indexCreate := fun _ h => (h rfl).elim
theorem Enc.indexDestroy : Enc.Statement .indexDestroy := fun _ h => (h rfl).elim
theorem Enc.allowanceExhausted : Enc.Statement .allowanceExhausted := fun _ h => (h rfl).elim
theorem Enc.roundEnd : Enc.Statement .roundEnd := fun _ h => (h rfl).elim
theorem Enc.generationNotice : Enc.Statement .generationNotice := fun _ h => (h rfl).elim
theorem Enc.upcallDelivery : Enc.Statement .upcallDelivery := fun _ h => (h rfl).elim
theorem Enc.bindRecord : Enc.Statement .bindRecord := fun _ h => (h rfl).elim
theorem Enc.resumeRecord : Enc.Statement .resumeRecord := fun _ h => (h rfl).elim
theorem Enc.stopRecord : Enc.Statement .stopRecord := fun _ h => (h rfl).elim
theorem Enc.frameCopyDone : Enc.Statement .frameCopyDone := fun _ h => (h rfl).elim
theorem Enc.threadStop : Enc.Statement .threadStop := fun _ h => (h rfl).elim
theorem Enc.saveComplete : Enc.Statement .saveComplete := fun _ h => (h rfl).elim
theorem Enc.saveDrainTimeout : Enc.Statement .saveDrainTimeout := fun _ h => (h rfl).elim
theorem Enc.slotSpill : Enc.Statement .slotSpill := fun _ h => (h rfl).elim
theorem Enc.clusterZeroingDone : Enc.Statement .clusterZeroingDone := fun _ h => (h rfl).elim
theorem Enc.gangReservation : Enc.Statement .gangReservation := fun _ h => (h rfl).elim
theorem Enc.scannerPage : Enc.Statement .scannerPage := fun _ h => (h rfl).elim
theorem Enc.scannerWriteDone : Enc.Statement .scannerWriteDone := fun _ h => (h rfl).elim
theorem Enc.budgetPeriodStart : Enc.Statement .budgetPeriodStart := fun _ h => (h rfl).elim
theorem Enc.securityAlarm : Enc.Statement .securityAlarm := fun _ h => (h rfl).elim
theorem Enc.burstPause : Enc.Statement .burstPause := fun _ h => (h rfl).elim
theorem Enc.burstResume : Enc.Statement .burstResume := fun _ h => (h rfl).elim
theorem Enc.sliceRetention : Enc.Statement .sliceRetention := fun _ h => (h rfl).elim
theorem Enc.hostLaunchWindowWrite : Enc.Statement .hostLaunchWindowWrite := fun _ h => (h rfl).elim
theorem Enc.reportRequest : Enc.Statement .reportRequest := fun _ h => (h rfl).elim
theorem Enc.reportReady : Enc.Statement .reportReady := fun _ h => (h rfl).elim
theorem Enc.registerWrite : Enc.Statement .registerWrite := fun _ h => (h rfl).elim
theorem Enc.hostCxlMemAccess : Enc.Statement .hostCxlMemAccess := fun _ h => (h rfl).elim
theorem Enc.functionLevelReset : Enc.Statement .functionLevelReset := fun _ h => (h rfl).elim
theorem Enc.fabricAckTimeout : Enc.Statement .fabricAckTimeout := fun _ h => (h rfl).elim
theorem Enc.coreFailure : Enc.Statement .coreFailure := fun _ h => (h rfl).elim
theorem Enc.coreOutOfService : Enc.Statement .coreOutOfService := fun _ h => (h rfl).elim
theorem Enc.identityRotation : Enc.Statement .identityRotation := fun _ h => (h rfl).elim
theorem Enc.boot : Enc.Statement .boot := fun _ h => (h rfl).elim
theorem Enc.coreReturnToService : Enc.Statement .coreReturnToService := fun _ h => (h rfl).elim
theorem Enc.quarantineLift : Enc.Statement .quarantineLift := fun _ h => (h rfl).elim
theorem Enc.budgetChange : Enc.Statement .budgetChange := fun _ h => (h rfl).elim
theorem Enc.fabricPeerAccess : Enc.Statement .fabricPeerAccess := fun _ h => (h rfl).elim
theorem Enc.conventionalReset : Enc.Statement .conventionalReset := fun _ h => (h rfl).elim

end Sys2Proof.Laws
end

