-- ==== Sys2Proof/Laws/Xlat.lean ====
section
/-!
SUPPORT. Sys2Proof/Laws/Xlat.lean: what a translation can do to the machine (R312 to R318): it writes page-table entries, recalls the
registered words of the lines that it reads, fills the caches of translations, draws free values, wakes a slice and reports a broken
entry; everything else stands, and memory keeps its form.
-/
namespace Sys2Proof.Machine

/-- `u` differs from `s` at most in what a translation changes, and memory keeps its canonical form. -/
structure XlatFrame (s u : State) : Prop where
  same : u = { s with
    mem := u.mem
    keys := u.keys
    regs := u.regs
    tlb := u.tlb
    walk := u.walk
    draw := u.draw
    retained := u.retained
    monel := u.monel }
  wf : Memory.wf s.mem = true → Memory.wf u.mem = true

theorem XlatFrame.refl (s : State) : XlatFrame s s := ⟨rfl, id⟩

theorem XlatFrame.trans {s u v : State} (h : XlatFrame s u) (k : XlatFrame u v) : XlatFrame s v := by
  refine ⟨?_, k.wf ∘ h.wf⟩
  rw [k.same, h.same]

/-! ### Physical memory -/

theorem State.rekey_frame (s : State) (key unit : Nat) : XlatFrame s (s.rekey key unit) := by
  unfold State.rekey
  split
  · exact .refl s
  · generalize s.physRead key (unit * 32) 32 = bs
    exact ⟨rfl, Memory.wf_writeN bs s.mem (unit * 32)⟩

theorem State.physWrite_frame (key : Nat) (bs : List Byte) : ∀ (s : State) (pa : Nat), XlatFrame s (s.physWrite key pa bs) := by
  induction bs with
  | nil => intro s pa; exact .refl s
  | cons b r ih =>
    intro s pa
    have h : XlatFrame s (s.physWrite1 key pa b) := (s.rekey_frame key (pa / 32)).trans ⟨rfl, Memory.wf_write _ _ _⟩
    exact h.trans (ih _ _)

theorem State.wakeSlice_frame (s : State) (n : Nat) : XlatFrame s (s.wakeSlice n) := ⟨rfl, id⟩

theorem State.wakeAll_frame (ns : List Nat) : ∀ s : State, XlatFrame s (ns.foldl State.wakeSlice s) := by
  induction ns with
  | nil => exact .refl
  | cons n r ih => intro s; exact (s.wakeSlice_frame n).trans (ih _)

theorem State.recall_frame (s : State) (word : Nat) : XlatFrame s (s.recall word) := by
  unfold State.recall
  split
  · exact .refl s
  · rename_i r _
    have hw : XlatFrame s (if r.core.isNone then s.wakeSlice r.slice else s) := by
      split
      · exact s.wakeSlice_frame _
      · exact .refl s
    dsimp only
    generalize (if r.core.isNone then s.wakeSlice r.slice else s) = u at hw ⊢
    have h := physWrite_frame r.key (bytesOf 8 r.data.toNat) u (word * 8)
    generalize u.physWrite r.key (word * 8) (bytesOf 8 r.data.toNat) = v at h ⊢
    exact (hw.trans h).trans ⟨rfl, id⟩

theorem State.recallIn_frame (s : State) (pa n : Nat) : XlatFrame s (s.recallIn pa n) := by
  unfold State.recallIn
  generalize s.registeredIn pa n = l
  induction l generalizing s with
  | nil => exact .refl s
  | cons w r ih => exact (s.recall_frame w).trans (ih _)

theorem State.sliceRoom_frame (s : State) (slice word : Nat) : XlatFrame s (s.sliceRoom slice word) := by
  unfold State.sliceRoom State.drawNat
  dsimp only
  split
  · exact .refl s
  · have hd : XlatFrame s { s with draw := s.draw + 1 } := ⟨rfl, id⟩
    exact hd.trans (State.recallIn_frame _ _ _)

theorem State.toSlice_frame (s : State) (word : Nat) : XlatFrame s (s.toSlice word) := by
  unfold State.toSlice
  split
  · exact .refl s
  · split
    · exact .refl s
    · rename_i r _ _
      have h := (s.wakeSlice_frame r.slice).trans ((s.wakeSlice r.slice).sliceRoom_frame r.slice word)
      dsimp only
      generalize (s.wakeSlice r.slice).sliceRoom r.slice word = u at h ⊢
      exact h.trans ⟨rfl, id⟩

theorem State.putEntry_frame (s : State) (pa : Nat) (w : Word) : XlatFrame s (s.putEntry pa w) := by
  unfold State.putEntry
  generalize bytesOf 8 w.toNat = bs
  exact ⟨rfl, Memory.wf_writeN bs s.mem pa⟩

/-! ### Walks -/

theorem State.walkRead_frame (s : State) (slice pa : Nat) (fresh : Bool) : XlatFrame s (s.walkRead slice pa fresh).2 := by
  have h (u : State) : XlatFrame u { u.recallIn (pa / 64 * 64) 64 with
      walk := [0, 8, 16, 24, 32, 40, 48, 56].foldl (fun t k => Tab.put t (walkKey slice (pa / 64 * 64 + k))
        ((u.recallIn (pa / 64 * 64) 64).entryAt (pa / 64 * 64 + k))) (u.recallIn (pa / 64 * 64) 64).walk } :=
    (u.recallIn_frame _ _).trans ⟨rfl, id⟩
  unfold State.walkRead State.drawBit
  dsimp only
  split
  · exact h s
  · split
    · exact h s
    · have hd : XlatFrame s { s with draw := s.draw + 1 } := ⟨rfl, id⟩
      split
      · exact hd
      · exact hd.trans (h _)

theorem State.members_frame (slice : Nat) (fresh : Bool) (n : Nat) :
    ∀ (s : State) (first : Nat), XlatFrame s (s.members slice first fresh n).2 := by
  induction n with
  | zero => intro s first; exact .refl s
  | succ n ih => intro s first; exact (s.walkRead_frame slice first fresh).trans (ih _ _)

theorem State.pickMember_frame (s : State) (slice entry : Nat) (w : Word) (fresh : Bool) :
    XlatFrame s (s.pickMember slice entry w fresh).2.2.2 := by
  have hm (first n : Nat) := members_frame slice fresh n s first
  unfold State.pickMember State.drawNat
  dsimp only
  generalize groupLen w = n
  replace hm := hm (entry / (8 * n) * (8 * n)) n
  revert hm
  generalize s.members slice (entry / (8 * n) * (8 * n)) fresh n = p
  intro hm
  obtain ⟨ms, u⟩ := p
  by_cases h : n = 1
  · rw [if_pos h]; exact .refl s
  · rw [if_neg h]
    dsimp only at hm ⊢
    by_cases k : ms.all (fun m => noAD m == noAD w) = true
    · rw [if_pos k]; exact hm
    · rw [if_neg k]; exact hm.trans ⟨rfl, id⟩

theorem State.walkLeaf_frame (s : State) (slice entry level : Nat) (w : Word) (fresh : Bool) :
    XlatFrame s (s.walkLeaf slice entry level w fresh).2 := by
  have hp := s.pickMember_frame slice entry w fresh
  unfold State.walkLeaf
  split
  · exact .refl s
  · revert hp
    generalize s.pickMember slice entry w fresh = p
    intro hp
    dsimp only
    repeat' split
    all_goals exact hp

theorem State.walkFrom_frame (slice va : Nat) (fresh : Bool) (level : Nat) :
    ∀ (s : State) (table : Nat), XlatFrame s (s.walkFrom slice va fresh table level).2 := by
  induction level with
  | zero =>
    intro s table
    have hr (e : Nat) := s.walkRead_frame slice e fresh
    rw [State.walkFrom]
    generalize table + 8 * (va / 2 ^ (16 + 10 * 0) % 1024) = e
    replace hr := hr e
    generalize s.walkRead slice e fresh = p at hr ⊢
    obtain ⟨w, u⟩ := p
    dsimp only at hr ⊢
    repeat' split
    all_goals first | exact hr | exact hr.trans (walkLeaf_frame _ _ _ _ _ _)
  | succ l ih =>
    intro s table
    have hr (e : Nat) := s.walkRead_frame slice e fresh
    rw [State.walkFrom]
    generalize table + 8 * (va / 2 ^ (16 + 10 * (l + 1)) % 1024) = e
    replace hr := hr e
    generalize s.walkRead slice e fresh = p at hr ⊢
    obtain ⟨w, u⟩ := p
    dsimp only at hr ⊢
    repeat' split
    all_goals first | exact hr | exact hr.trans (walkLeaf_frame _ _ _ _ _ _) | exact hr.trans (ih _ _)

theorem State.walkVa_frame (s : State) (slice fn va : Nat) (fresh : Bool) : XlatFrame s (s.walkVa slice fn va fresh).2 := by
  unfold State.walkVa
  dsimp only
  split
  · exact walkRead_frame _ _ _ _
  · exact (walkRead_frame _ _ _ _).trans (walkFrom_frame _ _ _ _ _ _)

theorem State.fill_frame (s u : State) (slice fn va : Nat) (leaf : Word) (entry first key : Nat) (t : Trans)
    (h : s.fill slice fn va leaf entry first = some (key, t, u)) : XlatFrame s u := by
  unfold State.fill at h
  split at h
  · cases h
    exact (s.putEntry_frame first (s.entryAt first ||| 0x80#64)).trans ⟨rfl, id⟩
  · cases h

theorem State.leafOf_frame (r : Req) (slice va : Nat) (fuel : Nat) :
    ∀ (s : State) (fresh : Bool), XlatFrame s (s.leafOf r slice va fresh fuel).2 := by
  induction fuel with
  | zero => intro s fresh; exact .refl s
  | succ n ih =>
    intro s fresh
    have hw := s.walkVa_frame slice r.fn va fresh
    unfold State.leafOf
    revert hw
    generalize s.walkVa slice r.fn va fresh = p
    obtain ⟨w, u⟩ := p
    intro hw
    cases w with
    | absent => exact hw
    | broken e l => exact hw.trans ⟨rfl, id⟩
    | leaf w e f =>
      dsimp only at hw ⊢
      split
      · rename_i hv
        exact hw.trans (fill_frame _ _ _ _ _ _ _ _ _ _ hv)
      · exact hw.trans (ih _ _)

/-! ### Translating -/

theorem State.setD_frame (s : State) (key : Nat) : XlatFrame s (s.setD key) := by
  unfold State.setD
  split
  · exact .refl s
  · split
    · exact .refl s
    · rename_i t _ _
      have h := s.putEntry_frame t.first (s.entryAt t.first ||| 0x100#64)
      generalize s.putEntry t.first (s.entryAt t.first ||| 0x100#64) = u at h ⊢
      exact h.trans ⟨rfl, id⟩

theorem State.translateWalked_frame (s : State) (r : Req) (slice va : Nat) (fresh : Bool) :
    XlatFrame s (s.translateWalked r slice va fresh).2 := by
  have h := leafOf_frame r slice va 2 s fresh
  unfold State.translateWalked
  revert h
  generalize s.leafOf r slice va fresh 2 = p
  obtain ⟨e, u⟩ := p
  intro h
  cases e <;> exact h

theorem State.translateAt_frame (s : State) (r : Req) (slice va : Nat) : XlatFrame s (s.translateAt r slice va).2 := by
  have again (key : Nat) (fresh : Bool) : XlatFrame s ({ s with tlb := Tab.drop s.tlb key }.translateWalked r slice va fresh).2 :=
    have h : XlatFrame s { s with tlb := Tab.drop s.tlb key } := ⟨rfl, id⟩
    h.trans (State.translateWalked_frame { s with tlb := Tab.drop s.tlb key } r slice va fresh)
  unfold State.translateAt
  split
  · exact s.translateWalked_frame r slice va false
  · split
    · split
      · exact again _ _
      · exact .refl s
    · have h := leafOf_frame r slice va 2 s false
      revert h
      generalize s.leafOf r slice va false 2 = p
      obtain ⟨e, u⟩ := p
      intro h
      cases e with
      | error c => exact h
      | ok q =>
        dsimp only at h ⊢
        split
        · exact h
        · exact h.trans ⟨rfl, id⟩

/-- All that a translation can do (R312 to R318, R321). -/
theorem State.translate_frame (s : State) (r : Req) (va : Nat) : XlatFrame s (s.translate r va).2 := by
  have h := s.translateAt_frame r (r.die * 160 + homeSlice va) va
  unfold State.translate
  dsimp only
  split
  · exact .refl s
  · exact h.trans (State.wakeAll_frame _ _)

end Sys2Proof.Machine
end

