-- ==== Sys2Proof/Tests/Slice0.lean ====
section
/-!
SUPPORT. Sys2Proof/Tests/Slice0.lean: the model's own tests: ill-formed terms that are refused, words that the spec
works out and that decode to their instructions, single steps with results that the spec works out, and for each
obligation states and operands that meet what its clauses assume. They are checked one after another: the kernel
evaluates many of them, and all at once take more memory than a check has.
-/
set_option Elab.async false
open Sys2Proof Sys2Proof.Machine
namespace Sys2Proof.Tests

/-! ### Ill-formed terms -/

/-- R80: an end offset of 0 is reserved. R83: a signed load of 8 bytes is reserved. -/
theorem test_ill_scalar : [Instr.loop 5 0, .loopi 3 0, .ldg .plain .d true 6 4 2, .ldl false .d true 6 2 0].all (fun i => !i.wellFormed) = true := by
  decide

/-- R40: d8 is no type of arithmetic, logic, compares and reductions. -/
theorem test_ill_arith : [Instr.vadd .d8 1 2 3, .vsub .d8 1 2 3, .vmul .d8 1 2 3, .vmax .d8 1 2 3, .vmin .d8 1 2 3, .vand .d8 1 2 3, .vor .d8 1 2 3,
    .vxor .d8 1 2 3, .vabs .d8 1 2, .vneg .d8 1 2, .vcmpEq .d8 1 2 3, .vcmpLt .d8 1 2 3, .vcmpLe .d8 1 2 3, .vcmpNe .d8 1 2 3, .vredadd .d8 1 2,
    .vredmax .d8 1 2, .vredmin .d8 1 2].all (fun i => !i.wellFormed) = true := by decide

/-- R40: only floating types divide, take roots and multiply with addition; only integer types shift. -/
theorem test_ill_types : [Instr.vdiv .i32 1 2 3, .vsqrt .i16 1 2, .vrcp .i8 1 2, .vrsq .d8 1 2, .vexp2 .i32 1 2, .vlog2 .i16 1 2, .vfma .i8 1 2 3 4,
    .vfms .d8 1 2 3 4, .vfnma .i32 1 2 3 4, .vfnms .i16 1 2 3 4, .vshl .f32 1 2 3, .vshr .bf16 1 2 3, .vsra .f16 1 2 3, .vdot .f32 1 2 3, .vq8 .i8 1 2 3,
    .vdq8 .d8 1 2 3, .vamax .i32 1 2].all (fun i => !i.wellFormed) = true := by decide

/-- R100, R106: a lane index past the last lane; R213: layout registers out of place; R35: a 16-bit follower with more bits than
16; R28: the all-zero halfword. -/
theorem test_ill_fields : [Instr.vins .f32 1 2 8, .vext .bf16 1 2 16, .vmvx 1 2 4, .cpy 1 4 5, .cpy 0 28 5, .modifierWord ⟨0, false, false, true, 0⟩ 0x10000,
    .vadd16 false 0 0].all (fun i => !i.wellFormed) = true := by decide

/-! ### Words -/

/-- R45, R66 to R75: integer words. -/
theorem test_decode_integer : decode 0x000E6281 = .ok (.add 5 6 7) ∧ decode 0x7A0E6281 = .ok (.sel 5 6 7 8) ∧ decode 0x12345291 = .ok (.lim 5 0x12345)
    ∧ decode 0x00000003 = .ok (.addi 0 0 0) ∧ decode 0x00800283 = .ok (.addi 5 0 64) ∧ decode 0x0080A495 = .ok (.clz .w 9 10)
    ∧ decode 0x280E6297 = .ok (.divz 5 6 7) := by decide

/-- R76 to R90: control words. -/
theorem test_decode_control : decode 0xFFC05D1B = .ok (.bne 5 0 0x7FFA) ∧ decode 0x00001027 = .ok (.jalr 0 1 0) ∧ decode 0x000800A5 = .ok (.jal 1 0x80)
    ∧ decode 0x0000B1A9 = .ok (.loopi 3 5) ∧ decode 0x08000043 = .ok (.exit 0) ∧ decode 0x10000043 = .ok .yield ∧ decode 0x18004043 = .ok (.sys 4)
    ∧ decode 0x20000043 = .ok .brk ∧ decode 0x11C05043 = .ok (.swr 0x040 5) ∧ decode 0x098C0343 = .ok (.srd 6 0x026) ∧ decode 0x28000043 = .ok .uret
    ∧ decode 0x280000C3 = .ok .uretReplay ∧ decode 0x0000007F = .ok (.udf 0) := by decide

/-- R83 to R86, R126, R168, R173: memory words. -/
theorem test_decode_memory : decode 0x1004432B = .ok (.ldg .plain .w false 6 4 2) ∧ decode 0x18042331 = .ok (.ldl false .d false 6 2 2)
    ∧ decode 0x17FE23B3 = .ok (.stl false .w 7 2 0x3FF) ∧ decode 0x000441AF = .ok (.ldgV .plain 3 4 2) ∧ decode 0x280041AF = .ok (.stgV .dev 3 4 0)
    ∧ decode 0x000060B5 = .ok (.ldlV false 1 6 0) ∧ decode 0x04CE62B7 = .ok (.amoAdd .acqrelDev true 5 6 7)
    ∧ decode 0x04CE62B9 = .ok (.cas .acqrelDev true 5 6 7) ∧ decode 0x008E62BB = .ok (.amolAdd false 5 6 7) := by decide

/-- R177, R178, R181: waits, fences and sync words. -/
theorem test_decode_sync : decode 0x0000203D = .ok (.cwait .yc 0) ∧ decode 0x0006003D = .ok (.cwait .lc 3) ∧ decode 0x0800103D = .ok (.xfence .copy .core)
    ∧ decode 0x100C503D = .ok (.swinit 5 6) ∧ decode 0x180C503D = .ok (.swadd 5 6) ∧ decode 0x200E503D = .ok (.swwait 5 7)
    ∧ decode 0x280053BD = .ok (.swget 7 5) ∧ decode 0x3000543D = .ok (.swcnt 8 5) := by decide

/-- R28 to R38, R91 to R115: lane words, the modifier word and the streams. -/
theorem test_decode_lanes : decode 0x9C66 = .ok (.vmax16 true 3 7) ∧ decode 0x0820 = .ok (.vadd16 false 1 2) ∧ decode 0x104620C5 = .ok (.vmul .bf16 1 2 3)
    ∧ decode 0x104620C500001EE1 = .ok (.modifierWord ⟨0, false, false, true, 0x1D⟩ 0x104620C5) ∧ decode 0x4880A4C5 = .ok (.vsqrt .f16 9 10)
    ∧ decode 0x21CC524B = .ok (.vfma .bf16 4 5 6 7) ∧ decode 0x090624C7 = .ok (.vcmpLt .i16 9 2 3) ∧ decode 0x204620C7 = .ok (.vsel .bf16 1 2 3)
    ∧ decode 0x000C20C9 = .ok (.vcvt .f32 .d8 1 2) ∧ decode 0x085A8649 = .ok (.vq8 .bf16 12 8 13) ∧ decode 0x310E32C9 = .ok (.vext .i16 5 3 7)
    ∧ decode 0x0000504D = .ok (.sbind 0 5) ∧ decode 0x0800914D = .ok (.seos 2 9) ∧ decode 0x1000134D = .ok (.sstat 6 1) ∧ decode 0x180001CD = .ok (.sunbind 3)
    ∧ decode 0x000620CF = .ok (.tql 1 2 3) := by decide

/-- R130, R134, R139: gangs, launches and packets. -/
theorem test_decode_gangs : decode 0x180063C1 = .ok (.gbarAdd 7 6) ∧ decode 0x00000041 = .ok (.gbar 0 0) ∧ decode 0x000096C3 = .ok (.launch 13 9)
    ∧ decode 0x01CC503F = .ok (.mopen 5 6 7) ∧ decode 0x0810003F = .ok (.mput 8) ∧ decode 0x1006003F = .ok (.mputV 3) ∧ decode 0x1810003F = .ok (.mputE 8)
    ∧ decode 0x2006003F = .ok (.mputVe 3) := by decide

/-- R213 to R243: the engines of a core, and leases. -/
theorem test_decode_engines : decode 0x01480051 = .ok (.cpy 0 4 5) ∧ decode 0x080004D1 = .ok (.cpyq 9) ∧ decode 0x10005053 = .ok (.mcfg 5)
    ∧ decode 0x180C5053 = .ok (.mmaBf16 5 6) ∧ decode 0x21CC5053 = .ok (.mmaD8 5 6 7) ∧ decode 0x280C5053 = .ok (.mmaF16 5 6)
    ∧ decode 0x00000053 = .ok .mown ∧ decode 0x00009055 = .ok (.epcfg 9) ∧ decode 0x0800A055 = .ok (.epgo 10) ∧ decode 0x000062DD = .ok (.lease 5 6) := by
  decide

/-- R251 to R289, R311, R320 to R324, R335, R336: the stacks, the index, tournaments and page tables. -/
theorem test_decode_stacks : decode 0x0800904F = .ok (.tqlatch 9) ∧ decode 0x1800904F = .ok (.tqmac 9) ∧ decode 0x2001004F = .ok (.tqread 16)
    ∧ decode 0x00005057 = .ok (.nmsend 5) ∧ decode 0x08005057 = .ok (.nmresume 5) ∧ decode 0x10005057 = .ok (.nmload 5)
    ∧ decode 0x18005357 = .ok (.nmstat 6 5) ∧ decode 0x00005059 = .ok (.ixnear 5) ∧ decode 0x08005059 = .ok (.ixstore 5)
    ∧ decode 0x08405059 = .ok (.ixstoreRel 5) ∧ decode 0x10005059 = .ok (.ixdel 5) ∧ decode 0x18005359 = .ok (.ixsnap 6 5)
    ∧ decode 0x20005359 = .ok (.ixstat 6 5) ∧ decode 0x28005359 = .ok (.ixcreate 6 5) ∧ decode 0x0000505F = .ok (.pinv 5)
    ∧ decode 0x080C505F = .ok (.pswap 5 6) ∧ decode 0x1000505F = .ok (.pclr 5) ∧ decode 0x1800505F = .ok (.pgen 5)
    ∧ decode 0x00C0705B = .ok (.tscoreAdd 7) ∧ decode 0x0800535B = .ok (.trinfo 6 5) := by decide

/-- R27, R43: the all-zero halfword, an unassigned major and a field that must be 0 are no instruction. -/
theorem test_decode_refuses : decode 0 = .error .illegal ∧ decode 0x63 = .error .illegal ∧ decode 0x020E6281 = .error .reserved := by decide

/-! ### Small states -/

/-- A thread of function 5 on slot 0, alone in its gang, at 0x4000001000. -/
def thr : Thread :=
  { Thread.idle with bound := true, ident := ⟨5, 1, 0, 0, none⟩, gsize := 1, pc := 0x4000001000 }

/-- A packet for gangs of one user thread. -/
def pkt : LaunchPacket := ⟨0, 2, 0, 1, 1, 0, 0x4000001000, 0, 1, false, false, 0, 0, 0, 0, 0, 0⟩

/-- The thread's launch and its gang. -/
def launch : Launch := ⟨1, 5, pkt, false, some 1, [0], 0, 0, [], 0, (0, 0)⟩
def gang : Gang := ⟨1, 5, 0, none, 0, 0, 1, 2, [], 0, [], none, none, [], [], [], (0, 0)⟩

/-- A machine with the one thread. -/
def base : State := { State.reset with th := thr, launches := [launch], gangs := [gang] }

/-- The next state of an answer. -/
def nextOf (o : Out) : State := match o with | .next t => t | .fault _ => State.reset | .refused _ => State.reset

/-- Changes of the thread. -/
def withTh (f : Thread → Thread) : State := { base with th := f base.th }

/-- The page tables of function 5: code at 0x4000000000 in the frame at 0x210000, and data, readable and writable, at 0x4000200000 in the
frame at 0x200000 (R312, R313). -/
def tables : Memory :=
  [(0x100028, 0x300001), (0x300000, 0x302001), (0x302020, 0x304001), (0x304000, 0x306001), (0x306000, 0x2100A3), (0x306100, 0x20019B)].foldl
    (fun (m : Memory) (e : Nat × Nat) => Memory.writeN m e.1 (bytesOf 8 e.2)) []

/-- The machine with those tables. -/
def mapped : State := { base with mem := tables }

/-- An access in flight at 0x4000200008. -/
def access (op : AccOp) : Access := ⟨op, 0x4000200008, .gang, false, 5, 0x1234, 7, false, 0, none, none⟩

/-- A message of the thread for handler 8, on the one frame at 0x200000. -/
def message : NmMsg := ⟨base.th.owner, base.th.view .nm, 0x1000, 0x4000200000, 1, 8, 0, true, [], 0, false, 0, none, [0x200000], [0]⟩

/-! ### Single steps -/

/-- R66: the sum wraps at 64 bits. -/
theorem test_add_wraps : (nextOf (exec (.add 5 6 7) ((base.setX 6 0xFFFFFFFFFFFFFFFF).setX 7 2))).getX 5 = 1 := by decide

/-- R7: x0 discards what is written to it. -/
theorem test_x0 : (nextOf (exec (.addi 0 6 5) base)).getX 0 = 0 := by decide

/-- R70: the 20 bits stand in bits [31:12], sign-extended. -/
theorem test_lim : (nextOf (exec (.lim 5 0x80000) base)).getX 5 = 0xFFFFFFFF80000000 := by decide

/-- R72: the worked counts of 0x1800000FF. -/
theorem test_counts :
    let s := base.setX 10 0x1800000FF
    (nextOf (exec (.clz .b 9 10) s)).getX 9 = 0x0808080700080800 ∧ (nextOf (exec (.ctz .b 9 10) s)).getX 9 = 0x0808080007080800
    ∧ (nextOf (exec (.ffs .b 9 10) s)).getX 9 = 0x0000000108000001 ∧ (nextOf (exec (.popc .b 9 10) s)).getX 9 = 0x0000000101000008
    ∧ (nextOf (exec (.clz .w 9 10) s)).getX 9 = 0x1F00000000 ∧ (nextOf (exec (.popc .d 9 10) s)).getX 9 = 10 := by decide

/-- R75: by 0 the quotient is -1 and the remainder the dividend; the least number by -1 is itself. -/
theorem test_div_corners :
    let s := ((base.setX 6 0x8000000000000000).setX 7 0xFFFFFFFFFFFFFFFF)
    (nextOf (exec (.div 5 6 0) s)).getX 5 = 0xFFFFFFFFFFFFFFFF ∧ (nextOf (exec (.rem 5 6 0) s)).getX 5 = 0x8000000000000000
    ∧ (nextOf (exec (.div 5 6 7) s)).getX 5 = 0x8000000000000000 ∧ (nextOf (exec (.rem 5 6 7) s)).getX 5 = 0 := by decide

/-- R76: a branch back by 6 halfwords. -/
theorem test_branch : (nextOf (exec (.bne 5 0 0x7FFA) (base.setX 5 1))).th.pc = 0x4000000FF4 := by decide

/-- R80: the worked `loopi 3`, with an end offset of 5: the body's last instruction starts at A + 12. -/
theorem test_loopi : (nextOf (exec (.loopi 3 5) base)).th.loop0 = ⟨0x4000001004, 0x400000100C, 3, true⟩ := by decide

/-- R22: the worked `udf`: the handler is entered with cause 0x01 and the word as qualifier. -/
theorem test_udf :
    let t := (nextOf (exec (.udf 0) (withTh fun t => { t with pc := 0x4000001A36, uvec := 0x4000002000 }))).th
    t.epc = 0x4000001A36 ∧ t.cause = 1 ∧ t.tval = 0x7F ∧ t.uact = true ∧ t.pc = 0x4000002000 := by decide

/-- R85: a store of the sum of the worked example, byte by byte. -/
theorem test_stl :
    Memory.readN (nextOf (exec (.stl false .d 10 2 0x3FF) (base.setX 10 0xFFFFFFFF8000000A))).loc 0x38F8 8 = [0x0A, 0, 0, 0x80, 0xFF, 0xFF, 0xFF, 0xFF] := by
  decide

/-- R169: an odd address raises 0x04, and past the core's scratchpad the first byte outside raises 0x05. -/
theorem test_ldl_v_faults :
    let s := withTh fun t => { t with uvec := 0x4000002000 }
    (nextOf (exec (.ldlV false 1 6 0) (s.setX 6 0x100F9))).th.cause = 4 ∧ (nextOf (exec (.ldlV false 1 6 0) (s.setX 6 0x100F9))).th.tval = 0x100F9
    ∧ (nextOf (exec (.ldlV false 1 6 0) (s.setX 6 0x6FFF0))).th.cause = 5 ∧ (nextOf (exec (.ldlV false 1 6 0) (s.setX 6 0x6FFF0))).th.tval = 0x70000 := by
  decide +kernel

/-- R160: the upper 256 KiB of the scratchpad is the core's window of cluster memory. -/
theorem test_window : locKey 0 [] 0x1000010 = locKey 0 [] 0x30010 := by decide

/-- R83: a load of a word is sign-extended. -/
theorem test_load :
    let s := { base with mem := Memory.writeN tables 0x200008 [0x0A, 0, 0, 0x80], th := { base.th with acc := [access (.ld .w true)] } }
    (nextOf (exec .loadReturn s)).getX 5 = 0xFFFFFFFF8000000A := by decide +kernel

/-- R168, R171: an atomic add answers the old value and stores the sum. -/
theorem test_amo :
    let s := { base with mem := Memory.writeN tables 0x200008 [5], th := { base.th with acc := [access (.amo 0 true)] } }
    let t := nextOf (exec .atomicPerform s)
    t.getX 5 = 5 ∧ Memory.readN t.mem 0x200008 8 = bytesOf 8 0x1239 := by decide +kernel

/-- R54: the greater of +0 and -0 is +0, the lesser -0. -/
theorem test_zeros :
    let s := (base.setF 1 0x80000000).setF 2 0
    lane 32 ((nextOf (exec (.vmax .f32 3 1 2) s)).getF 3) 0 = 0 ∧ lane 32 ((nextOf (exec (.vmin .f32 3 2 1) s)).getF 3) 0 = 0x80000000 := by decide

/-- R59: the worked D8 codes. -/
theorem test_d8 :
    let v := (nextOf (exec (.vcvt .d8 .f32 1 2) (base.setF 2 0x80407F60))).getF 1
    lane 32 v 0 = 0x3F800000 ∧ lane 32 v 1 = 0x411B8000 ∧ lane 32 v 2 = 0x3DCCCCCD ∧ lane 32 v 3 = 0x7FC00000 := by decide

/-- R93: an i8 sum wraps. R94: a shift by the width or more leaves copies of the sign. -/
theorem test_lanes_i8 :
    let s := (base.setF 1 0x7F).setF 2 0x01
    lane 8 ((nextOf (exec (.vadd .i8 3 1 2) s)).getF 3) 0 = 0x80
    ∧ lane 8 ((nextOf (exec (.vsra .i8 3 1 2) ((base.setF 1 0x80).setF 2 0x09))).getF 3) 0 = 0xFF := by decide

/-- R115: entries of the worked table of squares; an index past the last takes the last. -/
theorem test_tql :
    let s := { ((base.setX 3 0x400F00010000).setF 2 0xC80302) with loc := Memory.writeN [] (0x100000000 + 4) [4, 0, 9] }
    let v := (nextOf (exec (.tql 1 2 3) { s with loc := Memory.writeN s.loc (0x100000000 + 30) [225] })).getF 1
    lane 16 v 0 = 4 ∧ lane 16 v 1 = 9 ∧ lane 16 v 2 = 225 := by decide

/-- R180: an arrival that reaches the target twice over counts two generations. -/
theorem test_arrive :
    arriveWord 10 false (bytesOf 8 4 ++ bytesOf 8 1 ++ bytesOf 4 6 ++ bytesOf 4 1 ++ bytesOf 8 0)
      = bytesOf 8 4 ++ bytesOf 8 3 ++ bytesOf 4 8 ++ bytesOf 4 1 ++ bytesOf 8 1 := by decide

/-- R131: the worked vote, 1 + 2 + 3 + 4. -/
theorem test_vote : (nextOf (exec (.gbarAdd 7 6) (withTh fun t => { t with arrived := some 1, depart := some [1, 2, 3, 4] }))).getX 7 = 10 := by decide

/-- R135: a packet of zeros has values outside their ranges: status -3. -/
theorem test_launch_refused : (nextOf (exec (.launch 13 9) (base.setX 9 0x3800))).getX 13 = 0xFFFFFFFFFFFFFFFD := by decide

/-- R263: the words of a handler's registers wrap at 32 bits. -/
theorem test_madd :
    let h : Handler := ⟨message, (Vector.replicate 16 0).set 2 0xFFFFFFFF, [], 0, none, false⟩
    ((nextOf (exec (.madd 1 2 (.imm 2)) (base.putNmu 0 { base.nmu 0 with run := some h }))).nmu 0).run.map (fun h => h.m[1]) = some 1 := by decide

/-! ### What the obligations assume: integer, control, traps -/

/-- `IntegerResults`, `BitFields`: an element that is 0 beside one that is not. -/
theorem test_meets_elements : fld (0x00FF#64).toNat 0 8 ≠ 0 ∧ fld (0x00FF#64).toNat 56 8 = 0 := by decide

/-- `BranchesAndJumps`: a condition that holds and one that does not; targets at the edges of R15. -/
theorem test_meets_branches : base.getX 1 = base.getX 3 ∧ base.getX 2 ≠ base.getX 3 ∧ GoodTarget 0 ∧ GoodTarget 0xFFFFFFFFFFFFFE
    ∧ (1#64).getLsbD 0 = true ∧ (0x100000000000000#64).getLsbD 0 = false ∧ 2 ^ 56 ≤ (0x100000000000000#64).toNat := by
  unfold GoodTarget; decide

/-- `HardwareLoops`, the end check: a pass left and the last pass, at each level. -/
theorem test_meets_end_check :
    let l (c : Word) : Loop := ⟨0x4000000FF0, 0x4000001000, c, true⟩
    let s (a b : Loop) : State := withTh fun t => { t with loop0 := a, loop1 := b }
    ((s (l 1) (l 2)).th.loop1.flag = true ∧ (s (l 1) (l 2)).th.loop1.last = (s (l 1) (l 2)).th.pc ∧ ((l 2).cnt - 1 == 0) = false ∧ ((l 0).cnt - 1 == 0) = false)
    ∧ (l 1).cnt - 1 = 0 ∧ (s (l 2) Loop.none).th.loop1.flag = false ∧ (s (l 2) Loop.none).th.loop0.last = (s (l 2) Loop.none).th.pc
    ∧ ¬((s Loop.none (l 1)).th.loop0.flag = true ∧ (s Loop.none (l 1)).th.loop0.last = (s Loop.none (l 1)).th.pc) := by decide

/-- `HardwareLoops`, the loop instructions: none active, an outer level that ends with the inner body, one that ends before it, both
active, a level that ends at the instruction, and a body to be skipped. -/
theorem test_meets_loops :
    let l (last : Word) : Loop := ⟨0x4000001004, last, 3, true⟩
    let s (a b : Loop) : State := withTh fun t => { t with loop0 := a, loop1 := b }
    base.pcPlus (4 + 2 * 4) = 0x400000100C
    ∧ (base.th.plainAt base.th.pc ∧ base.th.loop0.flag = false)
    ∧ ((s (l 0x400000100C) Loop.none).th.plainAt 0x4000001000 ∧ (l 0x400000100C).flag = true ∧ Loop.none.flag = false
      ∧ base.pcPlus 12 ≤ (l 0x400000100C).last)
    ∧ ((s (l 0x400000100A) Loop.none).th.plainAt 0x4000001000 ∧ (l 0x400000100A).last < base.pcPlus 12)
    ∧ ((s (l 0x400000100C) (l 0x400000100C)).th.plainAt 0x4000001000)
    ∧ ¬(s (l 0x4000001000) Loop.none).th.plainAt (s (l 0x4000001000) Loop.none).th.pc
    ∧ (match mapped.fetchHalf (mapped.pcPlus 12).toNat with | (.ok _, _) => true | (.error _, _) => false) = true := by
  unfold Thread.plainAt; decide +kernel

/-- `StateRegisterReads`: the first number of a gap, and the last of all. -/
theorem test_meets_srd : base.srRead 0x007 = none ∧ base.srRead 0x073 = none ∧ base.srRead 0x3FF = none := by decide

/-- `StateRegisterWrites`: a read-only number, one that may be written, and an inner level made active alone. -/
theorem test_meets_swr : (0x000 ∉ [0x001, 0x002, 0x003, 0x04A, 0x04E, 0x050, 0x070, 0x071])
    ∧ (base.th.srWrite 0x04F 1).map (fun u => (u.loop1.flag, u.loop0.flag)) = some (true, false)
    ∧ (base.th.srWrite 0x04B 1).map (fun u => (u.loop1.flag, u.loop0.flag)) = some (false, true)
    ∧ (base.th.srWrite 0x005 0xFFFF).map (fun u => u.usave) = some 0x3FC0 ∧ base.th.plainAt base.th.pc := by
  unfold Thread.plainAt; decide

/-- The thread with a handler. -/
def handled : State := withTh fun t => { t with uvec := 0x4000002000 }

/-- The thread with an open packet. -/
def packing : State := withTh fun t => { t with packet := some ⟨0, 0, 0x10000, 0, 0, 0, 0⟩ }

/-- The thread about to execute a word. -/
def holding (w : Nat) : State := { base with mem := Memory.writeN tables 0x211000 (bytesOf 4 w) }

/-- `SoftwareTraps`: causes that are delivered; a packet; the first and the last of the majors without an instruction. -/
theorem test_meets_traps : handled.reported 0x14 = false ∧ handled.reported 0x13 = false ∧ handled.th.packet = none ∧ handled.th.mownWait = false
    ∧ handled.th.mma = none ∧ packing.th.packet ≠ none ∧ (major 0x7F = 0x3F ∧ 0x7F % 2 = 1)
    ∧ [0x63, 0x7D].all (fun w => !(holding w).th.mayStop && (holding w).th.redo.isEmpty && !(holding w).spent (holding w).th
      && (holding w).th.acc.isEmpty && (holding w).th.ixReq.isNone && !(holding w).boundaryDue
      && (match (holding w).fetch with | (.ok v, _) => v == w | (.error _, _) => false) && 0x31 ≤ major w && major w ≤ 0x3E) = true := by decide +kernel

/-- A held record of a store. -/
def record : Held := ⟨.acc (access (.st .d)), 0x06, 0x4000200008, true, false, false, false, 0⟩

/-- An `mma` of the thread that still waits for its rows. -/
def mmaRun : MmaRun := ⟨.bf16, 0x10000, none, []⟩

/-- `TrapEntersHandler`: a cause that is delivered, in a plain thread, in one that waits in an `mma`, and in one with a packet and in `mown`; a
word of the fault record; a fault record of 8 held records. -/
theorem test_meets_handler : handled.reported 0x01 = false ∧ handled.th.packet = none ∧ handled.th.mownWait = false ∧ handled.th.mma = none
    ∧ Memory.wf handled.loc = true ∧ ({ handled with th := { handled.th with mma := some mmaRun } } : State).reported 0x01 = false
    ∧ (handled.th.slot * 0x4000 + handled.th.usave.toNat < 8 * 0x727 + 8 ∧ 8 * 0x727 < handled.th.slot * 0x4000 + handled.th.usave.toNat + 128
      ∧ handled.th.usave.toNat % 64 = 0)
    ∧ (let s := { handled with th := { handled.th with packet := some ⟨0, 1, 0x10000, 0, 8, 1, 1⟩, mownWait := true } }
      s.reported 0x16 = false ∧ s.th.packet ≠ none)
    ∧ (List.replicate 8 record).length ≤ 8 ∧ (List.replicate 8 record)[7]? = some record ∧ (0xFF < 256) := by decide

/-- A handler that returns to an address, with a fault record of loop flags. -/
def returning (epc : Word) (flags : Nat) : State :=
  { withTh (fun t => { t with uact := true, epc := epc, held := [record] }) with loc := Memory.writeN [] (0x3900 + 72) (bytesOf 8 flags) }

/-- `ReturnFromHandler`: no handler active, the inner level alone in the record, and each kind of sr.epc. -/
theorem test_meets_uret : base.th.uact = false ∧ (returning 0 2).th.uact = true
    ∧ natOf ((((returning 0 2).readLoc base.th.owner 0x3900 128).drop 72).take 8) = 2
    ∧ natOf ((((returning 0 3).readLoc base.th.owner 0x3900 128).drop 72).take 8) = 3
    ∧ (returning 1 0).th.epc.getLsbD 0 = true ∧ (returning 0x100000000000000 0).th.epc.getLsbD 0 = false
    ∧ 2 ^ 56 ≤ (returning 0x100000000000000 0).th.epc.toNat ∧ GoodTarget (returning 0xFFFFFFFFFFFFFE 3).th.epc := by
  unfold GoodTarget; decide

/-- A thread with a store in flight. -/
def storing : State := { mapped with th := { thr with acc := [access (.st .d)], seq := 1 } }

/-- `YieldAndExit`: nothing held and nothing owed, with and without work outstanding; the first of two threads of a gang. -/
theorem test_meets_exit : base.th.packet = none ∧ base.ownWhy.isEmpty = true ∧ base.quiet = true ∧ base.ownsUnit base.th.slot = false
    ∧ storing.ownWhy.isEmpty = true ∧ storing.quiet = false ∧ packing.th.packet ≠ none
    ∧ (let g := { gang with gsize := 2 }
       let s : State := { base with th := { thr with gsize := 2 }, gangs := [g] }
       s.quiet = true ∧ s.gangOf s.th.ident = some g ∧ s.th.arrived = none ∧ s.th.ident.grank ∉ g.ended ∧ g.ended.length + 1 < g.gsize)
    ∧ (let s := base.putUnit 0 { MatrixUnit.empty with owner := some 0 }
       s.ownsUnit s.th.slot = true ∧ (s.unitOf 0).owed = 0 ∧ (s.unitOf 0).waiters = [] ∧ s.quiet = true) := by decide +kernel

/-! ### What the obligations assume: lanes and streams -/

/-- The lane obligations: types of each kind, and registers that no stream holds. -/
theorem test_meets_lanes : base.Unbound [0, 28, 31] ∧ LaneType.i8.integer = true ∧ LaneType.f16.float = true ∧ LaneType.f32.arith = true
    ∧ (0 < LaneType.f32.lanes ∧ 31 < LaneType.i8.lanes) := by
  unfold State.Unbound; decide

/-- `ComparesAndReductions`: a lane with a signalling NaN among the f32 lanes. -/
theorem test_meets_nan : laneValue .f32 (lane 32 (0x7F800001#256) 0) = .nan true ∧ laneValue .f32 (lane 32 (0x7F800001#256) 1) ≠ .nan true := by decide

/-- `ConversionsAndQuantising`: a block with an outlier and no stream 3, or one that takes its outlier, and a block without. -/
theorem test_meets_vq8 :
    let x (s : State) (i : Nat) : Exact := bf16.unpack (lane 16 (s.getF 8) i)
    let s : State := { (base.setF 8 0x41A0) with th := { (base.setF 8 0x41A0).th with othresh := 0x41000000 } }
    let side : Stream := ⟨0x3000, 1, 3, 2, 0, 2, 0⟩
    (outlier (f32.unpack s.th.othresh.toNat) (x s 0) = true ∧ s.th.streams[3] = none ∧ s.streamOf 8 = none)
    ∧ (side.type.val = 1 ∧ side.dir.val = 2 ∧ s.transferFault [(side, 1)] = none ∧ s.th.acquiring = false)
    ∧ (∀ i < 16, outlier (f32.unpack base.th.othresh.toNat) (x (base.setF 8 0x41A0) i) = false) := by decide

/-- `ModifierWords`: followers that are too short, that cannot be modified, and that can; a copy of D8 codes, and a sum of integers; one with a
reserved field. -/
theorem test_meets_modifiers :
    let pair (j : Instr) : Bool := j.word % 2 == 1 && decWord j.word == .ok j
    (pair (.vmov .d8 1 2) && pair (.vadd .i32 1 2 3) && !LaneType.i32.float && pair (.vmax .f16 1 2 3) && pair (.vredmin .i8 1 2) && pair (.vcvt .d8 .d8 1 2)
      && decWord 0x4886A4C5 == .error .reserved && major 0x4886A4C5 == 0x22 && ffn 0x4886A4C5 == 9 && bodyOf 0x4886A4C5 == some (.vsqrt .f16 9 10)
      && !refusesPair ⟨0, false, false, true, 0⟩ (.vsqrt .f16 9 10)) = true
    ∧ (0x0820#32).toNat % 2 = 0 ∧ (BitVec.ofNat 32 (Instr.srd 6 0x026).word).toNat = (Instr.srd 6 0x026).word
    ∧ (BitVec.ofNat 32 (Instr.vadd .bf16 1 2 3).word).toNat = (Instr.vadd .bf16 1 2 3).word
    ∧ (BitVec.ofNat 32 (Instr.vfma .f32 1 2 3 4).word).toNat = (Instr.vfma .f32 1 2 3 4).word := by decide

/-- A stream of f32 elements from 0x3000 up, at its first of three. -/
def stream (dir : Fin 4) : Stream := ⟨0x3000, 0, 3, 4, 0, dir, 0⟩

/-- The thread with that stream bound to f28. -/
def streaming (dir : Fin 4) : State := withTh fun t => { t with streams := t.streams.set 0 (some (stream dir)) }

/-- A machine whose slice holds a stream's record at 0x100. -/
def offering (type : Nat) : State :=
  { base with loc := Memory.writeN [] 0x100 (bytesOf 4 0x3000 ++ bytesOf 4 3 ++ bytesOf 4 4 ++ bytesOf 1 type ++ bytesOf 1 2 ++ bytesOf 2 0) }

/-- `Streams`: a good record and a bad one, each edge of the address, a bound stream in each direction. -/
theorem test_meets_streams :
    let s := (offering 0).setX 5 0x100
    let n (s : State) (o len : Nat) : Nat := natOf (((s.seeLoc (s.th.view .core) 0x100 16).drop o).take len)
    (s.th.streams[0] = none ∧ s.localFault s.th.owner 0x100 16 = none)
    ∧ (n s 12 1 = 0 ∧ n s 13 1 = 2 ∧ n s 14 2 = 0 ∧ n s 0 4 % 4 = 0 ∧ n s 8 4 % 4 = 0) ∧ n (offering 7) 12 1 = 7
    ∧ (s.getX 5).toNat % 16 = 0 ∧ ((s.setX 5 0x101).getX 5).toNat % 16 ≠ 0
    ∧ (∀ d ∈ [0, 1, 2], (streaming d).streamOf 28 = some (0, stream d) ∧ (streaming d).streamOf 1 = none
      ∧ (streaming d).transferFault [(stream d, (stream d).per)] = none ∧ (streaming d).th.acquiring = false)
    ∧ (stream 0).pos.toNat < (stream 0).limit.toNat := by decide

/-- `LocalTableQuery`: a good descriptor, a reserved one, a misaligned base, and a table past the scratchpad. -/
theorem test_meets_tql :
    let good (x : Nat) : Prop := fld x 48 16 = 0 ∧ fld x 44 2 ≠ 3 ∧ fld x 46 2 ≠ 3
    (∀ x ∈ [0x400F00010000, 0x400F00010001, 0x400F0006FFF0], good x) ∧ ¬good 0x1400F00010000 ∧ 0x10000 % 2 = 0 ∧ 0x10001 % 2 ≠ 0
    ∧ base.localFault base.th.owner 0x10000 32 = none ∧ (base.localFault base.th.owner 0x6FFF0 32).isSome = true
    ∧ base.th.acquiring = false ∧ (withTh fun t => { t with acc := [{ access (.ld .d true) with acq := true }] }).th.acquiring = true := by decide

/-! ### What the obligations assume: memory, packets, gangs -/

/-- `GlobalAccessIssue`: no wait and the last aligned address; a misaligned one, the first past the address space, a release behind a store. -/
theorem test_meets_issue :
    (base.th.acquiring = false ∧ base.counter base.th .lc < 16 ∧ base.counter base.th .sc < 32 ∧ base.Clear ∧ base.streamOf 3 = none)
    ∧ (0xFFFFFFFFFFFFF8 % 8 = 0 ∧ 0xFFFFFFFFFFFFF8 < 2 ^ 56) ∧ 0x4000200001 % 2 ≠ 0 ∧ (2 ^ 56 % 8 = 0 ∧ 2 ^ 56 ≤ 2 ^ 56)
    ∧ mapped.splits 0x40002000FE = false ∧ base.MayRelease .sys ∧ mapped.MayRelease .plain
    ∧ (storing.th.held = [] ∧ storing.th.acc ≠ [] ∧ ∀ c ∈ storing.th.acc, c.stuck = none) := by
  unfold State.MayRelease State.Clear; decide +kernel

/-- A machine whose thread has one access in flight. -/
def issued (op : AccOp) : State := { mapped with th := { thr with acc := [access op] } }

/-- Whether the one access of such a machine is next, and touches plain memory alone. -/
def plainNext (s : State) : Bool :=
  match s.th.acc with
  | [] => false
  | a :: _ =>
    s.th.bound && s.ev.unit == s.th.slot && a.stuck.isNone && s.th.mayPerform a && (s.th.behind a).isNone
      && lineParts a.va a.op.bytes == [(a.va, a.op.bytes)]
      && (match s.translate (s.reqOf a) a.va with
        | (.ok p, u) => !p.tracked && !pteRetag p.leaf && u.poison.isEmpty && u.bad.isEmpty && u.indexes.isEmpty && u.keys.isEmpty && u.regs.isEmpty
          && u.memPast.isEmpty && Memory.wf u.mem
        | (.bad _, _) => false
        | (.wait, _) => false)

/-- `AccessPerformed`: an access of every kind is next and meets plain memory. -/
theorem test_meets_performed : plainNext (issued (.ld .b true)) = true ∧ plainNext (issued .ldv) = true ∧ plainNext (issued (.st .d)) = true
    ∧ plainNext (issued .stv) = true ∧ plainNext (issued (.amo 8 true)) = true ∧ plainNext (issued (.cas false)) = true ∧ plainNext (issued .nmstat) = true
    ∧ plainNext (issued .pclr) = true ∧ (issued .ldv).streamOf 5 = none := by decide +kernel

/-- `AccessFaults`: an access to a page that is not mapped, with 7 and with 8 places taken, and one that is held back; one that stands
between two records in program order. -/
theorem test_meets_faults :
    let a := access (.st .d)
    let s (n : Nat) (w : Option Why) : State :=
      { base with th := { thr with acc := [{ a with stuck := w }], held := List.replicate n { record with seq := 9 } } }
    let bad (n : Nat) : Bool := match (s n none).translate ((s n none).reqOf a) a.va with | (.bad c, _) => c == 6 | (.ok _, _) => false | (.wait, _) => false
    ((s 7 none).th.mayPerform a = true ∧ (s 7 none).th.behind a = none ∧ (s 7 none).th.held.length < 8 ∧ bad 7 = true)
    ∧ ((s 8 none).th.mayPerform a = true ∧ (s 8 none).th.behind a = none ∧ 8 ≤ (s 8 none).th.held.length ∧ bad 8 = true)
    ∧ ((s 7 (some ⟨6, a.va, true, false⟩)).th.acc.map (·.stuck) = [some ⟨6, a.va, true, false⟩] ∧ a.op.kind.writes = true)
    ∧ ([{ record with seq := 0 }, { record with seq := 9 }].Pairwise (fun g h => g.seq ≤ h.seq) ∧ a.seq = 0 ∧ a.seq < 9 ∧ a.releases = false) := by
  decide +kernel

/-- `LocalMemory`: the last aligned word of the scratchpad, a misaligned one, the first past it, and an ordered store behind another. -/
theorem test_meets_local : Memory.wf base.loc = true ∧ base.th.acquiring = false
    ∧ (0x6FFF8 % 8 = 0 ∧ base.localFault base.th.owner 0x6FFF8 8 = none) ∧ base.localFault base.th.owner 0x6FFE0 32 = none
    ∧ 0x6FFF9 % 8 ≠ 0 ∧ 0x70000 % 8 = 0 ∧ (base.localFault base.th.owner 0x70000 8).isSome = true
    ∧ (storing.localFault storing.th.owner 0 8 = none ∧ storing.th.held = [] ∧ storing.th.acc ≠ []) := by decide

/-- `CounterWaitsAndFences`: a counter at its bound and one above it; no store outstanding and one; a packet. -/
theorem test_meets_waits : (storing.th.held = [] ∧ (∀ c ∈ storing.th.acc, c.stuck = none) ∧ storing.th.packet = none)
    ∧ storing.counter storing.th .sc ≤ 1 ∧ 0 < storing.counter storing.th .sc ∧ base.counter base.th .sc = 0 ∧ packing.th.packet ≠ none
    ∧ (∀ c ∈ packing.th.acc, c.stuck = none) := by decide

/-- `ArrivalRule`: a sync word in auto mode with a target, and one without. -/
theorem test_meets_arrival :
    let w (target flags : Nat) : List Byte := bytesOf 8 target ++ bytesOf 8 1 ++ bytesOf 4 6 ++ bytesOf 4 flags ++ bytesOf 8 0
    (w 4 1).length = 32 ∧ natOf (((w 4 1).drop 20).take 4) % 2 = 1 ∧ natOf (((w 4 1).drop 0).take 8) ≠ 0
    ∧ natOf (((w 4 0).drop 20).take 4) % 2 = 0 ∧ natOf (((w 0 1).drop 0).take 8) = 0 := by decide

/-- `SyncWordInstructions`: the last word of the scratchpad, at its generation and at another; a misaligned one; a waiting slot. -/
theorem test_meets_sync :
    let s := base.setX 5 0x6FFE0
    let gen := natOf (((s.readLoc s.th.owner 0x6FFE0 32).drop 16).take 4)
    (Memory.wf s.loc = true ∧ (s.getX 5).toNat % 32 = 0 ∧ s.localFault s.th.owner 0x6FFE0 32 = none ∧ s.th.acquiring = false ∧ s.Clear)
    ∧ gen = (s.getX 0).toNat % 2 ^ 32 ∧ gen ≠ (s.getX 5).toNat % 2 ^ 32 ∧ 0x6FFE8 % 32 ≠ 0 ∧ s.th.packet = none
    ∧ (let w := withTh fun t => { t with swWait := some (0x6FFE0, 0) }
       w.th.bound = true ∧ w.ev.unit = w.th.slot ∧ w.th.swWait = some (0x6FFE0, 0)) := by
  unfold State.Clear; decide

/-- A thread whose packet to core 7 stands at an address, after some puts. -/
def putting (addr puts : Nat) : State := withTh fun t => { t with packet := some ⟨0, 7, addr, 0, 0, puts, puts⟩ }

/-- `MessagePackets`, the instructions: a core with a mate and one without, the edges of the destination, and the 63rd and the 64th put. -/
theorem test_meets_packets :
    (base.th.packet = none ∧ base.mateOn 0 = true ∧ 0x10000 % 8 = 0 ∧ (0x6FFE0 % 32 = 0 ∧ 0x6FFE0 + 32 ≤ 0x70000))
    ∧ base.mateOn 7 = false
    ∧ ((putting 0x6FFF8 62).th.packet = some ⟨0, 7, 0x6FFF8, 0, 0, 62, 62⟩ ∧ 0x6FFF8 + 8 ≤ 0x70000) ∧ 0x6FFE0 + 32 ≤ 0x70000
    ∧ (putting 0x6FFF8 63).th.packet = some ⟨0, 7, 0x6FFF8, 0, 0, 63, 63⟩ ∧ 0x70000 < 0x70000 + 8
    ∧ (putting 0x6FFE0 0).streamOf 3 = none := by decide

/-- `MessagePackets`, the landings: a word of a put, one behind an earlier packet's, and a packet that may count, one whose word has not landed, and one behind another. -/
theorem test_meets_landings :
    let c : Count := ⟨3, thr.ident, 7, some 0x100000000, 8, false⟩
    let s (ls : List Landing) (cs : List Count) (k : Nat) : State := { base with landings := ls, counts := cs, ev := { base.ev with idx := k } }
    let ready (s : State) : Prop := (∀ l ∈ s.landings, l.packet ≠ c.packet) ∧ ∀ d ∈ s.counts.take s.ev.idx, ¬(d.src = c.src ∧ d.core = c.core)
    let l (k : Nat) : Landing := ⟨k, thr.ident, 7, 0x100000000, [1]⟩
    let first (s : State) : Prop := ∀ m ∈ s.landings, ¬(m.src = (l 3).src ∧ m.core = (l 3).core ∧ m.packet < (l 3).packet)
    ((s [l 3] [] 0).landings[0]? = some (l 3) ∧ first (s [l 3] [] 0)) ∧ ((s [l 3, l 2] [] 0).landings[0]? = some (l 3) ∧ ¬first (s [l 3, l 2] [] 0))
    ∧ (s [] [] 0).landings[0]? = none
    ∧ ((s [] [c] 0).counts[0]? = some c ∧ ready (s [] [c] 0)) ∧ ¬ready (s [l 3] [c] 0)
    ∧ ((s [] [{ c with packet := 2 }, c] 1).counts[1]? = some c ∧ ¬ready (s [] [{ c with packet := 2 }, c] 1)) := by decide

/-- `GangBarrier`: before the arrival, behind a store, waiting, and leaving with the votes of two, in a handler too; a handler whose thread
arrived before it, and a packet; the arrived set of a gang of two, and one still out. -/
theorem test_meets_barrier :
    let u (c : Option Word) : Thread := { thr with slot := 1, ident := ⟨5, 1, 0, 1, none⟩, arrived := c }
    let s (c d : Option Word) : State := { base with th := { thr with arrived := c }, others := [(1, u d)], gangs := [{ gang with gsize := 2 }] }
    let g : Gang := { gang with gsize := 2 }
    (base.th.packet = none ∧ base.th.arrived = none ∧ base.Clear)
    ∧ ((s (some 1) none).th.arrived = some 1 ∧ (s (some 1) none).th.uact = false ∧ (s (some 1) none).th.depart = none)
    ∧ (storing.th.packet = none ∧ storing.th.arrived = none ∧ storing.th.held = [] ∧ storing.th.acc ≠ []) ∧ packing.th.packet ≠ none
    ∧ (let t : Thread := { thr with arrived := some 1, uact := true, depart := some [1, 2] }
       t.packet = none ∧ t.uact = true ∧ t.arriveHand = false ∧ ({ t with arriveHand := true } : Thread).arriveHand = true ∧ t.depart = some (1 :: [2]))
    ∧ (s (some 1) (some 2)).gangOf (s (some 1) (some 2)).th.ident = some g ∧ 2 + 0 ≠ ({ gang with gsize := 3 } : Gang).gsize
    ∧ (((s (some 1) (some 2)).threadsOf g).length + g.ended.length = g.gsize ∧ (∀ t ∈ (s (some 1) (some 2)).threadsOf g, t.atBarrier = true)
      ∧ g.has (s (some 1) (some 2)).th.ident = true)
    ∧ (((s (some 1) none).threadsOf g).any (fun t => !t.atBarrier) = true) := by
  unfold State.Clear; decide

/-- The packet that the spec works out (R133), with the count in memory or in the packet. -/
def packetBytes (indirect : Bool) : List Byte :=
  ([0x0000000401000200, 0x0000004000002000, 0x0000004000200100, if indirect then 0x0000000100000003 else 0x0000000000000003,
    if indirect then 0x0000004000200200 else 0, 0x0000004000200300, 0, 0] : List Nat).flatMap (bytesOf 8)

/-- A launch whose count stands in memory, or in its packet, and is not known yet. -/
def counting (indirect : Bool) : Launch :=
  { launch with id := 2, count := none, bound := [], pkt := { pkt with indirect := indirect, countva := 0x4000200200, done := 0x4000200300 } }

/-- `Launches`, the instruction: that packet is acceptable, and zeros are not. -/
theorem test_meets_launch :
    let s : State := { base with loc := Memory.writeN [] 0x3800 (packetBytes true) }
    (s.packetStatus (s.seeLoc (s.th.view .core) 0x3800 64) 5 false false == 0 && !s.th.acquiring && s.th.latched.isNone && s.ownWhy.isEmpty
      && storing.ownWhy.isEmpty && storing.th.acc.any (fun e => e.stuck.isNone) && (s.localFault s.th.owner 0x3800 64).isNone && s.th.packet.isNone
      && s.th.acc.isEmpty && s.th.held.isEmpty && s.launches.length == 1
      && base.packetStatus (base.seeLoc (base.th.view .core) 0x3800 64) 5 false false != 0) = true := by decide +kernel

/-- What `State.Bare` says. -/
def bare (u : State) : Bool :=
  u.poison.isEmpty && u.bad.isEmpty && u.indexes.isEmpty && u.keys.isEmpty && u.regs.isEmpty && u.memPast.isEmpty && Memory.wf u.mem

/-- `Launches`, the hub: a launch whose count is not known, in each mode, a count in a page that is not mapped, and a count of 0. -/
theorem test_meets_replicate :
    ([true, false].all (fun b => ({ base with launches := [counting b] } : State).launchById 2 == some (counting b) && (counting b).count.isNone
        && (counting b).pkt.indirect == b)
      && (match base.translate ((hubOwner (counting true).pkt.firstDie 5 2 true).req .load none) 0x4000200200 with
        | (.bad c, _) => c == 6 | (.ok _, _) => false | (.wait, _) => false)
      && (match mapped.translate ((hubOwner (counting true).pkt.firstDie 5 2 true).req .load none) 0x4000200200 with
        | (.ok p, v) => bare v && !p.tracked && decide (p.pa % 8 + 4 ≤ 8) && natOf (Memory.readN v.mem p.pa 4) == 0
        | (.bad _, _) => false | (.wait, _) => false) && (counting true).finished == 0 && (counting true).pkt.kind != 1) = true := by decide +kernel

/-- `Launches`, the completion block: a block that is mapped, and one that is not; an update that completes a tournament behind another. -/
theorem test_meets_block :
    let c (t : Bool) (k : Nat) : Completion := ⟨1, 5, 0x4000200300, 0, t, false, true, none, 0, k, (0, 0)⟩
    let s : State := { mapped with completions := [c false 0, c true 2], ev := { mapped.ev with idx := 1 } }
    ((match mapped.translate ((hubOwner 0 5 1 true).req .atomic none) 0x4000200308 with
      | (.ok p, v) => !p.tracked && !pteRetag p.leaf && bare v && decide (p.pa % 8 + 4 ≤ 8)
      | (.bad _, _) => false
      | (.wait, _) => false)
    && (match base.translate ((hubOwner 0 5 1 true).req .atomic none) 0x4000200308 with
      | (.bad c, _) => c == 6
      | (.ok _, _) => false
      | (.wait, _) => false)
    && s.completions[s.ev.idx]? == some (c true 2) && (s.completions.take s.ev.idx).any (fun e => e.launch == 1 && e.fn == 5)
    && ({ s with completions := [c false 1] } : State).completions[0]? == some (c false 1)) = true := by decide +kernel

/-! ### What the obligations assume: binding, saving, the engines of a core -/

/-- A record of the bind port: its frame, its flags (last 8, stop 4, resume 2), gang 0, rank 0, class 2, function 5, and its slot (R150). -/
def bits (frame flags slot : Nat) : BitVec 512 := BitVec.ofNat 512 (frame * 2 ^ 64 + flags * 2 ^ 56 + 2 * 2 ^ 24 + 5 * 2 ^ 16 + slot)

/-- A machine of one launch with a record on its way to the port of die 0. -/
def porting (th : Thread) (l : Launch) (gs : List Gang) (mem : Memory) (b : BitVec 512) : State :=
  { State.reset with th := th, launches := [l], gangs := gs, mem := mem, ev := { State.reset.ev with unit := 0, data := b } }

/-- `BindPortRecords`, a bind: a record that passes and one that does not, with the group ended and not, and a launch of one thread. -/
theorem test_meets_bind :
    let l : Launch := { launch with bound := [] }
    let s (b : BitVec 512) : State := porting Thread.idle l [] [] b
    let r (b : BitVec 512) : BindRec := bindRec (b.setWidth 128)
    ((s 0).port 0 == ⟨0, [], 0, 0, false⟩ && (r (bits 0 8 0)).last && !(r (bits 0 8 0)).stop && !(r (bits 0 8 0)).resume && !(r (bits 0 0 0)).last
      && (s (bits 0 8 0)).firmwareWould 0 (r (bits 0 8 0)) && (s (bits 0 8 0)).recordCode 0 [] (r (bits 0 8 0)) == 0
      && (s (bits 0 0 0)).firmwareWould 0 (r (bits 0 0 0))
      && (s (bits 0 8 1279)).recordCode 0 [] (r (bits 0 8 1279)) == 0 && (s (bits 0 8 1280)).recordCode 0 [] (r (bits 0 8 1280)) != 0
      && (s (bits 0 8 0)).headOf 5 2 0 == some l && l.pkt.threads == 1 && l.pkt.kind == 0 && l.pkt.units == 0
      && !(Tab.get (s 0).tenants (clusterOf ((r (bits 0 8 0)).slotOn 0)) ⟨none, false⟩).zeroing) = true := by decide +kernel

/-- `BindPortRecords`, what the firmware does not write: a record while a lower class can be bound, one while another function is to be served
sooner, and one of another slot than the next. -/
theorem test_meets_firmware :
    let l : Launch := { launch with bound := [] }
    let low : Launch := { l with id := 2, pkt := { pkt with prio := 0 } }
    let other : Launch := { l with id := 2, fn := 6 }
    let r (k : Nat) : BindRec := bindRec ((bits 0 8 k).setWidth 128)
    let s (m : List Launch) : State := { porting Thread.idle l [] [] (bits 0 8 0) with launches := [l] ++ m, charges := [(chargeKey 0 2 5, 16 * 7520)] }
    ((s [low]).recordCode 0 [] (r 0) == 0 && decide (0 < (r 0).prio) && (s [low]).bindableIn 0 0 5 == some 0
      && (s [other]).recordCode 0 [] (r 0) == 0 && (s [other]).bindable 0 2 == [5, 6] && (s [other]).roundsFor 0 2 6 == 0 && (s [other]).roundsFor 0 2 5 == 1
      && (s []).recordCode 0 [] (r 3) == 0 && (s []).bindableIn 0 2 5 == some 0 && ((s []).idleIn 0 0)[0]? == some 0) = true := by decide +kernel

/-- A frame whose continuation record names the thread (R120). -/
def frameBytes : Memory :=
  Memory.writeN [] (0x300000 + 0x3FC0 + 24) (bytesOf 4 0 ++ bytesOf 2 0 ++ bytesOf 2 0 ++ bytesOf 4 1 ++ bytesOf 1 5)

/-- `BindPortRecords`, a resume: the gang that is saved in the frame. -/
theorem test_meets_resume :
    let g : Gang := { gang with saved := [(0, 0x300000)] }
    let s := porting Thread.idle launch [g] frameBytes (bits 0x300000 10 3)
    let r := bindRec ((bits 0x300000 10 3).setWidth 128)
    (r.resume && r.last && s.recordCode 0 [] r == 0 && s.firmwareWould 0 r && !s.frameOwned r.frame && s.savedGang 0 r == some g && g.saved.length == 1 && s.launchOf 5 1 == some launch
      && s.frameField r.frame 31 1 / 2 % 2 == 0) = true := by decide +kernel

/-- `BindPortRecords`, a stop, a cluster that is being zeroed and one that something may still write, and a reservation for the next gang. -/
theorem test_meets_stop :
    let t : Thread := { thr with prio := 2 }
    let s := porting t launch [gang] [] (bits 0x300000 12 0)
    let r := bindRec ((bits 0x300000 12 0).setWidth 128)
    let l : Launch := { launch with bound := [] }
    let ghost : TableCmd := ⟨.latch, { thr.owner with lost := true }, thr.view .table, 0x3000, 0x4000200000, 0, 0, 0, 0, 0, false, 0, none⟩
    (r.stop && r.last && s.recordCode 0 [] r == 0 && s.mayZero 0 && !({ s with tableQ := [ghost] } : State).mayZero 0 && s.threadAt 0 == some t && t.phase == .running && t.slot == 0
      && (Tab.get ({ s with tenants := [(0, ⟨none, true⟩)] } : State).tenants 0 ⟨none, false⟩).zeroing && !(s.port 0).waiting
      && ({ s with launches := [l] } : State).launchById 1 == some l && ({ s with launches := [l] } : State).headOf 5 2 0 == some l
      && l.nextOn 0 == some (0, none) && (List.range 20).all (fun d => min 1 (({ s with launches := [l] } : State).idleIn 0 d).length ≤ 1)
      && min l.pkt.threads (({ s with launches := [l] } : State).idleIn 0 0).length == 1) = true := by decide +kernel

/-- `StopDrainSaveSpill`: a stop that may take effect, one that may not, a thread that has drained, and one that is saved with a frame. -/
theorem test_meets_save :
    let s (p : Phase) (frame : Nat) : State := withTh fun t => { t with phase := p, frame := frame }
    ((s .requested 0).th.mayStop && !base.th.mayStop && !base.th.mownWait && base.th.mma.isNone && base.th.depart.isNone
      && (base.outsideOf (fun r => r.who == base.th.ident || r.ownOf (base.th.view .core))).isEmpty && (s .draining 0).onlyLong && !{ storing with th := { storing.th with phase := .draining } }.onlyLong && (s .draining 0).drained && !(s .draining 0).ownsUnit 0
      && !(s .draining 0).th.needsPlace && base.badLoc.isEmpty && base.bad.isEmpty && base.keys.isEmpty && Memory.wf base.mem && Memory.wf base.loc
      && (s .saved 0x300000).th.phase == .saved && (s .saved 0x300000).th.frame % 16384 == 0 && base.th.bound && base.ev.unit == base.th.slot
      && !(s .draining 0).sliceBad 0 && ((s .saved 0x300000).badIn 0x300000 0x4000).isNone) = true := by
  decide

/-- `StopDrainSaveSpill`: a thread that needs a place, and has one; and a store without one. -/
theorem test_meets_place :
    let s : State := withTh fun t => { t with phase := .draining, notices := [7] }
    (s.th.needsPlace && s.drained && s.freePlace == some 0 && (s.badIn (s.placeAt 0) 0x800).isNone) = true := by decide

theorem test_meets_full_store :
    let place (k : Nat) : StorePlace := ⟨k, thr.ident, [], [], [], [], []⟩
    ({ base with store := (List.range 65536).map place } : State).freePlace = none := by
  intro place
  unfold State.freePlace
  rw [List.find?_eq_none]
  intro k _ h
  simp only [Bool.and_eq_true, decide_eq_true_eq, List.all_eq_true, bne_iff_ne] at h
  exact h.2 (place k) (List.mem_map.2 ⟨k, List.mem_range.2 h.1, rfl⟩) rfl

/-- `SaveThenRestore`: a thread whose address, record address and stream are as they may be. -/
theorem test_meets_restore :
    PcOk thr.pc ∧ thr.usave &&& 0x3FC0#64 = thr.usave ∧ (0xFF#64).toNat < 256 ∧ (stream 2).base.toNat < 2 ^ 29
      ∧ (streaming 2).th.streams[0] = some (stream 2) := by
  unfold PcOk; decide

/-- R124: the CRC of 188 zeros, in four parts. -/
theorem test_crc_zeros : crc32c (List.replicate 188 0) = 0x7535454E#32 := by
  have h0 : (List.replicate 47 (0 : Byte)).foldl crcByte 0xFFFFFFFF#32 = 0xB7953614#32 := by decide +kernel
  have h1 : (List.replicate 47 (0 : Byte)).foldl crcByte 0xB7953614#32 = 0x322C162F#32 := by decide +kernel
  have h2 : (List.replicate 47 (0 : Byte)).foldl crcByte 0x322C162F#32 = 0x02F56818#32 := by decide +kernel
  have h3 : (List.replicate 47 (0 : Byte)).foldl crcByte 0x02F56818#32 = 0x8ACABAB1#32 := by decide +kernel
  rw [crc32c, show 188 = 47 + (47 + (47 + 47)) from rfl]
  simp only [List.replicate_add, List.foldl_append, h0, h1, h2, h3]
  decide

/-- A thread that waits for its frame, in which a word stands at an offset. -/
def arriving (at' w : Nat) : State :=
  { base with mem := Memory.writeN [] (0x300000 + at') (bytesOf 4 w), th := { thr with frame := 0x300000, phase := .binding } }

/-- The frame copied into the slice. -/
def arrived (at' w : Nat) : State :=
  { arriving at' w with loc := Memory.place (arriving at' w).loc 0 0x4000 ((arriving at' w).rawSlice 0x300000 0x4000) }

/-- The copy of a frame of zeros with their CRC. -/
def saved : State := arrived 0x3FFC 0x7535454E

/-- `FrameCopyRestores`: a save of zeros with its CRC passes the checks. -/
theorem test_meets_frame : saved.saveOk 0 = true := by
  have h : saveCovered (Memory.readN saved.loc 0x3FC0 60) [] [] (Memory.readN saved.loc 0x3F40 64) (Memory.readN saved.loc 0x39C0 64) []
      = List.replicate 188 0 := by decide +kernel
  have e : natOf (Memory.readN saved.loc 0x3FFC 4) = 0x7535454E := by decide +kernel
  have e1 : natOf (Memory.readN saved.loc 0x3FD0 8) = 0 := by decide +kernel
  have e2 : natOf (Memory.readN saved.loc 0x3FF0 8) = 0 := by decide +kernel
  have e3 : natOf (Memory.readN saved.loc 0x3FF8 4) = 0 := by decide +kernel
  have e4 : natOf (Memory.readN saved.loc 0x3FDF 1) = 0 := by decide +kernel
  have e5 : natOf (Memory.readN saved.loc 0x3FE8 8) = 0 := by decide +kernel
  unfold State.saveOk
  simp only [Nat.zero_mul, Nat.zero_add, e, e1, e2, e3, e4, e5]
  have z : Memory.readN saved.loc 0x3A00 0 = [] := rfl
  rw [z, if_neg (by decide : ¬0 % 2 = 1), if_neg (by decide : ¬0 % 4 ≠ 0), h, test_crc_zeros]
  decide

/-- `FrameCopyRestores`: a save with a wrong size does not; and all else that the clauses assume. -/
theorem test_meets_frame_else :
    (saved.saved 0 0x3FDF 1 / 2 % 2 == 0 && !(arrived 0x3FF8 1).saveOk 0 && (arriving 0 0).th.phase == .binding && (arriving 0 0).th.bound
      && (arriving 0 0).gangOf thr.ident == some gang && (arriving 0 0).threadsOf gang == [(arriving 0 0).th] && gang.has (arriving 0 0).th.ident
      && gang.leaving.isEmpty && base.store.isEmpty && base.th.progress.isEmpty
      && ((arriving 0 0).badIn 0x300000 0x4000).isNone && !(arriving 0 0).sliceBad 0) = true := by decide +kernel

/-- A layout of 2 bytes in local memory at an address (R205). -/
def layout (base : Nat) : BitVec 768 :=
  BitVec.ofNat 768 (base + 2 ^ 72 + 2 * 2 ^ 128 + 2 ^ 256 + 2 * 2 ^ 640)

/-- The thread with two layouts in f0 to f5. -/
def copying : State :=
  let put (s : State) (r : Reg) (v : BitVec 768) : State := ((s.setF r (v.setWidth 256)).setF (r + 1) ((v >>> 256).setWidth 256)).setF (r + 2) ((v >>> 512).setWidth 256)
  put (put base 0 (layout 0x10000)) 4 (layout 0x20000)

/-- `CopyCommands`, the instruction: good records, a bad one, a misaligned sync word, and full queues. -/
theorem test_meets_cpy :
    let c : CopyCmd := ⟨thr.owner, thr.view .copy, layout 0x10000, layout 0x20000, 0, 0, ⟨none, none⟩, 0, none, none⟩
    let s (n : Nat) : State := { copying with copyQ := [(0, List.replicate n c)] }
    (copying.layoutRegs 0 == layout 0x10000 && copying.layoutRegs 4 == layout 0x20000 && (copying.syncFault 0).isNone
      && (copyFault (layout 0x10000) (layout 0x20000)).isNone && (copyFault 0 (layout 0x20000)).isSome && 0x10010 % 32 != 0
      && (s 3).counter (s 3).th .yc == 3 && (s 4).counter (s 4).th .yc == 4 && ((s 16).copyQueue 0).length == 16) = true := by decide +kernel

/-- `CopyCommands`, the engine: the first of two elements, and the last. -/
theorem test_meets_copy_step :
    let c (n : Nat) : CopyCmd := ⟨thr.owner, thr.view .copy, layout 0x10000, layout 0x20000, 0, n, ⟨none, none⟩, 0, none, none⟩
    let x := layoutOf (layout 0x10000)
    let y := layoutOf (layout 0x20000)
    (x.isLocal && y.isLocal && x.format == y.format && x.scales == 0 && y.scales == 0 && x.count == 2
      && base.badLoc.isEmpty && [0, 1].all (fun n => (c n).fail.isNone && x.inside (x.position n) && y.inside (y.position n)
        && (base.levelFault thr.owner x.base (x.address (x.position n)) x.size).isNone
        && (base.levelFault thr.owner y.base (y.address (y.position n)) y.size).isNone)) = true := by decide +kernel

/-- An epilogue's configuration: f32 into local memory at 0x10000, with rows of 256 bytes. -/
def epCfg : EpCfg := ⟨0x10000, 256, 0x4000, 0x0A, 1, 0, 0, 0, 0, 0, 0, 0, 0, 0, 0, 0⟩

/-- The thread as the owner of its core's unit. -/
def owning (u : MatrixUnit) : State := base.putUnit 0 { u with owner := some 0 }

/-- `MatrixUnitInstructions`: no owner, this one and another; idle and not; a good and a bad stride; a good record; the most that may be asked. -/
theorem test_meets_unit :
    let s := owning MatrixUnit.empty
    let busy := owning { MatrixUnit.empty with mc := 1 }
    let rec' : List Byte := bytesOf 8 0x10000 ++ bytesOf 4 256 ++ bytesOf 4 0x4000 ++ bytesOf 1 0x0A ++ bytesOf 1 1 ++ bytesOf 46 0
    ((base.unitOf 0).owner.isNone && (s.unitOf 0).owner == some 0 && ((base.putUnit 0 { MatrixUnit.empty with owner := some 1 }).unitOf 0).owner == some 1
      && (s.unitOf 0).mc == 0 && (s.unitOf 0).owed == 0 && (busy.unitOf 0).mc != 0 && (s.unitOf 0).fill < 7 && (s.unitOf 0).reqs.isEmpty
      && fld 0xC000008000000080 52 9 == 0 && fld 0xC000008000000080 20 20 % 8 == 0 && fld 0xC000008000000080 0 20 % 8 == 0
      && (s.localCheck 0x3000 64 64).isNone && parseEp rec' == some epCfg && epCfg.flags.getLsbD 0 && s.th.latched.isNone && !s.th.acquiring
      && ({ (s.unitOf 0) with reqs := [⟨0, thr.view .epi⟩], fill := 1 } : MatrixUnit).reqs.length == 1
      && ((owning { MatrixUnit.empty with cfg := some epCfg }).unitOf 0).cfg.isSome && (0 + 255 ≤ 255)) = true := by decide +kernel

/-- `MatrixUnitInstructions`, a command that ends: none in the unit, one that its thread still waits in, and one that it does not. -/
theorem test_meets_complete :
    let s (n : Nat) (r : Option MmaRun) : State := { owning { MatrixUnit.empty with mc := n } with th := { thr with mma := r } }
    let waits (s : State) : Bool := ((s.unitOf 0).owner.bind s.threadAt).any (fun t => t.mma.isSome)
    (!waits (s 0 none) && waits (s 1 (some mmaRun)) && !waits (s 1 none) && (s 1 (some mmaRun)).ev.unit == 0) = true := by decide

/-- `MatrixMultiply`: operands in the scratchpad, each of 64 rows of 128 bytes, or 128 rows of 64, and scales. -/
theorem test_meets_mma :
    let s : State := { owning MatrixUnit.empty with th := { thr with mstride := 0xE000800008000080, mrow := 63 } }
    ((s.unitOf 0).owner == some s.th.slot && (s.unitOf 0).mc < 2 && s.th.mrow.toNat < 64 && s.ev.num == 0 && s.badLoc.isEmpty && (mstrideOf s.th.mstride).isSome && s.th.mstride.getLsbD 63
      && s.th.mstride.getLsbD 62 && s.th.mstride.getLsbD 61 && (s.rowsFault ⟨0x10000, true, 64, 128, 128⟩).isNone
      && (s.rowsFault ⟨0x12000, true, 128, 128, 64⟩).isNone && (s.rowsFault ⟨0x18000, true, 64, 8, 4⟩).isNone) = true := by decide +kernel

/-- `TileDrains`: a closed tile at the tail, with a drain asked for. -/
theorem test_meets_drain :
    let q : DrainReq := ⟨0, thr.view .epi⟩
    let u : MatrixUnit := { MatrixUnit.empty with owner := some 0, cfg := some epCfg, reqs := [q], fill := 1 }
    let s := base.putUnit 0 u
    (s.unitOf 0 == u && s.ev.idx == 0 && q.view.slot == s.th.slot && q.view.ident == s.th.ident && !u.held && u.fail.isNone && u.row == 0 && u.tail < 8 && epCfg.flags == 1 && epCfg.ofmt == 0x0A && epCfg.smode == 0
      && epCfg.sync == 0 && (256 ≤ epCfg.rstride) && (epCfg.out + 64 * epCfg.rstride ≤ 0x1200000)
      && (List.range 64).all (fun row => (s.levelFault s.th.owner epCfg.out (epCfg.out + row * epCfg.rstride) 256).isNone)) = true := by decide +kernel

/-- `LeasesAndBudgets`: a good record and two that are not; a lease that has run out; a budget at its limit and past it. -/
theorem test_meets_leases :
    (fld 0x100000003 2 30 == 0 && fld 0x100000003 32 32 != 0 && fld 0x100000007 2 30 != 0 && fld 0x3 32 32 == 0
      && (withTh fun t => { t with lease := some ⟨1, 0⟩ }).th.lease == some ⟨1, 0⟩
      && ((Tab.put base.nextBudgets (128 * 7 + 6) 7520).map (·.2)).sum ≤ 7520 && (7520 : Nat) < 7521
      && ({ base with cfg := { base.cfg with retention := true } } : State).cfg.retention && !base.retained.contains 0) = true := by decide

/-! ### What the obligations assume: the memory stacks -/

/-- The unit beside the data page's frame. -/
def unitOfData : Nat := nmuOf 0x200000

/-- A unit that the thread has claimed, with the first row of its frame latched. -/
def claimed : Nmu := { base.nmu unitOfData with claim := some thr.ident, latches := [⟨bankOf 0x200000, 0x200000, []⟩] }

/-- A table command on its way, from the data page. -/
def tableCmd (op : TableOp) (iva arg : Nat) : TableCmd := ⟨op, thr.owner, thr.view .table, 0x3000, 0x4000200000, iva, 0x3100, 0x3200, 0, arg, false, 0, none⟩

/-- Whether a command on its way, of a thread that is bound, meets untracked device memory, and its unit is free for it. -/
def meetsUnit (s : State) (c : TableCmd) : Bool :=
  match ({ s with tableQ := [c] } : State).translateVas (c.owner.req .load c.gen) c.vas with
  | (.ok (p :: ps), u) =>
    (p :: ps).all (fun q => !q.tracked && isDevice q.pa) && !u.tableBehind 0 c (nmuOf p.pa) && !(u.nmu (nmuOf p.pa)).paused && !c.owner.lost
      && u.badLoc.isEmpty && bare u && nmuOf p.pa == unitOfData
  | (.ok [], _) => false
  | (.error _, _) => false

/-- `TableCommands`, the instructions: good records of each kind, a bad one, and an address out of place. -/
theorem test_meets_tq :
    let rec' (tva iva lsrc ldst arg : Nat) : List Byte :=
      bytesOf 8 tva ++ bytesOf 8 iva ++ bytesOf 4 lsrc ++ bytesOf 4 ldst ++ bytesOf 4 0 ++ bytesOf 1 arg ++ bytesOf 3 0
    let ok (op : TableOp) (bs : List Byte) : Bool :=
      let c := tableCmdOf op thr 0x3000 bs
      base.tableFields op c (natOf ((bs.drop 29).take 2)) && c.vas.all (fun v => v < 2 ^ 56)
    (ok .latch (rec' 0xFFFFFFFFFFFC00 0 0 0 0) && ok .mac (rec' 0x4000200000 0x4000200400 0 0 31) && ok .look (rec' 0x4000200000 0 0x3100 0x3200 2)
      && ok .read (rec' 0x4000200000 (1 * 65536 + 2047) 0 0x3200 3) && !ok .read (rec' 0x4000200000 (1 * 65536 + 2048) 0 0x3200 3)
      && (base.localCheck 0x3000 32 32).isNone && !base.th.acquiring && base.counter base.th .tc == 0 && 0x3010 % 32 != 0) = true := by decide +kernel

/-- `TableCommands`, at the unit: each kind of command, at a unit that is free for it. -/
theorem test_meets_tq_unit : meetsUnit mapped (tableCmd .latch 0 0) = true ∧ meetsUnit mapped (tableCmd .mac 0x4000200000 31) = true
    ∧ meetsUnit mapped (tableCmd .look 0 0) = true ∧ meetsUnit mapped (tableCmd .read 0x107FF 3) = true := by
  refine ⟨?_, ?_, ?_, ?_⟩ <;> decide +kernel

/-- `TableCommands`, at the unit: its claims and its latches. -/
theorem test_meets_claims : (base.nmu unitOfData).claim = none ∧ (base.nmu unitOfData).latches = [] ∧ claimed.claim = some thr.ident
    ∧ (claimed.latched 0x200000).isSome = true ∧ sameSubarray 0x200000 0x200000 = true ∧ sameSubarray 0x400000 0x200000 = true
    ∧ ({ claimed with latches := (List.range 4).map (fun k => ⟨k, k * 1024, []⟩) } : Nmu).latchesFull 0x101000 = true
    ∧ sameSubarray 0x40000000 0x200000 = false ∧ thr.ident ≠ ⟨6, 1, 0, 0, none⟩ := by decide +kernel

/-- `NmuInstructions`: good records of each kind and bad ones, a stop of the thread's own, and the modes. -/
theorem test_meets_nmu :
    let msg (n : Nat) : List Byte := bytesOf 8 0x4000200000 ++ bytesOf 2 n ++ bytesOf 1 15 ++ bytesOf 1 31 ++ bytesOf 1 1 ++ bytesOf 51 0
    let load : List Byte := bytesOf 8 0x4000200000 ++ bytesOf 1 8 ++ bytesOf 1 1 ++ bytesOf 2 1 ++ bytesOf 4 0 ++ bytesOf 4 0x3100 ++ bytesOf 12 0
    let s := mapped.putNmu unitOfData { base.nmu unitOfData with run := some ⟨message, Vector.replicate 16 0, [], 0, some ⟨1, 0, 0, false⟩, false⟩ }
    (base.nmFields (msg 256) && !base.nmFields (msg 257) && (nmMsgOf thr 0x3000 (msg 1)).region < 2 ^ 56 && (base.localCheck 0x3000 64 64).isNone
      && base.counter base.th .nc == 0 && base.counter base.th .lc == 0 && base.loadFields load && microcodeOk [0xF0000000] && !thr.sys
      && ({ thr with sys := true } : Thread).sys && s.ownStop unitOfData && (base.localCheck 0x3000 32 32).isNone && base.th.latched.isNone && !base.th.acquiring
      && (match mapped.translate (thr.owner.req .load none) 0x4000200000 with
        | (.ok p, u) => isDevice p.pa && nmuOf p.pa == unitOfData && u.counter u.th .nc == 0
        | (.bad _, _) => false | (.wait, _) => false)) = true := by decide +kernel

/-- `NmuInstructions`: a register number, an action and a flag past their ends. -/
theorem test_meets_nmu_bad : (3 : Nat) ≤ 3 ∧ (16 : Nat) ≤ 16 ∧ (2 : Nat) ≤ 2 ∧ (0x4000200000 : Nat) < 2 ^ 56 := by decide

/-- `MessagesAndStops`, arrivals: a region in untracked device memory, with a handler built in and one not loaded. -/
theorem test_meets_arrivals :
    let m : NmMsg := { message with frames := [] }
    let s : State := { mapped with nmQ := [m] }
    (match s.translateVas (m.owner.req .atomic m.gen) ((List.range m.n).map (fun k => m.region + 65536 * k)) with
      | (.ok ps, u) => ps.all (fun p => !p.tracked && isDevice p.pa) && (ps.map (·.pa)).all (fun f => stackOf f == stackOf ((ps.map (·.pa)).headD 0))
          && (Tab.find (u.nmu (stackOf ((ps.map (·.pa)).headD 0) * 32 + m.channel)).loaded m.handler).isNone
          && (u.nmu (stackOf ((ps.map (·.pa)).headD 0) * 32 + m.channel)).queue.length < 64
          && !u.messageBehind 0 m (stackOf ((ps.map (·.pa)).headD 0) * 32 + m.channel)
          && !(u.nmu (stackOf ((ps.map (·.pa)).headD 0) * 32 + m.channel)).holdsOf m.owner.ident
      | (.error _, _) => false) = true ∧ m.owner.lost = false ∧ 8 ≤ m.handler ∧ ({ m with handler := 7 } : NmMsg).handler < 8 := by decide +kernel

/-- Page tables of function 5 with a second page, at 0x4000210000, tracked or in another stack. -/
def secondPage (leaf : Nat) : State := { base with mem := Memory.writeN tables 0x306108 (bytesOf 8 leaf) }

/-- `MessagesAndStops`, arrivals: a region with a tracked frame, and one of two stacks. -/
theorem test_meets_arrivals_two :
    let frames (leaf : Nat) : List (Nat × Bool) :=
      match (secondPage leaf).translateVas (thr.owner.req .atomic none) [0x4000200000, 0x4000210000] with
      | (.ok ps, _) => ps.map (fun p => (stackOf p.pa, p.tracked))
      | (.error _, _) => []
    frames 0x2201DB = [(0, false), (0, true)] ∧ frames 0x10002201DB = [(0, false), (1, true)] ∧ frames 0x100022019B = [(0, false), (1, false)] := by
  decide +kernel

/-- `MessagesAndStops`, the units: a message to start, a stopped handler, one that is not, a resume, a load, and a burst. -/
theorem test_meets_stops :
    let h (k : Option Stop) : Handler := ⟨message, Vector.replicate 16 0, [], 0, k, false⟩
    let stop : Stop := ⟨1, 0, 0, false⟩
    let s : State := base.putNmu 0 { base.nmu 0 with queue := [{ message with leased := true }] }
    (s.nmu 0).queue = [{ message with leased := true }] ∧ (s.nmu 0).run = none ∧ (s.nmu 0).paused = false ∧ s.burstAt 0 (fun _ => true) = true
    ∧ (h (some stop)).stop = some stop ∧ (h none).stop = none
    ∧ (∀ k ∈ [0, 1, 2], ({ base with resumes := [⟨thr.owner, 0, k, 15, true, 1⟩] } : State).resumes.find? (fun r => r.nmu == 0)
        = some ⟨thr.owner, 0, k, 15, true, 1⟩)
    ∧ (let l : NmLoad := ⟨thr.owner, [0], 8, [], 0, 1⟩
      let w : State := { base with loads := [l] }
      w.loads.find? (fun l => l.nmus.contains 0) = some l ∧ w.loadBehind l 0 = false
      ∧ (w.putNmu 0 { w.nmu 0 with queue := [message] }).loadBehind l 0 = true ∧ (w.nmu 0).run = none)
    ∧ (base.awaySender thr.owner = false ∧ ({ base with th := Thread.idle } : State).awaySender thr.owner = true)
    ∧ ((s.putNmu 0 { s.nmu 0 with paused := true }).nmu 0).paused = true := by decide +kernel

/-- `BuiltInHandlers`: the claims, the handles and the tags; the last row of a frame, a list of one row, and the most accumulators. -/
theorem test_meets_handlers :
    message.frames.all (fun f => f % 1024 == 0) = true ∧ message.frames.length = message.n ∧ message.write = true ∧ message.owner.lost = false
    ∧ (1 < 2 * message.n ∧ ¬2 < 2 * message.n) ∧ base.rowTag 0x200000 = 0 ∧ base.rowTag 0x200000 = base.rowTag 0x208000
    ∧ ({ base with tags := [(2048, 3)] } : State).rowTag 0x200000 = 3 ∧ ({ base with tags := [(2048, 3)] } : State).rowTag 0x210000 = 0
    ∧ bare base = true
    ∧ entryOf (Memory.readN base.mem 0x200000 1024) 2 0 < 2 * message.n ∧ (claimed.latched 0x200000).isSome = true
    ∧ sameSubarray 0x400000 0x200000 = true ∧ (1792 + 256 ≤ 2048) ∧ (0 + 2048 ≤ 2048) := by decide +kernel

/-- `Microinstructions`: a handler that runs, on a unit of its thread's, of nobody's and of another's; a handle of the region's last row. -/
theorem test_meets_micro :
    let h : Handler := ⟨message, (Vector.replicate 16 0).set 2 1, [], 0, none, false⟩
    let s (c : Option Ident) : State := base.putNmu 0 { base.nmu 0 with claim := c, run := some h }
    ((s none).nmu (s none).nmuAt).run = some h ∧ h.stop = none ∧ h.msg.owner.lost = false ∧ ((s (some thr.ident)).nmu 0).claim = some h.msg.owner.ident
    ∧ ((s (some ⟨6, 1, 0, 0, none⟩)).nmu 0).claim ≠ some h.msg.owner.ident ∧ h.m[2].toNat < 2 * h.msg.n ∧ h.m[3].toNat < 2 * h.msg.n
    ∧ h.m[2] ≠ 0 ∧ h.m[3] = 0 ∧ (s none).rowTag 0x208000 = 0 := by decide +kernel

/-! ### What the obligations assume: the index and tournaments -/

/-- An index of function 5 with keys of one D8 component, with one entry (R273). -/
def index : Index := ⟨1, 1, 0, 2, 0, 5, 0x4000200000, 131072, [0x200000, 0x220000], 1, 1, [⟨0, [0x60], 7, 1, none, some 3⟩]⟩

/-- An index command of the thread on that index, with a record. -/
def ixCmd (op : IxOp) (bs : List Byte) (accepted : Option Nat) : IxCmd := ⟨op, thr.owner, thr.view .index, 0x3000, bs, 4096, 6, false, none, accepted, 0, 1, 0⟩

/-- The machine with that index and a command. -/
def indexed (c : IxCmd) : State := { base with indexes := [(0, ⟨1, some index⟩)], ixQ := [c], loc := Memory.writeN [] 0x3100 [0x60] }

/-- The record of a query for the one nearest entry, and of a store of n keys (R282, R283). -/
def nearRecord (snap : Nat) : List Byte :=
  bytesOf 4 4096 ++ bytesOf 1 1 ++ bytesOf 1 snap ++ bytesOf 2 1 ++ bytesOf 1 1 ++ bytesOf 1 0 ++ bytesOf 2 1 ++ bytesOf 4 0x3100 ++ bytesOf 4 0x3200
    ++ bytesOf 20 0 ++ bytesOf 8 2 ++ bytesOf 16 0
def storeRecord (n : Nat) : List Byte :=
  bytesOf 4 4096 ++ bytesOf 2 n ++ bytesOf 2 0 ++ bytesOf 1 1 ++ bytesOf 1 0 ++ bytesOf 2 1 ++ bytesOf 4 0x3100 ++ bytesOf 4 0x3200 ++ bytesOf 44 0
def deleteRecord (n : Nat) : List Byte := bytesOf 4 4096 ++ bytesOf 2 n ++ bytesOf 6 0 ++ bytesOf 4 0x3100 ++ bytesOf 48 0

/-- `IndexInstructions`: good records and bad ones, a handle at its end, each mode, and an answer. -/
theorem test_meets_index :
    (base.indexFields .near (nearRecord 1) && !base.indexFields .near (nearRecord 2) && base.indexFields .store (storeRecord 64)
      && !base.indexFields .store (storeRecord 65) && base.indexFields .del (deleteRecord 1) && !base.indexFields .del (deleteRecord 0)
      && (base.localCheck 0x3000 64 64).isNone && base.counter base.th .ic == 0 && 0x3020 % 64 != 0 && 0xFFFFFFFF < 2 ^ 32 && !base.th.sys
      && createFields (bytesOf 1 1 ++ bytesOf 63 0) && !createFields (bytesOf 64 0) && base.th.ixAns.isNone && base.th.ixReq.isNone && !base.th.acquiring && base.th.latched.isNone
      && ({ base with ixQ := List.replicate 16 (ixCmd .snap [] none) } : State).counter base.th .ic == 16
      && (match storing.releaseWait with | .stall => true | .go => false | .taken _ => false)) = true := by
  decide +kernel

/-- `IndexQueries`: a query that is first, one that has been accepted, at an engine that is free or paused, and a snapshot after the version. -/
theorem test_meets_queries :
    let c := ixCmd .near (nearRecord 1) none
    let s := indexed c
    let query := s.seeLoc c.view 0x3100 1
    let served (t : State) : List IxCmd := t.ixQ.filter (fun q => q.op == .near && q.accepted.isSome && (t.indexAt q.handle).map (·.home) == some index.home)
    (s.ixQ[0]? == some c && s.bad.isEmpty && Tab.find s.indexes (c.handle % 4096) == some ⟨c.handle / 4096, some index⟩ && natOf ((c.bytes.drop 10).take 2) == index.dims
      && natOf ((c.bytes.drop 8).take 1) == index.ktype && query == [0x60] && !badComponent 1 query && index.fn == thr.ident.vf
      && natOf ((c.bytes.drop 5).take 1) % 2 == 1 && index.version < natOf ((c.bytes.drop 40).take 8)
      && natOf (((nearRecord 0).drop 5).take 1) % 2 == 0 && (ixCmd .near (nearRecord 0) (some 1)).accepted == some 1
      && (index.entries.filter (fun e => e.visible 1)).length ≤ natOf ((c.bytes.drop 6).take 2)
      && (served s).length == 0 && ((served (indexed (ixCmd .near (nearRecord 0) (some 1)))).filter (fun q => q.order < 0)).length == 0
      && ({ c with leased := true } : IxCmd).leased && ({ s with ixPaused := [index.home] } : State).ixPaused.contains index.home) = true := by decide +kernel

/-- A query that an engine serves, for an engine with any number of them. -/
def servedQuery : IxCmd := ixCmd .near (nearRecord 0) (some 1)
def serves (s : State) (q : IxCmd) : Bool := q.op == .near && q.accepted.isSome && (s.indexAt q.handle).map (·.home) == some index.home

/-- `IndexQueries`: an engine may hold any number of queries, those that it serves and those that wait among them. -/
theorem test_meets_queries_full (n : Nat) :
    let s : State := { indexed servedQuery with ixQ := List.replicate n servedQuery }
    (s.ixQ.filter (serves s)).length = n := by
  have h : serves (indexed servedQuery) servedQuery = true := by decide +kernel
  intro s
  have e : serves s servedQuery = true := h
  rw [List.filter_eq_self.2 (fun q hq => by rw [List.eq_of_mem_replicate hq]; exact e)]
  exact List.length_replicate

/-- `ResultsAreSorted`: distances as f32 values, a NaN among them. -/
theorem test_meets_sorted :
    let rs : List (Exact × IxEntry) := [(f32.unpack 0x7FC00000, ⟨0, [], 0, 1, none, none⟩), (f32.unpack 0x80000000, ⟨1, [], 0, 1, none, none⟩)]
    (rs.map (·.1.isNan) = [true, false]) ∧ (0x7FC00000 < 2 ^ 32) ∧ (0x80000000 < 2 ^ 32) ∧ ((sortResults rs).map (·.2.id) = [1, 0]) := by decide +kernel

/-- `IndexCommits`: a store with room and one without, a deletion, the status of the index, of none and of another function's. -/
theorem test_meets_commits :
    let c (n : Nat) : IxCmd := ixCmd .store (storeRecord n) none
    let first (c : IxCmd) : Bool := (indexed c).ixQ[(indexed c).ev.idx]? == some c && (indexed c).ev.idx == 0 && c.accepted.isNone
    (first (c 1) && first (c 2) && Tab.find (indexed (c 1)).indexes 0 == some ⟨1, some index⟩ && index.next + 1 ≤ index.capacity
      && index.capacity < index.next + 2 && !badComponent 1 ((indexed (c 2)).seeLoc (c 2).view 0x3100 1)
      && !badComponent 1 ((indexed (c 2)).seeLoc (c 2).view 0x3120 1) && (indexed (c 1)).bad.isEmpty && first (ixCmd .del (deleteRecord 1) none) && first (ixCmd .snap [] none)
      && first (ixCmd .stat [] none) && thr.bound && !thr.owner.lost && (base.indexAt 4096).isNone && index.fn != 6) = true := by decide +kernel

/-- `IndexCommits`: a region of two pages for an index of one entry, a function past the last, and an index to destroy. -/
theorem test_meets_create :
    let s := secondPage 0x22019B
    (match s.regionFrames thr.owner 0 0x4000200000 131072 (65536 + 1 * (32 * ((1 * keySize 1 + 31) / 32) + 128)) with
      | (some frames, u) => frames == [0x200000, 0x220000] && u.indexes.isEmpty
      | (none, _) => false) = true ∧ (128 : Nat) < 129 ∧ ((indexed (ixCmd .snap [] none)).indexAt 4096).isSome = true ∧ base.indexAt 4096 = none := by
  decide +kernel

/-- A tournament of two rivals, whose one thread is the thread at hand. -/
def rivals (mode used : Nat) : Launch :=
  ⟨1, 5, { pkt with kind := 1, rivals := 2, scoreMode := mode, allow0 := 10, grow := 1 }, false, some 1, [0], 0, 0,
    [⟨true, 1, used, 1, [], 0⟩, ⟨true, 2, used, 1, [], 0⟩], 0, (0, 0)⟩
def rival (mode used : Nat) (p : Phase) : State :=
  { base with launches := [rivals mode used], gangs := [{ gang with rival := some 0 }], th := { thr with ident := ⟨5, 1, 0, 0, some 0⟩, phase := p }, ev := { base.ev with unit := 1 } }

/-- `TournamentInstructions`: a rival's thread with scores of each kind, a thread of none, and an allowance that is just spent. -/
theorem test_meets_tournament :
    ((rival 0 0 .running).ownRival.map (·.2.score) == some 1 && (rival 0 0 .running).th.ident.rival == some 0 && (rivals 0 0).pkt.scoreMode % 2 == 0
      && (rivals 1 0).pkt.scoreMode % 2 == 1 && thr.ident.rival.isNone && (rival 0 10 .running).launchById 1 == some (rivals 0 10)
      && (rivals 0 10).allowance == some 10 && ((rivals 0 10).rivals[0]?).map (fun r => (r.alive, r.used)) == some (true, 10)) = true := by decide +kernel

/-- `RoundEnds`: a round that goes on, and one that is over with the thread of a rival that is killed, or of the one that lives on, saved or
suspended in a packet; a command of the worse half that runs, and none. -/
theorem test_meets_rounds :
    let dies := rival 0 10 .saved
    let lives : State := { dies with gangs := [{ gang with rival := some 1 }], th := { dies.th with ident := ⟨5, 1, 0, 0, some 1⟩ } }
    let packs : State := { lives with th := { lives.th with phase := .requested, allow := true, packet := packing.th.packet } }
    let command : TableCmd := ⟨.latch, dies.th.owner, dies.th.view .table, 0x3000, 0x4000200000, 0, 0, 0, 0, 0, false, 0, none⟩
    let l := rivals 0 10
    (dies.launchById 1 == some l && !(rival 0 0 .running).roundOver (rivals 0 0) && dies.roundOver l && lives.roundOver l && !l.nextRound.complete
      && ({ dies with tableQ := [command] } : State).roundOver l && l.hasIdent 0 command.owner.ident
      && dies.owners.isEmpty && dies.units.isEmpty && dies.bad.isEmpty && lives.ownGang.isSome && lives.th.packet.isNone && lives.th.ixReq.isNone
      && packs.roundOver l && packs.th.inPlace && packs.th.frame == 0 && packs.ownGang.isSome
      && l.hasThread 0 dies.th && l.hasThread 1 lives.th && lives.th.frame == 0 && lives.th.ring.isNone && lives.store.isEmpty && dies.others.isEmpty
      && ranksAbove 0 (2, 1) (1, 0) && !ranksAbove 0 (1, 0) (2, 1)) = true := by decide +kernel

/-! ### What the obligations assume: page tables, the host, the device -/

/-- `PagingInstructions`: both modes; good and bad operands of each instruction; a newer generation and one that is not. -/
theorem test_meets_paging :
    let good (v : Nat) : Bool := fld v 3 13 == 0 && fld v 56 8 ≤ 128 && fld v 0 2 < 3 && (fld v 0 2 == 0 || (fld v 2 1 == 0 && fld v 16 40 == 0))
    let notice (w : BitVec 32) : State := { base with genSent := [(0, w)] }
    let busy (m : NmMsg) : State := base.putNmu 0 { base.nmu 0 with queue := [m] }
    ((busy message).nmus.all (fun e => e.2.queue.all (fun m => m.frames != [] && m.owner.ident.vf == 5 && m.region == 0x4000200000 && m.n == 1))
      && base.nmus.isEmpty && mapped.regs.isEmpty && !(mapped.pathOf 5 0x4000200000).isEmpty
      && (Tab.find (({ mapped with tlb := [(tlbKey 3 5 0 0x4000200000, ⟨0x20019B, 0x306100, 0x306100⟩)] } : State).tlb) (tlbKey 3 5 0 0x4000200000)).isSome
      && !base.th.sys && ({ thr with sys := true } : Thread).sys && 0xFFFFFFFFFFFFF8 % 8 == 0 && 0xFFFFFFFFFFFFF8 < 2 ^ 56 && 0x4000200001 % 8 != 0
      && good 0x8000FFFFFFFF0004 && good 0x8000000000000001 && good 2 && !good 3 && !good 0x8100000000000001 && !good 8
      && (0xFFFFFFFF : Nat) < 2 ^ 32 && Tab.find (notice 0x7FFFFFFF).genSent 0 == some 0x7FFFFFFF && Tab.get base.gs 0 0 == 0
      && (0x7FFFFFFF - 0 : BitVec 32).toNat < 2 ^ 31 && !((0x80000000 - 0 : BitVec 32).toNat < 2 ^ 31)) = true := by decide +kernel

/-- `FramesExchangedAndWritten`: two leaves of device memory, one of a host frame and a frame with a tag, addresses that are no leaf's, a page
that is due for the scanner, one that is not and one that is not mapped. -/
theorem test_meets_frames :
    let s := secondPage 0x22019B
    let leaf (k : Nat) : Bool := k % 8 == 0 && isDevice k && pteP (s.entryAt k) && pteLeaf (s.entryAt k) && pteSize (s.entryAt k) == 0
    let inside (k : Nat) : Bool := (0x200000 ≤ k && k < 0x210000) || (0x220000 ≤ k && k < 0x230000)
    let host : State := { s with mem := Memory.writeN s.mem 0x306100 (bytesOf 8 (2 ^ 55 + 0x19B)), tags := [(0x220000 / 1024 + 3, 1)] }
    let file : State := { base with mem := Memory.writeN tables 0x306100 (bytesOf 8 (0x20019B + 2 ^ 56)) }
    (leaf 0x306100 && leaf 0x306108 && ptePa (s.entryAt 0x306100) == 0x200000 && ptePa (s.entryAt 0x306108) == 0x220000 && !inside 0x306100 && !inside 0x306108
      && Memory.wf s.mem && 0x306101 % 8 != 0 && !isDevice (2 ^ 40) && !pteP (s.entryAt 0x306110) && (file.scanLeaf 0 5 0x4000200000).1 == some 0x306100
      && (mapped.scanLeaf 0 5 0x4000200000).1 == some 0x306100 && !pteFile (mapped.entryAt 0x306100) && (base.scanLeaf 0 5 0x4000200000).1 == none
      && s.holderOf 0x306100 == some 5 && s.regs.isEmpty && s.tags.isEmpty && s.indexes.isEmpty
      && ptePa (host.entryAt 0x306100) == 2 ^ 55 && isHost (2 ^ 55) && 0x220000 / 1024 + 3 < 0x220000 / 1024 + 64
      && (let w := file.entryAt 0x306100; pteP w && pteLeaf w && pteFile w && pteD w && !pteWb w) && file.scans.isEmpty && Memory.wf file.mem) = true := by
  decide +kernel

/-- `HostAndFabric`, the window and the registers: a packet that is accepted, one that is not, a write that is not whole, a function in
reset, and a report asked for and being built. -/
theorem test_meets_host :
    let st (s : State) (flag : Bool) (bs : List Byte) : Int :=
      if flag = false then -5 else if 5 ∈ s.inReset ∨ 5 ∈ s.quarantined then -6 else s.packetStatus bs 5 false false
    (st base true (packetBytes true) == 0 && st base true (bytesOf 64 0) == -3 && st base false (packetBytes true) == -5
      && st { base with inReset := [5] } true (packetBytes true) == -6 && !(base.bar 5).busy
      && ((base.putBar 5 { base.bar 5 with busy := true }).bar 5).busy && base.launches.length + 1 < 2 ^ 31) = true := by decide +kernel

/-- `HostAndFabric`, memory: bare memory up to its last byte, a word that a core has registered, and a comparison that holds and one that does
not. -/
theorem test_meets_fabric : bare base = true ∧ (∀ e ∈ [((0 : Nat), (⟨some 0, 0, 0, 0x4000200000, 7⟩ : Registered))], e.2.key = 0) ∧ base.erased = false
    ∧ (2 ^ 40 - 64 + min 64 64 ≤ 2 ^ 40) ∧ natOf (Memory.readN base.mem (2 ^ 40 - 64) 8) = (0#64).toNat % 2 ^ (8 * 8)
    ∧ natOf (Memory.readN base.mem (2 ^ 40 - 64) 4) ≠ (1#64).toNat % 2 ^ (8 * 4) := by decide +kernel

/-- The machine with a data page in a window onto the memory of device 3 (R352), and a word of it. -/
def peerPage : State :=
  { base with mem := Memory.writeN tables 0x306100 (bytesOf 8 (2 ^ 55 + 0x19B)), cfg := { base.cfg with peers := [⟨0, 0x10000, 3, 0⟩] } }
def peerWord : Nat := peerBase + 3 * 2 ^ 40 + 8

/-- `HostAndFabric`, the fabric: a store in flight to a peer's memory, a registered word of it, which a release at system scope waits for
or none does, and a write that has left the device. -/
theorem test_meets_peer :
    let s : State := { peerPage with th := { thr with acc := [access (.st .d)] } }
    let p : Past := ⟨1, 5, 0xFF, 0, thr.ident, 0, some .core, some 1, none, none, [], none, false, []⟩
    let w : State := { peerPage with
      regs := [(peerWord / 8, ⟨some 0, 0, 0, 0x4000200008, 7⟩)], memPast := [(pastKey true peerWord, [p])] }
    let v : State := { peerPage with memPast := [(pastKey false peerWord, [p])] }
    (s.th.acc.findSome? (fun a => (s.peerStore a).map (fun pa => (a, pa))) == some (access (.st .d), peerWord) && s.th.relWait.isNone
      && w.outsideWords.filter (fun k => isPeer (8 * k)) == [peerWord / 8] && w.th.acc.isEmpty && w.systemAddress peerWord == 8
      && v.unacked false peerWord == some p && (v.unacked true peerWord).isNone && p.who == v.th.ident && v.keys.isEmpty && Memory.wf v.mem
      && w.unacked true peerWord == some p && p.ownOf (w.th.view .core) && (Tab.find w.regs (peerWord / 8)).isSome && w.th.relWait.isNone
      && ({ thr with relWait := some .sys } : Thread).relWait == some .sys) = true := by
  decide +kernel

/-- `DeviceEvents`: a function in reset and not, a good record, a count at the limit and past it, each action, a core in service and out of it. -/
theorem test_meets_events :
    let s (a : Nat) : State := { base with cfg := { base.cfg with alarms := [a], coresOut := [7] }, inReset := [5] }
    (5 ∉ base.inReset ∧ 5 ∈ (s 0).inReset ∧ recordOk base.cfg = true ∧ base.budget 5 0 + 64 < 65 ∧ ¬base.budget 5 0 + 64 < 64)
    ∧ ((s 0).cfg.alarms.getD 0 0 = 0 ∧ 1 ≤ (s 3).cfg.alarms.getD 0 0 ∧ 2 ≤ (s 3).cfg.alarms.getD 0 0 ∧ 3 ≤ (s 3).cfg.alarms.getD 0 0)
    ∧ ((∀ v ∈ (s 0).threads, coreOf v.slot ≠ 1279) ∧ 1279 ∉ (s 0).cfg.coresOut ∧ 7 ∈ (s 0).cfg.coresOut)
    ∧ (base.others = [] ∧ coreOf base.th.slot = 0 ∧ base.th.ident.vf = 5) := by decide +kernel

/-- `UpcallsAndNotices`: a record that is held, the oldest notice, a handler that is active, and a notice that waits for the 16th place. -/
theorem test_meets_upcalls :
    let s (hs : List Held) (ns ws : List Word) : State := withTh fun t => { t with uvec := 0x4000002000, held := hs, notices := ns, heldNotices := ws }
    (let t := (s [record] [] []).th
     t.phase = .running ∧ t.ixReq = none ∧ t.redo = [] ∧ t.uact = false ∧ t.packet = none ∧ t.mownWait = false ∧ t.mma = none ∧ t.latched ≠ some [] ∧ (∃ g ∈ t.held, g.parked = false))
    ∧ (s [record] [] []).reported 0x06 = false ∧ ((s [{ record with parked := true }] [7] []).th.notices = [7]
      ∧ (∀ g ∈ (s [{ record with parked := true }] [7] []).th.held, g.parked = true)) ∧ (s [] [7] []).reported 0x16 = false
    ∧ (s [] (List.replicate 15 7) [9]).th.notices.length < 16 ∧ 16 ≤ (s [] (List.replicate 16 7) [9]).th.notices.length := by decide +kernel

/-! ### What the obligations assume: steps -/

/-- The thread's core is next, at a word. -/
def turning (w : Nat) : State := { holding w with agenda := [.core 0] }

/-- What `StepRunsDecoded` assumes of a core's turn; the answer is what the fetch gives. -/
def atBoundary (s : State) : Option (Except (Nat × Nat) Nat × State) :=
  let g : State := { s with agenda := [] }
  let p := g.pass (g.coreWait 0)
  let f := p.focus 0
  if !s.halted && p.pickSlot 0 == some 0 && !f.th.mayStop && f.th.redo.isEmpty && !f.spent f.th && f.th.acc.isEmpty && !f.boundaryDue then some f.fetch
  else none

/-- `StepRunsDecoded`: a word that is an instruction, one that is none, and a fetch that faults. -/
theorem test_meets_turns :
    ((match atBoundary (turning 0x000E6281) with
      | some (.ok w, v) => decode w == .ok (.add 5 6 7) && (match v.interlock (.add 5 6 7) with | .go => true | .stall => false | .taken _ => false)
          && !v.packetFull (.add 5 6 7)
      | some (.error _, _) => false
      | none => false)
    && (match atBoundary (turning 0x00000063) with
      | some (.ok w, _) => decode w == .error .illegal
      | some (.error _, _) => false
      | none => false)
    && (match atBoundary { base with agenda := [.core 0] } with
      | some (.error e, _) => e == (0x06, 0x4000001000)
      | some (.ok _, _) => false
      | none => false)) = true := by decide +kernel

/-- `StepRunsDecoded`: a packet that is full, for an instruction that raises no decode cause and for one that does. -/
theorem test_meets_full_packet :
    let s : State := withTh fun t => { t with packet := some ⟨0, 7, 0x10000, 0, 0, 1, 256⟩ }
    s.packetFull (.add 5 6 7) = true ∧ s.decodeCause (.add 5 6 7) = false ∧ s.packetFull (.ixcreate 6 5) = true ∧ s.decodeCause (.ixcreate 6 5) = true := by
  decide

/-- R230: a row of an `mma` that a slot waits in goes on. -/
theorem test_rows_turn :
    (match step { mapped with th := { thr with mma := some mmaRun }, agenda := [.rows 0] } with | .next _ => true | .fault _ => false | .refused _ => false) = true := by
  decide +kernel

/-- R148: Monel sets a weight. -/
theorem test_weight :
    (match step { base with agenda := [.outside (.weight 5 32)] } with | .next t => t.quantum 5 | .fault _ => 0 | .refused _ => 0) = 32 * 7520 := by
  decide +kernel

/-- `StepRunsDecoded`: a microinstruction, and an event. -/
theorem test_meets_other_turns :
    let h : Handler := ⟨message, Vector.replicate 16 0, [], 0, none, false⟩
    (base.putNmu 0 { base.nmu 0 with run := some h, loaded := [(8, [0x0100FFFF])] }).microFetch 0 = some (.mli 1 0xFFFF)
    ∧ Instr.loadReturn.form = .event := by decide +kernel

/-- `StepRunsDecoded`, `PcBitsStayZero`, `StepsKeepMemoryCanonical`: a step of good states is a next state. -/
theorem test_meets_steps :
    (match step (turning 0x00800283) with
      | .next t => t.getX 5 == 64 && t.th.pc == 0x4000001004 && Memory.wf t.mem && Memory.wf t.loc
      | .fault _ => false
      | .refused _ => false) = true ∧ Memory.wf (turning 0x00800283).mem = true ∧ (turning 0x00800283).th.pc.getLsbD 0 = false := by decide +kernel

/-- A word laid down right after reset is fetched and run by the next step. -/
theorem test_first_step :
    (match step (State.reset.withFetchWord 32 0x00800283) with | .next t => t.getX 5 | .fault _ => 0 | .refused _ => 0) = 64 := by decide +kernel

/-- `ModeIsFixed`, `EncodedInstructionsDecode`: an instruction of each form that is no event. -/
theorem test_meets_forms : (Instr.add 5 6 7).form ≠ .event ∧ (Instr.add 5 6 7).form ≠ .micro ∧ (Instr.add 5 6 7).wellFormed = true
    ∧ (Instr.mfin 15).form = .micro ∧ (Instr.mfin 15).form ≠ .event ∧ (Instr.mfin 15).wellFormed = true := by decide

/-! ### What the obligations assume: further cases -/

/-- `HardwareLoops`: an outer level that ends at the instruction inside an inner one that does not; a count of 0 at code that is not mapped. -/
theorem test_meets_inner_active :
    let s := withTh fun t => { t with loop0 := ⟨0x4000000FF0, 0x4000001000, 2, true⟩, loop1 := ⟨0x4000000FF8, 0x4000001008, 2, true⟩ }
    (s.th.loop1.flag = true ∧ s.th.loop1.last ≠ s.th.pc ∧ s.th.loop0.flag = true ∧ s.th.loop0.last = s.th.pc)
    ∧ (match base.fetchHalf (base.pcPlus 12).toNat with | (.error e, _) => e == (0x06, 0x400000100C) | (.ok _, _) => false) = true := by decide +kernel

/-- R80: a count of 0 goes on past the body, whose last instruction is 2 bytes of zeros. -/
theorem test_loop_skips :
    let t := (nextOf (exec (.loopi 0 5) mapped)).th
    t.pc = 0x400000100E ∧ t.loop0.flag = false ∧ t.iret = 1 := by decide +kernel

/-- A handler's thread with records of one kind to send again, and its copies in its core's queue. -/
def replaying (ws : List Redo) (queued : List CopyCmd) : State :=
  let s := returning 0x4000001000 0
  { s with th := { s.th with held := ws.map (fun w => { record with what := w }) }, copyQ := [(0, queued)] }

/-- A copy of two elements between two layouts. -/
def copyOf (n : Nat) : CopyCmd := ⟨thr.owner, thr.view .copy, layout 0x10000, layout 0x20000, 0, n, ⟨none, none⟩, 0, none, none⟩

/-- `ReturnFromHandler`, the sending again: as many records of each kind as there is room for, and copies that have none. -/
theorem test_meets_replay :
    let a := access (.st .d)
    let m : NmMsg := { message with frames := [], leaves := [] }
    let ok (s : State) : Bool := s.th.uact && s.th.acc.isEmpty && s.th.epc == 0x4000001000
    let full := replaying [.copy (copyOf 0)] (List.replicate 16 (copyOf 0))
    ok (replaying (List.replicate 8 (.acc a)) []) = true ∧ ok full = true
    ∧ (replaying (List.replicate 8 (.acc a)) []).th.held.map (·.what) = (List.replicate 8 a).map Redo.acc
    ∧ ((replaying [.copy (copyOf 0)] []).th.held.map (·.what) = [copyOf 0].map Redo.copy
      ∧ ((replaying [.copy (copyOf 0)] []).copyQueue 0).length + 1 ≤ 16
      ∧ (replaying [.copy (copyOf 0)] []).counter (replaying [.copy (copyOf 0)] []).th .yc + 1 ≤ 4)
    ∧ ((replaying [.table (tableCmd .latch 0 0)] []).th.held.map (·.what) = [tableCmd .latch 0 0].map Redo.table
      ∧ (replaying [.table (tableCmd .latch 0 0)] []).counter (replaying [.table (tableCmd .latch 0 0)] []).th .tc + 1 ≤ 16)
    ∧ ((replaying [.nm m] []).th.held.map (·.what) = [m].map Redo.nm ∧ (replaying [.nm m] []).counter (replaying [.nm m] []).th .nc + 1 ≤ 8)
    ∧ (replaying [.drain none] []).th.held.map (·.what) = [Redo.drain none] ∧ 16 ≤ (full.copyQueue (coreOf full.th.slot)).length := by decide +kernel

/-- `Streams`, the block: positions below the limit, at it and past it. -/
theorem test_meets_stream_end :
    let s (p : BitVec 32) : State := withTh fun t => { t with streams := t.streams.set 0 (some { stream 2 with pos := p }) }
    let ends (p : BitVec 32) : Bool := (s p).streamOf 28 == some (0, { stream 2 with pos := p })
      && ((s p).transferFault [({ stream 2 with pos := p }, 8)]).isNone && !(s p).th.acquiring
    (ends 0 && ends 3 && ends 4) = true ∧ (stream 2).per = 8 ∧ (3#32).toNat = (stream 2).limit.toNat ∧ (streaming 2).Unbound [1, 2]
    ∧ LaneType.i16.integer = true := by
  unfold State.Unbound; decide

/-- Whether the one access in flight is next and meets a tracked page. -/
def trackedNext (s : State) : Bool :=
  match s.th.acc with
  | [] => false
  | a :: _ =>
    s.th.bound && s.ev.unit == s.th.slot && a.stuck.isNone && s.th.mayPerform a && (s.th.behind a).isNone
      && lineParts a.va a.op.bytes == [(a.va, a.op.bytes)]
      && (match s.translate (s.reqOf a) a.va with
        | (.ok p, u) => p.tracked && !pteRetag p.leaf && bare u && decide (p.pa % 8 + a.op.bytes ≤ 8)
        | (.bad _, _) => false
        | (.wait, _) => false)

/-- The machine with its data page tracked. -/
def trackedPage : State := { base with mem := Memory.writeN tables 0x306100 (bytesOf 8 0x2001DB) }

/-- `AccessPerformed`, a tracked page: a load and a store of a word of it. -/
theorem test_meets_tracked :
    trackedNext { trackedPage with th := { thr with acc := [access (.ld .w true)] } } = true
    ∧ trackedNext { trackedPage with th := { thr with acc := [access (.st .d)] } } = true := by decide +kernel

/-- `AccessPerformed`, `AccessFaults`: a replayed store that releases, and may be performed (R301). -/
theorem test_meets_replayed_release :
    let a : Access := { access (.st .d) with scope := .dev, gen := some 0 }
    let s (m : State) : State := { m with th := { thr with acc := [a] } }
    let plain : Bool := match ((s mapped).beforeAccess a).translate ((s mapped).reqOf a) a.va with
      | (.ok p, u) => !p.tracked && !pteRetag p.leaf && bare u
      | (.bad _, _) => false
      | (.wait, _) => false
    let bad : Bool := match ((s base).beforeAccess a).translate ((s base).reqOf a) a.va with
      | (.bad c, _) => c == 6
      | (.ok _, _) => false
      | (.wait, _) => false
    (a.releases && a.scope != .sys && (s mapped).th.mayPerform a && ((s mapped).th.behind a).isNone && plain && bad) = true := by decide +kernel

/-- `MessagesAndStops`: a paused unit with a message of the burst before another thread's, and with that one alone. -/
theorem test_meets_paused :
    let m : NmMsg := { message with owner := { thr.owner with ident := ⟨5, 1, 0, 1, none⟩ } }
    let u (q : List NmMsg) : Nmu := { base.nmu 0 with paused := true, queue := q }
    let l : NmMsg := { message with leased := true }
    (u [l, m]).queue[1]? = some m ∧ 8 ≤ m.handler ∧ m.leased = false ∧ (∀ e ∈ (u [l, m]).queue.take 1, e.leased = true ∧ e.owner.ident ≠ m.owner.ident)
    ∧ (∀ e ∈ (u [l]).queue, e.leased = true) ∧ (u [l]).run = none := by decide +kernel

/-- `BuiltInHandlers`, `Microinstructions`: a page to be written whose leaf is as it was translated, and one whose translation has been
dropped. -/
theorem test_meets_settled :
    (match mapped.translate (message.owner.req .atomic none) 0x4000200000 with
      | (.ok p, u) => (Tab.find u.tlb p.key).any (fun t => pteD t.leaf || u.stillLeaf t) && !(Tab.find mapped.tlb p.key).any (fun t => pteD t.leaf || mapped.stillLeaf t)
          && bare u && !p.tracked && isDevice p.pa && stackOf p.pa == stackOf 0x200000 && p.pa % 65536 == 0 && u.rowTag p.pa == 0
      | (.bad _, _) => false
      | (.wait, _) => false) = true := by decide +kernel

/-- `AccessPerformed`: a `pclr` of a word that has a mark. -/
theorem test_meets_pclr :
    let s : State := { issued .pclr with poison := [(0x200008, true)] }
    (match s.translate (s.reqOf (access .pclr)) 0x4000200008 with
      | (.ok p, u) => p.pa % 8 == 0 && !p.tracked && !pteRetag p.leaf && bare { u with poison := [] } && (Tab.find u.poison p.pa).isSome
      | (.bad _, _) => false
      | (.wait, _) => false) = true ∧ lineParts 0x4000200008 8 = [(0x4000200008, 8)] ∧ s.th.mayPerform (access .pclr) = true := by decide +kernel

/-- `FrameCopyRestores`, what holds a thread back: a suspended copy and a full queue, a ring whose unit it does not own, and a mate that waits
for its own frame, or for nothing more. -/
theorem test_meets_held_back :
    let c : CopyCmd := ⟨thr.owner, thr.view .copy, layout 0x10000, layout 0x20000, 0, 0, ⟨none, none⟩, 0, none, none⟩
    let s := arriving 0x3FFC 0x7535454E
    let place : StorePlace := ⟨0, thr.ident, [], [], [.copy c], [], []⟩
    let mate (frame : Nat) : Thread := { thr with slot := 1, ident := ⟨5, 1, 0, 1, none⟩, phase := .binding, frame := frame }
    (({ s with copyQ := [(0, List.replicate 16 c)] } : State).copyQueue 0).length = 16 ∧ c.fail = none
    ∧ (place.ident = s.th.ident ∧ s.badIn (s.placeAt place.place) 0x800 = none ∧ place.progress = .copy c :: [])
    ∧ (s.ownsUnit s.th.slot = false ∧ ((⟨thr.ident, MatrixUnit.empty⟩ : RingPlace)).ident = s.th.ident)
    ∧ (s.gangOf s.th.ident = some gang ∧ gang.leaving = [] ∧ ∀ f ∈ [0, 0x304000], gang.has (mate f).ident = true ∧ (mate f).phase = .binding
      ∧ (mate f).ring = none ∧ (mate f).progress = []) ∧ (mate 0).slot ≠ s.th.slot := by decide +kernel

/-- The copy of a frame of zeros whose record says that the thread owned the matrix unit, with their CRC (R122, R124). -/
def savedOwner : State :=
  let s := arriving 0x3FFC 0x38090849
  let s : State := { s with mem := Memory.writeN s.mem (0x300000 + 0x3FDF) [2] }
  { s with loc := Memory.place s.loc 0 0x4000 (s.rawSlice 0x300000 0x4000) }

/-- R124: the CRC of what such a save covers, in four parts. -/
theorem test_crc_owner : crc32c ((List.replicate 31 0 ++ [2] ++ List.replicate 15 0) ++ List.replicate 141 0) = 0x38090849#32 := by
  have h0 : (List.replicate 31 0 ++ [2] ++ List.replicate 15 (0 : Byte)).foldl crcByte 0xFFFFFFFF#32 = 0x56615B19#32 := by decide +kernel
  have h1 : (List.replicate 47 (0 : Byte)).foldl crcByte 0x56615B19#32 = 0x3E0D2454#32 := by decide +kernel
  have h2 : (List.replicate 47 (0 : Byte)).foldl crcByte 0x3E0D2454#32 = 0xAC7E697A#32 := by decide +kernel
  have h3 : (List.replicate 47 (0 : Byte)).foldl crcByte 0xAC7E697A#32 = 0xC7F6F7B6#32 := by decide +kernel
  rw [crc32c, show 141 = 47 + (47 + 47) from rfl]
  simp only [List.replicate_add, List.foldl_append] at h0 ⊢
  rw [h0, h1, h2, h3]
  decide

/-- `FrameCopyRestores`: that save passes the checks, and asks for its ring. -/
theorem test_meets_owner_frame : savedOwner.saveOk 0 = true ∧ savedOwner.saved 0 0x3FDF 1 / 2 % 2 = 1 := by
  have h : saveCovered (Memory.readN savedOwner.loc 0x3FC0 60) [] [] (Memory.readN savedOwner.loc 0x3F40 64) (Memory.readN savedOwner.loc 0x39C0 64) []
      = (List.replicate 31 0 ++ [2] ++ List.replicate 15 0) ++ List.replicate 141 0 := by decide +kernel
  have e : natOf (Memory.readN savedOwner.loc 0x3FFC 4) = 0x38090849 := by decide +kernel
  have e1 : natOf (Memory.readN savedOwner.loc 0x3FD0 8) = 0 := by decide +kernel
  have e2 : natOf (Memory.readN savedOwner.loc 0x3FF0 8) = 0 := by decide +kernel
  have e3 : natOf (Memory.readN savedOwner.loc 0x3FF8 4) = 0 := by decide +kernel
  have e4 : natOf (Memory.readN savedOwner.loc 0x3FDF 1) = 2 := by decide +kernel
  have e5 : natOf (Memory.readN savedOwner.loc 0x3FE8 8) = 0 := by decide +kernel
  unfold State.saveOk State.saved
  simp only [Nat.zero_mul, Nat.zero_add, e, e1, e2, e3, e4, e5]
  have z : Memory.readN savedOwner.loc 0x3A00 0 = [] := rfl
  rw [z, if_neg (by decide : ¬2 % 2 = 1), if_neg (by decide : ¬0 % 4 ≠ 0), h, test_crc_owner]
  decide

/-- A layout of two elements in one dimension (R205): base, format, flags (space 1, fill 2), stride, origin in 24 bits and scale array. -/
def layoutIn (base format flags stride origin scales : Nat) : Layout :=
  layoutOf (BitVec.ofNat 768 (base + format * 2 ^ 64 + flags * 2 ^ 72 + 2 * 2 ^ 128 + stride * 2 ^ 256 + origin * 2 ^ 512 + 2 * 2 ^ 640 + scales * 2 ^ 736))

/-- `CopyCommands`, converting moves: a scaled source and a destination of another format, elements that are filled or skipped, global
elements, and a block of a scaled destination. -/
theorem test_meets_converting :
    let near (l : Layout) (n : Nat) : Bool := l.inside (l.position n) && l.isLocal && (base.levelFault thr.owner l.base (l.address (l.position n)) l.size).isNone
    let scaled (l : Layout) (n : Nat) : Bool := l.scales != 0 && (base.levelFault thr.owner l.scales (l.scaleAt n : Nat) 1).isNone
    let filled (l : Layout) : Bool := !l.inside (l.position 0) && l.fill
    let codes := layoutIn 0x10000 0x0C 1 1 0 0x18000
    let floats := layoutIn 0x20000 0x0A 1 4 0 0
    (near codes 0 && near codes 1 && scaled codes 0 && near floats 0 && near floats 1 && codes.format == 0x0C && codes.format != floats.format
      && codes.block 0 == (0, 2) && codes.count == 2 && filled (layoutIn 0x10000 0x0A 3 4 0xFFFFFF 0) && filled (layoutIn 0x10000 0x0A 2 4 2 0)) = true
    ∧ (let far := layoutIn 0x4000200000 0x0A 0 4 0 0
       let req (k : AccKind) : Option (Bool × Bool) :=
         match mapped.translate (thr.owner.req k none) (far.address (far.position 1)) with
         | (.ok z, u) => some (z.tracked || pteRetag z.leaf, bare u)
         | (.bad _, _) => none
         | (.wait, _) => none
       far.inside (far.position 1) = true ∧ far.isLocal = false ∧ far.address (far.position 1) + far.size ≤ 2 ^ 56
       ∧ lineParts (far.address (far.position 1)) far.size = [(0x4000200004, 4)] ∧ req .load = some (false, true) ∧ req .store = some (false, true)) := by
  decide +kernel

/-- `CopyCommands`: a sync word in the window of a core out of service. -/
theorem test_meets_sync_lost :
    let s : State := { base with cfg := { base.cfg with coresOut := [1] } }
    s.syncFault 0x1040000 = none ∧ s.syncLost 0x1040000 = some (0x09, 0x1040000) := by decide +kernel

/-- An epilogue with every step, in block-scaled codes, and its tables in the scratchpad. -/
def fullCfg : EpCfg := ⟨0x10000, 256, 0x4000, 0x0C, 31, 1, 0x30000, 0x30100, 0x31000, 0x32000, 0x40000000, 0x33000, 64, 0x3000, 0, 0⟩

/-- The header of an activation table of one piece from 0 to 1 (R238). -/
def tableHeader (n : Nat) : Memory := Memory.writeN [] (0x100000000 + 0x21000) (bytesOf 4 0 ++ bytesOf 4 0x3F800000 ++ bytesOf 4 n ++ bytesOf 4 0)

/-- `TileDrains`, a turn of one row with every step: at the first row and the last, a good header and a bad one. -/
theorem test_meets_drain_row :
    let q : DrainReq := ⟨0, thr.view .epi⟩
    let u (row : Nat) : MatrixUnit := { MatrixUnit.empty with owner := some 0, cfg := some fullCfg, reqs := [q], fill := 1, row := row, tiles := [(tileKey 0 row 5, 0x41000000)] }
    let s (row n : Nat) : State := { base.putUnit 0 (u row) with loc := tableHeader n }
    let level (a n : Nat) : Bool := (base.levelFault base.th.owner (a : Nat) (a : Nat) n).isNone
    let num (n a : Nat) : Nat := (s 0 n).seeNat q.view a 4
    let c := fullCfg
    ((s 63 1).unitOf 0 == u 63 && outSize c.ofmt == some 1 && c.count < 2 ^ 32 && [0, 1, 2, 3, 4].all (fun k => c.flags.getLsbD k)
      && level (0x10000 + 63 * 256) 64 && level c.bscale 64 && level c.bias 256 && level c.olist 4 && level c.act 16 && level (c.act + 16) 8
      && level (c.oscale + 126) 2 && level (c.olist + 8) 8 && c.smode == 1
      && num 1 c.act == 0 && num 1 (c.act + 4) == 0x3F800000 && num 1 (c.act + 8) == 1 && num 1 (c.act + 12) == 0 && num 0 (c.act + 8) == 0
      && (f32.unpack 0).cmp (f32.unpack 0x3F800000) == some .lt && base.th.notices.length < 16) = true := by decide +kernel

/-- `BuiltInHandlers`, the refusals: arguments just past their ranges, the claim of another thread, rows of two subarrays and no latch. -/
theorem test_meets_refusals :
    let v : Nmu := { claimed with claim := some ⟨6, 1, 0, 0, none⟩ }
    ((0 : Nat) < 1 ∧ (512 : Nat) < 513 ∧ (1 : Nat) < 2 ∧ (2 : Nat) < 3 ∧ 32 ≤ 32 ∧ (256 : Nat) < 257 ∧ (2048 : Nat) < 2047 + 2)
    ∧ (v.claim ≠ none ∧ v.claim ≠ some message.owner.ident) ∧ claimed.claim = some message.owner.ident
    ∧ (claimed.latched 0x208000).isNone = true ∧ sameSubarray 0x40000000 0x200000 = false := by decide +kernel

/-- `IndexQueries`: entries with numbers of their own, one whose key is the query's, and the thread that issued it. -/
theorem test_meets_found : (index.entries.map (·.id)).Nodup ∧ (∃ e ∈ index.entries, e.visible 1 = true ∧ e.key = [0x60] ∧ e.rel = some 3)
    ∧ (indexed servedQuery).issuer servedQuery.owner = some (indexed servedQuery).th ∧ servedQuery.leased = false := by
  refine ⟨by decide, ⟨_, List.mem_cons_self .., by decide⟩, by decide, rfl⟩

/-- `MessagesAndStops`: a resume record of the sender, and one of another thread. -/
theorem test_meets_resumers :
    let other : Ident := ⟨5, 1, 0, 1, none⟩
    let s (i : Ident) : State := { base with resumes := [⟨{ thr.owner with ident := i }, 0, 0, 15, true, 1⟩] }
    ((s other).resumes.find? (fun r => r.nmu == 0)).map (·.owner.ident) = some other ∧ other ≠ message.owner.ident
    ∧ ((s thr.ident).resumes.find? (fun r => r.nmu == 0)).map (·.owner.ident) = some message.owner.ident := by decide

/-- `LeasesAndBudgets`: a hit on a word whose data stands in its slice. -/
theorem test_meets_dirty_hit :
    let s : State := { trackedPage with
      regs := [(0x200008 / 8, ⟨none, homeSlice 0x4000200008, 0, 0x4000200008, 7⟩)], retained := [homeSlice 0x4000200008] }
    (match s.translate (thr.owner.req .load none) 0x4000200008 with
      | (.ok p, u) => p.tracked && u.regs.any (fun e => e.1 / 8 == p.pa / 64 && e.2.core.isNone && e.2.slice == homeSlice 0x4000200008)
      | (.bad _, _) => false
      | (.wait, _) => false) = true ∧ mapped.regs = [] ∧ thr.owner.slot / 1280 * 160 = 0 := by decide +kernel

/-- `HostAndFabric`: an access of the host at the last byte of an index's frames, and one that meets none; an acquire of a word that has been
performed. -/
theorem test_meets_refused :
    let s (pa : Nat) : State := { indexed (ixCmd .snap [] none) with ev := { base.ev with num := pa, idx := 64 } }
    let p : Past := ⟨1, 5, 0xFF, 0, thr.ident, 0, some .core, some 1, none, none, [], none, false, []⟩
    let w : State := { base with memPast := [(pastKey true 0x200008, [p])] }
    ((s 0x22FFFF).indexes = [(0, ⟨1, some index⟩)] ∧ 0x220000 ∈ index.frames ∧ (0x220000 ≤ 0x22FFFF + 0 ∧ 0x22FFFF + 0 < 0x220000 + 65536)
      ∧ (s 0x22FFFF).ev.num + 64 ≤ 2 ^ 40)
    ∧ (Tab.get w.memPast (pastKey true (8 * (0x200008 / 8))) [] = [p] ∧ p.core ≠ none ∧ w.regs = []) := by decide +kernel

/-- `DeviceEvents`: a configuration record with weights, one that breaks a rule, and a core with a registered word. -/
theorem test_meets_boot :
    let good : ConfigRecord := { base.cfg with weights := [(0, 1), (128, 255)] }
    let s : State := { base with regs := [(0x40001, ⟨some 0, 0, 0, 0x4000200008, 7⟩)] }
    (recordOk good = true ∧ (good.weights.map (·.1)).Nodup) ∧ recordOk { good with weights := [(5, 0)] } = false
    ∧ (s.regs.length < 4096 ∧ (s.regs.map (·.1)).Nodup ∧ (Tab.find s.regs 0x40001).map (·.core) = some (some 0) ∧ s.ownGang ≠ none) := by decide +kernel

/-- `BindPortRecords`: a reservation that has been noted, and one that has not; a group at the port that names a cluster, and none. -/
theorem test_meets_noted :
    (∃ q ∈ [(0#128)].map bindRec, q.stop = false ∧ q.slot / 64 = 0) ∧ (base.port 0).group = [] ∧
    (∃ q ∈ ({ base with reserves := [(0, 1, gangMark 0 none, 0)] } : State).reserves, q.1 = 0 ∧ q.2.1 = 1 ∧ q.2.2.1 = gangMark 0 none)
    ∧ (∀ q ∈ base.reserves, ¬(q.1 = 0 ∧ q.2.1 = 1 ∧ q.2.2.1 = gangMark 0 none)) := by decide

/-- `Launches`: an update that is a release at system scope, with nothing to write through, and with a word in a peer's memory; and one that
waits for a command. -/
theorem test_meets_host_update :
    let c : Completion := ⟨1, 5, 0x4000200300, 0, false, true, true, some (0, none), 0, 0, (0, 0)⟩
    let p : Past := ⟨1, 5, 0xFF, 0, thr.ident, 0, some .core, some 1, none, none, [], none, false, []⟩
    let w : State := { peerPage with
      regs := [(peerWord / 8, ⟨some 0, 0, 0, 0x4000200008, 7⟩)], memPast := [(pastKey true peerWord, [p])] }
    let own (s : State) : State := s.adopt (fun r => c.has r.who)
    let runs : State := { base with tableQ := [{ tableCmd .latch 0 0 with owner := { thr.owner with lost := true } }] }
    c.has thr.ident = true ∧ (own base).outsideOf c.covers = [] ∧ (own w).outsideOf c.covers = [peerWord / 8] ∧ base.runsFor c.has = false
    ∧ runs.runsFor c.has = true := by decide +kernel

/-- `StepRunsDecoded`: an `ixcreate` that waits for its answer, and a slot that a division occupies. -/
theorem test_meets_waiting :
    let s : State := { holding 0x28005359 with th := { (holding 0x28005359).th with sys := true, ixReq := some [], ixRegs := some (6, 5), ixAns := some 7 } }
    let p := s.pass (s.coreWait 0)
    let f := p.focus 0
    (p.pickSlot 0 == some 0 && !f.th.mayStop && f.th.redo.isEmpty && !f.spent f.th && f.th.acc.isEmpty && f.th.ixReq.isSome
      && f.th.ixRegs == some (6, 5) && ({ base with agenda := [.free 0] } : State).agenda == [.free 0]) = true := by decide +kernel

/-- R75, R118: a division occupies its slot, and the turn that ends it frees the slot. -/
theorem test_occupied :
    let t (s : State) : State := match step s with | .next t => t | .fault _ => State.reset | .refused _ => State.reset
    (t (turning 0x280E6297)).th.occupied = true ∧ (t { t (turning 0x280E6297) with agenda := [.free 0] }).th.occupied = false := by decide +kernel

end Sys2Proof.Tests
end

section
/-!
PROOF. The encoder and the decoder agree (O60).
-/
namespace Sys2Proof.Laws
open Sys2Proof

/-- Settles O60: the lemma of the family `Enc` for each constructor (R24 to R44, R263). -/
theorem encodedInstructionsDecode : Obligations.EncodedInstructionsDecode :=
  Instr.rec (motive := Enc.Statement)
    Enc.add Enc.sub Enc.and Enc.or Enc.xor Enc.andn Enc.shl Enc.shr Enc.sra Enc.slt Enc.sltz Enc.min Enc.max Enc.minz Enc.maxz
    Enc.sel Enc.addw Enc.subw Enc.rotl Enc.rotr Enc.addi Enc.andi Enc.ori Enc.xori Enc.shli Enc.shri Enc.srai Enc.slti Enc.sltzi
    Enc.lim Enc.lpc Enc.clz Enc.ctz Enc.ffs Enc.popc Enc.rev Enc.bswap Enc.bext Enc.bins Enc.mul Enc.mulh Enc.mulhz Enc.mulhsz
    Enc.div Enc.divz Enc.rem Enc.remz Enc.mulw Enc.beq Enc.bne Enc.blt Enc.bge Enc.blo Enc.bhs Enc.jal Enc.jalr Enc.loop
    Enc.loopi Enc.ldg Enc.stg Enc.ldgV Enc.stgV Enc.ldl Enc.stl Enc.ldlV Enc.stlV Enc.amoAdd Enc.amoAnd Enc.amoOr Enc.amoXor
    Enc.amoMin Enc.amoMax Enc.amoMinz Enc.amoMaxz Enc.amoSwap Enc.cas Enc.amolAdd Enc.amolAnd Enc.amolOr Enc.amolXor Enc.amolMin
    Enc.amolMax Enc.amolMinz Enc.amolMaxz Enc.amolSwap Enc.cwait Enc.xfence Enc.swinit Enc.swadd Enc.swwait Enc.swget Enc.swcnt
    Enc.mopen Enc.mput Enc.mputV Enc.mputE Enc.mputVe Enc.gbar Enc.gbarAnd Enc.gbarOr Enc.gbarAdd Enc.gbarMax Enc.gbarMin
    Enc.launch Enc.exit Enc.yield Enc.sys Enc.brk Enc.uret Enc.uretReplay Enc.srd Enc.swr Enc.vadd Enc.vsub Enc.vmul Enc.vmax
    Enc.vmin Enc.vand Enc.vor Enc.vxor Enc.vdiv Enc.vsqrt Enc.vrcp Enc.vrsq Enc.vexp2 Enc.vlog2 Enc.vshl Enc.vshr Enc.vsra
    Enc.vabs Enc.vneg Enc.vmov Enc.vadd16 Enc.vsub16 Enc.vmul16 Enc.vmax16 Enc.vmin16 Enc.vmov16 Enc.vabs16 Enc.vneg16
    Enc.vand16 Enc.vor16 Enc.vxor16 Enc.vrcp16 Enc.vrsq16 Enc.vexp216 Enc.vbcast0 Enc.vzero Enc.modifierWord Enc.vcmpEq
    Enc.vcmpLt Enc.vcmpLe Enc.vcmpNe Enc.vsel Enc.vredadd Enc.vredmax Enc.vredmin Enc.vperm Enc.vdot Enc.vcvt Enc.vq8 Enc.vdq8
    Enc.vamax Enc.vbcast Enc.vins Enc.vext Enc.vmvx Enc.vfma Enc.vfms Enc.vfnma Enc.vfnms Enc.sbind Enc.seos Enc.sstat
    Enc.sunbind Enc.tql Enc.tqlatch Enc.tqd Enc.tqmac Enc.tqread Enc.cpy Enc.cpyq Enc.mown Enc.mrel Enc.mcfg Enc.mmaBf16
    Enc.mmaD8 Enc.mmaF16 Enc.mringAdv Enc.mringClr Enc.epcfg Enc.epgo Enc.lease Enc.unlease Enc.nmsend Enc.nmresume Enc.nmload
    Enc.nmstat Enc.mli Enc.mld Enc.mst Enc.mrdrowRead Enc.mrdrowWrite Enc.mrdrowZero Enc.mrdrowCopy Enc.madd Enc.msub Enc.mand
    Enc.mor Enc.mxor Enc.mshl Enc.mshr Enc.mmul Enc.mmax Enc.maccAdd Enc.maccRead Enc.mbfw Enc.mbfwZero Enc.mfin Enc.ixnear
    Enc.ixstore Enc.ixstoreRel Enc.ixdel Enc.ixsnap Enc.ixstat Enc.ixcreate Enc.tscoreSet Enc.tscoreMax Enc.tscoreMin
    Enc.tscoreAdd Enc.trinfo Enc.pinv Enc.pswap Enc.pclr Enc.pgen Enc.udf Enc.loadReturn Enc.storePerform Enc.heldFaultPost
    Enc.atomicPerform Enc.syncWordWake Enc.messageLanding Enc.packetCount Enc.barrierComplete Enc.launchReplicate
    Enc.completionBlockUpdate Enc.tqlatchExec Enc.tqmacExec Enc.tqdExec Enc.tqreadExec Enc.copyCommand Enc.heldNoticePost
    Enc.mmaComplete Enc.tileDrain Enc.leaseExpiry Enc.nmuMessageArrival Enc.rowCopy Enc.rowZero Enc.indexedReduce
    Enc.tableGather Enc.tableMac Enc.accumulatorRead Enc.accumulatorClear Enc.statusHandler Enc.loadedHandlerStart
    Enc.handlerTimeout Enc.nmresumeApply Enc.handlerLoad Enc.indexQueryAccept Enc.indexSearchEnd Enc.indexStoreCommit
    Enc.indexDeleteCommit Enc.indexSnapshotAccept Enc.indexStatAccept Enc.indexCreate Enc.indexDestroy Enc.allowanceExhausted
    Enc.roundEnd Enc.generationNotice Enc.upcallDelivery Enc.bindRecord Enc.resumeRecord Enc.stopRecord Enc.frameCopyDone
    Enc.threadStop Enc.saveComplete Enc.saveDrainTimeout Enc.slotSpill Enc.clusterZeroingDone Enc.gangReservation
    Enc.scannerPage Enc.scannerWriteDone Enc.budgetPeriodStart Enc.securityAlarm Enc.burstPause Enc.burstResume
    Enc.sliceRetention Enc.hostLaunchWindowWrite Enc.reportRequest Enc.reportReady Enc.registerWrite Enc.hostCxlMemAccess
    Enc.functionLevelReset Enc.fabricAckTimeout Enc.coreFailure Enc.coreOutOfService Enc.identityRotation Enc.boot
    Enc.coreReturnToService Enc.quarantineLift Enc.budgetChange Enc.fabricPeerAccess
    Enc.conventionalReset

end Sys2Proof.Laws
end

section
/-!
PROOF. What a reset leaves (O54).
-/
namespace Sys2Proof.Machine
open Sys2Proof

/-- Settles O54: each part is read off the reset state. -/
theorem resetLeaves : Obligations.ResetLeaves := by
  refine ⟨⟨rfl, rfl⟩, rfl, rfl, rfl, rfl, fun _ => ⟨rfl, rfl⟩, fun _ => rfl, fun _ => rfl, fun _ _ => ⟨rfl, rfl⟩, fun _ => rfl,
    ⟨rfl, rfl, rfl⟩, fun _ => rfl, rfl, by decide, by decide, rfl, rfl, rfl, rfl, rfl, rfl, rfl, rfl, rfl⟩

end Sys2Proof.Machine
end

section
/-!
PROOF. The turns that the agenda lays down, and the one that comes where none is laid down (O58).
-/
namespace Sys2Proof.Machine
open Sys2Proof

/-! ### Laid-down turns -/

/-- The state once the first turn of its agenda has been taken from it. -/
def State.goOn (s : State) (r : List Turn) : State := { s with agenda := r }

/-- The state at a core's turn, once the cycles that the core must wait have passed (R18). -/
def State.coreTurn (s : State) (r : List Turn) (c : Nat) : State := (s.goOn r).pass ((s.goOn r).coreWait c)

/-- The next turn is taken, unless the device is halted. -/
theorem step_next (s u : State) (t : Turn) (hh : u.halted = false) (hn : s.nextTurn = some (t, u)) : step s = u.take t := by
  unfold step
  rw [hn]
  exact if_neg (by simp [hh])

/-- A turn that the agenda lays down is the one that is taken. -/
theorem step_laid (s : State) (t : Turn) (r : List Turn) (hh : s.halted = false) (ha : s.agenda = t :: r) :
    step s = (s.goOn r).take t :=
  step_next s (s.goOn r) t hh (by unfold State.nextTurn; rw [ha]; rfl)

/-- With no turn laid down, nothing that may come and no halt, time passes. -/
theorem step_idle (s : State) (hh : s.halted = false) (ha : s.agenda = []) (ht : s.turns = []) : step s = .next (s.pass 1).rouse := by
  have hn : s.nextTurn = none := by unfold State.nextTurn; rw [ha, ht]
  unfold step
  rw [hn]
  exact if_neg (by simp [hh])

/-- With no turn laid down, a turn that may come is taken. -/
theorem step_free (s : State) (hh : s.halted = false) (ha : s.agenda = []) (ht : s.turns ≠ []) :
    ∃ t ∈ s.turns, ∃ d, step s = State.take t { s with draw := d } := by
  match h : s.turns with
  | [] => exact (ht h).elim
  | [t] =>
    exact ⟨t, List.mem_singleton.mpr rfl, s.draw, step_next s s t hh (by simp only [State.nextTurn, ha, h])⟩
  | t :: u :: l =>
    have hlt : Config.freeNat s.draw % (t :: u :: l).length < (t :: u :: l).length := Nat.mod_lt _ (Nat.succ_pos _)
    refine ⟨_, List.getElem_mem hlt, s.draw + 1, step_next s _ _ hh ?_⟩
    simp only [State.nextTurn, ha, h, State.drawNat, List.getElem?_eq_getElem hlt, Option.map_some]

/-- A core's turn at whose boundary something else than an instruction's effect came. -/
theorem step_core_done (s t : State) (r : List Turn) (c n : Nat) (hh : s.halted = false) (ha : s.agenda = .core c :: r)
    (hp : (s.coreTurn r c).pickSlot c = some n) (hd : ((s.coreTurn r c).focus n).prepare = .done t) :
    step s = .next (t.occupy ((s.coreTurn r c).focus n).th false).settled := by
  rw [step_laid s _ r hh ha]
  unfold State.coreTurn at *
  simp only [State.take, hp, hd]

/-- A core's turn in which an instruction has its effect. -/
theorem step_core_run (s v : State) (i : Instr) (r : List Turn) (c n : Nat) (hh : s.halted = false) (ha : s.agenda = .core c :: r)
    (hp : (s.coreTurn r c).pickSlot c = some n) (hd : ((s.coreTurn r c).focus n).prepare = .run i v) :
    step s = onNext (exec i (v.withRows i))
      (fun t => ((t.issued n).occupy ((s.coreTurn r c).focus n).th (isDivision i)).settled) := by
  rw [step_laid s _ r hh ha]
  unfold State.coreTurn at *
  simp only [State.take, hp, hd]

/-! ### What comes before an instruction's effect -/

/-- An access that waits to be sent again holds up the instruction at the PC (R300); there is none. -/
theorem no_replay_flies {l : List Access} (h : ∀ a ∈ l, a.gen = none ∨ a.stuck ≠ none) :
    l.any (fun a => a.gen.isSome && a.stuck.isNone) = false := by
  refine Bool.eq_false_iff.2 fun hp => ?_
  obtain ⟨a, ha, hb⟩ := List.any_eq_true.1 hp
  rcases h a ha with h | h
  · simp [h] at hb
  · cases hs : a.stuck with
    | none => exact h hs
    | some w => simp [hs] at hb

/-- At an instruction that issues, a fetch that faults traps (R17, R20). -/
theorem State.prepare_fault (f v : State) (k q : Nat) (h : f.AtInstruction) (hf : f.fetch = (.error (k, q), v)) :
    f.prepare = .done (v.trap k q) := by
  obtain ⟨hstop, hredo, hspent, hacc, hix, hdue⟩ := h
  unfold State.prepare
  simp [hstop, hredo, hspent, no_replay_flies hacc, hix, hdue, hf]

/-- At an instruction that issues, bits that are no instruction trap (R26). -/
theorem State.prepare_undecoded (f v : State) (w : Nat) (e : DecodeError) (h : f.AtInstruction) (hf : f.fetch = (.ok w, v))
    (hd : decode w = .error e) : f.prepare = .done (v.trap (decodeCauseOf e) (w % 2 ^ 32)) := by
  obtain ⟨hstop, hredo, hspent, hacc, hix, hdue⟩ := h
  unfold State.prepare
  simp [hstop, hredo, hspent, no_replay_flies hacc, hix, hdue, hf, hd]

/-- At an instruction that issues and waits for no register, it has its effect, or the limit of an open packet stops it (R20, R142). -/
theorem State.prepare_decoded (f v : State) (w : Nat) (i : Instr) (h : f.AtInstruction) (hf : f.fetch = (.ok w, v))
    (hd : decode w = .ok i) (hi : v.interlock i = .go) :
    f.prepare = if v.packetFull i && !v.decodeCause i then .done (v.trapWord 0x12 i) else .run i v := by
  obtain ⟨hstop, hredo, hspent, hacc, hix, hdue⟩ := h
  unfold State.prepare
  simp [hstop, hredo, hspent, no_replay_flies hacc, hix, hdue, hf, hd, hi]

/-- An `ixcreate` that waits is executed again without a fetch (R289). -/
theorem State.prepare_ixcreate (f : State) (d a : Reg) (hstop : f.th.mayStop = false) (hredo : f.th.redo = []) (hspent : f.spent f.th = false)
    (hacc : ∀ a ∈ f.th.acc, a.gen = none ∨ a.stuck ≠ none) (hix : f.th.ixReq ≠ none) (hregs : f.th.ixRegs = some (d, a)) :
    f.prepare = .run (.ixcreate d a) f := by
  unfold State.prepare
  simp [hstop, hredo, hspent, no_replay_flies hacc, Option.isSome_iff_ne_none.2 hix, hregs]

/-- Settles O58: each kind of turn by the lemma that says what it does. -/
theorem stepRunsDecoded : Obligations.StepRunsDecoded := by
  intro s r hh go
  refine ⟨?_, ?_, ?_, ?_, ?_, ?_, ?_, step_free s hh, step_idle s hh⟩
  · intro c n v ha p f hp hat
    refine ⟨?_, ?_, ?_, ?_⟩
    · intro w i hf hd hi hpk
      refine step_core_run s v i r c n hh ha hp ((f.prepare_decoded v w i hat hf hd hi).trans (if_neg ?_))
      rcases hpk with h | h <;> simp [h]
    · intro w i hf hd hi hpk hdc
      exact step_core_done s _ r c n hh ha hp ((f.prepare_decoded v w i hat hf hd hi).trans (if_pos (by simp [hpk, hdc])))
    · intro w e hf hd
      exact step_core_done s _ r c n hh ha hp (f.prepare_undecoded v w e hat hf hd)
    · intro k q hf
      exact step_core_done s _ r c n hh ha hp (f.prepare_fault v k q hat hf)
  · intro c n d a ha p f hp hstop hredo hspent hacc hix hregs
    exact step_core_run s f _ r c n hh ha hp (f.prepare_ixcreate d a hstop hredo hspent hacc hix hregs)
  · intro n ha
    exact step_laid s _ r hh ha
  · intro n i ha hi
    rw [step_laid s _ r hh ha]
    simp only [State.take, show (s.goOn r).microFetch n = some i from hi]
    rfl
  · intro e a ha he
    rw [step_laid s _ r hh ha]
    exact if_pos he
  · intro n ha
    exact step_laid s _ r hh ha
  · intro o ha
    exact step_laid s _ r hh ha

end Sys2Proof.Machine
end

section
/-!
PROOF. `srd` (O5).
-/
namespace Sys2Proof.Machine
open Sys2Proof

/-- `srd` of an assigned state register writes its value (R90). -/
theorem State.srd_reads (s : State) (d : Reg) (n : Fin 1024) (v : Word) (h : s.srRead n.val = some v) :
    WritesX s (exec (.srd d n) s) d v := by
  show WritesX s (execSrd d n s) d v
  unfold execSrd
  rw [h]
  exact s.result_spec d v

/-- `srd` of an unassigned state register raises 0x02 (R12, R90). -/
theorem State.srd_unassigned (s : State) (d : Reg) (n : Fin 1024) (h : s.srRead n.val = none) :
    exec (.srd d n) s = .next (s.trapWord 0x02 (.srd d n)) := by
  show execSrd d n s = _
  unfold execSrd
  rw [h]

/-- The numbers between the assigned ones read as nothing (R11). -/
theorem State.srRead_unassigned (s : State) (n : Nat)
    (h : (0x006 < n ∧ n < 0x010) ∨ (0x011 < n ∧ n < 0x020) ∨ (0x029 < n ∧ n < 0x030) ∨ (0x036 < n ∧ n < 0x040)
      ∨ (0x044 < n ∧ n < 0x048) ∨ (0x054 < n ∧ n < 0x060) ∨ (0x060 < n ∧ n < 0x070) ∨ 0x072 < n) : s.srRead n = none := by
  unfold State.srRead
  split
  case h_49 => rfl
  all_goals exact absurd h (by decide)

/-- A flag reads as the number 1 or 0. -/
theorem flagWord (b : Bool) : BitVec.ofNat 64 b.toNat = if b then 1 else 0 := by cases b <;> rfl

/-- Register 0x052 is the round of the rival's launch (R337). -/
theorem State.srRead_round (s : State) : s.srRead 0x052 = some (BitVec.ofNat 64 ((s.ownRival.map (fun r => r.1.round)).getD 0)) := by
  unfold State.srRead
  cases s.ownRival <;> rfl

/-- Register 0x054 is the rival's gang limit, and above it the units of its share (R337). -/
theorem State.srRead_limit (s : State) :
    s.srRead 0x054 = some (BitVec.ofNat 64 ((s.ownRival.map (fun r => r.2.limit % 2 ^ 24 + 2 ^ 24 * r.2.share.length)).getD 0)) := by
  unfold State.srRead
  cases s.ownRival <;> rfl

/-- Settles O5: the value of each register by the equation of `State.srRead` at its number. -/
theorem stateRegisterReads : Obligations.StateRegisterReads := by
  intro s d t reads
  have read (n : Fin 1024) (v : Word) (h : s.srRead n.val = some v) : reads n v := s.srd_reads d n v h
  refine ⟨read _ _ rfl, read _ _ rfl, read _ _ rfl, read _ _ rfl, read _ _ rfl, read _ _ rfl, read _ _ rfl, read _ _ rfl, read _ _ rfl,
    read _ _ rfl, read _ _ rfl, read _ _ rfl, read _ _ rfl, read _ _ rfl, read _ _ rfl, read _ _ rfl, read _ _ rfl, read _ _ rfl,
    read _ _ rfl, read _ _ rfl, read _ _ rfl, read _ _ rfl, read _ _ rfl, read _ _ rfl, read _ _ rfl, read _ _ rfl, read _ _ rfl,
    read _ _ rfl, read _ _ rfl, read _ _ rfl, read _ _ rfl, read _ _ rfl, read _ _ rfl, read _ _ rfl, ?_, read _ _ rfl,
    read _ _ rfl, read _ _ rfl, ?_, read _ _ rfl, read _ _ rfl, read _ _ s.srRead_round, read _ _ s.srRead_limit, read _ _ rfl,
    read _ _ rfl, read _ _ rfl, read _ _ rfl, read _ _ rfl, s.srd_unassigned d, fun n => s.srRead_unassigned n.val⟩
  · exact read _ _ (congrArg some (flagWord t.loop0.flag))
  · exact read _ _ (congrArg some (flagWord t.loop1.flag))

end Sys2Proof.Machine
end

section
/-!
PROOF. What a state register keeps, and what it reads as after a write (R12).
-/
namespace Sys2Proof.Machine
open Sys2Proof

/-- What a writable state register keeps of a value (R12); none for a number that is not writable. -/
def swrKept (n : Nat) (v : Word) : Option Word :=
  if n ∈ [0x001, 0x002, 0x003, 0x04A, 0x04E, 0x050, 0x070, 0x071] then some v
  else if n ∈ [0x004, 0x048, 0x049, 0x04C, 0x04D] then some (v &&& ~~~1#64)
  else if n = 0x005 then some (v &&& 0x3FC0#64)
  else if n = 0x040 then some (v &&& 3#64)
  else if n = 0x041 then some (v &&& 0x7F#64)
  else if n ∈ [0x042, 0x043, 0x044] then some (v &&& 0xFFFFFFFF#64)
  else if n ∈ [0x04B, 0x04F] then some (v &&& 1#64)
  else none

/-- A number that keeps nothing is not written (R12). -/
theorem Thread.srWrite_none (t : Thread) (n : Nat) (v : Word) (h : swrKept n v = none) : t.srWrite n v = none := by
  unfold Thread.srWrite
  dsimp only
  split
  case h_22 => rfl
  all_goals simp [swrKept] at h

/-- A flag keeps bit 0 of what is written to it. -/
theorem flagBit (v : Word) : BitVec.ofNat 64 (v.getLsbD 0).toNat = v &&& 1#64 := by
  apply BitVec.eq_of_getLsbD_eq
  intro i hi
  cases hb : v.getLsbD 0 <;> rcases i with _ | i <;> simp_all

/-- A register of `k` bits keeps the low bits of what is written to it. -/
theorem lowBits (v : Word) (k : Nat) (m : Word) (hm : ∀ i < 64, m.getLsbD i = decide (i < k)) : (v.setWidth k).setWidth 64 = v &&& m := by
  apply BitVec.eq_of_getLsbD_eq
  intro i hi
  rw [BitVec.getLsbD_and, hm i hi, BitVec.getLsbD_setWidth, BitVec.getLsbD_setWidth]
  simp [hi, Bool.and_comm]

/-- What a written state register reads as afterwards (R12). -/
theorem State.srRead_written (r : State) (n : Nat) (v w : Word) (u : Thread) (hu : r.th.srWrite n v = some u) (hw : swrKept n v = some w) :
    (r.setTh u).srRead n = some w := by
  unfold Thread.srWrite at hu
  dsimp only at hu
  split at hu <;> cases hu <;> cases hw
  case h_6 => exact congrArg some (lowBits v 2 3#64 (by decide))
  case h_7 => exact congrArg some (lowBits v 7 0x7F#64 (by decide))
  case h_8 | h_9 | h_10 => exact congrArg some (lowBits v 32 0xFFFFFFFF#64 (by decide))
  case h_14 | h_18 => exact congrArg some (flagBit v)
  all_goals rfl

/-- A write of a state register leaves the others (R12). -/
theorem State.srRead_other (r : State) (n m : Nat) (v : Word) (u : Thread) (hu : r.th.srWrite n v = some u) (hm : m ≠ n) :
    (r.setTh u).srRead m = r.srRead m := by
  unfold Thread.srWrite at hu
  dsimp only at hu
  split at hu <;> cases hu
  all_goals
    unfold State.srRead
    split
    any_goals exact absurd rfl hm
    all_goals rfl

end Sys2Proof.Machine
end

section
/-!
PROOF. What the state registers keep through a retirement, and `swr` (O6).
-/
namespace Sys2Proof.Machine
open Sys2Proof

/-- Counting an instruction toward the allowance leaves each launch where it stands, with one more used by the rival (R329). -/
theorem State.find_launchesCounted (s : State) (p : Launch → Bool) (hp : ∀ l rs, p { l with rivals := rs } = p l) :
    s.launchesCounted.find? p = (s.launches.find? p).map (fun l => match s.th.ident.rival with
      | none => l
      | some r => if l.id == s.th.ident.launch && l.fn == s.th.ident.vf then
          { l with rivals := l.rivals.modify r (fun v => { v with used := v.used + 1 }) } else l) := by
  unfold State.launchesCounted
  cases s.th.ident.rival with
  | none => simp
  | some r =>
    simp only [List.find?_map]
    congr 2
    funext l
    simp only [Function.comp_apply]
    split
    · exact hp _ _
    · rfl

/-- Retirement leaves the rival of the thread at hand, but for its launch's list of rivals and what it has used (R329). -/
theorem State.ownRival_retire (s : State) (n : Nat) :
    (s.retire n).ownRival.map (fun r => (r.1.round, r.2.limit, r.2.share)) = s.ownRival.map (fun r => (r.1.round, r.2.limit, r.2.share)) := by
  have hth : (s.retire n).th.ident = s.th.ident := by
    have h := (s.retire_spec n).1
    unfold KeepsBesidePc at h
    rw [h]
  have hl : (s.retire n).launches = s.launchesCounted := by
    have h := (s.retire_spec n).2.2.1
    unfold KeepsOutside at h
    rw [h]
  unfold State.ownRival State.ownLaunch State.launchOf
  rw [hth, hl, s.find_launchesCounted _ (fun _ _ => rfl)]
  cases hr : s.th.ident.rival with
  | none => rfl
  | some r =>
    cases hf : s.launches.find? (fun l => l.id == s.th.ident.launch && l.fn == s.th.ident.vf) with
    | none => rfl
    | some l =>
      have hp := List.find?_some hf
      simp only [Option.map_some, hp, if_true, List.getElem?_modify, Option.map_map]
      cases l.rivals[r]? <;> rfl

/-- Where no loop level ends, retirement moves the PC and counts, in the thread at hand. -/
theorem State.retire_th_plain (s : State) (n : Nat) (hp : s.th.plainAt s.th.pc) : (s.retire n).th =
    { s.th with
      pc := s.pcPlus n
      iret := s.th.iret + 1
      packet := s.th.packet.map (fun p => { p with instrs := p.instrs + 1 })
      relWait := none
      latched := none } := by
  rw [State.retire_th, loopEnd_plain { s.th with pc := s.pcPlus n } _ hp]

/-- Where no loop level ends, retirement leaves every state register but iret and the allowance (R12, R329). -/
theorem State.srRead_retire (s : State) (n m : Nat) (hp : s.th.plainAt s.th.pc) (h1 : m ≠ 0x011) (h2 : m ≠ 0x053) :
    (s.retire n).srRead m = s.srRead m := by
  have hr := s.ownRival_retire n
  by_cases h3 : m = 0x052
  · have h := congrArg (Option.map (fun q => q.1)) hr
    rw [Option.map_map, Option.map_map] at h
    rw [h3, State.srRead_round, State.srRead_round]
    exact congrArg (fun o => some (BitVec.ofNat 64 (Option.getD o 0))) h
  · by_cases h4 : m = 0x054
    · have h := congrArg (Option.map (fun q => q.2.1 % 2 ^ 24 + 2 ^ 24 * q.2.2.length)) hr
      rw [Option.map_map, Option.map_map] at h
      rw [h4, State.srRead_limit, State.srRead_limit]
      exact congrArg (fun o => some (BitVec.ofNat 64 (Option.getD o 0))) h
    · have ht : s.retire n = { s with th := (s.retire n).th, usage := (s.use s.th.ident.vf 0 1).usage, launches := s.launchesCounted } :=
        (s.retire_spec n).2.2.1
      rw [s.retire_th_plain n hp] at ht
      rw [ht]
      clear ht hr
      unfold State.srRead
      split
      case h_9 => exact absurd rfl h1
      case h_42 => exact absurd rfl h3
      case h_43 => exact absurd rfl h2
      case h_44 => exact absurd rfl h4
      all_goals rfl

/-- Whether a state register can be written depends on its number alone (R12). -/
theorem Thread.srWrite_some (t u v' : Thread) (n : Nat) (v : Word) (h : t.srWrite n v = some v') : ∃ w, u.srWrite n v = some w := by
  unfold Thread.srWrite at h ⊢
  dsimp only at h ⊢
  split at h
  case h_22 => cases h
  all_goals exact ⟨_, rfl⟩

/-- A write of a state register leaves the x and f registers, the PC and iret (R12). -/
theorem Thread.srWrite_keeps (t u : Thread) (n : Nat) (v : Word) (h : t.srWrite n v = some u) :
    u.x = t.x ∧ u.f = t.f ∧ u.pc = t.pc ∧ u.iret = t.iret := by
  unfold Thread.srWrite at h
  dsimp only at h
  split at h <;> cases h <;> exact ⟨rfl, rfl, rfl, rfl⟩

/-- `swr` of a register that may be written retires, and then writes it (R12, R82). -/
theorem State.swr_writes (s : State) (n : Fin 1024) (a : Reg) (u : Thread) (hu : s.th.srWrite n.val (s.getX a) = some u)
    (hok : ¬(u.loop1.flag = true ∧ u.loop0.flag = false)) :
    ∃ w, (s.retire 4).th.srWrite n.val (s.getX a) = some w ∧ exec (.swr n a) s = .next ((s.retire 4).setTh w) := by
  obtain ⟨w, hw⟩ := Thread.srWrite_some s.th (s.retire 4).th u n.val (s.getX a) hu
  refine ⟨w, hw, ?_⟩
  show execSwr n a s = _
  unfold execSwr
  rw [hu]
  dsimp only
  rw [if_neg (by simpa using hok), hw]

/-- Settles O6: what `swr` does by `State.swr_writes`, what its register keeps by `State.srRead_written`, and what the others keep through
the write and the retirement by `State.srRead_other` and `State.srRead_retire`. -/
theorem stateRegisterWrites : Obligations.StateRegisterWrites := by
  intro s n a v kept
  have hk : kept = swrKept n.val v := rfl
  refine ⟨fun h => ?_, fun w u hw hu hbad => ?_, fun w u hw hu hok => ?_⟩
  · show execSwr n a s = _
    unfold execSwr
    rw [Thread.srWrite_none s.th n.val (s.getX a) (hk.symm.trans h)]
  · show execSwr n a s = _
    unfold execSwr
    rw [show s.th.srWrite n.val (s.getX a) = some u from hu]
    exact congrArg _ (if_pos (by simpa using hbad))
  · obtain ⟨u', hu', he⟩ := s.swr_writes n a u hu hok
    obtain ⟨hx, hf, hpc, hiret⟩ := Thread.srWrite_keeps _ _ _ _ hu'
    obtain ⟨-, ⟨hcount, hplain⟩, hout, hbytes⟩ := s.retire_spec 4
    refine ⟨_, he, (s.retire 4).srRead_written _ v w u' hu' (hk.symm.trans hw), fun r => ?_, fun r => ?_, hiret.trans hcount, fun hp => ?_, ?_, hbytes⟩
    · rw [← s.getX_retire 4 r]
      unfold State.getX
      rw [State.setTh_th, hx]
    · rw [← s.getF_retire 4 r]
      unfold State.getF
      rw [State.setTh_th, hf]
    · refine ⟨hpc.trans (hplain hp).1, fun m hm h1 h2 => ?_⟩
      rw [(s.retire 4).srRead_other n.val m v u' hu' hm, s.srRead_retire 4 m hp h1 h2]
    · unfold KeepsOutside at hout ⊢
      rw [hout]
      rfl
end Sys2Proof.Machine
end

section
/-!
PROOF. `yield` and `exit` (O10).
-/
namespace Sys2Proof.Machine
open Sys2Proof

/-- What `yield` does outside an open packet (R19, R88). -/
theorem State.yield_eq (s : State) (h : s.th.packet = none) :
    exec .yield s = .next (((s.dropIcache (coreOf s.th.slot)).seesCode).retire 4) := by
  show execYield s = _
  unfold execYield
  rw [h]
  rfl

/-- A core that has dropped its copies of code has none of a function's (R19). -/
theorem State.find_dropIcache (s : State) (core fn va : Nat) (hf : fn < 129) (hv : va < 2 ^ 56) :
    Tab.find (s.dropIcache core).icache (icKey core fn va) = none := by
  show Tab.find (Tab.dropRange s.icache _ _) _ = none
  rw [Tab.find_dropRange]
  refine if_pos ?_
  unfold icKey
  omega

/-- `yield` in an open packet traps, and else drops the copies of code and retires (R88, R142). -/
theorem yield_clause (s : State) :
    (s.th.packet ≠ none → exec .yield s = .next (s.trapWord 0x12 .yield))
      ∧ (s.th.packet = none → ∃ t, exec .yield s = .next t
        ∧ (∀ fn va, fn < 129 → va < 2 ^ 56 → Tab.find t.icache (icKey (coreOf s.th.slot) fn va) = none)
        ∧ KeepsBesidePc { s.th with codeSeen := s.now } t.th ∧ Retires s t 4 ∧ KeepsBytes s t
        ∧ t = { s with th := t.th, usage := (s.use s.th.ident.vf 0 1).usage, launches := s.launchesCounted, icache := t.icache }) := by
  refine ⟨fun h => ?_, fun h => ?_⟩
  · show execYield s = _
    unfold execYield
    rw [if_pos (Option.isSome_iff_ne_none.2 h)]
  · obtain ⟨hth, hret, hout, hbytes⟩ := ((s.dropIcache (coreOf s.th.slot)).seesCode).retire_spec 4
    refine ⟨_, s.yield_eq h, fun fn va hf hv => ?_, hth, hret, hbytes, ?_⟩
    · rw [State.retire_icache]
      exact s.find_dropIcache _ fn va hf hv
    · unfold KeepsOutside at hout
      rw [hout]
      rfl

/-! ### How a thread leaves its slot -/

/-- Closing a launch changes the launches, the record-store places and the completions alone (R334). -/
theorem State.closeLaunch_frame (s : State) (fn id : Nat) :
    ∃ ls st cs, s.closeLaunch fn id = { s with launches := ls, store := st, completions := cs } := by
  unfold State.closeLaunch
  split
  · exact ⟨_, _, _, rfl⟩
  · split <;> exact ⟨_, _, _, rfl⟩

/-- Finishing a gang changes the gangs, the launches, the record-store places and the completions alone (R126, R138). -/
theorem State.finishGang_frame (s : State) (g : Gang) :
    ∃ gs hs ls st cs, s.finishGang g = { s with gangs := gs, ghosts := hs, launches := ls, store := st, completions := cs } := by
  unfold State.finishGang
  split
  · exact ⟨_, _, _, _, _, rfl⟩
  · dsimp only
    split
    · exact ⟨_, _, _, _, _, rfl⟩
    · split
      · obtain ⟨ls, st, cs, h⟩ := State.closeLaunch_frame _ g.fn g.launch
        exact ⟨_, _, _, _, _, h⟩
      · obtain ⟨ls, st, cs, h⟩ := State.closeLaunch_frame _ g.fn g.launch
        exact ⟨_, _, _, _, _, h⟩

/-- The end of a rank changes what the end of a gang changes (R127). -/
theorem State.endRank_frame (s : State) (i : Ident) (v : Option Int) :
    ∃ gs hs ls st cs, s.endRank i v = { s with gangs := gs, ghosts := hs, launches := ls, store := st, completions := cs } := by
  unfold State.endRank
  split
  · exact ⟨_, _, _, _, _, rfl⟩
  · obtain ⟨gs, hs, ls, st, cs, h⟩ := State.finishGang_frame (s.putGang _) _
    exact ⟨_, _, _, _, _, h⟩

/-- Freeing a slot leaves it idle, its slice zeroed and its use charged, and else changes its cluster's tenant alone (R153, R364). -/
theorem State.freeSlot_frame (s : State) : ∃ us ps ts, s.freeSlot =
    { s with th := Thread.idle, loc := Memory.clear s.loc (s.th.slot * 0x4000) 0x4000, usage := us, locPast := ps, tenants := ts } := by
  unfold State.freeSlot
  dsimp only
  split <;> exact ⟨_, _, _, rfl⟩

/-- The thread at hand ends: it is counted, everything is released, and its commands go on without it (R87, R138). -/
def State.parting (s : State) : State := ((s.count.releasedAll .dev).noteGot).mapOwners (fun o => o.leave s.th)

/-- The state of an `exit` in which the thread's matrix unit has been given back (R87). -/
def State.unitGiven (s : State) : State := if s.ownsUnit s.th.slot then s.releaseUnit (coreOf s.th.slot) else s

/-- The state of an `exit` in which a held arrival at the barrier has been counted for good (R131). -/
def State.arrivalKept (s : State) : State :=
  match s.th.arrived, s.th.depart, s.ownGang with
  | some c, none, some g => s.putGang { g with gone := g.gone ++ [c] }
  | _, _, _ => s

/-- The steps of an `exit` in their order: at the end the claims end, the slot is freed and the value counts for the gang (R87). -/
theorem State.leave_eq (s : State) (v : Word) : s.leave v =
    ((s.parting.unitGiven.arrivalKept.endClaims s.th.ident).freeSlot).endRank s.th.ident (some (sgn 32 (v.toNat % 2 ^ 32))) := rfl

/-- A thread that parts keeps its slot, its arrival, memory and the units. -/
theorem State.parting_keeps (s : State) :
    s.parting.th = s.count.th ∧ s.parting.others = s.others ∧ s.parting.loc = s.loc ∧ s.parting.mem = s.mem ∧ s.parting.units = s.units := by
  refine ⟨?_, ?_, ?_, ?_, ?_⟩
  · exact s.count.releasedAll_th .dev
  · exact (s.count.releasedAll_others .dev).trans s.count_others
  · exact (s.count.releasedAll_loc .dev).trans s.count_loc
  · exact (s.count.releasedAll_mem .dev).trans s.count_mem
  · exact (s.count.releasedAll_units .dev).trans s.count_units

/-- Giving the unit back changes the units alone (R225). -/
theorem State.unitGiven_frame (s : State) : s.unitGiven = { s with units := s.unitGiven.units } := by
  unfold State.unitGiven State.releaseUnit
  dsimp only
  split
  · split <;> rfl
  · rfl

/-- A unit that nobody waits for has no owner once it is given back (R225). -/
theorem State.unitGiven_free (s : State) (ho : s.ownsUnit s.th.slot = true) (hw : (s.unitOf (coreOf s.th.slot)).waiters = []) :
    s.unitGiven.unitOf (coreOf s.th.slot) = MatrixUnit.empty := by
  unfold State.unitGiven State.releaseUnit
  dsimp only
  rw [if_pos ho, hw]
  exact Tab.get_put_self _ _ _ _

/-- An owner of the matrix unit that parts leaves it empty, where nobody waits for it (R225). -/
theorem State.unitOf_parting (s : State) (ho : s.ownsUnit s.th.slot = true) (hw : (s.unitOf (coreOf s.th.slot)).waiters = []) :
    s.parting.unitGiven.unitOf (coreOf s.th.slot) = MatrixUnit.empty := by
  obtain ⟨hth, -, -, -, hunits⟩ := s.parting_keeps
  have hslot : s.parting.th.slot = s.th.slot := by rw [hth, State.count_th]
  have hunit (c : Nat) : s.parting.unitOf c = s.unitOf c := by unfold State.unitOf; rw [hunits]
  rw [← hslot]
  refine s.parting.unitGiven_free ?_ ?_
  · unfold State.ownsUnit at ho ⊢
    rw [hslot, hunit]
    exact ho
  · rw [hslot, hunit]
    exact hw

/-- Counting an arrival for good changes the gangs alone (R131). -/
theorem State.arrivalKept_frame (s : State) : s.arrivalKept = { s with gangs := s.arrivalKept.gangs } := by
  unfold State.arrivalKept
  split <;> rfl

/-- What an `exit` leaves of the slots, of memory and of the matrix units (R87, R153). -/
theorem State.leave_keeps (s : State) (v : Word) :
    (s.leave v).th = Thread.idle ∧ (s.leave v).others = s.others ∧ (s.leave v).loc = Memory.clear s.loc (s.th.slot * 0x4000) 0x4000
      ∧ (s.leave v).mem = s.mem ∧ (s.leave v).units = s.parting.unitGiven.units := by
  obtain ⟨hth, hothers, hloc, hmem, -⟩ := s.parting_keeps
  rw [State.leave_eq]
  obtain ⟨gs, hs, ls, st, cs, he⟩ := State.endRank_frame ((s.parting.unitGiven.arrivalKept.endClaims s.th.ident).freeSlot) s.th.ident
    (some (sgn 32 (v.toNat % 2 ^ 32)))
  obtain ⟨us, ps, ts, hf⟩ := State.freeSlot_frame (s.parting.unitGiven.arrivalKept.endClaims s.th.ident)
  have hu : (s.parting.unitGiven.arrivalKept.endClaims s.th.ident) = { s.parting with
      units := s.parting.unitGiven.units, gangs := s.parting.unitGiven.arrivalKept.gangs
      nmus := (s.parting.unitGiven.arrivalKept.endClaims s.th.ident).nmus } := by
    unfold State.endClaims State.endClaimsOf
    rw [State.arrivalKept_frame, State.unitGiven_frame]
  rw [he, hf, hu]
  refine ⟨rfl, hothers, ?_, hmem, rfl⟩
  show Memory.clear s.parting.loc (s.parting.th.slot * 0x4000) 0x4000 = _
  rw [hloc, hth, State.count_th]

/-! ### The end of a rank -/

/-- Whether a gang is that of an identity. -/
def gangIs (i : Ident) (g : Gang) : Bool := g.launch == i.launch && g.fn == i.vf && g.gang == i.gang && g.rival == i.rival

theorem State.gangOf_eq (s : State) (i : Ident) : s.gangOf i = s.gangs.find? (gangIs i) := rfl

/-- Changing gangs without their numbers finds the changed gang of an identity. -/
theorem find_gang_map (l : List Gang) (f : Gang → Gang) (i : Ident) (hf : ∀ g, gangIs i (f g) = gangIs i g) :
    (l.map f).find? (gangIs i) = (l.find? (gangIs i)).map f := by
  rw [List.find?_map, show gangIs i ∘ f = gangIs i from funext hf]

/-- A gang that has been replaced is found in its place. -/
theorem State.gangOf_putGang (s : State) (i : Ident) (g h : Gang) (hs : s.gangOf i = some g) (hh : gangIs i h = true) :
    (s.putGang h).gangOf i = some h := by
  have same (k : Gang) : (k.launch == h.launch && k.fn == h.fn && k.gang == h.gang && k.rival == h.rival) = gangIs i k := by
    simp only [gangIs, Bool.and_eq_true, beq_iff_eq] at hh ⊢
    obtain ⟨⟨⟨h1, h2⟩, h3⟩, h4⟩ := hh
    rw [h1, h2, h3, h4]
  have hg : gangIs i g = true := by rw [State.gangOf_eq] at hs; exact List.find?_some hs
  show (s.gangs.map _).find? (gangIs i) = _
  rw [find_gang_map, ← State.gangOf_eq, hs, Option.map_some, same g, if_pos hg]
  intro k
  rw [same k]
  split
  · rename_i hk; rw [hh, hk]
  · rfl

/-- A rank that is not the last to end is noted in its gang, with the least exit value (R127). -/
theorem State.gangOf_endRank (s : State) (i : Ident) (v : Int) (g : Gang) (hs : s.gangOf i = some g) (hn : i.grank ∉ g.ended)
    (hl : g.ended.length + 1 < g.gsize) :
    ∃ g', (s.endRank i (some v)).gangOf i = some g' ∧ g'.ended = g.ended ++ [i.grank] ∧ g'.least = some (min v (g.least.getD v)) := by
  have hg : gangIs i g = true := by rw [State.gangOf_eq] at hs; exact List.find?_some hs
  unfold State.endRank
  rw [hs]
  have hc : g.ended.contains i.grank = false := by simpa using hn
  dsimp only
  unfold State.finishGang
  rw [hc, if_pos (by simpa using hl)]
  refine ⟨_, s.gangOf_putGang i g _ hs hg, rfl, ?_⟩
  cases g.least <;> simp

/-- The gang of a thread that parts is as it was, but for what the thread had been made to see (R138). -/
theorem State.gangOf_parting (s : State) (g : Gang) (hs : s.gangOf s.th.ident = some g) :
    ∃ c, s.parting.gangOf s.th.ident = some { g with got := c } := by
  have hg : s.parting.gangs = s.gangs.map (fun g => if g.has s.parting.th.ident then { g with got := s.parting.th.gotWith g.got } else g) := by
    have h : (s.count.releasedAll .dev).gangs = s.gangs := (s.count.releasedAll_gangs .dev).trans s.count_gangs
    show (s.count.releasedAll .dev).gangs.map _ = _
    rw [h]
    rfl
  rw [State.gangOf_eq] at hs ⊢
  rw [hg, find_gang_map, hs, Option.map_some]
  · split
    · exact ⟨_, rfl⟩
    · exact ⟨g.got, rfl⟩
  · intro k
    split <;> rfl

/-- A thread without an arrival at the barrier, and not the last of its gang, is noted there by its `exit` (R87, R127). -/
theorem State.gangOf_leave (s : State) (v : Word) (g : Gang) (hs : s.gangOf s.th.ident = some g) (ha : s.th.arrived = none)
    (hn : s.th.ident.grank ∉ g.ended) (hl : g.ended.length + 1 < g.gsize) :
    ∃ g', (s.leave v).gangOf s.th.ident = some g' ∧ g'.ended = g.ended ++ [s.th.ident.grank]
      ∧ g'.least = some (min (sgn 32 (v.toNat % 2 ^ 32)) (g.least.getD (sgn 32 (v.toNat % 2 ^ 32)))) := by
  obtain ⟨c, hp⟩ := s.gangOf_parting g hs
  have hk : s.parting.unitGiven.arrivalKept = s.parting.unitGiven := by
    have h : s.parting.unitGiven.th.arrived = none := by
      rw [State.unitGiven_frame]
      show s.parting.th.arrived = none
      rw [s.parting_keeps.1, State.count_th]
      exact ha
    unfold State.arrivalKept
    rw [h]
  obtain ⟨us, ps, ts, hf⟩ := State.freeSlot_frame (s.parting.unitGiven.endClaims s.th.ident)
  rw [State.leave_eq, hk]
  refine State.gangOf_endRank _ s.th.ident _ { g with got := c } ?_ hn hl
  rw [hf]
  show s.parting.unitGiven.gangs.find? _ = _
  rw [State.unitGiven_frame]
  exact hp

/-! ### The instruction -/

/-- `exit` with nothing held and every counter 0 ends the thread (R87). -/
theorem State.exit_leaves (s : State) (a : Reg) (hp : s.th.packet = none) (hw : s.ownWhy = []) (hq : s.quiet = true)
    (ho : s.ownsUnit s.th.slot = false ∨ (s.unitOf (coreOf s.th.slot)).owed = 0) : exec (.exit a) s = .next (s.leave (s.getX a)) := by
  show execExit a s = _
  unfold execExit
  rw [hp, hw]
  dsimp only
  rw [if_neg (by decide)]
  refine congrArg _ (if_neg ?_)
  rcases ho with ho | ho <;> simp [hq, ho]

/-- Settles O10: `yield` by `yield_clause`, and of `exit` what `State.leave` keeps and what it notes in the gang. -/
theorem yieldAndExit : Obligations.YieldAndExit := by
  refine ⟨yield_clause, ?_⟩
  intro s a unit
  refine ⟨fun hp => ?_, fun hp hw hq => ?_, fun hp hw hq ho => ?_⟩
  · show execExit a s = _
    unfold execExit
    rw [if_pos (Option.isSome_iff_ne_none.2 hp)]
  · show execExit a s = _
    unfold execExit
    rw [hp, hw]
    dsimp only
    rw [if_neg (by decide)]
    refine congrArg _ (if_pos ?_)
    simp [hq]
  · obtain ⟨hth, hothers, hloc, hmem, hunits⟩ := s.leave_keeps (s.getX a)
    refine ⟨_, s.exit_leaves a hp hw hq ho, hth, hothers, fun j => ?_, fun j => by rw [hmem], fun hown hwait => ?_,
      fun g hg harr hn hl => s.gangOf_leave (s.getX a) g hg harr hn hl⟩
    · rw [hloc, Memory.read_clear]
      rfl
    · unfold State.unitOf
      rw [hunits]
      exact congrArg MatrixUnit.owner (s.unitOf_parting hown hwait)

end Sys2Proof.Machine
end

section
/-!
PROOF. Global accesses issue (O19).
-/
namespace Sys2Proof.Machine
open Sys2Proof

/-- A release changes what is remembered of writes, and the stamps, alone (R187). -/
theorem State.released_frame (s : State) (o : Order) :
    s.released o = { s with locPast := (s.released o).locPast, memPast := (s.released o).memPast, now := (s.released o).now } := by
  cases o <;> rfl

/-- Where a release has nothing to wait for, an access goes on behind it at once (R166, R353). -/
theorem State.afterRelease_go (s : State) (o : Order) (f : State → State) (h : s.MayRelease o) : s.afterRelease o f = f (s.released o) := by
  rcases h with rfl | ⟨⟨hacc, hheld⟩, hsys⟩
  · rfl
  · unfold State.afterRelease
    split
    · subst_vars; rfl
    · exact s.releaseTo_go o _ f (s.releaseWait_go hheld hacc) hsys

/-- A release waits while an earlier access is in flight and nothing is held (R166). -/
theorem State.afterRelease_stall (s : State) (o : Order) (f : State → State) (ho : o ≠ .plain) (hheld : s.th.held = []) (hne : s.th.acc ≠ [])
    (hfree : ∀ c ∈ s.th.acc, c.stuck = none) : s.afterRelease o f = s.stall.inRelease o := by
  have hw : s.releaseWait = .stall := by
    unfold State.releaseWait
    rw [s.ownWhy_nil hheld hfree]
    obtain ⟨c, r, hc⟩ := List.exists_cons_of_ne_nil hne
    have hs : c.stuck = none := hfree c (hc ▸ List.mem_cons_self)
    simp [hc, hs]
  unfold State.afterRelease
  rw [if_neg ho]
  exact s.releaseTo_stall o _ f hw

/-- A thread with no acquire in flight and its counters below their limits may issue any access (R166, R176). -/
theorem State.mayIssue_of (s : State) (op : AccOp) (ha : s.th.acquiring = false) (hl : s.counter s.th .lc < 16) (hs : s.counter s.th .sc < 32) :
    s.mayIssue op = true := by
  unfold State.mayIssue
  simp [ha, hl, hs]

/-- An aligned address in the address space passes the precise checks (R15). -/
theorem globalCheck_none {va m : Nat} (hm : va % m = 0) (hv : va < 2 ^ 56) : globalCheck va m = none := by
  unfold globalCheck
  rw [if_neg (not_not_intro hm), if_neg (Nat.not_le.2 hv)]

theorem globalCheck_misaligned {va m : Nat} (hm : va % m ≠ 0) : globalCheck va m = some (0x04, va) := if_pos hm

theorem globalCheck_outside {va m : Nat} (hm : va % m = 0) (hv : 2 ^ 56 ≤ va) : globalCheck va m = some (0x07, va) := by
  unfold globalCheck
  rw [if_neg (not_not_intro hm), if_pos hv]

/-- The state in which an access has joined those in flight, as the last in program order (R84). -/
def State.joined (s : State) (a : Access) : State := { s with th := { s.th with acc := s.th.acc ++ [a], seq := s.th.seq + 1 } }

theorem State.issue_eq (s : State) (a : Access) (named : List Reg) :
    s.issue a named = ((s.joined { a with hand := s.th.uact, seq := s.th.seq }).advanceStreams named).retire 4 := rfl

/-- An access that issues behind a release joins the accesses in flight, and its instruction retires (R84). -/
theorem State.issue_issues (s : State) (o : Order) (op : AccOp) (va : Nat) (scope : Order) (acq : Bool) (reg : Reg) (data : LaneReg) (cmp : Word)
    (named : List Reg) (hn : s.Unbound named) (ha : s.th.acquiring = false) (hl : s.counter s.th .lc < 16) (hs : s.counter s.th .sc < 32) :
    Issues s (.next ((s.released o).issueWhenFree (Access.of op va scope acq reg data cmp) named)) o
      (accessOf op va scope acq reg data cmp s) := by
  have hr := s.released_frame o
  have hrth : (s.released o).th = s.th := by rw [hr]
  have hm : (s.released o).mayIssue op = true := by
    rw [hr]
    exact s.mayIssue_of op ha hl hs
  have hi : (s.released o).issueWhenFree (Access.of op va scope acq reg data cmp) named
      = ((s.released o).joined (accessOf op va scope acq reg data cmp s)).retire 4 := by
    unfold State.issueWhenFree
    rw [show (Access.of op va scope acq reg data cmp).op = op from rfl, if_pos hm, State.issue_eq, hrth]
    exact congrArg (State.retire · 4) (State.advanceStreams_unbound _ _ (State.unbound_of_streams s _ named (by show (s.released o).th.streams = _; rw [hrth]) hn))
  rw [hi]
  obtain ⟨hth, ⟨hiret, hplain⟩, hout, hbytes⟩ := ((s.released o).joined (accessOf op va scope acq reg data cmp s)).retire_spec 4
  generalize ((s.released o).joined (accessOf op va scope acq reg data cmp s)).retire 4 = t at *
  have hj : ((s.released o).joined (accessOf op va scope acq reg data cmp s)).th =
      { s.th with acc := s.th.acc ++ [accessOf op va scope acq reg data cmp s], seq := s.th.seq + 1 } := by
    unfold State.joined
    rw [hrth]
  have hacc : t.th.acc = s.th.acc ++ [accessOf op va scope acq reg data cmp s] ∧ t.th.seq = s.th.seq + 1 := by
    rw [hth, hj]
    exact ⟨rfl, rfl⟩
  refine ⟨t, rfl, hacc.1, hacc.2, ?_, ⟨?_, ?_⟩, ?_, ?_⟩
  · rw [hacc.1, hacc.2, ← hj]
    exact hth
  · rw [hiret, hj]
  · intro hp
    unfold State.pcPlus at hplain
    rw [hj] at hplain
    exact hplain hp
  · exact hout
  · intro a
    obtain ⟨h1, h2⟩ := hbytes a
    rw [h1, h2]
    exact ⟨congrArg (Memory.read · a) (s.released_mem o), congrArg (Memory.read · a) (s.released_loc o)⟩

/-- An access that may issue and whose release has nothing to wait for issues (R84, R166). -/
theorem State.release_issues (s : State) (o : Order) (op : AccOp) (va : Nat) (scope : Order) (acq : Bool) (reg : Reg) (cmp : Word)
    (named : List Reg) (data : State → LaneReg) (hd : data (s.released o) = data s) (hm : s.MayRelease o) (hn : s.Unbound named)
    (hready : s.th.acquiring = false ∧ s.counter s.th .lc < 16 ∧ s.counter s.th .sc < 32) :
    Issues s (.next (s.afterRelease o (fun s => s.issueWhenFree (Access.of op va scope acq reg (data s) cmp) named))) o
      (accessOf op va scope acq reg (data s) cmp s) := by
  obtain ⟨ha, hl, hs⟩ := hready
  rw [s.afterRelease_go o _ hm, hd]
  exact s.issue_issues o op va scope acq reg (data s) cmp named hn ha hl hs

/-- A release leaves the x registers. -/
@[simp] theorem State.getX_released (s : State) (o : Order) (r : Reg) : (s.released o).getX r = s.getX r := by
  unfold State.getX
  rw [State.released_th]

/-- A global atomic of an aligned address in the address space issues (R171). -/
theorem State.atomic_issues (s : State) (op : AccOp) (q : AtomOrder) (d a b : Reg)
    (hready : s.th.acquiring = false ∧ s.counter s.th .lc < 16 ∧ s.counter s.th .sc < 32)
    (hal : (s.getX a).toNat % op.bytes = 0) (hv : (s.getX a).toNat < 2 ^ 56) (hm : s.MayRelease (if atomAcqrel q then atomScope q else .plain)) :
    Issues s (.next (s.atomic op q d a b)) (if atomAcqrel q then atomScope q else .plain)
      (accessOf op (s.getX a).toNat (atomScope q) (atomAcqrel q) d ((s.getX b).setWidth 256) (s.getX d) s) := by
  unfold State.atomic
  dsimp only
  rw [globalCheck_none hal hv]
  dsimp only
  rw [s.afterRelease_go _ _ hm, State.getX_released, State.getX_released]
  obtain ⟨ha, hl, hs⟩ := hready
  exact s.issue_issues _ op _ _ _ d _ _ [] (by intro r hr; cases hr) ha hl hs

/-- A scalar access is aligned to its own size. -/
theorem scalar_align (z : Size) (va : Nat) (h : va % (if sizeBytes z = 32 then 2 else sizeBytes z) = 0) : va % sizeBytes z = 0 := by
  rwa [if_neg (by cases z <;> decide)] at h

/-- An f register that no stream is bound to is named against no direction, and its block is nowhere (R95, R111). -/
theorem State.unbound_one (s : State) (d : Reg) (h : s.streamOf d = none) : s.Unbound [d] := by
  intro r hr
  rw [List.mem_singleton.1 hr]
  exact h

theorem State.unbound_nil (s : State) : s.Unbound [] := fun _ h => nomatch h

/-- A scalar access that does not pass the precise checks traps (R15, R83). -/
theorem State.scalar_traps (s : State) (o : Order) (z : Size) (sg : Bool) (d a : Reg) (i : BitVec 10) (c q : Nat)
    (h : globalCheck (s.address a i (sizeBytes z)) (sizeBytes z) = some (c, q)) :
    exec (.ldg o z sg d a i) s = .next (s.trap c q) ∧ exec (.stg o z d a i) s = .next (s.trap c q) := by
  refine ⟨?_, ?_⟩
  · show execLdg o z sg d a i s = _
    unfold execLdg
    dsimp only
    rw [h]
  · show execStg o z d a i s = _
    unfold execStg
    dsimp only
    rw [h]

/-- Settles O19: each instruction's checks pass, and the access issues behind its release by `State.release_issues`. -/
theorem globalAccessIssue : Obligations.GlobalAccessIssue := by
  intro s o z sg d a b i q w n va ready fits scope both at' atomic
  have hscope : scope = atomScope q := by cases q <;> rfl
  have hboth : both = atomAcqrel q := by cases q <;> rfl
  refine ⟨?_, ?_, ?_, ?_, ?_, ?_, ?_, ?_⟩
  · intro hready ⟨hal, hv⟩
    obtain ⟨ha, hl, hs⟩ := hready
    show Issues s (execLdg o z sg d a i s) _ _
    unfold execLdg State.address
    dsimp only
    rw [globalCheck_none (scalar_align z _ hal) hv]
    exact s.issue_issues .plain (.ld z sg) (va n) o (o != .plain) d 0 0 [] s.unbound_nil ha hl hs
  · intro hready ⟨hal, hv⟩ hm
    show Issues s (execStg o z d a i s) _ _
    unfold execStg State.address
    dsimp only
    rw [globalCheck_none (scalar_align z _ hal) hv]
    exact s.release_issues o (.st z) (va n) o false d 0 [] (fun s => (s.getX d).setWidth 256) (by simp) hm s.unbound_nil hready
  · intro hready ⟨hal, hv⟩ hd hsplit
    obtain ⟨ha, hl, hs⟩ := hready
    have hu := s.unbound_one d hd
    show Issues s (execLdgV o d a i s) _ _
    unfold execLdgV State.address
    dsimp only
    rw [s.wrongWay_unbound [] [d] s.unbound_nil hu, globalCheck_none (m := 2) hal hv, s.blockFault_unbound [d] hu]
    dsimp only
    rw [if_neg (Bool.eq_false_iff.1 hsplit)]
    exact s.issue_issues .plain .ldv (va 32) o (o != .plain) d 0 0 [] s.unbound_nil ha hl hs
  · intro hready ⟨hal, hv⟩ hd hsplit hm
    have hu := s.unbound_one d hd
    show Issues s (execStgV o d a i s) _ _
    unfold execStgV State.address
    dsimp only
    rw [s.wrongWay_unbound [d] [] hu s.unbound_nil, globalCheck_none (m := 2) hal hv, s.blockFault_unbound [d] hu]
    dsimp only
    rw [if_neg (Bool.eq_false_iff.1 hsplit)]
    have hop (t : State) (ht : t.th = s.th) : t.operand d = s.getF d := by
      rw [State.operand_unbound t d (by unfold State.streamOf at hd ⊢; rw [ht]; exact hd)]
      unfold State.getF
      rw [ht]
    have h := s.release_issues o .stv (va 32) o false d 0 [d] (fun s => s.operand d) ((hop _ (s.released_th o)).trans (hop s rfl).symm) hm hu hready
    rwa [hop s rfl] at h
  · intro hready hal hv hm
    rw [hscope, hboth] at hm
    have hissue (j : Instr) (op : AccOp) (hj : exec j s = .next (s.atomic op q d a b)) (hop : op.bytes = if w then 8 else 4) : atomic j op := by
      show Issues s (exec j s) (if both then scope else .plain) (accessOf op at' scope both d ((s.getX b).setWidth 256) (s.getX d) s)
      rw [hj, hscope, hboth]
      exact s.atomic_issues op q d a b hready (by rw [hop]; exact hal) hv hm
    exact ⟨hissue _ _ rfl rfl, hissue _ _ rfl rfl, hissue _ _ rfl rfl, hissue _ _ rfl rfl, hissue _ _ rfl rfl, hissue _ _ rfl rfl,
      hissue _ _ rfl rfl, hissue _ _ rfl rfl, hissue _ _ rfl rfl, hissue _ _ rfl rfl⟩
  · exact fun hal => s.scalar_traps o z sg d a i _ _ (globalCheck_misaligned hal)
  · exact fun hal hv => s.scalar_traps o z sg d a i _ _ (globalCheck_outside hal hv)
  · intro ⟨hal, hv⟩ ho hheld hne hfree
    show execStg o z d a i s = _
    unfold execStg State.address
    dsimp only
    rw [globalCheck_none (scalar_align z _ hal) hv]
    dsimp only
    rw [s.afterRelease_stall o _ ho hheld hne hfree]

end Sys2Proof.Machine
end

section
/-!
PROOF. Upcalls at a boundary, and notices that waited (O53).
-/
namespace Sys2Proof.Machine
open Sys2Proof

/-- The thread at hand stays at hand. -/
theorem State.focus_self (s : State) (hb : s.th.bound = true) : s.focus s.th.slot = s := if_pos ⟨rfl, hb⟩

theorem State.threadAt_self (s : State) (hb : s.th.bound = true) : s.threadAt s.th.slot = some s.th := if_pos ⟨rfl, hb⟩

theorem State.putThread_self (s : State) (t : Thread) (hb : s.th.bound = true) (ht : t.slot = s.th.slot) : s.putThread t = { s with th := t } :=
  if_pos ⟨ht.symm, hb⟩

/-! ### Upcalls -/

/-- The event takes what is due where its thread runs, and nothing else (R20). -/
theorem State.upcallDelivery_eq (s : State) (hb : s.th.bound = true) (hu : s.ev.unit = s.th.slot) :
    exec .upcallDelivery s = .next (if s.th.phase == .running && s.th.ixReq.isNone && s.th.redo.isEmpty && s.boundaryDue then s.boundary else s) := by
  show execUpcallDelivery s = _
  unfold execUpcallDelivery
  simp only [hu, s.focus_self hb, hb, beq_self_eq_true, Bool.true_and]

/-- The delivery of a cause leaves the notices, and ends a wait in `swwait` (R22). -/
theorem State.deliver_waits (s : State) (a : Word) (cause : Nat) (tval : Word) (records parked : Bool) :
    (s.deliver a cause tval records parked).th.notices = s.th.notices ∧ (s.deliver a cause tval records parked).th.swWait = none := by
  unfold State.deliver
  dsimp only
  obtain ⟨m, h⟩ := State.writeLoc_frame s.th.owner (faultRecord s.th a cause tval records parked) s s.th.usave.toNat
  rw [h]
  exact ⟨rfl, rfl⟩

/-- Outside a handler, with no packet open and no wait to give up, a cause that is not reported is delivered (R21, R22). -/
theorem State.upcall_delivers (s : State) (a : Word) (cause : Nat) (tval : Word) (records : Bool) (hp : s.th.packet = none)
    (hm : s.th.mownWait = false) (hq : s.th.mma = none) (hr : s.reported cause = false) :
    s.upcall a cause tval records = s.deliver a cause tval records (s.th.held.any (·.parked)) := by
  have h := s.upcall_cases a cause tval records
  rw [s.abortPacket_spec.2 hp, s.leaveMown_spec.2 hm, s.leaveMma_spec.2 hq] at h
  rcases h with ⟨hb, -⟩ | ⟨-, h⟩
  · exact (Bool.false_ne_true (hr ▸ hb)).elim
  · exact h

/-- What a cause that is delivered leaves in the thread and in memory (R22). -/
theorem State.upcall_enters (s : State) (cause : Nat) (tval : Word) (records : Bool) (hp : s.th.packet = none) (hm : s.th.mownWait = false)
    (hq : s.th.mma = none) (hr : s.reported cause = false) :
    let u := s.upcall s.th.pc cause tval records
    u.th.uact = true ∧ u.th.epc = s.th.pc ∧ u.th.cause = BitVec.ofNat 64 cause ∧ u.th.tval = tval ∧ u.th.pc = pcBits s.th.uvec
      ∧ u.th.notices = s.th.notices ∧ u.th.x = s.th.x ∧ u.th.f = s.th.f ∧ u.th.iret = s.th.iret ∧ u.th.swWait = none ∧ u.mem = s.mem := by
  dsimp only
  rw [s.upcall_delivers _ _ _ _ hp hm hq hr]
  obtain ⟨hepc, hcause, htval, huact, hpc, -, -, hx, hf, -, hiret, hmem, -⟩ := s.deliver_spec s.th.pc cause tval records (s.th.held.any (·.parked))
  obtain ⟨hnotices, hwait⟩ := s.deliver_waits s.th.pc cause tval records (s.th.held.any (·.parked))
  exact ⟨huact, hepc, hcause, htval, hpc, hnotices, hx, hf, hiret, hwait, hmem⟩

/-- Nothing is due in a handler, or with every record parked and no notice (R20). -/
theorem Thread.due_false (t : Thread) (h : t.uact = true ∨ ((∀ g ∈ t.held, g.parked = true) ∧ t.notices = [])) : t.due = false := by
  unfold Thread.due
  rcases h with h | ⟨h, hn⟩
  · simp [h]
  · have : t.held.any (fun h => !h.parked) = false := by
      rw [List.any_eq_false]
      intro g hg
      simp [h g hg]
    simp [this, hn]

/-! ### Notices that waited -/

/-- An arrival changes local memory alone (R180). -/
theorem State.arrive_frame (s : State) (o : Owner) (la n : Nat) (err : Bool) : ∃ m, s.arrive o la n err = { s with loc := m } := by
  unfold State.arrive
  split
  · exact ⟨s.loc, rfl⟩
  · split
    · exact (State.arriveKey_frame _ _ _ _).1
    · exact ⟨s.loc, rfl⟩

/-- What completes with a notice changes neither the thread at hand nor physical memory (R302). -/
theorem State.noticed_keeps (s : State) (slot : Nat) (w : Word) : (s.noticed slot w).th = s.th ∧ (s.noticed slot w).mem = s.mem := by
  unfold State.noticed State.drainFailed
  dsimp only
  split
  · split
    · obtain ⟨m, h⟩ := State.arrive_frame { s with copyQ := Tab.put s.copyQ (coreOf slot) ((s.copyQueue (coreOf slot)).erase _) } _ _ 0 true
      rw [h]
      exact ⟨rfl, rfl⟩
    · exact ⟨rfl, rfl⟩
  · split
    · split
      · obtain ⟨m, h⟩ := State.arrive_frame (s.putUnit (coreOf slot) { s.unitOf (coreOf slot) with reqs := [], row := 0, gen := none, fail := none }) _
          (s.unitOf (coreOf slot)).sync 0 true
        rw [h]
        exact ⟨rfl, rfl⟩
      · exact ⟨rfl, rfl⟩
    · exact ⟨rfl, rfl⟩
  · split <;> exact ⟨rfl, rfl⟩
  · exact ⟨rfl, rfl⟩

/-- The copy that waited at the head of its core's queue with a notice leaves the queue once that is posted (R218). -/
theorem State.noticed_copy (s : State) (w : Word) (c : CopyCmd) (q : List CopyCmd) (hb : s.th.bound = true) (hw : fld w.toNat 12 3 = 1)
    (hq : s.copyQueue (coreOf s.th.slot) = c :: q) (hf : c.fail = some w) (hi : c.owner.ident = s.th.ident) (hl : c.owner.lost = false) :
    (s.noticed s.th.slot w).copyQueue (coreOf s.th.slot) = q := by
  have hc : (c.fail == some w && (s.threadAt s.th.slot).any (fun t => c.owner.isOf t)) = true := by
    rw [s.threadAt_self hb]
    simp [hf, Owner.isOf, hi, hl]
  have hfind : (c :: q).find? (fun c => c.fail == some w && (s.threadAt s.th.slot).any (fun t => c.owner.isOf t)) = some c :=
    List.find?_cons_of_pos hc
  unfold State.noticed
  simp only [hw, hq, hfind]
  obtain ⟨m, h⟩ := State.arrive_frame { s with copyQ := Tab.put s.copyQ (coreOf s.th.slot) ((c :: q).erase c) } c.owner c.sw 0 true
  rw [h, List.erase_cons_head]
  exact Tab.get_put_self _ _ _ _

/-- The thread at hand once the oldest notice that waited has a place (R302). -/
def Thread.posted (t : Thread) (w : Word) (r : List Word) : Thread := { t with notices := t.notices ++ [w], heldNotices := r, stalled := false }

/-- The event posts the oldest notice that waits, once a place is free (R302). -/
theorem State.heldNoticePost_posts (s : State) (w : Word) (r : List Word) (hb : s.th.bound = true) (hu : s.ev.unit = s.th.slot)
    (hw : s.th.heldNotices = w :: r) (hn : s.th.notices.length < 16) :
    exec .heldNoticePost s = .next (State.noticed { s with th := s.th.posted w r } s.th.slot w) := by
  show execHeldNoticePost s = _
  unfold execHeldNoticePost
  rw [hu, s.threadAt_self hb]
  dsimp only
  rw [hw]
  dsimp only
  rw [if_neg (by omega)]
  exact congrArg (fun u => Host.Outcome.next (State.noticed u s.th.slot w)) (s.putThread_self (s.th.posted w r) hb rfl)

/-- With every place taken, the event leaves all as it is (R302). -/
theorem State.heldNoticePost_full (s : State) (hb : s.th.bound = true) (hu : s.ev.unit = s.th.slot) (hn : 16 ≤ s.th.notices.length) :
    exec .heldNoticePost s = .next s := by
  show execHeldNoticePost s = _
  unfold execHeldNoticePost
  rw [hu, s.threadAt_self hb]
  dsimp only
  split
  · rfl
  · rw [if_pos hn]

/-- At a boundary outside a handler, an unparked record raises the upcall of the first record held (R20, R296). -/
theorem State.boundary_record (s : State) (h : Held) (r : List Held) (hu : s.th.uact = false) (hany : s.th.held.any (fun h => !h.parked) = true)
    (hh : s.th.held = h :: r) : s.boundary = s.upcall s.th.pc h.cause (BitVec.ofNat 64 h.va) true := by
  unfold State.boundary State.upcallRecords
  rw [hu, if_neg (by decide), if_pos hany, hh]

/-- At a boundary outside a handler with every record parked, the oldest notice leaves the queue and raises 0x16 (R20, R302). -/
theorem State.boundary_notice (s : State) (w : Word) (r : List Word) (hu : s.th.uact = false) (hany : s.th.held.any (fun h => !h.parked) = false)
    (hn : s.th.notices = w :: r) : s.boundary = State.upcall { s with th := { s.th with notices := r } } s.th.pc 0x16
      (w ||| 0x8000#64 ||| (if r = [] then 0 else 0x200#64)) false := by
  have hb : s.boundary = s.upcallNotice := by
    unfold State.boundary
    rw [if_neg (Bool.eq_false_iff.1 hu), if_neg (Bool.eq_false_iff.1 hany)]
  rw [hb]
  unfold State.upcallNotice Thread.noticeWord
  rw [hn]
  simp only [List.isEmpty_iff]

/-- Settles O53: what is due by `State.boundary_record` and `State.boundary_notice`, what taking it leaves by `State.upcall_enters`, and the
posting by `State.heldNoticePost_posts`. -/
theorem upcallsAndNotices : Obligations.UpcallsAndNotices := by
  intro s hb hu t able enters
  have hidle (h : t.due = false) : exec .upcallDelivery s = .next s := by
    rw [s.upcallDelivery_eq hb hu, if_neg (by rw [show s.boundaryDue = false from h]; simp)]
  have hdue (ha : able) (hany : (t.held.any (fun h => !h.parked) || !t.notices.isEmpty) = true) : exec .upcallDelivery s = .next s.boundary := by
    obtain ⟨hphase, hix, hredo, huact, hpacket, hmown, hmma, hlatched⟩ := ha
    have hd : s.boundaryDue = true := by
      show t.due = true
      unfold Thread.due Thread.pinned
      rw [hany, huact, beq_eq_false_iff_ne.2 hlatched]
      rfl
    rw [s.upcallDelivery_eq hb hu, if_pos]
    rw [show s.th.phase = .running from hphase, show s.th.ixReq = none from hix, show s.th.redo = [] from hredo, hd]
    rfl
  refine ⟨?_, ?_, ?_, ?_, ?_, s.heldNoticePost_full hb hu⟩
  · intro h r ha hheld hpark hr
    have hany : t.held.any (fun h => !h.parked) = true := by
      obtain ⟨g, hg, hgp⟩ := hpark
      exact List.any_eq_true.2 ⟨g, hg, by simp [hgp]⟩
    have hd := hdue ha (by rw [hany]; rfl)
    obtain ⟨-, -, -, huact, hpacket, hmown, hmma, -⟩ := ha
    exact ⟨_, hd.trans (congrArg _ (s.boundary_record h r huact hany hheld)), s.upcall_enters h.cause _ true hpacket hmown hmma hr⟩
  · intro w r ha hpark hn hr
    have hany : t.held.any (fun h => !h.parked) = false := List.any_eq_false.2 fun g hg => by simp [hpark g hg]
    have hd := hdue ha (by rw [hn]; simp)
    obtain ⟨-, -, -, huact, hpacket, hmown, hmma, -⟩ := ha
    exact ⟨_, hd.trans (congrArg _ (s.boundary_notice w r huact hany hn)),
      State.upcall_enters { s with th := { t with notices := r } } 0x16 _ false hpacket hmown hmma hr⟩
  · exact fun hpark hn => hidle (t.due_false (.inr ⟨hpark, hn⟩))
  · exact fun huact => hidle (t.due_false (.inl huact))
  · intro w r hw hn
    obtain ⟨hth, hmem⟩ := State.noticed_keeps { s with th := t.posted w r } s.th.slot w
    refine ⟨_, s.heldNoticePost_posts w r hb hu hw hn, hth, hmem, fun c q hk hq hf hi hl => ?_⟩
    exact State.noticed_copy { s with th := t.posted w r } w c q hb hk hq hf hi hl

end Sys2Proof.Machine
end

section
/-!
PROOF. Keys and stored bytes of local memory, and what a thread sees of its own stores (O22).
-/
namespace Sys2Proof.Machine
open Sys2Proof

/-! ### Keys of local memory -/

/-- The bytes of one word of local memory have the keys of one word. -/
theorem locKey_word {slot : Nat} {grant : List Nat} {a j : Nat} (h : locKey slot grant a = some j) :
    a % 8 = j % 8 ∧ locKey slot grant (a / 8 * 8) = some (j / 8 * 8) := by
  have low : ∀ {b k : Nat}, 8 ∣ b → 8 ∣ k → k ≤ a → j = b + (a - k) → a % 8 = j % 8 ∧ b + (a / 8 * 8 - k) = j / 8 * 8 := by
    intro b k ⟨b', hb⟩ ⟨k', hk⟩ _ _
    omega
  unfold locKey at h ⊢
  by_cases h0 : a < 0x4000
  · rw [if_pos h0, Option.some.injEq] at h
    rw [if_pos (by omega : a / 8 * 8 < 0x4000), Option.some.injEq]
    omega
  rw [if_neg h0] at h
  rw [if_neg (by omega : ¬a / 8 * 8 < 0x4000)]
  by_cases h1 : 0x10000 ≤ a ∧ a < 0x70000
  · rw [if_pos h1, Option.some.injEq] at h
    rw [if_pos (by omega : 0x10000 ≤ a / 8 * 8 ∧ a / 8 * 8 < 0x70000), Option.some.injEq]
    omega
  rw [if_neg h1] at h
  rw [if_neg (by omega : ¬(0x10000 ≤ a / 8 * 8 ∧ a / 8 * 8 < 0x70000))]
  by_cases h2 : 0x1000000 ≤ a ∧ a < 0x1200000
  · rw [if_pos h2, Option.some.injEq] at h
    rw [if_pos (by omega : 0x1000000 ≤ a / 8 * 8 ∧ a / 8 * 8 < 0x1200000), Option.some.injEq]
    omega
  rw [if_neg h2] at h
  rw [if_neg (by omega : ¬(0x1000000 ≤ a / 8 * 8 ∧ a / 8 * 8 < 0x1200000))]
  by_cases h3 : 0x10000000 ≤ a
  · rw [if_pos h3] at h
    rw [if_pos (by omega : 0x10000000 ≤ a / 8 * 8), (by omega : (a / 8 * 8 - 0x10000000) / 65536 = (a - 0x10000000) / 65536)]
    generalize grant[(a - 0x10000000) / 65536]? = g at h ⊢
    cases g with
    | none => cases h
    | some u =>
      dsimp only at h ⊢
      rw [Option.some.injEq] at h ⊢
      omega
  · rw [if_neg h3] at h
    cases h

/-- The level that holds a local address gives its key (R126, R159, R160). -/
theorem locKey_cases {slot : Nat} {grant : List Nat} {a j : Nat} (h : locKey slot grant a = some j) :
    (a < 0x4000 ∧ j = slot * 0x4000 + a)
      ∨ (0x10000 ≤ a ∧ a < 0x70000 ∧ j = 0x100000000 + coreOf slot * 0x60000 + (a - 0x10000))
      ∨ (0x1000000 ≤ a ∧ a < 0x1200000 ∧
        j = 0x100000000 + (clusterOf slot * 8 + (a - 0x1000000) / 0x40000) * 0x60000 + 0x20000 + (a - 0x1000000) % 0x40000)
      ∨ (0x10000000 ≤ a ∧ ∃ u, j = 0x10000000000 + (dieOf slot * 768 + u) * 65536 + a % 65536) := by
  unfold locKey at h
  split at h
  next h0 => exact .inl ⟨h0, (Option.some.inj h).symm⟩
  next =>
    split at h
    next h1 => exact .inr (.inl ⟨h1.1, h1.2, (Option.some.inj h).symm⟩)
    next =>
      split at h
      next h2 => exact .inr (.inr (.inl ⟨h2.1, h2.2, (Option.some.inj h).symm⟩))
      next =>
        split at h
        next h3 =>
          split at h
          next u _ => exact .inr (.inr (.inr ⟨h3, u, (Option.some.inj h).symm⟩))
          next => cases h
        next => cases h

/-- Two local addresses less than the gap between two levels apart name different bytes. -/
theorem locKey_inj {slot : Nat} {grant : List Nat} {a b j : Nat} (ha : locKey slot grant a = some j) (hb : locKey slot grant b = some j)
    (hab : a < b + 0x4000) (hba : b < a + 0x4000) : a = b := by
  rcases locKey_cases ha with ha | ha | ha | ⟨ha, u, hu⟩ <;> rcases locKey_cases hb with hb | hb | hb | ⟨hb, v, hv⟩ <;> omega

/-- Every byte of a run that lies in one level has a key (R85). -/
theorem locKey_of_inside {slot : Nat} {grant : List Nat} {la n k : Nat} (h : firstOutside grant la n = none) (hk : k < n) :
    ∃ j, locKey slot grant (la + k) = some j := by
  unfold firstOutside at h
  generalize hl : levelOf grant la = l at h
  cases l with
  | none => cases h
  | some p =>
    obtain ⟨lo, len⟩ := p
    dsimp only at h
    have hin : la + n ≤ lo + len := by
      by_contra hc
      rw [if_neg hc] at h
      cases h
    unfold levelOf at hl
    unfold locKey
    split at hl
    next =>
      cases hl
      exact ⟨_, if_pos (by omega)⟩
    next =>
      split at hl
      next =>
        cases hl
        rw [if_neg (by omega)]
        exact ⟨_, if_pos (by omega)⟩
      next =>
        split at hl
        next =>
          cases hl
          rw [if_neg (by omega), if_neg (by omega)]
          exact ⟨_, if_pos (by omega)⟩
        next =>
          split at hl
          next =>
            cases hl
            rw [if_neg (by omega), if_neg (by omega), if_neg (by omega), if_pos (by omega), List.getElem?_eq_getElem (by omega)]
            exact ⟨_, rfl⟩
          next => cases hl

/-- A local access without a fault lies in one level. -/
theorem State.inside_of_localFault {s : State} {o : Owner} {la n : Nat} (h : s.localFault o la n = none) :
    firstOutside (s.grantOf o.ident) la n = none := by
  unfold State.localFault at h
  split at h
  next => cases h
  next h0 => exact h0

/-! ### Stored bytes -/

/-- The bytes that lie in no level but those of the string stand; the string's own read back. -/
theorem State.read_writeLoc (o : Owner) (bs : List Byte) : ∀ (s : State) (la : Nat), Memory.wf s.loc = true → bs.length < 0x4000 →
    (∀ k < bs.length, ∀ j, locKey o.slot (s.grantOf o.ident) (la + k) = some j → Memory.read (s.writeLoc o la bs).loc j = bs.getD k 0)
      ∧ ∀ j, (∀ k < bs.length, locKey o.slot (s.grantOf o.ident) (la + k) ≠ some j) →
        Memory.read (s.writeLoc o la bs).loc j = Memory.read s.loc j := by
  induction bs with
  | nil => exact fun s la _ _ => ⟨fun k hk => absurd hk (Nat.not_lt_zero k), fun j _ => rfl⟩
  | cons b r ih =>
    intro s la hwf hlen
    have hlen' : r.length + 1 < 0x4000 := hlen
    have hgrant : (s.writeLoc1 o la b).grantOf o.ident = s.grantOf o.ident := by
      unfold State.writeLoc1
      split <;> rfl
    have h1 : Memory.wf (s.writeLoc1 o la b).loc = true ∧ ∀ j, Memory.read (s.writeLoc1 o la b).loc j =
        if locKey o.slot (s.grantOf o.ident) la = some j then b else Memory.read s.loc j := by
      unfold State.writeLoc1
      split
      next k hk =>
        refine ⟨Memory.wf_write _ _ _ hwf, fun j => ?_⟩
        rw [hk, Memory.read_write _ _ _ _ hwf]
        simp [eq_comm]
      next hk => exact ⟨hwf, fun j => by rw [hk, if_neg (by simp)]⟩
    obtain ⟨hwf1, hread⟩ := h1
    obtain ⟨hin, hout⟩ := ih (s.writeLoc1 o la b) (la + 1) hwf1 (by omega)
    rw [hgrant] at hin hout
    show (∀ k < r.length + 1, ∀ j, _ → Memory.read ((s.writeLoc1 o la b).writeLoc o (la + 1) r).loc j = _) ∧ _
    refine ⟨fun k hk j hj => ?_, fun j hj => ?_⟩
    · cases k with
      | zero =>
        rw [hout j fun k hk' hk'' => by have := locKey_inj hj hk'' (by omega) (by omega); omega, hread, if_pos (by simpa using hj)]
        rfl
      | succ k =>
        rw [hin k (by omega) j (by rw [← hj]; congr 1; omega)]
        rfl
    · show Memory.read ((s.writeLoc1 o la b).writeLoc o (la + 1) r).loc j = _
      rw [hout j fun k hk => by have := hj (k + 1) (by simpa using hk); rwa [← Nat.add_assoc, Nat.add_right_comm] at this, hread,
        if_neg (by simpa using hj 0 (by simp))]

/-! ### What a reader sees of its own writes (R185) -/

/-- The bits that a mask of bytes names. -/
theorem maskBits_getLsbD (m : BitVec 8) (i : Nat) (h : i < 64) : (maskBits m).getLsbD i = m.getLsbD (i / 8) := by
  unfold maskBits
  rw [BitVec.getLsbD_ofNat, natOf_testBit]
  have hi : i / 8 < 8 := by omega
  have h8 : i % 8 < 8 := Nat.mod_lt _ (by decide)
  simp only [h, decide_true, Bool.true_and, List.getD_eq_getElem?_getD, List.getElem?_map, List.getElem?_range hi, Option.map_some, Option.getD_some]
  cases m.getLsbD (i / 8) with
  | false => simp
  | true =>
    have : (0xFF#8).getLsbD (i % 8) = true := by
      generalize i % 8 = q at h8
      revert q
      decide
    simpa using this

/-- Among writes that a reader sees, one of the newest covers byte `b` of their word. -/
def ShowsByte (sees : Past → Bool) (b : Nat) : List Past → Prop
  | [] => False
  | r :: rest => sees r = true ∧ (r.mask.getLsbD b = true ∨ ShowsByte sees b rest)

/-- A byte that a seen write covers reads as it stands. -/
theorem seenWord_byte_of_must (sees : Past → Bool) (b : Nat) (hb : b < 8) : ∀ (ps : List Past) (must : BitVec 8) (w : Word),
    must.getLsbD b = true → (seenWord sees must ps w).extractLsb' (8 * b) 8 = w.extractLsb' (8 * b) 8 := by
  intro ps
  induction ps with
  | nil => exact fun _ _ _ => rfl
  | cons r rest ih =>
    intro must w hm
    unfold seenWord
    split
    next => exact ih _ _ (by rw [BitVec.getLsbD_or, hm, Bool.true_or])
    next hn =>
      rw [ih _ _ hm]
      have hoff : r.mask.getLsbD b = false := by
        by_contra hc
        refine hn ?_
        have h1 : (r.mask &&& must).getLsbD b = true := by
          rw [BitVec.getLsbD_and, hm, Bool.and_true]
          simpa using hc
        have h2 : (r.mask &&& must != 0) = true := bne_iff_ne.2 fun h0 => by rw [h0] at h1; simp at h1
        rw [h2, Bool.or_true]
      apply BitVec.eq_of_getLsbD_eq
      intro i hi
      have hbit : (8 * b + i) / 8 = b := by omega
      have hlt : 8 * b + i < 64 := by omega
      rw [BitVec.getLsbD_extractLsb', BitVec.getLsbD_extractLsb', BitVec.getLsbD_or, BitVec.getLsbD_and, BitVec.getLsbD_and, BitVec.getLsbD_not,
        maskBits_getLsbD _ _ hlt, hbit, hoff]
      simp [hlt]

/-- A byte that one of the newest writes covers, which the reader sees, reads as it stands. -/
theorem seenWord_byte (sees : Past → Bool) (b : Nat) (hb : b < 8) : ∀ (ps : List Past) (must : BitVec 8) (w : Word),
    ShowsByte sees b ps → (seenWord sees must ps w).extractLsb' (8 * b) 8 = w.extractLsb' (8 * b) 8 := by
  intro ps
  induction ps with
  | nil => exact fun _ _ h => h.elim
  | cons r rest ih =>
    intro must w ⟨hsees, h⟩
    unfold seenWord
    rw [if_pos (by rw [hsees, Bool.true_or])]
    rcases h with hm | hrest
    · exact seenWord_byte_of_must sees b hb rest _ w (by rw [BitVec.getLsbD_or, hm, Bool.or_true])
    · exact ih _ w hrest

/-- A byte of a word of local memory. -/
theorem State.locWord_byte (s : State) (key : Nat) : (s.locWord key).extractLsb' (8 * (key % 8)) 8 = Memory.read s.loc key := by
  have h8 : key % 8 < 8 := Nat.mod_lt _ (by decide)
  have hread : ∀ (n a k : Nat), k < n → (Memory.readN s.loc a n).getD k 0 = Memory.read s.loc (a + k) := by
    intro n
    induction n with
    | zero => exact fun a k h => absurd h (Nat.not_lt_zero k)
    | succ n ih =>
      intro a k h
      cases k with
      | zero => rfl
      | succ k =>
        show (Memory.readN s.loc (a + 1) n).getD k 0 = _
        rw [ih _ _ (by omega)]
        congr 1
        omega
  apply BitVec.eq_of_getLsbD_eq
  intro i hi
  have hq : (8 * (key % 8) + i) / 8 = key % 8 := by omega
  have hr : (8 * (key % 8) + i) % 8 = i := by omega
  unfold State.locWord
  rw [BitVec.getLsbD_extractLsb', BitVec.getLsbD_ofNat, natOf_testBit, hq, hr, hread 8 _ _ h8, (by omega : key / 8 * 8 + key % 8 = key)]
  simp [hi, (by omega : 8 * (key % 8) + i < 64)]

/-- A thread sees its own writes (R185). -/
theorem Past.visible_own (r : Past) (v : View) (k : Place) (now : Nat) (hp : r.path = some .core) (hv : v.path = some .core) (hw : r.who = v.ident) :
    r.visible v k now = true := by
  unfold Past.visible Past.reached Past.ownOf
  simp [hp, hv, hw]

end Sys2Proof.Machine
end

section
/-!
PROOF. What a store of local memory does, and what is remembered of it (O22).
-/
namespace Sys2Proof.Machine
open Sys2Proof

/-! ### What a store adds to what is remembered -/

/-- Every entry of a table after one was set is that one or was there. -/
theorem Tab.mem_put {α : Type} {t : Tab α} {k : Nat} {v : α} {e : Nat × α} (h : e ∈ Tab.put t k v) : e = (k, v) ∨ e ∈ t := by
  induction t with
  | nil => exact .inl (List.mem_singleton.1 h)
  | cons p r ih =>
    obtain ⟨b, w⟩ := p
    unfold Tab.put at h
    split at h
    next => exact (List.mem_cons.1 h)
    next =>
      split at h
      next =>
        rcases List.mem_cons.1 h with h | h
        · exact .inl h
        · exact .inr (List.mem_cons_of_mem _ h)
      next =>
        rcases List.mem_cons.1 h with h | h
        · exact .inr (h ▸ List.mem_cons_self)
        · exact (ih h).imp_right (List.mem_cons_of_mem _)

/-- What a table finds is one of its entries. -/
theorem Tab.mem_of_find {α : Type} {t : Tab α} {k : Nat} {v : α} (h : Tab.find t k = some v) : (k, v) ∈ t := by
  induction t with
  | nil => cases h
  | cons p r ih =>
    obtain ⟨b, w⟩ := p
    unfold Tab.find at h
    split at h
    next hk =>
      cases h
      exact hk ▸ List.mem_cons_self
    next => exact List.mem_cons_of_mem _ (ih h)

/-- No write of the party is left for its next store to release (R189). -/
def State.Spent (s : State) (v : View) : Prop :=
  v.path = some .core → ∀ e ∈ s.locPast ++ s.memPast, ∀ r ∈ e.2, (r.armed && r.who == v.ident) = false

/-- A release that has been made is not made again. -/
theorem State.fire_of_spent {s : State} {v : View} (h : s.Spent v) : s.fire v = s := by
  unfold State.fire
  split
  next hv =>
    have same : ∀ (t : Tab (List Past)), (∀ e ∈ t, ∀ r ∈ e.2, (r.armed && r.who == v.ident) = false) → t.map (fun e => (e.1, e.2.map fun r =>
        if r.armed && r.who == v.ident then { r with armed := false, rel := some (r.rel.getD s.now) } else r)) = t := by
      intro t ht
      refine (List.map_congr_left fun e he => ?_).trans (List.map_id _)
      refine Prod.ext rfl ((List.map_congr_left fun r hr => ?_).trans (List.map_id _))
      rw [if_neg (by rw [ht e he r hr]; decide)]
      rfl
    unfold State.mapPast
    rw [same _ fun e he => h hv e (List.mem_append_left _ he), same _ fun e he => h hv e (List.mem_append_right _ he)]
  next => rfl

theorem State.spent_fire (s : State) (v : View) : (s.fire v).Spent v := by
  intro hv e he r hr
  unfold State.fire at he
  rw [if_pos hv] at he
  have key : ∀ (t : Tab (List Past)), e ∈ t.map (fun e => (e.1, e.2.map fun r =>
      if r.armed && r.who == v.ident then { r with armed := false, rel := some (r.rel.getD s.now) } else r)) →
      (r.armed && r.who == v.ident) = false := by
    intro t ht
    obtain ⟨e0, -, rfl⟩ := List.mem_map.1 ht
    obtain ⟨r0, -, rfl⟩ := List.mem_map.1 hr
    split
    next => rfl
    next hn => exact Bool.eq_false_iff.2 hn
  rcases List.mem_append.1 he with he | he
  · exact key _ he
  · exact key _ he

/-- What the store of a word adds to, and what it leaves. -/
theorem State.noteKey_frame (s : State) (v : View) (key : Nat) (mask : BitVec 8) :
    s.noteKey v key mask = { s.fire v with locPast := (s.noteKey v key mask).locPast } := rfl

theorem State.spent_noteKey (s : State) (v : View) (key : Nat) (mask : BitVec 8) : (s.noteKey v key mask).Spent v := by
  intro hv e he r hr
  have hs := s.spent_fire v hv
  rcases List.mem_append.1 he with he | he
  · rcases Tab.mem_put he with rfl | he
    · rcases List.mem_cons.1 hr with rfl | hr
      · rfl
      · generalize hf : Tab.find (s.fire v).locPast (key / 8) = o at hr
        unfold Tab.get at hr
        rw [hf] at hr
        cases o with
        | none => cases hr
        | some ps => exact hs _ (List.mem_append_left _ (Tab.mem_of_find hf)) r hr
    · exact hs e (List.mem_append_left _ he) r hr
  · exact hs e (List.mem_append_right _ he) r hr

/-- The thread's own newest writes of the word of a key cover the key's byte. -/
def State.Shows (s : State) (v : View) (key : Nat) : Prop :=
  ∃ ps, Tab.find s.locPast (key / 8) = some ps ∧ ShowsByte (fun r => r.path == some .core && r.who == v.ident) (key % 8) ps

/-- A thread reads the bytes that it wrote last as they stand (R185). -/
theorem State.seeKey_of_shows {s : State} {v w : View} {key : Nat} (h : s.Shows v key) (hw : w.path = some .core) (hi : w.ident = v.ident) :
    s.seeKey w key = Memory.read s.loc key := by
  obtain ⟨ps, hf, hs⟩ := h
  have mono : ∀ (ps : List Past), ShowsByte (fun r => r.path == some .core && r.who == v.ident) (key % 8) ps →
      ShowsByte (·.visible w .loc s.now) (key % 8) ps := by
    intro ps
    induction ps with
    | nil => exact id
    | cons r rest ih =>
      intro ⟨h1, h2⟩
      rw [Bool.and_eq_true, beq_iff_eq, beq_iff_eq] at h1
      exact ⟨r.visible_own w _ _ h1.1 hw (h1.2.trans hi.symm), h2.imp_right ih⟩
  unfold State.seeKey
  rw [hf]
  dsimp only
  rw [seenWord_byte _ _ (Nat.mod_lt _ (by decide)) ps 0 _ (mono ps hs), s.locWord_byte]

/-- A word that a store does not note keeps what is remembered of it. -/
theorem State.find_noteKey {s : State} {v : View} {key w : Nat} {mask : BitVec 8} (h : key / 8 ≠ w) :
    Tab.find (s.noteKey v key mask).locPast w = Tab.find (s.fire v).locPast w := Tab.find_put_ne _ _ _ _ (Ne.symm h)

/-- A noted byte is one of the thread's newest writes. -/
theorem State.shows_noteKey_same (s : State) {v : View} {key j : Nat} {mask : BitVec 8} (hv : v.path = some .core) (hk : key / 8 = j / 8)
    (hm : mask.getLsbD (j % 8) = true) : (s.noteKey v key mask).Shows v j := by
  refine ⟨s.pastOf v (s.locWord key) mask 0 .plain :: Tab.get (s.fire v).locPast (key / 8) [], ?_, ?_, .inl hm⟩
  · rw [← hk]
    exact Tab.find_put_self _ _ _
  · show (v.path == some .core && v.ident == v.ident) = true
    simp [hv]

/-- A later note of the thread leaves its earlier ones among its newest. -/
theorem State.shows_noteKey {s : State} {v : View} {key j : Nat} {mask : BitVec 8} (hv : v.path = some .core) (h : s.Shows v j) (hs : s.Spent v) :
    (s.noteKey v key mask).Shows v j := by
  obtain ⟨ps, hf, hp⟩ := h
  by_cases hk : key / 8 = j / 8
  · refine ⟨s.pastOf v (s.locWord key) mask 0 .plain :: ps, ?_, ?_, .inr hp⟩
    · show Tab.find (Tab.put (s.fire v).locPast (key / 8) (_ :: Tab.get (s.fire v).locPast (key / 8) [])) (j / 8) = _
      rw [hk, Tab.find_put_self, State.fire_of_spent hs, Tab.get, hf]
    · show (v.path == some .core && v.ident == v.ident) = true
      simp [hv]
  · exact ⟨ps, by rw [State.find_noteKey hk, State.fire_of_spent hs, hf], hp⟩

/-- The words that a party notes, one after the other: what is remembered of the others stands, and the noted bytes are among the party's
newest writes. -/
structure Notes (s t : State) (v : View) (ks : List (Nat × BitVec 8)) : Prop where
  frame : t = { s.fire v with locPast := t.locPast }
  spent : t.Spent v
  other : ∀ w, (∀ k ∈ ks, k.1 / 8 ≠ w) → Tab.find t.locPast w = Tab.find (s.fire v).locPast w
  shown : ∀ k ∈ ks, ∀ j, k.1 / 8 = j / 8 → k.2.getLsbD (j % 8) = true → t.Shows v j
  keeps : ∀ j, s.Spent v → s.Shows v j → t.Shows v j

theorem State.notes_cons {s t : State} {v : View} {k : Nat × BitVec 8} {ks : List (Nat × BitVec 8)} (hv : v.path = some .core)
    (h : Notes (s.noteKey v k.1 k.2) t v ks) : Notes s t v (k :: ks) := by
  obtain ⟨frame, spent, other, shown, keeps⟩ := h
  have hspent := s.spent_noteKey v k.1 k.2
  rw [State.fire_of_spent hspent] at frame other
  refine ⟨?_, spent, fun w hw => ?_, fun l hl j hj hm => ?_, fun j hs hj => keeps j hspent (State.shows_noteKey hv hj hs)⟩
  · rw [frame, s.noteKey_frame]
  · rw [other w fun l hl => hw l (List.mem_cons_of_mem _ hl), State.find_noteKey (hw k List.mem_cons_self)]
  · rcases List.mem_cons.1 hl with rfl | hl
    · exact keeps j hspent (s.shows_noteKey_same hv hj hm)
    · exact shown l hl j hj hm

theorem State.notes_of_spent {v : View} (hv : v.path = some .core) (ks : List (Nat × BitVec 8)) : ∀ s : State, s.Spent v →
    Notes s (ks.foldl (fun u k => u.noteKey v k.1 k.2) s) v ks := by
  induction ks with
  | nil =>
    intro s hs
    exact ⟨by rw [State.fire_of_spent hs]; rfl, hs, fun w _ => by rw [State.fire_of_spent hs]; rfl, fun k hk => (nomatch hk), fun j _ h => h⟩
  | cons k ks ih => exact fun s _ => State.notes_cons hv (ih _ (s.spent_noteKey v k.1 k.2))

/-- A store notes its words, and is the release that was prepared before it. -/
theorem State.notes_words {v : View} (hv : v.path = some .core) {ks : List (Nat × BitVec 8)} (hne : ks ≠ []) (s : State) :
    Notes s (ks.foldl (fun u k => u.noteKey v k.1 k.2) s) v ks := by
  cases ks with
  | nil => exact absurd rfl hne
  | cons k ks => exact State.notes_cons hv (State.notes_of_spent hv ks _ (s.spent_noteKey v k.1 k.2))

/-- The words that a run of bytes touches. -/
theorem State.mem_wordKeys {s : State} {v : View} {la n : Nat} {k : Nat × BitVec 8} : k ∈ s.wordKeys v la n ↔
    ∃ q, la / 8 ≤ q ∧ q < (la + n + 7) / 8 ∧ s.keyOf v (q * 8) = some k.1 ∧ k.2 = coverMask q la n := by
  unfold State.wordKeys
  rw [List.mem_filterMap]
  refine ⟨fun ⟨i, hi, hk⟩ => ?_, fun ⟨q, h1, h2, h3, h4⟩ => ⟨q - la / 8, List.mem_range.2 (by omega), ?_⟩⟩
  · obtain ⟨key, hkey, rfl⟩ := Option.map_eq_some_iff.1 hk
    have := List.mem_range.1 hi
    exact ⟨la / 8 + i, by omega, by omega, hkey, rfl⟩
  · rw [(by omega : la / 8 + (q - la / 8) = q), h3, ← h4]
    rfl

theorem State.forall_wordKeys {s : State} {v : View} {la n w : Nat} : (∀ k ∈ s.wordKeys v la n, k.1 / 8 ≠ w) ↔
    ∀ q, la / 8 ≤ q → q < (la + n + 7) / 8 → ∀ key, s.keyOf v (q * 8) = some key → key / 8 ≠ w :=
  ⟨fun h q h1 h2 key hk => h (key, coverMask q la n) (State.mem_wordKeys.2 ⟨q, h1, h2, hk, rfl⟩),
    fun h k hk => by
      obtain ⟨q, h1, h2, h3, -⟩ := State.mem_wordKeys.1 hk
      exact h q h1 h2 k.1 h3⟩

/-- The mask of a run covers each of its bytes. -/
theorem coverMask_getLsbD {la n k : Nat} (hk : k < n) : (coverMask ((la + k) / 8) la n).getLsbD ((la + k) % 8) = true := by
  unfold coverMask
  have h8 : (la + k) % 8 < 8 := Nat.mod_lt _ (by decide)
  have hlo : min 8 (la - (la + k) / 8 * 8) ≤ (la + k) % 8 := by omega
  have hhi : (la + k) % 8 < min 8 (la + n - (la + k) / 8 * 8) := by omega
  have hm : min 8 (la + n - (la + k) / 8 * 8) ≤ 8 := Nat.min_le_left _ _
  generalize min 8 (la - (la + k) / 8 * 8) = lo at *
  generalize min 8 (la + n - (la + k) / 8 * 8) = hi at *
  generalize (la + k) % 8 = b at *
  have all : ∀ hi < 9, ∀ lo < 9, ∀ b < 8, lo ≤ b → b < hi → (BitVec.ofNat 8 (2 ^ hi - 2 ^ lo)).getLsbD b = true := by decide
  exact all hi (by omega) lo (by omega) b h8 hlo hhi

/-- A byte of a run that has a key lies in a word that the run touches, and its mask covers it. -/
theorem State.wordKey_of_byte {s : State} {v : View} {la n k j : Nat} (hk : k < n) (hj : s.keyOf v (la + k) = some j) :
    ∃ e ∈ s.wordKeys v la n, e.1 / 8 = j / 8 ∧ e.2.getLsbD (j % 8) = true := by
  obtain ⟨hmod, hword⟩ := locKey_word hj
  refine ⟨(j / 8 * 8, coverMask ((la + k) / 8) la n), State.mem_wordKeys.2 ⟨(la + k) / 8, by omega, by omega, hword, rfl⟩, by omega, ?_⟩
  rw [← hmod]
  exact coverMask_getLsbD hk

/-! ### A store (R170, R192) -/

/-- What a store of bytes by a thread does: they stand from the address up, every other byte is as it was, what was remembered of other
words stands, and the thread's newest writes cover what it stored. -/
structure PutsLoc (s t : State) (v : View) (la : Nat) (bs : List Byte) : Prop where
  frame : t = { s with loc := t.loc, locPast := t.locPast, memPast := (s.fire v).memPast, now := t.now }
  wf : Memory.wf t.loc = true
  bytes : ∀ k < bs.length, ∀ j, s.keyOf v (la + k) = some j → Memory.read t.loc j = bs.getD k 0
  others : ∀ j, (∀ k < bs.length, s.keyOf v (la + k) ≠ some j) → Memory.read t.loc j = Memory.read s.loc j
  past : ∀ w, (∀ k ∈ s.wordKeys v la bs.length, k.1 / 8 ≠ w) → Tab.find t.locPast w = Tab.find (s.fire v).locPast w
  spent : t.Spent v
  shown : ∀ k < bs.length, ∀ j, s.keyOf v (la + k) = some j → t.Shows v j
  keeps : ∀ j, s.Spent v → s.Shows v j → t.Shows v j

/-- A store of one part. -/
theorem State.putPart_puts {s : State} {v : View} {la : Nat} {bs : List Byte} (hv : v.path = some .core) (hwf : Memory.wf s.loc = true)
    (hlen : bs.length < 0x4000) (hne : bs ≠ []) (hkey : ∃ j, s.keyOf v la = some j) : PutsLoc s (s.putPart v la bs) v la bs := by
  have hpos : 0 < bs.length := List.length_pos_iff.2 hne
  obtain ⟨j0, hj0⟩ := hkey
  obtain ⟨e0, he0, -⟩ := State.wordKey_of_byte (la := la) (k := 0) hpos hj0
  obtain ⟨frame, spent, other, shown, keeps⟩ := State.notes_words hv (List.ne_nil_of_mem he0) s
  unfold State.putPart
  dsimp only
  generalize (s.wordKeys v la bs.length).foldl (fun u k => u.noteKey v k.1 k.2) s = u at *
  have hfire : s.fire v = { s with locPast := (s.fire v).locPast, memPast := (s.fire v).memPast } := by
    unfold State.fire
    split <;> rfl
  have hloc : u.loc = s.loc := by rw [frame]; exact s.fire_loc v
  have hgrant : u.grantOf v.ident = s.grantOf v.ident := by rw [frame, hfire]; rfl
  obtain ⟨m, hm⟩ := State.writeLoc_frame ⟨v.slot, v.ident, false, false, 0⟩ bs u la
  have hwf' : Memory.wf u.loc = true := hloc ▸ hwf
  obtain ⟨hin, hout⟩ := State.read_writeLoc ⟨v.slot, v.ident, false, false, 0⟩ bs u la hwf' hlen
  have hwfw := State.wf_writeLoc ⟨v.slot, v.ident, false, false, 0⟩ bs u la hwf'
  rw [hm] at hin hout hwfw ⊢
  dsimp only at hin hout hwfw ⊢
  rw [hgrant] at hin hout
  refine ⟨?_, hwfw, hin, fun j hj => ?_, other, spent, fun k hk j hj => ?_, keeps⟩
  · rw [frame, hfire]
  · rw [← hloc]
    exact hout j hj
  · obtain ⟨e, he, h1, h2⟩ := State.wordKey_of_byte hk hj
    exact shown e he j h1 h2

/-- Two stores side by side are a store of their bytes. -/
theorem PutsLoc.append {s u t : State} {v : View} {la : Nat} {as bs : List Byte} (h : PutsLoc s u v la as) (g : PutsLoc u t v (la + as.length) bs)
    (hlen : as.length + bs.length < 0x4000) : PutsLoc s t v la (as ++ bs) := by
  have hkey : u.keyOf v = s.keyOf v := by rw [h.frame]; rfl
  have hfire : u.fire v = u := State.fire_of_spent h.spent
  have hwords : ∀ w, (∀ k ∈ s.wordKeys v la (as ++ bs).length, k.1 / 8 ≠ w) →
      (∀ k ∈ s.wordKeys v la as.length, k.1 / 8 ≠ w) ∧ ∀ k ∈ u.wordKeys v (la + as.length) bs.length, k.1 / 8 ≠ w := by
    intro w hw
    rw [List.length_append, State.forall_wordKeys] at hw
    rw [State.forall_wordKeys, State.forall_wordKeys, hkey]
    exact ⟨fun q h1 h2 => hw q h1 (by omega), fun q h1 h2 => hw q (by omega) (by omega)⟩
  refine ⟨?_, g.wf, fun k hk j hj => ?_, fun j hj => ?_, fun w hw => ?_, g.spent, fun k hk j hj => ?_, fun j hs hj => g.keeps j h.spent (h.keeps j hs hj)⟩
  · rw [g.frame, hfire, h.frame]
  · rw [List.length_append] at hk
    by_cases hka : k < as.length
    · rw [g.others j fun l hl hl' => ?_, h.bytes k hka j hj, List.getD_append _ _ _ _ hka]
      rw [hkey] at hl'
      have := locKey_inj hj hl' (by omega) (by omega)
      omega
    · rw [g.bytes (k - as.length) (by omega) j (by rw [hkey, ← hj]; congr 1; omega), List.getD_append_right _ _ _ _ (by omega)]
  · rw [List.length_append] at hj
    rw [g.others j fun k hk => ?_, h.others j fun k hk => hj k (by omega)]
    rw [hkey, Nat.add_assoc]
    exact hj _ (by omega)
  · obtain ⟨h1, h2⟩ := hwords w hw
    rw [g.past w h2, hfire, h.past w h1]
  · rw [List.length_append] at hk
    by_cases hka : k < as.length
    · exact g.keeps j h.spent (h.shown k hka j hj)
    · exact g.shown (k - as.length) (by omega) j (by rw [hkey, ← hj]; congr 1; omega)

/-- A store, in one part or two (R170). -/
theorem State.putLoc_puts {s : State} {v : View} {la : Nat} {bs : List Byte} (hv : v.path = some .core) (hwf : Memory.wf s.loc = true)
    (hlen : bs.length < 0x4000) (hne : bs ≠ []) (hkey : ∀ k < bs.length, ∃ j, s.keyOf v (la + k) = some j) : PutsLoc s (s.putLoc v la bs) v la bs := by
  have hpos : 0 < bs.length := List.length_pos_iff.2 hne
  unfold State.putLoc
  dsimp only
  split
  next hc =>
    generalize hm : 0x40000 - la % 0x40000 = m at *
    obtain ⟨-, -, hml⟩ := hc
    have hm0 : 0 < m := by omega
    have htake : (bs.take m).length = m := List.length_take_of_le (by omega)
    have hdrop : (bs.drop m).length = bs.length - m := List.length_drop
    have h1 : PutsLoc s (s.putPart v la (bs.take m)) v la (bs.take m) :=
      State.putPart_puts hv hwf (by omega) (List.length_pos_iff.1 (by omega)) (hkey 0 hpos)
    have hk : (s.putPart v la (bs.take m)).keyOf v = s.keyOf v := by rw [h1.frame]; rfl
    have h2 := State.putPart_puts (la := la + m) (bs := bs.drop m) hv h1.wf (by omega) (List.length_pos_iff.1 (by omega))
      (by rw [hk]; exact hkey m hml)
    have := h1.append (by rw [htake]; exact h2) (by omega)
    rwa [List.take_append_drop] at this
  next => exact State.putPart_puts hv hwf hlen hne (hkey 0 hpos)

/-- A run of bytes, each of which a party finds where it stands, is what the party sees. -/
theorem State.seeLoc_eq {t : State} {w : View} (bs : List Byte) : ∀ la : Nat,
    (∀ k < bs.length, ∃ j, t.keyOf w (la + k) = some j ∧ t.seeKey w j = bs.getD k 0) → t.seeLoc w la bs.length = bs := by
  induction bs with
  | nil => exact fun _ _ => rfl
  | cons b r ih =>
    intro la h
    obtain ⟨j, hj, hs⟩ := h 0 (by simp)
    show (match t.keyOf w la with | some k => t.seeKey w k | none => 0) :: t.seeLoc w (la + 1) r.length = _
    rw [ih (la + 1) fun k hk => by
      obtain ⟨j, hj, hs⟩ := h (k + 1) (by simpa using hk)
      exact ⟨j, by rw [← hj]; congr 1; omega, hs⟩]
    rw [Nat.add_zero] at hj
    rw [hj]
    exact congrArg (· :: r) hs

/-- A thread reads back what it stored (R185). -/
theorem PutsLoc.seeLoc {s u t : State} {v w : View} {la : Nat} {bs : List Byte} (h : PutsLoc s u v la bs)
    (hkey : ∀ k < bs.length, ∃ j, s.keyOf v (la + k) = some j) (hloc : t.loc = u.loc) (hpast : t.locPast = u.locPast)
    (hk : t.keyOf w = s.keyOf v) (hw : w.path = some .core) (hi : w.ident = v.ident) : t.seeLoc w la bs.length = bs := by
  refine State.seeLoc_eq bs la fun k hlt => ?_
  obtain ⟨j, hj⟩ := hkey k hlt
  refine ⟨j, by rw [hk, hj], ?_⟩
  have hshows : t.Shows v j := by
    unfold State.Shows
    rw [hpast]
    exact h.shown k hlt j hj
  rw [State.seeKey_of_shows hshows hw hi, hloc, h.bytes k hlt j hj]

end Sys2Proof.Machine
end

section
/-!
PROOF. Local memory (O22).
-/
namespace Sys2Proof.Machine
open Sys2Proof

/-! ### Local stores -/

/-- A store that the thread at hand retires behind: its bytes stand and are read back, and the rest is as it was. -/
theorem PutsLoc.stores {w u t : State} {la : Nat} {bs : List Byte} (h : PutsLoc w u (w.th.view .core) la bs)
    (hkey : ∀ k < bs.length, ∃ j, w.keyOf (w.th.view .core) (la + k) = some j) (ho : KeepsOutside u t) (hb : KeepsBytes u t)
    (hi : t.th.ident = w.th.ident) (hs : t.th.slot = w.th.slot) : StoresLocal w t la bs ∧ KeepsOutsideLoc w t la bs.length := by
  have hframe := h.frame
  have hout : t.locPast = u.locPast ∧ t.gangs = w.gangs ∧ t.ghosts = w.ghosts := by
    unfold KeepsOutside at ho
    rw [ho, hframe]
    exact ⟨rfl, rfl, rfl⟩
  obtain ⟨hpast, hgangs, hghosts⟩ := hout
  have hgrant : t.keyOf (t.th.view .core) = w.keyOf (w.th.view .core) := by
    funext x
    unfold State.keyOf State.grantOf State.gangOf Thread.view
    simp only [hi, hs, hgangs, hghosts]
  refine ⟨⟨fun k hk j hj => ?_, h.seeLoc hkey ?_ hpast hgrant rfl hi, fun j hj => ?_, fun j => ?_⟩, ?_, fun x hx => ?_⟩
  · rw [(hb j).2]
    exact h.bytes k hk j hj
  · unfold KeepsOutside at ho
    rw [ho]
  · rw [(hb j).2]
    exact h.others j hj
  · rw [(hb j).1, hframe]
  · unfold KeepsOutside at ho
    generalize u.loc = l, u.locPast = p, u.now = n at hframe
    subst hframe
    generalize t.th = x at ho
    subst ho
    rfl
  · rw [hpast]
    exact h.past x hx

/-- Every byte of a local access without a fault has a key. -/
theorem State.keyOf_inside {w : State} {la n : Nat} (h : w.localFault w.th.owner la n = none) :
    ∀ k < n, ∃ j, w.keyOf (w.th.view .core) (la + k) = some j := by
  intro k hk
  obtain ⟨j, hj⟩ := locKey_of_inside (slot := w.th.slot) (State.inside_of_localFault h) hk
  exact ⟨j, hj⟩

/-- The thread at hand stores bytes that lie in one level. -/
theorem State.ownPut_puts {w : State} {la : Nat} {bs : List Byte} (hwf : Memory.wf w.loc = true) (hlen : bs.length < 0x4000) (hne : bs ≠ [])
    (hin : w.localFault w.th.owner la bs.length = none) : PutsLoc w (w.ownPut la bs) (w.th.view .core) la bs := by
  unfold State.ownPut
  exact State.putLoc_puts rfl hwf hlen hne (State.keyOf_inside hin)

theorem State.ownPut_th {w : State} {la : Nat} {bs : List Byte} (hwf : Memory.wf w.loc = true) (hlen : bs.length < 0x4000) (hne : bs ≠ [])
    (hin : w.localFault w.th.owner la bs.length = none) : (w.ownPut la bs).th = w.th := by
  rw [(State.ownPut_puts hwf hlen hne hin).frame]

/-- A local store behind a release that is due: the release is made, the bytes are stored and the instruction retires (R85). -/
theorem State.ownPut_retires {s : State} {o : Order} {la : Nat} {bs : List Byte} (hwf : Memory.wf s.loc = true) (hlen : bs.length < 0x4000)
    (hne : bs ≠ []) (hin : s.localFault s.th.owner la bs.length = none) :
    StoresLocal s (((s.released o).ownPut la bs).retire 4) la bs ∧ KeepsBesidePc s.th (((s.released o).ownPut la bs).retire 4).th
      ∧ Retires s (((s.released o).ownPut la bs).retire 4) 4
      ∧ KeepsOutsideLoc (s.released o) (((s.released o).ownPut la bs).retire 4) la bs.length := by
  have hr := s.released_frame o
  generalize s.released o = w at hr ⊢
  have hth : w.th = s.th := by rw [hr]
  have hwfw : Memory.wf w.loc = true := by rw [hr]; exact hwf
  have hinw : w.localFault w.th.owner la bs.length = none := by rw [hr]; exact hin
  have hput := State.ownPut_puts hwfw hlen hne hinw
  have hputth := State.ownPut_th hwfw hlen hne hinw
  obtain ⟨hpc, ⟨hiret, hplain⟩, hout, hbytes⟩ := (w.ownPut la bs).retire_spec 4
  generalize (w.ownPut la bs).retire 4 = t at *
  rw [hputth, hth] at hpc hiret hplain
  have hids : t.th.ident = w.th.ident ∧ t.th.slot = w.th.slot := by
    rw [hth]
    unfold KeepsBesidePc at hpc
    rw [hpc]
    exact ⟨rfl, rfl⟩
  obtain ⟨hstores, hkeeps⟩ := hput.stores (State.keyOf_inside hinw) hout hbytes hids.1 hids.2
  refine ⟨?_, hpc, ⟨hiret, fun hp => ?_⟩, hkeeps⟩
  · rw [hr] at hstores
    exact hstores
  · obtain ⟨h1, h2⟩ := hplain hp
    refine ⟨?_, h2⟩
    rw [h1, State.pcPlus, State.pcPlus, hputth, hth]

/-- A local store that writes a result too, as a local atomic does (R173). -/
theorem State.ownPut_results {s : State} {la : Nat} {bs : List Byte} {d : Reg} {v : Word} (hwf : Memory.wf s.loc = true)
    (hlen : bs.length < 0x4000) (hne : bs ≠ []) (hin : s.localFault s.th.owner la bs.length = none) :
    ∃ t, ((s.ownPut la bs).setX d v).retire 4 = t ∧ StoresLocal s t la bs ∧ (∀ r, t.getX r = if r = d ∧ d ≠ 0 then v else s.getX r)
      ∧ KeepsBesideX s.th t.th ∧ Retires s t 4 ∧ KeepsOutsideLoc s t la bs.length := by
  have hput := State.ownPut_puts hwf hlen hne hin
  have hputth := State.ownPut_th hwf hlen hne hin
  obtain ⟨t, ht, hx, -, hbeside, ⟨hiret, hplain⟩, hout, hbytes⟩ := (s.ownPut la bs).result_spec d v
  have hte : (s.ownPut la bs).result d v = t := Host.Outcome.next.inj ht
  rw [hputth] at hbeside hiret hplain
  have hids : t.th.ident = s.th.ident ∧ t.th.slot = s.th.slot := by
    unfold KeepsBesideX at hbeside
    rw [hbeside]
    exact ⟨rfl, rfl⟩
  obtain ⟨hstores, hkeeps⟩ := hput.stores (State.keyOf_inside hin) hout hbytes hids.1 hids.2
  refine ⟨t, hte, hstores, fun r => ?_, hbeside, ⟨hiret, fun hp => ?_⟩, hkeeps⟩
  · rw [hx r, State.getX, State.getX, hputth]
  · obtain ⟨h1, h2⟩ := hplain hp
    refine ⟨?_, h2⟩
    rw [h1, State.pcPlus, State.pcPlus, hputth]

/-! ### Local loads -/

/-- The acquire of an ordered local load: what the thread has been made to see grows, and it has read what it reads (R166, R192). -/
theorem State.gangAcquire_frame (s : State) (o : Bool) (la n : Nat) : s.gangAcquire o la n =
    { s with
      th := { s.th with gangSeen := if o then s.now else s.th.gangSeen }
      locPast := (s.gangAcquire o la n).locPast } := by
  cases o <;> rfl

theorem State.retires_gangAcquire {s t : State} {o : Bool} {la n len : Nat} (h : Retires (s.gangAcquire o la n) t len) : Retires s t len := by
  rw [s.gangAcquire_frame] at h
  exact h

theorem State.keepsBytes_gangAcquire {s t : State} {o : Bool} {la n : Nat} (h : KeepsBytes (s.gangAcquire o la n) t) : KeepsBytes s t := by
  rw [s.gangAcquire_frame] at h
  exact h

/-- Where no write of local memory is remembered, a party sees what stands there. -/
theorem State.seeLoc_of_settled {s : State} (h : s.locPast = []) (v : View) (o : Owner) (hs : v.slot = o.slot) (hi : v.ident = o.ident) (n : Nat) :
    ∀ la, s.seeLoc v la n = s.readLoc o la n := by
  induction n with
  | zero => exact fun _ => rfl
  | succ n ih =>
    intro la
    show _ :: s.seeLoc v (la + 1) n = s.readLoc1 o la :: s.readLoc o (la + 1) n
    rw [ih]
    refine congrArg (· :: _) ?_
    unfold State.readLoc1 State.keyOf
    rw [hs, hi]
    split
    next k hk =>
      unfold State.seeKey
      rw [h]
      rfl
    next => rfl

/-- What a load reads where no write of local memory is remembered. -/
theorem State.ownNat_settled {s : State} (h : s.locPast = []) (o : Bool) (la n : Nat) :
    (s.gangAcquire o la n).ownNat la n = natOf (s.readLoc s.th.owner la n) := by
  have hp : (s.gangAcquire o la n).locPast = [] := by
    cases o
    · exact h
    · show s.locPast.map _ = []
      rw [h]
      rfl
  unfold State.ownNat State.seeNat
  rw [State.seeLoc_of_settled hp _ (s.gangAcquire o la n).th.owner rfl rfl]
  congr 1
  have hread : ∀ (m a : Nat), (s.gangAcquire o la n).readLoc (s.gangAcquire o la n).th.owner a m = s.readLoc s.th.owner a m := by
    rw [s.gangAcquire_frame o la n]
    intro m
    induction m with
    | zero => exact fun _ => rfl
    | succ m ih => exact fun a => congrArg (_ :: ·) (ih (a + 1))
  exact hread n la

theorem State.raise_zero (s : State) : s.raise 0 = s := by
  unfold State.raise
  rw [show s.th.fflags ||| 0 = s.th.fflags from BitVec.or_zero]

/-- A write of an f register that no stream is bound to, and the retirement. -/
theorem State.setF_retires (s : State) (d : Reg) (v : LaneReg) (hd : s.streamOf d = none) :
    WritesF s (.next ((s.setF d v).retire 4)) 4 d v 0 := by
  have h := s.deliverLane_f 4 [] d v 0 s.unbound_nil hd
  have e : s.deliverLane 4 [] ⟨some (d, v), none, 0⟩ = (s.setF d v).retire 4 := by
    unfold State.deliverLane State.writeF
    dsimp only
    rw [hd]
    dsimp only
    rw [State.raise_zero, State.advanceStreams_unbound _ _ (State.unbound_nil _)]
  rwa [e] at h

/-! ### The instructions -/

/-- The precise checks of an aligned local access are those of its level. -/
theorem State.localCheck_aligned {s : State} {la align n : Nat} (h : la % align = 0) : s.localCheck la align n = s.localFault s.th.owner la n :=
  if_neg (not_not_intro h)

theorem State.localCheck_misaligned {s : State} {la align n : Nat} (h : la % align ≠ 0) : s.localCheck la align n = some (0x04, la) := if_pos h

theorem bytesOf_ne_nil {n v : Nat} (h : n ≠ 0) : bytesOf n v ≠ [] := by
  cases n with
  | zero => exact absurd rfl h
  | succ n => exact List.cons_ne_nil _ _

/-- A scalar load reads after its acquire, writes its register and retires. -/
theorem State.ldl_spec {s : State} {o : Bool} {z : Size} {sg : Bool} {d a : Reg} {i : BitVec 10}
    (hc : s.localCheck (s.address a i (sizeBytes z)) (sizeBytes z) (sizeBytes z) = none) (ha : s.th.acquiring = false) :
    let la := s.address a i (sizeBytes z)
    let u := s.gangAcquire o la (sizeBytes z)
    ∃ t, exec (.ldl o z sg d a i) s = .next t
      ∧ (∀ r, t.getX r = if r = d ∧ d ≠ 0 then extend (sizeBytes z) sg (u.ownNat la (sizeBytes z)) else s.getX r)
      ∧ KeepsBesideX { s.th with gangSeen := if o then s.now else s.th.gangSeen } t.th ∧ Retires s t 4 ∧ KeepsBytes s t
      ∧ KeepsOutside u t ∧ (o = false → KeepsOutside s t) := by
  intro la u
  obtain ⟨t, ht, hx, -, hbeside, hret, hout, hbytes⟩ := u.result_spec d (extend (sizeBytes z) sg (u.ownNat la (sizeBytes z)))
  have he : exec (.ldl o z sg d a i) s = .next (u.result d (extend (sizeBytes z) sg (u.ownNat la (sizeBytes z)))) := by
    show execLdl o z sg d a i s = _
    unfold execLdl
    dsimp only
    rw [hc]
    dsimp only
    rw [s.whenFree_go _ ha]
    rfl
  have hu := s.gangAcquire_frame o la (sizeBytes z)
  have huth : u.th = { s.th with gangSeen := if o then s.now else s.th.gangSeen } := by rw [show u = _ from hu]
  refine ⟨t, he.trans ht, fun r => ?_, huth ▸ hbeside, State.retires_gangAcquire hret, State.keepsBytes_gangAcquire hbytes, hout, fun hoff => ?_⟩
  · rw [hx r, State.getX, State.getX, huth]
  · subst hoff
    exact hout

/-- A vector load reads after its acquire, writes its register and retires. -/
theorem State.ldlV_spec {s : State} {o : Bool} {d a : Reg} {i : BitVec 10} (hc : s.localCheck (s.address a i 32) 2 32 = none)
    (hd : s.streamOf d = none) (ha : s.th.acquiring = false) :
    let la := s.address a i 32
    let u := s.gangAcquire o la 32
    ∃ t, exec (.ldlV o d a i) s = .next t ∧ (∀ r, t.getF r = if r = d then BitVec.ofNat 256 (u.ownNat la 32) else s.getF r)
      ∧ KeepsBesideF { s.th with gangSeen := if o then s.now else s.th.gangSeen } t.th ∧ t.th.fflags = s.th.fflags ∧ Retires s t 4
      ∧ KeepsBytes s t ∧ KeepsOutside u t ∧ (o = false → KeepsOutside s t) := by
  intro la u
  have hu : u = _ := s.gangAcquire_frame o la 32
  have huth : u.th = { s.th with gangSeen := if o then s.now else s.th.gangSeen } := by rw [hu]
  have hud : u.streamOf d = none := by
    have : u.th.streams = s.th.streams := by rw [huth]
    unfold State.streamOf at hd ⊢
    rwa [this]
  obtain ⟨t, ht, hf, -, hflags, hbeside, hret, hout, hbytes⟩ := u.setF_retires d (BitVec.ofNat 256 (u.ownNat la 32)) hud
  have he : exec (.ldlV o d a i) s = .next ((u.setF d (BitVec.ofNat 256 (u.ownNat la 32))).retire 4) := by
    show execLdlV o d a i s = _
    unfold execLdlV
    dsimp only
    rw [s.wrongWay_unbound [] [d] s.unbound_nil (s.unbound_one d hd)]
    dsimp only
    rw [hc, s.blockFault_unbound [d] (s.unbound_one d hd)]
    show Host.Outcome.next (s.whenFree _) = _
    rw [s.whenFree_go _ ha]
    have hw : u.writeF d (BitVec.ofNat 256 (u.ownNat la 32)) = u.setF d (BitVec.ofNat 256 (u.ownNat la 32)) := by
      unfold State.writeF
      rw [hud]
    show Host.Outcome.next (((u.writeF d (BitVec.ofNat 256 (u.ownNat la 32))).advanceStreams [d]).retire 4) = _
    rw [hw, State.advanceStreams_unbound _ _ (State.unbound_of_streams u (u.setF d _) [d] rfl (u.unbound_one d hud))]
  refine ⟨t, he.trans ht, fun r => ?_, huth ▸ hbeside, ?_, State.retires_gangAcquire hret, State.keepsBytes_gangAcquire hbytes, hout, fun hoff => ?_⟩
  · rw [hf r, State.getF, State.getF, huth]
  · rw [hflags, huth]
    exact BitVec.or_zero
  · subst hoff
    exact hout

/-- A scalar store stores behind its release, once that is due (R85, R166). -/
theorem State.stl_eq {s : State} {o : Bool} {z : Size} {d a : Reg} {i : BitVec 10} {la : Nat} (hla : s.address a i (sizeBytes z) = la)
    (hc : s.localCheck la (sizeBytes z) (sizeBytes z) = none) (ha : s.th.acquiring = false) (hm : s.MayRelease (if o then .gang else .plain)) :
    exec (.stl o z d a i) s =
      .next (((s.released (if o then .gang else .plain)).ownPut la (bytesOf (sizeBytes z) (s.getX d).toNat)).retire 4) := by
  show execStl o z d a i s = _
  unfold execStl
  dsimp only
  rw [hla, hc]
  dsimp only
  rw [s.afterRelease_go _ _ hm, State.whenFree_go _ _ (by rw [State.released_th]; exact ha), State.getX_released]

/-- A vector store stores behind its release, once that is due. -/
theorem State.stlV_eq {s : State} {o : Bool} {d a : Reg} {i : BitVec 10} {la : Nat} (hla : s.address a i 32 = la)
    (hc : s.localCheck la 2 32 = none) (hd : s.streamOf d = none) (ha : s.th.acquiring = false) (hwf : Memory.wf s.loc = true)
    (hin : s.localFault s.th.owner la 32 = none) (hm : s.MayRelease (if o then .gang else .plain)) :
    exec (.stlV o d a i) s =
      .next (((s.released (if o then .gang else .plain)).ownPut la (bytesOf 32 (s.getF d).toNat)).retire 4) := by
  have hr := s.released_frame (if o then .gang else .plain)
  show execStlV o d a i s = _
  unfold execStlV
  dsimp only
  rw [s.wrongWay_unbound [d] [] (s.unbound_one d hd) s.unbound_nil, hla]
  dsimp only
  rw [hc, s.blockFault_unbound [d] (s.unbound_one d hd)]
  show Host.Outcome.next (s.afterRelease _ _) = _
  rw [s.afterRelease_go _ _ hm]
  generalize s.released (if o then .gang else .plain) = w at hr ⊢
  have hth : w.th = s.th := by rw [hr]
  have hwd : w.streamOf d = none := by
    unfold State.streamOf at hd ⊢
    rwa [hth]
  have hop : w.operand d = s.getF d := by
    rw [w.operand_unbound d hwd, State.getF, State.getF, hth]
  rw [State.whenFree_go _ _ (by rw [hth]; exact ha), hop]
  have hput : (w.ownPut la (bytesOf 32 (s.getF d).toNat)).th = w.th :=
    State.ownPut_th (by rw [hr]; exact hwf) (by rw [bytesOf_length]; decide) (bytesOf_ne_nil (by decide)) (by
      rw [bytesOf_length, hr]
      exact hin)
  rw [State.advanceStreams_unbound _ _ (State.unbound_of_streams w _ [d] (by rw [hput]) (w.unbound_one d hwd))]

/-- A scalar local access that does not pass its checks traps (R85). -/
theorem State.scalar_local_traps {s : State} {o : Bool} {z : Size} {sg : Bool} {d a : Reg} {i : BitVec 10} {c q : Nat}
    (h : s.localCheck (s.address a i (sizeBytes z)) (sizeBytes z) (sizeBytes z) = some (c, q)) :
    exec (.ldl o z sg d a i) s = .next (s.trap c q) ∧ exec (.stl o z d a i) s = .next (s.trap c q) := by
  refine ⟨?_, ?_⟩
  · show execLdl o z sg d a i s = _
    unfold execLdl
    dsimp only
    rw [h]
  · show execStl o z d a i s = _
    unfold execStl
    dsimp only
    rw [h]

/-- A local atomic reads the word, stores what its operation makes of it, and writes the old word (R173). -/
theorem State.localAtomic_spec {s : State} {fn : Fin 9} {w : Bool} {d a b : Reg} {v : Nat} (hwf : Memory.wf s.loc = true)
    (hal : (s.getX a).toNat % (if w then 8 else 4) = 0) (hin : s.localFault s.th.owner (s.getX a).toNat (if w then 8 else 4) = none)
    (ha : s.th.acquiring = false)
    (hv : bytesOf (if w then 8 else 4) (amoOp fn (if w then 8 else 4) (natOf (s.readLoc s.th.owner (s.getX a).toNat (if w then 8 else 4)))
      ((s.getX b).toNat % 2 ^ (8 * (if w then 8 else 4)))) = bytesOf (if w then 8 else 4) v) :
    ∃ t, s.localAtomic fn w d a b = t ∧ StoresLocal s t (s.getX a).toNat (bytesOf (if w then 8 else 4) v)
      ∧ (∀ r, t.getX r = if r = d ∧ d ≠ 0 then
          extend (if w then 8 else 4) true (natOf (s.readLoc s.th.owner (s.getX a).toNat (if w then 8 else 4))) else s.getX r)
      ∧ KeepsBesideX s.th t.th ∧ Retires s t 4 ∧ KeepsOutsideLoc s t (s.getX a).toNat (if w then 8 else 4) := by
  have hn : (if w then 8 else 4) ≠ 0 ∧ (if w then 8 else 4) < 0x4000 := by cases w <;> decide
  unfold State.localAtomic
  dsimp only
  rw [State.localCheck_aligned hal, hin]
  dsimp only
  rw [s.whenFree_go _ ha, State.locNat, hv]
  generalize (if w then 8 else 4) = n at *
  have hlen := bytesOf_length n v
  obtain ⟨hn0, hn1⟩ := hn
  have h := State.ownPut_results (s := s) (la := (s.getX a).toNat) (bs := bytesOf n v) (d := d)
    (v := extend n true (natOf (s.readLoc s.th.owner (s.getX a).toNat n))) hwf (by rw [hlen]; exact hn1) (bytesOf_ne_nil hn0)
    (by rw [hlen]; exact hin)
  rw [hlen] at h
  exact h

/-- The bytes of a datum depend on its value in their width alone. -/
theorem bytesOf_mod (n v : Nat) : bytesOf n (v % 2 ^ (8 * n)) = bytesOf n v := by
  induction n generalizing v with
  | zero => rfl
  | succ n ih =>
    have h256 : 2 ^ (8 * (n + 1)) = 256 * 2 ^ (8 * n) := by rw [Nat.mul_succ, pow_add, Nat.mul_comm, show 2 ^ 8 = 256 from rfl]
    have hhead : BitVec.ofNat 8 (v % (256 * 2 ^ (8 * n))) = BitVec.ofNat 8 v := by
      apply BitVec.eq_of_toNat_eq
      rw [BitVec.toNat_ofNat, BitVec.toNat_ofNat]
      exact Nat.mod_mul_right_mod v 256 _
    unfold bytesOf
    rw [h256, hhead, Nat.mod_mul_right_div_self, ih]

/-- A scalar of a size is a local datum of some bytes, few enough to lie in one level. -/
theorem sizeBytes_ne (z : Size) : sizeBytes z ≠ 0 ∧ sizeBytes z < 0x4000 := by cases z <;> decide

theorem State.mayRelease_local {s : State} {o : Bool} (h : o = false ∨ s.Clear) : s.MayRelease (if o then .gang else .plain) := by
  rcases h with rfl | h
  · exact .inl rfl
  · exact .inr ⟨h, .inl (by cases o <;> decide)⟩

/-- Settles O22: loads read after their acquire (`State.ldl_spec`, `State.ldlV_spec`), stores put their bytes behind their release
(`State.ownPut_retires`), and an atomic does both (`State.localAtomic_spec`). -/
theorem localMemory : Obligations.LocalMemory := by
  unfold Obligations.LocalMemory
  refine ⟨?_, ?_⟩
  · intro s o z sg d a i hwf n la inside u w
    have hnz := sizeBytes_ne z
    have scalar : inside n → s.localCheck (la n) n n = none ∧ s.localFault s.th.owner (la n) n = none ∧ s.th.acquiring = false :=
      fun ⟨hal, hin, ha⟩ => ⟨(State.localCheck_aligned (scalar_align z _ hal)).trans hin, hin, ha⟩
    have vector : inside 32 → s.localCheck (la 32) 2 32 = none ∧ s.localFault s.th.owner (la 32) 32 = none ∧ s.th.acquiring = false :=
      fun ⟨hal, hin, ha⟩ => ⟨(State.localCheck_aligned hal).trans hin, hin, ha⟩
    refine ⟨fun h => ?_, fun h hd => ?_, fun hp _ => State.ownNat_settled hp o _ _, fun h ho => ?_, fun h hd ho => ?_, fun h hheld hacc hfree => ?_,
      fun hal => ?_, fun c q hal hf => ?_⟩
    · obtain ⟨hc, -, ha⟩ := scalar h
      exact State.ldl_spec hc ha
    · obtain ⟨hc, -, ha⟩ := vector h
      exact State.ldlV_spec hc hd ha
    · obtain ⟨hc, hin, ha⟩ := scalar h
      have hlen : (bytesOf n (s.getX d).toNat).length = n := bytesOf_length _ _
      have hst := State.ownPut_retires (o := if o then .gang else .plain) hwf (hlen.symm ▸ hnz.2) (bytesOf_ne_nil (v := (s.getX d).toNat) hnz.1)
        (hlen.symm ▸ hin)
      rw [hlen] at hst
      exact ⟨_, State.stl_eq rfl hc ha (State.mayRelease_local ho), hst⟩
    · obtain ⟨hc, hin, ha⟩ := vector h
      have hlen : (bytesOf 32 (s.getF d).toNat).length = 32 := bytesOf_length _ _
      have hst := State.ownPut_retires (o := if o then .gang else .plain) hwf (hlen.symm ▸ (by decide : 32 < 0x4000))
        (bytesOf_ne_nil (v := (s.getF d).toNat) (by decide)) (hlen.symm ▸ hin)
      rw [hlen] at hst
      exact ⟨_, State.stlV_eq rfl hc hd ha hwf hin (State.mayRelease_local ho), hst⟩
    · obtain ⟨hc, -, -⟩ := scalar h
      show execStl true z d a i s = _
      unfold execStl
      dsimp only
      rw [show s.localCheck (s.address a i (sizeBytes z)) (sizeBytes z) (sizeBytes z) = none from hc]
      exact congrArg _ (s.afterRelease_stall .gang _ (by decide) hheld hacc hfree)
    · exact State.scalar_local_traps (State.localCheck_misaligned hal)
    · exact State.scalar_local_traps ((State.localCheck_aligned hal).trans hf)
  · intro s w d a b hwf n la x y does
    refine ⟨fun hal hin ha => ?_, fun hal => ?_, fun c q hal hf => ?_⟩
    · have run : ∀ (fn : Fin 9) (v : Nat), bytesOf n (amoOp fn n x y) = bytesOf n v → ∃ t, s.localAtomic fn w d a b = t ∧
          StoresLocal s t la (bytesOf n v) ∧ (∀ r, t.getX r = if r = d ∧ d ≠ 0 then extend n true x else s.getX r)
            ∧ KeepsBesideX s.th t.th ∧ Retires s t 4 ∧ KeepsOutsideLoc s t la n := fun fn v hv => State.localAtomic_spec hwf hal hin ha hv
      have step : ∀ (j : Instr) (fn : Fin 9) (v : Nat), exec j s = .next (s.localAtomic fn w d a b) → bytesOf n (amoOp fn n x y) = bytesOf n v →
          does j v := by
        intro j fn v hj hv
        obtain ⟨t, ht, h⟩ := run fn v hv
        exact ⟨t, by rw [hj, ht], h⟩
      exact ⟨step _ 0 _ rfl (bytesOf_mod n (x + y)), step _ 1 _ rfl rfl, step _ 2 _ rfl rfl, step _ 3 _ rfl rfl, step _ 4 _ rfl rfl, step _ 5 _ rfl rfl,
        step _ 6 _ rfl rfl, step _ 7 _ rfl rfl, step _ 8 _ rfl rfl⟩
    · show Host.Outcome.next (s.localAtomic 0 w d a b) = _
      unfold State.localAtomic
      dsimp only
      rw [State.localCheck_misaligned hal]
    · show Host.Outcome.next (s.localAtomic 8 w d a b) = _
      unfold State.localAtomic
      dsimp only
      rw [State.localCheck_aligned hal, hf]

end Sys2Proof.Machine
end

section
/-!
PROOF. An access whose translation fails (O21).
-/
namespace Sys2Proof.Machine
open Sys2Proof

/-- A record goes in behind every record before it in program order and before the first of a later access (R297). -/
theorem insertHeld_split (h : Held) (gs : List Held) : ∃ l r, gs = l ++ r ∧ insertHeld h gs = l ++ [h] ++ r ∧ (∀ g ∈ l, g.seq ≤ h.seq)
    ∧ ∀ g ∈ r.head?, h.seq < g.seq := by
  induction gs with
  | nil => exact ⟨[], [], rfl, rfl, fun _ hg => (nomatch hg), fun _ hg => (nomatch hg)⟩
  | cons g gs ih =>
    unfold insertHeld
    split
    next hlt =>
      refine ⟨[], g :: gs, rfl, rfl, fun _ hg => (nomatch hg), fun k hk => ?_⟩
      cases hk
      exact hlt
    next hge =>
      obtain ⟨l, r, rfl, hi, hl, hr⟩ := ih
      refine ⟨g :: l, r, rfl, by rw [hi]; rfl, fun k hk => ?_, hr⟩
      rcases List.mem_cons.1 hk with rfl | hk
      · exact Nat.not_lt.1 hge
      · exact hl k hk

/-- Among records in program order, what a later record begins is later all through. -/
theorem later_of_head {gs l r : List Held} {q : Nat} (h : gs = l ++ r) (hs : gs.Pairwise (fun g h => g.seq ≤ h.seq)) (hr : ∀ g ∈ r.head?, q < g.seq) :
    ∀ g ∈ r, q < g.seq := by
  subst h
  have hp := (List.pairwise_append.1 hs).2.1
  cases r with
  | nil => exact fun _ hg => nomatch hg
  | cons g r =>
    have hg : q < g.seq := hr g rfl
    intro k hk
    rcases List.mem_cons.1 hk with rfl | hk
    · exact hg
    · exact Nat.lt_of_lt_of_le hg (List.rel_of_pairwise_cons hp hk)

/-- The record that an access leaves which is held back for a reason (R297). -/
def Access.record (a : Access) (w : Why) : Held := ⟨.acc { a with gen := none, stuck := none }, w.cause, w.va, w.write, false, false, w.late, a.seq⟩

/-- With a place free, a faulting access becomes a record in its place. -/
theorem State.holdAccess_posts {s : State} {a : Access} {w : Why} (h : s.th.held.length < 8) : s.holdAccess a w =
    { s with th := { s.th with held := insertHeld (a.record w) s.th.held, acc := s.th.acc.filter (fun b => b.seq ≠ a.seq) } } := by
  unfold State.holdAccess
  rcases (s.dropAccess a).postRecord_cases (.acc { a with gen := none, stuck := none }) w false a.seq with ⟨hfull, -⟩ | ⟨-, hp⟩
  · exact absurd hfull (Nat.not_le.2 h)
  · rw [hp]
    rfl

/-- With every place taken, a faulting access is held back (R297). -/
theorem State.holdAccess_waits {s : State} {a : Access} {w : Why} (h : 8 ≤ s.th.held.length) : s.holdAccess a w =
    { s with th := { s.th with acc := s.th.acc.map (fun b => if b.seq = a.seq then { b with stuck := some w } else b) } } := by
  unfold State.holdAccess
  rcases (s.dropAccess a).postRecord_cases (.acc { a with gen := none, stuck := none }) w false a.seq with ⟨-, hp⟩ | ⟨hfree, -⟩
  · rw [hp]
  · exact absurd hfree (Nat.not_lt.2 h)

/-- The lines of an access begin at its address (R165). -/
theorem lineParts_head (va n : Nat) : ∃ m rest, lineParts va n = (va, m) :: rest := by
  unfold lineParts linePartsOf
  dsimp only
  split
  · exact ⟨_, _, rfl⟩
  · exact ⟨_, _, rfl⟩

/-- An access whose address does not translate faults there. -/
theorem State.perform_bad {s u : State} {a : Access} {c : Nat} (h : s.translate (s.reqOf a) a.va = (.bad c, u)) :
    s.perform a = (.fault c a.va, u) := by
  obtain ⟨m, rest, hp⟩ := lineParts_head a.va a.op.bytes
  unfold State.reqOf at h
  unfold State.perform
  rw [hp]
  unfold State.translateAll
  rw [h]

/-- A release leaves the thread that makes it. -/
theorem State.beforeAccess_th (s : State) (a : Access) : (s.beforeAccess a).th = s.th := by
  unfold State.beforeAccess
  split
  · exact s.released_th a.scope
  · rfl

/-- The next access, where it does not translate, is held for its cause and its address (R20, R297). -/
theorem State.performAccess_bad {s u : State} {a : Access} {c : Nat} {ofKind : AccOp → Bool} (h : s.NextAccess a) (hk : ofKind a.op = true)
    (ht : (s.beforeAccess a).translate (s.reqOf a) a.va = (.bad c, u)) :
    u.th = s.th ∧ s.performAccess ofKind = u.holdAccess a ⟨c, a.va, a.op.kind.writes, s.th.uact⟩ := by
  obtain ⟨hb, hu, hacc, hstuck, hmay, hbehind, hrel⟩ := h
  have hth : u.th = s.th := by
    have hx := ((s.beforeAccess a).translate_frame (s.reqOf a) a.va).same
    rw [ht] at hx
    exact (congrArg State.th (show u = _ from hx)).trans (s.beforeAccess_th a)
  refine ⟨hth, ?_⟩
  have hreq : (s.beforeAccess a).reqOf a = s.reqOf a := by
    unfold State.reqOf
    rw [s.beforeAccess_th]
  have hgo : (if a.releases then s.tryRelease a.scope else (true, s)) = (true, s.beforeAccess a) := by
    unfold State.beforeAccess
    by_cases hr : a.releases = true
    · rw [if_pos hr, if_pos hr]
      exact s.tryRelease_go a.scope (hrel.resolve_left (by rw [hr]; decide))
    · rw [if_neg hr, if_neg hr]
  unfold State.performAccess
  dsimp only
  rw [hu, s.focus_self hb, hb, beq_self_eq_true, Bool.true_and, if_neg (by decide), hacc]
  dsimp only
  rw [hk, hstuck, hmay, if_neg (by decide), hbehind]
  dsimp only
  rw [hgo]
  dsimp only
  rw [if_neg (by decide), State.perform_bad (hreq ▸ ht)]
  dsimp only
  rw [hth]

/-- The event that performs an access (R84, R172). -/
def AccOp.event : AccOp → Instr
  | .ld .. | .ldv | .nmstat => .loadReturn
  | .st .. | .stv | .pclr => .storePerform
  | .amo .. | .cas .. => .atomicPerform

theorem State.performed_bad {s u : State} {a : Access} {c : Nat} (h : s.NextAccess a)
    (ht : (s.beforeAccess a).translate (s.reqOf a) a.va = (.bad c, u)) :
    u.th = s.th ∧ exec a.op.event s = .next (u.holdAccess a ⟨c, a.va, a.op.kind.writes, s.th.uact⟩) := by
  have key : ∀ ofKind : AccOp → Bool, ofKind a.op = true →
      u.th = s.th ∧ Host.Outcome.next (s.performAccess ofKind) = (.next (u.holdAccess a ⟨c, a.va, a.op.kind.writes, s.th.uact⟩) : Out) := by
    intro ofKind hk
    obtain ⟨h1, h2⟩ := State.performAccess_bad h hk ht
    exact ⟨h1, congrArg _ h2⟩
  cases hk : a.op with
  | ld | ldv | nmstat | st | stv | pclr | amo | cas =>
    rw [hk] at key
    exact key _ rfl

/-- The event that posts a held-back access, at a thread that is bound. -/
theorem State.heldFaultPost_some {s : State} {a : Access} {w : Why} (hb : s.th.bound = true) (hu : s.ev.unit = s.th.slot)
    (ha : s.th.acc[s.ev.idx]? = some a) (hw : a.stuck = some w) :
    exec .heldFaultPost s = .next (if 8 ≤ s.th.held.length then s else s.holdAccess a w) := by
  show execHeldFaultPost s = _
  unfold execHeldFaultPost
  dsimp only
  rw [hu, s.focus_self hb, hb, beq_self_eq_true, Bool.true_and, if_neg (by decide), ha]
  dsimp only
  rw [hw]

theorem State.heldFaultPost_none {s : State} {a : Access} (hb : s.th.bound = true) (hu : s.ev.unit = s.th.slot)
    (ha : s.th.acc[s.ev.idx]? = some a) (hw : a.stuck = none) : exec .heldFaultPost s = .next s := by
  show execHeldFaultPost s = _
  unfold execHeldFaultPost
  dsimp only
  rw [hu, s.focus_self hb, hb, beq_self_eq_true, Bool.true_and, if_neg (by decide), ha]
  dsimp only
  rw [hw]

/-- Settles O21: the access faults at its first line (`State.performAccess_bad`), and its record goes into its place (`insertHeld_split`) or
it is held back. -/
theorem accessFaults : Obligations.AccessFaults := by
  unfold Obligations.AccessFaults
  intro s a load e held why
  have place : ∀ (t : State) (w : Why), t.th.held = insertHeld (a.record w) s.th.held → held t w := by
    intro t w ht
    obtain ⟨l, r, hsplit, hins, hl, hr⟩ := insertHeld_split (a.record w) s.th.held
    exact ⟨l, r, hsplit, hl, hr, fun hs => later_of_head hsplit hs hr, ht.trans hins⟩
  have he : ∀ op, a.op = op → e = exec op.event s := by
    intro op hk
    simp only [e, load, hk]
    cases op with
    | ld | ldv | nmstat | st | stv | pclr | amo | cas => rfl
  have faults : ∀ (c : Nat) (u : State), s.NextAccess a → (s.beforeAccess a).translate (s.reqOf a) a.va = (.bad c, u) →
      u.th = s.th ∧ e = .next (u.holdAccess a (why c)) := fun c u hn ht => he a.op rfl ▸ State.performed_bad hn ht
  refine ⟨fun c u hn hfree ht => ?_, fun c u hn hfull ht => ?_, fun hb hu ha => ⟨fun w hw hfree => ?_, fun hw hfull => ?_, fun hw => ?_⟩⟩
  · obtain ⟨hth, he⟩ := faults c u hn ht
    rw [State.holdAccess_posts (by rw [hth]; exact hfree), hth] at he
    exact ⟨_, he, place _ _ rfl, rfl, hth⟩
  · obtain ⟨hth, he⟩ := faults c u hn ht
    rw [State.holdAccess_waits (by rw [hth]; exact hfull), hth] at he
    exact he
  · have he := State.heldFaultPost_some hb hu ha hw
    rw [if_neg (Nat.not_le.2 hfree), State.holdAccess_posts hfree] at he
    exact ⟨_, he, place _ _ rfl, rfl⟩
  · obtain ⟨w, hw⟩ := Option.ne_none_iff_exists'.1 hw
    rw [State.heldFaultPost_some hb hu ha hw, if_pos hfull]
  · exact State.heldFaultPost_none hb hu ha hw

end Sys2Proof.Machine
end

section
/-!
PROOF. What most operations leave alone of threads: mode, slot, identity and PC (O55, O57).
-/
namespace Sys2Proof.Machine
open Sys2Proof

/-- What a thread is, and where it stands: its mode, its slot, its identity and its PC (R9, R10). -/
def Thread.face (t : Thread) : Bool × Nat × Ident × Nat × Nat × Word := (t.sys, t.slot, t.ident, t.gsize, t.prio, t.pc)

/-- The face of the thread at hand, and the other threads: what most of the machine's operations leave alone. -/
def State.face (s : State) : (Bool × Nat × Ident × Nat × Nat × Word) × Tab Thread := (s.th.face, s.others)

@[simp] theorem Thread.face_mk {
    bound slot ident gsize prio sys x f live pc uact epc cause tval uvec usave notices heldNotices iret rmode fflags othresh clamplo
    clamphi loop0 loop1 score lease mstride mrow streams acc held redo packet arrived arriveHand depart progress phase frame allow ring
    ixReq ixAns swWait ixRegs mownWait mma stalled relWait latched lastIssue occupied seq boundAt gangSeen devSeen sysSeen fences ixSeen
    codeSeen} :
    (Thread.mk
      bound slot ident gsize prio sys x f live pc uact epc cause tval uvec usave notices heldNotices iret rmode fflags othresh clamplo
      clamphi loop0 loop1 score lease mstride mrow streams acc held redo packet arrived arriveHand depart progress phase frame allow ring
      ixReq ixAns swWait ixRegs mownWait mma stalled relWait latched lastIssue occupied seq boundAt gangSeen devSeen sysSeen fences ixSeen
      codeSeen).face = (sys, slot, ident, gsize, prio, pc) := (rfl)

@[simp] theorem Thread.face_of_fields (t : Thread) : (t.sys, t.slot, t.ident, t.gsize, t.prio, t.pc) = t.face := (rfl)

@[simp] theorem State.face_mk {
    th others agenda ev nmuAt draw packets clock skew halted bootStep cfg mem loc keys tags poison bad weak badLoc icache regs now locPast
    memPast tlb walk gs gd genSent scans gangs ghosts launches nextLaunch completions ports tenants reserves weights charges landings
    counts copyQ units drains tableQ nmQ nmus resumes loads indexes ixQ ixPaused store rings usage bars reportSeq epoch erased keyEpoch
    quarantined inReset budgets nextBudgets period reply replyError retained monel} :
    (State.mk
      th others agenda ev nmuAt draw packets clock skew halted bootStep cfg mem loc keys tags poison bad weak badLoc icache regs now
      locPast memPast tlb walk gs gd genSent scans gangs ghosts launches nextLaunch completions ports tenants reserves weights charges
      landings counts copyQ units drains tableQ nmQ nmus resumes loads indexes ixQ ixPaused store rings usage bars reportSeq epoch erased
      keyEpoch quarantined inReset budgets nextBudgets period reply replyError retained monel).face = (th.face, others) := (rfl)

@[simp] theorem State.face_of_fields (s : State) : (s.th.face, s.others) = s.face := (rfl)

end Sys2Proof.Machine
end

section
/-!
PROOF. Each operation that leaves the modes, slots, identities and PCs of all threads alone (O55, O57).
-/
namespace Sys2Proof.Machine
open Sys2Proof

/-- A translation leaves the thread at hand and the others. -/
theorem XlatFrame.face {s u : State} (h : XlatFrame s u) : u.face = s.face := by
  rw [h.same]
  rfl

/-- What each of a row of operations leaves alone, the row leaves alone. -/
theorem State.foldl_face {α : Type} {f : State → α → State} (h : ∀ u a, (f u a).face = u.face) (l : List α) :
    ∀ s, (l.foldl f s).face = s.face := by
  induction l with
  | nil => exact fun _ => rfl
  | cons a l ih => exact fun s => (ih _).trans (h s a)

theorem State.ite_face {p : Prop} [Decidable p] {s u v : State} (hu : u.face = s.face) (hv : v.face = s.face) :
    (if p then u else v).face = s.face := by
  split
  · exact hu
  · exact hv

@[simp] theorem State.setTh_face (s : State) (t : Thread) : (s.setTh t).face = (t.face, s.others) := rfl

/-! ### Regs -/

@[simp] theorem State.setX_face (s : State) (r : Reg) (v : Word) : (s.setX r v).face = s.face := by
  unfold State.setX
  split <;> simp

@[simp] theorem State.setF_face (s : State) (r : Reg) (v : LaneReg) : (s.setF r v).face = s.face := rfl

@[simp] theorem State.drawBit_face (s : State) : (s.drawBit).2.face = s.face := rfl

@[simp] theorem State.drawNat_face (s : State) : (s.drawNat).2.face = s.face := rfl

@[simp] theorem State.putGang_face (s : State) (g : Gang) : (s.putGang g).face = s.face := rfl

@[simp] theorem State.writeLoc1_face (s : State) (o : Owner) (la : Nat) (v : Byte) : (s.writeLoc1 o la v).face = s.face := by
  unfold State.writeLoc1
  split <;> simp

@[simp] theorem State.writeLoc_face (s : State) (o : Owner) (la : Nat) (x1 : List Byte) : (s.writeLoc o la x1).face = s.face := by
  obtain ⟨m, h⟩ := State.writeLoc_frame o x1 s la
  rw [h]
  rfl

@[simp] theorem State.mapPast_face (s : State) (f : Past → Past) : (s.mapPast f).face = s.face := rfl

@[simp] theorem State.fire_face (s : State) (v : View) : (s.fire v).face = s.face := by
  unfold State.fire
  split <;> simp

@[simp] theorem State.noteKey_face (s : State) (v : View) (key : Nat) (mask : BitVec 8) : (s.noteKey v key mask).face = s.face := by
  unfold State.noteKey
  simp

@[simp] theorem State.readLocWords_face (s : State) (v : View) (la n : Nat) (p : Past → Bool) :
    (s.readLocWords v la n p).face = s.face := rfl

@[simp] theorem State.touchLoc_face (s : State) (v : View) (la n : Nat) : (s.touchLoc v la n).face = s.face := rfl

@[simp] theorem State.putKey_face (s : State) (v : View) (key : Nat) (bs : List Byte) : (s.putKey v key bs).face = s.face := by
  unfold State.putKey
  simp

@[simp] theorem State.putPart_face (s : State) (v : View) (la : Nat) (bs : List Byte) : (s.putPart v la bs).face = s.face := by
  unfold State.putPart
  dsimp only
  rw [State.face_mk]
  show ((List.foldl _ s _).writeLoc _ la bs).face = s.face
  rw [State.writeLoc_face]
  exact State.foldl_face (fun _ _ => State.noteKey_face ..) _ _

@[simp] theorem State.putLoc_face (s : State) (v : View) (la : Nat) (bs : List Byte) : (s.putLoc v la bs).face = s.face := by
  unfold State.putLoc
  dsimp only
  split <;> simp

@[simp] theorem State.putUnits_face (s : State) (unit : Nat) (v : View) (la : Nat) (x1 : Nat) (x2 : List Byte) :
    (s.putUnits unit v la x1 x2).face = s.face := by
  induction x1 generalizing s la x2 with
  | zero => rfl
  | succ fuel ih =>
    unfold State.putUnits
    split <;> simp [ih]

@[simp] theorem State.putEngine_face (s : State) (v : View) (la : Nat) (bs : List Byte) : (s.putEngine v la bs).face = s.face := by
  unfold State.putEngine
  simp

@[simp] theorem State.putElems_face (s : State) (unit : Nat) (v : View) (la : Nat) (bs : List Byte) :
    (s.putElems unit v la bs).face = s.face := by
  unfold State.putElems
  simp

@[simp] theorem State.putFields_face (s : State) (v : View) (la : Nat) (x1 : List (List Byte)) : (s.putFields v la x1).face = s.face := by
  induction x1 generalizing s la with
  | nil => rfl
  | cons f r ih => simp [State.putFields, ih]

@[simp] theorem State.settleLoc_face (s : State) (key n : Nat) : (s.settleLoc key n).face = s.face := rfl

@[simp] theorem State.adopt_face (s : State) (p : Past → Bool) : (s.adopt p).face = s.face := rfl

@[simp] theorem State.adoptPath_face (s : State) (p : PathId) (cluster : Nat) : (s.adoptPath p cluster).face = s.face := rfl

@[simp] theorem State.adoptAll_face (s : State) (i : Ident) : (s.adoptAll i).face = s.face := rfl

@[simp] theorem State.releaseWhere_face (s : State) (p : Past → Bool) (o : Order) : (s.releaseWhere p o).face = s.face := by
  unfold State.releaseWhere
  split <;> simp

@[simp] theorem State.released_face (s : State) (o : Order) : (s.released o).face = s.face := by
  unfold State.released
  simp

@[simp] theorem State.bring_face (s : State) (die : Nat) (p : Past → Bool) : (s.bring die p).face = s.face := rfl

@[simp] theorem State.renew_face (s : State) (die : Nat) (x1 : Order) : (s.renew die x1).face = s.face := by
  unfold State.renew
  split <;> simp

@[simp] theorem State.acquire_face (s : State) (o : Order) : (s.acquire o).face = s.face := by
  unfold State.acquire
  split <;> simp

@[simp] theorem State.releasedAll_face (s : State) (o : Order) : (s.releasedAll o).face = s.face := by
  unfold State.releasedAll
  simp

@[simp] theorem State.dropIcache_face (s : State) (core : Nat) : (s.dropIcache core).face = s.face := rfl

@[simp] theorem State.seesCode_face (s : State) : (s.seesCode).face = s.face := rfl

@[simp] theorem State.arriveKey_face (s : State) (key n : Nat) (err : Bool) : (s.arriveKey key n err).face = s.face := by
  unfold State.arriveKey
  simp

@[simp] theorem State.arrive_face (s : State) (o : Owner) (la n : Nat) (err : Bool) : (s.arrive o la n err).face = s.face := by
  unfold State.arrive
  grind [State.arriveKey_face]

@[simp] theorem State.putUnit_face (s : State) (core : Nat) (u : MatrixUnit) : (s.putUnit core u).face = s.face := rfl

@[simp] theorem State.use_face (s : State) (fn counter n : Nat) : (s.use fn counter n).face = s.face := rfl

@[simp] theorem State.countRival_face (s : State) : (s.countRival).face = s.face := rfl

@[simp] theorem State.count_face (s : State) : (s.count).face = s.face := rfl

@[simp] theorem State.stall_face (s : State) : (s.stall).face = s.face := rfl

@[simp] theorem State.stallWith_face (s : State) (bs : List Byte) : (s.stallWith bs).face = s.face := rfl

@[simp] theorem State.inRelease_face (s : State) (o : Order) : (s.inRelease o).face = s.face := rfl

/-! ### Operands -/

@[simp] theorem State.setStream_face (s : State) (k : Fin 4) (st : Option Stream) : (s.setStream k st).face = s.face := rfl

@[simp] theorem State.putBlock_face (s : State) (st : Stream) (k : Nat) (v : LaneReg) : (s.putBlock st k v).face = s.face := by
  unfold State.putBlock
  exact State.foldl_face (fun _ _ => by simp) _ _

@[simp] theorem State.advanceStreams_face (s : State) (rs : List Reg) : (s.advanceStreams rs).face = s.face := rfl

@[simp] theorem State.writeF_face (s : State) (r : Reg) (v : LaneReg) : (s.writeF r v).face = s.face := by
  unfold State.writeF
  split <;> simp

@[simp] theorem State.loadF_face (s : State) (r : Reg) (v : LaneReg) : (s.loadF r v).face = s.face := by
  unfold State.loadF
  grind [State.advanceStreams_face, State.putBlock_face, State.setF_face]

/-! ### Paging -/

@[simp] theorem State.rekey_face (s : State) (key unit : Nat) : (s.rekey key unit).face = s.face := (State.rekey_frame _ _ _).face

@[simp] theorem State.physWrite1_face (s : State) (key pa : Nat) (v : Byte) : (s.physWrite1 key pa v).face = s.face := by
  unfold State.physWrite1
  simp

@[simp] theorem State.physWrite_face (s : State) (key pa : Nat) (x1 : List Byte) :
    (s.physWrite key pa x1).face = s.face := (State.physWrite_frame _ _ _ _).face

@[simp] theorem State.wakeSlice_face (s : State) (slice : Nat) : (s.wakeSlice slice).face = s.face := (State.wakeSlice_frame _ _).face

@[simp] theorem State.recall_face (s : State) (word : Nat) : (s.recall word).face = s.face := (State.recall_frame _ _).face

@[simp] theorem State.recallIn_face (s : State) (pa n : Nat) : (s.recallIn pa n).face = s.face := (State.recallIn_frame _ _ _).face

@[simp] theorem State.sliceRoom_face (s : State) (slice word : Nat) :
    (s.sliceRoom slice word).face = s.face := (State.sliceRoom_frame _ _ _).face

@[simp] theorem State.toSlice_face (s : State) (word : Nat) : (s.toSlice word).face = s.face := (State.toSlice_frame _ _).face

@[simp] theorem State.perhapsEvicted_face (s : State) (pa n : Nat) : (s.perhapsEvicted pa n).face = s.face := by
  unfold State.perhapsEvicted
  refine State.foldl_face (fun u w => ?_) _ _
  dsimp only
  split <;> simp

@[simp] theorem State.putEntry_face (s : State) (pa : Nat) (w : Word) : (s.putEntry pa w).face = s.face := (State.putEntry_frame _ _ _).face

@[simp] theorem State.walkRead_face (s : State) (slice pa : Nat) (fresh : Bool) :
    (s.walkRead slice pa fresh).2.face = s.face := (State.walkRead_frame _ _ _ _).face

@[simp] theorem State.members_face (s : State) (slice first : Nat) (fresh : Bool) (x1 : Nat) :
    (s.members slice first fresh x1).2.face = s.face := (State.members_frame _ _ _ _ _).face

@[simp] theorem State.pickMember_face (s : State) (slice entry : Nat) (w : Word) (fresh : Bool) :
    (s.pickMember slice entry w fresh).2.2.2.face = s.face := (State.pickMember_frame _ _ _ _ _).face

@[simp] theorem State.walkLeaf_face (s : State) (slice entry level : Nat) (w : Word) (fresh : Bool) :
    (s.walkLeaf slice entry level w fresh).2.face = s.face := (State.walkLeaf_frame _ _ _ _ _ _).face

@[simp] theorem State.walkFrom_face (s : State) (slice va : Nat) (fresh : Bool) (x1 : Nat) (x2 : Nat) :
    (s.walkFrom slice va fresh x1 x2).2.face = s.face := (State.walkFrom_frame _ _ _ _ _ _).face

@[simp] theorem State.walkVa_face (s : State) (slice fn va : Nat) (fresh : Bool) :
    (s.walkVa slice fn va fresh).2.face = s.face := (State.walkVa_frame _ _ _ _ _).face

@[simp] theorem State.leafOf_face (s : State) (r : Req) (slice va : Nat) (fresh : Bool) (x1 : Nat) :
    (s.leafOf r slice va fresh x1).2.face = s.face := (State.leafOf_frame _ _ _ _ _ _).face

@[simp] theorem State.translateWalked_face (s : State) (r : Req) (slice va : Nat) (fresh : Bool) :
    (s.translateWalked r slice va fresh).2.face = s.face := (State.translateWalked_frame _ _ _ _ _).face

@[simp] theorem State.translateAt_face (s : State) (r : Req) (slice va : Nat) :
    (s.translateAt r slice va).2.face = s.face := (State.translateAt_frame _ _ _ _).face

@[simp] theorem State.setD_face (s : State) (key : Nat) : (s.setD key).face = s.face := (State.setD_frame _ _).face

@[simp] theorem State.translate_face (s : State) (r : Req) (va : Nat) :
    (s.translate r va).2.face = s.face := (State.translate_frame _ _ _).face

/-! ### Access -/

@[simp] theorem State.notePast_face (s : State) (k : Nat) (r : Past) : (s.notePast k r).face = s.face := rfl

@[simp] theorem State.noteWord_face (s : State) (v : View) (key : Nat) (tracked : Bool) (scope : Order) (word : Nat) (mask : BitVec 8) :
    (s.noteWord v key tracked scope word mask).face = s.face := by
  unfold State.noteWord
  split <;> simp

@[simp] theorem State.noteMem_face (s : State) (v : View) (key : Nat) (tracked : Bool) (scope : Order) (pa n : Nat) :
    (s.noteMem v key tracked scope pa n).face = s.face := by
  unfold State.noteMem
  exact State.foldl_face (fun _ _ => by simp) _ _

@[simp] theorem State.readMemWords_face (s : State) (v : View) (tracked : Bool) (pa n : Nat) (p : Past → Bool) :
    (s.readMemWords v tracked pa n p).face = s.face := rfl

@[simp] theorem State.settleMem_face (s : State) (pa n : Nat) : (s.settleMem pa n).face = s.face := rfl

@[simp] theorem State.hubWrite_face (s : State) (key pa : Nat) (bs : List Byte) : (s.hubWrite key pa bs).face = s.face := by
  unfold State.hubWrite
  simp

@[simp] theorem State.makeRoom_face (s : State) (core word : Nat) : (s.makeRoom core word).face = s.face := by
  unfold State.makeRoom
  dsimp only
  split
  · rfl
  · exact (State.foldl_face (fun u w => u.toSlice_face w) _ _).trans (by simp)

@[simp] theorem State.registerWord_face (s : State) (k : Keeper) (key va pa : Nat) (bs : List Byte) :
    (s.registerWord k key va pa bs).face = s.face := by
  unfold State.registerWord
  grind [State.makeRoom_face, State.recall_face, State.sliceRoom_face, State.wakeSlice_face, State.face, Thread.face]

@[simp] theorem State.registerBytes_face (s : State) (k : Keeper) (key va pa : Nat) (bs : List Byte) (x1 : Nat) :
    (s.registerBytes k key va pa bs x1).face = s.face := by
  induction x1 generalizing s va pa bs with
  | zero => rfl
  | succ fuel ih =>
    unfold State.registerBytes
    split <;> simp [ih]

@[simp] theorem State.useHbm_face (s : State) (fn : Nat) (p : Phys) (n : Nat) : (s.useHbm fn p n).face = s.face := rfl

@[simp] theorem State.retagRows_face (s : State) (leaf : Word) (pa n : Nat) : (s.retagRows leaf pa n).face = s.face := by
  unfold State.retagRows
  split <;> simp

@[simp] theorem State.unpoison_face (s : State) (pa n : Nat) : (s.unpoison pa n).face = s.face := rfl

@[simp] theorem State.storeAt_face (s : State) (v : View) (k : Keeper) (fn : Nat) (scope : Order) (va : Nat) (p : Phys) (bs : List Byte) :
    (s.storeAt v k fn scope va p bs).face = s.face := by
  unfold State.storeAt
  repeat' (split; all_goals simp)

@[simp] theorem State.translateAll_face (s : State) (r : Req) (x1 : List (Nat × Nat)) : (s.translateAll r x1).2.face = s.face := by
  induction x1 generalizing s with
  | nil => rfl
  | cons p l ih =>
    unfold State.translateAll
    grind [State.translate_face]

@[simp] theorem State.readParts_face (s : State) (v : View) (fn : Nat) (x1 : List (Nat × Nat × Phys)) :
    (s.readParts v fn x1).2.face = s.face := by
  induction x1 generalizing s with
  | nil => rfl
  | cons p l ih =>
    obtain ⟨va, n, p⟩ := p
    unfold State.readParts
    dsimp only
    rw [ih]
    split <;> simp

@[simp] theorem State.storeParts_face (s : State) (v : View) (fn : Nat) (scope : Order) (bs : List Byte) (x1 : List (Nat × Nat × Phys)) :
    (s.storeParts v fn scope bs x1).face = s.face := by
  induction x1 generalizing s bs with
  | nil => rfl
  | cons p l ih => simp [State.storeParts, ih]

@[simp] theorem State.writeParts_face (s : State) (v : View) (fn : Nat) (scope : Order) (bs : List Byte) (ps : List (Nat × Nat × Phys)) :
    (s.writeParts v fn scope bs ps).face = s.face := by
  unfold State.writeParts
  exact (State.foldl_face (fun _ _ => State.useHbm_face ..) _ _).trans (State.storeParts_face ..)

@[simp] theorem State.atomicPlace_face (s : State) (k : Keeper) (p : Phys) (n : Nat) : (s.atomicPlace k p n).face = s.face := by
  unfold State.atomicPlace
  split
  · rfl
  · exact State.foldl_face (fun u w => u.toSlice_face w) _ _
  · simp

@[simp] theorem State.atomicAt_face (s : State) (v : View) (fn : Nat) (scope : Order) (va : Nat) (p : Phys) (n : Nat) (f : Nat → Option Nat) :
    (s.atomicAt v fn scope va p n f).2.face = s.face := by
  unfold State.atomicAt
  dsimp only
  split
  · simp
  · simp only [State.useHbm_face, State.face_mk]
    split <;> simp

@[simp] theorem State.fetchParts_face (s : State) (scope : Order) (ps : List (Nat × Nat × Phys)) :
    (s.fetchParts scope ps).face = s.face := by
  unfold State.fetchParts
  exact State.foldl_face (fun _ _ => by simp) _ _

@[simp] theorem State.effect_face (s : State) (a : Access) (ps : List (Nat × Nat × Phys)) : (s.effect a ps).face = s.face := by
  unfold State.effect
  grind [State.acquire_face, State.atomicAt_face, State.atomicPlace_face, State.fetchParts_face, State.loadF_face, State.readParts_face,
    State.setX_face, State.storeAt_face, State.useHbm_face, State.writeParts_face, State.face, Thread.face]

@[simp] theorem State.perform_face (s : State) (a : Access) : (s.perform a).2.face = s.face := by
  unfold State.perform
  grind [State.effect_face, State.translateAll_face]

/-! ### Gangs -/

@[simp] theorem State.releaseUnit_face (s : State) (core : Nat) : (s.releaseUnit core).face = s.face := by
  unfold State.releaseUnit
  dsimp only
  split <;> simp

@[simp] theorem State.loseUnit_face (s : State) (core : Nat) (o : Owner) : (s.loseUnit core o).face = s.face := by
  unfold State.loseUnit
  dsimp only
  repeat' (split; all_goals simp)

@[simp] theorem State.leaveMma_face (s : State) : (s.leaveMma).face = s.face := by
  unfold State.leaveMma
  split <;> simp

@[simp] theorem State.leaveMown_face (s : State) : (s.leaveMown).face = s.face := by
  unfold State.leaveMown
  repeat' (split; all_goals simp)

@[simp] theorem State.postCount_face (s : State) (p : Packet) (err : Bool) : (s.postCount p err).face = s.face := rfl

@[simp] theorem State.abortPacket_face (s : State) : (s.abortPacket).face = s.face := by
  unfold State.abortPacket
  split <;> simp

@[simp] theorem State.mapOwners_face (s : State) (f : Owner → Owner) : (s.mapOwners f).face = s.face := rfl

@[simp] theorem State.endFailed_face (s : State) : (s.endFailed).face = s.face := by
  unfold State.endFailed
  refine (State.foldl_face (fun _ _ => State.arrive_face ..) _ _).trans ?_
  split <;> rfl

@[simp] theorem State.orphan_face (s : State) : (s.orphan).face = s.face := by
  unfold State.orphan
  simp

@[simp] theorem State.endClaimsOf_face (s : State) (p : Ident → Bool) : (s.endClaimsOf p).face = s.face := rfl

@[simp] theorem State.endClaims_face (s : State) (i : Ident) : (s.endClaims i).face = s.face := rfl

@[simp] theorem State.freePlaces_face (s : State) (p : Ident → Bool) : (s.freePlaces p).face = s.face := rfl

@[simp] theorem State.flushStores_face (s : State) : (s.flushStores).face = s.face := by
  unfold State.flushStores
  exact State.foldl_face (fun _ _ => by simp) _ _

@[simp] theorem State.noteGot_face (s : State) : (s.noteGot).face = s.face := rfl

@[simp] theorem State.putLaunch_face (s : State) (l : Launch) : (s.putLaunch l).face = s.face := rfl

@[simp] theorem State.closeLaunch_face (s : State) (fn id : Nat) : (s.closeLaunch fn id).face = s.face := by
  unfold State.closeLaunch
  repeat' (split; all_goals simp)

@[simp] theorem State.finishGang_face (s : State) (g : Gang) : (s.finishGang g).face = s.face := by
  unfold State.finishGang
  repeat' (split; all_goals simp)

@[simp] theorem State.endRank_face (s : State) (i : Ident) (value : Option Int) : (s.endRank i value).face = s.face := by
  unfold State.endRank
  split <;> simp

/-! ### Ops -/

@[simp] theorem State.through_face (s : State) (ws : List Nat) : (s.through ws).face = s.face := by
  unfold State.through
  exact State.foldl_face (fun _ _ => by simp) _ _

@[simp] theorem State.throughOutside_face (s : State) : (s.throughOutside).face = s.face := by
  unfold State.throughOutside
  simp

@[simp] theorem State.tryRelease_face (s : State) (o : Order) : (s.tryRelease o).2.face = s.face := by
  unfold State.tryRelease
  repeat' (split; all_goals simp)

theorem State.postRecord_face (s : State) (what : Redo) (w : Why) (engine : Bool) (seq : Nat) :
    ∀ t, (s.postRecord what w engine seq) = some t → t.face = s.face := by
  unfold State.postRecord
  simp

@[simp] theorem State.dropAccess_face (s : State) (a : Access) : (s.dropAccess a).face = s.face := rfl

@[simp] theorem State.holdAccess_face (s : State) (a : Access) (w : Why) : (s.holdAccess a w).face = s.face := by
  unfold State.holdAccess
  grind [State.dropAccess_face, State.postRecord_face, State.face, Thread.face]

@[simp] theorem State.holdBehind_face (s : State) : (s.holdBehind).face = s.face := by
  unfold State.holdBehind
  refine State.foldl_face (fun u a => ?_) _ _
  repeat' split
  all_goals simp

theorem State.sendAgain_face (s : State) (h : Held) : ∀ t, (s.sendAgain h) = some t → t.face = s.face := by
  unfold State.sendAgain
  split <;> simp

@[simp] theorem State.pump_face (s : State) (x1 : List Held) : (s.pump x1).face = s.face := by
  induction x1 generalizing s with
  | nil => rfl
  | cons h r ih =>
    unfold State.pump
    split
    next u hu => rw [ih, s.sendAgain_face h u hu]
    next => rfl

/-! ### Fetch -/

@[simp] theorem State.icacheRoom_face (s : State) (core k : Nat) : (s.icacheRoom core k).face = s.face := by
  unfold State.icacheRoom
  dsimp only
  split <;> simp

@[simp] theorem State.fetchHalf_face (s : State) (va : Nat) : (s.fetchHalf va).2.face = s.face := by
  unfold State.fetchHalf
  grind [State.drawBit_face, State.icacheRoom_face, State.perhapsEvicted_face, State.translate_face, State.useHbm_face, State.face,
    Thread.face]

@[simp] theorem State.fetch_face (s : State) : (s.fetch).2.face = s.face := by
  unfold State.fetch
  grind [State.fetchHalf_face]

/-! ### Flags -/

@[simp] theorem State.raise_face (s : State) (f : Flags) : (s.raise f).face = s.face := rfl

/-! ### Mem -/

@[simp] theorem State.gangAcquire_face (s : State) (o : Bool) (la n : Nat) : (s.gangAcquire o la n).face = s.face := by
  unfold State.gangAcquire
  split <;> simp

@[simp] theorem State.ownPut_face (s : State) (la : Nat) (bs : List Byte) : (s.ownPut la bs).face = s.face := by
  unfold State.ownPut
  simp

@[simp] theorem State.arm_face (s : State) : (s.arm).face = s.face := rfl

@[simp] theorem State.fenceTo_face (s : State) (f t : PathId) : (s.fenceTo f t).face = s.face := rfl

@[simp] theorem State.seeEntries_face (s : State) : (s.seeEntries).face = s.face := rfl

@[simp] theorem State.ownTouch_face (s : State) (la : Nat) : (s.ownTouch la).face = s.face := rfl

/-! ### Parallel -/

@[simp] theorem State.accept_face (s : State) (p : LaunchPacket) (fn : Nat) (host : Bool) : (s.accept p fn host).2.face = s.face := rfl

@[simp] theorem State.updateRelease_face (s : State) (c : Completion) : (s.updateRelease c).2.face = s.face := by
  unfold State.updateRelease
  repeat' (split; all_goals simp)

/-! ### Engine -/

@[simp] theorem State.enginePages_face (s : State) (r : Req) (va n : Nat) : (s.enginePages r va n).2.face = s.face := by
  unfold State.enginePages
  grind [State.translateAll_face]

@[simp] theorem State.engineRead_face (s : State) (v : View) (r : Req) (va n : Nat) : (s.engineRead v r va n).2.face = s.face := by
  unfold State.engineRead
  grind [State.enginePages_face, State.readParts_face]

@[simp] theorem State.engineWrite_face (s : State) (v : View) (r : Req) (va size : Nat) (bs : List Byte) :
    (s.engineWrite v r va size bs).2.face = s.face := by
  have h := s.enginePages_face r va bs.length
  unfold State.engineWrite
  split
  next heq => simpa [heq] using h
  next ps u heq =>
    rw [heq] at h
    split
    · exact h
    · exact h
    · exact (State.foldl_face (fun _ _ => State.useHbm_face ..) _ _).trans ((u.storeParts_face v r.fn .plain bs _).trans h)

/-! ### Stacks -/

@[simp] theorem State.storeRow_face (s : State) (v : View) (pa : Nat) (bs : List Byte) : (s.storeRow v pa bs).face = s.face := by
  unfold State.storeRow
  refine (State.physWrite_face ..).trans ((State.perhapsEvicted_face ..).trans ?_)
  exact State.foldl_face (fun _ _ => by simp) _ _

@[simp] theorem State.putRowBytes_face (s : State) (v : View) (pa : Nat) (bs : List Byte) : (s.putRowBytes v pa bs).face = s.face := by
  unfold State.putRowBytes
  simp

@[simp] theorem State.putNmu_face (s : State) (n : Nat) (u : Nmu) : (s.putNmu n u).face = s.face := rfl

@[simp] theorem State.dropLostClaim_face (s : State) (o : Owner) : (s.dropLostClaim o).face = s.face := by
  unfold State.dropLostClaim
  split <;> simp

@[simp] theorem State.translateVas_face (s : State) (r : Req) (x1 : List Nat) : (s.translateVas r x1).2.face = s.face := by
  induction x1 generalizing s with
  | nil => rfl
  | cons va l ih =>
    unfold State.translateVas
    grind [State.translate_face]

@[simp] theorem State.tableEffect_face (s : State) (c : TableCmd) (t : Phys) (ps : List Phys) :
    (s.tableEffect c t ps).2.2.face = s.face := by
  have h := State.foldl_face (f := fun s p => s.perhapsEvicted (rowOf p.pa) 1024) (fun _ _ => State.perhapsEvicted_face ..) ps s
  unfold State.tableEffect
  generalize ps.foldl (fun s p => s.perhapsEvicted (rowOf p.pa) 1024) s = u at h
  dsimp only
  split
  · exact h
  · cases hc : (u.nmu (nmuOf t.pa)).claimFor c.owner.ident with
    | none => exact h
    | some n =>
      cases c.op with
      | latch =>
        dsimp only
        split
        · simp [h]
        · split <;> simp [h]
      | mac =>
        dsimp only
        split
        · simp [h]
        · split
          · simp [h]
          · split <;> simp [h]
      | look =>
        dsimp only
        split
        · simp [h]
        · split <;> simp [h]
      | read => simp [h]

/-! ### Nmu -/

@[simp] theorem State.endMessage_face (s : State) (m : NmMsg) (ms : List (BitVec 32)) (status : Nat) :
    (s.endMessage m ms status).face = s.face := by
  unfold State.endMessage
  simp

@[simp] theorem State.setHandler_face (s : State) (n : Nat) (h : Handler) : (s.setHandler n h).face = s.face := rfl

@[simp] theorem State.endHandler_face (s : State) (n : Nat) (h : Handler) (status : Nat) : (s.endHandler n h status).face = s.face := by
  unfold State.endHandler
  simp

@[simp] theorem State.rowNow_face (s : State) (h : Handler) (v pa : Nat) : (s.rowNow h v pa).2.2.face = s.face := by
  unfold State.rowNow
  grind [State.translate_face, State.face, Thread.face]

@[simp] theorem State.putRowOf_face (s : State) (h : Handler) (key : Option Nat) (pa : Nat) (bs : List Byte) :
    (s.putRowOf h key pa bs).face = s.face := by
  unfold State.putRowOf
  rw [State.putRowBytes_face]
  cases key <;> simp

theorem State.writeRow_face (s : State) (h : Handler) (v : Nat) (bs : List Byte) : ∀ t, (s.writeRow h v bs) = .ok t → t.face = s.face := by
  unfold State.writeRow
  split <;> simp

theorem State.zeroRow_face (s : State) (h : Handler) (v : Nat) : ∀ t, (s.zeroRow h v) = .ok t → t.face = s.face := by
  intro t h
  unfold State.zeroRow at h
  grind [State.rowNow_face, State.putRowOf_face, State.use_face]

theorem State.copyRow_face (s : State) (h : Handler) (v w : Nat) : ∀ t, (s.copyRow h v w) = .ok t → t.face = s.face := by
  unfold State.copyRow
  split
  · exact fun t ht => nomatch ht
  next src hr =>
    split
    · exact fun t ht => nomatch ht
    next dst hw =>
      have hn := s.rowNow_face h w dst
      split
      next d k u hq =>
        rw [hq] at hn
        split
        · exact fun t ht => nomatch ht
        · extract_lets near
          split
          · exact fun t ht => nomatch ht
          next put marked moved _ _ =>
            intro t ht
            have hput : put.face = s.face := (u.putRowOf_face h k d _).trans hn
            have hmark : marked.face = s.face := by
              simp only [marked, State.face_mk, State.face_of_fields]
              exact hput
            rw [← Except.ok.inj ht, State.use_face]
            refine State.ite_face ?_ hmark
            simp only [State.face_mk, State.face_of_fields]
            exact hmark

@[simp] theorem State.evictFor_face (s : State) (m : NmMsg) : (s.evictFor m).face = s.face := by
  unfold State.evictFor
  exact State.foldl_face (fun _ _ => by simp) _ _

@[simp] theorem State.toldStop_face (s : State) (i : Ident) (raddr : Nat) : (s.toldStop i raddr).face = s.face := rfl

/-! ### Alnico -/

@[simp] theorem State.putIndex_face (s : State) (handle : Nat) (x : Index) : (s.putIndex handle x).face = s.face := rfl

@[simp] theorem State.dropIx_face (s : State) (k : Nat) : (s.dropIx k).face = s.face := rfl

@[simp] theorem State.ixOut_face (s : State) (c : IxCmd) (k len v : Nat) : (s.ixOut c k len v).face = s.face := by
  unfold State.ixOut
  simp

@[simp] theorem State.endIx_face (s : State) (c : IxCmd) (status : Nat) : (s.endIx c status).face = s.face := by
  unfold State.endIx
  simp

@[simp] theorem State.failIx_face (s : State) (c : IxCmd) (status va : Nat) : (s.failIx c status va).face = s.face := by
  unfold State.failIx
  split <;> simp

@[simp] theorem State.regionFrames_face (s : State) (o : Owner) (home va n need : Nat) :
    (s.regionFrames o home va n need).2.face = s.face := by
  unfold State.regionFrames
  grind [State.translateVas_face]

@[simp] theorem State.answerCreate_face (s : State) (w : Int) : (s.answerCreate w).face = s.face := rfl

@[simp] theorem State.leaveRegion_face (s : State) (x : Index) : (s.leaveRegion x).face = s.face := by
  unfold State.leaveRegion
  exact State.foldl_face (fun _ _ => by simp) _ _

@[simp] theorem State.destroyIndex_face (s : State) (handle : Nat) (x : Index) : (s.destroyIndex handle x).face = s.face := by
  unfold State.destroyIndex
  dsimp only
  rw [State.leaveRegion_face, State.face_mk]
  exact State.foldl_face (fun u c => u.failIx_face c 1 _) _ _

/-! ### Power -/

@[simp] theorem State.endLease_face (s : State) : (s.endLease).face = s.face := rfl

/-! ### Copy -/

@[simp] theorem State.copyBits_face (s : State) (c : CopyCmd) (r : Layout) (n : Nat) : (s.copyBits c r n).2.2.face = s.face := by
  unfold State.copyBits
  grind [State.enginePages_face, State.readParts_face]

@[simp] theorem State.copyRead_face (s : State) (c : CopyCmd) (r : Layout) (n : Nat) : (s.copyRead c r n).2.2.face = s.face := by
  unfold State.copyRead
  grind [State.copyBits_face]

@[simp] theorem State.copyWrite_face (s : State) (c : CopyCmd) (r : Layout) (n bits : Nat) :
    (s.copyWrite c r n bits).2.2.face = s.face := by
  unfold State.copyWrite
  grind [State.enginePages_face, State.putLoc_face, State.writeParts_face]

@[simp] theorem State.copyReads_face (s : State) (c : CopyCmd) (r : Layout) (n : Nat) (x1 : Nat) :
    (s.copyReads c r n x1).2.2.face = s.face := by
  induction x1 generalizing s c n with
  | zero => rfl
  | succ k ih =>
    unfold State.copyReads
    grind [State.copyRead_face]

@[simp] theorem State.copyWrites_face (s : State) (c : CopyCmd) (r : Layout) (x1 : List Nat) : (s.copyWrites c r x1).2.2.face = s.face := by
  induction x1 generalizing s c with
  | nil => rfl
  | cons b rest ih =>
    unfold State.copyWrites
    grind [State.copyWrite_face]

@[simp] theorem State.copyRun_face (s : State) (c : CopyCmd) (src dst : Layout) : (s.copyRun c src dst).2.2.face = s.face := by
  unfold State.copyRun
  grind [State.copyRead_face, State.copyReads_face, State.copyWrites_face, State.putLoc_face]

@[simp] theorem State.copyRuns_face (s : State) (c : CopyCmd) (src dst : Layout) (x1 : Nat) :
    (s.copyRuns c src dst x1).2.2.face = s.face := by
  induction x1 generalizing s c with
  | zero => rfl
  | succ fuel ih =>
    unfold State.copyRuns
    grind [State.copyRun_face]

@[simp] theorem State.setHead_face (s : State) (core : Nat) (c : Option CopyCmd) : (s.setHead core c).face = s.face := rfl

/-! ### Matrix -/

@[simp] theorem State.setUnit_face (s : State) (u : MatrixUnit) : (s.setUnit u).face = s.face := rfl

@[simp] theorem State.operandRow_face (s : State) (x : MOperand) (r : Nat) : (s.operandRow x r).2.face = s.face := by
  unfold State.operandRow
  repeat' (split; all_goals simp)

@[simp] theorem State.operandRows_face (s : State) (x : MOperand) (r : Nat) (x1 : Nat) : (s.operandRows x r x1).2.face = s.face := by
  induction x1 generalizing s r with
  | zero => rfl
  | succ n ih =>
    unfold State.operandRows
    grind [State.operandRow_face]

@[simp] theorem State.addRows_face (s : State) (t : LaneType) (a : MOperand) (sc : Option MOperand) (cols : List (List Exact)) (blocks r : Nat) (x1 : Nat) :
    (s.addRows t a sc cols blocks r x1).2.face = s.face := by
  induction x1 generalizing s r with
  | zero => rfl
  | succ n ih =>
    unfold State.addRows
    grind [State.operandRow_face, State.setUnit_face, State.use_face]

@[simp] theorem State.putRow_face (s : State) (d : Drain) (c : EpCfg) (bs : List Byte) (size : Nat) :
    (s.putRow d c bs size).2.face = s.face := by
  unfold State.putRow
  grind [State.engineWrite_face, State.putUnits_face]

@[simp] theorem State.putOutliers_face (s : State) (v : View) (c : EpCfg) (row : Nat) (x1 : List (Nat × Nat)) (x2 : Nat) :
    (s.putOutliers v c row x1 x2).2.face = s.face := by
  induction x1 generalizing s x2 with
  | nil => rfl
  | cons p r ih =>
    obtain ⟨bits, col⟩ := p
    unfold State.putOutliers
    dsimp only
    rw [ih]
    split <;> simp

@[simp] theorem State.drainOne_face (s : State) (d : Drain) (c : EpCfg) (act : Option ActTable) :
    (s.drainOne d c act).2.2.face = s.face := by
  unfold State.drainOne
  grind [State.putOutliers_face, State.putRow_face, State.putUnits_face]

@[simp] theorem State.drainRows_face (s : State) (d : Drain) (act : Option ActTable) (x1 : Nat) :
    (s.drainRows d act x1).2.2.face = s.face := by
  induction x1 generalizing s d with
  | zero => rfl
  | succ n ih =>
    unfold State.drainRows
    grind [State.drainOne_face]

@[simp] theorem State.drainDone_face (s : State) (d : Drain) (c : EpCfg) : (s.drainDone d c).2.face = s.face := by
  unfold State.drainDone
  split <;> simp

@[simp] theorem State.drainOn_face (s : State) (d : Drain) (c : EpCfg) (n : Nat) : (s.drainOn d c n).2.2.face = s.face := by
  unfold State.drainOn
  grind [State.drainDone_face, State.drainRows_face]

@[simp] theorem State.drainFailed_face (s : State) (o : Owner) (core : Nat) : (s.drainFailed o core).face = s.face := by
  unfold State.drainFailed
  simp

/-! ### Notices -/

@[simp] theorem State.noticed_face (s : State) (slot : Nat) (w : Word) : (s.noticed slot w).face = s.face := by
  unfold State.noticed
  grind [State.arrive_face, State.drainFailed_face, State.toldStop_face, State.face, Thread.face]

/-! ### Save -/

@[simp] theorem State.writeSave_face (s : State) (t : Thread) (prog mown : Bool) : (s.writeSave t prog mown).face = s.face := by
  unfold State.writeSave
  simp

@[simp] theorem State.rawRange_face (s : State) (lo n : Nat) : (s.rawRange lo n).face = s.face := by
  unfold State.rawRange
  exact (State.foldl_face (fun _ _ => State.rekey_face ..) _ _).trans (State.recallIn_face ..)

@[simp] theorem State.rawPlace_face (s : State) (lo n : Nat) (m : Memory) : (s.rawPlace lo n m).face = s.face := rfl

@[simp] theorem State.saveRing_face (s : State) (k : Nat) (i : Ident) (u : MatrixUnit) : (s.saveRing k i u).face = s.face := rfl

@[simp] theorem State.loadRing_face (s : State) (k : Nat) : (s.loadRing k).face = s.face := by
  unfold State.loadRing
  repeat' (split; all_goals simp)

@[simp] theorem State.threadStop_face (s : State) : (s.threadStop).face = s.face := by
  unfold State.threadStop
  simp

theorem State.sendProgress_face (s : State) (p : Progress) : ∀ t, (s.sendProgress p) = some t → t.face = s.face := by
  unfold State.sendProgress
  repeat' (split; all_goals simp)

@[simp] theorem State.sendAll_face (s : State) (x1 : List Progress) : (s.sendAll x1).face = s.face := by
  induction x1 generalizing s with
  | nil => rfl
  | cons p r ih =>
    unfold State.sendAll
    split
    next u hu => rw [ih, s.sendProgress_face p u hu]
    next => rfl

@[simp] theorem State.rebind_face (s : State) : (s.rebind).face = s.face := rfl

@[simp] theorem State.readPlace_face (s : State) : (s.readPlace).face = s.face := by
  unfold State.readPlace
  split <;> simp

@[simp] theorem State.takeLeaving_face (s : State) : (s.takeLeaving).2.face = s.face := by
  unfold State.takeLeaving
  split <;> simp

/-! ### Bind -/

@[simp] theorem State.zeroUnits_face (s : State) (die : Nat) (us : List Nat) : (s.zeroUnits die us).face = s.face := by
  unfold State.zeroUnits
  exact State.foldl_face (fun _ _ => by simp) _ _

@[simp] theorem State.putPort_face (s : State) (die : Nat) (p : BindPort) : (s.putPort die p).face = s.face := rfl

@[simp] theorem State.closePort_face (s : State) (die code : Nat) : (s.closePort die code).face = s.face := rfl

@[simp] theorem State.newRounds_face (s : State) (die prio k : Nat) : (s.newRounds die prio k).face = s.face := rfl

/-! ### External -/

@[simp] theorem State.putBar_face (s : State) (fn : Nat) (b : Bar) : (s.putBar fn b).face = s.face := rfl

@[simp] theorem State.hostStore_face (s : State) (pa : Nat) (bs : List Byte) : (s.hostStore pa bs).face = s.face := by
  unfold State.hostStore
  dsimp only
  split <;> simp

@[simp] theorem State.unwrite_face (s : State) (tracked : Bool) (pa : Nat) (r : Past) : (s.unwrite tracked pa r).face = s.face := by
  unfold State.unwrite
  simp

@[simp] theorem State.destroyIndexes_face (s : State) (fn : Nat) : (s.destroyIndexes fn).face = s.face := by
  unfold State.destroyIndexes
  refine State.foldl_face (fun u e => ?_) _ _
  repeat' split
  all_goals simp

@[simp] theorem State.zeroPad_face (s : State) (core : Nat) : (s.zeroPad core).face = s.face := rfl

@[simp] theorem State.bitError_face (s : State) (pa bit : Nat) : (s.bitError pa bit).face = s.face := by
  unfold State.bitError
  dsimp only
  cases Tab.find s.weak (pa / 32) with
  | none =>
    dsimp only
    split <;> simp
  | some b =>
    dsimp only
    split <;> simp

/-! ### Privileged -/

@[simp] theorem State.dropLines_face (s : State) (es : List Nat) : (s.dropLines es).face = s.face := rfl

@[simp] theorem State.flushRange_face (s : State) (lo n : Nat) : (s.flushRange lo n).face = s.face := by
  unfold State.flushRange
  simp

@[simp] theorem State.dropPage_face (s : State) (fn va : Nat) : (s.dropPage fn va).face = s.face := rfl

@[simp] theorem State.flushLeaves_face (s : State) (ws : List Word) : (s.flushLeaves ws).face = s.face := by
  unfold State.flushLeaves
  exact State.foldl_face (fun _ _ => by simp) _ _

@[simp] theorem State.dropKind_face (s : State) (kind fn va : Nat) : (s.dropKind kind fn va).face = s.face := by
  unfold State.dropKind
  split <;> simp

@[simp] theorem State.sendNotices_face (s : State) : (s.sendNotices).face = s.face := by
  unfold State.sendNotices
  simp

@[simp] theorem State.publish_face (s : State) (g : BitVec 32) : (s.publish g).face = s.face := rfl

@[simp] theorem State.scanLeaf_face (s : State) (die fn va : Nat) : (s.scanLeaf die fn va).2.face = s.face := by
  unfold State.scanLeaf
  grind [State.walkVa_face, State.face, Thread.face]

@[simp] theorem State.swapFrames_face (s : State) (p q : Nat) : (s.swapFrames p q).face = s.face := rfl

@[simp] theorem State.rekeyFrame_face (s : State) (key pa : Nat) : (s.rekeyFrame key pa).face = s.face := by
  unfold State.rekeyFrame
  split
  · simp
  · exact State.foldl_face (fun u k => u.rekey_face key _) _ _

@[simp] theorem State.markFrame_face (s : State) (key pa : Nat) : (s.markFrame key pa).face = s.face := by
  by_cases h : key = 0
  · rw [State.markFrame, if_pos h, State.face_mk, State.face_of_fields]
  · rw [State.markFrame, if_neg h, State.face_mk, State.face_of_fields]

@[simp] theorem State.exchange_face (s : State) (u v : Word) (fp fq : Option Nat) : (s.exchange u v fp fq).face = s.face := by
  unfold State.exchange
  simp

@[simp] theorem State.swapLeaves_face (s : State) (p q : Nat) : (s.swapLeaves p q).face = s.face := by
  unfold State.swapLeaves
  simp

/-! ### Issue -/

@[simp] theorem State.issued_face (s : State) (slot : Nat) : (s.issued slot).face = s.face := by
  unfold State.issued
  split <;> simp

@[simp] theorem State.occupy_face (s : State) (t : Thread) (division : Bool) : (s.occupy t division).face = s.face := by
  unfold State.occupy
  split <;> simp

@[simp] theorem State.withRows_face (s : State) (i : Instr) : (s.withRows i).face = s.face := by
  unfold State.withRows
  split <;> simp

end Sys2Proof.Machine
end

section
/-!
PROOF. Retirement, traps, waits and transfers: the thread goes on as what it is, or it is gone (O55, O57).
-/
namespace Sys2Proof.Machine
open Sys2Proof

/-! ### What an instruction may do to threads -/

/-- What a thread is: its mode, its slot and its identity (R10). -/
def Thread.self (t : Thread) : Bool × Nat × Ident × Nat × Nat := (t.sys, t.slot, t.ident, t.gsize, t.prio)

theorem Thread.face_eq (t : Thread) : t.face = (t.sys, t.slot, t.ident, t.gsize, t.prio, t.pc) := rfl

theorem face_eq_iff {s t : State} : t.face = s.face ↔ t.th.self = s.th.self ∧ t.th.pc = s.th.pc ∧ t.others = s.others := by
  unfold State.face Thread.face Thread.self
  simp only [Prod.mk.injEq]
  tauto

/-- The thread at hand goes on as what it is, with a PC as R9 keeps it, and the other threads stand. -/
structure Acts (s t : State) : Prop where
  self : t.th.self = s.th.self
  pc : PcOk s.th.pc → PcOk t.th.pc
  others : t.others = s.others

/-- The thread at hand goes on as what it is, or it is gone; every PC stays as R9 keeps it. -/
structure Goes (s t : State) : Prop where
  self : t.th = Thread.idle ∨ t.th.self = s.th.self
  pcs : s.PcsOk → t.PcsOk

theorem Acts.of_face {s t : State} (h : t.face = s.face) : Acts s t := by
  obtain ⟨hself, hpc, hothers⟩ := face_eq_iff.1 h
  exact ⟨hself, fun hp => hpc ▸ hp, hothers⟩

theorem Acts.trans {s u t : State} (h : Acts s u) (g : Acts u t) : Acts s t :=
  ⟨g.self.trans h.self, fun hp => g.pc (h.pc hp), g.others.trans h.others⟩

theorem Acts.goes {s t : State} (h : Acts s t) : Goes s t :=
  ⟨.inr h.self, fun ⟨hpc, hothers⟩ => ⟨h.pc hpc, h.others ▸ hothers⟩⟩

theorem Goes.of_face {s t : State} (h : t.face = s.face) : Goes s t := (Acts.of_face h).goes

theorem Goes.after {s u t : State} (h : Acts s u) (g : Goes u t) : Goes s t :=
  ⟨g.self.imp_right fun hs => hs.trans h.self, fun hp => g.pcs (h.goes.pcs hp)⟩

theorem Goes.after_face {s u t : State} (h : u.face = s.face) (g : Goes u t) : Goes s t := .after (.of_face h) g

@[simp] theorem Goes.refl (s : State) : Goes s s := .of_face rfl

/-- The PC bits that R9 keeps. -/
theorem pcOk_pcBits (w : Word) : PcOk (pcBits w) := by
  unfold PcOk pcBits
  rw [BitVec.and_assoc, BitVec.and_self]

/-! ### Retirement -/

theorem loopEnd_self (t : Thread) (p : Word) : (loopEnd t p).self = t.self := by
  rw [loopEnd_eq]
  rfl

theorem loopEnd_pcOk (t : Thread) (p : Word) (h : PcOk t.pc) : PcOk (loopEnd t p).pc := by
  unfold loopEnd
  dsimp only
  split
  · split
    · split
      · exact pcOk_pcBits _
      · split
        · split
          · exact pcOk_pcBits _
          · exact h
        · exact h
    · exact h
  · split
    · split
      · exact pcOk_pcBits _
      · exact h
    · exact h

theorem State.count_acts (s : State) :
    Acts s s.count := ⟨by rw [State.count_th]; rfl, fun h => by rw [State.count_th]; exact h, State.count_others s⟩

theorem State.setTh_acts {s : State} {t : Thread} (hself : t.self = s.th.self) (hpc : PcOk s.th.pc → PcOk t.pc) : Acts s (s.setTh t) :=
  ⟨hself, hpc, rfl⟩

theorem State.loopEnd_acts {s : State} {u : Thread} (p : Word) (hself : u.self = s.th.self) (hpc : PcOk u.pc) :
    Acts s (s.setTh (loopEnd u p)) :=
  State.setTh_acts ((loopEnd_self u p).trans hself) fun _ => loopEnd_pcOk u p hpc

theorem State.retire_acts (s : State) (n : Nat) : Acts s (s.retire n) :=
  (State.loopEnd_acts (u := { s.th with pc := s.pcPlus n }) s.th.pc rfl (pcOk_pcBits _)).trans (State.count_acts _)

theorem State.retireTo_acts (s : State) {g : Word} (hg : PcOk g) : Acts s (s.retireTo g) := by
  unfold State.retireTo
  exact (State.setTh_acts (s := s) (t := loopLeave { s.th with pc := g } g) rfl fun _ => hg).trans (State.count_acts _)

theorem State.retireSkip_acts (s : State) (p next : Word) : Acts s (s.retireSkip p next) :=
  (State.loopEnd_acts (u := { s.th with pc := pcBits next }) p rfl (pcOk_pcBits _)).trans (State.count_acts _)

@[simp] theorem State.retire_goes {s u : State} {n : Nat} (h : u.face = s.face) :
    Goes s (u.retire n) := ((Acts.of_face h).trans (u.retire_acts n)).goes

@[simp] theorem State.result_goes {s u : State} {d : Reg} {v : Word} (h : u.face = s.face) : Goes s (u.result d v) :=
  State.retire_goes (by simp [h])

@[simp] theorem State.stall_goes {s u : State} (h : u.face = s.face) : Goes s u.stall := .of_face (by simp [h])

@[simp] theorem State.stallWith_goes {s u : State} {bs : List Byte} (h : u.face = s.face) :
    Goes s (u.stallWith bs) := .of_face (by simp [h])

@[simp] theorem State.inRelease_goes {s u : State} {o : Order} (h : u.face = s.face) :
    Goes s (u.stall.inRelease o) := .of_face (by simp [h])

/-! ### Reports, and what leaves a slot -/

/-- An idle slot's PC is as R9 keeps it. -/
theorem idle_pcOk : PcOk Thread.idle.pc := by
  unfold PcOk
  decide

/-- The thread at hand is gone, and every PC stays as R9 keeps it. -/
structure Ends (s t : State) : Prop where
  idle : t.th = Thread.idle
  pcs : s.PcsOk → t.PcsOk

theorem Ends.goes {s t : State} (h : Ends s t) : Goes s t := ⟨.inl h.idle, h.pcs⟩

theorem State.pcsOk_of_face {s t : State} (h : t.face = s.face) : s.PcsOk → t.PcsOk := (Goes.of_face h).pcs

theorem State.freeSlot_ends {s u : State} (h : u.face = s.face) : Ends s u.freeSlot := by
  have ho : u.freeSlot.others = u.others := by
    unfold State.freeSlot
    dsimp only
    split <;> rfl
  have hi : u.freeSlot.th = Thread.idle := by
    unfold State.freeSlot
    dsimp only
    split <;> rfl
  refine ⟨hi, fun hs => ?_⟩
  obtain ⟨-, hothers⟩ := State.pcsOk_of_face h hs
  exact ⟨hi ▸ idle_pcOk, ho ▸ hothers⟩

theorem State.dropThread_ends (s : State) : Ends s s.dropThread := by
  unfold State.dropThread
  split
  · refine State.freeSlot_ends ?_
    simp only [State.freePlaces_face, State.endClaims_face, State.orphan_face]
    split <;> simp
  · exact ⟨rfl, fun ⟨_, hothers⟩ => ⟨idle_pcOk, hothers⟩⟩

theorem State.dropThread_goes {s u : State} (h : u.face = s.face) : Goes s u.dropThread := .after_face h u.dropThread_ends.goes

/-- The threads other than one are some of those that were there. -/
theorem Tab.mem_drop {α : Type} {t : Tab α} {k : Nat} {e : Nat × α} (h : e ∈ Tab.drop t k) : e ∈ t := by
  induction t with
  | nil => exact h
  | cons p r ih =>
    obtain ⟨b, w⟩ := p
    unfold Tab.drop at h
    split at h
    next => exact List.mem_cons_of_mem _ (ih h)
    next =>
      rcases List.mem_cons.1 h with h | h
      · exact h ▸ List.mem_cons_self
      · exact List.mem_cons_of_mem _ (ih h)

/-- Bringing another thread to hand changes no PC. -/
theorem State.focus_pcs {s : State} (n : Nat) (h : s.PcsOk) : (s.focus n).PcsOk := by
  obtain ⟨hpc, hothers⟩ := h
  unfold State.focus
  split
  · exact ⟨hpc, hothers⟩
  · split
    · exact ⟨hpc, hothers⟩
    next t ht =>
      refine ⟨hothers _ (Tab.mem_of_find ht), fun e he => ?_⟩
      dsimp only at he
      split at he
      · rcases Tab.mem_put he with rfl | he
        · exact hpc
        · exact hothers e (Tab.mem_drop he)
      · exact hothers e (Tab.mem_drop he)

/-- Where threads of some slots are dropped, the thread at hand is gone. -/
theorem State.dropSlots_idle (ns : List Nat) (n : Nat) :
    ∀ s : State, ((n :: ns).foldl (fun s n => (s.focus n).dropThread) s).th = Thread.idle := by
  induction ns generalizing n with
  | nil => exact fun s => (s.focus n).dropThread_ends.idle
  | cons m ns ih => exact fun s => ih m (s.focus n).dropThread

theorem State.dropSlots_pcs (ns : List Nat) : ∀ s : State, s.PcsOk → (ns.foldl (fun s n => (s.focus n).dropThread) s).PcsOk := by
  induction ns with
  | nil => exact fun _ h => h
  | cons n ns ih => exact fun s h => ih _ ((s.focus n).dropThread_ends.pcs (State.focus_pcs n h))

/-- Where threads of a list of slots are dropped, the thread at hand is gone, or nothing was dropped. -/
theorem State.dropSlots_goes (ns : List Nat) (s : State) : Goes s (ns.foldl (fun s n => (s.focus n).dropThread) s) := by
  refine ⟨?_, State.dropSlots_pcs ns s⟩
  cases ns with
  | nil => exact .inr rfl
  | cons n ns => exact .inl (State.dropSlots_idle ns n s)

/-- What leaves the threads alone leaves an idle slot idle. -/
theorem Goes.then {s u t : State} (h : Goes s u) (hth : t.th = u.th) (ho : t.others = u.others) : Goes s t :=
  ⟨hth ▸ h.self, fun hp => by
    obtain ⟨hpc, hothers⟩ := h.pcs hp
    exact ⟨hth ▸ hpc, ho ▸ hothers⟩⟩

/-- A gang that stops takes the threads of its slots with it (R21). -/
theorem State.stopGang_goes {s u : State} {g : Gang} {code : Int} (h : u.face = s.face) : Goes s (u.stopGang g code) := by
  unfold State.stopGang
  extract_lets mine slots v w now k g'
  have hv : Goes s v := (Goes.after_face h (State.dropSlots_goes slots u)).then rfl rfl
  clear_value v
  obtain ⟨gs, hs, ls, st, cs, hf⟩ := State.finishGang_frame (w.putGang g') g'
  rw [hf]
  exact hv.then rfl rfl

@[simp] theorem State.report_goes {s u : State} {c q : Nat} (h : u.face = s.face) : Goes s (u.report c q) := by
  unfold State.report
  dsimp only
  split
  · exact State.stopGang_goes h
  · exact State.dropThread_goes h

theorem State.loseContext_goes {s u : State} {c q : Nat} (h : u.face = s.face) : Goes s (u.loseContext c q) := by
  unfold State.loseContext
  dsimp only
  split
  · exact State.stopGang_goes h
  · exact State.dropThread_goes h

/-! ### Traps and upcalls -/

/-- Entering the handler leaves the thread what it is (R22). -/
theorem State.deliver_acts (s : State) (a : Word) (c : Nat) (v : Word) (r p : Bool) : Acts s (s.deliver a c v r p) := by
  obtain ⟨m, h⟩ := State.writeLoc_frame s.th.owner (faultRecord s.th a c v r p) s s.th.usave.toNat
  unfold State.deliver
  dsimp only
  rw [h]
  exact ⟨rfl, fun _ => pcOk_pcBits _, rfl⟩

@[simp] theorem State.upcall_goes {s u : State} {a : Word} {c : Nat} {v : Word} {r : Bool} (h : u.face = s.face) :
    Goes s (u.upcall a c v r) := by
  rcases u.upcall_cases a c v r with ⟨-, hu⟩ | ⟨-, hu⟩ <;> rw [hu]
  · exact State.report_goes (by simp [h])
  · exact Goes.after_face (by simp [h]) (State.deliver_acts ..).goes

@[simp] theorem State.trap_goes {s u : State} {c q : Nat} (h : u.face = s.face) : Goes s (u.trap c q) := State.upcall_goes h

@[simp] theorem State.trapWord_goes {s u : State} {c : Nat} {i : Instr} (h : u.face = s.face) :
    Goes s (u.trapWord c i) := State.upcall_goes h

@[simp] theorem State.upcallRecords_goes {s u : State} (h : u.face = s.face) : Goes s u.upcallRecords := by
  unfold State.upcallRecords
  split <;> simp [h, Goes.of_face]

/-- What is taken at an instruction that waits for a record unparks the records of the thread, which is gone or goes on (R299). -/
@[simp] theorem State.takeParked_goes {s u : State} {w : Why} (h : u.face = s.face) : Goes s (u.takeParked w) := by
  unfold State.takeParked
  split
  · exact State.report_goes h
  · obtain ⟨hself, hpcs⟩ := State.upcallRecords_goes (s := s) h
    dsimp only
    generalize u.upcallRecords = t at hself hpcs
    refine ⟨hself.imp (fun hi => ?_) id, hpcs⟩
    rw [hi]
    rfl

/-! ### Waits and releases -/

/-- What a wait may have taken leaves the thread what it is, or it is gone. -/
def Wait.Goes (s : State) (w : Wait) : Prop := ∀ t, w = .taken t → Machine.Goes s t

theorem Wait.run_goes {s u : State} {w : Wait} {f : State → State} (h : u.face = s.face) (hw : w.Goes s) (hf : Machine.Goes s (f u)) :
    Machine.Goes s (w.run u f) := by
  cases w with
  | go => exact hf
  | stall => exact State.stall_goes h
  | taken t => exact hw t rfl

theorem State.releaseWait_goes {s u : State} (h : u.face = s.face) : u.releaseWait.Goes s := by
  intro t ht
  unfold State.releaseWait at ht
  split at ht
  · cases ht
    exact State.takeParked_goes h
  · split at ht <;> cases ht

theorem State.accessWait_goes {s u : State} {p : AccOp → Bool} {n : Nat} (h : u.face = s.face) : (u.accessWait p n).Goes s := by
  intro t ht
  unfold State.accessWait at ht
  dsimp only at ht
  split at ht
  · split at ht <;> cases ht
  · split at ht
    · cases ht
      exact State.takeParked_goes h
    · split at ht <;> cases ht

/-- What goes on behind a release, and what waits for it. -/
theorem State.releaseTo_goes {s u : State} {o : Order} {wait f : State → State} (h : u.face = s.face)
    (hw : ∀ v, v.face = s.face → Goes s (wait v)) (hf : ∀ v, v.face = s.face → Goes s (f v)) : Goes s (u.releaseTo o wait f) := by
  have hr := State.releaseWait_goes h
  unfold State.releaseTo
  split
  next => exact hw u h
  next t ht => exact hr t ht
  next =>
    have ht := (u.tryRelease_face o).trans h
    generalize u.tryRelease o = q at ht
    dsimp only
    split
    · exact hf _ ht
    · exact hw _ ht

theorem State.afterRelease_goes {s u : State} {o : Order} {f : State → State} (h : u.face = s.face) (hf : ∀ v,
  v.face = s.face → Goes s (f v)) :
    Goes s (u.afterRelease o f) := by
  unfold State.afterRelease
  split
  · exact hf u h
  · exact State.releaseTo_goes h (fun _ hv => State.inRelease_goes hv) hf

theorem State.afterReleaseWith_goes {s u : State} {o : Order} {bs : List Byte} {f : State → State} (h : u.face = s.face)
    (hf : ∀ v, v.face = s.face → Goes s (f v)) : Goes s (u.afterReleaseWith o bs f) :=
  State.releaseTo_goes h (fun _ hv => .of_face (by simp [hv])) hf

theorem State.whenFree_goes {s u : State} {f : State → State} (h : u.face = s.face) (hf : Goes s (f u)) : Goes s (u.whenFree f) := by
  unfold State.whenFree
  split
  · exact State.stall_goes h
  · exact hf

theorem State.whenStreams_goes {s u : State} {rs : List Reg} {f : State → State} (h : u.face = s.face) (hf : Goes s (f u)) :
    Goes s (u.whenStreams rs f) := by
  unfold State.whenStreams
  split
  · exact State.whenFree_goes h hf
  · exact hf

theorem State.onSyncWord_goes {s : State} {a : Reg} {f : Nat → State} (hf : ∀ la, Goes s (f la)) : Goes s (s.onSyncWord a f) := by
  unfold State.onSyncWord
  dsimp only
  split
  · exact State.trap_goes rfl
  · exact hf _

/-! ### Transfers -/

/-- The bits that R9 holds at 0. -/
theorem pcOk_iff {p : Word} : PcOk p ↔ p.getLsbD 0 = false ∧ ∀ k, 56 ≤ k → p.getLsbD k = false := by
  have mask : ∀ k < 64, (0x00FFFFFFFFFFFFFE#64).getLsbD k = (decide (k ≠ 0) && decide (k < 56)) := by decide
  unfold PcOk pcBits
  refine ⟨fun h => ?_, fun ⟨h0, h56⟩ => ?_⟩
  · have bit : ∀ k, p.getLsbD k = (p.getLsbD k && (0x00FFFFFFFFFFFFFE#64).getLsbD k) := fun k => by
      rw [← BitVec.getLsbD_and, h]
    refine ⟨?_, fun k hk => ?_⟩
    · rw [bit 0, mask 0 (by decide)]
      simp
    · by_cases h64 : k < 64
      · rw [bit k, mask k h64]
        simp [Nat.not_lt.2 hk]
      · exact BitVec.getLsbD_of_ge _ _ (Nat.not_lt.1 h64)
  · apply BitVec.eq_of_getLsbD_eq
    intro k hk
    rw [BitVec.getLsbD_and, mask k hk]
    by_cases hz : k = 0
    · rw [hz, h0, Bool.false_and]
    · by_cases hl : k < 56
      · simp [hz, hl]
      · rw [h56 k (Nat.not_lt.1 hl), Bool.false_and]

/-- A target that R15 and R17 allow is a PC as R9 keeps it. -/
theorem pcOk_of_target {g : Word} (h0 : ¬g.getLsbD 0 = true) (h56 : ¬2 ^ 56 ≤ g.toNat) : PcOk g :=
  pcOk_iff.2 ⟨Bool.eq_false_iff.2 h0, fun k hk =>
    Nat.testBit_lt_two_pow (Nat.lt_of_lt_of_le (Nat.not_le.1 h56) (Nat.pow_le_pow_right (by decide) hk))⟩

theorem State.transfer_goes {s u : State} {g : Word} {f : State → State} (h : u.face = s.face) (hf : (f u).face = u.face) :
    Goes s (u.transfer g f) := by
  unfold State.transfer
  split
  next => exact State.trap_goes h
  next h0 =>
    split
    next => exact State.trap_goes h
    next h56 => exact Goes.after_face (hf.trans h) ((f u).retireTo_acts (pcOk_of_target h0 h56)).goes

theorem State.branch_goes (s : State) (c : Bool) (o : BitVec 15) : Goes s (s.branch c o) := by
  unfold State.branch
  split
  · exact State.transfer_goes rfl rfl
  · exact State.retire_goes rfl

/-- The thread goes on elsewhere, as an instruction that counts as retired leaves it. -/
theorem State.resume_goes {s : State} (t : Thread) (hself : t.self = s.th.self) (hpc : PcOk t.pc) : Goes s { s with th := t }.count :=
  ((State.setTh_acts (t := t) hself fun _ => hpc).trans (State.count_acts _)).goes

theorem State.loopStart_goes (s : State) (i : Instr) (n : Word) (e : Fin 1024) : Goes s (s.loopStart i n e) := by
  unfold State.loopStart
  dsimp only
  split
  · exact State.trapWord_goes rfl
  · split
    · have hf := s.fetchHalf_face (s.pcPlus (4 + 2 * (e.val - 1))).toNat
      split
      next heq =>
        rw [heq] at hf
        exact State.trap_goes hf
      next heq =>
        rw [heq] at hf
        exact Goes.after_face hf (State.retireSkip_acts ..).goes
    · split
      · exact State.resume_goes _ rfl (pcOk_pcBits _)
      · split
        · split
          · exact State.trapWord_goes rfl
          · exact State.resume_goes _ rfl (pcOk_pcBits _)
        · exact State.trapWord_goes rfl

theorem State.uret_goes (s : State) (i : Instr) (replay : Bool) : Goes s (s.uret i replay) := by
  unfold State.uret
  dsimp only
  split
  · exact State.trapWord_goes rfl
  · split
    · exact State.trapWord_goes rfl
    · split
      · exact State.trap_goes rfl
      · split
        · exact State.trap_goes rfl
        · split
          · have hback : Acts s (s.setTh { s.th with
                loop0 := (recordLoops (s.readLoc s.th.owner s.th.usave.toNat 128)).1
                loop1 := (recordLoops (s.readLoc s.th.owner s.th.usave.toNat 128)).2
                uact := false, pc := pcBits s.th.epc }) := State.setTh_acts rfl fun _ => pcOk_pcBits _
            have hheld := hback.trans (.of_face (State.holdBehind_face _))
            refine Acts.goes (.trans ?_ (.of_face (State.pump_face ..)))
            refine .trans ?_ (State.count_acts _)
            exact hheld.trans (.of_face (by simp))
          · exact State.resume_goes _ rfl (pcOk_pcBits _)

end Sys2Proof.Machine
end

section
/-!
PROOF. Memory, engines and lanes: the thread goes on as what it is, or it is gone (O55, O57).
-/
namespace Sys2Proof.Machine
open Sys2Proof

/-! ### Memory, messages and gangs -/

@[simp] theorem State.issueWhenFree_goes {s u : State} {a : Access} {rs : List Reg} (h : u.face = s.face) :
    Goes s (u.issueWhenFree a rs) := by
  unfold State.issueWhenFree State.issue
  split
  · exact State.retire_goes (by simp [h])
  · exact State.stall_goes h

theorem State.atomic_goes (s : State) (op : AccOp) (o : AtomOrder) (d a b : Reg) : Goes s (s.atomic op o d a b) := by
  unfold State.atomic
  dsimp only
  split
  · exact State.trap_goes rfl
  · exact State.afterRelease_goes rfl fun _ hv => State.issueWhenFree_goes hv

theorem State.localAtomic_goes (s : State) (fn : Fin 9) (z : Bool) (d a b : Reg) : Goes s (s.localAtomic fn z d a b) := by
  unfold State.localAtomic
  dsimp only
  split
  · exact State.trap_goes rfl
  · exact State.whenFree_goes rfl (State.retire_goes (by simp))

theorem State.put_goes (s : State) (i : Instr) (n : Nat) (rs : List Reg) (f : State → List Byte) (c : Bool) :
    Goes s (s.put i n rs f c) := by
  unfold State.put
  split
  · exact State.trapWord_goes rfl
  · split
    · exact State.trapWord_goes rfl
    · split
      · exact State.trap_goes rfl
      · split
        · exact State.trap_goes rfl
        · split
          · exact State.trap_goes rfl
          · refine State.whenStreams_goes rfl ?_
            dsimp only
            split
            · exact (((Acts.of_face (by simp)).trans (State.retire_acts _ 4)).trans (.of_face (State.postCount_face ..))).goes
            · exact State.retire_goes (by simp)

theorem State.gbar_goes (s : State) (i : Instr) (v : Vote) (d a : Reg) : Goes s (s.gbar i v d a) := by
  unfold State.gbar
  dsimp only
  split
  · exact State.trapWord_goes rfl
  · split
    · exact State.afterRelease_goes rfl fun _ hv => .of_face (by simp [hv])
    · split
      · exact State.trapWord_goes rfl
      · split
        · exact State.stall_goes rfl
        · exact State.retire_goes (by simp)

/-- `exit` takes the thread with it (R87, R153). -/
theorem State.leave_goes (s : State) (v : Word) : Goes s (s.leave v) := by
  have hcount := (State.count_acts s).goes
  unfold State.leave
  extract_lets i u w x
  have hu : Acts s u := (State.count_acts s).trans (.of_face (by simp [u]))
  have hw : w.face = u.face := by
    simp only [w]
    split <;> simp
  have hx : x.face = w.face := by
    simp only [x]
    split <;> simp
  have hend := State.freeSlot_ends (u := x.endClaims i) (s := u) (by simp [hx, hw])
  obtain ⟨gs, hs, ls, st, cs, he⟩ := State.endRank_frame (x.endClaims i).freeSlot i (some (sgn 32 (v.toNat % 2 ^ 32)))
  rw [he]
  exact (Goes.after hu hend.goes).then rfl rfl

/-! ### Commands to the engines -/

theorem State.table_goes (s : State) (op : TableOp) (a : Reg) : Goes s (s.table op a) := by
  unfold State.table
  dsimp only
  split
  · exact State.trap_goes rfl
  · refine State.whenFree_goes rfl ?_
    split
    · exact State.trap_goes rfl
    · split
      · exact State.trap_goes rfl
      · split
        · exact State.stallWith_goes rfl
        · exact State.retire_goes (by simp)

theorem State.sendIndex_goes {s u : State} {op : IxOp} {r : Nat} {bs : List Byte} {h : Nat} {d : Reg} {rel : Option Nat} (hu : u.face =
  s.face) :
    Goes s (u.sendIndex op r bs h d rel) := State.retire_goes (by simp [hu])

theorem State.indexCmd_goes (s : State) (op : IxOp) (rel : Order) (a : Reg) : Goes s (s.indexCmd op rel a) := by
  unfold State.indexCmd
  dsimp only
  split
  · exact State.trap_goes rfl
  · refine State.whenFree_goes rfl ?_
    split
    · exact State.trap_goes rfl
    · split
      · split
        · exact State.stallWith_goes rfl
        · exact State.sendIndex_goes rfl
      · refine State.afterReleaseWith_goes rfl fun v hv => ?_
        split
        · exact State.stallWith_goes hv
        · exact State.sendIndex_goes hv

theorem State.indexAsk_goes (s : State) (op : IxOp) (d a : Reg) : Goes s (s.indexAsk op d a) := by
  unfold State.indexAsk
  split
  · exact State.stall_goes rfl
  · exact State.sendIndex_goes rfl

theorem State.tscore_goes (s : State) (op : ScoreOp) (a : Reg) : Goes s (s.tscore op a) := by
  unfold State.tscore
  dsimp only
  split <;> exact State.retire_goes (by simp)

/-! ### The matrix unit -/

theorem State.asOwner_goes {s : State} {i : Instr} {f : MatrixUnit → State} (hf : ∀ u, Goes s (f u)) : Goes s (s.asOwner i f) := by
  unfold State.asOwner
  split
  · exact hf _
  · exact State.trapWord_goes rfl

theorem State.mmaFault_goes {s u : State} {e : EngFault} (h : u.face = s.face) : Goes s (u.mmaFault e) := by
  unfold State.mmaFault
  dsimp only
  split
  · exact State.trap_goes (by simp [h])
  · exact State.report_goes (by simp [h])
  · exact .of_face (by simp [h])

theorem State.mmaRows_goes {s v : State} (h : v.face = s.face) : Goes s v.mmaRows := by
  unfold State.mmaRows
  split
  next u m _ _ =>
    extract_lets r n cols
    have ha := v.addRows_face u.type (m.opA u.a) (u.scales.map m.opS) cols (mmaK u.type / 32) r n
    split
    next heq =>
      rw [heq] at ha
      exact State.mmaFault_goes (by simpa [h] using ha)
    next heq =>
      rw [heq] at ha
      split
      · exact State.retire_goes (by simpa [h] using ha)
      · exact .of_face (by simpa [h] using ha)
  next => exact .of_face h

theorem State.mma_goes (s : State) (i : Instr) (t : LaneType) (a b : Reg) (c : Option Reg) : Goes s (s.mma i t a b c) := by
  refine State.asOwner_goes fun u => ?_
  dsimp only
  split
  · exact State.trapWord_goes rfl
  next m _ =>
    split
    · exact State.trapWord_goes rfl
    · split
      · exact State.trap_goes rfl
      · split
        · exact State.stall_goes rfl
        · have ho := (State.operandRows_face _ (m.opB t (s.getX b).toNat) 0 (mmaK t)).trans (State.setUnit_face s { u with mc := u.mc + 1 })
          split
          next heq =>
            rw [heq] at ho
            exact State.mmaFault_goes (by simpa using ho)
          next heq =>
            rw [heq] at ho
            exact State.mmaRows_goes (by simpa using ho)

/-! ### Lane instructions -/

theorem State.deliverLane_acts {s : State} {len : Nat} {rs : List Reg} {o : LaneOut} : Acts s (s.deliverLane len rs o) := by
  unfold State.deliverLane
  refine Acts.trans (.of_face ?_) (State.retire_acts _ len)
  simp only [State.advanceStreams_face, State.raise_face]
  split <;> split <;> simp

theorem State.deliverLane_goes {s u : State} {len : Nat} {rs : List Reg} {o : LaneOut} (h : u.face = s.face) :
    Goes s (u.deliverLane len rs o) :=
  .after_face h State.deliverLane_acts.goes

theorem State.runLane_goes (s : State) (len : Nat) (rs ws : List Reg) (f : (Reg → LaneReg) → LaneOut) : Goes s (s.runLane len rs ws f) := by
  unfold State.runLane
  split
  · exact State.trap_goes rfl
  · split
    · exact State.trap_goes rfl
    · exact State.whenStreams_goes rfl (State.deliverLane_goes rfl)

theorem State.rawLane_goes (s : State) (len : Nat) (reads : List Reg) (d : Reg) (f : (Reg → LaneReg) → LaneReg) :
    Goes s (s.rawLane len reads d f) := by
  unfold State.rawLane
  exact State.runLane_goes ..

theorem State.binLane_goes (s : State) (m : Modifier) (len : Nat) (t : LaneType) (d a b : Reg) (op : Mode → Exact → Exact → Exact × Flags) :
    Goes s (s.binLane m len t d a b op) := by
  unfold State.binLane
  exact State.runLane_goes ..

theorem State.unLane_goes (s : State) (m : Modifier) (len : Nat) (t : LaneType) (d a : Reg) (op : Exact → Exact × Flags) :
    Goes s (s.unLane m len t d a op) := by
  unfold State.unLane
  exact State.runLane_goes ..

theorem State.laneAdd_goes (s : State) (m : Modifier) (len : Nat) (t : LaneType) (d a b : Reg) : Goes s (s.laneAdd m len t d a b) := by
  unfold State.laneAdd
  exact State.binLane_goes ..

theorem State.laneSub_goes (s : State) (m : Modifier) (len : Nat) (t : LaneType) (d a b : Reg) : Goes s (s.laneSub m len t d a b) := by
  unfold State.laneSub
  exact State.binLane_goes ..

theorem State.laneMul_goes (s : State) (m : Modifier) (len : Nat) (t : LaneType) (d a b : Reg) : Goes s (s.laneMul m len t d a b) := by
  unfold State.laneMul
  exact State.binLane_goes ..

theorem State.lanePick_goes (s : State) (m : Modifier) (len : Nat) (greater : Bool) (t : LaneType) (d a b : Reg) :
    Goes s (s.lanePick m len greater t d a b) := by
  unfold State.lanePick
  exact State.binLane_goes ..

theorem State.laneDiv_goes (s : State) (m : Modifier) (len : Nat) (t : LaneType) (d a b : Reg) : Goes s (s.laneDiv m len t d a b) := by
  unfold State.laneDiv
  exact State.binLane_goes ..

theorem State.laneSqrt_goes (s : State) (m : Modifier) (len : Nat) (t : LaneType) (d a : Reg) : Goes s (s.laneSqrt m len t d a) := by
  unfold State.laneSqrt
  exact State.unLane_goes ..

theorem State.laneRcp_goes (s : State) (m : Modifier) (len : Nat) (t : LaneType) (d a : Reg) : Goes s (s.laneRcp m len t d a) := by
  unfold State.laneRcp
  exact State.unLane_goes ..

theorem State.laneRsq_goes (s : State) (m : Modifier) (len : Nat) (t : LaneType) (d a : Reg) : Goes s (s.laneRsq m len t d a) := by
  unfold State.laneRsq
  exact State.unLane_goes ..

theorem State.laneExp2_goes (s : State) (m : Modifier) (len : Nat) (t : LaneType) (d a : Reg) : Goes s (s.laneExp2 m len t d a) := by
  unfold State.laneExp2
  exact State.unLane_goes ..

theorem State.laneLog2_goes (s : State) (m : Modifier) (len : Nat) (t : LaneType) (d a : Reg) : Goes s (s.laneLog2 m len t d a) := by
  unfold State.laneLog2
  exact State.unLane_goes ..

theorem State.laneMov_goes (s : State) (m : Modifier) (len : Nat) (t : LaneType) (d a : Reg) : Goes s (s.laneMov m len t d a) := by
  unfold State.laneMov
  split
  · exact State.rawLane_goes ..
  · exact State.unLane_goes ..

theorem State.laneSign_goes (s : State) (m : Modifier) (len : Nat) (t : LaneType) (d a : Reg) (neg : Bool) :
    Goes s (s.laneSign m len t d a neg) := by
  unfold State.laneSign
  dsimp only
  split
  · exact State.rawLane_goes ..
  · exact State.unLane_goes ..

theorem State.laneShift_goes (s : State) (t : LaneType) (d a b : Reg) (op : Nat → Nat → Nat → Nat) : Goes s (s.laneShift t d a b op) := by
  unfold State.laneShift
  exact State.rawLane_goes ..

theorem State.laneFma_goes (s : State) (m : Modifier) (len : Nat) (negP negZ : Bool) (t : LaneType) (d a b c : Reg) :
    Goes s (s.laneFma m len negP negZ t d a b c) := by
  unfold State.laneFma
  exact State.runLane_goes ..

theorem State.laneCmp_goes (s : State) (t : LaneType) (d a b : Reg) (p : Option Ordering → Bool) : Goes s (s.laneCmp t d a b p) := by
  unfold State.laneCmp
  exact State.runLane_goes ..

theorem State.laneReduce_goes (s : State) (m : Modifier) (len : Nat) (t : LaneType) (d a : Reg) (combine : Exact → Exact → Exact × Flags) :
    Goes s (s.laneReduce m len t d a combine) := by
  unfold State.laneReduce
  exact State.runLane_goes ..

theorem State.laneDot_goes (s : State) (m : Modifier) (len : Nat) (t : LaneType) (d a b : Reg) : Goes s (s.laneDot m len t d a b) := by
  unfold State.laneDot
  exact State.runLane_goes ..

theorem State.laneCvt_goes (s : State) (m : Modifier) (len : Nat) (src dst : LaneType) (d a : Reg) :
    Goes s (s.laneCvt m len src dst d a) := by
  unfold State.laneCvt
  exact State.runLane_goes ..

theorem State.laneReducePick_goes (s : State) (m : Modifier) (len : Nat) (greater : Bool) (t : LaneType) (d a : Reg) :
    Goes s (s.laneReducePick m len greater t d a) := by
  unfold State.laneReducePick
  exact State.laneReduce_goes ..

/-- A modified instruction does what its base instruction does, in pieces. -/
theorem State.runModified_goes (s : State) (m : Modifier) (i : Instr) : ∀ t, s.runModified m i = some t → Goes s t := by
  intro t ht
  unfold State.runModified at ht
  split at ht <;> cases ht
  · exact State.laneAdd_goes ..
  · exact State.laneSub_goes ..
  · exact State.laneMul_goes ..
  · exact State.lanePick_goes ..
  · exact State.lanePick_goes ..
  · exact State.laneDiv_goes ..
  · exact State.laneSqrt_goes ..
  · exact State.laneRcp_goes ..
  · exact State.laneRsq_goes ..
  · exact State.laneExp2_goes ..
  · exact State.laneLog2_goes ..
  · exact State.laneSign_goes ..
  · exact State.laneSign_goes ..
  · exact State.laneMov_goes ..
  · exact State.laneReducePick_goes ..
  · exact State.laneReducePick_goes ..
  · exact State.laneDot_goes ..
  · exact State.laneCvt_goes ..
  · exact State.laneFma_goes ..
  · exact State.laneFma_goes ..
  · exact State.laneFma_goes ..
  · exact State.laneFma_goes ..

end Sys2Proof.Machine
end

section
/-!
PROOF. Instructions of more than one operation: the thread goes on as what it is, or it is gone (O55, O57).
-/
namespace Sys2Proof.Machine
open Sys2Proof

/-! ### Instructions, one by one -/

/-- Where the outcome is a next state, the thread at hand goes on as what it is, or it is gone. -/
structure Answers (s : State) (o : Out) : Prop where
  goes : ∀ t, o = .next t → Goes s t

theorem Answers.next {s t : State} (h : Goes s t) : Answers s (.next t) := ⟨fun _ hu => by
  cases hu
  exact h⟩

theorem execLdg_answers (o : Order) (z : Size) (sg : Bool) (d a : Reg) (i : BitVec 10) (s : State) :
    Answers s (execLdg o z sg d a i s) := by
  unfold execLdg
  refine .next ?_
  split
  · exact State.trap_goes rfl
  · exact State.issueWhenFree_goes rfl

theorem execLdgV_answers (o : Order) (d a : Reg) (i : BitVec 10) (s : State) : Answers s (execLdgV o d a i s) := by
  unfold execLdgV
  refine .next ?_
  split
  · exact State.trap_goes rfl
  · split
    · exact State.trap_goes rfl
    · split
      · exact State.trap_goes rfl
      · split
        · exact State.trap_goes rfl
        · exact State.issueWhenFree_goes rfl

theorem execNmstat_answers (d a : Reg) (s : State) : Answers s (execNmstat d a s) := by
  unfold execNmstat
  refine .next ?_
  split
  · exact State.trap_goes rfl
  · exact State.issueWhenFree_goes rfl

theorem execStg_answers (o : Order) (z : Size) (d a : Reg) (i : BitVec 10) (s : State) : Answers s (execStg o z d a i s) := by
  unfold execStg
  refine .next ?_
  split
  · exact State.trap_goes rfl
  · exact State.afterRelease_goes rfl fun _ hv => State.issueWhenFree_goes hv

theorem execStgV_answers (o : Order) (d a : Reg) (i : BitVec 10) (s : State) : Answers s (execStgV o d a i s) := by
  unfold execStgV
  refine .next ?_
  split
  · exact State.trap_goes rfl
  · split
    · exact State.trap_goes rfl
    · split
      · exact State.trap_goes rfl
      · split
        · exact State.trap_goes rfl
        · exact State.afterRelease_goes rfl fun _ hv => State.issueWhenFree_goes hv

theorem execSwget_answers (d a : Reg) (s : State) : Answers s (execSwget d a s) :=
  .next (State.onSyncWord_goes fun _ => State.whenFree_goes rfl (State.result_goes (by simp)))

theorem execSwcnt_answers (d a : Reg) (s : State) : Answers s (execSwcnt d a s) :=
  .next (State.onSyncWord_goes fun _ => State.whenFree_goes rfl (State.result_goes (by simp)))

theorem execMringAdv_answers (s : State) : Answers s (execMringAdv s) := by
  refine .next (State.asOwner_goes fun u => ?_)
  split
  · exact State.stall_goes rfl
  · exact State.retire_goes (by simp)

theorem execMringClr_answers (s : State) : Answers s (execMringClr s) := by
  refine .next (State.asOwner_goes fun u => ?_)
  split
  · exact State.stall_goes rfl
  · exact State.retire_goes (by simp)

theorem execModifierWord_answers (m : Modifier) (follower : BitVec 32) (s : State) : Answers s (execModifierWord m follower s) := by
  unfold execModifierWord
  refine .next ?_
  split
  · exact State.trapWord_goes rfl
  · split
    · exact State.trap_goes rfl
    · split
      next ht => exact State.runModified_goes s m _ _ ht
      next => exact State.trapWord_goes rfl

theorem execLdl_answers (o : Bool) (z : Size) (sg : Bool) (d a : Reg) (i : BitVec 10) (s : State) : Answers s (execLdl o z sg d a i s) := by
  unfold execLdl
  refine .next ?_
  split
  · exact State.trap_goes rfl
  · exact State.whenFree_goes rfl (State.retire_goes (by simp))

theorem execStl_answers (o : Bool) (z : Size) (d a : Reg) (i : BitVec 10) (s : State) : Answers s (execStl o z d a i s) := by
  unfold execStl
  refine .next ?_
  split
  · exact State.trap_goes rfl
  · exact State.afterRelease_goes rfl fun _ hv => State.whenFree_goes hv (State.retire_goes (by simp [hv]))

theorem execLdlV_answers (o : Bool) (d a : Reg) (i : BitVec 10) (s : State) : Answers s (execLdlV o d a i s) := by
  unfold execLdlV
  refine .next ?_
  split
  · exact State.trap_goes rfl
  · split
    · exact State.trap_goes rfl
    · exact State.whenFree_goes rfl (State.retire_goes (by simp))

theorem execStlV_answers (o : Bool) (d a : Reg) (i : BitVec 10) (s : State) : Answers s (execStlV o d a i s) := by
  unfold execStlV
  refine .next ?_
  split
  · exact State.trap_goes rfl
  · split
    · exact State.trap_goes rfl
    · exact State.afterRelease_goes rfl fun _ hv => State.whenFree_goes hv (State.retire_goes (by simp [hv]))

theorem execCwait_answers (k : Counter) (n : Fin 32) (s : State) : Answers s (execCwait k n s) := by
  have hcount : Goes s (if s.counter s.th k ≤ n.val then s.retire 4 else s.stall) := by
    split
    · exact State.retire_goes rfl
    · exact State.stall_goes rfl
  unfold execCwait
  refine .next ?_
  split
  · exact State.trapWord_goes rfl
  · cases k with
    | lc => exact Wait.run_goes rfl (State.accessWait_goes rfl) (State.retire_goes rfl)
    | sc =>
      refine Wait.run_goes rfl (State.accessWait_goes rfl) (State.retire_goes ?_)
      split <;> simp
    | yc | mc | tc | nc | ic => exact hcount

theorem execXfence_answers (f t : PathId) (s : State) : Answers s (execXfence f t s) := by
  unfold execXfence
  refine .next ?_
  split
  · exact State.retire_goes rfl
  · exact Wait.run_goes rfl (State.accessWait_goes rfl) (State.retire_goes (by simp))
  · exact State.retire_goes (by simp)
  · exact State.retire_goes (by simp)
  · exact State.retire_goes (by simp)

theorem execSwinit_answers (a b : Reg) (s : State) : Answers s (execSwinit a b s) :=
  .next (State.onSyncWord_goes fun _ => State.whenFree_goes rfl (State.retire_goes (by simp)))

theorem execSwadd_answers (a b : Reg) (s : State) : Answers s (execSwadd a b s) :=
  .next (State.onSyncWord_goes fun _ => State.afterRelease_goes rfl fun _ hv => State.whenFree_goes hv (State.retire_goes (by simp [hv])))

theorem execSwwait_answers (a b : Reg) (s : State) : Answers s (execSwwait a b s) := by
  unfold execSwwait
  refine .next ?_
  split
  · exact State.trapWord_goes rfl
  · refine State.onSyncWord_goes fun la => State.whenFree_goes rfl ?_
    dsimp only
    split
    · have h := (State.ownTouch_face (s.acquire .gang) la).trans (State.acquire_face s .gang)
      refine State.retire_goes ?_
      generalize (s.acquire .gang).ownTouch la = u at h
      exact h
    · exact .of_face rfl

theorem execMopen_answers (a b c : Reg) (s : State) : Answers s (execMopen a b c s) := by
  unfold execMopen
  refine .next ?_
  split
  · exact State.trapWord_goes rfl
  · split
    · exact State.trap_goes rfl
    · exact Goes.after (State.retire_acts s 4) (.of_face rfl)

theorem execLaunch_answers (d a : Reg) (s : State) : Answers s (execLaunch d a s) := by
  unfold execLaunch
  refine .next ?_
  split
  · exact State.trapWord_goes rfl
  · split
    · exact State.trap_goes rfl
    · refine State.whenFree_goes rfl (State.afterReleaseWith_goes rfl fun v hv => ?_)
      extract_lets fn st
      split
      · exact State.result_goes (by simp [hv])
      · exact State.result_goes hv

theorem execExit_answers (a : Reg) (s : State) : Answers s (execExit a s) := by
  unfold execExit
  refine .next ?_
  split
  · exact State.trapWord_goes rfl
  · split
    · exact State.takeParked_goes rfl
    · dsimp only
      split
      · exact State.inRelease_goes rfl
      · exact s.leave_goes _

theorem execYield_answers (s : State) : Answers s (execYield s) := by
  unfold execYield
  refine .next ?_
  split
  · exact State.trapWord_goes rfl
  · exact State.retire_goes (by simp)

theorem execSys_answers (a : Reg) (s : State) : Answers s (execSys a s) := by
  unfold execSys
  refine .next ?_
  split
  · exact State.trapWord_goes rfl
  · exact State.trap_goes rfl

theorem execBrk_answers (s : State) : Answers s (execBrk s) := by
  unfold execBrk
  refine .next ?_
  split <;> exact State.trapWord_goes rfl

theorem execSrd_answers (d : Reg) (n : Fin 1024) (s : State) : Answers s (execSrd d n s) := by
  unfold execSrd
  refine .next ?_
  split
  · exact State.result_goes rfl
  · exact State.trapWord_goes rfl

/-- No state register holds what a thread is, or its PC (R12). -/
theorem Thread.srWrite_face {t u : Thread} {n : Nat} {v : Word} (h : t.srWrite n v = some u) : u.face = t.face := by
  unfold Thread.srWrite at h
  dsimp only at h
  split at h
  all_goals cases h
  all_goals rfl

theorem execSwr_answers (n : Fin 1024) (a : Reg) (s : State) : Answers s (execSwr n a s) := by
  unfold execSwr
  refine .next ?_
  split
  · exact State.trapWord_goes rfl
  · split
    · exact State.trapWord_goes rfl
    · dsimp only
      split
      next hu => exact ((State.retire_acts s 4).trans (.of_face (by rw [State.setTh_face, Thread.srWrite_face hu]; rfl))).goes
      next => exact State.retire_goes rfl

theorem execVq8_answers (t : LaneType) (d a b : Reg) (s : State) : Answers s (execVq8 t d a b s) := by
  unfold execVq8
  refine .next ?_
  split
  · exact State.trap_goes rfl
  · extract_lets qs side suitable
    clear_value side suitable
    split
    · exact State.trap_goes rfl
    · dsimp only
      split
      · exact State.trap_goes rfl
      · refine State.whenStreams_goes rfl ?_
        split
        · split
          · exact State.deliverLane_goes rfl
          · exact Goes.after State.deliverLane_acts (.of_face (by rw [State.setStream_face, State.putBlock_face]))
        · exact State.deliverLane_goes rfl

theorem execSbind_answers (k : Fin 4) (a : Reg) (s : State) : Answers s (execSbind k a s) := by
  unfold execSbind
  refine .next ?_
  split
  · exact State.trap_goes rfl
  · split
    · exact State.trap_goes rfl
    · split
      · exact State.trap_goes rfl
      · refine State.whenFree_goes rfl ?_
        split
        · exact State.trap_goes rfl
        · exact State.retire_goes (by simp)

theorem execSeos_answers (k : Fin 4) (a : Reg) (s : State) : Answers s (execSeos k a s) := by
  unfold execSeos
  refine .next ?_
  split
  · exact State.trap_goes rfl
  · exact State.retire_goes (by simp)

theorem execSstat_answers (d : Reg) (k : Fin 4) (s : State) : Answers s (execSstat d k s) := by
  unfold execSstat
  refine .next ?_
  split
  · exact State.trap_goes rfl
  · exact State.result_goes rfl

theorem execSunbind_answers (k : Fin 4) (s : State) : Answers s (execSunbind k s) := by
  unfold execSunbind
  refine .next ?_
  split
  · exact State.trap_goes rfl
  · exact State.retire_goes rfl

theorem execTql_answers (d a b : Reg) (s : State) : Answers s (execTql d a b s) := by
  unfold execTql
  refine .next ?_
  split
  · exact State.trap_goes rfl
  · split
    · exact State.trap_goes rfl
    · dsimp only
      split
      · exact State.trap_goes rfl
      · split
        · exact State.trap_goes rfl
        · exact State.whenFree_goes rfl (State.retire_goes (by simp))

theorem execCpy_answers (a b c : Reg) (s : State) : Answers s (execCpy a b c s) := by
  unfold execCpy
  refine .next ?_
  split
  · exact State.trap_goes rfl
  · dsimp only
    split
    · exact State.stall_goes rfl
    · exact State.retire_goes rfl

theorem execMown_answers (s : State) : Answers s (execMown s) := by
  unfold execMown
  refine .next ?_
  split
  · exact State.retire_goes rfl
  · split
    · exact State.trapWord_goes rfl
    · split
      · exact State.retire_goes (by simp)
      · split
        · exact State.stall_goes rfl
        · exact .of_face rfl

theorem execMrel_answers (s : State) : Answers s (execMrel s) := by
  refine .next (State.asOwner_goes fun u => ?_)
  split
  · exact State.stall_goes rfl
  · exact State.retire_goes (by simp)

theorem execMcfg_answers (a : Reg) (s : State) : Answers s (execMcfg a s) := by
  refine .next (State.asOwner_goes fun u => ?_)
  split
  · exact State.trapWord_goes rfl
  · exact State.retire_goes rfl

theorem execEpcfg_answers (a : Reg) (s : State) : Answers s (execEpcfg a s) := by
  refine .next (State.asOwner_goes fun u => ?_)
  split
  · exact State.trapWord_goes rfl
  · split
    · exact State.trap_goes rfl
    · refine State.whenFree_goes rfl ?_
      dsimp only
      split
      · exact State.trapWord_goes rfl
      · split
        · exact State.trap_goes rfl
        · split
          · exact State.stallWith_goes rfl
          · exact State.retire_goes (by simp)

theorem execEpgo_answers (a : Reg) (s : State) : Answers s (execEpgo a s) := by
  refine .next (State.asOwner_goes fun u => ?_)
  dsimp only
  split
  · exact State.trapWord_goes rfl
  · split
    · exact State.stall_goes rfl
    · exact State.retire_goes rfl

theorem execNmsend_answers (a : Reg) (s : State) : Answers s (execNmsend a s) := by
  unfold execNmsend
  refine .next ?_
  split
  · exact State.trap_goes rfl
  · refine State.whenFree_goes rfl ?_
    dsimp only
    split
    · exact State.trap_goes rfl
    · split
      · exact State.trap_goes rfl
      · split
        · exact State.stallWith_goes rfl
        · exact State.retire_goes rfl

theorem execNmresume_answers (a : Reg) (s : State) : Answers s (execNmresume a s) := by
  unfold execNmresume
  refine .next ?_
  split
  · exact State.trap_goes rfl
  · refine State.whenFree_goes rfl ?_
    dsimp only
    split
    · exact State.trap_goes rfl
    · split
      · exact State.trap_goes rfl
      · have ht := s.translate_face (s.th.owner.req .load none) (natOf ((s.readOnce (s.getX a).toNat 32).take 8))
        generalize s.translate (s.th.owner.req .load none) (natOf ((s.readOnce (s.getX a).toNat 32).take 8)) = q at ht
        split
        · exact State.trap_goes ht
        · exact State.stall_goes ht
        · split
          · exact State.trap_goes ht
          · split
            · exact State.stallWith_goes ht
            · exact State.retire_goes ht

theorem execNmload_answers (a : Reg) (s : State) : Answers s (execNmload a s) := by
  unfold execNmload
  refine .next ?_
  split
  · exact State.trapWord_goes rfl
  · split
    · exact State.trap_goes rfl
    · refine State.whenFree_goes rfl ?_
      extract_lets kept bs n
      split
      · exact State.trap_goes rfl
      · split
        · exact State.trap_goes rfl
        · dsimp only
          split
          · exact State.trap_goes rfl
          · have ht := s.translate_face (s.th.owner.req .load none) (n 0 8)
            generalize s.translate (s.th.owner.req .load none) (n 0 8) = q at ht
            split
            · exact State.trap_goes ht
            · exact State.stall_goes ht
            · split
              · exact State.trap_goes ht
              · split
                · exact State.stallWith_goes ht
                · exact State.retire_goes ht

theorem execIxcreate_answers (d a : Reg) (s : State) : Answers s (execIxcreate d a s) := by
  unfold execIxcreate
  refine .next ?_
  split
  · exact State.trapWord_goes rfl
  · split
    · exact State.result_goes rfl
    · split
      · exact State.stall_goes rfl
      · split
        · exact State.trap_goes rfl
        · refine State.whenFree_goes rfl ?_
          dsimp only
          split
          · exact State.trap_goes rfl
          · exact .of_face rfl

theorem execLease_answers (d a : Reg) (s : State) : Answers s (execLease d a s) := by
  unfold execLease
  refine .next ?_
  split
  · exact State.result_goes rfl
  · have hv : s.endLease.drawBit.2.face = s.face := by simp
    dsimp only
    generalize s.endLease.drawBit = q at hv
    exact State.result_goes (State.ite_face hv hv)

theorem execUnlease_answers (s : State) : Answers s (execUnlease s) := .next (State.retire_goes rfl)

theorem execPinv_answers (a : Reg) (s : State) : Answers s (execPinv a s) := by
  unfold execPinv
  refine .next ?_
  split
  · exact State.trapWord_goes rfl
  · split
    · exact State.trapWord_goes rfl
    · refine State.afterRelease_goes rfl fun v hv => ?_
      dsimp only
      split
      · exact State.stallWith_goes hv
      · refine State.retire_goes ?_
        split <;> simp [hv]

theorem execPswap_answers (a b : Reg) (s : State) : Answers s (execPswap a b s) := by
  unfold execPswap
  refine .next ?_
  split
  · exact State.trapWord_goes rfl
  · split
    · exact State.trap_goes rfl
    · exact State.trap_goes rfl
    · dsimp only
      split
      · exact State.trap_goes rfl
      · refine State.afterRelease_goes rfl fun v hv => ?_
        split
        · exact State.trap_goes (by simp [hv])
        · exact State.retire_goes (by simp [hv])

theorem execPclr_answers (a : Reg) (s : State) : Answers s (execPclr a s) := by
  unfold execPclr
  refine .next ?_
  split
  · exact State.trapWord_goes rfl
  · split
    · exact State.trap_goes rfl
    · exact State.issueWhenFree_goes rfl

theorem execPgen_answers (a : Reg) (s : State) : Answers s (execPgen a s) := by
  unfold execPgen
  refine .next ?_
  split
  · exact State.trapWord_goes rfl
  · split
    · exact State.trapWord_goes rfl
    · exact State.afterRelease_goes rfl fun _ hv => State.retire_goes (by simp [hv])

end Sys2Proof.Machine
end

section
/-!
PROOF. No instruction and no trap changes what a thread is (O57).
-/
namespace Sys2Proof.Machine
open Sys2Proof

/-- After every instruction and every trap the thread that issued it goes on as what it is, or it is gone (R10). -/
theorem exec_answers (i : Instr) (s : State) : i.form ≠ .event → i.form ≠ .micro → Answers s (exec i s) := by
  cases i with
  | add | sub | and | or | xor | andn | shl | shr | sra | slt | sltz | min | max | minz | maxz | sel | addw | subw | rotl | rotr | addi 
  | andi | ori | xori | shli | shri | srai | slti | sltzi | lim | lpc | clz | ctz | ffs | popc | rev | bswap | bext | bins | mul | mulh 
  | mulhz | mulhsz | div | divz | rem | remz | mulw | cpyq | trinfo => exact fun _ _ => .next (State.result_goes rfl)
  | beq | bne | blt | bge | blo | bhs => exact fun _ _ => .next (State.branch_goes ..)
  | jal | jalr => exact fun _ _ => .next (State.transfer_goes rfl (by simp))
  | loop | loopi => exact fun _ _ => .next (State.loopStart_goes ..)
  | ldg => exact fun _ _ => execLdg_answers ..
  | stg => exact fun _ _ => execStg_answers ..
  | ldgV => exact fun _ _ => execLdgV_answers ..
  | stgV => exact fun _ _ => execStgV_answers ..
  | ldl => exact fun _ _ => execLdl_answers ..
  | stl => exact fun _ _ => execStl_answers ..
  | ldlV => exact fun _ _ => execLdlV_answers ..
  | stlV => exact fun _ _ => execStlV_answers ..
  | amoAdd | amoAnd | amoOr | amoXor | amoMin | amoMax | amoMinz | amoMaxz | amoSwap | cas => exact fun _ _ => .next (State.atomic_goes ..)
  | amolAdd | amolAnd | amolOr | amolXor | amolMin | amolMax | amolMinz | amolMaxz | amolSwap =>
    exact fun _ _ => .next (State.localAtomic_goes ..)
  | cwait => exact fun _ _ => execCwait_answers ..
  | xfence => exact fun _ _ => execXfence_answers ..
  | swinit => exact fun _ _ => execSwinit_answers ..
  | swadd => exact fun _ _ => execSwadd_answers ..
  | swwait => exact fun _ _ => execSwwait_answers ..
  | swget => exact fun _ _ => execSwget_answers ..
  | swcnt => exact fun _ _ => execSwcnt_answers ..
  | mopen => exact fun _ _ => execMopen_answers ..
  | mput | mputV | mputE | mputVe => exact fun _ _ => .next (State.put_goes ..)
  | gbar | gbarAnd | gbarOr | gbarAdd | gbarMax | gbarMin => exact fun _ _ => .next (State.gbar_goes ..)
  | launch => exact fun _ _ => execLaunch_answers ..
  | exit => exact fun _ _ => execExit_answers ..
  | yield => exact fun _ _ => execYield_answers ..
  | sys => exact fun _ _ => execSys_answers ..
  | brk => exact fun _ _ => execBrk_answers ..
  | uret | uretReplay => exact fun _ _ => .next (State.uret_goes ..)
  | srd => exact fun _ _ => execSrd_answers ..
  | swr => exact fun _ _ => execSwr_answers ..
  | vadd | vadd16 => exact fun _ _ => .next (State.laneAdd_goes ..)
  | vsub | vsub16 => exact fun _ _ => .next (State.laneSub_goes ..)
  | vmul | vmul16 => exact fun _ _ => .next (State.laneMul_goes ..)
  | vmax | vmin | vmax16 | vmin16 => exact fun _ _ => .next (State.lanePick_goes ..)
  | vand | vor | vxor | vand16 | vor16 | vxor16 | vbcast0 | vzero | vsel | vperm | vbcast | vins | vmvx =>
    exact fun _ _ => .next (State.rawLane_goes ..)
  | vdiv => exact fun _ _ => .next (State.laneDiv_goes ..)
  | vsqrt => exact fun _ _ => .next (State.laneSqrt_goes ..)
  | vrcp | vrcp16 => exact fun _ _ => .next (State.laneRcp_goes ..)
  | vrsq | vrsq16 => exact fun _ _ => .next (State.laneRsq_goes ..)
  | vexp2 | vexp216 => exact fun _ _ => .next (State.laneExp2_goes ..)
  | vlog2 => exact fun _ _ => .next (State.laneLog2_goes ..)
  | vshl | vshr | vsra => exact fun _ _ => .next (State.laneShift_goes ..)
  | vabs | vneg | vabs16 | vneg16 => exact fun _ _ => .next (State.laneSign_goes ..)
  | vmov | vmov16 => exact fun _ _ => .next (State.laneMov_goes ..)
  | modifierWord => exact fun _ _ => execModifierWord_answers ..
  | vcmpEq | vcmpLt | vcmpLe | vcmpNe => exact fun _ _ => .next (State.laneCmp_goes ..)
  | vredadd => exact fun _ _ => .next (State.laneReduce_goes ..)
  | vredmax | vredmin => exact fun _ _ => .next (State.laneReducePick_goes ..)
  | vdot => exact fun _ _ => .next (State.laneDot_goes ..)
  | vcvt => exact fun _ _ => .next (State.laneCvt_goes ..)
  | vq8 => exact fun _ _ => execVq8_answers ..
  | vdq8 | vamax | vext => exact fun _ _ => .next (State.runLane_goes ..)
  | vfma | vfms | vfnma | vfnms => exact fun _ _ => .next (State.laneFma_goes ..)
  | sbind => exact fun _ _ => execSbind_answers ..
  | seos => exact fun _ _ => execSeos_answers ..
  | sstat => exact fun _ _ => execSstat_answers ..
  | sunbind => exact fun _ _ => execSunbind_answers ..
  | tql => exact fun _ _ => execTql_answers ..
  | tqlatch | tqd | tqmac | tqread => exact fun _ _ => .next (State.table_goes ..)
  | cpy => exact fun _ _ => execCpy_answers ..
  | mown => exact fun _ _ => execMown_answers ..
  | mrel => exact fun _ _ => execMrel_answers ..
  | mcfg => exact fun _ _ => execMcfg_answers ..
  | mmaBf16 | mmaD8 | mmaF16 => exact fun _ _ => .next (State.mma_goes ..)
  | mringAdv => exact fun _ _ => execMringAdv_answers ..
  | mringClr => exact fun _ _ => execMringClr_answers ..
  | epcfg => exact fun _ _ => execEpcfg_answers ..
  | epgo => exact fun _ _ => execEpgo_answers ..
  | lease => exact fun _ _ => execLease_answers ..
  | unlease => exact fun _ _ => execUnlease_answers ..
  | nmsend => exact fun _ _ => execNmsend_answers ..
  | nmresume => exact fun _ _ => execNmresume_answers ..
  | nmload => exact fun _ _ => execNmload_answers ..
  | nmstat => exact fun _ _ => execNmstat_answers ..
  | mli | mld | mst | mrdrowRead | mrdrowWrite | mrdrowZero | mrdrowCopy | madd | msub | mand | mor | mxor | mshl | mshr | mmul | mmax 
  | maccAdd | maccRead | mbfw | mbfwZero | mfin => exact fun _ h => absurd rfl h
  | ixnear | ixstore | ixstoreRel | ixdel => exact fun _ _ => .next (State.indexCmd_goes ..)
  | ixsnap | ixstat => exact fun _ _ => .next (State.indexAsk_goes ..)
  | ixcreate => exact fun _ _ => execIxcreate_answers ..
  | tscoreSet | tscoreMax | tscoreMin | tscoreAdd => exact fun _ _ => .next (State.tscore_goes ..)
  | pinv => exact fun _ _ => execPinv_answers ..
  | pswap => exact fun _ _ => execPswap_answers ..
  | pclr => exact fun _ _ => execPclr_answers ..
  | pgen => exact fun _ _ => execPgen_answers ..
  | udf => exact fun _ _ => .next (State.trapWord_goes rfl)
  | loadReturn | storePerform | heldFaultPost | atomicPerform | syncWordWake | messageLanding | packetCount | barrierComplete 
  | launchReplicate | completionBlockUpdate | tqlatchExec | tqmacExec | tqdExec | tqreadExec | copyCommand | heldNoticePost | mmaComplete 
  | tileDrain | leaseExpiry | nmuMessageArrival | rowCopy | rowZero | indexedReduce | tableGather | tableMac | accumulatorRead 
  | accumulatorClear | statusHandler | loadedHandlerStart | handlerTimeout | nmresumeApply | handlerLoad | indexQueryAccept | indexSearchEnd
  | indexStoreCommit | indexDeleteCommit | indexSnapshotAccept | indexStatAccept | indexCreate | indexDestroy | allowanceExhausted 
  | roundEnd | generationNotice | upcallDelivery | bindRecord | resumeRecord | stopRecord | frameCopyDone | threadStop | saveComplete 
  | saveDrainTimeout | slotSpill | clusterZeroingDone | gangReservation | scannerPage | scannerWriteDone | budgetPeriodStart | securityAlarm
  | burstPause | burstResume | sliceRetention | hostLaunchWindowWrite | reportRequest | reportReady | registerWrite | hostCxlMemAccess 
  | functionLevelReset | fabricAckTimeout | coreFailure | coreOutOfService | identityRotation | boot | coreReturnToService | quarantineLift
  | budgetChange | fabricPeerAccess | conventionalReset => exact fun h _ => absurd rfl h

/-- Settles O57: every operation of an instruction leaves the thread what it is or takes it away (`exec_answers`). -/
theorem modeIsFixed : Obligations.ModeIsFixed := by
  intro i s t he hm ht
  refine ((exec_answers i s he hm).goes t ht).self.imp_right fun h => ?_
  unfold Thread.self at h
  simpa using h

end Sys2Proof.Machine
end

section
/-!
PROOF. Threads in the table, reports, records and engines keep the PCs (O55).
-/
namespace Sys2Proof.Machine
open Sys2Proof

/-! ### Threads in the table -/

theorem State.PcsOk.of_face {s t : State} (hs : s.PcsOk) (h : t.face = s.face) : t.PcsOk := State.pcsOk_of_face h hs

/-- What leaves the threads alone keeps their PCs. -/
theorem State.PcsOk.same {s t : State} (hs : s.PcsOk) (hth : t.th = s.th) (ho : t.others = s.others) : t.PcsOk :=
  hs.of_face (by simp only [State.face, hth, ho])

theorem State.PcsOk.focus {s : State} (hs : s.PcsOk) (n : Nat) : (s.focus n).PcsOk := State.focus_pcs n hs

theorem State.PcsOk.threads {s : State} (hs : s.PcsOk) : ∀ t ∈ s.threads, PcOk t.pc := by
  obtain ⟨hpc, hothers⟩ := hs
  intro t ht
  unfold State.threads at ht
  rcases List.mem_append.1 ht with ht | ht
  · split at ht
    · exact (List.mem_singleton.1 ht) ▸ hpc
    · exact absurd ht List.not_mem_nil
  · obtain ⟨e, he, rfl⟩ := List.mem_map.1 ht
    exact hothers e he

theorem State.PcsOk.issuer {s : State} (hs : s.PcsOk) {o : Owner} {t : Thread} (h : s.issuer o = some t) : PcOk t.pc :=
  hs.threads t (List.mem_of_find?_eq_some h)

theorem State.PcsOk.threadAt {s : State} (hs : s.PcsOk) {n : Nat} {t : Thread} (h : s.threadAt n = some t) : PcOk t.pc := by
  obtain ⟨hpc, hothers⟩ := hs
  unfold State.threadAt at h
  split at h
  · cases h
    exact hpc
  · exact hothers _ (Tab.mem_of_find h)

theorem State.PcsOk.putThread {s : State} (hs : s.PcsOk) {t : Thread} (ht : PcOk t.pc) : (s.putThread t).PcsOk := by
  obtain ⟨hpc, hothers⟩ := hs
  unfold State.putThread
  split
  · exact ⟨ht, hothers⟩
  · refine ⟨hpc, fun e he => ?_⟩
    rcases Tab.mem_put he with rfl | he
    · exact ht
    · exact hothers e he

/-- Threads changed one by one, none in its PC. -/
theorem State.PcsOk.mapped {s t : State} (hs : s.PcsOk) {f : Nat × Thread → Nat × Thread} (hf : ∀ e, (f e).2.pc = e.2.pc)
    (hth : t.th.pc = s.th.pc) (ho : t.others = s.others.map f) : t.PcsOk := by
  obtain ⟨hpc, hothers⟩ := hs
  refine ⟨hth ▸ hpc, fun e he => ?_⟩
  rw [ho] at he
  obtain ⟨d, hd, rfl⟩ := List.mem_map.1 he
  rw [hf d]
  exact hothers d hd

theorem State.PcsOk.ite {p : Prop} [Decidable p] {u v : State} (hu : u.PcsOk) (hv : v.PcsOk) : (if p then u else v).PcsOk := by
  split
  · exact hu
  · exact hv

/-- A row of operations that each keep the PCs. -/
theorem State.PcsOk.foldl {α : Type} {f : State → α → State} (hf : ∀ u a, u.PcsOk → (f u a).PcsOk) (l : List α) :
    ∀ s : State, s.PcsOk → (l.foldl f s).PcsOk := by
  induction l with
  | nil => exact fun _ hs => hs
  | cons a l ih => exact fun s hs => ih _ (hf s a hs)

theorem State.PcsOk.mapGang {s : State} (hs : s.PcsOk) {g : Gang} {f : Thread → Thread} (hf : ∀ t, (f t).pc = t.pc) :
    (s.mapGang g f).PcsOk := by
  refine hs.mapped (f := fun e => (e.1, if g.has e.2.ident then f e.2 else e.2)) (fun e => ?_) ?_ rfl
  · dsimp only
    split
    · exact hf _
    · rfl
  · unfold State.mapGang
    dsimp only
    split
    · exact hf _
    · rfl

theorem State.PcsOk.mapThreads {s : State} (hs : s.PcsOk) {p : Thread → Bool} {f : Thread → Thread} (hf : ∀ t, (f t).pc = t.pc) :
    (s.mapThreads p f).PcsOk := by
  refine hs.mapped (f := fun e => (e.1, if p e.2 then f e.2 else e.2)) (fun e => ?_) ?_ rfl
  · dsimp only
    split
    · exact hf _
    · rfl
  · unfold State.mapThreads
    dsimp only
    split
    · exact hf _
    · rfl

theorem State.PcsOk.rouse {s : State} (hs : s.PcsOk) : s.rouse.PcsOk :=
  hs.mapped (f := fun e => (e.1, { e.2 with stalled := false })) (fun _ => rfl) rfl rfl

theorem State.PcsOk.settled {s : State} (hs : s.PcsOk) : s.settled.PcsOk := by
  unfold State.settled
  split
  · exact hs
  · exact hs.rouse

theorem State.aged_pc (s : State) (n : Nat) (t : Thread) : (s.aged n t).pc = t.pc := by
  unfold State.aged
  split
  · rfl
  · split <;> rfl

theorem State.PcsOk.pass {s : State} (hs : s.PcsOk) (n : Nat) : (s.pass n).PcsOk := by
  unfold State.pass State.elapse
  exact hs.mapped (fun e => State.aged_pc _ _ e.2) (State.aged_pc ..) rfl

theorem State.PcsOk.freed {s : State} (hs : s.PcsOk) (n : Nat) : (s.freed n).PcsOk := by
  unfold State.freed
  split
  next ht =>
    have hpc := hs.threadAt ht
    exact hs.putThread hpc
  next => exact hs

theorem State.PcsOk.issued {s : State} (hs : s.PcsOk) (n : Nat) : (s.issued n).PcsOk := by
  unfold State.issued
  split
  · exact hs.of_face rfl
  · exact hs

theorem State.PcsOk.occupy {s : State} (hs : s.PcsOk) (t : Thread) (d : Bool) : (s.occupy t d).PcsOk := by
  unfold State.occupy
  split
  · exact hs.of_face rfl
  · exact hs

theorem State.PcsOk.withRows {s : State} (hs : s.PcsOk) (i : Instr) : (s.withRows i).PcsOk := by
  unfold State.withRows
  split
  · exact hs.of_face rfl
  · exact hs

/-! ### Reports, upcalls and notices -/

theorem State.PcsOk.report {s : State} (hs : s.PcsOk) (c q : Nat) : (s.report c q).PcsOk := (State.report_goes rfl).pcs hs

theorem State.PcsOk.loseContext {s : State} (hs : s.PcsOk) (c q : Nat) : (s.loseContext c q).PcsOk := (State.loseContext_goes rfl).pcs hs

theorem State.PcsOk.trap {s : State} (hs : s.PcsOk) (c q : Nat) : (s.trap c q).PcsOk := (State.trap_goes rfl).pcs hs

theorem State.PcsOk.trapWord {s : State} (hs : s.PcsOk) (c : Nat) (i : Instr) : (s.trapWord c i).PcsOk := (State.trapWord_goes rfl).pcs hs

theorem State.PcsOk.reportOwner {s : State} (hs : s.PcsOk) (o : Owner) (pa : Nat) : (s.reportOwner o pa).PcsOk := by
  unfold State.reportOwner
  split
  · exact (hs.focus _).report _ _
  · exact hs.of_face rfl

theorem State.PcsOk.upcallNotice {s : State} (hs : s.PcsOk) : s.upcallNotice.PcsOk := by
  unfold State.upcallNotice
  dsimp only
  split
  · exact hs
  · exact (State.upcall_goes rfl).pcs (hs.of_face rfl)

theorem State.PcsOk.boundary {s : State} (hs : s.PcsOk) : s.boundary.PcsOk := by
  unfold State.boundary
  split
  · exact hs
  · split
    · exact (State.upcallRecords_goes rfl).pcs hs
    · exact hs.upcallNotice

theorem State.PcsOk.postNotice {s : State} (hs : s.PcsOk) (o : Owner) (w : Word) : (s.postNotice o w).2.PcsOk := by
  unfold State.postNotice
  split
  next => exact hs
  next ht =>
    have hpc := hs.issuer ht
    split
    · exact hs.putThread hpc
    · exact hs.putThread hpc

theorem State.PcsOk.postRecord {s t : State} (hs : s.PcsOk) {what : Redo} {w : Why} {engine : Bool} {seq : Nat}
    (h : s.postRecord what w engine seq = some t) : t.PcsOk := hs.of_face (State.postRecord_face _ _ _ _ _ _ h)

/-! ### Accesses, tables and copies -/

theorem State.PcsOk.holdAccess {s : State} (hs : s.PcsOk) (a : Access) (w : Why) : (s.holdAccess a w).PcsOk :=
  hs.of_face (State.holdAccess_face ..)

theorem State.PcsOk.performAccess {s : State} (hs : s.PcsOk) (k : AccOp → Bool) : (s.performAccess k).PcsOk := by
  have hf := hs.focus s.ev.unit
  unfold State.performAccess
  dsimp only
  split
  · exact hs
  · split
    · exact hs
    next a _ =>
      split
      · exact hs
      · split
        · exact hf.holdAccess _ _
        · have hr : (if a.releases then (s.focus s.ev.unit).tryRelease a.scope else (true,
          s.focus s.ev.unit)).2.face = (s.focus s.ev.unit).face := by
            split <;> simp
          generalize (if a.releases then (s.focus s.ev.unit).tryRelease a.scope else (true, s.focus s.ev.unit)) = q at hr
          have hq := hf.of_face hr
          split
          · exact hq
          · have hp := hq.of_face (State.perform_face q.2 a)
            generalize q.2.perform a = r at hp
            split
            · exact hp.of_face rfl
            · exact hp.holdAccess _ _
            · exact hp.report _ _
            · exact hp

theorem State.PcsOk.tableDone {s : State} (hs : s.PcsOk) (c : TableCmd) (status : Nat) (bad : Option Nat) :
    (s.tableDone c status bad).PcsOk := by
  have h : (((s.putEngine c.view (c.raddr + 31) (bytesOf 1 status)).arrive c.owner c.sync c.arrival (status != 0)).dropLostClaim
    c.owner).PcsOk :=
    hs.of_face (by simp)
  unfold State.tableDone
  dsimp only
  split
  · exact h.reportOwner _ _
  · exact h

theorem State.PcsOk.tableExec {s : State} (hs : s.PcsOk) (op : TableOp) : (s.tableExec op).PcsOk := by
  unfold State.tableExec
  split
  · exact hs
  next c _ =>
    split
    · exact hs
    · have ht := hs.of_face (State.translateVas_face s (c.owner.req .load c.gen) c.vas)
      dsimp only
      generalize s.translateVas (c.owner.req .load c.gen) c.vas = q at ht
      split
      · exact ht
      · split
        · exact ht.of_face rfl
        · split
          next hr => exact ((ht.focus _).postRecord hr).of_face rfl
          next => exact hs
      · exact ht
      · split
        · exact hs
        · exact State.PcsOk.tableDone (ht.of_face (by simp)) _ _ _

theorem State.PcsOk.failCopy {s : State} (hs : s.PcsOk) (core : Nat) (c : CopyCmd) (cause side n : Nat) :
    (s.failCopy core c cause side n).PcsOk := by
  unfold State.failCopy
  have hp := hs.postNotice c.owner (noticeOf 1 side cause n)
  dsimp only
  generalize s.postNotice c.owner (noticeOf 1 side cause n) = q at hp
  split
  · exact hp.of_face (by simp)
  · exact hp.of_face (by simp)

theorem State.PcsOk.holdCopy {s : State} (hs : s.PcsOk) (core : Nat) (c : CopyCmd) (cause va : Nat) (write : Bool) :
    (s.holdCopy core c cause va write).PcsOk := by
  unfold State.holdCopy
  split
  next => exact hs.of_face (by simp)
  next t _ =>
    have hf := hs.focus t.slot
    dsimp only
    split
    next hr => exact (hf.postRecord hr).of_face (by simp)
    next => exact hf.of_face (by simp)

/-! ### The drain of a tile -/

theorem State.PcsOk.failDrain {s : State} (hs : s.PcsOk) (o : Owner) (core cause : Nat) : (s.failDrain o core cause).PcsOk := by
  unfold State.failDrain
  dsimp only
  have hp := hs.postNotice o (noticeOf 3 0 cause (((s.unitOf core).cfg.elim 0 (·.seq)) % 2 ^ 16 + (s.unitOf core).row * 2 ^ 16))
  generalize s.postNotice o (noticeOf 3 0 cause (((s.unitOf core).cfg.elim 0 (·.seq)) % 2 ^ 16 + (s.unitOf core).row * 2 ^ 16)) = q at hp
  split
  · exact hp.of_face (by simp)
  · exact hp.of_face (by simp)

theorem State.PcsOk.drainUnit {s : State} (hs : s.PcsOk) (core : Nat) (q : DrainReq) (c : EpCfg) (n : Nat) :
    (s.drainUnit core q c n).PcsOk := by
  have hd := hs.of_face (State.drainOn_face s ⟨s.th.owner, q.view, core, s.unitOf core⟩ c n)
  unfold State.drainUnit
  dsimp only
  generalize s.drainOn ⟨s.th.owner, q.view, core, s.unitOf core⟩ c n = r at hd
  have hu : (r.2.2.putUnit core r.2.1.unit).PcsOk := hd.of_face (by simp)
  split
  · exact hu
  · exact hu
  · exact hu.failDrain _ _ _
  · exact State.PcsOk.report (hu.of_face (by simp)) _ _
  · split
    next hr => exact (hu.postRecord hr).of_face (by simp)
    next => exact hu

theorem State.PcsOk.drainLost {s : State} (hs : s.PcsOk) (k n : Nat) : (s.drainLost k n).PcsOk := by
  unfold State.drainLost
  split
  · exact hs
  next l _ =>
    split
    next c q _ _ _ =>
      have hd := hs.of_face (State.drainOn_face s ⟨l.owner, q.view, l.core, l.unit⟩ c n)
      dsimp only
      generalize s.drainOn ⟨l.owner, q.view, l.core, l.unit⟩ c n = r at hd
      split
      · exact hd
      · split <;> exact hd.of_face rfl
      · exact hd.of_face (by simp)
      · exact hd.of_face (by simp)
      · exact State.PcsOk.reportOwner (hd.of_face (by simp)) _ _
    next => exact hs.of_face rfl

/-! ### Near-memory units -/

theorem State.PcsOk.stopHandler {s : State} (hs : s.PcsOk) (n : Nat) (h : Handler) (kind bank column : Nat) :
    (s.stopHandler n h kind bank column).PcsOk := by
  have hp := hs.postNotice h.msg.owner (noticeOf 5 0 0x0F h.msg.raddr)
  unfold State.stopHandler
  dsimp only
  exact hp.of_face (by simp)

theorem State.PcsOk.settle {s : State} (hs : s.PcsOk) (n : Nat) (h : Handler) (e : HandlerEnd) : (s.settle n h e).PcsOk := by
  unfold State.settle
  cases e with
  | status k => exact hs.of_face (by simp)
  | lost pa => exact State.PcsOk.reportOwner (hs.of_face (by simp)) _ _
  | stop kind bank column => exact hs.stopHandler _ _ _ _ _

/-- A built-in handler whose own work leaves the threads alone. -/
theorem State.PcsOk.builtin {s : State} (hs : s.PcsOk) (k : Nat) {f : Builtin} (hf : ∀ s n h, (f s n h).2.2.face = s.face) :
    (s.builtin k f).PcsOk := by
  unfold State.builtin
  dsimp only
  split
  · exact hs
  · exact State.PcsOk.settle (hs.of_face (by simp [hf])) _ _ _

theorem State.PcsOk.micro {s : State} (hs : s.PcsOk) {f : Handler → State} (hf : ∀ h, (f h).PcsOk) : (s.micro f).PcsOk := by
  unfold State.micro
  split
  · split
    · exact hf _
    · exact hs
  · exact hs

theorem State.microNext_face (s : State) (h : Handler) : (s.microNext h).face = s.face := by
  unfold State.microNext
  simp

theorem State.PcsOk.microSet {s : State} (hs : s.PcsOk) (d : MReg) (f : Handler → BitVec 32) : (s.microSet d f).PcsOk :=
  hs.micro fun _ => hs.of_face (State.microNext_face ..)

theorem State.PcsOk.macc {s : State} (hs : s.PcsOk) (f : Handler → Nmu → Handler × Nmu) : (s.macc f).PcsOk := by
  refine hs.micro fun h => ?_
  split
  · exact hs.of_face (by simp)
  · exact hs.of_face (by simp [State.microNext_face])

theorem State.PcsOk.microBranch {s : State} (hs : s.PcsOk) (o : Fin 64) (taken : Handler → Bool) : (s.microBranch o taken).PcsOk := by
  refine hs.micro fun h => ?_
  split
  · exact hs.of_face (by simp)
  · exact hs.of_face (State.microNext_face ..)

/-- A microinstruction on a row whose own work leaves the threads alone. -/
theorem State.PcsOk.microRow {s : State} (hs : s.PcsOk) {f : State → Handler → Except HandlerEnd State}
    (hf : ∀ s h t, f s h = .ok t → t.face = s.face) : (s.microRow f).PcsOk := by
  refine hs.micro fun h => ?_
  have he : (s.evictFor h.msg).PcsOk := hs.of_face (by simp)
  split
  next t ht =>
    have hg := he.of_face (hf _ _ _ ht)
    exact hg.of_face (State.microNext_face ..)
  next => exact hs.settle _ _ _

/-! ### Indexes -/

theorem State.PcsOk.failAt {s : State} (hs : s.PcsOk) (c : IxCmd) (status va : Nat) (lost : Option Nat) :
    (s.failAt c status va lost).PcsOk := by
  have h : ((s.dropIx s.ev.idx).failIx c status va).PcsOk := hs.of_face (by simp)
  unfold State.failAt
  dsimp only
  split
  · exact h.reportOwner _ _
  · exact h

theorem State.PcsOk.returnEntries {s : State} (hs : s.PcsOk) (o : Owner) (es : List IxEntry) : (s.returnEntries o es).PcsOk := by
  unfold State.returnEntries
  split
  next ht =>
    have hpc := hs.issuer ht
    exact hs.putThread hpc
  next => exact hs

theorem State.PcsOk.answerIx {s : State} (hs : s.PcsOk) (c : IxCmd) (f : Index → Word) : (s.answerIx c f).PcsOk := by
  have hd : (s.dropIx s.ev.idx).PcsOk := hs.of_face (by simp)
  unfold State.answerIx
  dsimp only
  split
  next t _ =>
    have hf := hd.focus t.slot
    exact hf.of_face (by simp)
  next => exact hd

theorem State.PcsOk.creating {s t : State} (hs : s.PcsOk) {op r : Nat} {bs : List Byte} (h : s.creating op = some (r, bs, t)) :
    t.PcsOk := by
  unfold State.creating at h
  dsimp only at h
  split at h
  · cases h
  · split at h
    · split at h
      · cases h
        exact hs.focus _
      · cases h
    · cases h

end Sys2Proof.Machine
end

section
/-!
PROOF. Binding, saving, stopping and resetting keep the PCs (O55).
-/
namespace Sys2Proof.Machine
open Sys2Proof

/-! ### Binding and resuming -/

theorem State.restored_pcOk (s : State) (t : Thread) : PcOk (s.restored t).pc := by
  unfold State.restored
  exact pcOk_pcBits _

theorem State.newThread_pcOk (s : State) (die : Nat) (l : Launch) (r : BindRec) (k : Option Nat) : PcOk (s.newThread die l r k).pc := by
  unfold State.newThread
  exact pcOk_pcBits _

theorem State.boundAgain_pcOk (s : State) (die : Nat) (l : Launch) (r : BindRec) (g : Gang) : PcOk (s.boundAgain die l r g).pc := idle_pcOk

theorem State.PcsOk.readyGroup {s : State} (hs : s.PcsOk) : s.readyGroup.PcsOk := by
  unfold State.readyGroup
  split
  · exact hs
  · split
    · refine hs.mapGang fun t => ?_
      split <;> rfl
    · exact hs

theorem State.PcsOk.reloadRing {s : State} (hs : s.PcsOk) : s.reloadRing.PcsOk := by
  unfold State.reloadRing
  split
  · exact hs.readyGroup
  · split
    · exact hs
    · split
      · exact hs.loseContext _ _
      · exact State.PcsOk.readyGroup (hs.of_face (by simp))

theorem State.PcsOk.resumeOn {s : State} (hs : s.PcsOk) : s.resumeOn.PcsOk := by
  have h : (s.sendAll s.th.progress).PcsOk := hs.of_face (by simp)
  unfold State.resumeOn
  dsimp only
  split
  · exact h.reloadRing
  · exact h

theorem State.PcsOk.resumeRecords {s : State} (hs : s.PcsOk) : s.resumeRecords.PcsOk := by
  unfold State.resumeRecords
  split
  · exact hs.loseContext _ _
  · exact State.PcsOk.resumeOn (hs.of_face (by simp))

theorem State.PcsOk.restore {s : State} (hs : s.PcsOk) : s.restore.PcsOk := by
  have hr : ((s.renew (dieOf s.th.slot) .sys).dropIcache (coreOf s.th.slot)).PcsOk := hs.of_face (by simp)
  unfold State.restore
  dsimp only
  generalize (s.renew (dieOf s.th.slot) .sys).dropIcache (coreOf s.th.slot) = u at hr
  obtain ⟨-, hothers⟩ := hr.of_face (State.takeLeaving_face u)
  refine State.PcsOk.resumeRecords ⟨?_, hothers⟩
  exact State.restored_pcOk u u.th

theorem State.PcsOk.bindThread {s : State} (hs : s.PcsOk) {t : Thread} (ht : PcOk t.pc) : (s.bindThread t).PcsOk := by
  unfold State.bindThread
  refine State.PcsOk.of_face (s := State.putThread _ t) (State.PcsOk.putThread (hs.of_face ?_) ht) (State.dropIcache_face ..)
  exact (State.settleLoc_face ..).trans rfl

theorem State.PcsOk.bindGang {s t : State} (hs : s.PcsOk) {die : Nat} {group : List BindRec} (h : s.bindGang die group = some t) :
    t.PcsOk := by
  unfold State.bindGang at h
  split at h
  · cases h
    exact hs
  · split at h
    · cases h
      exact hs
    next l _ rival _ =>
      dsimp only at h
      split at h
      · cases h
      · cases h
        refine State.PcsOk.foldl (fun u q hu => ?_) _ _ (hs.of_face (by simp))
        exact (hu.bindThread (State.newThread_pcOk ..)).of_face (State.writeLoc_face ..)

theorem State.PcsOk.resumeGang {s : State} (hs : s.PcsOk) (die : Nat) (group : List BindRec) : (s.resumeGang die group).PcsOk := by
  unfold State.resumeGang
  split
  · exact hs
  · split
    · exact hs
    · split
      · exact hs
      · refine State.PcsOk.foldl (fun u q hu => ?_) _ _ (hs.of_face rfl)
        refine State.PcsOk.bindThread (hu.of_face ?_) (State.boundAgain_pcOk ..)
        exact State.ite_face (by simp) rfl

theorem State.PcsOk.stopGroup {s : State} (hs : s.PcsOk) (die : Nat) (group : List BindRec) : (s.stopGroup die group).PcsOk := by
  refine State.PcsOk.foldl (fun u r hu => ?_) _ _ hs
  split
  next => exact hu
  next ht =>
    have hpc := hu.threadAt ht
    exact hu.putThread hpc

theorem State.PcsOk.closePort {s : State} (hs : s.PcsOk) (die code : Nat) :
    (s.closePort die code).PcsOk := hs.of_face (State.closePort_face ..)

theorem State.PcsOk.putPort {s : State} (hs : s.PcsOk) (die : Nat) (p : BindPort) :
    (s.putPort die p).PcsOk := hs.of_face (State.putPort_face ..)

theorem State.PcsOk.runGroup {s : State} (hs : s.PcsOk) (die : Nat) (group : List BindRec) : (s.runGroup die group).PcsOk := by
  unfold State.runGroup
  split
  · exact hs
  · dsimp only
    split
    · exact hs.closePort _ _
    · split
      · exact (hs.stopGroup _ _).closePort _ _
      · split
        · exact hs.putPort _ _
        · split
          · exact (hs.resumeGang _ _).closePort _ _
          · split
            next hb => exact (hs.bindGang hb).closePort _ _
            next => exact hs.closePort _ _

theorem State.PcsOk.submit {s : State} (hs : s.PcsOk) (die : Nat) (bits : BitVec 128) : (s.submit die bits).PcsOk := by
  unfold State.submit
  extract_lets p
  split
  · exact hs
  · split
    · exact hs.putPort _ _
    · split
      · exact hs.closePort _ _
      · exact (hs.putPort _ _).runGroup _ _

theorem State.PcsOk.firmware {s : State} (hs : s.PcsOk) (die : Nat) (bits : BitVec 128) : (s.firmware die bits).PcsOk := by
  unfold State.firmware
  dsimp only
  split
  · exact hs
  · refine State.PcsOk.submit (State.PcsOk.putPort (hs.of_face ?_) _ _) _ _
    exact State.ite_face rfl (by simp)

theorem State.PcsOk.outside {s : State} (hs : s.PcsOk) (o : Outside) : (s.outside o).PcsOk := by
  cases o with
  | weight fn w => exact hs.of_face (State.ite_face rfl rfl)
  | peerWindow k w => exact hs.of_face (State.ite_face rfl rfl)
  | portStore die second v =>
    show (s.portStore die second v).PcsOk
    unfold State.portStore
    split
    · exact hs.firmware _ _
    · split
      · exact hs
      · exact hs.putPort _ _
  | hostStore pa bs => exact hs.of_face (State.hostStore_face ..)
  | bitError pa bit => exact hs.of_face (State.bitError_face ..)
  | localError key => exact hs.of_face rfl

/-! ### Rivals, functions and resets -/

theorem State.PcsOk.killRival {s : State} (hs : s.PcsOk) (l : Launch) (k : Nat) : (s.killRival l k).PcsOk := by
  have h := State.dropSlots_pcs ((s.threads.filter (l.hasThread k)).map (·.slot)) s hs
  unfold State.killRival
  dsimp only
  generalize ((s.threads.filter (l.hasThread k)).map (·.slot)).foldl (fun s n => (s.focus n).dropThread) s = u at h
  exact h.of_face (by simp)

theorem State.PcsOk.stopFunction {s : State} (hs : s.PcsOk) (fn : Nat) : (s.stopFunction fn).PcsOk := by
  unfold State.stopFunction
  extract_lets v slots w mine x
  have hv : v.PcsOk := hs.of_face rfl
  have hw : w.PcsOk := State.dropSlots_pcs slots v hv
  clear_value w
  exact hw.of_face (by simp [x])

theorem State.PcsOk.wake {s : State} (hs : s.PcsOk) (slot : Nat) : (s.wake slot).PcsOk := by
  have hf := hs.focus slot
  unfold State.wake
  dsimp only
  generalize s.focus slot = u at hf
  split
  · exact hf
  · split
    · exact hf.of_face rfl
    · split
      · exact hf
      · have ht := hf.of_face (State.takeLeaving_face u)
        generalize u.takeLeaving = q at ht
        refine State.PcsOk.resumeRecords (ht.of_face ?_)
        exact State.ite_face (by simp) (by simp)

theorem State.PcsOk.tellDropped {s : State} (hs : s.PcsOk) (waits : Bool) (pa : Nat) : (s.tellDropped waits pa).PcsOk := by
  unfold State.tellDropped
  split
  · exact hs.report _ _
  · exact hs

theorem State.PcsOk.stopLost {s : State} (hs : s.PcsOk) (i : Ident) : (s.stopLost i).PcsOk := by
  unfold State.stopLost
  split
  · exact (State.stopGang_goes rfl).pcs hs
  · exact hs

theorem State.PcsOk.reset : State.reset.PcsOk := ⟨idle_pcOk, fun _ he => absurd he List.not_mem_nil⟩

/-- A state that a reset has left without threads. -/
theorem State.PcsOk.of_reset {s : State} (h : s.face = State.reset.face) : s.PcsOk := State.PcsOk.reset.of_face h

theorem State.stopped_face (s : State) (step : Nat) (r : ConfigRecord) : (s.stopped step r).face = State.reset.face := by
  unfold State.stopped
  split
  · rfl
  · split
    · rfl
    · split <;> rfl

theorem State.PcsOk.bootWith (s : State) (fail : Nat) (r : ConfigRecord) : (s.bootWith fail r).PcsOk := by
  refine .of_reset ?_
  unfold State.bootWith
  dsimp only
  generalize (if 1 ≤ fail ∧ fail ≤ 3 then fail else if !recordOk r then 3 else if fail ≤ 6 then fail else 0) = k
  split
  · rfl
  · exact (State.stopped_face s k r)

end Sys2Proof.Machine
end

section
/-!
PROOF. Microinstructions, built-in handlers, and the events of accesses and engines keep the PCs (O55).
-/
namespace Sys2Proof.Machine
open Sys2Proof

/-! ### Microinstructions -/

/-- Where the outcome is a next state, every PC in it is as R9 keeps it. -/
structure StaysOk (o : Out) : Prop where
  pcs : ∀ t, o = .next t → t.PcsOk

theorem StaysOk.next {t : State} (h : t.PcsOk) : StaysOk (.next t) := ⟨fun _ hu => by
  cases hu
  exact h⟩

theorem StaysOk.face {s t : State} (hs : s.PcsOk) (h : t.face = s.face) : StaysOk (.next t) := .next (hs.of_face h)

theorem execMst_pcs {s : State} (hs : s.PcsOk) (d a : MReg) (v : MicroOperand) : StaysOk (execMst d a v s) :=
  .next (hs.micro fun _ => hs.of_face (State.microNext_face ..))

theorem execMfin_pcs {s : State} (hs : s.PcsOk) (d : MReg) : StaysOk (execMfin d s) := .next (hs.micro fun _ => hs.of_face (by simp))

theorem execMrdrowRead_pcs {s : State} (hs : s.PcsOk) (a : MReg) : StaysOk (execMrdrowRead a s) := by
  refine .next (hs.microRow fun s h t ht => ?_)
  cases hr : s.readHandle h h.m[a].toNat with
  | error e =>
    rw [hr] at ht
    cases ht
  | ok bs =>
    rw [hr] at ht
    cases ht
    simp

theorem execMrdrowWrite_pcs {s : State} (hs : s.PcsOk) (a : MReg) : StaysOk (execMrdrowWrite a s) :=
  .next (hs.microRow fun u h => u.writeRow_face h _ _)

theorem execMrdrowZero_pcs {s : State} (hs : s.PcsOk) (a : MReg) : StaysOk (execMrdrowZero a s) :=
  .next (hs.microRow fun u h => u.zeroRow_face h _)

theorem execMrdrowCopy_pcs {s : State} (hs : s.PcsOk) (a b : MReg) : StaysOk (execMrdrowCopy a b s) :=
  .next (hs.microRow fun u h => u.copyRow_face h _ _)

/-! ### Built-in handlers -/

theorem finish_face {s : State} {h : Handler} {r : Except HandlerEnd State} (hr : ∀ t, r = .ok t → t.face = s.face) :
    (finish s h r).2.2.face = s.face := by
  cases r with
  | ok t => exact hr t rfl
  | error e => rfl

/-- A row written, and what is counted of it. -/
theorem State.writeRow_map_face {s : State} {h : Handler} {v : Nat} {bs : List Byte} {f : State → State} (hf : ∀ u, (f u).face = u.face) :
    ∀ t, (s.writeRow h v bs).map f = .ok t → t.face = s.face := by
  intro t ht
  cases hw : s.writeRow h v bs with
  | error e =>
    rw [hw] at ht
    cases ht
  | ok u =>
    rw [hw] at ht
    cases ht
    exact (hf u).trans (s.writeRow_face h v bs u hw)

theorem rowCopy_face (s : State) (n : Nat) (h : Handler) : (rowCopy s n h).2.2.face = s.face := finish_face (s.copyRow_face h _ _)

theorem rowZero_face (s : State) (n : Nat) (h : Handler) : (rowZero s n h).2.2.face = s.face := finish_face (s.zeroRow_face h _)

theorem indexedReduce_face (s : State) (n : Nat) (h : Handler) : (indexedReduce s n h).2.2.face = s.face := by
  unfold indexedReduce
  dsimp only
  split
  · rfl
  · split
    · rfl
    · split
      · rfl
      · split
        · rfl
        · exact finish_face (State.writeRow_map_face fun _ => by simp)

/-- A claim of a near-memory unit for a handler. -/
theorem State.claimNmu_face (s : State) (n : Nat) (h : Handler) : ∀ t, s.claimNmu n h = .ok t → t.face = s.face := by
  intro t ht
  unfold State.claimNmu at ht
  split at ht
  · cases ht
    rfl
  · cases ht

theorem tableGather_face (s : State) (n : Nat) (h : Handler) : (tableGather s n h).2.2.face = s.face := by
  unfold tableGather
  split
  · rfl
  · split
    next => rfl
    next hc =>
      have hu := s.claimNmu_face n h _ hc
      split
      · exact hu
      · split
        · exact hu
        · split
          · exact hu
          · exact (finish_face (State.writeRow_map_face fun _ => by simp)).trans hu

theorem tableMac_face (s : State) (n : Nat) (h : Handler) : (tableMac s n h).2.2.face = s.face := by
  unfold tableMac
  split
  · rfl
  · split
    next => rfl
    next hc =>
      have hu := s.claimNmu_face n h _ hc
      split
      · exact hu
      · exact hu
      · split
        · exact hu
        · split
          · exact hu
          · split
            · exact hu
            · exact hu
            · simpa using hu

theorem accumulatorRead_face (s : State) (n : Nat) (h : Handler) : (accumulatorRead s n h).2.2.face = s.face := by
  unfold accumulatorRead
  dsimp only
  split
  · rfl
  · split
    next => rfl
    next hc =>
      have hu := s.claimNmu_face n h _ hc
      refine (finish_face (State.writeRow_map_face fun u => ?_)).trans hu
      split <;> simp

theorem accumulatorClear_face (s : State) (n : Nat) (h : Handler) : (accumulatorClear s n h).2.2.face = s.face := by
  unfold accumulatorClear
  dsimp only
  split
  · rfl
  · split
    next => rfl
    next hc => simpa using s.claimNmu_face n h _ hc

theorem statusHandler_face (s : State) (n : Nat) (h : Handler) : (statusHandler s n h).2.2.face = s.face := rfl

/-! ### Events of accesses, copies and engines -/

theorem execHeldFaultPost_pcs {s : State} (hs : s.PcsOk) : StaysOk (execHeldFaultPost s) := by
  have hf := hs.focus s.ev.unit
  unfold execHeldFaultPost
  dsimp only
  refine .next ?_
  split
  · exact hs
  · split
    · exact hs
    · split
      · exact hs
      · split
        · exact hs
        · exact hf.holdAccess _ _

theorem execSyncWordWake_pcs {s : State} (hs : s.PcsOk) : StaysOk (execSyncWordWake s) := by
  have hf := hs.focus s.ev.unit
  unfold execSyncWordWake
  dsimp only
  refine .next ?_
  split
  · exact hs
  · split
    · exact hs
    · split
      · exact hf.of_face rfl
      · exact hs

theorem execMessageLanding_pcs {s : State} (hs : s.PcsOk) : StaysOk (execMessageLanding s) := by
  unfold execMessageLanding
  refine .face hs ?_
  split
  · rfl
  · split
    · rfl
    · simp

theorem execPacketCount_pcs {s : State} (hs : s.PcsOk) : StaysOk (execPacketCount s) := by
  unfold execPacketCount
  refine .face hs ?_
  split
  · rfl
  · split
    · rfl
    · dsimp only
      split
      · simp
      · rfl

theorem execBarrierComplete_pcs {s : State} (hs : s.PcsOk) : StaysOk (execBarrierComplete s) := by
  unfold execBarrierComplete
  refine .next ?_
  split
  · exact hs
  · dsimp only
    split
    · refine State.PcsOk.mapGang (hs.of_face ?_) fun t => ?_
      · rfl
      · rfl
    · exact hs

theorem execCopyCommand_pcs {s : State} (hs : s.PcsOk) : StaysOk (execCopyCommand s) := by
  unfold execCopyCommand
  refine .next ?_
  dsimp only
  split
  · exact hs
  next c _ _ =>
    split
    · exact hs
    · generalize (if s.ev.num = 0 then (layoutOf c.src).count else s.ev.num) = fuel
      have hr := hs.of_face (State.copyRuns_face s c (layoutOf c.src) (layoutOf c.dst) fuel)
      generalize s.copyRuns c (layoutOf c.src) (layoutOf c.dst) fuel = q at hr
      split
      · split
        · exact hr.of_face (by simp)
        · exact hr.of_face (by simp)
      · exact hr.failCopy _ _ _ _ _
      · exact hr.holdCopy _ _ _ _ _
      · exact State.PcsOk.reportOwner (hr.of_face (by simp)) _ _
      · exact hr.of_face (by simp)

theorem execHeldNoticePost_pcs {s : State} (hs : s.PcsOk) : StaysOk (execHeldNoticePost s) := by
  unfold execHeldNoticePost
  refine .next ?_
  split
  next => exact hs
  next ht =>
    have hpc := hs.threadAt ht
    split
    · exact hs
    · split
      · exact hs
      · refine State.PcsOk.of_face (State.PcsOk.putThread hs ?_) (State.noticed_face ..)
        exact hpc

theorem execMmaComplete_pcs {s : State} (hs : s.PcsOk) : StaysOk (execMmaComplete s) := by
  unfold execMmaComplete
  exact .face hs (State.ite_face rfl (by simp))

theorem execTileDrain_pcs {s : State} (hs : s.PcsOk) : StaysOk (execTileDrain s) := by
  unfold execTileDrain
  refine .next ?_
  split
  · exact hs.drainLost _ _
  · split
    · split
      · exact hs
      · exact (hs.focus _).drainUnit _ _ _ _
    · exact hs

theorem execLeaseExpiry_pcs {s : State} (hs : s.PcsOk) : StaysOk (execLeaseExpiry s) := by
  unfold execLeaseExpiry
  refine .next ?_
  split
  next => exact hs
  next ht =>
    have hpc := hs.threadAt ht
    split
    · split
      · exact hs.putThread hpc
      · exact hs
    · exact hs

/-! ### Events of near-memory units -/

theorem execNmuMessageArrival_pcs {s : State} (hs : s.PcsOk) : StaysOk (execNmuMessageArrival s) := by
  unfold execNmuMessageArrival
  refine .next ?_
  split
  next => exact hs
  next m _ =>
    dsimp only
    have ht := hs.of_face (State.translateVas_face s (m.owner.req (if m.write then .atomic else .load) m.gen)
      ((List.range m.n).map (fun k => m.region + 65536 * k)))
    generalize s.translateVas (m.owner.req (if m.write then .atomic else .load) m.gen)
      ((List.range m.n).map (fun k => m.region + 65536 * k)) = q at ht
    split
    · exact ht
    · split
      · exact ht.of_face rfl
      · split
        next hr => exact ((ht.focus _).postRecord hr).of_face rfl
        next => exact hs
    · split
      · exact hs
      · split
        · split
          · exact hs
          · exact ht.of_face (by simp)
        · split
          · exact hs
          · exact ht.of_face (by simp)

theorem execLoadedHandlerStart_pcs {s : State} (hs : s.PcsOk) : StaysOk (execLoadedHandlerStart s) := by
  unfold execLoadedHandlerStart
  dsimp only
  refine .face hs ?_
  split
  · exact State.ite_face (by simp) rfl
  · rfl

theorem execHandlerTimeout_pcs {s : State} (hs : s.PcsOk) : StaysOk (execHandlerTimeout s) := by
  unfold execHandlerTimeout
  dsimp only
  refine .face hs ?_
  split
  · exact State.ite_face (by simp) rfl
  · rfl

theorem execNmresumeApply_pcs {s : State} (hs : s.PcsOk) : StaysOk (execNmresumeApply s) := by
  unfold execNmresumeApply
  dsimp only
  refine .face hs ?_
  split
  · rfl
  · split
    · rfl
    · split
      · rfl
      · split
        · simp
        · exact State.ite_face (by simp) (by simp)
        · simp

theorem execHandlerLoad_pcs {s : State} (hs : s.PcsOk) : StaysOk (execHandlerLoad s) := by
  unfold execHandlerLoad
  dsimp only
  refine .face hs ?_
  split
  · rfl
  · split
    · rfl
    · exact State.ite_face (by simp) (by simp)

/-! ### Events of indexes -/

theorem execIndexQueryAccept_pcs {s : State} (hs : s.PcsOk) : StaysOk (execIndexQueryAccept s) := by
  unfold execIndexQueryAccept
  refine .next ?_
  split
  · exact hs
  · split
    · exact hs.failAt _ _ _ _
    · dsimp only
      split
      · exact hs.failAt _ _ _ _
      · split
        · exact hs.failAt _ _ _ _
        · split
          · exact hs
          · exact hs.of_face rfl

theorem execIndexSearchEnd_pcs {s : State} (hs : s.PcsOk) : StaysOk (execIndexSearchEnd s) := by
  unfold execIndexSearchEnd
  refine .next ?_
  split
  next => exact hs
  next c _ =>
    split
    · exact hs.failAt _ _ _ _
    · dsimp only
      split
      · exact hs
      · split
        · exact hs.failAt _ _ _ _
        · split
          · exact hs.failAt _ _ _ _
          · refine State.PcsOk.of_face (State.PcsOk.returnEntries (hs.of_face ?_) _ _) (State.endIx_face ..)
            simp
    · exact hs

theorem execIndexStoreCommit_pcs {s : State} (hs : s.PcsOk) : StaysOk (execIndexStoreCommit s) := by
  unfold execIndexStoreCommit
  refine .next ?_
  split
  · exact hs
  · split
    · exact hs.failAt _ _ _ _
    · dsimp only
      split
      · exact hs.failAt _ _ _ _
      · split
        · exact hs.failAt _ _ _ _
        · split
          · exact hs.failAt _ _ _ _
          · exact hs.of_face (by simp)

theorem execIndexDeleteCommit_pcs {s : State} (hs : s.PcsOk) : StaysOk (execIndexDeleteCommit s) := by
  unfold execIndexDeleteCommit
  refine .next ?_
  split
  · exact hs
  · split
    · exact hs.failAt _ _ _ _
    · split
      · exact hs.failAt _ _ _ _
      · exact hs.of_face (by simp)

theorem execIndexSnapshotAccept_pcs {s : State} (hs : s.PcsOk) : StaysOk (execIndexSnapshotAccept s) := by
  unfold execIndexSnapshotAccept
  refine .next ?_
  split
  · exact hs
  · exact hs.answerIx _ _

theorem execIndexStatAccept_pcs {s : State} (hs : s.PcsOk) : StaysOk (execIndexStatAccept s) := by
  unfold execIndexStatAccept
  refine .next ?_
  split
  · exact hs
  · exact hs.answerIx _ _

theorem execIndexCreate_pcs {s : State} (hs : s.PcsOk) : StaysOk (execIndexCreate s) := by
  unfold execIndexCreate
  refine .next ?_
  split
  next => exact hs
  next r bs u hc =>
    have hu := hs.creating hc
    extract_lets n
    split
    · exact hu.of_face (by simp)
    · have hr := hu.of_face (State.regionFrames_face u u.th.owner (n 3 1) (n 8 8) (n 16 8)
        (65536 + n 24 4 * (keyPitch (n 2 1) (n 4 2) + 128)))
      generalize u.regionFrames u.th.owner (n 3 1) (n 8 8) (n 16 8) (65536 + n 24 4 * (keyPitch (n 2 1) (n 4 2) + 128)) = q at hr
      split
      · exact hr.of_face (by simp)
      · split
        · exact hr.of_face (by simp)
        · exact hr.of_face (by simp)

theorem execIndexDestroy_pcs {s : State} (hs : s.PcsOk) : StaysOk (execIndexDestroy s) := by
  unfold execIndexDestroy
  refine .next ?_
  split
  next => exact hs
  next hc =>
    have hu := hs.creating hc
    dsimp only
    split
    · exact hu.of_face (by simp)
    · exact hu.of_face (by simp)

end Sys2Proof.Machine
end

section
/-!
PROOF. The other events keep the PCs (O55).
-/
namespace Sys2Proof.Machine
open Sys2Proof

/-! ### Events of launches and rounds -/

theorem execLaunchReplicate_pcs {s : State} (hs : s.PcsOk) : StaysOk (execLaunchReplicate s) := by
  unfold execLaunchReplicate
  refine .next ?_
  split
  next => exact hs
  next l _ =>
    split
    · exact hs
    · split
      · exact hs.of_face (by simp)
      · dsimp only
        have ht := hs.of_face (State.translate_face s ((hubOwner l.pkt.firstDie l.fn l.id (!l.pkt.sys)).req .load none) l.pkt.countva)
        generalize s.translate ((hubOwner l.pkt.firstDie l.fn l.id (!l.pkt.sys)).req .load none) l.pkt.countva = q at ht
        split
        · split
          · exact ht.of_face rfl
          · refine ht.of_face ?_
            rw [State.closeLaunch_face, State.putLaunch_face]
            exact State.ite_face rfl (by simp)
        · exact ht.of_face rfl

/-- What the release of a completion leaves, where it is done. -/
theorem State.updateRelease_done_face (s : State) (c : Completion) : ∀ t, (s.updateRelease c).1 = some t → t.face = s.face := by
  intro t ht
  unfold State.updateRelease at ht
  split at ht
  · cases ht
  · extract_lets u ws at ht
    have hq : (if ws.isEmpty then (true, u) else u.drawBit).2.face = s.face := by
      split <;> simp [u]
    generalize (if ws.isEmpty then (true, u) else u.drawBit) = q at ht hq
    dsimp only at ht
    split at ht
    · cases ht
      simpa using hq
    · cases ht

theorem execCompletionBlockUpdate_pcs {s : State} (hs : s.PcsOk) : StaysOk (execCompletionBlockUpdate s) := by
  unfold execCompletionBlockUpdate
  refine .next ?_
  split
  next => exact hs
  next c _ =>
    refine State.PcsOk.ite hs ?_
    have hu := hs.of_face (State.updateRelease_face s c)
    have hdone := s.updateRelease_done_face c
    generalize s.updateRelease c = q at hu hdone
    extract_lets o done lose
    split
    next off n f _ =>
      split
      next => exact hu
      next v w =>
        have hv := hs.of_face (hdone v rfl)
        have ht := hv.of_face (State.translate_face v (o.req .atomic none) (c.done + off))
        generalize v.translate (o.req .atomic none) (c.done + off) = r at ht
        split
        next p x =>
          refine State.PcsOk.ite (ht.of_face rfl) ?_
          have ha := ht.of_face (State.atomicAt_face x (hubView o) c.fn (if c.sys then .sys else .dev) (c.done + off) p n
            (fun old => some (f old)))
          dsimp only
          generalize (x.atomicAt (hubView o) c.fn (if c.sys then .sys else .dev) (c.done + off) p n (fun old => some (f old))).2 = y at ha
          exact State.PcsOk.ite (ha.of_face rfl) (ha.of_face rfl)
        next => exact ht.of_face rfl

theorem execAllowanceExhausted_pcs {s : State} (hs : s.PcsOk) : StaysOk (execAllowanceExhausted s) := by
  unfold execAllowanceExhausted
  refine .next ?_
  split
  · exact hs
  · split
    · exact hs
    · split
      · exact hs
      · exact hs.mapThreads fun _ => rfl

theorem execRoundEnd_pcs {s : State} (hs : s.PcsOk) : StaysOk (execRoundEnd s) := by
  unfold execRoundEnd
  refine .next ?_
  split
  next => exact hs
  next l _ =>
    split
    · exact hs
    · extract_lets order dead u
      have hu : u.PcsOk := State.PcsOk.foldl (fun _ k hv => hv.killRival l k) dead s hs
      clear_value u
      split
      · exact hu
      · refine State.PcsOk.of_face (State.PcsOk.foldl (fun _ n hv => hv.wake n) _ _ ?_) (State.closeLaunch_face ..)
        exact hu.of_face ((State.putLaunch_face ..).trans (State.zeroUnits_face ..))

theorem execGangReservation_pcs {s : State} (hs : s.PcsOk) : StaysOk (execGangReservation s) := by
  unfold execGangReservation
  refine .face hs ?_
  split
  · rfl
  · split
    · rfl
    · exact State.ite_face rfl rfl

/-! ### Events of binding, saving and resuming -/

theorem execUpcallDelivery_pcs {s : State} (hs : s.PcsOk) : StaysOk (execUpcallDelivery s) := by
  unfold execUpcallDelivery
  refine .next ?_
  split
  · exact (hs.focus _).boundary
  · exact hs

theorem execBindRecord_pcs {s : State} (hs : s.PcsOk) : StaysOk (execBindRecord s) := by
  unfold execBindRecord
  refine .next ?_
  split
  · exact hs
  · exact hs.firmware _ _

theorem execResumeRecord_pcs {s : State} (hs : s.PcsOk) : StaysOk (execResumeRecord s) := by
  unfold execResumeRecord
  refine .next ?_
  split
  · exact hs
  · exact hs.firmware _ _

theorem execStopRecord_pcs {s : State} (hs : s.PcsOk) : StaysOk (execStopRecord s) := by
  unfold execStopRecord
  refine .next ?_
  split
  · exact hs
  · exact hs.firmware _ _

theorem execFrameCopyDone_pcs {s : State} (hs : s.PcsOk) : StaysOk (execFrameCopyDone s) := by
  have hf := hs.focus s.ev.unit
  unfold execFrameCopyDone
  refine .next ?_
  dsimp only
  split
  · exact hs
  · split
    · exact hf.resumeOn
    · split
      · exact hf.loseContext _ _
      · refine State.PcsOk.ite (State.PcsOk.loseContext (hf.of_face ?_) _ _) (State.PcsOk.restore (hf.of_face ?_))
        · exact (State.settleLoc_face ..).trans rfl
        · exact (State.settleLoc_face ..).trans rfl

theorem execThreadStop_pcs {s : State} (hs : s.PcsOk) : StaysOk (execThreadStop s) := by
  unfold execThreadStop
  refine .next ?_
  split
  · exact (hs.focus _).of_face (State.threadStop_face _)
  · exact hs

/-- A thread put for the one at hand that stands where that stood. -/
theorem State.face_withTh {s u : State} {t : Thread} (hu : u.face = s.face) (ht : t.face = s.th.face) :
    { u with th := t }.face = s.face := by
  obtain ⟨-, -, hothers⟩ := face_eq_iff.1 hu
  rw [State.face_mk, ht, hothers]
  rfl

theorem execSaveComplete_pcs {s : State} (hs : s.PcsOk) : StaysOk (execSaveComplete s) := by
  have hf := hs.focus s.ev.unit
  unfold execSaveComplete
  refine .next ?_
  generalize s.focus s.ev.unit = u at hf
  extract_lets t owns ring place v w
  refine State.PcsOk.ite hs ?_
  clear_value place
  split
  · exact hs
  · refine State.PcsOk.ite hs (State.PcsOk.ite (hf.loseContext _ _) (State.PcsOk.ite (hf.loseContext _ _) ?_))
    extract_lets x y z
    have hv : v.face = u.face := by
      simp only [v]
      clear_value ring
      split <;> simp
    have hw : w.face = u.face := (State.writeSave_face ..).trans hv
    clear_value w
    have hx : x.face = w.face := State.ite_face rfl rfl
    clear_value x
    have hy : y.face = x.face := by
      simp only [y]
      split <;> rfl
    clear_value y
    have hz : z.face = u.face := State.face_withTh (hy.trans (hx.trans hw)) rfl
    exact hf.of_face ((State.releasedAll_face ..).trans ((State.through_face ..).trans hz))

theorem execSaveDrainTimeout_pcs {s : State} (hs : s.PcsOk) : StaysOk (execSaveDrainTimeout s) := by
  have hf := hs.focus s.ev.unit
  unfold execSaveDrainTimeout
  refine .next ?_
  dsimp only
  split
  · exact hs
  · exact hf.of_face rfl

theorem execSlotSpill_pcs {s : State} (hs : s.PcsOk) : StaysOk (execSlotSpill s) := by
  have hf := hs.focus s.ev.unit
  unfold execSlotSpill
  refine .next ?_
  dsimp only
  split
  · exact hs
  · split
    · exact hf.loseContext _ _
    · refine (State.freeSlot_ends ?_).pcs hf
      split <;> rfl

theorem execClusterZeroingDone_pcs {s : State} (hs : s.PcsOk) : StaysOk (execClusterZeroingDone s) := by
  unfold execClusterZeroingDone
  refine .next ?_
  dsimp only
  split
  · exact hs
  · split
    · refine State.PcsOk.runGroup (State.PcsOk.putPort (hs.of_face ?_) _ _) _ _
      exact (State.settleLoc_face ..).trans rfl
    · exact hs.of_face ((State.settleLoc_face ..).trans rfl)

/-! ### Events of memory management, power and the ports -/

theorem execGenerationNotice_pcs {s : State} (hs : s.PcsOk) : StaysOk (execGenerationNotice s) := by
  unfold execGenerationNotice
  refine .face hs ?_
  dsimp only
  split
  · rfl
  · exact State.ite_face rfl rfl

theorem execScannerPage_pcs {s : State} (hs : s.PcsOk) : StaysOk (execScannerPage s) := by
  have hl := State.scanLeaf_face s s.ev.unit s.ev.idx (s.ev.num / 65536 * 65536)
  unfold execScannerPage
  refine .face hs ?_
  dsimp only
  generalize s.scanLeaf s.ev.unit s.ev.idx (s.ev.num / 65536 * 65536) = q at hl
  split
  · exact hl
  · split
    · simpa using hl
    · exact hl

theorem execScannerWriteDone_pcs {s : State} (hs : s.PcsOk) : StaysOk (execScannerWriteDone s) := by
  unfold execScannerWriteDone
  refine .face hs ?_
  split
  next => rfl
  next die fn va _ =>
    have hl := (State.scanLeaf_face { s with scans := s.scans.filter (fun x => x.1 ≠ die) } die fn va)
    generalize { s with scans := s.scans.filter (fun x => x.1 ≠ die) }.scanLeaf die fn va = q at hl
    split
    · exact hl
    · rw [State.publish_face, State.dropPage_face]
      exact (State.ite_face (by simp) rfl).trans hl

theorem execBurstPause_pcs {s : State} (hs : s.PcsOk) : StaysOk (execBurstPause s) := by
  unfold execBurstPause
  exact .face hs (State.ite_face (State.ite_face rfl rfl) (State.ite_face (by simp) rfl))

theorem execBurstResume_pcs {s : State} (hs : s.PcsOk) : StaysOk (execBurstResume s) := by
  unfold execBurstResume
  exact .face hs (State.ite_face rfl (State.ite_face (by simp) rfl))

theorem execSliceRetention_pcs {s : State} (hs : s.PcsOk) : StaysOk (execSliceRetention s) := by
  unfold execSliceRetention
  exact .face hs (State.ite_face rfl rfl)

theorem execBudgetChange_pcs {s : State} (hs : s.PcsOk) : StaysOk (execBudgetChange s) := by
  unfold execBudgetChange
  exact .face hs (State.ite_face rfl rfl)

theorem execHostLaunchWindowWrite_pcs {s : State} (hs : s.PcsOk) : StaysOk (execHostLaunchWindowWrite s) := by
  unfold execHostLaunchWindowWrite
  exact .face hs (State.ite_face rfl (State.ite_face (by simp) (by simp)))

theorem execReportRequest_pcs {s : State} (hs : s.PcsOk) : StaysOk (execReportRequest s) := by
  unfold execReportRequest
  exact .face hs (State.ite_face rfl (by simp))

theorem execReportReady_pcs {s : State} (hs : s.PcsOk) : StaysOk (execReportReady s) := by
  unfold execReportReady
  exact .face hs (State.ite_face rfl (by simp))

theorem execRegisterWrite_pcs {s : State} (hs : s.PcsOk) : StaysOk (execRegisterWrite s) := by
  unfold execRegisterWrite
  exact .face hs (State.ite_face (by simp) rfl)

theorem execHostCxlMemAccess_pcs {s : State} (hs : s.PcsOk) : StaysOk (execHostCxlMemAccess s) := by
  unfold execHostCxlMemAccess
  refine .face hs (State.ite_face rfl (State.ite_face rfl (State.ite_face (by simp) ?_)))
  dsimp only
  split <;> simp

theorem execFabricPeerAccess_pcs {s : State} (hs : s.PcsOk) : StaysOk (execFabricPeerAccess s) := by
  unfold execFabricPeerAccess
  refine .face hs (State.ite_face rfl ?_)
  split <;> simp

theorem execIdentityRotation_pcs {s : State} (hs : s.PcsOk) : StaysOk (execIdentityRotation s) := by
  unfold execIdentityRotation
  exact .face hs (State.ite_face rfl rfl)

theorem execCoreOutOfService_pcs {s : State} (hs : s.PcsOk) : StaysOk (execCoreOutOfService s) := by
  unfold execCoreOutOfService
  exact .face hs (State.ite_face rfl rfl)

theorem execCoreReturnToService_pcs {s : State} (hs : s.PcsOk) : StaysOk (execCoreReturnToService s) := by
  unfold execCoreReturnToService
  exact .face hs (State.ite_face rfl rfl)

/-! ### Events that stop threads -/

theorem execSecurityAlarm_pcs {s : State} (hs : s.PcsOk) : StaysOk (execSecurityAlarm s) := by
  unfold execSecurityAlarm
  refine .next ?_
  extract_lets action u v w
  refine State.PcsOk.ite hs ?_
  have hu : u.PcsOk := hs.of_face rfl
  have hv : v.PcsOk := by
    refine State.PcsOk.ite (State.PcsOk.stopFunction ?_ _) hu
    exact hu.of_face rfl
  clear_value v
  have hw : w.face = v.face := State.ite_face rfl rfl
  clear_value w
  exact (hv.of_face hw).of_face (State.ite_face rfl rfl)

theorem execFunctionLevelReset_pcs {s : State} (hs : s.PcsOk) : StaysOk (execFunctionLevelReset s) := by
  unfold execFunctionLevelReset
  refine .next ?_
  dsimp only
  split
  · exact hs
  · split
    · exact hs.of_face rfl
    · exact (hs.stopFunction s.ev.unit).of_face (by simp)

theorem execFabricAckTimeout_pcs {s : State} (hs : s.PcsOk) : StaysOk (execFabricAckTimeout s) := by
  have hf := hs.focus s.ev.unit
  unfold execFabricAckTimeout
  refine .next ?_
  dsimp only
  split
  · split
    · split
      · exact State.PcsOk.tellDropped (hf.of_face (by simp)) _ _
      · split
        · exact hs
        · exact hs.of_face (by simp)
    · exact hs
  · split
    · exact hs
    · split
      · exact State.PcsOk.tellDropped (hf.of_face (by simp)) _ _
      · exact hs

theorem execCoreFailure_pcs {s : State} (hs : s.PcsOk) : StaysOk (execCoreFailure s) := by
  unfold execCoreFailure
  extract_lets core lost u v words w held x
  have hu : u.PcsOk := hs.of_face rfl
  have hv : v.PcsOk := State.PcsOk.foldl (fun _ t h => h.stopLost t.ident) lost u hu
  clear_value v
  have hw : w.face = v.face := State.foldl_face (fun z e => State.ite_face (by simp) (by simp)) _ _
  have hx : x.face = w.face := State.foldl_face (fun z e => by simp) _ _
  exact .face hv ((show _ = x.face from rfl).trans (hx.trans hw))

end Sys2Proof.Machine
end

section
/-!
PROOF. Every step keeps bits [63:56] and bit 0 of every PC 0 (O55).
-/
namespace Sys2Proof.Machine
open Sys2Proof

/-! ### Every instruction, microinstruction and event -/

theorem exec_event_pcs (i : Instr) {s : State} (hs : s.PcsOk) (h : i.form = .event) : StaysOk (exec i s) := by
  cases i with
  | loadReturn | storePerform | atomicPerform => exact .next (hs.performAccess _)
  | heldFaultPost => exact execHeldFaultPost_pcs hs
  | syncWordWake => exact execSyncWordWake_pcs hs
  | messageLanding => exact execMessageLanding_pcs hs
  | packetCount => exact execPacketCount_pcs hs
  | barrierComplete => exact execBarrierComplete_pcs hs
  | launchReplicate => exact execLaunchReplicate_pcs hs
  | completionBlockUpdate => exact execCompletionBlockUpdate_pcs hs
  | tqlatchExec | tqmacExec | tqdExec | tqreadExec => exact .next (hs.tableExec _)
  | copyCommand => exact execCopyCommand_pcs hs
  | heldNoticePost => exact execHeldNoticePost_pcs hs
  | mmaComplete => exact execMmaComplete_pcs hs
  | tileDrain => exact execTileDrain_pcs hs
  | leaseExpiry => exact execLeaseExpiry_pcs hs
  | nmuMessageArrival => exact execNmuMessageArrival_pcs hs
  | rowCopy => exact .next (hs.builtin _ rowCopy_face)
  | rowZero => exact .next (hs.builtin _ rowZero_face)
  | indexedReduce => exact .next (hs.builtin _ indexedReduce_face)
  | tableGather => exact .next (hs.builtin _ tableGather_face)
  | tableMac => exact .next (hs.builtin _ tableMac_face)
  | accumulatorRead => exact .next (hs.builtin _ accumulatorRead_face)
  | accumulatorClear => exact .next (hs.builtin _ accumulatorClear_face)
  | statusHandler => exact .next (hs.builtin _ statusHandler_face)
  | loadedHandlerStart => exact execLoadedHandlerStart_pcs hs
  | handlerTimeout => exact execHandlerTimeout_pcs hs
  | nmresumeApply => exact execNmresumeApply_pcs hs
  | handlerLoad => exact execHandlerLoad_pcs hs
  | indexQueryAccept => exact execIndexQueryAccept_pcs hs
  | indexSearchEnd => exact execIndexSearchEnd_pcs hs
  | indexStoreCommit => exact execIndexStoreCommit_pcs hs
  | indexDeleteCommit => exact execIndexDeleteCommit_pcs hs
  | indexSnapshotAccept => exact execIndexSnapshotAccept_pcs hs
  | indexStatAccept => exact execIndexStatAccept_pcs hs
  | indexCreate => exact execIndexCreate_pcs hs
  | indexDestroy => exact execIndexDestroy_pcs hs
  | allowanceExhausted => exact execAllowanceExhausted_pcs hs
  | roundEnd => exact execRoundEnd_pcs hs
  | generationNotice => exact execGenerationNotice_pcs hs
  | upcallDelivery => exact execUpcallDelivery_pcs hs
  | bindRecord => exact execBindRecord_pcs hs
  | resumeRecord => exact execResumeRecord_pcs hs
  | stopRecord => exact execStopRecord_pcs hs
  | frameCopyDone => exact execFrameCopyDone_pcs hs
  | threadStop => exact execThreadStop_pcs hs
  | saveComplete => exact execSaveComplete_pcs hs
  | saveDrainTimeout => exact execSaveDrainTimeout_pcs hs
  | slotSpill => exact execSlotSpill_pcs hs
  | clusterZeroingDone => exact execClusterZeroingDone_pcs hs
  | gangReservation => exact execGangReservation_pcs hs
  | scannerPage => exact execScannerPage_pcs hs
  | scannerWriteDone => exact execScannerWriteDone_pcs hs
  | budgetPeriodStart | quarantineLift => exact .face hs rfl
  | securityAlarm => exact execSecurityAlarm_pcs hs
  | burstPause => exact execBurstPause_pcs hs
  | burstResume => exact execBurstResume_pcs hs
  | sliceRetention => exact execSliceRetention_pcs hs
  | hostLaunchWindowWrite => exact execHostLaunchWindowWrite_pcs hs
  | reportRequest => exact execReportRequest_pcs hs
  | reportReady => exact execReportReady_pcs hs
  | registerWrite => exact execRegisterWrite_pcs hs
  | hostCxlMemAccess => exact execHostCxlMemAccess_pcs hs
  | functionLevelReset => exact execFunctionLevelReset_pcs hs
  | fabricAckTimeout => exact execFabricAckTimeout_pcs hs
  | coreFailure => exact execCoreFailure_pcs hs
  | coreOutOfService => exact execCoreOutOfService_pcs hs
  | identityRotation => exact execIdentityRotation_pcs hs
  | boot | conventionalReset => exact .next (State.PcsOk.bootWith ..)
  | coreReturnToService => exact execCoreReturnToService_pcs hs
  | budgetChange => exact execBudgetChange_pcs hs
  | fabricPeerAccess => exact execFabricPeerAccess_pcs hs
  | _ => cases h

theorem exec_micro_pcs (i : Instr) {s : State} (hs : s.PcsOk) (h : i.form = .micro) : StaysOk (exec i s) := by
  cases i with
  | mli | mld | madd | msub | mand | mor | mxor | mshl | mshr | mmul | mmax => exact .next (hs.microSet ..)
  | mst => exact execMst_pcs hs ..
  | mrdrowRead => exact execMrdrowRead_pcs hs ..
  | mrdrowWrite => exact execMrdrowWrite_pcs hs ..
  | mrdrowZero => exact execMrdrowZero_pcs hs ..
  | mrdrowCopy => exact execMrdrowCopy_pcs hs ..
  | maccAdd | maccRead => exact .next (hs.macc ..)
  | mbfw | mbfwZero => exact .next (hs.microBranch ..)
  | mfin => exact execMfin_pcs hs ..
  | _ => cases h

theorem exec_pcs (i : Instr) {s t : State} (hs : s.PcsOk) (ht : exec i s = .next t) : t.PcsOk := by
  by_cases he : i.form = .event
  · exact (exec_event_pcs i hs he).pcs t ht
  · by_cases hm : i.form = .micro
    · exact (exec_micro_pcs i hs hm).pcs t ht
    · exact ((exec_answers i s he hm).goes t ht).pcs hs

/-! ### A step -/

/-- A change to the next state that an instruction, a microinstruction or an event answers. -/
theorem onNext_pcs {i : Instr} {s t : State} {f : State → State} (hs : s.PcsOk) (hf : ∀ u, u.PcsOk → (f u).PcsOk)
    (ht : onNext (exec i s) f = .next t) : t.PcsOk := by
  unfold onNext at ht
  split at ht
  next he =>
    cases ht
    exact hf _ (exec_pcs i hs he)
  next => cases ht
  next => cases ht

theorem State.PcsOk.moreRows {s : State} (hs : s.PcsOk) (n : Nat) : (s.moreRows n).PcsOk := by
  have hf := hs.focus n
  unfold State.moreRows
  dsimp only
  split
  · exact (State.mmaRows_goes rfl).pcs (hf.of_face rfl)
  · exact hs

/-- What a turn of a core leaves where it ends before an instruction, and what its instruction begins with. -/
def Issue.Keeps : Issue → Prop
  | .done s => s.PcsOk
  | .run _ s => s.PcsOk

theorem State.interlock_taken_pcs {s : State} (hs : s.PcsOk) {i : Instr} {t : State} (h : s.interlock i = .taken t) : t.PcsOk := by
  unfold State.interlock at h
  split at h
  · cases h
    exact hs.report _ _
  · split at h
    · cases h
    · split at h <;> cases h

theorem State.prepare_keeps {s : State} (hs : s.PcsOk) : s.prepare.Keeps := by
  have hstall : s.stall.PcsOk := hs.of_face (State.stall_face s)
  unfold State.prepare
  split
  · exact hs.of_face (State.threadStop_face s)
  · split
    · exact State.PcsOk.ite (hs.of_face (by simp)) (hs.of_face (by simp))
    · split
      · exact hstall
      · split
        · exact hstall
        · split
          · split
            · exact hs
            · exact hstall
          · split
            · exact hs.boundary
            · have hq := hs.of_face (State.fetch_face s)
              generalize s.fetch = q at hq
              split
              · exact hq.trap _ _
              · split
                · exact hq.trap _ _
                next i _ =>
                  split
                  next => exact hq.of_face (State.stall_face _)
                  next ht => exact State.interlock_taken_pcs hq ht
                  next =>
                    split
                    · exact hq.trapWord _ _
                    · exact hq

theorem State.take_pcs {s t : State} (hs : s.PcsOk) (u : Turn) (ht : s.take u = .next t) : t.PcsOk := by
  cases u with
  | event e a =>
    simp only [State.take] at ht
    split at ht
    · refine onNext_pcs ?_ (fun _ h => h.rouse) ht
      exact hs.of_face rfl
    · cases ht
      exact hs
  | nmu n =>
    simp only [State.take] at ht
    split at ht
    · refine onNext_pcs ?_ (fun _ h => h.rouse) ht
      exact hs.of_face rfl
    · cases ht
      exact hs
  | core c =>
    simp only [State.take] at ht
    have hp := hs.pass (s.coreWait c)
    split at ht
    next =>
      cases ht
      exact hp
    next n _ =>
      have hk := State.prepare_keeps (hp.focus n)
      generalize ((s.pass (s.coreWait c)).focus n).prepare = q at ht hk
      cases q with
      | done v =>
        cases ht
        exact (State.PcsOk.occupy hk _ _).settled
      | run i v => exact onNext_pcs (State.PcsOk.withRows hk i) (fun _ h => ((h.issued n).occupy _ _).settled) ht
  | rows n =>
    cases ht
    exact (hs.moreRows n).rouse
  | free n =>
    cases ht
    exact (hs.freed n).rouse
  | outside o =>
    cases ht
    exact (hs.outside o).rouse

theorem State.nextTurn_pcs {s u : State} {t : Turn} (hs : s.PcsOk) (h : s.nextTurn = some (t, u)) : u.PcsOk := by
  unfold State.nextTurn at h
  split at h
  · cases h
    exact hs.of_face rfl
  · split at h
    · cases h
    · cases h
      exact hs
    · obtain ⟨_, _, he⟩ := Option.map_eq_some_iff.1 h
      cases he
      exact hs.of_face rfl

theorem step_pcs {s t : State} (hs : s.PcsOk) (ht : step s = .next t) : t.PcsOk := by
  unfold step at ht
  split at ht
  · split at ht
    · cases ht
    · cases ht
      exact (hs.pass 1).rouse
  next hn =>
    split at ht
    · cases ht
    · exact State.take_pcs (State.nextTurn_pcs hs hn) _ ht

/-- The bits that R9 holds at 0, in all PCs. -/
theorem State.pcsOk_iff (s : State) :
    s.PcsOk ↔ (s.th.pc.getLsbD 0 = false ∧ ∀ k, 56 ≤ k → s.th.pc.getLsbD k = false)
      ∧ ∀ e ∈ s.others, e.2.pc.getLsbD 0 = false ∧ ∀ k, 56 ≤ k → e.2.pc.getLsbD k = false := by
  unfold State.PcsOk
  simp only [pcOk_iff]

/-- Settles O55: `State.PcsOk` holds after a reset, and every turn keeps it (`step_pcs`). -/
theorem pcBitsStayZero : Obligations.PcBitsStayZero :=
  ⟨(State.pcsOk_iff _).1 State.PcsOk.reset, fun s t hs ht => (State.pcsOk_iff t).1 (step_pcs ((State.pcsOk_iff s).2 hs) ht)⟩

end Sys2Proof.Machine
end

section
/-!
PROOF. `sys`, `brk`, `udf` and the majors without an instruction (O7).
-/
namespace Sys2Proof.Machine
open Sys2Proof

/-- The word of `udf` has its number above the major 0x3F (R43). -/
theorem udf_word (u : BitVec 25) : (Instr.udf u).word = 127 + 128 * u.toNat := by
  have hu := u.isLt
  unfold Instr.word encode
  simp
  omega

/-- No word of the majors 0x31 to 0x3E is an instruction (R43). -/
theorem decode_unassigned (w : Nat) (hodd : w % 2 = 1) (hlo : 0x31 ≤ major w) (hhi : major w ≤ 0x3E) :
    decode w = .error .illegal := by
  have hw : decode w = decWord w := if_neg (by simp [hodd])
  rw [hw]
  unfold decWord
  dsimp only
  split
  case h_51 => rfl
  all_goals omega

/-- A word of the major 0x3F is a `udf`, whatever its bits above (R43). -/
theorem decode_udf (w : Nat) (hodd : w % 2 = 1) (hm : major w = 0x3F) : decode w = .ok (.udf (BitVec.ofNat 25 (w / 128))) := by
  have hw : decode w = decWord w := if_neg (by simp [hodd])
  rw [hw]
  unfold decWord
  rw [hm]
  rfl

/-- A cause of an instruction outside packets that is delivered leaves the instruction's address in sr.epc (R22). -/
theorem State.trap_epc (s : State) (c q : Nat) (hr : s.reported c = false) (hp : s.th.packet = none) (hw : s.th.mownWait = false)
    (hm : s.th.mma = none) : (s.trap c q).th.epc = s.th.pc := by
  rw [s.trap_delivers c q hp hw hm hr]
  exact (s.deliver_spec _ _ _ _ _).1

/-- Settles O7: the arms of `sys`, `brk` and `udf`, what the decoder says of the last majors (`decode_udf`, `decode_unassigned`),
and the trap of bits that are no instruction (`State.prepare_undecoded`). -/
theorem softwareTraps : Obligations.SoftwareTraps := by
  intro s a u
  refine ⟨?_, ?_, ?_, s.trap_epc _ _, s.trap_epc _ _, ?_, decode_udf, ?_⟩
  · intro hp
    show execSys a s = _
    unfold execSys
    rw [hp]
    rfl
  · intro hp
    show execBrk s = _
    unfold execBrk
    rw [hp]
    rfl
  · intro hp
    have hs : s.th.packet.isSome = true := Option.isSome_iff_ne_none.2 hp
    exact ⟨congrArg Host.Outcome.next (if_pos hs), congrArg Host.Outcome.next (if_pos hs)⟩
  · show Host.Outcome.next (s.trap 0x01 (Instr.udf u).word) = _
    rw [udf_word]
  · intro w v hat hf hodd hlo hhi
    exact s.prepare_undecoded v w .illegal hat hf (decode_unassigned w hodd hlo hhi)

end Sys2Proof.Machine
end

section
/-!
PROOF. Words that the spec works out (O59).
-/
namespace Sys2Proof.Laws
open Sys2Proof

/-- Settles O59: the decoder is run on each word. -/
theorem decodedWords : Obligations.DecodedWords := by
  unfold Obligations.DecodedWords
  decide

end Sys2Proof.Laws
end

section
/-!
PROOF. The modifier word (O16): which pairs are refused (R35, R38), what a result lane becomes under it (R36), and what each instruction
of the modifiable set does in its lanes.
-/
namespace Sys2Proof.Machine
open Sys2Proof

/-! ### Which pairs run -/

/-- The modifiable set, by its majors and function codes (R35). -/
theorem modifiable_iff (w : Nat) : modifiable w = true ↔
    (major w = 0x22 ∧ (ffn w ≤ 4 ∨ (8 ≤ ffn w ∧ ffn w ≤ 13) ∨ (17 ≤ ffn w ∧ ffn w ≤ 19)))
      ∨ (major w = 0x23 ∧ (ffn w = 6 ∨ ffn w = 7 ∨ ffn w = 9)) ∨ (major w = 0x24 ∧ ffn w = 0) ∨ major w = 0x25 := by
  unfold modifiable
  split <;> simp_all [or_assoc]

/-- The pairs that R38 refuses for what follows the modifier word. -/
theorem refusesPair_iff (m : Modifier) (j : Instr) :
    refusesPair m j = true ↔ (∃ d a, j = .vmov .d8 d a) ∨ (m.clamp ≠ 0 ∧ (modifiedType j).float = false) := by
  unfold refusesPair
  split <;> simp_all

theorem refusesPair_false {m : Modifier} {j : Instr} (hcodes : ∀ d a, j ≠ .vmov .d8 d a)
    (hc : m.clamp = 0 ∨ (modifiedType j).float = true) : refusesPair m j = false := by
  refine Bool.eq_false_iff.2 fun hr => ?_
  rcases (refusesPair_iff m j).1 hr with ⟨d, a, h⟩ | ⟨h0, hf⟩
  · exact hcodes d a h
  · rcases hc with h | h
    · exact h0 h
    · exact Bool.false_ne_true (hf.symm.trans h)

/-- A word that is an instruction is the body of itself. -/
theorem bodyOf_of_decWord {w : Nat} {j : Instr} (h : decWord w = .ok j) : bodyOf w = some j := by
  unfold bodyOf
  simp [h, Except.toOption]

/-- A pair that is refused for its first word (R35, R38). -/
theorem execModifierWord_refused (s : State) (m : Modifier) (f : BitVec 32)
    (h : f.toNat % 2 = 0 ∨ modifiable f.toNat = false ∨ (bodyOf f.toNat).any (refusesPair m) = true) :
    exec (.modifierWord m f) s = .next (s.trapWord 0x02 (.modifierWord m f)) :=
  congrArg Host.Outcome.next (if_pos (by simpa using h))

/-- What a pair passes that is not refused for its first word. -/
theorem first_word_passes (m : Modifier) {w : Nat} (hodd : w % 2 = 1) (hset : modifiable w = true)
    (hb : (bodyOf w).any (refusesPair m) = false) :
    ¬(w % 2 = 0 ∨ (!modifiable w) = true ∨ (bodyOf w).any (refusesPair m) = true) := by
  simp [hodd, hset, hb]

/-- A second word with a reserved field raises 0x02 with that word (R38). -/
theorem execModifierWord_reserved (s : State) (m : Modifier) (f : BitVec 32) (e : DecodeError) (hodd : f.toNat % 2 = 1)
    (hset : modifiable f.toNat = true) (hb : (bodyOf f.toNat).any (refusesPair m) = false) (hd : decWord f.toNat = .error e) :
    exec (.modifierWord m f) s = .next (s.trap 0x02 f.toNat) := by
  show execModifierWord m f s = _
  unfold execModifierWord
  dsimp only
  rw [if_neg (first_word_passes m hodd hset hb), hd]

/-- A pair that is not refused runs its second word under the modifier (R35, R36). -/
theorem execModifierWord_runs (s t : State) (m : Modifier) (f : BitVec 32) (j : Instr) (hodd : f.toNat % 2 = 1)
    (hset : modifiable f.toNat = true) (hd : decWord f.toNat = .ok j) (hr : refusesPair m j = false) (ht : s.runModified m j = some t) :
    exec (.modifierWord m f) s = .next t := by
  have hb : (bodyOf f.toNat).any (refusesPair m) = false := by
    rw [bodyOf_of_decWord hd]
    exact hr
  show execModifierWord m f s = _
  unfold execModifierWord
  dsimp only
  rw [if_neg (first_word_passes m hodd hset hb), hd]
  dsimp only
  rw [ht]

/-! ### A result lane under a modifier (R36) -/

/-- The bounds between which a modifier clamps (R34). -/
def State.clampBounds (s : State) (m : Modifier) : Exact × Exact :=
  if m.clamp.val = 1 then (Exact.zero, Exact.ofInt 1) else if m.clamp.val = 2 then ((Exact.ofInt 1).neg, Exact.ofInt 1)
  else (f32.unpack s.th.clamplo.toNat, f32.unpack s.th.clamphi.toNat)

theorem State.laneCtx_eq (s : State) (m : Modifier) : s.laneCtx m = ⟨s.th.rmode, (s.clampBounds m).1, (s.clampBounds m).2⟩ := by
  unfold State.laneCtx State.clampBounds
  dsimp only
  split
  · next h => simp [h]
  · next h => simp [h]
  · next h1 h2 => rw [if_neg h1, if_neg h2]

/-- A floating result lane, step by step: scaled and rounded once, then, unless it is a NaN, made positive, inverted and clamped. -/
theorem floatLane_steps (c : Ctx) (m : Modifier) (F : Fmt) (v : Exact) : floatLane c m F v =
    let r := F.round c.mode m.sat (v.scale m.k.toInt)
    let r1 := if m.abs then r.1 % F.signBit else r.1
    let r2 := if m.neg then r1 ^^^ F.signBit else r1
    let lo := (F.round nearest false c.lo).1
    let hi := (F.round nearest false c.hi).1
    let r3 := if (F.unpack r2).cmp (F.unpack lo) = some .lt then lo else r2
    let r4 := if (F.unpack r3).cmp (F.unpack hi) = some .gt then hi else r3
    (if (F.unpack r.1).isNan then r.1 else if m.clamp = 0 then r2 else r4, r.2) := by
  unfold floatLane
  dsimp only
  split
  · rfl
  · split <;> rfl

/-- An integer result lane, step by step: scaled and rounded, limited or wrapped, and so again after each change of its sign. -/
theorem intLane_steps (c : Ctx) (m : Modifier) (n : Nat) (v : Exact) : intLane c m n v =
    let lim (k : Int) : Int := if m.sat then clampInt n k else sgn n (wrap n k)
    let r := ((v.scale m.k.toInt).toInt c.mode).1
    let r1 := if m.abs then lim |lim r| else lim r
    (wrap n (if m.neg then lim (-r1) else r1), if m.sat = true ∧ lim r ≠ r then sv else 0) := by
  unfold intLane flagIf
  simp

theorem resultLane_cases (c : Ctx) (m : Modifier) (T : LaneType) (v : Exact) :
    resultLane c m T v = if T.float then floatLane c m (fmtOf T) v else intLane c m (laneBits T) v := by
  cases T <;> rfl

/-- The result lane of an exact value with the flags of its computation. -/
def resultOf (c : Ctx) (m : Modifier) (T : LaneType) (v : Exact × Flags) : Nat × Flags :=
  ((resultLane c m T v.1).1, v.2 ||| (resultLane c m T v.1).2)

/-! ### Lane by lane, under any modifier -/

/-- The lanes of a register as exact values, by their numbers. -/
theorem laneValues_range (t : LaneType) (v : LaneReg) :
    laneValues t v = (List.range t.lanes).map (fun i => laneValue t (lane (laneBits t) v i)) := by
  unfold laneValues lanes
  rw [List.map_map]
  rfl

theorem zipWith_range {α β γ : Type} (op : α → β → γ) (f : Nat → α) (g : Nat → β) (n : Nat) :
    List.zipWith op ((List.range n).map f) ((List.range n).map g) = (List.range n).map (fun i => op (f i) (g i)) := by
  rw [List.zipWith_map, List.zipWith_self]

/-- A lane instruction without streams whose lanes are given by their numbers. -/
theorem State.runLane_lanes (s : State) (len : Nat) (rs : List Reg) (d : Reg) (w n : Nat) (g : Nat → Nat × Flags)
    (f : (Reg → LaneReg) → LaneOut) (hu : s.Unbound (d :: rs))
    (hf : f s.operand = ⟨some (d, ofLanes w ((List.range n).map (fun i => (g i).1))), none, orFlags ((List.range n).map (fun i => (g i).2))⟩) :
    LanesTo s (.next (s.runLane len rs [d] f)) len w n d g :=
  lanesTo_of s _ len w n d g _ (s.runLane_f len rs d _ _ f hu hf) rfl

/-- The result of values that are given by their numbers. -/
theorem laneResults_range (c : Ctx) (m : Modifier) (t : LaneType) (n : Nat) (g : Nat → Exact × Flags) :
    laneResults c m t ((List.range n).map g) = (ofLanes (laneBits t) ((List.range n).map (fun i => (resultOf c m t (g i)).1)),
      orFlags ((List.range n).map (fun i => (resultOf c m t (g i)).2))) := by
  unfold laneResults
  simp only [List.map_map]
  rfl

section
variable (s : State) (m : Modifier) (len : Nat) (t : LaneType) (d a b c : Reg)

/-- A value of a lane of a register. -/
def State.laneAt (r : Reg) (i : Nat) : Exact := laneValue t (lane (laneBits t) (s.getF r) i)

theorem State.laneValues_operand (h : s.streamOf a = none) : laneValues t (s.operand a) = (List.range t.lanes).map (s.laneAt t a) := by
  rw [s.operand_unbound a h]
  exact laneValues_range t _

theorem State.binLane_results (op : Mode → Exact → Exact → Exact × Flags) (h : s.Unbound [d, a, b]) :
    LanesTo s (.next (s.binLane m len t d a b op)) len (laneBits t) t.lanes d
      (fun i => resultOf (s.laneCtx m) m t (op s.th.rmode (s.laneAt t a i) (s.laneAt t b i))) := by
  refine s.runLane_lanes len [a, b] d _ _ _ _ h ?_
  dsimp only
  rw [s.laneValues_operand t a (h a (by simp)), s.laneValues_operand t b (h b (by simp)), zipWith_range, laneResults_range]

theorem State.unLane_results (op : Exact → Exact × Flags) (h : s.Unbound [d, a]) :
    LanesTo s (.next (s.unLane m len t d a op)) len (laneBits t) t.lanes d (fun i => resultOf (s.laneCtx m) m t (op (s.laneAt t a i))) := by
  refine s.runLane_lanes len [a] d _ _ _ _ h ?_
  dsimp only
  rw [s.laneValues_operand t a (h a (by simp)), List.map_map, laneResults_range]
  rfl

theorem State.laneFma_results (p q : Bool) (h : s.Unbound [d, a, b, c]) :
    LanesTo s (.next (s.laneFma m len p q t d a b c)) len (laneBits t) t.lanes d
      (fun i => resultOf (s.laneCtx m) m t (Exact.fma s.th.rmode p q (s.laneAt t a i) (s.laneAt t b i) (s.laneAt t c i))) := by
  refine s.runLane_lanes len [a, b, c] d _ _ _ _ h ?_
  dsimp only
  rw [s.laneValues_operand t a (h a (by simp)), s.laneValues_operand t b (h b (by simp)), s.laneValues_operand t c (h c (by simp)),
    List.zip, zipWith_range, zipWith_range, laneResults_range]

/-- A reduction writes one result lane (R99). -/
theorem State.laneReduce_writes (combine : Exact → Exact → Exact × Flags) (h : s.Unbound [d, a]) :
    let r := resultOf (s.laneCtx m) m t (treeFold combine (treeLevels t) ((List.range t.lanes).map (s.laneAt t a)))
    WritesF s (.next (s.laneReduce m len t d a combine)) len d (BitVec.ofNat 256 r.1) r.2 := by
  refine s.runLane_f len [a] d _ _ _ h ?_
  dsimp only
  rw [s.laneValues_operand t a (h a (by simp))]
  rfl

theorem flags_or_right_comm (f g h : Flags) : f ||| g ||| h = f ||| h ||| g := by
  rw [BitVec.or_assoc, BitVec.or_comm g, ← BitVec.or_assoc]

/-- A dot product writes one result lane of its own type (R101). -/
theorem State.laneDot_writes (h : s.Unbound [d, a, b]) :
    let products := (List.range t.lanes).map (fun i => Exact.mul (s.laneAt t a i) (s.laneAt t b i))
    let total := sumNums s.th.rmode (products.map (·.1))
    let r := resultOf (s.laneCtx m) m (dotType t) (total.1, total.2 ||| orFlags (products.map (·.2)))
    WritesF s (.next (s.laneDot m len t d a b)) len d (BitVec.ofNat 256 r.1) r.2 := by
  refine s.runLane_f len [a, b] d _ _ _ h ?_
  dsimp only
  rw [s.laneValues_operand t a (h a (by simp)), s.laneValues_operand t b (h b (by simp)), zipWith_range, flags_or_right_comm]
  rfl

/-- A conversion takes as many lanes as both types have (R102). -/
theorem State.laneCvt_lanes (u : LaneType) (h : s.Unbound [d, a]) :
    LanesTo s (.next (s.laneCvt m len t u d a)) len (laneBits u) (min t.lanes u.lanes) d
      (fun i => convertLane (s.laneCtx m) m (isPair len) t u (lane (laneBits t) (s.getF a) i)) := by
  have hn : 256 / max (laneBits t) (laneBits u) = min t.lanes u.lanes := by cases t <;> cases u <;> rfl
  refine s.runLane_lanes len [a] d _ _ _ _ h ?_
  dsimp only
  rw [s.operand_unbound a (h a (by simp)), hn, lanes]
  simp only [List.map_map]
  rfl

end

/-! ### Conversions in a pair (R102) -/

theorem isPair_8 : isPair 8 = true := rfl

theorem convertLane_float (c : Ctx) (m : Modifier) (pair : Bool) (t u : LaneType) (v : Nat) (h : u.float = true) :
    convertLane c m pair t u v = resultOf c m u (laneValue t v, (laneValue t v).snan) := by
  have e : convertLane c m pair t u v = ((floatLane c m (fmtOf u) (laneValue t v)).1,
      (floatLane c m (fmtOf u) (laneValue t v)).2 ||| (laneValue t v).snan) := by
    cases u
    case f32 | bf16 | f16 => rfl
    all_goals exact Bool.noConfusion h
  unfold resultOf
  rw [e, resultLane_cases, if_pos h, BitVec.or_comm]

theorem convertLane_pair_int (c : Ctx) (m : Modifier) (t u : LaneType) (v : Nat) (h : u.integer = true) :
    convertLane c m true t u v = convertToInt c m t u (laneValue t v) := by
  cases u
  case i32 | i16 | i8 => rfl
  all_goals exact Bool.noConfusion h

theorem convertLane_pair_d8 (c : Ctx) (m : Modifier) (t : LaneType) (v : Nat) :
    convertLane c m true t .d8 v = convertToD8 m (laneValue t v) := rfl

/-- A conversion to an integer type, step by step: it saturates at each. -/
theorem convertToInt_steps (c : Ctx) (m : Modifier) (t u : LaneType) (x : Exact) : convertToInt c m t u x =
    let n := laneBits u
    let v := x.scale m.k.toInt
    let r : Int × Flags :=
      if t.integer then
        let k := v.toInt c.mode
        (clampInt n k.1, if clampInt n k.1 = k.1 then (if k.2 then nx else 0) else sv)
      else Exact.convertInt n c.mode v
    let r1 := if m.abs then clampInt n |r.1| else r.1
    (wrap n (if m.neg then clampInt n (-r1) else r1), r.2) := by
  unfold convertToInt flagIf
  dsimp only
  cases t.integer
  · rfl
  · by_cases h : clampInt (laneBits u) ((x.scale m.k.toInt).toInt c.mode).1 = ((x.scale m.k.toInt).toInt c.mode).1
    · simp only [if_true, if_pos h]
      rw [h]
    · simp only [if_true, if_neg h]

/-- A conversion to D8, step by step: the sign bit of a code that is not a zero is cleared and inverted. -/
theorem convertToD8_steps (m : Modifier) (x : Exact) : convertToD8 m x =
    let r := encodeD8 (x.scale m.k.toInt)
    let r1 := if m.abs then r.1 % 128 else r.1
    (if r.1 % 128 = 0 then r.1 else if m.neg then r1 ^^^ 128 else r1, r.2) := by
  unfold convertToD8
  dsimp only
  split <;> rfl

/-! ### The obligation -/

theorem State.Unbound.sub {s : State} {rs qs : List Reg} (h : s.Unbound qs) (hs : rs ⊆ qs) : s.Unbound rs := fun r hr => h r (hs hr)

/-- Settles O16: a refused pair by `execModifierWord_refused`, and one that runs by what its instruction does in its lanes under any
modifier, its result lanes step by step. -/
theorem modifierWords : Obligations.ModifierWords := by
  intro s m f w run refused inSet pair
  have hset : modifiable w = true ↔ inSet := modifiable_iff w
  refine ⟨fun h => execModifierWord_refused s m f (.inl h),
    fun h => execModifierWord_refused s m f (.inr (.inl (Bool.eq_false_iff.2 (mt hset.1 h)))), ?_, ?_, ?_⟩
  · intro j ⟨_, _, hd⟩ hr
    exact execModifierWord_refused s m f (.inr (.inr (by rw [bodyOf_of_decWord hd]; exact (refusesPair_iff m j).2 hr)))
  · intro e hodd hin hd hb
    have hany : (bodyOf w).any (refusesPair m) = false := by
      cases h : bodyOf w with
      | none => rfl
      | some j => exact hb j h
    exact execModifierWord_reserved s m f e hodd (hset.2 hin) hany hd
  · intro t u d a b c hu mode x scaled bounds shaped whole result lanesAre each one fused products total values toInt toD8
    have hab : s.Unbound [d, a, b] := hu.sub (by simp)
    have ha : s.Unbound [d, a] := hu.sub (by simp)
    have hctx : s.laneCtx m = ⟨mode, bounds.1, bounds.2⟩ := s.laneCtx_eq m
    have hresult (T : LaneType) (v : Exact × Flags) : resultOf (s.laneCtx m) m T v = result T v := by
      have hlane : resultLane (s.laneCtx m) m T v.1 = if T.float then shaped (fmtOf T) v.1 else whole (laneBits T) v.1 := by
        rw [resultLane_cases, floatLane_steps, intLane_steps, hctx]
      unfold resultOf
      rw [hlane]
    have hruns (j : Instr) (T : LaneType) (q : State) (hq : s.runModified m j = some q) (hT : modifiedType j = T)
        (hcodes : ∀ e r, j ≠ .vmov .d8 e r) (hp : pair j) (hc : m.clamp = 0 ∨ T.float = true) : run = .next q := by
      obtain ⟨hodd, hin, hd⟩ := hp
      exact execModifierWord_runs s q m f j hodd (hset.2 hin) hd (refusesPair_false hcodes (hT ▸ hc)) hq
    have hlanes (j : Instr) (T : LaneType) (n : Nat) (g : Nat → Nat × Flags) (q : State) (hq : s.runModified m j = some q)
        (hl : LanesTo s (.next q) 8 (laneBits T) n d g) (hT : modifiedType j = T) (hcodes : ∀ e r, j ≠ .vmov .d8 e r) :
        lanesAre j T n g := fun hp hc => (hruns j T q hq hT hcodes hp hc).symm ▸ hl
    have heach (j : Instr) (g : Nat → Exact × Flags) (q : State) (hq : s.runModified m j = some q)
        (hl : LanesTo s (.next q) 8 (laneBits t) t.lanes d (fun i => resultOf (s.laneCtx m) m t (g i))) (hT : modifiedType j = t)
        (hcodes : ∀ e r, j ≠ .vmov .d8 e r) : each j g :=
      hlanes j t t.lanes _ q hq (by simpa only [hresult] using hl) hT hcodes
    have hone (j : Instr) (T : LaneType) (v : Exact × Flags) (q : State) (hq : s.runModified m j = some q)
        (hl : WritesF s (.next q) 8 d (BitVec.ofNat 256 (resultOf (s.laneCtx m) m T v).1) (resultOf (s.laneCtx m) m T v).2)
        (hT : modifiedType j = T) (hcodes : ∀ e r, j ≠ .vmov .d8 e r) : one j T v :=
      fun hp hc => (hruns j T q hq hT hcodes hp hc).symm ▸ (hresult T v ▸ hl)
    have hdot : dotType t = if t = .i8 then .i32 else .f32 := by cases t <;> rfl
    have hbin (op) := s.binLane_results m 8 t d a b op hab
    have hun (op) := s.unLane_results m 8 t d a op ha
    have hfma (p q) := s.laneFma_results m 8 t d a b c p q hu
    have hcvt := s.laneCvt_lanes m 8 t d a u ha
    refine ⟨heach _ _ _ rfl (hbin _) rfl nofun, heach _ _ _ rfl (hbin _) rfl nofun, heach _ _ _ rfl (hbin _) rfl nofun,
      heach _ _ _ rfl (hbin _) rfl nofun, heach _ _ _ rfl (hbin _) rfl nofun, heach _ _ _ rfl (hbin _) rfl nofun,
      heach _ _ _ rfl (hun _) rfl nofun, heach _ _ _ rfl (hun _) rfl nofun, heach _ _ _ rfl (hun _) rfl nofun,
      heach _ _ _ rfl (hun _) rfl nofun, heach _ _ _ rfl (hun _) rfl nofun, heach _ _ _ rfl (hun _) rfl nofun,
      heach _ _ _ rfl (hun _) rfl nofun, fun ht => heach _ _ _ rfl (hun _) rfl (fun _ _ h => ht (Instr.vmov.inj h).1),
      heach _ _ _ rfl (hfma _ _) rfl nofun, heach _ _ _ rfl (hfma _ _) rfl nofun, heach _ _ _ rfl (hfma _ _) rfl nofun,
      heach _ _ _ rfl (hfma _ _) rfl nofun, hdot ▸ hone _ _ _ _ rfl (s.laneDot_writes m 8 t d a b hab) rfl nofun,
      hone _ _ _ _ rfl (s.laneReduce_writes m 8 t d a _ ha) rfl nofun, hone _ _ _ _ rfl (s.laneReduce_writes m 8 t d a _ ha) rfl nofun,
      ?_, ?_, ?_⟩
    · intro hf
      simp only [convertLane_float _ _ _ _ u _ hf, hresult] at hcvt
      exact hlanes _ u _ _ _ rfl hcvt rfl nofun
    · intro hi
      simp only [isPair_8, convertLane_pair_int _ _ _ u _ hi, convertToInt_steps, hctx] at hcvt
      exact hlanes _ u _ _ _ rfl hcvt rfl nofun
    · rintro rfl
      exact hlanes _ .d8 _ _ _ rfl (by simpa only [isPair_8, convertLane_pair_d8, convertToD8_steps] using hcvt) rfl nofun

end Sys2Proof.Machine
end

section
/-!
PROOF. A `pinv` with flush that leaves a registered word of the page's frame behind (O49).
-/
namespace Sys2Proof.Machine
open Sys2Proof

/-- A system thread is about to flush page 0 of function 0: its page is a frame of host memory, translated in slice 0, and core 0 has
registered the frame's first word. -/
def hostWordRegistered : State :=
  State.setX { State.reset with
    th := { Thread.idle with bound := true, sys := true }
    tlb := [(tlbKey 0 0 0 0, ⟨BitVec.ofNat 64 (2 ^ 55 + 0x19B), 0, 0⟩)]
    regs := [(2 ^ 52, ⟨some 0, 0, 0, 0, 7⟩)] } 5 4

/-- The same once Monel has mapped a peer window over the frame (R352). -/
def windowOverHostWord : State := hostWordRegistered.outside (.peerWindow 0 ⟨0, 0x10000, 3, 0⟩)

/-- The flush goes to the peer's memory, where the window leads now, and the word registered before stays in its L1. -/
theorem pinv_keeps_word_under_window :
    ∃ t, exec (.pinv 5) windowOverHostWord = .next t ∧ (Tab.find t.regs (2 ^ 52)).isSome = true := ⟨_, rfl, by decide +kernel⟩

/-- Refutes O49: after a `pinv` with flush of a page of host memory, the word of its frame that a core registered before a peer window
was mapped over it is still registered. -/
theorem not_pagingInstructions : ¬ Obligations.PagingInstructions := by
  intro h
  obtain ⟨-, -, -, hpinv, -⟩ := h windowOverHostWord 5 0
  obtain ⟨t, ht, -, -, -, hflush, -⟩ := hpinv (by decide +kernel) (by decide +kernel) ⟨rfl, rfl⟩ (fun e he => nomatch he)
  obtain ⟨u, hu, hkept⟩ := pinv_keeps_word_under_window
  cases hu.symm.trans ht
  have hgone : Tab.find t.regs (2 ^ 52) = none :=
    hflush (by decide +kernel) 0 (by decide) 0 (by decide) ⟨BitVec.ofNat 64 (2 ^ 55 + 0x19B), 0, 0⟩ (by decide +kernel) (2 ^ 52) (by decide +kernel)
      (by decide +kernel)
  rw [hgone] at hkept
  exact Bool.false_ne_true hkept

end Sys2Proof.Machine
end

section
/-!
PROOF. Arithmetic on floating lanes (O12): an exact value with its flags, and one rounding (R50, R93).
-/
namespace Sys2Proof.Machine
open Sys2Proof

/-- Without a modifier, a floating result lane is its exact value rounded once, in the mode of sr.rmode (R50). -/
theorem State.resultOf_plain_float (s : State) {t : LaneType} (h : t.float = true) (v : Exact × Flags) :
    resultOf (s.laneCtx plainMod) plainMod t v =
      (((fmtOf t).round s.th.rmode false v.1).1, v.2 ||| ((fmtOf t).round s.th.rmode false v.1).2) := by
  rw [resultOf, resultLane_float _ t h, s.laneCtx_eq]

/-- Settles O12: what each operation does in its lanes, with its one rounding. -/
theorem floatLaneArithmetic : Obligations.FloatLaneArithmetic := by
  intro s t d a b c hf hu w mode x rounded lanesAre
  have hab : s.Unbound [d, a, b] := hu.sub (by simp)
  have ha : s.Unbound [d, a] := hu.sub (by simp)
  have hx (r : Reg) (i : Nat) : s.laneAt t r i = x r i := laneValue_float t hf _
  have hbin (op : Mode → Exact → Exact → Exact × Flags) :
      LanesTo s (.next (s.binLane plainMod 4 t d a b op)) 4 w t.lanes d (fun i => rounded (op mode (x a i) (x b i))) := by
    simpa only [s.resultOf_plain_float hf, hx] using s.binLane_results plainMod 4 t d a b op hab
  have hun (op : Exact → Exact × Flags) :
      LanesTo s (.next (s.unLane plainMod 4 t d a op)) 4 w t.lanes d (fun i => rounded (op (x a i))) := by
    simpa only [s.resultOf_plain_float hf, hx] using s.unLane_results plainMod 4 t d a op ha
  have hfma (p q : Bool) :
      LanesTo s (.next (s.laneFma plainMod 4 p q t d a b c)) 4 w t.lanes d
        (fun i => rounded (Exact.fma mode p q (x a i) (x b i) (x c i))) := by
    simpa only [s.resultOf_plain_float hf, hx] using s.laneFma_results plainMod 4 t d a b c p q hu
  exact ⟨hbin _, hbin _, hbin _, hbin _, hbin _, hbin _, hun _, hun _, hun _, hun _, hun _,
    hfma false false, hfma false true, hfma true true, hfma true false⟩

end Sys2Proof.Machine
end

section
/-!
PROOF. A `vq8` whose outlier is the first store after a `cwait sc,0` (O15): it is a release as well (R189).
-/
namespace Sys2Proof.Machine
open Sys2Proof

/-- A stream of bf16 elements from 0x3000 up, for reading and writing, at its first of three (R108). -/
def outlierStream : Stream := ⟨0x3000, 1, 3, 2, 0, 2, 0⟩

/-- A thread at its outlier threshold of 8, with lane 0 of f8 at 20 in bf16 and its outliers bound for a stream. -/
def quantisingThread : Thread :=
  { Thread.idle with
    bound := true, othresh := 0x41000000, f := Thread.idle.f.set 8 0x41A0, streams := Thread.idle.streams.set 3 (some outlierStream) }

/-- The thread has stored to word 0 of memory, and its `cwait sc,0` has armed that store (R189). -/
def quantisingAfterWait : State :=
  State.arm { State.reset with
    th := quantisingThread
    now := 1
    memPast := [(0, [⟨0, 0, 0xFF, 0, quantisingThread.ident, 0, some .core, some 0, none, none, [], none, false, []⟩])] }

/-- The write of the outlier releases the store: what is remembered of memory is not what it was. -/
theorem vq8_releases_armed_store :
    ∃ t, exec (.vq8 .bf16 5 8 6) quantisingAfterWait = .next t ∧ t.memPast ≠ quantisingAfterWait.memPast := ⟨_, rfl, by decide +kernel⟩

/-- Refutes O15: an outlier's write to stream 3 is a store, and the first one after a `cwait sc,0` releases what the wait covered, in
physical memory too, where the statement has all but local memory stand. -/
theorem not_conversionsAndQuantising : ¬ Obligations.ConversionsAndQuantising := by
  rintro ⟨-, hvq8⟩
  obtain ⟨-, -, hside⟩ := hvq8 quantisingAfterWait .bf16 5 8 6 rfl (by unfold State.Unbound; decide +kernel)
  obtain ⟨u, hu, -, -, -, -, -, hrest⟩ := hside outlierStream ⟨0, by decide, by decide +kernel⟩ rfl ⟨rfl, .inr rfl⟩ (by decide +kernel) rfl
  obtain ⟨t, ht, hchanged⟩ := vq8_releases_armed_store
  cases ht.symm.trans hu
  exact hchanged (congrArg State.memPast hrest :)

end Sys2Proof.Machine
end

section
/-!
PROOF. What an `mma` reads of its local operands, and how a row is added into a tile (O35): the elements of a row of bytes, the columns
of B, the blocks of one element (R65), and the elements of a tile.
-/
namespace Sys2Proof.Machine
open Sys2Proof

/-! ### Elements of rows -/

theorem State.seeLoc_length (s : State) (v : View) (n : Nat) : ∀ la, (s.seeLoc v la n).length = n := by
  induction n with
  | zero => exact fun _ => rfl
  | succ n ih => exact fun la => congrArg (· + 1) (ih (la + 1))

theorem State.seeLoc_take (s : State) (v : View) (n : Nat) : ∀ la m, n ≤ m → (s.seeLoc v la m).take n = s.seeLoc v la n := by
  induction n with
  | zero => exact fun _ _ _ => List.take_zero
  | succ n ih =>
    intro la m h
    obtain ⟨m, rfl⟩ : ∃ j, m = j + 1 := ⟨m - 1, by omega⟩
    simp only [State.seeLoc, List.take_succ_cons, ih (la + 1) m (by omega)]

theorem State.seeLoc_drop (s : State) (v : View) (k : Nat) : ∀ la m, (s.seeLoc v la m).drop k = s.seeLoc v (la + k) (m - k) := by
  induction k with
  | zero => exact fun _ _ => rfl
  | succ k ih =>
    intro la m
    cases m with
    | zero => simp [State.seeLoc]
    | succ m => rw [State.seeLoc, List.drop_succ_cons, ih, Nat.add_right_comm, Nat.add_assoc, Nat.add_sub_add_right]

/-- The number that `n` bytes within a string of bytes spell. -/
theorem State.natOf_seeLoc_part (s : State) (v : View) (la len k n : Nat) (h : k + n ≤ len) :
    natOf (((s.seeLoc v la len).drop k).take n) = s.seeNat v (la + k) n := by
  rw [s.seeLoc_drop, s.seeLoc_take _ _ _ _ (by omega), State.seeNat]

/-- The bytes of a row of a local operand, as the matrix path sees them. -/
def State.localRow (s : State) (x : MOperand) (r : Nat) : List Byte := s.seeLoc (s.th.view .matrix) (x.row r) x.rowBytes

/-- Element `k` of a row of a local operand. -/
def State.localElem (s : State) (t : LaneType) (x : MOperand) (r k : Nat) : Exact :=
  laneValue t (s.seeNat (s.th.view .matrix) (x.row r + k * (laneBits t / 8)) (laneBits t / 8))

theorem rowValues_localRow (s : State) (t : LaneType) (x : MOperand) (r : Nat) :
    rowValues t (s.localRow x r) = (List.range (x.rowBytes / (laneBits t / 8))).map (s.localElem t x r) := by
  unfold rowValues State.localRow
  dsimp only
  rw [s.seeLoc_length]
  refine List.map_congr_left fun k hk => congrArg (laneValue t) (s.natOf_seeLoc_part _ _ _ _ _ ?_)
  have h : k + 1 ≤ x.rowBytes / (laneBits t / 8) := List.mem_range.1 hk
  calc k * (laneBits t / 8) + laneBits t / 8 = (k + 1) * (laneBits t / 8) := (Nat.succ_mul _ _).symm
    _ ≤ x.rowBytes / (laneBits t / 8) * (laneBits t / 8) := Nat.mul_le_mul_right _ h
    _ ≤ x.rowBytes := Nat.div_mul_le_self _ _

/-- Rows of one length that stand one behind the other can be taken apart again. -/
theorem flatten_row {α : Type} {n : Nat} (f : Nat → List α) (hf : ∀ k, (f k).length = n) (m : Nat) : ∀ k < m,
    ((((List.range m).map f).flatten).drop (k * n)).take n = f k := by
  induction m generalizing f with
  | zero => exact fun k hk => absurd hk k.not_lt_zero
  | succ m ih =>
    intro k hk
    rw [List.range_succ_eq_map, List.map_cons, List.flatten_cons, List.map_map]
    cases k with
    | zero => rw [Nat.zero_mul, List.drop_zero, List.take_left' (hf 0)]
    | succ k =>
      rw [Nat.succ_mul, Nat.add_comm, ← List.drop_drop, List.drop_left' (hf 0)]
      exact ih (f ∘ Nat.succ) (fun j => hf _) k (by omega)

theorem bRows_flatten (t : LaneType) (f : Nat → List Byte) (hf : ∀ k, (f k).length = 64 * (laneBits t / 8)) :
    bRows t ((List.range (mmaK t)).map f).flatten = (List.range (mmaK t)).map f :=
  List.map_congr_left fun k hk => flatten_row f hf (mmaK t) k (List.mem_range.1 hk)

theorem columns_of_rows (n : Nat) (f : Nat → Nat → Exact) :
    columns ((List.range n).map fun k => (List.range 64).map (f k)) = (List.range 64).map fun j => (List.range n).map fun k => f k j := by
  refine List.map_congr_left fun j hj => ?_
  have hj : j < 64 := List.mem_range.1 hj
  rw [List.map_map]
  exact List.map_congr_left fun k _ => by simp [List.getD, hj]

/-! ### The blocks of one element (R65) -/

theorem drop_range_map {α : Type} (f : Nat → α) (k n : Nat) : ((List.range (k + n)).map f).drop k = (List.range n).map fun j => f (k + j) := by
  rw [List.range_add, List.map_append, List.drop_left' (by simp), List.map_map]
  rfl

theorem take_range_map {α : Type} (f : Nat → α) (k n : Nat) : ((List.range (k + n)).map f).take k = (List.range k).map f := by
  rw [List.range_add, List.map_append, List.take_left' (by simp)]

/-- Every block of one element, where the elements of A and B and the scales are given by their numbers along K. -/
theorem blockSteps_range (m : Nat) : ∀ (ea eb : Nat → Exact) (sc : Nat → Nat) (acc : Nat),
    blockSteps ((List.range (32 * m)).map ea) ((List.range (32 * m)).map eb) ((List.range m).map sc) acc =
      (List.range m).foldl (fun acc q => blockStep acc ((List.range 32).map fun j => ea (32 * q + j))
        ((List.range 32).map fun j => eb (32 * q + j)) (sc q)) acc := by
  induction m with
  | zero => exact fun _ _ _ _ => rfl
  | succ m ih =>
    intro ea eb sc acc
    rw [Nat.mul_succ, Nat.add_comm, List.range_succ_eq_map, List.map_cons, blockSteps, drop_range_map, drop_range_map, take_range_map,
      take_range_map, List.map_map, ih, List.foldl_cons, List.foldl_map]
    simp only [Nat.mul_succ, Nat.mul_zero, Nat.zero_add, Nat.succ_eq_add_one, Nat.add_comm 32, Nat.add_right_comm _ _ 32, Function.comp_apply]

/-! ### The elements of a tile -/

theorem zipIdx_map_range {α : Type} (f : Nat → α) (n : Nat) : ((List.range n).map f).zipIdx = (List.range n).map fun j => (f j, j) :=
  List.ext_getElem (by simp) fun j h1 h2 => by simp

/-- Entries that stand one behind the other are each replaced once. -/
theorem get_foldl_put {α : Type} (base : Nat) (g : Nat → α → α) (d : α) (t : Tab α) (n k : Nat) :
    Tab.get ((List.range n).foldl (fun u j => Tab.put u (base + j) (g j (Tab.get u (base + j) d))) t) k d =
      if base ≤ k ∧ k < base + n then g (k - base) (Tab.get t k d) else Tab.get t k d := by
  induction n generalizing k with
  | zero => rw [if_neg (by omega)]; rfl
  | succ n ih =>
    rw [List.range_succ, List.foldl_append, List.foldl_cons, List.foldl_nil]
    by_cases h : k = base + n
    · subst h
      rw [Tab.get_put_self, ih, if_neg (by omega), if_pos (by omega), Nat.add_sub_cancel_left]
    · rw [Tab.get_put_ne _ _ _ _ _ h, ih]
      exact if_congr (by omega) rfl rfl

/-- A row of A changes its own row of its tile, each element by its own column of B (R229). -/
theorem get_addRow (tiles : Tab (BitVec 32)) (head r : Nat) (as : List Exact) (col : Nat → List Exact) (scales : List Nat)
    {tile row c : Nat} (hr : r < 64) (hrow : row < 64) (hc : c < 64) :
    Tab.get (addRow tiles head r as ((List.range 64).map col) scales) (tileKey tile row c) 0 =
      if tile = head ∧ row = r then BitVec.ofNat 32 (blockSteps as (col c) scales (Tab.get tiles (tileKey tile row c) 0).toNat)
      else Tab.get tiles (tileKey tile row c) 0 := by
  unfold addRow
  rw [zipIdx_map_range, List.foldl_map]
  refine (get_foldl_put (head * 4096 + r * 64) (fun j w => BitVec.ofNat 32 (blockSteps as (col j) scales w.toNat)) 0 tiles 64 _).trans ?_
  by_cases h : tile = head ∧ row = r
  · obtain ⟨rfl, rfl⟩ := h
    rw [if_pos (by unfold tileKey; omega), if_pos ⟨rfl, rfl⟩, tileKey, Nat.add_sub_cancel_left]
  · rw [if_neg (by unfold tileKey; omega), if_neg h]

end Sys2Proof.Machine
end

section
/-!
PROOF. `mma` with local operands (O35): what its rows change (R229), one row after the other, and the instruction in a turn that takes
all of them.
-/
namespace Sys2Proof.Machine
open Sys2Proof

/-! ### What stands while an `mma` runs -/

/-- Outside the matrix units and the usage counters everything stands, but for the `mma` that the thread at hand waits in (R229, R364). -/
def AtMatrix (s t : State) : Prop := t = { s with th := { s.th with mma := t.th.mma }, units := t.units, usage := t.usage }

theorem AtMatrix.trans {s u t : State} (h : AtMatrix s u) (g : AtMatrix u t) : AtMatrix s t := by
  unfold AtMatrix at *
  rw [g, h]

theorem AtMatrix.setUnit (s : State) (u : MatrixUnit) : AtMatrix s (s.setUnit u) := rfl

theorem AtMatrix.badLoc {s t : State} (h : AtMatrix s t) : t.badLoc = s.badLoc := by rw [h]

theorem AtMatrix.seeLoc {s t : State} (h : AtMatrix s t) (v : View) (n : Nat) : ∀ la, t.seeLoc v la n = s.seeLoc v la n := by
  induction n with
  | zero => exact fun _ => rfl
  | succ n ih =>
    intro la
    rw [State.seeLoc, State.seeLoc, ih, h]
    rfl

theorem AtMatrix.view {s t : State} (h : AtMatrix s t) (p : PathId) : t.th.view p = s.th.view p := by rw [h]; rfl

theorem AtMatrix.localRow {s t : State} (h : AtMatrix s t) (x : MOperand) (r : Nat) : t.localRow x r = s.localRow x r := by
  rw [State.localRow, h.view, h.seeLoc, State.localRow]

theorem AtMatrix.ownCore {s t : State} (h : AtMatrix s t) : t.ownCore = s.ownCore := by rw [h]; rfl

/-- A thread that goes on behind its `mma` has retired it, and no byte has changed. -/
theorem AtMatrix.retires {s t : State} (h : AtMatrix s t) (row : Word) :
    let q := (t.setTh { t.th with mrow := row, mma := none }).retire 4
    q.th.mrow = row ∧ Retires s q 4 ∧ KeepsBytes s q ∧ q.units = t.units := by
  have hth : (t.setTh { t.th with mrow := row, mma := none }).th = { s.th with mrow := row, mma := none } := by rw [h]; rfl
  obtain ⟨hpc, ⟨hiret, hplain⟩, -, hbytes⟩ := (t.setTh { t.th with mrow := row, mma := none }).retire_spec 4
  rw [hth] at hpc hiret hplain
  refine ⟨by rw [hpc], ⟨hiret, fun hp => ?_⟩, fun a => ?_, by simp⟩
  · obtain ⟨h1, h2⟩ := hplain hp
    exact ⟨by rw [h1, State.pcPlus, hth]; rfl, h2⟩
  · obtain ⟨h1, h2⟩ := hbytes a
    exact ⟨by rw [h1, State.setTh_mem, h], by rw [h2, State.setTh_loc, h]⟩

@[simp] theorem State.ownUnit_setUnit (s : State) (u : MatrixUnit) : (s.setUnit u).ownUnit = u := Tab.get_put_self _ _ _ _

/-! ### Rows of local operands -/

theorem State.lostLoc_none {s : State} (h : s.badLoc = []) (v : View) (la n : Nat) : s.lostLoc v la n = none := by
  unfold State.lostLoc
  rw [List.findSome?_eq_none_iff, h]
  intro k _
  cases s.keyOf v (la + k) <;> rfl

section
variable {s : State} {x : MOperand}

theorem State.operandRow_local (hb : s.badLoc = []) (hx : x.isLocal = true) (r : Nat) : s.operandRow x r = (.ok (s.localRow x r), s) := by
  unfold State.operandRow
  dsimp only
  rw [if_pos hx, State.lostLoc_none hb]
  rfl

theorem State.operandRows_local (hb : s.badLoc = []) (hx : x.isLocal = true) (n : Nat) : ∀ r,
    s.operandRows x r n = (.ok ((List.range n).map fun k => s.localRow x (r + k)), s) := by
  induction n with
  | zero => exact fun _ => rfl
  | succ n ih =>
    intro r
    rw [State.operandRows, State.operandRow_local hb hx]
    dsimp only
    rw [ih, List.range_succ_eq_map, List.map_cons, List.map_map]
    simp only [Function.comp_def, Nat.succ_eq_add_one, Nat.add_zero, Nat.add_assoc, Nat.add_comm 1]

/-- The scales of a row of A: a byte for each block of K, or 1 for each (R65, R228). -/
def State.rowScales (s : State) (sc : Option MOperand) (blocks r : Nat) : List Nat :=
  sc.elim (List.replicate blocks 127) (fun x => (s.localRow x r).map BitVec.toNat)

theorem AtMatrix.rowScales {t : State} (h : AtMatrix s t) (sc : Option MOperand) (blocks r : Nat) :
    t.rowScales sc blocks r = s.rowScales sc blocks r := by
  cases sc with
  | none => rfl
  | some x => exact congrArg (List.map BitVec.toNat) (h.localRow x r)

end

/-- Column `j` of a local B (R228). -/
def State.localCol (s : State) (t : LaneType) (x : MOperand) (j : Nat) : List Exact := (List.range (mmaK t)).map fun k => s.localElem t x k j

/-- The columns of B as the rows find them, in the bytes that the instruction has read (R228, R229). -/
theorem columns_localRows (s : State) (t : LaneType) (m : MStride) (y : Nat) :
    columns ((bRows t ((List.range (mmaK t)).map (s.localRow (m.opB t y))).flatten).map (rowValues t)) =
      (List.range 64).map (s.localCol t (m.opB t y)) := by
  have hbytes : (m.opB t y).rowBytes / (laneBits t / 8) = 64 :=
    Nat.mul_div_cancel _ (by rcases laneBits_cases t with h | h | h <;> rw [h] <;> decide)
  rw [bRows_flatten t (s.localRow (m.opB t y)) fun k => s.seeLoc_length _ _ _, List.map_map]
  simp only [Function.comp_def, rowValues_localRow, hbytes]
  exact columns_of_rows _ _

section
variable (s : State) (t : LaneType) (a : MOperand) (sc : Option MOperand) (blocks : Nat)

/-- The state after one row of A has been added into the head tile (R229, R364). -/
def State.rowAdded (cols : List (List Exact)) (r : Nat) : State :=
  let u := s.ownUnit
  (s.setUnit { u with tiles := addRow u.tiles u.head r (rowValues t (s.localRow a r)) cols (s.rowScales sc blocks r) }).use s.th.ident.vf
    (if t = .d8 then 2 else 1) (if t = .d8 then 8192 else 4096)

/-- The state after `n` rows of A from `r` up. -/
def State.rowsAdded (s : State) (cols : List (List Exact)) (r : Nat) : Nat → State
  | 0 => s
  | n + 1 => (s.rowAdded t a sc blocks cols r).rowsAdded cols (r + 1) n

theorem State.rowAdded_frame (cols : List (List Exact)) (r : Nat) : AtMatrix s (s.rowAdded t a sc blocks cols r) := rfl

theorem State.rowsAdded_frame (cols : List (List Exact)) (n : Nat) : ∀ (s : State) (r : Nat), AtMatrix s (s.rowsAdded t a sc blocks cols r n) := by
  induction n with
  | zero => exact fun _ _ => rfl
  | succ n ih => exact fun s r => (s.rowAdded_frame t a sc blocks cols r).trans (ih _ _)

/-- Rows of local operands are added one after the other. -/
theorem State.addRows_local (ha : a.isLocal = true) (hs : ∀ x ∈ sc, x.isLocal = true) (cols : List (List Exact)) (n : Nat) :
    ∀ (s : State) (r : Nat), s.badLoc = [] → s.addRows t a sc cols blocks r n = (.ok (), s.rowsAdded t a sc blocks cols r n) := by
  induction n with
  | zero => exact fun _ _ _ => rfl
  | succ n ih =>
    intro s r hb
    rw [State.rowsAdded, ← ih _ _ ((s.rowAdded_frame t a sc blocks cols r).badLoc.trans hb), State.addRows, State.operandRow_local hb ha]
    cases sc with
    | none => rfl
    | some x => dsimp only; rw [State.operandRow_local hb (hs x rfl)]; rfl

/-- What the rows leave: in the head tile each element of theirs with its blocks added, every other element as it was. -/
theorem State.rowsAdded_unit (col : Nat → List Exact) (n : Nat) : ∀ (s : State) (r : Nat), r + n ≤ 64 →
    let u := s.ownUnit
    let v := (s.rowsAdded t a sc blocks ((List.range 64).map col) r n).ownUnit
    v = { u with tiles := v.tiles } ∧ ∀ tile row c, row < 64 → c < 64 → Tab.get v.tiles (tileKey tile row c) 0 =
      if tile = u.head ∧ r ≤ row ∧ row < r + n then
        BitVec.ofNat 32 (blockSteps (rowValues t (s.localRow a row)) (col c) (s.rowScales sc blocks row) (Tab.get u.tiles (tileKey tile row c) 0).toNat)
      else Tab.get u.tiles (tileKey tile row c) 0 := by
  induction n with
  | zero => exact fun s r _ => ⟨rfl, fun tile row c _ _ => (if_neg (by omega)).symm⟩
  | succ n ih =>
    intro s r hr
    dsimp only
    have hframe := s.rowAdded_frame t a sc blocks ((List.range 64).map col) r
    have hown : (s.rowAdded t a sc blocks ((List.range 64).map col) r).ownUnit = _ := s.ownUnit_setUnit _
    obtain ⟨hunit, htiles⟩ := ih (s.rowAdded t a sc blocks ((List.range 64).map col) r) (r + 1) (by omega)
    rw [hown] at hunit htiles
    refine ⟨hunit, fun tile row c hrow hc => ?_⟩
    refine (htiles tile row c hrow hc).trans ?_
    dsimp only
    rw [hframe.localRow, hframe.rowScales, get_addRow _ _ _ _ _ _ (by omega) hrow hc]
    by_cases h : tile = s.ownUnit.head ∧ row = r
    · obtain ⟨rfl, rfl⟩ := h
      rw [if_neg (by omega), if_pos ⟨rfl, rfl⟩, if_pos (by omega)]
    · rw [if_neg h]
      exact if_congr (by omega) rfl rfl

end

/-! ### The instruction -/

/-- The A scales that the third operand of an `mma` names: none where its register is 0 (R228). -/
def State.scaleOperand (s : State) (m : MStride) (c : Option Reg) : Option MOperand :=
  c.bind (fun r => if s.getX r = 0 then none else some (m.opS (s.getX r).toNat))

/-- The operand is made again from its address alone. -/
theorem State.scaleOperand_base (s : State) (m : MStride) (c : Option Reg) :
    ((s.scaleOperand m c).map (·.base)).map m.opS = s.scaleOperand m c := by
  cases c with
  | none => rfl
  | some r =>
    show ((if s.getX r = 0 then none else some (m.opS (s.getX r).toNat)).map _).map _ = _
    unfold State.scaleOperand
    dsimp only [Option.bind_some]
    split <;> rfl

theorem State.operandFault_none {s : State} {x : MOperand} {aligned : Bool} (hx : x.isLocal = true) (ha : aligned = true → x.base % 8 = 0)
    (hr : s.rowsFault x = none) : s.operandFault x aligned = none := by
  unfold State.operandFault
  rw [if_neg (fun h => h.2 (ha h.1)), if_pos hx, hr]

section
variable (s : State) (i : Instr) (t : LaneType) (a b : Reg) (c : Option Reg) (m : MStride)

/-- The state in which an `mma` with a local B has read it and waits for its rows (R229). -/
def State.mmaStarted : State :=
  let u := s.ownUnit
  let xb := m.opB t (s.getX b).toNat
  (s.setUnit { u with mc := u.mc + 1 }).setTh { s.th with mma := some ⟨t, (s.getX a).toNat, (s.scaleOperand m c).map (·.base),
    ((List.range (mmaK t)).map (s.localRow xb)).flatten⟩ }

theorem State.mmaStarted_frame : AtMatrix s (s.mmaStarted t a b c m) := rfl

/-- The state in which it has added the rows from sr.mrow up. -/
def State.mmaSummed : State :=
  (s.mmaStarted t a b c m).rowsAdded t (m.opA (s.getX a).toNat) (s.scaleOperand m c) (mmaK t / 32)
    ((List.range 64).map (s.localCol t (m.opB t (s.getX b).toNat))) s.th.mrow.toNat (64 - s.th.mrow.toNat)

theorem State.mmaSummed_frame : AtMatrix s (s.mmaSummed t a b c m) :=
  (s.mmaStarted_frame t a b c m).trans (State.rowsAdded_frame _ _ _ _ _ _ _ _)

/-- What an `mma` with local operands meets at its issue: it is the owner's, its configuration and its operands are good, and the unit has
room for it (R225, R227 to R229). -/
structure State.MmaReady : Prop where
  owner : s.ownsUnit s.th.slot = true
  stride : mstrideOf s.th.mstride = some m
  row : s.th.mrow.toNat < 64
  room : s.ownUnit.mc < 2
  sound : s.badLoc = []
  localA : m.aLocal = true
  localB : m.bLocal = true
  localS : ∀ x ∈ s.scaleOperand m c, x.isLocal = true
  faultA : s.operandFault (m.opA (s.getX a).toNat) true = none
  faultB : s.operandFault (m.opB t (s.getX b).toNat) true = none
  faultS : ∀ x ∈ s.scaleOperand m c, s.operandFault x false = none

variable {s t a b c m} (h : s.MmaReady t a b c m)
include h

theorem State.MmaReady.issues : s.mma i t a b c = (s.mmaStarted t a b c m).mmaRows := by
  have hread := State.operandRows_local (x := m.opB t (s.getX b).toNat) (s := s.setUnit { s.ownUnit with mc := s.ownUnit.mc + 1 }) h.sound
    h.localB (mmaK t) 0
  have hrow (k : Nat) : (s.setUnit { s.ownUnit with mc := s.ownUnit.mc + 1 }).localRow (m.opB t (s.getX b).toNat) k =
      s.localRow (m.opB t (s.getX b).toNat) k := (AtMatrix.setUnit s _).localRow _ k
  simp only [hrow, Nat.zero_add] at hread
  have hs : (s.scaleOperand m c).elim none (fun x => s.operandFault x false) = none := by
    cases hc : s.scaleOperand m c with
    | none => rfl
    | some x => exact h.faultS x hc
  have hff : firstFault [s.operandFault (m.opA (s.getX a).toNat) true, s.operandFault (m.opB t (s.getX b).toNat) true,
      (s.scaleOperand m c).elim none (fun x => s.operandFault x false)] = none := by
    rw [h.faultA, h.faultB, hs]
    rfl
  unfold State.mma State.asOwner
  rw [if_pos h.owner]
  dsimp only
  rw [h.stride]
  dsimp only
  rw [if_neg (Nat.not_le.2 h.row)]
  cases c
  all_goals
    dsimp only [State.scaleOperand, Option.bind_none, Option.bind_some] at hff ⊢
    rw [hff]
    dsimp only
    rw [if_neg (Nat.not_le.2 h.room), hread]
    rfl

/-- In a turn that takes all rows an `mma` adds the rows from sr.mrow up and goes on (R229, R230). -/
theorem State.MmaReady.runs (hev : s.ev.num = 0) :
    s.mma i t a b c = ((s.mmaSummed t a b c m).setTh { (s.mmaSummed t a b c m).th with mrow := 0, mma := none }).retire 4 := by
  have hmma : (s.mmaStarted t a b c m).th.mma = some ⟨t, (s.getX a).toNat, (s.scaleOperand m c).map (·.base),
      ((List.range (mmaK t)).map (s.localRow (m.opB t (s.getX b).toNat))).flatten⟩ := rfl
  have hstride : mstrideOf (s.mmaStarted t a b c m).th.mstride = some m := h.stride
  have hnum : (s.mmaStarted t a b c m).ev.num = 0 := hev
  have hsound : (s.mmaStarted t a b c m).badLoc = [] := h.sound
  rw [h.issues, State.mmaRows, hmma, hstride]
  dsimp only
  rw [columns_localRows, s.scaleOperand_base, if_pos hnum, State.addRows_local t _ _ _ h.localA h.localS _ _ _ _ hsound]
  exact if_pos (Nat.add_sub_cancel' h.row.le)

end

/-- An `mma` adds the product of two operands, in blocks of 32 along K, into the head tile, from the row in sr.mrow up (R58, R65, R229). -/
def AddsProduct (s : State) (o : Out) (blocks : Nat) (ea eb : Nat → Nat → Exact) (sc : Nat → Nat → Nat) : Prop :=
  let core := coreOf s.th.slot
  let u := s.unitOf core
  ∃ q, o = .next q ∧ q.th.mrow = 0 ∧ Retires s q 4 ∧ KeepsBytes s q ∧ (q.unitOf core).mc = u.mc + 1 ∧ (q.unitOf core).head = u.head
    ∧ ∀ tile row col, row < 64 → col < 64 → Tab.get (q.unitOf core).tiles (tileKey tile row col) 0 =
      if tile = u.head ∧ s.th.mrow.toNat ≤ row then BitVec.ofNat 32 ((List.range blocks).foldl (fun acc k => blockStep acc
        ((List.range 32).map fun j => ea row (32 * k + j)) ((List.range 32).map fun j => eb (32 * k + j) col) (sc row k))
        (Tab.get u.tiles (tileKey tile row col) 0).toNat)
      else Tab.get u.tiles (tileKey tile row col) 0

/-- K is whole blocks. -/
theorem mmaK_blocks (t : LaneType) : 32 * (mmaK t / 32) = mmaK t := by
  unfold mmaK
  split <;> rfl

theorem State.MmaReady.adds {s : State} {t : LaneType} {a b : Reg} {c : Option Reg} {m : MStride} (h : s.MmaReady t a b c m) (i : Instr)
    (hev : s.ev.num = 0) (hK : 128 / (laneBits t / 8) = mmaK t) {sc : Nat → Nat → Nat}
    (hsc : ∀ r, s.rowScales (s.scaleOperand m c) (mmaK t / 32) r = (List.range (mmaK t / 32)).map (sc r)) :
    AddsProduct s (.next (s.mma i t a b c)) (mmaK t / 32) (s.localElem t (m.opA (s.getX a).toNat))
      (s.localElem t (m.opB t (s.getX b).toNat)) sc := by
  have hframe := s.mmaSummed_frame t a b c m
  have hstart := s.mmaStarted_frame t a b c m
  have hown : (s.mmaStarted t a b c m).ownUnit = { s.ownUnit with mc := s.ownUnit.mc + 1 } := State.ownUnit_setUnit _ _
  obtain ⟨hunit, htiles⟩ := State.rowsAdded_unit t (m.opA (s.getX a).toNat) (s.scaleOperand m c) (mmaK t / 32)
    (s.localCol t (m.opB t (s.getX b).toNat)) (64 - s.th.mrow.toNat) (s.mmaStarted t a b c m) s.th.mrow.toNat
    (Nat.add_sub_cancel' h.row.le).le
  obtain ⟨hmrow, hret, hbytes, hunits⟩ := hframe.retires 0
  have hq : State.unitOf (((s.mmaSummed t a b c m).setTh { (s.mmaSummed t a b c m).th with mrow := 0, mma := none }).retire 4) (coreOf s.th.slot) =
      (s.mmaSummed t a b c m).ownUnit := by
    rw [State.unitOf, hunits, State.ownUnit, hframe.ownCore]
    rfl
  rw [hown] at hunit htiles
  refine ⟨_, congrArg Host.Outcome.next (h.runs i hev), hmrow, hret, hbytes, ?_, ?_, fun tile row col hrow hcol => ?_⟩
  · rw [hq, State.mmaSummed, hunit]
    rfl
  · rw [hq, State.mmaSummed, hunit]
    rfl
  · rw [hq]
    refine (htiles tile row col hrow hcol).trans ?_
    have hrange : s.th.mrow.toNat ≤ row ∧ row < s.th.mrow.toNat + (64 - s.th.mrow.toNat) ↔ s.th.mrow.toNat ≤ row := by omega
    have hsteps := blockSteps_range (mmaK t / 32) (s.localElem t (m.opA (s.getX a).toNat) row)
      (fun k => s.localElem t (m.opB t (s.getX b).toNat) k col) (sc row) (Tab.get s.ownUnit.tiles (tileKey tile row col) 0).toNat
    rw [mmaK_blocks] at hsteps
    rw [hstart.localRow, hstart.rowScales, rowValues_localRow, hsc, show (m.opA (s.getX a).toNat).rowBytes / (laneBits t / 8) = mmaK t from hK]
    exact if_congr (and_congr_right' hrange) (congrArg (BitVec.ofNat 32) hsteps) rfl

/-! ### The obligation -/

/-- The strides and spaces of an sr.mstride that puts A and B in local memory (R227). -/
def localStride (w : Word) : MStride := ⟨true, true, w.getLsbD 61, fld w.toNat 40 12, fld w.toNat 20 20, fld w.toNat 0 20⟩

theorem mstrideOf_local {w : Word} (h : mstrideOf w ≠ none) (h63 : w.getLsbD 63 = true) (h62 : w.getLsbD 62 = true) :
    mstrideOf w = some (localStride w) := by
  unfold mstrideOf at *
  dsimp only at *
  split at h
  · exact absurd rfl h
  · next hgood => rw [if_neg hgood, h63, h62, localStride]

theorem State.seeLoc_toNat (s : State) (v : View) (n : Nat) : ∀ la,
    (s.seeLoc v la n).map BitVec.toNat = (List.range n).map fun q => s.seeNat v (la + q) 1 := by
  induction n with
  | zero => exact fun _ => rfl
  | succ n ih =>
    intro la
    rw [State.seeLoc, List.map_cons, ih, List.range_succ_eq_map, List.map_cons, List.map_map]
    simp only [State.seeNat, State.seeLoc, natOf, Nat.mul_zero, Nat.add_zero, Function.comp_def, Nat.succ_eq_add_one, Nat.add_assoc, Nat.add_comm 1]

/-- The scales of a row of 4 bytes (R228). -/
theorem State.rowScales_local (s : State) {x : MOperand} (hx : x.rowBytes = 4) (r : Nat) :
    s.rowScales (some x) 4 r = (List.range 4).map fun q => s.seeNat (s.th.view .matrix) (x.base + r * x.stride + q) 1 := by
  rw [← s.seeLoc_toNat, ← hx]
  rfl

theorem State.rowScales_unit (s : State) (n r : Nat) : s.rowScales none n r = (List.range n).map fun _ => 127 := by
  rw [List.map_const', List.length_range]
  rfl

/-- One block of one element, whose elements are given by their numbers (R65). -/
theorem blockStep_range (acc sc : Nat) (f g : Nat → Exact) : blockStep acc ((List.range 32).map f) ((List.range 32).map g) sc =
    let v := (sumNums nearest ((List.range 32).map (fun j => (Exact.mul (f j) (g j)).1))).1
    let p := (f32.round nearest false (if sc = 255 then .nan false else v.scale ((sc : Int) - 127))).1
    (f32.round nearest false (Exact.add nearest (f32.unpack acc) (f32.unpack p)).1).1 := by
  unfold blockStep
  rw [zipWith_range]

/-- An element of 16 bits (R228). -/
theorem State.localElem_half (s : State) {t : LaneType} (ht : laneBits t = 16) (x : MOperand) (r k : Nat) :
    s.localElem t x r k = laneValue t (s.seeNat (s.th.view .matrix) (x.base + r * x.stride + 2 * k) 2) := by
  rw [State.localElem, ht, MOperand.row, Nat.mul_comm 2 k]

/-- An element of one byte (R228). -/
theorem State.localElem_code (s : State) (x : MOperand) (r k : Nat) :
    s.localElem .d8 x r k = d8Value (s.seeNat (s.th.view .matrix) (x.base + r * x.stride + k) 1) :=
  congrArg (fun j => d8Value (s.seeNat (s.th.view .matrix) (x.base + r * x.stride + j) 1)) (Nat.mul_one k)

theorem exec_mmaBf16 (s : State) (a b : Reg) : exec (.mmaBf16 a b) s = .next (s.mma (.mmaBf16 a b) .bf16 a b none) := rfl

theorem exec_mmaF16 (s : State) (a b : Reg) : exec (.mmaF16 a b) s = .next (s.mma (.mmaF16 a b) .f16 a b none) := rfl

theorem exec_mmaD8 (s : State) (a b c : Reg) : exec (.mmaD8 a b c) s = .next (s.mma (.mmaD8 a b c) .d8 a b (some c)) := rfl

/-- Settles O35: the rows of local operands are read whole and added block by block. -/
theorem matrixMultiply : Obligations.MatrixMultiply := by
  intro s a b c core u x y m row0 byte half ready result a16 b16
  let M := localStride s.th.mstride
  have hresult {i : Instr} {q : State} (hi : exec i s = .next q) {t : LaneType} {k : Nat} (hk : mmaK t = k) {ea eb : Nat → Nat → Exact}
      {sc : Nat → Nat → Nat} (h : AddsProduct s (.next q) (mmaK t / 32) ea eb sc) : result i k ea eb sc := by
    subst hk
    simp only [AddsProduct, blockStep_range, ← hi] at h
    exact h
  have hready (t : LaneType) (e : Option Reg) (hr : ready) (hB : s.rowsFault (M.opB t y) = none)
      (hS : ∀ z ∈ s.scaleOperand M e, z.isLocal = true ∧ s.rowsFault z = none) : s.MmaReady t a b e M := by
    obtain ⟨-, hbad, howner, hmc, hrow, hm, h63, h62, hx, hy, hA⟩ := hr
    exact ⟨beq_iff_eq.2 howner, mstrideOf_local hm h63 h62, hrow, hmc, hbad, rfl, rfl, fun z hz => (hS z hz).1,
      State.operandFault_none rfl (fun _ => hx) hA, State.operandFault_none rfl (fun _ => hy) hB,
      fun z hz => State.operandFault_none (hS z hz).1 nofun (hS z hz).2⟩
  have hA16 (t : LaneType) (ht : laneBits t = 16) (hv : laneValue t = (fmtOf t).unpack) : s.localElem t (M.opA x) = a16 (fmtOf t) :=
    funext₂ fun r k => (s.localElem_half ht _ r k).trans (congrFun hv _)
  have hB16 (t : LaneType) (ht : laneBits t = 16) (hv : laneValue t = (fmtOf t).unpack) : s.localElem t (M.opB t y) = b16 (fmtOf t) :=
    funext₂ fun r k => (s.localElem_half ht _ r k).trans (congrFun hv _)
  have hA8 : s.localElem .d8 (M.opA x) = fun r k => d8Value (byte (x + r * fld m 0 20 + k)) := funext₂ fun r k => s.localElem_code _ r k
  have hB8 : s.localElem .d8 (M.opB .d8 y) = fun k j => d8Value (byte (y + k * fld m 20 20 + j)) := funext₂ fun r k => s.localElem_code _ r k
  refine ⟨fun hr hB => ⟨?_, ?_⟩, fun hr hB hc => ?_, fun hr hB hc h61 hS => ?_⟩
  · have h := (hready .bf16 none hr hB nofun).adds (.mmaBf16 a b) hr.1 rfl fun r => s.rowScales_unit 2 r
    rw [hA16 .bf16 rfl rfl, hB16 .bf16 rfl rfl] at h
    exact (hresult (exec_mmaBf16 s a b) rfl h :)
  · have h := (hready .f16 none hr hB nofun).adds (.mmaF16 a b) hr.1 rfl fun r => s.rowScales_unit 2 r
    rw [hA16 .f16 rfl rfl, hB16 .f16 rfl rfl] at h
    exact (hresult (exec_mmaF16 s a b) rfl h :)
  · have hnone : s.scaleOperand M (some c) = none := if_pos hc
    have h := (hready .d8 (some c) hr hB (hnone ▸ nofun)).adds (.mmaD8 a b c) hr.1 rfl (hnone ▸ fun r => s.rowScales_unit 4 r)
    rw [hA8, hB8] at h
    exact (hresult (exec_mmaD8 s a b c) rfl h :)
  · have hsome : s.scaleOperand M (some c) = some (M.opS (s.getX c).toNat) := if_neg hc
    have hlocal : ∀ z ∈ s.scaleOperand M (some c), z.isLocal = true ∧ s.rowsFault z = none := by
      rintro z hz
      cases hsome.symm.trans hz
      exact ⟨h61, (congrArg (fun l => s.rowsFault ⟨(s.getX c).toNat, l, 64, fld m 40 12, 4⟩) h61).trans hS⟩
    have hscales (r : Nat) : s.rowScales (s.scaleOperand M (some c)) 4 r =
        (List.range 4).map fun q => byte ((s.getX c).toNat + r * fld m 40 12 + q) := by
      rw [hsome]
      exact s.rowScales_local (x := M.opS (s.getX c).toNat) rfl r
    have h := (hready .d8 (some c) hr hB hlocal).adds (.mmaD8 a b c) hr.1 rfl hscales
    rw [hA8, hB8] at h
    exact (hresult (exec_mmaD8 s a b c) rfl h :)

end Sys2Proof.Machine
end

section
/-!
PROOF. What the integer instructions compute (O1): comparisons, immediates, quotients, and the counts of the elements of a word.
-/
namespace Sys2Proof.Machine
open Sys2Proof

/-- An instruction that is a result in x[d] writes its value there (R66). -/
theorem State.writesX_of_result {s : State} {i : Instr} {d : Reg} {v w : Word} (hi : exec i s = .next (s.result d w)) (hv : w = v) :
    WritesX s (exec i s) d v := by
  rw [hi, hv]
  exact s.result_spec d v

/-! ### Comparisons -/

/-- A choice between two values by a signed comparison. -/
theorem ite_slt {x y v w : Word} : (if x.slt y then v else w) = if x.toInt < y.toInt then v else w :=
  ite_congr (propext BitVec.slt_iff_toInt_lt) (fun _ => rfl) fun _ => rfl

/-- A choice between two values by an unsigned comparison. -/
theorem ite_ult {x y v w : Word} : (if x.ult y then v else w) = if x.toNat < y.toNat then v else w :=
  ite_congr (propext BitVec.ult_iff_toNat_lt) (fun _ => rfl) fun _ => rfl

/-- A comparison with an immediate is one with its value (R32). -/
theorem toInt_imm15 (i : BitVec 15) : (imm15 i).toInt = i.toInt := BitVec.toInt_signExtend_of_le (by decide)

/-- An immediate of format W is its value times 4,096 (R32, R70). -/
theorem immW_eq (i : BitVec 20) : immW i = BitVec.ofInt 64 (i.toInt * 4096) := by
  have hi := i.isLt
  have hshift : ((i.setWidth 32) <<< 12).toInt = i.toInt * 4096 := by
    rw [BitVec.toInt_eq_toNat_cond, BitVec.toInt_eq_toNat_cond, BitVec.toNat_shiftLeft, BitVec.toNat_setWidth, Nat.shiftLeft_eq]
    omega
  exact congrArg (BitVec.ofInt 64) hshift

/-! ### Products and quotients -/

theorem mul_eq_ofNat (x y : Word) : x * y = BitVec.ofNat 64 (x.toNat * y.toNat) := BitVec.eq_of_toNat_eq (by simp)

/-- A remainder is what the quotient leaves of the dividend (R75). -/
theorem ofInt_tmod (x y : Word) : BitVec.ofInt 64 (x.toInt.tmod y.toInt) = x - y * BitVec.ofInt 64 (x.toInt.tdiv y.toInt) := by
  rw [Int.tmod_def, Int.sub_eq_add_neg, BitVec.ofInt_add, BitVec.ofInt_neg, BitVec.ofInt_mul, BitVec.ofInt_toInt, BitVec.ofInt_toInt,
    BitVec.sub_eq_add_neg]

theorem elemBits_le (ew : ElemWidth) : elemBits ew ≤ 64 := by cases ew <;> decide

/-- Leading zeros of an element of `n` bits: it lies between the powers of 2 that they leave (R72). -/
theorem leadingZeros_spec {n e : Nat} (hn : n ≤ 64) (he : e < 2 ^ n) :
    (e = 0 → n - bitLength 64 e = n)
      ∧ (e ≠ 0 → n - bitLength 64 e < n ∧ 2 ^ (n - 1 - (n - bitLength 64 e)) ≤ e ∧ e < 2 ^ (n - (n - bitLength 64 e))) := by
  obtain ⟨hzero, hpos⟩ := bitLength_spec 64 e (he.trans_le (Nat.pow_le_pow_right (by decide) hn))
  refine ⟨fun h => by rw [hzero h]; rfl, fun h => ?_⟩
  obtain ⟨hone, -, hlow, hhigh⟩ := hpos h
  have hlen : bitLength 64 e - 1 < n := (Nat.pow_lt_pow_iff_right (by decide)).1 (hlow.trans_lt he)
  rw [show n - 1 - (n - bitLength 64 e) = bitLength 64 e - 1 by omega, show n - (n - bitLength 64 e) = bitLength 64 e by omega]
  exact ⟨by omega, hlow, hhigh⟩

theorem trailingZeros_le {n e : Nat} (he : e < 2 ^ n) : trailingZeros n e ≤ n := by
  obtain ⟨hzero, hpos⟩ := trailingZeros_spec n e he
  by_cases h : e = 0
  · exact (hzero h).le
  · exact (hpos h).1.le

/-- The place of the lowest set bit, counted from 1 (R72). -/
theorem findFirst_spec {n e : Nat} (he : e < 2 ^ n) :
    let c := if e = 0 then 0 else trailingZeros n e + 1
    c ≤ n ∧ (e = 0 → c = 0) ∧ (e ≠ 0 → 1 ≤ c ∧ e.testBit (c - 1) = true ∧ 2 ^ (c - 1) ∣ e) := by
  by_cases h : e = 0
  · rw [if_pos h]
    exact ⟨Nat.zero_le _, fun _ => rfl, fun h' => absurd h h'⟩
  · obtain ⟨hlt, hbit, hdvd⟩ := (trailingZeros_spec n e he).2 h
    rw [if_neg h]
    exact ⟨hlt, fun h' => absurd h' h, fun _ => ⟨Nat.le_add_left _ _, hbit, hdvd⟩⟩

/-- An instruction that counts in each element of x[a] writes the counts into the elements of x[d] (R72). -/
theorem State.writesX_counts {s : State} {i : Instr} {ew : ElemWidth} {d a : Reg} (f : Nat → Nat → Nat)
    (hi : exec i s = .next (s.result d (perElement ew f (s.getX a)))) (hf : ∀ e < 2 ^ elemBits ew, f (elemBits ew) e ≤ elemBits ew) :
    ∃ v, WritesX s (exec i s) d v ∧ ∀ k < 64 / elemBits ew,
      fld v.toNat (elemBits ew * k) (elemBits ew) = f (elemBits ew) (fld (s.getX a).toNat (elemBits ew * k) (elemBits ew)) :=
  ⟨_, State.writesX_of_result hi rfl, fld_perElement ew f (s.getX a) fun e he => (hf e he).trans_lt Nat.lt_two_pow_self⟩

/-- Settles O1: each instruction is a result in x[d] (`State.writesX_of_result`), and what it computes is what the rules say. -/
theorem integerResults : Obligations.IntegerResults := by
  have writes {s : State} {i : Instr} {d : Reg} {v w : Word} : exec i s = .next (s.result d w) → w = v → WritesX s (exec i s) d v :=
    State.writesX_of_result
  refine ⟨fun s d a b c => ?_, fun s d a i n v => ?_, fun s ew d a => ?_, fun s d a b => ?_⟩
  · exact ⟨writes rfl rfl, writes rfl rfl, writes rfl rfl, writes rfl rfl, writes rfl rfl, writes rfl rfl, writes rfl rfl, writes rfl rfl,
      writes rfl rfl, writes rfl ite_slt, writes rfl ite_ult, writes rfl ite_slt, writes rfl ite_slt, writes rfl ite_ult,
      writes rfl ite_ult, writes rfl rfl, writes rfl rfl, writes rfl rfl, writes rfl rfl, writes rfl rfl⟩
  · exact ⟨writes rfl rfl, writes rfl rfl, writes rfl rfl, writes rfl rfl, writes rfl (ite_slt.trans (by rw [toInt_imm15])),
      writes rfl ite_ult, writes rfl rfl, writes rfl rfl, writes rfl rfl, writes rfl (immW_eq v),
      writes rfl (congrArg (s.th.pc + ·) (immW_eq v))⟩
  · intro n elem
    have below (k : Nat) : elem (s.getX a) k < 2 ^ n := Nat.mod_lt _ (Nat.two_pow_pos _)
    have counts {i : Instr} (f : Nat → Nat → Nat) (hi : exec i s = .next (s.result d (perElement ew f (s.getX a))))
        (hf : ∀ e < 2 ^ n, f n e ≤ n) : ∃ v, WritesX s (exec i s) d v ∧ ∀ k < 64 / n, elem v k = f n (elem (s.getX a) k) :=
      State.writesX_counts f hi hf
    obtain ⟨z, hz, hclz⟩ := counts (i := .clz ew d a) (fun n e => n - bitLength 64 e) rfl fun _ _ => Nat.sub_le _ _
    obtain ⟨t, ht, hctz⟩ := counts (i := .ctz ew d a) trailingZeros rfl fun _ => trailingZeros_le
    obtain ⟨f, hf, hffs⟩ := counts (i := .ffs ew d a) (fun n e => if e = 0 then 0 else trailingZeros n e + 1) rfl
      fun _ he => (findFirst_spec he).1
    obtain ⟨p, hp, hpopc⟩ := counts (i := .popc ew d a) setBits rfl fun e _ => setBits_le _ e
    refine ⟨⟨z, hz, fun k hk => ?_⟩, ⟨t, ht, fun k hk => ?_⟩, ⟨f, hf, fun k hk => ?_⟩,
      p, hp, fun k hk => (hpopc k hk).trans (setBits_spec _ _)⟩
    · rw [hclz k hk]
      exact leadingZeros_spec (elemBits_le ew) (below k)
    · rw [hctz k hk]
      obtain ⟨hzero, hpos⟩ := trailingZeros_spec n _ (below k)
      exact ⟨hzero, fun h => (hpos h).2⟩
    · rw [hffs k hk]
      exact (findFirst_spec (below k)).2
  · exact ⟨writes rfl (mul_eq_ofNat _ _), writes rfl rfl, writes rfl rfl, writes rfl rfl, writes rfl rfl, writes rfl rfl, writes rfl rfl,
      writes rfl (ite_congr rfl (fun _ => rfl) fun _ => ofInt_tmod _ _), writes rfl rfl⟩

end Sys2Proof.Machine
end

section
/-!
PROOF. Fields of bits (O2): `rev`, `bswap`, `bext` and `bins`.
-/
namespace Sys2Proof.Machine
open Sys2Proof

/-- The mask of a field's bits at the bottom of a word. -/
theorem getLsbD_fieldMask (n : Nat) {i : Nat} (hi : i < 64) : (BitVec.ofNat 64 (2 ^ n - 1)).getLsbD i = decide (i < n) := by
  rw [BitVec.getLsbD_ofNat, Nat.testBit_two_pow_sub_one, decide_eq_true hi, Bool.true_and]

/-- Byte `k` from the top of a word's bytes is byte `7 - k` from the bottom. -/
theorem reversed_byte (v k : Nat) (hk : k < 8) : (bytesOf 8 v).reverse.getD k 0 = BitVec.ofNat 8 (v / 256 ^ (7 - k)) := by
  rw [← bytesOf_getD 8 v (7 - k) (by omega), List.getD_eq_getElem?_getD, List.getD_eq_getElem?_getD,
    List.getElem?_reverse (by rw [bytesOf_length]; exact hk), bytesOf_length]

/-- Bit `i` of a word with its bytes in reverse order (R72). -/
theorem bswap_bit (x : Word) {i : Nat} (hi : i < 64) :
    (BitVec.ofNat 64 (natOf (bytesOf 8 x.toNat).reverse)).getLsbD i = x.getLsbD (8 * (7 - i / 8) + i % 8) := by
  have h8 : i % 8 < 8 := Nat.mod_lt _ (by decide)
  rw [BitVec.getLsbD_ofNat, natOf_testBit, reversed_byte _ _ (by omega), BitVec.getLsbD_ofNat, show (256 : Nat) = 2 ^ 8 by decide, ← Nat.pow_mul,
    Nat.testBit_div_two_pow, decide_eq_true hi, decide_eq_true h8, Nat.add_comm (i % 8)]
  rfl

theorem rev_bit (x : Word) {i : Nat} (hi : i < 64) : (BitVec.ofNat 64 (reverseBits 64 x.toNat)).getLsbD i = x.getLsbD (63 - i) := by
  rw [BitVec.getLsbD_ofNat, reverseBits_spec 64 _ _ hi, decide_eq_true hi]
  rfl

/-- Bit `i` of the field that `bext` reads (R73). -/
theorem bextVal_bit (x b c : Word) {i : Nat} (hi : i < 64) :
    (bextVal x b c).getLsbD i = (decide (i < fieldLen c) && x.getLsbD (shiftBy b + i)) := by
  unfold bextVal
  rw [BitVec.getLsbD_and, getLsbD_fieldMask _ hi, BitVec.getLsbD_ushiftRight, Bool.and_comm]

/-- Bit `i` of the word into which `bins` has put its field (R73). -/
theorem binsVal_bit (y x b c : Word) {i : Nat} (hi : i < 64) :
    (binsVal y x b c).getLsbD i = if shiftBy b ≤ i ∧ i < shiftBy b + fieldLen c then x.getLsbD (i - shiftBy b) else y.getLsbD i := by
  have hd : i - shiftBy b < 64 := by omega
  unfold binsVal
  dsimp only
  rw [BitVec.getLsbD_or, BitVec.getLsbD_and, BitVec.getLsbD_not, BitVec.getLsbD_shiftLeft, BitVec.getLsbD_shiftLeft, BitVec.getLsbD_and,
    getLsbD_fieldMask _ hd]
  by_cases hlow : i < shiftBy b
  · rw [if_neg (by omega)]
    simp [hi, hlow]
  · by_cases hin : i - shiftBy b < fieldLen c
    · rw [if_pos (by omega)]
      simp [hi, hlow, hin]
    · rw [if_neg (by omega)]
      simp [hi, hlow, hin]

/-- Settles O2: each instruction is a result in x[d], with the bits that `rev_bit`, `bswap_bit`, `bextVal_bit` and `binsVal_bit` give. -/
theorem bitFields : Obligations.BitFields := fun _ _ _ _ _ =>
  ⟨⟨_, State.writesX_of_result rfl rfl, fun _ => rev_bit _⟩, ⟨_, State.writesX_of_result rfl rfl, fun _ => bswap_bit _⟩,
    ⟨_, State.writesX_of_result rfl rfl, fun _ => bextVal_bit _ _ _⟩, ⟨_, State.writesX_of_result rfl rfl, fun _ => binsVal_bit _ _ _ _⟩⟩

end Sys2Proof.Machine
end

section
/-!
PROOF. Transfers (O3): branches and jumps.
-/
namespace Sys2Proof.Machine
open Sys2Proof

/-! ### What every retirement counts -/

/-- A retirement changes, outside the thread at hand, what every retirement counts (R329, R364). -/
theorem State.keepsOutside_count {s : State} {t : Thread} (h : t.ident = s.th.ident) : KeepsOutside s (s.setTh t).count := by
  unfold KeepsOutside State.count State.countRival State.launchesCounted State.use State.setTh
  dsimp only
  rw [h]

theorem State.keepsBytes_count (s : State) (t : Thread) : KeepsBytes s (s.setTh t).count := fun a => ⟨by simp, by simp⟩

/-! ### Transfers -/

theorem loopLeave_eq (t : Thread) (g : Word) :
    loopLeave t g = { t with loop0 := levelAfter t.loop0 g, loop1 := levelAfter t.loop1 g } := rfl

/-- A transfer to a good target goes there with the link written, in the state that the write leaves (R78, R81). -/
theorem State.transfers_of_good {s : State} {d : Reg} {v g : Word} {f : State → State} (hg : GoodTarget g)
    (hf : f s = s.setX d v) : Transfers s (.next (s.transfer g f)) d v g := by
  obtain ⟨heven, hlt⟩ := hg
  have hgo : s.transfer g f = (s.setX d v).retireTo g := by
    unfold State.transfer
    rw [heven, if_neg (by decide), if_neg (Nat.not_le.2 hlt), hf]
  have hx := s.setX_th d v
  have hth := (s.setX d v).retireTo_th g
  have hout : KeepsOutside (s.setX d v) ((s.setX d v).retireTo g) := State.keepsOutside_count rfl
  have hbytes : KeepsBytes (s.setX d v) ((s.setX d v).retireTo g) := State.keepsBytes_count _ _
  rw [loopLeave_eq, hx] at hth
  rw [hgo]
  refine ⟨_, rfl, fun r => ?_, congrArg Thread.pc hth, congrArg Thread.iret hth, congrArg Thread.loop0 hth, congrArg Thread.loop1 hth, ?_, ?_, ?_⟩
  · rw [← s.getX_setX d r v]
    unfold State.getX
    rw [hth]
  · unfold KeepsBesideX
    rw [hth]
  · unfold KeepsOutside at *
    rw [hout]
    unfold State.setX
    split <;> rfl
  · intro a
    obtain ⟨hmem, hloc⟩ := hbytes a
    exact ⟨hmem.trans (by simp), hloc.trans (by simp)⟩

/-- A transfer that writes a link goes to a good target, and traps on a bad one (R15, R17, R78). -/
theorem State.goesTo_transfer {s : State} {d : Reg} {v g : Word} {f : State → State} (hf : f s = s.setX d v) :
    GoesTo s (.next (s.transfer g f)) d v g := by
  refine ⟨fun hg => State.transfers_of_good hg hf, fun hodd => congrArg _ (if_pos hodd), fun heven hfar => congrArg _ ?_⟩
  unfold State.transfer
  rw [heven, if_neg (by decide), if_pos hfar]

/-- An offset, sign-extended and doubled, is its value times 2 (R32). -/
theorem signExtend_shl_one {w : Nat} (o : BitVec w) : o.signExtend 64 <<< 1 = BitVec.ofInt 64 (2 * o.toInt) := by
  rw [BitVec.shiftLeft_eq_mul_twoPow, BitVec.ofInt_mul, BitVec.mul_comm]
  rfl

/-- A branch by a condition (R76). -/
theorem State.branchesTo {s : State} {i : Instr} {b : Bool} {o : BitVec 15} {c : Prop} (hi : exec i s = .next (s.branch b o)) (hc : b = true ↔ c) :
    BranchesTo s (exec i s) c (s.th.pc + BitVec.ofInt 64 (2 * o.toInt)) := by
  have htarget : s.branchTarget o = s.th.pc + BitVec.ofInt 64 (2 * o.toInt) := congrArg (s.th.pc + ·) (signExtend_shl_one o)
  rw [hi, ← htarget]
  refine ⟨fun hn => ?_, fun hy => ?_⟩
  · rw [State.branch, if_neg (mt hc.1 hn)]
    exact s.retire_nothing
  · rw [State.branch, if_pos (hc.2 hy)]
    exact State.goesTo_transfer rfl

/-- Settles O3: each branch by its condition (`State.branchesTo`), and the jumps as transfers that write their link
(`State.goesTo_transfer`). -/
theorem branchesAndJumps : Obligations.BranchesAndJumps := by
  refine ⟨fun s a b o => ?_, fun s d a i j => ⟨?_, State.goesTo_transfer rfl⟩⟩
  · have hlt : (s.getX a).slt (s.getX b) = true ↔ (s.getX a).toInt < (s.getX b).toInt := BitVec.slt_iff_toInt_lt
    have hlo : (s.getX a).ult (s.getX b) = true ↔ (s.getX a).toNat < (s.getX b).toNat := BitVec.ult_iff_toNat_lt
    refine ⟨State.branchesTo rfl beq_iff_eq, State.branchesTo rfl bne_iff_ne, State.branchesTo rfl hlt, State.branchesTo rfl ?_,
      State.branchesTo rfl hlo, State.branchesTo rfl ?_⟩
    · rw [Bool.not_eq_true', ← Bool.not_eq_true, hlt, Int.not_lt]
    · rw [Bool.not_eq_true', ← Bool.not_eq_true, hlo, Nat.not_lt]
  · rw [← signExtend_shl_one j]
    exact State.goesTo_transfer rfl

end Sys2Proof.Machine
end

section
/-!
PROOF. Hardware loops (O4): the end check, and the loop instructions.
-/
namespace Sys2Proof.Machine
open Sys2Proof

/-! ### The end check (R81) -/

/-- The end check of the outer level for an instruction at `p`. -/
def outerEnd (t : Thread) (p : Word) : Thread :=
  if t.loop0.flag ∧ t.loop0.last = p then
    if t.loop0.cnt - 1 ≠ 0 then { t with loop0 := { t.loop0 with cnt := t.loop0.cnt - 1 }, pc := pcBits t.loop0.beg }
    else { t with loop0 := { t.loop0 with cnt := t.loop0.cnt - 1, flag := false } }
  else t

theorem loopEnd_inactive {t : Thread} {p : Word} (h : t.loop1.flag = false) : loopEnd t p = outerEnd t p :=
  if_neg (by simp [h])

/-- An active inner level that ends elsewhere ends the check. -/
theorem loopEnd_elsewhere {t : Thread} {p : Word} (h : t.loop1.flag = true) (hp : t.loop1.last ≠ p) : loopEnd t p = t :=
  (if_pos h).trans (if_neg hp)

theorem loopEnd_again {t : Thread} {p : Word} (h : t.loop1.flag = true) (hp : t.loop1.last = p) (hc : t.loop1.cnt - 1 ≠ 0) :
    loopEnd t p = { t with loop1 := { t.loop1 with cnt := t.loop1.cnt - 1 }, pc := pcBits t.loop1.beg } :=
  ((if_pos h).trans (if_pos hp)).trans (if_pos hc)

/-- At the last pass of the inner level the outer one is checked. -/
theorem loopEnd_last {t : Thread} {p : Word} (h : t.loop1.flag = true) (hp : t.loop1.last = p) (hc : t.loop1.cnt - 1 = 0) :
    loopEnd t p = outerEnd { t with loop1 := { t.loop1 with cnt := 0, flag := false } } p := by
  rw [← hc]
  exact ((if_pos h).trans (if_pos hp)).trans (if_neg (not_not_intro hc))

theorem outerEnd_loop1 (t : Thread) (p : Word) : (outerEnd t p).loop1 = t.loop1 := by
  unfold outerEnd
  split
  · split <;> rfl
  · rfl

/-- The end check of the outer level, from a thread that `next` follows. -/
theorem outerEnd_ends {t u : Thread} {p next : Word} (hpc : u.pc = next) (h0 : u.loop0 = t.loop0) : OuterEnds t (outerEnd u p) p next := by
  unfold OuterEnds outerEnd
  rw [← h0]
  refine ⟨fun h => ?_, fun hf hp hc => ?_, fun hf hp hc => ?_⟩
  · rw [if_neg h]
    exact ⟨hpc, rfl⟩
  · rw [if_pos ⟨hf, hp⟩, if_pos hc]
    exact ⟨rfl, rfl⟩
  · rw [if_pos ⟨hf, hp⟩, if_neg (not_not_intro hc), hc]
    exact ⟨hpc, rfl⟩

/-- The end check at `p`, from a thread that `next` follows (R81). -/
theorem loopEnd_levelsEnd {t u : Thread} {p next : Word} (hpc : u.pc = next) (h0 : u.loop0 = t.loop0) (h1 : u.loop1 = t.loop1) :
    LevelsEnd t (loopEnd u p) p next := by
  unfold LevelsEnd
  rw [← h1]
  refine ⟨fun h hp => ?_, fun h hp hc => ?_, fun h hp hc => ?_, fun h => ?_⟩
  · rw [loopEnd_elsewhere h hp]
    exact ⟨hpc, h0, rfl⟩
  · rw [loopEnd_again h hp hc]
    exact ⟨rfl, rfl, h0⟩
  · rw [loopEnd_last h hp hc]
    exact ⟨outerEnd_loop1 _ _, outerEnd_ends hpc h0⟩
  · rw [loopEnd_inactive h]
    exact ⟨outerEnd_loop1 _ _, outerEnd_ends hpc h0⟩

/-- A skip over a loop's body, as its thread retires it (R80). -/
theorem State.retireSkip_th (s : State) (p next : Word) : (s.retireSkip p next).th =
    let u := loopEnd { s.th with pc := pcBits next } p
    { u with
      iret := u.iret + 1
      packet := u.packet.map (fun p => { p with instrs := p.instrs + 1 })
      relWait := none
      latched := none } := by
  unfold State.retireSkip; simp

/-- What a skip over a loop's body does: the end check is that of the body's last instruction (R80). -/
theorem State.retireSkip_spec (s : State) (p next : Word) :
    LevelsEnd s.th (s.retireSkip p next).th p (pcBits next) ∧ (s.retireSkip p next).th.iret = s.th.iret + 1
      ∧ KeepsBesidePc s.th (s.retireSkip p next).th ∧ KeepsOutside s (s.retireSkip p next) ∧ KeepsBytes s (s.retireSkip p next) := by
  have hloop := loopEnd_eq { s.th with pc := pcBits next } p
  refine ⟨?_, ?_, ?_, State.keepsOutside_count ?_, s.keepsBytes_count _⟩
  · rw [State.retireSkip_th]
    exact loopEnd_levelsEnd rfl rfl rfl
  · rw [State.retireSkip_th, hloop]
  · unfold KeepsBesidePc
    rw [State.retireSkip_th]
    dsimp only
    rw [hloop]
  · rw [hloop]

/-! ### A fetch of the last instruction of a body -/

theorem State.perhapsEvicted_frame (s : State) (pa n : Nat) : XlatFrame s (s.perhapsEvicted pa n) := by
  unfold State.perhapsEvicted
  generalize s.registeredIn pa n = l
  induction l generalizing s with
  | nil => exact .refl s
  | cons w r ih =>
    have hdraw : XlatFrame s s.drawBit.2 := ⟨rfl, id⟩
    refine XlatFrame.trans ?_ (ih _)
    dsimp only
    split
    · exact hdraw.trans (s.drawBit.2.recall_frame w)
    · exact hdraw

theorem XlatFrame.th {s u : State} (h : XlatFrame s u) : u.th = s.th := (congrArg State.th h.same :)

theorem State.translate_th (s : State) (r : Req) (va : Nat) : (s.translate r va).2.th = s.th := (s.translate_frame r va).th

theorem State.useHbm_th (s : State) (fn : Nat) (p : Phys) (n : Nat) : (s.useHbm fn p n).th = s.th := rfl

theorem State.icacheRoom_th (s : State) (core k : Nat) : (s.icacheRoom core k).th = s.th := by
  unfold State.icacheRoom
  dsimp only
  split <;> rfl

/-- A fetch leaves the thread that makes it. -/
theorem State.fetchHalf_th (s : State) (va : Nat) : (s.fetchHalf va).2.th = s.th := by
  unfold State.fetchHalf
  grind [State.drawBit_th, State.icacheRoom_th, State.perhapsEvicted_frame, XlatFrame.th, State.translate_th, State.useHbm_th]

/-! ### The loop instructions (R80) -/

theorem firstLength_word (h : Nat) :
    BitVec.ofNat 64 (firstLength h) = if h % 2 = 0 then 2 else if major h = 0x30 then 8 else 4 := by
  unfold firstLength
  split
  · rfl
  · split <;> rfl

/-- The level that a loop instruction starts: it begins behind the instruction, and its body ends at the last instruction (R80). -/
def State.levelFor (s : State) (c : Word) (e : Fin 1024) : Loop := ⟨s.pcPlus 4, s.pcPlus (4 + 2 * (e.val - 1)), c, true⟩

/-- A loop instruction at which an active level ends traps. -/
theorem State.loopStart_ending {s : State} {i : Instr} {c : Word} {e : Fin 1024} (h : ¬s.th.plainAt s.th.pc) :
    s.loopStart i c e = s.trapWord 0x11 i := by
  refine if_pos ?_
  unfold Thread.plainAt at h
  tauto

/-- A loop instruction with a count that is not 0, where no level ends at it. -/
theorem State.loopStart_plain {s : State} {i : Instr} {c : Word} {e : Fin 1024} (h : s.th.plainAt s.th.pc) (hc : c ≠ 0) :
    s.loopStart i c e =
      if ¬s.th.loop0.flag then (s.setTh { s.th with pc := s.pcPlus 4, loop0 := s.levelFor c e }).count
      else if ¬s.th.loop1.flag then
        if s.th.loop0.last < (s.levelFor c e).last then s.trapWord 0x11 i
        else (s.setTh { s.th with pc := s.pcPlus 4, loop1 := s.levelFor c e }).count
      else s.trapWord 0x11 i :=
  (if_neg (not_or_intro h.1 h.2)).trans (if_neg hc)

theorem State.loopStart_outer {s : State} {i : Instr} {c : Word} {e : Fin 1024} (h : s.th.plainAt s.th.pc) (hc : c ≠ 0)
    (h0 : s.th.loop0.flag = false) :
    s.loopStart i c e = (s.setTh { s.th with pc := s.pcPlus 4, loop0 := s.levelFor c e }).count := by
  rw [State.loopStart_plain h hc, if_pos (by simp [h0])]

theorem State.loopStart_inner {s : State} {i : Instr} {c : Word} {e : Fin 1024} (h : s.th.plainAt s.th.pc) (hc : c ≠ 0)
    (h0 : s.th.loop0.flag = true) (h1 : s.th.loop1.flag = false) (hin : (s.levelFor c e).last ≤ s.th.loop0.last) :
    s.loopStart i c e = (s.setTh { s.th with pc := s.pcPlus 4, loop1 := s.levelFor c e }).count := by
  rw [State.loopStart_plain h hc, if_neg (by simp [h0]), if_pos (by simp [h1]), if_neg (BitVec.not_lt.2 hin)]

/-- With no level free, or a body that reaches past the outer one, a loop instruction traps. -/
theorem State.loopStart_refused {s : State} {i : Instr} {c : Word} {e : Fin 1024} (h : s.th.plainAt s.th.pc) (hc : c ≠ 0)
    (h0 : s.th.loop0.flag = true) (hno : s.th.loop1.flag = true ∨ s.th.loop0.last < (s.levelFor c e).last) :
    s.loopStart i c e = s.trapWord 0x11 i := by
  rw [State.loopStart_plain h hc, if_neg (by simp [h0])]
  rcases hno with h1 | hout
  · rw [if_neg (by simp [h1])]
  · rw [if_pos hout, ite_self]

/-- With a count of 0 control goes past the body's last instruction, whose first halfword tells its length (R37). -/
theorem State.loopStart_skip {s r : State} {i : Instr} {e : Fin 1024} {w : BitVec 16} (h : s.th.plainAt s.th.pc)
    (hf : s.fetchHalf (s.levelFor 0 e).last.toNat = (.ok w, r)) :
    s.loopStart i 0 e = r.retireSkip (s.levelFor 0 e).last
      ((s.levelFor 0 e).last + if w.toNat % 2 = 0 then 2 else if major w.toNat = 0x30 then 8 else 4) := by
  refine (if_neg (not_or_intro h.1 h.2)).trans ((if_pos rfl).trans ?_)
  rw [show s.fetchHalf (s.pcPlus (4 + 2 * (e.val - 1))).toNat = (.ok w, r) from hf, ← firstLength_word]
  rfl

theorem State.loopStart_skip_faults {s r : State} {i : Instr} {e : Fin 1024} {k q : Nat} (h : s.th.plainAt s.th.pc)
    (hf : s.fetchHalf (s.levelFor 0 e).last.toNat = (.error (k, q), r)) : s.loopStart i 0 e = r.trap k q := by
  refine (if_neg (not_or_intro h.1 h.2)).trans ((if_pos rfl).trans ?_)
  rw [show s.fetchHalf (s.pcPlus (4 + 2 * (e.val - 1))).toNat = (.error (k, q), r) from hf]

/-- A level that starts is all that changes beside the PC and what every retirement counts. -/
theorem State.starts_level (s : State) (l0 l1 : Loop) (p : Word) :
    let u := (s.setTh { s.th with pc := p, loop0 := l0, loop1 := l1 }).count
    u.th.loop0 = l0 ∧ u.th.loop1 = l1 ∧ u.th.pc = p ∧ u.th.iret = s.th.iret + 1 ∧ KeepsBesidePc s.th u.th ∧ KeepsOutside s u ∧ KeepsBytes s u := by
  dsimp only
  rw [State.count_th]
  exact ⟨rfl, rfl, rfl, rfl, rfl, State.keepsOutside_count rfl, s.keepsBytes_count _⟩

/-- Settles O4: the end check by `loopEnd_levelsEnd`, and the loop instructions by the cases of `State.loopStart`. -/
theorem hardwareLoops : Obligations.HardwareLoops := by
  refine ⟨fun s n => ?_, fun s i c e hi => ?_⟩
  · rw [State.retire_th]
    exact loopEnd_levelsEnd rfl rfl rfl
  have he : exec i s = .next (s.loopStart i c e) := by
    rcases hi with ⟨a, rfl, rfl⟩ | ⟨n, rfl, rfl⟩ <;> rfl
  intro t last l
  rw [he]
  refine ⟨fun h => congrArg _ (State.loopStart_ending h), fun h hc h0 => ?_, fun h hc h0 h1 hin => ?_,
    fun h hc h0 hno => congrArg _ (State.loopStart_refused h hc h0 hno), fun w r h hc hf => ?_, fun k q r h hc hf => ?_⟩
  · rw [State.loopStart_outer h hc h0]
    exact ⟨_, rfl, s.starts_level l t.loop1 _⟩
  · rw [State.loopStart_inner h hc h0 h1 hin]
    exact ⟨_, rfl, s.starts_level t.loop0 l _⟩
  · subst hc
    have hth : r.th = s.th := by
      have hfetch := s.fetchHalf_th last.toNat
      rwa [hf] at hfetch
    rw [State.loopStart_skip h hf]
    have hskip := r.retireSkip_spec last (last + if w.toNat % 2 = 0 then 2 else if major w.toNat = 0x30 then 8 else 4)
    rw [hth] at hskip
    exact ⟨_, rfl, hskip⟩
  · subst hc
    rw [State.loopStart_skip_faults h hf]

end Sys2Proof.Machine
end

section
/-!
PROOF. An atomic whose bytes lie in two words of a peer's memory (O20).
-/
namespace Sys2Proof.Machine
open Sys2Proof

/-- A cached translation that allows the access, in whose leaf D need not be set, answers it for an untracked page and changes
nothing (R317). -/
theorem State.translate_cached {s : State} {r : Req} {va key : Nat} {t : Trans} {p : Phys} (he : s.early (r.die * 160 + homeSlice va) r.gen = false)
    (hc : s.cached (r.die * 160 + homeSlice va) r.fn va = some (key, t)) (hp : s.checkLeaf r va key t.leaf = .ok p) (hd : pteD t.leaf = true)
    (hu : p.tracked = false) : s.translate r va = (.ok p, s) := by
  have hat : s.translateAt r (r.die * 160 + homeSlice va) va = (.ok p, s) := by
    unfold State.translateAt
    rw [hc]
    dsimp only
    rw [hp, hd]
    dsimp only
    rw [if_neg (by simp)]
  unfold State.translate
  dsimp only
  rw [he, hat]
  simp [State.dirtyAt, hu]

/-- The leaf of an untracked page that is a frame at the start of host memory, with R, W, A and D (R313, R315). -/
def hostFrame : Trans := ⟨BitVec.ofNat 64 (2 ^ 55 + 0x19B), 0, 0⟩

/-- A relaxed `amo.swap.d` of virtual address 0 in flight, which puts 7 there and the old value into x5 (R171). -/
def peerSwap : Access := ⟨.amo 8 true, 0, .gang, false, 5, 7, 0, false, 0, none, none⟩

/-- A thread with the swap in flight; its page 0 is an untracked frame of host memory, and of the memory of device 3 the byte at address 8
is 1. -/
def swapInFlight : State :=
  { State.reset with
    th := { Thread.idle with bound := true, acc := [peerSwap] }
    tlb := [(tlbKey 0 0 0 0, hostFrame)]
    mem := [(peerBase + 3 * 2 ^ 40 + 8, 1)] }

/-- The same once Monel has mapped a peer window over the frame that starts at address 4 of device 3 (R352): the swap's 8 bytes lie in two
words of the peer's memory. -/
def windowOffWord : State := swapInFlight.outside (.peerWindow 0 ⟨0, 0x10000, 3, 4⟩)

/-- Where the swap's address leads. -/
def peerSwapPlace : Phys := ⟨peerBase + 3 * 2 ^ 40 + 4, false, hostFrame.leaf, tlbKey 0 0 0 0, false⟩

theorem windowOffWord_next : windowOffWord.NextAccess peerSwap :=
  ⟨rfl, rfl, rfl, rfl, by decide +kernel, by decide +kernel, .inl (by decide +kernel)⟩

/-- The cached leaf answers the translation, which changes nothing. -/
theorem windowOffWord_plainly : windowOffWord.Plainly peerSwap peerSwapPlace windowOffWord :=
  ⟨by decide +kernel,
    State.translate_cached (key := tlbKey 0 0 0 0) (t := hostFrame) (by decide +kernel) (by decide +kernel) (by decide +kernel)
      (by decide +kernel) rfl,
    rfl, by decide +kernel, rfl, rfl, rfl, rfl, rfl, rfl, by decide +kernel⟩

/-- An atomic works on one word, and takes of this one no more than the 4 bytes up to its end, which are 0. -/
theorem peerSwap_reads_to_word_end : ∃ t, exec .atomicPerform windowOffWord = .next t ∧ t.getX 5 = 0 := ⟨_, rfl, by decide +kernel⟩

/-- Refutes O20: through a peer window that starts off a multiple of 8, an atomic of an aligned virtual address meets bytes of two words,
and its register gets those of the first alone, where the statement has it get all 8. -/
theorem not_accessPerformed : ¬ Obligations.AccessPerformed := by
  rintro ⟨huntracked, -⟩
  obtain ⟨-, -, -, -, hamo, -⟩ := huntracked windowOffWord peerSwap peerSwapPlace windowOffWord windowOffWord_next windowOffWord_plainly
  obtain ⟨t, ht, -, -, hsets, -⟩ := hamo 8 true rfl rfl
  obtain ⟨u, hu, hzero⟩ := peerSwap_reads_to_word_end
  cases hu.symm.trans ht
  have hold : extend 8 true (natOf (Memory.readN windowOffWord.mem peerSwapPlace.pa 8)) = 2 ^ 32 := by decide +kernel
  have hwhole : t.getX 5 = 2 ^ 32 := ((hsets 5).trans (if_pos ⟨rfl, by decide⟩)).trans hold
  rw [hzero] at hwhole
  exact absurd hwhole (by decide)

end Sys2Proof.Machine
end

section
/-!
PROOF. Integer lanes (O11): whole values, the shifts (R94), and what each operation does in its lanes (R93).
-/
namespace Sys2Proof.Machine
open Sys2Proof

/-! ### Flags of values -/

/-- Signalling NaNs among some values raise nv, and nothing else does. -/
theorem foldl_snan (xs : List Exact) : ∀ fl : Flags,
    xs.foldl (fun f x => f ||| x.snan) fl = fl ||| (if .nan true ∈ xs then nv else 0) := by
  induction xs with
  | nil => intro fl; simp
  | cons x r ih =>
    intro fl
    rw [List.foldl_cons, ih, BitVec.or_assoc]
    congr 1
    by_cases hx : x = .nan true
    · subst hx
      rw [if_pos List.mem_cons_self, Exact.snan]
      split <;> rfl
    · have hs : x.snan = 0 := by
        cases x with
        | nan q =>
          cases q with
          | false => rfl
          | true => exact absurd rfl hx
        | inf => rfl
        | fin => rfl
      simp [hs, Ne.symm hx]

/-! ### Whole values -/

/-- A value is an integer, as the lanes of an integer type hold it. -/
def Exact.Spells (x : Exact) (v : Int) : Prop := ∃ p n, x = .fin p n 1 false ∧ signed p n = v

theorem signed_natAbs (v : Int) : signed (decide (v < 0)) v.natAbs = v := by
  unfold signed
  split
  next h => have := of_decide_eq_true h; omega
  next h => have := of_decide_eq_false (Bool.eq_false_iff.2 h); omega

theorem signed_mul (p q : Bool) (n m : Nat) : signed (p != q) (n * m) = signed p n * signed q m := by
  cases p <;> cases q <;> simp [signed]

theorem Exact.spells_ofInt (v : Int) : (Exact.ofInt v).Spells v := ⟨_, _, rfl, signed_natAbs v⟩

theorem Exact.Spells.snan {x : Exact} {v : Int} (h : x.Spells v) : x.snan = 0 := by
  obtain ⟨p, n, rfl, -⟩ := h
  rfl

theorem Exact.Spells.neg {x : Exact} {v : Int} (h : x.Spells v) : x.neg.Spells (-v) := by
  obtain ⟨p, n, rfl, rfl⟩ := h
  exact ⟨!p, n, rfl, by cases p <;> simp [signed]⟩

theorem Exact.Spells.abs {x : Exact} {v : Int} (h : x.Spells v) : x.abs.Spells |v| := by
  obtain ⟨p, n, rfl, rfl⟩ := h
  exact ⟨false, n, rfl, by cases p <;> simp [signed]⟩

theorem Exact.Spells.cmp {x y : Exact} {v w : Int} (hx : x.Spells v) (hy : y.Spells w) : x.cmp y = some (compare v w) := by
  obtain ⟨p, n, rfl, rfl⟩ := hx
  obtain ⟨q, m, rfl, rfl⟩ := hy
  simp [Exact.cmp]

/-- A whole value that no flag comes with. -/
def PureInt (r : Exact × Flags) (v : Int) : Prop := r.1.Spells v ∧ r.2 = 0

theorem PureInt.mul {x y : Exact} {v w : Int} (hx : x.Spells v) (hy : y.Spells w) : PureInt (Exact.mul x y) (v * w) := by
  obtain ⟨p, n, rfl, rfl⟩ := hx
  obtain ⟨q, m, rfl, rfl⟩ := hy
  exact ⟨⟨p != q, n * m, rfl, signed_mul p q n m⟩, rfl⟩

/-- Of two whole values the one that compares so is picked. -/
theorem PureInt.pick {x y : Exact} {v w : Int} (hx : x.Spells v) (hy : y.Spells w) (greater : Bool) :
    PureInt (Exact.pick greater x y) (if greater then max v w else min v w) := by
  have hc := hx.cmp hy
  have hfl : x.snan ||| y.snan = 0 := by rw [hx.snan, hy.snan]; rfl
  have hpick : Exact.pick greater x y = (match x.cmp y with
      | some .lt => (if greater then y else x, x.snan ||| y.snan)
      | some .gt => (if greater then x else y, x.snan ||| y.snan)
      | _ => (if x.isZero greater then y else x, x.snan ||| y.snan)) := by
    obtain ⟨p, n, rfl, -⟩ := hx
    obtain ⟨q, m, rfl, -⟩ := hy
    rfl
  rw [hpick, hc, hfl]
  rcases hvw : compare v w with _ | _ | _
  case lt =>
    have hlt : v < w := compare_lt_iff_lt.1 hvw
    refine ⟨?_, rfl⟩
    cases greater
    · simpa [min_eq_left hlt.le] using hx
    · simpa [max_eq_right hlt.le] using hy
  case gt =>
    have hgt : w < v := compare_gt_iff_gt.1 hvw
    refine ⟨?_, rfl⟩
    cases greater
    · simpa [min_eq_right hgt.le] using hy
    · simpa [max_eq_left hgt.le] using hx
  case eq =>
    obtain rfl : v = w := compare_eq_iff_eq.1 hvw
    refine ⟨?_, rfl⟩
    dsimp only
    rw [max_self, min_self, ite_self]
    split
    · exact hy
    · exact hx

/-- The exact finite part of whole terms is their sum. -/
theorem finiteSum_spells {xs : List Exact} {vs : List Int} (h : List.Forall₂ Exact.Spells xs vs) : finiteSum xs = (vs.sum, 1) := by
  induction h with
  | nil => rfl
  | cons hx _ ih =>
    obtain ⟨p, n, rfl, rfl⟩ := hx
    simp [finiteSum, ih, addFrac, add_comm]

/-- The sum of whole terms, in any rounding mode. -/
theorem PureInt.sum {xs : List Exact} {vs : List Int} (h : List.Forall₂ Exact.Spells xs vs) (mode : Mode) : PureInt (sumNums mode xs) vs.sum := by
  have whole : ∀ x ∈ xs, x.isNan = false ∧ ∀ p, x ≠ .inf p := by
    induction h with
    | nil => exact nofun
    | cons hx _ ih =>
      refine List.forall_mem_cons.2 ⟨?_, ih⟩
      obtain ⟨p, n, rfl, -⟩ := hx
      exact ⟨rfl, nofun⟩
  have hinf (p : Bool) : xs.any (· == .inf p) = false :=
    List.any_eq_false.2 fun x hx => by simpa using (whole x hx).2 p
  have hnan : xs.any Exact.isNan = false := List.any_eq_false.2 fun x hx => by simp [(whole x hx).1]
  have hfl : xs.foldl (fun f t => f ||| t.snan) 0 = 0 := by
    rw [foldl_snan, if_neg fun h => absurd (whole _ h).1 (by decide)]
    rfl
  unfold sumNums
  simp only [hinf, hnan, hfl, finiteSum_spells h, Bool.and_false, Bool.or_false, flagIf, Bool.false_eq_true, if_false]
  by_cases hv : vs.sum = 0
  · rw [if_pos hv, hv]
    exact ⟨⟨_, 0, rfl, by simp [signed]⟩, rfl⟩
  · rw [if_neg hv]
    exact ⟨⟨_, _, rfl, signed_natAbs _⟩, rfl⟩

theorem PureInt.add {x y : Exact} {v w : Int} (hx : x.Spells v) (hy : y.Spells w) (mode : Mode) : PureInt (Exact.add mode x y) (v + w) := by
  have := PureInt.sum (.cons hx (.cons hy .nil)) mode
  simpa [Exact.add] using this

/-! ### Integer lanes -/

theorem laneValue_int {t : LaneType} (h : t.integer = true) (v : Nat) : laneValue t v = Exact.ofInt (sgn (laneBits t) v) := by
  cases t
  case i32 | i16 | i8 => rfl
  all_goals exact Bool.noConfusion h

theorem float_of_integer {t : LaneType} (h : t.integer = true) : t.float = false := by
  cases t
  case i32 | i16 | i8 => rfl
  all_goals exact Bool.noConfusion h

/-- A lane of an integer type is the integer that its bits spell. -/
theorem State.laneAt_spells (s : State) {t : LaneType} (h : t.integer = true) (r : Reg) (i : Nat) :
    (s.laneAt t r i).Spells (sgn (laneBits t) (lane (laneBits t) (s.getF r) i)) := by
  unfold State.laneAt
  rw [laneValue_int h]
  exact Exact.spells_ofInt _

/-- A whole result wraps to the width of its lane, and raises nothing more. -/
theorem resultOf_spells (c : Ctx) {t : LaneType} (h : t.integer = true) {r : Exact × Flags} {v : Int} (hr : r.1.Spells v) :
    resultOf c plainMod t r = (wrap (laneBits t) v, r.2) := by
  obtain ⟨p, n, hx, hv⟩ := hr
  unfold resultOf
  rw [hx, resultLane_int c t h, hv]
  exact congrArg _ BitVec.or_zero

theorem resultOf_pureInt (c : Ctx) {t : LaneType} (h : t.integer = true) {r : Exact × Flags} {v : Int} (hr : PureInt r v) :
    resultOf c plainMod t r = (wrap (laneBits t) v, 0) := by
  rw [resultOf_spells c h hr.1, hr.2]

/-- A shift of each lane, by the low six bits of its amount (R94). -/
theorem State.laneShift_lanes (s : State) (t : LaneType) (d a b : Reg) (op : Nat → Nat → Nat → Nat) (h : s.Unbound [d, a, b]) :
    LanesTo s (.next (s.laneShift t d a b op)) 4 (laneBits t) t.lanes d
      (fun i => (op (laneBits t) (lane (laneBits t) (s.getF a) i) (lane (laneBits t) (s.getF b) i % 64), 0)) := by
  refine s.rawLane_lanes 4 _ _ d [a, b] _ _ h ?_
  rw [s.operand_unbound a (h a (by simp)), s.operand_unbound b (h b (by simp)), lanes, lanes, zipWith_range]

theorem shlLane_mod (w x n : Nat) : shlLane w x n % 2 ^ w = (if w ≤ n then 0 else x * 2 ^ n) % 2 ^ w := by
  unfold shlLane
  split
  · rfl
  · exact Nat.mod_mod _ _

theorem sgn_bounds {w x : Nat} (hx : x < 2 ^ w) : -2 ^ w ≤ sgn w x ∧ sgn w x < 2 ^ w := by
  have hlt : (x : Int) < 2 ^ w := by exact_mod_cast hx
  have hpos : (0 : Int) < 2 ^ w := by positivity
  unfold sgn
  split <;> constructor <;> linarith [Int.natCast_nonneg x]

/-- An arithmetic shift by the width or more leaves copies of the sign bit. -/
theorem sraLane_eq {w x : Nat} (hx : x < 2 ^ w) (n : Nat) :
    sraLane w x n = wrap w (if w ≤ n then (if sgn w x < 0 then -1 else 0) else sgn w x / 2 ^ n) := by
  obtain ⟨hlo, hhi⟩ := sgn_bounds hx
  unfold sraLane
  push_cast
  by_cases hn : w ≤ n
  · rw [if_pos hn, Nat.min_eq_right hn]
    split
    next hneg => rw [show sgn w x / 2 ^ w = -1 from Int.ediv_eq_neg_one_of_neg_of_le hneg (by linarith)]
    next hpos => rw [Int.ediv_eq_zero_of_lt (not_lt.1 hpos) hhi]
  · rw [if_neg hn, Nat.min_eq_left (Nat.le_of_not_le hn)]

theorem lane_lt (w : Nat) (v : LaneReg) (i : Nat) : lane w v i < 2 ^ w := Nat.mod_lt _ (Nat.two_pow_pos w)

/-- Settles O11: whole values stay whole under each operation (`PureInt`), and their results wrap (`resultOf_pureInt`). -/
theorem integerLaneArithmetic : Obligations.IntegerLaneArithmetic := by
  intro s t d a b hi hu w raw x y m lanesAre
  have ha : s.Unbound [d, a] := hu.sub (by simp)
  have hx (i : Nat) : (s.laneAt t a i).Spells (x i) := s.laneAt_spells hi a i
  have hy (i : Nat) : (s.laneAt t b i).Spells (y i) := s.laneAt_spells hi b i
  have hbin (op : Mode → Exact → Exact → Exact × Flags) (v : Nat → Int)
      (hv : ∀ i, PureInt (op s.th.rmode (s.laneAt t a i) (s.laneAt t b i)) (v i)) :
      LanesTo s (.next (s.binLane plainMod 4 t d a b op)) 4 w t.lanes d (fun i => (wrap w (v i), 0)) := by
    simpa only [resultOf_pureInt _ hi (hv _)] using s.binLane_results plainMod 4 t d a b op hu
  have hun (op : Exact → Exact × Flags) (v : Nat → Int) (hv : ∀ i, PureInt (op (s.laneAt t a i)) (v i)) :
      LanesTo s (.next (s.unLane plainMod 4 t d a op)) 4 w t.lanes d (fun i => (wrap w (v i), 0)) := by
    simpa only [resultOf_pureInt _ hi (hv _)] using s.unLane_results plainMod 4 t d a op ha
  have hsign (neg : Bool) : s.laneSign plainMod 4 t d a neg = s.unLane plainMod 4 t d a (fun x => (if neg then x.neg else x.abs, x.snan)) := by
    unfold State.laneSign
    rw [float_of_integer hi]
    rfl
  have hshift (op : Nat → Nat → Nat → Nat) := s.laneShift_lanes t d a b op hu
  refine ⟨hbin _ _ fun i => PureInt.add (hx i) (hy i) _, hbin _ _ fun i => PureInt.add (hx i) (hy i).neg _,
    hbin _ _ fun i => PureInt.mul (hx i) (hy i), hbin _ _ fun i => PureInt.pick (hx i) (hy i) true,
    hbin _ _ fun i => PureInt.pick (hx i) (hy i) false, ?_, ?_, ?_, hshift shrLane, ?_⟩
  · show LanesTo s (.next (s.laneSign plainMod 4 t d a false)) _ _ _ _ _
    rw [hsign]
    exact hun _ _ fun i => ⟨(hx i).abs, (hx i).snan⟩
  · show LanesTo s (.next (s.laneSign plainMod 4 t d a true)) _ _ _ _ _
    rw [hsign]
    exact hun _ _ fun i => ⟨(hx i).neg, (hx i).snan⟩
  · exact (hshift shlLane).congr (fun i _ => shlLane_mod _ _ _) fun _ _ => rfl
  · have hsra := hshift sraLane
    simp only [sraLane_eq (lane_lt _ _ _)] at hsra
    exact hsra

end Sys2Proof.Machine
end

section
/-!
PROOF. Lane instructions that move bits, and the 16-bit lane forms (O13).
-/
namespace Sys2Proof.Machine
open Sys2Proof

/-- A lane instruction whose result is raw bits, as a whole register. -/
theorem State.rawLane_writes (s : State) (len : Nat) (rs : List Reg) (d : Reg) (g : (Reg → LaneReg) → LaneReg) (v : LaneReg)
    (hu : s.Unbound (d :: rs)) (h : g s.operand = v) : WritesF s (.next (s.rawLane len rs d g)) len d v 0 :=
  s.runLane_f len rs d v 0 _ hu (by rw [h])

/-- A bitwise operation on two registers. -/
theorem State.rawLane_pair (s : State) (len : Nat) (d a b : Reg) (op : LaneReg → LaneReg → LaneReg) (hu : s.Unbound [d, a, b]) :
    WritesF s (.next (s.rawLane len [a, b] d (fun g => op (g a) (g b)))) len d (op (s.getF a) (s.getF b)) 0 :=
  s.rawLane_writes len [a, b] d _ _ hu (by
    rw [s.operand_unbound a (hu a (by simp)), s.operand_unbound b (hu b (by simp))])

/-- A copy of a register. -/
theorem State.laneMov_writes (s : State) (len : Nat) (t : LaneType) (d a : Reg) (hl : isPair len = false) (hu : s.Unbound [d, a]) :
    WritesF s (.next (s.laneMov plainMod len t d a)) len d (s.getF a) 0 := by
  unfold State.laneMov
  rw [hl]
  exact s.rawLane_writes len [a] d _ _ hu (s.operand_unbound a (hu a (by simp)))

/-- The sign bit of a lane of `w` bits cleared or inverted; a NaN stays (R54). -/
def signedBits (t : LaneType) (neg : Bool) (v : Nat) : Nat :=
  if ((fmtOf t).unpack v).isNan then v else if neg then v ^^^ 2 ^ (laneBits t - 1) else v % 2 ^ (laneBits t - 1)

/-- `vabs` and `vneg` of floating lanes act on the sign bit alone. -/
theorem State.laneSign_lanes (s : State) (len : Nat) (t : LaneType) (d a : Reg) (neg : Bool) (hl : isPair len = false) (hf : t.float = true)
    (hu : s.Unbound [d, a]) :
    LanesTo s (.next (s.laneSign plainMod len t d a neg)) len (laneBits t) t.lanes d
      (fun i => (signedBits t neg (lane (laneBits t) (s.getF a) i), 0)) := by
  unfold State.laneSign
  rw [hl, hf]
  refine s.rawLane_lanes len _ _ d [a] _ _ hu ?_
  rw [s.operand_unbound a (hu a (by simp)), lanes, List.map_map]
  rfl

/-- One lane of a list of lanes replaced. -/
theorem lanes_set (w n k x : Nat) (v : LaneReg) :
    (lanes w n v).set k x = (List.range n).map (fun i => if i = k then x else lane w v i) := by
  refine List.ext_getElem (by simp [lanes]) fun i h1 h2 => ?_
  simp [lanes, List.getElem_set, eq_comm]

/-- Every lane gets one value. -/
theorem State.rawLane_broadcast (s : State) (len w n : Nat) (d : Reg) (rs : List Reg) (x : Nat) (g : (Reg → LaneReg) → LaneReg)
    (hu : s.Unbound (d :: rs)) (h : g s.operand = ofLanes w (List.replicate n x)) :
    LanesTo s (.next (s.rawLane len rs d g)) len w n d (fun _ => (x, 0)) :=
  s.rawLane_lanes len w n d rs (fun _ => x) g hu (by rw [h, List.map_const', List.length_range])

theorem halfType_float (bf : Bool) : (halfType bf).float = true := by cases bf <;> rfl

/-- Settles O13: what each instruction moves, and the 16-bit forms as the 32-bit instructions of length 2. -/
theorem rawAndShortLaneForms : Obligations.RawAndShortLaneForms := by
  refine ⟨?_, ?_⟩
  · intro s t d a b k hu w raw signed lanesAre
    have hda : s.Unbound [d, a] := hu.sub (by simp)
    have hd : s.Unbound [d] := hu.sub (by simp)
    have od := s.operand_unbound d (hu d (by simp))
    have oa := s.operand_unbound a (hu a (by simp))
    have ob := s.operand_unbound b (hu b (by simp))
    refine ⟨s.rawLane_pair 4 d a b (· &&& ·) hu, s.rawLane_pair 4 d a b (· ||| ·) hu, s.rawLane_pair 4 d a b (· ^^^ ·) hu,
      s.laneMov_writes 4 t d a rfl hda, fun hf => ⟨s.laneSign_lanes 4 t d a false rfl hf hda, s.laneSign_lanes 4 t d a true rfl hf hda⟩,
      ?_, ?_, s.rawLane_broadcast 4 w t.lanes d [] _ _ hd rfl, fun _ => ?_, fun _ => ?_, fun _ => ?_⟩
    · refine s.rawLane_lanes 4 w t.lanes d [d, a] _ _ (hu.sub (by simp)) ?_
      rw [oa, od]
    · refine s.rawLane_lanes 4 w t.lanes d [a, b] _ _ hu ?_
      rw [oa, ob, lanes, List.map_map]
      rfl
    · refine (s.rawLane_lanes 4 w t.lanes d [d] _ _ (hu.sub (by simp)) ?_).congr (f := fun i =>
        (if i = k.val then (s.getX a).toNat % 2 ^ w else raw d i, 0)) (fun i _ => ?_) (fun _ _ => rfl)
      · rw [od, lanes_set]
      · dsimp only
        split
        · exact Nat.mod_mod _ _
        · rfl
    · refine s.runLane_x [a] d _ 0 _ (hu.sub (by simp)) ?_
      dsimp only
      rw [oa]
    · refine s.rawLane_lanes 4 64 4 d [a, d] _ _ (hu.sub (by simp)) ?_
      rw [oa, od, lanes_set]
      refine congrArg _ (List.map_congr_left fun i _ => ?_)
      split
      next h => rw [h]
      next => rfl
  · intro s bf d b hu t w mode raw x rounded lanesAre
    have hddb : s.Unbound [d, d, b] := hu.sub (by simp)
    have hf : t.float = true := halfType_float bf
    have ob := s.operand_unbound b (hu b (by simp))
    have hx (r : Reg) (i : Nat) : s.laneAt t r i = x r i := laneValue_float t hf _
    have hbin (op : Mode → Exact → Exact → Exact × Flags) :
        LanesTo s (.next (s.binLane plainMod 2 t d d b op)) 2 w t.lanes d (fun i => rounded (op mode (x d i) (x b i))) := by
      simpa only [s.resultOf_plain_float hf, hx] using s.binLane_results plainMod 2 t d d b op hddb
    have hun (op : Exact → Exact × Flags) :
        LanesTo s (.next (s.unLane plainMod 2 t d b op)) 2 w t.lanes d (fun i => rounded (op (x b i))) := by
      simpa only [s.resultOf_plain_float hf, hx] using s.unLane_results plainMod 2 t d b op hu
    have hfill : 256 / w = t.lanes := lanes_fill t
    refine ⟨hbin _, hbin _, hbin _, hbin _, hbin _, hun _, hun _, hun _, s.laneSign_lanes 2 t d b false rfl hf hu,
      s.laneSign_lanes 2 t d b true rfl hf hu, s.rawLane_broadcast 2 w t.lanes d [b] _ _ hu ?_, s.laneMov_writes 2 .f32 d b rfl hu,
      s.rawLane_pair 2 d d b (· &&& ·) hddb, s.rawLane_pair 2 d d b (· ||| ·) hddb, s.rawLane_pair 2 d d b (· ^^^ ·) hddb,
      s.rawLane_writes 2 [] d _ 0 (hu.sub (by simp)) rfl⟩
    rw [← hfill, ob]
    rfl

end Sys2Proof.Machine
end

section
/-!
PROOF. Lane compares, reductions and dot products (O14).
-/
namespace Sys2Proof.Machine
open Sys2Proof

/-! ### Masks and flags of a compare (R97) -/

theorem maskOf_testBit (l : List Bool) : ∀ i, (maskOf l).testBit i = l.getD i false := by
  induction l with
  | nil => intro i; simp [maskOf]
  | cons b r ih =>
    intro i
    cases i with
    | zero => cases b <;> simp [maskOf, Nat.testBit_zero]
    | succ i =>
      have hhalf : (b.toNat + 2 * maskOf r) / 2 = maskOf r := by cases b <;> simp [Nat.add_mul_div_left]
      rw [maskOf, Nat.testBit_succ, hhalf, ih i]
      rfl

theorem orFlags_snan (xs : List Exact) : orFlags (xs.map Exact.snan) = if .nan true ∈ xs then nv else 0 := by
  rw [orFlags, List.foldl_map, foldl_snan]
  exact BitVec.zero_or

/-- A compare writes its mask, and raises nv for a signalling NaN. -/
theorem State.laneCmp_writes (s : State) (t : LaneType) (d a b : Reg) (p : Option Ordering → Bool) (hu : s.Unbound [a, b]) :
    WritesXFlags s (.next (s.laneCmp t d a b p)) d
      (BitVec.ofNat 64 (maskOf ((List.range t.lanes).map (fun i => p ((s.laneAt t a i).cmp (s.laneAt t b i))))))
      (if ∃ i < t.lanes, s.laneAt t a i = .nan true ∨ s.laneAt t b i = .nan true then nv else 0) := by
  refine s.runLane_x [a, b] d _ _ _ hu ?_
  dsimp only
  rw [s.laneValues_operand t a (hu a (by simp)), s.laneValues_operand t b (hu b (by simp)), zipWith_range, orFlags_snan]
  congr 1
  refine if_congr ?_ rfl rfl
  simp only [List.mem_append, List.mem_map, List.mem_range, ← exists_or, ← and_or_left]

theorem range_mask_bit {n i : Nat} (f : Nat → Bool) (hi : i < 64) :
    (BitVec.ofNat 64 (maskOf ((List.range n).map f))).getLsbD i = true ↔ i < n ∧ f i = true := by
  rw [BitVec.getLsbD_ofNat, maskOf_testBit]
  by_cases hn : i < n <;> simp [hi, hn]

/-! ### Trees of neighbours (R63) -/

/-- The value at place `i` of level `n` of a tree: below it stand two neighbours, and the leaves are given. -/
def pairTree {α : Type} (f : α → α → α) (g : Nat → α) : Nat → Nat → α
  | 0, i => g i
  | n + 1, i => f (pairTree f g n (2 * i)) (pairTree f g n (2 * i + 1))

section
variable {α β : Type} (f : α → α → α) (g : Nat → α)

theorem pairTree_rec (n : Nat) :
    pairTree f g n = Nat.rec (motive := fun _ => Nat → α) g (fun _ h i => f (h (2 * i)) (h (2 * i + 1))) n := by
  induction n with
  | zero => rfl
  | succ n ih => funext i; rw [pairTree, ih]

/-- A tree over the lowest level of a tree is one level higher. -/
theorem pairTree_lowest (n : Nat) : ∀ i, pairTree f (pairTree f g 1) n i = pairTree f g (n + 1) i := by
  induction n with
  | zero => exact fun _ => rfl
  | succ n ih => intro i; rw [pairTree, ih, ih]; rfl

/-- What holds of the leaves and of what two neighbours combine to holds of the root. -/
theorem pairTree_related {f' : β → β → β} {g' : Nat → β} (R : α → β → Prop) (hf : ∀ u v u' v', R u u' → R v v' → R (f u v) (f' u' v'))
    (hg : ∀ i, R (g i) (g' i)) (n : Nat) : ∀ i, R (pairTree f g n i) (pairTree f' g' n i) := by
  induction n with
  | zero => exact hg
  | succ n ih => exact fun i => hf _ _ _ _ (ih _) (ih _)

/-- Where one of two neighbours is taken, the root is a leaf. -/
theorem pairTree_leaf (hf : ∀ u v, f u v = u ∨ f u v = v) (n : Nat) : ∀ i, ∃ j < 2 ^ n, pairTree f g n i = g (2 ^ n * i + j) := by
  induction n with
  | zero => exact fun i => ⟨0, by simp, by simp [pairTree]⟩
  | succ n ih =>
    intro i
    have hpow : 2 ^ (n + 1) = 2 * 2 ^ n := Nat.pow_succ'
    rw [pairTree]
    rcases hf (pairTree f g n (2 * i)) (pairTree f g n (2 * i + 1)) with h | h
    · obtain ⟨j, hj, hv⟩ := ih (2 * i)
      exact ⟨j, by omega, by rw [h, hv, hpow]; congr 1; ring⟩
    · obtain ⟨j, hj, hv⟩ := ih (2 * i + 1)
      exact ⟨2 ^ n + j, by omega, by rw [h, hv, hpow]; congr 1; ring⟩

/-- Where each of two neighbours is related to what they combine to, every leaf is to the root. -/
theorem pairTree_bounds (r : α → α → Prop) (hrefl : ∀ u, r u u) (htrans : ∀ u v w, r u v → r v w → r u w)
    (hf : ∀ u v, r u (f u v) ∧ r v (f u v)) (n : Nat) : ∀ i, ∀ j < 2 ^ n, r (g (2 ^ n * i + j)) (pairTree f g n i) := by
  induction n with
  | zero =>
    intro i j hj
    obtain rfl : j = 0 := by simpa using hj
    simpa [pairTree] using hrefl (g i)
  | succ n ih =>
    intro i j hj
    have hpow : 2 ^ (n + 1) = 2 * 2 ^ n := Nat.pow_succ'
    have hboth := hf (pairTree f g n (2 * i)) (pairTree f g n (2 * i + 1))
    by_cases hlow : j < 2 ^ n
    · rw [show 2 ^ (n + 1) * i + j = 2 ^ n * (2 * i) + j by rw [hpow]; ring]
      exact htrans _ _ _ (ih (2 * i) j hlow) hboth.1
    · rw [show 2 ^ (n + 1) * i + j = 2 ^ n * (2 * i + 1) + (j - 2 ^ n) by
        obtain ⟨k, rfl⟩ := Nat.exists_eq_add_of_le (Nat.le_of_not_lt hlow)
        rw [hpow, Nat.add_sub_cancel_left]
        ring]
      exact htrans _ _ _ (ih (2 * i + 1) (j - 2 ^ n) (by omega)) hboth.2

/-- A tree of sums is the sum of its leaves. -/
theorem pairTree_sum (g : Nat → Int) (n : Nat) : ∀ i, pairTree (· + ·) g n i = ((List.range (2 ^ n)).map (fun j => g (2 ^ n * i + j))).sum := by
  induction n with
  | zero => intro i; simp [pairTree]
  | succ n ih =>
    intro i
    have hpow : 2 ^ (n + 1) = 2 ^ n + 2 ^ n := by rw [Nat.pow_succ']; ring
    rw [pairTree, ih, ih, hpow, List.range_add, List.map_append, List.sum_append, List.map_map]
    congr 3 <;> funext j
    · congr 1; ring
    · show g _ = g _
      congr 1; ring

end

theorem treeLevel_range (c : Exact → Exact → Exact × Flags) (n : Nat) : ∀ g : Nat → Exact,
    (treeLevel c ((List.range (2 * n)).map g)).1 = (List.range n).map (pairTree (fun u v => (c u v).1) g 1) := by
  induction n with
  | zero => exact fun _ => rfl
  | succ n ih =>
    intro g
    rw [Nat.mul_succ, List.range_succ_eq_map, List.range_succ_eq_map, List.range_succ_eq_map]
    simp only [List.map_cons, List.map_map, treeLevel]
    have h := ih (fun i => g (i + 2))
    exact congrArg _ (h.trans (List.map_congr_left fun i _ => rfl))

/-- The model's tree over the lanes, by places. -/
theorem treeFold_range (c : Exact → Exact → Exact × Flags) (n : Nat) : ∀ g : Nat → Exact,
    (treeFold c n ((List.range (2 ^ n)).map g)).1 = pairTree (fun u v => (c u v).1) g n 0 := by
  induction n with
  | zero => exact fun _ => rfl
  | succ n ih =>
    intro g
    rw [treeFold, Nat.pow_succ']
    dsimp only
    rw [treeLevel_range, ih, pairTree_lowest]

theorem lanes_treeLevels (t : LaneType) : t.lanes = 2 ^ treeLevels t := by cases t <;> rfl

/-! ### Integer reductions -/

theorem sgn_modEq (w v : Nat) : sgn w v ≡ v [ZMOD 2 ^ w] := by
  unfold sgn
  split
  · rfl
  · exact (Int.modEq_sub_modulus_iff.2 rfl).symm

theorem wrap_modEq (w : Nat) (v : Int) : (wrap w v : Int) ≡ v [ZMOD 2 ^ w] := by
  unfold wrap
  rw [Int.toNat_of_nonneg (Int.emod_nonneg _ (by positivity))]
  exact Int.mod_modEq _ _

/-- A value is an integer that wraps as `v` does. -/
def Exact.SpellsMod (w : Nat) (x : Exact) (v : Int) : Prop := ∃ k, x.Spells k ∧ k ≡ v [ZMOD 2 ^ w]

theorem addStep_spellsMod {t : LaneType} (ht : t.integer = true) (c : Ctx) {x y : Exact} {u v : Int} (hx : x.SpellsMod (laneBits t) u)
    (hy : y.SpellsMod (laneBits t) v) : (addStep c t x y).1.SpellsMod (laneBits t) (u + v) := by
  obtain ⟨k, hk, hku⟩ := hx
  obtain ⟨l, hl, hlv⟩ := hy
  have hsum : (addStep c t x y).1 = laneValue t (resultOf c plainMod t (Exact.add c.mode x y)).1 := rfl
  rw [hsum, resultOf_pureInt c ht (PureInt.add hk hl c.mode), laneValue_int ht]
  exact ⟨_, Exact.spells_ofInt _, (sgn_modEq _ _).trans ((wrap_modEq _ _).trans (hku.add hlv))⟩

section
variable (s : State) (t : LaneType) (d a b : Reg)

/-- A reduction writes the root of its tree (R63). -/
theorem State.laneReduce_tree (combine : Exact → Exact → Exact × Flags) (h : s.Unbound [d, a]) :
    ∃ r, r.1 = pairTree (fun u v => (combine u v).1) (s.laneAt t a) (treeLevels t) 0
      ∧ WritesF s (.next (s.laneReduce plainMod 4 t d a combine)) 4 d (BitVec.ofNat 256 (resultOf (s.laneCtx plainMod) plainMod t r).1)
        (resultOf (s.laneCtx plainMod) plainMod t r).2 := by
  refine ⟨_, ?_, s.laneReduce_writes plainMod 4 t d a combine h⟩
  rw [lanes_treeLevels, treeFold_range]

/-- The root of a reduction of floating lanes is rounded to their type (R63). -/
theorem State.laneReduce_float (ht : t.float = true) (combine : Exact → Exact → Exact × Flags) (h : s.Unbound [d, a]) :
    ∃ fl, WritesF s (.next (s.laneReduce plainMod 4 t d a combine)) 4 d (BitVec.ofNat 256 ((fmtOf t).round s.th.rmode false
      (pairTree (fun u v => (combine u v).1) (s.laneAt t a) (treeLevels t) 0)).1) fl := by
  obtain ⟨r, hr, hw⟩ := s.laneReduce_tree t d a combine h
  rw [s.resultOf_plain_float ht, hr] at hw
  exact ⟨_, hw⟩

/-- The root of a reduction of integer lanes wraps. -/
theorem State.laneReduce_int (ht : t.integer = true) (combine : Exact → Exact → Exact × Flags) (h : s.Unbound [d, a]) {v : Int}
    (hv : (pairTree (fun u v => (combine u v).1) (s.laneAt t a) (treeLevels t) 0).Spells v) :
    ∃ fl, WritesF s (.next (s.laneReduce plainMod 4 t d a combine)) 4 d (BitVec.ofNat 256 (wrap (laneBits t) v)) fl := by
  obtain ⟨r, hr, hw⟩ := s.laneReduce_tree t d a combine h
  rw [resultOf_spells _ ht (hr.symm ▸ hv)] at hw
  exact ⟨_, hw⟩

/-- `vredmax` and `vredmin` of integer lanes find a lane that bounds all (R99). -/
theorem State.laneReducePick_int (ht : t.integer = true) (greater : Bool) (h : s.Unbound [d, a]) :
    let x (i : Nat) : Int := sgn (laneBits t) (lane (laneBits t) (s.getF a) i)
    ∃ v : Int, (∃ fl, WritesF s (.next (s.laneReducePick plainMod 4 greater t d a)) 4 d (BitVec.ofNat 256 (wrap (laneBits t) v)) fl)
      ∧ (∃ i < t.lanes, v = x i) ∧ ∀ i < t.lanes, if greater then x i ≤ v else v ≤ x i := by
  intro x
  let op (u v : Int) : Int := if greater then max u v else min u v
  have hspells := pairTree_related (fun u v => (Exact.pick greater u v).1) (s.laneAt t a) (f' := op) (g' := x) Exact.Spells
    (fun _ _ _ _ hu hv => (PureInt.pick hu hv greater).1) (s.laneAt_spells ht a) (treeLevels t) 0
  have hleaf := pairTree_leaf op x (fun u v => by cases greater; exacts [min_choice u v, max_choice u v]) (treeLevels t) 0
  have hbound := pairTree_bounds op x (fun u v => if greater then u ≤ v else v ≤ u) (fun u => by simp)
    (fun u v w huv hvw => by cases greater; exacts [le_trans hvw huv, le_trans huv hvw])
    (fun u v => by cases greater; exacts [⟨min_le_left u v, min_le_right u v⟩, ⟨le_max_left u v, le_max_right u v⟩]) (treeLevels t) 0
  simp only [Nat.mul_zero, Nat.zero_add, ← lanes_treeLevels] at hleaf hbound
  exact ⟨_, s.laneReduce_int t d a ht _ h hspells, hleaf, hbound⟩

end

/-- The products of two registers' integer lanes, and their sum. -/
theorem State.dot_spells (s : State) {t : LaneType} (ht : t.integer = true) (a b : Reg) (mode : Mode) :
    (sumNums mode ((List.range t.lanes).map (fun i => (Exact.mul (s.laneAt t a i) (s.laneAt t b i)).1))).1.Spells
      ((List.range t.lanes).map (fun i =>
        sgn (laneBits t) (lane (laneBits t) (s.getF a) i) * sgn (laneBits t) (lane (laneBits t) (s.getF b) i))).sum := by
  refine (PureInt.sum ?_ mode).1
  rw [List.forall₂_map_left_iff, List.forall₂_map_right_iff, List.forall₂_same]
  exact fun i _ => (PureInt.mul (s.laneAt_spells ht a i) (s.laneAt_spells ht b i)).1

/-- Settles O14: masks bit by bit (`range_mask_bit`), reductions by their trees (`treeFold_range`), and dot products by their exact sum. -/
theorem comparesAndReductions : Obligations.ComparesAndReductions := by
  refine ⟨?_, ?_⟩
  · intro s t d a b _ hu x masks
    have hmask (j : Instr) (q : Option Ordering → Bool) (p : Nat → Prop) (hj : exec j s = .next (s.laneCmp t d a b q))
        (hq : ∀ i, q ((x a i).cmp (x b i)) = true ↔ p i) : masks j p :=
      ⟨_, _, hj ▸ s.laneCmp_writes t d a b q hu, fun i hi => (range_mask_bit _ hi).trans (and_congr_right fun _ => hq i), if_congr Iff.rfl rfl rfl⟩
    exact ⟨hmask _ _ _ rfl fun i => by simp, hmask _ _ _ rfl fun i => by simp, hmask _ _ _ rfl fun i => by simp, hmask _ _ _ rfl fun i => by simp⟩
  · intro s t d a b hu w mode raw x levels tree gives
    have ha : s.Unbound [d, a] := hu.sub (by simp)
    have htree (f : Exact → Exact → Exact) : tree f (x a) levels 0 = pairTree f (s.laneAt t a) (treeLevels t) 0 := by
      rw [pairTree_rec]
      cases t <;> rfl
    have hdot : ∃ fl, WritesF s (exec (.vdot t d a b) s) 4 d (BitVec.ofNat 256 (resultOf (s.laneCtx plainMod) plainMod (dotType t)
        (sumNums mode ((List.range t.lanes).map (fun i => (Exact.mul (s.laneAt t a i) (s.laneAt t b i)).1)))).1) fl := by
      have h := s.laneDot_writes plainMod 4 t d a b hu
      simp only [List.map_map] at h
      exact ⟨_, h⟩
    have hfloat (j : Instr) (combine : Exact → Exact → Exact × Flags) (f : Exact → Exact → Exact) (ht : t.float = true)
        (hj : exec j s = .next (s.laneReduce plainMod 4 t d a combine)) (hf : ∀ u v, (combine u v).1 = f u v) :
        gives j ((fmtOf t).round mode false (tree f (x a) levels 0)).1 := by
      have h := s.laneReduce_float t d a ht combine ha
      rw [show (fun u v => (combine u v).1) = f from funext fun u => funext (hf u), ← htree f, ← hj] at h
      exact h
    refine ⟨fun ht => ⟨hfloat _ _ (fun u v => (fmtOf t).unpack ((fmtOf t).round mode false (Exact.add mode u v).1).1) ht rfl fun u v => ?_,
      hfloat _ _ _ ht rfl fun _ _ => rfl,
      hfloat _ _ _ ht rfl fun _ _ => rfl⟩,
      fun ht => ⟨?_, ?_, ?_⟩, fun ht => ?_, ?_⟩
    · unfold addStep
      dsimp only
      rw [resultLane_float _ t ht, laneValue_float t ht]
      rfl
    · obtain ⟨k, hk, hmod⟩ := pairTree_related _ (s.laneAt t a) (Exact.SpellsMod w)
        (fun _ _ _ _ hu hv => addStep_spellsMod ht (s.laneCtx plainMod) hu hv)
        (fun i => ⟨_, s.laneAt_spells ht a i, rfl⟩) (treeLevels t) 0
      rw [pairTree_sum, ← lanes_treeLevels] at hmod
      simp only [Nat.mul_zero, Nat.zero_add] at hmod
      have hwrap : wrap w k = wrap w ((List.range t.lanes).map (fun i => sgn w (raw a i))).sum := congrArg Int.toNat hmod
      rw [← hwrap]
      exact s.laneReduce_int t d a ht _ ha hk
    · exact s.laneReducePick_int t d a ht true ha
    · exact s.laneReducePick_int t d a ht false ha
    · have hf : dotType t = .f32 := by rcases ht with rfl | rfl | rfl <;> rfl
      rw [hf, s.resultOf_plain_float rfl] at hdot
      exact hdot
    · rintro rfl
      rw [show dotType .i8 = .i32 from rfl, resultOf_spells _ rfl (s.dot_spells (t := .i8) rfl a b mode)] at hdot
      exact hdot

end Sys2Proof.Machine
end

section
/-!
PROOF. What a lane instruction changes whose registers are bound to a stream (O17): the frame of stores to local memory, and the retirement.
-/
namespace Sys2Proof.Machine
open Sys2Proof

/-! ### Stores -/

/-- Beside local memory and what is remembered of writes, everything stands. -/
def StoresOnly (s t : State) : Prop := t = { s with loc := t.loc, locPast := t.locPast, memPast := t.memPast, now := t.now }

theorem StoresOnly.refl (s : State) : StoresOnly s s := rfl

theorem StoresOnly.trans {s u t : State} (h : StoresOnly s u) (g : StoresOnly u t) : StoresOnly s t := by
  unfold StoresOnly at *
  rw [g, h]

theorem StoresOnly.th {s t : State} (h : StoresOnly s t) : t.th = s.th := by rw [h]

theorem StoresOnly.foldl {α : Type} {f : State → α → State} (hf : ∀ s x, StoresOnly s (f s x)) (l : List α) : ∀ s, StoresOnly s (l.foldl f s) := by
  induction l with
  | nil => exact StoresOnly.refl
  | cons x r ih => exact fun s => (hf s x).trans (ih _)

theorem State.noteKey_storesOnly (s : State) (v : View) (key : Nat) (mask : BitVec 8) : StoresOnly s (s.noteKey v key mask) := by
  unfold StoresOnly State.noteKey State.fire
  split <;> rfl

theorem State.putPart_storesOnly (s : State) (v : View) (la : Nat) (bs : List Byte) : StoresOnly s (s.putPart v la bs) := by
  have hnotes := StoresOnly.foldl (fun u (k : Nat × BitVec 8) => State.noteKey_storesOnly u v k.1 k.2) (s.wordKeys v la bs.length) s
  obtain ⟨m, hm⟩ := State.writeLoc_frame ⟨v.slot, v.ident, false, false, 0⟩ bs
    ((s.wordKeys v la bs.length).foldl (fun u k => u.noteKey v k.1 k.2) s) la
  refine hnotes.trans ?_
  unfold StoresOnly State.putPart
  dsimp only
  rw [hm]

theorem State.putLoc_storesOnly (s : State) (v : View) (la : Nat) (bs : List Byte) : StoresOnly s (s.putLoc v la bs) := by
  unfold State.putLoc
  dsimp only
  split
  · exact (s.putPart_storesOnly v la _).trans (State.putPart_storesOnly _ v _ _)
  · exact s.putPart_storesOnly v la bs

/-- A block that is written to a stream is stored to local memory. -/
theorem State.putBlock_storesOnly (s : State) (st : Stream) (k : Nat) (v : LaneReg) : StoresOnly s (s.putBlock st k v) :=
  StoresOnly.foldl (fun _ _ => State.putLoc_storesOnly _ _ _ _) _ s

/-! ### The retirement -/

/-- Beside f registers, flags and streams of the thread at hand, local memory and what is remembered of writes, everything stands. -/
def LaneFrame (s u : State) : Prop :=
  u = { s with
    th := { s.th with f := u.th.f, live := u.th.live, fflags := u.th.fflags, streams := u.th.streams }
    loc := u.loc, locPast := u.locPast, memPast := u.memPast, now := u.now }

/-- The retirement of an instruction that has made a state of another. -/
structure LaneRetires (s u t : State) (len : Nat) : Prop where
  f : t.th.f = u.th.f
  x : t.th.x = s.th.x
  fflags : t.th.fflags = u.th.fflags
  streams : t.th.streams = u.th.streams
  retires : Retires s t len
  loc : t.loc = u.loc
  locPast : t.locPast = u.locPast
  memPast : t.memPast = u.memPast
  now : t.now = u.now
  frame : t = { s with
    th := t.th, loc := t.loc, locPast := t.locPast, memPast := t.memPast, now := t.now
    usage := (s.use s.th.ident.vf 0 1).usage, launches := s.launchesCounted }

theorem LaneFrame.retire {s u : State} (h : LaneFrame s u) (len : Nat) : LaneRetires s u (u.retire len) len := by
  obtain ⟨hpc, hret, hout, -⟩ := u.retire_spec len
  generalize u.retire len = t at *
  unfold LaneFrame at h
  generalize u.th.f = f, u.th.live = l, u.th.fflags = fl, u.th.streams = ss, u.loc = m, u.locPast = p, u.memPast = q, u.now = n at h
  subst h
  unfold KeepsBesidePc at hpc
  unfold KeepsOutside at hout
  have hloc : t.loc = m := by rw [hout]
  have hlocPast : t.locPast = p := by rw [hout]
  have hmemPast : t.memPast = q := by rw [hout]
  have hnow : t.now = n := by rw [hout]
  refine ⟨by rw [hpc], by rw [hpc], by rw [hpc], by rw [hpc], hret, hloc, hlocPast, hmemPast, hnow, ?_⟩
  rw [hloc, hlocPast, hmemPast, hnow]
  exact hout

/-- Where no byte was stored, only the thread at hand has changed. -/
theorem LaneRetires.keeps {s u t : State} {len : Nat} (h : LaneRetires s u t len) (hu : u = { s with th := u.th }) :
    KeepsOutside s t ∧ KeepsBytes s t := by
  have hloc : t.loc = s.loc := h.loc.trans (by rw [hu])
  have hlocPast : t.locPast = s.locPast := h.locPast.trans (by rw [hu])
  have hmemPast : t.memPast = s.memPast := h.memPast.trans (by rw [hu])
  have hnow : t.now = s.now := h.now.trans (by rw [hu])
  have hframe := h.frame
  rw [hloc, hlocPast, hmemPast, hnow] at hframe
  exact ⟨hframe, fun a => ⟨by rw [hframe], by rw [hframe]⟩⟩

end Sys2Proof.Machine
end

section
/-!
PROOF. A lane instruction that names the register of a stream (O17): its checks, its block, and the position (R95, R109).
-/
namespace Sys2Proof.Machine
open Sys2Proof

/-! ### The block that is read -/

theorem joinLanes_concat (w : Nat) (l : List Nat) (x : Nat) : joinLanes w (l ++ [x]) = joinLanes w l + 2 ^ (w * l.length) * (x % 2 ^ w) := by
  induction l with
  | nil => simp [joinLanes]
  | cons y r ih =>
    rw [List.cons_append, joinLanes, joinLanes, ih, List.length_cons, Nat.mul_succ, Nat.pow_add]
    ring

/-- Elements of `w` bits, each added at its place, are lanes. -/
theorem foldl_places (w : Nat) (p : Nat → Bool) (e : Nat → Nat) (he : ∀ j, e j < 2 ^ w) (n : Nat) :
    ((List.range n).filter p).foldl (fun b j => b + e j * 2 ^ (w * j)) 0 = joinLanes w ((List.range n).map (fun j => if p j then e j else 0)) := by
  induction n with
  | zero => rfl
  | succ n ih =>
    rw [List.range_succ, List.filter_append, List.foldl_append, ih, List.map_append, List.map_singleton, joinLanes_concat, List.length_map,
      List.length_range]
    cases hp : p n
    · simp [hp]
    · simp [hp, Nat.mod_eq_of_lt (he n), Nat.mul_comm]

/-- Element number `e` of a stream, as a block that is read holds it (R113). -/
def State.element (s : State) (st : Stream) (e : Nat) : Nat :=
  natOf ((List.range (streamBytes st.type)).map (fun q => s.streamByte st ((st.addr e).toNat + q)))

theorem State.element_lt (s : State) (st : Stream) (e : Nat) : s.element st e < 2 ^ (8 * streamBytes st.type) := by
  have h := natOf_lt ((List.range (streamBytes st.type)).map (fun q => s.streamByte st ((st.addr e).toNat + q)))
  rw [List.length_map, List.length_range] at h
  rwa [Nat.pow_mul]

/-- The lanes of a block: the elements below the limit, and zero from there up (R109). -/
theorem State.block_lanes (s : State) (st : Stream) : s.block st = ofLanes (8 * streamBytes st.type)
    ((List.range st.per).map (fun j => if st.pos.toNat + j < st.limit.toNat then s.element st (st.pos.toNat + j) else 0)) := by
  have h := foldl_places (8 * streamBytes st.type) (fun j => decide (st.pos.toNat + j < st.limit.toNat)) (fun j => s.element st (st.pos.toNat + j))
    (fun j => s.element_lt st _) st.per
  simp only [decide_eq_true_eq] at h
  unfold State.block Stream.moved ofLanes
  dsimp only
  rw [List.foldl_map, ← h]
  rfl

theorem Stream.per_mul (st : Stream) : st.per = 256 / (8 * streamBytes st.type) := (Nat.mul_div_mul_left 32 _ (by decide : 0 < 8)).symm

theorem State.lane_block (s : State) (st : Stream) {j : Nat} (hj : j < st.per) : lane (8 * streamBytes st.type) (s.block st) j =
    if st.pos.toNat + j < st.limit.toNat then s.element st (st.pos.toNat + j) else 0 := by
  rw [s.block_lanes, lane_ofLanes _ _ _ (lane_inside _ _ (st.per_mul ▸ hj))]
  have hget : ((List.range st.per).map (fun j => if st.pos.toNat + j < st.limit.toNat then s.element st (st.pos.toNat + j) else 0)).getD j 0 =
      if st.pos.toNat + j < st.limit.toNat then s.element st (st.pos.toNat + j) else 0 := by simp [List.getD, hj]
  rw [hget]
  refine Nat.mod_eq_of_lt ?_
  split
  · exact s.element_lt st _
  · exact Nat.two_pow_pos _

/-- Where no write is remembered, the bytes of a stream are those that stand. -/
theorem State.streamByte_settled {s : State} (h : s.locPast = []) (st : Stream) (la : Nat) : s.streamByte st la = s.readLoc1 s.th.owner la := by
  unfold State.streamByte State.readLoc1
  dsimp only
  rw [h, show s.keyOf (s.th.streamView st) la = locKey s.th.owner.slot (s.grantOf s.th.owner.ident) la from rfl]
  cases locKey s.th.owner.slot (s.grantOf s.th.owner.ident) la <;> rfl

/-! ### At the end of a stream -/

theorem Stream.moved_end {st : Stream} (h : st.limit.toNat ≤ st.pos.toNat) (k : Nat) : st.moved k = [] := by
  unfold Stream.moved
  rw [List.filter_eq_nil_iff.2 fun j _ => by simp; omega]
  rfl

theorem State.block_end (s : State) {st : Stream} (h : st.limit.toNat ≤ st.pos.toNat) : s.block st = 0 := by
  unfold State.block
  rw [Stream.moved_end h]
  rfl

theorem State.putBlock_end (s : State) {st : Stream} (h : st.limit.toNat ≤ st.pos.toNat) (k : Nat) (v : LaneReg) : s.putBlock st k v = s := by
  unfold State.putBlock
  rw [Stream.moved_end h]
  rfl

theorem Stream.advance_end {st : Stream} (h : st.limit.toNat ≤ st.pos.toNat) (k : Nat) : st.advance k = st := if_neg (not_lt.2 h)

/-! ### The checks -/

theorem State.transferFault_none {s : State} {ts : List (Stream × Nat)} :
    s.transferFault ts = none ↔ ∀ t ∈ ts, s.movedOutside t.1 t.2 = none ∧ s.movedGone t.1 t.2 = none := by
  unfold State.transferFault
  constructor
  · intro h
    split at h
    next => cases h
    next hout =>
      have hgone := Option.map_eq_none_iff.1 h
      exact fun t ht => ⟨List.findSome?_eq_none_iff.1 hout t ht, List.findSome?_eq_none_iff.1 hgone t ht⟩
  · intro h
    rw [List.findSome?_eq_none_iff.2 fun t ht => (h t ht).1, List.findSome?_eq_none_iff.2 fun t ht => (h t ht).2]
    rfl

theorem State.streamOf_eq_some {s : State} {r : Reg} {k : Fin 4} {st : Stream} :
    s.streamOf r = some (k, st) ↔ r.val = k.val + 28 ∧ s.th.streams[k] = some st := by
  unfold State.streamOf
  constructor
  · intro h
    split at h
    next h28 =>
      obtain ⟨st', hst, hk⟩ := Option.map_eq_some_iff.1 h
      obtain ⟨rfl, rfl⟩ := Prod.mk.inj hk
      exact ⟨by simp; omega, hst⟩
    next => cases h
  · rintro ⟨hr, hst⟩
    obtain ⟨k, hk⟩ := k
    obtain ⟨r, hr32⟩ := r
    dsimp only at hr
    subst hr
    rw [dif_pos (Nat.le_add_left 28 k)]
    exact Option.map_eq_some_iff.2 ⟨st, hst, rfl⟩

/-- The stream of a register, where its direction is `n` (R111). -/
def State.against (s : State) (n : Nat) (r : Reg) : Option Nat :=
  match s.streamOf r with
  | some (k, st) => if st.dir.val = n then some k.val else none
  | none => none

/-- A register that is read is named against a stream that is written, and one that is written against a stream that is read. -/
theorem State.wrongWay_eq (s : State) (rs ws : List Reg) : s.wrongWay rs ws = (rs.findSome? (s.against 1)).or (ws.findSome? (s.against 0)) := by
  show (match rs.findSome? (s.against 1) with | some k => some k | none => ws.findSome? (s.against 0)) = _
  cases rs.findSome? (s.against 1) <;> rfl

theorem State.against_unbound {s : State} {rs : List Reg} (h : s.Unbound rs) (n : Nat) : rs.findSome? (s.against n) = none :=
  List.findSome?_eq_none_iff.2 fun r hr => by rw [State.against, h r hr]

theorem State.against_bound {s : State} {a : Reg} {k : Fin 4} {st : Stream} (ha : s.streamOf a = some (k, st)) (n : Nat) :
    s.against n a = if st.dir.val = n then some k.val else none := by rw [State.against, ha]

theorem State.wrongWay_reads {s : State} {a : Reg} {k : Fin 4} {st : Stream} (ha : s.streamOf a = some (k, st)) (hd : st.dir.val = 1)
    (rs ws : List Reg) : s.wrongWay (a :: rs) ws = some k.val := by
  rw [s.wrongWay_eq, List.findSome?_cons, State.against_bound ha, if_pos hd]
  rfl

theorem State.wrongWay_writes {s : State} {a : Reg} {k : Fin 4} {st : Stream} (ha : s.streamOf a = some (k, st)) (hd : st.dir.val = 0)
    {rs : List Reg} (hr : s.Unbound rs) : s.wrongWay rs [a] = some k.val := by
  rw [s.wrongWay_eq, State.against_unbound hr, List.findSome?_cons, State.against_bound ha, if_pos hd]
  rfl

/-- A stream named against its direction traps before anything else happens. -/
theorem State.runLane_wrongWay {s : State} {len k : Nat} {rs ws : List Reg} {f : (Reg → LaneReg) → LaneOut} (h : s.wrongWay rs ws = some k) :
    s.runLane len rs ws f = s.trap 0x0D k := by
  unfold State.runLane
  rw [h]

/-! ### One stream named -/

section
variable {s : State} {a : Reg} {k : Fin 4} {st : Stream}

/-- Of the registers of a list, `a` alone is bound to a stream. -/
def State.BoundOnly (s : State) (a : Reg) (rs : List Reg) : Prop := ∀ r ∈ rs, r = a ∨ s.streamOf r = none

theorem State.BoundOnly.against {rs : List Reg} {n : Nat} (h : s.BoundOnly a rs) (ha : s.streamOf a = some (k, st)) (hd : a ∈ rs → st.dir.val ≠ n) :
    rs.findSome? (s.against n) = none := by
  refine List.findSome?_eq_none_iff.2 fun r hr => ?_
  rcases h r hr with rfl | hn
  · rw [State.against_bound ha, if_neg (hd hr)]
  · rw [State.against, hn]

theorem State.BoundOnly.blockFault {rs : List Reg} (h : s.BoundOnly a rs) (ha : s.streamOf a = some (k, st))
    (hf : s.transferFault [(st, st.per)] = none) : s.blockFault rs = none := by
  refine State.transferFault_none.2 fun t ht => ?_
  obtain ⟨r, hr, hm⟩ := List.mem_filterMap.1 ht
  have hrt : t = (st, st.per) := by
    rcases h r hr with rfl | hn
    · rw [ha] at hm
      exact (Option.some.inj hm).symm
    · rw [hn] at hm
      cases hm
  exact hrt ▸ State.transferFault_none.1 hf _ (List.mem_singleton_self _)

/-- The position of the one stream named moves. -/
theorem State.BoundOnly.advance {rs : List Reg} (h : s.BoundOnly a rs) (ha : s.streamOf a = some (k, st)) (hm : a ∈ rs) {u : State}
    (hu : u.th.streams = s.th.streams) : (u.advanceStreams rs).th.streams = s.th.streams.set k (some (st.advance st.per)) := by
  obtain ⟨hak, hk⟩ := State.streamOf_eq_some.1 ha
  unfold State.advanceStreams
  dsimp only
  rw [hu]
  ext1 i hi
  rw [Vector.getElem_mapIdx, Vector.getElem_set]
  by_cases hik : k.val = i
  · have hany : rs.any (fun r => r.val == i + 28) = true := List.any_eq_true.2 ⟨a, hm, by simp [hak, hik]⟩
    subst hik
    rw [if_pos hany, if_pos rfl]
    exact (congrArg (Option.map _) hk).trans rfl
  · rw [if_neg hik]
    split
    next hany =>
      obtain ⟨r, hr, hv⟩ := List.any_eq_true.1 hany
      have hri : r.val = i + 28 := by simpa using hv
      rcases h r hr with rfl | hn
      · omega
      · cases hs : s.th.streams[i] with
        | none => rfl
        | some x =>
          have : s.streamOf r = some (⟨i, hi⟩, x) := State.streamOf_eq_some.2 ⟨hri, hs⟩
          rw [hn] at this
          cases this
    next => rfl

/-- What a lane instruction leaves of the stream that it names: its position has moved, the others stand, and the instruction has
retired (R95). -/
def State.Moves (s t : State) (k : Fin 4) (st : Stream) : Prop :=
  t.th.streams[k] = some (st.advance st.per) ∧ (∀ j : Fin 4, j ≠ k → t.th.streams[j] = s.th.streams[j]) ∧ Retires s t 4

theorem streams_set {s t : State} {k : Fin 4} {o : Option Stream} (h : t.th.streams = s.th.streams.set k o) :
    t.th.streams[k] = o ∧ ∀ j : Fin 4, j ≠ k → t.th.streams[j] = s.th.streams[j] := by
  rw [h]
  exact ⟨Vector.getElem_set_self _, fun j hj => Vector.getElem_set_ne _ _ fun he => hj (Fin.ext he.symm)⟩

/-- What a lane instruction leaves that writes the block of a stream: its elements are stored, f registers and physical memory stand, and
the stream moves (R95, R109). -/
structure State.Gives (s t : State) (k : Fin 4) (st : Stream) (v : LaneReg) : Prop where
  f : t.th.f = s.th.f
  moves : s.Moves t k st
  loc : t.loc = (s.putBlock st st.per v).loc
  locPast : t.locPast = (s.putBlock st st.per v).locPast
  memPast : t.memPast = (s.putBlock st st.per v).memPast
  now : t.now = (s.putBlock st st.per v).now
  frame : t = { s with
    th := t.th, loc := t.loc, locPast := t.locPast, now := t.now, memPast := (s.putBlock st st.per v).memPast
    usage := (s.use s.th.ident.vf 0 1).usage, launches := s.launchesCounted }

variable (ha : s.streamOf a = some (k, st)) (hf : s.transferFault [(st, st.per)] = none) (hacq : s.th.acquiring = false)
include ha hf hacq

/-- A lane instruction that names one stream, along its direction and with its block in a level, is not refused. -/
theorem State.runLane_bound {len : Nat} {rs ws : List Reg} {f : (Reg → LaneReg) → LaneOut} (hr : s.BoundOnly a rs) (hw : s.BoundOnly a ws)
    (hrd : a ∈ rs → st.dir.val ≠ 1) (hwd : a ∈ ws → st.dir.val ≠ 0) :
    s.runLane len rs ws f = s.deliverLane len (rs ++ ws) (f s.operand) := by
  have hall : s.BoundOnly a (rs ++ ws) := fun r hm => (List.mem_append.1 hm).elim (hr r) (hw r)
  unfold State.runLane
  rw [s.wrongWay_eq, hr.against ha hrd, hw.against ha hwd]
  dsimp only [Option.or]
  rw [hall.blockFault ha hf]
  dsimp only
  unfold State.whenStreams
  split
  · exact s.whenFree_go _ hacq
  · rfl

/-- A lane instruction that reads the block of a stream. -/
theorem State.runLane_takes {i : Instr} {rs : List Reg} {d : Reg} {f : (Reg → LaneReg) → LaneOut} {v : LaneReg} {fl : Flags}
    (hi : exec i s = .next (s.runLane 4 rs [d] f)) (har : a ∈ rs) (hr : s.BoundOnly a rs) (hd : s.streamOf d = none) (hdir : st.dir.val ≠ 1)
    (hv : f s.operand = ⟨some (d, v), none, fl⟩) :
    ∃ t, exec i s = .next t ∧ (∀ r, t.getF r = if r = d then v else s.getF r) ∧ s.Moves t k st
      ∧ KeepsOutside s t ∧ KeepsBytes s t := by
  have hw : s.BoundOnly a [d] := fun r hm => .inr (List.mem_singleton.1 hm ▸ hd)
  have hall : s.BoundOnly a (rs ++ [d]) := fun r hm => (List.mem_append.1 hm).elim (hr r) (hw r)
  have had : a ∉ [d] := fun h => by
    rw [List.mem_singleton.1 h, hd] at ha
    cases ha
  let u := ((s.setF d v).raise fl).advanceStreams (rs ++ [d])
  have hrun : s.runLane 4 rs [d] f = u.retire 4 := by
    rw [State.runLane_bound ha hf hacq hr hw (fun _ => hdir) (fun h => absurd h had), hv]
    unfold State.deliverLane State.writeF
    dsimp only
    rw [hd]
  have huframe : LaneFrame s u := rfl
  have ht : LaneRetires s u (u.retire 4) 4 := huframe.retire 4
  obtain ⟨hk, hothers⟩ := streams_set (ht.streams.trans (hall.advance ha (List.mem_append_left _ har) (u := (s.setF d v).raise fl) rfl))
  refine ⟨_, hi.trans (congrArg _ hrun), fun r => ?_, ⟨hk, hothers, ht.retires⟩, ht.keeps rfl⟩
  rw [State.getF, ht.f]
  exact s.getF_setF d r v

/-- A lane instruction that writes the block of a stream. -/
theorem State.runLane_gives {i : Instr} {rs : List Reg} {f : (Reg → LaneReg) → LaneOut} {v : LaneReg} {fl : Flags}
    (hi : exec i s = .next (s.runLane 4 rs [a] f)) (hr : s.BoundOnly a rs) (hrd : a ∈ rs → st.dir.val ≠ 1) (hdir : st.dir.val ≠ 0)
    (hv : f s.operand = ⟨some (a, v), none, fl⟩) :
    ∃ t, exec i s = .next t ∧ s.Gives t k st v := by
  let w := s.putBlock st st.per v
  have hw : s.BoundOnly a [a] := fun r hm => .inl (List.mem_singleton.1 hm)
  have hall : s.BoundOnly a (rs ++ [a]) := fun r hm => (List.mem_append.1 hm).elim (hr r) (hw r)
  let u := (w.raise fl).advanceStreams (rs ++ [a])
  have hrun : s.runLane 4 rs [a] f = u.retire 4 := by
    rw [State.runLane_bound ha hf hacq hr hw hrd (fun _ => hdir), hv]
    unfold State.deliverLane State.writeF
    dsimp only
    rw [ha]
  have hwframe : StoresOnly s w := s.putBlock_storesOnly st st.per v
  have hwf : w.th.f = s.th.f := by rw [hwframe.th]
  have hws : w.th.streams = s.th.streams := by rw [hwframe.th]
  have huframe : LaneFrame s u := by
    unfold LaneFrame u
    unfold StoresOnly at hwframe
    rw [hwframe]
    rfl
  have ht : LaneRetires s u (u.retire 4) 4 := huframe.retire 4
  obtain ⟨hk, hothers⟩ := streams_set (ht.streams.trans (hall.advance ha (List.mem_append_right _ List.mem_cons_self) (u := w.raise fl) hws))
  refine ⟨_, hi.trans (congrArg _ hrun), ht.f.trans hwf, ⟨hk, hothers, ht.retires⟩, ht.loc, ht.locPast, ht.memPast, ht.now, ?_⟩
  have hframe := ht.frame
  rw [ht.memPast] at hframe
  exact hframe

end

end Sys2Proof.Machine
end

section
/-!
PROOF. The stream instructions, and what reads and writes of a stream's register do (O17).
-/
namespace Sys2Proof.Machine
open Sys2Proof

/-! ### The record of a stream (R108, R111) -/

theorem streamBytes_cases : ∀ t : Fin 8, streamBytes t =
    if t.val = 0 ∨ t.val = 3 then 4 else if t.val = 1 ∨ t.val = 2 ∨ t.val = 4 then 2 else 1 := by decide

/-- The field of `len` bytes at offset `o` of a record. -/
def recordField (bs : List Byte) (o len : Nat) : Nat := natOf ((bs.drop o).take len)

/-- A record that R111 allows. -/
def GoodRecord (bs : List Byte) : Prop :=
  let n := recordField bs
  let ws := if n 12 1 = 0 ∨ n 12 1 = 3 then 4 else if n 12 1 = 1 ∨ n 12 1 = 2 ∨ n 12 1 = 4 then 2 else 1
  n 12 1 < 7 ∧ n 13 1 < 3 ∧ n 14 2 = 0 ∧ n 0 4 % ws = 0 ∧ n 8 4 % ws = 0

theorem toNat_recordField (bs : List Byte) (o : Nat) : (BitVec.ofNat 32 (recordField bs o 4)).toNat = recordField bs o 4 := by
  have hlt := natOf_lt ((bs.drop o).take 4)
  have hlen : ((bs.drop o).take 4).length ≤ 4 := List.length_take_le _ _
  have hpow : 256 ^ ((bs.drop o).take 4).length ≤ 256 ^ 4 := Nat.pow_le_pow_right (by decide) hlen
  rw [BitVec.toNat_ofNat]
  exact Nat.mod_eq_of_lt (lt_of_lt_of_le hlt hpow)

/-- The fields of a good record are those of its stream, at position 0. -/
theorem streamRecord_good {bs : List Byte} (h : GoodRecord bs) (since : Nat) : ∃ st, streamRecord bs since = some st
    ∧ st.base.toNat = recordField bs 0 4 ∧ st.limit.toNat = recordField bs 4 4 ∧ st.stride.toNat = recordField bs 8 4
    ∧ st.type.val = recordField bs 12 1 ∧ st.dir.val = recordField bs 13 1 ∧ st.pos = 0 ∧ st.since = since := by
  obtain ⟨hty, hdir, hres, hbase, hstride⟩ := h
  have hws := streamBytes_cases ⟨recordField bs 12 1, by omega⟩
  dsimp only at hws
  rw [← hws] at hbase hstride
  exact ⟨_, (dif_pos ⟨hty, hdir⟩).trans (if_pos ⟨hres, hbase, hstride⟩), toNat_recordField bs 0, toNat_recordField bs 4, toNat_recordField bs 8,
    rfl, rfl, rfl, rfl⟩

theorem streamRecord_bad {bs : List Byte} (h : ¬GoodRecord bs) (since : Nat) : streamRecord bs since = none := by
  by_cases hfields : recordField bs 12 1 < 7 ∧ recordField bs 13 1 < 3
  · have hws := streamBytes_cases ⟨recordField bs 12 1, by omega⟩
    dsimp only at hws
    refine (dif_pos hfields).trans (if_neg fun ⟨hres, hbase, hstride⟩ => h ⟨hfields.1, hfields.2, hres, ?_, ?_⟩)
    · exact hws ▸ hbase
    · exact hws ▸ hstride
  · exact dif_neg hfields

/-! ### Binding and unbinding (R110) -/

/-- Beside stream `k`, f registers and what retirement changes, everything stands. -/
def KeepsBesideStream (s t : State) (k : Fin 4) : Prop :=
  KeepsOutside s t ∧ KeepsBytes s t ∧ Retires s t 4 ∧ t.th.x = s.th.x ∧ t.th.fflags = s.th.fflags
    ∧ ∀ j : Fin 4, j ≠ k → t.th.streams[j] = s.th.streams[j]

theorem streamReg_iff (r : Reg) (k : Fin 4) : r = streamReg k ↔ r.val = 28 + k.val := by
  rw [Nat.add_comm]
  exact Fin.ext_iff

/-- A stream set and f registers changed, and the retirement. -/
theorem State.stream_retires (s : State) (k : Fin 4) (o : Option Stream) (f : Vector LaneReg 32) :
    let u := s.setStream k o
    let t := { u with th := { u.th with f := f } }.retire 4
    t.th.streams[k] = o ∧ KeepsBesideStream s t k ∧ t.th.f = f := by
  intro u t
  have hframe : LaneFrame s { u with th := { u.th with f := f } } := rfl
  have ht := hframe.retire 4
  obtain ⟨hk, hothers⟩ := streams_set (s := s) (k := k) (o := o) ht.streams
  obtain ⟨hout, hbytes⟩ := ht.keeps rfl
  exact ⟨hk, ⟨hout, hbytes, ht.retires, ht.x, ht.fflags, hothers⟩, ht.f⟩

/-- What `sbind` makes of the record at a local address (R110). -/
def State.bindRecord (s : State) (k : Fin 4) (la : Nat) : State :=
  ((streamRecord (s.seeLoc (s.th.view .core) la 16) s.now).map fun st => (s.setStream k (some st)).retire 4).getD (s.trap 0x0D k.val)

/-- The checks of `sbind` in their order. -/
theorem State.sbind_checks (s : State) (k : Fin 4) (a : Reg) :
    let la := (s.getX a).toNat
    exec (.sbind k a) s = .next (if s.th.streams[k].isSome then s.trap 0x0D k.val else if la % 16 ≠ 0 then s.trap 0x04 la
      else ((s.localFault s.th.owner la 16).map fun f => s.trap f.1 f.2).getD (s.whenFree fun s => s.bindRecord k la)) := by
  show execSbind k a s = _
  unfold execSbind
  refine congrArg Host.Outcome.next (if_congr Iff.rfl rfl (if_congr Iff.rfl rfl ?_))
  generalize s.localFault s.th.owner _ _ = o
  cases o with
  | some f => rfl
  | none =>
    dsimp only [Option.map_none, Option.getD_none]
    refine congrArg s.whenFree (funext fun u => ?_)
    unfold State.bindRecord
    cases streamRecord (u.seeLoc (u.th.view .core) (s.getX a).toNat 16) u.now <;> rfl

section
variable {s : State} {k : Fin 4}

theorem State.sbind_record {a : Reg} (hk : s.th.streams[k] = none) (hal : (s.getX a).toNat % 16 = 0)
    (hf : s.localFault s.th.owner (s.getX a).toNat 16 = none) :
    exec (.sbind k a) s = .next (s.whenFree fun s => s.bindRecord k (s.getX a).toNat) := by
  rw [s.sbind_checks, if_neg (by rw [hk]; decide), if_neg (not_not_intro hal), hf]
  rfl

/-- A stream that is not bound is not changed, told or unbound. -/
theorem State.unbound_traps {a d : Reg} (hk : s.th.streams[k] = none) : exec (.seos k a) s = .next (s.trap 0x0D k.val)
    ∧ exec (.sstat d k) s = .next (s.trap 0x0D k.val) ∧ exec (.sunbind k) s = .next (s.trap 0x0D k.val) := by
  refine ⟨?_, ?_, ?_⟩
  · show execSeos k a s = _
    rw [execSeos, hk]
  · show execSstat d k s = _
    rw [execSstat, hk]
  · show execSunbind k s = _
    rw [execSunbind, hk]

variable {st : Stream} (hk : s.th.streams[k] = some st)
include hk

theorem State.seos_bound (a : Reg) :
    exec (.seos k a) s = .next ((s.setStream k (some { st with limit := (s.getX a).setWidth 32 })).retire 4) := by
  show execSeos k a s = _
  rw [execSeos, hk]

theorem State.sstat_bound (d : Reg) : exec (.sstat d k) s = .next (s.result d (st.pos.setWidth 64)) := by
  show execSstat d k s = _
  rw [execSstat, hk]

theorem State.sunbind_bound : exec (.sunbind k) s =
    .next ({ s.setStream k none with th := { (s.setStream k none).th with f := s.th.f.set (streamReg k) 0 } }.retire 4) := by
  show execSunbind k s = _
  rw [execSunbind, hk]
  rfl

end

/-! ### Reads and writes of a stream's register -/

section
variable {s : State} {a d b : Reg} {k : Fin 4} {st : Stream}

theorem State.boundOnly_cons {r : Reg} {rs : List Reg} (h : r = a ∨ s.streamOf r = none) (hs : s.BoundOnly a rs) : s.BoundOnly a (r :: rs) :=
  List.forall_mem_cons.2 ⟨h, hs⟩

theorem State.boundOnly_nil : s.BoundOnly a [] := nofun

theorem State.operand_bound (ha : s.streamOf a = some (k, st)) : s.operand a = s.block st := by
  rw [State.operand, ha]

theorem State.ne_of_bound (ha : s.streamOf a = some (k, st)) (hd : s.streamOf d = none) : d ≠ a := by
  rintro rfl
  rw [hd] at ha
  cases ha

theorem State.rawLane_traps {i : Instr} {rs : List Reg} {g : (Reg → LaneReg) → LaneReg} {n : Nat} (hi : exec i s = .next (s.rawLane 4 rs d g))
    (h : s.wrongWay rs [d] = some n) : exec i s = .next (s.trap 0x0D n) := hi.trans (congrArg _ (State.runLane_wrongWay h))

section
variable (ha : s.streamOf a = some (k, st)) (hf : s.transferFault [(st, st.per)] = none) (hacq : s.th.acquiring = false)
include ha hf hacq

/-- A lane instruction of raw bits that reads the block of a stream. -/
theorem State.rawLane_takes {i : Instr} {rs : List Reg} {g : (Reg → LaneReg) → LaneReg} {v : LaneReg} (hi : exec i s = .next (s.rawLane 4 rs d g))
    (har : a ∈ rs) (hr : s.BoundOnly a rs) (hd : s.streamOf d = none) (hdir : st.dir.val ≠ 1) (hv : g s.operand = v) :
    ∃ t, exec i s = .next t ∧ (∀ r, t.getF r = if r = d then v else s.getF r) ∧ s.Moves t k st ∧ KeepsOutside s t ∧ KeepsBytes s t :=
  State.runLane_takes ha hf hacq hi har hr hd hdir (by rw [hv])

/-- A lane instruction of raw bits that writes the block of a stream. -/
theorem State.rawLane_gives {i : Instr} {rs : List Reg} {g : (Reg → LaneReg) → LaneReg} {v : LaneReg} (hi : exec i s = .next (s.rawLane 4 rs a g))
    (hr : s.BoundOnly a rs) (hrd : a ∈ rs → st.dir.val ≠ 1) (hdir : st.dir.val ≠ 0) (hv : g s.operand = v) :
    ∃ t, exec i s = .next t ∧ s.Gives t k st v :=
  State.runLane_gives ha hf hacq hi hr hrd hdir (by rw [hv])

end

/-- At the end of a stream its position stands. -/
theorem State.Moves.streams_end {t : State} (h : s.Moves t k st) (ha : s.streamOf a = some (k, st)) (hend : st.limit.toNat ≤ st.pos.toNat) :
    t.th.streams = s.th.streams := by
  obtain ⟨hk, hothers, -⟩ := h
  rw [Stream.advance_end hend, ← (State.streamOf_eq_some.1 ha).2] at hk
  ext1 j hj
  by_cases hjk : (⟨j, hj⟩ : Fin 4) = k
  · subst hjk
    exact hk
  · exact hothers ⟨j, hj⟩ hjk

theorem State.Gives.getF {t : State} {v : LaneReg} (h : s.Gives t k st v) (r : Reg) : t.getF r = s.getF r := by
  rw [State.getF, h.f, State.getF]

theorem State.Gives.mem {t : State} {v : LaneReg} (h : s.Gives t k st v) : t.mem = s.mem := by
  rw [h.frame]

/-- At the end of a stream nothing is stored. -/
theorem State.Gives.keeps_end {t : State} {v : LaneReg} (h : s.Gives t k st v) (hend : st.limit.toNat ≤ st.pos.toNat) :
    KeepsOutside s t ∧ KeepsBytes s t := by
  obtain ⟨-, -, hloc, hlocPast, -, hnow, hframe⟩ := h
  rw [s.putBlock_end hend] at hloc hlocPast hnow hframe
  rw [hloc, hlocPast, hnow] at hframe
  exact ⟨hframe, fun q => ⟨by rw [hframe], by rw [hloc]⟩⟩

/-- What `vadd` delivers of the registers that it reads. -/
def State.addOut (s : State) (y : LaneType) (d a b : Reg) (g : Reg → LaneReg) : LaneOut :=
  let r := laneResults (s.laneCtx plainMod) plainMod y (List.zipWith (Exact.add s.th.rmode) (laneValues y (g a)) (laneValues y (g b)))
  ⟨some (d, r.1), none, r.2⟩

theorem State.exec_vadd (s : State) (y : LaneType) (d a b : Reg) :
    exec (.vadd y d a b) s = .next (s.runLane 4 [a, b] [d] (s.addOut y d a b)) := rfl

theorem State.addOut_int (s : State) {y : LaneType} (hy : y.integer = true) (d a b : Reg) (g : Reg → LaneReg) :
    s.addOut y d a b g = ⟨some (d, ofLanes (laneBits y) ((List.range y.lanes).map fun i =>
      wrap (laneBits y) (sgn (laneBits y) (lane (laneBits y) (g a) i) + sgn (laneBits y) (lane (laneBits y) (g b) i)))), none, 0⟩ := by
  have hsum (i : Nat) := resultOf_pureInt (s.laneCtx plainMod) hy (PureInt.add (mode := s.th.rmode)
    (Exact.spells_ofInt (sgn (laneBits y) (lane (laneBits y) (g a) i))) (Exact.spells_ofInt (sgn (laneBits y) (lane (laneBits y) (g b) i))))
  unfold State.addOut
  rw [laneValues_range, laneValues_range, zipWith_range, laneResults_range]
  simp only [laneValue_int hy, hsum, orFlags_zero]

end

/-- Settles O17: the stream instructions by their checks (`State.sbind_checks`), reads by `State.runLane_takes` and writes by
`State.runLane_gives`. -/
theorem streams : Obligations.Streams := by
  refine ⟨?_, ?_, ?_⟩
  · intro s k a d la rec16 n ready ws good keeps
    refine ⟨fun ⟨hk, hal, hf⟩ hacq hgood => ?_, fun ⟨hk, hal, hf⟩ hacq hbad => ?_, fun ⟨hk, hal, hf⟩ hacq => ?_, fun hk hal => ?_, fun hk => ?_,
      State.unbound_traps, fun st hk => ⟨?_, ?_, ?_⟩⟩
    · obtain ⟨st, hst, hfields⟩ := streamRecord_good (bs := rec16) hgood s.now
      obtain ⟨hset, hkeeps, hff⟩ := s.stream_retires k (some st) s.th.f
      refine ⟨_, st, ?_, hset, hkeeps, hff, hfields⟩
      rw [State.sbind_record hk hal hf, s.whenFree_go _ hacq, State.bindRecord, hst]
      rfl
    · rw [State.sbind_record hk hal hf, s.whenFree_go _ hacq, State.bindRecord, streamRecord_bad (bs := rec16) hbad]
      rfl
    · rw [State.sbind_record hk hal hf, State.whenFree, if_pos hacq]
    · rw [s.sbind_checks, if_neg (by rw [hk]; decide), if_pos hal]
    · rw [s.sbind_checks, if_pos hk]
    · exact ⟨_, State.seos_bound hk a, s.stream_retires k _ s.th.f⟩
    · rw [State.sstat_bound hk]
      exact s.result_spec d _
    · obtain ⟨hset, hkeeps, hff⟩ := s.stream_retires k none (s.th.f.set (streamReg k) 0)
      refine ⟨_, State.sunbind_bound hk, hset, hkeeps, fun r => ?_⟩
      rw [State.getF, hff]
      refine (s.getF_setF (streamReg k) r 0).trans (if_congr (streamReg_iff r k) rfl rfl)
  · intro s d a k st ha hd hf hacq ws el after
    have hafter (h : st.pos.toNat < st.limit.toNat) : st.advance st.per = after := if_pos h
    have hra : s.BoundOnly a [a] := State.boundOnly_cons (.inl rfl) State.boundOnly_nil
    have hrd : s.BoundOnly a [d] := State.boundOnly_cons (.inr hd) State.boundOnly_nil
    have had : a ∉ [d] := fun h => State.ne_of_bound ha hd (List.mem_singleton.1 h).symm
    have takes (hdir : st.dir.val ≠ 1) := State.rawLane_takes ha hf hacq (i := .vmov .f32 d a) (g := fun g => g a) rfl List.mem_cons_self hra hd hdir
      (State.operand_bound ha)
    have gives (hdir : st.dir.val ≠ 0) := State.rawLane_gives ha hf hacq (i := .vmov .f32 a d) (g := fun g => g d) rfl hrd
      (fun h => absurd h had) hdir (s.operand_unbound d hd)
    refine ⟨fun hdir => State.rawLane_traps (g := fun g => g a) rfl (State.wrongWay_reads ha hdir [] [d]), fun hdir hpos => ?_,
      fun hdir => State.rawLane_traps (g := fun g => g d) rfl (State.wrongWay_writes ha hdir (s.unbound_one d hd)), fun hdir hpos => ?_,
      fun hend => ⟨fun hdir => ?_, fun hdir => ?_⟩⟩
    · obtain ⟨t, ht, hread, ⟨hk, -, hret⟩, hout, hbytes⟩ := takes hdir
      refine ⟨t, ht, fun j hj => ?_, fun la hp => State.streamByte_settled hp st la, fun r hr => (hread r).trans (if_neg hr),
        hafter hpos ▸ hk, hret, hout, hbytes⟩
      rw [hread d, if_pos rfl]
      exact s.lane_block st hj
    · obtain ⟨t, ht, hg⟩ := gives hdir
      obtain ⟨hk, -, hret⟩ := hg.moves
      exact ⟨t, ht, hg.loc, hg.locPast, hg.getF, hafter hpos ▸ hk, hret, hg.frame⟩
    · obtain ⟨t, ht, hread, hmoves, hout, hbytes⟩ := takes hdir
      have hstreams := hmoves.streams_end ha hend
      obtain ⟨-, -, hret⟩ := hmoves
      exact ⟨t, ht, by rw [hread d, if_pos rfl, s.block_end hend], fun r hr => (hread r).trans (if_neg hr), hstreams, hret, hout, hbytes⟩
    · obtain ⟨t, ht, hg⟩ := gives hdir
      obtain ⟨-, -, hret⟩ := hg.moves
      exact ⟨t, ht, hg.getF, hg.moves.streams_end ha hend, hret, hg.keeps_end hend⟩
  · intro s y d a b x k st hy ha hu hf hacq ws w el block moves takes gives
    have hd : s.streamOf d = none := hu d (by simp)
    have hb : s.streamOf b = none := hu b (by simp)
    have hoa : s.operand a = block := (State.operand_bound ha).trans (s.block_lanes st)
    have hob := s.operand_unbound b hb
    have hod := s.operand_unbound d hd
    have nil : s.BoundOnly a [] := State.boundOnly_nil
    have hrab : s.BoundOnly a [a, b] := State.boundOnly_cons (.inl rfl) (State.boundOnly_cons (.inr hb) nil)
    have hrba : s.BoundOnly a [b, a] := State.boundOnly_cons (.inr hb) (State.boundOnly_cons (.inl rfl) nil)
    have hraa : s.BoundOnly a [a, a] := State.boundOnly_cons (.inl rfl) (State.boundOnly_cons (.inl rfl) nil)
    have hrdb : s.BoundOnly a [d, b] := State.boundOnly_cons (.inr hd) (State.boundOnly_cons (.inr hb) nil)
    have hadb : a ∉ [d, b] := by
      simp [(State.ne_of_bound ha hd).symm, (State.ne_of_bound ha hb).symm]
    have raw (i : Instr) (rs : List Reg) (g : (Reg → LaneReg) → LaneReg) (v : LaneReg) (hi : exec i s = .next (s.rawLane 4 rs a g))
        (hr : s.BoundOnly a rs) (hrd : a ∈ rs → st.dir.val ≠ 1) (hdir : st.dir.val ≠ 0) (hv : g s.operand = v) : gives i v := by
      obtain ⟨t, ht, hg⟩ := State.rawLane_gives ha hf hacq hi hr hrd hdir hv
      exact ⟨t, ht, hg.f, hg.moves, hg.loc, hg.locPast, hg.memPast, hg.mem⟩
    refine ⟨fun hdir => ⟨?_, ?_, ?_, ?_⟩, fun hdir => ⟨?_, ?_⟩, fun hdir => ?_, fun hdir => ?_, fun hdir => ?_⟩
    · exact State.rawLane_takes ha hf hacq (g := fun g => g a &&& g b) rfl (by simp) hrab hd hdir (by rw [hoa, hob])
    · exact State.rawLane_takes ha hf hacq (g := fun g => g b ^^^ g a) rfl (by simp) hrba hd hdir (by rw [hoa, hob])
    · exact State.rawLane_takes ha hf hacq (g := fun g => g a ||| g a) rfl (by simp) hraa hd hdir (by rw [hoa, BitVec.or_self])
    · exact State.runLane_takes ha hf hacq (s.exec_vadd y d a b) List.mem_cons_self hrab hd hdir (by rw [s.addOut_int hy, hoa, hob])
    · exact raw _ [d, b] (fun g => g d &&& g b) _ rfl hrdb (fun h => absurd h hadb) hdir (by rw [hod, hob])
    · exact raw _ [] _ _ rfl nil nofun hdir (by rw [List.map_const', List.length_range])
    · exact raw _ [a, b] (fun g => g a &&& g b) _ rfl hrab (fun _ => by rw [hdir]; decide) (by rw [hdir]; decide) (by rw [hoa, hob])
    · exact State.rawLane_traps (g := fun g => g a &&& g b) rfl (State.wrongWay_reads ha hdir [b] [d])
    · exact State.rawLane_traps rfl (State.wrongWay_writes ha hdir s.unbound_nil)

end Sys2Proof.Machine
end

section
/-!
PROOF. `tql` (O18).
-/
namespace Sys2Proof.Machine
open Sys2Proof

/-- A cause of its own comes before none. -/
theorem firstFault_none_right (o : Option (Nat × Nat)) : firstFault [o, none] = o := by
  cases o with
  | none => rfl
  | some f =>
    by_cases h : f.1 = 0x09
    · simp [firstFault, h]
    · simp [firstFault, h]

/-- A descriptor without a reserved field (R115). -/
abbrev GoodTable (x : Nat) : Prop := fld x 48 16 = 0 ∧ fld x 44 2 ≠ 3 ∧ fld x 46 2 ≠ 3

theorem not_goodTable (x : Nat) : (fld x 48 16 ≠ 0 ∨ fld x 46 2 = 3 ∨ fld x 44 2 = 3) ↔ ¬GoodTable x := by tauto

/-- The entries that the indices of f[a] select go to f[d]: indices of `iw` bits, and a table of `last + 1` entries of `n` bytes (R114). -/
def State.lookUp (s : State) (d a : Reg) (base last iw n : Nat) : State :=
  ((s.writeF d (ofLanes (8 * n) ((lanes iw (256 / max iw (8 * n)) (s.operand a)).map (s.tableEntry base last n)))).advanceStreams [a, d]).retire 4

/-- The checks of `tql` in their order, where no stream is named. -/
theorem State.tql_checks {s : State} {d a : Reg} (b : Reg) (hu : s.Unbound [d, a]) :
    let x := (s.getX b).toNat
    let base := fld x 0 32
    let last := fld x 32 12
    let n := 2 ^ fld x 46 2
    exec (.tql d a b) s = .next (if ¬GoodTable x then s.trap 0x0E base else if base % n ≠ 0 then s.trap 0x04 base
      else ((s.localFault s.th.owner base ((last + 1) * n)).map fun f => s.trap f.1 f.2).getD
        (s.whenFree fun s => s.lookUp d a base last (8 * 2 ^ fld x 44 2) n)) := by
  show execTql d a b s = _
  unfold execTql
  dsimp only
  rw [s.wrongWay_unbound [a] [d] (hu.sub (by simp)) (hu.sub (by simp)), s.blockFault_unbound [a, d] (hu.sub (by simp)), firstFault_none_right]
  refine congrArg Host.Outcome.next (if_congr (not_goodTable _) rfl (if_congr Iff.rfl rfl ?_))
  generalize s.localFault s.th.owner _ _ = o
  cases o <;> rfl

/-- The lanes of a look-up, where no stream is named. -/
theorem State.lookUp_lanes (s : State) (d a : Reg) (base last iw n : Nat) (hu : s.Unbound [d, a]) :
    LanesTo s (.next (s.lookUp d a base last iw n)) 4 (8 * n) (256 / max iw (8 * n)) d
      (fun i => (s.tableEntry base last n (lane iw (s.getF a) i), 0)) := by
  have hd : s.streamOf d = none := hu d (by simp)
  refine lanesTo_of s _ 4 _ _ d _ 0 ?_ (orFlags_zero _).symm
  rw [State.lookUp, s.operand_unbound a (hu a (by simp)), lanes, List.map_map, State.writeF, hd,
    State.advanceStreams_unbound _ _ (State.unbound_of_streams s (s.setF d _) [a, d] rfl (hu.sub (by simp)))]
  exact s.setF_retires d _ hd

/-- Settles O18: the refusals of a table (`State.tql_checks`), and the entries that a good one gives (`State.lookUp_lanes`). -/
theorem localTableQuery : Obligations.LocalTableQuery := by
  intro s d a b hu x base last iw n good
  have run : exec (.tql d a b) s = _ := State.tql_checks b hu
  refine ⟨fun hg => ?_, fun hg hal => ?_, fun hg hal hf ha => ?_, fun c q hg hal hf => ?_, fun hg hal hf ha => ?_⟩
  · rw [run, if_pos hg]
  · rw [run, if_neg (not_not_intro hg), if_pos hal]
  · rw [run, if_neg (not_not_intro hg), if_neg (not_not_intro hal), hf]
    exact congrArg _ (if_pos ha)
  · rw [run, if_neg (not_not_intro hg), if_neg (not_not_intro hal), hf]
    rfl
  · rw [run, if_neg (not_not_intro hg), if_neg (not_not_intro hal), hf, Option.map_none, Option.getD_none, s.whenFree_go _ ha]
    exact s.lookUp_lanes d a base last iw n hu

end Sys2Proof.Machine
end

section
/-!
PROOF. The gang barrier (O27).
-/
namespace Sys2Proof.Machine
open Sys2Proof

/-! ### The votes (R131) -/

theorem foldl_and_bit (r : List Word) (i : Nat) : ∀ c : Word, (r.foldl (· &&& ·) c).getLsbD i = true ↔ ∀ y ∈ c :: r, y.getLsbD i = true := by
  induction r with
  | nil => simp
  | cons y r ih => intro c; rw [List.foldl_cons, ih]; simp [and_assoc]

theorem foldl_or_bit (r : List Word) (i : Nat) : ∀ c : Word, (r.foldl (· ||| ·) c).getLsbD i = true ↔ ∃ y ∈ c :: r, y.getLsbD i = true := by
  induction r with
  | nil => simp
  | cons y r ih => intro c; rw [List.foldl_cons, ih]; simp [or_assoc]

theorem foldl_add_word (r : List Word) : ∀ c : Word, r.foldl (· + ·) c = BitVec.ofNat 64 (((c :: r).map BitVec.toNat).sum) := by
  induction r with
  | nil => simp
  | cons y r ih =>
    intro c
    rw [List.foldl_cons, ih]
    apply BitVec.eq_of_toNat_eq
    simp [← Nat.add_assoc, Nat.mod_add_mod]

/-- A row of picks of one of two words leaves one of the words, and none is better in the order. -/
theorem foldl_pick {le : Word → Word → Prop} {pick : Word → Word → Word} (hrefl : ∀ u, le u u) (htrans : ∀ u v w, le u v → le v w → le u w)
    (hpick : ∀ u v, (pick u v = u ∨ pick u v = v) ∧ le (pick u v) u ∧ le (pick u v) v) (r : List Word) :
    ∀ c, r.foldl pick c ∈ c :: r ∧ ∀ y ∈ c :: r, le (r.foldl pick c) y := by
  induction r with
  | nil => simp [hrefl]
  | cons y r ih =>
    intro c
    obtain ⟨hone, hc, hy⟩ := hpick c y
    obtain ⟨hmem, hbest⟩ := ih (pick c y)
    have hfirst := hbest (pick c y) List.mem_cons_self
    rw [List.foldl_cons]
    refine ⟨?_, fun z hz => ?_⟩
    · rcases List.mem_cons.1 hmem with h | h
      · rw [h]
        rcases hone with h | h <;> simp [h]
      · simp [h]
    · rcases List.mem_cons.1 hz with rfl | hz
      · exact htrans _ _ _ hfirst hc
      · rcases List.mem_cons.1 hz with rfl | hz
        · exact htrans _ _ _ hfirst hy
        · exact hbest z (List.mem_cons_of_mem _ hz)

theorem voteOf_max (c : Word) (r : List Word) : voteOf .max (c :: r) ∈ c :: r ∧ ∀ y ∈ c :: r, y.toInt ≤ (voteOf .max (c :: r)).toInt := by
  refine foldl_pick (le := fun u v => v.toInt ≤ u.toInt) (fun _ => le_rfl) (fun _ _ _ h g => le_trans g h) (fun u v => ?_) r c
  by_cases h : u.slt v = true
  · rw [if_pos h]
    exact ⟨.inr rfl, le_of_lt (BitVec.slt_iff_toInt_lt.1 h), le_rfl⟩
  · rw [if_neg h]
    exact ⟨.inl rfl, le_rfl, not_lt.1 fun k => h (BitVec.slt_iff_toInt_lt.2 k)⟩

theorem voteOf_min (c : Word) (r : List Word) : voteOf .min (c :: r) ∈ c :: r ∧ ∀ y ∈ c :: r, (voteOf .min (c :: r)).toInt ≤ y.toInt := by
  refine foldl_pick (le := fun u v => u.toInt ≤ v.toInt) (fun _ => le_rfl) (fun _ _ _ h g => le_trans h g) (fun u v => ?_) r c
  by_cases h : v.slt u = true
  · rw [if_pos h]
    exact ⟨.inr rfl, le_of_lt (BitVec.slt_iff_toInt_lt.1 h), le_rfl⟩
  · rw [if_neg h]
    exact ⟨.inl rfl, le_rfl, not_lt.1 fun k => h (BitVec.slt_iff_toInt_lt.2 k)⟩

/-! ### Arriving and leaving (R130 to R132) -/

/-- The forms of `gbar`, each a vote. -/
theorem State.exec_gbar (s : State) {j : Instr} {d a : Reg}
    (hj : j ∈ [Instr.gbar d a, .gbarAnd d a, .gbarOr d a, .gbarAdd d a, .gbarMax d a, .gbarMin d a]) :
    ∃ v, exec j s = .next (s.gbar j v d a) := by
  simp only [List.mem_cons, List.not_mem_nil, or_false] at hj
  rcases hj with rfl | rfl | rfl | rfl | rfl | rfl <;> exact ⟨_, rfl⟩

section
variable {s : State} (j : Instr) (v : Vote) (d a : Reg)

/-- `gbar` in an open packet traps (R142). -/
theorem State.gbar_in_packet (hp : s.th.packet ≠ none) : s.gbar j v d a = s.trapWord 0x12 j :=
  if_pos (Option.isSome_iff_ne_none.2 hp)

/-- Without an arrival, `gbar` arrives behind a release at gang scope (R131). -/
theorem State.gbar_arrives (hp : s.th.packet = none) (ha : s.th.arrived = none) : s.gbar j v d a =
    s.afterRelease .gang (fun s => { s with th := { s.th with arrived := some (s.getX a), arriveHand := s.th.uact } }) := by
  unfold State.gbar
  simp only [hp, ha, Option.isSome_none, Bool.false_eq_true, if_false]

/-- In a handler whose thread arrived before it, `gbar` traps (R132). -/
theorem State.gbar_of_interrupted (hp : s.th.packet = none) (ha : s.th.arrived ≠ none) (hu : s.th.uact = true) (hh : s.th.arriveHand = false) :
    s.gbar j v d a = s.trapWord 0x12 j := by
  obtain ⟨c, hc⟩ := Option.ne_none_iff_exists'.1 ha
  unfold State.gbar
  simp [hp, hc, hu, hh]

/-- What an arrived thread does at its `gbar`: it waits for the barrier, or takes the vote and goes on (R131). -/
theorem State.gbar_arrived (hp : s.th.packet = none) (ha : s.th.arrived ≠ none) (hu : s.th.uact = false ∨ s.th.arriveHand = true) :
    (s.th.depart = none → s.gbar j v d a = s.stall)
      ∧ ∀ cs, s.th.depart = some cs → s.gbar j v d a = State.result { s with
        th := { s.th with arrived := none, arriveHand := false, depart := none, gangSeen := s.now } } d (voteOf v cs) := by
  obtain ⟨c, hc⟩ := Option.ne_none_iff_exists'.1 ha
  have hown : ¬(s.th.uact && !s.th.arriveHand) = true := by rcases hu with h | h <;> simp [h]
  have hopen : ¬s.th.packet.isSome = true := by simp [hp]
  unfold State.gbar
  extract_lets t
  have harr : t.arrived = some c := hc
  rw [if_neg hopen, harr]
  dsimp only
  rw [if_neg hown]
  exact ⟨fun h => by rw [show t.depart = none from h], fun cs h => by rw [show t.depart = some cs from h]; rfl⟩

end

/-! ### The barrier completes (R131) -/

/-- A thread with the contributions of the arrived set, where it is of the gang that has completed its barrier. -/
def Gang.gives (g : Gang) (cs : List Word) (u : Thread) : Thread := if g.has u.ident then { u with depart := some cs } else u

theorem Gang.gives_ident (g : Gang) (cs : List Word) (u : Thread) : (g.gives cs u).ident = u.ident := by
  unfold Gang.gives
  split <;> rfl

/-- The state in which each thread of a gang has the contributions of the arrived set. -/
def State.voted (s : State) (g : Gang) (cs : List Word) : State :=
  { s with th := { s.th with depart := some cs }, others := s.others.map (fun e => (e.1, g.gives cs e.2)) }

section
variable {s : State} {g : Gang} (cs : List Word) (hb : s.th.bound = true) (hg : g.has s.th.ident = true)
include hb hg

theorem State.mapGang_voted : s.mapGang g (fun t => { t with depart := some cs }) = s.voted g cs := by
  unfold State.mapGang
  rw [if_pos ⟨hb, hg⟩]
  rfl

theorem State.voted_threads : (s.voted g cs).threads = s.threads.map (g.gives cs) := by
  have hth : g.gives cs s.th = { s.th with depart := some cs } := if_pos hg
  simp only [State.threads, State.voted, hb, if_true, List.map_append, List.map_map, List.map_cons, List.map_nil, hth]
  rfl

theorem State.voted_threadsOf : (s.voted g cs).threadsOf g = (s.threadsOf g).map (g.gives cs) := by
  unfold State.threadsOf
  rw [State.voted_threads cs hb hg, List.filter_map]
  exact congrArg _ (List.filter_congr fun u _ => by simp [g.gives_ident cs u])

end

/-- The gang that an identity has is one of its ranks' (R125). -/
theorem State.has_of_gangOf {s : State} {i : Ident} {g : Gang} (h : s.gangOf i = some g) : g.has i = true := by
  unfold State.gangOf at h
  have := List.find?_some h
  exact this

theorem State.barrierComplete_eq {s : State} {g : Gang} (hb : s.th.bound = true) (hu : s.ev.unit = s.th.slot) (hg : s.gangOf s.th.ident = some g) :
    exec .barrierComplete s = .next (if (s.threadsOf g).length + g.ended.length = g.gsize ∧ (s.threadsOf g).all Thread.atBarrier then
      (s.putGang { g with gone := [] }).mapGang g
        (fun t => { t with depart := some ((s.threadsOf g).filterMap (·.arrived) ++ g.gone) }) else s) := by
  show execBarrierComplete s = _
  unfold execBarrierComplete
  rw [hu, s.threadAt_self hb, Option.bind_some, hg]

/-- Settles O27: the votes (`foldl_and_bit` to `voteOf_min`), the branches of `gbar`, and the completion (`State.mapGang_voted`). -/
theorem gangBarrier : Obligations.GangBarrier := by
  intro s d a all
  refine ⟨fun j hj hp => ?_, fun j hj hp ha hc => ?_, fun j hj hp ha hh hne hfree => ?_, fun j hj hp ha hu hh => ?_,
    fun j hj hp ha hu hd => ?_, ?_, ?_⟩
  · obtain ⟨v, h⟩ := s.exec_gbar hj
    rw [h, State.gbar_in_packet j v d a hp]
  · obtain ⟨v, h⟩ := s.exec_gbar hj
    rw [h, State.gbar_arrives j v d a hp ha, s.afterRelease_go .gang _ (.inr ⟨hc, .inl (by decide)⟩)]
    rfl
  · obtain ⟨v, h⟩ := s.exec_gbar hj
    rw [h, State.gbar_arrives j v d a hp ha, s.afterRelease_stall .gang _ (by decide) hh hne hfree]
  · obtain ⟨v, h⟩ := s.exec_gbar hj
    rw [h, State.gbar_of_interrupted j v d a hp ha hu hh]
  · obtain ⟨v, h⟩ := s.exec_gbar hj
    rw [h, (State.gbar_arrived j v d a hp ha hu).1 hd]
  · intro x r hp ha hu hd leaves
    have leave {j : Instr} (v : Vote) (hj : exec j s = .next (s.gbar j v d a)) : leaves j (voteOf v (x :: r)) := by
      obtain ⟨t, ht, hx, -, hth, hret, hout, hbytes⟩ := State.result_spec
        { s with th := { s.th with arrived := none, arriveHand := false, depart := none, gangSeen := s.now } } d (voteOf v (x :: r))
      exact ⟨t, by rw [hj, (State.gbar_arrived j v d a hp ha hu).2 _ hd, ht], hx, hth, hret, hout, hbytes⟩
    obtain ⟨hmax, hbest⟩ := voteOf_max x r
    obtain ⟨hmin, hleast⟩ := voteOf_min x r
    exact ⟨leave .none rfl, ⟨_, leave .and rfl, fun i _ => foldl_and_bit r i x⟩, ⟨_, leave .or rfl, fun i _ => foldl_or_bit r i x⟩,
      foldl_add_word r x ▸ leave .add rfl, ⟨_, hmax, leave .max rfl, hbest⟩, ⟨_, hmin, leave .min rfl, hleast⟩⟩
  · intro g hb hu hg ts cs gets
    have hhas := State.has_of_gangOf hg
    rw [State.barrierComplete_eq hb hu hg]
    refine ⟨fun hall hat => ?_, fun ⟨u, hm, hn⟩ => ?_, fun hne => ?_⟩
    · have hof := State.voted_threadsOf (s := s.putGang { g with gone := [] }) (g := g) cs hb hhas
      have hthreads := State.voted_threads (s := s.putGang { g with gone := [] }) (g := g) cs hb hhas
      rw [if_pos ⟨hall, List.all_eq_true.2 hat⟩, State.mapGang_voted (s := s.putGang { g with gone := [] }) (g := g) cs hb hhas]
      refine ⟨_, rfl, rfl, rfl, hthreads, fun u hm => ?_, ?_, rfl⟩
      · rw [hof] at hm
        obtain ⟨w, hw, rfl⟩ := List.mem_map.1 hm
        have hmine : g.has w.ident = true := (List.mem_filter.1 hw).2
        exact congrArg Thread.depart (if_pos hmine)
      · rw [hof, List.length_map]
        rfl
    · refine congrArg _ (if_neg fun ⟨_, hat⟩ => ?_)
      exact Bool.false_ne_true (hn ▸ List.all_eq_true.1 hat u hm)
    · exact congrArg _ (if_neg fun h => hne h.1)

end Sys2Proof.Machine
end

section
/-!
PROOF. Message packets (O26).
-/
namespace Sys2Proof.Machine
open Sys2Proof

/-! ### Opening (R140) -/

theorem State.retire_packet (s : State) (n : Nat) : (s.retire n).th.packet = s.th.packet.map (fun p => { p with instrs := p.instrs + 1 }) := by
  rw [State.retire_th]
  dsimp only
  rw [loopEnd_eq]

/-- An aligned destination and an aligned sync word, both in the scratchpad or the latter 0, pass the checks of `mopen`. -/
theorem mopenFault_none {addr sync : Nat} (ha : addr % 8 = 0) (hlo : 0x10000 ≤ addr) (hhi : addr < 0x70000)
    (hs : sync = 0 ∨ (sync % 32 = 0 ∧ 0x10000 ≤ sync ∧ sync + 32 ≤ 0x70000)) : mopenFault addr sync = none := by
  unfold mopenFault
  dsimp only
  rw [if_neg (by omega), if_neg (by omega), if_neg (by simp; omega), if_neg]
  simp only [Bool.not_eq_true', Bool.and_eq_false_iff, decide_eq_false_iff_not]
  omega

/-- The state in which `mopen` has opened a packet (R140). -/
def State.opened (s : State) (core addr sync : Nat) : State :=
  let r := s.retire 4
  { r with packets := s.packets + 1, th := { r.th with packet := some ⟨s.packets, core, addr, sync, 0, 0, 0⟩ } }

/-- Opening a packet changes only the packet, beside what retirement does. -/
theorem State.opened_spec (s : State) (core addr sync : Nat) :
    (s.opened core addr sync).th.packet = some ⟨s.packets, core, addr, sync, 0, 0, 0⟩ ∧ KeepsBesidePc s.th (s.opened core addr sync).th
      ∧ Retires s (s.opened core addr sync) 4 ∧ KeepsBytes s (s.opened core addr sync)
      ∧ (s.opened core addr sync).packets = s.packets + 1 ∧ (s.opened core addr sync).landings = s.landings
      ∧ (s.opened core addr sync).counts = s.counts := by
  obtain ⟨hpc, hret, -, hbytes⟩ := s.retire_spec 4
  refine ⟨rfl, ?_, hret, hbytes, rfl, s.retire_landings 4, s.retire_counts 4⟩
  exact congrArg (fun u : Thread => { u with packet := some ⟨s.packets, core, addr, sync, 0, 0, 0⟩ }) hpc

section
variable {s : State} (a b c : Reg)

theorem execMopen_traps (h : s.th.packet ≠ none ∨ 8 ≤ (s.getX a).toNat ∨ s.mateOn (s.getX a).toNat = false) :
    exec (.mopen a b c) s = .next (s.trapWord 0x12 (.mopen a b c)) := by
  refine congrArg _ (if_pos ?_)
  rcases h with h | h | h
  · exact .inl (Option.isSome_iff_ne_none.2 h)
  · exact .inr (.inl h)
  · exact .inr (.inr (by rw [h]; rfl))

theorem execMopen_opens (hp : s.th.packet = none) (hc : (s.getX a).toNat < 8) (hm : s.mateOn (s.getX a).toNat = true)
    (hf : mopenFault (s.getX b).toNat (s.getX c).toNat = none) :
    exec (.mopen a b c) s = .next (s.opened (s.getX a).toNat (s.getX b).toNat (s.getX c).toNat) := by
  show execMopen a b c s = _
  unfold execMopen
  dsimp only
  rw [hf, if_neg]
  · rfl
  · rw [hp, hm]
    rintro (h | h | h)
    · exact nomatch h
    · omega
    · exact nomatch h

end

/-! ### Puts (R141, R142) -/

theorem bytesOf_add (m n v : Nat) : bytesOf (m + n) v = bytesOf m v ++ bytesOf n (v / 256 ^ m) := by
  induction m generalizing v with
  | zero => rw [Nat.zero_add, Nat.pow_zero, Nat.div_one]; rfl
  | succ m ih =>
    rw [Nat.add_right_comm, bytesOf, ih, bytesOf, List.cons_append, Nat.div_div_eq_div_mul, Nat.pow_succ, Nat.mul_comm 256]

/-- The words of a put are the 8-byte words of its number, each at its place (R143). -/
theorem landingWords_bytesOf (packet : Nat) (src : Ident) (core n : Nat) : ∀ dst v, landingWords packet src core dst (bytesOf (8 * n) v) n =
    (List.range n).map (fun k => ⟨packet, src, core, dst + 8 * k, bytesOf 8 (v / 2 ^ (64 * k))⟩) := by
  induction n with
  | zero => exact fun _ _ => rfl
  | succ n ih =>
    intro dst v
    have hw : (2 : Nat) ^ 64 = 256 ^ 8 := by norm_num
    rw [landingWords, Nat.mul_succ, Nat.add_comm, bytesOf_add, List.take_left' (bytesOf_length 8 v), List.drop_left' (bytesOf_length 8 v), ih,
      List.range_succ_eq_map, List.map_cons, List.map_map, Nat.mul_zero, Nat.pow_zero, Nat.div_one]
    refine congrArg _ (List.map_congr_left fun k _ => ?_)
    rw [Function.comp_apply, Nat.succ_eq_add_one, Nat.mul_succ, Nat.mul_succ, Nat.pow_add, hw, Nat.div_div_eq_div_mul,
      Nat.mul_comm (256 ^ 8), Nat.add_assoc, Nat.add_comm 8]

/-- The key of a byte of another core's scratchpad in the cluster (R140). -/
theorem locKey_mate (cl core la : Nat) (hlo : 0x10000 ≤ la) (hhi : la < 0x70000) :
    locKey (cl * 64 + core * 8) [] la = some (0x100000000 + (cl * 8 + core) * 0x60000 + (la - 0x10000)) := by
  unfold locKey coreOf
  rw [if_neg (by omega), if_pos ⟨hlo, hhi⟩, show (cl * 64 + core * 8) / 8 = cl * 8 + core by omega]

section
variable {s : State} {p : Packet} {i : Instr} {named : List Reg} {bytes : State → List Byte} {closing : Bool} (n : Nat)

/-- The packet once a put of `n` words has been appended to it. -/
def Packet.after (p : Packet) (n : Nat) : Packet := { p with off := p.off + 8 * n, puts := p.puts + 1 }

/-- The state in which a put has been appended to the open packet and has retired (R141). -/
def State.appended (s : State) (p : Packet) (n : Nat) (ls : List Landing) : State :=
  State.retire { s with landings := s.landings ++ ls, th := { s.th with packet := some (p.after n) } } 4

/-- The words that a put of `n` words sends (R143). -/
def State.putWords (s : State) (p : Packet) (n v : Nat) : List Landing :=
  (List.range n).map (fun k => ⟨p.id, s.th.ident, clusterOf s.th.slot * 8 + p.core,
    0x100000000 + (clusterOf s.th.slot * 8 + p.core) * 0x60000 + (p.addr + p.off - 0x10000) + 8 * k, bytesOf 8 (v / 2 ^ (64 * k))⟩)

/-- A put without a packet traps, and so does the 64th that does not close (R142). -/
theorem State.put_traps (h : s.th.packet = none ∨ closing = false ∧ ∃ p, s.th.packet = some p ∧ 63 ≤ p.puts) :
    s.put i n named bytes closing = s.trapWord 0x12 i := by
  unfold State.put
  rcases h with h | ⟨hc, p, h, hn⟩
  · rw [h]
  · rw [h]
    exact if_pos ⟨hn, by rw [hc]; rfl⟩

/-- A packet takes one more put, or this one closes it. -/
theorem not_lastPut (hn : p.puts < 63 ∨ closing = true) : ¬(63 ≤ p.puts ∧ (!closing) = true) := by
  rcases hn with hn | rfl
  · exact fun h => absurd h.1 (by omega)
  · exact fun h => nomatch h.2

section
variable (hp : s.th.packet = some p) (hn : p.puts < 63 ∨ closing = true) (hu : s.Unbound named)
include hp hn hu

/-- A put past the end of the scratchpad traps (R141). -/
theorem State.put_outside (hend : 0x70000 < p.addr + p.off + 8 * n) : s.put i n named bytes closing = s.trap 0x05 0x70000 := by
  unfold State.put
  rw [hp]
  dsimp only
  rw [if_neg (not_lastPut hn), s.wrongWay_unbound named [] hu s.unbound_nil]
  exact if_pos hend

/-- A put that fits is appended to the packet, and a closing form closes it (R141). -/
theorem State.put_appends (hend : p.addr + p.off + 8 * n ≤ 0x70000) : s.put i n named bytes closing =
    let t := s.appended p n (landingWords p.id s.th.ident (clusterOf s.th.slot * 8 + p.core)
      ((locKey (clusterOf s.th.slot * 64 + p.core * 8) [] (p.addr + p.off)).getD 0) (bytes s) n)
    if closing then t.postCount (p.after n) false else t := by
  have hadv (q : Packet) (ls : List Landing) :
      State.advanceStreams { s with landings := ls, th := { s.th with packet := some q } } named
        = { s with landings := ls, th := { s.th with packet := some q } } :=
    State.advanceStreams_unbound _ named (s.unbound_of_streams _ named rfl hu)
  unfold State.put
  rw [hp]
  dsimp only
  rw [if_neg (not_lastPut hn), s.wrongWay_unbound named [] hu s.unbound_nil]
  dsimp only
  rw [if_neg (by omega), s.blockFault_unbound named hu]
  dsimp only
  rw [s.whenStreams_unbound named _ hu, hadv]
  rfl

/-- The same for a put of the 8-byte words of a number within the scratchpad of a core of the cluster. -/
theorem State.put_words {v : Nat} (hpos : 0 < n) (hlo : 0x10000 ≤ p.addr) (hend : p.addr + p.off + 8 * n ≤ 0x70000)
    (hb : bytes s = bytesOf (8 * n) v) : s.put i n named bytes closing =
    let t := s.appended p n (s.putWords p n v)
    if closing then t.postCount (p.after n) false else t := by
  rw [State.put_appends n hp hn hu hend, hb, locKey_mate _ _ _ (by omega) (by omega), Option.getD_some, landingWords_bytesOf]
  rfl

end

theorem KeepsBesidePc.parts {u v : Thread} (h : KeepsBesidePc u v) : v.ident = u.ident ∧ v.slot = u.slot ∧ v.x = u.x ∧ v.f = u.f := by
  unfold KeepsBesidePc at h
  exact ⟨(congrArg Thread.ident h :), (congrArg Thread.slot h :), (congrArg Thread.x h :), (congrArg Thread.f h :)⟩

/-- What a put that does not close leaves. -/
theorem State.appended_spec (ls : List Landing) : (s.appended p n ls).th.packet = some { p.after n with instrs := p.instrs + 1 }
    ∧ (s.appended p n ls).landings = s.landings ++ ls ∧ (s.appended p n ls).counts = s.counts ∧ (s.appended p n ls).th.ident = s.th.ident
    ∧ (s.appended p n ls).th.x = s.th.x ∧ (s.appended p n ls).th.f = s.th.f ∧ Retires s (s.appended p n ls) 4 ∧ KeepsBytes s (s.appended p n ls) := by
  obtain ⟨hpc, hret, -, hbytes⟩ := State.retire_spec { s with landings := s.landings ++ ls, th := { s.th with packet := some (p.after n) } } 4
  obtain ⟨hident, -, hx, hf⟩ := hpc.parts
  exact ⟨State.retire_packet _ 4, State.retire_landings _ 4, State.retire_counts _ 4, hident, hx, hf, hret, hbytes⟩

/-- What a put that closes leaves. -/
theorem State.closed_spec (ls : List Landing) : let t := (s.appended p n ls).postCount (p.after n) false
    (t.th.packet = none ∧ ∃ e, t.counts = s.counts ++ [e] ∧ e.packet = p.id ∧ e.src = s.th.ident ∧ e.bytes = p.off + 8 * n ∧ e.error = false
      ∧ (p.sync = 0 → e.sync = none))
    ∧ t.landings = s.landings ++ ls ∧ t.th.x = s.th.x ∧ t.th.f = s.th.f ∧ Retires s t 4 ∧ KeepsBytes s t := by
  obtain ⟨-, hland, hcounts, hident, hx, hf, hret, hbytes⟩ := s.appended_spec (p := p) n ls
  exact ⟨⟨rfl, _, congrArg (· ++ _) hcounts, rfl, hident, rfl, rfl, fun h => if_pos h⟩, hland, hx, hf, hret, hbytes⟩

end

/-! ### Landing and counting (R143) -/

section
variable {s : State}

theorem execMessageLanding_none (h : s.landings[s.ev.idx]? = none) : exec .messageLanding s = .next s := by
  show execMessageLanding s = _
  unfold execMessageLanding
  rw [h]

/-- A word of a packet that its thread sent after another to that core, which has not landed, waits. -/
theorem execMessageLanding_waits {l : Landing} (h : s.landings[s.ev.idx]? = some l)
    (hw : ∃ m ∈ s.landings, m.src = l.src ∧ m.core = l.core ∧ m.packet < l.packet) : exec .messageLanding s = .next s := by
  obtain ⟨m, hm, hsrc, hcore, hlt⟩ := hw
  show execMessageLanding s = _
  unfold execMessageLanding
  rw [h]
  refine congrArg _ (if_pos (List.any_eq_true.2 ⟨m, hm, ?_⟩))
  simp [hsrc, hcore, hlt]

/-- Otherwise it lands. -/
theorem execMessageLanding_lands {l : Landing} (h : s.landings[s.ev.idx]? = some l)
    (hf : ∀ m ∈ s.landings, ¬(m.src = l.src ∧ m.core = l.core ∧ m.packet < l.packet)) :
    exec .messageLanding s = .next (State.putKey { s with landings := s.landings.eraseIdx s.ev.idx } l.view l.dst l.data) := by
  show execMessageLanding s = _
  unfold execMessageLanding
  rw [h]
  refine congrArg _ (if_neg ?_)
  rw [Bool.not_eq_true, List.any_eq_false]
  intro m hm hc
  simp only [Bool.and_eq_true, beq_iff_eq, decide_eq_true_eq] at hc
  obtain ⟨⟨hsrc, hcore⟩, hlt⟩ := hc
  exact hf m hm ⟨hsrc, hcore, hlt⟩

/-- A party that is no core's stores bytes to local memory and changes nothing else that is read. -/
theorem State.putKey_message (v : View) (hv : v.path = some .msg) (key : Nat) (bs : List Byte) (h : Memory.wf s.loc = true) :
    s.putKey v key bs = { s with loc := (s.putKey v key bs).loc, locPast := (s.putKey v key bs).locPast, now := (s.putKey v key bs).now }
      ∧ ∀ j, Memory.read (s.putKey v key bs).loc j = if key ≤ j ∧ j < key + bs.length then bs.getD (j - key) 0 else Memory.read s.loc j := by
  have hfire : s.fire v = s := if_neg (by rw [hv]; exact nofun)
  unfold State.putKey State.noteKey
  rw [hfire]
  exact ⟨rfl, fun j => Memory.read_writeN bs s.loc key j h⟩

theorem arriveWord_length (n : Nat) (err : Bool) (w : List Byte) : (arriveWord n err w).length = 32 := by
  unfold arriveWord
  simp only [List.length_append, bytesOf_length]

/-- An arrival writes the 32 bytes of its sync word (R180). -/
theorem State.read_arriveKey (h : Memory.wf s.loc = true) (k n : Nat) (err : Bool) (j : Nat) : Memory.read (s.arriveKey k n err).loc j =
    if k ≤ j ∧ j < k + 32 then (arriveWord n err (Memory.readN s.loc k 32)).getD (j - k) 0 else Memory.read s.loc j := by
  have hlen := arriveWord_length n err (Memory.readN s.loc k 32)
  unfold State.arriveKey
  generalize arriveWord n err (Memory.readN s.loc k 32) = bs at hlen ⊢
  rw [← hlen]
  exact Memory.read_writeN bs s.loc k j h

theorem State.arriveKey_eq (k n : Nat) (err : Bool) : s.arriveKey k n err = { s with loc := (s.arriveKey k n err).loc } := by
  obtain ⟨⟨m, hm⟩, -⟩ := s.arriveKey_frame k n err
  rw [hm]

/-- What a packet's count waits for (R143). -/
def State.countReady (s : State) (c : Count) : Prop :=
  (∀ l ∈ s.landings, l.packet ≠ c.packet) ∧ ∀ d ∈ s.counts.take s.ev.idx, ¬(d.src = c.src ∧ d.core = c.core)

theorem State.countReady_iff (c : Count) : s.countReady c ↔ ¬(s.landings.any (fun l => l.packet == c.packet) = true ∨
    (s.counts.take s.ev.idx).any (fun d => d.src == c.src && d.core == c.core) = true) := by
  unfold State.countReady
  simp only [List.any_eq_true, Bool.and_eq_true, beq_iff_eq, not_or, not_exists, not_and, ne_eq]

theorem execPacketCount_waits {c : Count} (h : s.counts[s.ev.idx]? = some c) (hr : ¬s.countReady c) : exec .packetCount s = .next s := by
  rw [State.countReady_iff, not_not] at hr
  show execPacketCount s = _
  unfold execPacketCount
  rw [h]
  exact congrArg _ (if_pos hr)

/-- A packet that is ready counts at its sync word, if it names one. -/
theorem execPacketCount_counts {c : Count} (h : s.counts[s.ev.idx]? = some c) (hr : s.countReady c) : exec .packetCount s =
    .next (match c.sync with
      | some k => State.arriveKey { s with counts := s.counts.eraseIdx s.ev.idx } k c.bytes c.error
      | none => { s with counts := s.counts.eraseIdx s.ev.idx }) := by
  rw [State.countReady_iff] at hr
  show execPacketCount s = _
  unfold execPacketCount
  rw [h]
  exact congrArg _ (if_neg hr)

end

/-- Settles O26. -/
theorem messagePackets : Obligations.MessagePackets := by
  refine ⟨fun s a b c => ?_, fun s hwf => ?_⟩
  · refine ⟨fun hp hc hm hf => ?_, execMopen_traps a b c, fun h => ⟨?_, ?_⟩, fun p hp _ hlo => ?_⟩
    · exact ⟨_, execMopen_opens a b c hp hc hm (mopenFault_none hf.1 hf.2.1 hf.2.2.1 hf.2.2.2), s.opened_spec _ _ _⟩
    · exact congrArg _ (s.put_traps 1 (.inl h))
    · exact congrArg _ (s.put_traps 1 (.inl h))
    · have hw (hb : s.streamOf b = none) : bytesOf 32 (s.operand b).toNat = bytesOf (8 * 4) (s.getF b).toNat := by rw [s.operand_unbound b hb]
      refine ⟨fun hn he => ?_, fun hn he hb => ?_, fun he => ?_, fun he hb => ?_, fun hn => ⟨?_, ?_⟩, fun hn he => ?_⟩
      · obtain ⟨hpk, hl, hcn, -, rest⟩ := s.appended_spec (p := p) 1 (s.putWords p 1 (s.getX b).toNat)
        exact ⟨_, congrArg Host.Outcome.next (State.put_words 1 hp (.inl hn) s.unbound_nil one_pos hlo he rfl), hl, ⟨hpk, hcn⟩, rest⟩
      · obtain ⟨hpk, hl, hcn, -, rest⟩ := s.appended_spec (p := p) 4 (s.putWords p 4 (s.getF b).toNat)
        exact ⟨_, congrArg Host.Outcome.next (State.put_words 4 hp (.inl hn) (s.unbound_one b hb) four_pos hlo he (hw hb)), hl, ⟨hpk, hcn⟩, rest⟩
      · obtain ⟨hcl, hl, rest⟩ := s.closed_spec (p := p) 1 (s.putWords p 1 (s.getX b).toNat)
        exact ⟨_, congrArg Host.Outcome.next (State.put_words 1 hp (.inr rfl) s.unbound_nil one_pos hlo he rfl), hl, hcl, rest⟩
      · obtain ⟨hcl, hl, rest⟩ := s.closed_spec (p := p) 4 (s.putWords p 4 (s.getF b).toNat)
        exact ⟨_, congrArg Host.Outcome.next (State.put_words 4 hp (.inr rfl) (s.unbound_one b hb) four_pos hlo he (hw hb)), hl, hcl, rest⟩
      · exact congrArg _ (s.put_traps 1 (.inr ⟨rfl, p, hp, hn⟩))
      · exact congrArg _ (s.put_traps 4 (.inr ⟨rfl, p, hp, hn⟩))
      · exact congrArg _ (State.put_outside 1 hp (.inl hn) s.unbound_nil he)
  · refine ⟨fun l hl => ⟨fun hf => ?_, fun hf => ?_⟩, execMessageLanding_none, fun c hc => ⟨execPacketCount_waits hc, fun hr => ?_⟩⟩
    · push Not at hf
      exact execMessageLanding_waits hl hf
    · exact ⟨_, execMessageLanding_lands hl hf, State.putKey_message _ rfl _ _ hwf⟩
    · refine ⟨_, execPacketCount_counts hc hr, ?_⟩
      obtain ⟨packet, src, core, sync, n, err⟩ := c
      cases sync with
      | none => exact ⟨rfl, fun _ => rfl, fun _ h => nomatch h⟩
      | some k =>
        refine ⟨State.arriveKey_eq k n err, fun h => (nomatch h), fun k' hk j => ?_⟩
        cases hk
        have hr := State.read_arriveKey (s := { s with counts := s.counts.eraseIdx s.ev.idx }) hwf k n err j
        exact hr

end Sys2Proof.Machine
end

section
/-!
PROOF. The instruction `launch`: new ids and the queue (O28, R133 to R135).
-/
namespace Sys2Proof.Machine
open Sys2Proof

/-! ### New launch ids (R135) -/

/-- The `k`-th id that the search for a free one tries, from `n` on. -/
def idTried (n k : Nat) : Nat := ((if n = 0 ∨ 2 ^ 31 ≤ n then 1 else n) - 1 + k) % (2 ^ 31 - 1) + 1

theorem idTried_zero (n : Nat) : idTried n 0 = if n = 0 ∨ 2 ^ 31 ≤ n then 1 else n := by
  unfold idTried
  split <;> omega

theorem idTried_succ (n k : Nat) : idTried (idTried n 0 + 1) k = idTried n (k + 1) := by
  unfold idTried
  split <;> split <;> omega

theorem idTried_inj {n a b : Nat} (ha : a < 2 ^ 31 - 1) (hb : b < 2 ^ 31 - 1) (h : idTried n a = idTried n b) : a = b := by
  unfold idTried at h
  split at h <;> omega

theorem idTried_range (n k : Nat) : 1 ≤ idTried n k ∧ idTried n k < 2 ^ 31 := by
  unfold idTried
  omega

/-- The search for a free id finds one of its range that no launch has, or each id that it tries is a launch's. -/
theorem State.freeId_or (s : State) (fuel : Nat) : ∀ n, (1 ≤ s.freeId n fuel ∧ s.freeId n fuel < 2 ^ 31 ∧ ∀ l ∈ s.launches, l.id ≠ s.freeId n fuel)
    ∨ ∀ k < fuel, idTried n k ∈ s.launches.map (·.id) := by
  induction fuel with
  | zero => exact fun n => .inr fun k hk => absurd hk (Nat.not_lt_zero k)
  | succ fuel ih =>
    intro n
    rw [State.freeId, ← idTried_zero]
    split
    next h =>
      refine (ih (idTried n 0 + 1)).imp_right fun hall k hk => ?_
      cases k with
      | zero =>
        obtain ⟨l, hl, he⟩ := List.any_eq_true.1 h
        exact List.mem_map.2 ⟨l, hl, beq_iff_eq.1 he⟩
      | succ k =>
        rw [← idTried_succ]
        exact hall k (by omega)
    next h =>
      rw [Bool.not_eq_true, List.any_eq_false] at h
      obtain ⟨hlo, hhi⟩ := idTried_range n 0
      exact .inl ⟨hlo, hhi, fun l hl he => h l hl (beq_iff_eq.2 he)⟩

/-- Fewer than 2^31 - 1 launches leave an id free, and the search finds it. -/
theorem State.freeId_fresh (s : State) (n : Nat) (h : s.launches.length + 1 < 2 ^ 31) :
    1 ≤ s.freeId n (s.launches.length + 1) ∧ s.freeId n (s.launches.length + 1) < 2 ^ 31
      ∧ ∀ l ∈ s.launches, l.id ≠ s.freeId n (s.launches.length + 1) := by
  refine (s.freeId_or _ n).resolve_right fun hall => ?_
  have hnodup : ((List.range (s.launches.length + 1)).map (idTried n)).Nodup :=
    List.Nodup.map_on (fun a ha b hb => idTried_inj (by rw [List.mem_range] at ha; omega) (by rw [List.mem_range] at hb; omega)) List.nodup_range
  have hsub : (List.range (s.launches.length + 1)).map (idTried n) ⊆ s.launches.map (·.id) := by
    intro m hm
    obtain ⟨k, hk, rfl⟩ := List.mem_map.1 hm
    exact hall k (List.mem_range.1 hk)
  have hle := (List.subperm_of_subset hnodup hsub).length_le
  rw [List.length_map, List.length_map, List.length_range] at hle
  omega

/-! ### Accepting a packet (R134) -/

/-- Counting an instruction changes at most the launches' rivals (R329). -/
theorem State.launchesCounted_map (s : State) : ∃ f : Launch → Launch, s.launchesCounted = s.launches.map f
    ∧ ∀ l, ∃ rs, f l = { l with rivals := rs } := by
  unfold State.launchesCounted
  split
  · exact ⟨id, (List.map_id _).symm, fun l => ⟨l.rivals, rfl⟩⟩
  · refine ⟨_, rfl, fun l => ?_⟩
    split
    · exact ⟨_, rfl⟩
    · exact ⟨l.rivals, rfl⟩

section
variable {s : State} (d a : Reg)

theorem execLaunch_inPacket (h : s.th.packet ≠ none) : exec (.launch d a) s = .next (s.trapWord 0x12 (.launch d a)) :=
  congrArg Host.Outcome.next (if_pos (Option.isSome_iff_ne_none.2 h))

theorem execLaunch_traps (hp : s.th.packet = none) {c q : Nat} (h : s.localCheck (s.getX a).toNat 64 64 = some (c, q)) :
    exec (.launch d a) s = .next (s.trap c q) := by
  show execLaunch d a s = _
  unfold execLaunch
  dsimp only
  rw [h, hp]
  rfl

theorem State.readOnce_eq (s : State) (la n : Nat) : s.readOnce la n = s.th.latched.getD (s.seeLoc (s.th.view .core) la n) := by
  unfold State.readOnce
  split <;> rename_i h <;> rw [h] <;> rfl

section
variable (hp : s.th.packet = none) (hl : s.localCheck (s.getX a).toNat 64 64 = none) (hf : s.th.acquiring = false)
include hp hl hf

/-- `launch` that passes its checks reads its packet once. -/
theorem execLaunch_reads : exec (.launch d a) s =
    .next (s.afterReleaseWith .dev (s.readOnce (s.getX a).toNat 64) (fun u =>
      let bs := s.readOnce (s.getX a).toNat 64
      let fn := if u.th.sys then 0 else u.th.ident.vf
      let st := u.packetStatus bs fn u.th.sys u.th.ident.rival.isSome
      if st = 0 then (u.accept (parsePacket bs) fn false).2.result d (BitVec.ofNat 64 (u.accept (parsePacket bs) fn false).1)
      else u.result d (BitVec.ofInt 64 st))) := by
  show execLaunch d a s = _
  unfold execLaunch
  dsimp only
  rw [hl, hp]
  exact congrArg _ ((if_neg Bool.false_ne_true).trans (State.whenFree_go s _ hf))

theorem execLaunch_waits (hw : s.releaseWait = .stall) :
    exec (.launch d a) s = .next ((s.stallWith (s.readOnce (s.getX a).toNat 64)).inRelease .dev) := by
  rw [execLaunch_reads d a hp hl hf]
  exact congrArg _ (s.releaseTo_stall .dev _ _ hw)

theorem execLaunch_goes (hc : s.Clear) : exec (.launch d a) s =
    .next (let bs := s.readOnce (s.getX a).toNat 64
      let fn := if s.th.sys then 0 else s.th.ident.vf
      let st := s.packetStatus bs fn s.th.sys s.th.ident.rival.isSome
      if st = 0 then ((s.released .dev).accept (parsePacket bs) fn false).2.result d
          (BitVec.ofNat 64 ((s.released .dev).accept (parsePacket bs) fn false).1)
      else (s.released .dev).result d (BitVec.ofInt 64 st)) := by
  obtain ⟨hacc, hheld⟩ := hc
  rw [execLaunch_reads d a hp hl hf]
  exact congrArg _ (s.releaseTo_go .dev _ _ (s.releaseWait_go hheld hacc) (.inl nofun))

end

/-- What an issuer's releasing operation waits for, where nothing of its own has failed. -/
theorem State.releaseWait_stall (ho : s.ownWhy = []) (ha : ∃ e ∈ s.th.acc, e.stuck = none) : s.releaseWait = .stall := by
  obtain ⟨e, he, hs⟩ := ha
  unfold State.releaseWait
  rw [ho]
  refine if_neg fun hall => ?_
  have := List.all_eq_true.1 hall e he
  rw [hs] at this
  exact nomatch this

end

/-- The launch that `accept` appends. -/
theorem State.accept_spec (s : State) (p : LaunchPacket) (fn : Nat) (host : Bool) : ∃ l : Launch,
    s.accept p fn host = (l.id, { s with launches := s.launches ++ [l], nextLaunch := l.id + 1 })
      ∧ l.id = s.freeId s.nextLaunch (s.launches.length + 1) ∧ l.fn = fn ∧ l.pkt = p ∧ l.count = none ∧ l.bound = [] ∧ l.finished = 0 :=
  ⟨{ id := s.freeId s.nextLaunch (s.launches.length + 1), fn := fn, pkt := p, host := host, count := none, bound := [], finished := 0, round := 0
     seen := s.now, got := (0, 0)
     rivals := if p.kind = 1 then makeRivals p
       (if s.unitsReserved p.firstDie p.prio (fun _ _ => false) then [] else s.freeUnits p.firstDie) else [] },
   rfl, rfl, rfl, rfl, rfl, rfl, rfl⟩

/-- An accepted launch stands last in the queue when `launch` retires, under a new id (R135). -/
theorem State.accept_result (s : State) (p : LaunchPacket) (fn : Nat) (d : Reg) (h : s.launches.length + 1 < 2 ^ 31) :
    let t := (s.accept p fn false).2.result d (BitVec.ofNat 64 (s.accept p fn false).1)
    ∃ l, t.launches.length = s.launches.length + 1 ∧ t.launches.getLast? = some l
      ∧ l.fn = fn ∧ l.pkt = p ∧ l.count = none ∧ l.bound = [] ∧ l.finished = 0
      ∧ 1 ≤ l.id ∧ l.id < 2 ^ 31 ∧ (∀ m ∈ s.launches, m.id ≠ l.id)
      ∧ (∀ r, t.getX r = if r = d ∧ d ≠ 0 then BitVec.ofNat 64 l.id else s.getX r)
      ∧ KeepsBesideX s.th t.th ∧ Retires s t 4 ∧ KeepsBytes s t
      ∧ t = { s with th := t.th, launches := t.launches, nextLaunch := t.nextLaunch, usage := t.usage } := by
  obtain ⟨l, ha, hid, hfn, hpkt, hcount, hbound, hfin⟩ := s.accept_spec p fn false
  obtain ⟨hlo, hhi, hnew⟩ := s.freeId_fresh s.nextLaunch h
  rw [← hid] at hlo hhi hnew
  rw [ha]
  dsimp only
  obtain ⟨t, ht, hx, -, hth, hret, hout, hbytes⟩ := State.result_spec { s with launches := s.launches ++ [l], nextLaunch := l.id + 1 } d (BitVec.ofNat 64 l.id)
  cases ht
  obtain ⟨f, hmap, hkeep⟩ := State.launchesCounted_map { s with launches := s.launches ++ [l], nextLaunch := l.id + 1 }
  obtain ⟨rs, hl⟩ := hkeep l
  have hls := congrArg State.launches hout
  generalize State.result { s with launches := s.launches ++ [l], nextLaunch := l.id + 1 } d (BitVec.ofNat 64 l.id) = t at *
  replace hls : t.launches = s.launches.map f ++ [f l] := by
    rw [hls]
    exact hmap.trans (List.map_append ..)
  refine ⟨f l, by rw [hls]; simp, by rw [hls]; simp, ?_⟩
  rw [hl]
  exact ⟨hfn, hpkt, hcount, hbound, hfin, hlo, hhi, hnew, hx, hth, hret, hbytes, by rw [hout]⟩

/-- `Obligations.Launches`, of the instruction (R133 to R135). -/
theorem launches_instruction (s : State) (d a : Reg) :
    let la := (s.getX a).toNat
    let bs := s.th.latched.getD (s.seeLoc (s.th.view .core) la 64)
    let fn := if s.th.sys then 0 else s.th.ident.vf
    let st := s.packetStatus bs fn s.th.sys s.th.ident.rival.isSome
    let readable := la % 64 = 0 ∧ s.localFault s.th.owner la 64 = none ∧ s.th.packet = none ∧ s.th.acquiring = false
    (readable → s.ownWhy = [] → (∃ e ∈ s.th.acc, e.stuck = none) → exec (.launch d a) s = .next ((s.stallWith bs).inRelease .dev))
      ∧ (readable → s.Clear → st ≠ 0 → WritesX (s.released .dev) (exec (.launch d a) s) d (BitVec.ofInt 64 st))
      ∧ (readable → s.Clear → st = 0 → exec (.launch d a) s = .next (((s.released .dev).accept (parsePacket bs) fn false).2.result d
          (BitVec.ofNat 64 ((s.released .dev).accept (parsePacket bs) fn false).1))) := by
  intro la bs fn st readable
  have hbs : s.readOnce la 64 = bs := s.readOnce_eq la 64
  refine ⟨fun hr ho he => ?_, fun hr hc hst => ?_, fun hr hc hst => ?_⟩ <;> obtain ⟨ha, hl, hp, hf⟩ := hr <;>
    have hl := (State.localCheck_aligned ha).trans hl
  · rw [execLaunch_waits d a hp hl hf (State.releaseWait_stall ho he), hbs]
  · rw [execLaunch_goes d a hp hl hf hc, hbs, if_neg hst]
    exact (s.released .dev).result_spec d _
  · rw [execLaunch_goes d a hp hl hf hc, hbs, if_pos hst]

end Sys2Proof.Machine
end

section
/-!
PROOF. What a translation leaves: it registers no word, and to what Monel learns it only appends (R314, R317).
-/
namespace Sys2Proof.Machine
open Sys2Proof

theorem Tab.find_drop_none {α : Type} {t : Tab α} {k : Nat} (j : Nat) (h : Tab.find t k = none) : Tab.find (Tab.drop t j) k = none := by
  by_cases e : k = j
  · rw [e, Tab.find_drop_self]
  · rw [Tab.find_drop_ne _ _ _ e, h]

/-- A word that no cache has in `s` has none in `u`, and what Monel learned by `s` it has learned first by `u`. -/
structure XlatBound (s u : State) : Prop where
  unregistered : ∀ w, Tab.find s.regs w = none → Tab.find u.regs w = none
  told : s.monel <+: u.monel

theorem XlatBound.refl (s : State) : XlatBound s s := ⟨fun _ h => h, List.prefix_rfl⟩

theorem XlatBound.trans {s u v : State} (h : XlatBound s u) (k : XlatBound u v) : XlatBound s v :=
  ⟨fun w hw => k.unregistered w (h.unregistered w hw), h.told.trans k.told⟩

theorem XlatBound.same {s u : State} (hr : u.regs = s.regs) (hm : u.monel = s.monel) : XlatBound s u :=
  ⟨fun w hw => by rw [hr]; exact hw, by rw [hm]⟩

theorem XlatBound.drops {s u : State} {k : Nat} (hr : u.regs = Tab.drop s.regs k) (hm : u.monel = s.monel) : XlatBound s u :=
  ⟨fun w hw => by rw [hr]; exact Tab.find_drop_none k hw, by rw [hm]⟩

/-! ### Physical memory -/

theorem State.rekey_bound (s : State) (key unit : Nat) : XlatBound s (s.rekey key unit) := by
  unfold State.rekey
  split
  · exact .refl s
  · exact .same rfl rfl

theorem State.physWrite_bound (key : Nat) (bs : List Byte) : ∀ (s : State) (pa : Nat), XlatBound s (s.physWrite key pa bs) := by
  induction bs with
  | nil => intro s pa; exact .refl s
  | cons b r ih =>
    intro s pa
    have h : XlatBound s (s.physWrite1 key pa b) := (s.rekey_bound key (pa / 32)).trans (.same rfl rfl)
    exact h.trans (ih _ _)

theorem State.wakeSlice_bound (s : State) (n : Nat) : XlatBound s (s.wakeSlice n) := .same rfl rfl

theorem State.wakeAll_bound (ns : List Nat) : ∀ s : State, XlatBound s (ns.foldl State.wakeSlice s) := by
  induction ns with
  | nil => exact .refl
  | cons n r ih => intro s; exact (s.wakeSlice_bound n).trans (ih _)

theorem State.recall_bound (s : State) (word : Nat) : XlatBound s (s.recall word) := by
  unfold State.recall
  split
  · exact .refl s
  · rename_i r _
    have hw : XlatBound s (if r.core.isNone then s.wakeSlice r.slice else s) := by
      split
      · exact s.wakeSlice_bound _
      · exact .refl s
    dsimp only
    generalize (if r.core.isNone then s.wakeSlice r.slice else s) = u at hw ⊢
    have h := physWrite_bound r.key (bytesOf 8 r.data.toNat) u (word * 8)
    generalize u.physWrite r.key (word * 8) (bytesOf 8 r.data.toNat) = v at h ⊢
    exact hw.trans ⟨fun _ hn => Tab.find_drop_none word hn, h.told⟩

theorem State.recallIn_bound (s : State) (pa n : Nat) : XlatBound s (s.recallIn pa n) := by
  unfold State.recallIn
  generalize s.registeredIn pa n = l
  induction l generalizing s with
  | nil => exact .refl s
  | cons w r ih => exact (s.recall_bound w).trans (ih _)

theorem State.sliceRoom_bound (s : State) (slice word : Nat) : XlatBound s (s.sliceRoom slice word) := by
  unfold State.sliceRoom State.drawNat
  dsimp only
  split
  · exact .refl s
  · have hd : XlatBound s { s with draw := s.draw + 1 } := .same rfl rfl
    exact hd.trans (State.recallIn_bound _ _ _)

theorem State.toSlice_bound (s : State) (word : Nat) : XlatBound s (s.toSlice word) := by
  unfold State.toSlice
  split
  · exact .refl s
  · split
    · exact .refl s
    · rename_i r hr _
      have h := (s.wakeSlice_bound r.slice).trans ((s.wakeSlice r.slice).sliceRoom_bound r.slice word)
      dsimp only
      generalize (s.wakeSlice r.slice).sliceRoom r.slice word = u at h ⊢
      refine ⟨fun w hw => ?_, h.told⟩
      have hne : w ≠ word := fun e => by rw [e, hr] at hw; exact nomatch hw
      exact (Tab.find_put_ne _ _ _ _ hne).trans (h.unregistered w hw)

theorem State.putEntry_bound (s : State) (pa : Nat) (w : Word) : XlatBound s (s.putEntry pa w) := by
  unfold State.putEntry
  exact .drops rfl rfl

/-! ### Walks -/

theorem State.walkRead_bound (s : State) (slice pa : Nat) (fresh : Bool) : XlatBound s (s.walkRead slice pa fresh).2 := by
  have h (u : State) : XlatBound u { u.recallIn (pa / 64 * 64) 64 with
      walk := [0, 8, 16, 24, 32, 40, 48, 56].foldl (fun t k => Tab.put t (walkKey slice (pa / 64 * 64 + k))
        ((u.recallIn (pa / 64 * 64) 64).entryAt (pa / 64 * 64 + k))) (u.recallIn (pa / 64 * 64) 64).walk } :=
    (u.recallIn_bound _ _).trans (.same rfl rfl)
  unfold State.walkRead State.drawBit
  dsimp only
  split
  · exact h s
  · split
    · exact h s
    · have hd : XlatBound s { s with draw := s.draw + 1 } := .same rfl rfl
      split
      · exact hd
      · exact hd.trans (h _)

theorem State.members_bound (slice : Nat) (fresh : Bool) (n : Nat) :
    ∀ (s : State) (first : Nat), XlatBound s (s.members slice first fresh n).2 := by
  induction n with
  | zero => intro s first; exact .refl s
  | succ n ih => intro s first; exact (s.walkRead_bound slice first fresh).trans (ih _ _)

theorem State.pickMember_bound (s : State) (slice entry : Nat) (w : Word) (fresh : Bool) :
    XlatBound s (s.pickMember slice entry w fresh).2.2.2 := by
  have hm (first n : Nat) := members_bound slice fresh n s first
  unfold State.pickMember State.drawNat
  dsimp only
  generalize groupLen w = n
  replace hm := hm (entry / (8 * n) * (8 * n)) n
  revert hm
  generalize s.members slice (entry / (8 * n) * (8 * n)) fresh n = p
  intro hm
  obtain ⟨ms, u⟩ := p
  by_cases h : n = 1
  · rw [if_pos h]; exact .refl s
  · rw [if_neg h]
    dsimp only at hm ⊢
    by_cases k : ms.all (fun m => noAD m == noAD w) = true
    · rw [if_pos k]; exact hm
    · rw [if_neg k]; exact hm.trans (.same rfl rfl)

theorem State.walkLeaf_bound (s : State) (slice entry level : Nat) (w : Word) (fresh : Bool) :
    XlatBound s (s.walkLeaf slice entry level w fresh).2 := by
  have hp := s.pickMember_bound slice entry w fresh
  unfold State.walkLeaf
  split
  · exact .refl s
  · revert hp
    generalize s.pickMember slice entry w fresh = p
    intro hp
    dsimp only
    repeat' split
    all_goals exact hp

theorem State.walkFrom_bound (slice va : Nat) (fresh : Bool) (level : Nat) :
    ∀ (s : State) (table : Nat), XlatBound s (s.walkFrom slice va fresh table level).2 := by
  induction level with
  | zero =>
    intro s table
    have hr (e : Nat) := s.walkRead_bound slice e fresh
    rw [State.walkFrom]
    generalize table + 8 * (va / 2 ^ (16 + 10 * 0) % 1024) = e
    replace hr := hr e
    generalize s.walkRead slice e fresh = p at hr ⊢
    obtain ⟨w, u⟩ := p
    dsimp only at hr ⊢
    split
    · exact hr
    · split
      · exact hr.trans (walkLeaf_bound _ _ _ _ _ _)
      · exact hr
  | succ l ih =>
    intro s table
    have hr (e : Nat) := s.walkRead_bound slice e fresh
    rw [State.walkFrom]
    generalize table + 8 * (va / 2 ^ (16 + 10 * (l + 1)) % 1024) = e
    replace hr := hr e
    generalize s.walkRead slice e fresh = p at hr ⊢
    obtain ⟨w, u⟩ := p
    dsimp only at hr ⊢
    split
    · exact hr
    · split
      · exact hr.trans (walkLeaf_bound _ _ _ _ _ _)
      · split
        · exact hr
        · exact hr.trans (ih _ _)

theorem State.walkVa_bound (s : State) (slice fn va : Nat) (fresh : Bool) : XlatBound s (s.walkVa slice fn va fresh).2 := by
  unfold State.walkVa
  dsimp only
  split
  · exact walkRead_bound _ _ _ _
  · exact (walkRead_bound _ _ _ _).trans (walkFrom_bound _ _ _ _ _ _)

theorem State.fill_bound (s u : State) (slice fn va : Nat) (leaf : Word) (entry first key : Nat) (t : Trans)
    (h : s.fill slice fn va leaf entry first = some (key, t, u)) : XlatBound s u := by
  unfold State.fill at h
  split at h
  · cases h
    exact (s.putEntry_bound first (s.entryAt first ||| 0x80#64)).trans (.same rfl rfl)
  · cases h

theorem State.leafOf_bound (r : Req) (slice va : Nat) (fuel : Nat) :
    ∀ (s : State) (fresh : Bool), XlatBound s (s.leafOf r slice va fresh fuel).2 := by
  induction fuel with
  | zero => intro s fresh; exact .refl s
  | succ n ih =>
    intro s fresh
    have hw := s.walkVa_bound slice r.fn va fresh
    unfold State.leafOf
    revert hw
    generalize s.walkVa slice r.fn va fresh = p
    obtain ⟨w, u⟩ := p
    intro hw
    cases w with
    | absent => exact hw
    | broken e l => exact hw.trans ⟨fun _ hn => hn, List.prefix_append _ _⟩
    | leaf w e f =>
      dsimp only at hw ⊢
      split
      · rename_i hv
        exact hw.trans (fill_bound _ _ _ _ _ _ _ _ _ _ hv)
      · exact hw.trans (ih _ _)

/-! ### Translating -/

theorem State.setD_bound (s : State) (key : Nat) : XlatBound s (s.setD key) := by
  unfold State.setD
  split
  · exact .refl s
  · split
    · exact .refl s
    · rename_i t _ _
      have h := s.putEntry_bound t.first (s.entryAt t.first ||| 0x100#64)
      generalize s.putEntry t.first (s.entryAt t.first ||| 0x100#64) = u at h ⊢
      exact h.trans (.same rfl rfl)

theorem State.translateWalked_bound (s : State) (r : Req) (slice va : Nat) (fresh : Bool) :
    XlatBound s (s.translateWalked r slice va fresh).2 := by
  have h := leafOf_bound r slice va 2 s fresh
  unfold State.translateWalked
  revert h
  generalize s.leafOf r slice va fresh 2 = p
  obtain ⟨e, u⟩ := p
  intro h
  cases e <;> exact h

theorem State.translateAt_bound (s : State) (r : Req) (slice va : Nat) : XlatBound s (s.translateAt r slice va).2 := by
  have again (key : Nat) (fresh : Bool) : XlatBound s ({ s with tlb := Tab.drop s.tlb key }.translateWalked r slice va fresh).2 :=
    have h : XlatBound s { s with tlb := Tab.drop s.tlb key } := .same rfl rfl
    h.trans (State.translateWalked_bound { s with tlb := Tab.drop s.tlb key } r slice va fresh)
  unfold State.translateAt
  split
  · exact s.translateWalked_bound r slice va false
  · split
    · split
      · exact again _ _
      · exact .refl s
    · have h := leafOf_bound r slice va 2 s false
      revert h
      generalize s.leafOf r slice va false 2 = p
      obtain ⟨e, u⟩ := p
      intro h
      cases e with
      | error c => exact h
      | ok q =>
        dsimp only at h ⊢
        split
        · exact h
        · exact h.trans (.same rfl rfl)

/-- All that a translation can do (R312 to R318, R321). -/
theorem State.translate_bound (s : State) (r : Req) (va : Nat) : XlatBound s (s.translate r va).2 := by
  have h := s.translateAt_bound r (r.die * 160 + homeSlice va) va
  unfold State.translate
  dsimp only
  split
  · exact .refl s
  · exact h.trans (State.wakeAll_bound _ _)

end Sys2Proof.Machine
end

section
/-!
PROOF. Bare memory, the reading of a launch's count and the completion block (O28, R137, R138).
-/
namespace Sys2Proof.Machine
open Sys2Proof

/-! ### Bytes and numbers -/

theorem bytesOf_natOf (bs : List Byte) : bytesOf bs.length (natOf bs) = bs := by
  induction bs with
  | nil => rfl
  | cons b r ih =>
    have hb : (BitVec.toNat b + 256 * natOf r) / 256 = natOf r := by have := b.isLt; omega
    have h0 : BitVec.ofNat 8 (BitVec.toNat b + 256 * natOf r) = b := by
      apply BitVec.eq_of_toNat_eq
      rw [BitVec.toNat_ofNat]
      have := b.isLt
      omega
    rw [List.length_cons, natOf, bytesOf, hb, h0, ih]

/-- The bytes of the word that 8 bytes spell. -/
theorem bytesOf_ofNat_natOf (bs : List Byte) (h : bs.length = 8) : bytesOf 8 (BitVec.ofNat 64 (natOf bs)).toNat = bs := by
  have hlt := natOf_lt bs
  rw [h] at hlt
  rw [BitVec.toNat_ofNat, Nat.mod_eq_of_lt (lt_of_lt_of_eq hlt (by norm_num)), ← h, bytesOf_natOf]

@[simp] theorem Memory.readN_length (m : Memory) (n : Nat) : ∀ a, (Memory.readN m a n).length = n := by
  induction n with
  | zero => exact fun _ => rfl
  | succ n ih => exact fun a => congrArg (· + 1) (ih (a + 1))

/-- Part of the bytes of a range. -/
theorem Memory.readN_part (m : Memory) (k n : Nat) : ∀ len a, k + n ≤ len → ((Memory.readN m a len).drop k).take n = Memory.readN m (a + k) n := by
  have htake (n : Nat) : ∀ len a, n ≤ len → (Memory.readN m a len).take n = Memory.readN m a n := by
    induction n with
    | zero => exact fun _ _ _ => List.take_zero
    | succ n ih =>
      intro len a h
      obtain ⟨len, rfl⟩ : ∃ l, len = l + 1 := ⟨len - 1, by omega⟩
      exact congrArg _ (ih len (a + 1) (by omega))
  induction k with
  | zero => exact fun len a h => htake n len a (by omega)
  | succ k ih =>
    intro len a h
    obtain ⟨len, rfl⟩ : ∃ l, len = l + 1 := ⟨len - 1, by omega⟩
    rw [show a + (k + 1) = a + 1 + k by omega]
    exact ih len (a + 1) (by omega)

/-! ### Bare memory -/

section
variable {u : State}

theorem State.Bare.poisonedIn (h : u.Bare) (pa n : Nat) : u.poisonedIn pa n = none := by
  unfold State.poisonedIn
  rw [h.1]
  rfl

theorem State.Bare.badIn (h : u.Bare) (pa n : Nat) : u.badIn pa n = none := by
  unfold State.badIn
  rw [h.2.1]
  rfl

/-- No register holds a word of any range. -/
theorem State.registeredIn_nil (h : u.regs = []) (pa n : Nat) : u.registeredIn pa n = [] := by
  unfold State.registeredIn
  rw [h]
  rfl

theorem State.perhapsEvicted_nil (h : u.regs = []) (pa n : Nat) : u.perhapsEvicted pa n = u := by
  unfold State.perhapsEvicted
  rw [State.registeredIn_nil h]
  rfl

theorem State.recallIn_nil (h : u.regs = []) (pa n : Nat) : u.recallIn pa n = u := by
  unfold State.recallIn
  rw [State.registeredIn_nil h]
  rfl

/-- Without indexes and keys, memory holds the bytes as they are read (R289, R360). -/
theorem State.physRead_plain (hx : u.indexes = []) (hk : u.keys = []) (n : Nat) : ∀ pa, u.physRead 0 pa n = Memory.readN u.mem pa n := by
  have hb (pa : Nat) : u.physByte 0 pa = Memory.read u.mem pa := by
    unfold State.physByte State.inRegion
    rw [hx, hk]
    rfl
  induction n with
  | zero => exact fun _ => rfl
  | succ n ih => exact fun pa => by rw [State.physRead, hb, ih, Memory.readN]

theorem State.physWrite_plain (bs : List Byte) : ∀ (u : State) (pa : Nat), u.keys = [] →
    u.physWrite 0 pa bs = { u with mem := Memory.writeN u.mem pa bs } := by
  induction bs with
  | nil => exact fun _ _ _ => rfl
  | cons b r ih =>
    intro u pa hk
    have hr : u.rekey 0 (pa / 32) = u := if_pos (by rw [hk]; rfl)
    rw [State.physWrite, State.physWrite1, hr, ih _ _ (by exact hk)]
    rfl

/-- The bytes of a word of memory that an untracked access reads. -/
theorem State.wordNow_plain (hx : u.indexes = []) (hk : u.keys = []) (key pa n : Nat) (hn : pa % 8 + n ≤ 8) :
    ((bytesOf 8 (u.wordNow key false pa).toNat).drop (pa % 8)).take n = Memory.readN u.mem pa n := by
  have hw : u.wordNow key false pa = BitVec.ofNat 64 (natOf (Memory.readN u.mem (pa / 8 * 8) 8)) := by
    rw [← State.physRead_plain hx hk]
    rfl
  rw [hw, bytesOf_ofNat_natOf _ (Memory.readN_length ..), Memory.readN_part _ _ _ _ _ hn, Nat.div_add_mod']

end

/-! ### The count of a launch (R137) -/

section
variable {s u : State} {l : Launch}

theorem execLaunchReplicate_given (h : s.launchById s.ev.unit = some l) (hc : l.count = none) (hi : l.pkt.indirect = false) :
    exec .launchReplicate s = .next (s.putLaunch { l with count := some l.pkt.gangs }) := by
  show execLaunchReplicate s = _
  unfold execLaunchReplicate
  rw [h]
  dsimp only
  rw [hc, hi]
  rfl

section
variable (h : s.launchById s.ev.unit = some l) (hc : l.count = none) (hi : l.pkt.indirect = true)
include h hc hi

theorem execLaunchReplicate_counts {p : Phys}
    (hr : s.translate ((hubOwner l.pkt.firstDie l.fn l.id (!l.pkt.sys)).req .load none) l.pkt.countva = (.ok p, u))
    (hp : p.tracked = false) (hb : u.Bare) (hn : p.pa % 8 + 4 ≤ 8) : exec .launchReplicate s =
    .next ((u.putLaunch { l with count := some (min (natOf (Memory.readN u.mem p.pa 4)) l.pkt.gangs) }).closeLaunch l.fn l.id) := by
  obtain ⟨-, -, hx, hk, hregs, -⟩ := id hb
  have hnat : u.hubNat l.fn p 4 = natOf (Memory.readN u.mem p.pa 4) := by
    unfold State.hubNat
    rw [hp, State.wordNow_plain hx hk _ _ _ hn]
  show execLaunchReplicate s = _
  unfold execLaunchReplicate
  rw [h]
  dsimp only
  rw [hc, hi, if_neg (by exact Bool.false_ne_true), if_neg (by exact Bool.false_ne_true), hr]
  dsimp only
  rw [hb.poisonedIn, hb.badIn, hp, State.perhapsEvicted_nil hregs, if_neg (by simp), ← hnat]
  rfl

theorem execLaunchReplicate_faults {c : Nat}
    (hr : s.translate ((hubOwner l.pkt.firstDie l.fn l.id (!l.pkt.sys)).req .load none) l.pkt.countva = (.bad c, u)) :
    exec .launchReplicate s = .next { u with
      launches := u.launches.filter (fun m => m.id ≠ l.id)
      monel := u.monel ++ [⟨.launchFault, ⟨l.fn, l.id, 0, 0, none⟩, [l.id]⟩] } := by
  show execLaunchReplicate s = _
  unfold execLaunchReplicate
  rw [h]
  dsimp only
  rw [hc, hi, if_neg (by exact Bool.false_ne_true), if_neg (by exact Bool.false_ne_true), hr]

end

/-- A launch of no gangs is complete, and closing it removes it; the completion block of a tournament alone has an update left. -/
theorem State.closeLaunch_empty (hf : l.finished = 0) (hk : l.pkt.kind ≠ 1) (hc : l.count = some 0) :
    (∀ m ∈ ((u.putLaunch l).closeLaunch l.fn l.id).launches, ¬(m.id = l.id ∧ m.fn = l.fn))
      ∧ ((u.putLaunch l).closeLaunch l.fn l.id).completions = u.completions := by
  have hcomplete : l.complete = true := by
    unfold Launch.complete
    rw [if_neg hk, hc, hf]
    rfl
  have hself {m : Launch} (hm : m ∈ (u.putLaunch l).launches) (he : (m.id == l.id && m.fn == l.fn) = true) : m = l := by
    obtain ⟨k, -, rfl⟩ := List.mem_map.1 hm
    split at he
    next h => rw [if_pos h]
    next h => exact absurd he h
  unfold State.closeLaunch
  split
  next hnone =>
    refine ⟨fun m hm he => ?_, rfl⟩
    have := List.find?_eq_none.1 hnone m hm
    rw [he.1, he.2] at this
    simp at this
  next m hsome =>
    rw [hself (List.mem_of_find?_eq_some hsome) (List.find?_some (p := fun m : Launch => m.id == l.id && m.fn == l.fn) hsome), if_pos hcomplete]
    refine ⟨fun m hm he => ?_, if_neg fun h => hk h.1⟩
    obtain ⟨-, hm⟩ := List.mem_filter.1 hm
    rw [he.1, he.2] at hm
    simp at hm

end

end Sys2Proof.Machine
end

section
/-!
PROOF. The completion block and its releases (O28, R138, R350).
-/
namespace Sys2Proof.Machine
open Sys2Proof

/-! ### What a party's note of its write leaves -/

theorem State.fire_eq (s : State) (v : View) : s.fire v = { s with locPast := (s.fire v).locPast, memPast := (s.fire v).memPast } := by
  unfold State.fire
  split <;> rfl

theorem State.noteWord_eq (s : State) (v : View) (key : Nat) (tracked : Bool) (scope : Order) (word : Nat) (mask : BitVec 8) :
    ∃ lp mp, s.noteWord v key tracked scope word mask = { s with locPast := lp, memPast := mp } := by
  have h := s.fire_eq v
  unfold State.noteWord
  generalize s.fire v = u at h ⊢
  rw [h]
  dsimp only
  split <;> exact ⟨_, _, rfl⟩

theorem State.noteMem_eq (s : State) (v : View) (key : Nat) (tracked : Bool) (scope : Order) (pa n : Nat) :
    ∃ lp mp, s.noteMem v key tracked scope pa n = { s with locPast := lp, memPast := mp } := by
  unfold State.noteMem
  generalize wordsOf pa n = ws
  induction ws generalizing s with
  | nil => exact ⟨s.locPast, s.memPast, rfl⟩
  | cons w r ih =>
    obtain ⟨lp, mp, h⟩ := s.noteWord_eq v key tracked scope w (coverMask w pa n)
    obtain ⟨lp', mp', h'⟩ := ih (s.noteWord v key tracked scope w (coverMask w pa n))
    exact ⟨lp', mp', h'.trans (by rw [h])⟩

/-! ### An atomic of an untracked word of bare memory -/

section
variable {s : State}

/-- Setting D in bare memory registers no word and puts none under a key. -/
theorem State.Bare.setD (h : s.Bare) (key : Nat) : (s.setD key).regs = [] ∧ (s.setD key).keys = [] ∧ Memory.wf (s.setD key).mem = true := by
  obtain ⟨-, -, -, hk, hr, -, hwf⟩ := h
  have hd (k : Nat) : Tab.drop s.regs k = [] := by rw [hr]; rfl
  refine ⟨?_, ?_, (s.setD_frame key).wf hwf⟩ <;> unfold State.setD <;> split
  · exact hr
  · split
    · exact hr
    · exact hd _
  · exact hk
  · split <;> exact hk

/-- An untracked store writes its bytes to memory. -/
theorem State.storeAt_plain (v : View) (k : Keeper) (fn : Nat) (scope : Order) (va : Nat) {p : Phys} (bs : List Byte)
    (hp : p.tracked = false) (ht : pteRetag p.leaf = false) (h : s.Bare) :
    (s.storeAt v k fn scope va p bs).mem = Memory.writeN (s.setD p.key).mem p.pa bs
      ∧ (s.storeAt v k fn scope va p bs).completions = s.completions ∧ (s.storeAt v k fn scope va p bs).ev = s.ev := by
  obtain ⟨hregs, hkeys, -⟩ := h.setD p.key
  have hsame := (s.setD_frame p.key).same
  have hretag : (s.setD p.key).retagRows p.leaf p.pa bs.length = s.setD p.key := if_neg (by rw [ht]; simp)
  have hkey : s.keyFor fn p.tracked p.pa = 0 := if_neg (by rw [hp]; simp)
  unfold State.storeAt
  dsimp only
  rw [hretag, hkey]
  generalize s.setD p.key = u at *
  obtain ⟨lp, mp, hn⟩ := u.noteMem_eq v 0 p.tracked scope p.pa bs.length
  rw [hn, if_pos (by rw [hp]; rfl), State.perhapsEvicted_nil (by exact hregs), State.physWrite_plain _ _ _ (by exact hkeys)]
  have hcompletions := congrArg State.completions hsame
  have hev := congrArg State.ev hsame
  exact ⟨rfl, hcompletions, hev⟩

/-- An untracked atomic works on what memory holds. -/
theorem State.atomicAt_plain (v : View) (fn : Nat) (scope : Order) (va : Nat) {p : Phys} (n : Nat) (f : Nat → Nat)
    (hp : p.tracked = false) (ht : pteRetag p.leaf = false) (h : s.Bare) (hn : p.pa % 8 + n ≤ 8) :
    let t := (s.atomicAt v fn scope va p n (fun old => some (f old))).2
    t.mem = Memory.writeN (s.setD p.key).mem p.pa (bytesOf n (f (natOf (Memory.readN s.mem p.pa n))))
      ∧ t.completions = s.completions ∧ t.ev = s.ev := by
  obtain ⟨-, -, hx, hk, hregs, -⟩ := id h
  have hkeep : atomicKeeper v scope va p = .memory := if_pos (by rw [hp]; rfl)
  have hplace : s.atomicPlace .memory p n = s := State.recallIn_nil hregs _ _
  have hold := State.wordNow_plain hx hk (s.keyFor fn false p.pa) p.pa n hn
  unfold State.atomicAt
  dsimp only
  rw [hkeep, hplace, hp, hold]
  exact s.storeAt_plain v .memory fn _ va _ hp ht h

end

/-! ### What stays unregistered -/

/-- Words of host and peer memory stand above those of the device. -/
theorem outside_word {w : Nat} (h : isOutside (w * 8) = true) : 2 ^ 38 ≤ w := by
  unfold isOutside isHost isPeer peerBase at h
  simp only [Bool.or_eq_true, Bool.and_eq_true, decide_eq_true_eq] at h
  omega

theorem State.mem_outsideOf {s : State} {p : Past → Bool} {w : Nat} (h : w ∈ s.outsideOf p) : 2 ^ 38 ≤ w := by
  unfold State.outsideOf at h
  rw [List.mem_eraseDups] at h
  obtain ⟨e, he, rfl⟩ := List.mem_map.1 h
  obtain ⟨-, he⟩ := List.mem_filter.1 he
  exact outside_word (Bool.and_eq_true_iff.1 he).1

theorem State.recall_bound_foldl (ws : List Nat) : ∀ s : State, XlatBound s (ws.foldl State.recall s) := by
  induction ws with
  | nil => exact .refl
  | cons w r ih => exact fun s => (s.recall_bound w).trans (ih _)

/-- A word that has been written through is not registered (R350). -/
theorem State.through_unregistered (ws : List Nat) : ∀ s : State, ∀ w ∈ ws, Tab.find (s.through ws).regs w = none := by
  induction ws with
  | nil => exact fun _ _ h => nomatch h
  | cons x r ih =>
    intro s w hw
    rcases List.mem_cons.1 hw with rfl | hw
    · refine (recall_bound_foldl r (s.recall w)).unregistered w ?_
      unfold State.recall
      split
      · assumption
      · exact Tab.find_drop_self _ _
    · exact ih _ w hw

theorem State.perhapsEvicted_bound (s : State) (pa n : Nat) : XlatBound s (s.perhapsEvicted pa n) := by
  unfold State.perhapsEvicted State.drawBit
  generalize s.registeredIn pa n = ws
  induction ws generalizing s with
  | nil => exact .refl s
  | cons w r ih =>
    have hd : XlatBound s { s with draw := s.draw + 1 } := .same rfl rfl
    rw [List.foldl_cons]
    refine XlatBound.trans ?_ (ih _)
    dsimp only
    split
    · exact hd.trans (State.recall_bound _ _)
    · exact hd

theorem State.toSlices_bound (ws : List Nat) : ∀ s : State, XlatBound s (ws.foldl State.toSlice s) := by
  induction ws with
  | nil => exact .refl
  | cons w r ih => exact fun s => (s.toSlice_bound w).trans (ih _)

theorem State.atomicPlace_bound (s : State) (k : Keeper) (p : Phys) (n : Nat) : XlatBound s (s.atomicPlace k p n) := by
  cases k with
  | l1 c => exact .refl s
  | l2 m => exact toSlices_bound _ s
  | memory => exact s.recallIn_bound _ _

theorem State.retagRows_regs (s : State) (leaf : Word) (pa n : Nat) : (s.retagRows leaf pa n).regs = s.regs := by
  unfold State.retagRows
  split <;> rfl

section
variable {s : State} {w : Nat} (h : Tab.find s.regs w = none)
include h

/-- A slice that takes a word has no other word by it. -/
theorem State.registerWord_other (n key va pa : Nat) (bs : List Byte) (hw : pa / 8 ≠ w) :
    Tab.find (s.registerWord (.l2 n) key va pa bs).regs w = none := by
  unfold State.registerWord
  dsimp only [Keeper.core]
  refine (Tab.find_put_ne _ _ _ _ (Ne.symm hw)).trans ?_
  refine ((State.wakeSlice_bound _ _).trans (State.sliceRoom_bound _ _ _)).unregistered w ?_
  split
  · split
    · exact h
    · exact (s.recall_bound _).unregistered w h
  · exact h

theorem State.registerBytes_other (n key fuel : Nat) : ∀ va pa bs, pa + bs.length ≤ 8 * w →
    Tab.find (s.registerBytes (.l2 n) key va pa bs fuel).regs w = none := by
  induction fuel generalizing s with
  | zero => exact fun _ _ _ _ => h
  | succ fuel ih =>
    intro va pa bs hle
    rw [State.registerBytes]
    split
    · exact h
    next hne =>
      have hpos : 0 < bs.length := List.length_pos_iff.2 fun e => hne (List.isEmpty_iff.2 e)
      by_cases hm : 8 - pa % 8 ≤ bs.length
      · exact ih (State.registerWord_other h n key va pa _ (by omega)) _ _ _ (by rw [List.length_drop]; omega)
      · have hd : bs.drop (8 - pa % 8) = [] := List.drop_eq_nil_of_le (by omega)
        dsimp only
        rw [hd]
        have hw := State.registerWord_other h n key va pa (bs.take (8 - pa % 8)) (by omega)
        cases fuel with
        | zero => exact hw
        | succ fuel => exact hw

/-- A store to memory, or to a slice of a word of the device, has no word of host or peer memory registered. -/
theorem State.storeAt_outside (v : View) {k : Keeper} (fn : Nat) (scope : Order) (va : Nat) {p : Phys} {bs : List Byte} (hn : bs.length ≤ 8)
    (hk : k = .memory ∨ ∃ m, k = .l2 m ∧ p.pa < 2 ^ 40) (hw : 2 ^ 38 ≤ w) :
    Tab.find (s.storeAt v k fn scope va p bs).regs w = none := by
  unfold State.storeAt
  dsimp only
  generalize s.keyFor fn p.tracked p.pa = key
  obtain ⟨lp, mp, hnote⟩ := ((s.setD p.key).retagRows p.leaf p.pa bs.length).noteMem_eq v key p.tracked scope p.pa bs.length
  have hu : Tab.find (((s.setD p.key).retagRows p.leaf p.pa bs.length).noteMem v key p.tracked scope p.pa bs.length).regs w = none := by
    rw [hnote]
    show Tab.find ((s.setD p.key).retagRows p.leaf p.pa bs.length).regs w = none
    rw [State.retagRows_regs]
    exact (s.setD_bound p.key).unregistered w h
  generalize ((s.setD p.key).retagRows p.leaf p.pa bs.length).noteMem v key p.tracked scope p.pa bs.length = u at hu ⊢
  split
  · exact ((u.perhapsEvicted_bound _ _).trans (State.physWrite_bound _ _ _ _)).unregistered w hu
  · rcases hk with rfl | ⟨m, rfl, hpa⟩
    · exact ((u.recallIn_bound _ _).trans (State.physWrite_bound _ _ _ _)).unregistered w hu
    · rw [if_neg nofun]
      exact State.registerBytes_other hu m key _ va p.pa bs (by omega)

/-- An atomic of system scope has no word of host or peer memory registered (R172). -/
theorem State.atomicAt_outside (v : View) (fn va : Nat) (p : Phys) (n : Nat) (f : Nat → Nat) (hn : n ≤ 8) (hw : 2 ^ 38 ≤ w) :
    Tab.find (s.atomicAt v fn .sys va p n (fun old => some (f old))).2.regs w = none := by
  have hk : atomicKeeper v .sys va p = .memory ∨ ∃ m, atomicKeeper v .sys va p = .l2 m ∧ p.pa < 2 ^ 40 := by
    unfold atomicKeeper
    split
    · exact .inl rfl
    · rw [if_neg (by exact Bool.false_ne_true)]
      split
      next hd => exact .inr ⟨_, rfl, of_decide_eq_true hd⟩
      next => exact .inl rfl
  unfold State.atomicAt
  dsimp only
  have hplace := (s.atomicPlace_bound (atomicKeeper v .sys va p) p n).unregistered w h
  exact State.storeAt_outside hplace v fn _ va (by rw [bytesOf_length]; exact hn) hk hw

end

/-! ### The release of an update (R138, R350) -/

section
variable {s : State} {c : Completion}

/-- The state in which what the ended threads have written is performed. -/
def State.ended (s : State) (c : Completion) : State := s.adopt (fun r => c.has r.who)

/-- The words outside the device that an update of a launch from a host window waits for. -/
def State.awaited (s : State) (c : Completion) : List Nat := if c.sys then (s.ended c).outsideOf c.covers else []

/-- The scope of an update's release. -/
def Completion.scope (c : Completion) : Order := if c.sys then .sys else .dev

theorem State.updateRelease_runs (h : s.runsFor c.has = true) : s.updateRelease c = (none, s) := if_pos h

theorem State.updateRelease_none (h : s.runsFor c.has = false) (hw : s.awaited c = []) :
    s.updateRelease c = (some ((s.ended c).releaseWhere c.covers c.scope), s.ended c) := by
  unfold State.updateRelease
  rw [h, if_neg Bool.false_ne_true]
  unfold State.awaited State.ended at hw
  dsimp only
  rw [hw]
  rfl

theorem State.updateRelease_some (h : s.runsFor c.has = false) (hw : s.awaited c ≠ []) : s.updateRelease c =
    (if Config.freeBit s.draw then some ((State.through { s.ended c with draw := s.draw + 1 } (s.awaited c)).releaseWhere c.covers c.scope) else none,
      { s.ended c with draw := s.draw + 1 }) := by
  unfold State.updateRelease
  rw [h, if_neg Bool.false_ne_true]
  have he : (if c.sys then (s.adopt (fun r => c.has r.who)).outsideOf c.covers else []).isEmpty = false := List.isEmpty_eq_false_iff.2 hw
  dsimp only
  rw [he]
  rfl

theorem Completion.has_iff (i : Ident) :
    c.has i = true ↔ i.vf = c.fn ∧ i.launch = c.launch ∧ ∀ g, c.gang = some g → i.gang = g.1 ∧ i.rival = g.2 := by
  unfold Completion.has
  rw [Bool.and_eq_true, Bool.and_eq_true, beq_iff_eq, beq_iff_eq, and_assoc, Option.all_eq_true]
  simp only [Bool.and_eq_true, beq_iff_eq]

/-- The release marks each write of a thread that the update tells of. -/
theorem State.releaseWhere_marks (o : Order) (ho : beyondGang o = true) : ∀ e ∈ (s.releaseWhere c.covers o).locPast ++ (s.releaseWhere c.covers o).memPast,
    ∀ r ∈ e.2, r.path ≠ none → c.has r.who = true → r.rel ≠ none ∧ r.wide ≠ none ∧ (o = .sys → r.far ≠ none) := by
  have hmark (q : Past) (hp : q.path ≠ none) (hh : c.has q.who = true) : c.covers q = true := by
    unfold Completion.covers
    rw [hh, Option.isSome_iff_ne_none.2 hp]
    rfl
  have hrel : s.releaseWhere c.covers o = { s.mapPast (fun r => if c.covers r then r.releasedAt s.now o else r) with now := s.now + 1 } := by
    cases o with
    | plain => exact nomatch ho
    | gang | dev | sys => rfl
  rw [hrel]
  intro e he r hr hp hh
  have hmap (t : Tab (List Past)) (he : e ∈ t.map (fun e => (e.1, e.2.map (fun r => if c.covers r then r.releasedAt s.now o else r)))) :
      ∃ q, r = if c.covers q then q.releasedAt s.now o else q := by
    obtain ⟨e', -, rfl⟩ := List.mem_map.1 he
    obtain ⟨q, -, rfl⟩ := List.mem_map.1 hr
    exact ⟨q, rfl⟩
  obtain ⟨q, rfl⟩ : ∃ q, r = if c.covers q then q.releasedAt s.now o else q := by
    rcases List.mem_append.1 he with he | he
    · exact hmap _ he
    · exact hmap _ he
  have hc : c.covers q = true := by
    by_cases hc : c.covers q = true
    · exact hc
    · rw [if_neg hc] at hp hh
      exact hmark q hp hh
  rw [if_pos hc]
  refine ⟨nofun, ?_, ?_⟩
  · show (if beyondGang o then some (q.wide.getD s.now) else q.wide) ≠ none
    rw [if_pos ho]
    exact nofun
  · rintro rfl
    exact nofun

/-! ### The update (R138) -/

/-- Where and with what number an update of a completion block works. -/
theorem Completion.next_eq (c : Completion) : c.next = (if c.stage = 0 then 8 else if c.stage = 1 then 12 else 0, if c.stage < 2 then 4 else 8,
    fun old => if c.stage = 0 then wrap 32 (min (sgn 32 old) c.code) else if c.stage = 1 then (old + if c.code < 0 then 1 else 0) % 2 ^ 32
      else (old + if c.tournament then 2 ^ 32 else 1) % 2 ^ 64) := by
  obtain ⟨launch, fn, done, code, tournament, sys, user, gang, die, stage, got⟩ := c
  match stage with
  | 0 => rfl
  | 1 =>
    refine Prod.ext rfl (Prod.ext rfl (funext fun old => ?_))
    show (old + (decide (code < 0)).toNat) % 2 ^ 32 = (old + if code < 0 then 1 else 0) % 2 ^ 32
    by_cases h : code < 0 <;> simp [h]
  | n + 2 => rfl

/-- The state once an update that has been released from `s` has worked on its block, or has lost what is left of it. -/
def State.updateBlock (s : State) (c : Completion) : State :=
  let lose (s : State) : State :=
    { s with
      completions := s.completions.eraseIdx s.ev.idx
      monel := s.monel ++ [⟨.completionFault, ⟨c.fn, c.launch, 0, 0, none⟩, [c.launch, c.done]⟩] }
  match s.translate ((hubOwner c.die c.fn c.launch c.user).req .atomic none) (c.done + c.next.1) with
  | (.ok p, s) =>
    if (s.poisonedIn p.pa c.next.2.1).isSome ∨ (s.badIn p.pa c.next.2.1).isSome then lose s
    else
      let s := (s.atomicAt (hubView (hubOwner c.die c.fn c.launch c.user)) c.fn c.scope (c.done + c.next.1) p c.next.2.1
        (fun old => some (c.next.2.2 old))).2
      if 2 ≤ c.stage then { s with completions := s.completions.eraseIdx s.ev.idx }
      else { s with completions := s.completions.set s.ev.idx { c with stage := c.stage + 1 } }
  | (_, s) => lose s

section
variable {v u : State}

theorem State.translate_leaves {r : Req} {a : Nat} {x : Xlat} (hx : v.translate r a = (x, u)) : u.completions = v.completions ∧ u.ev = v.ev := by
  have hsame := (v.translate_frame r a).same
  rw [hx] at hsame
  have hcs := congrArg State.completions hsame
  have hev := congrArg State.ev hsame
  exact ⟨hcs, hev⟩

theorem State.updateBlock_bad {e : Nat}
    (hx : v.translate ((hubOwner c.die c.fn c.launch c.user).req .atomic none) (c.done + c.next.1) = (.bad e, u)) :
    v.updateBlock c = { u with
      completions := v.completions.eraseIdx v.ev.idx
      monel := u.monel ++ [⟨.completionFault, ⟨c.fn, c.launch, 0, 0, none⟩, [c.launch, c.done]⟩] } := by
  obtain ⟨hcs, hev⟩ := State.translate_leaves hx
  unfold State.updateBlock
  rw [hx, ← hcs, ← hev]

/-- In bare memory an update changes its word of the block, and moves on to the next or ends. -/
theorem State.updateBlock_ok {p : Phys}
    (hx : v.translate ((hubOwner c.die c.fn c.launch c.user).req .atomic none) (c.done + c.next.1) = (.ok p, u))
    (hp : p.tracked = false) (ht : pteRetag p.leaf = false) (hb : u.Bare) (hn : p.pa % 8 + c.next.2.1 ≤ 8) :
    (v.updateBlock c).completions =
        (if c.stage < 2 then v.completions.set v.ev.idx { c with stage := c.stage + 1 } else v.completions.eraseIdx v.ev.idx)
      ∧ ∀ j, Memory.read (v.updateBlock c).mem j = if p.pa ≤ j ∧ j < p.pa + c.next.2.1
        then (bytesOf c.next.2.1 (c.next.2.2 (natOf (Memory.readN u.mem p.pa c.next.2.1)))).getD (j - p.pa) 0
        else Memory.read (u.setD p.key).mem j := by
  obtain ⟨hcs, hev⟩ := State.translate_leaves hx
  obtain ⟨hmem, hcompletions, hev'⟩ := State.atomicAt_plain (hubView (hubOwner c.die c.fn c.launch c.user)) c.fn c.scope (c.done + c.next.1)
    c.next.2.1 c.next.2.2 hp ht hb hn
  unfold State.updateBlock
  rw [hx]
  dsimp only
  rw [hb.poisonedIn, hb.badIn, if_neg (by simp)]
  generalize (u.atomicAt (hubView (hubOwner c.die c.fn c.launch c.user)) c.fn c.scope (c.done + c.next.1) p c.next.2.1
    (fun old => some (c.next.2.2 old))).2 = t at *
  have hread := Memory.read_writeN (bytesOf c.next.2.1 (c.next.2.2 (natOf (Memory.readN u.mem p.pa c.next.2.1)))) (u.setD p.key).mem p.pa
  rw [bytesOf_length] at hread
  by_cases hs : 2 ≤ c.stage
  · rw [if_pos hs, if_neg (by omega)]
    exact ⟨by rw [hcompletions, hev', hcs, hev], fun j => by rw [← hread j (hb.setD p.key).2.2, hmem]⟩
  · rw [if_neg hs, if_pos (by omega)]
    exact ⟨by rw [hcompletions, hev', hcs, hev], fun j => by rw [← hread j (hb.setD p.key).2.2, hmem]⟩

/-- An update of a launch from a host window registers no word of host or peer memory. -/
theorem State.updateBlock_unregistered {w : Nat} (hs : c.scope = .sys) (h : Tab.find v.regs w = none) (hw : 2 ^ 38 ≤ w) :
    Tab.find (v.updateBlock c).regs w = none := by
  have hx := (v.translate_bound ((hubOwner c.die c.fn c.launch c.user).req .atomic none) (c.done + c.next.1)).unregistered w h
  have hn : c.next.2.1 ≤ 8 := by
    rw [c.next_eq]
    dsimp only
    split <;> omega
  unfold State.updateBlock
  generalize v.translate ((hubOwner c.die c.fn c.launch c.user).req .atomic none) (c.done + c.next.1) = q at hx ⊢
  obtain ⟨x, u⟩ := q
  cases x with
  | bad e => exact hx
  | wait => exact hx
  | ok p =>
    dsimp only
    split
    · exact hx
    · have ha := State.atomicAt_outside hx (hubView (hubOwner c.die c.fn c.launch c.user)) c.fn (c.done + c.next.1) p c.next.2.1 c.next.2.2 hn hw
      rw [hs]
      split <;> exact ha

end

section
variable (h : s.completions[s.ev.idx]? = some c)
include h

/-- The update that completes a tournament follows those of its gangs (R334). -/
theorem execCompletionBlockUpdate_later (ht : c.tournament = true) (he : ∃ e ∈ s.completions.take s.ev.idx, e.launch = c.launch ∧ e.fn = c.fn) :
    exec .completionBlockUpdate s = .next s := by
  obtain ⟨e, he, hl, hf⟩ := he
  show execCompletionBlockUpdate s = _
  unfold execCompletionBlockUpdate
  rw [h]
  refine congrArg _ (if_pos ⟨ht, List.any_eq_true.2 ⟨e, he, ?_⟩⟩)
  rw [hl, hf, beq_self_eq_true, beq_self_eq_true]
  rfl

/-- Nothing of an update is made while a command of its threads runs (R364). -/
theorem execCompletionBlockUpdate_runs (hr : s.runsFor c.has = true) : exec .completionBlockUpdate s = .next s := by
  show execCompletionBlockUpdate s = _
  unfold execCompletionBlockUpdate
  rw [h]
  dsimp only
  rw [State.updateRelease_runs hr]
  exact congrArg _ (ite_self _)

section
variable (ht : ¬(c.tournament = true ∧ ∃ e ∈ s.completions.take s.ev.idx, e.launch = c.launch ∧ e.fn = c.fn))
include ht

/-- The states in which an update whose turn has come leaves the machine, by how its release and its translation end. -/
theorem execCompletionBlockUpdate_turn : exec .completionBlockUpdate s =
    .next (match s.updateRelease c with
      | (none, s) => s
      | (some s, _) => s.updateBlock c) := by
  have hturn : ¬(c.tournament = true ∧ (s.completions.take s.ev.idx).any (fun e => e.launch == c.launch && e.fn == c.fn) = true) := by
    rintro ⟨h1, h2⟩
    obtain ⟨e, he, hb⟩ := List.any_eq_true.1 h2
    obtain ⟨hl, hf⟩ := Bool.and_eq_true_iff.1 hb
    exact ht ⟨h1, e, he, beq_iff_eq.1 hl, beq_iff_eq.1 hf⟩
  show execCompletionBlockUpdate s = _
  unfold execCompletionBlockUpdate
  rw [h]
  exact congrArg _ (if_neg hturn)

section
variable (hr : s.runsFor c.has = false)
include hr

/-- An update that waits for what stands in host and peer memory has it written through before the block changes (R350). -/
theorem execCompletionBlockUpdate_awaits (hw : s.awaited c ≠ []) : ∃ t, exec .completionBlockUpdate s = .next t
    ∧ (t = { s.ended c with draw := s.draw + 1 } ∨ ∀ w ∈ s.awaited c, Tab.find t.regs w = none) := by
  have hsys : c.sys = true := by
    unfold State.awaited at hw
    split at hw
    · assumption
    · exact absurd rfl hw
  have hscope : c.scope = .sys := if_pos hsys
  rw [execCompletionBlockUpdate_turn h ht, State.updateRelease_some hr hw]
  cases Config.freeBit s.draw with
  | false => exact ⟨_, rfl, .inl rfl⟩
  | true =>
    refine ⟨_, rfl, .inr fun w hm => State.updateBlock_unregistered hscope ?_ ?_⟩
    · rw [State.releaseWhere_regs]
      exact State.through_unregistered _ _ w hm
    · unfold State.awaited at hm
      rw [if_pos hsys] at hm
      exact State.mem_outsideOf hm

/-- An update that waits for nothing works on the block behind its release. -/
theorem execCompletionBlockUpdate_works (hw : s.awaited c = []) :
    exec .completionBlockUpdate s = .next (((s.ended c).releaseWhere c.covers c.scope).updateBlock c) := by
  rw [execCompletionBlockUpdate_turn h ht, State.updateRelease_none hr hw]

end

end

end

/-- The release of an update leaves the completions and the event. -/
theorem State.ended_release : ((s.ended c).releaseWhere c.covers c.scope).completions = s.completions
    ∧ ((s.ended c).releaseWhere c.covers c.scope).ev = s.ev := by
  unfold State.ended
  simp

end

/-- Settles O28. -/
theorem launches : Obligations.Launches := by
  refine ⟨fun s d a => ?_, fun s u l hl hc => ⟨execLaunchReplicate_given hl hc, fun p hi hr hp hb hn => ⟨?_, fun h0 hf hk => ?_⟩,
    fun c hi hr => ⟨_, execLaunchReplicate_faults hl hc hi hr, fun m hm => ?_, rfl⟩⟩, fun s u c hc => ?_⟩
  · obtain ⟨hwait, hstatus, hgo⟩ := launches_instruction s d a
    refine ⟨execLaunch_inPacket d a, fun hp ha => execLaunch_traps d a hp (State.localCheck_misaligned ha),
      fun c q hp ha hf => execLaunch_traps d a hp ((State.localCheck_aligned ha).trans hf), hwait, hstatus, fun hr hcl hst hlen => ?_⟩
    exact ⟨_, (State.accept_result (s.released .dev) _ _ d hlen).imp fun l h => ⟨hgo hr hcl hst, h⟩⟩
  · exact execLaunchReplicate_counts hl hc hi hr hp hb hn
  · have hcounts := execLaunchReplicate_counts hl hc hi hr hp hb hn
    rw [h0, Nat.zero_min] at hcounts
    exact ⟨_, hcounts, State.closeLaunch_empty (l := { l with count := some 0 }) hf hk rfl⟩
  · exact of_decide_eq_true (List.mem_filter.1 hm).2
  · obtain ⟨hcs, hev⟩ := State.ended_release (s := s) (c := c)
    have hnext := c.next_eq
    refine ⟨execCompletionBlockUpdate_later hc, execCompletionBlockUpdate_runs hc, Completion.has_iff, fun e he r hr hp ho => ?_,
      fun ht hw => execCompletionBlockUpdate_awaits hc ht.1 ht.2 hw, fun p ht hw hx hp hl hb hn => ?_, fun e ht hw hx => ?_⟩
    · obtain ⟨hrel, hwide, hfar⟩ := State.releaseWhere_marks c.scope (by unfold Completion.scope; split <;> rfl) e he r hr hp ((Completion.has_iff _).2 ho)
      exact ⟨hrel, hwide, fun hs => hfar (if_pos hs)⟩
    · refine ⟨_, execCompletionBlockUpdate_works hc ht.1 ht.2 hw, ?_⟩
      have hok := State.updateBlock_ok (v := (s.ended c).releaseWhere c.covers c.scope) (by rw [hnext]; exact hx) hp hl hb (by rw [hnext]; exact hn)
      rw [hcs, hev, hnext] at hok
      exact hok
    · rw [execCompletionBlockUpdate_works hc ht.1 ht.2 hw, State.updateBlock_bad (v := (s.ended c).releaseWhere c.covers c.scope) (by rw [hnext]; exact hx), hcs, hev]

end Sys2Proof.Machine
end

section
/-!
PROOF. What Monel has learned stays first in what it learns (O32, R21, R309).
-/
namespace Sys2Proof.Machine
open Sys2Proof

/-- What Monel has learned by `s` it has learned first by `u`. -/
def State.Told (s u : State) : Prop := s.monel <+: u.monel

theorem State.Told.refl (s : State) : s.Told s := List.prefix_rfl

theorem State.Told.of_eq {s u : State} (h : u.monel = s.monel) : s.Told u := by
  unfold State.Told
  rw [h]

theorem State.Told.trans {s u v : State} (h : s.Told u) (k : u.Told v) : s.Told v := List.IsPrefix.trans h k

/-- A last step that reports nothing. -/
theorem State.Told.then {s u v : State} (h : s.Told u) (k : v.monel = u.monel) : s.Told v := h.trans (.of_eq k)

theorem State.foldl_told {α : Type} {f : State → α → State} (h : ∀ (u : State) a, u.Told (f u a)) (l : List α) :
    ∀ s : State, s.Told (l.foldl f s) := by
  induction l with
  | nil => exact .refl
  | cons a l ih => exact fun s => (h s a).trans (ih _)

theorem XlatBound.tells {s u : State} (h : XlatBound s u) : s.Told u := h.told

/-! ### Access -/

theorem State.makeRoom_told (s : State) (core word : Nat) : s.Told (s.makeRoom core word) := by
  unfold State.makeRoom State.drawNat
  dsimp only
  split
  · exact .refl s
  · exact State.Told.trans (u := { s with draw := s.draw + 1 }) (.of_eq rfl) (State.foldl_told (fun u w => (u.toSlice_bound w).tells) _ _)

theorem State.registerWord_told (s : State) (k : Keeper) (key va pa : Nat) (bs : List Byte) : s.Told (s.registerWord k key va pa bs) := by
  unfold State.registerWord
  extract_lets word u v
  have hu : s.Told u := by
    show s.Told (match Tab.find s.regs word with | some r => if r.key = key then s else s.recall word | none => s)
    split
    · split
      · exact .refl s
      · exact (s.recall_bound word).tells
    · exact .refl s
  have hv : u.Told v := by
    show u.Told (match k.core with | some c => u.makeRoom c word | none => (u.wakeSlice (k.slice va)).sliceRoom (k.slice va) word)
    split
    · exact u.makeRoom_told _ _
    · exact ((u.wakeSlice_bound _).trans (State.sliceRoom_bound _ _ _)).tells
  exact (hu.trans hv).then rfl

theorem State.registerBytes_told (k : Keeper) (key fuel : Nat) : ∀ (s : State) (va pa : Nat) (bs : List Byte),
    s.Told (s.registerBytes k key va pa bs fuel) := by
  induction fuel with
  | zero => exact fun s _ _ _ => .refl s
  | succ fuel ih =>
    intro s va pa bs
    unfold State.registerBytes
    split
    · exact .refl s
    · exact (s.registerWord_told ..).trans (ih ..)

theorem State.retagRows_monel (s : State) (leaf : Word) (pa n : Nat) : (s.retagRows leaf pa n).monel = s.monel := by
  unfold State.retagRows
  split <;> rfl

theorem State.noteMem_monel (s : State) (v : View) (key : Nat) (tracked : Bool) (scope : Order) (pa n : Nat) :
    (s.noteMem v key tracked scope pa n).monel = s.monel := by
  obtain ⟨lp, mp, h⟩ := s.noteMem_eq v key tracked scope pa n
  rw [h]

theorem State.storeAt_told (s : State) (v : View) (k : Keeper) (fn : Nat) (scope : Order) (va : Nat) (p : Phys) (bs : List Byte) :
    s.Told (s.storeAt v k fn scope va p bs) := by
  unfold State.storeAt
  extract_lets n key u w
  have hu : s.Told u := ((s.setD_bound p.key).tells.then (State.retagRows_monel ..)).then (State.noteMem_monel ..)
  have hw : u.Told w := by
    show u.Told (if !p.tracked then (u.perhapsEvicted p.pa n).physWrite key p.pa bs
      else if k = .memory then (u.recallIn p.pa n).physWrite key p.pa bs else u.registerBytes k key va p.pa bs (n + 1))
    split
    · exact ((u.perhapsEvicted_bound _ _).trans (State.physWrite_bound _ _ _ _)).tells
    · split
      · exact ((u.recallIn_bound _ _).trans (State.physWrite_bound _ _ _ _)).tells
      · exact State.registerBytes_told ..
  exact (hu.trans hw).then rfl

theorem State.translateAll_told (r : Req) (l : List (Nat × Nat)) : ∀ s : State, s.Told (s.translateAll r l).2 := by
  induction l with
  | nil => exact .refl
  | cons p l ih =>
    obtain ⟨va, n⟩ := p
    intro s
    have h := (s.translate_bound r va).tells
    unfold State.translateAll
    generalize s.translate r va = q at h ⊢
    obtain ⟨x, u⟩ := q
    cases x with
    | bad c => exact h
    | wait => exact h
    | ok p =>
      have hl := State.Told.trans h (ih u)
      dsimp only at hl ⊢
      generalize u.translateAll r l = q at hl ⊢
      obtain ⟨e, w⟩ := q
      cases e <;> exact hl

theorem State.readParts_told (v : View) (fn : Nat) (ps : List (Nat × Nat × Phys)) : ∀ s : State, s.Told (s.readParts v fn ps).2 := by
  induction ps with
  | nil => exact .refl
  | cons q l ih =>
    obtain ⟨va, n, p⟩ := q
    intro s
    unfold State.readParts
    extract_lets u
    have hu : s.Told u := by
      show s.Told (if p.tracked then s else s.perhapsEvicted p.pa n)
      split
      · exact .refl s
      · exact (s.perhapsEvicted_bound _ _).tells
    exact (hu.then rfl).trans (ih (u.useHbm fn p n))

theorem State.storeParts_told (v : View) (fn : Nat) (scope : Order) (ps : List (Nat × Nat × Phys)) :
    ∀ (s : State) (bs : List Byte), s.Told (s.storeParts v fn scope bs ps) := by
  induction ps with
  | nil => exact fun s _ => .refl s
  | cons q l ih =>
    obtain ⟨va, n, p⟩ := q
    exact fun s bs => State.Told.trans ((s.storeAt_told v (.l1 v.core) fn scope va p (bs.take n)).then rfl)
      (ih ((s.storeAt v (.l1 v.core) fn scope va p (bs.take n)).unpoison p.pa n) (bs.drop n))

theorem State.useHbm_told (s : State) (fn : Nat) (p : Phys) (n : Nat) : s.Told (s.useHbm fn p n) := .of_eq rfl

theorem State.writeParts_told (s : State) (v : View) (fn : Nat) (scope : Order) (bs : List Byte) (ps : List (Nat × Nat × Phys)) :
    s.Told (s.writeParts v fn scope bs ps) := by
  unfold State.writeParts
  exact (State.storeParts_told v fn scope ps s bs).trans (State.foldl_told (fun u (q : Nat × Nat × Phys) => u.useHbm_told fn q.2.2 q.2.1) ps _)

theorem State.atomicAt_told (s : State) (v : View) (fn : Nat) (scope : Order) (va : Nat) (p : Phys) (n : Nat) (f : Nat → Option Nat) :
    s.Told (s.atomicAt v fn scope va p n f).2 := by
  unfold State.atomicAt
  extract_lets key k scope' u old
  have hu : s.Told u := (s.atomicPlace_bound k p n).tells
  split
  · exact (hu.trans (State.storeAt_told ..)).then rfl
  · dsimp only
    refine State.Told.then (u := if k.core.isSome then (u.readMemWords v p.tracked p.pa n (fun _ => true)).registerBytes k key va p.pa (bytesOf n old) (n + 1)
      else u.readMemWords v p.tracked p.pa n (fun _ => true)) (hu.trans ?_) rfl
    split
    · exact State.Told.trans (u := u.readMemWords v p.tracked p.pa n (fun _ => true)) (.of_eq rfl) (State.registerBytes_told ..)
    · exact .of_eq rfl

theorem State.acquire_told (s : State) (o : Order) : s.Told (s.acquire o) := .of_eq (State.acquire_monel ..)

theorem State.fetchParts_told (s : State) (scope : Order) (ps : List (Nat × Nat × Phys)) : s.Told (s.fetchParts scope ps) := by
  unfold State.fetchParts
  exact State.foldl_told (fun _ _ => .of_eq (State.readMemWords_monel ..)) _ _

theorem State.loadF_told (s : State) (r : Reg) (v : LaneReg) : s.Told (s.loadF r v) := by
  unfold State.loadF
  split
  next st _ =>
    split
    · exact .refl s
    · have h := s.putBlock_storesOnly st st.per v
      unfold StoresOnly at h
      exact .of_eq ((State.advanceStreams_monel ..).trans (by rw [h]))
  · exact .of_eq (State.setF_monel ..)

/-- The effect of an access on its parts tells Monel nothing itself. -/
theorem State.effect_told (s : State) (a : Access) (ps : List (Nat × Nat × Phys)) : s.Told (s.effect a ps) := by
  unfold State.effect
  extract_lets t fn n u v w
  have hu : s.Told u := by
    show s.Told (if a.acq && a.op.kind == .load then (s.fetchParts a.scope ps).acquire a.scope else s)
    split
    · exact (s.fetchParts_told _ _).trans (State.acquire_told _ _)
    · exact .refl s
  have hw : u.Told w := by
    subst w
    split
    · exact (State.readParts_told v fn ps u).then (State.setX_monel ..)
    · exact (State.readParts_told v fn ps u).trans (State.loadF_told ..)
    · exact State.writeParts_told ..
    · exact State.writeParts_told ..
    · split
      · dsimp only
        exact (State.atomicAt_told ..).then (State.setX_monel ..)
      · exact .refl u
    · split
      · dsimp only
        exact (State.atomicAt_told ..).then (State.setX_monel ..)
      · exact .refl u
    · split
      · exact .of_eq (State.setX_monel ..)
      · exact .refl u
    · split
      · split
        · exact ((u.atomicPlace_bound _ _ _).tells.trans (State.storeAt_told ..)).then rfl
        · exact .refl u
      · exact .refl u
  refine hu.trans (hw.trans ?_)
  split
  · exact w.acquire_told _
  · exact .refl w

theorem State.perform_told (s : State) (a : Access) : s.Told (s.perform a).2 := by
  have h := State.translateAll_told (s.th.owner.req a.op.kind a.gen) (lineParts a.va a.op.bytes) s
  unfold State.perform
  generalize s.translateAll (s.th.owner.req a.op.kind a.gen) (lineParts a.va a.op.bytes) = q at h ⊢
  obtain ⟨e, u⟩ := q
  have he := State.Told.trans h (u.effect_told a (e.toOption.getD []))
  rcases e with (_ | ⟨c, va⟩) | ps
  · exact h
  · exact h
  · dsimp only
    split
    · exact h
    · split
      · exact h
      · split
        · exact h
        · exact he

/-! ### Leaving -/

theorem State.flushStores_told (s : State) : s.Told s.flushStores := by
  unfold State.flushStores
  exact State.foldl_told (f := fun s a => { (s.perform a).2 with th := { (s.perform a).2.th with x := s.th.x } })
    (fun u a => (u.perform_told a).then rfl) _ s

theorem State.abortPacket_monel (s : State) : s.abortPacket.monel = s.monel := by
  unfold State.abortPacket
  split <;> rfl

theorem State.arrive_monel (s : State) (o : Owner) (la n : Nat) (err : Bool) : (s.arrive o la n err).monel = s.monel := by
  obtain ⟨m, h⟩ := s.arrive_frame o la n err
  rw [h]

theorem State.releaseUnit_monel (s : State) (core : Nat) : (s.releaseUnit core).monel = s.monel := by
  unfold State.releaseUnit
  dsimp only
  split <;> rfl

theorem State.leaveMown_monel (s : State) : s.leaveMown.monel = s.monel := by
  unfold State.leaveMown
  split
  · dsimp only
    split
    · exact State.releaseUnit_monel ..
    · rfl
  · rfl

theorem State.loseUnit_monel (s : State) (core : Nat) (o : Owner) : (s.loseUnit core o).monel = s.monel := by
  unfold State.loseUnit
  extract_lets u runs v w
  have hv : v.monel = s.monel := by
    show (if u.fail.isSome then s.arrive o (u.cfg.elim 0 (·.sync)) 0 true else s).monel = s.monel
    split
    · exact State.arrive_monel ..
    · rfl
  have hw : w.monel = v.monel := by
    subst w
    split <;> rfl
  exact (State.releaseUnit_monel ..).trans (hw.trans hv)

theorem State.orphan_monel (s : State) : s.orphan.monel = s.monel := by
  unfold State.orphan State.endFailed
  extract_lets t core failed q
  show (List.foldl (fun (s : State) (c : CopyCmd) => s.arrive c.owner c.sw 0 true) _ _).monel = _
  generalize q.filter failed = l
  have hq : (if q.any failed then { s with copyQ := Tab.put s.copyQ core (q.filter (fun c => !failed c)) } else s).monel = s.monel := by
    split <;> rfl
  generalize (if q.any failed then { s with copyQ := Tab.put s.copyQ core (q.filter (fun c => !failed c)) } else s) = u at hq ⊢
  induction l generalizing u with
  | nil => exact hq
  | cons c l ih => exact ih _ ((State.arrive_monel ..).trans hq)

theorem State.freeSlot_monel (s : State) : s.freeSlot.monel = s.monel := by
  unfold State.freeSlot
  dsimp only
  split <;> rfl

theorem State.dropThread_told (s : State) : s.Told s.dropThread := by
  unfold State.dropThread
  split
  · extract_lets u i v w x
    have hu : s.Told u := (State.Told.of_eq s.abortPacket_monel).trans (State.flushStores_told _)
    have hv : s.Told v := (hu.then (State.releasedAll_monel u .dev)).then (State.noteGot_monel _)
    have hw : s.Told w := hv.then v.leaveMown_monel
    have hx : s.Told x := by
      refine hw.then ?_
      show (if w.ownsUnit w.th.slot then w.loseUnit (coreOf w.th.slot) w.th.owner else w).monel = w.monel
      split
      · exact State.loseUnit_monel ..
      · rfl
    clear_value x
    exact ((hx.then x.orphan_monel).then (v := (x.orphan.endClaims i).freePlaces (· == i)) rfl).then (State.freeSlot_monel _)
  · exact .of_eq rfl

theorem State.focus_monel (s : State) (n : Nat) : (s.focus n).monel = s.monel := by
  unfold State.focus
  split
  · rfl
  · split <;> rfl

/-- A gang that stops leaves first what Monel has learned (R21). -/
theorem State.stopGang_told (s : State) (g : Gang) (code : Int) : s.Told (s.stopGang g code) := by
  unfold State.stopGang
  extract_lets mine slots v w now k g'
  have hv : s.Told v := (State.foldl_told (fun u n => (State.Told.of_eq (u.focus_monel n)).trans (State.dropThread_told _)) slots s).then rfl
  clear_value v
  obtain ⟨gs, hs, ls, st, cs, hf⟩ := State.finishGang_frame (w.putGang g') g'
  rw [hf]
  exact hv.then rfl

end Sys2Proof.Machine
end

section
/-!
PROOF. A frame that has been copied into its slice (O32, R124, R151, R307).
-/
namespace Sys2Proof.Machine
open Sys2Proof

/-! ### What a restored thread takes from the slice -/

/-- The registers and the PC of a restored thread are those of the save alone. -/
theorem State.restored_congr {s u : State} {t v : Thread} (h : s.loc = u.loc) (hs : t.slot = v.slot) :
    (s.restored t).pc = (u.restored v).pc ∧ (s.restored t).x = (u.restored v).x ∧ (s.restored t).f = (u.restored v).f := by
  unfold State.restored State.saved
  rw [h, hs]
  exact ⟨rfl, rfl, rfl⟩

theorem State.restored_keeps (s : State) (t : Thread) : (s.restored t).ident = t.ident ∧ (s.restored t).slot = t.slot
    ∧ (s.restored t).bound = t.bound ∧ (s.restored t).phase = t.phase ∧ (s.restored t).progress = t.progress := by
  unfold State.restored
  exact ⟨rfl, rfl, rfl, rfl, rfl⟩

/-! ### The resume, step by step -/

/-- The state in which the thread at hand is back from its save, but for its records. -/
def State.fromSave (s : State) : State :=
  let s := (s.renew (dieOf s.th.slot) .sys).dropIcache (coreOf s.th.slot)
  let t := s.restored s.th
  let (left, s) := s.takeLeaving
  let ring := (s.rings.find? (fun e => e.2.ident == t.ident)).map (·.1)
  { s with th := { t with
    depart := left, frame := 0, allow := false
    ring := if s.saved t.slot 0x3FDF 1 / 2 % 2 = 1 then ring else none } }

theorem State.restore_eq (s : State) : s.restore = s.fromSave.resumeRecords := rfl

/-- Whether a save marks that its thread owned the matrix unit. -/
def State.savedOwner (s : State) (slot : Nat) : Prop := s.saved slot 0x3FDF 1 / 2 % 2 = 1

theorem State.takeLeaving_eq (s : State) : ∃ left gs, s.takeLeaving = (left, { s with gangs := gs }) := by
  unfold State.takeLeaving
  split
  · exact ⟨none, s.gangs, rfl⟩
  · exact ⟨_, _, rfl⟩

/-- A gang that no rank has left stands as it does. -/
theorem State.takeLeaving_none {s : State} {g : Gang} (hg : s.gangOf s.th.ident = some g) (hl : g.leaving = []) :
    s.takeLeaving.2.gangOf s.th.ident = some g := by
  have hown : s.ownGang = some g := hg
  have hsame : { g with leaving := g.leaving.filter (fun e => e.1 ≠ s.th.ident.grank) } = g := by
    rw [hl, List.filter_nil, ← hl]
  unfold State.takeLeaving
  rw [hown]
  dsimp only
  rw [hsame]
  refine State.gangOf_putGang s _ g g hg ?_
  rw [State.gangOf_eq] at hg
  exact List.find?_some hg

/-- What coming back from a save leaves of the machine. -/
theorem State.fromSave_same (s : State) : s.fromSave = { s with
    th := s.fromSave.th, icache := (s.dropIcache (coreOf s.th.slot)).icache
    locPast := s.fromSave.locPast, memPast := s.fromSave.memPast, now := s.fromSave.now, gangs := s.fromSave.gangs } := by
  obtain ⟨left, gs, h⟩ := ((s.renew (dieOf s.th.slot) .sys).dropIcache (coreOf s.th.slot)).takeLeaving_eq
  unfold State.fromSave
  dsimp only
  rw [h]
  rfl

/-- The thread that is back from a save. -/
theorem State.fromSave_th (s : State) : s.fromSave.th.pc = (s.restored s.th).pc ∧ s.fromSave.th.x = (s.restored s.th).x
    ∧ s.fromSave.th.f = (s.restored s.th).f ∧ s.fromSave.th.ident = s.th.ident ∧ s.fromSave.th.slot = s.th.slot
    ∧ s.fromSave.th.bound = s.th.bound ∧ s.fromSave.th.phase = s.th.phase ∧ s.fromSave.th.progress = s.th.progress ∧ s.fromSave.th.frame = 0
    ∧ (s.savedOwner s.th.slot → s.fromSave.th.ring = (s.rings.find? (fun e => e.2.ident == s.th.ident)).map (·.1))
    ∧ (¬s.savedOwner s.th.slot → s.fromSave.th.ring = none) := by
  unfold State.fromSave
  dsimp only
  have hth : ((s.renew (dieOf s.th.slot) .sys).dropIcache (coreOf s.th.slot)).th = s.th := rfl
  have hloc : ((s.renew (dieOf s.th.slot) .sys).dropIcache (coreOf s.th.slot)).loc = s.loc := rfl
  have hrings : ((s.renew (dieOf s.th.slot) .sys).dropIcache (coreOf s.th.slot)).rings = s.rings := rfl
  generalize (s.renew (dieOf s.th.slot) .sys).dropIcache (coreOf s.th.slot) = r at *
  obtain ⟨left, gs, h⟩ := r.takeLeaving_eq
  obtain ⟨hpc, hx, hf⟩ := State.restored_congr (t := r.th) (v := s.th) hloc (by rw [hth])
  rw [h, ← hth, ← hrings]
  have hsaved (slot : Nat) : s.savedOwner slot ↔ r.savedOwner slot := by
    unfold State.savedOwner State.saved
    rw [hloc]
  rw [hsaved]
  rw [← hth] at hpc hx hf
  obtain ⟨hident, hslot, hbound, hphase, hprogress⟩ := r.restored_keeps r.th
  have hown : State.saved { r with gangs := gs } (r.restored r.th).slot 0x3FDF 1 / 2 % 2 = 1 ↔ r.savedOwner r.th.slot := by
    rw [hslot]
    exact Iff.rfl
  exact ⟨hpc, hx, hf, hident, hslot, hbound, hphase, hprogress, rfl, fun h => (if_pos (hown.2 h)).trans (by rw [hident]),
    fun h => if_neg fun k => h (hown.1 k)⟩

theorem State.fromSave_gang {s : State} {g : Gang} (hg : s.gangOf s.th.ident = some g) (hl : g.leaving = []) :
    s.fromSave.gangOf s.th.ident = some g :=
  State.takeLeaving_none (s := (s.renew (dieOf s.th.slot) .sys).dropIcache (coreOf s.th.slot)) hg hl

/-- The state in which the records of the thread at hand are back too. -/
def State.fromRecords (s : State) : State := s.readPlace.rebind

/-- What reading back the records leaves of the machine. -/
theorem State.fromRecords_same (s : State) :
    s.fromRecords = { s with th := s.fromRecords.th, store := s.fromRecords.store, nmus := s.fromRecords.nmus } := by
  unfold State.fromRecords State.readPlace State.rebind
  rfl

theorem State.fromRecords_th (s : State) : s.fromRecords.th.pc = s.th.pc ∧ s.fromRecords.th.x = s.th.x ∧ s.fromRecords.th.f = s.th.f
    ∧ s.fromRecords.th.ident = s.th.ident ∧ s.fromRecords.th.slot = s.th.slot ∧ s.fromRecords.th.bound = s.th.bound
    ∧ s.fromRecords.th.phase = s.th.phase ∧ s.fromRecords.th.frame = s.th.frame ∧ s.fromRecords.th.ring = s.th.ring := by
  unfold State.fromRecords State.readPlace State.rebind
  cases s.ownPlace <;> exact ⟨rfl, rfl, rfl, rfl, rfl, rfl, rfl, rfl, rfl⟩

/-- A thread without a place of the record store has the commands that it had. -/
theorem State.resumeRecords_none {s : State} (h : s.store = []) :
    s.resumeRecords = s.fromRecords.resumeOn ∧ s.fromRecords.th.progress = s.th.progress := by
  have hown : s.ownPlace = none := by
    unfold State.ownPlace
    rw [h]
    rfl
  unfold State.resumeRecords State.fromRecords State.readPlace State.rebind
  rw [hown]
  exact ⟨rfl, rfl⟩

/-- A thread takes its commands from its place, which is free again (R306). -/
theorem State.resumeRecords_place {s : State} {p : StorePlace} (h : s.store = [p]) (hi : p.ident = s.th.ident)
    (hb : s.badIn (s.placeAt p.place) 0x800 = none) :
    s.resumeRecords = s.fromRecords.resumeOn ∧ s.fromRecords.th.progress = p.progress ∧ s.fromRecords.store = [] := by
  have hown : s.ownPlace = some p := by
    unfold State.ownPlace
    rw [h, hi.symm]
    exact List.find?_cons_of_pos (beq_self_eq_true p.ident)
  have hfree : s.store.filter (fun q => decide (q.ident ≠ s.th.ident)) = [] := by
    rw [h, ← hi]
    simp
  unfold State.resumeRecords State.fromRecords State.readPlace State.rebind
  rw [hown, Option.bind_some, hb]
  exact ⟨rfl, rfl, hfree⟩

/-! ### What holds a resume back -/

section
variable {s : State}

/-- Suspended copies wait while their core's queue is full (R215, R307). -/
theorem State.resumeOn_copyFull {c : CopyCmd} {r : List Progress} (h : s.th.progress = .copy c :: r) (hc : c.fail = none)
    (hf : 16 ≤ (s.copyQueue (coreOf s.th.slot)).length) : s.resumeOn = s := by
  have hsend : s.sendProgress (.copy c) = none := by
    unfold State.sendProgress
    dsimp only
    rw [hc, if_neg (by exact Bool.false_ne_true), if_pos hf]
  have hall : s.sendAll (.copy c :: r) = s := by
    rw [State.sendAll, hsend, ← h]
  unfold State.resumeOn
  dsimp only
  rw [h, hall, h]
  rfl

/-- With no command to send again, the ring comes next. -/
theorem State.resumeOn_ring (h : s.th.progress = []) : s.resumeOn = s.reloadRing := by
  have hall : s.sendAll [] = s := by
    rw [State.sendAll, ← h]
  unfold State.resumeOn
  dsimp only
  rw [h, hall, h]
  rfl

/-- A ring waits for its core's unit (R242). -/
theorem State.resumeOn_ringWaits {k : Nat} (h : s.th.progress = []) (hr : s.th.ring = some k) (ho : s.ownsUnit s.th.slot = false) :
    s.resumeOn = s := by
  rw [State.resumeOn_ring h]
  unfold State.reloadRing
  rw [hr]
  dsimp only
  rw [ho]
  rfl

/-- With nothing left to come back, the group may be ready. -/
theorem State.resumeOn_ready (h : s.th.progress = []) (hr : s.th.ring = none) : s.resumeOn = s.readyGroup := by
  rw [State.resumeOn_ring h]
  unfold State.reloadRing
  rw [hr]

variable {g : Gang}

theorem State.mem_threadsOf {t : Thread} : t ∈ s.threadsOf g ↔ t ∈ s.threads ∧ g.has t.ident = true := List.mem_filter

theorem State.mem_threads {t : Thread} : t ∈ s.threads ↔ (s.th.bound = true ∧ t = s.th) ∨ ∃ e ∈ s.others, e.2 = t := by
  unfold State.threads
  rw [List.mem_append, List.mem_map]
  split
  next h => simp [h]
  next h => simp [h]

/-- A group waits for each of its threads (R151). -/
theorem State.readyGroup_waits (hg : s.gangOf s.th.ident = some g)
    (h : ∃ e ∈ s.others, g.has e.2.ident = true ∧ e.2.phase = .binding ∧ (e.2.frame ≠ 0 ∨ e.2.ring ≠ none ∨ e.2.progress ≠ [])) :
    s.readyGroup = s := by
  obtain ⟨e, he, hh, hp, hl⟩ := h
  have hown : s.ownGang = some g := hg
  have hloaded : e.2.loaded = false := by
    unfold Thread.loaded
    rcases hl with hl | hl | hl
    · rw [beq_false_of_ne hl]; rfl
    · rw [Option.isNone_eq_false_iff.2 (Option.isSome_iff_ne_none.2 hl), Bool.and_false, Bool.false_and]
    · rw [List.isEmpty_eq_false_iff.2 hl, Bool.and_false]
  unfold State.readyGroup
  rw [hown]
  refine if_neg fun hall => ?_
  have := List.all_eq_true.1 hall e.2 (State.mem_threadsOf.2 ⟨State.mem_threads.2 (.inr ⟨e, he, rfl⟩), hh⟩)
  rw [hp, hloaded] at this
  exact nomatch this

/-- A group whose threads are all loaded is ready (R151). -/
theorem State.readyGroup_ready (hg : s.gangOf s.th.ident = some g) (hth : s.th.loaded = true)
    (h : ∀ e ∈ s.others, g.has e.2.ident = true → e.2.phase = .binding → e.2.frame = 0 ∧ e.2.ring = none ∧ e.2.progress = []) :
    s.readyGroup = s.mapGang g (fun t => if t.phase = .binding then { t with phase := .running } else t) := by
  have hown : s.ownGang = some g := hg
  unfold State.readyGroup
  rw [hown]
  refine if_pos (List.all_eq_true.2 fun t ht => ?_)
  obtain ⟨ht, hh⟩ := State.mem_threadsOf.1 ht
  rcases State.mem_threads.1 ht with ⟨-, rfl⟩ | ⟨e, he, rfl⟩
  · rw [hth, Bool.or_true]
  · by_cases hp : e.2.phase = .binding
    · obtain ⟨hf, hr, hpr⟩ := h e he hh hp
      unfold Thread.loaded
      rw [hf, hr, hpr, beq_self_eq_true]
      exact Bool.or_true _
    · rw [bne_iff_ne.2 hp, Bool.true_or]

end

end Sys2Proof.Machine
end

section
/-!
PROOF. The end of a frame's copy: the thread goes on, waits, or loses its context (O32).
-/
namespace Sys2Proof.Machine
open Sys2Proof

theorem State.saveOk_congr {s u : State} (h : s.loc = u.loc) (slot : Nat) : s.saveOk slot = u.saveOk slot := by
  unfold State.saveOk
  rw [h]

theorem State.savedOwner_congr {s u : State} (h : s.loc = u.loc) (slot : Nat) : s.savedOwner slot ↔ u.savedOwner slot := by
  unfold State.savedOwner State.saved
  rw [h]

/-- The state in which the frame of the thread at hand stands in its slice. -/
def State.copied (s : State) : State :=
  { s with loc := Memory.place s.loc (s.th.slot * 0x4000) 0x4000 (s.rawSlice s.th.frame 0x4000) }.settleLoc (s.th.slot * 0x4000) 0x4000

section
variable {s : State} (hb : s.th.bound = true) (hu : s.ev.unit = s.th.slot) (hph : s.th.phase = .binding)
include hb hu hph

/-- FRAME_COPY_DONE of a slot whose thread waits for its frame. -/
theorem execFrameCopyDone_eq : exec .frameCopyDone s = .next (if s.th.frame = 0 then s.resumeOn
    else if (s.badIn s.th.frame 0x4000).isSome then s.loseContext 2 s.th.frame
    else if s.copied.sliceBad s.th.slot || !s.copied.saveOk s.th.slot then s.copied.loseContext 2 s.th.frame else s.copied.restore) := by
  show execFrameCopyDone s = _
  unfold execFrameCopyDone
  dsimp only
  rw [hu, s.focus_self hb, if_neg (by rw [hb, hph, beq_self_eq_true]; exact Bool.false_ne_true)]
  rfl

theorem execFrameCopyDone_on (hf : s.th.frame = 0) : exec .frameCopyDone s = .next s.resumeOn := by
  rw [execFrameCopyDone_eq hb hu hph, if_pos hf]

/-- A frame that passes its checks is restored. -/
theorem execFrameCopyDone_restores (hf : s.th.frame ≠ 0) (hbad : s.badIn s.th.frame 0x4000 = none) (hs : s.sliceBad s.th.slot = false)
    (hok : s.copied.saveOk s.th.slot = true) : exec .frameCopyDone s = .next s.copied.fromSave.resumeRecords := by
  have hs' : s.copied.sliceBad s.th.slot = false := hs
  rw [execFrameCopyDone_eq hb hu hph, if_neg hf, hbad, hs', hok, State.restore_eq]
  rfl

/-- One that does not pass them, or cannot be read, loses its context. -/
theorem execFrameCopyDone_loses (hf : s.th.frame ≠ 0)
    (h : s.badIn s.th.frame 0x4000 ≠ none ∨ s.sliceBad s.th.slot = true ∨ s.copied.saveOk s.th.slot = false) :
    ∃ w : State, exec .frameCopyDone s = .next (w.loseContext 2 s.th.frame) ∧ w.th = s.th ∧ w.others = s.others ∧ w.gangs = s.gangs
      ∧ w.monel = s.monel := by
  rw [execFrameCopyDone_eq hb hu hph, if_neg hf]
  by_cases hbad : s.badIn s.th.frame 0x4000 = none
  · have hor : (s.copied.sliceBad s.th.slot || !s.copied.saveOk s.th.slot) = true := by
      rcases h with h | h | h
      · exact absurd hbad h
      · have h : s.copied.sliceBad s.th.slot = true := h
        rw [h, Bool.true_or]
      · rw [h, Bool.not_false, Bool.or_true]
    rw [hbad, hor]
    exact ⟨s.copied, rfl, rfl, rfl, rfl, rfl⟩
  · rw [if_pos (Option.isSome_iff_ne_none.2 hbad)]
    exact ⟨s, rfl, rfl, rfl, rfl, rfl⟩

end

/-! ### What a context lost takes with it (R21) -/

theorem State.dropThread_others (s : State) : s.dropThread.others = s.others := by
  have hfree (u : State) : u.freeSlot.others = u.others := by
    unfold State.freeSlot
    dsimp only
    split <;> rfl
  unfold State.dropThread
  split
  · refine (hfree _).trans (congrArg Prod.snd (?_ : State.face _ = State.face _))
    simp only [State.endClaims_face, State.orphan_face]
    split <;> simp
  · rfl

/-- The threads of some slots are dropped. -/
def State.dropSlots (s : State) (slots : List Nat) : State := slots.foldl (fun s n => (s.focus n).dropThread) s

/-- The threads that a stop of a gang leaves. -/
theorem State.stopGang_threads (s : State) (g : Gang) (code : Int) :
    (s.stopGang g code).th = (s.dropSlots ((s.threads.filter (fun t => g.has t.ident)).map (·.slot))).th
      ∧ (s.stopGang g code).others = (s.dropSlots ((s.threads.filter (fun t => g.has t.ident)).map (·.slot))).others := by
  have hmine : (fun t : Thread => t.ident.launch == g.launch && t.ident.vf == g.fn && t.ident.gang == g.gang && t.ident.rival == g.rival)
      = fun t => g.has t.ident := by
    funext t
    unfold Gang.has
    rw [BEq.comm (a := g.launch), BEq.comm (a := g.fn), BEq.comm (a := g.gang), BEq.comm (a := g.rival)]
  rw [← hmine]
  unfold State.stopGang
  extract_lets mine slots v w now k g'
  have hv : v.th = (s.dropSlots slots).th ∧ v.others = (s.dropSlots slots).others := ⟨rfl, rfl⟩
  clear_value v
  obtain ⟨gs, hs, ls, st, cs, hf⟩ := State.finishGang_frame (w.putGang g') g'
  rw [hf]
  exact hv

theorem State.loseContext_of_gang {s : State} {g : Gang} (hg : s.gangOf s.th.ident = some g) (stage pa : Nat) :
    s.loseContext stage pa = State.stopGang { s with monel := s.monel ++ [⟨.lost, s.th.ident, [stage, pa]⟩] } g (-3) := by
  have hown : s.ownGang = some g := hg
  unfold State.loseContext
  dsimp only
  rw [hown]

section
variable {s : State} {g : Gang} (hb : s.th.bound = true) (hg : s.gangOf s.th.ident = some g)
include hb hg

/-- A gang of one thread is gone with it. -/
theorem State.loseContext_alone (stage pa : Nat) (ho : s.others = []) :
    (s.loseContext stage pa).th = Thread.idle ∧ (s.loseContext stage pa).others = [] := by
  rw [State.loseContext_of_gang hg]
  obtain ⟨hth, hothers⟩ := State.stopGang_threads { s with monel := s.monel ++ [⟨.lost, s.th.ident, [stage, pa]⟩] } g (-3)
  have hslots : (State.threads { s with monel := s.monel ++ [⟨.lost, s.th.ident, [stage, pa]⟩] }).filter (fun t => g.has t.ident) = [s.th] := by
    unfold State.threads
    dsimp only
    rw [if_pos hb, ho]
    exact List.filter_cons_of_pos (State.has_of_gangOf hg)
  rw [hslots] at hth hothers
  have hself := State.focus_self { s with monel := s.monel ++ [⟨.lost, s.th.ident, [stage, pa]⟩] } hb
  rw [List.map_cons, State.dropSlots, List.foldl_cons, List.map_nil, List.foldl_nil, hself] at hth hothers
  exact ⟨hth.trans (State.dropThread_ends _).idle, hothers.trans ((State.dropThread_others _).trans ho)⟩

/-- A gang of two threads is gone with one of them. -/
theorem State.loseContext_pair (stage pa : Nat) {m : Thread} (ho : s.others = [(m.slot, m)]) (hm : g.has m.ident = true) : (s.loseContext stage pa).th = Thread.idle ∧ (s.loseContext stage pa).others = [] := by
  rw [State.loseContext_of_gang hg]
  obtain ⟨hth, hothers⟩ := State.stopGang_threads { s with monel := s.monel ++ [⟨.lost, s.th.ident, [stage, pa]⟩] } g (-3)
  have hslots : (State.threads { s with monel := s.monel ++ [⟨.lost, s.th.ident, [stage, pa]⟩] }).filter (fun t => g.has t.ident) = [s.th, m] := by
    unfold State.threads
    dsimp only
    rw [if_pos hb, ho]
    show [s.th, m].filter (fun t => g.has t.ident) = _
    rw [List.filter_cons_of_pos (p := fun t : Thread => g.has t.ident) (State.has_of_gangOf hg),
      List.filter_cons_of_pos (p := fun t : Thread => g.has t.ident) hm, List.filter_nil]
  rw [hslots] at hth hothers
  have hself := State.focus_self { s with monel := s.monel ++ [⟨.lost, s.th.ident, [stage, pa]⟩] } hb
  rw [List.map_cons, State.dropSlots, List.foldl_cons, List.map_cons, List.foldl_cons, List.map_nil, List.foldl_nil, hself] at hth hothers
  have hidle := (State.dropThread_ends { s with monel := s.monel ++ [⟨.lost, s.th.ident, [stage, pa]⟩] }).idle
  have hrest := (State.dropThread_others { s with monel := s.monel ++ [⟨.lost, s.th.ident, [stage, pa]⟩] }).trans ho
  generalize State.dropThread { s with monel := s.monel ++ [⟨.lost, s.th.ident, [stage, pa]⟩] } = w at *
  have hfocus : (w.focus m.slot).others = [] := by
    unfold State.focus
    rw [hidle, hrest, if_neg (by exact fun h => nomatch h.2)]
    simp [Tab.find, Tab.drop, Thread.idle]
  exact ⟨hth.trans (State.dropThread_ends _).idle, hothers.trans ((State.dropThread_others _).trans hfocus)⟩

end

/-- The report of a context lost comes next, and what the loss causes after it. -/
theorem State.loseContext_monel (s : State) (stage pa : Nat) :
    ∃ rest, (s.loseContext stage pa).monel = s.monel ++ ⟨.lost, s.th.ident, [stage, pa]⟩ :: rest := by
  have h : State.Told { s with monel := s.monel ++ [⟨.lost, s.th.ident, [stage, pa]⟩] } (s.loseContext stage pa) := by
    unfold State.loseContext
    dsimp only
    split
    · exact State.stopGang_told _ _ _
    · exact State.dropThread_told _
  obtain ⟨rest, h⟩ := h
  exact ⟨rest, by rw [← h, List.append_assoc]; rfl⟩

/-! ### The thread that is back -/

/-- The state in which the thread at hand and its records are back from the save in its slice. -/
def State.back (s : State) : State := s.fromSave.fromRecords

theorem State.back_same (s : State) : s.back = { s with
    th := s.back.th, icache := (s.dropIcache (coreOf s.th.slot)).icache
    locPast := s.back.locPast, memPast := s.back.memPast, now := s.back.now, gangs := s.fromSave.gangs
    store := s.back.store, nmus := s.back.nmus } := by
  have h1 := s.fromSave_same
  have h2 := s.fromSave.fromRecords_same
  unfold State.back
  rw [h2, h1]

theorem State.back_fields (s : State) : s.back.others = s.others ∧ s.back.loc = s.loc ∧ s.back.mem = s.mem ∧ s.back.copyQ = s.copyQ
    ∧ s.back.units = s.units ∧ s.back.icache = (s.dropIcache (coreOf s.th.slot)).icache := by
  rw [s.back_same]
  exact ⟨rfl, rfl, rfl, rfl, rfl, rfl⟩

theorem State.fromSave_fields (s : State) : s.fromSave.store = s.store ∧ s.fromSave.bad = s.bad ∧ s.fromSave.cfg = s.cfg := by
  rw [s.fromSave_same]
  exact ⟨rfl, rfl, rfl⟩

/-- What is restored, and what the thread is. -/
theorem State.back_th (s : State) : s.back.th.pc = (s.restored s.th).pc ∧ s.back.th.x = (s.restored s.th).x
    ∧ s.back.th.f = (s.restored s.th).f ∧ s.back.th.ident = s.th.ident ∧ s.back.th.slot = s.th.slot
    ∧ s.back.th.bound = s.th.bound ∧ s.back.th.phase = s.th.phase ∧ s.back.th.frame = 0
    ∧ (s.savedOwner s.th.slot → s.back.th.ring = (s.rings.find? (fun e => e.2.ident == s.th.ident)).map (·.1))
    ∧ (¬s.savedOwner s.th.slot → s.back.th.ring = none) := by
  obtain ⟨hpc, hx, hf, hident, hslot, hbound, hphase, -, hframe, howned, hfree⟩ := s.fromSave_th
  obtain ⟨hpc', hx', hf', hident', hslot', hbound', hphase', hframe', hring'⟩ := s.fromSave.fromRecords_th
  unfold State.back
  rw [hpc', hx', hf', hident', hslot', hbound', hphase', hframe', hring']
  exact ⟨hpc, hx, hf, hident, hslot, hbound, hphase, hframe, howned, hfree⟩

theorem State.back_gang {s : State} {g : Gang} (hg : s.gangOf s.th.ident = some g) (hl : g.leaving = []) :
    s.back.gangOf s.back.th.ident = some g := by
  obtain ⟨-, -, -, hident, -⟩ := s.back_th
  rw [hident, State.gangOf_eq, s.back_same]
  exact State.fromSave_gang hg hl

/-- A thread that is back stands, until it goes on, with its frame's contents (R124). -/
theorem State.back_waits (s : State) (hph : s.th.phase = .binding) :
    let u : State := { s with loc := Memory.place s.loc (s.th.slot * 0x4000) 0x4000 (s.rawSlice s.th.frame 0x4000) }
    let v := s.copied.back
    v.th.phase = .binding ∧ v.th.frame = 0 ∧ v.th.pc = (u.restored s.th).pc ∧ v.th.x = (u.restored s.th).x ∧ v.th.f = (u.restored s.th).f
      ∧ v.th.ident = s.th.ident ∧ v.loc = u.loc ∧ v.mem = s.mem
      ∧ ∀ fn va, fn < 129 → va < 2 ^ 56 → Tab.find v.icache (icKey (coreOf s.th.slot) fn va) = none := by
  intro u v
  obtain ⟨hpc, hx, hf, hident, -, -, hphase, hframe, -⟩ := s.copied.back_th
  obtain ⟨hpc', hx', hf'⟩ := State.restored_congr (s := s.copied) (u := u) (t := s.th) (v := s.th) rfl rfl
  obtain ⟨-, hloc, hmem, -, -, hicache⟩ := s.copied.back_fields
  refine ⟨hphase.trans hph, hframe, hpc.trans hpc', hx.trans hx', hf.trans hf', hident, hloc, hmem, fun fn va hfn hva => ?_⟩
  rw [hicache]
  exact s.copied.find_dropIcache _ fn va hfn hva

/-- A gang of one thread has no other. -/
theorem State.threadsOf_alone {s : State} {g : Gang} (hb : s.th.bound = true) (hg : s.gangOf s.th.ident = some g) (h : s.threadsOf g = [s.th]) :
    ∀ e ∈ s.others, ¬g.has e.2.ident = true := by
  intro e he hh
  have hself : (s.th :: s.others.map (·.2)).filter (fun t => g.has t.ident) = [s.th] := by
    rw [← h]
    unfold State.threadsOf State.threads
    rw [if_pos hb]
    rfl
  rw [List.filter_cons_of_pos (p := fun t : Thread => g.has t.ident) (State.has_of_gangOf hg), List.cons_eq_cons] at hself
  exact List.filter_eq_nil_iff.1 hself.2 e.2 (List.mem_map.2 ⟨e, he, rfl⟩) hh

/-- A group that is ready runs from what has been restored. -/
theorem State.back_ready {s : State} {g : Gang} (hb : s.th.bound = true) (hph : s.th.phase = .binding) (ho : ¬s.copied.savedOwner s.th.slot)
    (hst : s.store = []) (hpr : s.th.progress = []) (hg : s.gangOf s.th.ident = some g) (hl : g.leaving = [])
    (h : ∀ e ∈ s.others, g.has e.2.ident = true → e.2.phase = .binding → e.2.frame = 0 ∧ e.2.ring = none ∧ e.2.progress = []) :
    s.copied.fromSave.resumeRecords = { s.copied.back with
      th := { s.copied.back.th with phase := .running }
      others := s.others.map (fun e => (e.1, if g.has e.2.ident then (if e.2.phase = .binding then { e.2 with phase := .running } else e.2) else e.2)) } := by
  obtain ⟨-, -, -, hident, -, hbound, hphase, hframe, -, hring⟩ := s.copied.back_th
  have hstore : s.copied.fromSave.store = [] := s.copied.fromSave_fields.1.trans hst
  obtain ⟨-, -, -, -, -, -, -, hprogress, -⟩ := s.copied.fromSave_th
  obtain ⟨hrec, hprogress'⟩ := State.resumeRecords_none hstore
  have hothers : s.copied.back.others = s.others := s.copied.back_fields.1
  have hback := State.back_gang (s := s.copied) hg hl
  have hloaded : s.copied.back.th.loaded = true := by
    unfold Thread.loaded
    rw [hframe, hring ho, show s.copied.back.th.progress = [] from hprogress'.trans (hprogress.trans hpr)]
    rfl
  rw [hrec]
  refine (State.resumeOn_ready (hprogress'.trans (hprogress.trans hpr)) (hring ho)).trans ?_
  refine (State.readyGroup_ready hback hloaded (by rw [hothers]; exact h)).trans ?_
  unfold State.mapGang
  dsimp only
  rw [hothers, if_pos ⟨hbound.trans hb, State.has_of_gangOf hback⟩, if_pos (hphase.trans hph)]

/-- A thread without a place of the record store goes on once it is back. -/
theorem State.back_goes {s : State} (hst : s.store = []) (hpr : s.th.progress = []) :
    s.fromSave.resumeRecords = s.back.resumeOn ∧ s.back.th.progress = [] := by
  obtain ⟨-, -, -, -, -, -, -, hprogress, -⟩ := s.fromSave_th
  obtain ⟨hrec, hprogress'⟩ := State.resumeRecords_none (s.fromSave_fields.1.trans hst)
  exact ⟨hrec, hprogress'.trans (hprogress.trans hpr)⟩

/-- Settles O32. -/
theorem frameCopyRestores : Obligations.FrameCopyRestores := by
  intro s hb hu hph t u passes owned full waits
  have hsaveOk : s.copied.saveOk s.th.slot = u.saveOk s.th.slot := State.saveOk_congr rfl _
  have hown : s.copied.savedOwner s.th.slot ↔ owned := State.savedOwner_congr rfl _
  have hwaits : waits s.copied.back := s.back_waits hph
  obtain ⟨hothers, -, -, hcopyQ, hunits, -⟩ := s.copied.back_fields
  obtain ⟨-, -, -, hident, hslot, hbound, hphase, hframe, hring, hfree⟩ := s.copied.back_th
  have hrestores : passes → exec .frameCopyDone s = .next s.copied.fromSave.resumeRecords := fun ⟨hf, hbad, hs, hok⟩ =>
    execFrameCopyDone_restores hb hu hph hf hbad hs (hsaveOk.trans hok)
  refine ⟨execFrameCopyDone_on hb hu hph, fun c r hf hpr hc hfull => ?_, fun k hf hpr hr ho => ?_,
    fun p c r hp hst hpi hbad hpr hc hfull => ?_, fun k e hp ho hrings he hst hpr hunit => ?_, fun g hp ho hst hpr hg hl hnot => ?_,
    fun g hp ho hst hpr hg hl hall => ?_, fun g hf hbad hs hok ho hst hpr hg hth hl => ?_, fun hf hbad => ?_⟩
  · rw [execFrameCopyDone_on hb hu hph hf, State.resumeOn_copyFull hpr hc hfull]
  · rw [execFrameCopyDone_on hb hu hph hf, State.resumeOn_ringWaits hpr hr ho]
  · obtain ⟨hstore, hfb, hcfg⟩ := s.copied.fromSave_fields
    obtain ⟨-, -, -, hident', -⟩ := s.copied.fromSave_th
    have hplace : s.copied.fromSave.badIn (s.copied.fromSave.placeAt p.place) 0x800 = none := by
      unfold State.badIn State.placeAt
      rw [hfb, hcfg]
      exact hbad
    obtain ⟨hrec, hprogress, hgone⟩ := State.resumeRecords_place (hstore.trans hst) (hpi.trans hident'.symm) hplace
    have hlen : 16 ≤ (s.copied.back.copyQueue (coreOf s.copied.back.th.slot)).length := by
      unfold State.copyQueue
      rw [hcopyQ, hslot]
      exact hfull
    have hwait := State.resumeOn_copyFull (s := s.copied.back) (hprogress.trans hpr) hc hlen
    exact ⟨_, (hrestores hp).trans (congrArg _ (hrec.trans hwait)), hwaits, hprogress.trans hpr, hgone⟩
  · obtain ⟨hrec, hprogress⟩ := State.back_goes (s := s.copied) hst hpr
    have hk : s.copied.back.th.ring = some k := by
      refine (hring (hown.2 ho)).trans ?_
      have hfind : [(k, e)].find? (fun e => e.2.ident == s.th.ident) = some (k, e) := List.find?_cons_of_pos (beq_iff_eq.2 he)
      rw [show s.copied.rings = [(k, e)] from hrings]
      exact congrArg _ hfind
    have hunit' : s.copied.back.ownsUnit s.copied.back.th.slot = false := by
      unfold State.ownsUnit State.unitOf
      rw [hunits, hslot]
      exact hunit
    exact ⟨_, (hrestores hp).trans (congrArg _ (hrec.trans (State.resumeOn_ringWaits hprogress hk hunit'))), hwaits, hk⟩
  · obtain ⟨hrec, hprogress⟩ := State.back_goes (s := s.copied) hst hpr
    have hready := State.resumeOn_ready hprogress (hfree (hown.not.2 ho))
    have hgroup := State.readyGroup_waits (State.back_gang (s := s.copied) hg hl) (by rw [hothers]; exact hnot)
    exact ⟨_, (hrestores hp).trans (congrArg _ (hrec.trans (hready.trans hgroup))), hwaits, hothers⟩
  · have hrun := State.back_ready hb hph (hown.not.2 ho) hst hpr hg hl hall
    obtain ⟨-, hf, hpc, -⟩ := hwaits
    refine ⟨_, (hrestores hp).trans (congrArg _ hrun), rfl, hf, hpc, fun e he hh hp => List.mem_map.2 ⟨e, he, ?_⟩⟩
    rw [if_pos hh, if_pos hp]
  · have hno := State.threadsOf_alone hb hg hth
    have hrun := State.back_ready hb hph (hown.not.2 (by show ¬(_ = 1); omega)) hst hpr hg hl (fun e he hh => absurd hh (hno e he))
    obtain ⟨-, hf', hpc, hx, hf'', hid, hloc, hmem, -⟩ := hwaits
    exact ⟨_, (hrestores ⟨hf, hbad, hs, hok⟩).trans (congrArg _ hrun), rfl, hf', hpc, hx, hf'', hid, hloc, hmem⟩
  · obtain ⟨w, hexec, hth, hothers, hgangs, hmonel⟩ := execFrameCopyDone_loses hb hu hph hf (by rw [hsaveOk]; exact hbad)
    have hgang (g : Gang) (hg : s.gangOf s.th.ident = some g) : w.gangOf w.th.ident = some g := by
      rw [State.gangOf_eq, hgangs, hth]
      exact hg
    have hwb : w.th.bound = true := by rw [hth]; exact hb
    obtain ⟨rest, hm⟩ := w.loseContext_monel 2 s.th.frame
    rw [hmonel, hth] at hm
    refine ⟨_, rest, hexec, hm, fun g hg ho => State.loseContext_alone hwb (hgang g hg) 2 _ (hothers.trans ho), fun g n m hg ho hn _ hh => ?_⟩
    rw [← hn] at ho
    obtain ⟨hidle, hrest⟩ := State.loseContext_pair hwb (hgang g hg) 2 s.th.frame (hothers.trans ho) hh
    exact ⟨by rw [hidle]; rfl, hrest⟩

end Sys2Proof.Machine
end

section
/-!
PROOF. Strings of bytes: what is read back of them, and the numbers that they are made of (O31).
-/
namespace Sys2Proof.Machine
open Sys2Proof

/-! ### Reading a range back -/

theorem Memory.getD_readN (m : Memory) (n : Nat) : ∀ a k, k < n → (Memory.readN m a n).getD k 0 = Memory.read m (a + k) := by
  induction n with
  | zero => exact fun _ _ h => absurd h (Nat.not_lt_zero _)
  | succ n ih =>
    intro a k hk
    cases k with
    | zero => rfl
    | succ k =>
      rw [Memory.readN, List.getD_cons_succ, ih (a + 1) k (by omega), Nat.add_right_comm]
      rfl

/-- Two memories that hold the same bytes in a range read alike there. -/
theorem Memory.readN_congr {m m' : Memory} (n : Nat) : ∀ a, (∀ j, a ≤ j → j < a + n → Memory.read m j = Memory.read m' j) →
    Memory.readN m a n = Memory.readN m' a n := by
  induction n with
  | zero => exact fun _ _ => rfl
  | succ n ih =>
    intro a h
    rw [Memory.readN, Memory.readN, h a (Nat.le_refl a) (by omega), ih (a + 1) fun j hj hn => h j (by omega) (by omega)]

section
variable {m : Memory} (h : Memory.wf m = true) (b : Nat) (bs : List Byte)
include h

theorem Memory.readN_writeN_self : Memory.readN (Memory.writeN m b bs) b bs.length = bs := by
  induction bs generalizing m b with
  | nil => rfl
  | cons x r ih =>
    have hw := Memory.wf_write m b x h
    have hx : Memory.read (Memory.writeN (Memory.write m b x) (b + 1) r) b = x := by
      rw [Memory.read_writeN r _ _ _ hw, if_neg (by omega), Memory.read_write m b b x h, if_pos rfl]
    rw [Memory.writeN, List.length_cons, Memory.readN, hx, ih hw]

theorem Memory.readN_writeN_apart {a n : Nat} (hd : a + n ≤ b ∨ b + bs.length ≤ a) :
    Memory.readN (Memory.writeN m b bs) a n = Memory.readN m a n :=
  Memory.readN_congr n a fun j hj hn => by rw [Memory.read_writeN bs m b j h, if_neg (by omega)]

end

/-- A string of bytes within the private slice of a slot. -/
theorem State.writeLoc_private (o : Owner) (bs : List Byte) : ∀ (s : State) (la : Nat), la + bs.length ≤ 0x4000 →
    s.writeLoc o la bs = { s with loc := Memory.writeN s.loc (o.slot * 0x4000 + la) bs } := by
  induction bs with
  | nil => exact fun _ _ _ => rfl
  | cons b r ih =>
    intro s la h
    rw [List.length_cons] at h
    have h1 : s.writeLoc1 o la b = { s with loc := Memory.write s.loc (o.slot * 0x4000 + la) b } := by
      unfold State.writeLoc1
      rw [locKey_private _ _ _ (by omega)]
    rw [State.writeLoc, h1, ih _ _ (by omega), Memory.writeN, Nat.add_assoc]

/-! ### Fields -/

/-- The bytes of numbers, each of its own length. -/
def fieldBytes (fs : List (Nat × Nat)) : List Byte := fs.flatMap (fun e => bytesOf e.1 e.2)

theorem fieldBytes_cons (e : Nat × Nat) (fs : List (Nat × Nat)) : fieldBytes (e :: fs) = bytesOf e.1 e.2 ++ fieldBytes fs := rfl

theorem fieldBytes_append (fs gs : List (Nat × Nat)) : fieldBytes (fs ++ gs) = fieldBytes fs ++ fieldBytes gs := List.flatMap_append

theorem fieldBytes_length (fs : List (Nat × Nat)) : (fieldBytes fs).length = (fs.map (·.1)).sum := by
  induction fs with
  | nil => rfl
  | cons e r ih => rw [fieldBytes_cons, List.length_append, bytesOf_length, ih, List.map_cons, List.sum_cons]

/-- A number reads back from its place among the others. -/
theorem natOf_field (fs : List (Nat × Nat)) : ∀ (i n v : Nat), fs[i]? = some (n, v) →
    natOf (((fieldBytes fs).drop ((fs.take i).map (·.1)).sum).take n) = v % 256 ^ n := by
  induction fs with
  | nil => exact fun _ _ _ h => nomatch h
  | cons e r ih =>
    intro i n v h
    cases i with
    | zero =>
      cases h
      rw [fieldBytes_cons, List.take_zero, List.map_nil, List.sum_nil, List.drop_zero, List.take_left' (bytesOf_length n v), natOf_bytesOf]
    | succ i =>
      rw [List.take_succ_cons, List.map_cons, List.sum_cons, fieldBytes_cons, ← List.drop_drop, List.drop_left' (bytesOf_length _ _)]
      exact ih i n v h

/-- The same where the numbers stand in memory. -/
theorem natOf_readN_field {m : Memory} {a len : Nat} {fs : List (Nat × Nat)} (h : Memory.readN m a len = fieldBytes fs) (i : Nat) {n v : Nat}
    (hi : fs[i]? = some (n, v)) {k : Nat} (hk : ((fs.take i).map (·.1)).sum = k) (hn : k + n ≤ len) :
    natOf (Memory.readN m (a + k) n) = v % 256 ^ n := by
  rw [← Memory.readN_part m k n len a hn, h, ← hk]
  exact natOf_field fs i n v hi

/-! ### Vectors built one element after another -/

section
variable {α β : Type} {n : Nat} {key : β → Nat} {val : β → α} {r : Fin n}

theorem foldl_set_other (l : List β) : ∀ v : Vector α n, (∀ e ∈ l, key e ≠ r) → (l.foldl (fun v e => v.set! (key e) (val e)) v)[r] = v[r] := by
  induction l with
  | nil => exact fun _ _ => rfl
  | cons e l ih =>
    intro v h
    rw [List.foldl_cons, ih _ fun e he => h e (List.mem_cons_of_mem _ he)]
    show (v.set! (key e) (val e))[r.val] = v[r.val]
    rw [Vector.set!_eq_setIfInBounds, Vector.getElem_setIfInBounds_ne _ (h e List.mem_cons_self)]

/-- The element that each write to its place gives it. -/
theorem foldl_set_same {y : α} (l : List β) : ∀ v : Vector α n, (∀ e ∈ l, key e = r → val e = y) → (v[r] = y ∨ ∃ e ∈ l, key e = r) →
    (l.foldl (fun v e => v.set! (key e) (val e)) v)[r] = y := by
  induction l with
  | nil => exact fun v _ h => h.resolve_right fun ⟨_, he, _⟩ => nomatch he
  | cons e l ih =>
    intro v h hor
    have hset : (v.set! (key e) (val e))[r] = if key e = r then val e else v[r] := by
      show (v.set! (key e) (val e))[r.val] = _
      rw [Vector.set!_eq_setIfInBounds, Vector.getElem_setIfInBounds]
      rfl
    refine ih _ (fun e he => h e (List.mem_cons_of_mem _ he)) ?_
    rw [hset]
    by_cases he : key e = r
    · rw [if_pos he]
      exact .inl (h e List.mem_cons_self he)
    · rw [if_neg he]
      exact hor.imp_right fun ⟨e', he', hr⟩ => ⟨e', (List.mem_cons.1 he').resolve_left fun h => he (h ▸ hr), hr⟩

end

end Sys2Proof.Machine
end

section
/-!
PROOF. The image of a save in its slice (O31, R120 to R123).
-/
namespace Sys2Proof.Machine
open Sys2Proof

/-! ### What is saved, as numbers -/

/-- The numbers of the continuation record (R120). -/
def Thread.recordFields (t : Thread) (prog mown : Bool) : List (Nat × Nat) :=
  [(8, t.pc.toNat), (8, t.sys.toNat + 2 * t.uact.toNat + 4 * (!t.held.isEmpty).toNat), (8, t.liveMask.toNat), (4, t.ident.gang), (2, t.ident.grank),
    (1, t.slot % 8), (1, t.arrived.isSome.toNat + 2 * mown.toNat + 4 * prog.toNat + 8 * t.allow.toNat), (4, t.ident.launch), (1, t.ident.vf),
    (1, t.prio), (2, 0), (8, t.loop0.flag.toNat + 2 * t.loop1.flag.toNat), (8, t.streamPointer), (4, t.registerPart.length)]

theorem Thread.record_fields (t : Thread) (prog mown : Bool) : t.record prog mown = fieldBytes (t.recordFields prog mown) := by
  unfold Thread.record Thread.recordFields
  simp only [fieldBytes, List.flatMap_cons, List.flatMap_nil, List.append_nil, List.append_assoc]

theorem Thread.record_length (t : Thread) (prog mown : Bool) : (t.record prog mown).length = 60 := by
  rw [Thread.record_fields, fieldBytes_length]
  rfl

/-- The numbers of the state block (R122). -/
def Thread.blockFields (t : Thread) : List (Nat × Nat) :=
  [(8, t.uvec.toNat), (8, t.epc.toNat), (8, t.tval.toNat), (4, t.othresh.toNat), (4, t.clamplo.toNat), (4, t.clamphi.toNat), (1, t.cause.toNat),
    (1, t.usave.toNat / 64), (2, t.fflags.toNat + 128 * t.rmode.toNat), (8, t.mstride.toNat), (8, t.mrow.toNat), (8, t.score.toNat)]

theorem Thread.stateBlock_fields (t : Thread) : t.stateBlock = fieldBytes t.blockFields := by
  unfold Thread.stateBlock Thread.blockFields
  simp only [fieldBytes, List.flatMap_cons, List.flatMap_nil, List.append_nil, List.append_assoc]

/-- The numbers of the loop block (R122). -/
def Thread.loopFields (t : Thread) : List (Nat × Nat) :=
  [(8, t.loop0.beg.toNat), (8, t.loop0.last.toNat), (8, t.loop0.cnt.toNat), (8, t.loop0.flag.toNat), (8, t.loop1.beg.toNat),
    (8, t.loop1.last.toNat), (8, t.loop1.cnt.toNat), (8, t.loop1.flag.toNat)]

theorem Thread.loopBlock_fields (t : Thread) : t.loopBlock = fieldBytes t.loopFields := by
  unfold Thread.loopBlock Thread.loopFields
  simp only [fieldBytes, List.flatMap_cons, List.flatMap_nil, List.append_nil, List.append_assoc]

/-- The numbers of the live registers (R122). -/
def Thread.regFields (t : Thread) : List (Nat × Nat) :=
  (bitsIn t.liveMask 0 32).map (fun k => (8, (t.x.toList.getD k 0).toNat))
    ++ (bitsIn t.liveMask 32 32).map (fun k => (32, (t.f.toList.getD (k - 32) 0).toNat))

/-- The numbers of a stream state (R122). -/
def streamFields (v : Stream) : List (Nat × Nat) :=
  [(4, v.base.toNat % 2 ^ 29 + v.type.val * 2 ^ 29), (4, v.limit.toNat), (4, v.stride.toNat), (4, v.pos.toNat)]

theorem streamState_fields (v : Stream) : streamState v = fieldBytes (streamFields v) := by
  unfold streamState streamFields
  simp only [fieldBytes, List.flatMap_cons, List.flatMap_nil, List.append_nil, List.append_assoc]

theorem Thread.regBytes_fields (t : Thread) : t.regBytes = fieldBytes t.regFields := by
  unfold Thread.regBytes Thread.regFields fieldBytes
  rw [List.flatMap_append, List.flatMap_map, List.flatMap_map]

theorem Thread.registerPart_fields (t : Thread) : t.registerPart = fieldBytes (t.regFields ++ t.bound4.flatMap (fun e => streamFields e.2)) := by
  unfold Thread.registerPart
  rw [fieldBytes_append, Thread.regBytes_fields]
  refine congrArg _ ?_
  unfold fieldBytes
  rw [List.flatMap_assoc]
  refine congrArg (fun f => List.flatMap f t.bound4) (funext fun e => ?_)
  exact streamState_fields e.2

/-! ### Lengths -/

theorem Thread.regBytes_length (t : Thread) :
    t.regBytes.length = 8 * (bitsIn t.liveMask 0 32).length + 32 * (bitsIn t.liveMask 32 32).length := by
  rw [Thread.regBytes_fields, fieldBytes_length]
  unfold Thread.regFields
  rw [List.map_append, List.sum_append, List.map_map, List.map_map]
  simp only [Function.comp_def, List.map_const', List.sum_replicate, smul_eq_mul]
  omega

theorem Thread.registerPart_length (t : Thread) : t.registerPart.length = t.regBytes.length + 16 * t.bound4.length := by
  unfold Thread.registerPart
  rw [List.length_append, List.length_flatMap]
  have hs (v : Stream) : (streamState v).length = 16 := by
    rw [streamState_fields, fieldBytes_length]
    rfl
  simp only [hs, List.map_const', List.sum_replicate, smul_eq_mul]
  omega

theorem Thread.bound4_length (t : Thread) : t.bound4.length ≤ 4 := by
  unfold Thread.bound4
  refine (List.length_filterMap_le _ _).trans ?_
  rw [List.length_zipIdx, Vector.length_toList]

/-- Register 0 is never live in a save (R123). -/
theorem Thread.liveMask_zero (t : Thread) : t.liveMask.getLsbD 0 = false := by
  have h (l : List (Nat × Stream)) : ∀ m : BitVec 64, m.getLsbD 0 = false →
      (l.foldl (fun m e => m &&& ~~~(1#64 <<< (60 + e.1))) m).getLsbD 0 = false := by
    induction l with
    | nil => exact fun _ h => h
    | cons e l ih => exact fun m hm => ih _ (by rw [BitVec.getLsbD_and, hm, Bool.false_and])
  exact h t.bound4 _ (by rw [BitVec.getLsbD_and]; simp)

theorem bitsIn_length (m : BitVec 64) (lo n : Nat) : (bitsIn m lo n).length ≤ n := by
  unfold bitsIn
  refine (List.length_filter_le _ _).trans ?_
  rw [List.length_map, List.length_range]

theorem Thread.registerPart_fits (t : Thread) : t.registerPart.length ≤ 0x538 := by
  have hx : (bitsIn t.liveMask 0 32).length ≤ 31 := by
    have hz : (0 :: (List.range 31).map (· + 1)).filter (fun k => t.liveMask.getLsbD k) = ((List.range 31).map (· + 1)).filter (fun k => t.liveMask.getLsbD k) :=
      List.filter_cons_of_neg (by rw [t.liveMask_zero]; exact Bool.false_ne_true)
    have hr : (List.range 32).map (0 + ·) = 0 :: (List.range 31).map (· + 1) := by decide
    unfold bitsIn
    rw [hr, hz]
    refine (List.length_filter_le _ _).trans ?_
    rw [List.length_map, List.length_range]
  have hf := bitsIn_length t.liveMask 32 32
  have hb := t.bound4_length
  rw [Thread.registerPart_length, Thread.regBytes_length]
  omega

/-! ### The image -/

/-- The contribution of a thread that waits at its barrier (R122). -/
def Thread.contribBytes (t : Thread) : List Byte :=
  match t.arrived with
  | some c => bytesOf 8 c.toNat
  | none => []

/-- The state extension (R305). -/
def Thread.extBytes (t : Thread) : List Byte := bytesOf 8 t.iret.toNat ++ bytesOf 56 0

/-- The loop block, where a level is active. -/
def Thread.loopBytes (t : Thread) : List Byte := if t.looping then t.loopBlock else []

/-- The CRC of a save (R124). -/
def Thread.saveCrc (t : Thread) (prog mown : Bool) : BitVec 32 :=
  crc32c (saveCovered (t.record prog mown) t.registerPart t.contribBytes t.stateBlock t.extBytes t.loopBytes)

/-- What a save has written into a slice that starts at `a`. -/
structure SaveImage (m : Memory) (a : Nat) (t : Thread) (prog mown : Bool) : Prop where
  ext : Memory.readN m (a + 0x39C0) 64 = t.extBytes
  regs : Memory.readN m (a + 0x3A00) t.registerPart.length = t.registerPart
  contrib : Memory.readN m (a + 0x3F38) t.contribBytes.length = t.contribBytes
  block : Memory.readN m (a + 0x3F40) 64 = t.stateBlock
  loops : Memory.readN m (a + 0x3F80) t.loopBytes.length = t.loopBytes
  record : Memory.readN m (a + 0x3FC0) 64 = t.record prog mown ++ bytesOf 4 (t.saveCrc prog mown).toNat

/-- Six strings that a save writes one after another read back. -/
theorem Memory.readN_save {m : Memory} (hm : Memory.wf m = true) (a : Nat) {ext regs contrib block loops record : List Byte} (h1 : ext.length = 64)
    (h2 : regs.length ≤ 0x538) (h3 : contrib.length ≤ 8) (h4 : block.length = 64) (h5 : loops.length ≤ 64) (h6 : record.length = 64) :
    let m := Memory.writeN (Memory.writeN (Memory.writeN (Memory.writeN (Memory.writeN (Memory.writeN m
      (a + 0x39C0) ext) (a + 0x3A00) regs) (a + 0x3F38) contrib) (a + 0x3F40) block) (a + 0x3F80) loops) (a + 0x3FC0) record
    Memory.readN m (a + 0x39C0) 64 = ext ∧ Memory.readN m (a + 0x3A00) regs.length = regs ∧ Memory.readN m (a + 0x3F38) contrib.length = contrib
      ∧ Memory.readN m (a + 0x3F40) 64 = block ∧ Memory.readN m (a + 0x3F80) loops.length = loops ∧ Memory.readN m (a + 0x3FC0) 64 = record := by
  have w1 := Memory.wf_writeN ext m (a + 0x39C0) hm
  have r1 := Memory.readN_writeN_self hm (a + 0x39C0) ext
  rw [h1] at r1
  generalize Memory.writeN m (a + 0x39C0) ext = m1 at w1 r1 ⊢
  have w2 := Memory.wf_writeN regs m1 (a + 0x3A00) w1
  have r2 := Memory.readN_writeN_self w1 (a + 0x3A00) regs
  rw [← Memory.readN_writeN_apart w1 (a + 0x3A00) regs (by omega)] at r1
  generalize Memory.writeN m1 (a + 0x3A00) regs = m2 at w2 r1 r2 ⊢
  have w3 := Memory.wf_writeN contrib m2 (a + 0x3F38) w2
  have r3 := Memory.readN_writeN_self w2 (a + 0x3F38) contrib
  rw [← Memory.readN_writeN_apart w2 (a + 0x3F38) contrib (by omega)] at r1 r2
  generalize Memory.writeN m2 (a + 0x3F38) contrib = m3 at w3 r1 r2 r3 ⊢
  have w4 := Memory.wf_writeN block m3 (a + 0x3F40) w3
  have r4 := Memory.readN_writeN_self w3 (a + 0x3F40) block
  rw [h4] at r4
  rw [← Memory.readN_writeN_apart w3 (a + 0x3F40) block (by omega)] at r1 r2 r3
  generalize Memory.writeN m3 (a + 0x3F40) block = m4 at w4 r1 r2 r3 r4 ⊢
  have w5 := Memory.wf_writeN loops m4 (a + 0x3F80) w4
  have r5 := Memory.readN_writeN_self w4 (a + 0x3F80) loops
  rw [← Memory.readN_writeN_apart w4 (a + 0x3F80) loops (by omega)] at r1 r2 r3 r4
  generalize Memory.writeN m4 (a + 0x3F80) loops = m5 at w5 r1 r2 r3 r4 r5 ⊢
  have r6 := Memory.readN_writeN_self w5 (a + 0x3FC0) record
  rw [h6] at r6
  rw [← Memory.readN_writeN_apart w5 (a + 0x3FC0) record (by omega)] at r1 r2 r3 r4 r5
  exact ⟨r1, r2, r3, r4, r5, r6⟩

/-- Strings that one writes after another into a private slice. -/
theorem State.writeLoc_foldl (o : Owner) (l : List (Nat × List Byte)) : ∀ s : State, (∀ e ∈ l, e.1 + e.2.length ≤ 0x4000) →
    l.foldl (fun s e => s.writeLoc o e.1 e.2) s
      = { s with loc := l.foldl (fun m e => Memory.writeN m (o.slot * 0x4000 + e.1) e.2) s.loc } := by
  induction l with
  | nil => exact fun _ _ => rfl
  | cons e l ih =>
    intro s h
    rw [List.foldl_cons, State.writeLoc_private o e.2 s e.1 (h e List.mem_cons_self), ih _ fun e he => h e (List.mem_cons_of_mem _ he)]
    rfl

/-- The strings of a save, in the order in which they are written. -/
def Thread.saveStrings (t : Thread) (prog mown : Bool) : List (Nat × List Byte) :=
  [(0x39C0, t.extBytes), (0x3A00, t.registerPart), (0x3F38, t.contribBytes), (0x3F40, t.stateBlock), (0x3F80, t.loopBytes),
    (0x3FC0, t.record prog mown ++ bytesOf 4 (t.saveCrc prog mown).toNat)]

theorem State.writeSave_eq (s : State) (t : Thread) (prog mown : Bool) : s.writeSave t prog mown =
    ((t.saveStrings prog mown).foldl (fun s e => s.writeLoc t.owner e.1 e.2) s).settleLoc (t.slot * 0x4000 + 0x39C0) 0x640 := by
  unfold State.writeSave Thread.saveStrings Thread.saveCrc Thread.extBytes Thread.contribBytes Thread.loopBytes
  simp only [List.foldl_cons, List.foldl_nil] <;> rfl

/-- A save writes its image, and leaves the time. -/
theorem State.writeSave_image (s : State) (t : Thread) (prog mown : Bool) (h : Memory.wf s.loc = true) :
    SaveImage (s.writeSave t prog mown).loc (t.slot * 0x4000) t prog mown ∧ (s.writeSave t prog mown).now = s.now := by
  have hregs := t.registerPart_fits
  have hblock : t.stateBlock.length = 64 := by
    rw [Thread.stateBlock_fields, fieldBytes_length]
    rfl
  have hloops : t.loopBytes.length ≤ 64 := by
    unfold Thread.loopBytes
    split
    · rw [Thread.loopBlock_fields, fieldBytes_length]
      exact le_refl 64
    · exact Nat.zero_le _
  have hcontrib : t.contribBytes.length ≤ 8 := by
    unfold Thread.contribBytes
    split
    · rw [bytesOf_length]
    · exact Nat.zero_le _
  have hext : t.extBytes.length = 64 := by
    unfold Thread.extBytes
    rw [List.length_append, bytesOf_length, bytesOf_length]
  have hrecord : (t.record prog mown ++ bytesOf 4 (t.saveCrc prog mown).toNat).length = 64 := by
    rw [List.length_append, Thread.record_length, bytesOf_length]
  obtain ⟨hext', hregs', hcontrib', hblock', hloops', hrecord'⟩ :=
    Memory.readN_save h (t.slot * 0x4000) hext hregs hcontrib hblock hloops hrecord
  have hfit : ∀ e ∈ t.saveStrings prog mown, e.1 + e.2.length ≤ 0x4000 := by
    intro e he
    unfold Thread.saveStrings at he
    simp only [List.mem_cons, List.not_mem_nil, or_false] at he
    rcases he with rfl | rfl | rfl | rfl | rfl | rfl <;> dsimp only <;> omega
  have hloc := congrArg State.loc (State.writeLoc_foldl t.owner _ s hfit)
  have hnow := congrArg State.now (State.writeLoc_foldl t.owner _ s hfit)
  have ho : t.owner.slot = t.slot := rfl
  rw [ho] at hloc
  rw [State.writeSave_eq, State.settleLoc_loc, State.settleLoc_now, hloc, hnow]
  unfold Thread.saveStrings
  simp only [List.foldl_cons, List.foldl_nil]
  exact ⟨⟨hext', hregs', hcontrib', hblock', hloops', hrecord'⟩, trivial⟩

end Sys2Proof.Machine
end

section
/-!
PROOF. What a resume reads of a save (O31, R122 to R124, R186).
-/
namespace Sys2Proof.Machine
open Sys2Proof

/-! ### Numbers of a save -/

/-- A number of a save, from its place in a string of numbers. -/
theorem State.saved_field {u : State} {slot base len la n v : Nat} {fs : List (Nat × Nat)}
    (h : Memory.readN u.loc (slot * 0x4000 + base) len = fieldBytes fs) (i : Nat) (hi : fs[i]? = some (n, v))
    (hk : base + ((fs.take i).map (·.1)).sum = la) (hn : la + n ≤ base + len) : u.saved slot la n = v % 256 ^ n := by
  unfold State.saved
  rw [← hk, ← Nat.add_assoc]
  exact natOf_readN_field h i hi rfl (by omega)

theorem ofNat_mod_bytes {w n : Nat} (x : BitVec w) (h : 2 ^ w ≤ 256 ^ n) : BitVec.ofNat w (x.toNat % 256 ^ n) = x := by
  rw [Nat.mod_eq_of_lt (lt_of_lt_of_le x.isLt h), BitVec.ofNat_toNat, BitVec.setWidth_eq]

/-- The bits that `usave` keeps (R11). -/
theorem handlerBits (n : Nat) : n &&& 0x3FC0 = n / 64 % 256 * 64 := by
  have hm : 0x3FC0 = (2 ^ 8 - 1) * 2 ^ 6 := by norm_num
  have hr : n / 64 % 256 * 64 = n / 2 ^ 6 % 2 ^ 8 * 2 ^ 6 := by norm_num
  rw [hm, hr]
  refine Nat.eq_of_testBit_eq fun i => ?_
  rw [Nat.testBit_and, Nat.testBit_mul_two_pow, Nat.testBit_mul_two_pow, Nat.testBit_two_pow_sub_one, Nat.testBit_mod_two_pow,
    Nat.testBit_div_two_pow]
  by_cases h : 6 ≤ i
  · rw [Nat.sub_add_cancel h]
    simp [h, Bool.and_comm]
  · simp [h]

/-- A loop level as a save keeps it. -/
def State.savedLevel (s : State) (slot la : Nat) : Loop :=
  ⟨BitVec.ofNat 64 (s.saved slot la 8), BitVec.ofNat 64 (s.saved slot (la + 8) 8), BitVec.ofNat 64 (s.saved slot (la + 16) 8),
    s.saved slot (la + 24) 8 % 2 == 1⟩

theorem State.restored_loops (s : State) (b : Thread) :
    (s.restored b).loop0 = (if s.saved b.slot 0x3FE8 8 % 4 ≠ 0 then s.savedLevel b.slot 0x3F80 else Loop.none)
      ∧ (s.restored b).loop1 = (if s.saved b.slot 0x3FE8 8 % 4 ≠ 0 then s.savedLevel b.slot 0x3FA0 else Loop.none) := by
  unfold State.restored State.savedLevel
  dsimp only
  exact ⟨rfl, rfl⟩

/-- The numbers of the record and its CRC. -/
def Thread.sealedFields (t : Thread) (prog mown : Bool) : List (Nat × Nat) := t.recordFields prog mown ++ [(4, (t.saveCrc prog mown).toNat)]

section
variable {u : State} {t : Thread} {slot : Nat} {prog mown : Bool} (I : SaveImage u.loc (slot * 0x4000) t prog mown)
include I

theorem SaveImage.sealed : Memory.readN u.loc (slot * 0x4000 + 0x3FC0) 64 = fieldBytes (t.sealedFields prog mown) := by
  rw [I.record, Thread.record_fields]
  unfold Thread.sealedFields
  rw [fieldBytes_append, fieldBytes_cons]
  exact congrArg _ (List.append_nil _).symm

theorem SaveImage.ext_fields : Memory.readN u.loc (slot * 0x4000 + 0x39C0) 64 = fieldBytes [(8, t.iret.toNat), (56, 0)] := by
  rw [I.ext, fieldBytes_cons, fieldBytes_cons]
  exact congrArg (bytesOf 8 t.iret.toNat ++ ·) (List.append_nil _).symm

theorem SaveImage.block_fields : Memory.readN u.loc (slot * 0x4000 + 0x3F40) 64 = fieldBytes t.blockFields := by
  rw [I.block, Thread.stateBlock_fields]

theorem SaveImage.loop_fields (h : t.looping = true) : Memory.readN u.loc (slot * 0x4000 + 0x3F80) 64 = fieldBytes t.loopFields := by
  have hl : t.loopBytes = fieldBytes t.loopFields := (if_pos h).trans t.loopBlock_fields
  have hlen : (fieldBytes t.loopFields).length = 64 := by
    rw [fieldBytes_length]
    rfl
  have := I.loops
  rw [hl, hlen] at this
  exact this

/-- A 64-bit state register of the block. -/
theorem SaveImage.block_word (i : Nat) {x : Word} {la : Nat} (hi : t.blockFields[i]? = some (8, x.toNat))
    (hk : 0x3F40 + ((t.blockFields.take i).map (·.1)).sum = la) (hn : la + 8 ≤ 0x3F80) : BitVec.ofNat 64 (u.saved slot la 8) = x := by
  rw [State.saved_field I.block_fields i hi hk hn]
  exact ofNat_mod_bytes x (le_refl _)

/-- A 32-bit state register of the block. -/
theorem SaveImage.block_half (i : Nat) {x : BitVec 32} {la : Nat} (hi : t.blockFields[i]? = some (4, x.toNat))
    (hk : 0x3F40 + ((t.blockFields.take i).map (·.1)).sum = la) (hn : la + 4 ≤ 0x3F80) : BitVec.ofNat 32 (u.saved slot la 4) = x := by
  rw [State.saved_field I.block_fields i hi hk hn]
  exact ofNat_mod_bytes x (le_refl _)

/-- The state registers that a save keeps whole come back. -/
theorem SaveImage.block_registers {b : Thread} (hb : b.slot = slot) : (u.restored b).uvec = t.uvec ∧ (u.restored b).epc = t.epc
    ∧ (u.restored b).tval = t.tval ∧ (u.restored b).othresh = t.othresh ∧ (u.restored b).clamplo = t.clamplo ∧ (u.restored b).clamphi = t.clamphi
    ∧ (u.restored b).mstride = t.mstride ∧ (u.restored b).mrow = t.mrow ∧ (u.restored b).score = t.score := by
  subst hb
  exact ⟨I.block_word 0 rfl rfl (by decide), I.block_word 1 rfl rfl (by decide), I.block_word 2 rfl rfl (by decide),
    I.block_half 3 rfl rfl (by decide), I.block_half 4 rfl rfl (by decide), I.block_half 5 rfl rfl (by decide),
    I.block_word 9 rfl rfl (by decide), I.block_word 10 rfl rfl (by decide), I.block_word 11 rfl rfl (by decide)⟩

/-- Those that it packs come back too. -/
theorem SaveImage.packed_registers {b : Thread} (hb : b.slot = slot) (hc : t.cause.toNat < 256) (hu : t.usave &&& 0x3FC0#64 = t.usave) :
    (u.restored b).cause = t.cause ∧ (u.restored b).usave = t.usave ∧ (u.restored b).fflags = t.fflags ∧ (u.restored b).rmode = t.rmode := by
  subst hb
  have h1 : u.saved b.slot 0x3F64 1 = t.cause.toNat % 256 ^ 1 := State.saved_field I.block_fields 6 rfl rfl (by decide)
  have h2 : u.saved b.slot 0x3F65 1 = t.usave.toNat / 64 % 256 ^ 1 := State.saved_field I.block_fields 7 rfl rfl (by decide)
  have h3 : u.saved b.slot 0x3F66 2 = (t.fflags.toNat + 128 * t.rmode.toNat) % 256 ^ 2 := State.saved_field I.block_fields 8 rfl rfl (by decide)
  have hf := t.fflags.isLt
  have hr := t.rmode.isLt
  refine ⟨?_, ?_, ?_, ?_⟩
  · show BitVec.ofNat 64 (u.saved b.slot 0x3F64 1) = t.cause
    rw [h1, Nat.mod_eq_of_lt (lt_of_lt_of_eq hc (by norm_num)), BitVec.ofNat_toNat, BitVec.setWidth_eq]
  · show BitVec.ofNat 64 (64 * u.saved b.slot 0x3F65 1) = t.usave
    have hn : t.usave.toNat = t.usave.toNat / 64 % 256 * 64 := (congrArg BitVec.toNat hu).symm.trans (handlerBits _)
    rw [h2, show (256 : Nat) ^ 1 = 256 by norm_num, Nat.mul_comm, ← hn, BitVec.ofNat_toNat, BitVec.setWidth_eq]
  · show BitVec.ofNat 7 (u.saved b.slot 0x3F66 2) = t.fflags
    rw [h3]
    apply BitVec.eq_of_toNat_eq
    rw [BitVec.toNat_ofNat]
    omega
  · show BitVec.ofNat 2 (u.saved b.slot 0x3F66 2 / 128) = t.rmode
    rw [h3]
    apply BitVec.eq_of_toNat_eq
    rw [BitVec.toNat_ofNat]
    omega

/-- The record's numbers come back. -/
theorem SaveImage.record_registers {b : Thread} (hb : b.slot = slot) (hpc : PcOk t.pc) : (u.restored b).pc = t.pc ∧ (u.restored b).sys = t.sys
    ∧ (u.restored b).uact = t.uact ∧ (u.restored b).live = t.liveMask ∧ (u.restored b).iret = t.iret := by
  subst hb
  have h0 : u.saved b.slot 0x3FC0 8 = t.pc.toNat % 256 ^ 8 := State.saved_field I.sealed 0 rfl rfl (by decide)
  have h1 : u.saved b.slot 0x3FC8 8 = (t.sys.toNat + 2 * t.uact.toNat + 4 * (!t.held.isEmpty).toNat) % 256 ^ 8 :=
    State.saved_field I.sealed 1 rfl rfl (by decide)
  have h2 : u.saved b.slot 0x3FD0 8 = t.liveMask.toNat % 256 ^ 8 := State.saved_field I.sealed 2 rfl rfl (by decide)
  have h3 : u.saved b.slot 0x39C0 8 = t.iret.toNat % 256 ^ 8 := State.saved_field I.ext_fields 0 rfl rfl (by decide)
  refine ⟨?_, ?_, ?_, ?_, ?_⟩
  · show pcBits (BitVec.ofNat 64 (u.saved b.slot 0x3FC0 8)) = t.pc
    rw [h0, ofNat_mod_bytes t.pc (le_refl _)]
    exact hpc
  · show (u.saved b.slot 0x3FC8 8 % 2 == 1) = t.sys
    rw [h1]
    cases t.sys <;> cases t.uact <;> cases t.held.isEmpty <;> rfl
  · show (u.saved b.slot 0x3FC8 8 / 2 % 2 == 1) = t.uact
    rw [h1]
    cases t.sys <;> cases t.uact <;> cases t.held.isEmpty <;> rfl
  · show BitVec.ofNat 64 (u.saved b.slot 0x3FD0 8) = t.liveMask
    rw [h2, ofNat_mod_bytes t.liveMask (le_refl _)]
  · show BitVec.ofNat 64 (u.saved b.slot 0x39C0 8) = t.iret
    rw [h3, ofNat_mod_bytes t.iret (le_refl _)]

/-- Whether a save holds a contribution. -/
theorem SaveImage.arrived_flag : u.saved slot 0x3FDF 1 % 2 = 1 ↔ t.arrived.isSome = true := by
  have h : u.saved slot 0x3FDF 1 = (t.arrived.isSome.toNat + 2 * mown.toNat + 4 * prog.toNat + 8 * t.allow.toNat) % 256 ^ 1 :=
    State.saved_field I.sealed 6 rfl rfl (by decide)
  have h1 := mown.toNat_lt
  have h2 := prog.toNat_lt
  have h3 := t.allow.toNat_lt
  rw [h]
  cases t.arrived.isSome
  · simp only [Bool.toNat_false, Bool.false_eq_true, iff_false]
    omega
  · simp only [Bool.toNat_true, iff_true]
    omega

theorem SaveImage.contribution {b : Thread} (hb : b.slot = slot) : (u.restored b).arrived = t.arrived := by
  subst hb
  show (if u.saved b.slot 0x3FDF 1 % 2 = 1 then some (BitVec.ofNat 64 (u.saved b.slot 0x3F38 8)) else none) = t.arrived
  have hcontrib := I.contrib
  cases ha : t.arrived with
  | none =>
    rw [if_neg]
    rw [I.arrived_flag, ha]
    exact Bool.false_ne_true
  | some c =>
    have hbytes : t.contribBytes = bytesOf 8 c.toNat := by
      unfold Thread.contribBytes
      rw [ha]
    have hc : u.saved b.slot 0x3F38 8 = c.toNat % 256 ^ 8 := by
      rw [hbytes, bytesOf_length] at hcontrib
      unfold State.saved
      rw [hcontrib, natOf_bytesOf]
    rw [if_pos (I.arrived_flag.2 (by rw [ha]; rfl)), hc, ofNat_mod_bytes c (le_refl _)]

/-- Whether a save holds a loop block. -/
theorem SaveImage.loop_flag : u.saved slot 0x3FE8 8 % 4 ≠ 0 ↔ t.looping = true := by
  have h : u.saved slot 0x3FE8 8 = (t.loop0.flag.toNat + 2 * t.loop1.flag.toNat) % 256 ^ 8 := State.saved_field I.sealed 11 rfl rfl (by decide)
  rw [h]
  unfold Thread.looping
  cases t.loop0.flag <;> cases t.loop1.flag <;> decide

theorem SaveImage.loops_back {b : Thread} (hb : b.slot = slot) (h : t.looping = true) :
    (u.restored b).loop0 = t.loop0 ∧ (u.restored b).loop1 = t.loop1 := by
  subst hb
  have hw (i : Nat) (x : Word) (la : Nat) (hi : t.loopFields[i]? = some (8, x.toNat))
      (hk : 0x3F80 + ((t.loopFields.take i).map (·.1)).sum = la) (hn : la + 8 ≤ 0x3FC0) : BitVec.ofNat 64 (u.saved b.slot la 8) = x := by
    rw [State.saved_field (I.loop_fields h) i hi hk hn, ofNat_mod_bytes x (le_refl _)]
  have hf (i : Nat) (x : Bool) (la : Nat) (hi : t.loopFields[i]? = some (8, x.toNat))
      (hk : 0x3F80 + ((t.loopFields.take i).map (·.1)).sum = la) (hn : la + 8 ≤ 0x3FC0) : (u.saved b.slot la 8 % 2 == 1) = x := by
    rw [State.saved_field (I.loop_fields h) i hi hk hn]
    cases x <;> rfl
  obtain ⟨h0, h1⟩ := u.restored_loops b
  rw [h0, h1, if_pos (I.loop_flag.2 h), if_pos (I.loop_flag.2 h)]
  unfold State.savedLevel
  rw [hw 0 t.loop0.beg 0x3F80 rfl rfl (by decide), hw 1 t.loop0.last (0x3F80 + 8) rfl rfl (by decide),
    hw 2 t.loop0.cnt (0x3F80 + 16) rfl rfl (by decide), hf 3 t.loop0.flag (0x3F80 + 24) rfl rfl (by decide),
    hw 4 t.loop1.beg 0x3FA0 rfl rfl (by decide), hw 5 t.loop1.last (0x3FA0 + 8) rfl rfl (by decide),
    hw 6 t.loop1.cnt (0x3FA0 + 16) rfl rfl (by decide), hf 7 t.loop1.flag (0x3FA0 + 24) rfl rfl (by decide)]
  exact ⟨rfl, rfl⟩

end

end Sys2Proof.Machine
end

section
/-!
PROOF. The registers, the streams and the checks of a save (O31, R121 to R124).
-/
namespace Sys2Proof.Machine
open Sys2Proof

/-! ### Blocks of one length -/

/-- A block among others of its length. -/
theorem take_drop_flatMap {β : Type} {g : β → List Byte} {n : Nat} (Q : List Byte) (l : List β) : ∀ (i : Nat) (e : β), (∀ e ∈ l, (g e).length = n) →
    l[i]? = some e → ((l.flatMap g ++ Q).drop (n * i)).take n = g e := by
  induction l with
  | nil => exact fun _ _ _ h => nomatch h
  | cons x r ih =>
    intro i e hg h
    have hx := hg x List.mem_cons_self
    rw [List.flatMap_cons, List.append_assoc]
    cases i with
    | zero =>
      cases h
      rw [Nat.mul_zero, List.drop_zero, List.take_left' hx]
    | succ i =>
      rw [Nat.mul_succ, Nat.add_comm, ← List.drop_drop, List.drop_left' hx]
      exact ih i e (fun e he => hg e (List.mem_cons_of_mem _ he)) h

theorem length_flatMap_block {β : Type} {g : β → List Byte} {n : Nat} (l : List β) (h : ∀ e ∈ l, (g e).length = n) :
    (l.flatMap g).length = n * l.length := by
  induction l with
  | nil => rfl
  | cons x r ih =>
    rw [List.flatMap_cons, List.length_append, h x List.mem_cons_self, ih fun e he => h e (List.mem_cons_of_mem _ he), List.length_cons,
      Nat.mul_succ, Nat.add_comm]

theorem mem_bitsIn {m : BitVec 64} {lo n k : Nat} : k ∈ bitsIn m lo n ↔ (lo ≤ k ∧ k < lo + n) ∧ m.getLsbD k = true := by
  unfold bitsIn
  rw [List.mem_filter, List.mem_map]
  refine and_congr_left fun _ => ⟨?_, fun h => ⟨k - lo, List.mem_range.2 (by omega), by omega⟩⟩
  rintro ⟨j, hj, rfl⟩
  have := List.mem_range.1 hj
  omega

theorem getD_toList {α : Type} {n : Nat} (v : Vector α n) (r : Fin n) (d : α) : v.toList.getD r.val d = v[r] := by
  rw [List.getD_eq_getElem _ _ (by rw [Vector.length_toList]; exact r.isLt), Vector.getElem_toList]
  rfl

/-- The elements of a row whose numbers are some of the row's. -/
theorem mem_of_zipIdx {l : List Nat} {e : Nat × Nat} (h : e ∈ l.zipIdx) : l[e.2]? = some e.1 ∧ e.1 ∈ l := by
  have hi := List.mem_zipIdx_iff_getElem?.1 h
  exact ⟨hi, List.mem_of_getElem? hi⟩

/-! ### Registers -/

theorem State.restored_x (s : State) (b : Thread) : (s.restored b).x = ((bitsIn (s.restored b).live 0 32).zipIdx).foldl
    (fun v e => v.set! e.1 (BitVec.ofNat 64 (s.saved b.slot (0x3A00 + 8 * e.2) 8))) (Vector.replicate 32 0) := by
  unfold State.restored
  rfl

theorem State.restored_f (s : State) (b : Thread) : (s.restored b).f = ((bitsIn (s.restored b).live 32 32).zipIdx).foldl
    (fun v e => v.set! (e.1 - 32) (BitVec.ofNat 256 (s.saved b.slot (0x3A00 + 8 * (bitsIn (s.restored b).live 0 32).length + 32 * e.2) 32)))
      (Vector.replicate 32 0) := by
  unfold State.restored
  rfl

section
variable {u : State} {t : Thread} {slot : Nat} {prog mown : Bool} (I : SaveImage u.loc (slot * 0x4000) t prog mown)
include I

/-- A block of the register part. -/
theorem SaveImage.part_block {β : Type} {g : β → List Byte} {n : Nat} {P Q : List Byte} {l : List β} (hpart : t.registerPart = P ++ (l.flatMap g ++ Q))
    (hg : ∀ e ∈ l, (g e).length = n) {i : Nat} {e : β} (h : l[i]? = some e) :
    Memory.readN u.loc (slot * 0x4000 + 0x3A00 + (P.length + n * i)) n = g e := by
  have hi : i < l.length := (List.getElem?_eq_some_iff.1 h).1
  have hlen : P.length + n * i + n ≤ t.registerPart.length := by
    have hn : n * i + n ≤ n * l.length := by
      rw [← Nat.mul_succ]
      exact Nat.mul_le_mul_left n hi
    rw [hpart, List.length_append, List.length_append, length_flatMap_block l hg]
    omega
  rw [← Memory.readN_part _ _ _ _ _ hlen, I.regs, hpart, ← List.drop_drop, List.drop_left' rfl]
  exact take_drop_flatMap Q l i e hg h

theorem SaveImage.x_saved {i k : Nat} (h : (bitsIn t.liveMask 0 32)[i]? = some k) :
    u.saved slot (0x3A00 + 8 * i) 8 = (t.x.toList.getD k 0).toNat % 256 ^ 8 := by
  have hb := I.part_block (P := []) (g := fun k => bytesOf 8 (t.x.toList.getD k 0).toNat)
    (by rw [List.nil_append, ← List.append_assoc]; rfl) (fun _ _ => bytesOf_length _ _) h
  rw [List.length_nil, Nat.zero_add] at hb
  unfold State.saved
  rw [← Nat.add_assoc, hb, natOf_bytesOf]

theorem SaveImage.f_saved {i k : Nat} (h : (bitsIn t.liveMask 32 32)[i]? = some k) :
    u.saved slot (0x3A00 + 8 * (bitsIn t.liveMask 0 32).length + 32 * i) 32 = (t.f.toList.getD (k - 32) 0).toNat % 256 ^ 32 := by
  have hb := I.part_block (P := (bitsIn t.liveMask 0 32).flatMap (fun k => bytesOf 8 (t.x.toList.getD k 0).toNat))
    (g := fun k => bytesOf 32 (t.f.toList.getD (k - 32) 0).toNat) (by rw [← List.append_assoc]; rfl) (fun _ _ => bytesOf_length _ _) h
  rw [length_flatMap_block _ (fun _ _ => bytesOf_length _ _)] at hb
  unfold State.saved
  rw [Nat.add_assoc, ← Nat.add_assoc (slot * 0x4000), hb, natOf_bytesOf]

theorem SaveImage.x_back {b : Thread} (hb : b.slot = slot) (hlive : (u.restored b).live = t.liveMask) (r : Reg) :
    (u.restored b).x[r] = if t.liveMask.getLsbD r.val then t.x[r] else 0 := by
  subst hb
  rw [u.restored_x b, hlive]
  split
  next h =>
    obtain ⟨i, hi⟩ := List.mem_iff_getElem?.1 (mem_bitsIn.2 ⟨⟨Nat.zero_le _, by omega⟩, h⟩ : r.val ∈ bitsIn t.liveMask 0 32)
    refine foldl_set_same (key := fun e : Nat × Nat => e.1) _ _ (fun e he hk => ?_) (.inr ⟨(r.val, i), List.mem_zipIdx_iff_getElem?.2 hi, rfl⟩)
    obtain ⟨he, -⟩ := mem_of_zipIdx he
    rw [hk] at he
    rw [I.x_saved he, ofNat_mod_bytes _ (le_refl _), getD_toList]
  next h =>
    rw [foldl_set_other (key := fun e : Nat × Nat => e.1)]
    · exact Vector.getElem_replicate _
    · intro e he hk
      obtain ⟨-, he⟩ := mem_of_zipIdx he
      rw [hk] at he
      exact h (mem_bitsIn.1 he).2

theorem SaveImage.f_back {b : Thread} (hb : b.slot = slot) (hlive : (u.restored b).live = t.liveMask) (r : Reg) :
    (u.restored b).f[r] = if t.liveMask.getLsbD (32 + r.val) then t.f[r] else 0 := by
  subst hb
  rw [u.restored_f b, hlive]
  split
  next h =>
    obtain ⟨i, hi⟩ := List.mem_iff_getElem?.1 (mem_bitsIn.2 ⟨⟨Nat.le_add_right _ _, by omega⟩, h⟩ : 32 + r.val ∈ bitsIn t.liveMask 32 32)
    refine foldl_set_same (key := fun e : Nat × Nat => e.1 - 32) _ _ (fun e he hk => ?_)
      (.inr ⟨(32 + r.val, i), List.mem_zipIdx_iff_getElem?.2 hi, Nat.add_sub_cancel_left 32 r.val⟩)
    obtain ⟨he, -⟩ := mem_of_zipIdx he
    rw [I.f_saved he, ofNat_mod_bytes _ (by norm_num), hk, getD_toList]
  next h =>
    rw [foldl_set_other (key := fun e : Nat × Nat => e.1 - 32)]
    · exact Vector.getElem_replicate _
    · intro e he hk
      obtain ⟨-, he⟩ := mem_of_zipIdx he
      obtain ⟨⟨hlo, -⟩, hbit⟩ := mem_bitsIn.1 he
      rw [show 32 + r.val = e.1 by omega] at h
      exact h hbit

end

end Sys2Proof.Machine
end

section
/-!
PROOF. The streams of a save, its checks, and what a resume restores (O31).
-/
namespace Sys2Proof.Machine
open Sys2Proof

/-! ### Bound streams -/

/-- The places of a row of options that hold something. -/
theorem filterMap_zipIdx_fst {α : Type} (l : List (Option α)) : ∀ n, ((l.zipIdx n).filterMap (fun e => e.1.map (fun v => (e.2, v)))).map (·.1)
    = (List.range' n l.length).filter (fun k => (l[k - n]?).join.isSome) := by
  induction l with
  | nil => exact fun _ => rfl
  | cons o r ih =>
    intro n
    have hrest : (List.range' (n + 1) r.length).filter (fun k => ((o :: r)[k - n]?).join.isSome)
        = (List.range' (n + 1) r.length).filter (fun k => (r[k - (n + 1)]?).join.isSome) := by
      refine List.filter_congr fun k hk => ?_
      have := (List.mem_range'_1.1 hk).1
      rw [show k - n = (k - (n + 1)) + 1 by omega, List.getElem?_cons_succ]
    rw [List.zipIdx_cons, List.length_cons, List.range'_succ, List.filter_cons, hrest, ← ih (n + 1), Nat.sub_self, List.getElem?_cons_zero]
    cases o with
    | none => rfl
    | some v => rfl

/-- What a bound stream adds to the stream state pointer (R121). -/
def pointerBits (o : Option Stream) (k : Nat) : Nat := o.elim 0 (fun st => 2 ^ (16 + k) + st.dir.val * 2 ^ (20 + 2 * k))

theorem foldl_pointer (l : List (Option Stream)) : ∀ n p, ((l.zipIdx n).filterMap (fun e => e.1.map (fun v => (e.2, v)))).foldl
    (fun n e => n + 2 ^ (16 + e.1) + e.2.dir.val * 2 ^ (20 + 2 * e.1)) p = p + ((l.zipIdx n).map (fun e => pointerBits e.1 e.2)).sum := by
  induction l with
  | nil => exact fun _ _ => rfl
  | cons o r ih =>
    intro n p
    rw [List.zipIdx_cons, List.map_cons, List.sum_cons, ← Nat.add_assoc, ← ih (n + 1)]
    cases o with
    | none => rfl
    | some v => rw [pointerBits, Option.elim_some, ← Nat.add_assoc]; rfl

theorem Thread.streams_toList (t : Thread) : t.streams.toList = [t.streams[0], t.streams[1], t.streams[2], t.streams[3]] := by
  refine List.ext_getElem (by rw [Vector.length_toList]; rfl) fun i h _ => ?_
  rw [Vector.length_toList] at h
  rw [Vector.getElem_toList]
  match i with
  | 0 | 1 | 2 | 3 => rfl

/-- The low bits of the pointer: where the stream states stand. -/
def Thread.streamBase (t : Thread) : Nat := if t.bound4.isEmpty then 0 else 0x3A00 + t.regBytes.length

theorem Thread.streamPointer_eq (t : Thread) : t.streamPointer
    = t.streamBase + (pointerBits t.streams[0] 0 + (pointerBits t.streams[1] 1 + (pointerBits t.streams[2] 2 + pointerBits t.streams[3] 3))) := by
  have hsum : t.bound4.foldl (fun n e => n + 2 ^ (16 + e.1) + e.2.dir.val * 2 ^ (20 + 2 * e.1)) 0
      = pointerBits t.streams[0] 0 + (pointerBits t.streams[1] 1 + (pointerBits t.streams[2] 2 + pointerBits t.streams[3] 3)) := by
    unfold Thread.bound4
    rw [foldl_pointer, t.streams_toList, Nat.zero_add]
    rfl
  rw [← hsum]
  unfold Thread.streamPointer Thread.streamBase
  split
  next h =>
    rw [List.isEmpty_iff.1 h]
    rfl
  next h => rfl

/-- The number of a stream's direction; 0 where none is bound. -/
def dirBits (o : Option Stream) : Nat := o.elim 0 (fun st => st.dir.val)

theorem pointerBits_eq (o : Option Stream) (k : Nat) : pointerBits o k = o.isSome.toNat * 2 ^ (16 + k) + dirBits o * 2 ^ (20 + 2 * k)
    ∧ o.isSome.toNat ≤ 1 ∧ dirBits o < 4 := by
  cases o with
  | none => exact ⟨by simp [pointerBits, dirBits], by simp, by simp [dirBits]⟩
  | some st => exact ⟨by simp [pointerBits, dirBits], by simp, st.dir.isLt⟩

/-- The parts of the stream state pointer (R121). -/
theorem Thread.streamPointer_parts (t : Thread) : t.streamPointer < 256 ^ 8 ∧ t.streamPointer % 65536 = t.streamBase
    ∧ ∀ k : Fin 4, t.streamPointer / 2 ^ (16 + k.val) % 2 = t.streams[k].isSome.toNat
      ∧ t.streamPointer / 2 ^ (20 + 2 * k.val) % 4 = dirBits t.streams[k] := by
  have hbase : t.streamBase < 65536 := by
    have h1 := t.registerPart_fits
    have h2 := t.registerPart_length
    unfold Thread.streamBase
    split <;> omega
  have hp := t.streamPointer_eq
  obtain ⟨e0, b0, d0⟩ := pointerBits_eq t.streams[0] 0
  obtain ⟨e1, b1, d1⟩ := pointerBits_eq t.streams[1] 1
  obtain ⟨e2, b2, d2⟩ := pointerBits_eq t.streams[2] 2
  obtain ⟨e3, b3, d3⟩ := pointerBits_eq t.streams[3] 3
  rw [e0, e1, e2, e3] at hp
  norm_num at hp
  refine ⟨?_, ?_, fun k => ?_⟩
  · norm_num
    omega
  · omega
  · match k with
    | 0 => exact ⟨by norm_num; omega, by norm_num; omega⟩
    | 1 => exact ⟨by norm_num; omega, by norm_num; omega⟩
    | 2 => exact ⟨by norm_num; omega, by norm_num; omega⟩
    | 3 => exact ⟨by norm_num; omega, by norm_num; omega⟩

/-- The numbers of the bound streams are those whose bit the pointer has. -/
theorem Thread.bound4_fst (t : Thread) : (List.range 4).filter (fun k => t.streamPointer / 2 ^ (16 + k) % 2 == 1) = t.bound4.map (·.1) := by
  unfold Thread.bound4
  rw [filterMap_zipIdx_fst, Vector.length_toList, ← List.range_eq_range']
  refine List.filter_congr fun k hk => ?_
  have hk := List.mem_range.1 hk
  obtain ⟨-, -, h⟩ := t.streamPointer_parts
  obtain ⟨h, -⟩ := h ⟨k, hk⟩
  rw [h, Nat.sub_zero, List.getElem?_eq_getElem (by rw [Vector.length_toList]; exact hk), Vector.getElem_toList, Option.join_some]
  show (t.streams[k].isSome.toNat == 1) = t.streams[k].isSome
  cases t.streams[k].isSome <;> rfl

theorem Thread.mem_bound4 (t : Thread) (k : Fin 4) (st : Stream) : (k.val, st) ∈ t.bound4 ↔ t.streams[k] = some st := by
  unfold Thread.bound4
  rw [List.mem_filterMap]
  have hget : t.streams.toList[k.val]? = some t.streams[k] := by
    rw [List.getElem?_eq_getElem (by rw [Vector.length_toList]; exact k.isLt), Vector.getElem_toList]
    rfl
  constructor
  · rintro ⟨⟨o, j⟩, hm, ho⟩
    have hj := List.mem_zipIdx_iff_getElem?.1 hm
    dsimp only at ho hj
    obtain ⟨v, rfl, he⟩ := Option.map_eq_some_iff.1 ho
    cases he
    rw [hget] at hj
    exact Option.some.inj hj
  · intro h
    rw [h] at hget
    exact ⟨(some st, k.val), List.mem_zipIdx_iff_getElem?.2 hget, rfl⟩

/-! ### Streams that come back -/

/-- The stream that a stream state at an address holds (R122). -/
def State.savedStream (s : State) (slot ptr k la : Nat) : Stream :=
  { base := BitVec.ofNat 32 (s.saved slot (la + 0) 4 % 2 ^ 29), type := Fin.ofNat 8 (s.saved slot (la + 0) 4 / 2 ^ 29)
    limit := BitVec.ofNat 32 (s.saved slot (la + 4) 4), stride := BitVec.ofNat 32 (s.saved slot (la + 8) 4)
    pos := BitVec.ofNat 32 (s.saved slot (la + 12) 4), dir := Fin.ofNat 4 (ptr / 2 ^ (20 + 2 * k)), since := s.now }

theorem State.savedStreams_eq (s : State) (slot ptr la : Nat) (ks : List Nat) : ∀ n (v : Vector (Option Stream) 4),
    s.savedStreams slot ptr ks (la + 16 * n) v
      = (ks.zipIdx n).foldl (fun v e => v.set! e.1 (some (s.savedStream slot ptr e.1 (la + 16 * e.2)))) v := by
  induction ks with
  | nil => exact fun _ _ => rfl
  | cons k r ih =>
    intro n v
    rw [State.savedStreams, List.zipIdx_cons, List.foldl_cons, ← ih (n + 1), Nat.mul_succ, Nat.add_assoc]
    rfl

theorem State.restored_streams (s : State) (b : Thread) : (s.restored b).streams = s.savedStreams b.slot (s.saved b.slot 0x3FF0 8)
    ((List.range 4).filter (fun k => s.saved b.slot 0x3FF0 8 / 2 ^ (16 + k) % 2 == 1)) (s.saved b.slot 0x3FF0 8 % 65536)
      (Vector.replicate 4 none) := by
  unfold State.restored
  rfl

/-- The strings that the CRC of the save in the slice of a slot covers (R124). -/
def State.savedCovered (s : State) (slot : Nat) : List Byte :=
  saveCovered (Memory.readN s.loc (slot * 0x4000 + 0x3FC0) 60) (Memory.readN s.loc (slot * 0x4000 + 0x3A00) (s.saved slot 0x3FF8 4))
    (if s.saved slot 0x3FDF 1 % 2 = 1 then Memory.readN s.loc (slot * 0x4000 + 0x3F38) 8 else [])
    (Memory.readN s.loc (slot * 0x4000 + 0x3F40) 64) (Memory.readN s.loc (slot * 0x4000 + 0x39C0) 64)
    (if s.saved slot 0x3FE8 8 % 4 ≠ 0 then Memory.readN s.loc (slot * 0x4000 + 0x3F80) 64 else [])

/-- The bytes that the live registers of the save in the slice of a slot take (R122). -/
def State.savedRegs (s : State) (slot : Nat) : Nat :=
  8 * (bitsIn (BitVec.ofNat 64 (s.saved slot 0x3FD0 8)) 0 32).length + 32 * (bitsIn (BitVec.ofNat 64 (s.saved slot 0x3FD0 8)) 32 32).length

/-- The streams that the save in the slice of a slot binds (R121). -/
def State.savedBound (s : State) (slot : Nat) : List Nat := (List.range 4).filter (fun k => s.saved slot 0x3FF0 8 / 2 ^ (16 + k) % 2 == 1)

/-- The checks of a resume, on the numbers of the save (R124). -/
theorem State.saveOk_iff (s : State) (slot : Nat) : s.saveOk slot = true ↔ s.saved slot 0x3FF8 4 = s.savedRegs slot + 16 * (s.savedBound slot).length
    ∧ s.saved slot 0x3FF0 8 % 65536 = (if (s.savedBound slot).length = 0 then 0 else 0x3A00 + s.savedRegs slot)
    ∧ s.saved slot 0x3FFC 4 = (crc32c (s.savedCovered slot)).toNat := by
  unfold State.saveOk State.savedCovered State.savedRegs State.savedBound State.saved
  simp only [Bool.and_eq_true, beq_iff_eq, and_assoc]

section
variable {u : State} {t : Thread} {slot : Nat} {prog mown : Bool} (I : SaveImage u.loc (slot * 0x4000) t prog mown)
include I

theorem SaveImage.pointer : u.saved slot 0x3FF0 8 = t.streamPointer := by
  have h : u.saved slot 0x3FF0 8 = t.streamPointer % 256 ^ 8 := State.saved_field I.sealed 12 rfl rfl (by decide)
  rw [h, Nat.mod_eq_of_lt t.streamPointer_parts.1]

/-- A bound stream comes back from its stream state. -/
theorem SaveImage.stream_back {i : Nat} {k : Fin 4} {st : Stream} (h : t.bound4[i]? = some (k.val, st)) (hbase : st.base.toNat < 2 ^ 29) :
    u.savedStream slot t.streamPointer k (0x3A00 + t.regBytes.length + 16 * i) = { st with since := u.now } := by
  have hb := I.part_block (n := 16) (P := t.regBytes) (Q := []) (g := fun e : Nat × Stream => streamState e.2) (by rw [List.append_nil]; rfl)
    (fun e _ => by rw [streamState_fields, fieldBytes_length]; rfl) h
  rw [streamState_fields, Nat.add_assoc (slot * 0x4000), ← Nat.add_assoc 0x3A00] at hb
  generalize 0x3A00 + t.regBytes.length + 16 * i = la at hb ⊢
  have h0 : u.saved slot (la + 0) 4 = (st.base.toNat % 2 ^ 29 + st.type.val * 2 ^ 29) % 256 ^ 4 := State.saved_field hb 0 rfl rfl (by omega)
  have h1 : u.saved slot (la + 4) 4 = st.limit.toNat % 256 ^ 4 := State.saved_field hb 1 rfl rfl (by omega)
  have h2 : u.saved slot (la + 8) 4 = st.stride.toNat % 256 ^ 4 := State.saved_field hb 2 rfl rfl (by omega)
  have h3 : u.saved slot (la + 12) 4 = st.pos.toNat % 256 ^ 4 := State.saved_field hb 3 rfl rfl (by omega)
  have hdir : dirBits t.streams[k] = st.dir.val := by
    rw [(t.mem_bound4 k st).1 (List.mem_of_getElem? h)]
    rfl
  obtain ⟨-, -, hbits⟩ := t.streamPointer_parts
  obtain ⟨-, hd⟩ := hbits k
  have htype := st.type.isLt
  unfold State.savedStream
  rw [h1, h2, h3, ofNat_mod_bytes st.limit (le_refl _), ofNat_mod_bytes st.stride (le_refl _), ofNat_mod_bytes st.pos (le_refl _), h0]
  have e1 : BitVec.ofNat 32 ((st.base.toNat % 2 ^ 29 + st.type.val * 2 ^ 29) % 256 ^ 4 % 2 ^ 29) = st.base := by
    apply BitVec.eq_of_toNat_eq
    rw [BitVec.toNat_ofNat]
    omega
  have e2 : Fin.ofNat 8 ((st.base.toNat % 2 ^ 29 + st.type.val * 2 ^ 29) % 256 ^ 4 / 2 ^ 29) = st.type := by
    apply Fin.ext
    rw [Fin.val_ofNat]
    omega
  have e3 : Fin.ofNat 4 (t.streamPointer / 2 ^ (20 + 2 * k.val)) = st.dir := by
    apply Fin.ext
    rw [Fin.val_ofNat, hd, hdir]
  rw [e1, e2, e3]

theorem SaveImage.streams_back {b : Thread} (hb : b.slot = slot)
    (hbase : ∀ k : Fin 4, ∀ st, t.streams[k] = some st → st.base.toNat < 2 ^ 29) (k : Fin 4) :
    (u.restored b).streams[k] = t.streams[k].map (fun st => { st with since := u.now }) := by
  subst hb
  have hfold := State.savedStreams_eq u b.slot t.streamPointer t.streamBase (t.bound4.map (·.1)) 0 (Vector.replicate 4 none)
  rw [Nat.mul_zero, Nat.add_zero] at hfold
  obtain ⟨-, hlow, -⟩ := t.streamPointer_parts
  rw [u.restored_streams b, I.pointer, t.bound4_fst, hlow, hfold]
  have hplace (e : Nat × Nat) (he : e ∈ (t.bound4.map (·.1)).zipIdx) (hk : e.1 = k.val) :
      ∃ st, t.bound4[e.2]? = some (k.val, st) ∧ t.streams[k] = some st := by
    obtain ⟨hi, -⟩ := mem_of_zipIdx he
    rw [List.getElem?_map] at hi
    obtain ⟨⟨j, st⟩, hget, hj⟩ := Option.map_eq_some_iff.1 hi
    have hj : j = k.val := hj.trans hk
    subst hj
    exact ⟨st, hget, (t.mem_bound4 k st).1 (List.mem_of_getElem? hget)⟩
  cases ho : t.streams[k] with
  | none =>
    rw [foldl_set_other (key := fun e : Nat × Nat => e.1)]
    · exact Vector.getElem_replicate _
    · intro e he hk
      obtain ⟨st, -, hst⟩ := hplace e he hk
      rw [ho] at hst
      exact nomatch hst
  | some st =>
    have hmem := (t.mem_bound4 k st).2 ho
    obtain ⟨i, hi⟩ := List.mem_iff_getElem?.1 hmem
    have hne : t.streamBase = 0x3A00 + t.regBytes.length := if_neg (by rw [List.isEmpty_iff]; exact List.ne_nil_of_mem hmem)
    refine foldl_set_same (key := fun e : Nat × Nat => e.1) _ _ (fun e he hk => ?_)
      (.inr ⟨(k.val, i), List.mem_zipIdx_iff_getElem?.2 (by rw [List.getElem?_map, hi]; rfl), rfl⟩)
    obtain ⟨st', hget, hst⟩ := hplace e he hk
    rw [ho] at hst
    cases hst
    rw [hk, hne, I.stream_back hget (hbase k st ho)]
    rfl

/-! ### The checks of a resume (R124) -/

theorem SaveImage.size_saved : u.saved slot 0x3FF8 4 = t.registerPart.length := by
  have hi : (t.sealedFields prog mown)[13]? = some (4, t.registerPart.length) := rfl
  have hk : 0x3FC0 + (((t.sealedFields prog mown).take 13).map (·.1)).sum = 0x3FF8 := by
    simp [Thread.sealedFields, Thread.recordFields]
  refine (State.saved_field I.sealed 13 hi hk (by decide)).trans ?_
  exact Nat.mod_eq_of_lt (lt_of_le_of_lt t.registerPart_fits (by norm_num))

theorem SaveImage.crc_saved : u.saved slot 0x3FFC 4 = (t.saveCrc prog mown).toNat := by
  have hi : (t.sealedFields prog mown)[14]? = some (4, (t.saveCrc prog mown).toNat) := List.getElem?_concat_length
  have hk : 0x3FC0 + (((t.sealedFields prog mown).take 14).map (·.1)).sum = 0x3FFC := by
    simp [Thread.sealedFields, Thread.recordFields]
  refine (State.saved_field I.sealed 14 hi hk (by decide)).trans ?_
  exact Nat.mod_eq_of_lt (lt_of_lt_of_eq (t.saveCrc prog mown).isLt (by norm_num))

theorem SaveImage.live_saved : BitVec.ofNat 64 (u.saved slot 0x3FD0 8) = t.liveMask := by
  have h : u.saved slot 0x3FD0 8 = t.liveMask.toNat % 256 ^ 8 := State.saved_field I.sealed 2 rfl rfl (by decide)
  rw [h, ofNat_mod_bytes t.liveMask (le_refl _)]

theorem SaveImage.record_bytes : Memory.readN u.loc (slot * 0x4000 + 0x3FC0) 60 = t.record prog mown := by
  have h := Memory.readN_part u.loc 0 60 64 (slot * 0x4000 + 0x3FC0) (by decide)
  rw [List.drop_zero, Nat.add_zero, I.record, List.take_left' (Thread.record_length ..)] at h
  exact h.symm

theorem SaveImage.contrib_bytes :
    (if u.saved slot 0x3FDF 1 % 2 = 1 then Memory.readN u.loc (slot * 0x4000 + 0x3F38) 8 else []) = t.contribBytes := by
  have h := I.contrib
  have hbytes : t.contribBytes = t.arrived.elim [] (fun c => bytesOf 8 c.toNat) := by
    unfold Thread.contribBytes
    cases t.arrived <;> rfl
  cases ha : t.arrived with
  | none =>
    rw [if_neg (by rw [I.arrived_flag, ha]; exact Bool.false_ne_true), hbytes, ha]
    rfl
  | some c =>
    rw [hbytes, ha, Option.elim_some, bytesOf_length] at h
    rw [if_pos (by rw [I.arrived_flag, ha]; rfl), hbytes, ha, h]
    rfl

theorem SaveImage.loop_bytes :
    (if u.saved slot 0x3FE8 8 % 4 ≠ 0 then Memory.readN u.loc (slot * 0x4000 + 0x3F80) 64 else []) = t.loopBytes := by
  unfold Thread.loopBytes
  by_cases h : t.looping = true
  · rw [if_pos (I.loop_flag.2 h), if_pos h, I.loop_fields h, t.loopBlock_fields]
  · rw [if_neg (I.loop_flag.not.2 h), if_neg h]

theorem SaveImage.covered : u.savedCovered slot
    = saveCovered (t.record prog mown) t.registerPart t.contribBytes t.stateBlock t.extBytes t.loopBytes := by
  unfold State.savedCovered
  rw [I.contrib_bytes, I.loop_bytes, I.size_saved, I.record_bytes, I.regs, I.block, I.ext]

/-- A save passes the checks. -/
theorem SaveImage.passes : u.saveOk slot = true := by
  have hregs : u.savedRegs slot = t.regBytes.length := by
    unfold State.savedRegs
    rw [I.live_saved, t.regBytes_length]
  have hbound : (u.savedBound slot).length = t.bound4.length := by
    unfold State.savedBound
    rw [I.pointer, t.bound4_fst, List.length_map]
  rw [State.saveOk_iff, hregs, hbound, I.pointer, I.covered]
  refine ⟨I.size_saved.trans t.registerPart_length, t.streamPointer_parts.2.1.trans ?_, I.crc_saved⟩
  unfold Thread.streamBase
  cases t.bound4 with
  | nil => rfl
  | cons e l => rfl

end

/-- The stamps of a resume, an acquire at system scope, and of code (R19, R186). -/
theorem State.restored_stamps (s : State) (b : Thread) : (s.restored b).gangSeen = s.now ∧ (s.restored b).devSeen = s.now
    ∧ (s.restored b).sysSeen = s.now ∧ (s.restored b).codeSeen = s.now := by
  unfold State.restored
  exact ⟨rfl, rfl, rfl, rfl⟩

/-- Settles O31. -/
theorem saveThenRestore : Obligations.SaveThenRestore := by
  intro s t b prog mown hwf hslot hpc husave hcause hbase u v
  obtain ⟨I, hnow⟩ := s.writeSave_image t prog mown hwf
  obtain ⟨huvec, hepc, htval, hothresh, hclamplo, hclamphi, hmstride, hmrow, hscore⟩ := I.block_registers hslot
  obtain ⟨hcause', husave', hfflags, hrmode⟩ := I.packed_registers hslot hcause husave
  obtain ⟨hpc', hsys, huact, hlive, hiret⟩ := I.record_registers hslot hpc
  obtain ⟨hgang, hdev, hsysSeen, hcode⟩ := u.restored_stamps b
  refine ⟨I.passes, hpc', hsys, huact, huvec, hepc, htval, hcause', husave', hiret, hrmode, hfflags, hothresh, hclamplo, hclamphi, hmstride, hmrow,
    hscore, fun k => ?_, I.contribution hslot, hlive, hgang.trans hnow, hdev.trans hnow, hsysSeen.trans hnow, hcode.trans hnow,
    I.loops_back hslot, I.x_back hslot hlive, I.f_back hslot hlive⟩
  rw [← hnow]
  exact I.streams_back hslot hbase k

end Sys2Proof.Machine
end

section
/-!
PROOF. The bind port (R150, R151): what a record's checks read does not depend on the ports, on the charges of the firmware's rounds,
nor, for a frame, on the gangs and tenants.
-/
namespace Sys2Proof.Machine
open Sys2Proof

/-! ### The parts of the state that a bind or resume rewrites before it reads a frame -/

/-- A state under other gangs, tenants, ports and charges. -/
def State.rebooked (s : State) (G : List Gang) (T : Tab Tenant) (P : Tab BindPort) (C : Tab Nat) : State :=
  { s with gangs := G, tenants := T, ports := P, charges := C }

/-- A state under other ports and charges. -/
def State.reposted (s : State) (P : Tab BindPort) (C : Tab Nat) : State := s.rebooked s.gangs s.tenants P C

variable (s : State) (G : List Gang) (T : Tab Tenant) (P : Tab BindPort) (C : Tab Nat)

theorem State.physRead_rebooked (key pa n : Nat) : (s.rebooked G T P C).physRead key pa n = s.physRead key pa n := by
  induction n generalizing pa with
  | zero => rfl
  | succ n ih => exact congrArg₂ List.cons rfl (ih (pa + 1))

theorem State.rekey_rebooked (key unit : Nat) : (s.rebooked G T P C).rekey key unit = (s.rekey key unit).rebooked G T P C := by
  unfold State.rekey
  rw [State.physRead_rebooked, show (s.rebooked G T P C).keys = s.keys from rfl, show (s.rebooked G T P C).mem = s.mem from rfl]
  generalize s.physRead key (unit * 32) 32 = bs
  by_cases h : Tab.get s.keys unit 0 = key
  · rw [if_pos h, if_pos h]
  · rw [if_neg h, if_neg h]
    rfl

theorem State.physWrite1_rebooked (key pa : Nat) (v : Byte) :
    (s.rebooked G T P C).physWrite1 key pa v = (s.physWrite1 key pa v).rebooked G T P C := by
  unfold State.physWrite1
  rw [State.rekey_rebooked]
  rfl

theorem State.physWrite_rebooked (key pa : Nat) (bs : List Byte) :
    (s.rebooked G T P C).physWrite key pa bs = (s.physWrite key pa bs).rebooked G T P C := by
  induction bs generalizing s pa with
  | nil => rfl
  | cons b bs ih => rw [State.physWrite, State.physWrite1_rebooked, ih]; rfl

theorem State.recall_rebooked (w : Nat) : (s.rebooked G T P C).recall w = (s.recall w).rebooked G T P C := by
  have woken (r : Registered) : (if r.core.isNone then (s.rebooked G T P C).wakeSlice r.slice else s.rebooked G T P C)
      = (if r.core.isNone then s.wakeSlice r.slice else s).rebooked G T P C := by
    rw [apply_ite (fun t : State => t.rebooked G T P C)]
    rfl
  unfold State.recall
  rw [show (s.rebooked G T P C).regs = s.regs from rfl]
  cases Tab.find s.regs w with
  | none => rfl
  | some r =>
    dsimp only
    rw [woken, State.physWrite_rebooked]
    rfl

theorem State.recallIn_rebooked (pa n : Nat) : (s.rebooked G T P C).recallIn pa n = (s.recallIn pa n).rebooked G T P C := by
  have fold (ws : List Nat) : ws.foldl State.recall (s.rebooked G T P C) = (ws.foldl State.recall s).rebooked G T P C := by
    induction ws generalizing s with
    | nil => rfl
    | cons w ws ih => rw [List.foldl_cons, State.recall_rebooked, ih, List.foldl_cons]
  exact fold (s.registeredIn pa n)

theorem State.frameField_rebooked (frame k n : Nat) : (s.rebooked G T P C).frameField frame k n = s.frameField frame k n := by
  unfold State.frameField State.hubRead
  rw [State.recallIn_rebooked, State.physRead_rebooked]

theorem State.frameOwned_rebooked (frame : Nat) : (s.rebooked G T P C).frameOwned frame = s.frameOwned frame := by
  unfold State.frameOwned
  rw [State.frameField_rebooked]

/-! ### The checks of a record -/

theorem State.savedGang_reposted (die : Nat) (r : BindRec) : (s.reposted P C).savedGang die r = s.savedGang die r := by
  unfold State.savedGang State.reposted
  simp only [State.frameField_rebooked]
  rfl

theorem State.unitFree_reposted (die : Nat) (group : List BindRec) (r : BindRec) :
    (s.reposted P C).unitFree die group r = s.unitFree die group r := by
  unfold State.unitFree State.reposted
  simp only [State.frameOwned_rebooked]
  rfl

theorem State.bindCode_reposted (die : Nat) (group : List BindRec) (r : BindRec) :
    (s.reposted P C).bindCode die group r = s.bindCode die group r := by
  unfold State.bindCode
  simp only [State.savedGang_reposted, State.unitFree_reposted]
  rfl

theorem State.stopCode_reposted (die : Nat) (group : List BindRec) (r : BindRec) :
    (s.reposted P C).stopCode die group r = s.stopCode die group r := rfl

theorem State.groupSize_reposted (die : Nat) (r : BindRec) : (s.reposted P C).groupSize die r = s.groupSize die r := by
  unfold State.groupSize
  rw [State.savedGang_reposted]
  rfl

@[simp] theorem State.recordCode_reposted (die : Nat) (group : List BindRec) (r : BindRec) :
    (s.reposted P C).recordCode die group r = s.recordCode die group r := by
  unfold State.recordCode
  rw [State.bindCode_reposted, State.stopCode_reposted, State.groupSize_reposted]

end Sys2Proof.Machine
end

section
/-!
PROOF. The bind port (R150, R151): how a record arrives at a port with no open group, and when the firmware writes none (R148, R149).
-/
namespace Sys2Proof.Machine
open Sys2Proof

/-! ### The port after a put and after the end of a group -/

theorem State.port_putPort (s : State) (die : Nat) (p : BindPort) : (s.putPort die p).port die = p := by
  unfold State.port State.putPort
  exact Tab.get_put_self ..

theorem State.putPort_eq_reposted (s : State) (die : Nat) (p : BindPort) :
    s.putPort die p = s.reposted (Tab.put s.ports die p) s.charges := rfl

theorem State.port_closePort (s : State) (die code : Nat) : (s.closePort die code).port die = ⟨(s.port die).half, [], code, 0, false⟩ :=
  State.port_putPort ..

/-! ### A record at a port with no open group -/

/-- A port with no open group, and no group that waits (R150). -/
def State.portFresh (s : State) (die : Nat) : Prop := die < 8 ∧ (s.port die).group = [] ∧ (s.port die).waiting = false

theorem State.submit_fresh {s : State} {die : Nat} (bits : BitVec 128) (hgroup : (s.port die).group = [])
    (hwait : (s.port die).waiting = false) :
    s.submit die bits =
      let code := s.recordCode die [] (bindRec bits)
      let u := s.putPort die { s.port die with group := [bits], code := code, count := if code = 0 then 1 else (s.port die).count }
      if !(bindRec bits).last then u else if code ≠ 0 then s.closePort die code else u.runGroup die [bindRec bits] := by
  unfold State.submit
  simp [hgroup, hwait]

/-- What the firmware's two stores leave for `submit`: the first half in the port, and new rounds only where the record passes (R147, R148). -/
theorem State.firmware_eq {s : State} {die : Nat} {bits : BitVec 128} (hdie : die < 8) (would : s.firmwareWould die (bindRec bits) = true) :
    ∃ C, s.firmware die bits = (s.reposted (Tab.put s.ports die { s.port die with half := bits.setWidth 64 }) C).submit die bits
      ∧ (s.recordCode die ((s.port die).group.map bindRec) (bindRec bits) ≠ 0 → C = s.charges) := by
  unfold State.firmware
  rw [if_neg (by simp [would]; omega)]
  dsimp only
  split
  · exact ⟨s.charges, rfl, fun _ => rfl⟩
  next h => exact ⟨_, rfl, fun fails => absurd (by simp [fails]) h⟩

theorem State.firmware_of_not {s : State} {die : Nat} {bits : BitVec 128} (h : s.firmwareWould die (bindRec bits) = false) :
    s.firmware die bits = s := by
  unfold State.firmware
  rw [if_pos (by simp [h])]

section
variable {s : State} {die : Nat} {bits : BitVec 128} (fresh : s.portFresh die) (would : s.firmwareWould die (bindRec bits) = true)
include fresh would

theorem State.firmware_fresh : ∃ P C, s.firmware die bits = (s.reposted P C).submit die bits
    ∧ (s.reposted P C).port die = ⟨bits.setWidth 64, [], (s.port die).code, (s.port die).count, false⟩
    ∧ (s.recordCode die [] (bindRec bits) ≠ 0 → C = s.charges) := by
  obtain ⟨hdie, hgroup, hwait⟩ := fresh
  obtain ⟨C, eq, charged⟩ := State.firmware_eq hdie would
  rw [hgroup, List.map_nil] at charged
  refine ⟨_, C, eq, ?_, charged⟩
  rw [← hwait, ← hgroup]
  exact Tab.get_put_self ..

/-- A record that fails, the last of its group, leaves its code in the port. -/
theorem State.firmware_fails (last : (bindRec bits).last = true) (fails : s.recordCode die [] (bindRec bits) ≠ 0) :
    ∃ P, s.firmware die bits = { s with ports := P }
      ∧ State.port { s with ports := P } die = ⟨bits.setWidth 64, [], s.recordCode die [] (bindRec bits), 0, false⟩ := by
  obtain ⟨P, C, eq, hport, charged⟩ := State.firmware_fresh fresh would
  obtain rfl := charged fails
  rw [State.submit_fresh bits (by rw [hport]) (by rw [hport])] at eq
  simp only [last, State.recordCode_reposted, Bool.not_true, Bool.false_eq_true, if_false, if_pos fails] at eq
  refine ⟨_, eq, (State.port_closePort ..).trans ?_⟩
  rw [hport]

/-- A record that opens a group is kept in the port, with its code. -/
theorem State.firmware_opens (last : (bindRec bits).last = false) :
    ∃ P C, s.firmware die bits = { s with ports := P, charges := C }
      ∧ State.port { s with ports := P, charges := C } die = ⟨bits.setWidth 64, [bits], s.recordCode die [] (bindRec bits),
          if s.recordCode die [] (bindRec bits) = 0 then 1 else (s.port die).count, false⟩ := by
  obtain ⟨P, C, eq, hport, -⟩ := State.firmware_fresh fresh would
  rw [State.submit_fresh bits (by rw [hport]) (by rw [hport])] at eq
  simp only [last, State.recordCode_reposted, Bool.not_false, if_true, hport] at eq
  exact ⟨_, C, eq, State.port_putPort ..⟩

/-- A record that passes, alone in its group, is carried out. -/
theorem State.firmware_runs (last : (bindRec bits).last = true) (passes : s.recordCode die [] (bindRec bits) = 0) :
    ∃ P C, s.firmware die bits = (s.reposted P C).runGroup die [bindRec bits]
      ∧ (s.reposted P C).port die = ⟨bits.setWidth 64, [bits], 0, 1, false⟩ := by
  obtain ⟨P, C, eq, hport, -⟩ := State.firmware_fresh fresh would
  rw [State.submit_fresh bits (by rw [hport]) (by rw [hport])] at eq
  simp only [last, State.recordCode_reposted, passes, Bool.not_true, Bool.false_eq_true, if_false, ne_eq, not_true_eq_false, if_true, hport] at eq
  exact ⟨_, C, eq, State.port_putPort ..⟩

end

/-- A group of one record that passes (R151, R153): a stop asks its thread, and a bind or resume waits for its cluster's zeroing. -/
theorem State.runGroup_single {s : State} {die : Nat} {r : BindRec} (passes : s.recordCode die [] r = 0) :
    s.runGroup die [r] =
      if r.stop then (s.stopGroup die [r]).closePort die 0
      else if (Tab.get s.tenants (clusterOf (r.slotOn die)) ⟨none, false⟩).zeroing then s.putPort die { s.port die with waiting := true }
      else if r.resume then (s.resumeGang die [r]).closePort die 0
      else match s.bindGang die [r] with
        | some s => s.closePort die 0
        | none => s.closePort die 8 := by
  unfold State.runGroup
  have code : s.groupCode die [] [r] = 0 := by simp [State.groupCode, passes]
  rw [code]
  rfl

end Sys2Proof.Machine
end

section
/-!
PROOF. What the firmware does not write (R148, R149), and what a group of one record does: a stop, a bind and a resume (R119, R151, R154).
-/
namespace Sys2Proof.Machine
open Sys2Proof

/-! ### The firmware's policy -/

/-- A function whose next gang could be bound somewhere is among those that can be bound (R148). -/
theorem State.mem_bindable {s : State} {die prio fn : Nat} (h : s.bindableIn die prio fn ≠ none) : fn ∈ s.bindable die prio := by
  obtain ⟨c, hc⟩ := Option.ne_none_iff_exists'.mp h
  obtain ⟨n, next, -⟩ := Option.bind_eq_some_iff.mp hc
  obtain ⟨l, head, -⟩ := Option.bind_eq_some_iff.mp next
  have hl := List.mem_of_find?_eq_some head
  have fields := List.find?_some head
  simp only [Bool.and_eq_true, beq_iff_eq] at fields
  obtain ⟨⟨rfl, hprio⟩, -⟩ := fields
  unfold State.bindable
  simp only [List.mem_filter, List.mem_eraseDups, List.mem_map, beq_iff_eq]
  exact ⟨⟨l, ⟨hl, hprio⟩, rfl⟩, by rw [hc]; rfl⟩

theorem State.noneBelow_false {s : State} {die prio q fn : Nat} (below : q < prio) (h : s.bindableIn die q fn ≠ none) :
    s.noneBelow die prio = false := by
  have mem := State.mem_bindable h
  unfold State.noneBelow
  rw [List.all_eq_false]
  refine ⟨q, List.mem_range.mpr below, ?_⟩
  simp [List.ne_nil_of_mem mem]

theorem State.servedNext_false {s : State} {die prio fn v : Nat} (mem : v ∈ s.bindable die prio)
    (sooner : s.roundsFor die prio v < s.roundsFor die prio fn) : s.servedNext die prio fn = false := by
  unfold State.servedNext
  rw [List.all_eq_false]
  exact ⟨v, mem, by simpa using sooner⟩

theorem State.firmwareWould_of_code {s : State} {die : Nat} {r : BindRec}
    (h : r.stop = true ∨ s.recordCode die ((s.port die).group.map bindRec) r ≠ 0) : s.firmwareWould die r = true := by
  unfold State.firmwareWould
  exact if_pos (by simpa using h)

section
variable {s : State} {die : Nat} {r : BindRec} (stop : r.stop = false)
  (passes : s.recordCode die ((s.port die).group.map bindRec) r = 0)
include stop passes

theorem State.firmwareWould_of_passes : s.firmwareWould die r =
    if r.resume then s.noneBelow die r.prio && !((s.reservedOn die r.prio (fun _ _ => false)).map (·.1)).contains (r.slot / 64)
    else s.noneBelow die r.prio && s.servedNext die r.prio r.fn
      && (match s.bindableIn die r.prio r.fn with
        | some c => r.grank == ((s.port die).group.map bindRec).length
            && (s.idleIn die c)[((s.port die).group.map bindRec).length]? == some r.slot
        | none => false) := by
  unfold State.firmwareWould
  exact if_neg (by simp [stop, passes])

theorem State.firmwareWould_below (below : s.noneBelow die r.prio = false) : s.firmwareWould die r = false := by
  rw [State.firmwareWould_of_passes stop passes, below]
  simp

theorem State.firmwareWould_served (resume : r.resume = false) (served : s.servedNext die r.prio r.fn = false) :
    s.firmwareWould die r = false := by
  rw [State.firmwareWould_of_passes stop passes, served, resume]
  simp

theorem State.firmwareWould_place (resume : r.resume = false)
    (place : ¬(r.grank = ((s.port die).group.map bindRec).length ∧ ∃ c, s.bindableIn die r.prio r.fn = some c
      ∧ (s.idleIn die c)[((s.port die).group.map bindRec).length]? = some r.slot)) :
    s.firmwareWould die r = false := by
  rw [State.firmwareWould_of_passes stop passes, resume, if_neg Bool.false_ne_true]
  cases hc : s.bindableIn die r.prio r.fn with
  | none => simp
  | some c =>
    refine Bool.and_eq_false_iff.mpr (.inr ?_)
    by_contra named
    simp only [Bool.not_eq_false, Bool.and_eq_true, beq_iff_eq] at named
    exact place ⟨named.1, c, hc, named.2⟩

end

/-! ### A thread on its slot -/

theorem State.threadAt_putThread {s : State} {t : Thread} (bound : s.th.slot = t.slot → s.th.bound = true → t.bound = true) :
    (s.putThread t).threadAt t.slot = some t := by
  unfold State.putThread
  by_cases here : s.th.slot = t.slot ∧ s.th.bound = true
  · rw [if_pos here]
    exact if_pos ⟨rfl, bound here.1 here.2⟩
  · rw [if_neg here]
    exact (if_neg here).trans (Tab.find_put_self ..)

theorem State.threadAt_congr {s t : State} (hth : t.th = s.th) (hothers : t.others = s.others) (slot : Nat) :
    t.threadAt slot = s.threadAt slot := by
  unfold State.threadAt
  rw [hth, hothers]

theorem State.putThread_same (s : State) (t : Thread) :
    (s.putThread t).mem = s.mem ∧ (s.putThread t).loc = s.loc ∧ (s.putThread t).ports = s.ports := by
  unfold State.putThread
  split <;> exact ⟨rfl, rfl, rfl⟩

theorem State.threadAt_bindThread (s : State) {t : Thread} (bound : t.bound = true) : (s.bindThread t).threadAt t.slot = some t :=
  (State.threadAt_congr (State.dropIcache_th ..) (State.dropIcache_others ..) t.slot).trans
    (State.threadAt_putThread (s := { s with loc := Memory.clear s.loc (t.slot * 0x4000) 0x4000 }.settleLoc (t.slot * 0x4000) 0x4000)
      (fun _ _ => bound))

theorem State.bindThread_same (s : State) (t : Thread) : (s.bindThread t).mem = s.mem ∧ (s.bindThread t).ports = s.ports
    ∧ (s.bindThread t).loc = Memory.clear s.loc (t.slot * 0x4000) 0x4000 := by
  obtain ⟨mem, loc, ports⟩ := State.putThread_same
    ({ s with loc := Memory.clear s.loc (t.slot * 0x4000) 0x4000 }.settleLoc (t.slot * 0x4000) 0x4000) t
  exact ⟨mem, ports, loc⟩

/-! ### Stop -/

/-- A stop of a running thread asks it, and gives it its frame (R154). -/
theorem State.stopGroup_single {s : State} {die : Nat} {r : BindRec} {u : Thread} (here : s.threadAt (r.slotOn die) = some u)
    (slot : u.slot = r.slotOn die) (running : u.phase = .running) :
    (s.stopGroup die [r]).threadAt (r.slotOn die) = some { u with frame := r.frame, phase := .requested }
      ∧ (s.stopGroup die [r]).mem = s.mem ∧ (s.stopGroup die [r]).loc = s.loc := by
  have asked : s.stopGroup die [r] = s.putThread { u with frame := r.frame, phase := .requested } := by
    unfold State.stopGroup
    rw [List.foldl_cons, List.foldl_nil, here]
    dsimp only
    rw [if_pos running]
  have bound : s.th.slot = u.slot → s.th.bound = true → u.bound = true := by
    intro at_ hb
    rw [State.threadAt, if_pos ⟨at_.trans slot, hb⟩] at here
    rw [← Option.some.inj here, hb]
  obtain ⟨mem, loc, -⟩ := State.putThread_same s { u with frame := r.frame, phase := .requested }
  rw [asked]
  refine ⟨?_, mem, loc⟩
  rw [← slot]
  exact State.threadAt_putThread (t := { u with frame := r.frame, phase := .requested }) bound

/-! ### Bind -/

theorem State.bindCode_of_recordCode {s : State} {die : Nat} {group : List BindRec} {r : BindRec} (stop : r.stop = false)
    (h : s.recordCode die group r = 0) : s.bindCode die group r = 0 := by
  unfold State.recordCode at h
  rw [stop, if_neg Bool.false_ne_true] at h
  dsimp only at h
  split at h
  · exact absurd h (by decide)
  · exact h

/-- A record that passes as a bind names the next gang of its queue's head (R151). -/
theorem State.nextOn_of_bindCode {s : State} {die : Nat} {group : List BindRec} {r : BindRec} {l : Launch} (resume : r.resume = false)
    (h : s.bindCode die group r = 0) (head : s.headOf r.fn r.prio die = some l) : ∃ rival, l.nextOn die = some (r.gang, rival) := by
  unfold State.bindCode at h
  simp only [resume, head, Option.bind_some, Bool.false_eq_true, if_false] at h
  cases next : l.nextOn die with
  | none => simp [next, ite_eq_iff] at h
  | some n =>
    obtain ⟨g, rival⟩ := n
    by_cases gang : g = r.gang
    · exact ⟨rival, by rw [gang]⟩
    · simp [next, gang, ite_eq_iff] at h

/-- Outside a tournament a gang is no rival's (R146). -/
theorem Launch.nextOn_rival {l : Launch} {die g : Nat} {rival : Option Nat} (kind : l.pkt.kind ≠ 1) (h : l.nextOn die = some (g, rival)) :
    rival = none := by
  unfold Launch.nextOn at h
  cases hc : l.count with
  | none => simp [hc] at h
  | some n =>
    simp only [hc, if_neg kind, Option.map_eq_some_iff, Prod.mk.injEq] at h
    obtain ⟨_, -, -, none⟩ := h
    exact none.symm

/-- The first instruction of a thread that a bind starts, and its registers (R16, R119). -/
theorem State.newThread_start (s : State) (die : Nat) (l : Launch) (r : BindRec) (kind : l.pkt.kind ≠ 1) :
    (s.newThread die l r none).pc = pcBits (BitVec.ofNat 64 l.pkt.entry)
      ∧ (∀ k : Reg, (s.newThread die l r none).x[k] = if k = 2 then 0x3900 else if k = 4 then l.pkt.arg else 0)
      ∧ (∀ k : Reg, (s.newThread die l r none).f[k] = 0) := by
  unfold State.newThread
  refine ⟨?_, fun k => ?_, fun k => ?_⟩
  · simp [kind]
  · show (Thread.idle.x.set 4 l.pkt.arg)[k] = _
    unfold Thread.idle
    simp only [Fin.getElem_fin, Vector.getElem_set, Vector.getElem_replicate, Fin.ext_iff]
    show (if 4 = k.val then _ else if 2 = k.val then _ else _) = if k.val = 2 then _ else if k.val = 4 then _ else _
    by_cases two : k.val = 2
    · simp [two]
    · simp [two, Ne.symm two, eq_comm]
  · simp [Thread.idle]

/-- Binding a gang of one thread without units puts the new thread on its slot; neither memory nor the ports change (R119, R151). -/
theorem State.bindGang_single {s : State} {die : Nat} {r : BindRec} {l : Launch} (head : s.headOf r.fn r.prio die = some l)
    (next : l.nextOn die = some (r.gang, none)) (units : l.pkt.units = 0) :
    ∃ v t : State, s.bindGang die [r] = some t ∧ v.now = s.now + 1
      ∧ t.threadAt (r.slotOn die) = some (v.newThread die l r none) ∧ t.mem = s.mem ∧ t.ports = s.ports := by
  have nextBind : s.nextBind r.fn r.prio die = some (l, r.gang, none) := by
    unfold State.nextBind
    simp [head, next]
  unfold State.bindGang
  dsimp -zeta only
  rw [nextBind]
  dsimp -zeta only
  extract_lets us cluster grant g v w
  have granted : grant = [] := by
    show us.take l.pkt.units = []
    rw [units, List.take_zero]
  rw [if_neg (by omega), List.foldl_cons, List.foldl_nil]
  obtain ⟨mem, ports, -⟩ := State.bindThread_same w (w.newThread die l r none)
  obtain ⟨m, loc⟩ := State.writeLoc_frame (w.newThread die l r none).owner (w.newThread die l r none).newRecord
    (w.bindThread (w.newThread die l r none)) 0x3FC0
  have here := State.threadAt_bindThread w (t := w.newThread die l r none) rfl
  have later : v.now = s.now + 1 := by
    show ((s.renew die .dev).zeroUnits die grant).now = _
    rw [granted]
    rfl
  have kept : v.mem = s.mem ∧ v.ports = s.ports := by
    show ((s.renew die .dev).zeroUnits die grant).mem = _ ∧ ((s.renew die .dev).zeroUnits die grant).ports = _
    rw [granted]
    exact ⟨rfl, rfl⟩
  rw [loc]
  exact ⟨w, _, rfl, later, here, mem.trans kept.1, ports.trans kept.2⟩

/-! ### Resume -/

/-- A resume of one thread that owned no matrix unit binds it again, to wait for its frame, in a slice of zeros (R124, R151). -/
theorem State.resumeGang_single {s : State} {die : Nat} {r : BindRec} {g : Gang} {l : Launch} (saved : s.savedGang die r = some g)
    (launch : s.launchOf g.fn g.launch = some l) (owned : s.frameOwned r.frame = false) :
    ∃ v : State, let t := s.resumeGang die [r]
      t.threadAt (r.slotOn die) = some (v.boundAgain die l r g) ∧ t.mem = s.mem ∧ t.ports = s.ports
        ∧ t.loc = Memory.clear s.loc (r.slotOn die * 0x4000) 0x4000 := by
  unfold State.resumeGang
  dsimp only
  rw [saved]
  dsimp only
  rw [launch]
  dsimp only
  rw [List.foldl_cons, List.foldl_nil]
  generalize hG : ({ g with cluster := _, saved := _ } : Gang) = g'
  generalize hv : ({ s.putGang g' with tenants := _ } : State) = v
  have kept : v.frameOwned r.frame = false := by
    rw [← owned, ← hv]
    exact s.frameOwned_rebooked (s.putGang g').gangs _ s.ports s.charges r.frame
  rw [kept, if_neg Bool.false_ne_true]
  obtain ⟨mem, ports, loc⟩ := State.bindThread_same v (v.boundAgain die l r g)
  have here := State.threadAt_bindThread v (t := v.boundAgain die l r g) rfl
  exact ⟨v, here, mem.trans (by rw [← hv]; rfl), ports.trans (by rw [← hv]; rfl), loc.trans (by rw [← hv]; rfl)⟩

end Sys2Proof.Machine
end

section
/-!
PROOF. O29: records at the bind port, the zeroing of a cluster and reservations (R119, R148 to R154).
-/
namespace Sys2Proof.Machine
open Sys2Proof

/-! ### The three record events -/

/-- Which of the three events submits a record. -/
def BindRec.submittedBy (r : BindRec) (e : Instr) : Prop :=
  (e = .bindRecord ∧ r.stop = false ∧ r.resume = false) ∨ (e = .resumeRecord ∧ r.stop = false ∧ r.resume = true)
    ∨ (e = .stopRecord ∧ r.stop = true)

theorem exec_bindRecord (s : State) : exec .bindRecord s = .next
    (if (bindRec s.evRecord).stop || (bindRec s.evRecord).resume then s else s.firmware s.ev.unit s.evRecord) := rfl

theorem exec_resumeRecord (s : State) : exec .resumeRecord s = .next
    (if (bindRec s.evRecord).stop || !(bindRec s.evRecord).resume then s else s.firmware s.ev.unit s.evRecord) := rfl

theorem exec_stopRecord (s : State) : exec .stopRecord s = .next
    (if !(bindRec s.evRecord).stop then s else s.firmware s.ev.unit s.evRecord) := rfl

/-- The event of a record hands it to the firmware. -/
theorem exec_submittedBy {s : State} {e : Instr} (h : (bindRec s.evRecord).submittedBy e) :
    exec e s = .next (s.firmware s.ev.unit s.evRecord) := by
  rcases h with ⟨rfl, stop, resume⟩ | ⟨rfl, stop, resume⟩ | ⟨rfl, stop⟩
  · rw [exec_bindRecord, stop, resume]
    rfl
  · rw [exec_resumeRecord, stop, resume]
    rfl
  · rw [exec_stopRecord, stop]
    rfl

/-- Where the firmware would not write a record, the events of a bind and of a resume change nothing. -/
theorem exec_record_of_not {s : State} (h : s.firmwareWould s.ev.unit (bindRec s.evRecord) = false) :
    exec .bindRecord s = .next s ∧ exec .resumeRecord s = .next s := by
  rw [exec_bindRecord, exec_resumeRecord, State.firmware_of_not h]
  exact ⟨congrArg _ (ite_self s), congrArg _ (ite_self s)⟩

section
variable {s : State} (fresh : s.portFresh s.ev.unit) (would : s.firmwareWould s.ev.unit (bindRec s.evRecord) = true)
  (last : (bindRec s.evRecord).last = true) (passes : s.recordCode s.ev.unit [] (bindRec s.evRecord) = 0)
include fresh would last passes

/-- A bind record of a one-thread launch binds its thread (R119, R151). -/
theorem exec_bindRecord_binds {l : Launch} (stop : (bindRec s.evRecord).stop = false) (resume : (bindRec s.evRecord).resume = false)
    (head : s.headOf (bindRec s.evRecord).fn (bindRec s.evRecord).prio s.ev.unit = some l) (kind : l.pkt.kind = 0) (units : l.pkt.units = 0)
    (ready : (Tab.get s.tenants (clusterOf ((bindRec s.evRecord).slotOn s.ev.unit)) ⟨none, false⟩).zeroing = false) :
    ∃ v t : State, exec .bindRecord s = .next t ∧ v.now = s.now + 1
      ∧ t.threadAt ((bindRec s.evRecord).slotOn s.ev.unit) = some (v.newThread s.ev.unit l (bindRec s.evRecord) none)
      ∧ t.mem = s.mem ∧ t.port s.ev.unit = ⟨s.evRecord.setWidth 64, [], 0, 0, false⟩ := by
  obtain ⟨rival, next⟩ := State.nextOn_of_bindCode resume (State.bindCode_of_recordCode stop passes) head
  obtain rfl := Launch.nextOn_rival (by rw [kind]; decide) next
  obtain ⟨P, C, eq, hport⟩ := State.firmware_runs fresh would last passes
  obtain ⟨v, u, bound, now, here, mem, ports⟩ := State.bindGang_single (s := s.reposted P C) head next units
  rw [State.runGroup_single (by rw [State.recordCode_reposted, passes]), stop, resume,
    show (s.reposted P C).tenants = s.tenants from rfl, ready, bound] at eq
  refine ⟨v, _, (exec_submittedBy (.inl ⟨rfl, stop, resume⟩)).trans (congrArg Host.Outcome.next eq), now, here, mem,
    (State.port_closePort ..).trans ?_⟩
  rw [show u.port s.ev.unit = (s.reposted P C).port s.ev.unit from congrArg (Tab.get · _ _) ports, hport]

/-- A resume record of a thread alone in its gang binds it again (R124, R151). -/
theorem exec_resumeRecord_binds {g : Gang} {l : Launch} (stop : (bindRec s.evRecord).stop = false)
    (resume : (bindRec s.evRecord).resume = true) (saved : s.savedGang s.ev.unit (bindRec s.evRecord) = some g)
    (launch : s.launchOf g.fn g.launch = some l) (owned : s.frameOwned (bindRec s.evRecord).frame = false)
    (ready : (Tab.get s.tenants (clusterOf ((bindRec s.evRecord).slotOn s.ev.unit)) ⟨none, false⟩).zeroing = false) :
    ∃ v t : State, exec .resumeRecord s = .next t
      ∧ t.threadAt ((bindRec s.evRecord).slotOn s.ev.unit) = some (v.boundAgain s.ev.unit l (bindRec s.evRecord) g) ∧ t.mem = s.mem
      ∧ t.loc = Memory.clear s.loc ((bindRec s.evRecord).slotOn s.ev.unit * 0x4000) 0x4000
      ∧ t.port s.ev.unit = ⟨s.evRecord.setWidth 64, [], 0, 0, false⟩ := by
  obtain ⟨P, C, eq, hport⟩ := State.firmware_runs fresh would last passes
  obtain ⟨v, here, mem, ports, loc⟩ := State.resumeGang_single (s := s.reposted P C)
    ((s.savedGang_reposted P C ..).trans saved) launch ((s.frameOwned_rebooked _ _ P C _).trans owned)
  rw [State.runGroup_single (by rw [State.recordCode_reposted, passes]), stop, resume,
    show (s.reposted P C).tenants = s.tenants from rfl, ready] at eq
  refine ⟨v, _, (exec_submittedBy (.inr (.inl ⟨rfl, stop, resume⟩))).trans (congrArg Host.Outcome.next eq), here, mem, loc,
    (State.port_closePort ..).trans ?_⟩
  rw [show ((s.reposted P C).resumeGang s.ev.unit [bindRec s.evRecord]).port s.ev.unit = (s.reposted P C).port s.ev.unit from
    congrArg (Tab.get · _ _) ports, hport]

/-- A stop record asks its thread to stop (R154). -/
theorem exec_stopRecord_asks {u : Thread} (stop : (bindRec s.evRecord).stop = true)
    (here : s.threadAt ((bindRec s.evRecord).slotOn s.ev.unit) = some u) (slot : u.slot = (bindRec s.evRecord).slotOn s.ev.unit)
    (running : u.phase = .running) :
    ∃ t, exec .stopRecord s = .next t ∧ t.threadAt ((bindRec s.evRecord).slotOn s.ev.unit)
        = some { u with frame := (bindRec s.evRecord).frame, phase := .requested } ∧ KeepsBytes s t := by
  obtain ⟨P, C, eq, -⟩ := State.firmware_runs fresh would last passes
  obtain ⟨asked, mem, loc⟩ := State.stopGroup_single (s := s.reposted P C) here slot running
  rw [State.runGroup_single (by rw [State.recordCode_reposted, passes]), stop, if_pos rfl] at eq
  refine ⟨_, (exec_submittedBy (.inr (.inr ⟨rfl, stop⟩))).trans (congrArg Host.Outcome.next eq), asked, fun a => ⟨?_, ?_⟩⟩
  · exact congrArg (Memory.read · a) mem
  · exact congrArg (Memory.read · a) loc

end

/-! ### Zeroing (R153) and reservations (R149) -/

theorem exec_clusterZeroingDone_of_not {s : State} (h : s.mayZero s.ev.unit = false) : exec .clusterZeroingDone s = .next s := by
  show execClusterZeroingDone s = _
  unfold execClusterZeroingDone
  dsimp only
  rw [if_pos (by simp [h])]

/-- The state after the zeroing of a cluster, before a group that waits goes on. -/
def State.zeroedCluster (s : State) (c : Nat) : State :=
  { s with
    loc := Memory.clear s.loc (0x100000000 + c * 8 * 0x60000) (8 * 0x60000)
    tenants := Tab.put s.tenants c ⟨none, false⟩ }.settleLoc (0x100000000 + c * 8 * 0x60000) (8 * 0x60000)

theorem exec_clusterZeroingDone {s : State} (zeroing : (Tab.get s.tenants s.ev.unit ⟨none, false⟩).zeroing = true)
    (may : s.mayZero s.ev.unit = true) (waits : (s.port (s.ev.unit / 20)).waiting = false) :
    exec .clusterZeroingDone s = .next (s.zeroedCluster s.ev.unit) := by
  show execClusterZeroingDone s = _
  unfold execClusterZeroingDone
  extract_lets c k u die p
  have ready : ((Tab.get s.tenants c ⟨none, false⟩).zeroing && s.mayZero c) = true := Bool.and_eq_true_iff.mpr ⟨zeroing, may⟩
  rw [ready, Bool.not_true, if_neg Bool.false_ne_true]
  rw [if_neg fun h => Bool.false_ne_true (waits.symm.trans h.1)]
  rfl

theorem State.zeroedCluster_loc (s : State) (c j : Nat) : Memory.read (s.zeroedCluster c).loc j =
    if 0x100000000 + c * 0x300000 ≤ j ∧ j < 0x100000000 + (c + 1) * 0x300000 then 0 else Memory.read s.loc j := by
  refine (Memory.read_clear s.loc _ _ j).trans (if_congr ?_ rfl rfl)
  constructor <;> intro h <;> constructor <;> omega

theorem exec_gangReservation {s : State} {l : Launch} {rival : Option Nat} (launch : s.launchById s.ev.idx = some l)
    (next : l.nextOn s.ev.unit = some (s.ev.num, rival)) (head : s.headOf l.fn l.pkt.prio s.ev.unit = some l)
    (cluster : s.ev.data.toNat < 20) (closest : ∀ d < 20, min l.pkt.threads (s.idleIn s.ev.unit d).length
      ≤ min l.pkt.threads (s.idleIn s.ev.unit s.ev.data.toNat).length) :
    exec .gangReservation s = .next
      (if s.reserves.any (fun r => r.1 == s.ev.unit && r.2.1 == l.id && r.2.2.1 == gangMark s.ev.num rival) = false
          ∧ s.portNames s.ev.unit s.ev.data.toNat = false
        then { s with reserves := s.reserves ++ [(s.ev.unit, l.id, gangMark s.ev.num rival, s.ev.data.toNat)] } else s) := by
  have all : (List.range 20).all (fun d => decide (min l.pkt.threads (s.idleIn s.ev.unit d).length
      ≤ min l.pkt.threads (s.idleIn s.ev.unit s.ev.data.toNat).length)) = true := by
    simpa using closest
  show execGangReservation s = _
  unfold execGangReservation
  simp only [launch, next, head, cluster, all, Option.map_some, true_and, and_true, Bool.not_eq_true']

theorem State.portNames_iff (s : State) (die c : Nat) :
    s.portNames die c = true ↔ ∃ q ∈ (s.port die).group.map bindRec, q.stop = false ∧ q.slot / 64 = c := by
  unfold State.portNames
  simp only [List.any_eq_true, Bool.and_eq_true, Bool.not_eq_true', beq_iff_eq]

/-- Settles O29. -/
theorem bindPortRecords : Obligations.BindPortRecords := by
  unfold Obligations.BindPortRecords
  intro s die bits r p group fresh code kind
  have port : fresh → s.portFresh die := id
  have nil : fresh → s.recordCode die ((s.port die).group.map bindRec) r = code := fun h => by
    rw [h.2.1]
    rfl
  refine ⟨?_, ?_, ?_, ?_, ?_, ?_, ?_, ?_, ?_⟩
  case refine_1 =>
    intro e he hf fails last
    obtain ⟨P, eq, hport⟩ := State.firmware_fails (port hf) (State.firmwareWould_of_code (.inr (by rw [nil hf]; exact fails))) last fails
    exact ⟨_, (exec_submittedBy he).trans (congrArg Host.Outcome.next eq), hport, rfl⟩
  case refine_2 =>
    intro e he hf would last
    obtain ⟨P, C, eq, hport⟩ := State.firmware_opens (port hf) would last
    exact ⟨_, (exec_submittedBy he).trans (congrArg Host.Outcome.next eq), hport, rfl⟩
  case refine_3 =>
    rintro stop passes ⟨q, below, v, could⟩
    exact exec_record_of_not (State.firmwareWould_below stop passes (State.noneBelow_false below could))
  case refine_4 =>
    intro stop passes other
    by_cases resume : r.resume = true
    · rw [exec_bindRecord, show (bindRec s.evRecord).resume = true from resume, Bool.or_true, if_pos rfl]
    · rw [Bool.not_eq_true] at resume
      refine (exec_record_of_not ?_).1
      rcases other with ⟨v, mem, sooner⟩ | place
      · exact State.firmwareWould_served stop passes resume (State.servedNext_false mem sooner)
      · exact State.firmwareWould_place stop passes resume place
  case refine_5 =>
    intro l hf would stop resume last passes head threads hkind units ready
    obtain ⟨v, t, eq, now, here, mem, hport⟩ := exec_bindRecord_binds (port hf) would last passes stop resume head hkind units ready
    obtain ⟨pc, x, f⟩ := v.newThread_start die l r (by rw [hkind]; decide)
    exact ⟨t, _, eq, here, pc, rfl, rfl, rfl, threads, rfl, rfl, now, x, f, mem, hport⟩
  case refine_6 =>
    intro g l hf would stop resume last passes saved launch ready owned
    obtain ⟨v, t, eq, here, mem, loc, hport⟩ := exec_resumeRecord_binds (port hf) would last passes stop resume saved launch owned ready
    refine ⟨t, _, eq, here, rfl, rfl, rfl, rfl, rfl, mem, fun j => ?_, hport⟩
    rw [loc, Memory.read_clear, Nat.add_one_mul]
    rfl
  case refine_7 =>
    intro u hf stop last passes here slot running
    exact exec_stopRecord_asks (port hf) (State.firmwareWould_of_code (.inl stop)) last passes stop here slot running
  case refine_8 =>
    rintro c rfl zeroing
    refine ⟨exec_clusterZeroingDone_of_not, fun may waits => ⟨_, exec_clusterZeroingDone zeroing may waits, ?_, ?_, rfl⟩⟩
    · exact Tab.get_put_self ..
    · exact s.zeroedCluster_loc s.ev.unit
  case refine_9 =>
    intro l rival launch head next cluster closest
    rw [exec_gangReservation launch next head cluster closest]
    refine ⟨fun named => ?_, fun unnamed => ⟨fun held => ?_, fun free => ?_⟩⟩
    · rw [if_neg fun h => Bool.false_ne_true (h.2.symm.trans ((s.portNames_iff ..).mpr named))]
    · obtain ⟨q, mem, h1, h2, h3⟩ := held
      rw [if_neg fun h => List.any_eq_false.mp h.1 q mem (by simp [h1, h2, h3, die])]
    · have unheld : s.reserves.any (fun r => r.1 == s.ev.unit && r.2.1 == l.id && r.2.2.1 == gangMark s.ev.num rival) = false :=
        List.any_eq_false.mpr fun q mem h => free q mem (by simpa [and_assoc] using h)
      have unnamed' : s.portNames s.ev.unit s.ev.data.toNat = false := by
        rw [← Bool.not_eq_true, State.portNames_iff]
        rintro ⟨q, mem, named⟩
        exact unnamed q mem named
      rw [if_pos ⟨unheld, unnamed'⟩]

end Sys2Proof.Machine
end


section
/-!
PROOF. What an arrival does to a sync word (O24).
-/
namespace Sys2Proof.Machine
open Sys2Proof

/-- The little-endian field of `len` bytes at an offset of a record. -/
def fieldAt (w : List Byte) (o len : Nat) : Nat := natOf ((w.drop o).take len)

theorem fieldAt_lt (w : List Byte) (o len : Nat) : fieldAt w o len < 256 ^ len :=
  (natOf_lt _).trans_le (Nat.pow_le_pow_right (by decide) (List.length_take_le ..))

/-- The 32 bytes of a sync word with the given fields: target, count, generation, flags and number of arrivals (R179). -/
def syncBytes (target count gen flags hw : Nat) : List Byte :=
  bytesOf 8 target ++ bytesOf 8 count ++ bytesOf 4 gen ++ bytesOf 4 flags ++ bytesOf 8 hw

@[simp] theorem syncBytes_length (target count gen flags hw : Nat) : (syncBytes target count gen flags hw).length = 32 := by
  simp [syncBytes]

/-- Each field of a sync word reads back, as far as its bytes go. -/
theorem fieldAt_syncBytes (target count gen flags hw : Nat) :
    let v := syncBytes target count gen flags hw
    fieldAt v 0 8 = target % 2 ^ 64 ∧ fieldAt v 8 8 = count % 2 ^ 64 ∧ fieldAt v 16 4 = gen % 2 ^ 32
      ∧ fieldAt v 20 4 = flags % 2 ^ 32 ∧ fieldAt v 24 8 = hw % 2 ^ 64 := by
  simp [fieldAt, syncBytes, List.drop_append, List.drop_of_length_le, List.take_of_length_le, natOf_bytesOf]

/-- A flag word with the flag of weight `m` raised on a condition, where it was not yet. -/
def raiseFlag (m : Nat) (p : Prop) [Decidable p] (flags : Nat) : Nat := if p ∧ flags / m % 2 = 0 then flags + m else flags

/-- The overflow flag is raised, and the flags beside it stand (R180). -/
theorem raiseFlag_overflow (p : Prop) [Decidable p] (flags : Nat) (h : flags < 2 ^ 32) :
    raiseFlag 2 p flags < 2 ^ 32 ∧ raiseFlag 2 p flags % 2 = flags % 2
      ∧ (raiseFlag 2 p flags / 2 % 2 = 1 ↔ flags / 2 % 2 = 1 ∨ p) ∧ raiseFlag 2 p flags / 4 % 2 = flags / 4 % 2 := by
  unfold raiseFlag
  by_cases hp : p
  · simp only [hp, true_and, or_true, iff_true]
    split <;> omega
  · simpa [hp] using h

/-- The error flag is raised, and the flags beside it stand (R180). -/
theorem raiseFlag_error (p : Prop) [Decidable p] (flags : Nat) (h : flags < 2 ^ 32) :
    raiseFlag 4 p flags < 2 ^ 32 ∧ raiseFlag 4 p flags % 2 = flags % 2
      ∧ raiseFlag 4 p flags / 2 % 2 = flags / 2 % 2 ∧ (raiseFlag 4 p flags / 4 % 2 = 1 ↔ flags / 4 % 2 = 1 ∨ p) := by
  unfold raiseFlag
  by_cases hp : p
  · simp only [hp, true_and, or_true, iff_true]
    split <;> omega
  · simpa [hp] using h

/-- The flags after an arrival: overflow and error are raised (R180). -/
def raisedFlags (ovf err : Bool) (flags : Nat) : Nat := raiseFlag 4 (err = true) (raiseFlag 2 (ovf = true) flags)

theorem raisedFlags_spec (ovf err : Bool) (flags : Nat) (h : flags < 2 ^ 32) :
    raisedFlags ovf err flags < 2 ^ 32 ∧ raisedFlags ovf err flags % 2 = flags % 2
      ∧ (raisedFlags ovf err flags / 2 % 2 = 1 ↔ flags / 2 % 2 = 1 ∨ ovf = true)
      ∧ (raisedFlags ovf err flags / 4 % 2 = 1 ↔ flags / 4 % 2 = 1 ∨ err = true) := by
  obtain ⟨hlt, hauto, hovf, herr⟩ := raiseFlag_overflow (ovf = true) flags h
  obtain ⟨hlt', hauto', hovf', herr'⟩ := raiseFlag_error (err = true) _ hlt
  unfold raisedFlags
  rw [hauto', hovf', herr', hauto, hovf, herr]
  exact ⟨hlt', rfl, Iff.rfl, Iff.rfl⟩

/-- The whole targets that an arrival takes off a count (R180). -/
def targetsIn (flags target count : Nat) : Nat := if flags % 2 = 1 ∧ target ≠ 0 then count / target else 0

/-- The count that an arrival makes, before whole targets are taken off it (R180). -/
def arrivedCount (w : List Byte) (n : Nat) : Nat := min (fieldAt w 8 8 + n) (2 ^ 64 - 1)

/-- An arrival, field by field (R180). -/
theorem arriveWord_eq (n : Nat) (err : Bool) (w : List Byte) :
    let k := targetsIn (fieldAt w 20 4) (fieldAt w 0 8) (arrivedCount w n)
    arriveWord n err w = syncBytes (fieldAt w 0 8) (arrivedCount w n - k * fieldAt w 0 8) (fieldAt w 16 4 + k)
      (raisedFlags (decide (2 ^ 64 ≤ fieldAt w 8 8 + n)) err (fieldAt w 20 4)) (fieldAt w 24 8 + 1) := by
  have hsum : arrivedCount w n = if decide (2 ^ 64 ≤ fieldAt w 8 8 + n) then 2 ^ 64 - 1 else fieldAt w 8 8 + n := by
    unfold arrivedCount
    by_cases h : 2 ^ 64 ≤ fieldAt w 8 8 + n
    · rw [decide_eq_true h]
      exact Nat.min_eq_right (by omega)
    · rw [decide_eq_false h]
      exact Nat.min_eq_left (by omega)
  rw [hsum]
  rfl

/-- What each field holds after an arrival (R179, R180). -/
theorem fieldAt_arriveWord (w : List Byte) (n : Nat) (err : Bool) :
    let v := arriveWord n err w
    let k := targetsIn (fieldAt w 20 4) (fieldAt w 0 8) (arrivedCount w n)
    let flags := raisedFlags (decide (2 ^ 64 ≤ fieldAt w 8 8 + n)) err (fieldAt w 20 4)
    fieldAt v 0 8 = fieldAt w 0 8 ∧ fieldAt v 8 8 = arrivedCount w n - k * fieldAt w 0 8 ∧ fieldAt v 16 4 = (fieldAt w 16 4 + k) % 2 ^ 32
      ∧ fieldAt v 20 4 = flags ∧ fieldAt v 24 8 = (fieldAt w 24 8 + 1) % 2 ^ 64 := by
  intro v k flags
  obtain ⟨ht, hc, hg, hf, hh⟩ := fieldAt_syncBytes (fieldAt w 0 8) (arrivedCount w n - k * fieldAt w 0 8) (fieldAt w 16 4 + k) flags
    (fieldAt w 24 8 + 1)
  rw [← arriveWord_eq n err w] at ht hc hg hf hh
  have hsum : arrivedCount w n < 2 ^ 64 := by
    unfold arrivedCount
    omega
  refine ⟨ht.trans (Nat.mod_eq_of_lt (fieldAt_lt w 0 8)), hc.trans (Nat.mod_eq_of_lt (Nat.lt_of_le_of_lt (Nat.sub_le ..) hsum)), hg,
    hf.trans (Nat.mod_eq_of_lt (raisedFlags_spec _ _ _ (fieldAt_lt w 20 4)).1), hh⟩

/-- Settles O24: what each field holds after the arrival (`fieldAt_arriveWord`), in auto mode and out of it. -/
theorem arrivalRule : Obligations.ArrivalRule := by
  intro w n err hw v f target sum
  obtain ⟨ht, hc, hg, hf, hh⟩ := fieldAt_arriveWord w n err
  obtain ⟨-, hauto, hovf, herr⟩ := raisedFlags_spec (decide (2 ^ 64 ≤ fieldAt w 8 8 + n)) err (fieldAt w 20 4) (fieldAt_lt w 20 4)
  rw [decide_eq_true_eq] at hovf
  rw [← hf] at hauto hovf herr
  refine ⟨(congrArg List.length (arriveWord_eq n err w)).trans (syncBytes_length ..), ht, hh, fun (hmode : fieldAt w 20 4 % 2 = 0 ∨ fieldAt w 0 8 = 0) => ?_, fun hmode hne => ?_,
    hauto, hovf, herr⟩
  · have hk : targetsIn (fieldAt w 20 4) (fieldAt w 0 8) (arrivedCount w n) = 0 := if_neg (by omega)
    rw [hk, Nat.zero_mul] at hc
    rw [hk, Nat.add_zero] at hg
    exact ⟨hc, hg.trans (Nat.mod_eq_of_lt (fieldAt_lt w 16 4))⟩
  · have hk : targetsIn (fieldAt w 20 4) (fieldAt w 0 8) (arrivedCount w n) = sum / target := if_pos ⟨hmode, hne⟩
    have hrem : sum - sum / target * target = sum % target := by rw [Nat.mul_comm, Nat.mod_eq_sub]
    rw [hk] at hc hg
    have hcount : f v 8 8 = sum % target := hc.trans hrem
    refine ⟨hcount ▸ Nat.mod_lt _ (Nat.pos_of_ne_zero hne), sum / target, ?_, hg⟩
    rw [hcount, Nat.mul_comm]
    exact Nat.mod_add_div ..

end Sys2Proof.Machine
end

section
/-!
PROOF. Sync words (O25).
-/
namespace Sys2Proof.Machine
open Sys2Proof

/-! ### The bytes of a sync word -/

/-- What a read of local memory finds depends on the bytes and on the grant alone. -/
theorem State.readLoc_congr {s t : State} {o : Owner} (hl : t.loc = s.loc) (hg : t.grantOf o.ident = s.grantOf o.ident) (n : Nat) :
    ∀ la, t.readLoc o la n = s.readLoc o la n := by
  induction n with
  | zero => exact fun _ => rfl
  | succ n ih =>
    intro la
    show t.readLoc1 o la :: t.readLoc o (la + 1) n = s.readLoc1 o la :: s.readLoc o (la + 1) n
    rw [ih, State.readLoc1, State.readLoc1, hl, hg]

/-- A part of a run of local memory is a run of its own. -/
theorem State.readLoc_drop_take (s : State) (o : Owner) (k n m : Nat) (h : k + n ≤ m) (la : Nat) :
    ((s.readLoc o la m).drop k).take n = s.readLoc o (la + k) n := by
  induction k generalizing la m with
  | zero =>
    induction n generalizing la m with
    | zero => rfl
    | succ n ih =>
      obtain ⟨m, rfl⟩ : ∃ j, m = j + 1 := ⟨m - 1, by omega⟩
      exact congrArg (s.readLoc1 o la :: ·) (ih m (by omega) (la + 1))
  | succ k ih =>
    obtain ⟨m, rfl⟩ : ∃ j, m = j + 1 := ⟨m - 1, by omega⟩
    rw [Nat.add_comm k 1, ← Nat.add_assoc]
    exact (congrArg (fun l => List.take n (List.drop l _)) (Nat.add_comm 1 k)).trans (ih m (by omega) (la + 1))

theorem State.natOf_readLoc_lt (s : State) (o : Owner) (la n : Nat) : natOf (s.readLoc o la n) < 256 ^ n := by
  simpa using natOf_lt (s.readLoc o la n)

/-- The generation of a sync word, as a number (R179). -/
theorem State.generation_toNat (s : State) (o : Owner) (la : Nat) : (s.generation o la).toNat = natOf (s.readLoc o (la + 16) 4) := by
  rw [State.generation, BitVec.toNat_ofNat]
  exact Nat.mod_eq_of_lt (s.natOf_readLoc_lt o _ 4)

/-- A generation differs from a value where its bytes spell another number. -/
theorem State.generation_ne_iff (s : State) (o : Owner) (la : Nat) (v : BitVec 32) :
    s.generation o la ≠ v ↔ natOf (s.readLoc o (la + 16) 4) ≠ v.toNat := by
  rw [← s.generation_toNat]
  exact not_congr BitVec.toNat_inj.symm

/-- A register names the generation to wait for by its low 32 bits (R181). -/
theorem State.generation_ne_reg (s : State) (o : Owner) (la : Nat) (x : Word) :
    s.generation o la ≠ x.setWidth 32 ↔ natOf (((s.readLoc o la 32).drop 16).take 4) ≠ x.toNat % 2 ^ 32 := by
  rw [s.generation_ne_iff, State.readLoc_drop_take s o 16 4 32 (by decide), BitVec.toNat_setWidth]

/-! ### A good sync word (R181) -/

section
variable {s : State} {a b d : Reg} (hal : (s.getX a).toNat % 32 = 0) (hin : s.localFault s.th.owner (s.getX a).toNat 32 = none)
  (ha : s.th.acquiring = false)
include hal hin

theorem State.onSyncWord_go (f : Nat → State) : s.onSyncWord a f = f (s.getX a).toNat := by
  unfold State.onSyncWord
  dsimp only
  rw [State.localCheck_aligned hal, hin]

include ha

theorem execSwinit_eq : exec (.swinit a b) s = .next ((s.ownPut (s.getX a).toNat (bytesOf 8 (s.getX b).toNat ++ bytesOf 8 0
    ++ s.readLoc s.th.owner ((s.getX a).toNat + 16) 4 ++ bytesOf 4 (if (s.getX b).toNat = 0 then 0 else 1) ++ bytesOf 8 0)).retire 4) := by
  show execSwinit a b s = _
  unfold execSwinit
  rw [State.onSyncWord_go hal hin, s.whenFree_go _ ha]

theorem execSwadd_eq (hc : s.Clear) : exec (.swadd a b) s = .next (((s.released .gang).ownPut (s.getX a).toNat
    (arriveWord (s.getX b).toNat false (s.readLoc s.th.owner (s.getX a).toNat 32))).retire 4) := by
  have hr := s.released_frame .gang
  have hread : (s.released .gang).readLoc s.th.owner (s.getX a).toNat 32 = s.readLoc s.th.owner (s.getX a).toNat 32 :=
    State.readLoc_congr (by rw [hr]) (by rw [hr]; rfl) 32 _
  show execSwadd a b s = _
  unfold execSwadd
  rw [State.onSyncWord_go hal hin, s.afterRelease_go _ _ (.inr ⟨hc, .inl (by decide)⟩), State.whenFree_go _ _ (by rw [State.released_th]; exact ha),
    State.getX_released, State.released_th, hread]

/-- The wait for a generation ends where another stands there: an acquire, and the word has been read (R182, R192). -/
theorem execSwwait_go (hp : s.th.packet = none)
    (hgen : natOf (((s.readLoc s.th.owner (s.getX a).toNat 32).drop 16).take 4) ≠ (s.getX b).toNat % 2 ^ 32) :
    exec (.swwait a b) s =
      .next (((s.ownTouch (s.getX a).toNat).setTh { s.th with swWait := none, gangSeen := s.now }).retire 4) := by
  show execSwwait a b s = _
  unfold execSwwait
  rw [hp, State.onSyncWord_go hal hin, s.whenFree_go _ ha]
  dsimp only
  rw [if_pos ((s.generation_ne_reg ..).2 hgen)]
  rfl

theorem execSwwait_waits (hp : s.th.packet = none)
    (hgen : natOf (((s.readLoc s.th.owner (s.getX a).toNat 32).drop 16).take 4) = (s.getX b).toNat % 2 ^ 32) :
    exec (.swwait a b) s = .next { s with th := { s.th with swWait := some ((s.getX a).toNat, (s.getX b).setWidth 32) } } := by
  show execSwwait a b s = _
  unfold execSwwait
  rw [hp, State.onSyncWord_go hal hin, s.whenFree_go _ ha]
  dsimp only
  rw [if_neg fun h => (s.generation_ne_reg ..).1 h hgen]
  rfl

theorem execSwget_eq : exec (.swget d a) s = .next ((s.ownTouch (s.getX a).toNat).result d
    (BitVec.ofNat 64 (natOf (((s.readLoc s.th.owner (s.getX a).toNat 32).drop 16).take 4)))) := by
  have hg : (s.generation s.th.owner (s.getX a).toNat).setWidth 64
      = BitVec.ofNat 64 (natOf (((s.readLoc s.th.owner (s.getX a).toNat 32).drop 16).take 4)) := by
    rw [State.readLoc_drop_take s s.th.owner 16 4 32 (by decide), ← s.generation_toNat, BitVec.ofNat_toNat]
  show execSwget d a s = _
  unfold execSwget
  rw [State.onSyncWord_go hal hin, s.whenFree_go _ ha, hg]

theorem execSwcnt_eq : exec (.swcnt d a) s = .next ((s.ownTouch (s.getX a).toNat).result d
    (BitVec.ofNat 64 (natOf (((s.readLoc s.th.owner (s.getX a).toNat 32).drop 8).take 8)))) := by
  show execSwcnt d a s = _
  unfold execSwcnt
  rw [State.onSyncWord_go hal hin, s.whenFree_go _ ha, State.locNat, State.readLoc_drop_take s s.th.owner 8 8 32 (by decide)]

end

/-- A register read behind the read of a sync word: what stands there is written, and the word has been read (R182, R192). -/
theorem State.ownTouch_result (s : State) (la : Nat) (d : Reg) (v : Word) :
    ∃ t, Host.Outcome.next ((s.ownTouch la).result d v) = (.next t : Out) ∧ (∀ r, t.getX r = if r = d ∧ d ≠ 0 then v else s.getX r)
      ∧ KeepsBesideX s.th t.th ∧ Retires s t 4 ∧ KeepsBytes s t ∧ KeepsOutside (s.ownTouch la) t := by
  obtain ⟨t, ht, hx, -, hbeside, hret, hout, hbytes⟩ := (s.ownTouch la).result_spec d v
  exact ⟨t, ht, hx, hbeside, hret, hbytes, hout⟩

/-- A misaligned sync word traps (R181). -/
theorem State.onSyncWord_misaligned {s : State} {a : Reg} (h : (s.getX a).toNat % 32 ≠ 0) (f : Nat → State) :
    s.onSyncWord a f = s.trap 0x04 (s.getX a).toNat := by
  unfold State.onSyncWord
  dsimp only
  rw [State.localCheck_misaligned h]

/-- SYNC_WORD_WAKE of the slot at hand (R182). -/
theorem execSyncWordWake_eq {s : State} {l : Nat} {v : BitVec 32} (hb : s.th.bound = true) (hu : s.ev.unit = s.th.slot)
    (hw : s.th.swWait = some (l, v)) : exec .syncWordWake s =
      .next (if natOf (s.readLoc s.th.owner (l + 16) 4) ≠ v.toNat then { s with th := { s.th with swWait := none } } else s) := by
  show execSyncWordWake s = _
  unfold execSyncWordWake
  dsimp only
  rw [hu, s.focus_self hb, hb, beq_self_eq_true, Bool.true_and, if_neg (by decide), hw]
  exact congrArg _ (if_congr (s.generation_ne_iff ..) rfl rfl)

/-- Settles O25: each instruction of a good sync word by its equation (`execSwinit_eq` to `execSwcnt_eq`), the store by
`State.ownPut_retires` and the reads by `State.ownTouch_result`. -/
theorem syncWordInstructions : Obligations.SyncWordInstructions := by
  intro s d a b hwf la old gen good
  have hgen16 : (old.drop 16).take 4 = s.readLoc s.th.owner (la + 16) 4 := s.readLoc_drop_take s.th.owner 16 4 32 (by decide) la
  have stores {o : Order} {bs : List Byte} (hin : s.localFault s.th.owner la 32 = none) (hlen : bs.length = 32) :
      StoresLocal s (((s.released o).ownPut la bs).retire 4) la bs ∧ KeepsBesidePc s.th (((s.released o).ownPut la bs).retire 4).th
        ∧ Retires s (((s.released o).ownPut la bs).retire 4) 4 ∧ KeepsOutsideLoc (s.released o) (((s.released o).ownPut la bs).retire 4) la 32 := by
    rw [← hlen] at hin ⊢
    exact State.ownPut_retires hwf (by omega) (List.ne_nil_of_length_pos (by omega)) hin
  refine ⟨fun ⟨hal, hin, ha⟩ => ?_, fun ⟨hal, hin, ha⟩ hc => ?_, fun ⟨hal, hin, ha⟩ hp hne => ?_, fun ⟨hal, hin, ha⟩ hp he =>
    execSwwait_waits hal hin ha hp he, ?_, fun hal j hj => ?_, fun hal hp => ?_, fun hp => ?_, fun l v hb hu hw => execSyncWordWake_eq hb hu hw⟩
  · have hzero : (if (s.getX b).toNat = 0 then 0 else 1) = if s.getX b = 0 then 0 else 1 := if_congr (BitVec.toNat_inj (y := 0#64)) rfl rfl
    have he := execSwinit_eq (b := b) hal hin ha
    rw [← hgen16, hzero] at he
    exact ⟨_, he, stores (o := .plain) hin (by simp [hgen16])⟩
  · exact ⟨_, execSwadd_eq hal hin ha hc, stores (o := .gang) hin ((congrArg List.length (arriveWord_eq ..)).trans (syncBytes_length ..))⟩
  · obtain ⟨hpc, hret, hout, hbytes⟩ := State.retire_spec ((s.ownTouch la).setTh { s.th with swWait := none, gangSeen := s.now }) 4
    exact ⟨_, execSwwait_go hal hin ha hp hne, hpc, hret, hbytes, hout⟩
  · intro reads ⟨hal, hin, ha⟩
    obtain ⟨t, ht, hreads⟩ := s.ownTouch_result la d (BitVec.ofNat 64 gen)
    obtain ⟨u, hu, hcounts⟩ := s.ownTouch_result la d (BitVec.ofNat 64 (natOf ((old.drop 8).take 8)))
    exact ⟨⟨t, (execSwget_eq hal hin ha).trans ht, hreads⟩, u, (execSwcnt_eq hal hin ha).trans hu, hcounts⟩
  · simp only [List.mem_cons, List.not_mem_nil, or_false] at hj
    rcases hj with rfl | rfl | rfl | rfl <;> exact congrArg _ (State.onSyncWord_misaligned hal _)
  · show execSwwait a b s = _
    unfold execSwwait
    rw [hp, if_neg (by decide), State.onSyncWord_misaligned hal]
  · show execSwwait a b s = _
    unfold execSwwait
    rw [if_pos (Option.isSome_iff_ne_none.2 hp)]

end Sys2Proof.Machine
end

section
/-!
PROOF. Counter waits and fences (O23).
-/
namespace Sys2Proof.Machine
open Sys2Proof

/-! ### The wait for a thread's own accesses (R177, R189) -/

/-- With no record held and no fault held back, an instruction that waits for the accesses of a class goes on once few enough of them are
outstanding. -/
theorem State.accessWait_run {s : State} (hh : s.th.held = []) (hs : ∀ c ∈ s.th.acc, c.stuck = none) (ofClass : AccOp → Bool) (n : Nat)
    (f : State → State) : (s.accessWait ofClass n).run s f
      = if (s.th.acc.filter (fun a => ofClass a.op)).length ≤ n then f s else s.stall := by
  have flying : s.th.acc.filter (fun a => ofClass a.op && a.stuck.isNone) = s.th.acc.filter (fun a => ofClass a.op) :=
    List.filter_congr fun c hc => by rw [hs c hc, Option.isNone_none, Bool.and_true]
  unfold State.accessWait
  rw [s.ownWhy_nil hh hs, flying]
  dsimp only [List.filter_nil]
  split <;> rfl

/-- `cwait` retires once its counter is at most `n`, and waits until then; `cwait sc,0` arms the thread's stores first (R177, R189). -/
theorem execCwait_eq {s : State} (hh : s.th.held = []) (hs : ∀ c ∈ s.th.acc, c.stuck = none) (hp : s.th.packet = none) (k : Counter)
    (n : Fin 32) : exec (.cwait k n) s
      = .next (if s.counter s.th k ≤ n.val then (if k = .sc ∧ n.val = 0 then s.arm else s).retire 4 else s.stall) := by
  show execCwait k n s = _
  unfold execCwait
  rw [hp, Option.isSome_none, if_neg Bool.false_ne_true]
  cases k with
  | lc => exact congrArg _ (State.accessWait_run hh hs AccOp.isLoad n.val _)
  | sc =>
    refine congrArg _ ((State.accessWait_run hh hs AccOp.isStore n.val _).trans ?_)
    simp only [true_and]
    rfl
  | _ => simp

/-- A fence from the core path waits for the thread's stores (R178). -/
theorem execXfence_core {s : State} {t : PathId} (hh : s.th.held = []) (hs : ∀ c ∈ s.th.acc, c.stuck = none) (ht : t ≠ .core) :
    exec (.xfence .core t) s = .next (if s.counter s.th .sc = 0 then (s.fenceTo .core t).retire 4 else s.stall) := by
  have waits : exec (.xfence .core t) s = .next ((s.accessWait AccOp.isStore 0).run s (fun s => (s.fenceTo .core t).retire 4)) := by
    cases t with
    | core => exact absurd rfl ht
    | _ => rfl
  rw [waits, State.accessWait_run hh hs]
  exact congrArg _ (if_congr Nat.le_zero rfl rfl)

/-- A fence between engines waits for nothing (R178). -/
theorem execXfence_engines {s : State} {f t : PathId} (hf : f ≠ .core) (ht : t ≠ .core) :
    exec (.xfence f t) s = .next ((s.fenceTo f t).retire 4) := by
  cases f with
  | core => exact absurd rfl hf
  | _ =>
    cases t with
    | core => exact absurd rfl ht
    | _ => rfl

/-- A fence from an engine into the core path makes the path's writes core-path writes first (R191). -/
theorem execXfence_toCore {s : State} {f : PathId} (hf : f ≠ .core) (hi : f ≠ .index) :
    exec (.xfence f .core) s = .next (((s.adoptPath f (clusterOf s.th.slot)).fenceTo f .core).retire 4) := by
  cases f with
  | core => exact absurd rfl hf
  | index => exact absurd rfl hi
  | _ => rfl

/-- A fence from the index shows what the entries did that the thread's queries returned (R196). -/
theorem execXfence_index (s : State) : exec (.xfence .index .core) s
    = .next (((s.adoptPath .index (clusterOf s.th.slot)).fenceTo .index .core).seeEntries.retire 4) := rfl

/-! ### The remembered writes (R189, R191) -/

/-- The writes that local and global memory remember, word by word. -/
def State.past (s : State) : List (Nat × List Past) := s.locPast ++ s.memPast

theorem State.mapPast_past (s : State) (f : Past → Past) : (s.mapPast f).past = s.past.map (fun e => (e.1, e.2.map f)) :=
  (List.map_append ..).symm

/-- What each remembered write satisfies once a map of them brings it about. -/
theorem State.all_mapPast {s : State} {f : Past → Past} {P : Past → Prop} (h : ∀ e ∈ s.past, ∀ r ∈ e.2, P (f r)) :
    ∀ e ∈ (s.mapPast f).past, ∀ r ∈ e.2, P r := by
  rw [State.mapPast_past]
  intro _ he _ hr
  obtain ⟨e, heS, rfl⟩ := List.mem_map.1 he
  obtain ⟨r, hrE, rfl⟩ := List.mem_map.1 hr
  exact h e heS r hrE

/-- `cwait sc,0` arms every store of the thread that no release has covered (R189). -/
theorem State.arm_covers (s : State) : ∀ e ∈ s.arm.past, ∀ r ∈ e.2, r.path = some .core → r.who = s.th.ident → r.rel ≠ none ∨ r.armed = true := by
  refine State.all_mapPast fun e _ r _ => ?_
  split
  · exact fun _ _ => .inr rfl
  · rename_i hr
    intro hpath hwho
    refine .inl fun hrel => hr ?_
    rw [hpath, hwho, hrel]
    simp

/-- The store after it releases what it armed (R189). -/
theorem State.fire_releases {s : State} (h : ∀ e ∈ s.past, ∀ r ∈ e.2, r.path = some .core → r.who = s.th.ident → r.rel ≠ none ∨ r.armed = true) :
    ∀ e ∈ (s.fire (s.th.view .core)).past, ∀ r ∈ e.2, r.path = some .core → r.who = s.th.ident → r.rel ≠ none := by
  have fired : s.fire (s.th.view .core) = s.mapPast _ := if_pos rfl
  rw [fired]
  refine State.all_mapPast fun e he r hr => ?_
  split
  · exact fun _ _ => Option.some_ne_none _
  · rename_i armed
    intro hpath hwho
    refine (h e he r hr hpath hwho).resolve_right fun ha => armed ?_
    rw [ha, hwho]
    simp [Thread.view]

theorem State.retire_past (s : State) : (s.retire 4).past = s.past :=
  congrArg₂ _ (State.retire_locPast ..) (State.retire_memPast ..)

/-- The writes of a path for the cluster of a thread count as core-path writes. -/
def Adopted (p : PathId) (cluster : Nat) (u : State) : Prop :=
  ∀ e ∈ u.past, ∀ r ∈ e.2, r.path = some p → clusterOf r.slot = cluster → r.core ≠ none

theorem State.adoptPath_adopted (s : State) (p : PathId) (cluster : Nat) : Adopted p cluster (s.adoptPath p cluster) := by
  refine State.all_mapPast (s := s) fun e _ r _ => ?_
  split
  · exact fun _ _ => Option.some_ne_none _
  · rename_i kept
    intro hpath hcl hcore
    exact kept (by simp [hpath, hcl, hcore])

theorem Adopted.fenceTo {u : State} {p q t : PathId} {cluster : Nat} (h : Adopted p cluster u) : Adopted p cluster (u.fenceTo q t) := h

/-- What an acquire brings to a die leaves every core-path write one (R166, R196). -/
theorem Adopted.seeEntries {u : State} {p : PathId} {cluster : Nat} (h : Adopted p cluster u) : Adopted p cluster u.seeEntries := by
  have brought (die : Nat) (q : Past → Bool) : Adopted p cluster (u.bring die q) := by
    refine State.all_mapPast fun e he r hr => ?_
    split <;> exact h e he r hr
  exact brought _ _

theorem Adopted.retire {u : State} {p : PathId} {cluster : Nat} (h : Adopted p cluster u) : Adopted p cluster (u.retire 4) := by
  unfold Adopted
  rw [u.retire_past]
  exact h

/-! ### What a fence leaves of the thread's fences (R178) -/

theorem pathCode_lt (p : PathId) : p.code < 8 := by cases p <;> decide

theorem pathCode_inj : ∀ {p q : PathId}, p.code = q.code → p = q := by
  intro p q
  cases p <;> cases q <;> simp [PathId.code]

/-- The key of a fence from one path into another names both. -/
theorem fenceKey_inj {p q x y : PathId} (h : x.code * 8 + y.code = p.code * 8 + q.code) : x = p ∧ y = q := by
  have := pathCode_lt q
  have := pathCode_lt y
  exact ⟨pathCode_inj (by omega), pathCode_inj (by omega)⟩

/-- What the fences of a thread hold of what it had been made to see lies apart from the fences themselves. -/
theorem Thread.get_snaps (th : Thread) (t : PathId) (fs : Tab Nat) {k : Nat} (hk : k < 64) : Tab.get (th.snaps t fs) k 0 = Tab.get fs k 0 := by
  have away (j : Nat) : k ≠ snapKey j t := by unfold snapKey; omega
  simp [Thread.snaps, Tab.get_put_ne _ _ _ _ _ (away _)]

/-- A fence from path `p` into path `q` moves its own stamp alone. -/
theorem State.fenceTo_fences (s : State) (p q x y : PathId) :
    Tab.get (s.fenceTo p q).th.fences (x.code * 8 + y.code) 0
      = if x = p ∧ y = q then s.now else Tab.get s.th.fences (x.code * 8 + y.code) 0 := by
  have hput : Tab.get (Tab.put s.th.fences (p.code * 8 + q.code) s.now) (x.code * 8 + y.code) 0
      = if x = p ∧ y = q then s.now else Tab.get s.th.fences (x.code * 8 + y.code) 0 := by
    split
    · rename_i h
      rw [h.1, h.2, Tab.get_put_self]
    · rename_i h
      exact Tab.get_put_ne _ _ _ _ _ fun e => h (fenceKey_inj e)
  have hx := pathCode_lt x
  have hy := pathCode_lt y
  show Tab.get (if p = .core then _ else _) _ 0 = _
  split
  · rw [Thread.get_snaps _ _ _ (by omega), hput]
  · exact hput

/-- A state after a fence from path `p` into path `q`: the thread's fences and acquires have moved, and what the writes are counted as;
the stamp of the fence is `n`. -/
structure Fenced (s v : State) (p q : PathId) (n : Nat) : Prop where
  frame : v = { s with
    th := { s.th with fences := v.th.fences, gangSeen := v.th.gangSeen, devSeen := v.th.devSeen }
    locPast := v.locPast, memPast := v.memPast, now := v.now }
  fences : ∀ x y : PathId, Tab.get v.th.fences (x.code * 8 + y.code) 0
    = if x = p ∧ y = q then n else Tab.get s.th.fences (x.code * 8 + y.code) 0

theorem State.fenceTo_fenced (s : State) (p q : PathId) : Fenced s (s.fenceTo p q) p q s.now := ⟨rfl, s.fenceTo_fences p q⟩

theorem State.adoptPath_fenced (s : State) (p q : PathId) (cluster : Nat) :
    Fenced s ((s.adoptPath p cluster).fenceTo p q) p q (s.now + 1) := ⟨rfl, (s.adoptPath p cluster).fenceTo_fences p q⟩

theorem Fenced.seeEntries {s v : State} {p q : PathId} {n : Nat} (h : Fenced s v p q n) : Fenced s v.seeEntries p q n where
  frame := congrArg (fun w : State => { w with
    th := { w.th with gangSeen := v.seeEntries.th.gangSeen, devSeen := v.seeEntries.th.devSeen }
    locPast := v.seeEntries.locPast, memPast := v.seeEntries.memPast, now := v.seeEntries.now }) h.frame
  fences := h.fences

/-- What retiring a fence leaves: registers, bytes and everything outside the thread but what the writes are counted as. -/
def FenceGoes (s u : State) : Prop :=
  Retires s u 4 ∧ KeepsBytes s u ∧ u.th.x = s.th.x ∧ u.th.f = s.th.f ∧ u.th.fflags = s.th.fflags
    ∧ u = { s with
        th := u.th, locPast := u.locPast, memPast := u.memPast, now := u.now
        usage := (s.use s.th.ident.vf 0 1).usage, launches := s.launchesCounted }

/-- A retirement leaves what a thread has been made to see. -/
theorem State.retire_seen (s : State) : (s.retire 4).th.fences = s.th.fences ∧ (s.retire 4).th.gangSeen = s.th.gangSeen
    ∧ (s.retire 4).th.devSeen = s.th.devSeen := by
  obtain ⟨hpc, -⟩ := s.retire_spec 4
  rw [hpc]
  exact ⟨rfl, rfl, rfl⟩

theorem Fenced.goes {s v : State} {p q : PathId} {n : Nat} (h : Fenced s v p q n) : FenceGoes s (v.retire 4) := by
  obtain ⟨frame, -⟩ := h
  generalize v.th.fences = fs, v.th.gangSeen = g, v.th.devSeen = d, v.locPast = lp, v.memPast = mp, v.now = m at frame
  subst frame
  obtain ⟨hpc, hret, hout, hbytes⟩ := State.retire_spec
    { s with th := { s.th with fences := fs, gangSeen := g, devSeen := d }, locPast := lp, memPast := mp, now := m } 4
  refine ⟨hret, hbytes, by rw [hpc], by rw [hpc], by rw [hpc], ?_⟩
  rw [State.retire_locPast, State.retire_memPast, State.retire_now]
  exact hout

theorem Fenced.sees {s v : State} {p q : PathId} {n : Nat} (h : Fenced s v p q n) :
    ((v.retire 4).th.view q).fence p = n
      ∧ ∀ x y, (x ≠ p ∨ y ≠ q) → ((v.retire 4).th.view y).fence x = (s.th.view y).fence x := by
  have fence (x y : PathId) : ((v.retire 4).th.view y).fence x = Tab.get v.th.fences (x.code * 8 + y.code) 0 :=
    congrArg (fun fs => Tab.get fs (x.code * 8 + y.code) 0) v.retire_seen.1
  refine ⟨by rw [fence, h.fences, if_pos ⟨rfl, rfl⟩], fun x y hxy => ?_⟩
  rw [fence, h.fences, if_neg fun e => hxy.elim (· e.1) (· e.2)]
  rfl

/-! ### The obligation -/

/-- Settles O23: `cwait` by `execCwait_eq`, what `cwait sc,0` does to the thread's stores by `State.arm_covers` and `State.fire_releases`,
and each `xfence` by what it leaves of the thread's fences (`Fenced`). -/
theorem counterWaitsAndFences : Obligations.CounterWaitsAndFences := by
  intro s k n f t hh hs sees goes ours counted
  have adopts (p : PathId) : Adopted p (clusterOf s.th.slot) (s.adoptPath p (clusterOf s.th.slot)) := s.adoptPath_adopted p _
  refine ⟨fun hp hn => ?_, s.arm_covers, State.fire_releases s.arm_covers, fun hp hn => ?_, fun hp => ?_, fun hf ht => ?_, fun ht h0 => ?_,
    s.retire_nothing, fun ht h0 => ?_, fun hf hi => ?_, ?_⟩
  · rw [execCwait_eq hh hs hp, if_pos hn]
    exact State.retire_nothing _
  · rw [execCwait_eq hh hs hp, if_neg (Nat.not_le.2 hn)]
  · show execCwait k n s = _
    unfold execCwait
    rw [if_pos (Option.isSome_iff_ne_none.2 hp)]
  · exact ⟨_, execXfence_engines hf ht, (s.fenceTo_fenced f t).goes, (s.fenceTo_fenced f t).sees, State.retire_locPast ..,
      State.retire_memPast ..⟩
  · obtain ⟨-, hgang, -⟩ := (s.fenceTo .core t).retire_seen
    exact ⟨_, (execXfence_core hh hs ht).trans (congrArg _ (if_pos h0)), (s.fenceTo_fenced .core t).goes, (s.fenceTo_fenced .core t).sees,
      State.retire_locPast .., State.retire_memPast .., hgang.trans (if_neg ht)⟩
  · rw [execXfence_core hh hs ht, if_neg (Nat.pos_iff_ne_zero.1 h0)]
  · have fenced := s.adoptPath_fenced f .core (clusterOf s.th.slot)
    obtain ⟨-, hgang, hdev⟩ := ((s.adoptPath f (clusterOf s.th.slot)).fenceTo f .core).retire_seen
    exact ⟨_, execXfence_toCore hf hi, fenced.goes, fenced.sees, (adopts f).fenceTo.retire, hgang, hdev⟩
  · have fenced := (s.adoptPath_fenced .index .core (clusterOf s.th.slot)).seeEntries
    obtain ⟨-, hgang, hdev⟩ := ((s.adoptPath .index (clusterOf s.th.slot)).fenceTo .index .core).seeEntries.retire_seen
    exact ⟨_, execXfence_index s, fenced.goes, fenced.sees, (adopts .index).fenceTo.seeEntries.retire, hgang, hdev⟩

end Sys2Proof.Machine
end

section
/-!
PROOF. Memories stay canonical (O56): the operations on the state, paging and accesses.
-/
namespace Sys2Proof.Machine
open Sys2Proof

/-! ### Registers, threads, tables and the bytes of both memories -/

/-- The state that an outcome goes on with keeps both memories canonical. -/
def MemOkAfter : Out → Prop
  | .next t => t.MemOk
  | _ => True

/-- An operation that touches neither memory keeps both canonical. -/
theorem State.MemOk.same {s t : State} (hs : s.MemOk) (hm : t.mem = s.mem) (hl : t.loc = s.loc) : t.MemOk := by
  obtain ⟨h1, h2⟩ := hs
  exact ⟨hm ▸ h1, hl ▸ h2⟩

/-- The state that an operation leaves beside its answer, where the answer is read off an equation. -/
theorem State.MemOk.snd {α : Type} {u : State} {a : α} {p : α × State} (hp : p.2.MemOk) (h : p = (a, u)) : u.MemOk := by
  subst h
  exact hp

/-- The state that an operation leaves beside its answer, where the answer is given first. -/
theorem State.MemOk.snd_of {α : Type} {u : State} {a : α} {p : α × State} (h : p = (a, u)) (hp : p.2.MemOk) : u.MemOk := hp.snd h

/-- The same where an operation leaves two answers beside the state. -/
theorem State.MemOk.trd {α β : Type} {u : State} {a : α} {b : β} {p : α × β × State} (hp : p.2.2.MemOk) (h : p = (a, b, u)) :
    u.MemOk := by
  subst h
  exact hp

/-- Both branches of a choice. -/
theorem State.MemOk.ite {p : Prop} [Decidable p] {s t : State} (hs : s.MemOk) (ht : t.MemOk) : (if p then s else t).MemOk := by
  split
  · exact hs
  · exact ht

/-- An operation done for each entry of a list. -/
theorem State.MemOk.foldl {α : Type} {l : List α} {f : State → α → State} {s : State} (hs : s.MemOk) (hf :
    ∀ u x, u.MemOk → (f u x).MemOk) :
    (l.foldl f s).MemOk := by
  induction l generalizing s with
  | nil => exact hs
  | cons x l ih => exact ih (hf s x hs)

/-- What the paging operations can change (`XlatFrame`) keeps both memories canonical. -/
theorem XlatFrame.memOk {s u : State} (h : XlatFrame s u) (hs : s.MemOk) : u.MemOk := by
  obtain ⟨hm, hl⟩ := hs
  refine ⟨h.wf hm, ?_⟩
  rw [h.same]
  exact hl

theorem State.MemOk.setX {s : State} {r v} (hs : s.MemOk) : (s.setX r v).MemOk := hs.same (by simp) (by simp)

theorem State.MemOk.setF {s : State} {r v} (hs : s.MemOk) : (s.setF r v).MemOk := hs

theorem State.MemOk.setTh {s : State} {t} (hs : s.MemOk) : (s.setTh t).MemOk := hs

theorem State.MemOk.focus {s : State} {slot} (hs : s.MemOk) : (s.focus slot).MemOk := by
  unfold State.focus
  split
  · exact hs
  · split
    · exact hs
    · exact hs

theorem State.MemOk.putThread {s : State} {t} (hs : s.MemOk) : (s.putThread t).MemOk := by
  unfold State.putThread
  split
  · exact hs
  · exact hs

theorem State.MemOk.setLoc {s t : State} (hs : s.MemOk) (hm : t.mem = s.mem) (hl : Memory.wf t.loc = true) : t.MemOk := by
  obtain ⟨h, -⟩ := hs
  exact ⟨hm ▸ h, hl⟩

theorem State.MemOk.loc {s : State} (hs : s.MemOk) : Memory.wf s.loc = true := hs.2

theorem State.MemOk.mem {s : State} (hs : s.MemOk) : Memory.wf s.mem = true := hs.1

theorem State.MemOk.drawBit {s : State} (hs : s.MemOk) : s.drawBit.2.MemOk := hs

theorem State.MemOk.drawNat {s : State} (hs : s.MemOk) : s.drawNat.2.MemOk := hs

theorem State.MemOk.putGang {s : State} {g} (hs : s.MemOk) : (s.putGang g).MemOk := hs

theorem State.MemOk.writeLoc1 {s : State} {o la v} (hs : s.MemOk) : (s.writeLoc1 o la v).MemOk := by
  unfold State.writeLoc1
  split
  · exact hs.setLoc rfl (Memory.wf_write _ _ _ hs.loc)
  · exact hs

theorem State.MemOk.writeLoc {s : State} {o la bs} (hs : s.MemOk) : (s.writeLoc o la bs).MemOk := by
  induction bs generalizing s la with
  | nil => exact hs
  | cons b bs ih => exact ih hs.writeLoc1

theorem State.MemOk.mapPast {s : State} {f} (hs : s.MemOk) : (s.mapPast f).MemOk := hs

theorem State.MemOk.fire {s : State} {v} (hs : s.MemOk) : (s.fire v).MemOk := by
  unfold State.fire
  split
  · exact hs.mapPast
  · exact hs

theorem State.MemOk.noteKey {s : State} {v key mask} (hs : s.MemOk) : (s.noteKey v key mask).MemOk := hs.fire

theorem State.MemOk.readLocWords {s : State} {v la n p} (hs : s.MemOk) : (s.readLocWords v la n p).MemOk := hs

theorem State.MemOk.touchLoc {s : State} {v la n} (hs : s.MemOk) : (s.touchLoc v la n).MemOk := hs.readLocWords

theorem State.MemOk.putKey {s : State} {v key bs} (hs : s.MemOk) : (s.putKey v key bs).MemOk := by
  have hu := hs.noteKey (v := v) (key := key) (mask := coverMask (key / 8) key bs.length)
  exact hu.setLoc rfl (Memory.wf_writeN _ _ _ hu.loc)

theorem State.MemOk.putPart {s : State} {v la bs} (hs : s.MemOk) : (s.putPart v la bs).MemOk :=
  (hs.foldl (fun _ _ hu => hu.noteKey)).writeLoc

theorem State.MemOk.putLoc {s : State} {v la bs} (hs : s.MemOk) : (s.putLoc v la bs).MemOk := by
  unfold State.putLoc
  extract_lets _
  clear_value *
  split
  · exact hs.putPart.putPart
  · exact hs.putPart

theorem State.MemOk.putUnits {s : State} {unit v la n bs} (hs : s.MemOk) : (s.putUnits unit v la n bs).MemOk := by
  induction n generalizing s la bs with
  | zero => exact hs
  | succ n ih =>
    unfold State.putUnits
    split
    · exact hs
    · exact ih hs.putPart

theorem State.MemOk.putEngine {s : State} {v la bs} (hs : s.MemOk) : (s.putEngine v la bs).MemOk := hs.putUnits

theorem State.MemOk.putElems {s : State} {unit v la bs} (hs : s.MemOk) : (s.putElems unit v la bs).MemOk := hs.putUnits

theorem State.MemOk.putFields {s : State} {v la fs} (hs : s.MemOk) : (s.putFields v la fs).MemOk := by
  induction fs generalizing s la with
  | nil => exact hs
  | cons f fs ih => exact ih hs.putPart

theorem State.MemOk.settleLoc {s : State} {key n} (hs : s.MemOk) : (s.settleLoc key n).MemOk := hs

theorem State.MemOk.adopt {s : State} {p} (hs : s.MemOk) : (s.adopt p).MemOk := hs

theorem State.MemOk.adoptPath {s : State} {p cluster} (hs : s.MemOk) : (s.adoptPath p cluster).MemOk := hs.adopt

theorem State.MemOk.adoptAll {s : State} {i} (hs : s.MemOk) : (s.adoptAll i).MemOk := hs.adopt

theorem State.MemOk.releaseWhere {s : State} {p o} (hs : s.MemOk) : (s.releaseWhere p o).MemOk := by
  unfold State.releaseWhere
  split
  · exact hs
  · exact hs

theorem State.MemOk.released {s : State} {o} (hs : s.MemOk) : (s.released o).MemOk := hs.releaseWhere

theorem State.MemOk.renew {s : State} {die x} (hs : s.MemOk) : (s.renew die x).MemOk := by
  unfold State.renew
  split
  · exact hs
  · exact hs
  · exact hs
  · exact hs

theorem State.MemOk.acquire {s : State} {o} (hs : s.MemOk) : (s.acquire o).MemOk := by
  unfold State.acquire
  extract_lets u _
  have hu : u.MemOk := hs.renew
  clear_value *
  split
  · exact hs
  · exact hs.setTh
  · exact hu.setTh
  · exact hu.setTh

theorem State.MemOk.releasedAll {s : State} {o} (hs : s.MemOk) : (s.releasedAll o).MemOk := hs.adoptAll.releaseWhere

theorem State.MemOk.dropIcache {s : State} {core} (hs : s.MemOk) : (s.dropIcache core).MemOk := hs

theorem State.MemOk.seesCode {s : State} (hs : s.MemOk) : s.seesCode.MemOk := hs

theorem State.MemOk.arriveKey {s : State} {key n err} (hs : s.MemOk) : (s.arriveKey key n err).MemOk := by
  obtain ⟨⟨m, hm⟩, hwf⟩ := s.arriveKey_frame key n err
  exact hs.setLoc (by rw [hm]) (hwf hs.loc)

theorem State.MemOk.arrive {s : State} {o la n err} (hs : s.MemOk) : (s.arrive o la n err).MemOk := by
  unfold State.arrive
  split
  · exact hs
  · split
    · exact hs.arriveKey
    · exact hs

theorem State.MemOk.putUnit {s : State} {core u} (hs : s.MemOk) : (s.putUnit core u).MemOk := hs

theorem State.MemOk.use {s : State} {fn counter n} (hs : s.MemOk) : (s.use fn counter n).MemOk := hs

theorem State.MemOk.countRival {s : State} (hs : s.MemOk) : s.countRival.MemOk := hs

theorem State.MemOk.count {s : State} (hs : s.MemOk) : s.count.MemOk := hs.setTh.countRival.use

theorem State.MemOk.retire {s : State} {len} (hs : s.MemOk) : (s.retire len).MemOk := hs.setTh.count

theorem State.MemOk.retireTo {s : State} {g} (hs : s.MemOk) : (s.retireTo g).MemOk := hs.setTh.count

theorem State.MemOk.retireSkip {s : State} {p next} (hs : s.MemOk) : (s.retireSkip p next).MemOk := hs.setTh.count

theorem State.MemOk.stall {s : State} (hs : s.MemOk) : s.stall.MemOk := hs

theorem State.MemOk.stallWith {s : State} {bs} (hs : s.MemOk) : (s.stallWith bs).MemOk := hs

theorem State.MemOk.inRelease {s : State} {o} (hs : s.MemOk) : (s.inRelease o).MemOk := hs

/-! ### Streams and lane registers -/

theorem State.MemOk.setStream {s : State} {k st} (hs : s.MemOk) : (s.setStream k st).MemOk := hs

theorem State.MemOk.putBlock {s : State} {st k v} (hs : s.MemOk) : (s.putBlock st k v).MemOk := hs.foldl (fun _ _ hu => hu.putLoc)

theorem State.MemOk.advanceStreams {s : State} {rs} (hs : s.MemOk) : (s.advanceStreams rs).MemOk := hs

theorem State.MemOk.writeF {s : State} {r v} (hs : s.MemOk) : (s.writeF r v).MemOk := by
  unfold State.writeF
  split
  · exact hs.putBlock
  · exact hs.setF

theorem State.MemOk.loadF {s : State} {r v} (hs : s.MemOk) : (s.loadF r v).MemOk := by
  unfold State.loadF
  split
  · split
    · exact hs
    · exact hs.putBlock.advanceStreams
  · exact hs.setF

/-! ### Translation, walks and slices -/

theorem State.MemOk.rekey {s : State} {key unit} (hs : s.MemOk) : (s.rekey key unit).MemOk := (State.rekey_frame ..).memOk hs

theorem State.MemOk.physWrite {s : State} {key pa bs} (hs : s.MemOk) : (s.physWrite key pa bs).MemOk :=
  (State.physWrite_frame ..).memOk hs

theorem State.MemOk.wakeSlice {s : State} {n} (hs : s.MemOk) : (s.wakeSlice n).MemOk := (State.wakeSlice_frame ..).memOk hs

theorem State.MemOk.recall {s : State} {word} (hs : s.MemOk) : (s.recall word).MemOk := (State.recall_frame ..).memOk hs

theorem State.MemOk.recallIn {s : State} {pa n} (hs : s.MemOk) : (s.recallIn pa n).MemOk := (State.recallIn_frame ..).memOk hs

theorem State.MemOk.sliceRoom {s : State} {slice word} (hs : s.MemOk) : (s.sliceRoom slice word).MemOk :=
  (State.sliceRoom_frame ..).memOk hs

theorem State.MemOk.toSlice {s : State} {word} (hs : s.MemOk) : (s.toSlice word).MemOk := (State.toSlice_frame ..).memOk hs

theorem State.MemOk.perhapsEvicted {s : State} {pa n} (hs : s.MemOk) : (s.perhapsEvicted pa n).MemOk :=
  (State.perhapsEvicted_frame ..).memOk hs

theorem State.MemOk.putEntry {s : State} {pa w} (hs : s.MemOk) : (s.putEntry pa w).MemOk := (State.putEntry_frame ..).memOk hs

theorem State.MemOk.walkVa {s : State} {slice fn va fresh} (hs : s.MemOk) : (s.walkVa slice fn va fresh).2.MemOk :=
  (State.walkVa_frame ..).memOk hs

theorem State.MemOk.setD {s : State} {key} (hs : s.MemOk) : (s.setD key).MemOk := (State.setD_frame ..).memOk hs

theorem State.MemOk.translate {s : State} {r va} (hs : s.MemOk) : (s.translate r va).2.MemOk := (State.translate_frame ..).memOk hs

/-! ### Reads and writes of physical memory -/

theorem State.MemOk.notePast {s : State} {k r} (hs : s.MemOk) : (s.notePast k r).MemOk := hs

theorem State.MemOk.noteWord {s : State} {v key tracked scope word mask} (hs : s.MemOk) :
    (s.noteWord v key tracked scope word mask).MemOk := by
  unfold State.noteWord
  extract_lets u _ _
  have hu : u.MemOk := hs.fire.notePast
  clear_value *
  split
  · exact hu
  · exact hu.notePast

theorem State.MemOk.noteMem {s : State} {v key tracked scope pa n} (hs : s.MemOk) : (s.noteMem v key tracked scope pa n).MemOk :=
  hs.foldl (fun _ _ hu => hu.noteWord)

theorem State.MemOk.readMemWords {s : State} {v tracked pa n p} (hs : s.MemOk) : (s.readMemWords v tracked pa n p).MemOk := hs

theorem State.MemOk.settleMem {s : State} {pa n} (hs : s.MemOk) : (s.settleMem pa n).MemOk := hs

theorem State.MemOk.hubWrite {s : State} {key pa bs} (hs : s.MemOk) : (s.hubWrite key pa bs).MemOk := hs.recallIn.physWrite

theorem State.MemOk.makeRoom {s : State} {core word} (hs : s.MemOk) : (s.makeRoom core word).MemOk := by
  unfold State.makeRoom
  extract_lets _
  clear_value *
  split
  · exact hs
  · split
    next heq =>
      have hu := hs.drawNat.snd heq
      exact hu.foldl (fun _ _ hu => hu.toSlice)

theorem State.MemOk.registerWord {s : State} {k key va pa bs} (hs : s.MemOk) : (s.registerWord k key va pa bs).MemOk := by
  unfold State.registerWord
  extract_lets _ u v
  have hu : u.MemOk := by
    unfold u
    split
    · exact State.MemOk.ite hs hs.recall
    · exact hs
  have hv : v.MemOk := by
    unfold v
    split
    · exact hu.makeRoom
    · exact hu.wakeSlice.sliceRoom
  clear_value *
  exact hv

theorem State.MemOk.registerBytes {s : State} {k key va pa bs n} (hs : s.MemOk) : (s.registerBytes k key va pa bs n).MemOk := by
  induction n generalizing s va pa bs with
  | zero => exact hs
  | succ n ih =>
    unfold State.registerBytes
    split
    · exact hs
    · exact ih hs.registerWord

theorem State.MemOk.useHbm {s : State} {fn p n} (hs : s.MemOk) : (s.useHbm fn p n).MemOk := by
  unfold State.useHbm
  split
  next heq =>
    have hu := hs.drawBit.snd heq
    split
    next heq' =>
      have hv := hu.drawNat.snd heq'
      exact hv.use

theorem State.MemOk.retagRows {s : State} {leaf pa n} (hs : s.MemOk) : (s.retagRows leaf pa n).MemOk := by
  unfold State.retagRows
  split
  · exact hs
  · exact hs

theorem State.MemOk.unpoison {s : State} {pa n} (hs : s.MemOk) : (s.unpoison pa n).MemOk := hs

theorem State.MemOk.storeAt {s : State} {v k fn scope va p bs} (hs : s.MemOk) : (s.storeAt v k fn scope va p bs).MemOk := by
  unfold State.storeAt
  extract_lets _ _ u w
  have hu : u.MemOk := hs.setD.retagRows.noteMem
  have hw : w.MemOk := State.MemOk.ite hu.perhapsEvicted.physWrite (State.MemOk.ite hu.recallIn.physWrite hu.registerBytes)
  clear_value *
  exact hw

theorem State.MemOk.translateAll {s : State} {r ps} (hs : s.MemOk) : (s.translateAll r ps).2.MemOk := by
  induction ps generalizing s with
  | nil => exact hs
  | cons p ps ih =>
    unfold State.translateAll
    split
    next heq => exact hs.translate.snd heq
    next heq => exact hs.translate.snd heq
    next heq =>
      have hu := ih (hs.translate.snd heq)
      split
      next heq' =>
        exact hu.snd heq'
      next heq' =>
        exact hu.snd heq'

theorem State.MemOk.readParts {s : State} {v fn ps} (hs : s.MemOk) : (s.readParts v fn ps).2.MemOk := by
  induction ps generalizing s with
  | nil => exact hs
  | cons p ps ih =>
    unfold State.readParts
    dsimp only
    split
    · exact ih hs.useHbm
    · exact ih hs.perhapsEvicted.useHbm

theorem State.MemOk.storeParts {s : State} {v fn scope bs ps} (hs : s.MemOk) : (s.storeParts v fn scope bs ps).MemOk := by
  induction ps generalizing s bs with
  | nil => exact hs
  | cons p ps ih => exact ih hs.storeAt.unpoison

theorem State.MemOk.writeParts {s : State} {v fn scope bs ps} (hs : s.MemOk) : (s.writeParts v fn scope bs ps).MemOk :=
  hs.storeParts.foldl (fun _ _ hu => hu.useHbm)

theorem State.MemOk.atomicPlace {s : State} {k p n} (hs : s.MemOk) : (s.atomicPlace k p n).MemOk := by
  unfold State.atomicPlace
  split
  · exact hs
  · exact hs.foldl (fun _ _ hu => hu.toSlice)
  · exact hs.recallIn

theorem State.MemOk.atomicAt {s : State} {v fn scope va p n f} (hs : s.MemOk) : (s.atomicAt v fn scope va p n f).2.MemOk := by
  unfold State.atomicAt
  extract_lets _ _ _ u _ w z
  have hu : u.MemOk := hs.atomicPlace
  have hw : w.MemOk := hu.readMemWords
  have hz : z.MemOk := State.MemOk.ite hw.registerBytes hw
  clear_value *
  split
  · exact hu.storeAt.useHbm
  · exact State.MemOk.useHbm hz

theorem State.MemOk.fetchParts {s : State} {scope ps} (hs : s.MemOk) : (s.fetchParts scope ps).MemOk :=
  hs.foldl (fun _ _ hu => hu.readMemWords)

theorem State.MemOk.effect {s : State} {a ps} (hs : s.MemOk) : (s.effect a ps).MemOk := by
  unfold State.effect
  extract_lets _ fn n u v w
  have hu : u.MemOk := State.MemOk.ite hs.fetchParts.acquire hs
  have hw : w.MemOk := by
    unfold w
    clear_value u
    split
    · exact hu.readParts.setX
    · exact hu.readParts.loadF
    · exact hu.writeParts
    · exact hu.writeParts
    · split
      · split
        next heq => exact (hu.atomicAt.snd heq).setX
      · exact hu
    · split
      · split
        next heq => exact (hu.atomicAt.snd heq).setX
      · exact hu
    · split
      · exact hu.setX
      · exact hu
    · split
      · split
        · exact hu.atomicPlace.storeAt
        · exact hu
      · exact hu
  exact State.MemOk.ite hw.acquire hw

theorem State.MemOk.perform {s : State} {a} (hs : s.MemOk) : (s.perform a).2.MemOk := by
  unfold State.perform
  split
  next heq => exact hs.translateAll.snd heq
  next heq => exact hs.translateAll.snd heq
  next heq =>
    have hu := hs.translateAll.snd heq
    split
    · exact hu
    · split
      · exact hu
      · split
        · exact hu
        · exact hu.effect

end Sys2Proof.Machine
end

section
/-!
PROOF. Memories stay canonical (O56): threads that end, gangs, waits, traps and the fetch.
-/
namespace Sys2Proof.Machine
open Sys2Proof

/-! ### Records of gangs, packets and what a thread leaves behind -/

theorem State.MemOk.releaseUnit {s : State} {core} (hs : s.MemOk) : (s.releaseUnit core).MemOk := by
  unfold State.releaseUnit
  extract_lets _ _
  clear_value *
  split
  · exact hs.putUnit
  · exact hs.putUnit

theorem State.MemOk.loseUnit {s : State} {core o} (hs : s.MemOk) : (s.loseUnit core o).MemOk := by
  unfold State.loseUnit
  extract_lets _ _ u v
  have hu : u.MemOk := State.MemOk.ite hs.arrive hs
  have hv : v.MemOk := State.MemOk.ite hu hu
  clear_value *
  exact hv.releaseUnit

theorem State.MemOk.leaveMma {s : State} (hs : s.MemOk) : s.leaveMma.MemOk := by
  unfold State.leaveMma
  split
  · exact hs
  · exact hs

theorem State.MemOk.leaveMown {s : State} (hs : s.MemOk) : s.leaveMown.MemOk := by
  unfold State.leaveMown
  split
  · extract_lets _ _ u v _
    have hu : u.MemOk := hs.putUnit
    have hv : v.MemOk := State.MemOk.ite hu.releaseUnit hu
    clear_value *
    exact hv
  · exact hs

theorem State.MemOk.postCount {s : State} {p err} (hs : s.MemOk) : (s.postCount p err).MemOk := hs

theorem State.MemOk.abortPacket {s : State} (hs : s.MemOk) : s.abortPacket.MemOk := by
  unfold State.abortPacket
  split
  · exact hs
  · exact hs.postCount

theorem State.MemOk.freeSlot {s : State} (hs : s.MemOk) : s.freeSlot.MemOk := by
  obtain ⟨us, ps, ts, h⟩ := s.freeSlot_frame
  rw [h]
  exact ⟨hs.mem, Memory.wf_clear _ _ _ hs.loc⟩

theorem State.MemOk.mapOwners {s : State} {f} (hs : s.MemOk) : (s.mapOwners f).MemOk := hs

theorem State.MemOk.endFailed {s : State} (hs : s.MemOk) : s.endFailed.MemOk := by
  unfold State.endFailed
  extract_lets _ _ _
  clear_value *
  split
  · exact State.MemOk.foldl hs (fun _ _ hu => hu.arrive)
  · exact hs.foldl (fun _ _ hu => hu.arrive)

theorem State.MemOk.orphan {s : State} (hs : s.MemOk) : s.orphan.MemOk := hs.endFailed.mapOwners

theorem State.MemOk.endClaimsOf {s : State} {p} (hs : s.MemOk) : (s.endClaimsOf p).MemOk := hs

theorem State.MemOk.endClaims {s : State} {i} (hs : s.MemOk) : (s.endClaims i).MemOk := hs.endClaimsOf

theorem State.MemOk.freePlaces {s : State} {p} (hs : s.MemOk) : (s.freePlaces p).MemOk := hs

theorem State.MemOk.flushStores {s : State} (hs : s.MemOk) : s.flushStores.MemOk := by
  unfold State.flushStores
  refine hs.foldl (fun v x hu => ?_)
  extract_lets _
  clear_value *
  split
  next heq =>
    have hv := hu.perform.snd heq
    exact hv

theorem State.MemOk.noteGot {s : State} (hs : s.MemOk) : s.noteGot.MemOk := hs

theorem State.MemOk.dropThread {s : State} (hs : s.MemOk) : s.dropThread.MemOk := by
  unfold State.dropThread
  split
  · extract_lets u _ v w z
    have hu : u.MemOk := hs.abortPacket.flushStores
    have hw : w.MemOk := hu.releasedAll.noteGot.leaveMown
    have hz : z.MemOk := State.MemOk.ite hw.loseUnit hw
    exact hz.orphan.endClaims.freePlaces.freeSlot
  · exact hs

theorem State.MemOk.putLaunch {s : State} {l} (hs : s.MemOk) : (s.putLaunch l).MemOk := hs

theorem State.MemOk.closeLaunch {s : State} {fn id} (hs : s.MemOk) : (s.closeLaunch fn id).MemOk := by
  unfold State.closeLaunch
  split
  · exact hs
  · split
    · exact hs
    · exact hs

theorem State.MemOk.finishGang {s : State} {g} (hs : s.MemOk) : (s.finishGang g).MemOk := by
  obtain ⟨gs, hs', ls, st, cs, h⟩ := s.finishGang_frame g
  rw [h]
  exact hs

theorem State.MemOk.endRank {s : State} {i value} (hs : s.MemOk) : (s.endRank i value).MemOk := by
  unfold State.endRank
  split
  · exact hs
  · exact hs.putGang.finishGang

theorem State.MemOk.stopGang {s : State} {g code} (hs : s.MemOk) : (s.stopGang g code).MemOk :=
  (((((hs.foldl (fun _ _ hu => hu.focus.dropThread)).endClaimsOf).freePlaces).mapOwners).putGang).finishGang

theorem State.MemOk.report {s : State} {cause tval} (hs : s.MemOk) : (s.report cause tval).MemOk := by
  unfold State.report
  extract_lets _ _ u
  have hu : u.MemOk := hs
  clear_value *
  split
  · exact hu.stopGang
  · exact hu.dropThread

theorem State.MemOk.loseContext {s : State} {stage pa} (hs : s.MemOk) : (s.loseContext stage pa).MemOk := by
  unfold State.loseContext
  extract_lets _ _ u
  have hu : u.MemOk := hs
  clear_value *
  split
  · exact hu.stopGang
  · exact hu.dropThread

/-! ### Traps, boundaries, waits and releases -/

theorem State.MemOk.deliver {s : State} {a cause tval records parked} (hs : s.MemOk) :
    (s.deliver a cause tval records parked).MemOk := by
  unfold State.deliver
  extract_lets t u
  have hu : u.MemOk := hs.writeLoc.settleLoc
  clear_value u
  exact hu

theorem State.MemOk.upcall {s : State} {a cause tval records} (hs : s.MemOk) : (s.upcall a cause tval records).MemOk := by
  unfold State.upcall
  extract_lets _ u
  have hu : u.MemOk := hs.abortPacket.leaveMown.leaveMma
  clear_value *
  split
  · exact hu.report
  · exact hu.deliver

theorem State.MemOk.trap {s : State} {cause tval} (hs : s.MemOk) : (s.trap cause tval).MemOk := hs.upcall

theorem State.MemOk.trapWord {s : State} {cause i} (hs : s.MemOk) : (s.trapWord cause i).MemOk := hs.trap

theorem State.MemOk.upcallRecords {s : State} (hs : s.MemOk) : s.upcallRecords.MemOk := by
  unfold State.upcallRecords
  split
  · exact hs
  · exact hs.upcall

theorem State.MemOk.upcallNotice {s : State} (hs : s.MemOk) : s.upcallNotice.MemOk := by
  unfold State.upcallNotice
  extract_lets _ _
  clear_value *
  split
  · exact hs
  · exact State.MemOk.upcall hs

theorem State.MemOk.boundary {s : State} (hs : s.MemOk) : s.boundary.MemOk := by
  unfold State.boundary
  split
  · exact hs
  · split
    · exact hs.upcallRecords
    · exact hs.upcallNotice

theorem State.MemOk.takeParked {s : State} {w} (hs : s.MemOk) : (s.takeParked w).MemOk := by
  unfold State.takeParked
  split
  · exact hs.report
  · exact hs.upcallRecords

theorem State.MemOk.releaseWait {s t : State} (hs : s.MemOk) (h : s.releaseWait = .taken t) : t.MemOk := by
  unfold State.releaseWait at h
  split at h
  · cases h
    exact hs.takeParked
  · split at h <;> cases h

theorem State.MemOk.run {w : Wait} {s : State} {f : State → State} (hs : s.MemOk) (hw : ∀ t, w = .taken t → t.MemOk)
    (hf : ∀ u, u.MemOk → (f u).MemOk) : (w.run s f).MemOk := by
  cases w with
  | go => exact hf s hs
  | stall => exact hs.stall
  | taken t => exact hw t rfl

theorem State.MemOk.through {s : State} {ws} (hs : s.MemOk) : (s.through ws).MemOk := hs.foldl (fun _ _ hu => hu.recall)

theorem State.MemOk.throughOutside {s : State} (hs : s.MemOk) : s.throughOutside.MemOk := hs.through

theorem State.MemOk.tryRelease {s : State} {o} (hs : s.MemOk) : (s.tryRelease o).2.MemOk := by
  unfold State.tryRelease
  split
  · split
    next heq =>
      have hu := hs.drawBit.snd heq
      exact State.MemOk.ite hu.throughOutside.released hu
  · exact hs.released

theorem State.MemOk.releaseTo {s : State} {o : Order} {g f : State → State} (hs : s.MemOk) (hg : ∀ u, u.MemOk → (g u).MemOk)
    (hf : ∀ u, u.MemOk → (f u).MemOk) : (s.releaseTo o g f).MemOk := by
  unfold State.releaseTo
  split
  · exact hg s hs
  next heq => exact hs.releaseWait heq
  · exact State.MemOk.ite (hf _ hs.tryRelease) (hg _ hs.tryRelease)

theorem State.MemOk.afterRelease {s : State} {o : Order} {f : State → State} (hs : s.MemOk) (hf : ∀ u, u.MemOk → (f u).MemOk) :
    (s.afterRelease o f).MemOk := by
  unfold State.afterRelease
  split
  · exact hf s hs
  · exact hs.releaseTo (fun _ hu => hu) hf

theorem State.MemOk.whenFree {s : State} {f : State → State} (hs : s.MemOk) (hf : ∀ u, u.MemOk → (f u).MemOk) :
    (s.whenFree f).MemOk :=
  State.MemOk.ite hs.stall (hf s hs)

theorem State.MemOk.afterReleaseWith {s : State} {o : Order} {bs : List Byte} {f : State → State} (hs : s.MemOk)
    (hf : ∀ u, u.MemOk → (f u).MemOk) : (s.afterReleaseWith o bs f).MemOk := hs.releaseTo (fun _ hu => hu) hf

theorem State.MemOk.postRecord {s t : State} {what w e n} (hs : s.MemOk) (h : s.postRecord what w e n = some t) : t.MemOk := by
  unfold State.postRecord at h
  split at h
  · cases h
  · cases h
    exact hs

theorem State.MemOk.postNotice {s : State} {o w} (hs : s.MemOk) : (s.postNotice o w).2.MemOk := by
  unfold State.postNotice
  split
  · exact hs
  · split
    · exact hs.putThread
    · exact hs.putThread

theorem State.MemOk.dropAccess {s : State} {a} (hs : s.MemOk) : (s.dropAccess a).MemOk := hs

theorem State.MemOk.holdAccess {s : State} {a w} (hs : s.MemOk) : (s.holdAccess a w).MemOk := by
  unfold State.holdAccess
  split
  next heq => exact hs.dropAccess.postRecord heq
  · exact hs

theorem State.MemOk.holdBehind {s : State} (hs : s.MemOk) : s.holdBehind.MemOk := by
  unfold State.holdBehind
  refine hs.foldl (fun v x hu => ?_)
  split
  · exact hu
  · split
    · exact hu.holdAccess
    · exact hu

theorem State.MemOk.sendAgain {s t : State} {r} (hs : s.MemOk) (h : s.sendAgain r = some t) : t.MemOk := by
  unfold State.sendAgain at h
  dsimp only at h
  split at h
  · split at h <;> cases h
    exact hs
  · split at h <;> cases h
    exact hs
  · cases h
    exact hs
  · split at h <;> cases h
    exact hs
  · split at h <;> cases h
    exact hs

theorem State.MemOk.pump {s : State} {rs} (hs : s.MemOk) : (s.pump rs).MemOk := by
  induction rs generalizing s with
  | nil => exact hs
  | cons r rs ih =>
    unfold State.pump
    split
    next heq => exact ih (hs.sendAgain heq)
    · exact hs

theorem State.MemOk.uret {s : State} {i replay} (hs : s.MemOk) : (s.uret i replay).MemOk := by
  unfold State.uret
  dsimp only
  split
  · exact hs.trapWord
  · split
    · exact hs.trapWord
    · split
      · exact hs.trap
      · split
        · exact hs.trap
        · split
          · exact .pump (.count (State.MemOk.holdBehind hs))
          · exact .count hs

/-! ### The fetch and the records in flight -/

theorem State.MemOk.icacheRoom {s : State} {core k} (hs : s.MemOk) : (s.icacheRoom core k).MemOk := by
  unfold State.icacheRoom
  extract_lets _
  clear_value *
  split
  · exact hs
  · split
    next heq =>
      have hu := hs.drawNat.snd heq
      exact hu

theorem State.MemOk.fetchHalf {s : State} {va} (hs : s.MemOk) : (s.fetchHalf va).2.MemOk := by
  unfold State.fetchHalf
  dsimp only
  split
  · split
    next heq => exact hs.translate.snd heq
    next heq => exact hs.translate.snd heq
    next heq =>
      have hu := hs.translate.snd heq
      split
      · exact hu
      · split
        · exact hu
        · split
          · exact hu.useHbm.icacheRoom
          · exact hu.perhapsEvicted.useHbm.icacheRoom
  · split
    · exact hs.drawBit
    · split
      next heq => exact hs.drawBit.translate.snd heq
      next heq => exact hs.drawBit.translate.snd heq
      next heq =>
        have hu := hs.drawBit.translate.snd heq
        split
        · exact hu
        · split
          · exact hu
          · split
            · exact hu.useHbm.icacheRoom
            · exact hu.perhapsEvicted.useHbm.icacheRoom

theorem State.MemOk.fetch {s : State} (hs : s.MemOk) : s.fetch.2.MemOk := by
  unfold State.fetch
  extract_lets _
  clear_value *
  split
  next heq => exact hs.fetchHalf.snd heq
  next heq =>
    have hu := hs.fetchHalf.snd heq
    split
    · exact hu
    · split
      next heq' =>
        exact hu.fetchHalf.snd heq'
      next heq' =>
        have hv := hu.fetchHalf.snd heq'
        extract_lets _
        clear_value *
        split
        · exact hv
        · split
          next heq'' =>
            exact hv.fetchHalf.snd heq''
          next heq'' =>
            have hw := hv.fetchHalf.snd heq''
            split
            · exact hw
            · split
              next heq'' =>
                exact hw.fetchHalf.snd heq''
              next heq'' =>
                exact hw.fetchHalf.snd heq''

theorem State.MemOk.interlock {s t : State} {i} (hs : s.MemOk) (h : s.interlock i = .taken t) : t.MemOk := by
  unfold State.interlock at h
  split at h
  · cases h
    exact hs.report
  · split at h
    · cases h
    · split at h <;> cases h

end Sys2Proof.Machine
end

section
/-!
PROOF. Memories stay canonical (O56): scalar, lane and control instructions.
-/
namespace Sys2Proof.Machine
open Sys2Proof

/-! ### Results -/

theorem State.MemOk.raise {s : State} {f} (hs : s.MemOk) : (s.raise f).MemOk := hs

theorem State.MemOk.result {s : State} {d v} (hs : s.MemOk) : (s.result d v).MemOk := hs.setX.retire

/-! ### Lane instructions -/

theorem State.MemOk.deliverLane {s : State} {len named o} (hs : s.MemOk) : (s.deliverLane len named o).MemOk := by
  unfold State.deliverLane
  extract_lets u v
  have hu : u.MemOk := by
    unfold u
    split
    · exact hs.writeF
    · exact hs
  have hv : v.MemOk := by
    unfold v
    split
    · exact hu.setX
    · exact hu
  clear_value *
  exact hv.raise.advanceStreams.retire

theorem State.MemOk.whenStreams {s : State} {named : List Reg} {f : State → State} (hs : s.MemOk) (hf :
    ∀ u, u.MemOk → (f u).MemOk) :
    (s.whenStreams named f).MemOk := State.MemOk.ite (hs.whenFree hf) (hf s hs)

theorem State.MemOk.runLane {s : State} {len reads writes f} (hs : s.MemOk) : (s.runLane len reads writes f).MemOk := by
  unfold State.runLane
  split
  · exact hs.trap
  · split
    · exact hs.trap
    · exact hs.whenStreams (fun _ hu => hu.deliverLane)

theorem State.MemOk.rawLane {s : State} {len reads d f} (hs : s.MemOk) : (s.rawLane len reads d f).MemOk := hs.runLane

theorem State.MemOk.binLane {s : State} {m len t d a b op} (hs : s.MemOk) : (s.binLane m len t d a b op).MemOk := hs.runLane

theorem State.MemOk.unLane {s : State} {m len t d a op} (hs : s.MemOk) : (s.unLane m len t d a op).MemOk := hs.runLane

theorem State.MemOk.laneAdd {s : State} {m len t d a b} (hs : s.MemOk) : (s.laneAdd m len t d a b).MemOk := hs.binLane

theorem State.MemOk.laneSub {s : State} {m len t d a b} (hs : s.MemOk) : (s.laneSub m len t d a b).MemOk := hs.binLane

theorem State.MemOk.laneMul {s : State} {m len t d a b} (hs : s.MemOk) : (s.laneMul m len t d a b).MemOk := hs.binLane

theorem State.MemOk.lanePick {s : State} {m len greater t d a b} (hs : s.MemOk) : (s.lanePick m len greater t d a b).MemOk :=
  hs.binLane

theorem State.MemOk.laneDiv {s : State} {m len t d a b} (hs : s.MemOk) : (s.laneDiv m len t d a b).MemOk := hs.binLane

theorem State.MemOk.laneSqrt {s : State} {m len t d a} (hs : s.MemOk) : (s.laneSqrt m len t d a).MemOk := hs.unLane

theorem State.MemOk.laneRcp {s : State} {m len t d a} (hs : s.MemOk) : (s.laneRcp m len t d a).MemOk := hs.unLane

theorem State.MemOk.laneRsq {s : State} {m len t d a} (hs : s.MemOk) : (s.laneRsq m len t d a).MemOk := hs.unLane

theorem State.MemOk.laneExp2 {s : State} {m len t d a} (hs : s.MemOk) : (s.laneExp2 m len t d a).MemOk := hs.unLane

theorem State.MemOk.laneLog2 {s : State} {m len t d a} (hs : s.MemOk) : (s.laneLog2 m len t d a).MemOk := hs.unLane

theorem State.MemOk.laneMov {s : State} {m len t d a} (hs : s.MemOk) : (s.laneMov m len t d a).MemOk := by
  unfold State.laneMov
  split
  · exact hs.rawLane
  · exact hs.unLane

theorem State.MemOk.laneSign {s : State} {m len t d a neg} (hs : s.MemOk) : (s.laneSign m len t d a neg).MemOk := by
  unfold State.laneSign
  extract_lets _
  clear_value *
  split
  · exact hs.rawLane
  · exact hs.unLane

theorem State.MemOk.laneShift {s : State} {t d a b op} (hs : s.MemOk) : (s.laneShift t d a b op).MemOk := hs.rawLane

theorem State.MemOk.laneFma {s : State} {m len negP negZ t d a b c} (hs : s.MemOk) : (s.laneFma m len negP negZ t d a b c).MemOk :=
  hs.runLane

theorem State.MemOk.laneCmp {s : State} {t d a b p} (hs : s.MemOk) : (s.laneCmp t d a b p).MemOk := hs.runLane

theorem State.MemOk.laneReduce {s : State} {m len t d a combine} (hs : s.MemOk) : (s.laneReduce m len t d a combine).MemOk :=
  hs.runLane

theorem State.MemOk.laneReducePick {s : State} {m len greater t d a} (hs : s.MemOk) :
    (s.laneReducePick m len greater t d a).MemOk :=
  hs.laneReduce

theorem State.MemOk.laneDot {s : State} {m len t d a b} (hs : s.MemOk) : (s.laneDot m len t d a b).MemOk := hs.runLane

theorem State.MemOk.laneCvt {s : State} {m len src dst d a} (hs : s.MemOk) : (s.laneCvt m len src dst d a).MemOk := hs.runLane

theorem execVq8_memOk {s : State} {t d a b} (hs : s.MemOk) : MemOkAfter (execVq8 t d a b s) := by
  unfold execVq8
  split
  · exact hs.trap
  · extract_lets _ _ _ _ _ _
    clear_value *
    split
    · exact hs.trap
    · split
      · exact hs.trap
      · refine hs.whenStreams (fun v hu => ?_)
        extract_lets u
        have hu : u.MemOk := hu.deliverLane
        clear_value *
        split
        · split
          · exact hu
          · exact hu.putBlock.setStream
        · exact hu

theorem State.MemOk.runModified {s t : State} {m i} (hs : s.MemOk) (h : s.runModified m i = some t) : t.MemOk := by
  unfold State.runModified at h
  split at h <;> cases h
  · exact hs.laneAdd
  · exact hs.laneSub
  · exact hs.laneMul
  · exact hs.lanePick
  · exact hs.lanePick
  · exact hs.laneDiv
  · exact hs.laneSqrt
  · exact hs.laneRcp
  · exact hs.laneRsq
  · exact hs.laneExp2
  · exact hs.laneLog2
  · exact hs.laneSign
  · exact hs.laneSign
  · exact hs.laneMov
  · exact hs.laneReducePick
  · exact hs.laneReducePick
  · exact hs.laneDot
  · exact hs.laneCvt
  · exact hs.laneFma
  · exact hs.laneFma
  · exact hs.laneFma
  · exact hs.laneFma

theorem execModifierWord_memOk {s : State} {m follower} (hs : s.MemOk) : MemOkAfter (execModifierWord m follower s) := by
  unfold execModifierWord
  extract_lets _ _
  clear_value *
  split
  · exact hs.trapWord
  · split
    · exact hs.trap
    · split
      next heq => exact hs.runModified heq
      · exact hs.trapWord

/-! ### Branches, loops and the privileged returns -/

theorem State.MemOk.transfer {s : State} {g : Word} {f : State → State} (hs : s.MemOk) (hf : ∀ u, u.MemOk → (f u).MemOk) :
    (s.transfer g f).MemOk := by
  unfold State.transfer
  split
  · exact hs.trap
  · split
    · exact hs.trap
    · exact (hf s hs).retireTo

theorem State.MemOk.branch {s : State} {c o} (hs : s.MemOk) : (s.branch c o).MemOk := by
  unfold State.branch
  split
  · exact hs.transfer (fun _ hu => hu)
  · exact hs.retire

theorem State.MemOk.loopStart {s : State} {i count e} (hs : s.MemOk) : (s.loopStart i count e).MemOk := by
  unfold State.loopStart
  extract_lets _ _ _
  clear_value *
  split
  · exact hs.trapWord
  · split
    · split
      next heq =>
        have hu := hs.fetchHalf.snd heq
        exact hu.trap
      next heq =>
        have hu := hs.fetchHalf.snd heq
        exact hu.retireSkip
    · split
      · exact hs.setTh.count
      · split
        · split
          · exact hs.trapWord
          · exact hs.setTh.count
        · exact hs.trapWord

theorem execSrd_memOk {s : State} {d n} (hs : s.MemOk) : MemOkAfter (execSrd d n s) := by
  unfold execSrd
  split
  · exact hs.result
  · exact hs.trapWord

theorem execSwr_memOk {s : State} {n a} (hs : s.MemOk) : MemOkAfter (execSwr n a s) := by
  unfold execSwr
  split
  · exact hs.trapWord
  · split
    · exact hs.trapWord
    · extract_lets u
      have hu : u.MemOk := hs.retire
      clear_value *
      split
      · exact hu.setTh
      · exact hu

theorem execSys_memOk {s : State} {a} (hs : s.MemOk) : MemOkAfter (execSys a s) := by
  unfold execSys
  split
  · exact hs.trapWord
  · exact hs.trap

theorem execBrk_memOk {s : State} (hs : s.MemOk) : MemOkAfter (execBrk s) := by
  unfold execBrk
  split
  · exact hs.trapWord
  · exact hs.trapWord

theorem execYield_memOk {s : State} (hs : s.MemOk) : MemOkAfter (execYield s) := by
  unfold execYield
  split
  · exact hs.trapWord
  · exact hs.dropIcache.seesCode.retire

theorem State.MemOk.leave {s : State} {value} (hs : s.MemOk) : (s.leave value).MemOk := by
  unfold State.leave
  extract_lets _ u v w
  have hu : u.MemOk := hs.count.releasedAll.noteGot.mapOwners
  have hv : v.MemOk := State.MemOk.ite hu.releaseUnit hu
  have hw : w.MemOk := by
    unfold w
    split
    · exact hv.putGang
    · exact hv
  clear_value *
  exact hw.endClaims.freeSlot.endRank

theorem execExit_memOk {s : State} {a} (hs : s.MemOk) : MemOkAfter (execExit a s) := by
  unfold execExit
  split
  · exact hs.trapWord
  · split
    · exact hs.takeParked
    · extract_lets _
      clear_value *
      split
      · exact hs.stall.inRelease
      · exact hs.leave

end Sys2Proof.Machine
end

section
/-!
PROOF. Memories stay canonical (O56): accesses, sync words, packets, barriers and launches.
-/
namespace Sys2Proof.Machine
open Sys2Proof

/-! ### Loads, stores, atomics and fences -/

theorem State.MemOk.issue {s : State} {a named} (hs : s.MemOk) : (s.issue a named).MemOk := by
  have hu := hs.advanceStreams (rs := named)
  exact .retire hu

theorem State.MemOk.issueWhenFree {s : State} {a named} (hs : s.MemOk) : (s.issueWhenFree a named).MemOk := by
  unfold State.issueWhenFree
  split
  · exact hs.issue
  · exact hs.stall

theorem execLdg_memOk {s : State} {o z sg d a i} (hs : s.MemOk) : MemOkAfter (execLdg o z sg d a i s) := by
  unfold execLdg
  extract_lets _ _
  clear_value *
  split
  · exact hs.trap
  · exact hs.issueWhenFree

theorem execStg_memOk {s : State} {o z d a i} (hs : s.MemOk) : MemOkAfter (execStg o z d a i s) := by
  unfold execStg
  extract_lets _ _
  clear_value *
  split
  · exact hs.trap
  · exact hs.afterRelease (fun _ hu => hu.issueWhenFree)

theorem execLdgV_memOk {s : State} {o d a i} (hs : s.MemOk) : MemOkAfter (execLdgV o d a i s) := by
  unfold execLdgV
  extract_lets _
  clear_value *
  split
  · exact hs.trap
  · split
    · exact hs.trap
    · split
      · exact hs.trap
      · split
        · exact hs.trap
        · exact hs.issueWhenFree

theorem execStgV_memOk {s : State} {o d a i} (hs : s.MemOk) : MemOkAfter (execStgV o d a i s) := by
  unfold execStgV
  extract_lets _
  clear_value *
  split
  · exact hs.trap
  · split
    · exact hs.trap
    · split
      · exact hs.trap
      · split
        · exact hs.trap
        · exact hs.afterRelease (fun _ hu => hu.issueWhenFree)

theorem State.MemOk.gangAcquire {s : State} {o la n} (hs : s.MemOk) : (s.gangAcquire o la n).MemOk := by
  unfold State.gangAcquire
  extract_lets _
  clear_value *
  split
  · exact hs.readLocWords.acquire
  · exact hs

theorem State.MemOk.ownPut {s : State} {la bs} (hs : s.MemOk) : (s.ownPut la bs).MemOk := hs.putLoc

theorem execLdl_memOk {s : State} {o z sg d a i} (hs : s.MemOk) : MemOkAfter (execLdl o z sg d a i s) := by
  unfold execLdl
  extract_lets _ _
  clear_value *
  split
  · exact hs.trap
  · exact hs.whenFree (fun _ hu => hu.gangAcquire.setX.retire)

theorem execStl_memOk {s : State} {o z d a i} (hs : s.MemOk) : MemOkAfter (execStl o z d a i s) := by
  unfold execStl
  extract_lets _ _
  clear_value *
  split
  · exact hs.trap
  · exact hs.afterRelease (fun _ hu => hu.whenFree (fun _ hv => hv.ownPut.retire))

theorem execLdlV_memOk {s : State} {o d a i} (hs : s.MemOk) : MemOkAfter (execLdlV o d a i s) := by
  unfold execLdlV
  extract_lets _
  clear_value *
  split
  · exact hs.trap
  · split
    · exact hs.trap
    · exact hs.whenFree (fun _ hu => hu.gangAcquire.writeF.advanceStreams.retire)

theorem execStlV_memOk {s : State} {o d a i} (hs : s.MemOk) : MemOkAfter (execStlV o d a i s) := by
  unfold execStlV
  extract_lets _
  clear_value *
  split
  · exact hs.trap
  · split
    · exact hs.trap
    · exact hs.afterRelease (fun _ hu => hu.whenFree (fun _ hv => hv.ownPut.advanceStreams.retire))

theorem State.MemOk.atomic {s : State} {op o d a b} (hs : s.MemOk) : (s.atomic op o d a b).MemOk := by
  unfold State.atomic
  extract_lets _
  clear_value *
  split
  · exact hs.trap
  · exact hs.afterRelease (fun _ hu => hu.issueWhenFree)

theorem State.MemOk.localAtomic {s : State} {fn z d a b} (hs : s.MemOk) : (s.localAtomic fn z d a b).MemOk := by
  unfold State.localAtomic
  extract_lets _ _
  clear_value *
  split
  · exact hs.trap
  · exact hs.whenFree (fun _ hu => hu.ownPut.setX.retire)

theorem State.MemOk.accessWait {s t : State} {p n} (hs : s.MemOk) (h : s.accessWait p n = .taken t) : t.MemOk := by
  unfold State.accessWait at h
  dsimp only at h
  split at h
  · split at h <;> cases h
  · split at h
    · cases h
      exact hs.takeParked
    · split at h <;> cases h

theorem State.MemOk.arm {s : State} (hs : s.MemOk) : s.arm.MemOk := hs.mapPast

theorem execCwait_memOk {s : State} {k n} (hs : s.MemOk) : MemOkAfter (execCwait k n s) := by
  unfold execCwait
  split
  · exact hs.trapWord
  · split
    · exact hs.run (fun _ h => hs.accessWait h) (fun _ hu => hu.retire)
    · exact hs.run (fun _ h => hs.accessWait h) (fun _ hu => (State.MemOk.ite hu.arm hu).retire)
    · split
      · exact hs.retire
      · exact hs.stall
    · split
      · exact hs.retire
      · exact hs.stall
    · split
      · exact hs.retire
      · exact hs.stall
    · split
      · exact hs.retire
      · exact hs.stall
    · split
      · exact hs.retire
      · exact hs.stall

theorem State.MemOk.fenceTo {s : State} {f t} (hs : s.MemOk) : (s.fenceTo f t).MemOk := hs

theorem State.MemOk.seeEntries {s : State} (hs : s.MemOk) : s.seeEntries.MemOk := hs

theorem execXfence_memOk {s : State} {f t} (hs : s.MemOk) : MemOkAfter (execXfence f t s) := by
  unfold execXfence
  split
  · exact hs.retire
  · exact hs.run (fun _ h => hs.accessWait h) (fun _ hu => hu.fenceTo.retire)
  · exact hs.adoptPath.fenceTo.seeEntries.retire
  · exact hs.adoptPath.fenceTo.retire
  · exact hs.fenceTo.retire

theorem State.MemOk.onSyncWord {s : State} {a : Reg} {f : Nat → State} (hs : s.MemOk) (hf : ∀ la, (f la).MemOk) :
    (s.onSyncWord a f).MemOk := by
  unfold State.onSyncWord
  dsimp only
  split
  · exact hs.trap
  · exact hf _

theorem State.MemOk.ownTouch {s : State} {la} (hs : s.MemOk) : (s.ownTouch la).MemOk := hs.touchLoc

theorem execSwadd_memOk {s : State} {a b} (hs : s.MemOk) : MemOkAfter (execSwadd a b s) :=
  hs.onSyncWord (fun _ => hs.afterRelease (fun _ hv => hv.whenFree (fun _ hw => hw.ownPut.retire)))

theorem execSwwait_memOk {s : State} {a b} (hs : s.MemOk) : MemOkAfter (execSwwait a b s) := by
  unfold execSwwait
  split
  · exact hs.trapWord
  · exact hs.onSyncWord (fun _ => hs.whenFree (fun _ hv => State.MemOk.ite hv.acquire.ownTouch.setTh.retire hv))

theorem State.MemOk.performAccess {s : State} {ofKind} (hs : s.MemOk) : (s.performAccess ofKind).MemOk := by
  unfold State.performAccess
  dsimp only
  split
  · exact hs
  · split
    · exact hs
    · split
      · exact hs
      · split
        · exact hs.focus.holdAccess
        · split
          · split
            · exact hs.focus.tryRelease
            · split
              next heq =>
                have hu := hs.focus.tryRelease.perform.snd heq
                exact hu.dropAccess
              next heq =>
                have hu := hs.focus.tryRelease.perform.snd heq
                exact hu.holdAccess
              next heq =>
                have hu := hs.focus.tryRelease.perform.snd heq
                exact hu.report
              next heq => exact hs.focus.tryRelease.perform.snd heq
          · split
            · exact hs.focus
            · split
              next heq =>
                have hu := hs.focus.perform.snd heq
                exact hu.dropAccess
              next heq =>
                have hu := hs.focus.perform.snd heq
                exact hu.holdAccess
              next heq =>
                have hu := hs.focus.perform.snd heq
                exact hu.report
              next heq => exact hs.focus.perform.snd heq

theorem execHeldFaultPost_memOk {s : State} (hs : s.MemOk) : MemOkAfter (execHeldFaultPost s) := by
  unfold execHeldFaultPost
  extract_lets u
  have hu : u.MemOk := hs.focus
  clear_value *
  split
  · exact hs
  · split
    · exact hs
    · split
      · exact hs
      · split
        · exact hs
        · exact hu.holdAccess

theorem execSyncWordWake_memOk {s : State} (hs : s.MemOk) : MemOkAfter (execSyncWordWake s) := by
  unfold execSyncWordWake
  extract_lets u _
  have hu : u.MemOk := hs.focus
  clear_value *
  split
  · exact hs
  · split
    · exact hs
    · split
      · exact hu
      · exact hs

/-! ### Packets, barriers and launches -/

theorem execMopen_memOk {s : State} {a b c} (hs : s.MemOk) : MemOkAfter (execMopen a b c s) := by
  unfold execMopen
  extract_lets _ _ _ u _
  have hu : u.MemOk := hs.retire
  clear_value *
  split
  · exact hs.trapWord
  · split
    · exact hs.trap
    · exact hu

theorem State.MemOk.put {s : State} {i n named bytes closing} (hs : s.MemOk) : (s.put i n named bytes closing).MemOk := by
  unfold State.put
  split
  · exact hs.trapWord
  · split
    · exact hs.trapWord
    · split
      · exact hs.trap
      · split
        · exact hs.trap
        · split
          · exact hs.trap
          · refine hs.whenStreams fun u hu => ?_
            dsimp only
            split
            · exact .postCount (.retire (.advanceStreams hu))
            · exact .retire (.advanceStreams hu)

theorem execMessageLanding_memOk {s : State} (hs : s.MemOk) : MemOkAfter (execMessageLanding s) := by
  unfold execMessageLanding
  split
  · exact hs
  · split
    · exact hs
    · exact State.MemOk.putKey hs

theorem execPacketCount_memOk {s : State} (hs : s.MemOk) : MemOkAfter (execPacketCount s) := by
  unfold execPacketCount
  split
  · exact hs
  · split
    · exact hs
    · extract_lets u
      have hu : u.MemOk := hs
      clear_value *
      split
      · exact hu.arriveKey
      · exact hu

theorem State.MemOk.gbar {s : State} {i v d a} (hs : s.MemOk) : (s.gbar i v d a).MemOk := by
  unfold State.gbar
  dsimp only
  split
  · exact hs.trapWord
  · split
    · exact hs.afterRelease fun _ hu => hu
    · split
      · exact hs.trapWord
      · split
        · exact hs.stall
        · have hu := hs.acquire (o := .gang)
          exact .retire (.setX hu)

theorem State.MemOk.mapGang {s : State} {g f} (hs : s.MemOk) : (s.mapGang g f).MemOk := hs

theorem execBarrierComplete_memOk {s : State} (hs : s.MemOk) : MemOkAfter (execBarrierComplete s) := by
  unfold execBarrierComplete
  split
  · exact hs
  · extract_lets _ _
    clear_value *
    split
    · exact hs.putGang.mapGang
    · exact hs

theorem State.MemOk.accept {s : State} {p fn host} (hs : s.MemOk) : (s.accept p fn host).2.MemOk := by
  unfold State.accept
  extract_lets _ _ _
  clear_value *
  exact hs

theorem execLaunch_memOk {s : State} {d a} (hs : s.MemOk) : MemOkAfter (execLaunch d a s) := by
  unfold execLaunch
  extract_lets _
  clear_value *
  split
  · exact hs.trapWord
  · split
    · exact hs.trap
    · refine hs.whenFree (fun v hu => ?_)
      extract_lets _
      clear_value *
      refine hu.afterReleaseWith (fun w hv => ?_)
      extract_lets _ _
      clear_value *
      split
      · split
        next heq =>
          have hw := hv.accept.snd heq
          exact hw.result
      · exact hv.result

theorem execLaunchReplicate_memOk {s : State} (hs : s.MemOk) : MemOkAfter (execLaunchReplicate s) := by
  unfold execLaunchReplicate
  split
  · exact hs
  · split
    · exact hs
    · split
      · exact hs.putLaunch
      · dsimp only
        split
        next heq =>
          have hu := hs.translate.snd heq
          split
          · exact hu
          · split
            · exact hu.putLaunch.closeLaunch
            · exact hu.perhapsEvicted.putLaunch.closeLaunch
        next heq =>
          have hu := hs.translate.snd heq
          exact hu

theorem State.MemOk.updateRelease {s : State} {c} (hs : s.MemOk) : (s.updateRelease c).2.MemOk := by
  unfold State.updateRelease
  split
  · exact hs
  · extract_lets u ws
    have hu : u.MemOk := hs.adopt
    have hv : (if ws.isEmpty then (true, u) else u.drawBit).2.MemOk := by
      split
      · exact hu
      · exact hu.drawBit
    split
    next heq => exact hv.snd heq

theorem State.MemOk.updateReleased {s t : State} {c} (hs : s.MemOk) (h : (s.updateRelease c).1 = some t) : t.MemOk := by
  unfold State.updateRelease at h
  split at h
  · cases h
  · extract_lets u ws at h
    have hu : u.MemOk := hs.adopt
    have hv : (if ws.isEmpty then (true, u) else u.drawBit).2.MemOk := by
      split
      · exact hu
      · exact hu.drawBit
    split at h
    next heq =>
      dsimp only at h
      split at h
      · cases h
        exact (hv.snd heq).through.releaseWhere
      · cases h

theorem execCompletionBlockUpdate_memOk {s : State} (hs : s.MemOk) : MemOkAfter (execCompletionBlockUpdate s) := by
  unfold execCompletionBlockUpdate
  split
  · exact hs
  · split
    · exact hs
    · dsimp only
      split
      next heq => exact hs.updateRelease.snd heq
      next heq =>
        have hu := hs.updateReleased (congrArg Prod.fst heq)
        split
        next heq' =>
          have hv := hu.translate.snd heq'
          split
          · exact hv
          · split
            · exact State.MemOk.same hv.atomicAt rfl rfl
            · exact State.MemOk.same hv.atomicAt rfl rfl
        next heq' =>
          have hv := hu.translate.snd heq'
          exact hv

end Sys2Proof.Machine
end

section
/-!
PROOF. Memories stay canonical (O56): table commands, NMUs and their handlers.
-/
namespace Sys2Proof.Machine
open Sys2Proof

/-! ### Tracked words and engines -/

theorem State.MemOk.reportOwner {s : State} {o pa} (hs : s.MemOk) : (s.reportOwner o pa).MemOk := by
  unfold State.reportOwner
  split
  · exact hs.focus.report
  · exact hs

theorem State.MemOk.enginePages {s : State} {r va n} (hs : s.MemOk) : (s.enginePages r va n).2.MemOk := by
  unfold State.enginePages
  split
  · exact hs
  · split
    next heq => exact hs.translateAll.snd heq
    next heq => exact hs.translateAll.snd heq
    next heq =>
      have hu := hs.translateAll.snd heq
      split
      · exact hu
      · exact hu

theorem State.MemOk.engineRead {s : State} {v r va n} (hs : s.MemOk) : (s.engineRead v r va n).2.MemOk := by
  unfold State.engineRead
  split
  next heq => exact hs.enginePages.snd heq
  next heq =>
    have hu := hs.enginePages.snd heq
    split
    · exact hu
    · exact hu
    · split
      next heq' =>
        exact hu.readParts.snd heq'

theorem State.MemOk.engineWrite {s : State} {v r va size bs} (hs : s.MemOk) : (s.engineWrite v r va size bs).2.MemOk := by
  unfold State.engineWrite
  split
  next heq => exact hs.enginePages.snd heq
  next heq =>
    have hu := hs.enginePages.snd heq
    split
    · exact hu
    · exact hu
    · exact hu.storeParts.foldl (fun _ _ hu => hu.useHbm)

/-! ### Table commands -/

theorem State.MemOk.storeRow {s : State} {v pa bs} (hs : s.MemOk) : (s.storeRow v pa bs).MemOk := by
  unfold State.storeRow
  extract_lets u
  have hu : u.MemOk := hs.foldl (fun _ _ hu => hu.noteWord)
  clear_value *
  exact hu.perhapsEvicted.physWrite

theorem State.MemOk.putRowBytes {s : State} {v pa bs} (hs : s.MemOk) : (s.putRowBytes v pa bs).MemOk := hs.storeRow

theorem State.MemOk.putNmu {s : State} {n u} (hs : s.MemOk) : (s.putNmu n u).MemOk := hs

theorem State.MemOk.dropLostClaim {s : State} {o} (hs : s.MemOk) : (s.dropLostClaim o).MemOk := by
  unfold State.dropLostClaim
  split
  · exact hs.endClaims
  · exact hs

theorem State.MemOk.table {s : State} {op a} (hs : s.MemOk) : (s.table op a).MemOk := by
  unfold State.table
  extract_lets _
  clear_value *
  split
  · exact hs.trap
  · refine hs.whenFree (fun v hu => ?_)
    extract_lets _ _ _
    clear_value *
    split
    · exact hu.trap
    · split
      · exact hu.trap
      · split
        · exact hu.stallWith
        · exact State.MemOk.retire hu

theorem State.MemOk.translateVas {s : State} {r vas} (hs : s.MemOk) : (s.translateVas r vas).2.MemOk := by
  induction vas generalizing s with
  | nil => exact hs
  | cons va vas ih =>
    unfold State.translateVas
    split
    · exact hs
    · split
      next heq => exact hs.translate.snd heq
      next heq => exact hs.translate.snd heq
      next heq =>
        have hu := ih (hs.translate.snd heq)
        split
        next heq' =>
          exact hu.snd heq'
        next heq' =>
          exact hu.snd heq'

theorem State.MemOk.tableEffect {s : State} {c t ps} (hs : s.MemOk) : (s.tableEffect c t ps).2.2.MemOk := by
  unfold State.tableEffect
  extract_lets _ _ _ u _ _
  have hu : u.MemOk := hs.foldl (fun _ _ hu => hu.perhapsEvicted)
  clear_value *
  split
  · exact hu
  · split
    · exact hu
    · extract_lets w _
      have hw : w.MemOk := hu.putNmu
      clear_value *
      split
      · split
        · exact hw
        · split
          · exact hw
          · exact hw
          · exact hw.putNmu.use
      · split
        · exact hw
        · split
          · exact hw
          · split
            · exact hw
            · exact hw
            · extract_lets _
              clear_value *
              exact hw.putNmu.use.use
      · split
        · exact hw
        · split
          · exact hw
          · exact hw.putElems.use
      · split
        · extract_lets _ _ _
          clear_value *
          exact hw.putElems.putNmu

theorem State.MemOk.tableDone {s : State} {c status bad} (hs : s.MemOk) : (s.tableDone c status bad).MemOk := by
  unfold State.tableDone
  extract_lets u
  have hu : u.MemOk := hs.putEngine.arrive.dropLostClaim
  clear_value *
  split
  · exact hu.reportOwner
  · exact hu

theorem State.MemOk.tableExec {s : State} {op} (hs : s.MemOk) : (s.tableExec op).MemOk := by
  unfold State.tableExec
  split
  · exact hs
  · split
    · exact hs
    · dsimp only
      split
      next heq => exact hs.translateVas.snd heq
      next heq =>
        have hu := hs.translateVas.snd heq
        split
        · exact hu
        · split
          next heq' =>
            have hv := hu.focus.postRecord heq'
            exact hv
          · exact hs
      next heq => exact hs.translateVas.snd heq
      next heq =>
        have hu := hs.translateVas.snd heq
        split
        · exact hs
        · exact .tableDone (.tableEffect hu)

/-! ### Messages, handlers and microinstructions -/

theorem execNmsend_memOk {s : State} {a} (hs : s.MemOk) : MemOkAfter (execNmsend a s) := by
  unfold execNmsend
  extract_lets _
  clear_value *
  split
  · exact hs.trap
  · exact hs.whenFree (fun _ hu =>
      .ite hu.trap (.ite hu.trap (.ite hu.stallWith (State.MemOk.retire hu))))

theorem execNmstat_memOk {s : State} {d a} (hs : s.MemOk) : MemOkAfter (execNmstat d a s) := by
  unfold execNmstat
  extract_lets _
  clear_value *
  split
  · exact hs.trap
  · exact hs.issueWhenFree

theorem State.MemOk.endMessage {s : State} {m ms status} (hs : s.MemOk) : (s.endMessage m ms status).MemOk :=
  hs.putElems.putEngine.arrive.dropLostClaim

theorem execNmuMessageArrival_memOk {s : State} (hs : s.MemOk) : MemOkAfter (execNmuMessageArrival s) := by
  unfold execNmuMessageArrival
  split
  · exact hs
  · dsimp only
    split
    next heq => exact hs.translateVas.snd heq
    next heq =>
      have hu := hs.translateVas.snd heq
      split
      · exact hu
      · split
        next heq' =>
          have hv := hu.focus.postRecord heq'
          exact hv
        · exact hs
    next heq =>
      have hu := hs.translateVas.snd heq
      split
      · exact hs
      · split
        · split
          · exact hs
          · exact State.MemOk.endMessage hu
        · split
          · exact hs
          · exact State.MemOk.putNmu hu

theorem State.MemOk.setHandler {s : State} {n h} (hs : s.MemOk) : (s.setHandler n h).MemOk := hs.putNmu

theorem State.MemOk.endHandler {s : State} {n h status} (hs : s.MemOk) : (s.endHandler n h status).MemOk := hs.putNmu.endMessage

theorem State.MemOk.stopHandler {s : State} {n h kind bank column} (hs : s.MemOk) : (s.stopHandler n h kind bank column).MemOk := by
  unfold State.stopHandler
  split
  next heq =>
    have hu := hs.postNotice.snd heq
    exact hu.setHandler

theorem State.MemOk.settle {s : State} {n h e} (hs : s.MemOk) : (s.settle n h e).MemOk := by
  unfold State.settle
  split
  · exact hs.endHandler
  · exact hs.endHandler.reportOwner
  · exact hs.stopHandler

theorem State.MemOk.rowNow {s : State} {h v pa} (hs : s.MemOk) : (s.rowNow h v pa).2.2.MemOk := by
  unfold State.rowNow
  dsimp only
  split
  · exact hs
  · split
    next heq =>
      have hu := State.MemOk.snd_of heq (State.MemOk.translate hs)
      split
      · exact hu
      · exact hu
    next heq => exact State.MemOk.snd_of heq (State.MemOk.translate hs)

theorem State.MemOk.putRowOf {s : State} {h key pa bs} (hs : s.MemOk) : (s.putRowOf h key pa bs).MemOk := by
  unfold State.putRowOf
  cases key with
  | none => exact hs.putRowBytes
  | some k => exact hs.setD.putRowBytes

theorem State.MemOk.writeRow {s t : State} {h v bs} (hs : s.MemOk) (ht : s.writeRow h v bs = .ok t) : t.MemOk := by
  unfold State.writeRow at ht
  split at ht
  · cases ht
  · cases ht
    exact .use (State.MemOk.putRowOf hs.rowNow)

theorem State.MemOk.zeroRow {s t : State} {h v} (hs : s.MemOk) (ht : s.zeroRow h v = .ok t) : t.MemOk := by
  unfold State.zeroRow at ht
  generalize List.replicate 1024 (0 : Byte) = bs at ht
  split at ht
  · cases ht
  · dsimp only at ht
    split at ht
    · cases ht
    · cases ht
      exact .use (State.MemOk.putRowOf hs.rowNow)

theorem State.MemOk.marks {s : State} {p b w} (hs : s.MemOk) : ({ s with poison := p, bad := b, weak := w } : State).MemOk := hs

theorem State.MemOk.copyRow {s t : State} {h v w} (hs : s.MemOk) : s.copyRow h v w = .ok t → t.MemOk := by
  unfold State.copyRow
  split
  · exact fun ht => nomatch ht
  · split
    · exact fun ht => nomatch ht
    · split
      next heq =>
        have hrow := hs.rowNow.trd heq
        split
        · exact fun ht => nomatch ht
        · extract_lets near
          split
          · exact fun ht => nomatch ht
          next put marked moved _ _ =>
            intro ht
            have hput : put.MemOk := hrow.putRowOf
            have hmark : marked.MemOk := hput.marks
            rw [← Except.ok.inj ht]
            exact .use (State.MemOk.ite hmark.marks hmark)

theorem State.MemOk.claimNmu {s t : State} {n h} (hs : s.MemOk) (ht : s.claimNmu n h = .ok t) : t.MemOk := by
  unfold State.claimNmu at ht
  split at ht
  · cases ht
    exact hs.putNmu
  · cases ht

theorem State.MemOk.map {r : Except HandlerEnd State} {f : State → State} (hr : ∀ u, r = .ok u → u.MemOk) (hf :
    ∀ u, u.MemOk → (f u).MemOk) :
    ∀ t, r.map f = .ok t → t.MemOk := by
  cases r with
  | error e => exact fun _ ht => nomatch ht
  | ok u =>
    intro t ht
    cases ht
    exact hf u (hr u rfl)

theorem State.MemOk.finish {s : State} {h : Handler} {r : Except HandlerEnd State} (hs : s.MemOk) (hr : ∀ u, r = .ok u → u.MemOk) :
    (finish s h r).2.2.MemOk := by
  cases r with
  | error e => exact hs
  | ok u => exact hr u rfl

/-- What a built-in handler does keeps both memories canonical. -/
def Builtin.MemOk (f : Builtin) : Prop := ∀ s n h, s.MemOk → (f s n h).2.2.MemOk

theorem rowCopy_memOk : Builtin.MemOk rowCopy := fun _ _ _ hs => hs.finish fun _ ht => hs.copyRow ht

theorem rowZero_memOk : Builtin.MemOk rowZero := fun _ _ _ hs => hs.finish fun _ ht => hs.zeroRow ht

theorem indexedReduce_memOk : Builtin.MemOk indexedReduce := by
  intro s n h hs
  unfold indexedReduce
  dsimp only
  split
  · exact hs
  · split
    · exact hs
    · split
      · exact hs
      · split
        · exact hs
        · exact hs.finish (State.MemOk.map (fun _ => hs.writeRow) fun _ hu => hu.use)

theorem tableGather_memOk : Builtin.MemOk tableGather := by
  intro s n h hs
  unfold tableGather
  split
  · exact hs
  · split
    · exact hs
    next heq =>
      have hu := hs.claimNmu heq
      split
      · exact hu
      · split
        · exact hu
        · split
          · exact hu
          · exact hu.finish (State.MemOk.map (fun _ => hu.writeRow) fun _ hv => hv.use.use)

theorem tableMac_memOk : Builtin.MemOk tableMac := by
  intro s n h hs
  unfold tableMac
  split
  · exact hs
  · split
    · exact hs
    next heq =>
      have hu := hs.claimNmu heq
      split
      · exact hu
      · exact hu
      · split
        · exact hu
        · split
          · exact hu
          · split
            · exact hu
            · exact hu
            · exact hu.putNmu.use.use

theorem accumulatorRead_memOk : Builtin.MemOk accumulatorRead := by
  intro s n h hs
  unfold accumulatorRead
  dsimp only
  split
  · exact hs
  · split
    · exact hs
    next heq =>
      have hu := hs.claimNmu heq
      exact hu.finish (State.MemOk.map (fun _ => hu.writeRow) fun _ hv => hv.putNmu.ite hv)

theorem accumulatorClear_memOk : Builtin.MemOk accumulatorClear := by
  intro s n h hs
  unfold accumulatorClear
  dsimp only
  split
  · exact hs
  · split
    · exact hs
    next heq => exact (hs.claimNmu heq).putNmu

theorem statusHandler_memOk : Builtin.MemOk statusHandler := fun _ _ _ hs => hs

theorem State.MemOk.evictFor {s : State} {m} (hs : s.MemOk) : (s.evictFor m).MemOk :=
  hs.foldl (fun _ _ hu => hu.perhapsEvicted.perhapsEvicted)

theorem State.MemOk.builtin {s : State} {k} {f : Builtin} (hs : s.MemOk) (hf : f.MemOk) : (s.builtin k f).MemOk := by
  unfold State.builtin
  dsimp only
  split
  · exact hs
  · exact (hf _ _ _ hs.putNmu.evictFor).settle

theorem execLoadedHandlerStart_memOk {s : State} (hs : s.MemOk) : MemOkAfter (execLoadedHandlerStart s) := by
  unfold execLoadedHandlerStart
  extract_lets _ _
  clear_value *
  split
  · split
    · exact hs.putNmu
    · exact hs
  · exact hs

theorem State.MemOk.micro {s : State} {f : Handler → State} (hs : s.MemOk) (hf : ∀ h, (f h).MemOk) : (s.micro f).MemOk := by
  unfold State.micro
  split
  · exact State.MemOk.ite (hf _) hs
  · exact hs

theorem State.MemOk.microNext {s : State} {h} (hs : s.MemOk) : (s.microNext h).MemOk := hs.setHandler

theorem State.MemOk.microSet {s : State} {d f} (hs : s.MemOk) : (s.microSet d f).MemOk := hs.micro fun _ => hs.microNext

theorem State.MemOk.microRow {s : State} {f : State → Handler → Except HandlerEnd State} (hs : s.MemOk)
    (hf : ∀ u h t, u.MemOk → f u h = .ok t → t.MemOk) : (s.microRow f).MemOk := by
  refine hs.micro fun h => ?_
  split
  next heq => exact (hf _ _ _ hs.evictFor heq).microNext
  · exact hs.settle

theorem execMrdrowRead_memOk {s : State} {a} (hs : s.MemOk) : MemOkAfter (execMrdrowRead a s) := by
  refine hs.microRow fun u h t hu ht => ?_
  cases hr : u.readHandle h h.m[a].toNat with
  | error e =>
    rw [hr] at ht
    cases ht
  | ok bs =>
    rw [hr] at ht
    cases ht
    exact hu.use.setHandler

theorem State.MemOk.macc {s : State} {f} (hs : s.MemOk) : (s.macc f).MemOk := by
  refine hs.micro fun h => ?_
  split
  · exact hs.endHandler
  · exact hs.putNmu.microNext

theorem State.MemOk.microBranch {s : State} {o taken} (hs : s.MemOk) : (s.microBranch o taken).MemOk :=
  hs.micro fun _ => hs.setHandler.ite hs.microNext

theorem execHandlerTimeout_memOk {s : State} (hs : s.MemOk) : MemOkAfter (execHandlerTimeout s) := by
  unfold execHandlerTimeout
  extract_lets _
  clear_value *
  split
  · split
    · exact hs.endHandler
    · exact hs
  · exact hs

theorem execNmresume_memOk {s : State} {a} (hs : s.MemOk) : MemOkAfter (execNmresume a s) := by
  unfold execNmresume
  extract_lets _
  clear_value *
  split
  · exact hs.trap
  · refine hs.whenFree (fun v hu => ?_)
    extract_lets _ _
    clear_value *
    split
    · exact hu.trap
    · split
      · exact hu.trap
      · split
        next heq =>
          have hv := hu.translate.snd heq
          exact hv.trap
        next heq =>
          have hv := hu.translate.snd heq
          exact hv.stall
        next heq =>
          have hv := hu.translate.snd heq
          extract_lets _
          clear_value *
          split
          · exact hv.trap
          · exact State.MemOk.ite hv.stallWith (State.MemOk.retire hv)

theorem execNmresumeApply_memOk {s : State} (hs : s.MemOk) : MemOkAfter (execNmresumeApply s) := by
  unfold execNmresumeApply
  extract_lets _
  clear_value *
  split
  · exact hs
  · dsimp only
    split
    · exact hs
    · split
      · exact hs
      · split
        · exact State.MemOk.setHandler hs
        · exact State.MemOk.ite (State.MemOk.endHandler hs) (State.MemOk.setHandler hs)
        · exact State.MemOk.endHandler hs

theorem State.MemOk.toldStop {s : State} {i raddr} (hs : s.MemOk) : (s.toldStop i raddr).MemOk := hs

theorem execNmload_memOk {s : State} {a} (hs : s.MemOk) : MemOkAfter (execNmload a s) := by
  unfold execNmload
  extract_lets _
  clear_value *
  split
  · exact hs.trapWord
  · split
    · exact hs.trap
    · refine hs.whenFree (fun v hu => ?_)
      extract_lets _ _ _ _ _
      clear_value *
      split
      · exact hu.trap
      · split
        · exact hu.trap
        · split
          · exact hu.trap
          · split
            next heq =>
              have hv := hu.translate.snd heq
              exact hv.trap
            next heq =>
              have hv := hu.translate.snd heq
              exact hv.stall
            next heq =>
              have hv := hu.translate.snd heq
              exact State.MemOk.ite hv.trap (State.MemOk.ite hv.stallWith (State.MemOk.retire hv))

theorem execHandlerLoad_memOk {s : State} (hs : s.MemOk) : MemOkAfter (execHandlerLoad s) := by
  unfold execHandlerLoad
  extract_lets _ _
  clear_value *
  split
  · exact hs
  · split
    · exact hs
    · extract_lets v _
      have hv : v.MemOk := hs.putNmu
      clear_value *
      exact State.MemOk.ite (State.MemOk.arrive hv) hv

end Sys2Proof.Machine
end

section
/-!
PROOF. Memories stay canonical (O56): indexes, leases, copies and the matrix units.
-/
namespace Sys2Proof.Machine
open Sys2Proof

/-! ### Index commands -/

theorem State.MemOk.putIndex {s : State} {handle x} (hs : s.MemOk) : (s.putIndex handle x).MemOk := hs

theorem State.MemOk.sendIndex {s : State} {op r bs handle d rel} (hs : s.MemOk) : (s.sendIndex op r bs handle d rel).MemOk :=
  State.MemOk.retire hs

theorem State.MemOk.indexCmd {s : State} {op rel a} (hs : s.MemOk) : (s.indexCmd op rel a).MemOk := by
  unfold State.indexCmd
  extract_lets _
  clear_value *
  split
  · exact hs.trap
  · exact hs.whenFree (fun _ hu =>
      .ite hu.trap (.ite (.ite hu.stallWith hu.sendIndex) (hu.afterReleaseWith (fun _ hv => .ite hv.stallWith hv.sendIndex))))

theorem State.MemOk.indexAsk {s : State} {op d a} (hs : s.MemOk) : (s.indexAsk op d a).MemOk := by
  unfold State.indexAsk
  split
  · exact hs.stall
  · exact hs.sendIndex

theorem State.MemOk.dropIx {s : State} {k} (hs : s.MemOk) : (s.dropIx k).MemOk := hs

theorem State.MemOk.ixOut {s : State} {c k len v} (hs : s.MemOk) : (s.ixOut c k len v).MemOk := hs.putEngine

theorem State.MemOk.endIx {s : State} {c status} (hs : s.MemOk) : (s.endIx c status).MemOk := hs.ixOut.arrive

theorem State.MemOk.failIx {s : State} {c status va} (hs : s.MemOk) : (s.failIx c status va).MemOk := by
  unfold State.failIx
  extract_lets u v
  have hu : u.MemOk := hs.putFields
  have hv : v.MemOk := by
    unfold v
    split
    · exact hu.ixOut.ixOut.ixOut
    · exact hs.ixOut.ixOut
    · exact hs.ixOut.ixOut
    · exact hs
    · exact hs
  clear_value *
  exact hv.endIx

theorem State.MemOk.failAt {s : State} {c status va lost} (hs : s.MemOk) : (s.failAt c status va lost).MemOk := by
  unfold State.failAt
  extract_lets u
  have hu : u.MemOk := hs.dropIx.failIx
  clear_value *
  split
  · exact hu.reportOwner
  · exact hu

theorem execIndexQueryAccept_memOk {s : State} (hs : s.MemOk) : MemOkAfter (execIndexQueryAccept s) := by
  unfold execIndexQueryAccept
  split
  · exact hs
  · split
    · exact hs.failAt
    · extract_lets _ _
      clear_value *
      split
      · exact hs.failAt
      · split
        · exact hs.failAt
        · split
          · exact hs
          · exact hs

theorem State.MemOk.returnEntries {s : State} {o es} (hs : s.MemOk) : (s.returnEntries o es).MemOk := by
  unfold State.returnEntries
  split
  · exact hs.putThread
  · exact hs

theorem execIndexSearchEnd_memOk {s : State} (hs : s.MemOk) : MemOkAfter (execIndexSearchEnd s) := by
  unfold execIndexSearchEnd
  split
  · exact hs
  · split
    · exact hs.failAt
    · extract_lets _ _
      clear_value *
      split
      · exact hs
      · split
        · exact hs.failAt
        · split
          · exact hs.failAt
          · split
            · exact hs.dropIx.putFields.ixOut.ixOut.ixOut.use.returnEntries.endIx
    · exact hs

theorem execIndexStoreCommit_memOk {s : State} (hs : s.MemOk) : MemOkAfter (execIndexStoreCommit s) := by
  unfold execIndexStoreCommit
  split
  · exact hs
  · split
    · exact hs.failAt
    · extract_lets _ _ _ _ u
      have hu : u.MemOk := hs.dropIx.putIndex.ixOut.ixOut
      clear_value *
      split
      · exact hs.failAt
      · split
        · exact hs.failAt
        · split
          · exact hs.failAt
          · exact hu.use.endIx

theorem execIndexDeleteCommit_memOk {s : State} (hs : s.MemOk) : MemOkAfter (execIndexDeleteCommit s) := by
  unfold execIndexDeleteCommit
  split
  · exact hs
  · split
    · exact hs.failAt
    · split
      · exact hs.failAt
      · exact hs.dropIx.putIndex.ixOut.ixOut.endIx

theorem State.MemOk.answerIx {s : State} {c f} (hs : s.MemOk) : (s.answerIx c f).MemOk := by
  unfold State.answerIx
  extract_lets _ u
  have hu : u.MemOk := hs.dropIx
  clear_value *
  split
  · exact hu.focus.setX
  · exact hu

theorem execIndexSnapshotAccept_memOk {s : State} (hs : s.MemOk) : MemOkAfter (execIndexSnapshotAccept s) := by
  unfold execIndexSnapshotAccept
  split
  · exact hs
  · exact hs.answerIx

theorem execIndexStatAccept_memOk {s : State} (hs : s.MemOk) : MemOkAfter (execIndexStatAccept s) := by
  unfold execIndexStatAccept
  split
  · exact hs
  · exact hs.answerIx

theorem execIxcreate_memOk {s : State} {d a} (hs : s.MemOk) : MemOkAfter (execIxcreate d a s) := by
  unfold execIxcreate
  extract_lets _ _
  clear_value *
  split
  · exact hs.trapWord
  · split
    · exact State.MemOk.result hs
    · split
      · exact hs.stall
      · split
        · exact hs.trap
        · exact hs.whenFree (fun _ hu => State.MemOk.ite hu.trap hu)

theorem State.MemOk.regionFrames {s : State} {o home va n need} (hs : s.MemOk) : (s.regionFrames o home va n need).2.MemOk := by
  unfold State.regionFrames
  split
  · exact hs
  · extract_lets _
    clear_value *
    split
    next heq =>
      have hu := hs.translateVas.snd heq
      split
      · exact hu
      · exact hu
    next heq => exact hs.translateVas.snd heq

theorem State.MemOk.creating {s t : State} {op r bs} (hs : s.MemOk) (h : s.creating op = some (r, bs, t)) : t.MemOk := by
  unfold State.creating at h
  dsimp only at h
  split at h
  · cases h
  · split at h
    · split at h <;> cases h
      exact hs.focus
    · cases h

theorem State.MemOk.answerCreate {s : State} {w} (hs : s.MemOk) : (s.answerCreate w).MemOk := hs

theorem execIndexCreate_memOk {s : State} (hs : s.MemOk) : MemOkAfter (execIndexCreate s) := by
  unfold execIndexCreate
  split
  · exact hs
  next heq =>
    have hu := hs.creating heq
    dsimp only
    split
    · exact hu.answerCreate
    · split
      next heq' =>
        exact (hu.regionFrames.snd heq').answerCreate
      next heq' =>
        have hv := hu.regionFrames.snd heq'
        split
        · exact hv.answerCreate
        · exact hv.drawNat.putIndex.putEngine.answerCreate

theorem State.MemOk.leaveRegion {s : State} {x} (hs : s.MemOk) : (s.leaveRegion x).MemOk := hs.foldl (fun _ _ hu => hu.hubWrite)

theorem State.MemOk.destroyIndex {s : State} {handle x} (hs : s.MemOk) : (s.destroyIndex handle x).MemOk :=
  State.MemOk.leaveRegion (State.MemOk.foldl hs (fun _ _ hu => hu.failIx))

theorem execIndexDestroy_memOk {s : State} (hs : s.MemOk) : MemOkAfter (execIndexDestroy s) := by
  unfold execIndexDestroy
  split
  · exact hs
  next heq =>
    have hu := hs.creating heq
    dsimp only
    split
    · exact hu.answerCreate
    · exact hu.destroyIndex.answerCreate

/-! ### Leases and budgets -/

theorem State.MemOk.endLease {s : State} (hs : s.MemOk) : s.endLease.MemOk := hs

theorem execLease_memOk {s : State} {d a} (hs : s.MemOk) : MemOkAfter (execLease d a s) := by
  unfold execLease
  extract_lets _ _ _ u
  have hu : u.MemOk := hs.endLease
  clear_value *
  split
  · exact hs.result
  · split
    next heq =>
      have hv := hu.drawBit.snd heq
      extract_lets _ _ v
      have hv : v.MemOk := State.MemOk.ite hv hv
      clear_value *
      exact hv.result

theorem execLeaseExpiry_memOk {s : State} (hs : s.MemOk) : MemOkAfter (execLeaseExpiry s) := by
  unfold execLeaseExpiry
  split
  · exact hs
  · split
    · split
      · exact hs.putThread
      · exact hs
    · exact hs

theorem execBurstPause_memOk {s : State} (hs : s.MemOk) : MemOkAfter (execBurstPause s) := by
  unfold execBurstPause
  extract_lets _ _
  clear_value *
  split
  · split
    · exact hs
    · exact hs
  · split
    · exact hs.putNmu
    · exact hs

theorem execBurstResume_memOk {s : State} (hs : s.MemOk) : MemOkAfter (execBurstResume s) := by
  unfold execBurstResume
  extract_lets _ _
  clear_value *
  split
  · exact hs
  · split
    · exact hs.putNmu
    · exact hs

theorem State.MemOk.elapse {s : State} {n} (hs : s.MemOk) : (s.elapse n).MemOk := hs

theorem State.MemOk.pass {s : State} {least} (hs : s.MemOk) : (s.pass least).MemOk := by
  unfold State.pass
  split
  next heq =>
    have hu := hs.drawNat.snd heq
    exact hu.elapse

theorem execSliceRetention_memOk {s : State} (hs : s.MemOk) : MemOkAfter (execSliceRetention s) := by
  unfold execSliceRetention
  split
  · exact hs
  · exact hs

theorem execBudgetChange_memOk {s : State} (hs : s.MemOk) : MemOkAfter (execBudgetChange s) := by
  unfold execBudgetChange
  extract_lets _
  clear_value *
  split
  · exact hs
  · exact hs

/-! ### Copies -/

theorem State.MemOk.copyBits {s : State} {c r n} (hs : s.MemOk) : (s.copyBits c r n).2.2.MemOk := by
  unfold State.copyBits
  extract_lets _ _ _
  clear_value *
  split
  · split
    · exact hs
    · exact hs
    · exact hs
  · split
    · exact hs
    · split
      next heq => exact hs.enginePages.snd heq
      next heq => exact hs.enginePages.snd heq
      next heq => exact hs.enginePages.snd heq
      next heq =>
        have hu := hs.enginePages.snd heq
        extract_lets _
        clear_value *
        split
        · exact hu
        · split
          · exact hu
          · exact hu
          · split
            next heq' =>
              exact hu.readParts.snd heq'

theorem State.MemOk.copyRead {s : State} {c r n} (hs : s.MemOk) : (s.copyRead c r n).2.2.MemOk := by
  unfold State.copyRead
  extract_lets _
  clear_value *
  split
  · exact hs
  · split
    · exact hs
    · split
      · split
        next heq => exact hs.copyBits.trd heq
        next heq => exact hs.copyBits.trd heq
      · exact hs

theorem State.MemOk.copyWrite {s : State} {c r n bits} (hs : s.MemOk) : (s.copyWrite c r n bits).2.2.MemOk := by
  unfold State.copyWrite
  extract_lets _ _ _ _
  clear_value *
  split
  · exact hs
  · split
    · split
      · exact hs
      · exact hs.putLoc
    · split
      · exact hs
      · split
        next heq => exact hs.enginePages.snd heq
        next heq => exact hs.enginePages.snd heq
        next heq => exact hs.enginePages.snd heq
        next heq =>
          have hu := hs.enginePages.snd heq
          extract_lets _
          clear_value *
          split
          · exact hu
          · split
            · exact hu
            · exact hu
            · exact hu.writeParts

theorem State.MemOk.copyReads {s : State} {c r n k} (hs : s.MemOk) : (s.copyReads c r n k).2.2.MemOk := by
  induction k generalizing s c n with
  | zero => exact hs
  | succ k ih =>
    unfold State.copyReads
    split
    next heq => exact hs.copyRead.trd heq
    next heq =>
      split
      next heq' =>
        exact (ih (hs.copyRead.trd heq)).trd heq'
      next heq' =>
        exact (ih (hs.copyRead.trd heq)).trd heq'

theorem State.MemOk.copyWrites {s : State} {c r bs} (hs : s.MemOk) : (s.copyWrites c r bs).2.2.MemOk := by
  induction bs generalizing s c with
  | nil => exact hs
  | cons b bs ih =>
    unfold State.copyWrites
    split
    next heq => exact hs.copyWrite.trd heq
    next heq => exact ih (hs.copyWrite.trd heq)

theorem State.MemOk.copyRun {s : State} {c src dst} (hs : s.MemOk) : (s.copyRun c src dst).2.2.MemOk := by
  unfold State.copyRun
  split
  · split
    next heq => exact hs.copyRead.trd heq
    next heq =>
      have hu := hs.copyRead.trd heq
      exact hu.copyWrites
  · split
    · split
      next heq => exact hs.copyReads.trd heq
      next heq =>
        have hu := hs.copyReads.trd heq
        dsimp only
        split
        · exact hu
        · exact hu.putLoc.copyWrites

theorem State.MemOk.copyRuns {s : State} {c src dst n} (hs : s.MemOk) : (s.copyRuns c src dst n).2.2.MemOk := by
  induction n generalizing s c with
  | zero => exact hs
  | succ n ih =>
    unfold State.copyRuns
    split
    · exact hs
    · split
      next heq => exact hs.copyRun.trd heq
      next heq => exact ih (hs.copyRun.trd heq)

theorem State.MemOk.setHead {s : State} {core c} (hs : s.MemOk) : (s.setHead core c).MemOk := hs

theorem State.MemOk.failCopy {s : State} {core c cause side n} (hs : s.MemOk) : (s.failCopy core c cause side n).MemOk := by
  unfold State.failCopy
  extract_lets _
  clear_value *
  split
  next heq =>
    have hu := hs.postNotice.snd heq
    exact hu.setHead.arrive
  next heq =>
    have hu := hs.postNotice.snd heq
    exact hu.setHead

theorem State.MemOk.holdCopy {s : State} {core c cause va write} (hs : s.MemOk) : (s.holdCopy core c cause va write).MemOk := by
  unfold State.holdCopy
  split
  · exact hs.setHead
  · extract_lets u
    have hu : u.MemOk := hs.focus
    clear_value *
    split
    next heq =>
      have hv := hu.postRecord heq
      exact hv.setHead
    · exact hu.setHead

theorem execCopyCommand_memOk {s : State} (hs : s.MemOk) : MemOkAfter (execCopyCommand s) := by
  unfold execCopyCommand
  extract_lets _
  clear_value *
  split
  · exact hs
  · split
    · exact hs
    · extract_lets _ _ _
      clear_value *
      split
      next heq =>
        have hu := hs.copyRuns.trd heq
        split
        · exact hu.setHead.arrive
        · exact hu.setHead
      next heq =>
        have hu := hs.copyRuns.trd heq
        exact hu.failCopy
      next heq =>
        have hu := hs.copyRuns.trd heq
        exact hu.holdCopy
      next heq =>
        have hu := hs.copyRuns.trd heq
        exact hu.setHead.arrive.reportOwner
      next heq =>
        have hu := hs.copyRuns.trd heq
        exact hu.setHead

theorem execCpy_memOk {s : State} {a b c} (hs : s.MemOk) : MemOkAfter (execCpy a b c s) := by
  unfold execCpy
  extract_lets _ _ _ _ _ _
  clear_value *
  split
  · exact hs.trap
  · split
    · exact hs.stall
    · exact State.MemOk.retire hs

/-! ### Matrix units -/

theorem State.MemOk.setUnit {s : State} {u} (hs : s.MemOk) : (s.setUnit u).MemOk := hs.putUnit

theorem State.MemOk.asOwner {s : State} {i} {f : MatrixUnit → State} (hs : s.MemOk) (hf : ∀ u, (f u).MemOk) :
    (s.asOwner i f).MemOk :=
  State.MemOk.ite (hf _) hs.trapWord

theorem execMown_memOk {s : State} (hs : s.MemOk) : MemOkAfter (execMown s) := by
  unfold execMown
  extract_lets _ _ _ _
  clear_value *
  split
  · exact hs.setTh.retire
  · split
    · exact hs.trapWord
    · split
      · exact hs.setUnit.retire
      · split
        · exact hs.stall
        · exact hs.setUnit.setTh

theorem execMcfg_memOk {s : State} {a} (hs : s.MemOk) : MemOkAfter (execMcfg a s) := by
  unfold execMcfg
  extract_lets _ _
  clear_value *
  refine hs.asOwner (fun u => ?_)
  split
  · exact hs.trapWord
  · exact hs.setTh.retire

theorem State.MemOk.operandRow {s : State} {x r} (hs : s.MemOk) : (s.operandRow x r).2.MemOk := by
  unfold State.operandRow
  extract_lets _
  clear_value *
  split
  · split
    · exact hs
    · exact hs
  · exact hs.engineRead

theorem State.MemOk.operandRows {s : State} {x r n} (hs : s.MemOk) : (s.operandRows x r n).2.MemOk := by
  induction n generalizing s r with
  | zero => exact hs
  | succ n ih =>
    unfold State.operandRows
    split
    next heq => exact hs.operandRow.snd heq
    next heq =>
      split
      next heq' =>
        exact (ih (hs.operandRow.snd heq)).snd heq'
      next heq' =>
        exact (ih (hs.operandRow.snd heq)).snd heq'

theorem State.MemOk.addRows {s : State} {t a sc cols blocks r n} (hs : s.MemOk) : (s.addRows t a sc cols blocks r n).2.MemOk := by
  induction n generalizing s r with
  | zero => exact hs
  | succ n ih =>
    unfold State.addRows
    split
    next heq => exact hs.operandRow.snd heq
    next heq =>
      have hu := hs.operandRow.snd heq
      extract_lets scales
      have hscales : scales.2.MemOk := by
        unfold scales
        split
        · exact hu
        · split
          next heq' =>
            exact hu.operandRow.snd heq'
          next heq' =>
            exact hu.operandRow.snd heq'
      clear_value scales
      split
      · exact hscales
      · exact ih hscales.setUnit.use

theorem State.MemOk.mmaFault {s : State} {e} (hs : s.MemOk) : (s.mmaFault e).MemOk := by
  unfold State.mmaFault
  extract_lets u
  have hu : u.MemOk := hs.leaveMma
  clear_value *
  split
  · exact hu.trap
  · exact hu.report
  · exact hu

theorem State.MemOk.mmaRows {s : State} (hs : s.MemOk) : s.mmaRows.MemOk := by
  unfold State.mmaRows
  split
  · extract_lets _ _ _
    clear_value *
    split
    next heq =>
      have hu := hs.addRows.snd heq
      exact hu.setTh.mmaFault
    next heq =>
      have hu := hs.addRows.snd heq
      split
      · exact hu.setTh.retire
      · exact hu.setTh
  · exact hs

theorem State.MemOk.mma {s : State} {i t a b c} (hs : s.MemOk) : (s.mma i t a b c).MemOk := by
  unfold State.mma
  refine hs.asOwner (fun u => ?_)
  split
  · exact hs.trapWord
  · split
    · exact hs.trapWord
    · extract_lets _ _ _ v
      have hv : v.MemOk := hs.setUnit
      clear_value *
      split
      · exact hs.trap
      · split
        · exact hs.stall
        · split
          next heq =>
            have hu := hv.operandRows.snd heq
            exact hu.setTh.mmaFault
          next heq =>
            have hu := hv.operandRows.snd heq
            exact hu.setTh.mmaRows

theorem execMmaComplete_memOk {s : State} (hs : s.MemOk) : MemOkAfter (execMmaComplete s) := by
  unfold execMmaComplete
  extract_lets _ _
  clear_value *
  split
  · exact hs
  · exact hs.putUnit

theorem execEpcfg_memOk {s : State} {a} (hs : s.MemOk) : MemOkAfter (execEpcfg a s) := by
  unfold execEpcfg
  extract_lets _ _
  clear_value *
  refine hs.asOwner (fun u => ?_)
  split
  · exact hs.trapWord
  · split
    · exact hs.trap
    · refine hs.whenFree (fun v hu => ?_)
      extract_lets _
      clear_value *
      split
      · exact hu.trapWord
      · split
        · exact hu.trap
        · split
          · exact hu.stallWith
          · exact hu.setUnit.retire

theorem execEpgo_memOk {s : State} {a} (hs : s.MemOk) : MemOkAfter (execEpgo a s) := by
  unfold execEpgo
  extract_lets _ _
  clear_value *
  exact hs.asOwner (fun _ => State.MemOk.ite hs.trapWord (State.MemOk.ite hs.stall hs.setUnit.setTh.retire))

theorem State.MemOk.putRow {s : State} {d c bs size} (hs : s.MemOk) : (s.putRow d c bs size).2.MemOk := by
  unfold State.putRow
  extract_lets _ _
  clear_value *
  split
  · split
    · exact hs
    · exact hs.putUnits
  · split
    · exact hs
    · split
      next heq => exact hs.engineWrite.snd heq
      next heq => exact hs.engineWrite.snd heq
      next heq => exact hs.engineWrite.snd heq
      next heq => exact hs.engineWrite.snd heq
      next heq => exact hs.engineWrite.snd heq

theorem State.MemOk.putOutliers {s : State} {v c row es n} (hs : s.MemOk) : (s.putOutliers v c row es n).2.MemOk := by
  induction es generalizing s n with
  | nil => exact hs
  | cons e es ih => exact ih (State.MemOk.ite hs.putEngine hs)

theorem State.MemOk.drainOne {s : State} {d c act} (hs : s.MemOk) : (s.drainOne d c act).2.2.MemOk := by
  unfold State.drainOne
  extract_lets _ _ _
  clear_value *
  split
  · extract_lets _ _ _
    clear_value *
    split
    · exact hs
    · exact hs
    · split
      next heq =>
        have hu := hs.putRow.snd heq
        extract_lets v
        have hv : v.MemOk := State.MemOk.ite hu hu.putUnits
        clear_value *
        split
        next heq' =>
          exact hv.putOutliers.snd heq'
      next heq => exact hs.putRow.snd heq

theorem State.MemOk.drainRows {s : State} {d act n} (hs : s.MemOk) : (s.drainRows d act n).2.2.MemOk := by
  induction n generalizing s d with
  | zero => exact hs
  | succ n ih =>
    unfold State.drainRows
    split
    · exact hs
    · split
      next heq => exact ih (hs.drainOne.trd heq)
      · exact hs.drainOne

theorem State.MemOk.drainDone {s : State} {d c} (hs : s.MemOk) : (s.drainDone d c).2.MemOk := by
  unfold State.drainDone
  extract_lets _ u _ _ _
  have hu : u.MemOk := State.MemOk.ite hs.putLoc hs
  clear_value *
  exact hu.arrive

theorem State.MemOk.drainOn {s : State} {d c n} (hs : s.MemOk) : (s.drainOn d c n).2.2.MemOk := by
  unfold State.drainOn
  extract_lets _ _ _
  clear_value *
  split
  · exact hs
  · exact hs
  · split
    next heq =>
      have hu := hs.drainRows.trd heq
      split
      · split
        · split
          next heq' =>
            exact hu.drainDone.snd heq'
        · exact hu
      · exact hu
    · exact hs.drainRows

theorem State.MemOk.drainFailed {s : State} {o core} (hs : s.MemOk) : (s.drainFailed o core).MemOk := hs.putUnit.arrive

theorem State.MemOk.failDrain {s : State} {o core cause} (hs : s.MemOk) : (s.failDrain o core cause).MemOk := by
  unfold State.failDrain
  extract_lets _ _
  clear_value *
  split
  next heq =>
    have hu := hs.postNotice.snd heq
    exact hu.drainFailed
  next heq =>
    have hu := hs.postNotice.snd heq
    exact hu.putUnit

theorem State.MemOk.drainUnit {s : State} {core q c n} (hs : s.MemOk) : (s.drainUnit core q c n).MemOk := by
  unfold State.drainUnit
  extract_lets _
  clear_value *
  split
  next heq =>
    have hu := hs.drainOn.trd heq
    extract_lets u
    have hu : u.MemOk := hu.putUnit
    clear_value *
    split
    · exact hu
    · exact hu
    · exact hu.failDrain
    · exact hu.drainFailed.report
    · split
      next heq' =>
        have hv := hu.postRecord heq'
        exact hv.putUnit
      · exact hu

theorem State.MemOk.drainLost {s : State} {k n} (hs : s.MemOk) : (s.drainLost k n).MemOk := by
  unfold State.drainLost
  split
  · exact hs
  · split
    · split
      next heq =>
        have hu := hs.drainOn.trd heq
        split
        · exact hu
        · split
          · exact hu
          · exact hu
        · exact State.MemOk.arrive hu
        · exact State.MemOk.arrive hu
        · exact .reportOwner (State.MemOk.arrive hu)
    · exact hs

theorem execTileDrain_memOk {s : State} (hs : s.MemOk) : MemOkAfter (execTileDrain s) := by
  unfold execTileDrain
  extract_lets _ _ _
  clear_value *
  split
  · exact hs.drainLost
  · split
    · split
      · exact hs
      · exact hs.focus.drainUnit
    · exact hs

end Sys2Proof.Machine
end

section
/-!
PROOF. Memories stay canonical (O56): saves, bindings, tournaments and the world outside.
-/
namespace Sys2Proof.Machine
open Sys2Proof

/-! ### Notices -/

theorem State.MemOk.noticed {s : State} {slot w} (hs : s.MemOk) : (s.noticed slot w).MemOk := by
  unfold State.noticed
  extract_lets _
  clear_value *
  split
  · split
    · exact State.MemOk.arrive hs
    · exact hs
  · split
    · split
      · exact hs.drainFailed
      · exact hs
    · exact hs
  · split
    · exact hs.toldStop
    · exact hs
  · exact hs

theorem execHeldNoticePost_memOk {s : State} (hs : s.MemOk) : MemOkAfter (execHeldNoticePost s) := by
  unfold execHeldNoticePost
  split
  · exact hs
  · split
    · exact hs
    · split
      · exact hs
      · exact hs.putThread.noticed

/-! ### Saves and spills -/

theorem State.MemOk.writeSave {s : State} {t prog mown} (hs : s.MemOk) : (s.writeSave t prog mown).MemOk :=
  hs.writeLoc.writeLoc.writeLoc.writeLoc.writeLoc.writeLoc.settleLoc

theorem State.MemOk.rawRange {s : State} {lo n} (hs : s.MemOk) : (s.rawRange lo n).MemOk :=
  hs.recallIn.foldl (fun _ _ hu => hu.rekey)

theorem State.MemOk.rawPlace {s : State} {lo n m} (hs : s.MemOk) : (s.rawPlace lo n m).MemOk :=
  ⟨Memory.wf_place _ _ _ _ hs.mem, hs.loc⟩

theorem State.MemOk.saveRing {s : State} {k i u} (hs : s.MemOk) : (s.saveRing k i u).MemOk := hs.rawPlace

theorem State.MemOk.loadRing {s : State} {k} (hs : s.MemOk) : (s.loadRing k).MemOk := by
  unfold State.loadRing
  split
  · exact hs
  · extract_lets _ _ _ _ u _ v
    have hu : u.MemOk := hs.putUnit
    have hv : v.MemOk := hu
    clear_value *
    split
    · exact hv.drainFailed
    · exact hv

theorem State.MemOk.threadStop {s : State} (hs : s.MemOk) : s.threadStop.MemOk := hs.leaveMown.leaveMma

theorem execThreadStop_memOk {s : State} (hs : s.MemOk) : MemOkAfter (execThreadStop s) := by
  unfold execThreadStop
  extract_lets u
  have hu : u.MemOk := hs.focus
  clear_value *
  split
  · exact hu.threadStop
  · exact hs

theorem execSaveDrainTimeout_memOk {s : State} (hs : s.MemOk) : MemOkAfter (execSaveDrainTimeout s) := by
  unfold execSaveDrainTimeout
  extract_lets u _ _ _ _
  have hu : u.MemOk := hs.focus
  clear_value *
  split
  · exact hs
  · exact hu

theorem execSaveComplete_memOk {s : State} (hs : s.MemOk) : MemOkAfter (execSaveComplete s) := by
  unfold execSaveComplete
  extract_lets u
  have hu : u.MemOk := hs.focus
  clear_value u
  split
  · exact hs
  next t owns ring place v w _ =>
    clear_value ring place
    have hv : v.MemOk := by
      unfold v
      split
      · exact hu.saveRing.releaseUnit
      · exact hu
    have hw : w.MemOk := hv.writeSave
    clear_value *
    split
    · exact hs
    · split
      · exact hs
      · split
        · exact hu.loseContext
        · split
          · exact hu.loseContext
          · extract_lets x y z
            have hx : x.MemOk := State.MemOk.ite hw hw
            have hy : y.MemOk := by
              unfold y
              split
              · exact hx.putGang
              · exact hx
            have hz : z.MemOk := hy
            exact hz.through.releasedAll

theorem execSlotSpill_memOk {s : State} (hs : s.MemOk) : MemOkAfter (execSlotSpill s) := by
  unfold execSlotSpill
  extract_lets u _ v w
  have hu : u.MemOk := hs.focus
  have hv : v.MemOk := hu.rawPlace
  have hw : w.MemOk := by
    unfold w
    split
    · exact hv.putGang
    · exact hv
  clear_value *
  split
  · exact hs
  · split
    · exact hu.loseContext
    · exact hw.freeSlot

theorem State.MemOk.sendProgress {s t : State} {p} (hs : s.MemOk) (h : s.sendProgress p = some t) : t.MemOk := by
  unfold State.sendProgress at h
  dsimp only at h
  split at h
  · split at h
    · cases h
      exact hs.arrive
    · split at h <;> cases h
      exact hs
  · cases h
    exact hs
  · cases h
    exact hs
  · cases h
    exact hs
  · cases h
    exact hs

theorem State.MemOk.sendAll {s : State} {ps} (hs : s.MemOk) : (s.sendAll ps).MemOk := by
  induction ps generalizing s with
  | nil => exact hs
  | cons p ps ih =>
    unfold State.sendAll
    split
    next heq => exact ih (hs.sendProgress heq)
    · exact hs

theorem State.MemOk.rebind {s : State} (hs : s.MemOk) : s.rebind.MemOk := hs

theorem State.MemOk.readPlace {s : State} (hs : s.MemOk) : s.readPlace.MemOk := hs

theorem State.MemOk.readyGroup {s : State} (hs : s.MemOk) : s.readyGroup.MemOk := by
  unfold State.readyGroup
  split
  · exact hs
  · split
    · exact hs.mapGang
    · exact hs

theorem State.MemOk.reloadRing {s : State} (hs : s.MemOk) : s.reloadRing.MemOk := by
  unfold State.reloadRing
  split
  · exact hs.readyGroup
  · split
    · exact hs
    · split
      · exact hs.loseContext
      · exact hs.loadRing.readyGroup

theorem State.MemOk.resumeOn {s : State} (hs : s.MemOk) : s.resumeOn.MemOk := by
  unfold State.resumeOn
  extract_lets u
  have hu : u.MemOk := hs.sendAll
  clear_value *
  split
  · exact hu.reloadRing
  · exact hu

theorem State.MemOk.resumeRecords {s : State} (hs : s.MemOk) : s.resumeRecords.MemOk := by
  unfold State.resumeRecords
  split
  · exact hs.loseContext
  · exact hs.readPlace.rebind.resumeOn

theorem State.MemOk.takeLeaving {s : State} (hs : s.MemOk) : s.takeLeaving.2.MemOk := by
  unfold State.takeLeaving
  split
  · exact hs
  · exact hs.putGang

theorem State.MemOk.restore {s : State} (hs : s.MemOk) : s.restore.MemOk := by
  unfold State.restore
  extract_lets u _
  have hu : u.MemOk := hs.renew.dropIcache
  clear_value *
  split
  next heq =>
    have hv := hu.takeLeaving.snd heq
    exact State.MemOk.resumeRecords hv

theorem State.MemOk.placeLoc {s : State} {lo n m} (hs : s.MemOk) : ({ s with loc := Memory.place s.loc lo n m } : State).MemOk :=
  ⟨hs.mem, Memory.wf_place _ _ _ _ hs.loc⟩

theorem execFrameCopyDone_memOk {s : State} (hs : s.MemOk) : MemOkAfter (execFrameCopyDone s) := by
  unfold execFrameCopyDone
  extract_lets u _
  have hu : u.MemOk := hs.focus
  split
  · exact hs
  · split
    · exact hu.resumeOn
    · split
      · exact hu.loseContext
      · split
        · exact hu.placeLoc.settleLoc.loseContext
        · exact hu.placeLoc.settleLoc.restore

/-! ### Binding, resuming and stopping -/

theorem State.MemOk.clearLoc {s : State} {lo n} (hs : s.MemOk) : ({ s with loc := Memory.clear s.loc lo n } : State).MemOk :=
  ⟨hs.mem, Memory.wf_clear _ _ _ hs.loc⟩

theorem State.MemOk.zeroUnits {s : State} {die us} (hs : s.MemOk) : (s.zeroUnits die us).MemOk :=
  hs.foldl fun _ _ hu => hu.clearLoc.settleLoc

theorem State.MemOk.bindThread {s : State} {t} (hs : s.MemOk) : (s.bindThread t).MemOk :=
  hs.clearLoc.settleLoc.putThread.dropIcache

theorem State.MemOk.bindGang {s t : State} {die group} (hs : s.MemOk) (h : s.bindGang die group = some t) : t.MemOk := by
  unfold State.bindGang at h
  split at h
  · cases h
    exact hs
  · split at h
    · cases h
      exact hs
    · extract_lets us cluster grant g u v at h
      have hu : u.MemOk := hs.renew.zeroUnits.putLaunch
      have hv : v.MemOk := hu
      clear_value v
      split at h
      · cases h
      · cases h
        exact hv.foldl fun _ _ hw => hw.bindThread.writeLoc

theorem State.MemOk.resumeGang {s : State} {die group} (hs : s.MemOk) : (s.resumeGang die group).MemOk := by
  unfold State.resumeGang
  split
  · exact hs
  · split
    · exact hs
    · split
      · exact hs
      · extract_lets _ _ u v
        have hu : u.MemOk := hs.putGang
        have hv : v.MemOk := hu
        clear_value *
        exact hv.foldl (fun _ _ hu => (State.MemOk.ite hu.putUnit hu).bindThread)

theorem State.MemOk.stopGroup {s : State} {die group} (hs : s.MemOk) : (s.stopGroup die group).MemOk := by
  unfold State.stopGroup
  refine hs.foldl (fun v x hu => ?_)
  split
  · exact hu
  · exact hu.putThread

theorem State.MemOk.putPort {s : State} {die p} (hs : s.MemOk) : (s.putPort die p).MemOk := hs

theorem State.MemOk.closePort {s : State} {die code} (hs : s.MemOk) : (s.closePort die code).MemOk := hs.putPort

theorem State.MemOk.runGroup {s : State} {die group} (hs : s.MemOk) : (s.runGroup die group).MemOk := by
  unfold State.runGroup
  split
  · exact hs
  · extract_lets _ _
    clear_value *
    split
    · exact hs.closePort
    · split
      · exact hs.stopGroup.closePort
      · split
        · exact hs.putPort
        · split
          · exact hs.resumeGang.closePort
          · split
            next heq =>
              have hu := hs.bindGang heq
              exact hu.closePort
            · exact hs.closePort

theorem State.MemOk.submit {s : State} {die bits} (hs : s.MemOk) : (s.submit die bits).MemOk := by
  unfold State.submit
  extract_lets _ _ _ _ _ _
  clear_value *
  split
  · exact hs
  · split
    · exact hs.putPort
    · split
      · exact hs.closePort
      · exact hs.putPort.runGroup

theorem State.MemOk.newRounds {s : State} {die prio k} (hs : s.MemOk) : (s.newRounds die prio k).MemOk := hs

theorem State.MemOk.firmware {s : State} {die bits} (hs : s.MemOk) : (s.firmware die bits).MemOk := by
  unfold State.firmware
  extract_lets _ _ u _
  have hu : u.MemOk := State.MemOk.ite hs hs.newRounds
  clear_value *
  split
  · exact hs
  · exact hu.putPort.submit

theorem State.MemOk.portStore {s : State} {die second v} (hs : s.MemOk) : (s.portStore die second v).MemOk := by
  unfold State.portStore
  split
  · exact hs.firmware
  · split
    · exact hs
    · exact hs.putPort

theorem execBindRecord_memOk {s : State} (hs : s.MemOk) : MemOkAfter (execBindRecord s) := by
  unfold execBindRecord
  extract_lets _
  clear_value *
  split
  · exact hs
  · exact hs.firmware

theorem execResumeRecord_memOk {s : State} (hs : s.MemOk) : MemOkAfter (execResumeRecord s) := by
  unfold execResumeRecord
  extract_lets _
  clear_value *
  split
  · exact hs
  · exact hs.firmware

theorem execStopRecord_memOk {s : State} (hs : s.MemOk) : MemOkAfter (execStopRecord s) := by
  unfold execStopRecord
  extract_lets _
  clear_value *
  split
  · exact hs
  · exact hs.firmware

theorem execClusterZeroingDone_memOk {s : State} (hs : s.MemOk) : MemOkAfter (execClusterZeroingDone s) := by
  unfold execClusterZeroingDone
  extract_lets c
  split
  · exact hs
  next k u die p _ =>
    have hu : u.MemOk := .settleLoc (State.MemOk.clearLoc hs)
    exact State.MemOk.ite hu.putPort.runGroup hu

theorem execGangReservation_memOk {s : State} (hs : s.MemOk) : MemOkAfter (execGangReservation s) := by
  unfold execGangReservation
  extract_lets _ _
  clear_value *
  split
  · exact hs
  · split
    · exact hs
    · extract_lets _ _
      clear_value *
      split
      · exact hs
      · exact hs

/-! ### Tournaments -/

theorem State.MemOk.tscore {s : State} {op a} (hs : s.MemOk) : (s.tscore op a).MemOk := by
  unfold State.tscore
  generalize scoreOp = score
  dsimp only
  split
  · exact .retire hs
  · exact .retire hs

theorem State.MemOk.mapThreads {s : State} {p f} (hs : s.MemOk) : (s.mapThreads p f).MemOk := hs

theorem execAllowanceExhausted_memOk {s : State} (hs : s.MemOk) : MemOkAfter (execAllowanceExhausted s) := by
  unfold execAllowanceExhausted
  extract_lets _
  clear_value *
  split
  · exact hs
  · split
    · exact hs
    · split
      · exact hs
      · exact hs.mapThreads

theorem State.MemOk.killRival {s : State} {l k} (hs : s.MemOk) : (s.killRival l k).MemOk := by
  unfold State.killRival
  extract_lets _ u v _
  have hu : u.MemOk := hs.foldl (fun _ _ hu => hu.focus.dropThread)
  have hv : v.MemOk := hu.endClaimsOf.freePlaces.mapOwners
  clear_value *
  exact hv

theorem State.MemOk.wake {s : State} {slot} (hs : s.MemOk) : (s.wake slot).MemOk := by
  unfold State.wake
  extract_lets u _ _
  have hu : u.MemOk := hs.focus
  clear_value *
  split
  · exact hu
  · split
    · exact hu
    · split
      · exact hu
      · split
        next heq =>
          have hv := hu.takeLeaving.snd heq
          extract_lets _ v _ w
          have hv : v.MemOk := State.MemOk.acquire hv
          have hw : w.MemOk := State.MemOk.ite hv hv.putUnit
          clear_value *
          exact hw.resumeRecords

theorem execRoundEnd_memOk {s : State} (hs : s.MemOk) : MemOkAfter (execRoundEnd s) := by
  unfold execRoundEnd
  split
  · exact hs
  · split
    · exact hs
    · extract_lets _ _ u _ _ _ v _
      have hu : u.MemOk := hs.foldl (fun _ _ hu => hu.killRival)
      have hv : v.MemOk := hu.zeroUnits.putLaunch
      clear_value *
      split
      · exact hu
      · exact (hv.foldl (fun _ _ hu => hu.wake)).closeLaunch

/-! ### The host, the fabric, resets and failures -/

theorem State.MemOk.putBar {s : State} {fn b} (hs : s.MemOk) : (s.putBar fn b).MemOk := hs

theorem execHostLaunchWindowWrite_memOk {s : State} (hs : s.MemOk) : MemOkAfter (execHostLaunchWindowWrite s) := by
  unfold execHostLaunchWindowWrite
  extract_lets _ _ _ _
  clear_value *
  split
  · exact hs
  · split
    · split
      next heq =>
        have hu := hs.accept.snd heq
        exact hu.putBar
    · exact hs.putBar

theorem execRegisterWrite_memOk {s : State} (hs : s.MemOk) : MemOkAfter (execRegisterWrite s) := by
  unfold execRegisterWrite
  split
  · exact hs.putBar
  · exact hs

theorem execReportRequest_memOk {s : State} (hs : s.MemOk) : MemOkAfter (execReportRequest s) := by
  unfold execReportRequest
  extract_lets _ _ _
  clear_value *
  split
  · exact hs
  · exact hs.putBar

theorem execReportReady_memOk {s : State} (hs : s.MemOk) : MemOkAfter (execReportReady s) := by
  unfold execReportReady
  extract_lets _ _ _ _ _ u
  have hu : u.MemOk := hs.putBar
  clear_value *
  split
  · exact hs
  · exact hu

theorem execHostCxlMemAccess_memOk {s : State} (hs : s.MemOk) : MemOkAfter (execHostCxlMemAccess s) := by
  unfold execHostCxlMemAccess
  extract_lets _ _ _ u v w
  have hu : u.MemOk := hs.hubWrite
  have hv : v.MemOk := hs.recallIn
  have hw : w.MemOk := State.MemOk.ite hv hv.readMemWords
  clear_value *
  split
  · exact hs
  · split
    · exact hs
    · split
      · exact hu
      · exact hw

theorem execFabricPeerAccess_memOk {s : State} (hs : s.MemOk) : MemOkAfter (execFabricPeerAccess s) := by
  unfold execFabricPeerAccess
  dsimp only
  split
  · exact hs
  · split
    · exact hs.recallIn
    · exact hs.hubWrite
    · exact hs.hubWrite
    · exact hs.hubWrite

theorem State.MemOk.hostStore {s : State} {pa bs} (hs : s.MemOk) : (s.hostStore pa bs).MemOk := by
  unfold State.hostStore
  extract_lets _ _ u
  have hu : u.MemOk := hs.recallIn.noteMem.physWrite
  clear_value *
  split
  · exact hu
  · exact hs

theorem State.MemOk.setPast {s : State} {m} (hs : s.MemOk) : ({ s with memPast := m } : State).MemOk := hs

theorem State.MemOk.unwrite {s : State} {tracked pa r} (hs : s.MemOk) : (s.unwrite tracked pa r).MemOk := by
  unfold State.unwrite
  extract_lets w u
  have hu : u.MemOk := hs
  clear_value u
  exact hu.physWrite.setPast

theorem State.MemOk.tellDropped {s : State} {waits pa} (hs : s.MemOk) : (s.tellDropped waits pa).MemOk := by
  unfold State.tellDropped
  split
  · exact hs.report
  · exact hs

theorem execFabricAckTimeout_memOk {s : State} (hs : s.MemOk) : MemOkAfter (execFabricAckTimeout s) := by
  unfold execFabricAckTimeout
  extract_lets u _ _
  have hu : u.MemOk := hs.focus
  clear_value *
  split
  · split
    · split
      · exact hu.unwrite.tellDropped
      · split
        · exact hs
        · exact hs.unwrite
    · exact hs
  · split
    · exact hs
    · split
      · exact hu.dropAccess.tellDropped
      · exact hs

theorem State.MemOk.stopFunction {s : State} {fn} (hs : s.MemOk) : (s.stopFunction fn).MemOk := by
  unfold State.stopFunction
  extract_lets u _ v _ w
  have hu : u.MemOk := hs
  have hv : v.MemOk := hu.foldl (fun _ _ hu => hu.focus.dropThread)
  have hw : w.MemOk := hv.endClaimsOf.freePlaces.mapOwners
  clear_value *
  exact hw

theorem State.MemOk.destroyIndexes {s : State} {fn} (hs : s.MemOk) : (s.destroyIndexes fn).MemOk := by
  unfold State.destroyIndexes
  refine hs.foldl (fun v x hu => ?_)
  split
  · exact State.MemOk.ite hu.destroyIndex hu
  · exact hu

theorem execFunctionLevelReset_memOk {s : State} (hs : s.MemOk) : MemOkAfter (execFunctionLevelReset s) := by
  unfold execFunctionLevelReset
  extract_lets _ u _ v
  have hu : u.MemOk := hs.stopFunction.destroyIndexes
  have hv : v.MemOk := hu.putBar
  clear_value *
  split
  · exact hs
  · split
    · exact hs
    · exact hv

theorem execSecurityAlarm_memOk {s : State} (hs : s.MemOk) : MemOkAfter (execSecurityAlarm s) := by
  unfold execSecurityAlarm
  extract_lets _ _ _ u v w
  have hu : u.MemOk := hs
  have hv : v.MemOk := State.MemOk.ite (State.MemOk.stopFunction hu) hu
  have hw : w.MemOk := State.MemOk.ite hv hv
  clear_value *
  split
  · exact hs
  · split
    · exact hw
    · exact hw

theorem execIdentityRotation_memOk {s : State} (hs : s.MemOk) : MemOkAfter (execIdentityRotation s) := by
  unfold execIdentityRotation
  split
  · exact hs
  · exact hs

theorem State.MemOk.offline {s : State} (hs : s.MemOk) : s.offline.MemOk := ⟨hs.mem, Memory.wf_nil⟩

theorem State.MemOk.zeroed {s : State} {r} (hs : s.MemOk) : (s.zeroed r).MemOk := ⟨Memory.wf_filter _ _ hs.mem, hs.offline.loc⟩

theorem State.MemOk.bringUp {s : State} {r} (hs : s.MemOk) : (s.bringUp r).MemOk := by
  unfold State.bringUp
  extract_lets _ u
  have hu : u.MemOk := hs.zeroed
  clear_value *
  exact hu

theorem State.MemOk.stopped {s : State} {step r} (hs : s.MemOk) : (s.stopped step r).MemOk := by
  unfold State.stopped
  split
  · exact hs.offline
  · split
    · exact hs.offline
    · split
      · exact hs.zeroed
      · exact hs.bringUp

theorem State.MemOk.bootWith {s : State} {fail r} (hs : s.MemOk) : (s.bootWith fail r).MemOk := by
  unfold State.bootWith
  extract_lets _ u
  have hu : u.MemOk := hs.stopped
  clear_value *
  split
  · exact hs.bringUp
  · exact hu

theorem State.MemOk.stopLost {s : State} {i} (hs : s.MemOk) : (s.stopLost i).MemOk := by
  unfold State.stopLost
  split
  · exact hs.stopGang
  · exact hs

theorem execCoreFailure_memOk {s : State} (hs : s.MemOk) : MemOkAfter (execCoreFailure s) := by
  unfold execCoreFailure
  extract_lets _ _ u v _ w _ z
  have hu : u.MemOk := hs
  have hv : v.MemOk := hu.foldl (fun _ _ hu => hu.stopLost)
  have hw : w.MemOk := by
    unfold w
    refine hv.foldl (fun z x hw => ?_)
    split
    next heq =>
      have hz := hw.drawBit.snd heq
      split
      · exact hz.toSlice
      · exact hz
  have hz : z.MemOk := hw.foldl (fun _ _ hu => hu.settleMem)
  clear_value *
  exact hz

theorem State.MemOk.zeroPad {s : State} {core} (hs : s.MemOk) : (s.zeroPad core).MemOk := hs.clearLoc.settleLoc

theorem execCoreOutOfService_memOk {s : State} (hs : s.MemOk) : MemOkAfter (execCoreOutOfService s) := by
  unfold execCoreOutOfService
  extract_lets _ u _
  have hu : u.MemOk := hs.zeroPad
  clear_value *
  split
  · exact hs
  · exact hu

theorem execCoreReturnToService_memOk {s : State} (hs : s.MemOk) : MemOkAfter (execCoreReturnToService s) := by
  unfold execCoreReturnToService
  extract_lets _ u _
  have hu : u.MemOk := hs.zeroPad
  clear_value *
  split
  · exact hu
  · exact hs

theorem execUpcallDelivery_memOk {s : State} (hs : s.MemOk) : MemOkAfter (execUpcallDelivery s) := by
  unfold execUpcallDelivery
  extract_lets u
  have hu : u.MemOk := hs.focus
  clear_value *
  split
  · exact hu.boundary
  · exact hs

theorem State.MemOk.bitError {s : State} {pa bit} (hs : s.MemOk) : (s.bitError pa bit).MemOk := by
  unfold State.bitError
  extract_lets _
  clear_value *
  split
  · split
    · exact hs
    · exact hs
  · split
    · exact hs
    · exact hs

theorem State.MemOk.outside {s : State} {o} (hs : s.MemOk) : (s.outside o).MemOk := by
  unfold State.outside
  split
  · split
    · exact hs
    · exact hs
  · split
    · exact hs
    · exact hs
  · exact hs.portStore
  · exact hs.hostStore
  · exact hs.bitError
  · exact hs

end Sys2Proof.Machine
end

section
/-!
PROOF. No instruction, event or step takes a memory out of its canonical form (O56).
-/
namespace Sys2Proof.Machine
open Sys2Proof

/-! ### Privileged instructions and the scanner -/

theorem execPclr_memOk {s : State} {a} (hs : s.MemOk) : MemOkAfter (execPclr a s) := by
  unfold execPclr
  extract_lets _
  clear_value *
  split
  · exact hs.trapWord
  · split
    · exact hs.trap
    · exact hs.issueWhenFree

theorem State.MemOk.dropLines {s : State} {es} (hs : s.MemOk) : (s.dropLines es).MemOk := hs

theorem State.MemOk.flushRange {s : State} {lo n} (hs : s.MemOk) : (s.flushRange lo n).MemOk := hs.recallIn

theorem State.MemOk.dropPage {s : State} {fn va} (hs : s.MemOk) : (s.dropPage fn va).MemOk := State.MemOk.dropLines hs

theorem State.MemOk.flushLeaves {s : State} {ws} (hs : s.MemOk) : (s.flushLeaves ws).MemOk := hs.foldl (fun _ _ hu => hu.flushRange)

theorem State.MemOk.dropKind {s : State} {kind fn va} (hs : s.MemOk) : (s.dropKind kind fn va).MemOk := by
  unfold State.dropKind
  split
  · exact hs.dropPage
  · exact hs
  · exact hs

theorem execPinv_memOk {s : State} {a} (hs : s.MemOk) : MemOkAfter (execPinv a s) := by
  unfold execPinv
  extract_lets _ _ _ _
  clear_value *
  split
  · exact hs.trapWord
  · split
    · exact hs.trapWord
    · exact hs.afterRelease (fun _ hu => State.MemOk.ite hu.stallWith ((State.MemOk.ite hu.dropKind.flushLeaves hu.dropKind).retire))

theorem State.MemOk.sendNotices {s : State} (hs : s.MemOk) : s.sendNotices.MemOk := by
  unfold State.sendNotices
  generalize List.range 1280 = slices
  exact hs

theorem State.MemOk.publish {s : State} {g} (hs : s.MemOk) : (s.publish g).MemOk := State.MemOk.sendNotices hs

theorem execPgen_memOk {s : State} {a} (hs : s.MemOk) : MemOkAfter (execPgen a s) := by
  unfold execPgen
  split
  · exact hs.trapWord
  · split
    · exact hs.trapWord
    · exact hs.afterRelease (fun _ hu => hu.publish.retire)

theorem execGenerationNotice_memOk {s : State} (hs : s.MemOk) : MemOkAfter (execGenerationNotice s) := by
  unfold execGenerationNotice
  extract_lets _ u
  have hu : u.MemOk := hs
  clear_value *
  split
  · exact hs
  · split
    · exact hu
    · exact hu

theorem State.MemOk.scanLeaf {s : State} {die fn va} (hs : s.MemOk) : (s.scanLeaf die fn va).2.MemOk := by
  unfold State.scanLeaf
  split
  next heq => exact hs.walkVa.snd heq
  next heq => exact hs.walkVa.snd heq
  next heq =>
    have hu := hs.walkVa.snd heq
    exact hu

theorem execScannerPage_memOk {s : State} (hs : s.MemOk) : MemOkAfter (execScannerPage s) := by
  unfold execScannerPage
  extract_lets _ _ _
  clear_value *
  split
  next heq => exact hs.scanLeaf.snd heq
  next heq =>
    have hu := hs.scanLeaf.snd heq
    dsimp only
    split
    · exact hu.putEntry.dropPage.flushLeaves
    · exact hu

theorem execScannerWriteDone_memOk {s : State} (hs : s.MemOk) : MemOkAfter (execScannerWriteDone s) := by
  unfold execScannerWriteDone
  split
  · exact hs
  · split
    next heq => exact (State.MemOk.snd_of heq (State.MemOk.scanLeaf hs)).publish
    next heq =>
      have hu := State.MemOk.snd_of heq (State.MemOk.scanLeaf hs)
      extract_lets w v
      have hv : v.MemOk := State.MemOk.ite hu.putEntry hu
      exact hv.dropPage.publish

theorem State.MemOk.swapFrames {s : State} {p q} (hs : s.MemOk) : (s.swapFrames p q).MemOk := by
  unfold State.swapFrames
  generalize @swapTab = swap
  extract_lets a b mem move
  have hmem : Memory.wf mem = true := Memory.wf_place _ _ _ _ (Memory.wf_place _ _ _ _ hs.mem)
  clear_value mem
  exact ⟨hmem, hs.loc⟩

theorem State.MemOk.rekeyFrame {s : State} {key pa} (hs : s.MemOk) : (s.rekeyFrame key pa).MemOk := by
  unfold State.rekeyFrame
  split
  · exact hs.rawRange
  · exact hs.foldl (fun _ _ hu => hu.rekey)

theorem State.MemOk.markFrame {s : State} {key pa} (hs : s.MemOk) : (s.markFrame key pa).MemOk := by
  unfold State.markFrame
  generalize List.range 2048 = units
  exact State.MemOk.ite ⟨hs.mem, hs.loc⟩ ⟨hs.mem, hs.loc⟩

theorem State.MemOk.exchange {s : State} {u v fp fq} (hs : s.MemOk) : (s.exchange u v fp fq).MemOk :=
  hs.rekeyFrame.rekeyFrame.swapFrames.settleMem.settleMem.markFrame.markFrame

theorem State.MemOk.swapLeaves {s : State} {p q} (hs : s.MemOk) : (s.swapLeaves p q).MemOk := by
  unfold State.swapLeaves
  extract_lets u v w x y
  have hw : w.MemOk := State.MemOk.dropLines hs
  have hx : x.MemOk := hw.flushRange.flushRange
  have hy : y.MemOk := hx.exchange
  exact hy.putEntry.putEntry

theorem execPswap_memOk {s : State} {a b} (hs : s.MemOk) : MemOkAfter (execPswap a b s) := by
  unfold execPswap
  extract_lets _ _ _ _
  clear_value *
  split
  · exact hs.trapWord
  · split
    · exact hs.trap
    · exact hs.trap
    · split
      · exact hs.trap
      · refine hs.afterRelease (fun v hu => ?_)
        split
        · split
          next heq =>
            have hv := hu.drawNat.snd heq
            exact hv.trap
        · exact hu.swapLeaves.retire

/-! ### Streams and `tql` -/

theorem execSbind_memOk {s : State} {k a} (hs : s.MemOk) : MemOkAfter (execSbind k a s) := by
  unfold execSbind
  extract_lets _
  clear_value *
  split
  · exact hs.trap
  · split
    · exact hs.trap
    · split
      · exact hs.trap
      · refine hs.whenFree (fun v hu => ?_)
        split
        · exact hu.trap
        · exact hu.setStream.retire

theorem execSeos_memOk {s : State} {k a} (hs : s.MemOk) : MemOkAfter (execSeos k a s) := by
  unfold execSeos
  split
  · exact hs.trap
  · exact hs.setStream.retire

theorem execSstat_memOk {s : State} {d k} (hs : s.MemOk) : MemOkAfter (execSstat d k s) := by
  unfold execSstat
  split
  · exact hs.trap
  · exact hs.result

theorem execSunbind_memOk {s : State} {k} (hs : s.MemOk) : MemOkAfter (execSunbind k s) := by
  unfold execSunbind
  split
  · exact hs.trap
  · extract_lets u
    have hu : u.MemOk := hs.setStream
    clear_value u
    exact .retire hu

theorem execTql_memOk {s : State} {d a b} (hs : s.MemOk) : MemOkAfter (execTql d a b s) := by
  unfold execTql
  extract_lets _ _ _ _ _ _
  clear_value *
  split
  · exact hs.trap
  · split
    · exact hs.trap
    · split
      · exact hs.trap
      · split
        · exact hs.trap
        · exact hs.whenFree (fun _ hu => hu.writeF.advanceStreams.retire)

/-! ### What a core does around an instruction -/

theorem State.MemOk.issued {s : State} {slot} (hs : s.MemOk) : (s.issued slot).MemOk := by
  unfold State.issued
  split
  · exact hs
  · exact hs

theorem State.MemOk.occupy {s : State} {t division} (hs : s.MemOk) : (s.occupy t division).MemOk := by
  unfold State.occupy
  split
  · exact hs
  · exact hs

theorem State.MemOk.freed {s : State} {slot} (hs : s.MemOk) : (s.freed slot).MemOk := by
  unfold State.freed
  split
  · exact hs.putThread
  · exact hs

theorem State.MemOk.rouse {s : State} (hs : s.MemOk) : s.rouse.MemOk := hs

theorem State.MemOk.settled {s : State} (hs : s.MemOk) : s.settled.MemOk := by
  unfold State.settled
  split
  · exact hs
  · exact hs.rouse

theorem State.MemOk.withRows {s : State} {i} (hs : s.MemOk) : (s.withRows i).MemOk := by
  unfold State.withRows
  split
  · split
    next heq =>
      have hu := hs.drawNat.snd heq
      exact hu
  · exact hs

theorem State.MemOk.moreRows {s : State} {slot} (hs : s.MemOk) : (s.moreRows slot).MemOk := by
  unfold State.moreRows
  extract_lets u _
  have hu : u.MemOk := hs.focus
  clear_value *
  split
  · split
    next heq =>
      have hv := hu.drawNat.snd heq
      exact State.MemOk.mmaRows hv
  · exact hs

/-! ### Instructions -/

/-- Whatever an instruction, an event or a microinstruction does, it keeps both memories canonical. -/
theorem exec_memOk (i : Instr) {s : State} (hs : s.MemOk) : MemOkAfter (exec i s) := by
  cases i with
  | add | sub | and | or | xor | andn | shl | shr | sra | slt | sltz | min | max | minz | maxz | sel | addw | subw | rotl
  | rotr | addi | andi | ori | xori | shli | shri | srai | slti | sltzi | lim | lpc | clz | ctz | ffs | popc | rev | bswap
  | bext | bins | mul | mulh | mulhz | mulhsz | div | divz | rem | remz | mulw | cpyq | trinfo => exact hs.result
  | beq | bne | blt | bge | blo | bhs => exact hs.branch
  | jal | jalr => exact hs.transfer (fun _ hu => hu.setX)
  | loop | loopi => exact hs.loopStart
  | ldg => exact execLdg_memOk hs
  | stg => exact execStg_memOk hs
  | ldgV => exact execLdgV_memOk hs
  | stgV => exact execStgV_memOk hs
  | ldl => exact execLdl_memOk hs
  | stl => exact execStl_memOk hs
  | ldlV => exact execLdlV_memOk hs
  | stlV => exact execStlV_memOk hs
  | amoAdd | amoAnd | amoOr | amoXor | amoMin | amoMax | amoMinz | amoMaxz | amoSwap | cas => exact hs.atomic
  | amolAdd | amolAnd | amolOr | amolXor | amolMin | amolMax | amolMinz | amolMaxz | amolSwap => exact hs.localAtomic
  | cwait => exact execCwait_memOk hs
  | xfence => exact execXfence_memOk hs
  | swinit => exact hs.onSyncWord (fun _ => hs.whenFree (fun _ hv => hv.ownPut.retire))
  | swadd => exact execSwadd_memOk hs
  | swwait => exact execSwwait_memOk hs
  | swget | swcnt => exact hs.onSyncWord (fun _ => hs.whenFree (fun _ hv => hv.ownTouch.result))
  | mopen => exact execMopen_memOk hs
  | mput | mputV | mputE | mputVe => exact hs.put
  | gbar | gbarAnd | gbarOr | gbarAdd | gbarMax | gbarMin => exact hs.gbar
  | launch => exact execLaunch_memOk hs
  | exit => exact execExit_memOk hs
  | yield => exact execYield_memOk hs
  | sys => exact execSys_memOk hs
  | brk => exact execBrk_memOk hs
  | uret | uretReplay => exact hs.uret
  | srd => exact execSrd_memOk hs
  | swr => exact execSwr_memOk hs
  | vadd | vadd16 => exact hs.laneAdd
  | vsub | vsub16 => exact hs.laneSub
  | vmul | vmul16 => exact hs.laneMul
  | vmax | vmin | vmax16 | vmin16 => exact hs.lanePick
  | vand | vor | vxor | vand16 | vor16 | vxor16 | vbcast0 | vzero | vsel | vperm | vbcast | vins | vmvx => exact hs.rawLane
  | vdiv => exact hs.laneDiv
  | vsqrt => exact hs.laneSqrt
  | vrcp | vrcp16 => exact hs.laneRcp
  | vrsq | vrsq16 => exact hs.laneRsq
  | vexp2 | vexp216 => exact hs.laneExp2
  | vlog2 => exact hs.laneLog2
  | vshl | vshr | vsra => exact hs.laneShift
  | vabs | vneg | vabs16 | vneg16 => exact hs.laneSign
  | vmov | vmov16 => exact hs.laneMov
  | modifierWord => exact execModifierWord_memOk hs
  | vcmpEq | vcmpLt | vcmpLe | vcmpNe => exact hs.laneCmp
  | vredadd => exact hs.laneReduce
  | vredmax | vredmin => exact hs.laneReducePick
  | vdot => exact hs.laneDot
  | vcvt => exact hs.laneCvt
  | vq8 => exact execVq8_memOk hs
  | vdq8 | vamax | vext => exact hs.runLane
  | vfma | vfms | vfnma | vfnms => exact hs.laneFma
  | sbind => exact execSbind_memOk hs
  | seos => exact execSeos_memOk hs
  | sstat => exact execSstat_memOk hs
  | sunbind => exact execSunbind_memOk hs
  | tql => exact execTql_memOk hs
  | tqlatch | tqd | tqmac | tqread => exact hs.table
  | cpy => exact execCpy_memOk hs
  | mown => exact execMown_memOk hs
  | mrel => exact hs.asOwner (fun _ => State.MemOk.ite hs.stall hs.releaseUnit.retire)
  | mcfg => exact execMcfg_memOk hs
  | mmaBf16 | mmaD8 | mmaF16 => exact hs.mma
  | mringAdv | mringClr => exact hs.asOwner (fun _ => State.MemOk.ite hs.stall hs.setUnit.retire)
  | epcfg => exact execEpcfg_memOk hs
  | epgo => exact execEpgo_memOk hs
  | lease => exact execLease_memOk hs
  | unlease => exact hs.endLease.retire
  | nmsend => exact execNmsend_memOk hs
  | nmresume => exact execNmresume_memOk hs
  | nmload => exact execNmload_memOk hs
  | nmstat => exact execNmstat_memOk hs
  | mli | mld | madd | msub | mand | mor | mxor | mshl | mshr | mmul | mmax => exact hs.microSet
  | mst => exact hs.micro (fun _ => hs.microNext)
  | mrdrowRead => exact execMrdrowRead_memOk hs
  | mrdrowWrite => exact hs.microRow fun _ _ _ hu => hu.writeRow
  | mrdrowZero => exact hs.microRow fun _ _ _ hu => hu.zeroRow
  | mrdrowCopy => exact hs.microRow fun _ _ _ hu => hu.copyRow
  | maccAdd | maccRead => exact hs.macc
  | mbfw | mbfwZero => exact hs.microBranch
  | mfin => exact hs.micro (fun _ => hs.endHandler)
  | ixnear | ixstore | ixstoreRel | ixdel => exact hs.indexCmd
  | ixsnap | ixstat => exact hs.indexAsk
  | ixcreate => exact execIxcreate_memOk hs
  | tscoreSet | tscoreMax | tscoreMin | tscoreAdd => exact hs.tscore
  | pinv => exact execPinv_memOk hs
  | pswap => exact execPswap_memOk hs
  | pclr => exact execPclr_memOk hs
  | pgen => exact execPgen_memOk hs
  | udf => exact hs.trapWord
  | loadReturn | storePerform | atomicPerform => exact hs.performAccess
  | heldFaultPost => exact execHeldFaultPost_memOk hs
  | syncWordWake => exact execSyncWordWake_memOk hs
  | messageLanding => exact execMessageLanding_memOk hs
  | packetCount => exact execPacketCount_memOk hs
  | barrierComplete => exact execBarrierComplete_memOk hs
  | launchReplicate => exact execLaunchReplicate_memOk hs
  | completionBlockUpdate => exact execCompletionBlockUpdate_memOk hs
  | tqlatchExec | tqmacExec | tqdExec | tqreadExec => exact hs.tableExec
  | copyCommand => exact execCopyCommand_memOk hs
  | heldNoticePost => exact execHeldNoticePost_memOk hs
  | mmaComplete => exact execMmaComplete_memOk hs
  | tileDrain => exact execTileDrain_memOk hs
  | leaseExpiry => exact execLeaseExpiry_memOk hs
  | nmuMessageArrival => exact execNmuMessageArrival_memOk hs
  | rowCopy => exact hs.builtin rowCopy_memOk
  | rowZero => exact hs.builtin rowZero_memOk
  | indexedReduce => exact hs.builtin indexedReduce_memOk
  | tableGather => exact hs.builtin tableGather_memOk
  | tableMac => exact hs.builtin tableMac_memOk
  | accumulatorRead => exact hs.builtin accumulatorRead_memOk
  | accumulatorClear => exact hs.builtin accumulatorClear_memOk
  | statusHandler => exact hs.builtin statusHandler_memOk
  | loadedHandlerStart => exact execLoadedHandlerStart_memOk hs
  | handlerTimeout => exact execHandlerTimeout_memOk hs
  | nmresumeApply => exact execNmresumeApply_memOk hs
  | handlerLoad => exact execHandlerLoad_memOk hs
  | indexQueryAccept => exact execIndexQueryAccept_memOk hs
  | indexSearchEnd => exact execIndexSearchEnd_memOk hs
  | indexStoreCommit => exact execIndexStoreCommit_memOk hs
  | indexDeleteCommit => exact execIndexDeleteCommit_memOk hs
  | indexSnapshotAccept => exact execIndexSnapshotAccept_memOk hs
  | indexStatAccept => exact execIndexStatAccept_memOk hs
  | indexCreate => exact execIndexCreate_memOk hs
  | indexDestroy => exact execIndexDestroy_memOk hs
  | allowanceExhausted => exact execAllowanceExhausted_memOk hs
  | roundEnd => exact execRoundEnd_memOk hs
  | generationNotice => exact execGenerationNotice_memOk hs
  | upcallDelivery => exact execUpcallDelivery_memOk hs
  | bindRecord => exact execBindRecord_memOk hs
  | resumeRecord => exact execResumeRecord_memOk hs
  | stopRecord => exact execStopRecord_memOk hs
  | frameCopyDone => exact execFrameCopyDone_memOk hs
  | threadStop => exact execThreadStop_memOk hs
  | saveComplete => exact execSaveComplete_memOk hs
  | saveDrainTimeout => exact execSaveDrainTimeout_memOk hs
  | slotSpill => exact execSlotSpill_memOk hs
  | clusterZeroingDone => exact execClusterZeroingDone_memOk hs
  | gangReservation => exact execGangReservation_memOk hs
  | scannerPage => exact execScannerPage_memOk hs
  | scannerWriteDone => exact execScannerWriteDone_memOk hs
  | budgetPeriodStart | quarantineLift => exact hs
  | securityAlarm => exact execSecurityAlarm_memOk hs
  | burstPause => exact execBurstPause_memOk hs
  | burstResume => exact execBurstResume_memOk hs
  | sliceRetention => exact execSliceRetention_memOk hs
  | hostLaunchWindowWrite => exact execHostLaunchWindowWrite_memOk hs
  | reportRequest => exact execReportRequest_memOk hs
  | reportReady => exact execReportReady_memOk hs
  | registerWrite => exact execRegisterWrite_memOk hs
  | hostCxlMemAccess => exact execHostCxlMemAccess_memOk hs
  | functionLevelReset => exact execFunctionLevelReset_memOk hs
  | fabricAckTimeout => exact execFabricAckTimeout_memOk hs
  | coreFailure => exact execCoreFailure_memOk hs
  | coreOutOfService => exact execCoreOutOfService_memOk hs
  | identityRotation => exact execIdentityRotation_memOk hs
  | boot | conventionalReset => exact hs.bootWith
  | coreReturnToService => exact execCoreReturnToService_memOk hs
  | budgetChange => exact execBudgetChange_memOk hs
  | fabricPeerAccess => exact execFabricPeerAccess_memOk hs


/-! ### One step -/

/-- Both memories stand canonical in what comes of a core's turn before the instruction. -/
def Issue.MemOk : Issue → Prop
  | .done s => s.MemOk
  | .run _ s => s.MemOk

theorem State.MemOk.prepare {s : State} (hs : s.MemOk) : s.prepare.MemOk := by
  unfold State.prepare
  split
  · exact hs.threadStop
  split
  · extract_lets u
    have hu : u.MemOk := hs.pump
    clear_value u
    show State.MemOk (if _ then _ else _)
    exact .ite hu hu.stall
  split
  · exact hs.stall
  split
  · exact hs.stall
  split
  · split
    · exact hs
    · exact hs.stall
  split
  · exact hs.boundary
  split
  next h => exact (hs.fetch.snd_of h).trap
  next h =>
    have hu := hs.fetch.snd_of h
    split
    · exact hu.trap
    · split
      · exact hu.stall
      next h => exact hu.interlock h
      · split
        · exact hu.trapWord
        · exact hu

theorem MemOkAfter.onNext {o : Out} {f : State → State} (ho : MemOkAfter o) (hf : ∀ u : State, u.MemOk → (f u).MemOk) :
    MemOkAfter (onNext o f) :=
  match o with
  | .next u => hf u ho
  | .fault _ | .refused _ => trivial

theorem State.MemOk.nextTurn {s t : State} {turn : Turn} (hs : s.MemOk) (h : s.nextTurn = some (turn, t)) : t.MemOk := by
  unfold State.nextTurn at h
  split at h
  · cases h
    exact hs
  · split at h
    · cases h
    · cases h
      exact hs
    · obtain ⟨_, -, ⟨⟩⟩ := Option.map_eq_some_iff.mp h
      exact hs.drawNat

theorem State.MemOk.take {s : State} {t : Turn} (hs : s.MemOk) : MemOkAfter (s.take t) := by
  cases t with
  | event e a =>
    show MemOkAfter (if _ then _ else _)
    split
    · exact (exec_memOk e (s := { s with ev := a }) hs).onNext fun _ hu => hu.rouse
    · exact hs
  | nmu n =>
    show MemOkAfter (match s.microFetch n with | some i => _ | none => _)
    split
    next i _ => exact (exec_memOk i (s := { s with nmuAt := n }) hs).onNext fun _ hu => hu.rouse
    · exact hs
  | core c =>
    show MemOkAfter (match (s.pass (s.coreWait c)).pickSlot c with | none => _ | some n => _)
    have hu : (s.pass (s.coreWait c)).MemOk := hs.pass
    generalize s.pass (s.coreWait c) = u at hu
    split
    · exact hu
    next n _ =>
      extract_lets v t
      have hv : v.MemOk := hu.focus
      clear_value v t
      split
      next h => exact State.MemOk.settled (.occupy (h ▸ hv.prepare : Issue.MemOk (.done _)))
      next i w h =>
        have hw : w.MemOk := (h ▸ hv.prepare : Issue.MemOk (.run i w))
        exact (exec_memOk i hw.withRows).onNext fun _ hz => hz.issued.occupy.settled
  | rows n => exact hs.moreRows.rouse
  | free n => exact hs.freed.rouse
  | outside o => exact hs.outside.rouse

theorem step_memOk {s : State} (hs : s.MemOk) : MemOkAfter (step s) := by
  unfold step
  split
  · split
    · trivial
    · exact hs.pass.rouse
  next h =>
    split
    · trivial
    · exact (hs.nextTurn h).take

/-- Settles O56: whatever turn a step takes, what it runs keeps both memories canonical (`exec_memOk`, `State.MemOk.take`). -/
theorem stepsKeepMemoryCanonical : Obligations.StepsKeepMemoryCanonical := by
  intro s t hs ht
  exact (ht ▸ step_memOk hs : MemOkAfter (.next t))

end Sys2Proof.Machine
end

section
/-!
PROOF. The device's tables when a thread or an index goes: launches, gangs, places, indexes, quarantine and key epochs (O52).
-/
namespace Sys2Proof.Machine
open Sys2Proof

/-- The device's tables of launches, gangs, record-store places and indexes, the functions in quarantine and the epochs of their keys. -/
def State.roll (s : State) : List Launch × List Gang × List StorePlace × Tab IxSlot × List Nat × Tab Nat :=
  (s.launches, s.gangs, s.store, s.indexes, s.quarantined, s.keyEpoch)

theorem XlatFrame.roll {s u : State} (h : XlatFrame s u) : u.roll = s.roll := by
  rw [h.same]
  rfl

theorem StoresOnly.roll {s u : State} (h : StoresOnly s u) : u.roll = s.roll := by
  unfold StoresOnly at h
  rw [h]
  rfl

/-- What each of a row of operations leaves alone, the row leaves alone. -/
theorem State.foldl_roll {α : Type} {f : State → α → State} (h : ∀ u a, (f u a).roll = u.roll) (l : List α) :
    ∀ s, (l.foldl f s).roll = s.roll := by
  induction l with
  | nil => exact fun _ => rfl
  | cons a l ih => exact fun s => (ih _).trans (h s a)

theorem State.ite_roll {s u v : State} {p : Prop} [Decidable p] (hu : u.roll = s.roll) (hv : v.roll = s.roll) :
    (if p then u else v).roll = s.roll := by
  split
  · exact hu
  · exact hv

/-! ### Accesses -/

@[simp] theorem State.setX_roll (s : State) (r : Reg) (v : Word) : (s.setX r v).roll = s.roll := by
  unfold State.setX
  split <;> rfl

@[simp] theorem State.acquire_roll (s : State) (o : Order) : (s.acquire o).roll = s.roll := by
  simp [State.roll]

@[simp] theorem State.noteMem_roll (s : State) (v : View) (key : Nat) (tracked : Bool) (scope : Order) (pa n : Nat) :
    (s.noteMem v key tracked scope pa n).roll = s.roll := by
  obtain ⟨lp, mp, h⟩ := s.noteMem_eq v key tracked scope pa n
  rw [h]
  rfl

@[simp] theorem State.readMemWords_roll (s : State) (v : View) (tracked : Bool) (pa n : Nat) (p : Past → Bool) :
    (s.readMemWords v tracked pa n p).roll = s.roll := rfl

@[simp] theorem State.useHbm_roll (s : State) (fn : Nat) (p : Phys) (n : Nat) : (s.useHbm fn p n).roll = s.roll := rfl

/-- A write of the hub leaves the tables and the thread at hand. -/
theorem State.hubWrite_keeps (s : State) (key pa : Nat) (bs : List Byte) :
    (s.hubWrite key pa bs).roll = s.roll ∧ (s.hubWrite key pa bs).th = s.th := by
  have h := (s.recallIn_frame pa bs.length).trans (State.physWrite_frame key bs _ pa)
  exact ⟨h.roll, h.th⟩

@[simp] theorem State.makeRoom_roll (s : State) (core word : Nat) : (s.makeRoom core word).roll = s.roll := by
  unfold State.makeRoom
  dsimp only
  split
  · rfl
  · exact State.foldl_roll (fun u w => (u.toSlice_frame w).roll) _ s.drawNat.2

@[simp] theorem State.registerWord_roll (s : State) (k : Keeper) (key va pa : Nat) (bs : List Byte) :
    (s.registerWord k key va pa bs).roll = s.roll := by
  unfold State.registerWord
  extract_lets word u v
  have hu : u.roll = s.roll := by
    unfold u
    split
    · exact State.ite_roll rfl (s.recall_frame _).roll
    · rfl
  have hv : v.roll = u.roll := by
    unfold v
    split
    · exact u.makeRoom_roll _ _
    · exact ((u.wakeSlice_frame _).trans (State.sliceRoom_frame _ _ _)).roll
  exact hv.trans hu

@[simp] theorem State.registerBytes_roll (s : State) (k : Keeper) (key va pa : Nat) (bs : List Byte) (n : Nat) :
    (s.registerBytes k key va pa bs n).roll = s.roll := by
  induction n generalizing s va pa bs with
  | zero => rfl
  | succ n ih =>
    unfold State.registerBytes
    split
    · rfl
    · exact (ih ..).trans (State.registerWord_roll ..)

@[simp] theorem State.retagRows_roll (s : State) (leaf : Word) (pa n : Nat) : (s.retagRows leaf pa n).roll = s.roll := by
  unfold State.retagRows
  split <;> rfl

@[simp] theorem State.storeAt_roll (s : State) (v : View) (k : Keeper) (fn : Nat) (scope : Order) (va : Nat) (p : Phys) (bs : List Byte) :
    (s.storeAt v k fn scope va p bs).roll = s.roll := by
  unfold State.storeAt
  extract_lets n key u w
  have hu : u.roll = s.roll := (State.noteMem_roll ..).trans ((State.retagRows_roll ..).trans (s.setD_frame _).roll)
  have hw : w.roll = u.roll := State.ite_roll ((u.perhapsEvicted_frame _ _).trans (State.physWrite_frame ..)).roll
    (State.ite_roll ((u.recallIn_frame _ _).trans (State.physWrite_frame ..)).roll (State.registerBytes_roll ..))
  exact hw.trans hu

@[simp] theorem State.translateAll_roll (s : State) (r : Req) (l : List (Nat × Nat)) : (s.translateAll r l).2.roll = s.roll := by
  induction l generalizing s with
  | nil => rfl
  | cons p l ih =>
    unfold State.translateAll
    have h := (s.translate_frame r p.1).roll
    grind

@[simp] theorem State.readParts_roll (s : State) (v : View) (fn : Nat) (ps : List (Nat × Nat × Phys)) : (s.readParts v fn ps).2.roll = s.roll := by
  induction ps generalizing s with
  | nil => rfl
  | cons q l ih =>
    unfold State.readParts
    exact (ih _).trans (State.ite_roll (s := s) rfl (s.perhapsEvicted_frame _ _).roll)

@[simp] theorem State.storeParts_roll (s : State) (v : View) (fn : Nat) (scope : Order) (bs : List Byte) (ps : List (Nat × Nat × Phys)) :
    (s.storeParts v fn scope bs ps).roll = s.roll := by
  induction ps generalizing s bs with
  | nil => rfl
  | cons q l ih => exact (ih _ _).trans (State.storeAt_roll ..)

@[simp] theorem State.writeParts_roll (s : State) (v : View) (fn : Nat) (scope : Order) (bs : List Byte) (ps : List (Nat × Nat × Phys)) :
    (s.writeParts v fn scope bs ps).roll = s.roll := by
  unfold State.writeParts
  exact (State.foldl_roll (fun _ _ => State.useHbm_roll ..) _ _).trans (State.storeParts_roll ..)

@[simp] theorem State.atomicPlace_roll (s : State) (k : Keeper) (p : Phys) (n : Nat) : (s.atomicPlace k p n).roll = s.roll := by
  unfold State.atomicPlace
  split
  · rfl
  · exact State.foldl_roll (fun u w => (u.toSlice_frame w).roll) _ _
  · exact (s.recallIn_frame _ _).roll

@[simp] theorem State.atomicAt_roll (s : State) (v : View) (fn : Nat) (scope : Order) (va : Nat) (p : Phys) (n : Nat) (f : Nat → Option Nat) :
    (s.atomicAt v fn scope va p n f).2.roll = s.roll := by
  unfold State.atomicAt
  extract_lets key k scope' u old
  have hu : u.roll = s.roll := State.atomicPlace_roll ..
  split
  · exact (State.storeAt_roll ..).trans hu
  next r w _ _ =>
    have hw : w.roll = r.roll := State.ite_roll (State.registerBytes_roll ..) rfl
    exact hw.trans hu

@[simp] theorem State.fetchParts_roll (s : State) (scope : Order) (ps : List (Nat × Nat × Phys)) : (s.fetchParts scope ps).roll = s.roll := by
  unfold State.fetchParts
  exact State.foldl_roll (fun _ _ => State.readMemWords_roll ..) _ _

@[simp] theorem State.loadF_roll (s : State) (r : Reg) (v : LaneReg) : (s.loadF r v).roll = s.roll := by
  unfold State.loadF
  split
  next st _ =>
    split
    · rfl
    · exact (s.putBlock_storesOnly st st.per v).roll
  · rfl

@[simp] theorem State.effect_roll (s : State) (a : Access) (ps : List (Nat × Nat × Phys)) : (s.effect a ps).roll = s.roll := by
  unfold State.effect
  extract_lets t fn n u v w
  have hu : u.roll = s.roll := State.ite_roll (by simp) rfl
  have hw : w.roll = u.roll := by
    unfold w
    split
    · simp
    · simp
    · simp
    · simp
    · split
      · simp
      · rfl
    · split
      · simp
      · rfl
    · split
      · simp
      · rfl
    · split
      · split
        · exact (State.storeAt_roll ..).trans (u.atomicPlace_roll ..)
        · rfl
      · rfl
  exact (State.ite_roll (by simp) rfl).trans (hw.trans hu)

@[simp] theorem State.perform_roll (s : State) (a : Access) : (s.perform a).2.roll = s.roll := by
  unfold State.perform
  grind [State.effect_roll, State.translateAll_roll]

/-! ### Arrivals, and the fields of a record -/

theorem State.arrive_storesOnly (s : State) (o : Owner) (la n : Nat) (err : Bool) : StoresOnly s (s.arrive o la n err) := by
  obtain ⟨m, h⟩ := s.arrive_frame o la n err
  unfold StoresOnly
  rw [h]

theorem State.putFields_storesOnly (v : View) (fs : List (List Byte)) : ∀ (s : State) (la : Nat), StoresOnly s (s.putFields v la fs) := by
  induction fs with
  | nil => exact fun s _ => .refl s
  | cons f r ih => exact fun s la => (s.putPart_storesOnly v la f).trans (ih _ _)

theorem State.putUnits_storesOnly (unit : Nat) (v : View) (n : Nat) : ∀ (s : State) (la : Nat) (bs : List Byte),
    StoresOnly s (s.putUnits unit v la n bs) := by
  induction n with
  | zero => exact fun s _ _ => .refl s
  | succ n ih =>
    intro s la bs
    unfold State.putUnits
    split
    · exact .refl s
    · exact (s.putPart_storesOnly ..).trans (ih ..)

theorem State.ixOut_storesOnly (s : State) (c : IxCmd) (k len v : Nat) : StoresOnly s (s.ixOut c k len v) := State.putUnits_storesOnly ..

/-- A command that ends with a status writes the fields of its record (R284). -/
theorem State.failIx_storesOnly (s : State) (c : IxCmd) (status va : Nat) : StoresOnly s (s.failIx c status va) := by
  unfold State.failIx State.endIx
  refine .trans ?_ ((State.ixOut_storesOnly ..).trans (State.arrive_storesOnly ..))
  split
  · extract_lets u
    have hu : StoresOnly s u := State.putFields_storesOnly ..
    exact hu.trans ((State.ixOut_storesOnly ..).trans ((State.ixOut_storesOnly ..).trans (State.ixOut_storesOnly ..)))
  · exact (State.ixOut_storesOnly ..).trans (State.ixOut_storesOnly ..)
  · exact (State.ixOut_storesOnly ..).trans (State.ixOut_storesOnly ..)
  · exact .refl s
  · exact .refl s

/-! ### What a thread leaves -/

@[simp] theorem State.releaseUnit_roll (s : State) (core : Nat) : (s.releaseUnit core).roll = s.roll := by
  unfold State.releaseUnit
  dsimp only
  split <;> rfl

@[simp] theorem State.abortPacket_roll (s : State) : s.abortPacket.roll = s.roll := by
  unfold State.abortPacket
  split <;> rfl

@[simp] theorem State.flushStores_roll (s : State) : s.flushStores.roll = s.roll := by
  unfold State.flushStores
  refine State.foldl_roll (fun u a => ?_) _ _
  exact u.perform_roll a

@[simp] theorem State.releasedAll_roll (s : State) (o : Order) : (s.releasedAll o).roll = s.roll := by
  simp [State.roll]

@[simp] theorem State.leaveMown_roll (s : State) : s.leaveMown.roll = s.roll := by
  unfold State.leaveMown
  dsimp only
  split
  · exact State.ite_roll (s := s) (State.releaseUnit_roll ..) rfl
  · rfl

@[simp] theorem State.loseUnit_roll (s : State) (core : Nat) (o : Owner) : (s.loseUnit core o).roll = s.roll := by
  unfold State.loseUnit
  extract_lets u runs v w
  have hv : v.roll = s.roll := State.ite_roll ((State.arrive_storesOnly ..).roll) rfl
  have hw : w.roll = v.roll := State.ite_roll rfl rfl
  exact (State.releaseUnit_roll ..).trans (hw.trans hv)

@[simp] theorem State.orphan_roll (s : State) : s.orphan.roll = s.roll := by
  unfold State.orphan State.endFailed
  exact (State.foldl_roll (fun _ _ => (State.arrive_storesOnly ..).roll) _ _).trans (State.ite_roll (s := s) rfl rfl)

@[simp] theorem State.freeSlot_roll (s : State) : s.freeSlot.roll = s.roll := by
  obtain ⟨us, ps, ts, h⟩ := s.freeSlot_frame
  rw [h]
  rfl

@[simp] theorem State.focus_roll (s : State) (n : Nat) : (s.focus n).roll = s.roll := by
  unfold State.focus
  split
  · rfl
  · split <;> rfl

end Sys2Proof.Machine
end

section
/-!
PROOF. A function that is stopped, and the indexes of one that are destroyed (O52, R289, R355).
-/
namespace Sys2Proof.Machine
open Sys2Proof

/-! ### A function that is stopped -/

/-- What the end of a thread leaves alone: whose launches are queued, who is in quarantine, and the keys. -/
def State.marks (s : State) : List Nat × List Nat × Tab Nat := (s.launches.map (·.fn), s.quarantined, s.keyEpoch)

theorem State.marks_of_roll {s t : State} (h : t.roll = s.roll) : t.marks = s.marks :=
  congrArg (fun r => (r.1.map (·.fn), r.2.2.2.2.1, r.2.2.2.2.2)) h

theorem State.noteGot_marks (s : State) : s.noteGot.marks = s.marks := by
  refine Prod.ext ?_ rfl
  show (s.launches.map _).map _ = _
  rw [List.map_map]
  refine List.map_congr_left fun l _ => ?_
  dsimp only [Function.comp]
  split <;> rfl

theorem State.dropThread_marks (s : State) : s.dropThread.marks = s.marks := by
  unfold State.dropThread
  split
  · extract_lets u i v w x
    have hu : u.marks = s.marks := State.marks_of_roll ((State.flushStores_roll _).trans (State.abortPacket_roll _))
    have hv : v.marks = u.marks := (State.noteGot_marks _).trans (State.marks_of_roll (State.releasedAll_roll ..))
    have hx : x.marks = v.marks := State.marks_of_roll ((State.ite_roll (State.loseUnit_roll ..) rfl).trans (State.leaveMown_roll _))
    clear_value x v u i
    have hend (y : State) : ((y.endClaims i).freePlaces (· == i)).marks = y.marks := rfl
    have horphan : x.orphan.marks = x.marks := State.marks_of_roll x.orphan_roll
    calc
      _ = ((x.orphan.endClaims i).freePlaces (· == i)).marks := State.marks_of_roll (State.freeSlot_roll _)
      _ = s.marks := (hend _).trans (horphan.trans (hx.trans (hv.trans hu)))
  · rfl

theorem State.dropSlots_marks (slots : List Nat) : ∀ s : State, (s.dropSlots slots).marks = s.marks := by
  induction slots with
  | nil => exact fun _ => rfl
  | cons n r ih => exact fun s => (ih _).trans ((State.dropThread_marks _).trans (State.marks_of_roll (s.focus_roll n)))

theorem State.dropSlots_told (slots : List Nat) (s : State) : s.Told (s.dropSlots slots) :=
  State.foldl_told (fun u n => (State.Told.of_eq (u.focus_monel n)).trans (State.dropThread_told _)) slots s

section
variable (s : State) (fn : Nat)

/-- The slots of a function's threads. -/
def State.slotsOf : List Nat := (s.threads.filter (fun t => t.ident.vf == fn)).map (·.slot)

/-- The state without the launches of a function. -/
def State.unqueued : State := { s with launches := s.launches.filter (fun l => l.fn ≠ fn) }

/-- What a stopped function's threads leave behind is given up. -/
def State.disowned : State :=
  let mine (i : Ident) : Bool := i.vf == fn
  let s := ((s.endClaimsOf mine).freePlaces mine).mapOwners (fun o => if mine o.ident then { o with lost := true } else o)
  { s with
    gangs := s.gangs.filter (fun g => g.fn ≠ fn)
    ghosts := s.ghosts ++ s.gangs.filter (fun g => g.fn == fn) }

theorem State.stopFunction_eq : s.stopFunction fn = ((s.unqueued fn).dropSlots (s.slotsOf fn)).disowned fn := rfl

theorem State.disowned_keeps : (s.disowned fn).marks = s.marks ∧ (s.disowned fn).th = s.th ∧ (s.disowned fn).monel = s.monel := by
  unfold State.disowned State.mapOwners State.freePlaces State.endClaimsOf State.marks
  exact ⟨rfl, rfl, rfl⟩

theorem State.stopFunction_marks : (s.stopFunction fn).marks = (s.unqueued fn).marks := by
  rw [s.stopFunction_eq, (State.disowned_keeps _ fn).1, State.dropSlots_marks]

theorem State.stopFunction_told : s.Told (s.stopFunction fn) := by
  rw [s.stopFunction_eq]
  exact (State.dropSlots_told (s.slotsOf fn) (s.unqueued fn)).then (State.disowned_keeps _ fn).2.2

/-- A stopped function has no launch (R355). -/
theorem State.stopFunction_launches : ∀ l ∈ (s.stopFunction fn).launches, l.fn ≠ fn := by
  intro l hl
  have hm : (s.stopFunction fn).launches.map (·.fn) = (s.unqueued fn).launches.map (·.fn) := congrArg Prod.fst (s.stopFunction_marks fn)
  have hmem := List.mem_map_of_mem (f := (·.fn)) hl
  rw [hm] at hmem
  obtain ⟨k, hk, hkl⟩ := List.mem_map.1 hmem
  rw [← hkl]
  exact of_decide_eq_true (List.mem_filter.1 hk).2

/-- A stopped function has no gang. -/
theorem State.stopFunction_gangs : ∀ g ∈ (s.stopFunction fn).gangs, g.fn ≠ fn :=
  s.stopFunction_eq fn ▸ fun _ hg => of_decide_eq_true (List.mem_filter.1 hg).2

/-- A stopped function has no place of the record store. -/
theorem State.stopFunction_store : ∀ e ∈ (s.stopFunction fn).store, e.ident.vf ≠ fn := by
  rw [s.stopFunction_eq]
  intro e he
  have hkept := (List.mem_filter.1 he).2
  simpa using hkept

theorem State.stopFunction_quarantined : (s.stopFunction fn).quarantined = s.quarantined :=
  congrArg (fun m => m.2.1) (s.stopFunction_marks fn)

theorem State.stopFunction_keyEpoch : (s.stopFunction fn).keyEpoch = s.keyEpoch :=
  congrArg (fun m => m.2.2) (s.stopFunction_marks fn)

/-- Where the one thread bound is of the function, it is gone. -/
theorem State.stopFunction_idle (ho : s.others = []) (hb : s.th.bound = true) (hf : s.th.ident.vf = fn) :
    (s.stopFunction fn).th = Thread.idle := by
  have hslots : s.slotsOf fn = [s.th.slot] := by
    unfold State.slotsOf State.threads
    rw [ho, if_pos hb]
    simp [hf]
  rw [s.stopFunction_eq, (State.disowned_keeps _ fn).2.1, hslots]
  exact (State.dropThread_ends _).idle

end

/-! ### The indexes of a function -/

/-- What stands when an index is emptied: all of the tables but its own slot (R289). -/
theorem State.destroyIndex_roll (s : State) (handle : Nat) (x : Index) :
    (s.destroyIndex handle x).roll = State.roll { s with indexes := Tab.put s.indexes (handle % 4096) ⟨handle / 4096, none⟩ } := by
  unfold State.destroyIndex State.leaveRegion
  extract_lets mine cs u v
  have hv : v.roll = s.roll := State.foldl_roll (fun _ _ => (State.failIx_storesOnly ..).roll) cs u
  refine (State.foldl_roll (fun _ _ => (State.hubWrite_keeps ..).1) _ _).trans ?_
  exact congrArg (fun r => (r.1, r.2.1, r.2.2.1, Tab.put r.2.2.2.1 (handle % 4096) ⟨handle / 4096, none⟩, r.2.2.2.2)) hv

/-- What each of a row of operations leaves of the thread at hand, the row leaves. -/
theorem State.foldl_th {α : Type} {f : State → α → State} (h : ∀ u a, (f u a).th = u.th) (l : List α) : ∀ s, (l.foldl f s).th = s.th := by
  induction l with
  | nil => exact fun _ => rfl
  | cons a l ih => exact fun s => (ih _).trans (h s a)

theorem State.destroyIndex_th (s : State) (handle : Nat) (x : Index) : (s.destroyIndex handle x).th = s.th := by
  unfold State.destroyIndex State.leaveRegion
  extract_lets mine cs u v
  have hv : v.th = s.th := State.foldl_th (fun _ _ => (State.failIx_storesOnly ..).th) cs u
  exact (State.foldl_th (fun _ _ => (State.hubWrite_keeps ..).2) _ _).trans hv

/-- The indexes of a function are destroyed one after another, as they are found in a list of slots. -/
def State.emptied (s : State) (fn : Nat) (es : Tab IxSlot) : State :=
  es.foldl (fun s e =>
    match e.2.index with
    | some x => if x.fn = fn then s.destroyIndex (e.1 + 4096 * e.2.gen) x else s
    | none => s) s

/-- A slot that holds an index of a function. -/
def IxSlot.holdsOf (fn : Nat) (e : IxSlot) : Prop := ∃ x, e.index = some x ∧ x.fn = fn

theorem State.emptied_cons (s : State) (fn : Nat) (e : Nat × IxSlot) (es : Tab IxSlot) :
    (e.2.holdsOf fn ∧ ∃ x, s.emptied fn (e :: es) = (s.destroyIndex (e.1 + 4096 * e.2.gen) x).emptied fn es)
      ∨ (¬e.2.holdsOf fn ∧ s.emptied fn (e :: es) = s.emptied fn es) := by
  obtain ⟨k, g, i⟩ := e
  cases i with
  | none => exact .inr ⟨fun ⟨_, h, _⟩ => (nomatch h), rfl⟩
  | some x =>
    by_cases hx : x.fn = fn
    · refine .inl ⟨⟨x, rfl, hx⟩, x, ?_⟩
      unfold State.emptied
      rw [List.foldl_cons]
      dsimp only
      rw [if_pos hx]
    · refine .inr ⟨fun ⟨_, h, hf⟩ => hx (Option.some.inj h ▸ hf), ?_⟩
      unfold State.emptied
      rw [List.foldl_cons]
      dsimp only
      rw [if_neg hx]

/-- The launches, gangs and places stand. -/
theorem State.emptied_stands (fn : Nat) (es : Tab IxSlot) : ∀ s : State,
    (s.emptied fn es).launches = s.launches ∧ (s.emptied fn es).gangs = s.gangs ∧ (s.emptied fn es).store = s.store := by
  induction es with
  | nil => exact fun _ => ⟨rfl, rfl, rfl⟩
  | cons e es ih =>
    intro s
    rcases s.emptied_cons fn e es with ⟨-, x, h⟩ | ⟨-, h⟩
    · have hr := s.destroyIndex_roll (e.1 + 4096 * e.2.gen) x
      obtain ⟨hl, hg, hst⟩ := ih (s.destroyIndex (e.1 + 4096 * e.2.gen) x)
      rw [h, hl, hg, hst]
      exact ⟨congrArg (·.1) hr, congrArg (·.2.1) hr, congrArg (·.2.2.1) hr⟩
    · rw [h]
      exact ih s

theorem State.emptied_th (fn : Nat) (es : Tab IxSlot) : ∀ s : State, (s.emptied fn es).th = s.th := by
  induction es with
  | nil => exact fun _ => rfl
  | cons e es ih =>
    intro s
    rcases s.emptied_cons fn e es with ⟨-, x, h⟩ | ⟨-, h⟩
    · rw [h, ih, State.destroyIndex_th]
    · rw [h, ih]

/-- A slot that holds an index of the function at the end held it before, and was not one of those in the list. -/
theorem State.emptied_holds (fn k : Nat) (hk : k < 4096) (es : Tab IxSlot) : ∀ (s : State) (e : IxSlot),
    Tab.find (s.emptied fn es).indexes k = some e → e.holdsOf fn → Tab.find s.indexes k = some e ∧ (k, e) ∉ es := by
  induction es with
  | nil => exact fun s e h _ => ⟨h, List.not_mem_nil⟩
  | cons d es ih =>
    intro s e h he
    rcases s.emptied_cons fn d es with ⟨hd, x, hs⟩ | ⟨hd, hs⟩ <;> rw [hs] at h
    · obtain ⟨hfind, hno⟩ := ih _ e h he
      have hi := congrArg (·.2.2.2.1) (s.destroyIndex_roll (d.1 + 4096 * d.2.gen) x)
      dsimp only [State.roll] at hi
      rw [hi] at hfind
      by_cases hkd : k = (d.1 + 4096 * d.2.gen) % 4096
      · rw [hkd, Tab.find_put_self] at hfind
        cases hfind
        exact nomatch he
      · rw [Tab.find_put_ne _ _ _ _ hkd] at hfind
        refine ⟨hfind, fun hmem => ?_⟩
        rcases List.mem_cons.1 hmem with hmem | hmem
        · rw [← hmem] at hkd
          dsimp only at hkd
          omega
        · exact hno hmem
    · obtain ⟨hfind, hno⟩ := ih _ e h he
      refine ⟨hfind, fun hmem => ?_⟩
      rcases List.mem_cons.1 hmem with hmem | hmem
      · exact hd (hmem ▸ he)
      · exact hno hmem

/-- A function whose indexes are destroyed has none (R355). -/
theorem State.destroyIndexes_none (s : State) (fn : Nat) : ∀ h x, (s.destroyIndexes fn).indexAt h = some x → x.fn ≠ fn := by
  intro h x hx hf
  unfold State.indexAt at hx
  split at hx
  next e he =>
    split at hx
    · obtain ⟨hfind, hno⟩ := State.emptied_holds fn (h % 4096) (Nat.mod_lt _ (by decide)) s.indexes s e he ⟨x, hx, hf⟩
      exact hno (Tab.mem_of_find hfind)
    · cases hx
  · cases hx

theorem State.destroyIndexes_th (s : State) (fn : Nat) : (s.destroyIndexes fn).th = s.th := State.emptied_th fn s.indexes s

end Sys2Proof.Machine
end

section
/-!
PROOF. What a function-level reset and a security alarm do (O52, R355, R359).
-/
namespace Sys2Proof.Machine
open Sys2Proof

/-! ### A function-level reset (R355) -/

theorem execFunctionLevelReset_first {s : State} (hu : s.ev.unit ≤ 128) (hr : s.ev.unit ∉ s.inReset) :
    exec .functionLevelReset s = .next { s with inReset := s.inReset ++ [s.ev.unit] } := by
  show execFunctionLevelReset s = _
  unfold execFunctionLevelReset
  simp [Nat.not_lt.2 hu, hr]

/-- A function's window is as after a reset of the device, and the function's own reset is over. -/
def State.windowReset (s : State) (fn : Nat) : State :=
  let b := s.bar fn
  { s.putBar fn { b with seq := 0, status := 0, id := 0, drops := 0 } with inReset := s.inReset.filter (· ≠ fn) }

/-- The state after the second step of a function's reset. -/
def State.functionReset (s : State) (fn : Nat) : State := ((s.stopFunction fn).destroyIndexes fn).windowReset fn

theorem execFunctionLevelReset_second {s : State} (hu : s.ev.unit ≤ 128) (hr : s.ev.unit ∈ s.inReset) :
    exec .functionLevelReset s = .next (s.functionReset s.ev.unit) := by
  show execFunctionLevelReset s = _
  unfold execFunctionLevelReset
  dsimp only
  rw [if_neg (Nat.not_lt.2 hu), if_neg (by simpa using hr)]
  rfl

section
variable (s : State) (fn : Nat)

theorem State.windowReset_keeps : (s.windowReset fn).launches = s.launches ∧ (s.windowReset fn).gangs = s.gangs
    ∧ (s.windowReset fn).store = s.store ∧ (s.windowReset fn).th = s.th ∧ (s.windowReset fn).indexes = s.indexes := by
  unfold State.windowReset State.putBar
  exact ⟨rfl, rfl, rfl, rfl, rfl⟩

theorem State.windowReset_bar : ((s.windowReset fn).bar fn).seq = 0 ∧ ((s.windowReset fn).bar fn).status = 0 := by
  have hb : (s.windowReset fn).bar fn = { s.bar fn with seq := 0, status := 0, id := 0, drops := 0 } := Tab.get_put_self _ _ _ _
  rw [hb]
  exact ⟨rfl, rfl⟩

theorem State.windowReset_inReset : fn ∉ (s.windowReset fn).inReset :=
  fun h => of_decide_eq_true (List.mem_filter.1 h).2 rfl

/-- What a reset leaves is what the end of the threads leaves, and the function's indexes are gone (R289). -/
theorem State.functionReset_keeps : (s.functionReset fn).launches = (s.stopFunction fn).launches
    ∧ (s.functionReset fn).gangs = (s.stopFunction fn).gangs ∧ (s.functionReset fn).store = (s.stopFunction fn).store
    ∧ (s.functionReset fn).th = (s.stopFunction fn).th := by
  obtain ⟨hl, hg, hst⟩ := State.emptied_stands fn (s.stopFunction fn).indexes (s.stopFunction fn)
  have hth := (s.stopFunction fn).destroyIndexes_th fn
  obtain ⟨kl, kg, kst, kth, -⟩ := ((s.stopFunction fn).destroyIndexes fn).windowReset_keeps fn
  exact ⟨kl.trans hl, kg.trans hg, kst.trans hst, kth.trans hth⟩

theorem State.functionReset_indexAt : ∀ h x, (s.functionReset fn).indexAt h = some x → x.fn ≠ fn := by
  intro h x hx
  obtain ⟨-, -, -, -, hi⟩ := ((s.stopFunction fn).destroyIndexes fn).windowReset_keeps fn
  refine (s.stopFunction fn).destroyIndexes_none fn h x ?_
  unfold State.indexAt State.functionReset at *
  rw [hi] at hx
  exact hx

end

/-! ### A security alarm (R359) -/

/-- Monel learns of an alarm. -/
def State.alarmed (s : State) : State :=
  { s with monel := s.monel ++ [⟨.alarm, ⟨s.ev.unit, 0, 0, 0, none⟩, [s.ev.idx, s.ev.data.toNat, s.ev.unit, s.ev.num, s.period]⟩] }

/-- The first action: the function is in quarantine, and stopped. -/
def State.quarantine (s : State) (fn : Nat) : State :=
  { s with quarantined := fn :: s.quarantined.filter (· ≠ fn) }.stopFunction fn

/-- The second action: the function has a new key. -/
def State.freshKey (s : State) (fn : Nat) : State := { s with keyEpoch := Tab.put s.keyEpoch fn (Tab.get s.keyEpoch fn 0 + 1) }

/-- The third action: the device is halted, and every key erased. -/
def State.eraseKeys (s : State) : State :=
  { s with halted := true, erased := true, keyEpoch := (List.range 129).map (fun v => (v, Tab.get s.keyEpoch v 0 + 1)) }

section
variable {s : State}

theorem execSecurityAlarm_within (h : s.ev.num ≤ s.budget s.ev.unit s.ev.idx + 64) : exec .securityAlarm s = .next s := by
  show execSecurityAlarm s = _
  unfold execSecurityAlarm
  simp [Nat.not_lt.2 h]

variable (hu : s.ev.unit ≤ 128) (hi : s.ev.idx < 7) (hn : s.budget s.ev.unit s.ev.idx + 64 < s.ev.num)
include hu hi hn

/-- An alarm above its budget takes the action of its class and those before it. -/
theorem execSecurityAlarm_over : exec .securityAlarm s = .next (
    let action := s.cfg.alarms.getD s.ev.idx 0
    let v := if 1 ≤ action then s.alarmed.quarantine s.ev.unit else s.alarmed
    let w := if 2 ≤ action then v.freshKey s.ev.unit else v
    if 3 ≤ action then w.eraseKeys else w) := by
  show execSecurityAlarm s = _
  unfold execSecurityAlarm
  refine congrArg Host.Outcome.next ((if_neg ?_).trans rfl)
  simp [hu, hi, hn]

end

theorem State.quarantine_told (s : State) (fn : Nat) : s.Told (s.quarantine fn) :=
  State.stopFunction_told { s with quarantined := fn :: s.quarantined.filter (· ≠ fn) } fn

/-- A function in quarantine has no launch and no gang, and the keys stand. -/
theorem State.quarantine_stops (s : State) (fn : Nat) : fn ∈ (s.quarantine fn).quarantined ∧ (∀ l ∈ (s.quarantine fn).launches, l.fn ≠ fn)
    ∧ (∀ g ∈ (s.quarantine fn).gangs, g.fn ≠ fn) ∧ (s.quarantine fn).keyEpoch = s.keyEpoch := by
  have hq : (s.quarantine fn).quarantined = fn :: s.quarantined.filter (· ≠ fn) := State.stopFunction_quarantined _ fn
  exact ⟨hq ▸ List.mem_cons_self, State.stopFunction_launches _ fn, State.stopFunction_gangs _ fn, State.stopFunction_keyEpoch _ fn⟩

theorem State.freshKey_self (s : State) (fn : Nat) : Tab.get (s.freshKey fn).keyEpoch fn 0 = Tab.get s.keyEpoch fn 0 + 1 :=
  Tab.get_put_self _ _ _ _

/-- No key goes back. -/
theorem State.freshKey_le (s : State) (fn f : Nat) : Tab.get s.keyEpoch f 0 ≤ Tab.get (s.freshKey fn).keyEpoch f 0 := by
  by_cases h : f = fn
  · rw [h, s.freshKey_self]
    exact Nat.le_succ _
  · exact Nat.le_of_eq (Tab.get_put_ne _ _ _ _ _ h).symm

/-- A table made of a list of numbers. -/
theorem Tab.find_map_mem {α : Type} (g : Nat → α) (k : Nat) (l : List Nat) (hk : k ∈ l) :
    Tab.find (l.map (fun v => (v, g v))) k = some (g k) := by
  induction l with
  | nil => exact nomatch hk
  | cons b r ih =>
    rw [List.map_cons, Tab.find]
    split
    next h => rw [h]
    next h => exact ih ((List.mem_cons.1 hk).resolve_left h)

theorem State.eraseKeys_get (s : State) {f : Nat} (hf : f ≤ 128) : Tab.get s.eraseKeys.keyEpoch f 0 = Tab.get s.keyEpoch f 0 + 1 := by
  unfold Tab.get State.eraseKeys
  dsimp only
  rw [Tab.find_map_mem _ f _ (List.mem_range.2 (by omega))]
  rfl

/-- What an alarm above its budget does, by the action of its class. -/
theorem State.alarm_acts {s : State} (hu : s.ev.unit ≤ 128) (hi : s.ev.idx < 7) (hn : s.budget s.ev.unit s.ev.idx + 64 < s.ev.num) :
    ∃ t, exec .securityAlarm s = .next t ∧ s.alarmed.Told t
      ∧ (s.cfg.alarms.getD s.ev.idx 0 = 0 → t = s.alarmed)
      ∧ (1 ≤ s.cfg.alarms.getD s.ev.idx 0 → s.ev.unit ∈ t.quarantined ∧ (∀ l ∈ t.launches, l.fn ≠ s.ev.unit) ∧ (∀ g ∈ t.gangs, g.fn ≠ s.ev.unit))
      ∧ (2 ≤ s.cfg.alarms.getD s.ev.idx 0 → Tab.get s.keyEpoch s.ev.unit 0 < Tab.get t.keyEpoch s.ev.unit 0)
      ∧ (3 ≤ s.cfg.alarms.getD s.ev.idx 0 → t.halted = true ∧ t.erased = true ∧ ∀ f ≤ 128, Tab.get s.keyEpoch f 0 < Tab.get t.keyEpoch f 0) := by
  have hexec := execSecurityAlarm_over hu hi hn
  obtain ⟨hq, hl, hg, hk⟩ := s.alarmed.quarantine_stops s.ev.unit
  have htold := s.alarmed.quarantine_told s.ev.unit
  have hkey : (s.alarmed.quarantine s.ev.unit).keyEpoch = s.keyEpoch := hk
  generalize s.cfg.alarms.getD s.ev.idx 0 = action at hexec ⊢
  generalize s.alarmed.quarantine s.ev.unit = v at *
  have hfresh := v.freshKey_self s.ev.unit
  have hle := v.freshKey_le s.ev.unit
  rw [hkey] at hfresh hle
  match action with
  | 0 =>
    exact ⟨_, hexec, .refl _, fun _ => rfl, fun h => absurd h (by decide), fun h => absurd h (by decide), fun h => absurd h (by decide)⟩
  | 1 =>
    exact ⟨_, hexec, htold, fun h => absurd h (by decide), fun _ => ⟨hq, hl, hg⟩, fun h => absurd h (by decide), fun h => absurd h (by decide)⟩
  | 2 =>
    exact ⟨_, hexec, htold.then rfl, fun h => absurd h (by decide), fun _ => ⟨hq, hl, hg⟩, fun _ => hfresh ▸ Nat.lt_succ_self _, fun h => absurd h (by decide)⟩
  | n + 3 =>
    dsimp only at hexec
    rw [if_pos (by omega), if_pos (by omega), if_pos (by omega)] at hexec
    have herased (f : Nat) (hf : f ≤ 128) : Tab.get s.keyEpoch f 0 < Tab.get (v.freshKey s.ev.unit).eraseKeys.keyEpoch f 0 := by
      rw [State.eraseKeys_get _ hf]
      exact Nat.lt_succ_of_le (hle f)
    exact ⟨_, hexec, htold.then rfl, fun h => absurd h (by omega), fun _ => ⟨hq, hl, hg⟩, fun _ => herased _ hu, fun _ => ⟨rfl, rfl, herased⟩⟩

end Sys2Proof.Machine
end

section
/-!
PROOF. Boots and conventional resets (O52, R346, R368).
-/
namespace Sys2Proof.Machine
open Sys2Proof

/-- Nothing runs and nothing is queued, and the usage and the epoch of the identity stand. -/
structure Blank (s t : State) : Prop where
  th : t.th = Thread.idle
  others : t.others = []
  launches : t.launches = []
  gangs : t.gangs = []
  loc : t.loc = []
  indexes : t.indexes = []
  usage : t.usage = s.usage
  epoch : t.epoch = s.epoch

section
variable (s : State) (r : ConfigRecord)

theorem State.offline_blank : Blank s s.offline := ⟨rfl, rfl, rfl, rfl, rfl, rfl, rfl, rfl⟩

theorem State.zeroed_blank : Blank s (s.zeroed r) := ⟨rfl, rfl, rfl, rfl, rfl, rfl, rfl, rfl⟩

theorem State.bringUp_blank : Blank s (s.bringUp r) := ⟨rfl, rfl, rfl, rfl, rfl, rfl, rfl, rfl⟩

/-- A boot that fails has done some of the steps of one that does not. -/
theorem State.stopped_blank (k : Nat) : Blank s { s.stopped k r with halted := true, bootStep := k } := by
  have h : Blank s (s.stopped k r) := by
    unfold State.stopped
    split
    · exact s.offline_blank
    · split
      · exact ⟨rfl, rfl, rfl, rfl, rfl, rfl, rfl, rfl⟩
      · split
        · exact s.zeroed_blank r
        · exact s.bringUp_blank r
  obtain ⟨hth, hothers, hlaunches, hgangs, hloc, hindexes, husage, hepoch⟩ := h
  exact ⟨hth, hothers, hlaunches, hgangs, hloc, hindexes, husage, hepoch⟩

/-! ### The steps of a boot -/

/-- The step at which a boot ends, 0 where it does not fail (R368). -/
def bootStop (n : Nat) (r : ConfigRecord) : Nat := if 1 ≤ n ∧ n ≤ 3 then n else if !recordOk r then 3 else if n ≤ 6 then n else 0

theorem State.bootWith_eq (n : Nat) : s.bootWith n r =
    if bootStop n r = 0 then s.bringUp r else { s.stopped (bootStop n r) r with halted := true, bootStep := bootStop n r } := rfl

theorem State.bootWith_up {n : Nat} (h : bootStop n r = 0) : s.bootWith n r = s.bringUp r := by
  rw [s.bootWith_eq, if_pos h]

theorem State.bootWith_stops {n k : Nat} (h : bootStop n r = k + 1) :
    s.bootWith n r = { s.stopped (k + 1) r with halted := true, bootStep := k + 1 } := by
  rw [s.bootWith_eq, h, if_neg (Nat.succ_ne_zero k)]

theorem State.stopped_early {k : Nat} (h : k ≤ 3) : s.stopped k r = s.offline := if_pos h

theorem State.stopped_four : s.stopped 4 r = { s.offline with cfg := r } := rfl

theorem State.stopped_later {n : Nat} (h5 : 5 ≤ n) : (s.stopped n r).mem = (s.zeroed r).mem ∧ (s.stopped n r).cfg = r := by
  unfold State.stopped
  rw [if_neg (by omega), if_neg (by omega)]
  split
  · exact ⟨rfl, rfl⟩
  · exact ⟨rfl, rfl⟩

/-! ### Memory and the weights -/

theorem Tab.find_filter_none {α : Type} (p : Nat → Bool) (k : Nat) (hp : p k = false) (t : Tab α) :
    Tab.find (t.filter (fun e => p e.1)) k = none := by
  induction t with
  | nil => rfl
  | cons e t ih =>
    obtain ⟨b, v⟩ := e
    rw [List.filter_cons]
    split
    next h =>
      rw [Tab.find, if_neg (by rintro rfl; simp [hp] at h)]
      exact ih
    next => exact ih

/-- Device memory ends below 2^40. -/
theorem isOutside_device {j : Nat} (hj : j < 2 ^ 40) : isOutside j = false := by
  unfold isOutside isHost isPeer peerBase
  simp
  omega

theorem State.zeroed_mem {j : Nat} (hj : j < 2 ^ 40) : Memory.read (s.zeroed r).mem j = 0 := by
  unfold Memory.read Tab.get
  rw [show Tab.find (s.zeroed r).mem j = none from Tab.find_filter_none isOutside j (isOutside_device hj) s.mem]
  rfl

/-- A table of entries put one after another. -/
def Tab.puts {α : Type} (l : List (Nat × α)) (t : Tab α) : Tab α := l.foldl (fun t e => Tab.put t e.1 e.2) t

theorem Tab.find_puts_of_not_mem {α : Type} (k : Nat) (l : List (Nat × α)) : ∀ t : Tab α, k ∉ l.map (·.1) →
    Tab.find (Tab.puts l t) k = Tab.find t k := by
  induction l with
  | nil => exact fun _ _ => rfl
  | cons e l ih =>
    intro t h
    rw [List.map_cons, List.mem_cons, not_or] at h
    exact (ih _ h.2).trans (Tab.find_put_ne _ _ _ _ h.1)

theorem Tab.find_puts {α : Type} (l : List (Nat × α)) : ∀ t : Tab α, (l.map (·.1)).Nodup →
    ∀ e ∈ l, Tab.find (Tab.puts l t) e.1 = some e.2 := by
  induction l with
  | nil => exact fun _ _ _ h => nomatch h
  | cons d l ih =>
    intro t hl e he
    rw [List.map_cons, List.nodup_cons] at hl
    rcases List.mem_cons.1 he with rfl | he
    · exact (Tab.find_puts_of_not_mem _ _ _ hl.1).trans (Tab.find_put_self _ _ _)
    · exact ih _ hl.2 e he

/-- Each function has the weight that the record gives it (R148). -/
theorem State.bringUp_quantum (hl : (r.weights.map (·.1)).Nodup) : ∀ e ∈ r.weights, (s.bringUp r).quantum e.1 = e.2 * 7520 := by
  intro e he
  have h : Tab.find (s.bringUp r).weights e.1 = some e.2 := Tab.find_puts r.weights [] hl e he
  unfold State.quantum Tab.get
  rw [h]

end

/-- What a boot leaves, by the step at which it ends. -/
theorem State.bootWith_leaves (s : State) (num : Nat) (r : ConfigRecord) :
    let t := s.bootWith num r
    Blank s t
      ∧ (recordOk r = true → num = 0 ∨ 6 < num → t.halted = false ∧ t.bootStep = 0 ∧ (∀ j < 2 ^ 40, Memory.read t.mem j = 0) ∧ t.cfg = r
        ∧ ((r.weights.map (·.1)).Nodup → ∀ e ∈ r.weights, t.quantum e.1 = e.2 * 7520))
      ∧ (1 ≤ num → num ≤ 3 → (t.halted = true ∧ t.bootStep = num) ∧ t.mem = s.mem ∧ t.cfg = s.cfg)
      ∧ (¬recordOk r = true → num = 0 ∨ 3 < num → (t.halted = true ∧ t.bootStep = 3) ∧ t.mem = s.mem ∧ t.cfg = s.cfg)
      ∧ (recordOk r = true → num = 4 → (t.halted = true ∧ t.bootStep = 4) ∧ t.mem = s.mem)
      ∧ (recordOk r = true → 5 ≤ num → num ≤ 6 → (t.halted = true ∧ t.bootStep = num) ∧ (∀ j < 2 ^ 40, Memory.read t.mem j = 0) ∧ t.cfg = r) := by
  intro t
  have hstop : bootStop num r = if 1 ≤ num ∧ num ≤ 3 then num else if !recordOk r then 3 else if num ≤ 6 then num else 0 := rfl
  have hup := s.bootWith_up r (n := num)
  have hstops (k : Nat) := s.bootWith_stops r (n := num) (k := k)
  refine ⟨?_, fun hr hn => ?_, fun h1 h3 => ?_, fun hr hn => ?_, fun hr h4 => ?_, fun hr h5 h6 => ?_⟩
  · show Blank s (s.bootWith num r)
    rw [s.bootWith_eq]
    split
    · exact s.bringUp_blank r
    · exact s.stopped_blank r _
  · have hz : bootStop num r = 0 := by
      rw [hstop, if_neg (by omega), if_neg (by simp [hr])]
      split <;> omega
    rw [show t = s.bringUp r from hup hz]
    exact ⟨rfl, rfl, fun j hj => s.zeroed_mem r hj, rfl, s.bringUp_quantum r⟩
  · obtain ⟨k, rfl⟩ := Nat.exists_eq_add_of_le' h1
    rw [show t = _ from hstops k (hstop.trans (if_pos ⟨h1, h3⟩)), s.stopped_early r h3]
    exact ⟨⟨rfl, rfl⟩, rfl, rfl⟩
  · rw [show t = _ from hstops 2 (by rw [hstop, if_neg (by omega), if_pos (by simp [hr])]), s.stopped_early r (by decide)]
    exact ⟨⟨rfl, rfl⟩, rfl, rfl⟩
  · subst h4
    rw [show t = _ from hstops 3 (by rw [hstop, if_neg (by omega), if_neg (by simp [hr]), if_pos (by omega)]), s.stopped_four]
    exact ⟨⟨rfl, rfl⟩, rfl⟩
  · obtain ⟨hmem, hcfg⟩ := s.stopped_later r h5
    obtain ⟨k, rfl⟩ := Nat.exists_eq_add_of_le' h5
    rw [show t = _ from hstops (k + 4) (by rw [hstop, if_neg (by omega), if_neg (by simp [hr]), if_pos h6])]
    exact ⟨⟨rfl, rfl⟩, fun j hj => hmem ▸ s.zeroed_mem r hj, hcfg⟩

end Sys2Proof.Machine
end

section
/-!
PROOF. Cores that fail, leave service and come back (O52, R162, R174, R309, R310).
-/
namespace Sys2Proof.Machine
open Sys2Proof

/-! ### A core that leaves service or comes back -/

/-- A scratchpad made zero, and nothing else. -/
theorem State.zeroPad_read (s : State) (core j : Nat) : Memory.read (s.zeroPad core).loc j =
    if 0x100000000 + core * 0x60000 ≤ j ∧ j < 0x100000000 + (core + 1) * 0x60000 then 0 else Memory.read s.loc j := by
  refine (Memory.read_clear s.loc (padKey core) 0x60000 j).trans ?_
  unfold padKey
  rw [show 0x100000000 + (core + 1) * 0x60000 = 0x100000000 + core * 0x60000 + 0x60000 by omega]
  rfl

section
variable {s : State}

theorem execCoreOutOfService_leaves (hu : s.ev.unit < 1280) (hc : s.ev.unit ∉ s.cfg.coresOut) (ht : ∀ v ∈ s.threads, coreOf v.slot ≠ s.ev.unit) :
    exec .coreOutOfService s = .next { s.zeroPad s.ev.unit with
      cfg := { s.cfg with coresOut := s.cfg.coresOut ++ [s.ev.unit] }
      monel := s.monel ++ [⟨.core, ⟨0, 0, 0, 0, none⟩, [s.ev.unit]⟩] } := by
  refine congrArg Host.Outcome.next (if_neg ?_)
  have hany : s.threads.any (fun t => coreOf t.slot == s.ev.unit) = false := List.any_eq_false.2 fun t h => by simpa using ht t h
  simp [hu, hc, hany]

theorem execCoreReturnToService_back (hc : s.ev.unit ∈ s.cfg.coresOut) : exec .coreReturnToService s =
    .next { s.zeroPad s.ev.unit with cfg := { s.cfg with coresOut := s.cfg.coresOut.filter (· ≠ s.ev.unit) } } :=
  congrArg Host.Outcome.next (if_pos (by simpa using hc))

end

/-! ### A core that fails: its threads -/

section
variable (s : State) (core : Nat)

/-- Monel learns of every thread bound on a core. -/
def State.toldLost : State :=
  { s with monel := s.monel ++ (s.threads.filter (fun t => coreOf t.slot == core)).map (fun t => (⟨.lost, t.ident, [3, 0]⟩ : MonelReport)) }

/-- The state in which the threads of a core that fails are gone (R309). -/
def State.coreLost : State := (s.threads.filter (fun t => coreOf t.slot == core)).foldl (fun s t => s.stopLost t.ident) (s.toldLost core)

/-- The entries of the words that a core holds registered. -/
def State.wordsOf : Tab Registered := s.regs.filter (fun e => e.2.core == some core)

/-- Each word of a list may have been evicted to its slice before (R174). -/
def State.mayEvict (es : Tab Registered) : State := es.foldl (fun s e => let (gone, s) := s.drawBit; if gone then s.toSlice e.1 else s) s

/-- The words that a core still holds are poisoned, and Monel learns of each (R174). -/
def State.wordsLost : State :=
  let u := (s.wordsOf core).foldl (fun s e => s.settleMem (8 * e.1) 8) s
  { u with
    poison := (s.wordsOf core).foldl (fun t e => Tab.put t (8 * e.1) true) u.poison
    regs := u.regs.filter (fun e => e.2.core ≠ some core)
    monel := u.monel ++ (s.wordsOf core).map (fun e => (⟨.poison, ⟨0, 0, 0, 0, none⟩, [e.2.va, core]⟩ : MonelReport)) }

theorem execCoreFailure_eq : exec .coreFailure s =
    .next (((s.coreLost s.ev.unit).mayEvict ((s.coreLost s.ev.unit).wordsOf s.ev.unit)).wordsLost s.ev.unit) := rfl

theorem State.stopLost_told (i : Ident) : s.Told (s.stopLost i) := by
  unfold State.stopLost
  split
  · exact State.stopGang_told ..
  · exact .refl s

theorem State.coreLost_told : (s.toldLost core).Told (s.coreLost core) := State.foldl_told (fun u (t : Thread) => u.stopLost_told t.ident) _ _

theorem State.coreLost_none (h : ∀ v ∈ s.threads, coreOf v.slot ≠ core) : s.coreLost core = s := by
  have hnone : s.threads.filter (fun t => coreOf t.slot == core) = [] := List.filter_eq_nil_iff.2 fun t ht => by simpa using h t ht
  unfold State.coreLost State.toldLost
  rw [hnone]
  show ({ s with monel := s.monel ++ [] } : State) = s
  rw [List.append_nil]

/-- The one thread of a core that fails is gone. -/
theorem State.coreLost_idle (ho : s.others = []) (hb : s.th.bound = true) (hc : coreOf s.th.slot = core) {g : Gang} (hg : s.ownGang = some g) :
    (s.coreLost core).th = Thread.idle := by
  have hlost : s.threads.filter (fun t => coreOf t.slot == core) = [s.th] := by
    unfold State.threads
    rw [ho, if_pos hb]
    simp [hc]
  unfold State.coreLost State.toldLost
  rw [hlost]
  have hloss := State.loseContext_of_gang (s := s) hg 3 0
  have hstop : (State.toldLost s core).stopLost s.th.ident = s.loseContext 3 0 := by
    rw [hloss]
    unfold State.stopLost State.toldLost
    rw [hlost]
    show (match s.gangOf s.th.ident with | some g => _ | none => _) = _
    rw [show s.gangOf s.th.ident = some g from hg]
    rfl
  unfold State.toldLost at hstop
  rw [hlost] at hstop
  rw [List.foldl_cons, List.foldl_nil, hstop]
  exact (State.loseContext_alone hb hg 3 0 ho).1

/-! ### Its registered words -/

theorem State.mayEvict_frame (es : Tab Registered) : ∀ s : State, XlatFrame s (s.mayEvict es) := by
  induction es with
  | nil => exact .refl
  | cons e es ih =>
    intro s
    have hd : XlatFrame s s.drawBit.2 := ⟨rfl, id⟩
    refine .trans ?_ (ih _)
    show XlatFrame s (if s.drawBit.1 then s.drawBit.2.toSlice e.1 else s.drawBit.2)
    split
    · exact hd.trans (State.toSlice_frame ..)
    · exact hd

theorem State.mayEvict_told (es : Tab Registered) (s : State) : s.Told (s.mayEvict es) := by
  refine State.foldl_told (fun u e => ?_) es s
  have hd : u.Told u.drawBit.2 := .of_eq rfl
  show u.Told (if u.drawBit.1 then u.drawBit.2.toSlice e.1 else u.drawBit.2)
  split
  · exact hd.trans (State.toSlice_bound ..).tells
  · exact hd

theorem State.settled_words (es : Tab Registered) : ∀ s : State,
    (es.foldl (fun s e => s.settleMem (8 * e.1) 8) s) = { s with memPast := (es.foldl (fun s e => s.settleMem (8 * e.1) 8) s).memPast } := by
  induction es with
  | nil => exact fun _ => rfl
  | cons e es ih =>
    intro s
    rw [List.foldl_cons, ih]
    rfl

/-- What the loss of the words leaves, and what Monel learns of it. -/
theorem State.wordsLost_leaves : (s.wordsLost core).th = s.th ∧ (s.wordsLost core).mem = s.mem ∧ (s.wordsLost core).loc = s.loc
    ∧ (s.wordsLost core).monel = s.monel ++ (s.wordsOf core).map (fun e => (⟨.poison, ⟨0, 0, 0, 0, none⟩, [e.2.va, core]⟩ : MonelReport))
    ∧ (s.wordsLost core).regs = s.regs.filter (fun e => e.2.core ≠ some core)
    ∧ (s.wordsLost core).poison = (s.wordsOf core).foldl (fun t e => Tab.put t (8 * e.1) true) s.poison := by
  have h := State.settled_words (s.wordsOf core) s
  unfold State.wordsLost
  dsimp only
  rw [h]
  exact ⟨rfl, rfl, rfl, rfl, rfl, rfl⟩

end

/-- An entry of a table is put, and stays. -/
theorem Tab.get_puts_true (es : Tab Registered) (k : Nat) : ∀ t : Tab Bool, (Tab.get t (8 * k) false = true ∨ ∃ e ∈ es, e.1 = k) →
    Tab.get (es.foldl (fun t e => Tab.put t (8 * e.1) true) t) (8 * k) false = true := by
  induction es with
  | nil => exact fun t h => h.resolve_right fun ⟨_, he, _⟩ => nomatch he
  | cons d es ih =>
    intro t h
    refine ih _ ?_
    by_cases hd : d.1 = k
    · exact .inl (hd ▸ Tab.get_put_self _ _ _ _)
    · refine h.imp (fun h => (Tab.get_put_ne _ _ _ _ _ (by omega)).trans h) ?_
      rintro ⟨e, he, hk⟩
      rcases List.mem_cons.1 he with rfl | he
      · exact absurd hk hd
      · exact ⟨e, he, hk⟩

theorem Tab.find_filter_of {α : Type} (p : Nat × α → Bool) {k : Nat} {v : α} (hp : p (k, v) = true) (t : Tab α) (h : Tab.find t k = some v) :
    Tab.find (t.filter p) k = some v := by
  induction t with
  | nil => cases h
  | cons e t ih =>
    obtain ⟨b, w⟩ := e
    rw [Tab.find] at h
    by_cases hk : k = b
    · rw [if_pos hk] at h
      cases h
      subst hk
      rw [List.filter_cons_of_pos hp, Tab.find, if_pos rfl]
    · rw [if_neg hk] at h
      rw [List.filter_cons]
      split
      · rw [Tab.find, if_neg hk]
        exact ih h
      · exact ih h

/-! ### Words that may have been evicted, where the slices have room -/

/-- A list without its repetitions has none (by induction on a bound of its length). -/
theorem List.nodup_eraseDups {α : Type} [BEq α] [LawfulBEq α] (n : Nat) : ∀ l : List α, l.length ≤ n → l.eraseDups.Nodup := by
  induction n with
  | zero =>
    intro l h
    rw [List.eq_nil_of_length_eq_zero (Nat.le_zero.1 h), List.eraseDups_nil]
    exact List.nodup_nil
  | succ n ih =>
    intro l h
    cases l with
    | nil =>
      rw [List.eraseDups_nil]
      exact List.nodup_nil
    | cons a l =>
      rw [List.eraseDups_cons, List.nodup_cons]
      refine ⟨fun ha => ?_, ih _ (Nat.le_trans (List.length_filter_le ..) (Nat.le_of_succ_le_succ h))⟩
      have := (List.mem_filter.1 (List.mem_eraseDups.1 ha)).2
      simp at this

/-- A word's entry after some evictions: it stands, or its core has given it to its slice. -/
def Evicted (s v : State) (w : Nat) : Prop :=
  Tab.find v.regs w = Tab.find s.regs w ∨ ∃ r, Tab.find s.regs w = some r ∧ Tab.find v.regs w = some { r with core := none }

/-- After some evictions that have found room in the slices: only words that were there stand in the caches, and memory stands. -/
structure Evicts (s v : State) : Prop where
  bytes : KeepsBytes s v
  words : ∀ e ∈ v.regs, e.1 ∈ s.regs.map (·.1)
  each : ∀ w, Evicted s v w

theorem Evicts.refl (s : State) : Evicts s s := ⟨fun _ => ⟨rfl, rfl⟩, fun _ he => List.mem_map_of_mem he, fun _ => .inl rfl⟩

/-- A slice has room where fewer words are registered than a slice has lines (R165). -/
theorem State.sliceRoom_free {s v : State} (hw : ∀ e ∈ v.regs, e.1 ∈ s.regs.map (·.1)) (hl : s.regs.length < 4096) (slice word : Nat) :
    v.sliceRoom slice word = v := by
  have hlines : (v.linesOf (·.inSlice slice)).length < sliceLines := by
    have hsub : v.linesOf (·.inSlice slice) ⊆ s.regs.map (fun e => e.1 / 8) := by
      intro k hk
      obtain ⟨e, he, rfl⟩ := List.mem_map.1 (List.mem_eraseDups.1 hk)
      obtain ⟨d, hd, hde⟩ := List.mem_map.1 (hw e (List.mem_filter.1 he).1)
      exact List.mem_map.2 ⟨d, hd, by rw [hde]⟩
    have hle := (List.subperm_of_subset (List.nodup_eraseDups _ _ le_rfl) hsub).length_le
    rw [List.length_map] at hle
    exact Nat.lt_of_le_of_lt hle hl
  unfold State.sliceRoom
  dsimp only
  rw [if_pos]
  simp [hlines]

theorem Evicts.toSlice {s v : State} (h : Evicts s v) (hl : s.regs.length < 4096) (w : Nat) : Evicts s (v.toSlice w) := by
  unfold State.toSlice
  split
  · exact h
  next r hr =>
    split
    · exact h
    next hcore =>
      have hroom : (v.wakeSlice r.slice).sliceRoom r.slice w = v.wakeSlice r.slice :=
        State.sliceRoom_free (s := s) (v := v.wakeSlice r.slice) h.words hl _ _
      dsimp only
      rw [hroom]
      refine ⟨h.bytes, fun e he => ?_, fun k => ?_⟩
      · rcases Tab.mem_put he with rfl | he
        · exact h.words (w, r) (Tab.mem_of_find hr)
        · exact h.words e he
      · by_cases hk : k = w
        · subst hk
          rcases h.each k with hs | ⟨q, -, hq⟩
          · exact .inr ⟨r, hs ▸ hr, Tab.find_put_self _ _ _⟩
          · rw [hr] at hq
            cases hq
            exact absurd rfl hcore
        · have hput : Tab.find (Tab.put v.regs w { r with core := none }) k = Tab.find v.regs k := Tab.find_put_ne _ _ _ _ hk
          exact (h.each k).imp hput.trans fun ⟨q, hq, hv⟩ => ⟨q, hq, hput.trans hv⟩

theorem State.mayEvict_evicts {s : State} (hl : s.regs.length < 4096) (es : Tab Registered) : ∀ v : State,
    Evicts s v → Evicts s (v.mayEvict es) := by
  induction es with
  | nil => exact fun _ h => h
  | cons e es ih =>
    intro v h
    have hd : Evicts s v.drawBit.2 := ⟨h.bytes, h.words, h.each⟩
    refine ih _ ?_
    show Evicts s (if v.drawBit.1 then v.drawBit.2.toSlice e.1 else v.drawBit.2)
    split
    · exact hd.toSlice hl e.1
    · exact hd

end Sys2Proof.Machine
end

section
/-!
PROOF. What resets, boots, alarms, rotations and failing cores do (O52).
-/
namespace Sys2Proof.Machine
open Sys2Proof

section
variable (s : State) (core : Nat)

/-- The state in which a core has failed. -/
def State.coreFailed : State := ((s.coreLost core).mayEvict ((s.coreLost core).wordsOf core)).wordsLost core

/-- The reports of words that are poisoned. -/
def State.poisonReports : List MonelReport := (s.wordsOf core).map (fun e => ⟨.poison, ⟨0, 0, 0, 0, none⟩, [e.2.va, core]⟩)

theorem State.coreFailed_regs : ∀ e ∈ (s.coreFailed core).regs, e.2.core ≠ some core := by
  obtain ⟨-, -, -, -, hregs, -⟩ := ((s.coreLost core).mayEvict ((s.coreLost core).wordsOf core)).wordsLost_leaves core
  intro e he
  unfold State.coreFailed at he
  rw [hregs] at he
  exact of_decide_eq_true (List.mem_filter.1 he).2

/-- Monel learns of the threads first, and of the words last. -/
theorem State.coreFailed_monel : ∃ mid, (s.coreFailed core).monel = s.monel
    ++ (s.threads.filter (fun v => coreOf v.slot = core)).map (fun v => (⟨.lost, v.ident, [3, 0]⟩ : MonelReport))
    ++ (mid ++ ((s.coreLost core).mayEvict ((s.coreLost core).wordsOf core)).poisonReports core) := by
  obtain ⟨mid, hmid⟩ := (s.coreLost_told core).trans (State.mayEvict_told ((s.coreLost core).wordsOf core) _)
  obtain ⟨-, -, -, hmonel, -⟩ := ((s.coreLost core).mayEvict ((s.coreLost core).wordsOf core)).wordsLost_leaves core
  have hon : (fun v : Thread => decide (coreOf v.slot = core)) = fun v => coreOf v.slot == core := by
    funext v
    rw [beq_eq_decide]
  refine ⟨mid, ?_⟩
  unfold State.coreFailed
  rw [hmonel, ← hmid, hon, List.append_assoc]
  rfl

theorem State.coreFailed_th : (s.coreFailed core).th = (s.coreLost core).th := by
  obtain ⟨hth, -⟩ := ((s.coreLost core).mayEvict ((s.coreLost core).wordsOf core)).wordsLost_leaves core
  exact hth.trans (State.mayEvict_frame _ _).th

variable (hnone : ∀ v ∈ s.threads, coreOf v.slot ≠ core) (hl : s.regs.length < 4096)
include hnone hl

theorem State.coreFailed_bytes : KeepsBytes s (s.coreFailed core) := by
  have hbytes := (State.mayEvict_evicts hl (s.wordsOf core) s (.refl s)).bytes
  obtain ⟨-, hmem, hloc, -⟩ := (s.mayEvict (s.wordsOf core)).wordsLost_leaves core
  unfold State.coreFailed KeepsBytes
  rw [s.coreLost_none core hnone, hmem, hloc]
  exact hbytes

/-- A word that the core held registered is poisoned and Monel learns of it, or it had been evicted to its slice. -/
theorem State.coreFailed_word {w : Nat} {r : Registered} (hw : Tab.find s.regs w = some r) (hr : r.core = some core) :
    (Tab.get (s.coreFailed core).poison (8 * w) false = true
      ∧ (⟨.poison, ⟨0, 0, 0, 0, none⟩, [r.va, core]⟩ : MonelReport) ∈ ((s.coreLost core).mayEvict ((s.coreLost core).wordsOf core)).poisonReports core)
    ∨ Tab.find (s.coreFailed core).regs w = some { r with core := none } := by
  have heach := (State.mayEvict_evicts hl (s.wordsOf core) s (.refl s)).each w
  obtain ⟨-, -, -, -, hregs, hpoison⟩ := (s.mayEvict (s.wordsOf core)).wordsLost_leaves core
  unfold State.coreFailed
  rw [s.coreLost_none core hnone, hregs, hpoison]
  rcases heach with hstands | ⟨q, hq, hgone⟩
  · have hmem : (w, r) ∈ (s.mayEvict (s.wordsOf core)).wordsOf core :=
      List.mem_filter.2 ⟨Tab.mem_of_find (hstands.trans hw), by simp [hr]⟩
    exact .inl ⟨Tab.get_puts_true _ w _ (.inr ⟨_, hmem, rfl⟩), List.mem_map.2 ⟨_, hmem, rfl⟩⟩
  · rw [hw] at hq
    cases hq
    exact .inr (Tab.find_filter_of _ (by simp) _ hgone)

end

/-- Settles O52. -/
theorem deviceEvents : Obligations.DeviceEvents := by
  intro s u pad
  refine ⟨execFunctionLevelReset_first, fun hu hr => ?_, fun i hi => ?_, fun hu hi hn => ?_, execSecurityAlarm_within, rfl,
    fun hf => congrArg Host.Outcome.next (if_pos hf), fun hf => congrArg Host.Outcome.next (if_neg (by rw [hf]; decide)), ?_,
    fun hu hc ht => ?_, fun hc => ?_⟩
  · obtain ⟨hlaunches, hgangs, hstore, hth⟩ := s.functionReset_keeps u
    obtain ⟨hseq, hstatus⟩ := ((s.stopFunction u).destroyIndexes u).windowReset_bar u
    refine ⟨_, execFunctionLevelReset_second hu hr, State.windowReset_inReset _ u, ?_, ?_, s.functionReset_indexAt u, ?_, fun ho hb hv => ?_,
      hseq, hstatus⟩
    · exact hlaunches ▸ s.stopFunction_launches u
    · exact hgangs ▸ s.stopFunction_gangs u
    · exact hstore ▸ s.stopFunction_store u
    · exact hth.trans (s.stopFunction_idle u ho hb hv)
  · obtain ⟨⟨hth, hothers, hlaunches, hgangs, hloc, hindexes, husage, hepoch⟩, hsteps⟩ := s.bootWith_leaves s.ev.num s.ev.cfg
    have hexec : exec i s = .next (s.bootWith s.ev.num s.ev.cfg) := by
      rcases List.mem_pair.1 hi with rfl | rfl <;> rfl
    exact ⟨_, hexec, hth, hothers, hlaunches, hgangs, hloc, hindexes, husage, hepoch, hsteps⟩
  · obtain ⟨t, hexec, ⟨rest, htold⟩, hnone, hacts⟩ := State.alarm_acts hu hi hn
    refine ⟨t, hexec, ⟨rest, ?_⟩, fun h => ?_, hacts⟩
    · rw [← htold]
      exact List.append_assoc ..
    · rw [hnone h]
      rfl
  · obtain ⟨mid, hmonel⟩ := s.coreFailed_monel u
    refine ⟨_, _, execCoreFailure_eq s, s.coreFailed_regs u, hmonel, fun hnone hl _ => ?_, fun ho hb hc hg => ?_⟩
    · refine ⟨(s.coreFailed_th u).trans (by rw [s.coreLost_none u hnone]), s.coreFailed_bytes u hnone hl, fun w r hw hr => ?_⟩
      exact (s.coreFailed_word u hnone hl hw hr).imp_left fun ⟨hp, hm⟩ => ⟨hp, List.mem_append_right _ hm⟩
    · obtain ⟨g, hg⟩ := Option.ne_none_iff_exists'.1 hg
      exact (s.coreFailed_th u).trans (s.coreLost_idle u ho hb hc hg)
  · exact ⟨_, execCoreOutOfService_leaves hu hc ht, List.mem_append_right _ (List.mem_singleton_self _), s.zeroPad_read u, rfl, rfl, rfl⟩
  · exact ⟨_, execCoreReturnToService_back hc, fun h => of_decide_eq_true (List.mem_filter.1 h).2 rfl, s.zeroPad_read u, rfl, rfl⟩

end Sys2Proof.Machine
end
